-- ==== Sys2Proof/Word.lean ====
section
/-!
DEFINITION. Sys2Proof/Word.lean: the words of the machine and the numbers that name registers (R4, R5, R177).
Only types and the plainest arithmetic stand here.
-/
namespace Sys2Proof

/-- A 64-bit word (R5). -/
abbrev Word := BitVec 64
/-- A byte (R5). -/
abbrev Byte := BitVec 8
/-- A 16-bit instruction parcel (R5, R155). -/
abbrev Parcel := BitVec 16
/-- The 512 bits of a vector register (R177). -/
abbrev VWord := BitVec 512
/-- The 128 bits of a tile descriptor (R124). -/
abbrev TWord := BitVec 128

/-- Number of a g register (R177). -/
abbrev GNum := Fin 32
/-- Number of a v register (R177). -/
abbrev VNum := Fin 64
/-- Number of a mask register (R177). -/
abbrev KNum := Fin 8
/-- Number of an extension register (R163). -/
abbrev ENum := Fin 8
/-- Number of a tile descriptor register (R177). -/
abbrev TNum := Fin 8
/-- Number of a timeline (R133). -/
abbrev TLNum := Fin 4
/-- A context of the cluster: core × 16 + context (R13, R16). -/
abbrev CtxId := Fin 64
/-- A core of the cluster (R1). -/
abbrev CoreId := Fin 4

/-- A cluster of the pod by its coordinates (R65). -/
structure ClusterId where
  chip : Fin 128
  x : Fin 16
  y : Fin 16
  deriving DecidableEq, Repr

/-- The format tags of R40. -/
inductive Tag where
  | raw | i8 | i16 | i32 | i64 | n8 | n16 | n32
  | f32 | bf16 | f16 | f8e4 | f8e5 | q8 | q4 | a80 | rt
  deriving DecidableEq, Repr

/-- Rounding modes of R47. -/
inductive Rnd where
  | rne | rtz | rdn | rup | sr
  deriving DecidableEq, Repr


end Sys2Proof
end

