-- ==== Sys2Proof/Syntax.lean ====
section
/-!
DEFINITION. Sys2Proof/Syntax.lean: the instructions and events of spec/opcode_table.json, one constructor per row. The rows
with an encoding carry its fields (fa and fb are the disposition bits, the x and y of the table); the rows without one
are hardware events, firmware commands and register writes, and carry what the event brings with it.
-/
namespace Sys2Proof

/-- A trap record: the fields of R310. -/
structure TrapRec where
  cause : BitVec 8
  ctx : Fin 16
  fatal : Bool
  repidx : BitVec 6
  status : BitVec 4
  pc : BitVec 48
  aux : Word
  aux2 : Word
  deriving DecidableEq, Repr

/-- What a creation carries (R24), with the sender's clock of R28 and the partition it comes from. -/
structure AMsg where
  target : ClusterId
  any : Bool
  core : CoreId
  pc : BitVec 48
  arg0 : Word
  arg1 : Word
  cls : Fin 8
  queue : Fin 8
  gval : BitVec 4
  gids : BitVec 32
  twin : Bool
  ptag : Fin 64
  prot : Bool
  clk : Nat
  src : ClusterId
  part : Nat
  deriving DecidableEq, Repr

/-- A watch as it reaches an owner port (R86, R247): the watcher, its tag, the word's offset, the threshold, the
watcher's clock, the limit of a timed watch, the partition id. -/
structure WatchReq where
  src : ClusterId
  ctx : Option CtxId
  grp : Option Nat
  tag : Nat
  off : Nat
  thr : Word
  clk : Nat
  limit : Option Nat
  part : Nat
  /-- the level of a local watcher: its registration is checked with SR or UR (R352) -/
  sup : Bool
  deriving DecidableEq, Repr

/-- What a remote read is for: a leased line of a load, a source request of a pull, the slot read of a recall, the
holder's pull of a FILLING page (R77, R97, R362, R366). -/
inductive ReadKind where
  | load | engine | recall
  deriving DecidableEq, Repr

/-- A remote read request as it reaches an owner port (R77). -/
structure ReadReq where
  src : ClusterId
  tag : Nat
  off : Nat
  size : Nat
  clk : Nat
  part : Nat
  kind : ReadKind
  /-- AUTO 0, DIRECT 1, RELAY 2: applied to the replies (R148, R254) -/
  route : BitVec 2
  /-- the FEAT0 bits the request needs of its owner, and its module's REV (R435) -/
  need : BitVec 16
  rev : Nat
  deriving DecidableEq, Repr

/-- Who acknowledges a `tinv` (R360). -/
inductive TinvAgent where
  | core (c : CoreId) | port | copyEngine | hostDma
  deriving DecidableEq, Repr

/-- A host active message as written to the message port: its 64-bit words in order (R423). -/
structure HostMsg where
  words : List Word
  deriving DecidableEq, Repr

/-- What a message of one cluster to another says (R77, R81, R145, R266, R364). -/
inductive NetBody where
  | read (r : ReadReq)
  | watch (w : WatchReq)
  | withdraw (tag : Nat)
  | amsg (m : AMsg)
  /-- the target has entered the creation, or has no FREE record for it (R26) -/
  | amsgAnswer (accepted : Bool)
  | data (tag : Nat) (bytes : List Byte) (t lease : Nat)
  | pullData (tag : Nat) (bytes : List Byte) (t : Nat)
  | status (tag : Nat) (st : BitVec 4)
  | watchStatus (tag : Nat) (st : BitVec 4)
  | deferred (tag : Nat)
  | fire (tag : Nat) (value : Word) (tf : Nat)
  | expired (tag : Nat)
  | refused (tag : Nat)
  | cancelFill (page : Nat)
  /-- a holder that is to be woken asks the owner to recall a page (R364) -/
  | recallPage (page : Nat)
  deriving DecidableEq, Repr

/-- A message of a cluster to a cluster, with the route flag it travels by (R148). -/
structure NetMsg where
  src : ClusterId
  dst : ClusterId
  route : BitVec 2
  body : NetBody
  deriving DecidableEq, Repr

/-- A message between modules with its pair sequence number (R151) and the counter in its nonce (R399); `good` says that its GCM tag
passes (R399), `skid` the link tag that has not been checked yet (R153). -/
structure PodMsg where
  seq : Nat
  nonce : Nat
  msg : NetMsg
  good : Bool
  skid : Option Nat
  deriving DecidableEq, Repr

/-- A beam: port and number (R411). -/
structure BeamId where
  port : Fin 16
  beam : Fin 64
  deriving DecidableEq, Repr

/-- Receipt of a tag group (R412, R413): whether its tag passes, the link tag that registers filled early wait for (R153), the
messages it completes, the wavelengths with an uncorrectable codeword. -/
structure GroupRcpt where
  beam : BeamId
  num : Nat
  good : Bool
  tag : Nat
  msgs : List PodMsg
  uncorr : List (Fin 8)
  deriving DecidableEq, Repr

/-- The common part of a firmware command: the function it is written to, its SEQ, the host address and length of the argument block, the
host address of its response record (R431). OPC is the row itself, and the operands of the row are what the block holds. -/
structure Cmd where
  fn : Fin 17
  seq : Nat
  argA : Nat
  argL : Nat
  rspA : Nat
  deriving DecidableEq, Repr

/-- The pod schedule of PODCFG (R141, R142, R146, R432): for each chip of the pod and each slot the chip that each of its 16
ports faces, and the budgets of the send queues by chip. A parameter that is not named takes its default (R141). -/
structure PodCfg where
  chipid : Fin 128
  slotlen : Option Nat
  guardlen : Option Nat
  nslot : Option Nat
  tables : List (Fin 128 × List (List (Option (Fin 128))))
  budgets : List (Fin 128 × Nat)
  deriving DecidableEq, Repr

/-- What LINKCFG sets (R413, R414, R416, R419, R420, R432); a parameter that is not named keeps its value. `skid` are the beams
whose mode it sets, `restart` the wavelengths it starts to train again (R416). -/
structure LinkCfg where
  skid : List (BeamId × Bool)
  restart : List (BeamId × Fin 8)
  e2eT : Option Nat
  e2eN : Option Nat
  berwin : Option Nat
  degr : Option Nat
  restore : Option Nat
  rwin : Option Nat
  rtMax : Option Nat
  deadn : Option Nat
  drainR : Option Nat
  deriving DecidableEq, Repr

/-- Launch parameters (R39, R50, R93, R101, R350, R374, R381). -/
structure Params where
  contMax : Nat
  poolBase : Nat
  holdCyc : Nat
  twin : Bool
  supPc : BitVec 48
  fused : Bool
  deferLim : Nat
  leaseLen : Nat
  ageMax : Nat
  preemptMin : Nat
  polOff : Nat
  polCnt : Nat
  jobSeed : BitVec 64
  lcluster : BitVec 8
  troot : Nat
  logMax : Nat
  logBase : Nat
  logdBase : Nat
  cmapBase : Nat
  dumpOff : Nat
  prlock : BitVec 16
  deriving DecidableEq, Repr

/-- An ingest buffer (R402). -/
structure IngestBuf where
  ptag : Nat
  cl : ClusterId
  start : Nat
  len : Nat
  deriving DecidableEq, Repr

/-- What LAUNCH carries (R432): the partition id, the function it is bound to, the clusters; for the cluster modelled its
parameters, its scratchpad images by offset and HBM images by physical offset, its group table entries by index (R35), its
protection regions; of the other clusters their group table entries by index with the member list; the participants and
whether they all agreed to debugging, the ingest buffers, the HDM pages, SAVECTR. -/
structure LaunchArgs where
  part : Nat
  fn : Fin 17
  clusters : List ClusterId
  par : Params
  images : List (Nat × List Byte)
  hbm : List (Nat × List Byte)
  groups : List (Nat × List Word)
  others : List (ClusterId × Nat × List Word × List Nat)
  regions : List (Nat × Word)
  participants : List (Fin 64)
  agreed : Bool
  bufs : List IngestBuf
  hdm : List (ClusterId × Nat)
  savectr : Nat
  deriving DecidableEq, Repr

/-- A partition as its other members hold it, for a module that has reset (R398, R407): its function, clusters, participants, those
revoked, SAVECTR, the name of its key, its measurement set; for the cluster modelled its launch parameters and its group
table entries by index. -/
structure Membership where
  fn : Fin 17
  clusters : List ClusterId
  participants : List Nat
  revoked : List Nat
  savectr : Nat
  pk : Nat
  mset : List (BitVec 256)
  par : Params
  groups : List (Nat × List Word)
  deriving DecidableEq, Repr

/-- What REJOIN carries (R407): the partition, the module, the measurement registers of its fresh quote, the groups to reform with
the largest PHASE that their other members hold, and at the module that has reset the partition. -/
structure RejoinArgs where
  part : Nat
  chip : Fin 128
  quote : List (BitVec 256)
  groups : List (Nat × Nat)
  member : Option Membership
  deriving DecidableEq, Repr

/-- The key blob of a checkpoint (R428): the identity of the module whose storage key wraps the partition key, the measurement set it is
bound to, the wrapped key. -/
structure KeyBlob where
  ident : BitVec 256
  mset : List (BitVec 256)
  wrapped : List Byte
  deriving DecidableEq, Repr

/-- What CHECKPOINT names (R428): the partition, the host ranges granted for the image by address and length. -/
structure CheckpointArgs where
  part : Nat
  ranges : List (Nat × Nat)
  deriving DecidableEq, Repr

/-- What RESTORE carries (R428): the partition, the key blob, the chunks by cluster and physical offset. -/
structure RestoreArgs where
  part : Nat
  blob : KeyBlob
  chunks : List (ClusterId × Nat × List Byte)
  deriving DecidableEq, Repr

/-- The readings of a sample (R436): junction temperatures of 16 sensors on each of the four dies and HBM temperatures of the eight stacks
in °C, rails as millivolts and milliamperes, how many the spec does not say, the 1 ms average power in W. -/
structure Sensors where
  junction : Vector Int 64
  hbm : Vector Int 8
  rails : List (Nat × Nat)
  power : Nat
  deriving DecidableEq, Repr

/-- TDISP requests that move an interface (R408). -/
inductive TdispReq where
  | lock | start | stop
  deriving DecidableEq, Repr

/-- The opcode table, one constructor per row (chapter 07 for the encodings). The events stand first: the run-time limit
on constructor tags lets compiled Lean build only the first 245 constructors, and the meanings build events, while only
the decoder builds instructions. -/
inductive Instr where
  /-- R429. Powers up, measures and starts firmware, scrubs memory and reports READY. -/
  | coldReset
  /-- R430. A function-level reset of the physical function performs a warm reset. -/
  | functionLevelReset
  /-- R423. A 64-byte write to the message port is authenticated, checked and accepted as a creation or rejected. -/
  | hostActiveMessage (fn : Fin 17) (m : HostMsg)
  /-- R26. An active message reaching a cluster is bound, queued or refused. -/
  | amsgArrival (m : AMsg)
  /-- R26. A refused active message is offered again from the sending NI's outbound queue. -/
  | amsgReoffer (dst : ClusterId) (accepted : Bool)
  /-- R21. The hold window of a waiting form ends with its condition unmet, starting a suspension. -/
  | holdWindowEnd (c : CtxId)
  /-- R23. After the timeline operations complete, the record is written and the context becomes IDLE. -/
  | suspension (c : CtxId)
  /-- R346. The scheduler runs the policy to bind a QUEUED record to an offered IDLE context. -/
  | dispatchDecision (c : CtxId)
  /-- R346. A context left IDLE by NONE is offered again after 1,024 cycles. -/
  | dispatchReoffer (c : CtxId)
  /-- R347. The scheduler decides whether to stop a lower-class victim for an urgent QUEUED record. -/
  | preemptDecision (r : Nat)
  /-- R348. The scheduler decides the fate of a faulted continuation: park, kill, requeue or escalate. -/
  | faultDecision (c : CtxId)
  /-- R349. The shadow policy becomes active at the first decision boundary after polsw. -/
  | policySwap
  /-- R311. Context 0 takes a trap record and enters its handler at TVEC. -/
  | handlerEntry (core : Fin 4)
  /-- R380. A fatal cause dumps the context and its cause chain, releases it and queues the fatal record. -/
  | fatalFault (c : CtxId) (r : TrapRec) (port : Bool)
  /-- R383. After a twin mismatch with no atomic, the pair waits for its timelines and restarts from its record. -/
  | twinRestart (c : CtxId)
  /-- R209. A changed F/E word is offered to its blocked waiters in round-robin order. -/
  | feWaiterOffer (word : Nat)
  /-- R86. The owner port registers a watch, fires it at once or refuses it. -/
  | watchRegistration (w : WatchReq)
  /-- R102. A fire reaches the watcher, writes the value and advances its clock. -/
  | watchFireReceipt (tag : Nat) (value : Word) (tf : Nat) (skid : Option Nat)
  /-- R249. A timed watch's limit ends at the owner port, freeing the entry and sending EXPIRED. -/
  | watchExpiry (src : ClusterId) (tag : Nat)
  /-- R248. An EXPIRED reply completes a timed watch with zero. -/
  | watchExpiredReceipt (tag : Nat)
  /-- R88. A refusal reaches the watcher and raises trap 0x13. -/
  | watchRefusedReceipt (tag : Nat)
  /-- R250. A status reply poisons the watch register or requeues a suspended record. -/
  | watchStatusReceipt (tag : Nat) (st : BitVec 4)
  /-- R245. The NI withdraws a watch entry of an abandoned attempt. -/
  | watchWithdrawal (src : ClusterId) (tag : Nat)
  /-- R88. A refused or status-answered round watch is sent again every 1,024 cycles. -/
  | roundWatchRetry (grp : Nat)
  /-- R37. A round watch fires, and the NI advances its round word for the next round. -/
  | roundComplete (grp : Nat) (tf : Nat)
  /-- R262. A timed group wait's limit ends and it returns TIMEOUT. -/
  | gwaitLimitExpiry (c : CtxId)
  /-- R386. The security core's notice makes group entries BROKEN, aborting rounds and waits. -/
  | groupBrokenNotice (cl : ClusterId)
  /-- R77. The owner port checks, translates and reads a remote request and replies. -/
  | remoteRequest (r : ReadReq)
  /-- R97. A data reply completes a remote load and caches the line under its lease. -/
  | remoteDataReply (tag : Nat) (bytes : List Byte) (t lease : Nat) (skid : Option Nat)
  /-- R78. A final non-OK status completes a remote load with a poisoned destination. -/
  | remoteStatusReply (tag : Nat) (st : BitVec 4)
  /-- R80. A DEFERRED reply keeps the requester BLOCKED and schedules a resend. -/
  | deferredReply (tag : Nat)
  /-- R80. The NI resends a deferred request after 1,024 cycles. -/
  | deferredResend (tag : Nat)
  /-- R80. DEFER_LIM passes and the access completes with DEFERRED_EXPIRED. -/
  | deferLimitExpiry (tag : Nat)
  /-- R130. The copy engine sends a source request of at most 4 KiB and counts it in EXPB. -/
  | copyRequestSend (op : Nat)
  /-- R131. A source data reply is accepted, counted and written to the destination. -/
  | pullDataReply (tag : Nat) (bytes : List Byte) (t : Nat)
  /-- R131. A copy-engine operation completes with its status and advances its timeline. -/
  | copyOpCompletion (op : Nat)
  /-- R274. The matrix engine starts the next direct-queue entry when allowed. -/
  | directEntryStart
  /-- R281. A shadow-plane load ends, setting SHS FULL or trapping on bad metadata. -/
  | planeLoadCompletion
  /-- R119. A streaming pass completes at its last accumulator write. -/
  | passCompletion
  /-- R120. After a first residue mismatch the pass drains and streams the failing rows again. -/
  | residueRestream (row : Nat)
  /-- R286. A conversion's last destination write completes it. -/
  | mcvtCompletion
  /-- R285. Zeroing of accumulator rows completes. -/
  | mzeroCompletion
  /-- R136. A submitted task record becomes visible to the walker 4 cycles after mtask. -/
  | taskVisible (idx : Nat)
  /-- R138. The walker launches the highest-priority READY task on a free engine. -/
  | taskLaunch
  /-- R139. The walker writes status and state, advances the timeline and decrements successors. -/
  | taskCompletion (idx : Nat)
  /-- R365. A trigger starts the recall of a non-resident page. -/
  | recallStart (page : Nat)
  /-- R365. A pending page starts its recall when a running recall ends. -/
  | pendingRecallStart
  /-- R364. The holder receives a cancel notice and clears its map entry. -/
  | fillCancelNotice (owner : ClusterId) (page : Nat)
  /-- R366. The page data returns, the log is applied and the page becomes RESIDENT. -/
  | recallCompletion (page : Nat)
  /-- R357. A walk re-reads a pointer with MIG set every 64 cycles. -/
  | walkMigRetry (c : CtxId)
  /-- R357. A walk waiting on MIG for 4,096 cycles gives WALKNR. -/
  | walkMigTimeout (c : CtxId)
  /-- R360. An agent acknowledges a translation shoot-down. -/
  | tinvAcknowledge (agent : TinvAgent)
  /-- R141. A new orrery slot begins with its guard interval. -/
  | slotBoundary
  /-- R147. The guard ends; relay credits are granted and queue heads are routed and sent. -/
  | guardEnd
  /-- R143. The orrery loses lock; SYNC becomes 0 and sending stops. -/
  | rotorLockLoss
  /-- R143. Lock is regained at a slot boundary and sending resumes after the guard. -/
  | rotorLockRegain
  /-- R149. A module receives a message to relay and holds it as ciphertext. -/
  | relayReceive (m : PodMsg)
  /-- R151. An inter-module message is received and delivered in pair sequence order or held. -/
  | pairSequenceDelivery (m : PodMsg)
  /-- R414. An acknowledgement releases retained messages. -/
  | pairAckReceipt (chip : Fin 128) (seq : Nat)
  /-- R414. A retained message's end-to-end timer expires, resending or abandoning it. -/
  | e2eTimerExpiry (chip : Fin 128) (seq : Nat)
  /-- R414. An ABANDON notice stops the receiver holding later messages. -/
  | abandonNotice (chip : Fin 128) (seq : Nat) (answers : Option Nat)
  /-- R412. A tag group is checked and released, replayed or failed. -/
  | tagGroupReceipt (g : GroupRcpt)
  /-- R412. A group acknowledgement releases the sender's kept groups. -/
  | tagGroupAck (b : BeamId) (grp : Nat) (ok : Bool)
  /-- R411. Idle flits close an open tag group within 16 ns. -/
  | idleGroupClose (b : BeamId)
  /-- R416. A wavelength's error window ends and drop or take-back is decided. -/
  | berWindowEnd (b : BeamId) (tx : Bool) (wl : Fin 8) (errors : Nat)
  /-- R419. A port receiving nothing 2 µs after the guard counts as down. -/
  | portDownCheck (port : Fin 16) (received : Bool)
  /-- R419. A LOST notice is received, kept with the earliest C0 and flooded. -/
  | lostNotice (chip : Fin 128) (c0 : Nat)
  /-- R420. A numbered drain round for a lost module begins when CYCLE reaches C0 + k. -/
  | drainRound (chip : Fin 128) (k : Nat)
  /-- R300. A module fails and every cluster on it counts as killed. -/
  | moduleFailure (chip : Fin 128)
  /-- R386. A cluster is sealed in one cycle, answering OWNER_LOST and discarding work. -/
  | clusterKill (cl : ClusterId)
  /-- R387. A quarantined cluster's scrub begins once its seal and dumps complete. -/
  | scrubStart (cl : ClusterId)
  /-- R410. A scrub completes, a receipt is signed and the cluster becomes FREE. -/
  | scrubCompletion (cl : ClusterId)
  /-- R427. An ATS invalidation stops new requests and withholds completion until drained. -/
  | atsInvalidation (page : Nat)
  /-- R427. At 64 µs outstanding requests are abandoned and the completion is sent. -/
  | atsInvalTimeout (page : Nat)
  /-- R424. The host reads an HDM page through CXL.mem. -/
  | hdmHostRead (cl : ClusterId) (off : Nat)
  /-- R424. A host write to HDM completes with poison and changes nothing. -/
  | hdmHostWrite (cl : ClusterId) (off : Nat) (value : Byte)
  /-- R408. Entering CONFIG_LOCKED arms the write-watch bitmap. -/
  | tdispConfigLock (fn : Fin 17)
  /-- R408. A host write to a marked register moves the interface to ERROR and tears down its partitions. -/
  | markedRegisterWrite (fn : Fin 17) (reg : Nat)
  /-- R408. A host write to an unmarked read-only management register is ignored. -/
  | mgmtRegisterWrite (fn : Fin 17) (reg : Nat)
  /-- R431. A wrongly sized or aligned port write is discarded and reported. -/
  | portWriteDiscard (fn : Fin 17) (size : Nat)
  /-- R432. Returns boot status, owner registers and feature vectors. -/
  | status (c : Cmd)
  /-- R430. Tears down every partition and repeats reset steps 4 to 6. -/
  | warmreset (c : Cmd)
  /-- R434. Sets FEAT0 and FEAT1 before the first launch. -/
  | featset (c : Cmd) (feat0 feat1 : Word)
  /-- R432. Sets CHIPID, slot parameters, peer tables and budgets. -/
  | podcfg (c : Cmd) (p : PodCfg)
  /-- R432. Sets beam modes and link parameters. -/
  | linkcfg (c : Cmd) (p : LinkCfg)
  /-- R418. Reads and clears the link counters. -/
  | linkstat (c : Cmd)
  /-- R397. Assigns FREE clusters to a new partition with its parameters, images and keys. -/
  | launch (c : Cmd) (l : LaunchArgs)
  /-- R387. Ends a partition with chosen scrub methods and an optional HOLD. -/
  | teardown (c : Cmd) (part : Nat) (spadMethod hbmMethod : Nat) (hold : Bool)
  /-- R384. Kills one cluster of a bound partition. -/
  | kill (c : Cmd) (cl : ClusterId)
  /-- R364. Wakes a holder cluster once its cocooned pages are recalled. -/
  | wake (c : Cmd) (cl : ClusterId)
  /-- R407. Readmits a reset module with a fresh quote and reforms named groups. -/
  | rejoin (c : Cmd) (r : RejoinArgs)
  /-- R403. Revokes one participant of a partition. -/
  | revoke (c : Cmd) (part : Nat) (ptag : Fin 64)
  /-- R401. Installs a participant's ingest key. -/
  | ingestkey (c : Cmd) (part : Nat) (ptag : Fin 64) (key : Nat)
  /-- R406. Returns a signed quote for a verifier's nonce. -/
  | quote (c : Cmd) (part : Nat) (nonce : Nat)
  /-- R387. Copies dump areas of quarantined clusters to the host. -/
  | dumpget (c : Cmd) (cl : ClusterId) (core : Fin 4)
  /-- R428. Copies HBM ciphertext and a wrapped key blob to host ranges. -/
  | checkpoint (c : Cmd) (a : CheckpointArgs)
  /-- R428. Restores a checkpoint on the same module with an equal measurement set. -/
  | restore (c : Cmd) (r : RestoreArgs)
  /-- R426. Sets the bias of one HDM page. -/
  | bias (c : Cmd) (part : Nat) (page : Nat) (host : Bool)
  /-- R433. Sets the host range for this function's events. -/
  | evtcfg (c : Cmd) (base len : Nat)
  /-- R436. Returns every monitor reading with its sample time. -/
  | monread (c : Cmd)
  /-- R438. Sets the power limit PLIM. -/
  | pwrlim (c : Cmd) (watts : Nat)
  /-- R432. Enables trap 0x1C on named contexts of an agreeing partition. -/
  | debug (c : Cmd) (part : Nat) (ctxs : List CtxId)
  /-- R431. A command with an unassigned OPC returns UNKNOWN. -/
  | commandUnknown (c : Cmd)
  /-- R437. Sensors are sampled every 1 ms and thresholds and power limit acted on. -/
  | sensorSample (s : Sensors)
  /-- R437. A rail outside ±5 % for 10 µs fails the module. -/
  | railExcursion (rail : Nat)
  /-- R308. Writing 1 advances SAVECTR in every cluster of the partition. -/
  | saveadv (v : Word)
  /-- R308. A write of SCTL sets TMASK, and clearing it lets waiting trap records be delivered. -/
  | sctlWrite (v : Word)
  /-- R309. Sets the resume PC of a STOPPED or FAULTED context. -/
  | cpcWrite (v : Word)
  /-- R309. Sets the resume REPIDX of a STOPPED or FAULTED context. -/
  | crepxWrite (v : Word)
  /-- R246. A swr to a special register with no behaviour of its own writes it. -/
  | specialRegisterWrite (num : BitVec 16) (v : Word)
  /-- R176. An instruction word that no table assigns, such as a reserved major, op, kind or 16-bit op, raises trap 0x01 and performs nothing. -/
  | illegalEncoding (w : BitVec 32)
  /-- R156. When fetching either parcel of an instruction fails, the instruction raises the fetch check's trap at its own address. -/
  | fetchFault (cause : BitVec 8) (addr : Word)
  /-- R422. A host request of hget or hsend whose completion has not come within 50 ms ends its operation with status 5. -/
  | hostCompletionTimeout (op : Nat)
  /-- R408. A TDISP request moves an interface between CONFIG_UNLOCKED, CONFIG_LOCKED and RUN under the TDISP specification. -/
  | tdispInterfaceRequest (fn : Fin 17) (r : TdispReq)
  /-- R419. A management command declares a peer module lost, recording C0 and flooding LOST notices. -/
  | managementLossDeclaration (chip : Fin 128)
  /-- R360. A core that is power-gated clears its translation caches, and its power controller answers shoot-downs for it. -/
  | corePowerGating (core : Fin 4)
  /-- R360. A debugger halts a core, and its translation agent still acknowledges shoot-downs. -/
  | debuggerHalt (core : Fin 4)
  /-- R191. Writes g[d] := A + B modulo 2^64. -/
  | add (d a b : GNum) (fa fb : Bool)
  /-- R191. Writes g[d] := A − B modulo 2^64. -/
  | sub (d a b : GNum) (fa fb : Bool)
  /-- R191. Writes the bitwise and of A and B. -/
  | and (d a b : GNum) (fa fb : Bool)
  /-- R191. Writes the bitwise or of A and B. -/
  | or (d a b : GNum) (fa fb : Bool)
  /-- R191. Writes the bitwise exclusive or of A and B. -/
  | xor (d a b : GNum) (fa fb : Bool)
  /-- R191. Writes A and not B. -/
  | andn (d a b : GNum) (fa fb : Bool)
  /-- R191. Writes A or not B. -/
  | orn (d a b : GNum) (fa fb : Bool)
  /-- R191. Writes not (A xor B). -/
  | xnor (d a b : GNum) (fa fb : Bool)
  /-- R191. Writes A shifted left by B[5:0]. -/
  | sll (d a b : GNum) (fa fb : Bool)
  /-- R191. Writes A shifted logically right by B[5:0]. -/
  | srl (d a b : GNum) (fa fb : Bool)
  /-- R191. Writes A shifted arithmetically right by B[5:0]. -/
  | sra (d a b : GNum) (fa fb : Bool)
  /-- R191. Writes A rotated left by B[5:0]. -/
  | rol (d a b : GNum) (fa fb : Bool)
  /-- R191. Writes A rotated right by B[5:0]. -/
  | ror (d a b : GNum) (fa fb : Bool)
  /-- R191. Writes the low 64 bits of A × B. -/
  | mul (d a b : GNum) (fa fb : Bool)
  /-- R191. Writes bits 127:64 of the signed product. -/
  | mulh (d a b : GNum) (fa fb : Bool)
  /-- R191. Writes bits 127:64 of the unsigned product. -/
  | mulhn (d a b : GNum) (fa fb : Bool)
  /-- R191. Writes the signed quotient truncated towards zero, with fixed results for zero divisor and overflow. -/
  | div (d a b : GNum) (fa fb : Bool)
  /-- R191. Writes the unsigned quotient; B = 0 gives all ones. -/
  | divn (d a b : GNum) (fa fb : Bool)
  /-- R191. Writes the signed remainder with the sign of A. -/
  | rem (d a b : GNum) (fa fb : Bool)
  /-- R191. Writes A mod B unsigned; B = 0 gives A. -/
  | remn (d a b : GNum) (fa fb : Bool)
  /-- R191. Writes the signed minimum. -/
  | min (d a b : GNum) (fa fb : Bool)
  /-- R191. Writes the signed maximum. -/
  | max (d a b : GNum) (fa fb : Bool)
  /-- R191. Writes the unsigned minimum. -/
  | minn (d a b : GNum) (fa fb : Bool)
  /-- R191. Writes the unsigned maximum. -/
  | maxn (d a b : GNum) (fa fb : Bool)
  /-- R191. Writes 1 if A < B signed, else 0. -/
  | slt (d a b : GNum) (fa fb : Bool)
  /-- R191. Writes 1 if A < B unsigned, else 0. -/
  | sltn (d a b : GNum) (fa fb : Bool)
  /-- R191. Writes 1 if A == B, else 0. -/
  | seq (d a b : GNum) (fa fb : Bool)
  /-- R191. Writes 1 if A ≠ B, else 0. -/
  | sne (d a b : GNum) (fa fb : Bool)
  /-- R191. Writes the count of leading zero bits of A. -/
  | clz (d a : GNum) (fa : Bool)
  /-- R191. Writes the count of trailing zero bits of A. -/
  | ctz (d a : GNum) (fa : Bool)
  /-- R191. Writes the count of one bits of A. -/
  | popc (d a : GNum) (fa : Bool)
  /-- R191. Writes A with its bit order reversed. -/
  | brev (d a : GNum) (fa : Bool)
  /-- R191. Writes A with its byte order reversed. -/
  | bswap (d a : GNum) (fa : Bool)
  /-- R191. Writes SignExt(A[7:0]). -/
  | sx8 (d a : GNum) (fa : Bool)
  /-- R191. Writes SignExt(A[15:0]). -/
  | sx16 (d a : GNum) (fa : Bool)
  /-- R191. Writes SignExt(A[31:0]). -/
  | sx32 (d a : GNum) (fa : Bool)
  /-- R191. Writes A[7:0] zero-extended. -/
  | zx8 (d a : GNum) (fa : Bool)
  /-- R191. Writes A[15:0] zero-extended. -/
  | zx16 (d a : GNum) (fa : Bool)
  /-- R191. Writes A[31:0] zero-extended. -/
  | zx32 (d a : GNum) (fa : Bool)
  /-- R191. Writes the signed saturating sum. -/
  | adds (d a b : GNum) (fa fb : Bool)
  /-- R191. Writes the signed saturating difference. -/
  | subs (d a b : GNum) (fa fb : Bool)
  /-- R191. Writes the unsigned saturating sum. -/
  | addsn (d a b : GNum) (fa fb : Bool)
  /-- R191. Writes the unsigned saturating difference. -/
  | subsn (d a b : GNum) (fa fb : Bool)
  /-- R192. Writes A if the old g[d] is non-zero, else B. -/
  | sel (d a b : GNum) (fa fb : Bool)
  /-- R193. Writes A plus the sign-extended immediate. -/
  | addi (d a : GNum) (fa : Bool) (imm : BitVec 13)
  /-- R193. Writes A and the sign-extended immediate. -/
  | andi (d a : GNum) (fa : Bool) (imm : BitVec 13)
  /-- R193. Writes A or the zero-extended immediate. -/
  | ori (d a : GNum) (fa : Bool) (imm : BitVec 13)
  /-- R193. Writes A xor the zero-extended immediate. -/
  | xori (d a : GNum) (fa : Bool) (imm : BitVec 13)
  /-- R193. Shifts A left by an immediate amount. -/
  | slli (d a : GNum) (fa : Bool) (n : BitVec 6)
  /-- R193. Shifts A logically right by an immediate amount. -/
  | srli (d a : GNum) (fa : Bool) (n : BitVec 6)
  /-- R193. Shifts A arithmetically right by an immediate amount. -/
  | srai (d a : GNum) (fa : Bool) (n : BitVec 6)
  /-- R193. Rotates A left by an immediate amount. -/
  | roli (d a : GNum) (fa : Bool) (n : BitVec 6)
  /-- R193. Rotates A right by an immediate amount. -/
  | rori (d a : GNum) (fa : Bool) (n : BitVec 6)
  /-- R193. Writes 1 if A is below the sign-extended immediate, signed. -/
  | slti (d a : GNum) (fa : Bool) (imm : BitVec 13)
  /-- R193. Writes 1 if A is below the zero-extended immediate, unsigned. -/
  | sltni (d a : GNum) (fa : Bool) (imm : BitVec 13)
  /-- R194. Extracts a bit field of A, zero-extended. -/
  | bfx (d a : GNum) (fa : Bool) (len pos : BitVec 6)
  /-- R194. Extracts a bit field of A, sign-extended. -/
  | bfxs (d a : GNum) (fa : Bool) (len pos : BitVec 6)
  /-- R194. Inserts the low bits of A into a field of g[d]. -/
  | bfi (d a : GNum) (fa : Bool) (len pos : BitVec 6)
  /-- R195. Sets g[d] to the sign-extended 16-bit immediate shifted by 16h. -/
  | lim (d : GNum) (h : Fin 4) (imm : BitVec 16)
  /-- R195. Replaces bits 16h+15:16h of g[d] with the immediate. -/
  | limk (d : GNum) (h : Fin 4) (imm : BitVec 16)
  /-- R196. Builds an absolute-form address from packed coordinates and an offset. -/
  | leaA (d a b : GNum) (fa fb : Bool)
  /-- R196. Builds a relative-form address from packed deltas and an offset. -/
  | leaR (d a b : GNum) (fa fb : Bool)
  /-- R196. Resolves an address to absolute form and adds an offset without carry into coordinates. -/
  | leaS (d a b : GNum) (fa fb : Bool)
  /-- R197. Writes the issuer's identity word. -/
  | myid (d : GNum)
  /-- R236. Writes the bitwise and of two mask registers. -/
  | kand (d a b : KNum)
  /-- R236. Writes the bitwise or of two mask registers. -/
  | kor (d a b : KNum)
  /-- R236. Writes the exclusive or of two mask registers. -/
  | kxor (d a b : KNum)
  /-- R236. Writes ka and not kb. -/
  | kandn (d a b : KNum)
  /-- R236. Writes not ka. -/
  | knot (d a : KNum)
  /-- R236. Copies a g register into a mask register. -/
  | kfromg (d : KNum) (a : GNum) (fa : Bool)
  /-- R236. Copies a mask register into a g register. -/
  | ktog (d : GNum) (a : KNum)
  /-- R236. Writes the number of one bits of a mask. -/
  | kpop (d : GNum) (a : KNum)
  /-- R236. Writes the index of the lowest one bit of a mask, or 64. -/
  | kfirst (d : GNum) (a : KNum)
  /-- R233. Permutes the lanes of va by indices in vb. -/
  | vperm (d a b : VNum) (k : KNum) (fa fb : Bool)
  /-- R233. Permutes lanes from a two-register table by indices in vb. -/
  | vperm2 (d a b : VNum) (k : KNum) (fa fb : Bool)
  /-- R234. Interleaves the lanes of va and vb into vd and vd + 1. -/
  | vzip (d a b : VNum) (fa fb : Bool)
  /-- R234. De-interleaves the lanes of va and vb into vd and vd + 1. -/
  | vunzip (d a b : VNum) (fa fb : Bool)
  /-- R229. Applies a block scale to Q8 or Q4 elements, giving F32. -/
  | vscl (d a b : VNum) (k : KNum) (fa fb : Bool)
  /-- R229. Quantises float elements to Q8 by dividing by a block scale. -/
  | vqnt (d a b : VNum) (k : KNum) (fa fb : Bool)
  /-- R198. Branches if A == B. -/
  | beq (a b : GNum) (disp : BitVec 14)
  /-- R198. Branches if A ≠ B. -/
  | bne (a b : GNum) (disp : BitVec 14)
  /-- R198. Branches if A < B signed. -/
  | blt (a b : GNum) (disp : BitVec 14)
  /-- R198. Branches if A ≥ B signed. -/
  | bge (a b : GNum) (disp : BitVec 14)
  /-- R198. Branches if A < B unsigned. -/
  | bltn (a b : GNum) (disp : BitVec 14)
  /-- R198. Branches if A ≥ B unsigned. -/
  | bgen (a b : GNum) (disp : BitVec 14)
  /-- R199. Jumps by a 24-bit parcel displacement. -/
  | j (disp : BitVec 24)
  /-- R199. Writes the return address to g31 and jumps. -/
  | call (disp : BitVec 24)
  /-- R200. Jumps to the address in g[a] after alignment and own-memory checks. -/
  | jr (a : GNum) (fa : Bool)
  /-- R200. Writes the return address to g[d] and jumps to g[a]. -/
  | callr (d a : GNum) (fa : Bool)
  /-- R203. Loads one byte, sign-extended, from a local or remote owner. -/
  | ldI8 (d base : GNum) (fa : Bool) (off : BitVec 10)
  /-- R203. Loads two bytes, sign-extended. -/
  | ldI16 (d base : GNum) (fa : Bool) (off : BitVec 10)
  /-- R203. Loads four bytes, sign-extended. -/
  | ldI32 (d base : GNum) (fa : Bool) (off : BitVec 10)
  /-- R203. Loads eight bytes. -/
  | ldI64 (d base : GNum) (fa : Bool) (off : BitVec 10)
  /-- R203. Loads one byte, zero-extended. -/
  | ldN8 (d base : GNum) (fa : Bool) (off : BitVec 10)
  /-- R203. Loads two bytes, zero-extended. -/
  | ldN16 (d base : GNum) (fa : Bool) (off : BitVec 10)
  /-- R203. Loads four bytes, zero-extended. -/
  | ldN32 (d base : GNum) (fa : Bool) (off : BitVec 10)
  /-- R205. Stores one byte to own memory. -/
  | stI8 (s base : GNum) (fa : Bool) (off : BitVec 10)
  /-- R205. Stores two bytes to own memory. -/
  | stI16 (s base : GNum) (fa : Bool) (off : BitVec 10)
  /-- R205. Stores four bytes to own memory. -/
  | stI32 (s base : GNum) (fa : Bool) (off : BitVec 10)
  /-- R205. Stores eight bytes to own memory. -/
  | stI64 (s base : GNum) (fa : Bool) (off : BitVec 10)
  /-- R208. Waits for a full scratchpad word, reads it and leaves it empty. -/
  | ldfe (d base : GNum) (fa : Bool) (off : BitVec 10)
  /-- R208. Waits for a full scratchpad word, reads it and leaves it full. -/
  | ldff (d base : GNum) (fa : Bool) (off : BitVec 10)
  /-- R208. Waits for an empty scratchpad word, writes it and leaves it full. -/
  | stfe (s base : GNum) (fa : Bool) (off : BitVec 10)
  /-- R208. Writes a scratchpad word without waiting and leaves it full. -/
  | stff (s base : GNum) (fa : Bool) (off : BitVec 10)
  /-- R208. Leaves a scratchpad word empty without waiting. -/
  | purge (base : GNum) (fa : Bool) (off : BitVec 10)
  /-- R212. Atomically adds v to a local word and returns the old value. -/
  | aadd (d a b : GNum) (fa fb w32 : Bool)
  /-- R212. Atomically adds v to a local word without return. -/
  | aaddNr (a b : GNum) (fa fb w32 : Bool)
  /-- R212. Atomic and, returning the old value. -/
  | aand (d a b : GNum) (fa fb w32 : Bool)
  /-- R212. Atomic and without return. -/
  | aandNr (a b : GNum) (fa fb w32 : Bool)
  /-- R212. Atomic or, returning the old value. -/
  | aor (d a b : GNum) (fa fb w32 : Bool)
  /-- R212. Atomic or without return. -/
  | aorNr (a b : GNum) (fa fb w32 : Bool)
  /-- R212. Atomic exclusive or, returning the old value. -/
  | axor (d a b : GNum) (fa fb w32 : Bool)
  /-- R212. Atomic exclusive or without return. -/
  | axorNr (a b : GNum) (fa fb w32 : Bool)
  /-- R212. Atomic signed minimum, returning the old value. -/
  | amin (d a b : GNum) (fa fb w32 : Bool)
  /-- R212. Atomic signed minimum without return. -/
  | aminNr (a b : GNum) (fa fb w32 : Bool)
  /-- R212. Atomic signed maximum, returning the old value. -/
  | amax (d a b : GNum) (fa fb w32 : Bool)
  /-- R212. Atomic signed maximum without return. -/
  | amaxNr (a b : GNum) (fa fb w32 : Bool)
  /-- R212. Atomic unsigned minimum, returning the old value. -/
  | aminn (d a b : GNum) (fa fb w32 : Bool)
  /-- R212. Atomic unsigned minimum without return. -/
  | aminnNr (a b : GNum) (fa fb w32 : Bool)
  /-- R212. Atomic unsigned maximum, returning the old value. -/
  | amaxn (d a b : GNum) (fa fb w32 : Bool)
  /-- R212. Atomic unsigned maximum without return. -/
  | amaxnNr (a b : GNum) (fa fb w32 : Bool)
  /-- R212. Atomically swaps v into a local word and returns the old value. -/
  | aswap (d a b : GNum) (fa fb w32 : Bool)
  /-- R212. Atomically writes v if the word equals g[d], returning the old value. -/
  | acas (d a b : GNum) (fa fb w32 : Bool)
  /-- R248. Registers a watch on a sequence word and waits for its fire, possibly suspending. -/
  | watch (d a b : GNum) (fa fb : Bool)
  /-- R248. Registers a timed watch and waits in place for fire or expiry. -/
  | watchT (d a b : GNum) (fa fb : Bool) (e : ENum)
  /-- R251. Waits for earlier engine operations, then raises a sequence word to max(old, B). -/
  | seqAdv (d a b : GNum) (fa fb : Bool)
  /-- R252. Waits for earlier copy operations, compares EXPB with RCVB and clears both. -/
  | pfence
  /-- R252. Suspends the continuation as QUEUED at the tail of its queue. -/
  | yield
  /-- R252. Suspends the continuation as SUSPENDED with WAIT 0x4. -/
  | park
  /-- R29. Waits for timeline operations, frees the record and leaves the context IDLE. -/
  | exit
  /-- R256. Starts a copy of contiguous bytes from a device address into own memory. -/
  | pull (a b : GNum) (fa fb : Bool) (e : ENum)
  /-- R256. Starts a two-dimensional pull of rows. -/
  | pull2d (d a b : GNum) (fa fb : Bool) (e : ENum)
  /-- R256. Starts a gather pull from a list of device addresses. -/
  | pullG (d b : GNum) (fb : Bool) (e : ENum)
  /-- R256. Starts a pull that accumulates into own memory. -/
  | pullAdd (a b : GNum) (fa fb : Bool) (e : ENum)
  /-- R256. Starts a copy between two ranges of own memory. -/
  | copy (a b : GNum) (fa fb : Bool) (e : ENum)
  /-- R256. Starts a read of host memory into own memory. -/
  | hget (a b : GNum) (fa fb : Bool) (e : ENum)
  /-- R256. Starts a write of own memory to host memory. -/
  | hsend (a b : GNum) (fa fb : Bool) (e : ENum)
  /-- R265. Creates a continuation in own cluster, or wakes a parked record. -/
  | spawn (d a b : GNum) (fa fb : Bool) (e : ENum)
  /-- R266. Queues an active message to a target cluster. -/
  | amsg (d a b : GNum) (fa fb : Bool) (e : ENum)
  /-- R259. Waits until a timeline reaches n and takes its time. -/
  | tlwait (d : GNum) (tl : TLNum)
  /-- R259. Tests whether a timeline has reached n. -/
  | tltest (d : GNum) (tl : TLNum)
  /-- R259. Reads a timeline's VAL. -/
  | tlrd (d : GNum) (tl : TLNum)
  /-- R259. Reads a timeline's HIGH. -/
  | tlhigh (d : GNum) (tl : TLNum)
  /-- R259. Reads a timeline's error word and clears ESTAT. -/
  | tlerr (d : GNum) (tl : TLNum)
  /-- R262. Arrives on a group and returns the phase. -/
  | garrive (d : GNum) (idx : BitVec 8)
  /-- R262. Waits for a group phase to complete, possibly suspending. -/
  | gwait (d : GNum) (idx : BitVec 8)
  /-- R262. Waits in place for a group phase with a time limit. -/
  | gwaitT (d : GNum) (e : ENum) (idx : BitVec 8)
  /-- R262. Arrives on a group and waits on the same phase. -/
  | gsync (d : GNum) (idx : BitVec 8)
  /-- R262. Reads a group's state and phase. -/
  | gquery (d : GNum) (idx : BitVec 8)
  /-- R267. Reads one calendar item of the orrery. -/
  | calrd (d : GNum) (item : BitVec 10)
  /-- R246. Reads a special register into g[d]. -/
  | srd (d : GNum) (num : BitVec 16)
  /-- R246. Writes g[d] to a special register. -/
  | swr (d : GNum) (num : BitVec 16)
  /-- R268. Copies an extension register into g[d]. -/
  | erd (d : GNum) (e : ENum)
  /-- R268. Copies g[d] into an extension register. -/
  | ewr (d : GNum) (e : ENum)
  /-- R270. Checks and writes a tile descriptor from two g registers. -/
  | tset (a b : GNum) (fa fb : Bool) (t : TNum)
  /-- R271. Reads word 0 of a tile descriptor. -/
  | tgetW0 (d : GNum) (t : TNum)
  /-- R271. Reads word 1 of a tile descriptor. -/
  | tgetW1 (d : GNum) (t : TNum)
  /-- R280. Sends a shadow-plane load of a B tile to the direct queue. -/
  | mld (t : TNum)
  /-- R280. Sends a shadow-plane load of a transposed B tile to the direct queue. -/
  | mldt (t : TNum)
  /-- R279. Sets the context's sparsity latch to a metadata tile and N. -/
  | mmeta (a : GNum) (fa : Bool) (t : TNum)
  /-- R282. Sends a plane swap to the direct queue. -/
  | mswap
  /-- R283. Sends a streaming pass of an A tile to the direct queue. -/
  | mstream (a : GNum) (fa : Bool) (t : TNum)
  /-- R285. Sends the zeroing of accumulator rows to the direct queue. -/
  | mzero (a : GNum) (fa : Bool)
  /-- R286. Sends the conversion of an accumulator block into a tile to the direct queue. -/
  | mcvt (a b : GNum) (fa fb : Bool) (t : TNum)
  /-- R289. Submits a task record to the task walker. -/
  | mtask (a : GNum) (fa : Bool)
  /-- R322. Ends a trap handler, acting on the faulted context and returning context 0. -/
  | tret (a : GNum) (fa : Bool)
  /-- R323. Makes a STOPPED context READY. -/
  | cstart (d a : GNum) (fa : Bool)
  /-- R323. Stops a context at its next boundary and waits until it is STOPPED. -/
  | cstop (d a : GNum) (fa : Bool)
  /-- R324. Cancels a context's tasks, waits for its operations, frees the context and requeues or frees its record. -/
  | creap (d a b : GNum) (fa fb : Bool)
  /-- R325. Saves a stopped context into a thread-context cache entry. -/
  | ctxsv (d a b : GNum) (fa fb : Bool)
  /-- R326. Checks and restores a context image into an IDLE context. -/
  | ctxld (d a b : GNum) (fa fb : Bool)
  /-- R327. Arms a context's retry latch. -/
  | rlarm (d a : GNum) (fa : Bool)
  /-- R328. Writes a scratchpad protection region. -/
  | prset (d a b : GNum) (fa fb : Bool)
  /-- R329. Invalidates HBM translations and waits for every acknowledgement. -/
  | tinv (d a b : GNum) (fa fb : Bool)
  /-- R330. Writes back thread-context cache entries. -/
  | cflush (d a b : GNum) (fa fb : Bool)
  /-- R330. Invalidates instruction-cache lines, remote L1 lines or cache entries. -/
  | cinval (d a b : GNum) (fa fb : Bool)
  /-- R331. Loads an Almanac program into the shadow policy slot. -/
  | polld (d a b : GNum) (fa fb : Bool)
  /-- R331. Requests the swap of the shadow policy and waits for it. -/
  | polsw (d a : GNum) (fa : Bool)
  /-- R237. Loads a 64-byte span into a v register. -/
  | vld (d : VNum) (base : GNum) (fa : Bool) (tag : BitVec 4) (k : KNum) (off : BitVec 5)
  /-- R237. Stores a v register to a 64-byte span of own memory. -/
  | vst (s : VNum) (base : GNum) (fa : Bool) (k : KNum) (off : BitVec 5)
  /-- R237. Loads strided elements into a v register. -/
  | vlds (d : VNum) (base : GNum) (fa : Bool) (tag : BitVec 4) (k : KNum) (s : GNum)
  /-- R237. Stores a v register as strided elements to own memory. -/
  | vsts (d : VNum) (base : GNum) (fa : Bool) (tag : BitVec 4) (k : KNum) (s : GNum)
  /-- R240. Loads a 128-byte span into vd and vd + 1. -/
  | vldp (d : VNum) (base : GNum) (fa : Bool) (tag : BitVec 4) (k : KNum) (off : BitVec 5)
  /-- R241. Loads one swizzled tile column from own scratchpad. -/
  | vldt (d : VNum) (base : GNum) (fa : Bool) (tag : BitVec 4) (k : KNum) (s : GNum)
  /-- R237. Gathers elements from a base plus index lanes. -/
  | vldg (d a : VNum) (tag : BitVec 4) (sc : Fin 4) (k : KNum) (e : ENum)
  /-- R237. Scatters elements to own memory at a base plus index lanes. -/
  | vstg (d a : VNum) (tag : BitVec 4) (sc : Fin 4) (k : KNum) (e : ENum)
  /-- R222. Lane-wise addition. -/
  | vadd (d a b : VNum) (k : KNum) (fa fb : Bool)
  /-- R222. Lane-wise subtraction. -/
  | vsub (d a b : VNum) (k : KNum) (fa fb : Bool)
  /-- R222. Lane-wise saturating integer addition. -/
  | vadds (d a b : VNum) (k : KNum) (fa fb : Bool)
  /-- R222. Lane-wise saturating integer subtraction. -/
  | vsubs (d a b : VNum) (k : KNum) (fa fb : Bool)
  /-- R222. Lane-wise multiplication. -/
  | vmul (d a b : VNum) (k : KNum) (fa fb : Bool)
  /-- R222. Lane-wise high half of the integer product. -/
  | vmulh (d a b : VNum) (k : KNum) (fa fb : Bool)
  /-- R222. Lane-wise fused multiply-add into vd. -/
  | vfma (d a b : VNum) (k : KNum) (fa fb : Bool)
  /-- R222. Lane-wise fused multiply-subtract from vd. -/
  | vfms (d a b : VNum) (k : KNum) (fa fb : Bool)
  /-- R222. Lane-wise minimum. -/
  | vmin (d a b : VNum) (k : KNum) (fa fb : Bool)
  /-- R222. Lane-wise maximum. -/
  | vmax (d a b : VNum) (k : KNum) (fa fb : Bool)
  /-- R222. Bitwise and of two v registers. -/
  | vand (d a b : VNum) (k : KNum) (fa fb : Bool)
  /-- R222. Bitwise or of two v registers. -/
  | vor (d a b : VNum) (k : KNum) (fa fb : Bool)
  /-- R222. Bitwise exclusive or of two v registers. -/
  | vxor (d a b : VNum) (k : KNum) (fa fb : Bool)
  /-- R222. Bitwise va and not vb. -/
  | vandn (d a b : VNum) (k : KNum) (fa fb : Bool)
  /-- R222. Lane-wise logical left shift. -/
  | vsll (d a b : VNum) (k : KNum) (fa fb : Bool)
  /-- R222. Lane-wise logical right shift. -/
  | vsrl (d a b : VNum) (k : KNum) (fa fb : Bool)
  /-- R222. Lane-wise arithmetic right shift. -/
  | vsra (d a b : VNum) (k : KNum) (fa fb : Bool)
  /-- R222. Lane-wise left rotation. -/
  | vrol (d a b : VNum) (k : KNum) (fa fb : Bool)
  /-- R223. Compares lanes and writes a mask register. -/
  | vcmp (cond : Fin 8) (kd : KNum) (a b : VNum) (k : KNum) (fa fb : Bool)
  /-- R223. Compares lanes and narrows an existing mask. -/
  | vcmpa (cond : Fin 8) (kd : KNum) (a b : VNum) (k : KNum) (fa fb : Bool)
  /-- R228. Converts elements between tags over register groups. -/
  | vcvt (d a : VNum) (dtag : BitVec 5) (rnd : BitVec 3) (k : KNum) (fa : Bool)
  /-- R224. Lane-wise absolute value. -/
  | vabs (d a : VNum) (k : KNum) (fa : Bool)
  /-- R224. Lane-wise negation. -/
  | vneg (d a : VNum) (k : KNum) (fa : Bool)
  /-- R224. Bitwise not of a v register. -/
  | vnot (d a : VNum) (k : KNum) (fa : Bool)
  /-- R224. Lane-wise leading zero count. -/
  | vclz (d a : VNum) (k : KNum) (fa : Bool)
  /-- R224. Lane-wise population count. -/
  | vpopc (d a : VNum) (k : KNum) (fa : Bool)
  /-- R225. Lane-wise reciprocal approximation. -/
  | vrcp (d a : VNum) (k : KNum) (fa : Bool)
  /-- R225. Lane-wise reciprocal square root approximation. -/
  | vrsq (d a : VNum) (k : KNum) (fa : Bool)
  /-- R225. Lane-wise base-2 exponential approximation. -/
  | vexp2 (d a : VNum) (k : KNum) (fa : Bool)
  /-- R225. Lane-wise base-2 logarithm approximation. -/
  | vlog2 (d a : VNum) (k : KNum) (fa : Bool)
  /-- R231. Reconstructs and checks RT words into I32 lanes. -/
  | vrtrec (d a : VNum) (k : KNum) (fa : Bool)
  /-- R226. Lane-wise correctly rounded square root. -/
  | vsqrt (d a : VNum) (rnd : BitVec 3) (k : KNum) (fa : Bool)
  /-- R227. Sums active lanes by the pairwise tree into lane 0. -/
  | vrsum (d a : VNum) (rnd : BitVec 3) (k : KNum) (fa : Bool)
  /-- R227. Reduces active lanes to their maximum. -/
  | vrmax (d a : VNum) (k : KNum) (fa : Bool)
  /-- R227. Reduces active lanes to their minimum. -/
  | vrmin (d a : VNum) (k : KNum) (fa : Bool)
  /-- R227. Reduces active lanes by bitwise and. -/
  | vrand (d a : VNum) (k : KNum) (fa : Bool)
  /-- R227. Reduces active lanes by bitwise or. -/
  | vrior (d a : VNum) (k : KNum) (fa : Bool)
  /-- R227. Reduces active lanes by exclusive or. -/
  | vrxor (d a : VNum) (k : KNum) (fa : Bool)
  /-- R235. Copies va's bits to vd with a named tag. -/
  | vtagw (d a : VNum) (tag : BitVec 5) (fa : Bool)
  /-- R235. Writes va's tag code into a g register. -/
  | vtag (d : GNum) (a : VNum) (fa : Bool)
  /-- R235. Broadcasts a g register into every active lane with a named tag. -/
  | vbcast (d : VNum) (a : GNum) (tag : BitVec 5) (k : KNum) (fa : Bool)
  /-- R235. Copies bits 63:0 of va into a g register. -/
  | vmovg (d : GNum) (a : VNum) (fa : Bool)
  /-- R232. Slides lanes up by an immediate amount. -/
  | vsldu (d a : VNum) (amt : BitVec 6) (k : KNum) (fa : Bool)
  /-- R232. Slides lanes down by an immediate amount. -/
  | vsldd (d a : VNum) (amt : BitVec 6) (k : KNum) (fa : Bool)
  /-- R232. Rotates lanes by an immediate amount. -/
  | vlrot (d a : VNum) (amt : BitVec 6) (k : KNum) (fa : Bool)
  /-- R160. Short form of add gd, ga, g0. -/
  | cMov (d a : GNum)
  /-- R160. Short form of add gd, gd, ga. -/
  | cAdd (d a : GNum)
  /-- R160. Short form of sub gd, gd, ga. -/
  | cSub (d a : GNum)
  /-- R160. Short form of and gd, gd, ga. -/
  | cAnd (d a : GNum)
  /-- R160. Short form of or gd, gd, ga. -/
  | cOr (d a : GNum)
  /-- R160. Short form of xor gd, gd, ga. -/
  | cXor (d a : GNum)
  /-- R160. Short form of sll gd, gd, ga. -/
  | cSll (d a : GNum)
  /-- R160. Short form of srl gd, gd, ga. -/
  | cSrl (d a : GNum)
  /-- R160. Short form of sra gd, gd, ga. -/
  | cSra (d a : GNum)
  /-- R160. Short form of ld.i64 gd, [ga+0]. -/
  | cLd (d a : GNum)
  /-- R160. Short form of st.i64 gd, [ga+0]. -/
  | cSt (d a : GNum)
  /-- R160. Short form of jr ga. -/
  | cJr (a : GNum)
  /-- R160. Short form of callr gd, ga. -/
  | cCallr (d a : GNum)
  /-- R160. Short form of ldfe gd, [ga+0]. -/
  | cLdfe (d a : GNum)
  /-- R160. Short form of stfe gd, [ga+0]. -/
  | cStfe (d a : GNum)
  /-- R160. Short form of addi gd, gd, imm6. -/
  | cAddi (d : GNum) (imm : BitVec 6)
  /-- R160. Short form of addi gd, g0, imm6. -/
  | cLi (d : GNum) (imm : BitVec 6)
  /-- R160. Short form of slli gd, gd, imm6. -/
  | cSlli (d : GNum) (imm : BitVec 6)
  /-- R160. Short form of srli gd, gd, imm6. -/
  | cSrli (d : GNum) (imm : BitVec 6)
  /-- R160. Short form of srai gd, gd, imm6. -/
  | cSrai (d : GNum) (imm : BitVec 6)
  /-- R160. Short form of beq gd, g0, target. -/
  | cBz (d : GNum) (imm : BitVec 6)
  /-- R160. Short form of bne gd, g0, target. -/
  | cBnz (d : GNum) (imm : BitVec 6)
  /-- R160. Advances the PC and does nothing else. -/
  | nop
  /-- R160. Short form of j with a 10-bit displacement. -/
  | cJ (imm : BitVec 10)
  /-- R160. Short form of yield. -/
  | cYield
  /-- R160. Short form of park. -/
  | cPark
  /-- R160. Short form of exit. -/
  | cExit
  /-- R160. Raises trap 0x1B with the immediate in the record. -/
  | brk (imm : BitVec 10)
  /-- R160. Raises trap 0x1A with the immediate in the record. -/
  | svc (imm : BitVec 10)
  /-- R160. Short form of pfence. -/
  | cPfence
  /-- R165. Runs the following instruction 1 to 64 times with stepped fields. -/
  | rep (cnt : BitVec 6) (sd sa sb st : Bool)
  deriving DecidableEq, Repr

end Sys2Proof
end

