-- ==== Sys2Proof/WellFormed.lean ====
section
/-!
DEFINITION. Sys2Proof/WellFormed.lean: the values of fields that the spec reserves although their bits are assigned. An
instruction with one of them has no encoding that runs: decoding answers `reservedValue` and the machine takes trap 0x01.
-/
namespace Sys2Proof

/-- A program instruction; the others are hardware events, firmware commands and register writes of chapter 95. -/
def Instr.isProgram (i : Instr) : Bool := decide (117 ≤ i.ctorIdx)

/-- A rounding mode of R47. -/
def rndOk (r : BitVec 3) : Bool := decide (r.toNat ≤ 4)
/-- A register number that survives a suspension as a destination, g1 to g6 (chapter 10). -/
def keptDest (d : GNum) : Bool := decide (1 ≤ d.val) && decide (d.val ≤ 6)
/-- A register number that survives a suspension as a source, g0 to g6 (chapter 10). -/
def keptSrc (d : GNum) : Bool := decide (d.val ≤ 6)
/-- A tag whose elements are whole bytes and that names lanes (R237). -/
def byteTag (t : BitVec 4) : Bool := t ≠ 0 && t ≠ 0xE && t ≠ 0xF

/-- No field holds a reserved value. -/
def Instr.wf : Instr → Bool
  | .bfx _ _ _ len pos => decide (len.toNat + 1 + pos.toNat ≤ 64)
  | .bfxs _ _ _ len pos => decide (len.toNat + 1 + pos.toNat ≤ 64)
  | .bfi _ _ _ len pos => decide (len.toNat + 1 + pos.toNat ≤ 64)
  | .kand d _ _ => d ≠ 0
  | .kor d _ _ => d ≠ 0
  | .kxor d _ _ => d ≠ 0
  | .kandn d _ _ => d ≠ 0
  | .knot d _ => d ≠ 0
  | .kfromg d _ _ => d ≠ 0
  | .vcmp _ kd _ _ _ _ _ => kd ≠ 0
  | .vcmpa _ kd _ _ _ _ _ => kd ≠ 0
  | .vcvt _ _ _ rnd _ _ => rndOk rnd
  | .vsqrt _ _ rnd _ _ => rndOk rnd
  | .vrsum _ _ rnd _ _ => rndOk rnd
  | .watch d a b _ _ => keptDest d && keptSrc a && keptSrc b
  | .gwait d _ => keptDest d
  | .gsync d _ => keptDest d
  | .vld _ _ _ tag _ _ => tag ≠ 0xF
  | .vldp d _ _ tag _ _ => tag ≠ 0xF && d.val % 2 = 0
  | .vlds _ _ _ tag _ _ => byteTag tag
  | .vsts _ _ _ tag _ _ => byteTag tag
  | .vldt _ _ _ tag _ _ => byteTag tag
  | .vldg _ _ tag _ _ _ => byteTag tag
  | .vstg _ _ tag _ _ _ => byteTag tag
  | _ => true

end Sys2Proof
end

