-- ==== Sys2Proof/Decode.lean ====
section
/-!
DEFINITION. Sys2Proof/Decode.lean: from parcels to instructions and back (R155 to R176). A word is decoded by its major
opcode, then by the field that selects the form; every bit a form does not use must be zero (R159); what no table assigns
is rejected by name (R176). The definitions are noncomputable only for compiled code, whose limit on constructor tags
Syntax.lean names; Lean's kernel evaluates them.
-/
namespace Sys2Proof

noncomputable section

/-- Why bits are no instruction. -/
inductive Reject where
  /-- fewer parcels than the instruction has -/
  | short
  /-- a reserved major opcode -/
  | reservedMajor
  /-- a func, op, kind, imm8 or imm16 value that is not listed -/
  | reservedForm
  /-- a bit that the form does not use is not zero (R159) -/
  | reservedBits
  /-- a reserved value of a field (`Instr.wf`) -/
  | reservedValue
  deriving DecidableEq, Repr

/-- What decoding gives. -/
abbrev Dec := Except Reject Instr

/-- Bits lo .. lo + n - 1 of a word. -/
def fld (w lo n : Nat) : Nat := w / 2 ^ lo % 2 ^ n
/-- A register number from a field. -/
def fin (n : Nat) [NeZero n] (x : Nat) : Fin n := Fin.ofNat n x
/-- The instruction, if every field listed (low bit, bits) is zero (R159). -/
def zeros (w : Nat) (l : List (Nat × Nat)) (i : Instr) : Dec :=
  if l.all fun f => fld w f.1 f.2 == 0 then .ok i else .error .reservedBits

/-! ### Fields of the layouts (R157, R160) -/

/-- Fields of the `add` layout. -/
def g3 (c : GNum → GNum → GNum → Bool → Bool → Instr) (w : Nat) : Instr :=
  c (fin 32 (fld w 19 5)) (fin 32 (fld w 14 5)) (fin 32 (fld w 9 5)) (fld w 8 1 == 1) (fld w 7 1 == 1)
/-- Fields of the `clz` layout. -/
def g2 (c : GNum → GNum → Bool → Instr) (w : Nat) : Instr :=
  c (fin 32 (fld w 19 5)) (fin 32 (fld w 14 5)) (fld w 8 1 == 1)
/-- Fields of the `addi` layout. -/
def imm13 (c : GNum → GNum → Bool → BitVec 13 → Instr) (w : Nat) : Instr :=
  c (fin 32 (fld w 19 5)) (fin 32 (fld w 14 5)) (fld w 13 1 == 1) (BitVec.ofNat 13 (fld w 0 13))
/-- Fields of the `slli` layout. -/
def shift (c : GNum → GNum → Bool → BitVec 6 → Instr) (w : Nat) : Instr :=
  c (fin 32 (fld w 19 5)) (fin 32 (fld w 14 5)) (fld w 13 1 == 1) (BitVec.ofNat 6 (fld w 0 6))
/-- Fields of the `bfx` layout. -/
def bitField (c : GNum → GNum → Bool → BitVec 6 → BitVec 6 → Instr) (w : Nat) : Instr :=
  c (fin 32 (fld w 19 5)) (fin 32 (fld w 14 5)) (fld w 13 1 == 1) (BitVec.ofNat 6 (fld w 6 6)) (BitVec.ofNat 6 (fld w 0 6))
/-- Fields of the `lim` layout. -/
def chunk (c : GNum → Fin 4 → BitVec 16 → Instr) (w : Nat) : Instr :=
  c (fin 32 (fld w 19 5)) (fin 4 (fld w 16 2)) (BitVec.ofNat 16 (fld w 0 16))
/-- Fields of the `myid` layout. -/
def gD (c : GNum → Instr) (w : Nat) : Instr :=
  c (fin 32 (fld w 19 5))
/-- Fields of the `kand` layout. -/
def k3 (c : KNum → KNum → KNum → Instr) (w : Nat) : Instr :=
  c (fin 8 (fld w 19 3)) (fin 8 (fld w 14 3)) (fin 8 (fld w 9 3))
/-- Fields of the `knot` layout. -/
def k2 (c : KNum → KNum → Instr) (w : Nat) : Instr :=
  c (fin 8 (fld w 19 3)) (fin 8 (fld w 14 3))
/-- Fields of the `kfromg` layout. -/
def kFromG (c : KNum → GNum → Bool → Instr) (w : Nat) : Instr :=
  c (fin 8 (fld w 19 3)) (fin 32 (fld w 14 5)) (fld w 8 1 == 1)
/-- Fields of the `ktog` layout. -/
def gFromK (c : GNum → KNum → Instr) (w : Nat) : Instr :=
  c (fin 32 (fld w 19 5)) (fin 8 (fld w 14 3))
/-- Fields of the `vperm` layout. -/
def v3 (c : VNum → VNum → VNum → KNum → Bool → Bool → Instr) (w : Nat) : Instr :=
  c (fin 64 (fld w 18 6)) (fin 64 (fld w 12 6)) (fin 64 (fld w 6 6)) (fin 8 (fld w 3 3)) (fld w 2 1 == 1) (fld w 1 1 == 1)
/-- Fields of the `vzip` layout. -/
def v3NoMask (c : VNum → VNum → VNum → Bool → Bool → Instr) (w : Nat) : Instr :=
  c (fin 64 (fld w 18 6)) (fin 64 (fld w 12 6)) (fin 64 (fld w 6 6)) (fld w 2 1 == 1) (fld w 1 1 == 1)
/-- Fields of the `beq` layout. -/
def branchB (c : GNum → GNum → BitVec 14 → Instr) (w : Nat) : Instr :=
  c (fin 32 (fld w 19 5)) (fin 32 (fld w 14 5)) (BitVec.ofNat 14 (fld w 0 14))
/-- Fields of the `j` layout. -/
def jumpJ (c : BitVec 24 → Instr) (w : Nat) : Instr :=
  c (BitVec.ofNat 24 (fld w 0 24))
/-- Fields of the `jr` layout. -/
def gA (c : GNum → Bool → Instr) (w : Nat) : Instr :=
  c (fin 32 (fld w 14 5)) (fld w 8 1 == 1)
/-- Fields of the `ld.i8` layout. -/
def memM (c : GNum → GNum → Bool → BitVec 10 → Instr) (w : Nat) : Instr :=
  c (fin 32 (fld w 19 5)) (fin 32 (fld w 14 5)) (fld w 13 1 == 1) (BitVec.ofNat 10 (fld w 0 10))
/-- Fields of the `purge` layout. -/
def memNoD (c : GNum → Bool → BitVec 10 → Instr) (w : Nat) : Instr :=
  c (fin 32 (fld w 14 5)) (fld w 13 1 == 1) (BitVec.ofNat 10 (fld w 0 10))
/-- Fields of the `aadd` layout. -/
def atomicD (c : GNum → GNum → GNum → Bool → Bool → Bool → Instr) (w : Nat) : Instr :=
  c (fin 32 (fld w 19 5)) (fin 32 (fld w 14 5)) (fin 32 (fld w 9 5)) (fld w 8 1 == 1) (fld w 7 1 == 1) (fld w 5 1 == 1)
/-- Fields of the `aadd.nr` layout. -/
def atomicNoD (c : GNum → GNum → Bool → Bool → Bool → Instr) (w : Nat) : Instr :=
  c (fin 32 (fld w 14 5)) (fin 32 (fld w 9 5)) (fld w 8 1 == 1) (fld w 7 1 == 1) (fld w 5 1 == 1)
/-- Fields of the `watch.t` layout. -/
def g3e (c : GNum → GNum → GNum → Bool → Bool → ENum → Instr) (w : Nat) : Instr :=
  c (fin 32 (fld w 19 5)) (fin 32 (fld w 14 5)) (fin 32 (fld w 9 5)) (fld w 8 1 == 1) (fld w 7 1 == 1) (fin 8 (fld w 0 3))
/-- Fields of the `pull` layout. -/
def g2e (c : GNum → GNum → Bool → Bool → ENum → Instr) (w : Nat) : Instr :=
  c (fin 32 (fld w 14 5)) (fin 32 (fld w 9 5)) (fld w 8 1 == 1) (fld w 7 1 == 1) (fin 8 (fld w 0 3))
/-- Fields of the `pull.g` layout. -/
def g2eB (c : GNum → GNum → Bool → ENum → Instr) (w : Nat) : Instr :=
  c (fin 32 (fld w 19 5)) (fin 32 (fld w 9 5)) (fld w 7 1 == 1) (fin 8 (fld w 0 3))
/-- Fields of the `tlwait` layout. -/
def tlX (c : GNum → TLNum → Instr) (w : Nat) : Instr :=
  c (fin 32 (fld w 19 5)) (fin 4 (fld w 16 2))
/-- Fields of the `garrive` layout. -/
def grpX (c : GNum → BitVec 8 → Instr) (w : Nat) : Instr :=
  c (fin 32 (fld w 19 5)) (BitVec.ofNat 8 (fld w 0 8))
/-- Fields of the `gwait.t` layout. -/
def grpEX (c : GNum → ENum → BitVec 8 → Instr) (w : Nat) : Instr :=
  c (fin 32 (fld w 19 5)) (fin 8 (fld w 16 3)) (BitVec.ofNat 8 (fld w 0 8))
/-- Fields of the `calrd` layout. -/
def itemX (c : GNum → BitVec 10 → Instr) (w : Nat) : Instr :=
  c (fin 32 (fld w 19 5)) (BitVec.ofNat 10 (fld w 0 10))
/-- Fields of the `srd` layout. -/
def sprX (c : GNum → BitVec 16 → Instr) (w : Nat) : Instr :=
  c (fin 32 (fld w 19 5)) (BitVec.ofNat 16 (fld w 0 16))
/-- Fields of the `erd` layout. -/
def extX (c : GNum → ENum → Instr) (w : Nat) : Instr :=
  c (fin 32 (fld w 19 5)) (fin 8 (fld w 16 3))
/-- Fields of the `tset` layout. -/
def g2t (c : GNum → GNum → Bool → Bool → TNum → Instr) (w : Nat) : Instr :=
  c (fin 32 (fld w 14 5)) (fin 32 (fld w 9 5)) (fld w 8 1 == 1) (fld w 7 1 == 1) (fin 8 (fld w 0 3))
/-- Fields of the `tget.w0` layout. -/
def gT (c : GNum → TNum → Instr) (w : Nat) : Instr :=
  c (fin 32 (fld w 19 5)) (fin 8 (fld w 0 3))
/-- Fields of the `mld` layout. -/
def tOnly (c : TNum → Instr) (w : Nat) : Instr :=
  c (fin 8 (fld w 0 3))
/-- Fields of the `mmeta` layout. -/
def gAt (c : GNum → Bool → TNum → Instr) (w : Nat) : Instr :=
  c (fin 32 (fld w 14 5)) (fld w 8 1 == 1) (fin 8 (fld w 0 3))
/-- Fields of the `vld` layout. -/
def vmOff (c : VNum → GNum → Bool → BitVec 4 → KNum → BitVec 5 → Instr) (w : Nat) : Instr :=
  c (fin 64 (fld w 18 6)) (fin 32 (fld w 13 5)) (fld w 12 1 == 1) (BitVec.ofNat 4 (fld w 8 4)) (fin 8 (fld w 5 3)) (BitVec.ofNat 5 (fld w 0 5))
/-- Fields of the `vst` layout. -/
def vmStore (c : VNum → GNum → Bool → KNum → BitVec 5 → Instr) (w : Nat) : Instr :=
  c (fin 64 (fld w 18 6)) (fin 32 (fld w 13 5)) (fld w 12 1 == 1) (fin 8 (fld w 5 3)) (BitVec.ofNat 5 (fld w 0 5))
/-- Fields of the `vlds` layout. -/
def vmStride (c : VNum → GNum → Bool → BitVec 4 → KNum → GNum → Instr) (w : Nat) : Instr :=
  c (fin 64 (fld w 18 6)) (fin 32 (fld w 13 5)) (fld w 12 1 == 1) (BitVec.ofNat 4 (fld w 8 4)) (fin 8 (fld w 5 3)) (fin 32 (fld w 0 5))
/-- Fields of the `vldg` layout. -/
def vgIdx (c : VNum → VNum → BitVec 4 → Fin 4 → KNum → ENum → Instr) (w : Nat) : Instr :=
  c (fin 64 (fld w 18 6)) (fin 64 (fld w 12 6)) (BitVec.ofNat 4 (fld w 8 4)) (fin 4 (fld w 6 2)) (fin 8 (fld w 3 3)) (fin 8 (fld w 0 3))
/-- Fields of the `vcmp` layout. -/
def vCond (c : Fin 8 → KNum → VNum → VNum → KNum → Bool → Bool → Instr) (w : Nat) : Instr :=
  c (fin 8 (fld w 21 3)) (fin 8 (fld w 18 3)) (fin 64 (fld w 12 6)) (fin 64 (fld w 6 6)) (fin 8 (fld w 3 3)) (fld w 2 1 == 1) (fld w 1 1 == 1)
/-- Fields of the `vcvt` layout. -/
def vCvt (c : VNum → VNum → BitVec 5 → BitVec 3 → KNum → Bool → Instr) (w : Nat) : Instr :=
  c (fin 64 (fld w 18 6)) (fin 64 (fld w 12 6)) (BitVec.ofNat 5 (fld w 7 5)) (BitVec.ofNat 3 (fld w 6 1 * 4 + fld w 0 2)) (fin 8 (fld w 3 3)) (fld w 2 1 == 1)
/-- Fields of the `vabs` layout. -/
def v2 (c : VNum → VNum → KNum → Bool → Instr) (w : Nat) : Instr :=
  c (fin 64 (fld w 18 6)) (fin 64 (fld w 12 6)) (fin 8 (fld w 3 3)) (fld w 2 1 == 1)
/-- Fields of the `vsqrt` layout. -/
def v2Rnd (c : VNum → VNum → BitVec 3 → KNum → Bool → Instr) (w : Nat) : Instr :=
  c (fin 64 (fld w 18 6)) (fin 64 (fld w 12 6)) (BitVec.ofNat 3 (fld w 6 1 * 4 + fld w 0 2)) (fin 8 (fld w 3 3)) (fld w 2 1 == 1)
/-- Fields of the `vtagw` layout. -/
def vTagB (c : VNum → VNum → BitVec 5 → Bool → Instr) (w : Nat) : Instr :=
  c (fin 64 (fld w 18 6)) (fin 64 (fld w 12 6)) (BitVec.ofNat 5 (fld w 6 3 * 4 + fld w 0 2)) (fld w 2 1 == 1)
/-- Fields of the `vtag` layout. -/
def gV (c : GNum → VNum → Bool → Instr) (w : Nat) : Instr :=
  c (fin 32 (fld w 18 5)) (fin 64 (fld w 12 6)) (fld w 2 1 == 1)
/-- Fields of the `vbcast` layout. -/
def vBcast (c : VNum → GNum → BitVec 5 → KNum → Bool → Instr) (w : Nat) : Instr :=
  c (fin 64 (fld w 18 6)) (fin 32 (fld w 12 5)) (BitVec.ofNat 5 (fld w 6 3 * 4 + fld w 0 2)) (fin 8 (fld w 3 3)) (fld w 2 1 == 1)
/-- Fields of the `vsldu` layout. -/
def vSlide (c : VNum → VNum → BitVec 6 → KNum → Bool → Instr) (w : Nat) : Instr :=
  c (fin 64 (fld w 18 6)) (fin 64 (fld w 12 6)) (BitVec.ofNat 6 (fld w 6 4 * 4 + fld w 0 2)) (fin 8 (fld w 3 3)) (fld w 2 1 == 1)
/-- Fields of the `c.mov` layout. -/
def c1 (c : GNum → GNum → Instr) (w : Nat) : Instr :=
  c (fin 32 (fld w 5 5)) (fin 32 (fld w 0 5))
/-- Fields of the `c.jr` layout. -/
def c1A (c : GNum → Instr) (w : Nat) : Instr :=
  c (fin 32 (fld w 0 5))
/-- Fields of the `c.addi` layout. -/
def c2 (c : GNum → BitVec 6 → Instr) (w : Nat) : Instr :=
  c (fin 32 (fld w 6 5)) (BitVec.ofNat 6 (fld w 0 6))
/-- Fields of the `c.j` layout. -/
def c3 (c : BitVec 10 → Instr) (w : Nat) : Instr :=
  c (BitVec.ofNat 10 (fld w 0 10))
/-- Fields of the `rep` layout. -/
def repP (c : BitVec 6 → Bool → Bool → Bool → Bool → Instr) (w : Nat) : Instr :=
  c (BitVec.ofNat 6 (fld w 4 6)) (fld w 3 1 == 1) (fld w 2 1 == 1) (fld w 1 1 == 1) (fld w 0 1 == 1)

/-! ### 32-bit words by major opcode (R168 to R175) -/

/-- Major 0x00, by bits 0 to 6. -/
def dec00 (form w : Nat) : Dec :=
  match form with
  | 0 => .ok (g3 .add w)
  | 1 => .ok (g3 .sub w)
  | 2 => .ok (g3 .and w)
  | 3 => .ok (g3 .or w)
  | 4 => .ok (g3 .xor w)
  | 5 => .ok (g3 .andn w)
  | 6 => .ok (g3 .orn w)
  | 7 => .ok (g3 .xnor w)
  | 8 => .ok (g3 .sll w)
  | 9 => .ok (g3 .srl w)
  | 10 => .ok (g3 .sra w)
  | 11 => .ok (g3 .rol w)
  | 12 => .ok (g3 .ror w)
  | 16 => .ok (g3 .mul w)
  | 17 => .ok (g3 .mulh w)
  | 18 => .ok (g3 .mulhn w)
  | 19 => .ok (g3 .div w)
  | 20 => .ok (g3 .divn w)
  | 21 => .ok (g3 .rem w)
  | 22 => .ok (g3 .remn w)
  | 24 => .ok (g3 .min w)
  | 25 => .ok (g3 .max w)
  | 26 => .ok (g3 .minn w)
  | 27 => .ok (g3 .maxn w)
  | 32 => .ok (g3 .slt w)
  | 33 => .ok (g3 .sltn w)
  | 34 => .ok (g3 .seq w)
  | 35 => .ok (g3 .sne w)
  | 40 => zeros w [(7, 1), (9, 5)] (g2 .clz w)
  | 41 => zeros w [(7, 1), (9, 5)] (g2 .ctz w)
  | 42 => zeros w [(7, 1), (9, 5)] (g2 .popc w)
  | 43 => zeros w [(7, 1), (9, 5)] (g2 .brev w)
  | 44 => zeros w [(7, 1), (9, 5)] (g2 .bswap w)
  | 45 => zeros w [(7, 1), (9, 5)] (g2 .sx8 w)
  | 46 => zeros w [(7, 1), (9, 5)] (g2 .sx16 w)
  | 47 => zeros w [(7, 1), (9, 5)] (g2 .sx32 w)
  | 48 => zeros w [(7, 1), (9, 5)] (g2 .zx8 w)
  | 49 => zeros w [(7, 1), (9, 5)] (g2 .zx16 w)
  | 50 => zeros w [(7, 1), (9, 5)] (g2 .zx32 w)
  | 56 => .ok (g3 .adds w)
  | 57 => .ok (g3 .subs w)
  | 58 => .ok (g3 .addsn w)
  | 59 => .ok (g3 .subsn w)
  | 64 => .ok (g3 .sel w)
  | _ => .error .reservedForm
/-- Major 0x05, by bits 10 to 12. -/
def dec05 (form w : Nat) : Dec :=
  match form with
  | 0 => zeros w [(6, 4)] (shift .slli w)
  | 1 => zeros w [(6, 4)] (shift .srli w)
  | 2 => zeros w [(6, 4)] (shift .srai w)
  | 3 => zeros w [(6, 4)] (shift .roli w)
  | 4 => zeros w [(6, 4)] (shift .rori w)
  | _ => .error .reservedForm
/-- Major 0x08, by bits 12 to 12. -/
def dec08 (form w : Nat) : Dec :=
  match form with
  | 0 => .ok (bitField .bfx w)
  | 1 => .ok (bitField .bfxs w)
  | _ => .error .reservedForm
/-- Major 0x09, by bits 12 to 12. -/
def dec09 (form w : Nat) : Dec :=
  match form with
  | 0 => .ok (bitField .bfi w)
  | _ => .error .reservedForm
/-- Major 0x0A, by bits 18 to 18. -/
def dec0A (form w : Nat) : Dec :=
  match form with
  | 0 => .ok (chunk .lim w)
  | 1 => .ok (chunk .limk w)
  | _ => .error .reservedForm
/-- Major 0x0B, by bits 0 to 6. -/
def dec0B (form w : Nat) : Dec :=
  match form with
  | 0 => .ok (g3 .leaA w)
  | 1 => .ok (g3 .leaR w)
  | 2 => .ok (g3 .leaS w)
  | 3 => zeros w [(7, 12)] (gD .myid w)
  | _ => .error .reservedForm
/-- Major 0x0C, by bits 0 to 6. -/
def dec0C (form w : Nat) : Dec :=
  match form with
  | 0 => zeros w [(7, 2), (12, 2), (17, 2), (22, 2)] (k3 .kand w)
  | 1 => zeros w [(7, 2), (12, 2), (17, 2), (22, 2)] (k3 .kor w)
  | 2 => zeros w [(7, 2), (12, 2), (17, 2), (22, 2)] (k3 .kxor w)
  | 3 => zeros w [(7, 2), (12, 2), (17, 2), (22, 2)] (k3 .kandn w)
  | 4 => zeros w [(7, 7), (17, 2), (22, 2)] (k2 .knot w)
  | 8 => zeros w [(7, 1), (9, 5), (22, 2)] (kFromG .kfromg w)
  | 9 => zeros w [(7, 7), (17, 2)] (gFromK .ktog w)
  | 10 => zeros w [(7, 7), (17, 2)] (gFromK .kpop w)
  | 11 => zeros w [(7, 7), (17, 2)] (gFromK .kfirst w)
  | _ => .error .reservedForm
/-- Major 0x0D, by bits 0 to 0. -/
def dec0D (form w : Nat) : Dec :=
  match form with
  | 0 => .ok (v3 .vperm w)
  | 1 => .ok (v3 .vperm2 w)
  | _ => .error .reservedForm
/-- Major 0x0E, by bits 0 to 0. -/
def dec0E (form w : Nat) : Dec :=
  match form with
  | 0 => zeros w [(3, 3)] (v3NoMask .vzip w)
  | 1 => zeros w [(3, 3)] (v3NoMask .vunzip w)
  | _ => .error .reservedForm
/-- Major 0x0F, by bits 0 to 0. -/
def dec0F (form w : Nat) : Dec :=
  match form with
  | 0 => .ok (v3 .vscl w)
  | 1 => .ok (v3 .vqnt w)
  | _ => .error .reservedForm
/-- Major 0x18, by bits 0 to 6. -/
def dec18 (form w : Nat) : Dec :=
  match form with
  | 0 => zeros w [(7, 1), (9, 5), (19, 5)] (gA .jr w)
  | 1 => zeros w [(7, 1), (9, 5)] (g2 .callr w)
  | _ => .error .reservedForm
/-- Major 0x1A, by bits 10 to 12. -/
def dec1A (form w : Nat) : Dec :=
  match form with
  | 0 => .ok (memM .ldI8 w)
  | 1 => .ok (memM .ldI16 w)
  | 2 => .ok (memM .ldI32 w)
  | 3 => .ok (memM .ldI64 w)
  | 4 => .ok (memM .ldN8 w)
  | 5 => .ok (memM .ldN16 w)
  | 6 => .ok (memM .ldN32 w)
  | _ => .error .reservedForm
/-- Major 0x1B, by bits 10 to 12. -/
def dec1B (form w : Nat) : Dec :=
  match form with
  | 0 => .ok (memM .stI8 w)
  | 1 => .ok (memM .stI16 w)
  | 2 => .ok (memM .stI32 w)
  | 3 => .ok (memM .stI64 w)
  | _ => .error .reservedForm
/-- Major 0x1C, by bits 10 to 12. -/
def dec1C (form w : Nat) : Dec :=
  match form with
  | 0 => .ok (memM .ldfe w)
  | 1 => .ok (memM .ldff w)
  | 4 => .ok (memM .stfe w)
  | 5 => .ok (memM .stff w)
  | 6 => zeros w [(19, 5)] (memNoD .purge w)
  | _ => .error .reservedForm
/-- Major 0x1D, by bits 0 to 4. -/
def dec1D (form w : Nat) : Dec :=
  match form with
  | 0 => zeros w [(6, 1)] (atomicD .aadd w)
  | 16 => zeros w [(6, 1), (19, 5)] (atomicNoD .aaddNr w)
  | 1 => zeros w [(6, 1)] (atomicD .aand w)
  | 17 => zeros w [(6, 1), (19, 5)] (atomicNoD .aandNr w)
  | 2 => zeros w [(6, 1)] (atomicD .aor w)
  | 18 => zeros w [(6, 1), (19, 5)] (atomicNoD .aorNr w)
  | 3 => zeros w [(6, 1)] (atomicD .axor w)
  | 19 => zeros w [(6, 1), (19, 5)] (atomicNoD .axorNr w)
  | 4 => zeros w [(6, 1)] (atomicD .amin w)
  | 20 => zeros w [(6, 1), (19, 5)] (atomicNoD .aminNr w)
  | 5 => zeros w [(6, 1)] (atomicD .amax w)
  | 21 => zeros w [(6, 1), (19, 5)] (atomicNoD .amaxNr w)
  | 6 => zeros w [(6, 1)] (atomicD .aminn w)
  | 22 => zeros w [(6, 1), (19, 5)] (atomicNoD .aminnNr w)
  | 7 => zeros w [(6, 1)] (atomicD .amaxn w)
  | 23 => zeros w [(6, 1), (19, 5)] (atomicNoD .amaxnNr w)
  | 8 => zeros w [(6, 1)] (atomicD .aswap w)
  | 9 => zeros w [(6, 1)] (atomicD .acas w)
  | _ => .error .reservedForm
/-- Major 0x20, by bits 3 to 6. -/
def dec20 (form w : Nat) : Dec :=
  match form with
  | 0 => zeros w [(0, 3)] (g3 .watch w)
  | 1 => .ok (g3e .watchT w)
  | 2 => zeros w [(0, 3)] (g3 .seqAdv w)
  | 3 => zeros w [(0, 3), (7, 17)] .pfence
  | 4 => zeros w [(0, 3), (7, 17)] .yield
  | 5 => zeros w [(0, 3), (7, 17)] .park
  | 6 => zeros w [(0, 3), (7, 17)] .exit
  | _ => .error .reservedForm
/-- Major 0x21, by bits 3 to 6. -/
def dec21 (form w : Nat) : Dec :=
  match form with
  | 0 => zeros w [(19, 5)] (g2e .pull w)
  | 1 => .ok (g3e .pull2d w)
  | 2 => zeros w [(8, 1), (14, 5)] (g2eB .pullG w)
  | 3 => zeros w [(19, 5)] (g2e .pullAdd w)
  | 4 => zeros w [(19, 5)] (g2e .copy w)
  | 5 => zeros w [(19, 5)] (g2e .hget w)
  | 6 => zeros w [(19, 5)] (g2e .hsend w)
  | _ => .error .reservedForm
/-- Major 0x22, by bits 3 to 6. -/
def dec22 (form w : Nat) : Dec :=
  match form with
  | 0 => .ok (g3e .spawn w)
  | 1 => .ok (g3e .amsg w)
  | _ => .error .reservedForm
/-- Major 0x23, by bits 0 to 15. -/
def dec23 (form w : Nat) : Dec :=
  match form with
  | 0 => zeros w [(18, 1)] (tlX .tlwait w)
  | 1 => zeros w [(18, 1)] (tlX .tltest w)
  | 2 => zeros w [(18, 1)] (tlX .tlrd w)
  | 3 => zeros w [(18, 1)] (tlX .tlhigh w)
  | 4 => zeros w [(18, 1)] (tlX .tlerr w)
  | _ => .error .reservedForm
/-- Major 0x24, by bits 12 to 15. -/
def dec24 (form w : Nat) : Dec :=
  match form with
  | 0 => zeros w [(8, 4), (16, 3)] (grpX .garrive w)
  | 1 => zeros w [(8, 4), (16, 3)] (grpX .gwait w)
  | 2 => zeros w [(8, 4)] (grpEX .gwaitT w)
  | 3 => zeros w [(8, 4), (16, 3)] (grpX .gsync w)
  | 4 => zeros w [(8, 4), (16, 3)] (grpX .gquery w)
  | _ => .error .reservedForm
/-- Major 0x26, by bits 16 to 18. -/
def dec26 (form w : Nat) : Dec :=
  match form with
  | 0 => .ok (sprX .srd w)
  | 1 => .ok (sprX .swr w)
  | _ => .error .reservedForm
/-- Major 0x27, by bits 0 to 15. -/
def dec27 (form w : Nat) : Dec :=
  match form with
  | 0 => .ok (extX .erd w)
  | 1 => .ok (extX .ewr w)
  | _ => .error .reservedForm
/-- Major 0x28, by bits 3 to 6. -/
def dec28 (form w : Nat) : Dec :=
  match form with
  | 0 => zeros w [(19, 5)] (g2t .tset w)
  | 1 => zeros w [(7, 12)] (gT .tgetW0 w)
  | 2 => zeros w [(7, 12)] (gT .tgetW1 w)
  | 3 => zeros w [(7, 17)] (tOnly .mld w)
  | 4 => zeros w [(7, 17)] (tOnly .mldt w)
  | 5 => zeros w [(7, 1), (9, 5), (19, 5)] (gAt .mmeta w)
  | 6 => zeros w [(0, 3), (7, 17)] .mswap
  | 7 => zeros w [(7, 1), (9, 5), (19, 5)] (gAt .mstream w)
  | 8 => zeros w [(0, 3), (7, 1), (9, 5), (19, 5)] (gA .mzero w)
  | 9 => zeros w [(19, 5)] (g2t .mcvt w)
  | 10 => zeros w [(0, 3), (7, 1), (9, 5), (19, 5)] (gA .mtask w)
  | _ => .error .reservedForm
/-- Major 0x29, by bits 0 to 6. -/
def dec29 (form w : Nat) : Dec :=
  match form with
  | 0 => zeros w [(7, 1), (9, 5), (19, 5)] (gA .tret w)
  | 1 => zeros w [(7, 1), (9, 5)] (g2 .cstart w)
  | 2 => zeros w [(7, 1), (9, 5)] (g2 .cstop w)
  | 3 => .ok (g3 .creap w)
  | 4 => .ok (g3 .ctxsv w)
  | 5 => .ok (g3 .ctxld w)
  | 6 => zeros w [(7, 1), (9, 5)] (g2 .rlarm w)
  | 7 => .ok (g3 .prset w)
  | 8 => .ok (g3 .tinv w)
  | 9 => .ok (g3 .cflush w)
  | 10 => .ok (g3 .cinval w)
  | 11 => .ok (g3 .polld w)
  | 12 => zeros w [(7, 1), (9, 5)] (g2 .polsw w)
  | _ => .error .reservedForm
/-- Major 0x32, by bits 0 to 0. -/
def dec32 (form w : Nat) : Dec :=
  match form with
  | 0 => .ok (v3 .vadd w)
  | 1 => .ok (v3 .vsub w)
  | _ => .error .reservedForm
/-- Major 0x33, by bits 0 to 0. -/
def dec33 (form w : Nat) : Dec :=
  match form with
  | 0 => .ok (v3 .vadds w)
  | 1 => .ok (v3 .vsubs w)
  | _ => .error .reservedForm
/-- Major 0x34, by bits 0 to 0. -/
def dec34 (form w : Nat) : Dec :=
  match form with
  | 0 => .ok (v3 .vmul w)
  | 1 => .ok (v3 .vmulh w)
  | _ => .error .reservedForm
/-- Major 0x35, by bits 0 to 0. -/
def dec35 (form w : Nat) : Dec :=
  match form with
  | 0 => .ok (v3 .vfma w)
  | 1 => .ok (v3 .vfms w)
  | _ => .error .reservedForm
/-- Major 0x36, by bits 0 to 0. -/
def dec36 (form w : Nat) : Dec :=
  match form with
  | 0 => .ok (v3 .vmin w)
  | 1 => .ok (v3 .vmax w)
  | _ => .error .reservedForm
/-- Major 0x37, by bits 0 to 0. -/
def dec37 (form w : Nat) : Dec :=
  match form with
  | 0 => .ok (v3 .vand w)
  | 1 => .ok (v3 .vor w)
  | _ => .error .reservedForm
/-- Major 0x38, by bits 0 to 0. -/
def dec38 (form w : Nat) : Dec :=
  match form with
  | 0 => .ok (v3 .vxor w)
  | 1 => .ok (v3 .vandn w)
  | _ => .error .reservedForm
/-- Major 0x39, by bits 0 to 0. -/
def dec39 (form w : Nat) : Dec :=
  match form with
  | 0 => .ok (v3 .vsll w)
  | 1 => .ok (v3 .vsrl w)
  | _ => .error .reservedForm
/-- Major 0x3A, by bits 0 to 0. -/
def dec3A (form w : Nat) : Dec :=
  match form with
  | 0 => .ok (v3 .vsra w)
  | 1 => .ok (v3 .vrol w)
  | _ => .error .reservedForm
/-- Major 0x3B, by bits 0 to 0. -/
def dec3B (form w : Nat) : Dec :=
  match form with
  | 0 => .ok (vCond .vcmp w)
  | 1 => .ok (vCond .vcmpa w)
  | _ => .error .reservedForm
/-- Major 0x3E, by bits 10 to 11. -/
def dec3E (form w : Nat) : Dec :=
  match form with
  | 0 => .ok (vSlide .vsldu w)
  | 1 => .ok (vSlide .vsldd w)
  | 2 => .ok (vSlide .vlrot w)
  | _ => .error .reservedForm
/-- Major 0x3D: imm8 = cat(W[11:6], W[1:0]) selects the form; kind is its upper five bits, op its lower three (R175). -/
def decTagForms (kind op w : Nat) : Dec :=
  match kind, op with
  | 0, 0 => .ok (v2 .vabs w)
  | 0, 1 => .ok (v2 .vneg w)
  | 0, 2 => .ok (v2 .vnot w)
  | 0, 3 => .ok (v2 .vclz w)
  | 0, 4 => .ok (v2 .vpopc w)
  | 1, 0 => .ok (v2 .vrcp w)
  | 1, 1 => .ok (v2 .vrsq w)
  | 1, 2 => .ok (v2 .vexp2 w)
  | 1, 3 => .ok (v2 .vlog2 w)
  | 1, 4 => .ok (v2 .vrtrec w)
  | 2, _ => .ok (v2Rnd .vsqrt w)
  | 8, _ => .ok (v2Rnd .vrsum w)
  | 9, 0 => .ok (v2 .vrmax w)
  | 10, 0 => .ok (v2 .vrmin w)
  | 11, 0 => .ok (v2 .vrand w)
  | 12, 0 => .ok (v2 .vrior w)
  | 13, 0 => .ok (v2 .vrxor w)
  | 20, 0 => zeros w [(3, 3), (23, 1)] (gV .vtag w)
  | 28, 0 => zeros w [(3, 3), (23, 1)] (gV .vmovg w)
  | 16, _ => zeros w [(3, 3)] (vTagB .vtagw w)
  | 17, _ => zeros w [(3, 3)] (vTagB .vtagw w)
  | 18, _ => zeros w [(3, 3)] (vTagB .vtagw w)
  | 19, _ => zeros w [(3, 3)] (vTagB .vtagw w)
  | 24, _ => zeros w [(17, 1)] (vBcast .vbcast w)
  | 25, _ => zeros w [(17, 1)] (vBcast .vbcast w)
  | 26, _ => zeros w [(17, 1)] (vBcast .vbcast w)
  | 27, _ => zeros w [(17, 1)] (vBcast .vbcast w)
  | _, _ => .error .reservedForm
/-- A 32-bit word by its major opcode (R168), marker included. -/
def decMajor (major w : Nat) : Dec :=
  match major with
  | 192 => dec00 (fld w 0 7) w
  | 193 => .ok (imm13 .addi w)
  | 194 => .ok (imm13 .andi w)
  | 195 => .ok (imm13 .ori w)
  | 196 => .ok (imm13 .xori w)
  | 197 => dec05 (fld w 10 3) w
  | 198 => .ok (imm13 .slti w)
  | 199 => .ok (imm13 .sltni w)
  | 200 => dec08 (fld w 12 1) w
  | 201 => dec09 (fld w 12 1) w
  | 202 => dec0A (fld w 18 1) w
  | 203 => dec0B (fld w 0 7) w
  | 204 => dec0C (fld w 0 7) w
  | 205 => dec0D (fld w 0 1) w
  | 206 => dec0E (fld w 0 1) w
  | 207 => dec0F (fld w 0 1) w
  | 208 => .ok (branchB .beq w)
  | 209 => .ok (branchB .bne w)
  | 210 => .ok (branchB .blt w)
  | 211 => .ok (branchB .bge w)
  | 212 => .ok (branchB .bltn w)
  | 213 => .ok (branchB .bgen w)
  | 214 => .ok (jumpJ .j w)
  | 215 => .ok (jumpJ .call w)
  | 216 => dec18 (fld w 0 7) w
  | 218 => dec1A (fld w 10 3) w
  | 219 => dec1B (fld w 10 3) w
  | 220 => dec1C (fld w 10 3) w
  | 221 => dec1D (fld w 0 5) w
  | 224 => dec20 (fld w 3 4) w
  | 225 => dec21 (fld w 3 4) w
  | 226 => dec22 (fld w 3 4) w
  | 227 => dec23 (fld w 0 16) w
  | 228 => dec24 (fld w 12 4) w
  | 229 => zeros w [(10, 9)] (itemX .calrd w)
  | 230 => dec26 (fld w 16 3) w
  | 231 => dec27 (fld w 0 16) w
  | 232 => dec28 (fld w 3 4) w
  | 233 => dec29 (fld w 0 7) w
  | 234 => .ok (vmOff .vld w)
  | 235 => zeros w [(8, 4)] (vmStore .vst w)
  | 236 => .ok (vmStride .vlds w)
  | 237 => .ok (vmStride .vsts w)
  | 238 => .ok (vmOff .vldp w)
  | 239 => .ok (vmStride .vldt w)
  | 240 => .ok (vgIdx .vldg w)
  | 241 => .ok (vgIdx .vstg w)
  | 242 => dec32 (fld w 0 1) w
  | 243 => dec33 (fld w 0 1) w
  | 244 => dec34 (fld w 0 1) w
  | 245 => dec35 (fld w 0 1) w
  | 246 => dec36 (fld w 0 1) w
  | 247 => dec37 (fld w 0 1) w
  | 248 => dec38 (fld w 0 1) w
  | 249 => dec39 (fld w 0 1) w
  | 250 => dec3A (fld w 0 1) w
  | 251 => dec3B (fld w 0 1) w
  | 252 => .ok (vCvt .vcvt w)
  | 253 => decTagForms (fld w 7 5) (fld w 6 1 * 4 + fld w 0 2) w
  | 254 => dec3E (fld w 10 2) w
  | _ => .error .reservedMajor
/-- A 32-bit word. -/
def decRaw32 (w : Nat) : Dec := decMajor (w / 2 ^ 24) w

/-! ### 16-bit parcels (R160) -/

/-- Format C1 (R160). -/
def decC1 (form w : Nat) : Dec :=
  match form with
  | 1 => .ok (c1 .cMov w)
  | 2 => .ok (c1 .cAdd w)
  | 3 => .ok (c1 .cSub w)
  | 4 => .ok (c1 .cAnd w)
  | 5 => .ok (c1 .cOr w)
  | 6 => .ok (c1 .cXor w)
  | 7 => .ok (c1 .cSll w)
  | 8 => .ok (c1 .cSrl w)
  | 9 => .ok (c1 .cSra w)
  | 10 => .ok (c1 .cLd w)
  | 11 => .ok (c1 .cSt w)
  | 12 => zeros w [(5, 5)] (c1A .cJr w)
  | 13 => .ok (c1 .cCallr w)
  | 14 => .ok (c1 .cLdfe w)
  | 15 => .ok (c1 .cStfe w)
  | _ => .error .reservedForm
/-- Format C2 (R160). -/
def decC2 (form w : Nat) : Dec :=
  match form with
  | 0 => .ok (c2 .cAddi w)
  | 1 => .ok (c2 .cLi w)
  | 2 => .ok (c2 .cSlli w)
  | 3 => .ok (c2 .cSrli w)
  | 4 => .ok (c2 .cSrai w)
  | 5 => .ok (c2 .cBz w)
  | 6 => .ok (c2 .cBnz w)
  | _ => .error .reservedForm
/-- Format C3 (R160). -/
def decC3 (form w : Nat) : Dec :=
  match form with
  | 0 => zeros w [(0, 10)] .nop
  | 1 => .ok (c3 .cJ w)
  | 2 => zeros w [(0, 10)] .cYield
  | 3 => zeros w [(0, 10)] .cPark
  | 4 => zeros w [(0, 10)] .cExit
  | 5 => .ok (c3 .brk w)
  | 6 => .ok (c3 .svc w)
  | 7 => zeros w [(0, 10)] .cPfence
  | 15 => .ok (repP .rep w)
  | _ => .error .reservedForm
/-- A 16-bit parcel by its two top bits: format C1, C2 or C3 (R160). -/
def decFormat (format w : Nat) : Dec :=
  match format with
  | 0 => decC1 (fld w 10 4) w
  | 1 => decC2 (fld w 11 3) w
  | 2 => decC3 (fld w 10 4) w
  | _ => .error .short
/-- A 16-bit parcel. -/
def decRaw16 (w : Nat) : Dec := decFormat (w / 2 ^ 14) w

/-! ### Decoding -/

/-- The reserved values of fields are rejected. -/
def checkValues : Dec → Dec
  | .ok i => if i.wf then .ok i else .error .reservedValue
  | .error r => .error r

/-- Is a parcel the first of a 32-bit instruction (R155)? -/
def isLong (p : Parcel) : Bool := p.toNat / 2 ^ 14 == 3
/-- The instruction word: cat(first parcel, second parcel) (R155). -/
def wordOf (p q : Parcel) : Nat := p.toNat * 2 ^ 16 + q.toNat

/-- The instruction at the head of a list of parcels, with the parcels behind it. Total: every list is decoded or
rejected by name. -/
def decode : List Parcel → Except Reject (Instr × List Parcel)
  | [] => .error .short
  | p :: r =>
    if isLong p then
      match r with
      | [] => .error .short
      | q :: r => (checkValues (decRaw32 (wordOf p q))).map fun i => (i, r)
    else (checkValues (decRaw16 p.toNat)).map fun i => (i, r)

/-- The parcels of a run of bytes (R155: each parcel little-endian). -/
def parcels : List Byte → List Parcel
  | lo :: hi :: r => (hi ++ lo) :: parcels r
  | _ => []
/-- The instruction at the head of a run of bytes. -/
def decodeBytes (l : List Byte) : Except Reject Instr := (decode (parcels l)).map (·.1)

/-! ### Encoding -/

/-- The word of the `add` layout. -/
def g3W (m : Nat) (d : GNum) (a : GNum) (b : GNum) (fa : Bool) (fb : Bool) : Nat :=
  m + d.val * 2 ^ 19 + a.val * 2 ^ 14 + b.val * 2 ^ 9 + fa.toNat * 2 ^ 8 + fb.toNat * 2 ^ 7
/-- The word of the `clz` layout. -/
def g2W (m : Nat) (d : GNum) (a : GNum) (fa : Bool) : Nat :=
  m + d.val * 2 ^ 19 + a.val * 2 ^ 14 + fa.toNat * 2 ^ 8
/-- The word of the `addi` layout. -/
def imm13W (m : Nat) (d : GNum) (a : GNum) (fa : Bool) (imm : BitVec 13) : Nat :=
  m + d.val * 2 ^ 19 + a.val * 2 ^ 14 + fa.toNat * 2 ^ 13 + imm.toNat
/-- The word of the `slli` layout. -/
def shiftW (m : Nat) (d : GNum) (a : GNum) (fa : Bool) (n : BitVec 6) : Nat :=
  m + d.val * 2 ^ 19 + a.val * 2 ^ 14 + fa.toNat * 2 ^ 13 + n.toNat
/-- The word of the `bfx` layout. -/
def bitFieldW (m : Nat) (d : GNum) (a : GNum) (fa : Bool) (len : BitVec 6) (pos : BitVec 6) : Nat :=
  m + d.val * 2 ^ 19 + a.val * 2 ^ 14 + fa.toNat * 2 ^ 13 + len.toNat * 2 ^ 6 + pos.toNat
/-- The word of the `lim` layout. -/
def chunkW (m : Nat) (d : GNum) (h : Fin 4) (imm : BitVec 16) : Nat :=
  m + d.val * 2 ^ 19 + h.val * 2 ^ 16 + imm.toNat
/-- The word of the `myid` layout. -/
def gDW (m : Nat) (d : GNum) : Nat :=
  m + d.val * 2 ^ 19
/-- The word of the `kand` layout. -/
def k3W (m : Nat) (d : KNum) (a : KNum) (b : KNum) : Nat :=
  m + d.val * 2 ^ 19 + a.val * 2 ^ 14 + b.val * 2 ^ 9
/-- The word of the `knot` layout. -/
def k2W (m : Nat) (d : KNum) (a : KNum) : Nat :=
  m + d.val * 2 ^ 19 + a.val * 2 ^ 14
/-- The word of the `kfromg` layout. -/
def kFromGW (m : Nat) (d : KNum) (a : GNum) (fa : Bool) : Nat :=
  m + d.val * 2 ^ 19 + a.val * 2 ^ 14 + fa.toNat * 2 ^ 8
/-- The word of the `ktog` layout. -/
def gFromKW (m : Nat) (d : GNum) (a : KNum) : Nat :=
  m + d.val * 2 ^ 19 + a.val * 2 ^ 14
/-- The word of the `vperm` layout. -/
def v3W (m : Nat) (d : VNum) (a : VNum) (b : VNum) (k : KNum) (fa : Bool) (fb : Bool) : Nat :=
  m + d.val * 2 ^ 18 + a.val * 2 ^ 12 + b.val * 2 ^ 6 + k.val * 2 ^ 3 + fa.toNat * 2 ^ 2 + fb.toNat * 2 ^ 1
/-- The word of the `vzip` layout. -/
def v3NoMaskW (m : Nat) (d : VNum) (a : VNum) (b : VNum) (fa : Bool) (fb : Bool) : Nat :=
  m + d.val * 2 ^ 18 + a.val * 2 ^ 12 + b.val * 2 ^ 6 + fa.toNat * 2 ^ 2 + fb.toNat * 2 ^ 1
/-- The word of the `beq` layout. -/
def branchBW (m : Nat) (a : GNum) (b : GNum) (disp : BitVec 14) : Nat :=
  m + a.val * 2 ^ 19 + b.val * 2 ^ 14 + disp.toNat
/-- The word of the `j` layout. -/
def jumpJW (m : Nat) (disp : BitVec 24) : Nat :=
  m + disp.toNat
/-- The word of the `jr` layout. -/
def gAW (m : Nat) (a : GNum) (fa : Bool) : Nat :=
  m + a.val * 2 ^ 14 + fa.toNat * 2 ^ 8
/-- The word of the `ld.i8` layout. -/
def memMW (m : Nat) (d : GNum) (base : GNum) (fa : Bool) (off : BitVec 10) : Nat :=
  m + d.val * 2 ^ 19 + base.val * 2 ^ 14 + fa.toNat * 2 ^ 13 + off.toNat
/-- The word of the `purge` layout. -/
def memNoDW (m : Nat) (base : GNum) (fa : Bool) (off : BitVec 10) : Nat :=
  m + base.val * 2 ^ 14 + fa.toNat * 2 ^ 13 + off.toNat
/-- The word of the `aadd` layout. -/
def atomicDW (m : Nat) (d : GNum) (a : GNum) (b : GNum) (fa : Bool) (fb : Bool) (w32 : Bool) : Nat :=
  m + d.val * 2 ^ 19 + a.val * 2 ^ 14 + b.val * 2 ^ 9 + fa.toNat * 2 ^ 8 + fb.toNat * 2 ^ 7 + w32.toNat * 2 ^ 5
/-- The word of the `aadd.nr` layout. -/
def atomicNoDW (m : Nat) (a : GNum) (b : GNum) (fa : Bool) (fb : Bool) (w32 : Bool) : Nat :=
  m + a.val * 2 ^ 14 + b.val * 2 ^ 9 + fa.toNat * 2 ^ 8 + fb.toNat * 2 ^ 7 + w32.toNat * 2 ^ 5
/-- The word of the `watch.t` layout. -/
def g3eW (m : Nat) (d : GNum) (a : GNum) (b : GNum) (fa : Bool) (fb : Bool) (e : ENum) : Nat :=
  m + d.val * 2 ^ 19 + a.val * 2 ^ 14 + b.val * 2 ^ 9 + fa.toNat * 2 ^ 8 + fb.toNat * 2 ^ 7 + e.val
/-- The word of the `pull` layout. -/
def g2eW (m : Nat) (a : GNum) (b : GNum) (fa : Bool) (fb : Bool) (e : ENum) : Nat :=
  m + a.val * 2 ^ 14 + b.val * 2 ^ 9 + fa.toNat * 2 ^ 8 + fb.toNat * 2 ^ 7 + e.val
/-- The word of the `pull.g` layout. -/
def g2eBW (m : Nat) (d : GNum) (b : GNum) (fb : Bool) (e : ENum) : Nat :=
  m + d.val * 2 ^ 19 + b.val * 2 ^ 9 + fb.toNat * 2 ^ 7 + e.val
/-- The word of the `tlwait` layout. -/
def tlXW (m : Nat) (d : GNum) (tl : TLNum) : Nat :=
  m + d.val * 2 ^ 19 + tl.val * 2 ^ 16
/-- The word of the `garrive` layout. -/
def grpXW (m : Nat) (d : GNum) (idx : BitVec 8) : Nat :=
  m + d.val * 2 ^ 19 + idx.toNat
/-- The word of the `gwait.t` layout. -/
def grpEXW (m : Nat) (d : GNum) (e : ENum) (idx : BitVec 8) : Nat :=
  m + d.val * 2 ^ 19 + e.val * 2 ^ 16 + idx.toNat
/-- The word of the `calrd` layout. -/
def itemXW (m : Nat) (d : GNum) (item : BitVec 10) : Nat :=
  m + d.val * 2 ^ 19 + item.toNat
/-- The word of the `srd` layout. -/
def sprXW (m : Nat) (d : GNum) (num : BitVec 16) : Nat :=
  m + d.val * 2 ^ 19 + num.toNat
/-- The word of the `erd` layout. -/
def extXW (m : Nat) (d : GNum) (e : ENum) : Nat :=
  m + d.val * 2 ^ 19 + e.val * 2 ^ 16
/-- The word of the `tset` layout. -/
def g2tW (m : Nat) (a : GNum) (b : GNum) (fa : Bool) (fb : Bool) (t : TNum) : Nat :=
  m + a.val * 2 ^ 14 + b.val * 2 ^ 9 + fa.toNat * 2 ^ 8 + fb.toNat * 2 ^ 7 + t.val
/-- The word of the `tget.w0` layout. -/
def gTW (m : Nat) (d : GNum) (t : TNum) : Nat :=
  m + d.val * 2 ^ 19 + t.val
/-- The word of the `mld` layout. -/
def tOnlyW (m : Nat) (t : TNum) : Nat :=
  m + t.val
/-- The word of the `mmeta` layout. -/
def gAtW (m : Nat) (a : GNum) (fa : Bool) (t : TNum) : Nat :=
  m + a.val * 2 ^ 14 + fa.toNat * 2 ^ 8 + t.val
/-- The word of the `vld` layout. -/
def vmOffW (m : Nat) (d : VNum) (base : GNum) (fa : Bool) (tag : BitVec 4) (k : KNum) (off : BitVec 5) : Nat :=
  m + d.val * 2 ^ 18 + base.val * 2 ^ 13 + fa.toNat * 2 ^ 12 + tag.toNat * 2 ^ 8 + k.val * 2 ^ 5 + off.toNat
/-- The word of the `vst` layout. -/
def vmStoreW (m : Nat) (s : VNum) (base : GNum) (fa : Bool) (k : KNum) (off : BitVec 5) : Nat :=
  m + s.val * 2 ^ 18 + base.val * 2 ^ 13 + fa.toNat * 2 ^ 12 + k.val * 2 ^ 5 + off.toNat
/-- The word of the `vlds` layout. -/
def vmStrideW (m : Nat) (d : VNum) (base : GNum) (fa : Bool) (tag : BitVec 4) (k : KNum) (s : GNum) : Nat :=
  m + d.val * 2 ^ 18 + base.val * 2 ^ 13 + fa.toNat * 2 ^ 12 + tag.toNat * 2 ^ 8 + k.val * 2 ^ 5 + s.val
/-- The word of the `vldg` layout. -/
def vgIdxW (m : Nat) (d : VNum) (a : VNum) (tag : BitVec 4) (sc : Fin 4) (k : KNum) (e : ENum) : Nat :=
  m + d.val * 2 ^ 18 + a.val * 2 ^ 12 + tag.toNat * 2 ^ 8 + sc.val * 2 ^ 6 + k.val * 2 ^ 3 + e.val
/-- The word of the `vcmp` layout. -/
def vCondW (m : Nat) (cond : Fin 8) (kd : KNum) (a : VNum) (b : VNum) (k : KNum) (fa : Bool) (fb : Bool) : Nat :=
  m + cond.val * 2 ^ 21 + kd.val * 2 ^ 18 + a.val * 2 ^ 12 + b.val * 2 ^ 6 + k.val * 2 ^ 3 + fa.toNat * 2 ^ 2 + fb.toNat * 2 ^ 1
/-- The word of the `vcvt` layout. -/
def vCvtW (m : Nat) (d : VNum) (a : VNum) (dtag : BitVec 5) (rnd : BitVec 3) (k : KNum) (fa : Bool) : Nat :=
  m + d.val * 2 ^ 18 + a.val * 2 ^ 12 + dtag.toNat * 2 ^ 7 + rnd.toNat / 4 * 2 ^ 6 + rnd.toNat % 4 + k.val * 2 ^ 3 + fa.toNat * 2 ^ 2
/-- The word of the `vabs` layout. -/
def v2W (m : Nat) (d : VNum) (a : VNum) (k : KNum) (fa : Bool) : Nat :=
  m + d.val * 2 ^ 18 + a.val * 2 ^ 12 + k.val * 2 ^ 3 + fa.toNat * 2 ^ 2
/-- The word of the `vsqrt` layout. -/
def v2RndW (m : Nat) (d : VNum) (a : VNum) (rnd : BitVec 3) (k : KNum) (fa : Bool) : Nat :=
  m + d.val * 2 ^ 18 + a.val * 2 ^ 12 + rnd.toNat / 4 * 2 ^ 6 + rnd.toNat % 4 + k.val * 2 ^ 3 + fa.toNat * 2 ^ 2
/-- The word of the `vtagw` layout. -/
def vTagBW (m : Nat) (d : VNum) (a : VNum) (tag : BitVec 5) (fa : Bool) : Nat :=
  m + d.val * 2 ^ 18 + a.val * 2 ^ 12 + tag.toNat / 4 * 2 ^ 6 + tag.toNat % 4 + fa.toNat * 2 ^ 2
/-- The word of the `vtag` layout. -/
def gVW (m : Nat) (d : GNum) (a : VNum) (fa : Bool) : Nat :=
  m + d.val * 2 ^ 18 + a.val * 2 ^ 12 + fa.toNat * 2 ^ 2
/-- The word of the `vbcast` layout. -/
def vBcastW (m : Nat) (d : VNum) (a : GNum) (tag : BitVec 5) (k : KNum) (fa : Bool) : Nat :=
  m + d.val * 2 ^ 18 + a.val * 2 ^ 12 + tag.toNat / 4 * 2 ^ 6 + tag.toNat % 4 + k.val * 2 ^ 3 + fa.toNat * 2 ^ 2
/-- The word of the `vsldu` layout. -/
def vSlideW (m : Nat) (d : VNum) (a : VNum) (amt : BitVec 6) (k : KNum) (fa : Bool) : Nat :=
  m + d.val * 2 ^ 18 + a.val * 2 ^ 12 + amt.toNat / 4 * 2 ^ 6 + amt.toNat % 4 + k.val * 2 ^ 3 + fa.toNat * 2 ^ 2
/-- The word of the `c.mov` layout. -/
def c1W (m : Nat) (d : GNum) (a : GNum) : Nat :=
  m + d.val * 2 ^ 5 + a.val
/-- The word of the `c.jr` layout. -/
def c1AW (m : Nat) (a : GNum) : Nat :=
  m + a.val
/-- The word of the `c.addi` layout. -/
def c2W (m : Nat) (d : GNum) (imm : BitVec 6) : Nat :=
  m + d.val * 2 ^ 6 + imm.toNat
/-- The word of the `c.j` layout. -/
def c3W (m : Nat) (imm : BitVec 10) : Nat :=
  m + imm.toNat
/-- The word of the `rep` layout. -/
def repPW (m : Nat) (cnt : BitVec 6) (sd : Bool) (sa : Bool) (sb : Bool) (st : Bool) : Nat :=
  m + cnt.toNat * 2 ^ 4 + sd.toNat * 2 ^ 3 + sa.toNat * 2 ^ 2 + sb.toNat * 2 ^ 1 + st.toNat

/-- A 16-bit instruction. -/
def one (w : Nat) : List Parcel := [BitVec.ofNat 16 w]
/-- A 32-bit instruction, its first parcel first. -/
def two (w : Nat) : List Parcel := [BitVec.ofNat 16 (w / 2 ^ 16), BitVec.ofNat 16 w]

/-- The parcels of a well-formed instruction, by the table's fixed bits and fields. A hardware event has no encoding. -/
def encode : Instr → List Parcel
  | .add d a b fa fb => two (g3W 0xC0000000 d a b fa fb)
  | .sub d a b fa fb => two (g3W 0xC0000001 d a b fa fb)
  | .and d a b fa fb => two (g3W 0xC0000002 d a b fa fb)
  | .or d a b fa fb => two (g3W 0xC0000003 d a b fa fb)
  | .xor d a b fa fb => two (g3W 0xC0000004 d a b fa fb)
  | .andn d a b fa fb => two (g3W 0xC0000005 d a b fa fb)
  | .orn d a b fa fb => two (g3W 0xC0000006 d a b fa fb)
  | .xnor d a b fa fb => two (g3W 0xC0000007 d a b fa fb)
  | .sll d a b fa fb => two (g3W 0xC0000008 d a b fa fb)
  | .srl d a b fa fb => two (g3W 0xC0000009 d a b fa fb)
  | .sra d a b fa fb => two (g3W 0xC000000A d a b fa fb)
  | .rol d a b fa fb => two (g3W 0xC000000B d a b fa fb)
  | .ror d a b fa fb => two (g3W 0xC000000C d a b fa fb)
  | .mul d a b fa fb => two (g3W 0xC0000010 d a b fa fb)
  | .mulh d a b fa fb => two (g3W 0xC0000011 d a b fa fb)
  | .mulhn d a b fa fb => two (g3W 0xC0000012 d a b fa fb)
  | .div d a b fa fb => two (g3W 0xC0000013 d a b fa fb)
  | .divn d a b fa fb => two (g3W 0xC0000014 d a b fa fb)
  | .rem d a b fa fb => two (g3W 0xC0000015 d a b fa fb)
  | .remn d a b fa fb => two (g3W 0xC0000016 d a b fa fb)
  | .min d a b fa fb => two (g3W 0xC0000018 d a b fa fb)
  | .max d a b fa fb => two (g3W 0xC0000019 d a b fa fb)
  | .minn d a b fa fb => two (g3W 0xC000001A d a b fa fb)
  | .maxn d a b fa fb => two (g3W 0xC000001B d a b fa fb)
  | .slt d a b fa fb => two (g3W 0xC0000020 d a b fa fb)
  | .sltn d a b fa fb => two (g3W 0xC0000021 d a b fa fb)
  | .seq d a b fa fb => two (g3W 0xC0000022 d a b fa fb)
  | .sne d a b fa fb => two (g3W 0xC0000023 d a b fa fb)
  | .clz d a fa => two (g2W 0xC0000028 d a fa)
  | .ctz d a fa => two (g2W 0xC0000029 d a fa)
  | .popc d a fa => two (g2W 0xC000002A d a fa)
  | .brev d a fa => two (g2W 0xC000002B d a fa)
  | .bswap d a fa => two (g2W 0xC000002C d a fa)
  | .sx8 d a fa => two (g2W 0xC000002D d a fa)
  | .sx16 d a fa => two (g2W 0xC000002E d a fa)
  | .sx32 d a fa => two (g2W 0xC000002F d a fa)
  | .zx8 d a fa => two (g2W 0xC0000030 d a fa)
  | .zx16 d a fa => two (g2W 0xC0000031 d a fa)
  | .zx32 d a fa => two (g2W 0xC0000032 d a fa)
  | .adds d a b fa fb => two (g3W 0xC0000038 d a b fa fb)
  | .subs d a b fa fb => two (g3W 0xC0000039 d a b fa fb)
  | .addsn d a b fa fb => two (g3W 0xC000003A d a b fa fb)
  | .subsn d a b fa fb => two (g3W 0xC000003B d a b fa fb)
  | .sel d a b fa fb => two (g3W 0xC0000040 d a b fa fb)
  | .addi d a fa imm => two (imm13W 0xC1000000 d a fa imm)
  | .andi d a fa imm => two (imm13W 0xC2000000 d a fa imm)
  | .ori d a fa imm => two (imm13W 0xC3000000 d a fa imm)
  | .xori d a fa imm => two (imm13W 0xC4000000 d a fa imm)
  | .slli d a fa n => two (shiftW 0xC5000000 d a fa n)
  | .srli d a fa n => two (shiftW 0xC5000400 d a fa n)
  | .srai d a fa n => two (shiftW 0xC5000800 d a fa n)
  | .roli d a fa n => two (shiftW 0xC5000C00 d a fa n)
  | .rori d a fa n => two (shiftW 0xC5001000 d a fa n)
  | .slti d a fa imm => two (imm13W 0xC6000000 d a fa imm)
  | .sltni d a fa imm => two (imm13W 0xC7000000 d a fa imm)
  | .bfx d a fa len pos => two (bitFieldW 0xC8000000 d a fa len pos)
  | .bfxs d a fa len pos => two (bitFieldW 0xC8001000 d a fa len pos)
  | .bfi d a fa len pos => two (bitFieldW 0xC9000000 d a fa len pos)
  | .lim d h imm => two (chunkW 0xCA000000 d h imm)
  | .limk d h imm => two (chunkW 0xCA040000 d h imm)
  | .leaA d a b fa fb => two (g3W 0xCB000000 d a b fa fb)
  | .leaR d a b fa fb => two (g3W 0xCB000001 d a b fa fb)
  | .leaS d a b fa fb => two (g3W 0xCB000002 d a b fa fb)
  | .myid d => two (gDW 0xCB000003 d)
  | .kand d a b => two (k3W 0xCC000000 d a b)
  | .kor d a b => two (k3W 0xCC000001 d a b)
  | .kxor d a b => two (k3W 0xCC000002 d a b)
  | .kandn d a b => two (k3W 0xCC000003 d a b)
  | .knot d a => two (k2W 0xCC000004 d a)
  | .kfromg d a fa => two (kFromGW 0xCC000008 d a fa)
  | .ktog d a => two (gFromKW 0xCC000009 d a)
  | .kpop d a => two (gFromKW 0xCC00000A d a)
  | .kfirst d a => two (gFromKW 0xCC00000B d a)
  | .vperm d a b k fa fb => two (v3W 0xCD000000 d a b k fa fb)
  | .vperm2 d a b k fa fb => two (v3W 0xCD000001 d a b k fa fb)
  | .vzip d a b fa fb => two (v3NoMaskW 0xCE000000 d a b fa fb)
  | .vunzip d a b fa fb => two (v3NoMaskW 0xCE000001 d a b fa fb)
  | .vscl d a b k fa fb => two (v3W 0xCF000000 d a b k fa fb)
  | .vqnt d a b k fa fb => two (v3W 0xCF000001 d a b k fa fb)
  | .beq a b disp => two (branchBW 0xD0000000 a b disp)
  | .bne a b disp => two (branchBW 0xD1000000 a b disp)
  | .blt a b disp => two (branchBW 0xD2000000 a b disp)
  | .bge a b disp => two (branchBW 0xD3000000 a b disp)
  | .bltn a b disp => two (branchBW 0xD4000000 a b disp)
  | .bgen a b disp => two (branchBW 0xD5000000 a b disp)
  | .j disp => two (jumpJW 0xD6000000 disp)
  | .call disp => two (jumpJW 0xD7000000 disp)
  | .jr a fa => two (gAW 0xD8000000 a fa)
  | .callr d a fa => two (g2W 0xD8000001 d a fa)
  | .ldI8 d base fa off => two (memMW 0xDA000000 d base fa off)
  | .ldI16 d base fa off => two (memMW 0xDA000400 d base fa off)
  | .ldI32 d base fa off => two (memMW 0xDA000800 d base fa off)
  | .ldI64 d base fa off => two (memMW 0xDA000C00 d base fa off)
  | .ldN8 d base fa off => two (memMW 0xDA001000 d base fa off)
  | .ldN16 d base fa off => two (memMW 0xDA001400 d base fa off)
  | .ldN32 d base fa off => two (memMW 0xDA001800 d base fa off)
  | .stI8 s base fa off => two (memMW 0xDB000000 s base fa off)
  | .stI16 s base fa off => two (memMW 0xDB000400 s base fa off)
  | .stI32 s base fa off => two (memMW 0xDB000800 s base fa off)
  | .stI64 s base fa off => two (memMW 0xDB000C00 s base fa off)
  | .ldfe d base fa off => two (memMW 0xDC000000 d base fa off)
  | .ldff d base fa off => two (memMW 0xDC000400 d base fa off)
  | .stfe s base fa off => two (memMW 0xDC001000 s base fa off)
  | .stff s base fa off => two (memMW 0xDC001400 s base fa off)
  | .purge base fa off => two (memNoDW 0xDC001800 base fa off)
  | .aadd d a b fa fb w32 => two (atomicDW 0xDD000000 d a b fa fb w32)
  | .aaddNr a b fa fb w32 => two (atomicNoDW 0xDD000010 a b fa fb w32)
  | .aand d a b fa fb w32 => two (atomicDW 0xDD000001 d a b fa fb w32)
  | .aandNr a b fa fb w32 => two (atomicNoDW 0xDD000011 a b fa fb w32)
  | .aor d a b fa fb w32 => two (atomicDW 0xDD000002 d a b fa fb w32)
  | .aorNr a b fa fb w32 => two (atomicNoDW 0xDD000012 a b fa fb w32)
  | .axor d a b fa fb w32 => two (atomicDW 0xDD000003 d a b fa fb w32)
  | .axorNr a b fa fb w32 => two (atomicNoDW 0xDD000013 a b fa fb w32)
  | .amin d a b fa fb w32 => two (atomicDW 0xDD000004 d a b fa fb w32)
  | .aminNr a b fa fb w32 => two (atomicNoDW 0xDD000014 a b fa fb w32)
  | .amax d a b fa fb w32 => two (atomicDW 0xDD000005 d a b fa fb w32)
  | .amaxNr a b fa fb w32 => two (atomicNoDW 0xDD000015 a b fa fb w32)
  | .aminn d a b fa fb w32 => two (atomicDW 0xDD000006 d a b fa fb w32)
  | .aminnNr a b fa fb w32 => two (atomicNoDW 0xDD000016 a b fa fb w32)
  | .amaxn d a b fa fb w32 => two (atomicDW 0xDD000007 d a b fa fb w32)
  | .amaxnNr a b fa fb w32 => two (atomicNoDW 0xDD000017 a b fa fb w32)
  | .aswap d a b fa fb w32 => two (atomicDW 0xDD000008 d a b fa fb w32)
  | .acas d a b fa fb w32 => two (atomicDW 0xDD000009 d a b fa fb w32)
  | .watch d a b fa fb => two (g3W 0xE0000000 d a b fa fb)
  | .watchT d a b fa fb e => two (g3eW 0xE0000008 d a b fa fb e)
  | .seqAdv d a b fa fb => two (g3W 0xE0000010 d a b fa fb)
  | .pfence => two 0xE0000018
  | .yield => two 0xE0000020
  | .park => two 0xE0000028
  | .exit => two 0xE0000030
  | .pull a b fa fb e => two (g2eW 0xE1000000 a b fa fb e)
  | .pull2d d a b fa fb e => two (g3eW 0xE1000008 d a b fa fb e)
  | .pullG d b fb e => two (g2eBW 0xE1000010 d b fb e)
  | .pullAdd a b fa fb e => two (g2eW 0xE1000018 a b fa fb e)
  | .copy a b fa fb e => two (g2eW 0xE1000020 a b fa fb e)
  | .hget a b fa fb e => two (g2eW 0xE1000028 a b fa fb e)
  | .hsend a b fa fb e => two (g2eW 0xE1000030 a b fa fb e)
  | .spawn d a b fa fb e => two (g3eW 0xE2000000 d a b fa fb e)
  | .amsg d a b fa fb e => two (g3eW 0xE2000008 d a b fa fb e)
  | .tlwait d tl => two (tlXW 0xE3000000 d tl)
  | .tltest d tl => two (tlXW 0xE3000001 d tl)
  | .tlrd d tl => two (tlXW 0xE3000002 d tl)
  | .tlhigh d tl => two (tlXW 0xE3000003 d tl)
  | .tlerr d tl => two (tlXW 0xE3000004 d tl)
  | .garrive d idx => two (grpXW 0xE4000000 d idx)
  | .gwait d idx => two (grpXW 0xE4001000 d idx)
  | .gwaitT d e idx => two (grpEXW 0xE4002000 d e idx)
  | .gsync d idx => two (grpXW 0xE4003000 d idx)
  | .gquery d idx => two (grpXW 0xE4004000 d idx)
  | .calrd d item => two (itemXW 0xE5000000 d item)
  | .srd d num => two (sprXW 0xE6000000 d num)
  | .swr d num => two (sprXW 0xE6010000 d num)
  | .erd d e => two (extXW 0xE7000000 d e)
  | .ewr d e => two (extXW 0xE7000001 d e)
  | .tset a b fa fb t => two (g2tW 0xE8000000 a b fa fb t)
  | .tgetW0 d t => two (gTW 0xE8000008 d t)
  | .tgetW1 d t => two (gTW 0xE8000010 d t)
  | .mld t => two (tOnlyW 0xE8000018 t)
  | .mldt t => two (tOnlyW 0xE8000020 t)
  | .mmeta a fa t => two (gAtW 0xE8000028 a fa t)
  | .mswap => two 0xE8000030
  | .mstream a fa t => two (gAtW 0xE8000038 a fa t)
  | .mzero a fa => two (gAW 0xE8000040 a fa)
  | .mcvt a b fa fb t => two (g2tW 0xE8000048 a b fa fb t)
  | .mtask a fa => two (gAW 0xE8000050 a fa)
  | .tret a fa => two (gAW 0xE9000000 a fa)
  | .cstart d a fa => two (g2W 0xE9000001 d a fa)
  | .cstop d a fa => two (g2W 0xE9000002 d a fa)
  | .creap d a b fa fb => two (g3W 0xE9000003 d a b fa fb)
  | .ctxsv d a b fa fb => two (g3W 0xE9000004 d a b fa fb)
  | .ctxld d a b fa fb => two (g3W 0xE9000005 d a b fa fb)
  | .rlarm d a fa => two (g2W 0xE9000006 d a fa)
  | .prset d a b fa fb => two (g3W 0xE9000007 d a b fa fb)
  | .tinv d a b fa fb => two (g3W 0xE9000008 d a b fa fb)
  | .cflush d a b fa fb => two (g3W 0xE9000009 d a b fa fb)
  | .cinval d a b fa fb => two (g3W 0xE900000A d a b fa fb)
  | .polld d a b fa fb => two (g3W 0xE900000B d a b fa fb)
  | .polsw d a fa => two (g2W 0xE900000C d a fa)
  | .vld d base fa tag k off => two (vmOffW 0xEA000000 d base fa tag k off)
  | .vst s base fa k off => two (vmStoreW 0xEB000000 s base fa k off)
  | .vlds d base fa tag k s => two (vmStrideW 0xEC000000 d base fa tag k s)
  | .vsts d base fa tag k s => two (vmStrideW 0xED000000 d base fa tag k s)
  | .vldp d base fa tag k off => two (vmOffW 0xEE000000 d base fa tag k off)
  | .vldt d base fa tag k s => two (vmStrideW 0xEF000000 d base fa tag k s)
  | .vldg d a tag sc k e => two (vgIdxW 0xF0000000 d a tag sc k e)
  | .vstg d a tag sc k e => two (vgIdxW 0xF1000000 d a tag sc k e)
  | .vadd d a b k fa fb => two (v3W 0xF2000000 d a b k fa fb)
  | .vsub d a b k fa fb => two (v3W 0xF2000001 d a b k fa fb)
  | .vadds d a b k fa fb => two (v3W 0xF3000000 d a b k fa fb)
  | .vsubs d a b k fa fb => two (v3W 0xF3000001 d a b k fa fb)
  | .vmul d a b k fa fb => two (v3W 0xF4000000 d a b k fa fb)
  | .vmulh d a b k fa fb => two (v3W 0xF4000001 d a b k fa fb)
  | .vfma d a b k fa fb => two (v3W 0xF5000000 d a b k fa fb)
  | .vfms d a b k fa fb => two (v3W 0xF5000001 d a b k fa fb)
  | .vmin d a b k fa fb => two (v3W 0xF6000000 d a b k fa fb)
  | .vmax d a b k fa fb => two (v3W 0xF6000001 d a b k fa fb)
  | .vand d a b k fa fb => two (v3W 0xF7000000 d a b k fa fb)
  | .vor d a b k fa fb => two (v3W 0xF7000001 d a b k fa fb)
  | .vxor d a b k fa fb => two (v3W 0xF8000000 d a b k fa fb)
  | .vandn d a b k fa fb => two (v3W 0xF8000001 d a b k fa fb)
  | .vsll d a b k fa fb => two (v3W 0xF9000000 d a b k fa fb)
  | .vsrl d a b k fa fb => two (v3W 0xF9000001 d a b k fa fb)
  | .vsra d a b k fa fb => two (v3W 0xFA000000 d a b k fa fb)
  | .vrol d a b k fa fb => two (v3W 0xFA000001 d a b k fa fb)
  | .vcmp cond kd a b k fa fb => two (vCondW 0xFB000000 cond kd a b k fa fb)
  | .vcmpa cond kd a b k fa fb => two (vCondW 0xFB000001 cond kd a b k fa fb)
  | .vcvt d a dtag rnd k fa => two (vCvtW 0xFC000000 d a dtag rnd k fa)
  | .vabs d a k fa => two (v2W 0xFD000000 d a k fa)
  | .vneg d a k fa => two (v2W 0xFD000001 d a k fa)
  | .vnot d a k fa => two (v2W 0xFD000002 d a k fa)
  | .vclz d a k fa => two (v2W 0xFD000003 d a k fa)
  | .vpopc d a k fa => two (v2W 0xFD000040 d a k fa)
  | .vrcp d a k fa => two (v2W 0xFD000080 d a k fa)
  | .vrsq d a k fa => two (v2W 0xFD000081 d a k fa)
  | .vexp2 d a k fa => two (v2W 0xFD000082 d a k fa)
  | .vlog2 d a k fa => two (v2W 0xFD000083 d a k fa)
  | .vrtrec d a k fa => two (v2W 0xFD0000C0 d a k fa)
  | .vsqrt d a rnd k fa => two (v2RndW 0xFD000100 d a rnd k fa)
  | .vrsum d a rnd k fa => two (v2RndW 0xFD000400 d a rnd k fa)
  | .vrmax d a k fa => two (v2W 0xFD000480 d a k fa)
  | .vrmin d a k fa => two (v2W 0xFD000500 d a k fa)
  | .vrand d a k fa => two (v2W 0xFD000580 d a k fa)
  | .vrior d a k fa => two (v2W 0xFD000600 d a k fa)
  | .vrxor d a k fa => two (v2W 0xFD000680 d a k fa)
  | .vtagw d a tag fa => two (vTagBW 0xFD000800 d a tag fa)
  | .vtag d a fa => two (gVW 0xFD000A00 d a fa)
  | .vbcast d a tag k fa => two (vBcastW 0xFD000C00 d a tag k fa)
  | .vmovg d a fa => two (gVW 0xFD000E00 d a fa)
  | .vsldu d a amt k fa => two (vSlideW 0xFE000000 d a amt k fa)
  | .vsldd d a amt k fa => two (vSlideW 0xFE000400 d a amt k fa)
  | .vlrot d a amt k fa => two (vSlideW 0xFE000800 d a amt k fa)
  | .cMov d a => one (c1W 0x0400 d a)
  | .cAdd d a => one (c1W 0x0800 d a)
  | .cSub d a => one (c1W 0x0C00 d a)
  | .cAnd d a => one (c1W 0x1000 d a)
  | .cOr d a => one (c1W 0x1400 d a)
  | .cXor d a => one (c1W 0x1800 d a)
  | .cSll d a => one (c1W 0x1C00 d a)
  | .cSrl d a => one (c1W 0x2000 d a)
  | .cSra d a => one (c1W 0x2400 d a)
  | .cLd d a => one (c1W 0x2800 d a)
  | .cSt d a => one (c1W 0x2C00 d a)
  | .cJr a => one (c1AW 0x3000 a)
  | .cCallr d a => one (c1W 0x3400 d a)
  | .cLdfe d a => one (c1W 0x3800 d a)
  | .cStfe d a => one (c1W 0x3C00 d a)
  | .cAddi d imm => one (c2W 0x4000 d imm)
  | .cLi d imm => one (c2W 0x4800 d imm)
  | .cSlli d imm => one (c2W 0x5000 d imm)
  | .cSrli d imm => one (c2W 0x5800 d imm)
  | .cSrai d imm => one (c2W 0x6000 d imm)
  | .cBz d imm => one (c2W 0x6800 d imm)
  | .cBnz d imm => one (c2W 0x7000 d imm)
  | .nop => one 0x8000
  | .cJ imm => one (c3W 0x8400 imm)
  | .cYield => one 0x8800
  | .cPark => one 0x8C00
  | .cExit => one 0x9000
  | .brk imm => one (c3W 0x9400 imm)
  | .svc imm => one (c3W 0x9800 imm)
  | .cPfence => one 0x9C00
  | .rep cnt sd sa sb st => one (repPW 0xBC00 cnt sd sa sb st)
  | _ => []

/-! ### The table's numbering -/

/-- The instruction whose bits are `w` as spec/opcode_table.json numbers them: of a 32-bit row, bits 31:16 are the first
parcel (R155). An event row has no bits and no instruction word. -/
def decodeTableWord (nbits w : Nat) : Option Instr :=
  let l := if nbits = 0 then [] else if nbits ≤ 16 then one w else two w
  match decode l with
  | .ok (i, []) => some i
  | _ => none

end

end Sys2Proof
end

