-- ==== Sys2Proof/Config.lean ====
section
/-!
DEFINITION. Sys2Proof/Config.lean: what the spec leaves open. Every constant here is opaque: it has no body, so no proof
can use a value of it, and a theorem that mentions one holds for every value (assumption log 6, 8, 12, 18).
-/
namespace Sys2Proof.Config

/-- The free values of the machine: what the n-th draw of `State.draws` yields. Log 6. -/
opaque freeNat : Nat → Nat
/-- A free 64-bit word. Log 6. -/
opaque freeWord : Nat → Word
/-- A free choice between two outcomes. Log 6. -/
opaque freeBool : Nat → Bool
/-- Which of the two neighbours `vrcp`, `vrsq`, `vexp2`, `vlog2` return: operation code, tag code, operand bits.
R225 fixes it as a function of the operand and the tag and does not publish it. Log 8. -/
opaque approxUp : Nat → Nat → Nat → Bool
/-- How many discarded bits take part in a stochastic rounding whose source is no stored number (a sum, a root): R52
counts the significand bits of "the source" and names none for these. Operation and tag, the operands' bits. Log 18. -/
opaque srDiscarded : Nat → Nat → Nat
/-- The keystream of a partition's link, save, ingest or memory key: key, nonce, byte index (R398 to R402). Log 12. -/
opaque keystream : Nat → Nat → Nat → Byte
/-- The authentication tag over a message: key, nonce, bytes (R399 to R402). Log 12. -/
opaque authTag : Nat → Nat → List Byte → BitVec 128
/-- A key derived inside the security core: purpose, serial (R398). Log 12. -/
opaque deriveKey : Nat → Nat → Nat
/-- SHA-256 (R404, R405). The spec names the function and gives no computation of it. Log 12. -/
opaque sha256 : List Byte → BitVec 256
/-- An LMS signature by the module's identity: leaf index, message (R405, R410). Log 12. -/
opaque lmsSign : Nat → List Byte → List Byte
/-- XTS over a 128-byte span: encryption or decryption, key, span number, bytes (R400, R428). Log 12. -/
opaque xts : Bool → Nat → Nat → List Byte → List Byte
/-- AES key wrap of a partition key, by its name, under the storage key of the module with the identity given, bound to a measurement set
(R428). Log 12. -/
opaque keyWrap : BitVec 256 → List (BitVec 256) → Nat → List Byte
/-- Its undoing: none where the wrapped key fails its check (R428). Log 12. -/
opaque keyUnwrap : BitVec 256 → List (BitVec 256) → List Byte → Option Nat
/-- An ingest key, by its name, from the form in which it comes wrapped under the SPDM session key of a function; none where it fails its
check (R401, R432). Log 12. -/
opaque ingestUnwrap : Nat → Nat → Option Nat
/-- What an HBM byte reads as that was written under a key since dropped: number of the key, address (R409). Log 32. -/
opaque residue : Nat → Nat → Byte
/-- Digest of the ROM code and its identity key (R404). Log 12. -/
opaque romDigest : BitVec 256
/-- Digest of the firmware image (R404). Log 12. -/
opaque firmwareDigest : BitVec 256
/-- SHA-256 of the module's identity key (R410). Log 12. -/
opaque identityDigest : BitVec 256
/-- Digest of the security configuration: FEAT0, FEAT1, the beams in skid mode (R404). Log 12. -/
opaque configDigest : Word → Word → List Nat → BitVec 256
/-- Digest that a LAUNCH extends MR3 to MR7 with: number of the register, what the LAUNCH carries (R404). Log 12. -/
opaque launchDigest : Nat → LaunchArgs → BitVec 256

end Sys2Proof.Config
end

