-- ==== Sys2Proof/Machine/Formats.lean ====
section
/-!
DEFINITION. Sys2Proof/Machine/Formats.lean: the number formats of chapter 02, exact values, rounding (R47, R48, R52),
conversions (R49) and the residue image (R54 to R58). Pure arithmetic on Nat and Int; no state.
-/
namespace Sys2Proof.Machine

/-- The code of a tag (R40). -/
def tagCode : Tag → Nat
  | .raw => 0x00 | .i8 => 0x01 | .i16 => 0x02 | .i32 => 0x03 | .i64 => 0x04
  | .n8 => 0x05 | .n16 => 0x06 | .n32 => 0x07 | .f32 => 0x08 | .bf16 => 0x09 | .f16 => 0x0A
  | .f8e4 => 0x0B | .f8e5 => 0x0C | .q8 => 0x0D | .q4 => 0x0E | .a80 => 0x10 | .rt => 0x11

/-- The tag of a code; reserved codes have none (R40). -/
def tagOfCode (n : Nat) : Option Tag :=
  match n with
  | 0x00 => some .raw | 0x01 => some .i8 | 0x02 => some .i16 | 0x03 => some .i32 | 0x04 => some .i64
  | 0x05 => some .n8 | 0x06 => some .n16 | 0x07 => some .n32 | 0x08 => some .f32 | 0x09 => some .bf16
  | 0x0A => some .f16 | 0x0B => some .f8e4 | 0x0C => some .f8e5 | 0x0D => some .q8 | 0x0E => some .q4
  | 0x10 => some .a80 | 0x11 => some .rt
  | _ => none

/-- The tag of a code that a v register may hold (R41). -/
def vTagOfCode (n : Nat) : Option Tag :=
  match tagOfCode n with
  | some .a80 => none
  | some .rt => none
  | t => t

/-- Width of an element in bits (R40). A RAW register is worked on in 64-bit lanes (R214). -/
def tagWidth : Tag → Nat
  | .raw => 64 | .i8 => 8 | .i16 => 16 | .i32 => 32 | .i64 => 64
  | .n8 => 8 | .n16 => 16 | .n32 => 32 | .f32 => 32 | .bf16 => 16 | .f16 => 16
  | .f8e4 => 8 | .f8e5 => 8 | .q8 => 8 | .q4 => 4 | .a80 => 128 | .rt => 32

/-- Lanes of a v register under a tag (R40, R214). -/
def tagLanes (t : Tag) : Nat := 512 / tagWidth t

/-- Int of R219: I8 to I64 and N8 to N32. -/
def isInt : Tag → Bool
  | .i8 => true | .i16 => true | .i32 => true | .i64 => true | .n8 => true | .n16 => true | .n32 => true
  | _ => false
/-- A two's complement tag, the Q tags among them (R44, R45). -/
def isSigned : Tag → Bool
  | .i8 => true | .i16 => true | .i32 => true | .i64 => true | .q8 => true | .q4 => true
  | _ => false
/-- Flt of R219. -/
def isFlt : Tag → Bool
  | .f32 => true | .bf16 => true | .f16 => true
  | _ => false
/-- F8 of R219. -/
def isF8 : Tag → Bool
  | .f8e4 => true | .f8e5 => true
  | _ => false
/-- A floating-point tag of R42. -/
def isFloat (t : Tag) : Bool := isFlt t || isF8 t || t == .a80

/-- A w-bit pattern read as two's complement (R44). -/
def sxInt (w x : Nat) : Int := if x % 2 ^ w < 2 ^ (w - 1) then (x % 2 ^ w : Nat) else (x % 2 ^ w : Nat) - (2 ^ w : Nat)
/-- The low w bits of an integer (R44). -/
def wrapInt (w : Nat) (v : Int) : Nat := (v % (2 ^ w : Nat)).toNat
/-- The integer a lane of an integer or Q tag holds (R44, R45). -/
def laneInt (t : Tag) (x : Nat) : Int := if isSigned t then sxInt (tagWidth t) x else (x % 2 ^ tagWidth t : Nat)
/-- Clamping to the range of an integer or Q tag (R44, R49). -/
def saturate (t : Tag) (v : Int) : Int :=
  let w := tagWidth t
  if isSigned t then max (-(2 ^ (w - 1) : Nat)) (min v ((2 ^ (w - 1) : Nat) - 1)) else max 0 (min v ((2 ^ w : Nat) - 1))

/-- A floating-point format (R42): precision with the hidden bit, exponent of the smallest subnormal, the pattern of
the largest finite value, whether it has infinities, the canonical NaN, the width. -/
structure FFmt where
  p : Nat
  emin : Int
  maxBits : Nat
  hasInf : Bool
  nan : Nat
  width : Nat
  deriving DecidableEq, Repr

/-- The formats of R42. -/
def ffmt : Tag → FFmt
  | .bf16 => ⟨8, -133, 0x7F7F, true, 0x7FC0, 16⟩
  | .f16 => ⟨11, -24, 0x7BFF, true, 0x7E00, 16⟩
  | .f8e4 => ⟨4, -9, 0x7E, false, 0x7F, 8⟩
  | .f8e5 => ⟨3, -16, 0x7B, true, 0x7E, 8⟩
  | .a80 => ⟨63, -65596, 0x7FFFBFFFFFFFFFFFFFFF, true, 0x7FFFE000000000000000, 80⟩
  | _ => ⟨24, -149, 0x7F7FFFFF, true, 0x7FC00000, 32⟩

/-- A floating-point value: NaN, an infinity (negative?), or the finite value (−1)^neg × man × 2^exp. -/
inductive FVal where
  | nan
  | inf (neg : Bool)
  | fin (neg : Bool) (man : Nat) (exp : Int)
  deriving DecidableEq, Repr

/-- Reading a pattern of a format (R42). -/
def decodeF (f : FFmt) (x : Nat) : FVal :=
  let neg := x / 2 ^ (f.width - 1) % 2 == 1
  let m := x % 2 ^ (f.width - 1)
  let e := m / 2 ^ (f.p - 1)
  let fr := m % 2 ^ (f.p - 1)
  if m > f.maxBits then (if f.hasInf && m == f.maxBits + 1 then .inf neg else .nan)
  else if e = 0 then .fin neg fr f.emin
  else .fin neg (fr + 2 ^ (f.p - 1)) (f.emin + (e - 1 : Nat))

/-- How many significand bits of a stored pattern weigh less than 2^k: the d of R52 before its limit of 64. -/
def fracBelow (f : FFmt) (x : Nat) (k : Int) : Nat :=
  let m := x % 2 ^ (f.width - 1)
  let e := m / 2 ^ (f.p - 1)
  if e = 0 then min (f.p - 1) (k - f.emin).toNat
  else min f.p (k - (f.emin + (e - 1 : Nat))).toNat

/-- The sign bit of a format at its place. -/
def signBit (f : FFmt) (neg : Bool) : Nat := if neg then 2 ^ (f.width - 1) else 0
/-- Infinity of a sign; F8E4 has none and takes 0x7F (R48). -/
def infBits (f : FFmt) (neg : Bool) : Nat := if f.hasInf then signBit f neg + f.maxBits + 1 else f.nan
/-- The overflow result of R48. -/
def overflowBits (f : FFmt) (r : Rnd) (neg : Bool) : Nat :=
  if !f.hasInf then signBit f neg + f.maxBits
  else match r with
    | .rtz => signBit f neg + f.maxBits
    | .rdn => if neg then infBits f neg else signBit f neg + f.maxBits
    | .rup => if neg then signBit f neg + f.maxBits else infBits f neg
    | .rne => infBits f neg
    | .sr => infBits f neg

/-- A magnitude (num / den) × 2^exp, den > 0. -/
structure Mag where
  num : Nat
  den : Nat
  exp : Int
  deriving DecidableEq, Repr

/-- floor (log2 (num / den)) for num > 0. -/
def log2Rat (num den : Nat) : Int :=
  let g : Int := (num.log2 : Int) - den.log2
  -- g - 1 ≤ log2 < g + 1
  let ge : Bool := if 0 ≤ g then decide (den * 2 ^ g.toNat ≤ num) else decide (den ≤ num * 2 ^ (-g).toNat)
  if ge then g else g - 1

/-- floor, and whether a remainder is left, of (num / den) × 2^sh. Returns quotient, remainder, divisor. -/
def scaledDiv (num den : Nat) (sh : Int) : Nat × Nat × Nat :=
  let n := num * 2 ^ sh.toNat
  let d := den * 2 ^ (-sh).toNat
  (n / d, n % d, d)

/-- One more in the last place? q the truncated multiple, rem / d the discarded fraction (R47, R52). -/
def roundUpQ (r : Rnd) (neg : Bool) (q rem d : Nat) (srD : Nat) (draw : Nat) : Bool :=
  match r with
  | .rtz => false
  | .rdn => neg && decide (0 < rem)
  | .rup => !neg && decide (0 < rem)
  | .rne => decide (d < 2 * rem) || (decide (d = 2 * rem) && decide (q % 2 = 1))
  | .sr => decide (draw % 2 ^ srD < rem * 2 ^ srD / d)

/-- The weight exponent of the last kept bit at a magnitude (R48, R52). -/
def unitExp (f : FFmt) (m : Mag) : Int := max (log2Rat m.num m.den + m.exp - ((f.p : Int) - 1)) f.emin

/-- Rounding a non-zero exact magnitude to a format (R47, R48, R52). `srD k` is the number of discarded source bits at
last weight 2^k, `draw` the draw of R51. -/
def roundMag (f : FFmt) (r : Rnd) (neg : Bool) (m : Mag) (srD : Int → Nat) (draw : Nat) : Nat :=
  if m.num = 0 then signBit f neg
  else
    let k := unitExp f m
    let (q, rem, d) := scaledDiv m.num m.den (m.exp - k)
    let bits (x : Nat) : Nat := (k - f.emin).toNat * 2 ^ (f.p - 1) + x
    if r = .sr && decide (f.maxBits < bits q) then overflowBits f r neg
    else
      let q' := if roundUpQ r neg q rem d (min 64 (srD k)) draw then q + 1 else q
      if f.maxBits < bits q' then overflowBits f r neg else signBit f neg + bits q'

/-- Rounding a value to a format (R47 to R49). -/
def roundF (f : FFmt) (r : Rnd) (v : FVal) (srD : Int → Nat) (draw : Nat) : Nat :=
  match v with
  | .nan => f.nan
  | .inf neg => infBits f neg
  | .fin neg man exp => roundMag f r neg ⟨man, 1, exp⟩ srD draw

/-- Rounding where no draw can be taken (every mode but SR). -/
def roundNE (f : FFmt) (v : FVal) : Nat := roundF f .rne v (fun _ => 0) 0

/-- Rounding an exact magnitude to an integer (R47, R52 with u = 1). -/
def roundMagInt (r : Rnd) (neg : Bool) (m : Mag) (srD : Nat) (draw : Nat) : Int :=
  let (q, rem, d) := scaledDiv m.num m.den m.exp
  let q' : Nat := if roundUpQ r neg q rem d (min 64 srD) draw then q + 1 else q
  if neg then -(q' : Int) else q'

/-! ### Exact arithmetic -/

/-- Negation of a value. -/
def fneg : FVal → FVal
  | .nan => .nan
  | .inf n => .inf (!n)
  | .fin n m e => .fin (!n) m e

/-- The signed integer man × 2^(exp − e) for e ≤ exp. -/
def alignTo (e : Int) (neg : Bool) (man : Nat) (exp : Int) : Int :=
  let v : Int := (man * 2 ^ (exp - e).toNat : Nat)
  if neg then -v else v

/-- A finite value of a signed integer and an exponent; zero takes the sign given. -/
def ofIntExp (v : Int) (e : Int) (zneg : Bool) : FVal :=
  if v = 0 then .fin zneg 0 e else .fin (v < 0) v.natAbs e

/-- Exact sum (R43): NaN of two infinities of opposite sign; an exact zero of operands of opposite sign is +0, or −0
under RDN. -/
def fadd (r : Rnd) : FVal → FVal → FVal
  | .nan, _ => .nan
  | _, .nan => .nan
  | .inf a, .inf b => if a = b then .inf a else .nan
  | .inf a, .fin _ _ _ => .inf a
  | .fin _ _ _, .inf b => .inf b
  | .fin na ma ea, .fin nb mb eb =>
    let e := min ea eb
    let v := alignTo e na ma ea + alignTo e nb mb eb
    let zneg := if na = nb then na else decide (r = .rdn)
    ofIntExp v e zneg

/-- Exact product (R43). -/
def fmul : FVal → FVal → FVal
  | .nan, _ => .nan
  | _, .nan => .nan
  | .inf a, .inf b => .inf (a != b)
  | .inf a, .fin b m _ => if m = 0 then .nan else .inf (a != b)
  | .fin a m _, .inf b => if m = 0 then .nan else .inf (a != b)
  | .fin a m e, .fin b m' e' => .fin (a != b) (m * m') (e + e')

/-- D + A × B, exact (R222). ∞ × 0 gives NaN whatever D is. -/
def ffma (r : Rnd) (d a b : FVal) : FVal := fadd r d (fmul a b)

/-- A < B on values that are no NaN; zeros compare equal. -/
def flt : FVal → FVal → Bool
  | .nan, _ => false
  | _, .nan => false
  | .inf a, .inf b => a && !b
  | .inf a, .fin _ _ _ => a
  | .fin _ _ _, .inf b => !b
  | .fin na ma ea, .fin nb mb eb =>
    let e := min ea eb
    decide (alignTo e na ma ea < alignTo e nb mb eb)

/-- A = B, −0 equal to +0, false on NaN (R223). -/
def feq (a b : FVal) : Bool :=
  match a, b with
  | .nan, _ => false
  | _, .nan => false
  | a, b => !(flt a b) && !(flt b a)

/-- Is the value a NaN? -/
def fisNaN : FVal → Bool
  | .nan => true
  | _ => false
/-- Is the sign negative? -/
def fisNeg : FVal → Bool
  | .nan => false
  | .inf n => n
  | .fin n _ _ => n

/-- A below B with −0 below +0 (R43). -/
def fltZ (a b : FVal) : Bool := flt a b || (feq a b && fisNeg a && !(fisNeg b))
/-- Minimum of R43. -/
def fmin (a b : FVal) : FVal :=
  match a, b with
  | .nan, b => b
  | a, .nan => a
  | a, b => if fltZ b a then b else a
/-- Maximum of R43. -/
def fmax (a b : FVal) : FVal :=
  match a, b with
  | .nan, b => b
  | a, .nan => a
  | a, b => if fltZ a b then b else a

/-! ### Roots and the approximations of R225 -/

/-- Integer square root of n by its bits, b the highest bit tried. -/
def isqrtBits (n : Nat) : Nat → Nat → Nat
  | 0, r => if (r + 1) * (r + 1) ≤ n then r + 1 else r
  | b + 1, r => isqrtBits n b (if (r + 2 ^ (b + 1)) * (r + 2 ^ (b + 1)) ≤ n then r + 2 ^ (b + 1) else r)

/-- floor of the square root. -/
def isqrt (n : Nat) : Nat := isqrtBits n (n.log2 / 2 + 1) 0

/-- √(num / den × 2^exp) as a magnitude that is exact or has its last bit set as a mark of what follows it; at least
`prec` bits long. -/
def sqrtMag (num den : Nat) (exp : Int) (prec : Nat) : Mag :=
  -- choose an even shift s so that num / den × 2^s has at least 2 × prec bits and exp - s is even
  let want : Int := 2 * (prec : Int) - log2Rat num den
  let s : Nat := want.toNat + (if (exp - want.toNat) % 2 = 0 then 0 else 1)
  let n := num * 2 ^ s / den
  let r := isqrt n
  let exact := decide (r * r * den = num * 2 ^ s)
  ⟨2 * r + (if exact then 0 else 1), 1, (exp - s) / 2 - 1⟩

/-- √A of R226, exact or marked. -/
def fsqrt : FVal → Sum FVal Mag
  | .nan => .inl .nan
  | .inf neg => .inl (if neg then .nan else .inf false)
  | .fin neg man exp =>
    if man = 0 then .inl (.fin neg 0 exp)
    else if neg then .inl .nan
    else .inr (sqrtMag man 1 exp 100)

/-- Of the two neighbours of a magnitude the one chosen; the magnitude itself when representable (R225). -/
def neighbour (f : FFmt) (neg : Bool) (m : Mag) (up : Bool) : Nat :=
  if m.num = 0 then signBit f neg
  else
    let k := unitExp f m
    let (q, rem, _) := scaledDiv m.num m.den (m.exp - k)
    let bits := (k - f.emin).toNat * 2 ^ (f.p - 1) + q
    if f.maxBits < bits || (decide (f.maxBits = bits) && decide (0 < rem)) then infBits f neg
    else if rem = 0 then signBit f neg + bits
    else signBit f neg + (if up then bits + 1 else bits)

/-- 2^(j / 2^t) × 2^P rounded down, the bits of j taken from the highest: `s` is 2^(1/2^i) × 2^P at the i-th. -/
def exp2Loop (P : Nat) : Nat → Nat → Nat → Nat → Nat
  | 0, _, _, acc => acc
  | t + 1, j, s, acc =>
    let s' := isqrt (s * 2 ^ P)
    exp2Loop P t j s' (if j / 2 ^ t % 2 = 1 then acc * s' / 2 ^ P else acc)

/-- Fixed-point precision of the exponential and the logarithm. Log 8. -/
def approxPrec : Nat := 320

/-- The magnitude of 2^A for a finite A = man × 2^exp: exact for integers, else marked below (R225). -/
def exp2Mag (neg : Bool) (man : Nat) (exp : Int) : Mag :=
  -- beyond 400 in magnitude every format of Flt overflows or lies below its smallest subnormal
  let clamp (n : Int) : Int := max (-400) (min n 400)
  if 0 ≤ exp then
    let n : Int := (man * 2 ^ (min exp 40).toNat : Nat)
    ⟨1, 1, clamp (if neg then -n else n)⟩
  else
    let t := (-exp).toNat
    let a : Int := if neg then -(man : Int) else man
    let n := a / (2 ^ t : Nat)
    let j := (a % (2 ^ t : Nat)).toNat
    if j = 0 then ⟨1, 1, clamp n⟩
    else ⟨2 * exp2Loop approxPrec t j (2 ^ (approxPrec + 1)) (2 ^ approxPrec) + 1, 1, clamp n - approxPrec - 1⟩

/-- Digits of log2 m for m in [1, 2) as x / 2^P, n of them, most significant first. -/
def log2Loop (P : Nat) : Nat → Nat → Nat → Nat
  | 0, _, acc => acc
  | n + 1, x, acc =>
    let y := x * x / 2 ^ P
    if 2 ^ (P + 1) ≤ y then log2Loop P n (y / 2) (2 * acc + 1) else log2Loop P n y (2 * acc)

/-- log2 of man × 2^exp, man > 0: sign and magnitude, marked when not exact (R225). -/
def log2Mag (man : Nat) (exp : Int) : Bool × Mag :=
  let l := man.log2
  let e : Int := exp + l
  if man = 2 ^ l then (decide (e < 0), ⟨e.natAbs, 1, 0⟩)
  else
    let T := 128
    let fr := log2Loop approxPrec T (man * 2 ^ approxPrec / 2 ^ l) 0
    let v : Int := 2 * (e * (2 ^ T : Nat) + fr) + 1     -- strictly between two fixed-point steps
    (decide (v < 0), ⟨v.natAbs, 1, -(T : Int) - 1⟩)

/-- The four approximations of R225 on a pattern. op: 0 vrcp, 1 vrsq, 2 vexp2, 3 vlog2. -/
def approx (op : Nat) (t : Tag) (x : Nat) : Nat :=
  let f := ffmt t
  let up := Config.approxUp op (tagCode t) x
  match op, decodeF f x with
  | _, .nan => f.nan
  | 0, .inf n => signBit f n
  | 0, .fin n m e => if m = 0 then infBits f n else neighbour f n ⟨1, m, -e⟩ up
  | 1, .inf n => if n then f.nan else 0
  | 1, .fin n m e =>
    if m = 0 then infBits f n
    else if n then f.nan
    else neighbour f false (sqrtMag 1 m (-e) 100) up
  | 2, .inf n => if n then 0 else infBits f false
  | 2, .fin n m e => if m = 0 then roundNE f (.fin false 1 0) else neighbour f false (exp2Mag n m e) up
  | _, .inf n => if n then f.nan else infBits f false
  | _, .fin n m e =>
    if m = 0 then infBits f true
    else if n then f.nan
    else let (neg, g) := log2Mag m e
         neighbour f neg g up

/-! ### The residue image (R54 to R58) -/

/-- M of R55. -/
def resM : Nat := 16515840
/-- The residues of an integer packed as an RT word (R54); the integer is saturated first (R58). -/
def toRT (v : Int) : Nat :=
  let s := max (-8257920) (min v 8257919)
  (s % 251).toNat * 2 ^ 24 + (s % 256).toNat * 2 ^ 16 + (s % 255).toNat * 2 ^ 8 + (s % 253).toNat
/-- A malformed RT word (R54). -/
def rtMalformed (w : Nat) : Bool :=
  decide (251 ≤ w / 2 ^ 24 % 256) || decide (w / 2 ^ 8 % 256 = 255) || decide (253 ≤ w % 256)
/-- Reconstruction of R55. -/
def rtReconstruct (w : Nat) : Int :=
  let X : Nat := (w % 256 * 13774080 + w / 2 ^ 8 % 256 * 8225536 + w / 2 ^ 16 % 256 * 11032065) % resM
  if X < 8257920 then (X : Int) else (X : Int) - (resM : Int)
/-- Does a word pass R54 and the check of R57? -/
def rtGood (w : Nat) : Bool :=
  !rtMalformed w && decide ((rtReconstruct w % (251 : Int)).toNat = w / 2 ^ 24 % 256)
/-- RT addition of R58: each field modulo its own modulus. -/
def rtAdd (a b : Nat) : Nat :=
  (a / 2 ^ 24 % 256 + b / 2 ^ 24 % 256) % 251 * 2 ^ 24 + (a / 2 ^ 16 % 256 + b / 2 ^ 16 % 256) % 256 * 2 ^ 16
    + (a / 2 ^ 8 % 256 + b / 2 ^ 8 % 256) % 255 * 2 ^ 8 + (a % 256 + b % 256) % 253

/-! ### Stochastic draws and conversions -/

/-- One round of R51 on (x, y). -/
def drawRound (k0 k1 : BitVec 32) (i : Nat) (x y : BitVec 32) : BitVec 32 × BitVec 32 :=
  let x := x + y + k0
  let y := y.rotateLeft 12 ^^^ x
  let x := x.rotateLeft 8 ^^^ (k1 + BitVec.ofNat 32 i)
  (x, y + x)

/-- The draw D of R51 from JOB_SEED, L, C and N. -/
def drawValue (seed : BitVec 64) (l : BitVec 10) (c : BitVec 4) (n : BitVec 48) : BitVec 64 :=
  let k0 := seed.extractLsb' 0 32
  let k1 := seed.extractLsb' 32 32
  let x := n.extractLsb' 0 32
  let y : BitVec 32 := l ++ c ++ (0 : BitVec 2) ++ n.extractLsb' 32 16
  let (x, y) := drawRound k0 k1 0 x y
  let (x, y) := drawRound k0 k1 1 x y
  let (x, y) := drawRound k0 k1 2 x y
  let (x, y) := drawRound k0 k1 3 x y
  y ++ x

/-- A source element of a conversion: a stored float pattern or an integer of a tag. -/
def srcVal (t : Tag) (x : Nat) : FVal :=
  if isFloat t then decodeF (ffmt t) x else ofIntExp (laneInt t x) 0 false

/-- The significand bits of a stored element below weight 2^k (R52). -/
def srcBelow (t : Tag) (x : Nat) (k : Int) : Nat :=
  if isFloat t then fracBelow (ffmt t) x k
  else min (if isSigned t then tagWidth t - 1 else tagWidth t) k.toNat

/-- A value rounded to an integer or Q tag and saturated; NaN gives 0 (R49). -/
def toIntTag (dt : Tag) (r : Rnd) (v : FVal) (srD draw : Nat) : Nat :=
  match v with
  | .nan => 0
  | .inf neg => wrapInt (tagWidth dt) (saturate dt (if neg then -(2 ^ 80 : Nat) else (2 ^ 80 : Nat)))
  | .fin neg man exp => wrapInt (tagWidth dt) (saturate dt (roundMagInt r neg ⟨man, 1, exp⟩ srD draw))

/-- Convert of R49 between element tags. An RT source must have been reconstructed before. To RT the value is rounded to
an integer by the mode and saturated into the reconstruction range (R58). -/
def convert (st dt : Tag) (r : Rnd) (x : Nat) (draw : Nat) : Nat :=
  let v := srcVal st x
  if isFloat dt then roundF (ffmt dt) r v (srcBelow st x) draw
  else match dt with
    | .rt =>
      match v with
      | .nan => toRT 0
      | .inf neg => toRT (if neg then -(2 ^ 80 : Nat) else (2 ^ 80 : Nat))
      | .fin neg man exp => toRT (roundMagInt r neg ⟨man, 1, exp⟩ (srcBelow st x 0) draw)
    | .raw => x
    | dt => toIntTag dt r v (srcBelow st x 0) draw

/-- An FP32 block scale is valid only if positive and finite (R46). -/
def scaleValid (x : Nat) : Bool := decide (0 < x) && decide (x < 0x7F800000)

end Sys2Proof.Machine
end

