-- ==== Sys2Proof/Machine/State.lean ====
section
/-!
DEFINITION. Sys2Proof/Machine/State.lean: everything the spec gives the machine, as plain data. The machine is ONE cluster
(its four cores, engines, memory and owner port) with the units its module shares; other clusters, modules and the host
are outside: what they send stands in `agenda`, what goes to them in the out lists (assumption log 1, 2).
-/
namespace Sys2Proof.Machine

/-! ### Registers of a context -/

/-- A g register: value, F/E bit, poison bit (R177, R79), the link tags its value still waits for in skid mode (R153; empty
when it is checked) and the mark of a soft error its check code found (R376). -/
structure GReg where
  val : Word
  full : Bool
  poison : Bool
  unchk : List Nat
  bad : Bool
  deriving DecidableEq, Repr

/-- A v register: value, tag, F/E bit, poison bit (R40, R177), link tags awaited (R153), soft error mark (R376). -/
structure VReg where
  val : VWord
  tag : Tag
  full : Bool
  poison : Bool
  unchk : List Nat
  bad : Bool
  deriving DecidableEq, Repr

/-- A timeline (R133). `inflight` holds the numbers of operations not yet completed, one entry each; `done` the
completed numbers with their completion times (R107). -/
structure Timeline where
  val : Nat
  high : Nat
  enum : Nat
  estat : BitVec 4
  ecause : BitVec 8
  inflight : List Nat
  done : List (Nat × Nat)
  deriving DecidableEq, Repr

/-- The sparsity latch (R279). -/
structure SparsityLatch where
  desc : TWord
  valid : Bool
  nsel : BitVec 3
  deriving DecidableEq, Repr

/-- The retry latch (R318). -/
structure RetryLatch where
  v : Bool
  arm : Bool
  sent : Bool
  done : Bool
  func : BitVec 7
  pc : BitVec 48
  ea : Word
  opnd : Word
  xres : Word
  deriving DecidableEq, Repr

/-- The states of R15. -/
inductive CtxSt where
  | idle | ready | issued | blocked | faulted | stopped
  deriving DecidableEq, Repr

/-- Who asked for a pending stop (R15): `cstop`, a PREEMPT decision, a revocation. -/
inductive StopBy where
  | cstop | preempt | revoke
  deriving DecidableEq, Repr

/-- What a BLOCKED context waits for. Each is the condition under which its instruction executes again from the start
(R190), having performed nothing so far. -/
inductive Wait where
  /-- a g register is empty (R161) -/
  | greg (r : GNum)
  /-- a v register is empty (R161) -/
  | vreg (r : VNum)
  /-- a register is unchecked (R153) -/
  | unchecked
  /-- an F/E word in the state named (R207) -/
  | feWord (word : Nat) (full : Bool)
  /-- final replies to the remote loads with these tags (R203, R239) -/
  | reply (tags : List Nat)
  /-- the reply to a watch (R248) whose destination is d -/
  | watch (tag : Nat) (d : GNum)
  /-- a timeline reaches a number (R259) -/
  | timeline (tl : TLNum) (n : Nat)
  /-- every operation numbered on the timelines (R23, R104) -/
  | allOps
  /-- every copy-engine operation and copy task of the context (R132) -/
  | copyOps
  /-- room among the core's 128 operations (R130) -/
  | copySlot
  /-- room among the 256 live tasks (R136) -/
  | taskSlot
  /-- room in the direct queue (R273) -/
  | directSlot
  /-- room among the 256 outbound messages (R266) -/
  | amsgSlot
  /-- a group's phase exceeds a number, or the group breaks, or the limit ends (R262) -/
  | group (idx : Nat) (n : Nat)
  /-- an HBM page is resident (R91, R325, R372) -/
  | page (vpn : Nat)
  /-- a context stops (R323) -/
  | stopOf (c : CtxId)
  /-- every operation of another context (R324, R325) -/
  | opsOf (c : CtxId)
  /-- every translation agent acknowledges (R329) -/
  | tinv
  /-- no engine access that has passed its protection check is left (R328) -/
  | engineIdle
  /-- the policy swap happens (R331) -/
  | policySwap
  /-- a walk re-reads an entry whose MIG bit is set (R357) -/
  | mig (entry : Nat)
  deriving DecidableEq, Repr

/-- A suspension that has begun (R15, R23): `yield` and `park` with the address of the next instruction, a waiting form with
the WAIT reason it writes. -/
inductive Susp where
  | yield (pc : BitVec 48) | park (pc : BitVec 48) | waiting (reason : BitVec 4)
  deriving DecidableEq, Repr

/-- A reply received for the instruction a context is BLOCKED in. -/
inductive Reply where
  /-- data of a remote line with its time and lease end (R97), checked or still unchecked (R153) -/
  | data (tag : Nat) (bytes : List Byte) (t lease : Nat) (skid : Option Nat)
  /-- a final status (R77) -/
  | status (tag : Nat) (st : BitVec 4)
  /-- a watch fire (R102) -/
  | fire (tag : Nat) (value : Word) (tf : Nat) (skid : Option Nat)
  /-- a timed watch expired (R249) -/
  | expired (tag : Nat)
  /-- a watch refused (R88) -/
  | refused (tag : Nat)
  deriving DecidableEq, Repr

/-- What a context took from the record it is bound to (R18, R20). -/
structure Bound where
  idx : Nat
  prot : Bool
  ptag : Fin 64
  word1 : Word
  /-- the record last became QUEUED by a fire, a group completion or a wake (R338) -/
  woke : Bool
  deriving DecidableEq, Repr

/-- One hardware context (R13 to R16, R177, R314). -/
structure Ctx where
  g : Vector GReg 32
  v : Vector VReg 64
  k : Vector Word 8
  t : Vector TWord 8
  e : Vector Word 8
  tl : Vector Timeline 4
  /-- link tags that values in k, e and t registers still wait for (R153) -/
  ku : Vector (List Nat) 8
  eu : Vector (List Nat) 8
  tu : Vector (List Nat) 8
  pc : BitVec 48
  repidx : BitVec 6
  clk : Nat
  drawn : BitVec 48
  lcore : BitVec 10
  expb : Word
  rcvb : Word
  spl : SparsityLatch
  retry : RetryLatch
  latch : BitVec 4
  /-- the address at which the latch applies (R243) -/
  latchPc : BitVec 48
  st : CtxSt
  bound : Option Bound
  stopReq : Option StopBy
  /-- a stop that the last `cstop` of this context waited for has taken effect (R323) -/
  cstopped : Bool
  wait : Option Wait
  susp : Option Susp
  replies : List Reply
  /-- request tags sent for the blocked instruction, with the number of the element each is for -/
  sent : List (Nat × Nat)
  /-- the limit of a `gwait.t` has ended (R262) -/
  limitHit : Bool
  /-- a `gsync` has arrived in this attempt (R245) -/
  arrived : Option Nat
  /-- an atomic since the last suspension (R34) -/
  atomicDone : Bool
  /-- a policy-visible side effect mark (R338) -/
  side : Bool
  /-- the largest completion time of the context's copy-engine operations and copy tasks (R252) -/
  copyTime : Nat
  /-- an operation reached the clock limit; trap 0x1F is due at the next `tlwait` or `pfence` (R114) -/
  clkTrap : Bool
  /-- the last execution of `cstop`, `creap`, `ctxsv`, `polsw` or `tinv` has begun its wait -/
  begun : Bool
  /-- debugging is enabled for the context (R432) -/
  debug : Bool
  /-- no continuation has been bound to the context since the launch (R22, R27) -/
  fresh : Bool
  /-- its last instruction may still be executing, so that siblings take turns before it (R187) -/
  lag : Bool
  /-- soft error marks of k, t and e registers, 3 × number + (0 k, 1 t, 2 e), and of the retry latch, 24 (R376) -/
  badRegs : List Nat
  deriving DecidableEq, Repr

/-! ### Cores -/

/-- Why a replayable record is held in the trap queue (R348, R366); `reap` marks a context that a decision reaps, to be freed,
requeued or parked once its operations have completed. -/
inductive Hold where
  | none | decision | recall (vpn : Nat) | reap (how : Fin 3)
  deriving DecidableEq, Repr

/-- A replayable record of a trap queue (R310). -/
structure QRec where
  record : TrapRec
  hold : Hold
  deriving DecidableEq, Repr

/-- An entry of the thread-context cache (R316): home offset, the 5,120 bytes, DIRTY, last use. -/
structure TcEntry where
  home : Word
  img : List Byte
  dirty : Bool
  used : Nat
  deriving DecidableEq, Repr

/-- A remote line of an L1 under its lease (R82, R83, R99). -/
structure L1Line where
  owner : ClusterId
  off : Nat
  bytes : List Byte
  lend : Nat
  deriving DecidableEq, Repr

/-- One core (R13, R308, R310, R316). -/
structure Core where
  lastIssued : Fin 16
  hnd : Bool
  tmask : Bool
  sepc : BitVec 48
  srep : BitVec 6
  tvec : BitVec 48
  csel : Fin 16
  screat : Word
  trec : Vector Word 4
  tq : List QRec
  fatq : Option TrapRec
  tcc : Vector (Option TcEntry) 8
  nseq : BitVec 48
  l1 : List L1Line
  halted : Bool
  gated : Bool
  dbgHalt : Bool
  deriving DecidableEq, Repr

/-! ### Memory -/

/-- The memory of the cluster. `cells` lists the bytes that are not zero, addresses strictly rising: scratchpad offset o
at address o, HBM physical address p at 0x1_0000_0000 + p (R68, R355). `feEmpty` lists the scratchpad words whose F/E
bit is 0, rising (R72). `stamps` lists granule → (WTS, RTS) where they are not (0, 0), rising (R95). `stale` lists
parcel values older than memory that a core's instruction cache may still return (R156): address, value, core.
`tlb` lists translations that a translation cache may still hold (R359): agent (0 to 3 the cores, 4 the owner port, 5
the engines), level of the entry (1, 2 pointers, 3 leaves), the index bits above it, the entry word. `bad` lists addresses whose stored word has an
uncorrectable error (R376). `hbmKey` counts the keys that HBM has had while its contents stood: 0 at first, a new number after a
KEYDROP (R409), under which the stored bytes read as values nobody knows; an HBM cell lists the difference to them. `gone` lists the
leaves that translation caches have dropped, by level and index bits: instruction cache lines fetched through them may still stand
(R330). -/
structure Memory where
  cells : List Host.Cell
  feEmpty : List Nat
  stamps : List (Nat × (Nat × Nat))
  stale : List (Nat × Parcel × CoreId)
  tlb : List (Nat × Nat × Nat × Word)
  bad : List Nat
  hbmKey : Nat
  gone : List (Nat × Nat × Word)
  deriving DecidableEq, Repr

/-! ### Cluster -/

/-- A group table entry as this cluster holds it (R35 to R37, R111): `lcount` is A, `partDone` that this cluster's part of
the phase is done, `round` the round whose watch is out with tag `rtag`, `roundT` the time of its round word's write, `arrT` the largest arrival time of the phase, `phaseT` the
time PHASE carries. -/
structure Group where
  scope : BitVec 2
  st : BitVec 2
  myidx : Nat
  ncl : Nat
  lexp : Nat
  phase : Nat
  mlist : Nat
  rword : Nat
  lcount : Nat
  partDone : Bool
  round : Nat
  rtag : Option Nat
  roundT : Nat
  arrT : Nat
  phaseT : Nat
  deriving DecidableEq, Repr

/-- A remote request of this cluster that has no final reply yet (R77, R80): who waits for it. -/
inductive ReqFor where
  | ctx (c : CtxId) | copy (op : Nat) | recall (vpn : Nat) (chunk : Nat)
  deriving DecidableEq, Repr

/-- An outstanding request: its tag, who waits, the request for a resend, the owner, whether it was deferred. -/
structure Outst where
  tag : Nat
  who : ReqFor
  owner : ClusterId
  req : ReadReq
  deferred : Bool
  deriving DecidableEq, Repr

/-- A queued continuation: index, the cycle it was queued, whether it was woken (R338, R347). -/
structure QEnt where
  idx : Nat
  since : Nat
  woke : Bool
  deriving DecidableEq, Repr

/-- What stays with a record that is BOUND to a context while its image is saved (R325, R326, R338): the context, the marks of
SIDE and WOKE, and whether an atomic has been performed since the last suspension (R34). -/
structure Tie where
  ctx : CtxId
  side : Bool
  woke : Bool
  atomic : Bool
  deriving DecidableEq, Repr

/-- What a suspended record waits for (R20, R23, R250, R262). -/
inductive SuspEvent where
  | watch (idx : Nat) (tag : Nat) (reg : Nat)
  | group (idx : Nat) (grp : Nat) (n : Nat)
  deriving DecidableEq, Repr

/-- The policy machine of the scheduler (R335, R340, R345, R349). -/
structure Policy where
  prog : List (BitVec 16)
  shadow : Option (List (BitVec 16))
  swapKeep : Option Bool
  pw : Vector (BitVec 32) 16
  decn : Nat
  overruns : List Nat
  disabled : Bool
  deriving DecidableEq, Repr

/-- A task the walker holds (R136 to R138): its record's index, its submitter, whether it is visible, READY or RUNNING, its
PRIO and place among the READY, its operation clock and completion time, what it will report (R139), its timeline and
number. -/
structure LiveTask where
  idx : Nat
  owner : CtxId
  visible : Bool
  ready : Bool
  running : Bool
  prio : Nat
  readyAt : Nat
  kind : Nat
  clk : Nat
  time : Nat
  status : BitVec 4
  cause : BitVec 8
  retry : Nat
  tl : TLNum
  n : Nat
  deriving DecidableEq, Repr

/-- The kinds of copy-engine operation (R128). -/
inductive CopyKind where
  | pull | pull2d | pullG | pullAdd | copy | hget | hsend
  deriving DecidableEq, Repr

/-- A source request of a copy operation that is out (R130): tag, source, offset from the operation's destination of what is still
to be written, bytes, and of data that has come the part not written yet (R106). -/
structure CopyReq where
  tag : Nat
  src : Word
  at_ : Nat
  len : Nat
  data : Option (List Byte)
  deriving DecidableEq, Repr

/-- A copy-engine operation in flight (R128 to R131): its elements are `rows` spans of `len` bytes; `row` and `pos` say how
far requests have been sent, `fails` the failed requests by destination offset and status, `time` its latest access (R106),
`flushed` that the flush read of `hsend` is out (R422), `ingest` the participant of an ingest buffer (R402), `task` the
record of a launched task. -/
structure CopyOp where
  id : Nat
  kind : CopyKind
  owner : CtxId
  tl : TLNum
  n : Nat
  src : Word
  dst : Word
  len : Nat
  rows : Nat
  spitch : Nat
  dpitch : Nat
  listAt : Nat
  list : List Word
  listRead : Bool
  tag : Tag
  fe : Bool
  route : BitVec 2
  sup : Bool
  clk : Nat
  time : Nat
  row : Nat
  pos : Nat
  out : List CopyReq
  fails : List (Nat × BitVec 4)
  clkLimit : Bool
  flushed : Bool
  ingest : Option Nat
  task : Option Nat
  deriving DecidableEq, Repr

/-- Work of the matrix engine (R135, R273). -/
inductive MatKind where
  | load (transposed : Bool) | swap | pass | convert | zero
  deriving DecidableEq, Repr

/-- A matrix job as an instruction or a task gives it: its tile, its control word (R278), the factor of a conversion, the
sparsity of a load, the level its accesses are checked at, its operation clock, the inputs of its draws (R50, R53). -/
structure MatJob where
  kind : MatKind
  tile : TWord
  word : Word
  factor : Nat
  sp : SparsityLatch
  sup : Bool
  clk : Nat
  l : BitVec 10
  c : BitVec 4
  n : BitVec 48
  deriving DecidableEq, Repr

/-- A repetition under the repeat prefix (R165): CNT, the number of this repetition, the stride s, which of the fields d, a
and b step, and the length of the repeated instruction. -/
structure RepRun where
  cnt : Nat
  j : Nat
  stride : Nat
  sd : Bool
  sa : Bool
  sb : Bool
  len : Nat
  deriving DecidableEq, Repr

/-- An entry of the direct queue: the job, its context, the repetition it is (R273). -/
structure DirectEnt where
  job : MatJob
  owner : CtxId
  rep : Option RepRun
  deriving DecidableEq, Repr

/-- Who a running job belongs to: a direct instruction, or a task by its record's index. -/
inductive MatFor where
  | direct (owner : CtxId) (rep : Option RepRun)
  | task (idx : Nat)
  deriving DecidableEq, Repr

/-- A job that runs (R119, R138, R274): whether its swap is made, the row of its last residue mismatch and how many there
were (R120, R287), its row scales once they are read and valid, the rows that are done, the latest time of its accesses
(R106). -/
structure MatRun where
  job : MatJob
  who : MatFor
  swapped : Bool
  failRow : Nat
  retries : Nat
  scales : Option (List (List Nat))
  row : Nat
  time : Nat
  deriving DecidableEq, Repr

/-- A plane of the matrix engine (R116, R118, R121): tag, dense K extent, output columns, N of the sparsity (0 dense), the
dense columns as raw elements, the column scales. -/
structure Plane where
  tag : Tag
  kb : Nat
  cols : Nat
  n : Nat
  elems : List (List Nat)
  scales : List Nat
  deriving DecidableEq, Repr

/-- SHS of R116. -/
inductive Shs where
  | empty | loading | full
  deriving DecidableEq, Repr

/-- The engines of the cluster (R116, R128, R136, R273). -/
structure Engines where
  active : Plane
  shadow : Plane
  shs : Shs
  acc : List (Nat × Nat)
  /-- accumulator elements with a lasting check error, 64 × row + column (R287) -/
  accBad : List Nat
  queue : List DirectEnt
  load : Option MatRun
  pass : Option MatRun
  /-- passes that have released the array and have not completed (R119) -/
  drain : List MatRun
  conv : Option MatRun
  copies : List CopyOp
  nextOp : Nat
  tasks : List LiveTask
  readySeq : Nat
  deriving DecidableEq, Repr

/-- A recall that runs (R366): page, whether it cancels a fill, the chunks of the slot received so far by number. -/
structure Recall where
  vpn : Nat
  fromFill : Bool
  got : List (Nat × List Byte)
  deriving DecidableEq, Repr

/-- The cluster beside its cores and memory. -/
structure Cluster where
  /-- coordinates of the cluster; its chip is CHIPID of the module (R65, R93) -/
  x : Fin 16
  y : Fin 16
  par : Params
  part : Option Nat
  members : List ClusterId
  cclk : Nat
  queues : Vector (List QEnt) 8
  suspended : List SuspEvent
  boundAt : List (Nat × Nat)
  /-- words of records that software has written while they were QUEUED or BOUND, and that the next binding reads as they were
  before: 8 × index + word, value (R19) -/
  recOld : List (Nat × Word)
  /-- contexts that a NONE outcome has left IDLE and that have not been offered since (R346) -/
  noned : List CtxId
  /-- what a continuation that a reap has taken from its context, or that waits in a queue after one, has done since its last
  suspension: a side effect in the sense of R338, an atomic in the sense of R34; by record -/
  marks : List (Nat × (Bool × Bool))
  /-- BOUND records by index whose image has been saved, with what stays with them (R325, R338) -/
  ties : List (Nat × Tie)
  /-- homes that a core has just written back, with the bytes they held before (R332) -/
  wb : List (CoreId × Nat × List Byte)
  /-- messages sent under the present life number, by the destination's coordinates (R399) -/
  nonces : List (Nat × Nat)
  policy : Policy
  preempting : List CtxId
  groups : List (Nat × Group)
  watches : List WatchReq
  regions : Vector Word 16
  outst : List Outst
  nextTag : Nat
  /-- watches of this cluster that are out: tag and owner (R245, R386) -/
  watchOut : List (Nat × ClusterId)
  outAmsg : List AMsg
  /-- the waiter each F/E word served last (R209) -/
  feLast : List (Nat × Nat)
  /-- messages for other clusters of the module, in order, with the counters in their nonces (R81, R399) -/
  outbox : List (NetMsg × Nat)
  /-- pull data that came early in skid mode and waits for its tag (R153) -/
  heldPull : List (NetMsg × Nat)
  /-- lines of remote loads that came early in skid mode and enter an L1 once their tag passes (R83, R153): tag, L1, line -/
  heldLine : List (Nat × CoreId × L1Line)
  /-- source requests that are being read, by the owner port for another cluster or by the copy engine for itself: requester, tag,
  the bytes read so far, their latest time (R106), and the place that the request was translated to once its reading has begun
  (R360) -/
  serving : List (ClusterId × Nat × List Byte × Nat × Option Nat)
  /-- messages that the NI has received and not yet delivered, in order, with the link tag a skid release waits for (R110, R151) -/
  inbox : List (NetMsg × Option Nat)
  /-- participants of the partition that have been revoked (R403) -/
  revoked : List Nat
  killed : Bool
  recalls : List Recall
  pending : List Nat
  logMarks : List (Nat × Nat)
  /-- 4 KiB chunks of lent slots that have been sent in reply to a recall: 16 × slot + chunk (R364) -/
  slotSent : List Nat
  /-- the acknowledgements a `tinv` of a context still waits for (R329, R360) -/
  tinvWait : List (CtxId × TinvAgent)
  errors : List (Nat × Nat)
  deriving DecidableEq, Repr

/-! ### The module -/

/-- A message in a send queue or retained after it (R145, R414): its pair sequence number, its counter in the nonce (R399), its
flits, how often its end-to-end timer has expired. -/
structure Sent where
  seq : Nat
  nonce : Nat
  msg : NetMsg
  flits : Nat
  expired : Nat
  deriving DecidableEq, Repr

/-- What a module keeps about another module: the send queue with its BUDGET and USED (R145, R146), pair sequence numbers
both ways, retained and held messages (R151, R414), sequence numbers the sender has abandoned, and the loss of the module
with C0 and the rounds begun (R419, R420). -/
structure Pair where
  queue : List Sent
  budget : Nat
  used : Nat
  nextSeq : Nat
  retained : List Sent
  recvNext : Nat
  held : List PodMsg
  skipped : List Nat
  down : Nat
  lost : Option Nat
  drained : Bool
  cleared : Bool
  resend : Nat
  gcmfail : Nat
  /-- what is left of the relay credit that the module has granted in this slot, in bytes (R148, R149) -/
  credit : Nat
  deriving DecidableEq, Repr

/-- The orrery (R141 to R144): lock, the schedule with this chip's peer table and those of the pod, the slot position, the
schedule in force and one that waits for its slot boundary (R432); in the present slot the ports that received nothing
(R419), the flits sent by next hop (R146) and the queues that send nothing more in this slot, or nothing while the message named
is their head (R146, R147). -/
structure Orrery where
  sync : Bool
  nslot : Nat
  slotlen : Nat
  guardlen : Nat
  slot : Nat
  guard : Bool
  cycle : Nat
  peers : List (List (Option (Fin 128)))
  conf : Option PodCfg
  pend : Option PodCfg
  /-- nanoseconds until the next slot starts, as last seen: they only fall within a slot (R144) -/
  left : Nat
  downPorts : List (Fin 16)
  sentTo : List (Nat × Nat)
  stalled : List (Nat × Option Nat)
  deriving DecidableEq, Repr

/-- A wavelength that is out of its beam (R416): its number, the windows that end before its 4.0 µs of training have, the windows
since, the clean ones in a row. -/
structure WlOut where
  wl : Fin 8
  train : Nat
  windows : Nat
  clean : Nat
  deriving DecidableEq, Repr

/-- What leaves on the optical ports, with the next hop and, where a relay may lie between, the chip it is for (R145): a message, an
acknowledgement, an ABANDON notice, a LOST notice, a relay credit (R149); on the reverse direction of a beam the
acknowledgement or failure of a tag group (R412), and the drop or the take-back of a wavelength (R142, R416). -/
inductive LinkOut where
  | msg (hop : Nat) (m : PodMsg)
  | ack (hop dst seq : Nat)
  | abandon (hop dst seq : Nat) (answers : Option Nat)
  | lost (hop : Nat) (chip : Fin 128) (c0 : Nat)
  | credit (hop : Nat) (bytes : Nat)
  | groupAck (b : BeamId) (grp : Nat) (ok : Bool)
  | wavelength (b : BeamId) (wl : Fin 8) (back : Bool)
  deriving DecidableEq, Repr

/-- A beam in one direction (R142, R411 to R417): its mode and the one from the next guard on, the wavelengths that are out,
out of service; of a transmit beam the flits in the open group, what they end, the group's number, the groups kept with what
they end; of a receive beam the group whose replay it waits for. -/
structure Beam where
  skid : Bool
  nextSkid : Bool
  out : List WlOut
  oos : Bool
  flits : Nat
  ends : List LinkOut
  group : Nat
  kept : List (Nat × List LinkOut)
  await : Option Nat
  deriving DecidableEq, Repr

/-- The link parameters that LINKCFG sets (R414, R416, R419, R420). `e2eT` is none while the default of R414 holds. -/
structure LinkPar where
  e2eT : Option Nat
  e2eN : Nat
  berwin : Nat
  degr : Nat
  restore : Nat
  rwin : Nat
  rtMax : Nat
  deadn : Nat
  drainR : Nat
  deriving DecidableEq, Repr

/-- The link layer of the module: beams by `State.beamAt` (R142), the counters of R418 by kind and index, messages held as a relay
(R149), control flits that wait for a path (R145), LOST notices to flood with the slots left (R419), wavelength signals that wait
for a slot in which their port faces the transmitter (R141 to R143), what has been sent. -/
structure Link where
  par : LinkPar
  beams : List (Nat × Beam)
  counters : List (Nat × Nat)
  relay : List PodMsg
  ctl : List LinkOut
  floods : List (Fin 128 × Nat × Nat)
  signals : List (Nat × LinkOut)
  sent : List LinkOut
  deriving DecidableEq, Repr

/-- An HDM page of a cluster and its bias: `host` for host bias (R424). -/
structure HdmPage where
  cl : ClusterId
  page : Nat
  host : Bool
  deriving DecidableEq, Repr

/-- A partition as the security core holds it (R397 to R407, R424): id, bound function, clusters, participants, ingest keys
and next expected SEQ, ingest buffers, last message numbers (R423), HDM pages, SAVECTR, DUMP_OFF (R381), the name of the partition key,
whether every participant agreed to debugging, the measurement set at the end of its launch (R404). -/
structure Partition where
  id : Nat
  fn : Fin 17
  clusters : List ClusterId
  participants : List Nat
  revoked : List Nat
  ikeys : List (Nat × Nat)
  iseq : List (Nat × Nat)
  bufs : List IngestBuf
  msgids : List (Nat × Nat)
  hdm : List HdmPage
  savectr : Nat
  dumpOff : Nat
  pk : Nat
  agreed : Bool
  mset : List (BitVec 256)
  deriving DecidableEq, Repr

/-- What has left for the host (R403, R410, R422, R424, R427, R428, R431, R433). The record of a response has four words, with the output
beside it, and that of an event four (R431, R433). -/
inductive HostOut where
  | read (tag : Nat) (addr : Word) (len : Nat)
  | write (addr : Word) (bytes : List Byte)
  | flush (tag : Nat)
  | invalidated (page : Nat)
  | hdmData (off : Nat) (byte : Byte)
  | hdmPoison (off : Nat)
  | backInvalidate (line : Nat)
  | response (fn : Fin 17) (addr : Nat) (words : List Nat) (out : List Byte)
  | event (addr : Nat) (words : List Nat)
  | receipt (bytes : List Byte)
  | chunk (addr : Nat) (bytes : List Byte)
  | keyBlob (addr : Nat) (b : KeyBlob)
  deriving DecidableEq, Repr

/-- TDISP states (R408). -/
inductive Tdisp where
  | unlocked | locked | run | error
  deriving DecidableEq, Repr

/-- A function of the host interface (R408, R431, R433): its TDISP state, whether the write-watch bitmap is armed, the host range
of its events and the count of records written to it (offset 0x0080), the command it runs, while that goes on. -/
structure Fn where
  tdisp : Tdisp
  armed : Bool
  evtBase : Nat
  evtLen : Nat
  evtCnt : Nat
  busy : Option Instr
  deriving DecidableEq, Repr

/-- An owner register (R397): LOCK, STATE 0 FREE, 1 ASSIGNED, 2 QUARANTINED, 3 SCRUBBING, PART. -/
structure Owner where
  lock : Bool
  st : BitVec 2
  part : Nat
  deriving DecidableEq, Repr

/-- A cluster that has left a partition and is not FREE yet (R387): the partition it was in and its function, whether that partition
ends with it, the scrub methods, HOLD, REASON and PTAG of its receipt (R410), the command that waits for the scrub, the
DUMP_OFF it was launched with. -/
structure Quar where
  cl : ClusterId
  part : Nat
  fn : Fin 17
  ends : Bool
  spad : Nat
  hbm : Nat
  hold : Bool
  reason : Nat
  ptag : Nat
  dumpOff : Nat
  cmd : Option Cmd
  deriving DecidableEq, Repr

/-- The security core and its firmware (R397 to R410, R429 to R438): the boot status, the owner registers of the module's
clusters by coordinates, MR0 to MR7, the functions, commands that wait for their function, clusters on their way to FREE,
the next leaf index of the two trees as one number, the receipt count and the life numbers (monotonic), the serial of the next partition key, a LAUNCH since the last reset,
a warm reset with its command, which waits while `boot` is 1 and is under way while it is 0 (R430), PLIM and the throttles, the last
sample and its time, the process monitor and its time, a failed module. -/
structure Firmware where
  boot : Nat
  owners : List (Nat × Owner)
  mrs : Vector (BitVec 256) 8
  fns : Vector Fn 17
  waiting : List Instr
  quar : List Quar
  leaf : Nat
  receipts : Nat
  /-- life numbers by 128 × partition + chip (R398) -/
  lives : List (Nat × Nat)
  keys : Nat
  launched : Bool
  warm : Option (Option Cmd)
  plim : Nat
  throttled : List Nat
  hbmHalf : List Nat
  powerHigh : Bool
  sample : Sensors × Nat
  procMon : List Nat × Nat
  failed : Bool
  deriving DecidableEq, Repr

/-- The module's shared units. -/
structure Module where
  chipid : Fin 128
  cycles : Nat
  pairs : List (Nat × Pair)
  cal : Orrery
  link : Link
  feat0 : Word
  feat1 : Word
  /-- events reported to the host: code and details (R433) -/
  events : List (Nat × List Nat)
  /-- what has left for the host, in order -/
  hostOut : List HostOut
  parts : List Partition
  /-- host pages whose invalidation waits for requests (R427) -/
  ats : List Nat
  /-- host pages whose translation the ATS translation cache holds, 4,096 at most (R421, R422) -/
  atc : List Nat
  /-- lines of this cluster's HDM pages that the host may hold in host bias, by window and by memory (R424) -/
  hdmLines : List (Nat × Nat)
  fw : Firmware
  deriving DecidableEq, Repr

/-! ### The machine -/

/-- A move that has been chosen before the others. -/
inductive Turn where
  /-- the event takes place -/
  | event (i : Instr)
  /-- the core issues its next instruction (R13) -/
  | issue (core : CoreId)
  /-- a BLOCKED context whose condition is met executes its instruction -/
  | resume (c : CtxId)
  /-- the NI delivers the next message it has received (R110, R151) -/
  | deliver
  /-- the head of a send queue moves or waits (R147) -/
  | link (chip : Nat)
  /-- the command that a function runs goes on (R431) -/
  | firmware (fn : Fin 17)
  /-- a cold reset goes on from its second step (R429) -/
  | boot
  deriving DecidableEq, Repr

/-- The whole machine. `cur` is the context that moves; `rep` and `target` belong to the move under way; `turns` and
`agenda` list the moves that wait (log 2); `draws` counts the free values taken (log 6). -/
structure State where
  ctxs : Vector Ctx 64
  cores : Vector Core 4
  mem : Memory
  cl : Cluster
  eng : Engines
  mod : Module
  cur : CtxId
  rep : Option RepRun
  /-- link tags of the registers the instruction under way has read (R153) -/
  taint : List Nat
  /-- the instruction under way has read a damaged k, t or e register, a damaged destination that it merges into, or a damaged
  retry latch: its end is a machine check in its place (R376) -/
  hurt : Bool
  /-- the instruction behind the repeat prefix that is issuing, in its 32-bit form, and its length (R160, R165) -/
  target : Option (Instr × Nat)
  turns : List Turn
  agenda : List Instr
  rotor : CoreId
  draws : Nat
  deriving DecidableEq, Repr

/-- Why the machine stops with a fault. -/
inductive Fault where
  /-- Raised by `step` when a move that waits in `agenda` or `turns` is a program instruction, which no unit of the
  hardware can send. Safe: the hardware has no such move. -/
  | noSuchEvent
  deriving DecidableEq, Repr

/-- Why the machine refuses. -/
inductive Refusal where
  /-- Answered by an arm of `exec` whose instruction has no meaning yet. Safe: nothing is claimed of it. -/
  | notModelled (mnemonic : String)
  deriving DecidableEq, Repr

/-! ### Reset -/

/-- A g register at reset. Log 4: the spec gives no value; DESIGN CHOICE zero, full, unpoisoned. -/
def GReg.reset : GReg := ⟨0, true, false, [], false⟩
/-- A v register at reset. Log 4: DESIGN CHOICE zero, RAW, full, unpoisoned. -/
def VReg.reset : VReg := ⟨0, .raw, true, false, [], false⟩
/-- A timeline at reset (R260 for the error fields; the rest log 4). -/
def Timeline.reset : Timeline := ⟨0, 0, 0, 0, 0, [], []⟩
/-- The sparsity latch at reset: clear (R279). -/
def SparsityLatch.reset : SparsityLatch := ⟨0, false, 0⟩
/-- The retry latch at reset (R318). -/
def RetryLatch.reset : RetryLatch := ⟨false, false, false, false, 0, 0, 0, 0, 0⟩

/-- A context at reset: IDLE (R15); registers by log 4. -/
def Ctx.reset : Ctx where
  g := Vector.replicate 32 GReg.reset
  v := Vector.replicate 64 VReg.reset
  k := Vector.replicate 8 0
  t := Vector.replicate 8 0
  e := Vector.replicate 8 0
  tl := Vector.replicate 4 Timeline.reset
  ku := Vector.replicate 8 []
  eu := Vector.replicate 8 []
  tu := Vector.replicate 8 []
  pc := 0
  repidx := 0
  clk := 0
  drawn := 0
  lcore := 0
  expb := 0
  rcvb := 0
  spl := SparsityLatch.reset
  retry := RetryLatch.reset
  latch := 0
  latchPc := 0
  st := .idle
  bound := none
  stopReq := none
  cstopped := false
  wait := none
  susp := none
  replies := []
  sent := []
  limitHit := false
  arrived := none
  atomicDone := false
  side := false
  copyTime := 0
  clkTrap := false
  begun := false
  debug := false
  fresh := true
  lag := false
  badRegs := []

/-- A core at reset (R13, R308). -/
def Core.reset : Core where
  lastIssued := 15
  hnd := false
  tmask := true
  sepc := 0
  srep := 0
  tvec := 0
  csel := 0
  screat := 0
  trec := Vector.replicate 4 0
  tq := []
  fatq := none
  tcc := Vector.replicate 8 none
  nseq := 0
  l1 := []
  halted := false
  gated := false
  dbgHalt := false

/-- Launch parameters before any launch: the defaults of their tables, log 4 for the others. -/
def Params.reset : Params where
  contMax := 4096
  poolBase := 0
  holdCyc := 2048
  twin := false
  supPc := 0
  fused := false
  deferLim := 1048576
  leaseLen := 1024
  ageMax := 1048576
  preemptMin := 8
  polOff := 0
  polCnt := 0
  jobSeed := 0
  lcluster := 0
  troot := 0
  logMax := 64
  logBase := 0
  logdBase := 0
  cmapBase := 0
  dumpOff := 0
  prlock := 0

/-- The policy machine at reset: no program (R349), persistent words zero. -/
def Policy.reset : Policy := ⟨[], none, none, Vector.replicate 16 0, 0, [], false⟩

/-- A plane at reset: zeros with tag RAW (R116). -/
def Plane.reset : Plane := ⟨.raw, 0, 0, 0, [], []⟩

/-- The engines at reset (R116). -/
def Engines.reset : Engines where
  active := Plane.reset
  shadow := Plane.reset
  shs := .empty
  acc := []
  accBad := []
  queue := []
  load := none
  pass := none
  drain := []
  conv := none
  copies := []
  nextOp := 0
  tasks := []
  readySeq := 0

/-- The cluster at reset. Log 1: the cluster modelled is (0, 0). -/
def Cluster.reset : Cluster where
  x := 0
  y := 0
  par := Params.reset
  part := none
  members := []
  cclk := 0
  queues := Vector.replicate 8 []
  suspended := []
  boundAt := []
  recOld := []
  noned := []
  marks := []
  ties := []
  wb := []
  nonces := []
  policy := Policy.reset
  preempting := []
  groups := []
  watches := []
  regions := Vector.replicate 16 0
  outst := []
  nextTag := 0
  watchOut := []
  outAmsg := []
  feLast := []
  outbox := []
  heldPull := []
  heldLine := []
  serving := []
  inbox := []
  revoked := []
  killed := false
  recalls := []
  pending := []
  logMarks := []
  slotSent := []
  tinvWait := []
  errors := []

/-- A pair at reset: nothing queued, sent or received. -/
def Pair.reset : Pair := ⟨[], 0, 0, 0, [], 0, [], [], 0, none, false, false, 0, 0, 0⟩
/-- The orrery at reset (R144, R429). -/
def Orrery.reset : Orrery := ⟨false, 0, 0, 0, 0, false, 0, [], none, none, 0, [], [], []⟩
/-- A beam at reset. Log 4: DESIGN CHOICE containment mode; eight wavelengths, nothing sent. -/
def Beam.reset : Beam := ⟨false, false, [], false, 0, [], 0, [], none⟩
/-- The link parameters at reset: their defaults (R414, R416, R419, R420). -/
def LinkPar.reset : LinkPar := ⟨none, 3, 10000000, 1000, 100, 16, 8, 2, 2⟩
/-- The link layer at reset: nothing sent or held. -/
def Link.reset : Link := ⟨LinkPar.reset, [], [], [], [], [], [], []⟩
/-- A function at reset. Log 4: DESIGN CHOICE no event range. -/
def Fn.reset : Fn := ⟨.unlocked, false, 0, 0, 0, none⟩
/-- The 32 bytes of a SHA-256 digest in its own order, the most significant first. -/
def digestBytes (m : BitVec 256) : List Byte := (List.range 32).map fun i => BitVec.ofNat 8 (m.toNat / 2 ^ (8 * (31 - i)))
/-- A measurement register extended (R404). -/
def extendMr (m d : BitVec 256) : BitVec 256 := Config.sha256 (digestBytes m ++ digestBytes d)
/-- DEVFEAT0: what the module implements (R434): every feature, no reserved bit. -/
def devfeat0 : Word := 0xFFFF
/-- DEVFEAT1: REV and MINREV of a GV-2 (R434, R435). -/
def devfeat1 : Word := 0x0202
/-- The security core after a cold reset (R429): READY, every cluster FREE, MR0 and MR1 extended, the others zero. Log 4 for the
leaf index, the receipt count, the sensors and the process monitor. -/
def Firmware.reset : Firmware where
  boot := 1
  owners := []
  mrs := ((Vector.replicate 8 0).set 0 (extendMr 0 Config.romDigest)).set 1 (extendMr 0 Config.firmwareDigest)
  fns := Vector.replicate 17 Fn.reset
  waiting := []
  quar := []
  leaf := 0
  receipts := 0
  lives := []
  keys := 0
  launched := false
  warm := none
  plim := 2600
  throttled := []
  hbmHalf := []
  powerHigh := false
  sample := (⟨Vector.replicate 64 0, Vector.replicate 8 0, [], 0⟩, 0)
  procMon := (List.replicate 32 0, 0)
  failed := false
/-- The module at reset. -/
def Module.reset : Module where
  chipid := 0
  cycles := 0
  pairs := []
  cal := Orrery.reset
  link := Link.reset
  feat0 := devfeat0
  feat1 := devfeat1
  events := []
  hostOut := []
  parts := []
  ats := []
  atc := []
  hdmLines := []
  fw := Firmware.reset

/-- The machine right after a cold reset (R429): every context IDLE, memory zero and full (R72), every clock 0. -/
def State.reset : State where
  ctxs := Vector.replicate 64 Ctx.reset
  cores := Vector.replicate 4 Core.reset
  mem := ⟨[], [], [], [], [], [], 0, []⟩
  cl := Cluster.reset
  eng := Engines.reset
  mod := Module.reset
  cur := 0
  rep := none
  taint := []
  hurt := false
  target := none
  turns := []
  agenda := []
  rotor := 0
  draws := 0

end Sys2Proof.Machine
end

