-- ==== Sys2Proof/Machine/Ops.lean ====
section
/-!
DEFINITION. Sys2Proof/Machine/Ops.lean: the named operations over memory, registers and contexts that the meanings are
written with: byte and word access, F/E bits, logical time (R97), watch fires (R87), taking a trap (R310, R377), the
end and the waiting of an instruction.
-/
namespace Sys2Proof.Machine

/-- What a meaning answers. -/
abbrev Out := Host.Outcome State Fault Refusal

/-! ### Sorted tables -/

/-- What a table of rising keys holds at a key; keys not listed hold `d`. -/
def mapGet {β : Type} (d : β) : List (Nat × β) → Nat → β
  | [], _ => d
  | (b, x) :: r, a => if a = b then x else mapGet d r a

/-- The table with key `a` holding `v`; the value `d` is not listed, and keys stay strictly rising. -/
def mapSet {β : Type} [DecidableEq β] (d : β) : List (Nat × β) → Nat → β → List (Nat × β)
  | [], a, v => if v = d then [] else [(a, v)]
  | (b, x) :: r, a, v =>
    if a < b then (if v = d then (b, x) :: r else (a, v) :: (b, x) :: r)
    else if a = b then (if v = d then r else (a, v) :: r)
    else (b, x) :: mapSet d r a v

/-- Canonical form: keys strictly rising, above `lo` where one is given, and no entry equal to the default. -/
def mapWf {β : Type} [DecidableEq β] (d : β) : Option Nat → List (Nat × β) → Bool
  | _, [] => true
  | lo, (b, x) :: r => (match lo with | none => true | some l => decide (l < b)) && decide (x ≠ d) && mapWf d (some b) r

/-- A number put into a rising list. -/
def insNat : List Nat → Nat → List Nat
  | [], a => [a]
  | b :: r, a => if a < b then a :: b :: r else if a = b then b :: r else b :: insNat r a

/-- A rising list of numbers, above `lo` where one is given. -/
def rising : Option Nat → List Nat → Bool
  | _, [] => true
  | lo, b :: r => (match lo with | none => true | some l => decide (l < b)) && rising (some b) r

/-- The canonical form of a memory: cells, stamps and empty words rise strictly and list nothing that an unlisted place has. -/
def Memory.wf (m : Memory) : Bool := mapWf 0 none m.cells && mapWf (0, 0) none m.stamps && rising none m.feEmpty

/-! ### Numbers of contexts -/

/-- The core of a context. -/
def coreOf (c : CtxId) : CoreId := ⟨c.val / 16, by omega⟩
/-- The number of a context in its core. -/
def numOf (c : CtxId) : Fin 16 := ⟨c.val % 16, by omega⟩
/-- The context of a number in a core. -/
def ctxOf (core : CoreId) (n : Fin 16) : CtxId := ⟨core.val * 16 + n.val, by omega⟩
/-- The contexts of a core, 0 to 15. -/
def coreCtxs (core : CoreId) : List CtxId := (List.range 16).map fun n => ctxOf core ⟨n % 16, by omega⟩
/-- All contexts in ascending core and context number. -/
def allCtxs : List CtxId := (List.range 64).map fun n => ⟨n % 64, by omega⟩

/-! ### Contexts and cores of the state -/

/-- A context. -/
def State.getCtx (s : State) (c : CtxId) : Ctx := s.ctxs[c]
/-- A context replaced. -/
def State.setCtx (s : State) (c : CtxId) (x : Ctx) : State := { s with ctxs := s.ctxs.set c x }
/-- A context changed. -/
def State.updCtx (s : State) (c : CtxId) (f : Ctx → Ctx) : State := s.setCtx c (f (s.getCtx c))
/-- The context that moves. -/
def State.ctx (s : State) : Ctx := s.getCtx s.cur
/-- The context that moves, changed. -/
def State.upd (s : State) (f : Ctx → Ctx) : State := s.updCtx s.cur f
/-- A core. -/
def State.getCore (s : State) (i : CoreId) : Core := s.cores[i]
/-- A core changed. -/
def State.updCore (s : State) (i : CoreId) (f : Core → Core) : State := { s with cores := s.cores.set i (f s.cores[i]) }
/-- The core of the context that moves. -/
def State.core (s : State) : Core := s.getCore (coreOf s.cur)
/-- The cluster changed. -/
def State.updCl (s : State) (f : Cluster → Cluster) : State := { s with cl := f s.cl }
/-- The memory changed. -/
def State.updMem (s : State) (f : Memory → Memory) : State := { s with mem := f s.mem }
/-- The engines changed. -/
def State.updEng (s : State) (f : Engines → Engines) : State := { s with eng := f s.eng }
/-- The module changed. -/
def State.updMod (s : State) (f : Module → Module) : State := { s with mod := f s.mod }

/-- The cluster modelled (R65, R93). -/
def State.me (s : State) : ClusterId := ⟨s.mod.chipid, s.cl.x, s.cl.y⟩
/-- S level: the moving context is a core's context 0 (R16, R305). -/
def State.sup (s : State) : Bool := numOf s.cur = 0
/-- A move put at the end of the agenda. -/
def State.post (s : State) (i : Instr) : State := { s with agenda := s.agenda ++ [i] }
/-- A move posted unless it waits already. -/
def State.postOnce (s : State) (i : Instr) : State := if s.agenda.contains i then s else s.post i
/-- An event that takes place next, after those already put first. -/
def State.next (s : State) (i : Instr) : State := { s with turns := s.turns ++ [.event i] }
/-- Several moves put at the end of the agenda. -/
def State.posts (s : State) (l : List Instr) : State := { s with agenda := s.agenda ++ l }
/-- A move put before every other. -/
def State.urge (s : State) (t : Turn) : State := { s with turns := t :: s.turns }
/-- The number of the next free value, and the state with it taken. Log 6. -/
def State.draw (s : State) : Nat × State := (s.draws, { s with draws := s.draws + 1 })

/-- Numbers of several free values, from the first on. Log 6. -/
def State.drawN (s : State) (k : Nat) : Nat × State := (s.draws, { s with draws := s.draws + k })
/-- An event that has not taken place is withdrawn. -/
def State.cancel (s : State) (i : Instr) : State := { s with agenda := s.agenda.filter (· ≠ i) }

/-! ### Bytes, words and F/E bits -/

/-- What an HBM byte reads as while no cell lists it: zero after a scrub by method 0 or 2 and after a cold reset (R409, R429), a
value nobody knows after its key has been dropped (log 32). Scratchpad bytes read zero (R72). -/
def Memory.residue (m : Memory) (a : Nat) : Byte := if m.hbmKey = 0 || decide (a < 2 ^ 32) then 0 else Config.residue m.hbmKey a
/-- A byte of the memory. -/
def Memory.get (m : Memory) (a : Nat) : Byte := mapGet 0 m.cells a ^^^ m.residue a
/-- A byte of the memory. -/
def State.byte (s : State) (a : Nat) : Byte := s.mem.get a
/-- n bytes from an address, ascending. -/
def State.bytes (s : State) (a : Nat) : Nat → List Byte
  | 0 => []
  | n + 1 => s.byte a :: s.bytes (a + 1) n
/-- The little-endian number of some bytes (R4). -/
def leNat : List Byte → Nat
  | [] => 0
  | b :: r => b.toNat + 256 * leNat r
/-- n little-endian bytes of a number (R4). -/
def toLe : Nat → Nat → List Byte
  | 0, _ => []
  | n + 1, x => BitVec.ofNat 8 x :: toLe n (x / 256)
/-- An n-byte little-endian number in memory. -/
def State.num (s : State) (a n : Nat) : Nat := leNat (s.bytes a n)
/-- A 64-bit word in memory. -/
def State.word (s : State) (a : Nat) : Word := BitVec.ofNat 64 (s.num a 8)

/-- Bytes put into a cell table. -/
def putCells (m : List Host.Cell) : Nat → List Byte → List Host.Cell
  | _, [] => m
  | a, b :: r => putCells (mapSet 0 m a b) (a + 1) r
/-- Bytes as the cells list them: their difference to what an unlisted byte reads as. -/
def Memory.asCells (m : Memory) : Nat → List Byte → List Byte
  | _, [] => []
  | a, b :: r => (b ^^^ m.residue a) :: m.asCells (a + 1) r
/-- Bytes put into memory. -/
def Memory.put (m : Memory) (a : Nat) (l : List Byte) : Memory := { m with cells := putCells m.cells a (m.asCells a l) }

/-- The parcels of a span that a write changes, kept as values an instruction cache may still return (R156). -/
def staleOf (old new : Memory) (lo n : Nat) : List (Nat × Parcel × CoreId) :=
  ((List.range (n / 2 + 1)).map fun i => (lo / 2 + i) * 2).flatMap fun a =>
    let o : Parcel := old.get (a + 1) ++ old.get a
    let w : Parcel := new.get (a + 1) ++ new.get a
    if o = w then [] else [(a, o, 0), (a, o, 1), (a, o, 2), (a, o, 3)]

/-- Bytes written to memory at an address of `Memory.cells`: an instruction cache may still return what stood there (R156), and what
a soft error has damaged is written anew (R376). -/
def State.putBytes (s : State) (a : Nat) (l : List Byte) : State :=
  let m := s.mem.put a l
  { s with mem := { m with
      stale := s.mem.stale ++ staleOf s.mem m a l.length, bad := s.mem.bad.filter fun x => !(decide (a ≤ x) && decide (x < a + l.length)) } }
/-- A 64-bit word written to memory. -/
def State.putWord (s : State) (a : Nat) (w : Word) : State := s.putBytes a (toLe 8 w.toNat)

/-- Is a scratchpad word full (R72)? Words by their number, offset / 8. -/
def State.isFull (s : State) (w : Nat) : Bool := !(s.mem.feEmpty.contains w)
/-- The F/E bit of a scratchpad word set; its waiters are offered the new state before anything else moves (R209). -/
def State.setFE (s : State) (w : Nat) (full : Bool) : State :=
  if s.isFull w = full then s
  else
    let s := s.updMem fun m =>
      { m with feEmpty := if full then m.feEmpty.filter (· ≠ w) else insNat m.feEmpty w }
    if allCtxs.any (fun c => (s.getCtx c).wait = some (.feWord w full)) then s.next (.feWaiterOffer w) else s

/-! ### Logical time (R94 to R98) -/

/-- The time granule of a window offset (R95). -/
def granule (o : Nat) : Nat := o / 128
/-- WTS of a granule. -/
def State.wts (s : State) (g : Nat) : Nat := (mapGet (0, 0) s.mem.stamps g).1
/-- RTS of a granule. -/
def State.rts (s : State) (g : Nat) : Nat := (mapGet (0, 0) s.mem.stamps g).2
/-- The stamps of a granule set. -/
def State.setStamp (s : State) (g w r : Nat) : State :=
  s.updMem fun m => { m with stamps := mapSet (0, 0) m.stamps g (w, r) }
/-- The clock limit of R114. -/
def clockLimit : Nat := 2 ^ 63

/-- Time of a LocalRead or EngineRead (R97). -/
def State.readTime (s : State) (g c : Nat) : Nat := max (c + 1) (s.wts g)
/-- Time of a LocalWrite or LocalReadWrite (R97). -/
def State.writeTime (s : State) (g c : Nat) : Nat := max (c + 1) (s.rts g + 1)
/-- The granule after a read at time t (R97). -/
def State.stampRead (s : State) (g t : Nat) : State := s.setStamp g (s.wts g) (max (s.rts g) t)
/-- The granule after a write at time t (R97). -/
def State.stampWrite (s : State) (g t : Nat) : State := s.setStamp g t t

/-! ### The continuation pool (R18) -/

/-- Address of word w of record i (R18). -/
def State.recAt (s : State) (i w : Nat) : Nat := s.cl.par.poolBase + 64 * i + 8 * w
/-- Word w of record i. -/
def State.recWord (s : State) (i w : Nat) : Word := s.word (s.recAt i w)
/-- Word w of record i written by the hardware (R74). -/
def State.putRec (s : State) (i w : Nat) (x : Word) : State := s.putWord (s.recAt i w) x
/-- Word w of record i as the next binding reads it: as it was before a store of software, or as it is (R19). -/
def State.recView (s : State) (i w : Nat) : Word := mapGet (s.recWord i w) s.cl.recOld (8 * i + w)
/-- STATE of a record: 0 FREE, 1 QUEUED, 2 BOUND, 3 SUSPENDED (R18). -/
def State.recState (s : State) (i : Nat) : Nat := (s.recWord i 0).toNat / 2 ^ 60
/-- A field of a word replaced: bits lo .. lo + n - 1. -/
def setBits (w : Word) (lo n : Nat) (x : Nat) : Word :=
  BitVec.ofNat 64 (w.toNat - w.toNat / 2 ^ lo % 2 ^ n * 2 ^ lo + x % 2 ^ n * 2 ^ lo)
/-- A field of a word: bits lo .. lo + n - 1. -/
def bits (w : Word) (lo n : Nat) : Nat := w.toNat / 2 ^ lo % 2 ^ n
/-- STATE of a record written. -/
def State.setRecState (s : State) (i st : Nat) : State := s.putRec i 0 (setBits (s.recWord i 0) 60 4 st)
/-- NEXT of a record written (R18). -/
def State.setNext (s : State) (i n : Nat) : State := s.putRec i 1 (setBits (s.recWord i 1) 0 16 n)
/-- NEXT of the records of a list written so that they form the chain of a ready queue. -/
def State.chain (s : State) : List QEnt → State
  | [] => s
  | [e] => s.setNext e.idx 0xFFFF
  | e :: f :: r => (s.setNext e.idx f.idx).chain (f :: r)

/-- A record entered at the tail of its ready queue as QUEUED (R18, R26). -/
def State.enqueue (s : State) (i : Nat) (woke : Bool) : State :=
  let s := s.setRecState i 1
  let q := bits (s.recView i 1) 22 3
  let l := s.cl.queues[q]?.getD []
  let l' := l ++ [⟨i, s.mod.cycles, woke⟩]
  let s := s.updCl fun c => { c with queues := c.queues.setIfInBounds q l' }
  s.chain (l'.drop (l.length - 1))

/-- The ready queues without the records that no longer read QUEUED; their chains are rewritten (R20). -/
def State.unlinkChanged (s : State) : Nat → State
  | 0 => s
  | q + 1 =>
    let s := s.unlinkChanged q
    let l := s.cl.queues[q]?.getD []
    let l' := l.filter fun e => s.recState e.idx = 1
    if l'.length = l.length then s
    else (s.updCl fun c => { c with queues := c.queues.setIfInBounds q l' }).chain l'

/-- Bits of byte x of a continuation record that software cannot write: NEXT and the reserved bits of words 0 and 1 (R6, R7, R18). -/
def recordRo (x : Nat) : Byte :=
  match x with
  | 6 => 0x40
  | 8 => 0xFF
  | 9 => 0xFF
  | 10 => 1
  | _ => 0
/-- Bits of byte x of a core's dump area that software cannot write: the reserved bits of the area header, word 0 of the cause records,
word 0 of the slot headers but for VALID (R6, R7, R381, R382). -/
def dumpRo (x : Nat) : Byte :=
  let y := x % 0x2000
  if x < 0x2000 then (if x < 4 || 8 ≤ x then 0 else if x = 7 then 0x3F else 0xFF)
  else if 0x1400 ≤ y ∧ y < 0x1500 then (if y % 32 < 8 then 0xFF else 0)
  else if 0x1500 ≤ y ∧ y < 0x1508 then (if y = 0x1507 then 0x7F else 0xFF)
  else 0
/-- Bits of the byte at a window offset that software cannot write, in the continuation pool and in the four dump areas (R6, R7). -/
def State.roBits (s : State) (o : Nat) : Byte :=
  let b := s.cl.par.poolBase
  let d := s.cl.par.dumpOff
  if s.cl.part.isNone then 0
  else if b ≤ o ∧ o < b + 64 * s.cl.par.contMax then recordRo ((o - b) % 64)
  else if d ≤ o ∧ o < d + 0x88000 then dumpRo ((o - d) % 0x22000)
  else 0
/-- The bytes that a store leaves: read-only bits of the pool and of the dump areas keep their values (R18, R381, R382). -/
def State.masked (s : State) (o key : Nat) : List Byte → List Byte
  | [] => []
  | b :: r => ((b &&& ~~~s.roBits o) ||| (s.byte key &&& s.roBits o)) :: s.masked (o + 1) (key + 1) r

/-- Word number x of the pool (8 × record + word) after a store of software: the next binding of a QUEUED or BOUND record reads
the word as it was or as it is, which is free; of a FREE or SUSPENDED one, as it is (R19, R20). `s0` is the state before. -/
def State.observeWord (s0 s : State) (x : Nat) : State :=
  let i := x / 8
  let w := x % 8
  if !(s0.recState i = 1 || s0.recState i = 2) then s.updCl fun c => { c with recOld := c.recOld.filter fun p => p.1 ≠ x }
  else if s0.recWord i w = s.recWord i w then s
  else
    let (n, s) := s.draw
    s.updCl fun c =>
      { c with recOld := c.recOld.filter (fun p => p.1 ≠ x) ++ (if Config.freeBool n then [(x, s0.recView i w)] else []) }
/-- Words of the pool after a store of software, from word number x on. -/
def State.observeWords (s0 s : State) (x : Nat) : Nat → State
  | 0 => s
  | k + 1 => s0.observeWords (s0.observeWord s x) (x + 1) k
/-- What SUSPENDED records wait for is forgotten where software has written another STATE (R20). -/
def State.dropEvents (s : State) : State :=
  s.updCl fun c => { c with suspended := c.suspended.filter fun e =>
    match e with
    | .watch i _ _ => s.recState i = 3
    | .group i _ _ => s.recState i = 3 }

/-- The scheduler observes a store to the pool (R20): `s0` the state before it, `s` with its bytes written. -/
def State.observePool (s0 s : State) (o n : Nat) : State :=
  let lo := max o s.cl.par.poolBase
  let hi := min (o + n) (s.cl.par.poolBase + 64 * s.cl.par.contMax)
  if lo < hi ∧ s.cl.part.isSome then
    let x := (lo - s.cl.par.poolBase) / 8
    ((s0.observeWords s x ((hi - 1 - s.cl.par.poolBase) / 8 - x + 1)).dropEvents).unlinkChanged 8
  else s

/-- A store of software to the cocoon map begins a lending of each slot whose word it writes: what was sent of the slot before no
longer counts (R363, R364). -/
def State.observeMap (s : State) (o n : Nat) : State :=
  s.updCl fun c => { c with slotSent := c.slotSent.filter fun x =>
    !(decide (o < s.cl.par.cmapBase + 8 * (x / 16) + 8) && decide (s.cl.par.cmapBase + 8 * (x / 16) < o + n)) }

/-- Something that leaves for the host. -/
def State.toHost (s : State) (x : HostOut) : State := s.updMod fun m => { m with hostOut := m.hostOut ++ [x] }
/-- The partition of the cluster (R397). -/
def State.partition? (s : State) : Option Partition := s.mod.parts.find? fun p => s.cl.part = some p.id
/-- It changed. -/
def State.updPart (s : State) (id : Nat) (f : Partition → Partition) : State :=
  s.updMod fun m => { m with parts := m.parts.map fun p => if p.id = id then f p else p }
/-- A record is written to the range of a function's events, which holds one at least (R433). -/
def Fn.noted (f : Fn) : Fn := if 32 ≤ f.evtLen then { f with evtCnt := f.evtCnt + 1 } else f
/-- The four words of an event record: the code in bits 7:0 of word 0, the details in the others (R433; their order log 63). -/
def eventWords (code : Nat) (details : List Nat) : List Nat := code % 256 :: (details ++ [0, 0, 0]).take 3
/-- An event for the host (R433): a record in every range that a function has set, cyclically from its start, and its count raised. -/
def State.report (s : State) (code : Nat) (details : List Nat) : State :=
  let out := (s.mod.fw.fns.toList.filter fun f => decide (32 ≤ f.evtLen)).map fun f =>
    HostOut.event (f.evtBase + 32 * (f.evtCnt % (f.evtLen / 32))) (eventWords code details)
  s.updMod fun m => { m with
    events := m.events ++ [(code, details)], hostOut := m.hostOut ++ out, fw := { m.fw with fns := m.fw.fns.map Fn.noted } }

/-! ### Messages between clusters (R77, R81, R145) -/

/-- The event that a message is at the cluster it reaches. -/
def msgEvent (m : NetMsg) (skid : Option Nat) : Instr :=
  match m.body with
  | .read r => .remoteRequest r
  | .watch w => .watchRegistration w
  | .withdraw tag => .watchWithdrawal m.src tag
  | .amsg a => .amsgArrival a
  | .amsgAnswer ok => .amsgReoffer m.src ok
  | .data tag l t lease => .remoteDataReply tag l t lease skid
  | .pullData tag l t => .pullDataReply tag l t
  | .status tag st => .remoteStatusReply tag st
  | .watchStatus tag st => .watchStatusReceipt tag st
  | .deferred tag => .deferredReply tag
  | .fire tag v tf => .watchFireReceipt tag v tf skid
  | .expired tag => .watchExpiredReceipt tag
  | .refused tag => .watchRefusedReceipt tag
  | .cancelFill page => .fillCancelNotice m.src page
  | .recallPage page => .recallStart page

/-- Flits of a message: a header and its payload (R145). -/
def msgFlits (m : NetMsg) : Nat :=
  match m.body with
  | .data _ l _ _ => 1 + (l.length + 63) / 64
  | .pullData _ l _ => 1 + (l.length + 63) / 64
  | .amsg _ => 2
  | _ => 1

/-- What the module keeps about a chip. -/
def State.pair (s : State) (chip : Nat) : Pair := mapGet Pair.reset s.mod.pairs chip
/-- It changed. -/
def State.updPair (s : State) (chip : Nat) (f : Pair → Pair) : State :=
  s.updMod fun m => { m with pairs := mapSet Pair.reset m.pairs chip (f (mapGet Pair.reset m.pairs chip)) }

/-- A request to a module that has been drained ends with status 1 at once (R113, R420); other messages are discarded. -/
def State.bounce (s : State) (m : NetMsg) : State :=
  match m.body with
  | .read r => s.post (.remoteStatusReply r.tag 1)
  | .watch w => s.post (.watchStatusReceipt w.tag 1)
  | .amsg _ => s.post (.amsgReoffer m.dst true)
  | _ => s

/-- cat(CHIP, X, Y) of a cluster. -/
def coords (c : ClusterId) : Nat := c.chip.val * 256 + c.x.val * 16 + c.y.val
/-- The life number that this module holds for a module of the cluster's partition (R398). -/
def State.life (s : State) (chip : Nat) : Nat := mapGet 0 s.mod.fw.lives (128 * s.cl.part.getD 0 + chip)
/-- The counter in the nonce of the next message to a cluster: the life number of this module, then the messages sent (R399). -/
def State.nonceTo (s : State) (dst : ClusterId) : Nat :=
  s.life s.mod.chipid.val * 2 ^ 48 + mapGet 0 s.cl.nonces (coords dst) % 2 ^ 48
/-- A message to a cluster counted (R399). -/
def State.countMsg (s : State) (dst : ClusterId) : State :=
  s.updCl fun c => { c with nonces := mapSet 0 c.nonces (coords dst) (mapGet 0 c.nonces (coords dst) + 1) }
/-- A message enters the send queue towards its module; without lock its end-to-end timer starts at once (R143, R145, R151). -/
def State.queueMsg (s : State) (m : NetMsg) (nonce : Nat) : State :=
  let d := m.dst.chip
  let seq := (s.pair d.val).nextSeq
  let s := s.updPair d.val fun p => { p with queue := p.queue ++ [⟨seq, nonce, m, msgFlits m, 0⟩], nextSeq := seq + 1 }
  if s.mod.cal.sync then s else s.postOnce (.e2eTimerExpiry d seq)

/-- A message sent: to the cluster itself through its NI, to a cluster of the module through the mesh, to another module
through its send queue with the next pair sequence number (R145, R151). -/
def State.send (s : State) (dst : ClusterId) (route : BitVec 2) (b : NetBody) : State :=
  let m : NetMsg := ⟨s.me, dst, route, b⟩
  if dst = s.me then s.updCl fun c => { c with inbox := c.inbox ++ [(m, none)] }
  else if dst.chip = s.mod.chipid then (s.countMsg dst).updCl fun c => { c with outbox := c.outbox ++ [(m, s.nonceTo dst)] }
  else if (s.pair dst.chip.val).drained then s.bounce m
  else (s.countMsg dst).queueMsg m (s.nonceTo dst)

/-! ### The calendar (R144) -/

/-- LEFT of CALTIME: how far the slot has run is free (log 3), but time only passes, and LEFT agrees with GUARD; 0 without lock. -/
def State.readLeft (s : State) : Nat × State :=
  let c := s.mod.cal
  if !c.sync then (0, s)
  else
    let lo := if c.guard then c.slotlen - c.guardlen else 0
    let (n, s) := s.draw
    let v := lo + Config.freeNat n % (c.left - lo + 1)
    (v, s.updMod fun m => { m with cal := { m.cal with left := v } })

/-! ### Watch fires (R87) -/

/-- A watch fires with the time T of the write it waited for (R102); beyond the clock limit the answer is status 7
(R114). -/
def State.fire (s : State) (w : WatchReq) (T : Nat) : State :=
  let tf := max (w.clk + 1) T
  if clockLimit ≤ tf then s.send w.src 0 (.watchStatus w.tag 7)
  else
    let g := granule w.off
    let s := s.setStamp g (s.wts g) (max (s.rts g) tf)
    s.send w.src 0 (.fire w.tag (s.word w.off) tf)

/-- The entries in a list that a write to o .. o + n - 1 at time t satisfies fire, in order of registration (R87). -/
def State.fireList (s : State) (o n t : Nat) : List WatchReq → State
  | [] => s
  | w :: r =>
    let hit := decide (o < w.off + 8) && decide (w.off < o + n) && decide (w.thr.toNat ≤ (s.word w.off).toNat)
    let s := if hit then (s.updCl fun c => { c with watches := c.watches.filter (· ≠ w) }).fire w t else s
    s.fireList o n t r

/-- Watches after a write to scratchpad offsets o .. o + n - 1 placed at t. -/
def State.fireWatches (s : State) (o n t : Nat) : State := s.fireList o n t s.cl.watches

/-- Host copies of HDM lines, by window and memory line, are invalidated (R424, R425, R426). -/
def State.dropHostLines (s : State) (hit : Nat × Nat → Bool) : State :=
  s.updMod fun m => { m with hdmLines := m.hdmLines.filter fun x => !hit x,
                             hostOut := m.hostOut ++ (m.hdmLines.filter hit).map fun x => HostOut.backInvalidate x.1 }
/-- Lines of HDM pages that the host holds are invalidated before a write to them counts as performed (R424). -/
def State.backInvalidate (s : State) (key n : Nat) : State :=
  let hit (x : Nat × Nat) : Bool := decide (64 * x.2 < key + n) && decide (key < 64 * x.2 + 64)
  if s.mod.hdmLines.any hit then s.dropHostLines hit else s

/-- Bytes written to own memory: `o` the window offset, `key` the place in `Memory.cells`, t the time of the write. The
pool is observed (R20), watches fire (R87), host copies of HDM lines are invalidated (R424). -/
def State.writeOwn (s : State) (o key : Nat) (l : List Byte) (t : Nat) : State :=
  let s := s.backInvalidate key l.length
  ((s.observePool (s.putBytes key (s.masked o key l)) o l.length).observeMap o l.length).fireWatches o l.length t

/-! ### Taking a trap (R310, R375, R377) -/

/-- The causes that are fatal for the context or the cluster (R375). -/
def fatalCause (cause : BitVec 8) : Bool := cause = 0x18 || cause = 0x19 || cause = 0x1F
/-- The causes that go to context 0 with no FAULT decision (R377). -/
def directCause (cause : BitVec 8) : Bool :=
  cause = 0x0C || cause = 0x12 || cause = 0x1A || cause = 0x1B || cause = 0x1C
/-- The trailer of a twin pair: in twin mode it holds what its leader holds, and the pair moves as one (R32, log 13). -/
def State.isTrailer (s : State) (c : CtxId) : Bool := s.cl.par.twin && decide (9 ≤ (numOf c).val)
/-- The number a trap record and a draw name: the leader's in twin mode (R50, R310). -/
def State.leaderNum (s : State) (c : CtxId) : Fin 16 :=
  if s.cl.par.twin ∧ 9 ≤ (numOf c).val then ⟨(numOf c).val - 8, by omega⟩ else numOf c

/-- What a context keeps for the instruction it is in, dropped: an abandoned attempt has performed nothing (R190). -/
def Ctx.clearWait (x : Ctx) : Ctx :=
  { x with wait := none, replies := [], sent := [], limitHit := false, arrived := none, begun := false }

/-- A trap in context c. A fatal cause, and any trap of context 0 (R307), leaves the context FAULTED and its FATAL_FAULT
comes before every other move (R380, R385). Any other cause writes a record to the core's trap queue (R377); it is held
for the FAULT decision, or for the recall of its page. -/
def State.trapAt (s : State) (c : CtxId) (cause : BitVec 8) (status : BitVec 4) (aux aux2 : Word) (hold : Hold) : State :=
  let x := s.getCtx c
  let fatal := fatalCause cause || numOf c = 0
  let r : TrapRec := ⟨cause, s.leaderNum c, fatal, x.repidx, status, x.pc, aux, aux2⟩
  let s := s.updCtx c fun x => { x.clearWait with st := .faulted, stopReq := none, susp := none }
  let s := s.updCl fun cl => { cl with preempting := cl.preempting.filter (· ≠ c) }
  let s := { s with rep := none, target := none, taint := [] }
  if fatal then s.urge (.event (.fatalFault c r false))
  else
    let h : Hold := if directCause cause then hold else .decision
    let s := s.updCore (coreOf c) fun k => { k with tq := k.tq ++ [⟨r, h⟩] }
    if directCause cause then s else s.post (.faultDecision c)

/-- A trap of the moving context with its AUX words (R310). -/
def State.trapAux (s : State) (cause : BitVec 8) (status : BitVec 4) (aux aux2 : Word) : State :=
  s.trapAt s.cur cause status aux aux2 .none
/-- A trap of the moving context whose AUX words are zero. -/
def State.trap (s : State) (cause : BitVec 8) : State := s.trapAux cause 0 0 0
/-- A trap of the moving context with the effective address in AUX (R310). -/
def State.trapEa (s : State) (cause : BitVec 8) (ea : Word) : State := s.trapAux cause 0 ea 0
/-- Trap 0x0C: its record is held for the recall of the page, and the recall begins or joins at once, in the order of the triggers
(R365, R366). -/
def State.trapNonRes (s : State) (ea : Word) (vpn : Nat) : State :=
  (s.trapAt s.cur 0x0C 0 ea 0 (.recall vpn)).next (.recallStart vpn)

/-! ### The end of an instruction -/

/-- A stop that is pending takes effect; whether it is one that `cstop` asked for is noted (R323). -/
def Ctx.takeStop (x : Ctx) : Ctx := { x with st := .stopped, stopReq := none, cstopped := x.cstopped || x.stopReq = some .cstop }
/-- A context that has no instruction in flight any more: READY, or STOPPED when a stop is pending (R15). -/
def Ctx.boundary (x : Ctx) : Ctx :=
  let x := x.clearWait
  match x.stopReq with
  | none => { x with st := .ready, latch := 0 }
  | some _ => { x.takeStop with latch := 0 }

/-- The moving context's instruction completes and the PC becomes `pc`. -/
def State.jumpTo (s : State) (pc : BitVec 48) : State :=
  let s := s.upd fun x => { x with pc := pc, repidx := 0 }.boundary
  { s with rep := none, target := none, taint := [] }

/-- The moving context's instruction of `len` bytes completes. Under a prefix the next repetition follows, or the PC
passes prefix and instruction (R165). -/
def State.finish (s : State) (len : Nat) : State :=
  match s.rep with
  | none => s.jumpTo (s.ctx.pc + BitVec.ofNat 48 len)
  | some r =>
    if r.cnt ≤ r.j then s.jumpTo (s.ctx.pc + BitVec.ofNat 48 (r.len + 2))
    else
      let s := s.upd fun x => { x with repidx := BitVec.ofNat 6 (r.j + 1) }.boundary
      { s with rep := none, target := none, taint := [] }

/-- The moving context waits in place; nothing of its instruction is performed (R15, R190). -/
def State.block (s : State) (w : Wait) : State :=
  let s := s.upd fun x => { x with st := .blocked, wait := some w }
  { s with rep := none, target := none, taint := [] }

/-- A privileged form: trap 0x03 at U level (R306). -/
def State.priv (s : State) (k : State → State) : State := if s.sup then k s else s.trap 0x03

/-! ### Registers -/

/-- A g register written: full and unpoisoned; a write to g0 is discarded (R161, R185). It waits for the link tags the
instruction's sources wait for (R153). -/
def State.setG (s : State) (d : GNum) (v : Word) : State :=
  if d = 0 then s else s.upd fun x => { x with g := x.g.set d ⟨v, true, false, s.taint, false⟩ }
/-- A g register written full and poisoned with a status (R78). -/
def State.poisonG (s : State) (d : GNum) (st : BitVec 4) : State :=
  if d = 0 then s else s.upd fun x => { x with g := x.g.set d ⟨st.zeroExtend 64, true, true, [], false⟩ }
/-- A v register written: full, unpoisoned, with its tag (R216). -/
def State.setV (s : State) (d : VNum) (t : Tag) (v : VWord) : State :=
  s.upd fun x => { x with v := x.v.set d ⟨v, t, true, false, s.taint, false⟩ }
/-- A v register written full and poisoned with a status, its tag RAW (R78). -/
def State.poisonV (s : State) (d : VNum) (st : BitVec 4) : State :=
  s.upd fun x => { x with v := x.v.set d ⟨st.zeroExtend 512, .raw, true, true, [], false⟩ }
/-- A soft error mark taken away: the register is written anew (R376). -/
def Ctx.mend (x : Ctx) (n : Nat) : Ctx := { x with badRegs := x.badRegs.filter (· ≠ n) }
/-- A mask register written; k0 is never written (R215). -/
def State.setK (s : State) (d : KNum) (v : Word) : State :=
  if d = 0 then s else s.upd fun x => { x.mend (3 * d.val) with k := x.k.set d v, ku := x.ku.set d s.taint }
/-- A mask register read: k0 is all ones in every use (R215). -/
def State.getK (s : State) (k : KNum) : Word := if k = 0 then BitVec.allOnes 64 else s.ctx.k[k]
/-- A k, t or e register (3 × number + 0, 1, 2) or the retry latch (24) is read: damage is noticed (R376). -/
def State.touch (s : State) (n : Nat) : State := { s with hurt := s.hurt || s.ctx.badRegs.contains n }
/-- A v register whose present lanes stay in part is read: damage is noticed (R376), and the link tags that those lanes wait for join
the instruction's (R153). -/
def State.touchV (s : State) (d : VNum) : State :=
  { s with hurt := s.hurt || (s.ctx.v[d]).bad, taint := s.taint ++ (s.ctx.v[d]).unchk }
/-- A mask is read: the link tags it waits for join the instruction's (R153). -/
def State.taintK (s : State) (k : KNum) : State := if k = 0 then s else { s.touch (3 * k.val) with taint := s.taint ++ s.ctx.ku[k] }
/-- An extension register is read: the link tags it waits for join the instruction's (R153). -/
def State.taintE (s : State) (e : ENum) : State := { s.touch (3 * e.val + 2) with taint := s.taint ++ s.ctx.eu[e] }
/-- A tile descriptor is read: the link tags it waits for join the instruction's (R153). -/
def State.taintT (s : State) (t : TNum) : State := { s.touch (3 * t.val + 1) with taint := s.taint ++ s.ctx.tu[t] }

/-- Does any register of a context still wait for link tags (R153)? -/
def Ctx.anyUnchecked (x : Ctx) : Bool :=
  x.g.any (fun r => !r.unchk.isEmpty) || x.v.any (fun r => !r.unchk.isEmpty) || x.ku.any (fun l => !l.isEmpty)
    || x.eu.any (fun l => !l.isEmpty) || x.tu.any (fun l => !l.isEmpty)

/-- Stores, atomics, issues to an engine or the NI, `seq.adv`, branches on unchecked values and suspension points wait
in place while any register of the context is unchecked (R153). -/
def State.checked (s : State) (k : State → State) : State :=
  if s.ctx.anyUnchecked then s.block .unchecked else k s
/-- A branch or jump waits while a value it has read is unchecked (R153). -/
def State.checkedValue (s : State) (k : State → State) : State :=
  if s.taint.isEmpty then k s else s.block .unchecked

/-- A side effect in the sense of R338 since the last suspension. -/
def State.markSide (s : State) : State := s.upd fun x => { x with side := true }
/-- An atomic in the sense of R34, which is a side effect of R338 too, since the last suspension. -/
def State.markAtomic (s : State) : State := s.upd fun x => { x with atomicDone := true, side := true }

/-- A g register read as a source (R161, R162, R79): a damaged register is a machine check (R376); an empty one blocks, or
traps under disposition 1; a poisoned one traps. g0 reads zero. -/
def State.srcG (s : State) (fa : Bool) (r : GNum) (k : Word → State → State) : State :=
  if r = 0 then k 0 s
  else
    let x := s.ctx.g[r]
    if x.bad then s.trap 0x1F
    else if !x.full then (if fa then s.trap 0x04 else s.block (.greg r))
    else if x.poison then
      s.trapAux (if x.val.extractLsb' 0 4 = 3 then 0x05 else 0x0B) (x.val.extractLsb' 0 4) (BitVec.ofNat 64 r.val) 0
    else k x.val { s with taint := s.taint ++ x.unchk }

/-- A v register read as a source, before its tag is checked (R161, R162, R79). -/
def State.srcV (s : State) (fa : Bool) (r : VNum) (k : VReg → State → State) : State :=
  let x := s.ctx.v[r]
  if x.bad then s.trap 0x1F
  else if !x.full then (if fa then s.trap 0x04 else s.block (.vreg r))
  else if x.poison then
    s.trapAux (if x.val.extractLsb' 0 4 = 3 then 0x05 else 0x0B) (x.val.extractLsb' 0 4) (BitVec.ofNat 64 (64 + r.val)) 0
  else k x { s with taint := s.taint ++ x.unchk }

/-- A tag check (R41): trap 0x06 unless the condition holds. -/
def State.needTag (s : State) (ok : Bool) (k : State → State) : State := if ok then k s else s.trap 0x06

/-- What SA adds to the effective address of this repetition (R165). -/
def State.bump (s : State) (size : Nat) : Word :=
  match s.rep with
  | none => 0
  | some r => if r.sa then BitVec.ofNat 64 (r.j * r.stride * size) else 0

/-- The context's CLK takes a time (R97). -/
def State.setClk (s : State) (t : Nat) : State := s.upd fun x => { x with clk := t }
/-- CLK becomes the larger of itself and a time. -/
def State.raiseClk (s : State) (t : Nat) : State := s.upd fun x => { x with clk := max x.clk t }

/-- The instruction writes g[d] and ends (R185). -/
def State.putG (s : State) (len : Nat) (d : GNum) (v : Word) : State := (s.setG d v).finish len

end Sys2Proof.Machine
end

