-- ==== Sys2Proof/Machine/Access.lean ====
section
/-!
DEFINITION. Sys2Proof/Machine/Access.lean: addresses and owners (R65, R66, R75), protection regions (R351, R352), the walk of
the page tables (R355 to R359), the pending-operation logs (R368 to R373), and what an access to own memory meets.
-/
namespace Sys2Proof.Machine

/-! ### Addresses (R65, R66, R75) -/

/-- The offset of an address (R65). -/
def offOf (a : Word) : Nat := a.toNat % 2 ^ 48
/-- The cluster of cat(CHIP, X, Y). -/
def ofCoords (n : Nat) : ClusterId := ⟨⟨n / 256 % 128, by omega⟩, ⟨n / 16 % 16, by omega⟩, ⟨n % 16, by omega⟩⟩
/-- The owner an address names (R66). -/
def resolve (me : ClusterId) (a : Word) : ClusterId :=
  let h := a.toNat / 2 ^ 48
  if h = 0 then me
  else if h < 2 ^ 15 then ofCoords h
  else
    -- deltas added modulo the field ranges; the sign extension does not matter modulo 128 and 16
    ⟨⟨(me.chip.val + h / 256 % 128) % 128, by omega⟩, ⟨(me.x.val + h / 16 % 16) % 16, by omega⟩,
      ⟨(me.y.val + h % 16) % 16, by omega⟩⟩
/-- The test of R75: the own-cluster form or the absolute form of the own cluster. -/
def ownForm (me : ClusterId) (a : Word) : Bool :=
  let h := a.toNat / 2 ^ 48
  h = 0 || (decide (h < 2 ^ 15) && h = coords me)
/-- An address of an owner in absolute form. -/
def absAddr (c : ClusterId) (o : Nat) : Word := BitVec.ofNat 64 (coords c * 2 ^ 48 + o % 2 ^ 48)

/-- End of the scratchpad window (R68). -/
def spadEnd : Nat := 0x800000
/-- Start of the HBM window (R68). -/
def hbmLo : Nat := 0x100000000
/-- End of the HBM window (R68). -/
def hbmEnd : Nat := 0x1100000000
/-- n bytes at an offset lie in the scratchpad window (R69). -/
def inSpad (o n : Nat) : Bool := decide (o + n ≤ spadEnd)
/-- n bytes at an offset lie in the HBM window (R69). -/
def inHbm (o n : Nat) : Bool := decide (hbmLo ≤ o) && decide (o + n ≤ hbmEnd)

/-! ### Protection regions (R351, R352) -/

/-- The access a permission bit allows (R352). -/
inductive Perm where
  | rd | wr | fx | rr
  deriving DecidableEq, Repr

/-- The bit of a region word (R328). -/
def regionBit (sup : Bool) : Perm → Nat
  | .rd => if sup then 59 else 62
  | .wr => if sup then 58 else 61
  | .fx => if sup then 57 else 60
  | .rr => 56
/-- The bit of a leaf (R356). -/
def leafBit (sup : Bool) : Perm → Nat
  | .rd => if sup then 54 else 57
  | .wr => if sup then 53 else 56
  | .fx => if sup then 52 else 55
  | .rr => 51

/-- Does a region match a 256-byte unit (R351)? -/
def regionHit (r : Word) (unit : Nat) : Bool :=
  bits r 63 1 = 1 && decide (bits r 0 15 ≤ unit) && decide (unit ≤ bits r 32 15)
/-- Permission of one unit: the lowest-numbered region that matches, or the rule for unmatched bytes (R351). -/
def unitAllowed (sup : Bool) (p : Perm) (unit : Nat) : List Word → Bool
  | [] => sup && (p = .rd || p = .wr)
  | r :: l => if regionHit r unit then bits r (regionBit sup p) 1 = 1 else unitAllowed sup p unit l
/-- Every byte of a scratchpad span is allowed (R351). -/
def State.spadAllowed (s : State) (sup : Bool) (p : Perm) (o n : Nat) : Bool :=
  (List.range ((o + n - 1) / 256 - o / 256 + 1)).all fun i => unitAllowed sup p (o / 256 + i) s.cl.regions.toList

/-! ### The walk (R355 to R359) -/

/-- What a walk gives (R357). -/
inductive WalkRes where
  | unmapped
  | leaf (e : Word) (twoMiB : Bool)
  | walknr
  | mig (key : Nat)
  | err
  deriving DecidableEq, Repr

/-- A pointer entry is malformed at a level (R356). -/
def ptrMalformed (e : Word) (lvl : Nat) : Bool :=
  bits e 31 27 ≠ 0 || bits e 0 8 ≠ 0 || (lvl = 1 && bits e 8 4 ≠ 0)
/-- A leaf is malformed (R356). -/
def leafMalformed (e : Word) (two : Bool) (logMax : Nat) : Bool :=
  bits e 58 1 ≠ 0 || bits e 47 4 ≠ 0 || bits e 31 1 ≠ 0 || bits e 0 6 ≠ 0
    || (bits e 60 2 ≠ 0 && (two || bits e 59 1 = 1 || decide (logMax ≤ bits e 6 10)))

/-- An older entry that a translation cache may still hold, where software changed the table and gave no `tinv` yet; which
one is used is free (R359, log 10). -/
def State.tlbPick (s : State) (agent lvl tag : Nat) (cur : Word) : Word × State :=
  match s.mem.tlb.find? fun x => x.1 = agent && x.2.1 = lvl && x.2.2.1 = tag && x.2.2.2 ≠ cur with
  | none => (cur, s)
  | some x => let (n, s) := s.draw; (if Config.freeBool n then x.2.2.2 else cur, s)
/-- An entry a walk used is kept (R359). -/
def State.tlbKeep (s : State) (agent lvl tag : Nat) (e : Word) : State :=
  if s.mem.tlb.contains (agent, lvl, tag, e) then s else s.updMem fun m => { m with tlb := (agent, lvl, tag, e) :: m.tlb }

/-- Does a stored 8-byte word have an uncorrectable error (R376)? -/
def State.badWord (s : State) (key n : Nat) : Bool := s.mem.bad.any fun a => decide (key ≤ a + 7) && decide (a < key + n)

/-- The levels of the walk, from level `4 - fuel` (R357). -/
def State.walkFrom (s : State) (agent v : Nat) : Nat → Nat → WalkRes × State
  | 0, _ => (.unmapped, s)
  | fuel + 1, p =>
    let lvl := 3 - fuel
    let idx := if lvl = 1 then v / 2 ^ 30 % 64 else if lvl = 2 then v / 2 ^ 21 % 512 else v / 2 ^ 16 % 32
    let tag := if lvl = 1 then v / 2 ^ 30 else if lvl = 2 then v / 2 ^ 21 else v / 2 ^ 16
    let key := hbmLo + p + 8 * idx
    if s.badWord key 8 then (.err, s)
    else
      let (e, s) := s.tlbPick agent lvl tag (s.word key)
      let isLeaf := bits e 62 1 = 1
      if bits e 63 1 = 0 then (.unmapped, s)
      else if isLeaf then
        if lvl = 1 then (.unmapped, s)
        else if leafMalformed e (decide (lvl = 2)) s.cl.par.logMax then (.unmapped, s)
        else
          let s := if bits e 60 2 = 0 then s.tlbKeep agent lvl tag e else s
          (.leaf e (decide (lvl = 2)), s)
      else
        if lvl = 3 then (.unmapped, s)
        else if ptrMalformed e lvl then (.unmapped, s)
        else if bits e 58 1 = 1 then (.mig key, s)
        else if bits e 59 1 = 0 || bits e 60 2 ≠ 0 then (.walknr, s)
        else (s.tlbKeep agent lvl tag e).walkFrom agent v fuel (bits e 8 23 * 256)

/-- The walk of R357 for a window offset. -/
def State.walk (s : State) (agent o : Nat) : WalkRes × State := s.walkFrom agent (o - hbmLo) 3 s.cl.par.troot
/-- The frame address of a leaf (R356). -/
def frameOf (e : Word) (two : Bool) (v : Nat) : Nat :=
  if two then bits e 21 10 * 2 ^ 21 + v % 2 ^ 21 else bits e 16 15 * 2 ^ 16 + v % 2 ^ 16

/-! ### What an access to own memory meets (R203, R205, R351, R358) -/

/-- The result of the checks on one access. -/
inductive AccRes where
  /-- allowed; the bytes stand at `key` of `Memory.cells` -/
  | ok (key : Nat)
  | unmapped
  /-- protection denies; in HBM or in scratchpad -/
  | denied (hbm : Bool)
  /-- the page (v[35:16]) is not resident; its leaf -/
  | nonres (vpn : Nat) (leaf : Word)
  | walknr
  | mig (key : Nat)
  | err
  deriving DecidableEq, Repr

/-- The checks on n bytes at a window offset within one page. -/
def State.access (s : State) (agent : Nat) (sup : Bool) (p : Perm) (o n : Nat) : AccRes × State :=
  if inSpad o n then
    if !s.spadAllowed sup p o n then (.denied false, s)
    else if s.badWord o n then (.err, s)
    else (.ok o, s)
  else if inHbm o n then
    match s.walk agent o with
    | (.unmapped, s) => (.unmapped, s)
    | (.walknr, s) => (.walknr, s)
    | (.mig k, s) => (.mig k, s)
    | (.err, s) => (.err, s)
    | (.leaf e two, s) =>
      if bits e (leafBit sup p) 1 = 0 then (.denied true, s)
      else if bits e 60 2 ≠ 0 then (.nonres ((o - hbmLo) / 2 ^ 16) e, s)
      else
        let key := hbmLo + frameOf e two (o - hbmLo)
        if s.badWord key n then (.err, s) else (.ok key, s)
  else (.unmapped, s)

/-- The parcel at a place of memory: its value, or an older one that the core's instruction cache may still return, freely
chosen (R156, log 9). -/
def State.parcelAt (s : State) (key : Nat) : Parcel × State :=
  let now : Parcel := s.byte (key + 1) ++ s.byte key
  let old := (s.mem.stale.filter fun x => x.1 = key && x.2.2 = coreOf s.cur).map (·.2.1)
  if old.isEmpty then (now, s)
  else
    let (n, s) := s.draw
    ((now :: old).getD (Config.freeNat n % (old.length + 1)) now, s)

/-- The moving context waits for a pointer entry whose MIG bit is set; the walk re-reads it, for 4,096 cycles (R357). -/
def State.blockMig (s : State) (key : Nat) : State :=
  (s.block (.mig key)).posts [.walkMigRetry s.cur, .walkMigTimeout s.cur]

/-- The trap, or the waiting, of a failed check of the moving context; `ea` is the first failing element (R310, R358). -/
def State.failAcc (s : State) (r : AccRes) (ea : Word) : State :=
  match r with
  | .ok _ => s
  | .unmapped => s.trapEa 0x0A ea
  | .denied hbm => s.trapEa (if hbm then 0x0A else 0x09) ea
  | .nonres vpn _ => s.trapNonRes ea vpn
  | .walknr => s.trap 0x18
  | .mig key => s.blockMig key
  | .err => s.trapEa 0x19 ea

/-- The agent number of the moving context's core for the translation caches. -/
def State.agent (s : State) : Nat := (coreOf s.cur).val

/-! ### Local atomics (R211) -/

/-- The new value of an atomic at a width of w bits (R211). op 0 to 7; 8 is `aswap`. -/
def atomicNew (op w old v : Nat) : Nat :=
  match op with
  | 0 => (old + v) % 2 ^ w
  | 1 => old &&& v
  | 2 => old ||| v
  | 3 => old ^^^ v
  | 4 => if sxInt w old ≤ sxInt w v then old else v
  | 5 => if sxInt w old ≤ sxInt w v then v else old
  | 6 => min old v
  | 7 => max old v
  | _ => v

/-! ### Pending-operation logs (R368 to R373) -/

/-- A log entry (R369). -/
structure LogEnt where
  atomic : Bool
  size : Nat
  op : Nat
  dt : Nat
  off : Nat
  val : Nat
  deriving DecidableEq, Repr

/-- A log descriptor (R368). -/
structure LogDesc where
  v : Bool
  cnt : Nat
  vpn : Nat
  tb : Nat
  wtsp : Nat
  rtsp : Nat
  deriving DecidableEq, Repr

/-- The descriptor of log i. -/
def State.logDesc (s : State) (i : Nat) : LogDesc :=
  let a := s.cl.par.logdBase + 32 * i
  let w := s.word a
  ⟨bits w 63 1 = 1, bits w 20 9, bits w 0 20, s.num (a + 8) 8, s.num (a + 16) 8, s.num (a + 24) 8⟩
/-- The descriptor of log i written (R368; not checked, R352). -/
def State.putLogDesc (s : State) (i : Nat) (d : LogDesc) : State :=
  let a := s.cl.par.logdBase + 32 * i
  s.putBytes a (toLe 8 ((if d.v then 2 ^ 63 else 0) + d.cnt * 2 ^ 20 + d.vpn) ++ toLe 8 d.tb ++ toLe 8 d.wtsp ++ toLe 8 d.rtsp)
/-- Entry j of log i. -/
def State.logEnt (s : State) (i j : Nat) : LogEnt :=
  let a := s.cl.par.logBase + 4096 * i + 16 * j
  let w := s.word a
  ⟨bits w 62 1 = 1, 2 ^ bits w 60 2, bits w 56 4, bits w 16 40, bits w 0 16, s.num (a + 8) 8⟩
/-- Entry j of log i written. -/
def State.putLogEnt (s : State) (i j : Nat) (e : LogEnt) : State :=
  let a := s.cl.par.logBase + 4096 * i + 16 * j
  s.putBytes a (toLe 8 (2 ^ 63 + (if e.atomic then 2 ^ 62 else 0) + e.size.log2 * 2 ^ 60 + e.op * 2 ^ 56
    + e.dt % 2 ^ 40 * 2 ^ 16 + e.off) ++ toLe 8 e.val)
/-- Entries j to j + k - 1 of log i are in use no more (R369). -/
def State.dropLogEnts (s : State) (i j : Nat) : Nat → State
  | 0 => s
  | k + 1 =>
    let a := s.cl.par.logBase + 4096 * i + 16 * j
    (s.putBytes a (toLe 8 (setBits (s.word a) 63 1 0).toNat)).dropLogEnts i (j + 1) k
/-- The entries of a log in order. -/
def State.logEnts (s : State) (i : Nat) : List LogEnt := (List.range (s.logDesc i).cnt).map (s.logEnt i)
/-- Entries written from index j on. -/
def State.putLogEnts (s : State) (i : Nat) : Nat → List LogEnt → State
  | _, [] => s
  | j, e :: r => (s.putLogEnt i j e).putLogEnts i (j + 1) r

/-- The largest WTS and RTS of a page's granules (R112, R368). -/
def State.pageStamps (s : State) (vpn : Nat) : Nat × Nat :=
  let lo := (hbmLo + vpn * 2 ^ 16) / 128
  (s.mem.stamps.filter fun x => decide (lo ≤ x.1) && decide (x.1 < lo + 512)).foldl
    (fun m x => (max m.1 x.2.1, max m.2 x.2.2)) (0, 0)

/-- The log of a non-resident page, its descriptor initialised on first use (R368). -/
def State.openLog (s : State) (i vpn : Nat) : State :=
  if (s.logDesc i).v then s
  else
    let (w, r) := s.pageStamps vpn
    (s.putLogDesc i ⟨true, 0, vpn, r, w, r⟩).updCl fun c => { c with logMarks := mapSet 0 c.logMarks i 192 }

/-- Does an entry touch byte b of the page? -/
def LogEnt.touches (e : LogEnt) (b : Nat) : Bool := decide (e.off ≤ b) && decide (b < e.off + e.size)
/-- Do two entries touch a byte in common? -/
def LogEnt.overlaps (e f : LogEnt) : Bool := decide (e.off < f.off + f.size) && decide (f.off < e.off + e.size)

/-- The logged value of a byte, when a store covers it with no atomic after (R371). -/
def logByte (l : List LogEnt) (b : Nat) : Option Byte :=
  match l.reverse.find? fun e => e.touches b with
  | none => none
  | some e => if e.atomic then none else some (BitVec.ofNat 8 (e.val / 256 ^ (b - e.off)))
/-- The logged bytes of a span, when the log covers all of it but the bytes whose bit in `skip` is set (R371). -/
def logBytes (l : List LogEnt) (b skip : Nat) : Nat → Option (List Byte)
  | 0 => some []
  | n + 1 =>
    match (if skip % 2 = 1 then some 0 else logByte l b), logBytes l (b + 1) (skip / 2) n with
    | some x, some r => some (x :: r)
    | _, _ => none

/-- One entry against the later ones: dropped, merged into the later one, or kept (R372). -/
def compactEnt (e : LogEnt) : List LogEnt → List LogEnt
  | [] => [e]
  | f :: r =>
    if e.overlaps f then
      if !f.atomic && decide (f.off ≤ e.off) && decide (e.off + e.size ≤ f.off + f.size) then f :: r
      else if f.atomic && e.off = f.off && e.size = f.size && !e.atomic then
        { f with atomic := false, op := 0, val := atomicNew f.op (8 * f.size) e.val f.val } :: r
      else if f.atomic && e.off = f.off && e.size = f.size && e.atomic && e.op = f.op then
        { f with val := atomicNew f.op (8 * f.size) e.val f.val } :: r
      else e :: f :: r
    else match compactEnt e r with
      | l => if l.length = r.length + 1 then e :: f :: r else f :: l
/-- One pass of compaction over a log. -/
def compactPass (l : List LogEnt) : List LogEnt := l.foldr compactEnt []
/-- Compaction until no rule applies (R372). -/
def compactLog : Nat → List LogEnt → List LogEnt
  | 0, l => l
  | n + 1, l => let l' := compactPass l; if l' = l then l else compactLog n l'

/-- Compaction of log i when it has reached its mark; its new mark (R370, R372). -/
def State.compactIfDue (s : State) (i : Nat) : State :=
  let d := s.logDesc i
  if d.cnt < mapGet 0 s.cl.logMarks i then s
  else
    let l := compactLog 256 (s.logEnts i)
    let s := ((s.putLogEnts i 0 l).dropLogEnts i l.length (d.cnt - l.length)).putLogDesc i { d with cnt := l.length }
    s.updCl fun c => { c with logMarks := mapSet 0 c.logMarks i (min 256 (max 192 (l.length + 16))) }

/-- What appending gives. -/
inductive Appended where
  | ok (s : State)
  /-- the log is full, or a time does not fit in DT (R370) -/
  | full
  /-- the clock limit (R114) -/
  | limit

/-- Entries appended by the moving context in order, placed against WTSP and RTSP; compaction comes first at the mark (R112,
R370). `t` is the time they all take where they are one access (R98). -/
def State.appendFrom (s : State) (i : Nat) (t : Option Nat) : List LogEnt → Appended
  | [] => .ok s
  | e :: r =>
    let s := s.compactIfDue i
    let d := s.logDesc i
    let t' := t.getD (max (s.ctx.clk + 1) (d.rtsp + 1))
    if clockLimit ≤ t' then .limit
    else if 256 ≤ d.cnt || decide (2 ^ 40 ≤ t' - d.tb) then .full
    else
      let s := (s.putLogEnt i d.cnt { e with dt := t' - d.tb }).putLogDesc i { d with cnt := d.cnt + 1, wtsp := t', rtsp := t' }
      (s.setClk t').appendFrom i t r
/-- The same for all the entries that a store or an atomic needs: where the log has fewer free, once compacted at its mark, it counts
as full (R370). `one` says that the entries are one access. -/
def State.appendEnts (s : State) (i : Nat) (one : Bool) (l : List LogEnt) : Appended :=
  let s := s.compactIfDue i
  let d := s.logDesc i
  if 256 < d.cnt + l.length then .full else s.appendFrom i (if one then some (max (s.ctx.clk + 1) (d.rtsp + 1)) else none) l

/-- An append by the moving context to the log of a non-resident page (R91, R370). A full log forces the recall and the
context waits in place. -/
def State.logAppend (s : State) (vpn : Nat) (leaf : Word) (l : List LogEnt) (k : State → State) : State :=
  let i := bits leaf 6 10
  match (s.openLog i vpn).appendEnts i true l with
  | .full => (s.block (.page vpn)).next (.recallStart vpn)
  | .limit => s.trap 0x1F
  | .ok s => k s

/-- What a load reads from the log of a non-resident page, with its time and the descriptor's RTSP raised (R371). -/
def State.logServe (s : State) (vpn : Nat) (leaf : Word) (o n skip : Nat) : Option (List Byte × Nat × State) :=
  let i := bits leaf 6 10
  let s := s.openLog i vpn
  match logBytes (s.logEnts i) (o % 2 ^ 16) skip n with
  | none => none
  | some l =>
    let d := s.logDesc i
    let t := max (s.ctx.clk + 1) d.wtsp
    some (l, t, s.putLogDesc i { d with rtsp := max d.rtsp t })
/-- A load of the moving context from the log of a non-resident page (R371), else trap 0x0C and the recall (R91). -/
def State.logLoad (s : State) (vpn : Nat) (leaf ea : Word) (o n skip : Nat) (k : List Byte → State → State) : State :=
  match s.logServe vpn leaf o n skip with
  | none => s.trapNonRes ea vpn
  | some (l, t, s') => if clockLimit ≤ t then s.trap 0x1F else k l (s'.setClk t)

/-! ### Engine accesses (R106) -/

/-- The granules of a span. -/
def granulesOf (o n : Nat) : List Nat := (List.range ((o + n - 1) / 128 - o / 128 + 1)).map fun i => o / 128 + i
/-- The largest time of one EngineRead per granule of a span, and whether every one lies below the clock limit (R97, R114). -/
def State.engineReadTime (s : State) (o n c : Nat) : Nat := (granulesOf o n).foldl (fun m g => max m (s.readTime g c)) 0
/-- The granules of a span after those reads. -/
def State.engineRead (s : State) (o n c : Nat) : State :=
  (granulesOf o n).foldl (fun s g => s.stampRead g (s.readTime g c)) s

/-- Bytes of a span that an engine reads next, up to a granule's end: how many granules is free, since the reads of an operation
are unordered among themselves and against other accesses (R106). -/
def State.readPiece (s : State) (o n : Nat) : Nat × State :=
  let (k, s) := s.draw
  (min n ((o / 128 + 1 + Config.freeNat k % (granulesOf o n).length) * 128 - o), s)
/-- Bytes of n that an engine writes next: how many 8-byte words is free (R106). -/
def State.writePiece (s : State) (n : Nat) : Nat × State :=
  let (k, s) := s.draw
  (8 * (1 + Config.freeNat k % (n / 8)), s)

/-! ### Placed accesses of a context -/

/-- A LocalRead by the moving context (R97); the clock limit is a machine check (R114). -/
def State.placeRead (s : State) (o : Nat) (k : State → State) : State :=
  let t := s.readTime (granule o) s.ctx.clk
  if clockLimit ≤ t then s.trap 0x1F else k ((s.stampRead (granule o) t).setClk t)
/-- A LocalWrite or LocalReadWrite by the moving context (R97); `k` gets the time. -/
def State.placeWrite (s : State) (o : Nat) (k : Nat → State → State) : State :=
  let t := s.writeTime (granule o) s.ctx.clk
  if clockLimit ≤ t then s.trap 0x1F else k t ((s.stampWrite (granule o) t).setClk t)

end Sys2Proof.Machine
end

