-- ==== Sys2Proof/Machine/Operands.lean ====
section
/-!
DEFINITION. Sys2Proof/Machine/Operands.lean: the operand forms: effective addresses (R188), loads of one or more elements from
own memory or from a remote owner (R203, R238, R239), stores of one or more elements to own memory (R205, R238),
indivisible read-writes of own memory (R208, R212, R251).
-/
namespace Sys2Proof.Machine

/-- The effective address of an M-format instruction, with what SA adds (R165, R188). -/
def State.eaM (s : State) (base : Word) (off : BitVec 10) (size : Nat) : Word :=
  base + off.signExtend 64 * BitVec.ofNat 64 size + s.bump size

/-! ### Requests to other clusters -/

/-- A fresh request tag (R77). -/
def State.newTag (s : State) : Nat × State := (s.cl.nextTag, s.updCl fun c => { c with nextTag := c.nextTag + 1 })
/-- A read request to a remote owner (R77), with the FEAT0 bits it needs and the module's REV (R435). -/
def State.sendRead (s : State) (who : ReqFor) (owner : ClusterId) (off size clk : Nat) (kind : ReadKind) (route : BitVec 2)
    (need : BitVec 16) : Nat × State :=
  let (tag, s) := s.newTag
  let r : ReadReq := ⟨s.me, tag, off, size, clk, s.cl.part.getD 0, kind, route, need, 2⟩
  (tag, (s.updCl fun c => { c with outst := c.outst ++ [⟨tag, who, owner, r, false⟩] }).send owner route (.read r))

/-- The core whose L1 array holds a line: the issuing core's, or the slice of the fused cache (R82, R84). -/
def State.l1Core (s : State) (off : Nat) : CoreId :=
  if s.cl.par.fused then ⟨off / 128 % 4, by omega⟩ else coreOf s.cur
/-- A leased line that a load at time clk + 1 hits (R99). -/
def State.l1Find (s : State) (owner : ClusterId) (line clk : Nat) : Option L1Line :=
  (s.getCore (s.l1Core line)).l1.find? fun l => l.owner = owner && l.off = line && decide (clk + 1 ≤ l.lend)
/-- An L1 may have evicted any line; whether it did is free (R82, log 11). -/
def State.l1Evict (s : State) (owner : ClusterId) (line : Nat) : State :=
  match s.l1Find owner line s.ctx.clk with
  | none => s
  | some _ =>
    let (n, s) := s.draw
    if Config.freeBool n then
      s.updCore (s.l1Core line) fun c => { c with l1 := c.l1.filter fun l => !(l.owner = owner && l.off = line) }
    else s

/-! ### Loads -/

/-- Where an element of a load is found. -/
inductive ElemAt where
  /-- nothing is read: every byte is masked off (R238) -/
  | none (n : Nat)
  | mem (o key n : Nat)
  | log (vpn : Nat) (leaf ea : Word) (o n skip : Nat)
  | remote (owner : ClusterId) (o n : Nat)
  deriving DecidableEq, Repr

/-- Every byte of an n-byte element is left out. -/
def allSkipped (n skip : Nat) : Bool := skip % 2 ^ n = 2 ^ n - 1
/-- The logged stores of a non-resident page cover what a load reads (R91, R371). -/
def State.logCovers (s : State) (leaf : Word) (o n skip : Nat) : Bool :=
  allSkipped n skip || ((s.logDesc (bits leaf 6 10)).v && (logBytes (s.logEnts (bits leaf 6 10)) (o % 2 ^ 16) skip n).isSome)
/-- The page failure that decides among elements of own memory, f at address ea and those still unchecked: the one at the lowest
address (R357). -/
def State.lowestFault (s : State) (load : Bool) (f : AccRes) (ea : Word) : List (Word × Nat × Nat) → AccRes × Word × State
  | [] => (f, ea, s)
  | (a, n, skip) :: r =>
    let o := offOf a
    if resolve s.me a ≠ s.me || a.toNat % n ≠ 0 || !inHbm o n || decide (offOf ea ≤ o) then s.lowestFault load f ea r
    else match s.access s.agent s.sup (if load then .rd else .wr) o n with
      | (.ok _, s) => s.lowestFault load f ea r
      | (.nonres vpn leaf, s) =>
        if !load || s.logCovers leaf o n skip then s.lowestFault load f ea r else s.lowestFault load (.nonres vpn leaf) a r
      | (g, s) => s.lowestFault load g a r
/-- The trap, or the waiting, that the failure of an access ends an instruction with (R357, R358). -/
def State.failElem (s : State) (load : Bool) (f : AccRes) (ea : Word) (rest : List (Word × Nat × Nat)) : State :=
  let (f, ea, s) := s.lowestFault load f ea (if decide (hbmLo ≤ offOf ea) then rest else [])
  s.failAcc f ea

/-- The checks of R203 on each element (address, bytes, the bytes a mask leaves out) in order; the first failure decides
(R238), and among failing pages the lowest address (R357). -/
def State.checkLoads (s : State) (acc : List ElemAt) : List (Word × Nat × Nat) → (List ElemAt → State → State) → State
  | [], k => k acc.reverse s
  | (ea, n, skip) :: r, k =>
    let o := offOf ea
    let owner := resolve s.me ea
    if ea.toNat % n ≠ 0 then s.trapEa 0x07 ea
    else if owner ≠ s.me then
      if s.cl.members.contains owner then
        s.checkLoads ((if allSkipped n skip then .none n else .remote owner o n) :: acc) r k
      else s.trapEa 0x09 ea
    else match s.access s.agent s.sup .rd o n with
      | (.ok key, s) => s.checkLoads ((if allSkipped n skip then .none n else .mem o key n) :: acc) r k
      | (.nonres vpn leaf, s) =>
        if s.logCovers leaf o n skip then
          s.checkLoads ((if allSkipped n skip then .none n else .log vpn leaf ea o n skip) :: acc) r k
        else s.failElem true (.nonres vpn leaf) ea r
      | (f, s) => s.failElem true f ea r

/-- The reply to the request of element i, if it has come. -/
def Ctx.replyOf (x : Ctx) (i : Nat) : Option Reply :=
  match x.sent.find? fun p => p.2 = i with
  | none => none
  | some (tag, _) => x.replies.find? fun r =>
      match r with
      | .data t _ _ _ _ => t = tag
      | .status t _ => t = tag
      | _ => false

/-- Requests for the remote elements that neither a leased line nor a request serves yet (R239). -/
def State.requestMissing (s : State) : Nat → List ElemAt → State
  | _, [] => s
  | i, .remote owner o _ :: r =>
    let line := o / 128 * 128
    if s.ctx.sent.any fun p => p.2 = i then s.requestMissing (i + 1) r
    else
      let s := s.l1Evict owner line
      match s.l1Find owner line s.ctx.clk with
      | some _ => s.requestMissing (i + 1) r
      | none =>
        let (tag, s) := s.sendRead (.ctx s.cur) owner line 128 s.ctx.clk .load 0 7
        (s.upd fun x => { x with sent := x.sent ++ [(tag, i)] }).requestMissing (i + 1) r
  | i, _ :: r => s.requestMissing (i + 1) r

/-- The status of the lowest failing element (R239). -/
def State.firstStatus (s : State) (i : Nat) : List ElemAt → Option (BitVec 4)
  | [] => none
  | _ :: r => match s.ctx.replyOf i with
    | some (.status _ st) => some st
    | _ => s.firstStatus (i + 1) r

/-- When a remote element whose reply has come is placed: at the reply's time where that lies after the context's clock, else as a
hit on the line under its lease; nothing where the lease has run out (R97, R99). -/
def replyTime (clk t lease : Nat) : Option Nat :=
  if clk < t then some t else if clk + 1 ≤ lease then some (clk + 1) else none

/-- A remote element is asked for (again), with the clock that the elements before it have led to (R97). -/
def State.askAgain (s0 : State) (owner : ClusterId) (line i clk : Nat) : State :=
  let old := (s0.ctx.sent.filter fun p => p.2 = i).map (·.1)
  let (tag, s) := s0.sendRead (.ctx s0.cur) owner line 128 clk .load 0 7
  let s := s.upd fun x =>
    { x with
      sent := x.sent.filter (fun p => p.2 ≠ i) ++ [(tag, i)]
      replies := x.replies.filter fun r => match r with | .data t _ _ _ _ => !old.contains t | _ => true }
  s.block (.reply (s.ctx.sent.map (·.1)))

/-- The elements read and placed one after the other, each later than the one before (R96 to R98). `s0` is the state before the
first of them: a machine check leaves it as it was (R9, R114), and an element whose lease has run out meanwhile is asked
for again and the instruction waits with nothing performed. -/
def State.readElems (s0 s : State) (i : Nat) (acc : List (List Byte)) :
    List ElemAt → (List (List Byte) → State → State) → State
  | [], k => k acc.reverse s
  | .none n :: r, k => s0.readElems s (i + 1) (List.replicate n 0 :: acc) r k
  | .mem o key n :: r, k =>
    let t := s.readTime (granule o) s.ctx.clk
    if clockLimit ≤ t then s0.trap 0x1F
    else
      let s := (s.stampRead (granule o) t).setClk t
      s0.readElems s (i + 1) (s.bytes key n :: acc) r k
  | .log vpn leaf ea o n skip :: r, k =>
    match s.logServe vpn leaf o n skip with
    | none => s0.trapNonRes ea vpn
    | some (l, t, s) => if clockLimit ≤ t then s0.trap 0x1F else s0.readElems (s.setClk t) (i + 1) (l :: acc) r k
  | .remote owner o n :: r, k =>
    let line := o / 128 * 128
    let clk := s.ctx.clk
    match s0.ctx.replyOf i with
    | some (.data _ l t lease skid) =>
      match replyTime clk t lease with
      | some t' =>
        if clockLimit ≤ t' then s0.trap 0x1F
        else s0.readElems { s.setClk t' with taint := s.taint ++ skid.toList } (i + 1) ((l.drop (o - line)).take n :: acc) r k
      | none => s0.askAgain owner line i clk
    | _ => match s.l1Find owner line clk with
      | some l =>
        if clockLimit ≤ clk + 1 then s0.trap 0x1F
        else s0.readElems (s.setClk (clk + 1)) (i + 1) ((l.bytes.drop (o - line)).take n :: acc) r k
      | none => s0.askAgain owner line i clk

/-- A load of several elements: `k` gets their bytes, `kf` the status of the lowest element whose final reply was not OK
(R203, R239). -/
def State.loadElems (s : State) (els : List (Word × Nat × Nat)) (k : List (List Byte) → State → State)
    (kf : BitVec 4 → State → State) : State :=
  s.checkLoads [] els fun ats s =>
    let s := s.requestMissing 0 ats
    if s.ctx.sent.any fun p => (s.ctx.replyOf p.2).isNone then s.block (.reply (s.ctx.sent.map (·.1)))
    else match s.firstStatus 0 ats with
      | some st => kf st s
      | none => s.readElems s 0 [] ats k

/-! ### Stores -/

/-- One access of a store: the span that is checked, and the bytes written, by offset. -/
structure StoreEl where
  ea : Word
  n : Nat
  parts : List (Nat × List Byte)
  deriving DecidableEq, Repr

/-- Where a store's access goes. -/
inductive StoreAt where
  | mem (o key : Nat)
  | log (vpn : Nat) (leaf : Word)
  deriving DecidableEq, Repr

/-- The checks of R205 on each access in order (R238). -/
def State.checkStores (s : State) (acc : List (StoreEl × StoreAt)) :
    List StoreEl → (List (StoreEl × StoreAt) → State → State) → State
  | [], k => k acc.reverse s
  | e :: r, k =>
    if !ownForm s.me e.ea then s.trapEa 0x08 e.ea
    else if e.ea.toNat % e.n ≠ 0 then s.trapEa 0x07 e.ea
    else match s.access s.agent s.sup .wr (offOf e.ea) e.n with
      | (.ok key, s) => s.checkStores ((e, .mem (offOf e.ea) key) :: acc) r k
      | (.nonres vpn leaf, s) => s.checkStores ((e, .log vpn leaf) :: acc) r k
      | (f, s) => s.failElem false f e.ea (r.map fun e => (e.ea, e.n, 0))

/-- A part put into a list in ascending address order, after those of the same address. -/
def insPart (p : Nat × List Byte) : List (Nat × List Byte) → List (Nat × List Byte)
  | [] => [p]
  | q :: r => if p.1 < q.1 then p :: q :: r else q :: insPart p r

/-- The log entries of a store's parts in one page, in ascending address order: 8-byte entries for words written in full,
one entry per part in words written in part (R370). Parts do not cross aligned 8-byte words unless they are wider. -/
def logEntries (parts : List (Nat × List Byte)) : List LogEnt :=
  let cells : List (Nat × Option Byte) :=
    parts.foldl (fun m p => (List.range p.2.length).foldl
      (fun m j => mapSet none m (p.1 % 2 ^ 16 + j) (p.2[j]?)) m) []
  let words := (cells.map fun c => c.1 / 8).foldl insNat []
  words.flatMap fun w =>
    let bs := (List.range 8).map fun j => mapGet none cells (8 * w + j)
    if bs.all (·.isSome) then [⟨false, 8, 0, 0, 8 * w, leNat (bs.map (·.getD 0))⟩]
    else ((parts.filter fun p => p.1 % 2 ^ 16 / 8 = w).foldl (fun l p => insPart p l) []).map fun p =>
      ⟨false, p.2.length, 0, 0, p.1 % 2 ^ 16, leNat p.2⟩

/-- The bytes of an access's parts. -/
def Memory.putParts (m : Memory) (o key : Nat) : List (Nat × List Byte) → Memory
  | [] => m
  | (a, l) :: r => (m.put (key + (a - o)) l).putParts o key r
/-- The bytes of an access's parts written at once: an instruction cache may still return the parcels as they were before the
access (R98, R156). -/
def State.putParts (s : State) (o n key : Nat) (l : List (Nat × List Byte)) : State :=
  let m := s.mem.putParts o key (l.map fun p => (p.1, s.masked p.1 (key + (p.1 - o)) p.2))
  { s with mem := { m with stale := s.mem.stale ++ staleOf s.mem m key n } }
/-- The parts of an access written as one write at one time; host copies of HDM lines are invalidated before (R424). -/
def State.writeParts (s : State) (o n key t : Nat) (l : List (Nat × List Byte)) : State :=
  let s := s.backInvalidate key n
  ((s.observePool (s.putParts o n key l) o n).observeMap o n).fireWatches o n t

/-- The parts that a store writes to a non-resident page. -/
def logParts (vpn : Nat) (l : List (StoreEl × StoreAt)) : List (Nat × List Byte) :=
  l.flatMap fun x => match x.2 with
    | .log v _ => if v = vpn then x.1.parts else []
    | .mem _ _ => []

/-- The accesses of a store performed in order (R98, R205, R238); `all` lists every one of them. What goes to the log of a
non-resident page is appended when the first access to that page has its turn, in ascending address order (R370, log 101): the
entries of a contiguous store, which is one access, at one time, else each at its own. A machine check, and a log with too little
room, leave `s0`, the state before the first access (R9, R114, R370); `done` lists the pages whose entries are in their logs. -/
def State.performStores (s0 s : State) (all : List (StoreEl × StoreAt)) (done : List Nat) :
    List (StoreEl × StoreAt) → (State → State) → State
  | [], k => k s
  | (e, .mem o key) :: r, k =>
    if e.parts.isEmpty then s0.performStores s all done r k
    else
      let t := s.writeTime (granule o) s.ctx.clk
      if clockLimit ≤ t then s0.trap 0x1F
      else s0.performStores ((((s.stampWrite (granule o) t).setClk t).writeParts o e.n key t e.parts)) all done r k
  | (e, .log vpn leaf) :: r, k =>
    if e.parts.isEmpty || done.contains vpn then s0.performStores s all done r k
    else
      let i := bits leaf 6 10
      match (s.openLog i vpn).appendEnts i (decide (all.length ≤ 1)) (logEntries (logParts vpn all)) with
      | .full => (s0.block (.page vpn)).next (.recallStart vpn)
      | .limit => s0.trap 0x1F
      | .ok s => s0.performStores s all (vpn :: done) r k

/-- A store of several accesses: every check first, then every write (R238). -/
def State.storeElems (s : State) (els : List StoreEl) (k : State → State) : State :=
  s.checkStores [] els fun l s => s.performStores s l [] l fun s => k s.markSide

/-! ### Read-writes of own memory -/

/-- The checks of a write access of n bytes to own memory in the order of R212, with the cause of a bad window. -/
def State.checkOwn (s : State) (p : Perm) (ea : Word) (n : Nat) (k : Nat → AccRes → State → State) : State :=
  if !ownForm s.me ea then s.trapEa 0x08 ea
  else if ea.toNat % n ≠ 0 then s.trapEa 0x07 ea
  else
    let o := offOf ea
    match s.access s.agent s.sup p o n with
    | (.ok key, s) => k o (.ok key) s
    | (.nonres vpn leaf, s) => k o (.nonres vpn leaf) s
    | (f, s) => s.failAcc f ea

/-- One LocalReadWrite of an n-byte number at a window offset (R97, R105): `f` the new value; `k` gets the old one. -/
def State.readWrite (s : State) (o key n : Nat) (f : Nat → Nat) (k : Nat → State → State) : State :=
  s.placeWrite o fun t s =>
    let old := s.num key n
    k old (s.writeOwn o key (toLe n (f old)) t)

end Sys2Proof.Machine
end

