-- ==== Sys2Proof/Machine/Control.lean ====
section
/-!
DEFINITION. Sys2Proof/Machine/Control.lean: branches, jumps and calls (R198 to R201), `nop`, `brk`, `svc` (R160), and their
16-bit forms.
-/
namespace Sys2Proof.Machine

/-- addr + SignExt(disp) × 2 (R158). -/
def target {n : Nat} (pc : BitVec 48) (disp : BitVec n) : BitVec 48 := pc + disp.signExtend 48 * 2
/-- The return address addr + len (R199, R200). -/
def retAddr (pc : BitVec 48) (len : Nat) : Word := pc.zeroExtend 64 + BitVec.ofNat 64 len

/-- A conditional branch: both registers with disposition 0; an unchecked value waits (R153, R198). -/
def branch {n : Nat} (len : Nat) (cond : Word → Word → Bool) (a b : GNum) (disp : BitVec n) (s : State) : Out :=
  .next (s.srcG false a fun x s => s.srcG false b fun y s => s.checkedValue fun s =>
    if cond x y then s.jumpTo (target s.ctx.pc disp) else s.finish len)

/-- R198: taken if A = B. -/
def execBeq (a b : GNum) (disp : BitVec 14) (s : State) : Out := branch 4 (· == ·) a b disp s
/-- R198: taken if A ≠ B. -/
def execBne (a b : GNum) (disp : BitVec 14) (s : State) : Out := branch 4 (· != ·) a b disp s
/-- R198: taken if sA < sB. -/
def execBlt (a b : GNum) (disp : BitVec 14) (s : State) : Out := branch 4 (fun x y => decide (x.toInt < y.toInt)) a b disp s
/-- R198: taken if sA ≥ sB. -/
def execBge (a b : GNum) (disp : BitVec 14) (s : State) : Out := branch 4 (fun x y => decide (y.toInt ≤ x.toInt)) a b disp s
/-- R198: taken if A < B unsigned. -/
def execBltn (a b : GNum) (disp : BitVec 14) (s : State) : Out := branch 4 (fun x y => decide (x.toNat < y.toNat)) a b disp s
/-- R198: taken if A ≥ B unsigned. -/
def execBgen (a b : GNum) (disp : BitVec 14) (s : State) : Out := branch 4 (fun x y => decide (y.toNat ≤ x.toNat)) a b disp s

/-- R199: PC := addr + SignExt(disp24) × 2. -/
def execJ (disp : BitVec 24) (s : State) : Out := .next (s.jumpTo (target s.ctx.pc disp))
/-- R199: g31 := addr + 4, then as `j`. -/
def execCall (disp : BitVec 24) (s : State) : Out :=
  .next ((s.setG 31 (retAddr s.ctx.pc 4)).jumpTo (target s.ctx.pc disp))

/-- `jr` and `callr` (R200): the target is read and checked before the link register is written. -/
def jumpReg (len : Nat) (link : Option GNum) (a : GNum) (fa : Bool) (s : State) : Out :=
  .next (s.srcG fa a fun t s => s.checkedValue fun s =>
    if bits t 0 1 = 1 then s.trapEa 0x07 t
    else if !ownForm s.me t then s.trapEa 0x08 t
    else
      let ret := retAddr s.ctx.pc len
      let s := match link with | none => s | some d => s.setG d ret
      s.jumpTo (t.extractLsb' 0 48))
/-- R200: jumps to g[a]. -/
def execJr (a : GNum) (fa : Bool) (s : State) : Out := jumpReg 4 none a fa s
/-- R200: g[d] := addr + 4, jumps to g[a]. -/
def execCallr (d a : GNum) (fa : Bool) (s : State) : Out := jumpReg 4 (some d) a fa s

/-- R160: `jr ga`. -/
def execCJr (a : GNum) (s : State) : Out := jumpReg 2 none a false s
/-- R160, R200: `callr gd, ga` with a length of 2. -/
def execCCallr (d a : GNum) (s : State) : Out := jumpReg 2 (some d) a false s
/-- R160: `beq gd, g0, target`. -/
def execCBz (d : GNum) (imm : BitVec 6) (s : State) : Out := branch 2 (· == ·) d 0 imm s
/-- R160: `bne gd, g0, target`. -/
def execCBnz (d : GNum) (imm : BitVec 6) (s : State) : Out := branch 2 (· != ·) d 0 imm s
/-- R160: `j target`. -/
def execCJ (imm : BitVec 10) (s : State) : Out := .next (s.jumpTo (target s.ctx.pc imm))
/-- R160: no effect except advancing the PC. -/
def execNop (s : State) : Out := .next (s.finish 2)
/-- R160: trap 0x1B, imm10 in the record (R310). -/
def execBrk (imm : BitVec 10) (s : State) : Out := .next (s.trapAux 0x1B 0 (imm.zeroExtend 64) 0)
/-- R160: trap 0x1A, imm10 in the record (R310). -/
def execSvc (imm : BitVec 10) (s : State) : Out := .next (s.trapAux 0x1A 0 (imm.zeroExtend 64) 0)

end Sys2Proof.Machine
end

