-- ==== Sys2Proof/Machine/Timelines.lean ====
section
/-!
DEFINITION. Sys2Proof/Machine/Timelines.lean: timelines (R107, R133, R259, R260), what a context waits for before it suspends
or publishes (R23, R104), and the conditions of the other waits.
-/
namespace Sys2Proof.Machine

/-! ### One timeline (R133) -/

/-- The least number of a list, or the given one. -/
def leastOf : Nat → List Nat → Nat
  | m, [] => m
  | m, x :: r => leastOf (min m x) r
/-- VAL: the largest n such that every operation numbered n or below has completed; HIGH when none is in flight. -/
def Timeline.fix (t : Timeline) : Timeline :=
  { t with val := match t.inflight with | [] => t.high | x :: r => leastOf x r - 1 }
/-- An operation numbered n is issued: HIGH becomes n. -/
def Timeline.issue (t : Timeline) (n : Nat) : Timeline := { t with high := n, inflight := t.inflight ++ [n] }.fix
/-- An operation numbered n completes with a status, a trap cause and its completion time (R133). After a trap has cleared ECAUSE an
operation that sets only ESTAT writes ENUM, although the ENUM of the cleared cause has not been read: the model's choice
between two sentences of R133 (log 87). -/
def Timeline.complete (t : Timeline) (n : Nat) (status : BitVec 4) (cause : BitVec 8) (time : Nat) : Timeline :=
  let t := { t with inflight := t.inflight.erase n, done := mapSet 0 t.done n (max (mapGet 0 t.done n) time) }.fix
  let setC := cause ≠ 0 && t.ecause = 0
  let setS := status ≠ 0 && t.estat = 0
  { t with
    ecause := if setC then cause else t.ecause
    estat := if setS then status else t.estat
    enum := if setC then n else if setS && t.ecause = 0 then n else t.enum }
/-- The time the timeline carries at n: the largest completion time among the operations numbered n or below (R107). -/
def Timeline.timeAt (t : Timeline) (n : Nat) : Nat :=
  t.done.foldl (fun m p => if p.1 ≤ n then max m p.2 else m) 0
/-- The largest completion time on the timeline. -/
def Timeline.lastTime (t : Timeline) : Nat := t.done.foldl (fun m p => max m p.2) 0

/-! ### The timelines of a context -/

/-- A timeline of a context changed. -/
def Ctx.updTl (x : Ctx) (i : TLNum) (f : Timeline → Timeline) : Ctx := { x with tl := x.tl.set i (f x.tl[i]) }
/-- Every operation numbered on the timelines of a context has completed (R23, R104). -/
def State.opsDone (s : State) (c : CtxId) : Bool := (s.getCtx c).tl.all fun t => t.inflight.isEmpty
/-- An operation of a context completes on its timeline; a suspension that waited for it goes on (R23). -/
def State.tlComplete (s : State) (c : CtxId) (i : TLNum) (n : Nat) (status : BitVec 4) (cause : BitVec 8) (time : Nat) : State :=
  let s := s.updCtx c fun x => x.updTl i fun t => t.complete n status cause time
  if (s.getCtx c).susp.isSome && s.opsDone c then s.post (.suspension c) else s
/-- The largest completion time of a context's operations (R107). -/
def State.opsTime (s : State) (c : CtxId) : Nat := (s.getCtx c).tl.toList.foldl (fun m t => max m t.lastTime) 0

/-! ### Conditions of waits -/

/-- Copy-engine operations in flight of a core, its launched copy tasks among them (R130). -/
def State.copyInFlight (s : State) (core : CoreId) : Nat := (s.eng.copies.filter fun o => coreOf o.owner = core).length
/-- Does the walker hold an unfinished copy task of a context? KIND 8 to 14 (R135). -/
def State.copyTasks (s : State) (c : CtxId) : Bool := s.eng.tasks.any fun t => t.owner = c && decide (8 ≤ t.kind)
/-- Every copy-engine operation and copy task of a context has completed (R132). -/
def State.copyDone (s : State) (c : CtxId) : Bool := !(s.eng.copies.any fun o => o.owner = c) && !s.copyTasks c
/-- A group table entry of this cluster (R35). -/
def State.group? (s : State) (idx : Nat) : Option Group := (s.cl.groups.find? fun g => g.1 = idx).map (·.2)
/-- The wait on phase n of a group is over: PHASE exceeds n, or the group is BROKEN (R262). -/
def State.groupMet (s : State) (idx n : Nat) : Bool :=
  match s.group? idx with
  | none => true
  | some g => decide (n < g.phase) || g.st = 2
/-- No access to the page meets a non-resident leaf any more (R366). Agent 9 has no translation cache. -/
def State.pageResident (s : State) (vpn : Nat) : Bool :=
  match (s.walk 9 (hbmLo + vpn * 2 ^ 16)).1 with
  | .leaf e _ => bits e 60 2 = 0
  | _ => true
/-- No matrix work that has passed its protection check waits or runs (R272, R328). -/
def Engines.idle (e : Engines) : Bool := e.queue.isEmpty && e.load.isNone && e.pass.isNone && e.drain.isEmpty && e.conv.isNone
/-- Every agent has acknowledged the `tinv` of a context (R360). -/
def State.tinvDone (s : State) (c : CtxId) : Bool := !(s.cl.tinvWait.any fun w => w.1 = c)

end Sys2Proof.Machine
end

