-- ==== Sys2Proof/Machine/Records.lean ====
section
/-!
DEFINITION. Sys2Proof/Machine/Records.lean: continuation records at work: binding (R22, R27, R28, R30, R32, R243), creation
(R24 to R27), queueing with the decisions it brings (R334), the record write of a suspension (R23), freeing.
-/
namespace Sys2Proof.Machine

/-! ### Free registers (R22) -/

/-- A table of 32, 64, 8 or 4 entries filled by number. -/
def fillVec {β : Type} {n : Nat} (v : Vector β n) (f : Nat → β) : Vector β n :=
  (List.range n).foldl (fun v i => v.setIfInBounds i (f i)) v
/-- A free 512-bit value from eight free words. -/
def freeVWord (n : Nat) : VWord :=
  (List.range 8).foldl (fun v j => v ||| ((Config.freeWord (n + j)).zeroExtend 512 <<< (64 * j))) 0
/-- A free tag among those that a v register may hold (R41). -/
def freeTag (n : Nat) : Tag :=
  [Tag.raw, .i8, .i16, .i32, .i64, .n8, .n16, .n32, .f32, .bf16, .f16, .f8e4, .f8e5, .q8, .q4].getD (Config.freeNat n % 15) .raw
/-- The causes that ECAUSE can hold (R133, R375): none, or one that a trap of the work may have. -/
def timelineCauses : List (BitVec 8) :=
  [0, 0x01, 0x02, 0x03, 0x04, 0x05, 0x06, 0x07, 0x08, 0x09, 0x0A, 0x0B, 0x0C, 0x0D, 0x0E, 0x0F, 0x10, 0x11, 0x12, 0x13, 0x14, 0x15]
/-- The final statuses (R77). -/
def finalStatuses : List (BitVec 4) := [0, 1, 3, 4, 5, 6, 7]
/-- A free timeline with no operation in flight: ENUM names an operation that was issued, and is 0 while nothing is set (R133). -/
def freeTimeline (n : Nat) : Timeline :=
  let h := (Config.freeWord n).toNat
  let st := finalStatuses.getD (Config.freeNat (n + 2) % 7) 0
  let ca := timelineCauses.getD (Config.freeNat (n + 3) % 22) 0
  ⟨h, h, if st = 0 ∧ ca = 0 then 0 else (Config.freeWord (n + 1)).toNat % (h + 1), st, ca, [], []⟩
/-- The registers that no suspension keeps, free (R22): 1,024 free values from number n on. The timelines, EXPB and RCVB of a
context to which nothing has been bound since the launch are as the launch left them (R297). Log 5. -/
def Ctx.freeRegs (x : Ctx) (n : Nat) : Ctx :=
  { x with
    g := fillVec x.g fun i => if i = 0 then GReg.reset else ⟨Config.freeWord (n + i), Config.freeBool (n + 32 + i), Config.freeBool (n + 64 + i), [], false⟩
    v := fillVec x.v fun i => ⟨freeVWord (n + 128 + 8 * i), freeTag (n + 640 + i), Config.freeBool (n + 704 + i),
      Config.freeBool (n + 768 + i), [], false⟩
    k := fillVec x.k fun i => if i = 0 then 0 else Config.freeWord (n + 832 + i)
    t := fillVec x.t fun i => (Config.freeWord (n + 848 + i)).zeroExtend 128 ||| ((Config.freeWord (n + 856 + i)).zeroExtend 128 <<< 64)
    e := fillVec x.e fun i => Config.freeWord (n + 864 + i)
    tl := if x.fresh then x.tl else fillVec x.tl fun i => freeTimeline (n + 880 + 4 * i)
    ku := Vector.replicate 8 []
    eu := Vector.replicate 8 []
    tu := Vector.replicate 8 []
    drawn := (Config.freeWord (n + 896)).extractLsb' 0 48
    spl := ⟨(Config.freeWord (n + 897)).zeroExtend 128 ||| ((Config.freeWord (n + 898)).zeroExtend 128 <<< 64),
      Config.freeBool (n + 899), BitVec.ofNat 3 (1 + Config.freeNat (n + 900) % 7)⟩
    expb := if x.fresh then x.expb else Config.freeWord (n + 901)
    rcvb := if x.fresh then x.rcvb else Config.freeWord (n + 902)
    badRegs := []
    copyTime := 0
    clkTrap := false }

/-! ### Binding -/

/-- Fields of word 1 (R18). -/
def recQueue (w1 : Word) : Nat := bits w1 22 3
/-- CLASS of word 1. -/
def recClass (w1 : Word) : Nat := bits w1 25 3
/-- AFFC of word 1. -/
def recAffc (w1 : Word) : Nat := bits w1 18 2

/-- May a context take a record with word 1 w1, but for its own state (R30, R32)? -/
def State.fits (s : State) (c : CtxId) (w1 : Word) : Bool :=
  let n := (numOf c).val
  n ≠ 0 && (bits w1 21 1 = 0 || recAffc w1 = (coreOf c).val)
    && (!s.cl.par.twin || (if bits w1 17 1 = 1 then decide (n ≤ 7) else n = 8))
/-- May an IDLE context take a record (R30, R32)? A trailer has its leader's state (log 13). -/
def State.mayBind (s : State) (c : CtxId) (w1 : Word) : Bool := (s.getCtx c).st = .idle && s.fits c w1
/-- The lowest-numbered such context on the lowest-numbered such core. -/
def State.idleFor (s : State) (w1 : Word) : Option CtxId := allCtxs.find? fun c => s.mayBind c w1

/-- The logical core number of the core a context runs on (R39, R50). -/
def State.ownL (s : State) (c : CtxId) : BitVec 10 := BitVec.ofNat 10 (s.cl.par.lcluster.toNat * 4 + (coreOf c).val)

/-- Context c takes what record i holds, as a binding reads it (R19): PC, g1 to g6 full and unpoisoned, WAIT into the latch; its
other registers are free (R22, R27, R243). -/
def State.takeRecord (s : State) (c : CtxId) (i : Nat) : State :=
  let (n, s) := s.drawN 1024
  let w0 := s.recView i 0
  let full (w : Nat) : GReg := ⟨s.recView i w, true, false, [], false⟩
  s.updCtx c fun x =>
    let x := (x.clearWait).freeRegs n
    { x with
      g := (((((x.g.set 1 (full 2)).set 2 (full 3)).set 3 (full 4)).set 4 (full 5)).set 5 (full 6)).set 6 (full 7)
      pc := BitVec.ofNat 48 (bits w0 0 48 / 2 * 2)
      repidx := 0
      lcore := s.ownL c
      latch := BitVec.ofNat 4 (bits w0 56 4)
      latchPc := BitVec.ofNat 48 (bits w0 0 48 / 2 * 2)
      st := .ready
      stopReq := none
      susp := none
      retry := RetryLatch.reset
      atomicDone := false
      fresh := false
      lag := false }

/-- The chains of the ready queues that hold one of some lists' records no more (R18). -/
def State.rechain (s : State) (old : Vector (List QEnt) 8) : Nat → State
  | 0 => s
  | q + 1 =>
    let s := s.rechain old q
    if s.cl.queues[q]?.getD [] = old[q]?.getD [] then s else s.chain (s.cl.queues[q]?.getD [])

/-- A context bound to record i (R22, R27, R28, R30, R243): registers from the record, the others free; WAIT goes into the
latch; without twin mode TWIN is cleared in the record (R32). What it has done since its last suspension stays known where a reap
took it from a context (R34, R338). The record leaves its ready queue, whose chain skips it. -/
def State.bindCtx (s : State) (c : CtxId) (i : Nat) (woke : Bool) : State :=
  let w0 := s.recView i 0
  let w1 := if s.cl.par.twin then s.recView i 1 else setBits (s.recView i 1) 17 1 0
  let s := s.takeRecord c i
  let m0 := s.recWord i 0
  let did := mapGet (false, false) s.cl.marks i
  let s := s.putRec i 0 (setBits (setBits m0 60 4 2) 56 4 0)
  let s := if s.cl.par.twin then s else s.putRec i 1 (setBits (s.recWord i 1) 17 1 0)
  let q := s.cl.queues
  let s := s.updCl fun cl =>
    { cl with
      boundAt := cl.boundAt.filter (fun p => p.1 ≠ i) ++ [(i, s.mod.cycles)]
      recOld := cl.recOld.filter fun p => p.1 / 8 ≠ i
      noned := cl.noned.filter (· ≠ c)
      marks := mapSet (false, false) cl.marks i (false, false)
      ties := cl.ties.filter fun p => p.1 ≠ i
      queues := fillVec cl.queues fun q => (cl.queues[q]?.getD []).filter fun e => e.idx ≠ i }
  (s.updCtx c fun x =>
    { x with
      clk := max x.clk s.cl.cclk
      bound := some ⟨i, bits w0 55 1 = 1, Fin.ofNat 64 (bits w0 48 6), w1, woke⟩
      side := did.1
      atomicDone := did.2 }).rechain q 8

/-- A QUEUED record leaves its ready queue and is bound (R18, R30). -/
def State.bindQueued (s : State) (c : CtxId) (i : Nat) : State :=
  s.bindCtx c i ((s.cl.queues.toList.flatten.find? fun e => e.idx = i).any (·.woke))

/-! ### Queueing (R26, R334) -/

/-- A DISPATCH decision is due for a context: one waits at most, and a later offer is not needed any more (R341, R346). -/
def State.postDispatch (s : State) (c : CtxId) : State :=
  let s := (s.cancel (.dispatchReoffer c)).updCl fun cl => { cl with noned := cl.noned.filter (· ≠ c) }
  if s.agenda.contains (.dispatchDecision c) then s else s.post (.dispatchDecision c)

/-- Every QUEUED record, queue by queue, oldest first. -/
def State.queued (s : State) : List QEnt := s.cl.queues.toList.flatten

/-- A record has become QUEUED: the first IDLE context that may take it and has no decision waiting is offered it (R334), and so is
every one that a NONE outcome has left IDLE (R346). -/
def State.offerIdle (s : State) (i : Nat) : State :=
  let idle := allCtxs.filter fun c => s.mayBind c (s.recView i 1)
  let again := idle.filter fun c => s.cl.noned.contains c
  let first := (idle.find? fun c => !s.agenda.contains (.dispatchDecision c)).toList
  (first ++ again).foldl (fun s c => s.postDispatch c) s
/-- A PREEMPT decision is due for a QUEUED record that no IDLE context may take (R334). -/
def State.offerPreempt (s : State) (i : Nat) : State :=
  let w1 := s.recView i 1
  if (s.idleFor w1).isNone && decide (s.cl.par.preemptMin ≤ recClass w1) && s.cl.preempting.isEmpty then s.post (.preemptDecision i)
  else s
/-- A record becomes QUEUED at the tail of its queue, with the decisions that follow (R334). -/
def State.makeQueued (s : State) (i : Nat) (woke : Bool) : State := ((s.enqueue i woke).offerIdle i).offerPreempt i

/-- A context becomes IDLE; a DISPATCH decision follows where it may take a QUEUED record (R15, R30, R334). A stop that was
pending lapses. -/
def State.toIdle (s : State) (c : CtxId) : State :=
  let s := s.updCtx c fun x => { x.clearWait with st := .idle, bound := none, stopReq := none, susp := none, latch := 0 }
  let s := s.updCl fun cl => { cl with preempting := cl.preempting.filter (· ≠ c) }
  if s.queued.any fun e => s.mayBind c (s.recView e.idx 1) then s.postDispatch c else s

/-! ### Creation (R24 to R28) -/

/-- The lowest-numbered FREE record from index i on. -/
def State.freeFrom (s : State) (i : Nat) : Nat → Option Nat
  | 0 => none
  | n + 1 => if s.recState i = 0 then some i else s.freeFrom (i + 1) n
/-- The lowest-numbered FREE record of the pool (R26). -/
def State.freeRecord (s : State) : Option Nat := s.freeFrom 0 s.cl.par.contMax

/-- Word 0 of a created record (R18). -/
def newWord0 (m : AMsg) : Word :=
  BitVec.ofNat 64 (2 ^ 60 + (if m.prot then 2 ^ 55 else 0) + m.ptag.val * 2 ^ 48 + m.pc.toNat)
/-- Word 1 of a created record with AFFV, AFFS from ANY (R18, R24). -/
def newWord1 (m : AMsg) : Word :=
  BitVec.ofNat 64 (m.gids.toNat * 2 ^ 32 + m.gval.toNat * 2 ^ 28 + m.cls.val * 2 ^ 25 + m.queue.val * 2 ^ 22
    + (if m.any then 0 else 2 ^ 21 + 2 ^ 20) + m.core.val * 2 ^ 18 + (if m.twin then 2 ^ 17 else 0) + 0xFFFF)

/-- A creation that reaches the cluster (R26). Answers the record's index, or none where the pool has no FREE record. The
record of a revoked participant is written and freed at once (R25, R403). -/
def State.create (s : State) (m : AMsg) : Option Nat × State :=
  match s.freeRecord with
  | none => (none, s)
  | some i =>
    let w1 := newWord1 m
    let s := ((((s.putRec i 0 (newWord0 m)).putRec i 1 w1).putRec i 2 m.arg0).putRec i 3 m.arg1)
    let s := (((s.putRec i 4 0).putRec i 5 0).putRec i 6 0).putRec i 7 0
    let s := s.updCl fun c =>
      { c with
        recOld := c.recOld.filter fun p => p.1 / 8 ≠ i
        marks := mapSet (false, false) c.marks i (false, false)
        ties := c.ties.filter fun p => p.1 ≠ i }
    if s.cl.revoked.contains m.ptag.val then (some i, s.setRecState i 0)
    else match s.idleFor w1 with
      | some c => (some i, s.bindCtx c i false)
      | none => (some i, s.makeQueued i false)

/-- CCLK rises to a clock (R28). -/
def State.raiseCclk (s : State) (t : Nat) : State := s.updCl fun c => { c with cclk := max c.cclk t }

/-! ### Suspension and the end (R23, R29) -/

/-- What the next binding reads of word w of a record as it was before a store of software, where hardware has written the fields
that f writes since; nothing where the hardware has written the whole word (R19, R23). -/
def recOldAfter (i : Nat) (f : Word → Word) (l : List (Nat × Word)) : List (Nat × Word) :=
  l.filterMap fun p => if p.1 / 8 ≠ i then some p else if p.1 % 8 = 0 then some (p.1, f p.2) else if p.1 % 8 = 1 then some p else none
/-- The record write of a suspension (R23). -/
def State.saveRecord (s : State) (c : CtxId) (b : Bound) (pc : BitVec 48) (wait : BitVec 4) : State :=
  let x := s.getCtx c
  let clk := max x.clk (s.opsTime c)
  let s := s.updCtx c fun x => { x with clk := clk }
  let s := (((s.putRec b.idx 2 x.g[1].val).putRec b.idx 3 x.g[2].val).putRec b.idx 4 x.g[3].val).putRec b.idx 5 x.g[4].val
  let s := (s.putRec b.idx 6 x.g[5].val).putRec b.idx 7 x.g[6].val
  let f (w : Word) : Word := setBits (setBits (setBits w 0 48 pc.toNat) 56 4 wait.toNat) 60 4 3
  let s := s.updCl fun cl => { cl with recOld := recOldAfter b.idx f cl.recOld }
  (s.putRec b.idx 0 (f (s.recWord b.idx 0))).raiseCclk clk

/-- The condition of a waiting form is met (R248, R262). -/
def State.formMet (s : State) (c : CtxId) : Bool :=
  let x := s.getCtx c
  match x.wait with
  | some (.group idx n) => s.groupMet idx n
  | some (.watch tag _) => x.replies.any fun r =>
      match r with
      | .fire u _ _ _ => u = tag
      | .refused u => u = tag
      | .status u _ => u = tag
      | _ => false
  | _ => false

/-- What the record of a context waits for once it is SUSPENDED (R20, R250, R262). -/
def suspEvent (x : Ctx) (idx : Nat) : List SuspEvent :=
  match x.wait with
  | some (.watch tag d) => [.watch idx tag d.val]
  | some (.group grp n) => [.group idx grp n]
  | _ => []

/-- A suspension that has begun completes, once every operation of the context has (R15, R23). A waiting form whose
condition has been met meanwhile completes in place instead. A damaged register among g1 to g6 is a machine check (R376). -/
def State.suspendRecord (s : State) (c : CtxId) : State :=
  let x := s.getCtx c
  match x.susp, x.bound with
  | some p, some b =>
    if !s.opsDone c then s
    else if !s.formMet c && ((List.range 6).any fun r => x.g[r + 1]?.any (·.bad)) then s.trapAt c 0x1F 0 0 0 .none
    else match p with
      | .yield pc => ((((s.saveRecord c b pc 0).enqueue b.idx false).offerIdle b.idx).toIdle c).offerPreempt b.idx
      | .park pc => (s.saveRecord c b pc 4).toIdle c
      | .waiting w =>
        if s.formMet c then s.updCtx c fun x => { x with susp := none }
        else
          ((s.saveRecord c b x.pc w).updCl fun cl => { cl with suspended := cl.suspended ++ suspEvent x b.idx }).toIdle c
  | _, _ => s

/-- WAIT of a record written, also in what a store of software may have left for the next binding to read (R19, R23). -/
def State.setWait (s : State) (i w : Nat) : State :=
  let f (x : Word) : Word := setBits x 56 4 w
  (s.putRec i 0 (f (s.recWord i 0))).updCl fun c => { c with recOld := c.recOld.map fun p => if p.1 = 8 * i then (p.1, f p.2) else p }
/-- A suspended record whose event has come becomes QUEUED (R23, R250); `wait` is what WAIT becomes, `woke` what the window shows
(R338). -/
def State.wakeRecord (s : State) (i : Nat) (wait : Option Nat) (woke : Bool) : State :=
  let s := s.updCl fun c => { c with suspended := c.suspended.filter fun e =>
    match e with
    | .watch j _ _ => j ≠ i
    | .group j _ _ => j ≠ i }
  let s := match wait with
    | none => s
    | some w => s.setWait i w
  if s.recState i = 3 then s.makeQueued i woke else s

/-- A record becomes FREE; what it waits for is forgotten, and its watches are withdrawn (R29, R403). -/
def State.freeRec (s : State) (i : Nat) : State :=
  let tags := s.cl.suspended.filterMap fun e =>
    match e with
    | .watch j tag _ => if j = i then some tag else none
    | .group _ _ _ => none
  let out := s.cl.watchOut.filter fun w => tags.contains w.1
  let s := s.updCl fun c =>
    { c with
      suspended := c.suspended.filter fun e =>
        match e with
        | .watch j _ _ => j ≠ i
        | .group j _ _ => j ≠ i
      watchOut := c.watchOut.filter fun w => !tags.contains w.1
      boundAt := c.boundAt.filter fun p => p.1 ≠ i
      recOld := c.recOld.filter fun p => p.1 / 8 ≠ i
      marks := mapSet (false, false) c.marks i (false, false)
      ties := c.ties.filter fun p => p.1 ≠ i }
  let s := out.foldl (fun s w => s.send w.2 0 (.withdraw w.1)) s
  let q := s.cl.queues
  ((s.setRecState i 0).updCl fun c =>
    { c with queues := fillVec c.queues fun q => (c.queues[q]?.getD []).filter fun e => e.idx ≠ i }).rechain q 8

/-- As `suspendRecord`; the record of a participant that has been revoked is freed (R403). -/
def State.suspend (s : State) (c : CtxId) : State :=
  let b := (s.getCtx c).bound
  let s := s.suspendRecord c
  match b with
  | some b =>
    if s.cl.revoked.contains b.ptag.val && (s.getCtx c).st = .idle then s.freeRec b.idx else s
  | none => s

/-! ### Fatal faults under way (R380) -/

/-- A fatal fault that an event handles: its context, its record, whether the owner port wrote it. -/
def fatalOf : Instr → Option (CtxId × TrapRec × Bool)
  | .fatalFault c r port => some (c, r, port)
  | _ => none
/-- The fatal faults whose handling has not ended (R380). -/
def State.fatals (s : State) : List (CtxId × TrapRec × Bool) :=
  s.turns.filterMap (fun t => match t with | .event i => fatalOf i | _ => none) ++ s.agenda.filterMap fatalOf
/-- A fatal fault of context c itself is under way (R380). -/
def State.isDying (s : State) (c : CtxId) : Bool := s.fatals.any fun f => f.1 = c && !f.2.2
/-- The fatal faults of context c are handled no further (R403). -/
def State.dropFatal (s : State) (c : CtxId) : State :=
  let other (i : Instr) : Bool := (fatalOf i).all fun f => f.1 ≠ c || f.2.2
  { s with
    agenda := s.agenda.filter other
    turns := s.turns.filter fun t => match t with | .event i => other i | _ => true }

end Sys2Proof.Machine
end

