-- ==== Sys2Proof/Machine/Sync.lean ====
section
/-!
DEFINITION. Sys2Proof/Machine/Sync.lean: watches as a context sees them (R247 to R250), `seq.adv` (R251), `yield`, `park`,
`exit`, `pfence` (R252), timelines (R259, R260), extension registers (R268), F/E waiters (R209), illegal encodings and fetch faults.
-/
namespace Sys2Proof.Machine

/-! ### The end and the abandoning of a wait -/

/-- The move is over for the context although its instruction goes on. -/
def State.ended (s : State) : State := { s with rep := none, target := none, taint := [] }

/-- A stop, save or reap abandons the wait of context c (R190, R245): its watch is withdrawn, an arrival that counted stays
counted as if the `gsync` had suspended. -/
def State.abandonWait (s : State) (c : CtxId) : State :=
  let x := s.getCtx c
  let tags := x.sent.map (·.1)
  let out := s.cl.watchOut.filter fun w => tags.contains w.1
  let s := out.foldl (fun s w => s.send w.2 0 (.withdraw w.1)) s
  let s := s.updCl fun cl => { cl with watchOut := cl.watchOut.filter fun w => !tags.contains w.1 }
  let s := ((s.cancel (.holdWindowEnd c)).cancel (.gwaitLimitExpiry c)).cancel (.walkMigTimeout c)
  let s := s.cancel (.walkMigRetry c)
  s.updCtx c fun x =>
    { x.clearWait with latch := if x.arrived.isSome then 3 else x.latch, latchPc := if x.arrived.isSome then x.pc else x.latchPc }

/-- The waiting form's hold window begins; context 0 has none (R21, R244). -/
def State.startHold (s : State) : State := if s.sup then s else s.post (.holdWindowEnd s.cur)

/-- HOLD_WINDOW_END, R21, R23: a waiting form whose condition is unmet begins to suspend. -/
def execHoldWindowEnd (c : CtxId) (s : State) : Out :=
  .next (
    let x := s.getCtx c
    let reason : Option (BitVec 4) :=
      match x.wait with
      | some (.watch _ _) => some 1
      | some (.group _ _) => some (if x.arrived.isSome then 3 else 2)
      | _ => none
    match reason with
    | none => s
    | some r =>
      if x.st ≠ .blocked || x.susp.isSome || s.formMet c || x.bound.isNone then s
      else
        let s := s.updCtx c fun x => { x with susp := some (.waiting r) }
        if s.opsDone c then s.post (.suspension c) else s)

/-- SUSPENSION, R23. -/
def execSuspension (c : CtxId) (s : State) : Out := .next (s.suspend c)

/-! ### Watches -/

/-- The reply to the watch with a tag, if it has come. -/
def Ctx.watchReply (x : Ctx) (tag : Nat) : Option Reply :=
  x.replies.find? fun r =>
    match r with
    | .fire u _ _ _ => u = tag
    | .expired u => u = tag
    | .refused u => u = tag
    | .status u _ => u = tag
    | _ => false

/-- The watch instruction ends: its hold window is over. -/
def State.endWatch (s : State) : State := (s.cancel (.holdWindowEnd s.cur)).finish 4

/-- The core of `watch` and `watch.t` after the sources are read (R248). -/
def State.watchOn (s : State) (d : GNum) (A B : Word) (limit : Option Nat) : State :=
  let owner := resolve s.me A
  let o := offOf A
  if A.toNat % 8 ≠ 0 then s.trapEa 0x07 A
  else if !inSpad o 8 then s.trapEa 0x08 A
  else if owner ≠ s.me && !s.cl.members.contains owner then s.trapEa 0x09 A
  else match s.ctx.sent.head? with
    | none =>
      let (tag, s) := s.newTag
      let w : WatchReq := ⟨s.me, some s.cur, none, tag, o, B, s.ctx.clk, limit, s.cl.part.getD 0, s.sup⟩
      let s := s.updCl fun c => { c with watchOut := c.watchOut ++ [(tag, owner)] }
      let s := (s.send owner 0 (.watch w)).upd fun x => { x with sent := [(tag, 0)] }
      let s := if limit.isNone then s.startHold else s
      s.block (.watch tag d)
    | some (tag, _) =>
      match s.ctx.watchReply tag with
      | some (.fire _ v tf skid) => (({ s with taint := skid.toList }.setG d v).raiseClk tf).endWatch
      | some (.expired _) => (s.setG d 0).endWatch
      | some (.refused _) => (s.cancel (.holdWindowEnd s.cur)).trap 0x13
      | some (.status _ st) => (s.poisonG d st).endWatch
      | _ => s.block (.watch tag d)

/-- R247, R248, R250: with latch 1 the instruction completes with no access. -/
def execWatch (d a b : GNum) (fa fb : Bool) (s : State) : Out :=
  .next (
    if s.ctx.latch = 1 then s.finish 4
    else s.srcG fa a fun A s => s.srcG fb b fun B s => s.checked fun s => s.watchOn d A B none)
/-- R247 to R249: `watch.t`, with the limit e[N][31:0]. -/
def execWatchT (d a b : GNum) (fa fb : Bool) (e : ENum) (s : State) : Out :=
  .next (s.srcG fa a fun A s => s.srcG fb b fun B s => s.checked fun s =>
    (s.touch (3 * e.val + 2)).watchOn d A B (some (s.ctx.e[e].toNat % 2 ^ 32)))

/-- Who a watch tag belongs to. -/
inductive WatchFor where
  | ctx (c : CtxId)
  | record (idx reg : Nat)
  | round (grp : Nat)
  deriving DecidableEq, Repr

/-- The watcher of a tag of this cluster. -/
def State.watcher (s : State) (tag : Nat) : Option WatchFor :=
  match allCtxs.find? fun c => match (s.getCtx c).wait with | some (.watch t _) => t = tag | _ => false with
  | some c => some (.ctx c)
  | none =>
    match s.cl.suspended.findSome? fun e =>
        match e with
        | .watch i t r => if t = tag then some (i, r) else none
        | .group _ _ _ => none with
    | some (i, r) => some (.record i r)
    | none => (s.cl.groups.find? fun g => g.2.rtag = some tag).map fun g => .round g.1

/-- A reply to a watch reaches the cluster: it is for no one any more after a withdrawal (R245), for a BLOCKED context, for a
SUSPENDED record, or for a round. -/
def State.watchReplied (s : State) (tag : Nat) (r : Reply) (krec : Nat → Nat → State → State) (kround : Nat → State → State) : State :=
  let w := s.watcher tag
  let out := s.cl.watchOut.any fun p => p.1 = tag
  let s := s.updCl fun c => { c with watchOut := c.watchOut.filter fun p => p.1 ≠ tag }
  if !out then s
  else match w with
    | none => s
    | some (.ctx c) => s.updCtx c fun x => { x with replies := x.replies ++ [r] }
    | some (.record i reg) => krec i reg s
    | some (.round g) => kround g s

/-- A group of this cluster changed. -/
def State.updGroup (s : State) (idx : Nat) (f : Group → Group) : State :=
  s.updCl fun c => { c with groups := c.groups.map fun g => if g.1 = idx then (g.1, f g.2) else g }

/-- WATCH_FIRE_RECEIPT, R102, R103, R250: the value goes to the BLOCKED context, or into the suspended record's word, which
becomes QUEUED with CCLK raised; a round goes on. A memory word takes no value that is not checked yet (R153). -/
def execWatchFireReceipt (tag : Nat) (value : Word) (tf : Nat) (skid : Option Nat) (s : State) : Out :=
  .next (
    let early := match s.watcher tag with | some (.record _ _) | some (.round _) => skid.isSome | _ => false
    if early then s.post (.watchFireReceipt tag value tf skid)
    else s.watchReplied tag (.fire tag value tf skid)
    (fun i reg s => ((s.putRec i (reg + 1) value).raiseCclk tf).wakeRecord i none true)
    (fun g s => (s.updGroup g fun x => { x with rtag := none }).post (.roundComplete g tf)))
/-- WATCH_EXPIRED_RECEIPT, R249. Only a BLOCKED context waits for a timed watch. -/
def execWatchExpiredReceipt (tag : Nat) (s : State) : Out :=
  .next (s.watchReplied tag (.expired tag) (fun _ _ s => s) (fun _ s => s))
/-- The record's watch registers afresh: WAIT 0, QUEUED (R250). -/
def State.rewatch (s : State) (i : Nat) : State := s.wakeRecord i (some 0) false
/-- A round watch is sent again later (R88). -/
def State.retryRound (s : State) (g : Nat) : State := (s.updGroup g fun x => { x with rtag := none }).post (.roundWatchRetry g)
/-- WATCH_REFUSED_RECEIPT, R88: trap 0x13 in the watching context; a suspended watch is treated as answered by a status (log
20); a round watch is sent again. -/
def execWatchRefusedReceipt (tag : Nat) (s : State) : Out :=
  .next (s.watchReplied tag (.refused tag) (fun i _ s => s.rewatch i) (fun g s => s.retryRound g))
/-- WATCH_STATUS_RECEIPT, R88, R248, R250. -/
def execWatchStatusReceipt (tag : Nat) (st : BitVec 4) (s : State) : Out :=
  .next (s.watchReplied tag (.status tag st) (fun i _ s => s.rewatch i) (fun g s => s.retryRound g))

/-! ### Publishing (R251) -/

/-- R104, R251: waits for earlier engine operations, then writes max(old, B) as one LocalReadWrite. -/
def execSeqAdv (d a b : GNum) (fa fb : Bool) (s : State) : Out :=
  .next (s.srcG fa a fun A s => s.srcG fb b fun B s => s.checked fun s =>
    if !ownForm s.me A then s.trapEa 0x08 A
    else if A.toNat % 8 ≠ 0 then s.trapEa 0x07 A
    else
      let o := offOf A
      if !inSpad o 8 then s.trapEa 0x08 A
      else match s.access s.agent s.sup .wr o 8 with
        | (.ok key, s) =>
          if !s.opsDone s.cur then s.block .allOps
          else
            (s.raiseClk (s.opsTime s.cur)).readWrite o key 8 (fun old => max old B.toNat) fun old s =>
              s.markAtomic.putG 4 d (BitVec.ofNat 64 old)
        | (f, s) => s.failAcc f A)

/-! ### `yield`, `park`, `exit`, `pfence` (R252) -/

/-- The context begins to suspend; the record is written once its operations have completed (R23). -/
def State.beginSuspend (s : State) (p : Susp) : State :=
  let s := s.upd fun x => { x with st := .blocked, wait := some .allOps, susp := some p }
  (if s.opsDone s.cur then s.post (.suspension s.cur) else s).ended

/-- `yield`: in context 0 it only advances the PC (R244). -/
def yieldForm (len : Nat) (s : State) : Out :=
  .next (if s.sup then s.finish len else s.checked fun s => s.beginSuspend (.yield (s.ctx.pc + BitVec.ofNat 48 len)))
/-- R252. -/
def execYield (s : State) : Out := yieldForm 4 s
/-- R160, R252. -/
def execCYield (s : State) : Out := yieldForm 2 s
/-- `park`: trap 0x01 in context 0 (R244). -/
def parkForm (len : Nat) (s : State) : Out :=
  .next (if s.sup then s.trap 0x01 else s.checked fun s => s.beginSuspend (.park (s.ctx.pc + BitVec.ofNat 48 len)))
/-- R252. -/
def execPark (s : State) : Out := parkForm 4 s
/-- R160, R252. -/
def execCPark (s : State) : Out := parkForm 2 s

/-- `exit` (R28, R29, R244): waits for the timelines, frees the record, leaves the context IDLE. -/
def exitForm (s : State) : Out :=
  .next (
    if s.sup then s.trap 0x01
    else if !s.opsDone s.cur then s.block .allOps
    else
      let s := s.raiseClk (s.opsTime s.cur)
      let s := s.raiseCclk s.ctx.clk
      let s := match s.ctx.bound with | none => s | some b => s.freeRec b.idx
      (s.toIdle s.cur).ended)
/-- R29, R252. -/
def execExit (s : State) : Out := exitForm s
/-- R29, R160. -/
def execCExit (s : State) : Out := exitForm s

/-- `pfence` (R114, R132, R252): both counts become 0 in every case. -/
def pfenceForm (len : Nat) (s : State) : Out :=
  .next (
    if !s.copyDone s.cur then s.block .copyOps
    else
      let s := s.raiseClk s.ctx.copyTime
      let x := s.ctx
      let s := s.upd fun x => { x with expb := 0, rcvb := 0 }
      if x.clkTrap then (s.upd fun x => { x with clkTrap := false }).trap 0x1F
      else if x.expb ≠ x.rcvb then s.trapAux 0x11 0 x.expb x.rcvb
      else s.finish len)
/-- R252. -/
def execPfence (s : State) : Out := pfenceForm 4 s
/-- R160, R252. -/
def execCPfence (s : State) : Out := pfenceForm 2 s

/-! ### Timelines (R259, R260) -/

/-- A wait or test for n is satisfied: CLK takes the time, then trap 0x1F, which R114 gives to a `tlwait`, and the trap rule of
R133. -/
def State.tlTake (s : State) (waits : Bool) (tl : TLNum) (n : Nat) (k : State → State) : State :=
  let t := s.ctx.tl[tl]
  let s := s.raiseClk (t.timeAt n)
  if waits && s.ctx.clkTrap then (s.upd fun x => { x with clkTrap := false }).trap 0x1F
  else if t.ecause ≠ 0 && decide (t.enum ≤ n) then
    (s.upd fun x => x.updTl tl fun t => { t with ecause := 0 }).trapAux t.ecause 0 0 (BitVec.ofNat 64 t.enum)
  else k s

/-- R259: waits in place until VAL ≥ n. -/
def execTlwait (d : GNum) (tl : TLNum) (s : State) : Out :=
  .next (s.srcG false d fun n s =>
    if s.ctx.tl[tl].high < n.toNat then s.trap 0x14
    else if s.ctx.tl[tl].val < n.toNat then s.block (.timeline tl n.toNat)
    else s.tlTake true tl n.toNat fun s => s.finish 4)
/-- R259: g[d] := 1 when VAL ≥ n, else 0. -/
def execTltest (d : GNum) (tl : TLNum) (s : State) : Out :=
  .next (s.srcG false d fun n s =>
    if s.ctx.tl[tl].high < n.toNat then s.trap 0x14
    else if s.ctx.tl[tl].val < n.toNat then s.putG 4 d 0
    else s.tlTake false tl n.toNat fun s => s.putG 4 d 1)
/-- R259: g[d] := VAL. -/
def execTlrd (d : GNum) (tl : TLNum) (s : State) : Out := .next (s.putG 4 d (BitVec.ofNat 64 s.ctx.tl[tl].val))
/-- R259: g[d] := HIGH. -/
def execTlhigh (d : GNum) (tl : TLNum) (s : State) : Out := .next (s.putG 4 d (BitVec.ofNat 64 s.ctx.tl[tl].high))
/-- The error word of R260. -/
def Timeline.errWord (t : Timeline) : Word :=
  BitVec.ofNat 64 (t.estat.toNat * 2 ^ 60 + t.ecause.toNat * 2 ^ 52 + t.enum % 2 ^ 52)
/-- R259, R260: g[d] := the error word; ESTAT and, while ECAUSE is 0, ENUM are cleared. -/
def execTlerr (d : GNum) (tl : TLNum) (s : State) : Out :=
  let t := s.ctx.tl[tl]
  .next ((s.upd fun x => x.updTl tl fun t => { t with estat := 0, enum := if t.ecause = 0 then 0 else t.enum }).putG 4 d t.errWord)

/-! ### Extension registers (R268) -/

/-- R268: g[d] := e[N]. -/
def execErd (d : GNum) (e : ENum) (s : State) : Out := .next ((s.taintE e).putG 4 d s.ctx.e[e])
/-- R268: e[N] := g[d]. -/
def execEwr (d : GNum) (e : ENum) (s : State) : Out :=
  .next (s.srcG false d fun v s => (s.upd fun x => { x.mend (3 * e.val + 2) with e := x.e.set e v, eu := x.eu.set e s.taint }).finish 4)

/-! ### F/E waiters (R209) -/

/-- The waiter of a word that the round robin reaches first from context `start` on, among those that wait for its state. A trailer
waits as its leader does, and goes with it (R189, log 13). -/
def State.nextWaiter (s : State) (word start : Nat) : Option CtxId :=
  ((List.range 64).map fun i => (Fin.ofNat 64 (start + i) : CtxId)).find? fun c =>
    (s.getCtx c).st = .blocked && !s.isTrailer c && (s.getCtx c).wait = some (.feWord word (s.isFull word))

/-- FE_WAITER_OFFER, R209: the word's state is offered in round-robin order after the waiter served last, to one waiter after the
other as long as one waits for it. Where the round begins before any has been served is free. -/
def execFeWaiterOffer (word : Nat) (s : State) : Out :=
  .next (
    let (start, s) :=
      match s.cl.feLast.find? fun p => p.1 = word with
      | some p => (p.2 + 1, s)
      | none => let (n, s) := s.draw; (Config.freeNat n % 64, s)
    match s.nextWaiter word start with
    | none => s
    | some c =>
      let s := s.updCl fun cl => { cl with feLast := (word, c.val) :: cl.feLast.filter fun p => p.1 ≠ word }
      (s.urge (.event (.feWaiterOffer word))).urge (.resume c))

/-! ### Fetching fails -/

/-- ILLEGAL_ENCODING, R159, R176: trap 0x01. -/
def execIllegalEncoding (_w : BitVec 32) (s : State) : Out := .next (s.trap 0x01)

/-- FETCH_FAULT, R156, R353: the cause with the address of the parcel. A non-resident page begins its recall (R366). -/
def execFetchFault (cause : BitVec 8) (addr : Word) (s : State) : Out :=
  .next (
    if cause = 0x0C then s.trapNonRes addr ((addr.toNat - hbmLo) / 2 ^ 16)
    else if cause = 0x18 then s.trap 0x18
    else s.trapEa cause addr)

end Sys2Proof.Machine
end

