-- ==== Sys2Proof/Machine/Groups.lean ====
section
/-!
DEFINITION. Sys2Proof/Machine/Groups.lean: groups (R35 to R38, R111, R261, R262), and creating and waking work (R24 to R28, R263 to
R266, R333).
-/
namespace Sys2Proof.Machine

/-! ### The group table -/

/-- The continuation names group idx in its GVAL and GID fields (R36). Context 0 names none (R244). -/
def Ctx.holdsGroup (x : Ctx) (idx : Nat) : Bool :=
  match x.bound with
  | none => false
  | some b => (List.range 4).any fun i => bits b.word1 (28 + i) 1 = 1 && bits b.word1 (32 + 8 * i) 8 = idx
/-- STATE of an entry: 0 where the cluster holds none (R35). -/
def State.groupState (s : State) (idx : Nat) : Nat := ((s.group? idx).map fun g => g.st.toNat).getD 0
/-- The check of membership (R36): trap 0x09. No address is at fault: that its AUX is 0 is the model's choice (log 114). -/
def State.withGroup (s : State) (idx : Nat) (k : Group → State → State) : State :=
  match s.group? idx with
  | none => s.trap 0x09
  | some g => if !s.ctx.holdsGroup idx || g.st = 0 then s.trap 0x09 else k g s

/-- ROUNDS of an entry (R37). -/
def Group.rounds (g : Group) : Nat := if g.scope = 0 ∨ g.ncl ≤ 1 then 0 else (g.ncl - 1).log2 + 1
/-- Entry j of a member list (R35). -/
def State.memberAt (s : State) (g : Group) (j : Nat) : ClusterId := ofCoords (s.num (g.mlist + 2 * j) 2 % 2 ^ 15)
/-- The members of an entry. -/
def State.membersOf (s : State) (g : Group) : List ClusterId := (List.range g.ncl).map (s.memberAt g)

/-- Suspended records whose wait on a group is over become QUEUED (R23, R262). -/
def State.wakeGroup (s : State) (idx : Nat) (woke : Bool) : State :=
  (s.cl.suspended.filterMap fun e =>
    match e with
    | .group i g n => if g = idx && s.groupMet g n then some i else none
    | .watch _ _ _ => none).foldl (fun s i => s.wakeRecord i none woke) s

/-- PHASE advances and carries a time (R37, R111). -/
def State.advancePhase (s : State) (idx time : Nat) : State :=
  (s.updGroup idx fun g => { g with phase := g.phase + 1, partDone := false, round := 0, rtag := none, arrT := 0, phaseT := time }).wakeGroup idx true

/-- The watch of the round under way is sent to its member (R37). The clock it carries is the time of the round word's write: the
rules give the NI none (DESIGN CHOICE, log 79). -/
def State.sendRound (s : State) (idx : Nat) : State :=
  match s.group? idx with
  | none => s
  | some g =>
    let m := s.memberAt g ((g.myidx + g.ncl - 2 ^ g.round % g.ncl) % g.ncl)
    let thr := g.phase * g.rounds + g.round + 1
    let (tag, s) := s.newTag
    let w : WatchReq := ⟨s.me, none, some idx, tag, g.rword, BitVec.ofNat 64 thr, g.roundT, none, s.cl.part.getD 0, true⟩
    let s := s.updCl fun c => { c with watchOut := c.watchOut ++ [(tag, m)] }
    (s.updGroup idx fun g => { g with rtag := some tag }).send m 0 (.watch w)

/-- A round begins with clock c: the round word rises as by `seq.adv`, then the member is watched (R37, R111). Beyond the
clock limit the write is not performed (R114). -/
def State.startRound (s : State) (idx c : Nat) : State :=
  match s.group? idx with
  | none => s
  | some g =>
    let o := g.rword
    let t := s.writeTime (granule o) c
    if clockLimit ≤ t then s
    else
      let v := max (s.num o 8) (g.phase * g.rounds + g.round + 1)
      let s := (s.stampWrite (granule o) t).writeOwn o o (toLe 8 v) t
      (s.updGroup idx fun g => { g with roundT := t }).sendRound idx

/-- The cluster's part of the phase is done (R36, R37): the rounds run, or PHASE advances at once. -/
def State.partDone (s : State) (idx : Nat) : State :=
  match s.group? idx with
  | none => s
  | some g =>
    let s := s.updGroup idx fun g => { g with lcount := 0, partDone := true, round := 0 }
    if g.rounds = 0 then s.advancePhase idx g.arrT else s.startRound idx g.arrT

/-- Arrive() of R262; `k` gets the phase arrived in. -/
def State.arrive (s : State) (idx : Nat) (k : Nat → State → State) : State :=
  s.withGroup idx fun g s =>
    if g.st = 2 then s.trap 0x10
    else if g.partDone then s.trap 0x0F
    else
      let t := s.ctx.clk + 1
      if clockLimit ≤ t then s.trap 0x1F
      else
        let s := (s.setClk t).markAtomic
        let s := s.updGroup idx fun g => { g with lcount := g.lcount + 1, arrT := max g.arrT t }
        let s := if g.lcount + 1 = g.lexp then s.partDone idx else s
        k g.phase s

/-- The wait on a group is over: its limit and its hold window are (R262). -/
def State.endGroup (s : State) (d : GNum) (v : Word) : State :=
  ((s.cancel (.holdWindowEnd s.cur)).cancel (.gwaitLimitExpiry s.cur)).putG 4 d v

/-- Wait(n) of R262. `again` says that the instruction has waited already: then PHASE decides before BROKEN. -/
def State.groupWait (s : State) (idx n : Nat) (d : GNum) (timed again : Bool) : State :=
  s.withGroup idx fun g s =>
    if g.st = 2 && !(again && decide (n < g.phase)) then s.endGroup d 2
    else if n < g.phase then (s.raiseClk g.phaseT).endGroup d 0
    else if s.ctx.limitHit then s.endGroup d 1
    else
      let s := if again then s else if timed then s.post (.gwaitLimitExpiry s.cur) else s.startHold
      (s.upd fun x => { x with begun := true }).block (.group idx n)

/-- R262: arrives; g[d] := the phase arrived in. -/
def execGarrive (d : GNum) (idx : BitVec 8) (s : State) : Out :=
  .next (s.checked fun s => s.arrive idx.toNat fun n s => s.putG 4 d (BitVec.ofNat 64 n))
/-- R262: waits on phase g[d]. -/
def execGwait (d : GNum) (idx : BitVec 8) (s : State) : Out :=
  .next (s.srcG false d fun n s => s.checked fun s => s.groupWait idx.toNat n.toNat d false s.ctx.begun)
/-- R262: as `gwait` with a limit of e[N][31:0] cycles; it never suspends. -/
def execGwaitT (d : GNum) (e : ENum) (idx : BitVec 8) (s : State) : Out :=
  .next (s.srcG false d fun n s => (s.touch (3 * e.val + 2)).groupWait idx.toNat n.toNat d true s.ctx.begun)
/-- R262: arrives, keeps the phase in g[d], waits on it. With latch 3, or once it has arrived in this attempt, it only waits
(R243, R245). -/
def execGsync (d : GNum) (idx : BitVec 8) (s : State) : Out :=
  .next (s.checked fun s =>
    if s.ctx.latch = 3 then
      s.srcG false d fun n s =>
        (s.upd fun x => { x with arrived := some n.toNat }).groupWait idx.toNat n.toNat d false s.ctx.begun
    else match s.ctx.arrived with
      | some n => s.groupWait idx.toNat n d false s.ctx.begun
      | none => s.arrive idx.toNat fun n s =>
          ((s.setG d (BitVec.ofNat 64 n)).upd fun x => { x with arrived := some n }).groupWait idx.toNat n d false false)
/-- R262: g[d] := cat(STATE, PHASE[61:0]). -/
def execGquery (d : GNum) (idx : BitVec 8) (s : State) : Out :=
  .next (s.withGroup idx.toNat fun g s => s.putG 4 d (BitVec.ofNat 64 (g.st.toNat * 2 ^ 62 + g.phase % 2 ^ 62)))

/-- GWAIT_LIMIT_EXPIRY, R38, R262. -/
def execGwaitLimitExpiry (c : CtxId) (s : State) : Out :=
  .next (match (s.getCtx c).wait with
    | some (.group _ _) => s.updCtx c fun x => { x with limitHit := true }
    | _ => s)

/-- ROUND_COMPLETE, R37: the next round, or PHASE advances after the last. -/
def execRoundComplete (grp tf : Nat) (s : State) : Out :=
  .next (match s.group? grp with
    | none => s
    | some g =>
      if g.st ≠ 1 || !g.partDone || g.rtag.isSome then s
      else if g.round + 1 < g.rounds then (s.updGroup grp fun g => { g with round := g.round + 1 }).startRound grp tf
      else s.advancePhase grp tf)

/-- ROUND_WATCH_RETRY, R88: the round watch is sent again while the group is OPEN. -/
def execRoundWatchRetry (grp : Nat) (s : State) : Out :=
  .next (match s.group? grp with
    | none => s
    | some g => if g.st ≠ 1 || !g.partDone || g.rtag.isSome then s else s.sendRound grp)

/-- A group becomes BROKEN (R38): its rounds are abandoned, their watch withdrawn, every wait on it returns. A record that the
breaking queues has WOKE 0, which R338 sets for the completion of a phase (log 78). In a killed cluster nothing is woken (R386). -/
def State.breakGroup (s : State) (idx : Nat) : State :=
  match s.group? idx with
  | none => s
  | some g =>
    let out := s.cl.watchOut.filter fun w => g.rtag = some w.1
    let s := out.foldl (fun s w => s.send w.2 0 (.withdraw w.1)) s
    let s := s.updCl fun c => { c with watchOut := c.watchOut.filter fun w => g.rtag ≠ some w.1 }
    let s := s.updGroup idx fun g => { g with st := 2, rtag := none }
    if s.cl.killed then s else s.wakeGroup idx false

/-- Every entry that lists a cluster becomes BROKEN (R386). -/
def State.breakFor (s : State) (cl : ClusterId) : State :=
  (s.cl.groups.filter fun g => g.2.st = 1 && (s.membersOf g.2).contains cl).foldl (fun s g => s.breakGroup g.1) s

/-- GROUP_BROKEN_NOTICE, R38, R386. -/
def execGroupBrokenNotice (cl : ClusterId) (s : State) : Out := .next (s.breakFor cl)

/-! ### `spawn` and `amsg` (R264 to R266) -/

/-- The fields a creation takes from its issuer (R24): PTAG, PROT, GVAL, GID3 to GID0, TWIN; context 0's from SCREAT. -/
def State.issuer (s : State) : Fin 64 × Bool × BitVec 4 × BitVec 32 × Bool :=
  if s.sup then
    let w := s.core.screat
    (Fin.ofNat 64 (bits w 56 6), bits w 63 1 = 1, BitVec.ofNat 4 (bits w 52 4), BitVec.ofNat 32 (bits w 0 32), bits w 62 1 = 1)
  else match s.ctx.bound with
    | none => (0, false, 0, 0, false)
    | some b => (b.ptag, b.prot, BitVec.ofNat 4 (bits b.word1 28 4), BitVec.ofNat 32 (bits b.word1 32 32), bits b.word1 17 1 = 1)

/-- A valid GIDi names an UNUSED entry (R25). -/
def State.badGids (s : State) (gval : BitVec 4) (gids : BitVec 32) : Bool :=
  (List.range 4).any fun i => gval.getLsbD i && s.groupState (gids.toNat / 2 ^ (8 * i) % 256) = 0

/-- `spawn` that creates (R24, R25, R26, R28, R265). AFFC of the record is free: R24 gives `spawn` none. -/
def State.spawnNew (s : State) (d : GNum) (A B arg1 D : Word) : State :=
  let (ptag, prot, gval, gids, twin) := s.issuer
  if bits A 0 1 = 1 then s.trapEa 0x07 A
  else if s.badGids gval gids then s.trap 0x09
  else
    let (n, s) := s.draw
    let m : AMsg := ⟨s.me, true, Fin.ofNat 4 (Config.freeNat n), A.extractLsb' 0 48, B, arg1, Fin.ofNat 8 (bits D 41 3),
      Fin.ofNat 8 (bits D 38 3), gval, gids, twin, ptag, prot, s.ctx.clk, s.me, s.cl.part.getD 0⟩
    let (r, s) := (s.raiseCclk s.ctx.clk).create m
    s.markAtomic.putG 4 d (match r with | some i => BitVec.ofNat 64 i | none => BitVec.allOnes 64)

/-- `spawn` that wakes (R265). -/
def State.spawnWake (s : State) (d : GNum) (A : Word) : State :=
  let i := bits A 0 16
  if bits A 16 48 ≠ 0 || decide (s.cl.par.contMax ≤ i) then s.trap 0x15
  else
    let w0 := s.recWord i 0
    if s.recState i = 3 && bits w0 56 4 = 4 && (s.sup || bits w0 48 6 = s.issuer.1.val) then
      (((s.raiseCclk s.ctx.clk).wakeRecord i none true).markAtomic).putG 4 d 0
    else s.markAtomic.putG 4 d 1

/-- R263 to R265. -/
def execSpawn (d a b : GNum) (fa fb : Bool) (e : ENum) (s : State) : Out :=
  .next (s.srcG fa a fun A s => s.srcG fb b fun B s => s.srcG false d fun arg1 s => s.checked fun s =>
    let s := s.touch (3 * e.val + 2)
    let D := s.ctx.e[e]
    if bits D 32 1 = 1 then s.trap 0x15
    else if bits D 63 1 = 0 then s.spawnNew d A B arg1 D
    else s.spawnWake d A)

/-- The target of a creation descriptor (R66, R264). -/
def creationTarget (me : ClusterId) (D : Word) : ClusterId :=
  if bits D 62 1 = 0 then ⟨Fin.ofNat 128 (bits D 55 7), Fin.ofNat 16 (bits D 51 4), Fin.ofNat 16 (bits D 47 4)⟩
  else ⟨Fin.ofNat 128 (me.chip.val + bits D 55 7), Fin.ofNat 16 (me.x.val + bits D 51 4), Fin.ofNat 16 (me.y.val + bits D 47 4)⟩

/-- A message is offered to its target (R26, R27): an own target gets it as an arrival. -/
def State.offer (s : State) (m : AMsg) : State := s.send m.target 0 (.amsg m)

/-- R263, R264, R266: the message enters the NI's outbound queue; it is offered when no earlier one to its target waits. -/
def execAmsg (d a b : GNum) (fa fb : Bool) (e : ENum) (s : State) : Out :=
  .next (s.srcG fa a fun A s => s.srcG fb b fun B s => s.srcG false d fun arg1 s => s.checked fun s =>
    let s := s.touch (3 * e.val + 2)
    let D := s.ctx.e[e]
    let gval : BitVec 4 := BitVec.ofNat 4 (bits D 33 4)
    let gids : BitVec 32 := BitVec.ofNat 32 (bits D 0 32)
    let target := creationTarget s.me D
    if bits D 63 1 = 1 || bits D 32 1 = 1 then s.trap 0x15
    else if bits A 0 1 = 1 then s.trapEa 0x07 A
    else if s.badGids gval gids then s.trap 0x09
    else if target ≠ s.me && !s.cl.members.contains target then s.trap 0x09
    else if 256 ≤ s.cl.outAmsg.length then s.block .amsgSlot
    else
      let (ptag, prot, _, _, _) := s.issuer
      let m : AMsg := ⟨target, bits D 46 1 = 1, Fin.ofNat 4 (bits D 44 2), A.extractLsb' 0 48, B, arg1, Fin.ofNat 8 (bits D 41 3),
        Fin.ofNat 8 (bits D 38 3), gval, gids, bits D 37 1 = 1, ptag, prot, s.ctx.clk, s.me, s.cl.part.getD 0⟩
      let first := !(s.cl.outAmsg.any fun x => x.target = target)
      let s := s.updCl fun c => { c with outAmsg := c.outAmsg ++ [m] }
      let s := if first then s.offer m else s
      s.markAtomic.finish 4)

/-- AMSG_ARRIVAL, R25, R26, R28, R403: CCLK rises; a message of a revoked participant is discarded, and that CCLK
does not rise by it is the model's choice (log 41); the sender learns whether the creation was accepted. -/
def execAmsgArrival (m : AMsg) (s : State) : Out :=
  .next (
    if s.cl.killed || s.cl.revoked.contains m.ptag.val then s.send m.src 0 (.amsgAnswer true)
    else
      let (r, s) := (s.raiseCclk m.clk).create m
      s.send m.src 0 (.amsgAnswer r.isSome))

/-- AMSG_REOFFER, R26: an accepted message leaves the queue and the next one to that target is offered; a refused one is
offered again in its place. -/
def execAmsgReoffer (dst : ClusterId) (accepted : Bool) (s : State) : Out :=
  .next (
    match s.cl.outAmsg.find? fun m => m.target = dst with
    | none => s
    | some m =>
      if !accepted then s.offer m
      else
        let s := s.updCl fun c => { c with outAmsg := c.outAmsg.erase m }
        match s.cl.outAmsg.find? fun m => m.target = dst with
        | none => s
        | some m' => s.offer m')

end Sys2Proof.Machine
end

