-- ==== Sys2Proof/Machine/Port.lean ====
section
/-!
DEFINITION. Sys2Proof/Machine/Port.lean: the owner port (R77, R80, R86 to R89, R102, R358, R435), replies to this cluster's
requests, and the recalls of cocooned pages (R361 to R373).
-/
namespace Sys2Proof.Machine

/-! ### Watches at the owner (R86 to R89, R102) -/

/-- WATCH_REGISTRATION, R86, R88, R102, R249, R352, R415: fires at once, is refused, or takes an entry. -/
def execWatchRegistration (w : WatchReq) (s : State) : Out :=
  .next (
    let own := decide (w.src = s.me)
    if s.cl.killed then s.send w.src 0 (.watchStatus w.tag 1)
    else if w.part ≠ s.cl.part.getD 0 then s.send w.src 0 (.watchStatus w.tag 5)
    else if !inSpad w.off 8 then s.send w.src 0 (.watchStatus w.tag 6)
    else if !s.spadAllowed (own && w.sup) (if own then .rd else .rr) w.off 8 then s.send w.src 0 (.watchStatus w.tag 5)
    else if s.badWord w.off 8 then s.urge (.event (.clusterKill s.me))
    else if s.cl.watches.any fun x => x.src = w.src && x.tag = w.tag then s
    else if w.thr.toNat ≤ (s.word w.off).toNat then s.fire w (s.wts (granule w.off))
    else if w.limit = some 0 then s.send w.src 0 (.expired w.tag)
    else if 2048 ≤ s.cl.watches.length then s.send w.src 0 (.refused w.tag)
    else
      let s := s.updCl fun c => { c with watches := c.watches ++ [w] }
      if w.limit.isSome then s.post (.watchExpiry w.src w.tag) else s)

/-- The entry of a watcher's tag freed. -/
def State.dropWatch (s : State) (src : ClusterId) (tag : Nat) : State :=
  s.updCl fun c => { c with watches := c.watches.filter fun w => !(w.src = src && w.tag = tag) }

/-- WATCH_EXPIRY, R89, R249: a watch that has fired before does not expire any more. -/
def execWatchExpiry (src : ClusterId) (tag : Nat) (s : State) : Out :=
  .next (if s.cl.watches.any fun w => w.src = src && w.tag = tag then (s.dropWatch src tag).send src 0 (.expired tag) else s)

/-- WATCH_WITHDRAWAL, R89, R245: the entry is discarded with no reply. -/
def execWatchWithdrawal (src : ClusterId) (tag : Nat) (s : State) : Out :=
  .next ((s.dropWatch src tag).cancel (.watchExpiry src tag))

/-! ### Recalls (R365, R366) -/

/-- The place of a page's leaf in `Memory.cells`, and the leaf, read from the tables (R357). -/
def State.leafOf (s : State) (vpn : Nat) : Option (Nat × Word) :=
  let v := vpn * 2 ^ 16
  let e1 := s.word (hbmLo + s.cl.par.troot + 8 * (v / 2 ^ 30 % 64))
  if bits e1 63 1 = 0 || bits e1 62 1 = 1 then none
  else
    let e2 := s.word (hbmLo + bits e1 8 23 * 256 + 8 * (v / 2 ^ 21 % 512))
    if bits e2 63 1 = 0 || bits e2 62 1 = 1 then none
    else
      let k := hbmLo + bits e2 8 23 * 256 + 8 * (v / 2 ^ 16 % 32)
      if bits (s.word k) 63 1 = 0 || bits (s.word k) 62 1 = 0 then none else some (k, s.word k)

/-- The holder that a leaf names (R356, R361). -/
def State.holderOf (s : State) (leaf : Word) : ClusterId :=
  ⟨s.mod.chipid, Fin.ofNat 16 (bits leaf 43 4), Fin.ofNat 16 (bits leaf 39 4)⟩

/-- The records of trap 0x0C held for a page are released to context 0 (R366). -/
def State.releaseHeld (s : State) (vpn : Nat) : State :=
  { s with cores := fillVec s.cores fun i =>
      let k := s.cores[i]?.getD Core.reset
      { k with tq := k.tq.map fun r => if r.hold = .recall vpn then { r with hold := .none } else r } }

/-- The first pending page starts, before anything else can trigger a recall (R365). -/
def State.pendingNext (s : State) : State :=
  if s.cl.pending.isEmpty || decide (8 ≤ s.cl.recalls.length) then s else s.urge (.event .pendingRecallStart)
/-- A recall has ended (R365, R366). -/
def State.endRecall (s : State) (vpn : Nat) : State :=
  ((s.updCl fun c => { c with recalls := c.recalls.filter fun r => r.vpn ≠ vpn }).releaseHeld vpn).pendingNext

/-- A recall starts (R366): RECALLING, then a cancel notice to the holder, or requests for the slot in 4 KiB parts. -/
def State.startRecall (s : State) (vpn key : Nat) (leaf : Word) : State :=
  let fill := decide (bits leaf 60 2 = 1)
  let s := s.putWord key (setBits leaf 60 2 3)
  let s := s.updCl fun c => { c with recalls := c.recalls ++ [⟨vpn, fill, []⟩] }
  let h := s.holderOf leaf
  if fill then (s.send h 0 (.cancelFill vpn)).post (.recallCompletion vpn)
  else
    (List.range 16).foldl
      (fun s k => (s.sendRead (.recall vpn k) h (bits leaf 32 7 * 2 ^ 16 + 4096 * k) 4096 0 .recall 0 7).2) s

/-- A trigger of a recall (R365); a killed cluster makes none (R386). A page that is resident by now, or unmapped, needs none: its held records are released. -/
def State.triggerRecall (s : State) (vpn : Nat) : State :=
  if s.cl.killed then s
  else match s.leafOf vpn with
  | none => s.releaseHeld vpn
  | some (key, leaf) =>
    if bits leaf 60 2 = 0 then s.releaseHeld vpn
    else if bits leaf 60 2 = 3 || s.cl.pending.contains vpn then s
    else if 8 ≤ s.cl.recalls.length then s.updCl fun c => { c with pending := c.pending ++ [vpn] }
    else s.startRecall vpn key leaf

/-- RECALL_START, R365, R366. -/
def execRecallStart (page : Nat) (s : State) : Out := .next (s.triggerRecall page)
/-- PENDING_RECALL_START, R365: pages pend in the order of their first triggers. -/
def execPendingRecallStart (s : State) : Out :=
  .next (match s.cl.pending with
    | [] => s
    | p :: r => if 8 ≤ s.cl.recalls.length then s else ((s.updCl fun c => { c with pending := r }).triggerRecall p).pendingNext)

/-- One log entry applied to a frame (R373). -/
def State.applyEnt (s : State) (frame : Nat) (e : LogEnt) : State :=
  let a := frame + e.off
  let v := if e.atomic then atomicNew e.op (8 * e.size) (s.num a e.size) e.val else e.val
  s.putBytes a (toLe e.size v)

/-- Every granule of a page takes one WTS and one RTS (R112). -/
def State.stampPage (s : State) (vpn w r : Nat) : State :=
  (granulesOf (hbmLo + vpn * 2 ^ 16) (2 ^ 16)).foldl (fun s g => s.setStamp g w r) s
/-- Log i is empty: its entries and its descriptor are in use no more (R368, R369). -/
def State.emptyLog (s : State) (i : Nat) : State :=
  let d := s.logDesc i
  ((s.dropLogEnts i 0 d.cnt).putLogDesc i { d with v := false }).updCl fun c => { c with logMarks := mapSet 0 c.logMarks i 0 }
/-- The batch (R373): the log's entries in order, every granule at WTSP and RTSP, the log empty again. A page that left with nothing
logged since takes the pair it left with (R112). -/
def State.applyLog (s : State) (vpn frame : Nat) (leaf : Word) : State :=
  let i := bits leaf 6 10
  let d := s.logDesc i
  if !d.v then s.stampPage vpn (s.pageStamps vpn).1 (s.pageStamps vpn).2
  else (((s.logEnts i).foldl (fun s e => s.applyEnt frame e) s).stampPage vpn d.wtsp d.rtsp).emptyLog i

/-- RECALL_COMPLETION, R366, R373, R424: slot data to the frame, the log in one batch, RESIDENT. -/
def execRecallCompletion (page : Nat) (s : State) : Out :=
  .next (match s.cl.recalls.find? fun r => r.vpn = page, s.leafOf page with
    | some r, some (key, leaf) =>
      if !r.fromFill && r.got.length < 16 then s
      else
        let frame := hbmLo + bits leaf 16 15 * 2 ^ 16
        let s := s.dropHostLines fun x => decide (hbmLo + page * 2 ^ 16 ≤ 64 * x.1) && decide (64 * x.1 < hbmLo + (page + 1) * 2 ^ 16)
        let s := r.got.foldl (fun s g => s.putBytes (frame + 4096 * g.1) g.2) s
        let s := s.applyLog page frame leaf
        let leaf := setBits (setBits (setBits leaf 60 2 0) 32 15 0) 6 10 0
        (s.putWord key leaf).endRecall page
    | some _, none => s.endRecall page
    | none, _ => s)

/-- A recall is LOST (R366): the leaf becomes invalid, the log is discarded, the host learns of it. -/
def State.loseRecall (s : State) (vpn : Nat) : State :=
  match s.leafOf vpn with
  | none => s.endRecall vpn
  | some (key, leaf) =>
    let i := bits leaf 6 10
    let s := (s.emptyLog i).updCl fun c => { c with outst := c.outst.filter fun o =>
      match o.who with
      | .recall p _ => p ≠ vpn
      | _ => true }
    ((s.putWord key (setBits leaf 63 1 0)).report 0x05 [coords s.me, vpn]).endRecall vpn

/-- The holder clears the map word of a slot that holds a page of an owner (R364). -/
def State.clearMap (s : State) (hit : Word → Nat → Bool) : State :=
  (List.range 128).foldl (fun s i =>
    let a := s.cl.par.cmapBase + 8 * i
    let w := s.word a
    if bits w 63 1 = 1 && hit w i then s.putWord a (setBits w 63 1 0) else s) s

/-- FILL_CANCEL_NOTICE, R364, R366; a killed cluster's memory stays as it is (R386). -/
def execFillCancelNotice (owner : ClusterId) (page : Nat) (s : State) : Out :=
  .next (if s.cl.killed then s else s.clearMap fun w _ => bits w 32 15 = coords owner && bits w 0 20 = page)

/-- A chunk of a lent slot has been sent to its owner; with the last one the map word is cleared (R364). What counts is what has been
sent since software wrote the map word (`State.observeMap`). -/
def State.sentChunk (s : State) (src : ClusterId) (off : Nat) : State :=
  let slot := off / 2 ^ 16
  let s := s.updCl fun c => { c with slotSent := insNat c.slotSent (off / 4096) }
  if (List.range 16).all fun k => s.cl.slotSent.contains (16 * slot + k) then
    let s := s.updCl fun c => { c with slotSent := c.slotSent.filter fun x => x / 16 ≠ slot }
    s.clearMap fun w i => i = slot && bits w 32 15 = coords src
  else s

/-! ### Remote reads at the owner (R77, R97, R358, R435) -/

/-- What has been read so far of a source request that is being read: the bytes, their latest time, the place it was translated to. -/
def Cluster.served (c : Cluster) (src : ClusterId) (tag : Nat) : List Byte × Nat × Option Nat :=
  ((c.serving.find? fun x => x.1 = src && x.2.1 = tag).map (·.2.2)).getD ([], 0, none)
/-- A source request is being read no more. -/
def Cluster.unserve (c : Cluster) (src : ClusterId) (tag : Nat) : Cluster :=
  { c with serving := c.serving.filter fun x => !(x.1 = src && x.2.1 = tag) }

/-- The bytes of a request at their place, placed in logical time (R97), and the reply; beyond the clock limit status 7 (R114). A
source request is read granule by granule, up to a free one at a time (R106); `got` and `t0` are what has been read before. -/
def State.serve (s : State) (r : ReadReq) (key : Nat) (got : List Byte) (t0 : Nat) : State :=
  match r.kind with
  | .recall => (s.send r.src r.route (.pullData r.tag (s.bytes key r.size) 0)).sentChunk r.src r.off
  | .engine =>
    let o := r.off + got.length
    let (n, s) := s.readPiece o (r.size - got.length)
    let t := s.engineReadTime o n r.clk
    if clockLimit ≤ t then s.send r.src r.route (.status r.tag 7)
    else
      let l := got ++ s.bytes (key + got.length) n
      let s := s.engineRead o n r.clk
      if r.size ≤ l.length then s.send r.src r.route (.pullData r.tag l (max t0 t))
      else (s.updCl fun c => { c with serving := c.serving ++ [(r.src, r.tag, l, max t0 t, some key)] }).post (.remoteRequest r)
  | .load =>
    let g := granule r.off
    let t := s.readTime g r.clk
    if clockLimit ≤ t then s.send r.src r.route (.status r.tag 7)
    else
      let e := t + s.cl.par.leaseLen
      (s.setStamp g (s.wts g) (max (s.rts g) e)).send r.src r.route (.data r.tag (s.bytes key r.size) t e)

/-- The owner's fatal record 0x18 for core 0 (R358, R380). -/
def State.portFatal (s : State) : State := s.urge (.event (.fatalFault 0 ⟨0x18, 0, true, 0, 0, 0, 0, 0⟩ true))

/-- REMOTE_REQUEST, R77, R358, R362, R435: the checks in order, then the data or a status. A request whose walk meets a
moving node is looked at again, or times out (R357); when is free. A request that is being read is not translated again (R360). -/
def execRemoteRequest (r : ReadReq) (s : State) : Out :=
  .next (
    let st (s : State) (x : BitVec 4) : State := s.send r.src r.route (.status r.tag x)
    let (got, t0, at_) := s.cl.served r.src r.tag
    let s := s.updCl fun c => c.unserve r.src r.tag
    if s.cl.killed then st s 1
    else if r.part ≠ s.cl.part.getD 0 then st s 5
    else if let some key := at_ then
      if s.badWord key r.size then s.urge (.event (.clusterKill s.me)) else s.serve r key got t0
    else if r.need.zeroExtend 64 &&& ~~~ s.mod.feat0 ≠ 0 then st s 4
    else if decide (r.rev < bits s.mod.feat1 0 8) && r.need ≠ 7 then st s 4
    else if inSpad r.off r.size then
      if !s.spadAllowed false .rr r.off r.size then st s 5
      else if s.badWord r.off r.size then s.urge (.event (.clusterKill s.me))
      else s.serve r r.off got t0
    else if inHbm r.off r.size then
      match s.walk 4 r.off with
      | (.unmapped, s) => st s 6
      | (.walknr, s) => (st s 6).portFatal
      | (.err, s) => s.urge (.event (.clusterKill s.me))
      | (.mig _, s) =>
        let (n, s) := s.draw
        if Config.freeBool n then s.post (.remoteRequest r) else (st s 6).portFatal
      | (.leaf e two, s) =>
        let key := hbmLo + frameOf e two (r.off - hbmLo)
        if bits e (leafBit false .rr) 1 = 0 then st s 5
        else if bits e 60 2 = 0 || (bits e 60 2 = 1 && s.holderOf e = r.src && r.kind = .engine
            && !s.cl.pending.contains ((r.off - hbmLo) / 2 ^ 16)) then
          if s.badWord key r.size then s.urge (.event (.clusterKill s.me))
          else if bits e 60 2 = 0 then s.serve r key got t0
          else s.send r.src r.route (.pullData r.tag (s.bytes key r.size) 0)
        else (s.send r.src r.route (.deferred r.tag)).triggerRecall ((r.off - hbmLo) / 2 ^ 16)
    else st s 6)

/-! ### Replies to this cluster's requests (R77, R80, R83, R99) -/

/-- The request of a tag that is still out. -/
def State.request? (s : State) (tag : Nat) : Option Outst := s.cl.outst.find? fun o => o.tag = tag
/-- Its final reply has come: later copies are dropped (R80, R415). -/
def State.settle (s : State) (tag : Nat) : State :=
  ((s.updCl fun c => { c with outst := c.outst.filter fun o => o.tag ≠ tag }).cancel (.deferredResend tag)).cancel (.deferLimitExpiry tag)
/-- A reply handed to the context that waits for it; one for an abandoned attempt is discarded (R190). -/
def State.toCtx (s : State) (c : CtxId) (tag : Nat) (r : Reply) : State :=
  s.updCtx c fun x => if x.sent.any fun p => p.1 = tag then { x with replies := x.replies ++ [r] } else x

/-- A line allocated in an L1 (R82, R83): in place of an older copy; where the array of 512 lines is full, in place of a line that is
free. -/
def State.l1Put (s : State) (k : CoreId) (l : L1Line) : State :=
  let rest := (s.getCore k).l1.filter fun x => !(x.owner = l.owner && x.off = l.off)
  let (n, s) := if rest.length < 512 then (rest.length, s) else (Config.freeNat s.draw.1 % rest.length, s.draw.2)
  s.updCore k fun c => { c with l1 := l :: rest.eraseIdx n }

/-- REMOTE_DATA_REPLY, R83, R97, R99, R190: the line enters the L1 under its lease, in skid mode once its tag passes (R153); a reply
for an abandoned attempt is discarded. -/
def execRemoteDataReply (tag : Nat) (bytes : List Byte) (t lease : Nat) (skid : Option Nat) (s : State) : Out :=
  .next (match s.request? tag with
    | none => s
    | some o =>
      match o.who with
      | .ctx c =>
        let live := (s.getCtx c).sent.any fun p => p.1 = tag
        let s := (s.settle tag).toCtx c tag (.data tag bytes t lease skid)
        let k : CoreId := if s.cl.par.fused then ⟨o.req.off / 128 % 4, by omega⟩ else coreOf c
        let line : L1Line := ⟨o.owner, o.req.off, bytes, lease⟩
        if !live then s
        else match skid with
          | none => s.l1Put k line
          | some g => s.updCl fun x => { x with heldLine := x.heldLine ++ [(g, k, line)] }
      | _ => s)

/-- A final status for a request that is no copy's: to its context, or to the recall, which is LOST (R78, R366). -/
def State.failRequest (s : State) (o : Outst) (st : BitVec 4) : State :=
  match o.who with
  | .ctx c => (s.settle o.tag).toCtx c o.tag (.status o.tag st)
  | .recall vpn _ => (s.settle o.tag).loseRecall vpn
  | .copy _ => s

/-- A chunk of a recalled slot has come (R366). -/
def State.recallData (s : State) (o : Outst) (vpn chunk : Nat) (bytes : List Byte) : State :=
  let s := s.settle o.tag
  let s := s.updCl fun c => { c with recalls := c.recalls.map fun r =>
    if r.vpn = vpn then { r with got := r.got ++ [(chunk, bytes)] } else r }
  if s.cl.recalls.any fun r => r.vpn = vpn && decide (16 ≤ r.got.length) then s.post (.recallCompletion vpn) else s

/-- DEFERRED_REPLY, R80: the request is sent again later, within DEFER_LIM of the first DEFERRED reply. -/
def execDeferredReply (tag : Nat) (s : State) : Out :=
  .next (match s.request? tag with
    | none => s
    | some o =>
      let s := s.updCl fun c => { c with outst := c.outst.map fun x => if x.tag = tag then { x with deferred := true } else x }
      let s := if o.deferred then s else s.post (.deferLimitExpiry tag)
      s.post (.deferredResend tag))

/-- DEFERRED_RESEND, R80: with the original tag. -/
def execDeferredResend (tag : Nat) (s : State) : Out :=
  .next (match s.request? tag with
    | none => s
    | some o => s.send o.owner o.req.route (.read o.req))

end Sys2Proof.Machine
end

