-- ==== Sys2Proof/Machine/Vector.lean ====
section
/-!
DEFINITION. Sys2Proof/Machine/Vector.lean: the vector and mask instructions of chapter 09 (R214 to R236), but for the loads and
stores.
-/
namespace Sys2Proof.Machine

/-! ### Lanes and masks (R214 to R216) -/

/-- Lane i of a register in lanes of w bits (R44). -/
def laneOf (w : Nat) (v : VWord) (i : Nat) : Nat := v.toNat / 2 ^ (w * i) % 2 ^ w
/-- The first n lanes of a register. -/
def lanesOf (w n : Nat) (v : VWord) : List Nat := (List.range n).map (laneOf w v)
/-- Lanes put together, lane 0 lowest. -/
def packNat (w : Nat) : List Nat → Nat
  | [] => 0
  | x :: r => x % 2 ^ w + 2 ^ w * packNat w r
/-- A register of lanes. -/
def packLanes (w : Nat) (l : List Nat) : VWord := BitVec.ofNat 512 (packNat w l)
/-- Is element e of E active under a mask (R215)? -/
def active (m : Word) (E e : Nat) : Bool := m.getLsbD (if E = 128 then e / 2 else e)
/-- New elements where the mask is set, the old ones elsewhere; `e` is the number of the first (R216). -/
def mergeLanes (m : Word) (E e : Nat) : List Nat → List Nat → List Nat
  | o :: os, x :: xs => (if active m E e then x else o) :: mergeLanes m E (e + 1) os xs
  | _, _ => []

/-- The moving context's mask, its link tags taken over (R153, R215). -/
def State.mask (s : State) (k : KNum) (f : Word → State → State) : State := f (s.getK k) (s.taintK k)

/-- The destination register takes lanes of a tag under a mask (R216). -/
def State.putV (s : State) (d : VNum) (t : Tag) (m : Word) (l : List Nat) : State :=
  let w := tagWidth t
  let old := lanesOf w (tagLanes t) (s.ctx.v[d]).val
  let s := if (List.range (tagLanes t)).all (active m (tagLanes t)) then s else s.touchV d
  s.setV d t (packLanes w (mergeLanes m (tagLanes t) 0 old l))

/-- Register number i steps after r, wrapping from v63 to v0 (R214). -/
def vAt (r : VNum) (i : Nat) : VNum := ⟨(r.val + i) % 64, by omega⟩

/-- A destination group of E elements from register d (R214): its registers one after the other. -/
def State.putGroup (s : State) (d : VNum) (t : Tag) (m : Word) (E : Nat) : Nat → List Nat → State
  | 0, _ => s
  | j + 1, l =>
    let s := s.putGroup d t m E j l
    let n := tagLanes t
    let w := tagWidth t
    let r := vAt d j
    let old := lanesOf w n (s.ctx.v[r]).val
    let s := if (List.range n).all fun e => active m E (j * n + e) then s else s.touchV r
    s.setV r t (packLanes w (mergeLanes m E (j * n) old ((l.drop (j * n)).take n)))

/-- A source group of n registers from a: the first with the field's disposition, the later ones with 0; each passes the
tag check (R162, R214). `k` gets the registers. -/
def State.srcGroup (s : State) (fa : Bool) (a : VNum) (ok : Tag → Bool) : Nat → Nat → List VReg → (List VReg → State → State) → State
  | 0, _, acc, k => k acc.reverse s
  | n + 1, i, acc, k =>
    s.srcV (if i = 0 then fa else false) (vAt a i) fun x s =>
      s.needTag (ok x.tag && (acc.all fun y => y.tag == x.tag)) fun s => s.srcGroup fa a ok n (i + 1) (x :: acc) k

/-- The draw i after the context's counter (R50, R51). -/
def State.drawAt (s : State) (i : Nat) : Nat :=
  (drawValue s.cl.par.jobSeed s.ctx.lcore (BitVec.ofNat 4 (s.leaderNum s.cur).val) (s.ctx.drawn + BitVec.ofNat 48 i)).toNat
/-- The draw counter advances (R51). -/
def State.addDraws (s : State) (n : Nat) : State := s.upd fun x => { x with drawn := x.drawn + BitVec.ofNat 48 n }
/-- How many of the elements 0 .. e − 1 are active. -/
def activeBelow (m : Word) (E : Nat) : Nat → Nat
  | 0 => 0
  | e + 1 => activeBelow m E e + (if active m E e then 1 else 0)

/-! ### Lane arithmetic (R221, R222) -/

/-- The two-source lane operations of R222. -/
inductive LaneOp where
  | add | sub | adds | subs | mul | mulh | min | max | and | or | xor | andn | sll | srl | sra | rol
  deriving DecidableEq, Repr

/-- A lane operation on an integer tag, or on bits (R222). -/
def laneIntOp (op : LaneOp) (t : Tag) (a b : Nat) : Nat :=
  let w := tagWidth t
  let x := laneInt t a
  let y := laneInt t b
  match op with
  | .add => wrapInt w (x + y)
  | .sub => wrapInt w (x - y)
  | .adds => wrapInt w (saturate t (x + y))
  | .subs => wrapInt w (saturate t (x - y))
  | .mul => wrapInt w (x * y)
  | .mulh => wrapInt w (x * y / (2 ^ w : Nat))
  | .min => if x ≤ y then a else b
  | .max => if x ≤ y then b else a
  | .and => a &&& b
  | .or => a ||| b
  | .xor => a ^^^ b
  | .andn => a &&& (2 ^ w - 1 - b % 2 ^ w)
  | .sll => if w ≤ b then 0 else a * 2 ^ b % 2 ^ w
  | .srl => if w ≤ b then 0 else a / 2 ^ b
  | .sra => wrapInt w (sxInt w a / (2 ^ (Nat.min b w) : Nat))
  | .rol => (a * 2 ^ (b % w) + a / 2 ^ (w - b % w)) % 2 ^ w

/-- A lane operation on a float tag: exact, rounded once by RNE (R217, R222). -/
def laneFltOp (op : LaneOp) (t : Tag) (a b : Nat) : Nat :=
  let f := ffmt t
  let x := decodeF f a
  let y := decodeF f b
  match op with
  | .add => roundNE f (fadd .rne x y)
  | .sub => roundNE f (fadd .rne x (fneg y))
  | .mul => roundNE f (fmul x y)
  | .min => roundNE f (fmin x y)
  | .max => roundNE f (fmax x y)
  | op => laneIntOp op t a b

/-- The operations that work on bits of any tag. -/
def LaneOp.bitwise : LaneOp → Bool
  | .and => true | .or => true | .xor => true | .andn => true
  | _ => false
/-- The shifts, whose vb is an Int of the lane width. -/
def LaneOp.shift : LaneOp → Bool
  | .sll => true | .srl => true | .sra => true | .rol => true
  | _ => false
/-- The operations on Int tags only (R219). -/
def LaneOp.intOnly : LaneOp → Bool
  | .adds => true | .subs => true | .mulh => true
  | op => op.shift
/-- The tags of va (R219). -/
def LaneOp.okA (op : LaneOp) (t : Tag) : Bool :=
  if op.bitwise then true else if op.intOnly then isInt t else isInt t || isFlt t || isF8 t
/-- The tags of vb given va's (R219). -/
def LaneOp.okB (op : LaneOp) (ta tb : Tag) : Bool :=
  if op.bitwise then true else if op.shift then isInt tb && tagWidth tb = tagWidth ta else tb == ta

/-- A two-source lane instruction (R221). -/
def vop2 (op : LaneOp) (d a b : VNum) (k : KNum) (fa fb : Bool) (s : State) : Out :=
  .next (s.srcV fa a fun x s => s.needTag (op.okA x.tag) fun s =>
    s.srcV fb b fun y s => s.needTag (op.okB x.tag y.tag) fun s => s.mask k fun m s =>
      let t := x.tag
      let w := tagWidth t
      let n := tagLanes t
      let f := if op.bitwise || isInt t then laneIntOp op t else laneFltOp op t
      (s.putV d t m (List.zipWith f (lanesOf w n x.val) (lanesOf w n y.val))).finish 4)

/-- R222: A + B. -/
def execVadd (d a b : VNum) (k : KNum) (fa fb : Bool) (s : State) : Out := vop2 .add d a b k fa fb s
/-- R222: A − B. -/
def execVsub (d a b : VNum) (k : KNum) (fa fb : Bool) (s : State) : Out := vop2 .sub d a b k fa fb s
/-- R222: A + B clamped. -/
def execVadds (d a b : VNum) (k : KNum) (fa fb : Bool) (s : State) : Out := vop2 .adds d a b k fa fb s
/-- R222: A − B clamped. -/
def execVsubs (d a b : VNum) (k : KNum) (fa fb : Bool) (s : State) : Out := vop2 .subs d a b k fa fb s
/-- R222: A × B. -/
def execVmul (d a b : VNum) (k : KNum) (fa fb : Bool) (s : State) : Out := vop2 .mul d a b k fa fb s
/-- R222: bits 2w−1:w of the product. -/
def execVmulh (d a b : VNum) (k : KNum) (fa fb : Bool) (s : State) : Out := vop2 .mulh d a b k fa fb s
/-- R222: minimum. -/
def execVmin (d a b : VNum) (k : KNum) (fa fb : Bool) (s : State) : Out := vop2 .min d a b k fa fb s
/-- R222: maximum. -/
def execVmax (d a b : VNum) (k : KNum) (fa fb : Bool) (s : State) : Out := vop2 .max d a b k fa fb s
/-- R222: A and B. -/
def execVand (d a b : VNum) (k : KNum) (fa fb : Bool) (s : State) : Out := vop2 .and d a b k fa fb s
/-- R222: A or B. -/
def execVor (d a b : VNum) (k : KNum) (fa fb : Bool) (s : State) : Out := vop2 .or d a b k fa fb s
/-- R222: A xor B. -/
def execVxor (d a b : VNum) (k : KNum) (fa fb : Bool) (s : State) : Out := vop2 .xor d a b k fa fb s
/-- R222: A and not B. -/
def execVandn (d a b : VNum) (k : KNum) (fa fb : Bool) (s : State) : Out := vop2 .andn d a b k fa fb s
/-- R222: shift left. -/
def execVsll (d a b : VNum) (k : KNum) (fa fb : Bool) (s : State) : Out := vop2 .sll d a b k fa fb s
/-- R222: logical shift right. -/
def execVsrl (d a b : VNum) (k : KNum) (fa fb : Bool) (s : State) : Out := vop2 .srl d a b k fa fb s
/-- R222: arithmetic shift right. -/
def execVsra (d a b : VNum) (k : KNum) (fa fb : Bool) (s : State) : Out := vop2 .sra d a b k fa fb s
/-- R222: rotate left. -/
def execVrol (d a b : VNum) (k : KNum) (fa fb : Bool) (s : State) : Out := vop2 .rol d a b k fa fb s

/-- D ± A × B (R222), one rounding. -/
def fmaLane (neg : Bool) (t : Tag) (d a b : Nat) : Nat :=
  if isInt t then
    let p := laneInt t a * laneInt t b
    wrapInt (tagWidth t) (laneInt t d + (if neg then -p else p))
  else
    let f := ffmt t
    let x := decodeF f a
    roundNE f (ffma .rne (decodeF f d) (if neg then fneg x else x) (decodeF f b))

/-- `vfma` and `vfms`: vd is a third source with disposition 0, checked after vb (R221). -/
def vfmaOp (neg : Bool) (d a b : VNum) (k : KNum) (fa fb : Bool) (s : State) : Out :=
  .next (s.srcV fa a fun x s => s.needTag (LaneOp.add.okA x.tag) fun s =>
    s.srcV fb b fun y s => s.needTag (y.tag == x.tag) fun s =>
    s.srcV false d fun z s => s.needTag (z.tag == x.tag) fun s => s.mask k fun m s =>
      let t := x.tag
      let w := tagWidth t
      let n := tagLanes t
      let l := List.zipWith (fun zd p => fmaLane neg t zd p.1 p.2) (lanesOf w n z.val)
        ((lanesOf w n x.val).zip (lanesOf w n y.val))
      (s.putV d t m l).finish 4)
/-- R222: D + A × B. -/
def execVfma (d a b : VNum) (k : KNum) (fa fb : Bool) (s : State) : Out := vfmaOp false d a b k fa fb s
/-- R222: D − A × B. -/
def execVfms (d a b : VNum) (k : KNum) (fa fb : Bool) (s : State) : Out := vfmaOp true d a b k fa fb s

/-! ### Compares (R223) -/

/-- The conditions of R223 from equal, less and unordered. -/
def condHolds (cond : Nat) (eq lt un : Bool) : Bool :=
  match cond with
  | 0 => eq
  | 1 => !eq
  | 2 => lt
  | 3 => lt || eq
  | 4 => !(lt || eq || un)
  | 5 => !lt && !un
  | 6 => !un
  | _ => un
/-- The condition on two lanes (R223). -/
def cmpLane (cond : Nat) (t : Tag) (a b : Nat) : Bool :=
  if isInt t then condHolds cond (laneInt t a == laneInt t b) (decide (laneInt t a < laneInt t b)) false
  else
    let x := decodeF (ffmt t) a
    let y := decodeF (ffmt t) b
    condHolds cond (feq x y) (flt x y) (fisNaN x || fisNaN y)
/-- The mask of a list of bits. -/
def maskOf : List Bool → Nat
  | [] => 0
  | b :: r => (if b then 1 else 0) + 2 * maskOf r

/-- `vcmp` and `vcmpa` (R223). -/
def vcmpOp (acc : Bool) (cond : Fin 8) (kd : KNum) (a b : VNum) (k : KNum) (fa fb : Bool) (s : State) : Out :=
  .next (s.srcV fa a fun x s => s.needTag (LaneOp.add.okA x.tag) fun s =>
    s.srcV fb b fun y s => s.needTag (y.tag == x.tag) fun s => s.mask k fun m s =>
      let t := x.tag
      let w := tagWidth t
      let n := tagLanes t
      let c := List.zipWith (cmpLane cond.val t) (lanesOf w n x.val) (lanesOf w n y.val)
      let cm : Word := BitVec.ofNat 64 (maskOf c)
      let low : Word := BitVec.ofNat 64 (2 ^ n - 1)
      let r := if acc then (s.getK kd) &&& (~~~(m &&& low) ||| cm) else cm &&& m &&& low
      ((if acc then s.taintK kd else s).setK kd r).finish 4)
/-- R223: bit e is the condition of each active lane, 0 elsewhere. -/
def execVcmp (cond : Fin 8) (kd : KNum) (a b : VNum) (k : KNum) (fa fb : Bool) (s : State) : Out := vcmpOp false cond kd a b k fa fb s
/-- R223: bit e and the condition in each active lane, the other bits kept. -/
def execVcmpa (cond : Fin 8) (kd : KNum) (a b : VNum) (k : KNum) (fa fb : Bool) (s : State) : Out := vcmpOp true cond kd a b k fa fb s

/-! ### Unary forms (R224 to R226) -/

/-- A one-source lane instruction; the result keeps va's tag. -/
def vop1 (ok : Tag → Bool) (f : Tag → Nat → Nat) (d a : VNum) (k : KNum) (fa : Bool) (s : State) : Out :=
  .next (s.srcV fa a fun x s => s.needTag (ok x.tag) fun s => s.mask k fun m s =>
    (s.putV d x.tag m ((lanesOf (tagWidth x.tag) (tagLanes x.tag) x.val).map (f x.tag))).finish 4)

/-- R224: the absolute value. -/
def absLane (t : Tag) (a : Nat) : Nat :=
  if isInt t then wrapInt (tagWidth t) (laneInt t a).natAbs
  else match decodeF (ffmt t) a with
    | .nan => (ffmt t).nan
    | _ => a % 2 ^ (tagWidth t - 1)
/-- R224: the negation. -/
def negLane (t : Tag) (a : Nat) : Nat :=
  if isInt t then wrapInt (tagWidth t) (-(laneInt t a))
  else match decodeF (ffmt t) a with
    | .nan => (ffmt t).nan
    | _ => (a + 2 ^ (tagWidth t - 1)) % 2 ^ tagWidth t
/-- Leading zero bits of a w-bit lane. -/
def clzLane (w a : Nat) : Nat := if a % 2 ^ w = 0 then w else w - 1 - (a % 2 ^ w).log2
/-- One bits of a w-bit lane. -/
def popLane : Nat → Nat → Nat
  | 0, _ => 0
  | w + 1, a => a % 2 + popLane w (a / 2)

/-- R224. -/
def execVabs (d a : VNum) (k : KNum) (fa : Bool) (s : State) : Out := vop1 (LaneOp.okA .add) absLane d a k fa s
/-- R224. -/
def execVneg (d a : VNum) (k : KNum) (fa : Bool) (s : State) : Out := vop1 (LaneOp.okA .add) negLane d a k fa s
/-- R224: bits of any tag. -/
def execVnot (d a : VNum) (k : KNum) (fa : Bool) (s : State) : Out :=
  vop1 (fun _ => true) (fun t x => 2 ^ tagWidth t - 1 - x) d a k fa s
/-- R224. -/
def execVclz (d a : VNum) (k : KNum) (fa : Bool) (s : State) : Out := vop1 isInt (fun t x => clzLane (tagWidth t) x) d a k fa s
/-- R224. -/
def execVpopc (d a : VNum) (k : KNum) (fa : Bool) (s : State) : Out := vop1 isInt (fun t x => popLane (tagWidth t) x) d a k fa s
/-- R225: 1/A. -/
def execVrcp (d a : VNum) (k : KNum) (fa : Bool) (s : State) : Out := vop1 isFlt (approx 0) d a k fa s
/-- R225: 1/√A. -/
def execVrsq (d a : VNum) (k : KNum) (fa : Bool) (s : State) : Out := vop1 isFlt (approx 1) d a k fa s
/-- R225: 2^A. -/
def execVexp2 (d a : VNum) (k : KNum) (fa : Bool) (s : State) : Out := vop1 isFlt (approx 2) d a k fa s
/-- R225: log2 A. -/
def execVlog2 (d a : VNum) (k : KNum) (fa : Bool) (s : State) : Out := vop1 isFlt (approx 3) d a k fa s

/-- The rounding mode of a field; 0b101 to 0b111 are refused by the decoder (R47). -/
def rndOf (r : BitVec 3) : Rnd :=
  match r.toNat with
  | 0 => .rne | 1 => .rtz | 2 => .rdn | 3 => .rup | _ => .sr

/-- √A rounded by a mode (R226). The bits that take part in a stochastic rounding are those of the lane, the source (R52). -/
def sqrtLane (t : Tag) (r : Rnd) (draw a : Nat) : Nat :=
  match fsqrt (decodeF (ffmt t) a) with
  | .inl v => roundF (ffmt t) .rtz v (fun _ => 0) 0
  | .inr m => roundMag (ffmt t) r false m (fracBelow (ffmt t) a) draw

/-- Elements 0, 1, … mapped with the draw each takes: the draws go to the active ones in ascending order (R53, R217). -/
def State.mapDraw (s : State) (m : Word) (E : Nat) (f : Nat → Nat → Nat) (l : List Nat) : List Nat :=
  (l.zip (List.range l.length)).map fun p => f (s.drawAt (activeBelow m E p.2)) p.1
/-- Under SR the counter advances by the active elements (R53). -/
def State.drawn (s : State) (r : Rnd) (m : Word) (E : Nat) : State := if r = .sr then s.addDraws (activeBelow m E E) else s

/-- R226. -/
def execVsqrt (d a : VNum) (rnd : BitVec 3) (k : KNum) (fa : Bool) (s : State) : Out :=
  .next (s.srcV fa a fun x s => s.needTag (isFlt x.tag) fun s => s.mask k fun m s =>
    let t := x.tag
    let n := tagLanes t
    let l := s.mapDraw m n (fun dr e => sqrtLane t (rndOf rnd) dr e) (lanesOf (tagWidth t) n x.val)
    ((s.putV d t m l).drawn (rndOf rnd) m n).finish 4)

/-! ### Reductions (R60, R227) -/

/-- One level of the pairwise tree (R60). -/
def pairUp {α : Type} (f : α → α → α) : List α → List α
  | x :: y :: r => f x y :: pairUp f r
  | l => l
/-- n levels of the tree. -/
def treeLevels {α : Type} (f : α → α → α) : Nat → List α → List α
  | 0, l => l
  | n + 1, l => treeLevels f n (pairUp f l)
/-- The whole tree over at most 128 elements. -/
def tree {α : Type} (f : α → α → α) (z : α) (l : List α) : α := (treeLevels f 7 l).headD z

/-- The reductions of R227. -/
inductive RedOp where
  | sum | max | min | and | or | xor
  deriving DecidableEq, Repr

/-- A partial sum rounded to F32 by RNE (R60). -/
def partialSum (x y : FVal) : FVal := decodeF (ffmt .f32) (roundNE (ffmt .f32) (fadd .rne x y))

/-- The reduction of lanes, those masked off already replaced by `none` (R227). -/
def reduceLanes (op : RedOp) (t : Tag) (r : Rnd) (draw : Nat) (l : List (Option Nat)) : Nat :=
  let w := tagWidth t
  let f := ffmt t
  if isInt t then
    let id : Int := match op with
      | .max => if isSigned t then -(2 ^ (w - 1) : Nat) else 0
      | .min => if isSigned t then (2 ^ (w - 1) : Nat) - 1 else (2 ^ w : Nat) - 1
      | .and => if isSigned t then -1 else (2 ^ w : Nat) - 1
      | _ => 0
    let v : List Int := l.map fun x => match x with | none => id | some a => laneInt t a
    match op with
    | .sum => wrapInt 64 (v.foldl (· + ·) 0)
    | .max => wrapInt w (tree (fun a b => if a ≤ b then b else a) 0 v)
    | .min => wrapInt w (tree (fun a b => if a ≤ b then a else b) 0 v)
    | .and => tree (· &&& ·) 0 (v.map (wrapInt w))
    | .or => tree (· ||| ·) 0 (v.map (wrapInt w))
    | .xor => tree (· ^^^ ·) 0 (v.map (wrapInt w))
  else
    let id : FVal := match op with
      | .max => .inf true
      | .min => .inf false
      | _ => .fin false 0 0
    let v : List FVal := l.map fun x => match x with | none => id | some a => decodeF f a
    match op with
    | .max => roundNE f (tree fmax id v)
    | .min => roundNE f (tree fmin id v)
    | _ =>
      match treeLevels partialSum (l.length.log2 - 1) v with
      | [x, y] => roundF f r (fadd r x y) (fun _ => Config.srDiscarded (32 + tagCode t) (l.foldl (fun n o => n * 2 ^ 32 + o.getD 0) 1)) draw
      | _ => 0

/-- A reduction instruction: the result in lane 0 of a zero register (R227). -/
def vreduce (op : RedOp) (ok : Tag → Bool) (rnd : Rnd) (d a : VNum) (k : KNum) (fa : Bool) (s : State) : Out :=
  .next (s.srcV fa a fun x s => s.needTag (ok x.tag) fun s => s.mask k fun m s =>
    let t := x.tag
    let n := tagLanes t
    let l := (List.range n).map fun e => if active m n e then some (laneOf (tagWidth t) x.val e) else none
    let dt := if op = .sum && isInt t then .i64 else t
    let v := reduceLanes op t rnd (s.drawAt 0) l
    let s := s.setV d dt (BitVec.ofNat 512 v)
    (if rnd = .sr && op = .sum && !isInt t then s.addDraws 1 else s).finish 4)

/-- R227: the sum, rounded once to va's tag, or I64 for integers. -/
def execVrsum (d a : VNum) (rnd : BitVec 3) (k : KNum) (fa : Bool) (s : State) : Out := vreduce .sum (LaneOp.okA .add) (rndOf rnd) d a k fa s
/-- R227: the maximum. -/
def execVrmax (d a : VNum) (k : KNum) (fa : Bool) (s : State) : Out := vreduce .max (LaneOp.okA .add) .rne d a k fa s
/-- R227: the minimum. -/
def execVrmin (d a : VNum) (k : KNum) (fa : Bool) (s : State) : Out := vreduce .min (LaneOp.okA .add) .rne d a k fa s
/-- R227: bitwise and. -/
def execVrand (d a : VNum) (k : KNum) (fa : Bool) (s : State) : Out := vreduce .and isInt .rne d a k fa s
/-- R227: bitwise or. -/
def execVrior (d a : VNum) (k : KNum) (fa : Bool) (s : State) : Out := vreduce .or isInt .rne d a k fa s
/-- R227: bitwise exclusive or. -/
def execVrxor (d a : VNum) (k : KNum) (fa : Bool) (s : State) : Out := vreduce .xor isInt .rne d a k fa s

/-! ### Conversions and block scales (R228, R229, R231) -/

/-- The elements of a group of registers in order (R214). -/
def groupLanes (t : Tag) (l : List VReg) : List Nat := l.flatMap fun x => lanesOf (tagWidth t) (tagLanes t) x.val

/-- R228. The destination tag is part of the encoding and is checked before the sources (log 22). -/
def execVcvt (d a : VNum) (dtag : BitVec 5) (rnd : BitVec 3) (k : KNum) (fa : Bool) (s : State) : Out :=
  .next (match vTagOfCode dtag.toNat with
    | none => s.trap 0x06
    | some .raw => s.trap 0x06
    | some dt =>
      s.srcV fa a fun x s => s.needTag (x.tag != .raw) fun s =>
        let E := max (tagLanes x.tag) (tagLanes dt)
        s.srcGroup fa a (fun t => t == x.tag) (E / tagLanes x.tag) 0 [] fun g s => s.mask k fun m s =>
          let l := s.mapDraw m E (fun dr e => convert x.tag dt (rndOf rnd) e dr) (groupLanes x.tag g)
          ((s.putGroup d dt m E (E / tagLanes dt) l).drawn (rndOf rnd) m E).finish 4)

/-- R229: Q8 or Q4 elements times the block scale, rounded to F32. -/
def execVscl (d a b : VNum) (k : KNum) (fa fb : Bool) (s : State) : Out :=
  .next (s.srcV fa a fun x s => s.needTag (x.tag == .q8 || x.tag == .q4) fun s =>
    s.srcV fb b fun y s => s.needTag (y.tag == .f32) fun s => s.mask k fun m s =>
      let sc := laneOf 32 y.val 0
      if !scaleValid sc then s.trap 0x0D
      else
        let E := tagLanes x.tag
        let l := (groupLanes x.tag [x]).map fun q =>
          roundNE (ffmt .f32) (fmul (srcVal x.tag q) (decodeF (ffmt .f32) sc))
        (s.putGroup d .f32 m E (E / 16) l).finish 4)

/-- One element of `vqnt`: the exact quotient rounded to an integer and saturated (R229). -/
def quantLane (t : Tag) (sc x : Nat) : Nat :=
  match decodeF (ffmt t) x, decodeF (ffmt .f32) sc with
  | .fin n ma ea, .fin _ mb eb => wrapInt 8 (saturate .q8 (roundMagInt .rne n ⟨ma, mb, ea - eb⟩ 0 0))
  | v, _ => toIntTag .q8 .rne v 0 0

/-- R229: float elements divided by the block scale, to Q8. -/
def execVqnt (d a b : VNum) (k : KNum) (fa fb : Bool) (s : State) : Out :=
  .next (s.srcV fa a fun x s => s.needTag (isFlt x.tag) fun s =>
    s.srcGroup fa a (fun t => t == x.tag) (64 / tagLanes x.tag) 0 [] fun g s =>
    s.srcV fb b fun y s => s.needTag (y.tag == .f32) fun s => s.mask k fun m s =>
      let sc := laneOf 32 y.val 0
      if !scaleValid sc then s.trap 0x0D
      else (s.putV d .q8 m ((groupLanes x.tag g).map (quantLane x.tag sc))).finish 4)

/-- R231: RT words reconstructed and checked, to I32. -/
def execVrtrec (d a : VNum) (k : KNum) (fa : Bool) (s : State) : Out :=
  .next (s.srcV fa a fun x s => s.needTag (x.tag == .n32 || x.tag == .i32) fun s => s.mask k fun m s =>
    let l := lanesOf 32 16 x.val
    if (List.range 16).any fun e => active m 16 e && !rtGood (laneOf 32 x.val e) then s.trap 0x0E
    else (s.putV d .i32 m (l.map fun w => wrapInt 32 (rtReconstruct w))).finish 4)

/-! ### Lane movement (R232 to R234) -/

/-- A slide or rotate: `src n i` names the lane taken, or none for zero (R232). -/
def vslide (src : Nat → Nat → Option Nat) (d a : VNum) (k : KNum) (fa : Bool) (s : State) : Out :=
  .next (s.srcV fa a fun x s => s.mask k fun m s =>
    let w := tagWidth x.tag
    let n := tagLanes x.tag
    let l := (List.range n).map fun i => match src n i with | none => 0 | some j => laneOf w x.val j
    (s.putV d x.tag m l).finish 4)
/-- R232: lane i − amt, or 0. -/
def execVsldu (d a : VNum) (amt : BitVec 6) (k : KNum) (fa : Bool) (s : State) : Out :=
  vslide (fun _ i => if amt.toNat ≤ i then some (i - amt.toNat) else none) d a k fa s
/-- R232: lane i + amt, or 0. -/
def execVsldd (d a : VNum) (amt : BitVec 6) (k : KNum) (fa : Bool) (s : State) : Out :=
  vslide (fun n i => if i + amt.toNat < n then some (i + amt.toNat) else none) d a k fa s
/-- R232: lane (i + amt) mod n. -/
def execVlrot (d a : VNum) (amt : BitVec 6) (k : KNum) (fa : Bool) (s : State) : Out :=
  vslide (fun n i => some ((i + amt.toNat) % n)) d a k fa s

/-- The index tag of a permute: an Int of va's lane width, I64 for RAW (R219). -/
def permIdx (ta tb : Tag) : Bool := if ta = .raw then tb == .i64 else isInt tb && tagWidth tb = tagWidth ta
/-- R233: va lane (x mod n). -/
def execVperm (d a b : VNum) (k : KNum) (fa fb : Bool) (s : State) : Out :=
  .next (s.srcV fa a fun x s => s.needTag (x.tag != .q4) fun s =>
    s.srcV fb b fun y s => s.needTag (permIdx x.tag y.tag) fun s => s.mask k fun m s =>
      let w := tagWidth x.tag
      let n := tagLanes x.tag
      (s.putV d x.tag m ((lanesOf w n y.val).map fun i => laneOf w x.val (i % n))).finish 4)
/-- R233: lane (x mod 2n) of va and va + 1, which is checked after vb. -/
def execVperm2 (d a b : VNum) (k : KNum) (fa fb : Bool) (s : State) : Out :=
  .next (s.srcV fa a fun x s => s.needTag (x.tag != .q4) fun s =>
    s.srcV fb b fun y s => s.needTag (permIdx x.tag y.tag) fun s =>
    s.srcV false (vAt a 1) fun z s => s.needTag (z.tag == x.tag) fun s => s.mask k fun m s =>
      let w := tagWidth x.tag
      let n := tagLanes x.tag
      let f (i : Nat) : Nat := if i % (2 * n) < n then laneOf w x.val (i % (2 * n)) else laneOf w z.val (i % (2 * n) - n)
      (s.putV d x.tag m ((lanesOf w n y.val).map f)).finish 4)

/-- Two sources of the same lane width, two destinations with va's tag (R234). -/
def vzipOp (f : List Nat → List Nat → List Nat × List Nat) (d a b : VNum) (fa fb : Bool) (s : State) : Out :=
  .next (s.srcV fa a fun x s => s.srcV fb b fun y s => s.needTag (tagWidth x.tag = tagWidth y.tag) fun s =>
    let w := tagWidth x.tag
    let n := tagLanes x.tag
    let (lo, hi) := f (lanesOf w n x.val) (lanesOf w n y.val)
    ((s.setV d x.tag (packLanes w lo)).setV (vAt d 1) x.tag (packLanes w hi)).finish 4)
/-- Two lists interleaved. -/
def interleave : List Nat → List Nat → List Nat
  | x :: xs, y :: ys => x :: y :: interleave xs ys
  | _, _ => []
/-- Every second element, the first among them. -/
def evens : List Nat → List Nat
  | x :: _ :: r => x :: evens r
  | l => l
/-- R234: interleaves. -/
def execVzip (d a b : VNum) (fa fb : Bool) (s : State) : Out :=
  vzipOp (fun x y => let l := interleave x y; (l.take x.length, l.drop x.length)) d a b fa fb s
/-- R234: de-interleaves. -/
def execVunzip (d a b : VNum) (fa fb : Bool) (s : State) : Out :=
  vzipOp (fun x y => (evens (x ++ y), evens ((x ++ y).drop 1))) d a b fa fb s

/-! ### Tag forms and moves (R235) -/

/-- R235: va's bits under the named tag. -/
def execVtagw (d a : VNum) (tag : BitVec 5) (fa : Bool) (s : State) : Out :=
  .next (match vTagOfCode tag.toNat with
    | none => s.trap 0x06
    | some t => s.srcV fa a fun x s => (s.setV d t x.val).finish 4)
/-- R235: va's tag code. -/
def execVtag (d : GNum) (a : VNum) (fa : Bool) (s : State) : Out :=
  .next (s.srcV fa a fun x s => s.putG 4 d (BitVec.ofNat 64 (tagCode x.tag)))
/-- R235: g[a] in every active lane. -/
def execVbcast (d : VNum) (a : GNum) (tag : BitVec 5) (k : KNum) (fa : Bool) (s : State) : Out :=
  .next (match vTagOfCode tag.toNat with
    | none => s.trap 0x06
    | some t => s.srcG fa a fun x s => s.mask k fun m s =>
      (s.putV d t m (List.replicate (tagLanes t) (x.toNat % 2 ^ tagWidth t))).finish 4)
/-- R235: va[63:0]. -/
def execVmovg (d : GNum) (a : VNum) (fa : Bool) (s : State) : Out :=
  .next (s.srcV fa a fun x s => s.putG 4 d (x.val.extractLsb' 0 64))

/-! ### Mask operations (R236) -/

/-- Two masks to one. -/
def kop2 (f : Word → Word → Word) (d a b : KNum) (s : State) : Out :=
  .next (s.mask a fun x s => s.mask b fun y s => (s.setK d (f x y)).finish 4)
/-- R236. -/
def execKand (d a b : KNum) (s : State) : Out := kop2 (· &&& ·) d a b s
/-- R236. -/
def execKor (d a b : KNum) (s : State) : Out := kop2 (· ||| ·) d a b s
/-- R236. -/
def execKxor (d a b : KNum) (s : State) : Out := kop2 (· ^^^ ·) d a b s
/-- R236: ka and not kb. -/
def execKandn (d a b : KNum) (s : State) : Out := kop2 (fun x y => x &&& ~~~y) d a b s
/-- R236. -/
def execKnot (d a : KNum) (s : State) : Out := .next (s.mask a fun x s => (s.setK d (~~~x)).finish 4)
/-- R236: kd := g[a]. -/
def execKfromg (d : KNum) (a : GNum) (fa : Bool) (s : State) : Out := .next (s.srcG fa a fun x s => (s.setK d x).finish 4)
/-- R236: g[d] := ka. -/
def execKtog (d : GNum) (a : KNum) (s : State) : Out := .next (s.mask a fun x s => s.putG 4 d x)
/-- R236: the number of one bits. -/
def execKpop (d : GNum) (a : KNum) (s : State) : Out := .next (s.mask a fun x s => s.putG 4 d (BitVec.ofNat 64 (popLane 64 x.toNat)))
/-- Index of the lowest one bit below w, or w. -/
def lowestBit : Nat → Nat → Nat
  | 0, _ => 0
  | w + 1, x => if x % 2 = 1 then 0 else lowestBit w (x / 2) + 1
/-- R236: the index of the lowest one bit, or 64. -/
def execKfirst (d : GNum) (a : KNum) (s : State) : Out := .next (s.mask a fun x s => s.putG 4 d (BitVec.ofNat 64 (lowestBit 64 x.toNat)))

end Sys2Proof.Machine
end

