-- ==== Sys2Proof/Machine/Exchange.lean ====
section
/-!
DEFINITION. Sys2Proof/Machine/Exchange.lean: the copy engine: the seven transfers at issue (R253 to R258), their requests,
data and completion (R106, R128 to R132, R257), ingest (R402), host reads and writes (R422), ATS invalidations (R427).
-/
namespace Sys2Proof.Machine

/-! ### Operations in flight -/

/-- An operation of the copy engine. -/
def State.copy? (s : State) (id : Nat) : Option CopyOp := s.eng.copies.find? fun o => o.id = id
/-- It changed. -/
def State.updCopy (s : State) (id : Nat) (f : CopyOp → CopyOp) : State :=
  s.updEng fun e => { e with copies := e.copies.map fun o => if o.id = id then f o else o }
/-- The operation that a request tag belongs to. -/
def State.copyOfTag (s : State) (tag : Nat) : Option (CopyOp × CopyReq) :=
  s.eng.copies.findSome? fun o => (o.out.find? fun r => r.tag = tag).map fun r => (o, r)
/-- Requests have all been sent and answered. -/
def CopyOp.done (o : CopyOp) : Bool := decide (o.rows ≤ o.row) && o.out.isEmpty
/-- A request (or a part of one) of an operation fails with a status. -/
def CopyOp.fail (o : CopyOp) (at_ : Nat) (st : BitVec 4) : CopyOp := { o with fails := o.fails ++ [(at_, st)] }
/-- The offset from the destination at which row i begins (R255). -/
def CopyOp.rowAt (o : CopyOp) (i : Nat) : Nat :=
  match o.kind with
  | .pull2d => i * o.dpitch
  | .pullG => i * o.len
  | _ => 0
/-- The source of row i (R255). -/
def CopyOp.rowSrc (o : CopyOp) (i : Nat) : Word :=
  match o.kind with
  | .pull2d => o.src + BitVec.ofNat 64 (i * o.spitch)
  | .pullG => o.list.getD i 0
  | _ => o.src
/-- n bytes of the present row have been dealt with. -/
def CopyOp.advance (o : CopyOp) (n : Nat) : CopyOp :=
  if o.len ≤ o.pos + n then { o with row := o.row + 1, pos := 0 } else { o with pos := o.pos + n }
/-- The whole rest of the present row has been dealt with. -/
def CopyOp.skipRow (o : CopyOp) : CopyOp := { o with row := o.row + 1, pos := 0 }
/-- The FEAT0 bits that a source request of the operation needs (R435). -/
def CopyOp.need (o : CopyOp) : BitVec 16 :=
  if o.kind ≠ .pullAdd then 7 else match o.tag with
  | .rt => 0x47
  | .f32 | .bf16 | .f16 => 0x27
  | _ => 7

/-- The next event of an operation: another request, or its completion (R131). -/
def State.copyNext (s : State) (id : Nat) : State :=
  match s.copy? id with
  | none => s
  | some o => if o.done then s.post (.copyOpCompletion id) else if o.row < o.rows then s.post (.copyRequestSend id) else s
/-- As `copyNext`, after a reply: requests that remain have their event already. -/
def State.copySettled (s : State) (id : Nat) : State :=
  match s.copy? id with
  | none => s
  | some o => if o.done then s.post (.copyOpCompletion id) else s

/-- EXPB of the operation's context grows by the bytes of a request (R132); `hsend` counts nothing. -/
def State.expect (s : State) (o : CopyOp) (n : Nat) : State :=
  if o.kind = .hsend then s else s.updCtx o.owner fun x => { x with expb := x.expb + BitVec.ofNat 64 n }
/-- RCVB grows by bytes accepted (R132). -/
def State.accept (s : State) (o : CopyOp) (n : Nat) : State :=
  if o.kind = .hsend then s else s.updCtx o.owner fun x => { x with rcvb := x.rcvb + BitVec.ofNat 64 n }
/-- A request that ends with a status other than OK and 7 takes its bytes from EXPB again (R132). -/
def State.unexpect (s : State) (o : CopyOp) (n : Nat) (st : BitVec 4) : State :=
  if o.kind = .hsend || st = 0 || st = 7 then s else s.updCtx o.owner fun x => { x with expb := x.expb - BitVec.ofNat 64 n }

/-- A walk of an operation gives WALKNR: trap 0x18 in the issuing context (R358), where no fatal fault of it is under way (R380). -/
def State.engineWalkNr (s : State) (c : CtxId) : State :=
  if (s.getCtx c).st = .idle || s.isDying c then s else (s.abandonWait c).trapAt c 0x18 0 0 0 .none

/-- What an engine access to own memory meets, with the waits it may make (R358, R362): allowed at a key, a status, or to be
tried again. -/
inductive EngAcc where
  | ok (key : Nat)
  | status (st : BitVec 4)
  | again
  deriving DecidableEq, Repr

/-- The checks of an engine access of n bytes within one page, at the issuing level (R352, R358). -/
def State.engineAcc (s : State) (c : CtxId) (sup : Bool) (p : Perm) (o n : Nat) : EngAcc × State :=
  match s.access 5 sup p o n with
  | (.ok key, s) => (.ok key, s)
  | (.unmapped, s) => (.status 6, s)
  | (.denied _, s) => (.status 5, s)
  | (.nonres vpn _, s) => (.again, s.triggerRecall vpn)
  | (.walknr, s) => (.status 6, s.engineWalkNr c)
  | (.mig _, s) =>
    let (n, s) := s.draw
    if Config.freeBool n then (.again, s) else (.status 6, s.engineWalkNr c)
  | (.err, s) => (.again, s.urge (.event (.clusterKill s.me)))

/-! ### Requests (R130) -/

/-- The bytes of the next source request: what is left of its aligned 4 KiB span of the source, or of the row (R130, R301, log 28). -/
def CopyOp.reqLen (o : CopyOp) (a : Nat) : Nat := min (o.len - o.pos) (4096 - a % 4096)
/-- A source request of an operation is out. -/
def State.copyOut (s : State) (id : Nat) (r : CopyReq) (n : Nat) : State :=
  s.updCopy id fun o => ({ o with out := o.out ++ [r] } : CopyOp).advance n

/-- The request to a remote owner (R77, R254). -/
def State.copyRemote (s : State) (o : CopyOp) (owner : ClusterId) (a : Word) : State :=
  let n := o.reqLen (offOf a)
  let (tag, s) := s.sendRead (.copy o.id) owner (offOf a) n o.clk .engine o.route o.need
  ((s.expect o n).copyOut o.id ⟨tag, a, o.rowAt o.row + o.pos, n, none⟩ n).copyNext o.id

/-- An operation asks for its next source request when it is its turn; the one being read locally goes on first. -/
def State.copyTurn (s : State) (id : Nat) : State :=
  match s.copy? id with
  | none => s
  | some o => if o.row < o.rows then s.post (.copyRequestSend id) else s

/-- The host pages of n bytes at an address. -/
def hostPages (a n : Nat) : List Nat := (List.range ((a + n - 1) / 4096 - a / 4096 + 1)).map fun i => a / 4096 + i
/-- Host pages translated through ATS (R422): those that the translation cache does not hold are asked for, and whether the host
translates one is free; a page enters the cache in place of any other where its 4,096 entries are taken (R421, log 106). -/
def State.translate (s : State) : List Nat → Bool × State
  | [] => (true, s)
  | p :: r =>
    if s.mod.atc.contains p then s.translate r
    else
      let (n, s) := s.drawN 2
      if Config.freeBool n then (false, s)
      else
        (s.updMod fun m =>
          { m with atc := (if m.atc.length < 4096 then m.atc else m.atc.eraseIdx (Config.freeNat (n + 1) % m.atc.length)) ++ [p] }).translate r
/-- A failed translation ends an operation with status 5 (R422). -/
def State.copyUntranslated (s : State) (o : CopyOp) : State :=
  (s.updCopy o.id fun x => { x.fail o.pos 5 with row := x.rows }).copyNext o.id

/-- The bytes of the host that the request of n bytes at a covers: 4,112 for an ingest record (R402). -/
def CopyOp.hostLen (o : CopyOp) (n : Nat) : Nat := if o.ingest.isSome then 4112 else n
/-- A request to the host for `hget`: of at most 4,096 bytes, or for a whole ingest record where the destination is an ingest buffer, in
two reads of 4,096 and 16 bytes whose data comes as one reply (R402, R421, R422). -/
def State.copyHostRead (s : State) (o : CopyOp) : State :=
  let n := min 4096 (o.len - o.pos)
  let a := if o.ingest.isSome then o.src + BitVec.ofNat 64 (4112 * (o.pos / 4096)) else o.src + BitVec.ofNat 64 o.pos
  match s.translate (hostPages a.toNat (o.hostLen n)) with
  | (false, s) => s.copyUntranslated o
  | (true, s) =>
    let (tag, s) := s.newTag
    let s := s.toHost (.read tag a n)
    let s := (if o.ingest.isSome then s.toHost (.read tag (a + 4096) 16) else s).expect o n
    (s.copyOut o.id ⟨tag, a, o.pos, n, none⟩ n).copyNext o.id

/-- The flush read of `hsend`, once its last write has left (R422). -/
def State.copyFlush (s : State) (o : CopyOp) : State :=
  let (tag, s) := s.newTag
  (s.toHost (.flush tag)).updCopy o.id fun o => { o with flushed := true, out := o.out ++ [⟨tag, o.dst, 0, 0, none⟩] }
/-- n bytes of `hsend` have been dealt with: the next ones, or the flush read. -/
def State.copySent (s : State) (o : CopyOp) (n : Nat) : State :=
  let s := s.updCopy o.id fun o => o.advance n
  if o.len ≤ o.pos + n then s.copyFlush o else s.copyNext o.id

/-- A posted write of `hsend`, at most 512 bytes in ascending order; after the last one the flush read (R422). A page of the source
that fails gives its part its status, and the other pages go on (R357). A host page that is not translated ends the operation. How much of the 512 bytes one write holds is free (log 28). -/
def State.copyHostWrite (s : State) (o : CopyOp) : State :=
  let a := offOf (o.src + BitVec.ofNat 64 o.pos)
  match s.engineAcc o.owner o.sup .rd a (min (o.len - o.pos) (min 512 (4096 - a % 4096))) with
  | (.again, s) => s.post (.copyRequestSend o.id)
  | (.status st, s) =>
    let n := min (o.len - o.pos) (2 ^ 16 - a % 2 ^ 16)
    (s.updCopy o.id fun x => x.fail o.pos st).copySent o n
  | (.ok key, s) =>
    let (n, s) := s.readPiece a (min (o.len - o.pos) (min 512 (4096 - a % 4096)))
    let t := s.engineReadTime a n o.clk
    if clockLimit ≤ t then (s.updCopy o.id fun x => { x.fail o.pos 7 with row := x.rows, clkLimit := true }).copyNext o.id
    else match s.translate (hostPages (o.dst + BitVec.ofNat 64 o.pos).toNat n) with
    | (false, s) => s.copyUntranslated o
    | (true, s) =>
      let s := (s.engineRead a n o.clk).toHost (.write (o.dst + BitVec.ofNat 64 o.pos) (s.bytes key n))
      (s.updCopy o.id fun o => { o with time := max o.time t }).copySent o n

/-- The list of `pull.g`, its first access (R255). It is read as engine reads are, granule by granule (R106). -/
def State.copyList (s : State) (o : CopyOp) : State :=
  let at_ := o.listAt + 8 * o.list.length
  let rest := 8 * (o.rows - o.list.length)
  let failed (st : BitVec 4) (lim : Bool) (s : State) : State :=
    (s.updCopy o.id fun o => { o.fail 0 st with row := o.rows, listRead := true, clkLimit := o.clkLimit || lim }).copyNext o.id
  match s.engineAcc o.owner o.sup .rd at_ rest with
  | (.again, s) => s.post (.copyRequestSend o.id)
  | (.status st, s) => failed st false s
  | (.ok key, s) =>
    let (n, s) := s.readPiece at_ rest
    let t := s.engineReadTime at_ n o.clk
    if clockLimit ≤ t then failed 7 true s
    else
      let l := o.list ++ (List.range (n / 8)).map fun i => s.word (key + 8 * i)
      ((s.engineRead at_ n o.clk).updCopy o.id fun o =>
        { o with list := l, listRead := decide (o.rows ≤ l.length), time := max o.time t }).copyNext o.id

/-! ### Data (R129, R131) -/

/-- dst + src of one 8-byte word, element by element (R129). RT words are added field by field whatever they hold: that an operand
is malformed stops an instruction that reads it (R54), and the rules say nothing of an accumulating pull (DESIGN CHOICE, log 82). -/
def addWord (t : Tag) (old new : Nat) : Nat :=
  let w := tagWidth t
  let n := 64 / w
  packNat w ((List.range n).map fun i =>
    let a := old / 2 ^ (w * i) % 2 ^ w
    let b := new / 2 ^ (w * i) % 2 ^ w
    match t with
    | .rt => rtAdd a b
    | .f32 | .bf16 | .f16 => laneFltOp .add t a b
    | _ => (a + b) % 2 ^ w)

/-- Words written at a window offset, each a LocalWrite (or a LocalReadWrite for an accumulating operation) at the operation
clock; the arrival flag makes a word full (R72, R106). -/
def State.copyWords (s : State) (o : CopyOp) (off key at_ : Nat) : List Nat → State
  | [] => s
  | w :: r =>
    let t := s.writeTime (granule off) o.clk
    if clockLimit ≤ t then s.updCopy o.id fun x => { x.fail at_ 7 with clkLimit := true }
    else
      let v := if o.kind = .pullAdd then addWord o.tag (s.num key 8) w else w
      let s := (s.stampWrite (granule off) t).writeOwn off key (toLe 8 v) t
      let s := if o.fe then s.setFE (off / 8) true else s
      (s.updCopy o.id fun x => { x with time := max x.time t }).copyWords o (off + 8) (key + 8) (at_ + 8) r

/-- The 8-byte words of some bytes. -/
def wordsOf (l : List Byte) : List Nat := (List.range (l.length / 8)).map fun i => leNat ((l.drop (8 * i)).take 8)

/-- The parts of a destination span by 64 KiB page: offset from its start and bytes. -/
def pageParts (off n : Nat) : List (Nat × Nat) :=
  let first := 2 ^ 16 - off % 2 ^ 16
  if n ≤ first then [(0, n)]
  else (0, first) :: (List.range ((n - first + 2 ^ 16 - 1) / 2 ^ 16)).map fun i =>
    (first + i * 2 ^ 16, min (2 ^ 16) (n - first - i * 2 ^ 16))

/-- Data written to an operation's destination part by part; a part that the checks deny keeps its old values and fails the
request there (R131, R357). Answers also whether a part waits for a recall that it has triggered (R91, R365); then nothing has been
written. -/
def State.copyStore (s : State) (o : CopyOp) (at_ : Nat) (l : List Byte) : Bool × State :=
  let off := offOf o.dst + at_
  let (acc, s) := (pageParts off l.length).foldl (fun (x : List (Nat × Nat × EngAcc) × State) p =>
    let (r, s) := x.2.engineAcc o.owner o.sup .wr (off + p.1) p.2
    (x.1 ++ [(p.1, p.2, r)], s)) ([], s)
  if acc.any fun p => p.2.2 = .again then (true, s)
  else (false, acc.foldl (fun s p =>
    match p.2.2 with
    | .ok key => s.copyWords o (off + p.1) key (at_ + p.1) (wordsOf ((l.drop p.1).take p.2.1))
    | .status st => s.updCopy o.id fun o => o.fail (at_ + p.1) st
    | .again => s) s)

/-- The host pages that a request of an operation touches; the flush read of `hsend` touches none (R422, R427). -/
def CopyOp.pagesOf (o : CopyOp) (r : CopyReq) : List Nat := if o.kind = .hget then hostPages r.src.toNat (o.hostLen r.len) else []
/-- The invalidation of a host page is complete once no request for it is out (R427). -/
def State.atsCheck (s : State) (page : Nat) : State :=
  if s.mod.ats.contains page && !(s.eng.copies.any fun o => o.out.any fun r => (o.pagesOf r).contains page) then
    ((s.updMod fun m => { m with ats := m.ats.filter (· ≠ page) }).toHost (.invalidated page)).cancel (.atsInvalTimeout page)
  else s

/-- A request has had its final reply. -/
def State.copyAnswered (s : State) (o : CopyOp) (r : CopyReq) : State :=
  let s := (s.settle r.tag).updCopy o.id fun o => { o with out := o.out.filter fun x => x.tag ≠ r.tag }
  ((o.pagesOf r).foldl (fun s p => s.atsCheck p) s).copySettled o.id

/-- A request of an operation has data still to be written. -/
def State.copyHold (s : State) (o : CopyOp) (r : CopyReq) (at_ : Nat) (l : List Byte) (t : Nat) : State :=
  (s.updCopy o.id fun o => { o with out := o.out.map fun x => if x.tag = r.tag then { x with at_ := at_, data := some l } else x }).post
    (.pullDataReply r.tag [] t)
/-- Accepted data of a request written word by word; how many words in one go is free, since the writes of an operation are
unordered against other accesses (R106). A destination on a non-resident page waits for its recall (R91). -/
def State.copyPiece (s : State) (o : CopyOp) (r : CopyReq) (l : List Byte) (t : Nat) : State :=
  let (n, s) := s.writePiece l.length
  match s.copyStore o r.at_ (l.take n) with
  | (true, s) => s.copyHold o r r.at_ l t
  | (false, s) =>
    let s := s.updCopy o.id fun o => { o with time := max o.time t }
    if l.length ≤ n then s.copyAnswered o r else s.copyHold o r (r.at_ + n) (l.drop n) t

/-- The ingest key of a participant, once it has been delivered (R401). -/
def Partition.ikey (p : Partition) (ptag : Nat) : Option Nat := (p.ikeys.find? fun k => k.1 = ptag).map (·.2)
/-- The plaintext of an ingest record, when its tag passes under the participant's key with its next SEQ (R402). -/
def State.openRecord (s : State) (p : Nat) (l : List Byte) : Option (List Byte) :=
  match s.partition?.bind fun pt => (pt.ikey p).map fun key => (pt, key) with
  | none => none
  | some (pt, key) =>
    let seq := mapGet 0 pt.iseq p
    let nonce := p * 2 ^ 80 + seq * 2 ^ 16
    let c := l.take 4096
    let tag : BitVec 128 := BitVec.ofNat 128 (leNat (l.drop 4096))
    if pt.revoked.contains p || l.length ≠ 4112 || tag ≠ Config.authTag key nonce c then none
    else some ((List.range 4096).map fun i => c.getD i 0 ^^^ Config.keystream key nonce i)

/-- An ingest record for an operation (R402): records are taken in order; the first that fails ends the operation's writing. -/
def State.copyIngest (s : State) (o : CopyOp) (r : CopyReq) (p : Nat) (l : List Byte) (t : Nat) : State :=
  if o.out.any fun x => decide (x.at_ < r.at_) && x.data.isNone then s.post (.pullDataReply r.tag l t)
  else
    let bad (s : State) : State := ((s.unexpect o r.len 5).updCopy o.id fun o => o.fail r.at_ 5).copyAnswered o r
    if !o.fails.isEmpty then bad s
    else match s.openRecord p l with
      | none => bad s
      | some d =>
        let s := s.updPart (s.cl.part.getD 0) fun pt => { pt with iseq := mapSet 0 pt.iseq p (mapGet 0 pt.iseq p + 1) }
        (s.accept o r.len).copyPiece o r d t

/-- PULL_DATA_REPLY, R131, R132, R153, R366: data of a source request, or of a recalled slot; or the next words of data that has
been accepted, and a later copy of which is dropped (R110). -/
def execPullDataReply (tag : Nat) (bytes : List Byte) (t : Nat) (s : State) : Out :=
  .next (match s.copyOfTag tag with
    | some (o, r) =>
      if o.kind = .hsend then s.copyAnswered o r
      else match r.data, o.ingest with
        | some l, _ => s.copyPiece o r l t
        | none, some p => s.copyIngest o r p bytes t
        | none, none => (s.accept o r.len).copyPiece o r (bytes.take r.len) t
    | none =>
      match s.request? tag with
      | some q => match q.who with
        | .recall vpn k => s.recallData q vpn k bytes
        | _ => s
      | none => s)

/-- A final status for any request of the cluster (R78, R131, R366). -/
def State.requestFailed (s : State) (tag : Nat) (st : BitVec 4) : State :=
  match s.copyOfTag tag with
  | some (o, r) =>
    if r.data.isSome then s else ((s.unexpect o r.len st).updCopy o.id fun o => o.fail r.at_ st).copyAnswered o r
  | none => match s.request? tag with
    | some q => s.failRequest q st
    | none => s
/-- A source request to own memory goes on (R106, R257): granules are read up to a free one, each placed as an EngineRead; with the
last of them its data goes to the destination as a reply's does. It is translated once (R360). Beyond the clock limit the request ends with status 7 (R114), which
leaves its bytes in EXPB as R132 says of every request. -/
def State.localRead (s : State) (o : CopyOp) (r : CopyReq) (got : List Byte) (t0 : Nat) : State :=
  let a := offOf r.src
  let me := s.me
  let done (s : State) : State := s.updCl fun c => { c with serving := c.serving.filter fun x => !(x.1 = me && x.2.1 = r.tag) }
  let acc : EngAcc × State := match s.cl.served me r.tag with
    | (_, _, some key) => if s.badWord key r.len then (.again, s.urge (.event (.clusterKill me))) else (.ok key, s)
    | _ => s.engineAcc o.owner o.sup .rd a r.len
  match acc with
  | (.again, s) => s.post (.copyRequestSend o.id)
  | (.status st, s) => ((done s).requestFailed r.tag st).copyTurn o.id
  | (.ok key, s) =>
    let (n, s) := s.readPiece (a + got.length) (r.len - got.length)
    let t := s.engineReadTime (a + got.length) n o.clk
    if clockLimit ≤ t then
      (((done s).updCopy o.id fun o => { o with clkLimit := true }).requestFailed r.tag 7).copyTurn o.id
    else
      let l := got ++ s.bytes (key + got.length) n
      let s := done (s.engineRead (a + got.length) n o.clk)
      let s := s.updCopy o.id fun o => { o with time := max o.time t }
      if r.len ≤ l.length then (s.post (.pullDataReply r.tag l (max t0 t))).copyTurn o.id
      else (s.updCl fun c => { c with serving := c.serving ++ [(me, r.tag, l, max t0 t, some key)] }).post (.copyRequestSend o.id)

/-- The source request of an operation that is being read locally. -/
def State.localReading (s : State) (o : CopyOp) : Option (CopyReq × List Byte × Nat) :=
  o.out.findSome? fun r =>
    (s.cl.serving.find? fun x => x.1 = s.me && x.2.1 = r.tag).map fun x => (r, x.2.2.1, x.2.2.2.1)

/-- A source request to own memory begins: EXPB grows when the engine starts reading it (R132). -/
def State.copyLocal (s : State) (o : CopyOp) (a : Word) : State :=
  let n := o.reqLen (offOf a)
  let (tag, s) := s.newTag
  let r : CopyReq := ⟨tag, a, o.rowAt o.row + o.pos, n, none⟩
  let s := (s.expect o n).copyOut o.id r n
  (s.updCl fun c => { c with serving := c.serving ++ [(s.me, tag, [], 0, none)] }).localRead o r [] 0

/-- COPY_REQUEST_SEND, R130, R132, R255, R422: the operation's next source request. A source owner outside the partition ends an
element of `pull.g` with status 5 (R255); a pull task ends with the same status there, which the rules leave open (R67; DESIGN
CHOICE, log 81). -/
def execCopyRequestSend (op : Nat) (s : State) : Out :=
  .next (match s.copy? op with
    | none => s
    | some o =>
      match s.localReading o with
      | some (r, got, t) => s.localRead o r got t
      | none =>
      if o.rows ≤ o.row then s
      else match o.kind with
        | .hget => s.copyHostRead o
        | .hsend => s.copyHostWrite o
        | _ =>
          if o.kind = .pullG && !o.listRead then s.copyList o
          else
            let a := o.rowSrc o.row + BitVec.ofNat 64 o.pos
            let at_ := o.rowAt o.row + o.pos
            let owner := if o.kind = .copy then s.me else resolve s.me a
            if a.toNat % 8 ≠ 0 then (s.updCopy op fun o => (o.fail at_ 6).skipRow).copyNext op
            else if owner = s.me then s.copyLocal o a
            else if !s.cl.members.contains owner then (s.updCopy op fun o => (o.fail at_ 5).skipRow).copyNext op
            else s.copyRemote o owner a)

/-- REMOTE_STATUS_REPLY, R78, R131. -/
def execRemoteStatusReply (tag : Nat) (st : BitVec 4) (s : State) : Out := .next (s.requestFailed tag st)
/-- DEFER_LIMIT_EXPIRY, R80: status 2. -/
def execDeferLimitExpiry (tag : Nat) (s : State) : Out := .next (s.requestFailed tag 2)
/-- HOST_COMPLETION_TIMEOUT, R422: the requests that are out end with status 5. -/
def execHostCompletionTimeout (op : Nat) (s : State) : Out :=
  .next (match s.copy? op with
    | none => s
    | some o =>
      if o.kind = .hget || o.kind = .hsend then o.out.foldl (fun s r => s.requestFailed r.tag 5) s else s)

/-- The status of an operation: of its failed request with the lowest destination offset (R131). An abandoned request (R132) counts
as a request that failed with status 7, so that a failure at a lower offset decides (DEDUCED, log 83). -/
def CopyOp.status (o : CopyOp) : BitVec 4 :=
  match o.fails with
  | [] => 0
  | f :: r => (r.foldl (fun m x => if x.1 < m.1 then x else m) f).2

/-- COPY_OP_COMPLETION, R107, R114, R115, R131: the status goes to the timeline, or to the task. Trap 0x1F becomes due to the issuer for
an access of its own cluster past the clock limit alone; a remote source request that its owner answers with status 7 gives the status
and no trap (R114, log 105). -/
def execCopyOpCompletion (op : Nat) (s : State) : Out :=
  .next (match s.copy? op with
    | none => s
    | some o =>
      if !o.done then s
      else
        let st : BitVec 4 := if o.clkLimit then 7 else o.status
        let s := s.updEng fun e => { e with copies := e.copies.filter fun x => x.id ≠ op }
        let s := s.updCtx o.owner fun x => { x with copyTime := max x.copyTime o.time, clkTrap := x.clkTrap || o.clkLimit }
        match o.task with
        | none =>
          let s := s.tlComplete o.owner o.tl o.n st 0 o.time
          if s.eng.tasks.any fun t => t.ready && t.visible then s.postOnce .taskLaunch else s
        | some idx =>
          let s := s.updEng fun e => { e with tasks := e.tasks.map fun t =>
            if t.idx = idx then { t with status := st, time := o.time } else t }
          s.post (.taskCompletion idx))

/-! ### Invalidations of host pages (R427) -/

/-- The host addresses of an operation's remaining requests meet a page. -/
def CopyOp.restMeets (o : CopyOp) (page : Nat) : Bool :=
  (o.kind = .hget || o.kind = .hsend) && decide (o.row < o.rows) &&
    let a := (if o.kind = .hget then o.src else o.dst).toNat
    decide ((a + o.pos) / 4096 ≤ page) && decide (page ≤ (a + (if o.ingest.isSome then o.len / 4096 * 4112 else o.len) - 1) / 4096)

/-- ATS_INVALIDATION: nothing more is issued with the translation, operations that still needed it end with status 5; the
completion waits for the requests that are out. -/
def execAtsInvalidation (page : Nat) (s : State) : Out :=
  .next (
    let ops := s.eng.copies.filter fun o => o.restMeets page
    let s := ops.foldl (fun s o =>
      (s.updCopy o.id fun x => { x.fail x.pos 5 with row := x.rows }).copySettled o.id) s
    ((s.updMod fun m => { m with ats := m.ats ++ [page], atc := m.atc.filter (· ≠ page) }).post (.atsInvalTimeout page)).atsCheck page)

/-- ATS_INVAL_TIMEOUT: requests still out are abandoned with status 5; the completion is sent. -/
def execAtsInvalTimeout (page : Nat) (s : State) : Out :=
  .next (
    let l := s.eng.copies.flatMap fun o => (o.out.filter fun r => (o.pagesOf r).contains page).map (·.tag)
    (l.foldl (fun s tag => s.requestFailed tag 5) s).atsCheck page)

/-! ### Issue (R254 to R256) -/

/-- The fields of a transfer at issue, from a descriptor or a task record. -/
structure Transfer where
  kind : CopyKind
  route : Nat
  fe : Bool
  tagCode : Nat
  len : Nat
  rows : Nat
  spitch : Nat
  dpitch : Nat
  listAt : Nat
  reserved : Bool
  deriving DecidableEq, Repr

/-- A transfer of descriptor D and shape word g (R254, R255). -/
def transferOf (kind : CopyKind) (D g : Word) : Transfer :=
  let base : Transfer := ⟨kind, bits D 62 2, bits D 61 1 = 1, bits D 56 5, bits D 0 25, 1, 0, 0, 0, bits D 53 1 ≠ 0 || bits D 25 12 ≠ 0⟩
  match kind with
  | .pull2d => { base with rows := bits g 48 16, spitch := bits g 24 24, dpitch := bits g 0 24 }
  | .pullG => { base with rows := bits g 48 16, listAt := bits g 0 23, reserved := base.reserved || bits g 23 25 ≠ 0 }
  | _ => base

/-- The tags of `pull.add` (R129). -/
def addTag (n : Nat) : Option Tag :=
  match tagOfCode n with
  | some .i32 => some .i32
  | some .i64 => some .i64
  | some .f32 => some .f32
  | some .bf16 => some .bf16
  | some .f16 => some .f16
  | some .rt => some .rt
  | _ => none

/-- LEN, ROWS, COUNT and DPITCH lie in their ranges (R254, R255). -/
def Transfer.inRange (x : Transfer) : Bool :=
  decide (8 ≤ x.len) && decide (x.len ≤ 16777216) && x.len % 8 = 0 &&
    match x.kind with
    | .pull2d => decide (1 ≤ x.rows) && (x.rows = 1 || decide (x.len ≤ x.dpitch))
    | .pullG => decide (1 ≤ x.rows) && decide (x.rows ≤ 4096)
    | _ => true

/-- Bytes from the first to the last one written. -/
def Transfer.span (x : Transfer) : Nat :=
  match x.kind with
  | .pull2d => x.dpitch * (x.rows - 1) + x.len
  | .pullG => x.rows * x.len
  | _ => x.len

/-- What ingest buffers make of an `hget` (R402): the participant of the buffer it lies in, nothing where it touches none, or
it is not allowed. -/
inductive Ingest where
  | plain | into (p : Nat) | bad
  deriving DecidableEq, Repr

/-- The ingest buffers of the cluster against a destination: it may lie wholly in several buffers of one participant. -/
def State.ingestOf (s : State) (o n : Nat) : Ingest :=
  let bufs := ((s.partition?.map fun p => p.bufs).getD []).filter fun b =>
    b.cl = s.me && decide (b.start < o + n) && decide (o < b.start + b.len)
  match bufs with
  | [] => .plain
  | b :: r =>
    if ((b :: r).all fun x => x.ptag = b.ptag && decide (x.start ≤ o) && decide (o + n ≤ x.start + x.len)) && n % 4096 = 0 then .into b.ptag
    else .bad

/-- The operation of a transfer, numbered n on tl. -/
def State.newCopy (s : State) (x : Transfer) (c : CtxId) (tl : TLNum) (n : Nat) (A B : Word) (sup : Bool) (clk : Nat)
    (task : Option Nat) : State :=
  let id := s.eng.nextOp
  let ing := if x.kind = .hget then (match s.ingestOf (offOf B) x.len with | .into p => some p | _ => none) else none
  let op : CopyOp := ⟨id, x.kind, c, tl, n, A, B, x.len, x.rows, x.spitch, x.dpitch, x.listAt, [], false,
    (addTag x.tagCode).getD .raw, x.fe, BitVec.ofNat 2 x.route, sup, clk, clk, 0, 0, [], [], false, false, ing, task⟩
  (s.updEng fun e => { e with nextOp := id + 1, copies := e.copies ++ [op] }).post (.copyRequestSend id)

/-- The checks of R256 in order, then the issue. For `copy` and `hsend` the source is own memory too. A misaligned pitch is no address:
its trap reports LIST, which is 0 there (log 21). -/
def State.issueCopy (s : State) (x : Transfer) (A B : Word) (tl : TLNum) (inc : Nat) : State :=
  let own := if x.kind = .hsend then A else B
  let o := offOf own
  let remote := x.kind = .pull || x.kind = .pull2d || x.kind = .pullAdd
  if x.route = 3 || x.reserved then s.trap 0x15
  else if x.kind ≠ .pullAdd && x.tagCode ≠ 0 then s.trap 0x15
  else if x.kind = .pullAdd && (addTag x.tagCode).isNone then s.trap 0x06
  else if !x.inRange then s.trap 0x15
  else if x.kind ≠ .pullG && A.toNat % 8 ≠ 0 then s.trapEa 0x07 A
  else if B.toNat % 8 ≠ 0 then s.trapEa 0x07 B
  else if x.spitch % 8 ≠ 0 || x.dpitch % 8 ≠ 0 || x.listAt % 8 ≠ 0 then s.trapEa 0x07 (BitVec.ofNat 64 x.listAt)
  else if !ownForm s.me own then s.trapEa 0x08 own
  else if x.kind = .copy && !ownForm s.me A then s.trapEa 0x08 A
  else if !(inSpad o x.span || inHbm o x.span) || (x.fe && !inSpad o x.span) || (x.kind = .hsend && x.fe) then s.trap 0x15
  else if x.kind = .hget && s.ingestOf o x.len = .bad then s.trap 0x15
  else if x.kind = .pullG && !inSpad x.listAt (8 * x.rows) then s.trap 0x15
  else if remote && resolve s.me A ≠ s.me && !s.cl.members.contains (resolve s.me A) then s.trapEa 0x09 A
  else
    let n := s.ctx.tl[tl].high + inc
    if n = 0 || decide (2 ^ 64 ≤ n) then s.trap 0x14
    else if 128 ≤ s.copyInFlight (coreOf s.cur) then s.block .copySlot
    else
      let s := s.newCopy x s.cur tl n A B s.sup s.ctx.clk none
      ((s.upd fun c => c.updTl tl fun t => t.issue n).markAtomic).finish 4

/-- A transfer with its sources in the order a, b, d (R162, R253). -/
def transfer (kind : CopyKind) (a b : Option (GNum × Bool)) (d : Option GNum) (e : ENum) (s : State) : Out :=
  let rd (r : Option (GNum × Bool)) (s : State) (k : Word → State → State) : State :=
    match r with
    | none => k 0 s
    | some (r, f) => s.srcG f r k
  .next (rd a s fun A s => rd b s fun B s => rd (d.map fun r => (r, false)) s fun g s => s.checked fun s =>
    (s.touch (3 * e.val + 2)).issueCopy (transferOf kind s.ctx.e[e] g) A B (Fin.ofNat 4 (bits s.ctx.e[e] 54 2)) (bits s.ctx.e[e] 37 16))

/-- R253: `pull`. -/
def execPull (a b : GNum) (fa fb : Bool) (e : ENum) (s : State) : Out := transfer .pull (some (a, fa)) (some (b, fb)) none e s
/-- R253: `pull.2d`. -/
def execPull2d (d a b : GNum) (fa fb : Bool) (e : ENum) (s : State) : Out := transfer .pull2d (some (a, fa)) (some (b, fb)) (some d) e s
/-- R253: `pull.g`. -/
def execPullG (d b : GNum) (fb : Bool) (e : ENum) (s : State) : Out := transfer .pullG none (some (b, fb)) (some d) e s
/-- R253: `pull.add`. -/
def execPullAdd (a b : GNum) (fa fb : Bool) (e : ENum) (s : State) : Out := transfer .pullAdd (some (a, fa)) (some (b, fb)) none e s
/-- R253: `copy`. -/
def execCopy (a b : GNum) (fa fb : Bool) (e : ENum) (s : State) : Out := transfer .copy (some (a, fa)) (some (b, fb)) none e s
/-- R253: `hget`. -/
def execHget (a b : GNum) (fa fb : Bool) (e : ENum) (s : State) : Out := transfer .hget (some (a, fa)) (some (b, fb)) none e s
/-- R253: `hsend`. -/
def execHsend (a b : GNum) (fa fb : Bool) (e : ENum) (s : State) : Out := transfer .hsend (some (a, fa)) (some (b, fb)) none e s

end Sys2Proof.Machine
end

