-- ==== Sys2Proof/Machine/Images.lean ====
section
/-!
DEFINITION. Sys2Proof/Machine/Images.lean: the saved context image (R314, R315), its sealing (R316), the thread-context cache
with `ctxsv`, `ctxld`, `cflush` and `cinval` (R316, R317, R325, R326, R330).
-/
namespace Sys2Proof.Machine

/-! ### The image (R314) -/

/-- Bits as a number, the first one least significant. -/
def flagBits (l : List Bool) : Nat := l.foldr (fun b n => (if b then 1 else 0) + 2 * n) 0
/-- Fields of w bits as a number, the first one least significant. -/
def packBits (w : Nat) (l : List Nat) : Nat := l.foldr (fun x n => x % 2 ^ w + 2 ^ w * n) 0
/-- Words as bytes. -/
def wordBytes (l : List Nat) : List Byte := l.flatMap (toLe 8)

/-- Word 0 of the retry latch (R318). -/
def RetryLatch.word0 (r : RetryLatch) : Nat :=
  flagBits [r.done, r.sent, r.arm, r.v] * 2 ^ 60 + r.func.toNat * 2 ^ 48 + r.pc.toNat
/-- The error word of a timeline (R314). -/
def Timeline.imageWord (t : Timeline) : Nat := t.estat.toNat * 2 ^ 60 + t.ecause.toNat * 2 ^ 52

/-- The body of the image, from offset 0x0040 on (R314); k0 is all ones in every use (R215). -/
def Ctx.body (x : Ctx) : List Byte :=
  wordBytes (x.g.toList.map fun r => r.val.toNat)
    ++ toLe 8 (flagBits (x.g.toList.map (·.full)) + 2 ^ 32 * flagBits (x.g.toList.map (·.poison)))
    ++ toLe 8 (flagBits (x.v.toList.map (·.full))) ++ toLe 8 (flagBits (x.v.toList.map (·.poison)))
    ++ toLe 40 (packBits 5 (x.v.toList.map fun r => tagCode r.tag))
    ++ x.v.toList.flatMap (fun r => toLe 64 r.val.toNat)
    ++ wordBytes ((BitVec.allOnes 64 :: x.k.toList.tail).map (·.toNat))
    ++ x.t.toList.flatMap (fun t => toLe 16 t.toNat)
    ++ wordBytes (x.e.toList.map (·.toNat))
    ++ x.tl.toList.flatMap (fun t => wordBytes [t.val, t.high, t.enum, t.imageWord])
    ++ wordBytes [x.pc.toNat + x.repidx.toNat * 2 ^ 48 + (if x.pc = x.latchPc then x.latch.toNat else 0) * 2 ^ 56, x.clk, x.drawn.toNat, x.lcore.toNat,
        x.expb.toNat, x.rcvb.toNat, 0, 0]
    ++ toLe 16 x.spl.desc.toNat ++ wordBytes [(if x.spl.valid then 2 ^ 63 else 0) + x.spl.nsel.toNat, 0]
    ++ wordBytes [x.retry.word0, x.retry.ea.toNat, x.retry.opnd.toNat, x.retry.xres.toNat]
    ++ List.replicate 128 0

/-- The header (R315). -/
def imageHeader (prot : Bool) (cl crec core ctx sctr nseq tag : Nat) : List Byte :=
  wordBytes [2 ^ 48 + (if prot then 2 ^ 47 else 0) + cl * 2 ^ 32 + crec * 2 ^ 16 + core * 2 ^ 4 + ctx, sctr, nseq, 0]
    ++ toLe 16 tag ++ wordBytes [0, 0]

/-- The bytes of an image as numbers. -/
def imgNum (l : List Byte) (o n : Nat) : Nat := leNat ((l.drop o).take n)
/-- FMT, PROT, CL, CREC, CORE, SCTR, NSEQ, GTAG of an image. -/
def imgFmt (l : List Byte) : Nat := imgNum l 6 2
/-- PROT. -/
def imgProt (l : List Byte) : Bool := imgNum l 0 8 / 2 ^ 47 % 2 = 1
/-- CL. -/
def imgCl (l : List Byte) : Nat := imgNum l 0 8 / 2 ^ 32 % 2 ^ 15
/-- CREC. -/
def imgCrec (l : List Byte) : Nat := imgNum l 2 2
/-- CORE. -/
def imgCore (l : List Byte) : Nat := imgNum l 0 1 / 16 % 4
/-- SCTR. -/
def imgSctr (l : List Byte) : Nat := imgNum l 8 8

/-- SAVECTR of the partition (R308). -/
def State.savectr (s : State) : Nat := (s.partition?.map fun p => p.savectr).getD 0
/-- The image of a context of this cluster as `ctxsv` and a dump take it, in plaintext (R315, R325, R380). -/
def State.imageOf (s : State) (c : CtxId) : List Byte :=
  let x := s.getCtx c
  imageHeader ((x.bound.map (·.prot)).getD false) (coords s.me) ((x.bound.map (·.idx)).getD 0xFFFF) (coreOf c).val
    (numOf c).val s.savectr 0 0 ++ x.body

/-! ### Sealing (R316) -/

/-- The save key of a counter value (R316, R398; log 12). -/
def State.saveKey (s : State) (sctr : Nat) : Nat := Config.deriveKey ((s.partition?.map fun p => p.pk).getD 0) sctr
/-- The nonce of an image (R316). -/
def imgNonce (l : List Byte) : Nat := (imgCl l * 4 + imgCore l) * 2 ^ 79 + imgNum l 16 6 * 2 ^ 31
/-- An image as a write-back by a core stores it (R316). -/
def State.sealed (s : State) (core : CoreId) (nseq : BitVec 48) (l : List Byte) : List Byte :=
  let prot := imgProt l
  let hdr (tag : Nat) := imageHeader prot (imgCl l) (imgCrec l) core.val (imgNum l 0 1 % 16) (imgSctr l) nseq.toNat tag
  if !prot then hdr 0 ++ l.drop 64
  else
    let key := s.saveKey (imgSctr l)
    let nonce := imgNonce (hdr 0)
    let body := ((l.drop 64).zip (List.range 5056)).map fun p => p.1 ^^^ Config.keystream key nonce p.2
    hdr (Config.authTag key nonce ((hdr 0).take 32 ++ body)).toNat ++ body
/-- The plaintext of a protected image, when its tag passes (R326). -/
def State.unsealed (s : State) (l : List Byte) : Option (List Byte) :=
  let key := s.saveKey (imgSctr l)
  let nonce := imgNonce l
  let body := l.drop 64
  if imgNum l 32 16 ≠ (Config.authTag key nonce (l.take 32 ++ body)).toNat then none
  else some (l.take 64 ++ (body.zip (List.range 5056)).map fun p => p.1 ^^^ Config.keystream key nonce p.2)

/-! ### Spans of own memory -/

/-- Where the bytes of a span stand: parts (offset from its start, key, bytes), or the first check that fails (R357). -/
inductive SpanRes where
  | ok (parts : List (Nat × Nat × Nat))
  | fail (r : AccRes) (o : Nat)
  deriving DecidableEq, Repr

/-- The checks of some parts in order. -/
def State.spanParts (s : State) (agent : Nat) (sup : Bool) (p : Perm) (o : Nat) (acc : List (Nat × Nat × Nat)) :
    List (Nat × Nat) → SpanRes × State
  | [] => (.ok acc.reverse, s)
  | (a, n) :: r =>
    match s.access agent sup p (o + a) n with
    | (.ok key, s) => s.spanParts agent sup p o ((a, key, n) :: acc) r
    | (f, s) => (.fail f (o + a), s)
/-- The checks of a span, page by page. -/
def State.span (s : State) (agent : Nat) (sup : Bool) (p : Perm) (o n : Nat) : SpanRes × State :=
  s.spanParts agent sup p o [] (pageParts o n)

/-- Words written in ascending order, each a LocalWrite after the one before it (R330). -/
def State.putWords (s : State) (clk o key : Nat) : List Nat → Option (Nat × State)
  | [] => some (clk, s)
  | w :: r =>
    let t := s.writeTime (granule o) clk
    if clockLimit ≤ t then none
    else ((s.stampWrite (granule o) t).writeOwn o key (toLe 8 w) t).putWords t (o + 8) (key + 8) r
/-- Bytes written to the parts of a span. -/
def State.putParts' (s : State) (clk o : Nat) (l : List Byte) : List (Nat × Nat × Nat) → Option (Nat × State)
  | [] => some (clk, s)
  | (a, key, n) :: r =>
    match s.putWords clk (o + a) key (wordsOf ((l.drop a).take n)) with
    | none => none
    | some (clk, s) => s.putParts' clk o l r

/-- What a system instruction does about a check that fails: the code ADDRESS, a wait for the page's recall, or a trap
(R321, R325, R358). -/
def State.failSpan (s : State) (d : GNum) (r : AccRes) (o : Nat) : State :=
  match r with
  | .nonres vpn _ => (s.block (.page vpn)).next (.recallStart vpn)
  | .walknr => s.trap 0x18
  | .mig key => s.blockMig key
  | .err => s.trapEa 0x19 (BitVec.ofNat 64 o)
  | _ => s.putG 4 d 3

/-- The span of an image's home, or the code ADDRESS (R325). What a failing check does, it does in `s0`, the state before the
instruction has written anything (R9). -/
def State.withHomeOf (s0 s : State) (d : GNum) (H : Word) (k : List (Nat × Nat × Nat) → State → State) : State :=
  let o := offOf H
  if !ownForm s.me H || o % 128 ≠ 0 || !(inSpad o 5120 || inHbm o 5120) then s0.putG 4 d 3
  else match s.span s.agent true .wr o 5120 with
    | (.ok parts, s) => k parts s
    | (.fail r a, _) => s0.failSpan d r a
/-- The same before anything is written. -/
def State.withHome (s : State) (d : GNum) (H : Word) (k : List (Nat × Nat × Nat) → State → State) : State :=
  let o := offOf H
  if !ownForm s.me H || o % 128 ≠ 0 || !(inSpad o 5120 || inHbm o 5120) then s.putG 4 d 3
  else match s.span s.agent true .wr o 5120 with
    | (.ok parts, s) => k parts s
    | (.fail r a, s) => s.failSpan d r a

/-! ### The thread-context cache (R316) -/

/-- Entries of the moving context's core. -/
def State.tcc (s : State) : List (Option TcEntry) := s.core.tcc.toList
/-- A home of the own cluster in its one name: an address that names the cluster and one whose bits 63:48 are zero are the same home
(R66, R325). -/
def State.homeOf (s : State) (H : Word) : Word := if ownForm s.me H then BitVec.ofNat 64 (offOf H) else H
/-- The number of the entry with a home. -/
def State.tccFind (s : State) (H : Word) : Option Nat := (List.range 8).find? fun i =>
  match s.tcc.getD i none with
  | some e => e.home = s.homeOf H
  | none => false
/-- An entry replaced. -/
def State.setTcc (s : State) (i : Nat) (e : Option TcEntry) : State :=
  s.updCore (coreOf s.cur) fun k => { k with tcc := k.tcc.setIfInBounds i e }
/-- The next use mark. -/
def State.tccClock (s : State) : Nat := (s.tcc.foldl (fun m e => match e with | some x => max m x.used | none => m) 0) + 1
/-- The least recently used of eight entries. A use is a `ctxsv` that puts the image there; a write-back by `cflush` is none (R316,
log 104). -/
def State.tccVictim (s : State) : Nat :=
  (List.range 8).foldl (fun b i =>
    match s.tcc.getD i none, s.tcc.getD b none with
    | some x, some y => if x.used < y.used then i else b
    | _, _ => b) 0

/-- The bytes of the parts of a span. -/
def State.partBytes (s : State) (parts : List (Nat × Nat × Nat)) : List Byte := parts.flatMap fun p => s.bytes p.2.1 p.2.2

/-- The write-back of entry i to its home, if DIRTY or `force`d, each word a LocalWrite of context 0 (R316, R330). What the home held
before stays known until the core issues again: a restore by another core may meet the writes half done (R332). A trap or a wait leaves
`s0`, the state before the first of the instruction's writes (R9). -/
def State.writeBack (s0 s : State) (d : GNum) (i : Nat) (force : Bool) (k : State → State) : State :=
  match s.tcc.getD i none with
  | none => k s
  | some e =>
    if !e.dirty && !force then k s
    else s0.withHomeOf s d e.home fun parts s =>
      let core := coreOf s.cur
      let img := s.sealed core s.core.nseq e.img
      let old := s.partBytes parts
      let s := s.updCore core fun k => { k with nseq := k.nseq + 1 }
      match s.putParts' s.ctx.clk (offOf e.home) img parts with
      | none => s0.trap 0x1F
      | some (t, s) =>
        k (((s.setClk t).setTcc i (some { e with dirty := false })).updCl fun c =>
          { c with wb := c.wb.filter (fun w => !(w.1 = core && w.2.1 = offOf e.home)) ++ [(core, offOf e.home, old)] })
/-- The write-back of several entries; a trap or a wait leaves `s0`. -/
def State.writeBacks (s0 s : State) (d : GNum) (k : State → State) : List Nat → State
  | [] => k s
  | i :: r => s0.writeBack s d i false fun s => s0.writeBacks s d k r

/-- R330: `cflush`. -/
def execCflush (d a b : GNum) (fa fb : Bool) (s : State) : Out :=
  .next (s.priv fun s => s.srcG fa a fun A s => s.srcG fb b fun B s =>
    match bits B 0 3 with
    | 0 => match s.tccFind A with
      | none => s.putG 4 d 0
      | some i => s.writeBack s d i false fun s => s.putG 4 d 0
    | 1 => s.writeBacks s d (fun s => s.putG 4 d 0) (List.range 8)
    | _ => s.putG 4 d 6)

/-- Older parcel values dropped that this core may no longer return (R156). -/
def State.dropStale (s : State) (p : Nat → Bool) : State :=
  let core := coreOf s.cur
  s.updMem fun m => { m with stale := m.stale.filter fun x => !(x.2.2 = core && p x.1) }
/-- The places where the 128-byte span that holds an address of own memory may stand: as its page is mapped, as each translation that a
translation cache may still hold maps it (R359), and as those mapped it that `tinv` has dropped. -/
def State.spanKeys (s : State) (A : Word) : List Nat :=
  let o := offOf A / 128 * 128
  if !ownForm s.me A then []
  else if inSpad o 128 then [o]
  else if !inHbm o 128 then []
  else
    let v := o - hbmLo
    (match (s.walk 9 o).1 with
      | .leaf e two => [hbmLo + frameOf e two v]
      | _ => []) ++ ((s.mem.tlb.map (·.2)) ++ s.mem.gone).filterMap fun (lvl, tag, e) =>
        if bits e 62 1 = 1 && tag = v / (if lvl = 2 then 2 ^ 21 else 2 ^ 16) then some (hbmLo + frameOf e (lvl = 2) v) else none

/-- R330: `cinval`. -/
def execCinval (d a b : GNum) (fa fb : Bool) (s : State) : Out :=
  .next (s.priv fun s => s.srcG fa a fun A s => s.srcG fb b fun B s =>
    let core := coreOf s.cur
    match bits B 0 3 with
    | 0 => (s.dropStale fun a => (s.spanKeys A).any fun key => decide (key ≤ a) && decide (a < key + 128)).putG 4 d 0
    | 1 => (s.dropStale fun _ => true).putG 4 d 0
    | 2 => ((s.updCore core fun k => { k with l1 := [] }).updCl fun c =>
        { c with heldLine := c.heldLine.filter fun p => p.2.1 ≠ core }).putG 4 d 0
    | 3 => match s.tccFind A with
      | none => s.putG 4 d 0
      | some i => (s.setTcc i none).putG 4 d 0
    | 4 => (s.updCore core fun k => { k with tcc := Vector.replicate 8 none }).putG 4 d 0
    | _ => s.putG 4 d 6)

/-! ### `ctxsv` and `ctxld` (R325, R326) -/

/-- The context a context word names (R320). -/
def State.named (s : State) (A : Word) : CtxId := ctxOf (coreOf s.cur) (Fin.ofNat 16 (bits A 0 4))
/-- BADCTX (R321). -/
def State.badCtx (s : State) (c : CtxId) : Bool := numOf c = 0 || (s.cl.par.twin && decide (9 ≤ (numOf c).val))
/-- A record of c is in its core's trap queue, held or not, or on its way to the reserved entry (R380). -/
def State.hasRecord (s : State) (c : CtxId) : Bool :=
  ((s.getCore (coreOf c)).tq.any fun r => r.record.ctx = numOf c) || s.isDying c
/-- A context whose participant has been revoked: the security core reaps it, no instruction moves it any more (R403, log 97). -/
def State.isRevoked (s : State) (c : CtxId) : Bool := (s.getCtx c).bound.any fun b => s.cl.revoked.contains b.ptag.val
/-- STOPPED, or FAULTED with its record taken (R323, R325). -/
def State.atRest (s : State) (c : CtxId) : Bool :=
  ((s.getCtx c).st = .stopped || ((s.getCtx c).st = .faulted && !s.hasRecord c)) && !s.isRevoked c
/-- A register that its check code finds damaged (R376). -/
def Ctx.damaged (x : Ctx) : Bool := x.g.any (·.bad) || x.v.any (·.bad) || !x.badRegs.isEmpty

/-- The record of a context whose image is saved stays BOUND to it, with the marks that the image does not hold (R325, R338). -/
def State.tieRecord (s : State) (c : CtxId) : State :=
  let x := s.getCtx c
  match x.bound with
  | none => s
  | some b => s.updCl fun cl =>
    { cl with ties := cl.ties.filter (fun p => p.1 ≠ b.idx) ++ [(b.idx, ⟨c, x.side, b.woke, x.atomicDone⟩)] }
/-- What stays with a record whose image has been saved (R338). -/
def State.tie? (s : State) (i : Nat) : Option Tie := (s.cl.ties.find? fun p => p.1 = i).map (·.2)

/-- R325. -/
def execCtxsv (d a b : GNum) (fa fb : Bool) (s : State) : Out :=
  .next (s.priv fun s => s.srcG fa a fun A s => s.srcG fb b fun H s =>
    let c := s.named A
    if s.badCtx c then s.putG 4 d 2
    else if !s.atRest c then s.putG 4 d 1
    else s.withHome d H fun _ s =>
      if !s.opsDone c then s.block (.opsOf c)
      else if (s.getCtx c).damaged then (s.putG 4 d 1).trapAt c 0x1F 0 0 0 .none
      else
        let time := max (s.opsTime c) (s.getCtx c).copyTime
        let s := s.updCtx c fun x => { x with clk := max x.clk time }
        let img := s.imageOf c
        let put (i : Nat) (s : State) : State :=
          (((s.setTcc i (some ⟨s.homeOf H, img, true, s.tccClock⟩)).tieRecord c).toIdle c).putG 4 d 0
        match s.tccFind H with
        | some i => put i s
        | none => match (List.range 8).find? fun i => (s.tcc.getD i none).isNone with
          | some i => put i s
          | none => s.writeBack s d s.tccVictim true (put s.tccVictim))

/-- A context read from a plaintext image (R314, R326). The marks the image does not hold stand with its record. -/
def Ctx.ofImage (x : Ctx) (l : List Byte) (t : Tie) : Ctx :=
  let w (o : Nat) : Word := BitVec.ofNat 64 (imgNum l o 8)
  let bit (o i : Nat) : Bool := imgNum l o 8 / 2 ^ i % 2 = 1
  let c0 := imgNum l 0x1300 8
  let r0 := imgNum l 0x1360 8
  let x := x.clearWait
  { x with
    g := fillVec x.g fun i => if i = 0 then GReg.reset else ⟨w (0x40 + 8 * i), bit 0x140 i, bit 0x140 (32 + i), [], false⟩
    v := fillVec x.v fun i => ⟨BitVec.ofNat 512 (imgNum l (0x180 + 64 * i) 64),
      (tagOfCode (imgNum l 0x158 40 / 2 ^ (5 * i) % 32)).getD .raw, bit 0x148 i, bit 0x150 i, [], false⟩
    k := fillVec x.k fun i => if i = 0 then 0 else w (0x1180 + 8 * i)
    t := fillVec x.t fun i => BitVec.ofNat 128 (imgNum l (0x11C0 + 16 * i) 16)
    e := fillVec x.e fun i => w (0x1240 + 8 * i)
    tl := fillVec x.tl fun i =>
      let o := 0x1280 + 32 * i
      ⟨imgNum l o 8, imgNum l (o + 8) 8, imgNum l (o + 16) 8, BitVec.ofNat 4 (imgNum l (o + 24) 8 / 2 ^ 60),
        BitVec.ofNat 8 (imgNum l (o + 24) 8 / 2 ^ 52), [], []⟩
    ku := Vector.replicate 8 []
    eu := Vector.replicate 8 []
    tu := Vector.replicate 8 []
    pc := BitVec.ofNat 48 (c0 % 2 ^ 48 / 2 * 2)
    repidx := BitVec.ofNat 6 (c0 / 2 ^ 48)
    latch := BitVec.ofNat 4 (c0 / 2 ^ 56)
    latchPc := BitVec.ofNat 48 (c0 % 2 ^ 48 / 2 * 2)
    clk := imgNum l 0x1308 8
    drawn := BitVec.ofNat 48 (imgNum l 0x1310 8)
    lcore := BitVec.ofNat 10 (imgNum l 0x1318 8)
    expb := w 0x1320
    rcvb := w 0x1328
    spl := ⟨BitVec.ofNat 128 (imgNum l 0x1340 16), imgNum l 0x1350 8 / 2 ^ 63 = 1, BitVec.ofNat 3 (imgNum l 0x1350 8)⟩
    retry := ⟨r0 / 2 ^ 63 % 2 = 1, r0 / 2 ^ 62 % 2 = 1, r0 / 2 ^ 61 % 2 = 1, r0 / 2 ^ 60 % 2 = 1, BitVec.ofNat 7 (r0 / 2 ^ 48),
      BitVec.ofNat 48 r0, w 0x1368, w 0x1370, w 0x1378⟩
    stopReq := none
    susp := none
    atomicDone := t.atomic
    side := t.side
    copyTime := 0
    clkTrap := false
    fresh := false
    lag := false
    badRegs := [] }

/-- A saved v tag that no register may hold, or a reserved t tag (R41, R326). -/
def imgTagBad (l : List Byte) : Bool :=
  ((List.range 64).any fun i => (vTagOfCode (imgNum l 0x158 40 / 2 ^ (5 * i) % 32)).isNone)
    || (List.range 8).any fun i => (tagOfCode (imgNum l (0x11C0 + 16 * i) 8 / 2 ^ 59)).isNone

/-- The result of the checks of R326 on an image; `fromMem` when it was read from its home. -/
def State.imageCheck (s : State) (l : List Byte) (fromMem : Bool) : Nat ⊕ List Byte :=
  let i := imgCrec l
  if imgFmt l ≠ 1 then .inl 6
  else if imgCl l ≠ coords s.me then .inl 8
  else if decide (i < s.cl.par.contMax) && bits (s.recView i 0) 55 1 = 1 && !imgProt l then .inl 6
  else if imgProt l && imgSctr l ≠ s.savectr then .inl 4
  else
    match (if imgProt l && fromMem then s.unsealed l else some l) with
    | none => .inl 5
    | some l =>
      if imgTagBad l then .inl 6
      else if decide (s.cl.par.contMax ≤ i) || s.recState i ≠ 2
          || (allCtxs.any fun c => ((s.getCtx c).bound.map (·.idx)) = some i)
          || ((s.tie? i).any fun t => (s.getCtx t.ctx).st ≠ .idle) then .inl 7
      else .inr l

/-- Context 0 reads the granules of a span (R97). A machine check leaves `s0`, the state before the first of them (R9, R114). -/
def State.readSpan (s0 s : State) (k : State → State) : List Nat → State
  | [] => k s
  | g :: r =>
    let t := s.readTime g s.ctx.clk
    if clockLimit ≤ t then s0.trap 0x1F else s0.readSpan ((s.stampRead g t).setClk t) k r
/-- Of each word of an image one of two values, by free values from number n on. -/
def mixWords (n : Nat) (l old : List Byte) : List Byte :=
  (List.range 640).flatMap fun i => if Config.freeBool (n + i) then (l.drop (8 * i)).take 8 else (old.drop (8 * i)).take 8
/-- An image as `ctxld` reads it from its home: of each word of a home that other cores have just written back, the old one or the new
one (R332). -/
def State.homeBytes (s : State) (o : Nat) (parts : List (Nat × Nat × Nat)) : List Byte × State :=
  (s.cl.wb.filter fun w => w.1 ≠ coreOf s.cur && w.2.1 = o).foldl
    (fun (l, s) w => let (n, s) := s.drawN 640; (mixWords n l w.2.2, s)) (s.partBytes parts, s)

/-- R326. The restore is a binding of the record (R19). -/
def execCtxld (d a b : GNum) (fa fb : Bool) (s : State) : Out :=
  .next (s.priv fun s => s.srcG fa a fun A s => s.srcG fb b fun H s =>
    let c := s.named A
    if s.badCtx c then s.putG 4 d 2
    else if (s.getCtx c).st ≠ .idle then s.putG 4 d 1
    else s.withHome d H fun parts s =>
      let restore (l : List Byte) (fromMem : Bool) (s : State) : State :=
        match s.imageCheck l fromMem with
        | .inl code => s.putG 4 d (BitVec.ofNat 64 code)
        | .inr l =>
          let i := imgCrec l
          let w0 := s.recView i 0
          let (n, s) := s.drawN 3
          let tie := (s.tie? i).getD ⟨c, Config.freeBool n, Config.freeBool (n + 1), Config.freeBool (n + 2)⟩
          let bound : Bound := ⟨i, bits w0 55 1 = 1, Fin.ofNat 64 (bits w0 48 6), s.recView i 1, tie.woke⟩
          let s := s.updCtx c fun x =>
            let x := x.ofImage l tie
            { x with clk := max x.clk s.cl.cclk, bound := some bound, st := .stopped }
          let s := s.updCl fun cl =>
            { cl with
              boundAt := cl.boundAt.filter (fun p => p.1 ≠ i) ++ [(i, s.mod.cycles)]
              recOld := cl.recOld.filter fun p => p.1 / 8 ≠ i
              ties := cl.ties.filter fun p => p.1 ≠ i
              noned := cl.noned.filter (· ≠ c) }
          let s := match s.tccFind H with
            | none => s
            | some j => s.setTcc j none
          s.putG 4 d 0
      match s.tccFind H with
      | some i => restore (((s.tcc.getD i none).map (·.img)).getD []) false s
      | none => s.readSpan s (fun s =>
          let (l, s) := s.homeBytes (offOf H) parts
          restore l true s) (granulesOf (offOf H) 5120))

end Sys2Proof.Machine
end

