-- ==== Sys2Proof/Machine/VecMem.lean ====
section
/-!
DEFINITION. Sys2Proof/Machine/VecMem.lean: vector loads and stores (R237 to R241): spans, strided elements, swizzled tile
columns, gathers and scatters.
-/
namespace Sys2Proof.Machine

/-! ### Elements of a vector access -/

/-- The bytes of a span that a mask leaves out, one bit a byte; lanes of w bits of E in a register of 64 bytes; mask bit i
governs lane i of each register of the span (R215, R240). -/
def spanSkip (m : Word) (t : Tag) : Nat → Nat
  | 0 => 0
  | n + 1 =>
    let byte := n % 64
    (if active m (tagLanes t) (byte * 8 / tagWidth t) then 0 else 2 ^ n) + spanSkip m t n

/-- The active lanes under a mask, in ascending order. -/
def activeLanes (m : Word) (t : Tag) : List Nat := (List.range (tagLanes t)).filter fun i => active m (tagLanes t) i
/-- The lanes of a register where the active ones take the bytes loaded for them, in order. -/
def placeLoaded (m : Word) (t : Tag) (l : List (List Byte)) : List Nat :=
  let pairs := (activeLanes m t).zip (l.map leNat)
  (List.range (tagLanes t)).map fun i => mapGet 0 pairs i

/-- A vector memory form with its tag; a reserved code is trap 0x01 (R237). -/
def State.memTag (s : State) (tag : BitVec 4) (whole : Bool) (k : Tag → State → State) : State :=
  match vTagOfCode tag.toNat with
  | none => s.trap 0x01
  | some t => if whole && (t == .raw || t == .q4) then s.trap 0x01 else k t s

/-- The lanes of bytes lo .. lo + 63 of a span. -/
def spanLanes (t : Tag) (l : List Byte) (lo : Nat) : List Nat :=
  lanesOf (tagWidth t) (tagLanes t) (BitVec.ofNat 512 (leNat ((l.drop lo).take 64)))

/-- A failed remote load poisons every destination register (R239). -/
def State.poisonDests (s : State) (st : BitVec 4) : List VNum → State
  | [] => s
  | d :: r => (s.poisonV d st).poisonDests st r

/-! ### Spans: `vld`, `vldp`, `vst` -/

/-- A load of one span of 64 bytes or of two registers of 64 (R237, R240). With no active lane nothing is read; the span of
own memory is checked all the same (R238). -/
def spanLoad (d2 : Bool) (d : VNum) (base : GNum) (fa : Bool) (tag : BitVec 4) (k : KNum) (off : BitVec 5) (s : State) : Out :=
  let n := if d2 then 128 else 64
  .next (if d2 && d.val % 2 = 1 then s.trap 0x01 else s.memTag tag false fun t s =>
    s.srcG fa base fun b s => s.mask k fun m s =>
      let ea := b + off.signExtend 64 * BitVec.ofNat 64 n + s.bump n
      let done (l : List Byte) (s : State) : State :=
        let s := s.putV d t m (spanLanes t l 0)
        (if d2 then s.putV (vAt d 1) t m (spanLanes t l 64) else s).finish 4
      if (activeLanes m t).isEmpty then s.checkLoads [] [(ea, n, spanSkip m t n)] fun _ s => done [] s
      else s.loadElems [(ea, n, spanSkip m t n)] (fun l s => done (l.headD []) s)
        (fun st s => (s.poisonDests st (if d2 then [d, vAt d 1] else [d])).finish 4))

/-- R237: one 64-byte span into vd. -/
def execVld (d : VNum) (base : GNum) (fa : Bool) (tag : BitVec 4) (k : KNum) (off : BitVec 5) (s : State) : Out :=
  spanLoad false d base fa tag k off s
/-- R240: one 128-byte span into vd and vd + 1. -/
def execVldp (d : VNum) (base : GNum) (fa : Bool) (tag : BitVec 4) (k : KNum) (off : BitVec 5) (s : State) : Out :=
  spanLoad true d base fa tag k off s

/-- The bytes of a register. -/
def vBytes (v : VWord) : List Byte := toLe 64 v.toNat
/-- The parts of a span store: one for each active lane, one for each active byte of a Q4 register (R215). -/
def spanParts (m : Word) (t : Tag) (o : Nat) (v : VWord) : List (Nat × List Byte) :=
  let w := if t = .q4 then 1 else tagWidth t / 8
  ((List.range (64 / w)).filter fun i => active m (64 / w) i).map fun i => (o + i * w, ((vBytes v).drop (i * w)).take w)

/-- R237: vs to one 64-byte span. -/
def execVst (r : VNum) (base : GNum) (fa : Bool) (k : KNum) (off : BitVec 5) (s : State) : Out :=
  .next (s.srcG fa base fun b s => s.srcV false r fun v s => s.mask k fun m s => s.checked fun s =>
    let ea := b + off.signExtend 64 * 64 + s.bump 64
    s.storeElems [⟨ea, 64, spanParts m v.tag (offOf ea) v.val⟩] fun s => s.finish 4)

/-! ### Elements: `vlds`, `vsts`, `vldg`, `vstg`, `vldt` -/

/-- A load of the active elements at the addresses `at`; all are checked, then read in lane order (R238). -/
def State.elemLoad (s : State) (d : VNum) (t : Tag) (m : Word) (at_ : Nat → Word) : State :=
  s.loadElems ((activeLanes m t).map fun i => (at_ i, tagWidth t / 8, 0))
    (fun l s => (s.putV d t m (placeLoaded m t l)).finish 4)
    (fun st s => (s.poisonV d st).finish 4)
/-- A store of the active elements at the addresses `at`, in ascending lane order (R238). -/
def State.elemStore (s : State) (v : VReg) (m : Word) (at_ : Nat → Word) : State :=
  let w := tagWidth v.tag / 8
  s.storeElems ((activeLanes m v.tag).map fun i =>
      ⟨at_ i, w, [(offOf (at_ i), toLe w (laneOf (8 * w) v.val i))]⟩)
    fun s => s.finish 4

/-- R237: element i at g[base] + i × g[s]. -/
def execVlds (d : VNum) (base : GNum) (fa : Bool) (tag : BitVec 4) (k : KNum) (r : GNum) (s : State) : Out :=
  .next (s.memTag tag true fun t s => s.srcG fa base fun b s => s.srcG false r fun st s => s.mask k fun m s =>
    s.elemLoad d t m fun i => b + BitVec.ofNat 64 i * st)
/-- R237: as `vlds`, storing; the tag named is vs's tag. -/
def execVsts (v : VNum) (base : GNum) (fa : Bool) (tag : BitVec 4) (k : KNum) (r : GNum) (s : State) : Out :=
  .next (s.memTag tag true fun t s => s.srcG fa base fun b s => s.srcG false r fun st s => s.srcV false v fun x s =>
    s.needTag (x.tag == t) fun s => s.mask k fun m s => s.checked fun s =>
      s.elemStore x m fun i => b + BitVec.ofNat 64 i * st)

/-- Lane i of an index register as an integer, signed for I and unsigned for N (R237). -/
def indexLane (v : VReg) (i : Nat) : Word := BitVec.ofInt 64 (laneInt v.tag (laneOf (tagWidth v.tag) v.val i))
/-- An index register has an Int tag of the data's width (R237). -/
def indexOk (t : Tag) (v : VReg) : Bool := isInt v.tag && tagWidth v.tag == tagWidth t

/-- R237: element i at e[N] + lane i of va × 2^sc. -/
def execVldg (d a : VNum) (tag : BitVec 4) (sc : Fin 4) (k : KNum) (e : ENum) (s : State) : Out :=
  .next (s.memTag tag true fun t s => s.srcV false a fun x s => s.needTag (indexOk t x) fun s => s.mask k fun m s =>
    let s := s.taintE e
    let b := s.ctx.e[e]
    s.elemLoad d t m fun i => b + indexLane x i <<< sc.val)
/-- R237: as `vldg`, storing; the tag named is vs's tag. -/
def execVstg (v a : VNum) (tag : BitVec 4) (sc : Fin 4) (k : KNum) (e : ENum) (s : State) : Out :=
  .next (s.memTag tag true fun t s => s.srcV false a fun x s => s.needTag (indexOk t x) fun s =>
    s.srcV false v fun y s => s.needTag (y.tag == t) fun s => s.mask k fun m s => s.checked fun s =>
      let s := s.touch (3 * e.val + 2)
      let b := s.ctx.e[e]
      s.elemStore y m fun i => b + indexLane x i <<< sc.val)

/-- Swz(i, b) of R125 on a byte offset. -/
def swzByte (mode i b : Nat) : Nat :=
  match mode with
  | 1 => b ^^^ (i % 16 * 8)
  | 2 => b ^^^ (i / 2 % 16 * 8)
  | 3 => b ^^^ (i % 32 * 8)
  | 4 => b ^^^ (i % 8 * 16)
  | _ => b
/-- The span of a mode (R125). -/
def swzSpan (mode : Nat) : Nat := if mode = 3 then 256 else if mode = 0 then 1 else 128
/-- The address of lane i of a swizzled column (R241). -/
def tileLane (ea : Word) (pitch mode i : Nat) : Word :=
  let a := ea + BitVec.ofNat 64 (i * pitch)
  BitVec.ofNat 64 (a.toNat / 256 * 256 + swzByte mode i (a.toNat % 256) % 256)
/-- The checks of R241 on the active lanes, before those of a load: alignment, R75, the scratchpad window. -/
def State.tileChecks (s : State) (w : Nat) : List Word → (State → State) → State
  | [], k => k s
  | ea :: r, k =>
    if ea.toNat % w ≠ 0 then s.trapEa 0x07 ea
    else if !ownForm s.me ea then s.trapEa 0x08 ea
    else if !inSpad (offOf ea) w then s.trapEa 0x08 ea
    else match s.access s.agent s.sup .rd (offOf ea) w with
      | (.ok _, s) => s.tileChecks w r k
      | (f, s) => s.failAcc f ea
/-- R241: column lanes at EA + i × PITCH under the swizzle. -/
def execVldt (d : VNum) (base : GNum) (fa : Bool) (tag : BitVec 4) (k : KNum) (r : GNum) (s : State) : Out :=
  .next (s.memTag tag true fun t s => s.srcG fa base fun b s => s.srcG false r fun lay s => s.mask k fun m s =>
    let w := tagWidth t / 8
    let ea := b + s.bump w
    let mode := bits lay 24 3
    let pitch := bits lay 0 24
    if mode ≠ 0 ∧ (5 ≤ mode ∨ pitch % swzSpan mode ≠ 0) then s.trapEa 0x07 ea
    else s.tileChecks w ((activeLanes m t).map (tileLane ea pitch mode)) fun s => s.elemLoad d t m (tileLane ea pitch mode))

end Sys2Proof.Machine
end

