-- ==== Sys2Proof/Machine/Tiles.lean ====
section
/-!
DEFINITION. Sys2Proof/Machine/Tiles.lean: tile descriptors (R124, R125, R270 to R272), the sparsity latch (R279), the bytes and
elements of tiles and their scales, `tset`, `tget`, `mmeta`.
-/
namespace Sys2Proof.Machine

/-- A tile descriptor (R124); `pitch` in bytes. -/
structure Tile where
  tag : Tag
  swz : Nat
  rows : Nat
  cols : Nat
  pitch : Nat
  base : Nat
  scv : Bool
  scale : Nat
  deriving DecidableEq, Repr

/-- The fields of a descriptor's words. -/
def tileOf (w : TWord) : Tile :=
  let w0 := w.extractLsb' 0 64
  let w1 := w.extractLsb' 64 64
  ⟨(tagOfCode (bits w0 59 5)).getD .raw, bits w0 56 3, bits w0 47 9, bits w0 37 10, bits w0 23 14 * 16, bits w0 0 23,
    bits w1 63 1 = 1, bits w1 0 23⟩

/-- Bits of an element in a tile: RAW counts a byte, A80 takes 16 bytes (R59, R124, R270). -/
def elemBits : Tag → Nat
  | .raw => 8
  | .a80 => 128
  | t => tagWidth t
/-- Bytes of a row. -/
def Tile.rowBytes (t : Tile) : Nat := t.cols * elemBits t.tag / 8
/-- Blocks of K of a row (R62, R270). -/
def blocksOf (n : Nat) : Nat := (n + 255) / 256

/-- The offset of byte b of row i (R124, R125). -/
def Tile.byteAt (t : Tile) (i b : Nat) : Nat := t.base + i * t.pitch + swzByte t.swz i b
/-- The spans of row i's bytes: the whole row, or aligned 8-byte pieces of a swizzled one. -/
def Tile.rowSpans (t : Tile) (i : Nat) : List (Nat × Nat) :=
  if t.swz = 0 then [(t.byteAt i 0, t.rowBytes)]
  else (List.range ((t.rowBytes + 7) / 8)).map fun k => (t.byteAt i (8 * k), min 8 (t.rowBytes - 8 * k))
/-- The spans of a tile's bytes in row order. -/
def Tile.spans (t : Tile) : List (Nat × Nat) := (List.range t.rows).flatMap t.rowSpans
/-- The span of the scale words of R270. -/
def Tile.scaleSpan (t : Tile) (rows blocks : Nat) : List (Nat × Nat) := if t.scv then [(t.scale, 4 * rows * blocks)] else []

/-- The checks of R270 on a descriptor in order: the trap's cause and AUX (log 21). -/
def tileFault (w : TWord) : Option (BitVec 8 × Nat) :=
  let w0 := w.extractLsb' 0 64
  let w1 := w.extractLsb' 64 64
  let t := tileOf w
  if bits w1 23 40 ≠ 0 then some (0x15, 0)
  else if (tagOfCode (bits w0 59 5)).isNone then some (0x06, 0)
  else if 5 ≤ t.swz then some (0x15, 0)
  else if t.rows = 0 || decide (256 < t.rows) || t.cols = 0 || decide (512 < t.cols) || t.pitch = 0
    || decide (t.pitch * 8 < t.cols * elemBits t.tag) || (t.tag = .q4 && t.cols % 2 = 1) then some (0x15, 0)
  else if t.base % 16 ≠ 0 then some (0x07, t.base)
  else if t.scv && t.scale % 4 ≠ 0 then some (0x07, t.scale)
  else if t.swz ≠ 0 && (t.base % swzSpan t.swz ≠ 0 || t.pitch % swzSpan t.swz ≠ 0) then some (0x07, t.base)
  else if t.tag = .a80 && t.swz ≠ 0 && t.swz ≠ 4 then some (0x07, t.base)
  else if (t.spans ++ t.scaleSpan t.rows (blocksOf t.cols)).any fun p => !inSpad p.1 p.2 then some (0x15, 0)
  else none

/-- A format tag whose feature is not enabled (R434). -/
def tagDisabled (feat0 : Word) : Tag → Bool
  | .q4 => !feat0.getLsbD 4
  | .f8e4 | .f8e5 => !feat0.getLsbD 3
  | _ => false
/-- The tile's tag names a feature that is not enabled: trap 0x01, before the other checks of a descriptor (R434, log 107). -/
def State.tileDisabled (s : State) (w : TWord) : Bool := tagDisabled s.mod.feat0 (tileOf w).tag
/-- Rounding mode SR of a convert word with its feature not enabled (R47, R434). -/
def State.srDisabled (s : State) (word : Word) : Bool := bits word 16 3 = 4 && !s.mod.feat0.getLsbD 8

/-- A descriptor that passes R270. -/
def State.withTile (s : State) (w : TWord) (k : Tile → State → State) : State :=
  if s.tileDisabled w then s.trap 0x01
  else match tileFault w with
  | some (c, a) => s.trapAux c 0 (BitVec.ofNat 64 a) 0
  | none => k (tileOf w) s

/-- The first span that protection denies at a level (R272, R352). -/
def State.deniedSpan (s : State) (sup : Bool) (p : Perm) (l : List (Nat × Nat)) : Option Nat :=
  (l.find? fun x => !s.spadAllowed sup p x.1 x.2).map (·.1)
/-- Permission of tile and scale bytes at the issuer's level: trap 0x09 (R272). -/
def State.tilesAllowed (s : State) (p : Perm) (l : List (Nat × Nat)) (k : State → State) : State :=
  match s.deniedSpan s.sup p l with
  | some a => s.trapEa 0x09 (BitVec.ofNat 64 a)
  | none => k s

/-! ### Elements -/

/-- Element (i, j) of a tile in memory, raw bits (R45, R124). -/
def State.elem (s : State) (t : Tile) (i j : Nat) : Nat :=
  match t.tag with
  | .q4 => (s.byte (t.byteAt i (j / 2))).toNat / (if j % 2 = 1 then 16 else 1) % 16
  | .a80 => s.num (t.byteAt i (16 * j)) 16 % 2 ^ 80
  | tag => let n := elemBits tag / 8; s.num (t.byteAt i (n * j)) n

/-- An element converted into the bytes of its row, each with its place: a Q4 row is given in pairs (R45). -/
def Tile.rowCells (t : Tile) (i : Nat) (l : List Nat) : List (Nat × Byte) :=
  match t.tag with
  | .q4 => (List.range (l.length / 2)).map fun k =>
      (t.byteAt i k, BitVec.ofNat 8 (l.getD (2 * k) 0 % 16 + 16 * (l.getD (2 * k + 1) 0 % 16)))
  | tag =>
    let n := elemBits tag / 8
    (List.range l.length).flatMap fun j => (List.range n).map fun b =>
      (t.byteAt i (n * j + b), BitVec.ofNat 8 (l.getD j 0 / 256 ^ b))

/-- Bytes written as LocalWrites of aligned 8-byte words with byte enables, at an operation clock (R97, R275, R286). Answers
the latest time, or nothing beyond the clock limit. -/
def State.writeCells (s : State) (clk time : Nat) (cells : List (Nat × Byte)) : List Nat → Option (Nat × State)
  | [] => some (time, s)
  | w :: r =>
    let t := s.writeTime (granule (8 * w)) clk
    if clockLimit ≤ t then none
    else
      let l := cells.filter fun p => p.1 / 8 = w
      let s := s.stampWrite (granule (8 * w)) t
      let s := s.writeParts (8 * w) 8 (8 * w) t (l.map fun p => (p.1, [p.2]))
      s.writeCells clk (max time t) cells r

/-! ### `tset`, `tget`, `mmeta` -/

/-- R270: checks a descriptor and writes tN. -/
def execTset (a b : GNum) (fa fb : Bool) (t : TNum) (s : State) : Out :=
  .next (s.srcG fa a fun w0 s => s.srcG fb b fun w1 s =>
    s.withTile (w1 ++ w0) fun _ s => (s.upd fun x => { x.mend (3 * t.val + 1) with t := x.t.set t (w1 ++ w0), tu := x.tu.set t s.taint }).finish 4)
/-- R271: g[d] := word 0 of tN. -/
def execTgetW0 (d : GNum) (t : TNum) (s : State) : Out := .next ((s.taintT t).putG 4 d (s.ctx.t[t].extractLsb' 0 64))
/-- R271: g[d] := word 1 of tN. -/
def execTgetW1 (d : GNum) (t : TNum) (s : State) : Out := .next ((s.taintT t).putG 4 d (s.ctx.t[t].extractLsb' 64 64))

/-- R272, R278, R279: the sparsity latch takes the metadata descriptor and N. The word is checked first, then the
descriptor, its tag and its read permission. -/
def execMmeta (a : GNum) (fa : Bool) (t : TNum) (s : State) : Out :=
  .next (s.srcG fa a fun w s =>
    if bits w 0 56 ≠ 0 || bits w 59 5 ≠ 0 || bits w 56 3 = 0 then s.trap 0x15
    else (s.taintT t).withTile s.ctx.t[t] fun m s =>
      if m.tag ≠ .n8 then s.trap 0x06
      else s.tilesAllowed .rd m.spans fun s =>
        (s.upd fun x => { x with spl := ⟨x.t[t], true, BitVec.ofNat 3 (bits w 56 3)⟩ }).finish 4)

end Sys2Proof.Machine
end

