-- ==== Sys2Proof/Machine/Matrix.lean ====
section
/-!
DEFINITION. Sys2Proof/Machine/Matrix.lean: the matrix engine (R116 to R123): the direct instructions at issue (R272, R273,
R278 to R286), the direct queue (R274), plane loads, passes with the sums of R61 and R62, conversions, zeroing, and their
faults (R284, R287). A pass and a conversion go row by row; a load reads its tiles at the moment it completes (log 29).
-/
namespace Sys2Proof.Machine

/-! ### Operands and shapes -/

/-- The formats of R117. -/
def isOperand : Tag → Bool
  | .q8 | .q4 | .f8e4 | .f8e5 | .bf16 | .f16 | .f32 => true
  | _ => false
/-- A Q format. -/
def isQ (t : Tag) : Bool := t = .q8 || t = .q4
/-- Kmax of R117. -/
def kmax : Tag → Nat
  | .q4 => 512
  | .bf16 | .f16 => 128
  | .f32 => 64
  | _ => 256
/-- f of R121; 1 when dense. -/
def foldOf (n : Nat) : Nat := if n = 0 then 1 else 64 / n
/-- N of a sparsity latch, 0 when it is clear (R279). -/
def SparsityLatch.n (sp : SparsityLatch) : Nat := if sp.valid then 8 * sp.nsel.toNat else 0
/-- The kept count per column of a load (R280). -/
def keptOf (t : Tile) (tr : Bool) : Nat := if tr then t.cols else t.rows
/-- KD of R280. -/
def denseOf (n k : Nat) : Nat := if n = 0 then k else k * 64 / n

/-- The scale words of a load: 64·f columns, ⌈KD/256⌉ blocks each, for the Q formats (R118, R280). -/
def loadScales (t : Tile) (tr : Bool) (n : Nat) : List (Nat × Nat) :=
  if isQ t.tag then [(t.scale, 4 * (64 * foldOf n) * blocksOf (denseOf n (keptOf t tr)))] else []
/-- The metadata tile of a load. -/
def metaSpans (sp : SparsityLatch) : List (Nat × Nat) := if sp.valid then (tileOf sp.desc).spans else []

/-- The checks of a load but protection: R270, R117, R124, R280; the cause and AUX of the first that fails. -/
def loadFault (w : TWord) (tr : Bool) (sp : SparsityLatch) : Option (BitVec 8 × Nat) :=
  let t := tileOf w
  let n := sp.n
  let k := keptOf t tr
  let kd := denseOf n k
  let m := tileOf sp.desc
  match tileFault w with
  | some f => some f
  | none =>
    if !isOperand t.tag then some (0x06, 0)
    else if isQ t.tag && !t.scv then some (0x15, 0)
    else if (if tr then t.rows else t.cols) ≠ 64 * foldOf n || kd = 0 || decide (kmax t.tag < kd)
      || (n ≠ 0 && k % n ≠ 0) || (t.tag = .q4 && kd % 2 = 1) then some (0x15, 0)
    else if (loadScales t tr n).any fun p => !inSpad p.1 p.2 then some (0x15, 0)
    else if !sp.valid then none
    else match tileFault sp.desc with
      | some f => some f
      | none =>
        if m.tag ≠ .n8 then some (0x06, 0)
        else if m.rows ≠ k || m.cols ≠ 64 * foldOf n then some (0x15, 0) else none

/-- The bytes that a job reads (R119, R280). -/
def MatJob.reads (j : MatJob) : List (Nat × Nat) :=
  let t := tileOf j.tile
  match j.kind with
  | .load tr => t.spans ++ loadScales t tr j.sp.n ++ metaSpans j.sp
  | .pass => t.spans ++ (if isQ t.tag then [(t.scale, 4 * t.rows * blocksOf t.cols)] else [])
  | _ => []

/-- The scales of a pass, an operand row and its place in the bank, but for the plane (R272, R283). -/
def passFault (w : TWord) (word : Word) : Option (BitVec 8 × Nat) :=
  let t := tileOf w
  match tileFault w with
  | some f => some f
  | none =>
    if !isOperand t.tag then some (0x06, 0)
    else if isQ t.tag && !t.scv then some (0x15, 0)
    else if 128 < t.rows || decide (128 < bits word 0 7 + t.rows) then some (0x15, 0) else none

/-! ### Ends of jobs -/

/-- A record of the walker changed. -/
def State.updTask (s : State) (idx : Nat) (f : LiveTask → LiveTask) : State :=
  s.updEng fun e => { e with tasks := e.tasks.map fun t => if t.idx = idx then f t else t }
/-- A matrix task is READY or RUNNING: KIND 1 to 5 (R135, R138). -/
def Engines.matrixTasks (e : Engines) : Bool :=
  e.tasks.any fun t => (t.ready || t.running) && t.visible && decide (1 ≤ t.kind) && decide (t.kind ≤ 5)

/-- A job ends with a trap cause (0 none) and AUX, and its latest access time. For a direct instruction the context goes on,
its CLK past every access, or traps at its own PC (R273, R275); a task completes (R139). At the clock limit, 0x1F here, the
instruction completes and its context takes trap 0x1F at its next `tlwait` or `pfence`; a task has status 7 (R114). -/
def State.matEnd (s : State) (r : MatRun) (cause : BitVec 8) (aux time : Nat) : State :=
  match r.who with
  | .direct owner rep =>
    if (s.getCtx owner).st ≠ .issued then s
    else
      let s := { s with cur := owner, rep := rep, taint := [] }
      if cause = 0 then (s.raiseClk time).finish 4
      else if cause = 0x1F then ((s.upd fun x => { x with clkTrap := true }).raiseClk time).finish 4
      else s.trapAux cause 0 (BitVec.ofNat 64 aux) 0
  | .task idx =>
    let lim := cause = 0x1F
    let s := s.updTask idx fun t =>
      { t with time := max t.time time, cause := if lim then 0 else cause, status := if lim then 7 else 0,
               retry := r.retries }
    s.post (.taskCompletion idx)

/-- A job that starts. -/
def MatRun.start (j : MatJob) (who : MatFor) : MatRun := ⟨j, who, false, 0, 0, none, 0, j.clk⟩

/-- The planes exchanged with their descriptors and scales; SHS becomes EMPTY (R119, R282). -/
def Engines.exchange (e : Engines) : Engines := { e with active := e.shadow, shadow := e.active, shs := .empty }
/-- SHS as AUX carries it (R281). -/
def shsCode : Shs → Nat
  | .empty => 0 | .loading => 1 | .full => 2

/-- The start checks of a pass against the plane that will be active (R117, R283). -/
def passStartFault (j : MatJob) (p : Plane) : BitVec 8 :=
  let t := tileOf j.tile
  if p.tag = .raw || (p.tag ≠ t.tag && !(isF8 p.tag && isF8 t.tag)) then 0x06
  else if t.cols ≠ p.kb then 0x15
  else if 128 < bits j.word 0 7 + t.rows * foldOf p.n then 0x15 else 0

/-- A pass starts: its checks, then its swap (R119, R283). A pass that swaps and finds SHS LOADING, or a task that finds it
EMPTY, waits. -/
def State.startPass (s : State) (r : MatRun) : State :=
  let swap := bits r.job.word 63 1 = 1
  let plane := if swap then s.eng.shadow else s.eng.active
  let c := passStartFault r.job plane
  let s := s.updEng fun e => { e with pass := none }
  if c ≠ 0 then s.matEnd r c 0 r.job.clk
  else
    let s := s.updEng fun e => { (if swap then e.exchange else e) with pass := some { r with swapped := true } }
    s.post .passCompletion

/-- What may go on in the engine now is put before it: the head of the direct queue, a launch, a pass that waited for its
swap (R119, R138, R274). -/
def State.engineKick (s : State) : State :=
  let s := match s.eng.pass with
    | some r => if !r.swapped && decide (s.eng.shs = Shs.full) then s.startPass r else s
    | none => s
  let s := if s.eng.queue.isEmpty then s else s.postOnce .directEntryStart
  if s.eng.tasks.any fun t => t.ready && t.visible then s.postOnce .taskLaunch else s

/-! ### Reading -/

/-- What the reads of a job give: an uncorrectable error, the clock limit, or their latest time (R97, R114, R376). -/
inductive ReadRes where
  | err | limit | ok (t : Nat)
  deriving DecidableEq, Repr

/-- The reads of some spans placed at an operation clock (R106, R275). -/
def State.engineReads (s : State) (clk : Nat) (l : List (Nat × Nat)) : ReadRes × State :=
  if l.any fun p => s.badWord p.1 p.2 then (.err, s)
  else
    let t := l.foldl (fun m p => max m (s.engineReadTime p.1 p.2 clk)) clk
    if clockLimit ≤ t then (.limit, s) else (.ok t, l.foldl (fun s p => s.engineRead p.1 p.2 clk) s)

/-- Element r of column j of a load (R280). -/
def State.loadElem (s : State) (t : Tile) (tr : Bool) (r j : Nat) : Nat := if tr then s.elem t j r else s.elem t r j
/-- Metadata byte (r, j). -/
def State.metaByte (s : State) (sp : SparsityLatch) (r j : Nat) : Nat := s.elem (tileOf sp.desc) r j
/-- A malformed metadata byte (R122). -/
def State.metaBad (s : State) (sp : SparsityLatch) (r j : Nat) : Bool :=
  let b := s.metaByte sp r j
  decide (64 ≤ b) || (r % sp.n ≠ 0 && decide (b ≤ s.metaByte sp (r - 1) j % 64))
/-- The first malformed byte as AUX names it, r·64f + j (R281). -/
def State.metaFault (s : State) (sp : SparsityLatch) (k : Nat) : Option Nat :=
  if !sp.valid then none
  else
    let c := 64 * foldOf sp.n
    (List.range (k * c)).find? fun x => s.metaBad sp (x / c) (x % c)

/-- A column of the plane over the dense K index (R63, R122). -/
def State.denseColumn (s : State) (t : Tile) (tr : Bool) (sp : SparsityLatch) (k j : Nat) : List Nat :=
  if !sp.valid then (List.range k).map fun r => s.loadElem t tr r j
  else
    let tab := (List.range k).foldl (fun m r =>
      mapSet 0 m (64 * (r / sp.n) + s.metaByte sp r j % 64) (s.loadElem t tr r j)) []
    (List.range (denseOf sp.n k)).map (mapGet 0 tab)

/-- The plane that a load makes (R281). -/
def State.planeOf (s : State) (t : Tile) (tr : Bool) (sp : SparsityLatch) : Plane :=
  let k := keptOf t tr
  let kd := denseOf sp.n k
  let c := 64 * foldOf sp.n
  ⟨t.tag, kd, c, sp.n, (List.range c).map (s.denseColumn t tr sp k),
    if isQ t.tag then (List.range (c * blocksOf kd)).map fun i => s.num (t.scale + 4 * i) 4 else []⟩

/-- PLANE_LOAD_COMPLETION, R281: the metadata is checked, the shadow plane and its descriptor take the operand. -/
def execPlaneLoadCompletion (s : State) : Out :=
  .next (match s.eng.load with
    | none => s
    | some r => match r.job.kind with
      | .load tr =>
        let t := tileOf r.job.tile
        let stop (s : State) (cause : BitVec 8) (aux time : Nat) : State :=
          ((s.updEng fun e => { e with shs := .empty, load := none }).matEnd r cause aux time).engineKick
        match s.engineReads r.job.clk r.job.reads with
        | (.err, s) => s.urge (.event (.clusterKill s.me))
        | (.limit, s) => stop s 0x1F 0 r.job.clk
        | (.ok time, s) =>
          match s.metaFault r.job.sp (keptOf t tr) with
          | some aux => stop s 0x15 aux time
          | none =>
            let p := s.planeOf t tr r.job.sp
            ((s.updEng fun e => { e with shadow := p, shs := .full, load := none }).matEnd r 0 0 time).engineKick
      | _ => s)

/-! ### Passes (R61, R62, R119, R123) -/

/-- A value of A80. -/
def a80 (x : Nat) : FVal := decodeF (ffmt .a80) x
/-- A scale word. -/
def f32 (x : Nat) : FVal := decodeF (ffmt .f32) x

/-- Groups of n consecutive elements. -/
def groupsOf (n : Nat) (l : List Nat) : List (List Nat) :=
  (List.range ((l.length + n - 1) / n)).map fun j => (l.drop (n * j)).take n

/-- The exact sum of a group's products (R61). -/
def groupSum : List FVal → FVal
  | [] => .fin false 0 0
  | x :: r => r.foldl (fadd .rne) x
/-- One output element of the float path: the groups of 32 enter in ascending order (R61). -/
def floatDot (ta tb : Tag) (acc : Nat) (a b : List Nat) : Nat :=
  ((groupsOf 32 a).zip (groupsOf 32 b)).foldl (fun acc p =>
    let g := roundNE (ffmt .a80) (groupSum (p.1.zipWith (fun x y => fmul (decodeF (ffmt ta) x) (decodeF (ffmt tb) y)) p.2))
    roundNE (ffmt .a80) (fadd .rne (a80 acc) (a80 g))) acc

/-- The exact block sum that the residues stand for; it lies in the range of R55 (R56). -/
def blockSum (t : Tag) (a b : List Nat) : Int := (a.zipWith (fun x y => laneInt t x * laneInt t y) b).foldl (· + ·) 0
/-- One output element of the Q path: the blocks enter in ascending order with their scales (R62). -/
def qDot (t : Tag) (acc : Nat) (a b rs cs : List Nat) : Nat :=
  ((groupsOf 256 a).zip ((groupsOf 256 b).zip (rs.zip cs))).foldl (fun acc p =>
    let v := fmul (ofIntExp (blockSum t p.1 p.2.1) 0 false) (fmul (f32 p.2.2.1) (f32 p.2.2.2))
    roundNE (ffmt .a80) (fadd .rne (a80 acc) v)) acc

/-- The row scales of row i. -/
def State.rowScales (s : State) (t : Tile) (i : Nat) : List Nat :=
  if isQ t.tag then (List.range (blocksOf t.cols)).map fun b => s.num (t.scale + 4 * (i * blocksOf t.cols + b)) 4 else []
/-- The scales of output column j of a plane. -/
def Plane.colScales (p : Plane) (j : Nat) : List Nat := (p.scales.drop (j * blocksOf p.kb)).take (blocksOf p.kb)

/-- The invalid scale of a pass as AUX names it (R46, R284): the lowest row, else 0x100 + the lowest column. -/
def State.scaleFault (s : State) (t : Tile) (p : Plane) : Option Nat :=
  if !isQ t.tag then none
  else match (List.range t.rows).find? fun i => (s.rowScales t i).any fun x => !scaleValid x with
    | some i => some i
    | none => ((List.range p.cols).find? fun j => (p.colScales j).any fun x => !scaleValid x).map fun j => 0x100 + j

/-- Accumulator element (row, col). -/
def Engines.accAt (e : Engines) (row col : Nat) : Nat := mapGet 0 e.acc (64 * row + col)
/-- Output column j of A row i, written at its accumulator element (R119, R123). -/
def State.passElem (s : State) (j : MatJob) (t : Tile) (arow rs : List Nat) (i c : Nat) : State :=
  let p := s.eng.active
  let row := bits j.word 0 7 + i * foldOf p.n + c / 64
  let acc := if bits j.word 62 1 = 1 then s.eng.accAt row (c % 64) else 0
  let col := p.elems.getD c []
  let v := if isQ t.tag then qDot t.tag acc arow col rs (p.colScales c) else floatDot t.tag p.tag acc arow col
  s.updEng fun e => { e with acc := mapSet 0 e.acc (64 * row + c % 64) v, accBad := e.accBad.filter (· ≠ 64 * row + c % 64) }
/-- The results of A row i with its scales. -/
def State.passRow (s : State) (j : MatJob) (t : Tile) (rs : List Nat) (i : Nat) : State :=
  let arow := (List.range t.cols).map fun k => s.elem t i k
  (List.range s.eng.active.cols).foldl (fun s c => s.passElem j t arow rs i c) s

/-- A pass ends with a cause (0 none) while it holds the array. -/
def State.passEnd (s : State) (r : MatRun) (cause : BitVec 8) (aux time : Nat) : State :=
  ((s.updEng fun e => { e with pass := none }).matEnd r cause aux time).engineKick

/-- The pass that holds the array goes on (R119): it reads and checks its scales, then its rows enter one by one in ascending order, each
with its reads (R106), and after the last one it releases the array. Results stand in the accumulator from then on: every
entry that can see them waits for the drain. -/
def State.passMove (s : State) (r : MatRun) : State :=
  let t := tileOf r.job.tile
  let reads := match r.scales with
    | none => if isQ t.tag then t.scaleSpan t.rows (blocksOf t.cols) else []
    | some _ => t.rowSpans r.row
  match s.engineReads r.job.clk reads with
  | (.err, s) => s.urge (.event (.clusterKill s.me))
  | (.limit, s) => s.passEnd r 0x1F 0 r.time
  | (.ok time, s) =>
    let r := { r with time := max r.time time }
    match r.scales with
    | none =>
      match s.scaleFault t s.eng.active with
      | some aux => s.passEnd r 0x0D aux r.time
      | none =>
        (s.updEng fun e => { e with pass := some { r with scales := some ((List.range t.rows).map (s.rowScales t)) } }).post .passCompletion
    | some scales =>
      let s := s.passRow r.job t (scales.getD r.row []) r.row
      let r := { r with row := r.row + 1 }
      if r.row < t.rows then (s.updEng fun e => { e with pass := some r }).post .passCompletion
      else ((s.updEng fun e => { e with pass := none, drain := e.drain ++ [r] }).post .passCompletion).engineKick

/-- PASS_COMPLETION, R119, R283: the oldest pass that drains completes, or the one that holds the array goes on; which is free. -/
def execPassCompletion (s : State) : Out :=
  .next (
    let active := s.eng.pass.filter fun r => r.swapped
    match s.eng.drain, active with
    | [], none => s
    | [], some p => s.passMove p
    | r :: q, active =>
      let (n, s) := s.draw
      match active, Config.freeBool n with
      | some p, true => s.passMove p
      | _, _ => ((s.updEng fun e => { e with drain := q }).matEnd r 0 0 r.time).engineKick)

/-- The mismatch of a row of a job that the engine checks: the first streams, or converts, it once more, which RETRY counts (R134); a
second one ends the job with trap 0x0E (R120, R287). -/
def MatRun.again (r : MatRun) (row : Nat) : MatRun := { r with failRow := row, retries := r.retries + 1 }
/-- The row has not been converted once more yet. -/
def MatRun.fresh (r : MatRun) (row : Nat) : Bool := r.retries = 0 || decide (r.failRow ≠ row)

/-- RESIDUE_RESTREAM, R120, R287: the row that a pass would write next does not check, or the row that a conversion would convert next. The
rows before it are written; the first mismatch of a pass, and the first one of each row of a conversion, has no other
effect than the second reading. -/
def execResidueRestream (row : Nat) (s : State) : Out :=
  .next (match s.eng.pass, s.eng.conv with
    | some r, _ =>
      if !r.swapped || r.scales.isNone || row ≠ r.row then s
      else if r.retries = 0 then s.updEng fun e => { e with pass := some (r.again row) }
      else ({ s with agenda := s.agenda.erase .passCompletion }).passEnd r 0x0E row r.time
    | none, some r =>
      if r.job.kind ≠ .convert || row ≠ r.row then s
      else if r.fresh row then s.updEng fun e => { e with conv := some (r.again row) }
      else (((s.updEng fun e => { e with conv := none }).matEnd r 0x0E row r.time).cancel .mcvtCompletion).engineKick
    | none, none => s)

/-! ### Conversion and zeroing (R285 to R287) -/

/-- One element converted (R135, R286): the accumulator value times s, rounded once. The bits that take part in a stochastic rounding
are those of the accumulator element, the source (R52). -/
def cvtElem (dt : Tag) (r : Rnd) (scv : Bool) (factor acc draw : Nat) : Nat :=
  let v := if scv then fmul (a80 acc) (f32 factor) else a80 acc
  let srD (k : Int) : Nat := fracBelow (ffmt .a80) acc k
  if isFloat dt then roundF (ffmt dt) r v srD draw
  else match dt with
    | .rt => match v with
      | .nan => toRT 0
      | .inf neg => toRT (if neg then -(2 ^ 80 : Nat) else (2 ^ 80 : Nat))
      | .fin neg man exp => toRT (roundMagInt r neg ⟨man, 1, exp⟩ (srD 0) draw)
    | dt => toIntTag dt r v (srD 0) draw

/-- Row i of the destination. -/
def State.cvtRow (s : State) (j : MatJob) (t : Tile) (i : Nat) : List Nat :=
  (List.range t.cols).map fun c =>
    let draw := (drawValue s.cl.par.jobSeed j.l j.c (j.n + BitVec.ofNat 48 (i * t.cols + c))).toNat
    cvtElem t.tag (rndOf (BitVec.ofNat 3 (bits j.word 16 3))) (bits j.word 20 1 = 1) j.factor
      (s.eng.accAt (bits j.word 0 7 + i) (bits j.word 8 6 + c)) draw

/-- MCVT_COMPLETION, R275, R286, R287: row by row in ascending order; every element of a row that takes part is verified before the row
is written. An element whose error lasts fails the second conversion of its row too (log 19). A row's words are written in one move, in
ascending order (R106 leaves them unordered, log 29). -/
def execMcvtCompletion (s : State) : Out :=
  .next (match s.eng.conv with
    | none => s
    | some r => match r.job.kind with
      | .convert =>
        let t := tileOf r.job.tile
        let stop (s : State) (r : MatRun) (cause : BitVec 8) (aux time : Nat) : State :=
          ((s.updEng fun e => { e with conv := none }).matEnd r cause aux time).engineKick
        let at_ (c : Nat) : Nat := 64 * (bits r.job.word 0 7 + r.row) + bits r.job.word 8 6 + c
        if (List.range t.cols).any fun c => s.eng.accBad.contains (at_ c) then
          stop s (if r.fresh r.row then r.again r.row else r) 0x0E r.row r.time
        else
          let cells := t.rowCells r.row (s.cvtRow r.job t r.row)
          match s.writeCells r.job.clk r.time cells ((cells.map fun p => p.1 / 8).foldl insNat []) with
          | none => stop s r 0x1F 0 r.time
          | some (time, s) =>
            if r.row + 1 < t.rows then
              (s.updEng fun e => { e with conv := some { r with row := r.row + 1, time := time } }).post .mcvtCompletion
            else stop s r 0 0 time
      | _ => s)

/-- MZERO_COMPLETION, R285. -/
def execMzeroCompletion (s : State) : Out :=
  .next (match s.eng.conv with
    | none => s
    | some r => match r.job.kind with
      | .zero =>
        let lo := bits r.job.word 0 7
        let hi := lo + bits r.job.word 8 7
        let s := s.updEng fun e =>
          { e with acc := e.acc.filter (fun p => !(decide (lo ≤ p.1 / 64) && decide (p.1 / 64 ≤ hi)))
                   accBad := e.accBad.filter (fun x => !(decide (lo ≤ x / 64) && decide (x / 64 ≤ hi))), conv := none }
        (s.matEnd r 0 0 r.job.clk).engineKick
      | _ => s)

/-! ### The direct queue (R273, R274) -/

/-- DIRECT_ENTRY_START, R274, R281 to R283: the head of the queue starts if the engine can take it; otherwise it is offered
again when something of the engine ends. -/
def execDirectEntryStart (s : State) : Out :=
  .next (match s.eng.queue with
    | [] => s
    | e :: q =>
      let r := MatRun.start e.job (.direct e.owner e.rep)
      let g := s.eng
      let pop (s : State) : State := s.updEng fun e => { e with queue := q }
      if g.matrixTasks then s
      else match e.job.kind with
        | .load _ =>
          if g.load.isSome || g.conv.isSome then s
          else if g.shs ≠ .empty then ((pop s).matEnd r 0x15 (shsCode g.shs) e.job.clk).engineKick
          else (((pop s).updEng fun e => { e with shs := .loading, load := some r }).post .planeLoadCompletion).engineKick
        | .swap =>
          match g.shs with
          | .loading => s
          | .empty => ((pop s).matEnd r 0x15 0 e.job.clk).engineKick
          | .full =>
            if g.pass.isSome || g.conv.isSome then s
            else (((pop s).updEng Engines.exchange).matEnd r 0 0 e.job.clk).engineKick
        | .pass =>
          let swap := bits e.job.word 63 1 = 1
          if g.pass.isSome || g.conv.isSome || (swap && g.shs = .loading) then s
          else if swap && g.shs = .empty then ((pop s).matEnd r 0x15 0 e.job.clk).engineKick
          else ((pop s).startPass r).engineKick
        | .convert =>
          if g.load.isSome || g.pass.isSome || !g.drain.isEmpty || g.conv.isSome then s
          else ((pop s).updEng fun e => { e with conv := some r }).post .mcvtCompletion
        | .zero =>
          if g.load.isSome || g.pass.isSome || !g.drain.isEmpty || g.conv.isSome then s
          else ((pop s).updEng fun e => { e with conv := some r }).post .mzeroCompletion)

/-- A direct instruction is sent: the context stays ISSUED until the engine ends it; with 16 entries in the queue it waits
(R273). `f` is what the sending changes in the context. -/
def State.sendDirect (s : State) (kind : MatKind) (tile : TWord) (word : Word) (factor : Nat) (sp : SparsityLatch)
    (f : Ctx → Ctx) : State :=
  if 16 ≤ s.eng.queue.length then s.block .directSlot
  else
    let x := s.ctx
    let j : MatJob := ⟨kind, tile, word, factor, sp, s.sup, x.clk, x.lcore, BitVec.ofNat 4 (s.leaderNum s.cur).val, x.drawn⟩
    let s := (s.updEng fun e => { e with queue := e.queue ++ [⟨j, s.cur, s.rep⟩] }).markAtomic
    ((s.upd f).postOnce .directEntryStart)

/-- A descriptor's checks, then a job's own protection check (R272). For a plane load and a pass the rules state no order between shape
and protection; protection comes last, as R286 has it for `mcvt` (log 108). A trap 0x15 that concerns no descriptor word has AUX 0
(log 21). -/
def State.directChecks (s : State) (w : TWord) (f : Option (BitVec 8 × Nat)) (p : Perm) (l : List (Nat × Nat)) (k : State → State) : State :=
  if s.tileDisabled w then s.trap 0x01
  else match f with
  | some (c, a) => s.trapAux c 0 (BitVec.ofNat 64 a) 0
  | none => s.tilesAllowed p l k

/-- R272, R279, R280: a plane load; the sending consumes SPL. -/
def sendLoad (tr : Bool) (t : TNum) (s : State) : Out :=
  .next ((s.taintT t).checked fun s =>
    let w := s.ctx.t[t]
    let sp := s.ctx.spl
    let j : MatJob := ⟨.load tr, w, 0, 0, sp, s.sup, 0, 0, 0, 0⟩
    s.directChecks w (loadFault w tr sp) .rd j.reads fun s =>
      s.sendDirect (.load tr) w 0 0 sp fun x => { x with spl := SparsityLatch.reset })
/-- R280. -/
def execMld (t : TNum) (s : State) : Out := sendLoad false t s
/-- R280: the operand is stored transposed. -/
def execMldt (t : TNum) (s : State) : Out := sendLoad true t s

/-- R282. -/
def execMswap (s : State) : Out := .next (s.checked fun s => s.sendDirect .swap 0 0 0 SparsityLatch.reset id)

/-- R272, R278, R283. The reserved bits of the pass word are checked before the descriptor, as R286 has it for `mcvt`; the rules state
no order for a pass (log 108). -/
def execMstream (a : GNum) (fa : Bool) (t : TNum) (s : State) : Out :=
  .next (s.srcG fa a fun word s => (s.taintT t).checked fun s =>
    if bits word 7 55 ≠ 0 then s.trap 0x15
    else
      let w := s.ctx.t[t]
      let j : MatJob := ⟨.pass, w, word, 0, SparsityLatch.reset, s.sup, 0, 0, 0, 0⟩
      s.directChecks w (passFault w word) .rd j.reads fun s => s.sendDirect .pass w word 0 SparsityLatch.reset id)

/-- R278, R285. -/
def execMzero (a : GNum) (fa : Bool) (s : State) : Out :=
  .next (s.srcG fa a fun word s => s.checked fun s =>
    if bits word 7 1 ≠ 0 || bits word 15 49 ≠ 0 || decide (128 < bits word 0 7 + bits word 8 7 + 1) then s.trap 0x15
    else s.sendDirect .zero 0 word 0 SparsityLatch.reset id)

/-- The reserved bits of a convert word (R278). -/
def cvtReserved (word : Word) : Bool :=
  bits word 7 1 ≠ 0 || bits word 14 2 ≠ 0 || bits word 19 1 ≠ 0 || bits word 21 43 ≠ 0
/-- The checks of R286 in order, but the factor's and protection's. -/
def cvtFault (w : TWord) (word : Word) : Option (BitVec 8 × Nat) :=
  let t := tileOf w
  match tileFault w with
  | some f => some f
  | none =>
    if t.tag = .raw then some (0x06, 0)
    else if decide (128 < bits word 0 7 + t.rows) || decide (64 < bits word 8 6 + t.cols) then some (0x15, 0)
    else if 5 ≤ bits word 16 3 then some (0x01, 0) else none

/-- R286: under SR the counter advances by ROWS·COLS at issue. A tag or a mode SR that is not enabled is trap 0x01 (R434). -/
def execMcvt (a b : GNum) (fa fb : Bool) (t : TNum) (s : State) : Out :=
  .next (s.srcG fa a fun word s => s.srcG fb b fun fw s => (s.taintT t).checked fun s =>
    let w := s.ctx.t[t]
    let d := tileOf w
    let factor := bits fw 0 32
    if cvtReserved word then s.trap 0x15
    else if s.tileDisabled w then s.trap 0x01
    else match cvtFault w word with
      | some (c, x) => s.trapAux c 0 (BitVec.ofNat 64 x) 0
      | none =>
        if s.srDisabled word then s.trap 0x01
        else if bits word 20 1 = 1 && !scaleValid factor then s.trap 0x0D
        else s.tilesAllowed .wr d.spans fun s =>
          s.sendDirect .convert w word factor SparsityLatch.reset fun x =>
            if bits word 16 3 = 4 then { x with drawn := x.drawn + BitVec.ofNat 48 (d.rows * d.cols) } else x)

end Sys2Proof.Machine
end

