-- ==== Sys2Proof/Machine/Tasks.lean ====
section
/-!
DEFINITION. Sys2Proof/Machine/Tasks.lean: task records and the task walker (R134 to R140, R289): `mtask`, launches and
completions. The walker's writes to records are LocalWrites at the task's operation clock (R106, log 14).
-/
namespace Sys2Proof.Machine

/-! ### Records (R134) -/

/-- Word w of the record of an index. -/
def State.taskWord (s : State) (idx w : Nat) : Word := s.word (128 * idx + 8 * w)
/-- The live record of an index. -/
def State.task? (s : State) (idx : Nat) : Option LiveTask := s.eng.tasks.find? fun t => t.idx = idx
/-- A descriptor in words w and w + 1. -/
def State.taskTile (s : State) (idx w : Nat) : TWord := s.taskWord idx (w + 1) ++ s.taskWord idx w
/-- The overflow list, empty where its count lies outside 1 to 63 (R134, R139). -/
def State.overflow (s : State) (idx : Nat) : List Nat :=
  let p := bits (s.taskWord idx 3) 0 23
  let n := s.num p 2
  if bits (s.taskWord idx 0) 28 1 = 0 || n = 0 || decide (63 < n) then []
  else (List.range n).map fun i => s.num (p + 2 + 2 * i) 2
/-- The successors in the order of R139. -/
def State.successors (s : State) (idx : Nat) : List Nat :=
  ((List.range (min 4 (bits (s.taskWord idx 0) 29 3))).map fun i => bits (s.taskWord idx 2) (16 * i) 16) ++ s.overflow idx

/-- The sparsity of a LOAD's word 10: the metadata tile has the shape of R122, its rows packed (R135, log 30). -/
def taskSparsity (w : TWord) (tr : Bool) (w10 : Word) : SparsityLatch :=
  if bits w10 63 1 = 0 then SparsityLatch.reset
  else
    let n := 8 * bits w10 56 3
    let c := 64 * foldOf n
    let w0 := 0x05 * 2 ^ 59 + keptOf (tileOf w) tr * 2 ^ 47 + c * 2 ^ 37 + c / 16 * 2 ^ 23 + bits w10 0 23
    ⟨(0 : Word) ++ BitVec.ofNat 64 w0, true, BitVec.ofNat 3 (bits w10 56 3)⟩

/-- The transfer of a copy task: KIND, words 10 and 11 (R135). -/
def copyKindOf (kind : Nat) : Option CopyKind :=
  match kind with
  | 8 => some .pull | 9 => some .pull2d | 10 => some .pullG | 11 => some .pullAdd
  | 12 => some .copy | 13 => some .hget | 14 => some .hsend
  | _ => none

/-- Source and destination of a copy task. -/
def State.taskAddrs (s : State) (idx : Nat) : Word × Word := (s.taskWord idx 8, s.taskWord idx 9)

/-- A transfer whose operands are valid (R128, R129, R135, R402). -/
def State.transferValid (s : State) (x : Transfer) (A B : Word) : Bool :=
  let own := if x.kind = .hsend then A else B
  let o := offOf own
  (x.route ≠ 3 || x.kind = .copy) && !x.reserved
    && (if x.kind = .pullAdd then (addTag x.tagCode).isSome else x.tagCode = 0) && x.inRange
    && (x.kind = .pullG || A.toNat % 8 = 0) && B.toNat % 8 = 0
    && x.spitch % 8 = 0 && x.dpitch % 8 = 0 && x.listAt % 8 = 0
    && ownForm s.me own && (x.kind ≠ .copy || ownForm s.me A)
    && (inSpad o x.span || inHbm o x.span) && (!x.fe || (inSpad o x.span && x.kind ≠ .hsend))
    && (x.kind ≠ .hget || s.ingestOf o x.len ≠ .bad) && (x.kind ≠ .pullG || inSpad x.listAt (8 * x.rows))

/-- The operands of a record are valid for its KIND (R135, R136). -/
def State.operandsValid (s : State) (idx : Nat) : Bool :=
  let kind := bits (s.taskWord idx 0) 56 4
  let w (i : Nat) : Word := s.taskWord idx i
  let zero (lo : Nat) : Bool := (List.range (16 - lo)).all fun i => w (lo + i) = 0
  let tile := s.taskTile idx 8
  let load (tr : Bool) : Bool :=
    zero 11 && bits (w 10) 59 4 = 0 && bits (w 10) 23 33 = 0 && (bits (w 10) 63 1 = 0 || bits (w 10) 56 3 ≠ 0)
      && (loadFault tile tr (taskSparsity tile tr (w 10))).isNone
  match kind with
  | 0 => zero 8
  | 1 => load false
  | 2 => load true
  | 3 => zero 11 && bits (w 10) 7 55 = 0 && (passFault tile (w 10)).isNone
  | 4 => zero 12 && bits (w 11) 32 32 = 0 && !cvtReserved (w 10) && (cvtFault tile (w 10)).isNone
  | 5 => w 8 = 0 && w 9 = 0 && zero 11 && bits (w 10) 7 1 = 0 && bits (w 10) 15 49 = 0
      && decide (bits (w 10) 0 7 + bits (w 10) 8 7 + 1 ≤ 128)
  | k => match copyKindOf k with
    | none => false
    | some c => zero 12 && bits (w 10) 25 31 = 0 && (c = .pull2d || c = .pullG || w 11 = 0) && (c ≠ .pullG || w 8 = 0)
        && s.transferValid (transferOf c (w 10) (w 11)) (w 8) (w 9)

/-- The validation of R136 that trap 0x15 reports. A record that is live is refused too. -/
def State.taskValid (s : State) (idx : Nat) : Bool :=
  let w (i : Nat) : Word := s.taskWord idx i
  let st := bits (w 0) 60 4
  let count := s.num (bits (w 3) 0 23) 2
  (st = 0 || st = 4 || st = 5) && (s.task? idx).isNone && s.operandsValid idx
    && decide (bits (w 0) 29 3 ≤ 4) && bits (w 0) 52 1 = 0 && bits (w 0) 48 2 = 0 && bits (w 0) 0 28 = 0
    && bits (w 3) 23 41 = 0 && bits (w 4) 24 40 = 0 && bits (w 4) 4 3 = 0 && bits (w 6) 62 2 = 0
    && (bits (w 0) 28 1 = 0 || (bits (w 3) 0 7 = 0 && decide (1 ≤ count) && decide (count ≤ 63)))

/-! ### The walker's writes -/

/-- A word of a record written by the walker at an operation clock: its time (R106). Beyond the clock limit the write is not performed,
and the time says so (R114). -/
def State.walkerWrite (s : State) (clk off : Nat) (w : Word) : Nat × State :=
  let t := s.writeTime (granule off) clk
  if clockLimit ≤ t then (t, s)
  else (t, (s.stampWrite (granule off) t).writeOwn off off (toLe 8 w.toNat) t)
/-- Several words of records written, each as a record's index, a word's number and its value: the latest time. -/
def State.walkerWrites (s : State) (clk time : Nat) : List (Nat × Nat × Word) → Nat × State
  | [] => (time, s)
  | (idx, w, v) :: r =>
    let (t, s) := s.walkerWrite clk (128 * idx + 8 * w) v
    s.walkerWrites clk (max time t) r
/-- The status of a task whose accesses have the given latest time: 7 where one was beyond the clock limit (R114). -/
def limitStatus (time : Nat) : BitVec 4 := if clockLimit ≤ time then 7 else 0

/-! ### Submission (R136, R289) -/

/-- Acceptance in one step (R136). -/
def State.acceptTask (s : State) (idx : Nat) (tl : TLNum) (n : Nat) : State :=
  let x := s.ctx
  let w0 := s.taskWord idx 0
  let ready := bits w0 32 16 = 0
  let cause : Nat := if bits (s.taskWord idx 4) 7 1 = 1 then 0x15 else 0
  let gc := (s.leaderNum s.cur).val
  let w6 := x.lcore.toNat * 2 ^ 52 + gc * 2 ^ 48 + bits (s.taskWord idx 6) 0 48
  let (time, s) := s.walkerWrites x.clk 0
    [(idx, 5, BitVec.ofNat 64 x.clk), (idx, 6, BitVec.ofNat 64 w6), (idx, 4, BitVec.ofNat 64 (cause * 2 ^ 16)),
     (idx, 0, setBits w0 60 4 (if ready then 2 else 1))]
  let t : LiveTask := ⟨idx, s.cur, false, ready, false, bits w0 53 3, s.eng.readySeq, bits w0 56 4, 0, 0, limitStatus time, 0, 0, tl, n⟩
  let s := s.updEng fun e => { e with tasks := e.tasks ++ [t], readySeq := e.readySeq + 1 }
  (((s.upd fun x => x.updTl tl fun t => t.issue n).markAtomic).post (.taskVisible idx)).finish 4

/-- The record uses a feature that is not enabled (R434): an F8 or Q4 tile, sparsity, rounding mode SR. -/
def State.taskDisabled (s : State) (idx : Nat) : Bool :=
  let kind := bits (s.taskWord idx 0) 56 4
  let w10 := s.taskWord idx 10
  (decide (1 ≤ kind) && decide (kind ≤ 4) && s.tileDisabled (s.taskTile idx 8))
    || ((kind = 1 || kind = 2) && bits w10 63 1 = 1 && !s.mod.feat0.getLsbD 7) || (kind = 4 && s.srDisabled w10)
/-- R289. A record that uses a disabled feature is trap 0x01 (R434, log 107). -/
def execMtask (a : GNum) (fa : Bool) (s : State) : Out :=
  .next (s.srcG fa a fun A s => s.checked fun s =>
    let o := offOf A
    if !ownForm s.me A || !inSpad o 1 then s.trapEa 0x08 A
    else if o % 128 ≠ 0 then s.trapEa 0x07 A
    else
      let idx := o / 128
      let tl : TLNum := Fin.ofNat 4 (bits (s.taskWord idx 0) 50 2)
      let n := (s.taskWord idx 1).toNat
      if s.taskDisabled idx then s.trap 0x01
      else if !s.taskValid idx then s.trap 0x15
      else if 256 ≤ s.eng.tasks.length then s.block .taskSlot
      else if n = 0 || decide (n < s.ctx.tl[tl].high) then s.trap 0x14
      else s.acceptTask idx tl n)

/-- TASK_VISIBLE, R136. -/
def execTaskVisible (idx : Nat) (s : State) : Out := .next ((s.updTask idx fun t => { t with visible := true }).engineKick)

/-! ### Launch (R108, R138) -/

/-- Can an engine take a READY task (R130, R138)? -/
def State.launchable (s : State) (t : LiveTask) : Bool :=
  let e := s.eng
  let direct := (e.load.toList ++ e.pass.toList ++ e.drain ++ e.conv.toList).any fun r =>
    match r.who with
    | .direct _ _ => true
    | .task _ => false
  t.ready && t.visible && match t.kind with
    | 0 => true
    | 1 | 2 => !direct && e.load.isNone && e.conv.isNone && e.shs = .empty
    | 3 => !direct && e.pass.isNone && e.drain.isEmpty && e.conv.isNone
    | 4 | 5 => !direct && e.load.isNone && e.pass.isNone && e.drain.isEmpty && e.conv.isNone
    | _ => decide (s.copyInFlight (coreOf t.owner) < 128)

/-- Is a task launched before another: PRIO, then the earlier READY, then the lower index (R138). -/
def LiveTask.before (a b : LiveTask) : Bool :=
  decide (b.prio < a.prio) || (a.prio = b.prio && (decide (a.readyAt < b.readyAt)
    || (a.readyAt = b.readyAt && decide (a.idx < b.idx))))
/-- The first of some tasks. -/
def bestTask : List LiveTask → Option LiveTask
  | [] => none
  | t :: r => match bestTask r with
    | none => some t
    | some u => if u.before t then some u else some t

/-- The job of a matrix task (R134, R135). -/
def State.taskJob (s : State) (t : LiveTask) (clk : Nat) : MatJob :=
  let tile := s.taskTile t.idx 8
  let w10 := s.taskWord t.idx 10
  let w6 := s.taskWord t.idx 6
  let kind : MatKind := match t.kind with
    | 1 => .load false | 2 => .load true | 3 => .pass | 4 => .convert | _ => .zero
  let sp := if t.kind = 1 then taskSparsity tile false w10 else if t.kind = 2 then taskSparsity tile true w10 else SparsityLatch.reset
  ⟨kind, tile, w10, bits (s.taskWord t.idx 11) 0 32, sp, numOf t.owner = 0, clk, BitVec.ofNat 10 (bits w6 52 10),
    BitVec.ofNat 4 (bits w6 48 4), BitVec.ofNat 48 (bits w6 0 48)⟩

/-- A task ends at once with a cause (R137, R140). -/
def State.endTask (s : State) (idx : Nat) (cause : BitVec 8) : State :=
  (s.updTask idx fun t => { t with cause := cause }).post (.taskCompletion idx)

/-- A matrix task starts: the protection of every byte first (R140), then the engine. -/
def State.launchMatrix (s : State) (t : LiveTask) (j : MatJob) : State :=
  let r := MatRun.start j (.task t.idx)
  let writes := if j.kind = .convert then (tileOf j.tile).spans else []
  if (s.deniedSpan j.sup .rd j.reads).isSome || (s.deniedSpan j.sup .wr writes).isSome then s.endTask t.idx 0x09
  else match j.kind with
    | .load _ => (s.updEng fun e => { e with shs := .loading, load := some r }).post .planeLoadCompletion
    | .pass =>
      if bits j.word 63 1 = 1 && s.eng.shs ≠ .full then s.updEng fun e => { e with pass := some r } else s.startPass r
    | .convert =>
      if bits j.word 20 1 = 1 && !scaleValid j.factor then s.endTask t.idx 0x0D
      else (s.updEng fun e => { e with conv := some r }).post .mcvtCompletion
    | .zero => (s.updEng fun e => { e with conv := some r }).post .mzeroCompletion
    | .swap => s

/-- A copy task starts (R130, R402). -/
def State.launchCopy (s : State) (t : LiveTask) (clk : Nat) : State :=
  match copyKindOf t.kind with
  | none => s.endTask t.idx 0x15
  | some c =>
    let x := transferOf c (s.taskWord t.idx 10) (s.taskWord t.idx 11)
    let (A, B) := s.taskAddrs t.idx
    if x.kind = .hget && s.ingestOf (offOf B) x.len = .bad then s.endTask t.idx 0x15
    else s.newCopy x t.owner t.tl t.n A B (numOf t.owner = 0) clk (some t.idx)

/-- A task launched: RUNNING, its operation clock the later of the submitter's clock and its predecessors' completion
(R108); a marked one completes at once (R137). -/
def State.launch (s : State) (t : LiveTask) : State :=
  let clk := max (s.taskWord t.idx 5).toNat (s.taskWord t.idx 7).toNat
  let marked := bits (s.taskWord t.idx 4) 16 8 ≠ 0
  let s := s.updTask t.idx fun t => { t with ready := false, running := true, clk := clk, time := clk }
  let (time, s) := s.walkerWrites clk 0 [(t.idx, 0, setBits (s.taskWord t.idx 0) 60 4 3)]
  let s := s.updTask t.idx fun t => { t with status := if t.status = 0 then limitStatus time else t.status }
  if marked then s.endTask t.idx 0x15
  else if t.kind = 0 then s.endTask t.idx 0
  else if t.kind < 8 then s.launchMatrix t (s.taskJob t clk)
  else s.launchCopy t clk

/-- TASK_LAUNCH, R138. -/
def execTaskLaunch (s : State) : Out :=
  .next (match bestTask (s.eng.tasks.filter s.launchable) with
    | none => s
    | some t => (s.launch t).engineKick)

/-! ### Completion (R137, R139) -/

/-- The decrement of a successor: PREDC, PTIME, the mark of a failed or surplus predecessor; a live record that reaches 0
becomes READY. -/
def State.decrement (s : State) (clk : Nat) (failed : Bool) (ptime : Nat) (x : Nat × Nat) (idx : Nat) : (Nat × Nat) × State :=
  let (time, seq) := x
  let w0 := s.taskWord idx 0
  let predc := bits w0 32 16
  let live := (s.task? idx).isSome
  let waiting := match s.task? idx with
    | some t => !t.ready && !t.running
    | none => false
  let go := waiting && predc = 1
  let w0' := setBits w0 32 16 (predc - 1)
  let (t0, s) := s.walkerWrite clk (128 * idx) (if go then setBits w0' 60 4 2 else w0')
  let (t1, s) := s.walkerWrite clk (128 * idx + 56) (BitVec.ofNat 64 (max (s.taskWord idx 7).toNat ptime))
  let s := if go then s.updTask idx fun t => { t with ready := true, readyAt := seq } else s
  let time := max time (max t0 t1)
  if predc = 0 || failed then
    let w4 := setBits (s.taskWord idx 4) 16 8 0x15
    let (t2, s) := s.walkerWrite clk (128 * idx + 32) (if live then w4 else setBits w4 7 1 1)
    ((max time t2, seq), s)
  else ((time, seq), s)

/-- The writes of a completion in their order; answers the latest time among the task's accesses. -/
def State.completionWrites (s : State) (t : LiveTask) (ptime : Nat) : Nat × State :=
  let failed := t.cause ≠ 0
  let w4 := t.cause.toNat * 2 ^ 16 + t.retry % 256 * 2 ^ 8 + t.status.toNat
  let (t0, s) := s.walkerWrite t.clk (128 * t.idx + 32) (BitVec.ofNat 64 w4)
  let (t1, s) := s.walkerWrite t.clk (128 * t.idx) (setBits (s.taskWord t.idx 0) 60 4 (if failed then 5 else 4))
  let (x, s) := (s.successors t.idx).foldl
    (fun (p : (Nat × Nat) × State) i => p.2.decrement t.clk failed ptime p.1 i) ((max t.time (max t0 t1), s.eng.readySeq), s)
  (x.1, s)

/-- A task completes (R139). The time that PTIME and the timeline take is the latest of all the task's accesses, these writes
among them. -/
def State.completeTask (s : State) (t : LiveTask) : State :=
  let s := s.updEng fun e => { e with tasks := e.tasks.filter fun u => u.idx ≠ t.idx }
  let last := (s.completionWrites t 0).1
  let lim := decide (clockLimit ≤ last)
  let time := if lim then t.time else last
  let status := if lim && t.status = 0 then 7 else t.status
  let s := (s.completionWrites { t with status := status } time).2.updEng fun e => { e with readySeq := e.readySeq + 1 }
  let s := if lim || (status = 7 && decide (t.kind < 8)) then s.updCtx t.owner fun x => { x with clkTrap := true } else s
  (s.tlComplete t.owner t.tl t.n status t.cause time).engineKick

/-- TASK_COMPLETION, R107, R108, R115, R139. -/
def execTaskCompletion (idx : Nat) (s : State) : Out :=
  .next (match s.task? idx with
    | none => s
    | some t => if t.running then s.completeTask t else s)

/-- The WAITING and READY tasks of a context are cancelled (R324). -/
def State.cancelTasks (s : State) (c : CtxId) : State :=
  (s.eng.tasks.filter fun t => t.owner = c && !t.running).foldl (fun s t =>
    let clk := max (s.taskWord t.idx 5).toNat (s.taskWord t.idx 7).toNat
    s.completeTask { t with cause := 0x15, clk := clk, time := clk }) s

end Sys2Proof.Machine
end

