-- ==== Sys2Proof/Machine/Faults.lean ====
section
/-!
DEFINITION. Sys2Proof/Machine/Faults.lean: handler entry and `tret` (R311, R322), `cstart`, `cstop`, `creap`, `rlarm` (R323,
R324, R327), fatal faults with their dumps (R380 to R382, R385), twin restarts (R383), the kill of a cluster (R384, R386).
-/
namespace Sys2Proof.Machine

/-! ### Handler entry (R310, R311) -/

/-- The four words of a record (R310). -/
def recWords (r : TrapRec) : List Word :=
  [BitVec.ofNat 64 (r.cause.toNat * 2 ^ 56 + r.ctx.val * 2 ^ 52 + (if r.fatal then 2 ^ 51 else 0) + r.repidx.toNat * 2 ^ 42
      + r.status.toNat * 2 ^ 38),
   r.pc.zeroExtend 64, r.aux, r.aux2]

/-- The oldest replayable record that is not held, and the others. -/
def takeRec : List QRec → Option (TrapRec × List QRec)
  | [] => none
  | q :: r => if q.hold = .none then some (q.record, r) else (takeRec r).map fun p => (p.1, q :: p.2)
/-- The record that context 0 takes next, and the core without it. -/
def Core.takeNext (k : Core) : Option (TrapRec × Core) :=
  match k.fatq with
  | some r => some (r, { k with fatq := none })
  | none => (takeRec k.tq).map fun p => (p.1, { k with tq := p.2 })
/-- Context 0 takes a record at this boundary (R311). -/
def State.handlerDue (s : State) (core : CoreId) : Bool :=
  let k := s.getCore core
  !k.hnd && !k.tmask && k.takeNext.isSome && (s.getCtx (ctxOf core 0)).st = .ready

/-- HANDLER_ENTRY, R311. -/
def execHandlerEntry (core : CoreId) (s : State) : Out :=
  .next (
    if !s.handlerDue core then s
    else match (s.getCore core).takeNext with
      | none => s
      | some (r, k) =>
        let c := ctxOf core 0
        let x := s.getCtx c
        let k := { k with trec := fillVec k.trec fun i => (recWords r).getD i 0, sepc := x.pc, srep := x.repidx, hnd := true }
        (s.updCore core fun _ => k).updCtx c fun x => { x with pc := k.tvec, repidx := 0 })

/-! ### Reaping (R324) -/

/-- A context is released: its latch cleared, IDLE; its record requeued or freed (R324). What a requeued continuation has done since its
last suspension stays known (R34, R338). -/
def State.release (s : State) (c : CtxId) (free : Bool) : State :=
  let b := (s.getCtx c).bound
  let did := ((s.getCtx c).side, (s.getCtx c).atomicDone)
  let s := (s.updCtx c fun x => { x with retry := RetryLatch.reset }).toIdle c
  match b with
  | none => s
  | some b =>
    if free then s.freeRec b.idx
    else (s.updCl fun cl => { cl with marks := mapSet (false, false) cl.marks b.idx did }).makeQueued b.idx false
/-- `creap` of a context that is accepted: tasks cancelled, then the wait for its other operations (R324). -/
def State.reap (s : State) (c : CtxId) (free : Bool) (k : State → State) : State :=
  let s := s.cancelTasks c
  if s.opsDone c then k (s.release c free) else s.block (.opsOf c)

/-- R323, R324. -/
def execCreap (d a b : GNum) (fa fb : Bool) (s : State) : Out :=
  .next (s.priv fun s => s.srcG fa a fun A s => s.srcG fb b fun B s =>
    let c := s.named A
    if s.badCtx c then s.putG 4 d 2
    else if !s.atRest c then s.putG 4 d 1
    else s.reap c (bits B 0 1 = 1) fun s => s.putG 4 d 0)

/-! ### `tret` (R322) -/

/-- The parcel at an address of a faulted context, with its permissions, as fetch returns it (R156); none where it cannot be fetched
(R322). A walk that meets MIG is made again, for its 4,096 cycles (R357). -/
def State.parcelOf (s : State) (c : CtxId) (pc : BitVec 48) (k : Option Nat → State → State) : State :=
  match s.access (coreOf c).val (numOf c = 0) .fx pc.toNat 2 with
  | (.ok key, s) => let (p, s) := s.parcelAt key; k (some p.toNat) s
  | (.mig key, s) => if s.ctx.limitHit then k none s else (s.upd fun x => { x with begun := true }).blockMig key
  | (_, s) => k none s
/-- Bytes of the instruction at an address by its first parcel (R155). -/
def parcelLen : Option Nat → Nat
  | some p => if p / 2 ^ 14 = 3 then 4 else 2
  | none => 2

/-- ADV: the faulted context passes the repetition or the instruction it trapped in (R322). -/
def State.stepPast (s : State) (c : CtxId) (k : State → State) : State :=
  let x := s.getCtx c
  s.parcelOf c x.pc fun p s =>
    if (p.getD 0) / 2 ^ 10 = 0x2F then
      if x.repidx.toNat < p.getD 0 / 2 ^ 4 % 64 then k (s.updCtx c fun x => { x with repidx := x.repidx + 1 })
      else s.parcelOf c (x.pc + 2) fun q s =>
        k (s.updCtx c fun x => { x with pc := x.pc + BitVec.ofNat 48 (2 + parcelLen q), repidx := 0 })
    else k (s.updCtx c fun x => { x with pc := x.pc + BitVec.ofNat 48 (parcelLen p), repidx := 0 })

/-- The return of context 0 from its handler. -/
def State.handlerReturn (s : State) : State :=
  let k := s.core
  let s := s.updCore (coreOf s.cur) fun k => { k with hnd := false }
  let s := s.upd fun x => { x with pc := k.sepc, repidx := k.srep }.boundary
  { s with rep := none, target := none, taint := [] }

/-- R322. -/
def execTret (a : GNum) (fa : Bool) (s : State) : Out :=
  .next (s.priv fun s => s.srcG fa a fun A s =>
    if !s.core.hnd then s.trap 0x01
    else
      let c := ctxOf (coreOf s.cur) (Fin.ofNat 16 (bits s.core.trec[0] 52 4))
      if (s.getCtx c).st ≠ .faulted || s.hasRecord c then s.handlerReturn
      else
        let adv (k : State → State) : State := if bits A 2 1 = 1 then s.stepPast c k else k s
        match bits A 0 2 with
        | 0 => adv fun s => (s.updCtx c fun x => { x with st := .ready }).handlerReturn
        | 1 => adv fun s => (s.updCtx c fun x => { x with st := .stopped }).handlerReturn
        | 2 => s.reap c (bits A 3 1 = 1) State.handlerReturn
        | _ => adv State.handlerReturn)

/-! ### `cstart`, `cstop`, `rlarm` -/

/-- R323. -/
def execCstart (d a : GNum) (fa : Bool) (s : State) : Out :=
  .next (s.priv fun s => s.srcG fa a fun A s =>
    let c := s.named A
    if s.badCtx c then s.putG 4 d 2
    else if (s.getCtx c).st ≠ .stopped || s.isRevoked c then s.putG 4 d 1
    else
      let s := s.updCl fun cl => { cl with preempting := cl.preempting.filter (· ≠ c) }
      (s.updCtx c fun x => { x with st := .ready }).putG 4 d 0)

/-- R323: a READY context is at a boundary, a waiting one is abandoned; an ISSUED one, and one whose suspension has begun,
take the stop when they get there, and STATE is the answer where it lapses before. -/
def execCstop (d a : GNum) (fa : Bool) (s : State) : Out :=
  .next (s.priv fun s => s.srcG fa a fun A s =>
    let c := s.named A
    let x := s.getCtx c
    let wait (s : State) : State :=
      ((s.updCtx c fun x => { x with stopReq := some .cstop, cstopped := false }).upd fun x => { x with begun := true }).block (.stopOf c)
    if s.badCtx c then s.putG 4 d 2
    else if s.ctx.begun then s.putG 4 d (if x.cstopped then 0 else 1)
    else match x.st with
      | .ready => (s.updCtx c fun x => { x with st := .stopped, stopReq := none }).putG 4 d 0
      | .issued => wait s
      | .blocked =>
        if x.susp.isSome || s.agenda.contains (.twinRestart c) then wait s
        else ((s.abandonWait c).updCtx c fun x => { x with st := .stopped, stopReq := none }).putG 4 d 0
      | _ => s.putG 4 d 1)

/-- R327. -/
def execRlarm (d a : GNum) (fa : Bool) (s : State) : Out :=
  .next (s.priv fun s => s.srcG fa a fun A s =>
    let c := s.named A
    let x := s.getCtx c
    if s.badCtx c then s.putG 4 d 2
    else if (x.st = .stopped || x.st = .faulted) && x.retry.v && !x.retry.arm then
      (s.updCtx c fun x => { x with retry := { x.retry with arm := true } }).putG 4 d 0
    else s.putG 4 d 1)

/-! ### The kill of a cluster (R384, R386) -/

/-- Events of this cluster that its kill ends: they act on its contexts, its engines or its requests. -/
def diesWithCluster : Instr → Bool
  | .amsgReoffer _ _ | .holdWindowEnd _ | .suspension _ | .dispatchDecision _ | .dispatchReoffer _ | .preemptDecision _
  | .faultDecision _ | .policySwap | .handlerEntry _ | .fatalFault _ _ _ | .twinRestart _ | .feWaiterOffer _
  | .watchFireReceipt _ _ _ _ | .watchExpiry _ _ | .watchExpiredReceipt _ | .watchRefusedReceipt _ | .watchStatusReceipt _ _
  | .roundWatchRetry _ | .roundComplete _ _ | .gwaitLimitExpiry _ | .remoteDataReply _ _ _ _ _ | .remoteStatusReply _ _
  | .deferredReply _ | .deferredResend _ | .deferLimitExpiry _ | .copyRequestSend _ | .pullDataReply _ _ _
  | .copyOpCompletion _ | .directEntryStart | .planeLoadCompletion | .passCompletion | .residueRestream _ | .mcvtCompletion
  | .mzeroCompletion | .taskVisible _ | .taskLaunch | .taskCompletion _ | .recallStart _ | .pendingRecallStart
  | .recallCompletion _ | .walkMigRetry _ | .walkMigTimeout _ | .tinvAcknowledge _ | .hostCompletionTimeout _ => true
  | _ => false
/-- Moves that a kill leaves among those put first. -/
def Turn.survivesKill : Turn → Bool
  | .event i => !diesWithCluster i
  | .issue _ => false
  | .resume _ => false
  | .deliver => true
  | .link _ => true
  | .firmware _ => true
  | .boot => true
/-- Messages that a killed cluster still sends: replies and withdrawals, no requests (R386). -/
def NetMsg.survivesKill (m : NetMsg) : Bool :=
  match m.body with
  | .read _ | .watch _ | .amsg _ | .cancelFill _ => false
  | _ => true

/-- Address of a core's dump area (R381). -/
def State.dumpBase (s : State) (core : CoreId) : Nat := s.cl.par.dumpOff + 0x22000 * core.val
/-- Where a span stands that hardware writes with no protection check: none when a page is not mapped and resident. -/
def State.rawParts (s : State) (o : Nat) (acc : List (Nat × Nat × Nat)) : List (Nat × Nat) → Option (List (Nat × Nat × Nat))
  | [] => some acc.reverse
  | (a, n) :: r =>
    if inSpad (o + a) n then s.rawParts o ((a, o + a, n) :: acc) r
    else if !inHbm (o + a) n then none
    else match (s.walk 9 (o + a)).1 with
      | .leaf e two =>
        if bits e 60 2 ≠ 0 then none else s.rawParts o ((a, hbmLo + frameOf e two (o + a - hbmLo), n) :: acc) r
      | _ => none
/-- A word of the dump area. -/
def State.rawWord (s : State) (o : Nat) : Nat :=
  match s.rawParts o [] [(0, 8)] with
  | some [(_, key, _)] => s.num key 8
  | _ => 0

/-- Requests of the cluster that wait in the module's send queues are discarded (R386). Receivers learn that the sequence numbers
will not come, as for abandoned messages (R151, R414, log 85). -/
def State.dropRequests (s : State) : State :=
  let hit (x : Sent) : Bool := x.msg.src = s.me && !NetMsg.survivesKill x.msg
  let out := s.mod.pairs.flatMap fun p => (p.2.queue.filter hit).map fun x => LinkOut.abandon p.1 p.1 x.seq none
  s.updMod fun m => { m with
    pairs := m.pairs.map fun p => (p.1, { p.2 with queue := p.2.queue.filter fun x => !hit x })
    link := { m.link with ctl := m.link.ctl ++ out } }

/-- The kill of this cluster in its seal cycle (R386). -/
def State.killOwn (s : State) : State :=
  let s := s.cl.watches.foldl (fun s w => s.send w.src 0 (.watchStatus w.tag 1)) s
  let s := s.cl.watchOut.foldl (fun s w => s.send w.2 0 (.withdraw w.1)) s
  let s := s.dropRequests
  let s := s.updEng fun e =>
    { e with queue := [], load := none, pass := none, drain := [], conv := none, copies := [], tasks := [] }
  let s := s.updCl fun c =>
    { c with killed := true, watches := [], watchOut := [], outst := [], outAmsg := [],
             outbox := c.outbox.filter fun p => NetMsg.survivesKill p.1, inbox := c.inbox.filter fun p => !diesWithCluster (msgEvent p.1 p.2), recalls := [], pending := [], tinvWait := [], heldPull := [], heldLine := [], serving := [] }
  let s := { s with
    agenda := s.agenda.filter (fun i => !diesWithCluster i), turns := s.turns.filter Turn.survivesKill
    rep := none, target := none, taint := [] }
  let s := s.breakFor s.me
  s.report 0x03 (coords s.me :: (List.range 4).map fun i => s.rawWord (s.dumpBase (Fin.ofNat 4 i)) % 2 ^ 32)

/-- CLUSTER_KILL, R384, R386. The kill of another cluster of the module reaches this one's groups with the security core's
notice. -/
def execClusterKill (cl : ClusterId) (s : State) : Out :=
  .next (if cl = s.me then (if s.cl.killed then s else s.killOwn) else (s.report 0x03 [coords cl]).post (.groupBrokenNotice cl))

/-! ### Fatal faults (R380 to R382, R385) -/

/-- The cause records of a dump: each but the last names the next (R382). -/
def causeRecords (l : List TrapRec) : List Byte :=
  let n := l.length
  let words := (l.zip (List.range n)).flatMap fun p =>
    let w := (recWords p.1).map (·.toNat)
    match w with
    | [] => []
    | x :: r => (x + (if p.2 + 1 < n then 8 + (p.2 + 1) else 0)) :: r
  wordBytes (words ++ List.replicate (32 - 4 * n) 0)

/-- A dump written to the core's area in the order of R380, each word a LocalWrite after the one before it (R381): the image,
the cause records, the slot header with VALID last, then SEQ. No answer when a write fails (R384). -/
def State.dump (s : State) (core : CoreId) (ctx scope cause : Nat) (img : List Byte) (chain : List TrapRec) (clk : Nat) :
    Option State :=
  let base := s.dumpBase core
  let hdr := s.rawWord base
  let seq := hdr % 2 ^ 32
  let slot := base + 0x2000 * (seq % 16 + 1)
  let enc := imgProt img
  let w0 := 2 ^ 63 + (if enc then 2 ^ 62 else 0) + ctx * 2 ^ 52 + scope * 2 ^ 48 + cause * 2 ^ 40 + chain.length * 2 ^ 32 + seq
  let ovwr := hdr / 2 ^ 63 = 1 || s.rawWord (slot + 0x1500) / 2 ^ 63 = 1
  let halt := hdr / 2 ^ 62 % 2 = 1 || scope = 1
  let hdr' := (if ovwr then 2 ^ 63 else 0) + (if halt then 2 ^ 62 else 0) + hdr / 2 ^ 32 % 2 ^ 30 * 2 ^ 32 + (seq + 1) % 2 ^ 32
  match s.rawParts base [] [(0, 8)], s.rawParts slot [] [(0, 8192)] with
  | some area, some parts =>
    let key (o : Nat) : List (Nat × Nat × Nat) := parts.map fun p => (0, p.2.1 + o, 8192 - o)
    let tail := wordBytes [s.mod.cycles % 2 ^ 64, clk, 0, 0, 0, 0, 0] ++ List.replicate 2752 0
    match s.putParts' clk slot (img ++ causeRecords chain) (parts.map fun p => (0, p.2.1, 5376)) with
    | none => none
    | some (t, s) => match s.putParts' t (slot + 0x1508) tail (key 0x1508) with
      | none => none
      | some (t, s) => match s.putParts' t (slot + 0x1500) (toLe 8 w0) ((key 0x1500).map fun p => (0, p.2.1, 8)) with
        | none => none
        | some (t, s) => (s.putParts' t base (toLe 8 hdr') area).map (·.2)
  | _, _ => none

/-- A record that is in the queue, held or not (R382). -/
def QRec.waiting (q : QRec) : Option TrapRec :=
  match q.hold with
  | .reap _ => none
  | _ => some q.record
/-- The image that a dump holds: sealed for PROT, zeros for a record of the owner port (R380). -/
def State.dumpImage (s : State) (c : CtxId) (port : Bool) : List Byte × State :=
  if port then (List.replicate 5120 0, s)
  else
    let core := coreOf c
    let img := s.imageOf c
    if imgProt img then
      (s.sealed core (s.getCore core).nseq img, s.updCore core fun k => { k with nseq := k.nseq + 1 })
    else (img, s)

/-- Steps 5 and 6 of R380 once the operations of the context have completed; until then the move waits in the agenda. -/
def State.fatalEnd (s : State) (c : CtxId) (r : TrapRec) (port : Bool) : State :=
  let core := if port then 0 else coreOf c
  let queue (s : State) : State := s.updCore core fun k => { k with fatq := some r }
  if port then queue s
  else if !s.opsDone c then s.post (.fatalFault c r port)
  else queue (s.release c true)

/-- The records of a core that stand before a fatal one of context c in the way to the reserved entry: one of a context whose dump is
written and whose operations go on (R380, R390, log 86). -/
def State.fatalsAhead (s : State) (core : CoreId) (c : CtxId) : List TrapRec :=
  (s.fatals.filter fun f => !f.2.2 && f.1 ≠ c && coreOf f.1 = core && (s.getCtx f.1).begun).map (·.2.1)
/-- Of fatal faults of one core in one cycle the lower context number comes first (R390). -/
def State.lowerFatal (s : State) (c : CtxId) : Bool :=
  s.turns.any fun t => match t with
    | .event (.fatalFault d _ port) => !port && coreOf d = coreOf c && decide (d.val < c.val)
    | _ => false

/-- FATAL_FAULT, R380, R385: the dump, then the release of the context and its record; or the halt of the core and the kill. -/
def execFatalFault (c : CtxId) (r : TrapRec) (port : Bool) (s : State) : Out :=
  .next (
    if s.cl.killed then s
    else if !port && s.lowerFatal c then s.next (.fatalFault c r port)
    else
      let core : CoreId := if port then 0 else coreOf c
      let k := s.getCore core
      let ahead := k.fatq.toList ++ s.fatalsAhead core c
      let sup := !port && numOf c = 0
      let halt := !ahead.isEmpty || sup
      if !port && (s.getCtx c).begun then s.fatalEnd c r port
      else
        let scope := if r.cause = 0x19 && !sup then 2 else if halt then 1 else if port then 3 else 0
        let chain := (r :: ((if halt && scope ≠ 2 then ahead else []) ++ k.tq.filterMap QRec.waiting)).take 8
        let clk := if port then s.cl.cclk else (s.getCtx c).clk
        let (img, s) := s.dumpImage c port
        let kill (s : State) : State := s.urge (.event (.clusterKill s.me))
        match s.dump core r.ctx.val scope r.cause.toNat img chain clk with
        | none => kill s
        | some s =>
          if r.cause = 0x19 && !sup then kill s
          else if halt then kill (s.updCore core fun k => { k with halted := true })
          else if port then s.fatalEnd c r port
          else ((s.cancelTasks c).updCtx c fun x => { x with begun := true }).fatalEnd c r port)

/-! ### Twin mode (R34, R383) -/

/-- An error of the cluster counted. -/
def State.countError (s : State) (kind : Nat) : State :=
  s.updCl fun c => { c with errors := mapSet 0 c.errors kind (mapGet 0 c.errors kind + 1) }

/-- The restart of a pair from its record (R383): it binds nothing, so what the context keeps with the binding stays (R338), and the
clock is not lowered. A WAIT latch of an instruction that has not completed stands (R243, log 84). -/
def State.restartPair (s : State) (c : CtxId) (i : Nat) : State :=
  let x := s.getCtx c
  let s := s.takeRecord c i
  (s.updCtx c fun y => if y.pc = x.latchPc then { y with latch := x.latch } else y).countError 1

/-- TWIN_RESTART, R34, R383: the operations of a pair have differed. With no atomic since the last suspension the differing operation
is discarded, the pair waits for its operations and restarts from its record; a stop takes effect then (R390). Otherwise
trap 0x12 in the leader. -/
def execTwinRestart (c : CtxId) (s : State) : Out :=
  .next (
    let x := s.getCtx c
    match x.bound with
    | none => s
    | some b =>
      if !s.cl.par.twin || (x.st ≠ .ready && x.st ≠ .blocked) then s
      else if x.atomicDone then (s.abandonWait c).trapAt c 0x12 0 0 0 .none
      else if !s.opsDone c then
        ((s.abandonWait c).updCtx c fun x => { x with st := .blocked, susp := none }).post (.twinRestart c)
      else
        let s := (s.abandonWait c).restartPair c b.idx
        if x.stopReq.isSome then s.updCtx c fun y => { y with stopReq := x.stopReq }.takeStop else s)

end Sys2Proof.Machine
end

