-- ==== Sys2Proof/Machine/Fabric.lean ====
section
/-!
DEFINITION. Sys2Proof/Machine/Fabric.lean: the optical fabric at the grain of messages: slots and lock (R141, R143), send queues,
routes and relays (R145 to R150), delivery in pair sequence (R151, R399, R415), end-to-end retention (R414), tag groups
(R152, R153, R411 to R413), wavelengths (R416 to R418), lost modules (R300, R419, R420).
-/
namespace Sys2Proof.Machine

/-! ### The schedule (R141, R142, R148) -/

/-- The orrery changed. -/
def State.updCal (s : State) (f : Orrery → Orrery) : State := s.updMod fun m => { m with cal := f m.cal }
/-- The link layer changed. -/
def State.updLink (s : State) (f : Link → Link) : State := s.updMod fun m => { m with link := f m.link }

/-- Ports of a chip's table that face d in slot x. -/
def portsFacing (t : List (List (Option (Fin 128)))) (x d : Nat) : List Nat :=
  ((t.getD x []).zip (List.range 16)).filterMap fun p => if p.1.map (·.val) = some d then some p.2 else none
/-- Ports of this module that face d in the present slot. -/
def State.portsTo (s : State) (d : Nat) : List Nat := portsFacing s.mod.cal.peers s.mod.cal.slot d
/-- d is a direct peer in the present slot (R142). -/
def State.direct (s : State) (d : Nat) : Bool := !(s.portsTo d).isEmpty
/-- The direct peers of the present slot by their lowest port (R148). -/
def State.peersNow (s : State) : List Nat := ((s.mod.cal.peers.getD s.mod.cal.slot []).filterMap fun p => p.map (·.val)).eraseDups
/-- The peer table of a chip. -/
def State.tableOf (s : State) (p : Nat) : List (List (Option (Fin 128))) :=
  if p = s.mod.chipid.val then s.mod.cal.peers
  else ((s.mod.cal.conf.bind fun c => c.tables.find? fun t => t.1.val = p).map (·.2)).getD []
/-- The least Dist(s, x) over the slots x in which chip p faces d (R148). -/
def State.minDist (s : State) (p d : Nat) : Option Nat :=
  let n := s.mod.cal.nslot
  (((List.range n).filter fun x => !(portsFacing (s.tableOf p) x d).isEmpty).map fun x => (x + n - s.mod.cal.slot) % n).min?

/-! ### Beams and counters (R411, R412, R416, R418) -/

/-- The module that a port faces in the present slot (R142). -/
def State.peerAt (s : State) (port : Nat) : Option (Fin 128) := (s.mod.cal.peers.getD s.mod.cal.slot []).getD port none
/-- The key of a beam of this module's own ports, by direction: of a transmit beam its state, of a receive beam the mode that firmware has
set. -/
def beamKey (tx : Bool) (b : BeamId) : Nat := (if tx then 1024 else 0) + 64 * b.port.val + b.beam.val
/-- The key under which a beam's wavelengths and groups stand: a beam is named by its transmitting module (R142), so a receive beam is
another one with each module that the port faces. Which of the transmitter's ports it comes from is told by the receiver's own port
(log 110). -/
def State.beamAt (s : State) (tx : Bool) (b : BeamId) : Nat :=
  if tx then beamKey true b
  else match s.peerAt b.port.val with
    | none => beamKey false b
    | some d => 2048 * (1 + d.val) + beamKey false b
/-- A beam by its key. -/
def State.beam (s : State) (k : Nat) : Beam := mapGet Beam.reset s.mod.link.beams k
/-- It changed. -/
def State.updBeam (s : State) (k : Nat) (f : Beam → Beam) : State :=
  s.updLink fun l => { l with beams := mapSet Beam.reset l.beams k (f (mapGet Beam.reset l.beams k)) }
/-- Kinds of counter (R418). -/
def ctrPrefec : Nat := 0
/-- Uncorrectable codewords. -/
def ctrUncorr : Nat := 1
/-- Drops. -/
def ctrDrops : Nat := 2
/-- Failed group tags. -/
def ctrTagfail : Nat := 3
/-- Groups replayed. -/
def ctrReplay : Nat := 4
/-- A counter raised; it saturates (R418). Those of wavelengths are numbered 8 × beam + wavelength. -/
def State.count (s : State) (kind i n : Nat) : State :=
  s.updLink fun l =>
    let k := kind * 2 ^ 24 + i
    { l with counters := mapSet 0 l.counters k (min (2 ^ 64 - 1) (mapGet 0 l.counters k + n)) }

/-- Flits that a beam can carry between guard and end of slot: 32 GB/s, 28 GB/s on seven wavelengths, none out of service
(R146, R417). -/
def State.beamCap (s : State) (b : Beam) : Nat :=
  let ns := s.mod.cal.slotlen - s.mod.cal.guardlen
  if b.oos then 0 else if b.out.isEmpty then ns * 32 / 64 else ns * 28 / 64
/-- The capacity towards a next hop in a slot (R146). -/
def State.capacity (s : State) (hop : Nat) : Nat :=
  let full := (s.mod.cal.slotlen - s.mod.cal.guardlen) * 32 / 64
  (s.portsTo hop).foldl (fun n p =>
    let less := (s.mod.link.beams.filter fun b => b.1 / 64 = 16 + p).foldl (fun x b => x + (full - s.beamCap b.2)) 0
    n + 64 * full - less) 0
/-- What the flits sent leave of it in the present slot. -/
def State.capLeft (s : State) (hop : Nat) : Nat := s.capacity hop - mapGet 0 s.mod.cal.sentTo hop
/-- The flits that can still leave towards a next hop (R146). In the middle of a slot, with `mid`, the time that is left bounds them
too. -/
def State.room (s : State) (hop : Nat) (mid : Bool) : Nat × State :=
  if !mid then (s.capLeft hop, s)
  else
    let (left, s) := s.readLeft
    (min (s.capLeft hop) (s.capacity hop * left / max 1 (s.mod.cal.slotlen - s.mod.cal.guardlen)), s)

/-- The beam that a key of a transmit beam names. -/
def beamOfKey (k : Nat) : BeamId := ⟨Fin.ofNat 16 (k / 64 % 16), Fin.ofNat 64 (k % 64)⟩
/-- Groups of a beam are kept, the last 64 (R412). -/
def Beam.keep (b : Beam) (l : List (Nat × List LinkOut)) : Beam :=
  let kept := b.kept ++ l
  { b with kept := kept.drop (kept.length - 64) }
/-- The open group of a beam is closed (R411). -/
def Beam.close (b : Beam) : Beam :=
  if b.flits = 0 then b else { b.keep [(b.group, b.ends)] with flits := 0, ends := [], group := (b.group + 1) % 2 ^ 16 }
/-- n flits enter the groups of a beam, five to a group; what they carry ends in the group of the last of them (R411). -/
def Beam.load (b : Beam) (n : Nat) (l : List LinkOut) : Beam :=
  let total := b.flits + n
  let g := total / 5
  let last := (total - 1) / 5
  let of (i : Nat) : List LinkOut := (if i = 0 then b.ends else []) ++ (if i = last then l else [])
  { b.keep ((List.range g).map fun i => ((b.group + i) % 2 ^ 16, of i)) with
    flits := total % 5, ends := if total % 5 = 0 then [] else of g, group := (b.group + g) % 2 ^ 16 }

/-- Flits leave on a beam in service towards a next hop; which one is free. Idle flits will close a group that stays open (R411,
R412). -/
def State.useBeam (s : State) (hop n : Nat) (l : List LinkOut) : State :=
  let ports := s.portsTo hop
  let (d, s) := s.drawN 2
  let p := ports.getD (Config.freeNat d % (max 1 ports.length)) 0
  let start := Config.freeNat (d + 1)
  match ((List.range 64).map fun i => 1024 + 64 * p + (start + i) % 64).find? fun k => !(s.beam k).oos with
  | none => s
  | some k =>
    let s := s.updBeam k fun b => b.load n l
    if (s.beam k).flits = 0 then s else s.postOnce (.idleGroupClose (beamOfKey k))

/-- Flits taken from the capacity towards a next hop. -/
def State.takeRoom (s : State) (hop flits : Nat) : State :=
  s.updCal fun c => { c with sentTo := mapSet 0 c.sentTo hop (mapGet 0 c.sentTo hop + flits) }
/-- What has left. -/
def State.left' (s : State) (l : List LinkOut) : State := s.updLink fun k => { k with sent := k.sent ++ l }
/-- Something leaves on the ports towards a next hop. -/
def State.emit (s : State) (hop flits : Nat) (l : List LinkOut) : State := ((s.useBeam hop flits l).takeRoom hop flits).left' l

/-- Nothing more is sent to a module that is lost (R420). -/
def State.isLost (s : State) (d : Nat) : Bool := (s.pair d).lost.isSome

/-! ### Sending (R145 to R150, R414) -/

/-- The next hop of a head message to chip d by its route flag and its flits: the module itself, or a relay whose credit holds the message
(R148). -/
def State.route (s : State) (d : Nat) (flag : BitVec 2) (flits : Nat) : Option Nat :=
  if s.direct d then some d
  else
    let peers := s.peersNow.filter fun p => !s.isLost p && decide (64 * flits ≤ (s.pair p).credit)
    let best := (peers.filterMap fun p => (s.minDist p d).map fun h => (h, p)).foldl (fun (b : Option (Nat × Nat)) c =>
      match b with
      | none => some c
      | some x => if c.1 < x.1 then some c else b) none
    match best with
    | none => none
    | some (h, p) =>
      if flag = 1 then none
      else if flag = 2 then some p
      else match s.minDist s.mod.chipid.val d with
        | none => some p
        | some dd => if h < dd then some p else none
/-- The credit of a relay is used up by the flits sent to it (R148, R149). -/
def State.useCredit (s : State) (d hop flits : Nat) : State :=
  if hop = d then s else s.updPair hop fun p => { p with credit := p.credit - 64 * flits }
/-- There is a direct slot or a relay path to chip d in some slot (R148). -/
def State.reachable (s : State) (d : Nat) : Bool :=
  (s.minDist s.mod.chipid.val d).isSome
    || s.mod.cal.peers.any fun l => l.any fun p => p.any fun p => (s.minDist p.val d).isSome

/-- The timer of a message starts unless it runs (R414). -/
def State.startTimer (s : State) (d seq : Nat) : State := s.postOnce (.e2eTimerExpiry (Fin.ofNat 128 d) seq)

/-- The queue towards a chip may send: lock, no guard, a module that is not lost, fewer than 4,096 messages unacknowledged (R141, R143,
R151, R420). -/
def State.mayPump (s : State) (d : Nat) : Bool :=
  s.mod.cal.sync && !s.mod.cal.guard && !s.isLost d && decide ((s.pair d).retained.length < 4096)
/-- A message fits what is left of a BUDGET (R146). -/
def Pair.fits (p : Pair) (flits : Nat) : Bool := p.budget = 0 || decide (p.used + flits ≤ p.budget)

/-- What becomes of the head of a queue: it leaves, it waits for a moment of this slot, or it stops: the queue sends nothing more in this
slot (R146), or nothing while this message is its head (R147). -/
inductive Pumped where
  | sent | wait
  | stop (head : Option Nat)
  deriving DecidableEq, Repr

/-- The oldest acknowledgement that waits for chip d. -/
def State.ackFor (s : State) (d : Nat) : Option LinkOut := s.mod.link.ctl.find? fun x =>
  match x with
  | .ack _ c _ => c = d
  | _ => false

/-- The head of a send queue leaves if it can: route, budget and capacity hold the whole of it (R146 to R148, R151). The oldest
acknowledgement for its module rides in its header (R145, log 89). -/
def State.pumpHead (s : State) (d : Nat) (mid : Bool) : Pumped × State :=
  let p := s.pair d
  match p.queue with
  | [] => (.wait, s)
  | m :: r =>
    if !s.mayPump d then (.wait, s)
    else match s.route d m.msg.route m.flits with
      | none => (.stop (some m.seq), if s.reachable d then s else s.startTimer d m.seq)
      | some hop =>
        let (room, s) := s.room hop mid
        if !p.fits m.flits || decide (room < m.flits) then (.stop none, s)
        else
          let ack := s.ackFor d
          let s := s.updPair d fun p => { p with queue := r, used := p.used + m.flits, retained := p.retained ++ [m] }
          let s := s.updLink fun l => { l with ctl := match ack with | some x => l.ctl.erase x | none => l.ctl }
          let s := (s.useCredit d hop m.flits).emit hop m.flits (.msg hop ⟨m.seq, m.nonce, m.msg, true, none⟩ :: ack.toList)
          (.sent, s.startTimer d m.seq)

/-- A queue sends until its head waits (R146, R147). -/
def State.pump (s : State) (d : Nat) (mid : Bool) : Nat → State
  | 0 => s
  | n + 1 =>
    match s.pumpHead d mid with
    | (.sent, s) => s.pump d mid n
    | (.wait, s) => s
    | (.stop h, s) => s.updCal fun c => { c with stalled := (c.stalled.erase (d, h)) ++ [(d, h)] }

/-- The queue towards chip d sends nothing more in this slot, or not while its head is the one it has (R146, R147). -/
def State.isStalled (s : State) (d : Nat) : Bool :=
  s.mod.cal.stalled.any fun x => x.1 = d && (x.2.isNone || x.2 = (s.pair d).queue.head?.map (·.seq))
/-- The queues whose head can be decided now: also one that has reached the head within the slot (R147). -/
def State.linkReady (s : State) : List Nat :=
  (s.mod.pairs.filter fun p => !p.2.queue.isEmpty && s.mayPump p.1 && !s.isStalled p.1).map (·.1)
/-- A head is decided in the middle of a slot. -/
def State.linkMove (s : State) (d : Nat) : State := if s.linkReady.contains d then s.pump d true 1 else s

/-- The chip that a control flit is for. -/
def LinkOut.dst : LinkOut → Nat
  | .msg h _ | .ack _ h _ | .abandon _ h _ _ | .lost h _ _ | .credit h _ => h
  | .groupAck _ _ _ | .wavelength _ _ _ => 0
/-- A control flit with the next hop it takes. -/
def LinkOut.via (hop : Nat) : LinkOut → LinkOut
  | .ack _ d q => .ack hop d q
  | .abandon _ d q a => .abandon hop d q a
  | x => x
/-- An acknowledgement can ride in the header of the message that is about to leave for its module (R145). -/
def State.canRide (s : State) (x : LinkOut) : Bool :=
  s.ackFor x.dst = some x && s.mayPump x.dst && !s.isStalled x.dst &&
  match (s.pair x.dst).queue with
  | [] => false
  | m :: _ => (s.pair x.dst).fits m.flits && (s.route x.dst m.msg.route m.flits).any fun h => decide (m.flits ≤ s.capLeft h)
/-- Control flits leave ahead of the queues, to their module if it is faced now and else by the relay path that AUTO takes (R145, R146,
R148, log 89); with `ride` those that can ride wait for their message. -/
def State.sendControl (s : State) (ride mid : Bool) : State :=
  let l := s.mod.link.ctl
  l.foldl (fun s x =>
    if ride && s.canRide x then s
    else if s.isLost x.dst then s.updLink fun k => { k with ctl := k.ctl.erase x }
    else match s.route x.dst 0 1 with
      | none => s
      | some hop =>
        let (room, s) := s.room hop mid
        if room = 0 then s
        else ((s.updLink fun k => { k with ctl := k.ctl.erase x }).useCredit x.dst hop 1).emit hop 1 [x.via hop]) s
/-- A control flit leaves at once where it can, or waits for a path (R145, R414). -/
def State.control (s : State) (x : LinkOut) : State :=
  let s := s.updLink fun l => { l with ctl := l.ctl ++ [x] }
  if s.mod.cal.sync && !s.mod.cal.guard then s.sendControl true true else s

/-- Relayed messages whose module is faced now are forwarded in the order of their arrival, ahead of the queue and as far as the capacity
goes (R146, R149); none to a module that is lost (R420). -/
def State.forward (s : State) (mid : Bool) : State :=
  let l := s.mod.link.relay
  let s := s.updLink fun k => { k with relay := [] }
  (l.foldl (fun (x : List Nat × State) m =>
    let d := m.msg.dst.chip.val
    let n := msgFlits m.msg
    let wait (s : State) : List Nat × State := (d :: x.1, s.updLink fun k => { k with relay := k.relay ++ [m] })
    if x.1.contains d || !x.2.direct d || x.2.isLost d then wait x.2
    else
      let (room, s) := x.2.room d mid
      if n ≤ room then (x.1, s.emit d n [.msg d m]) else wait s) ([], s)).2

/-- Each direct peer gets an equal share of the free relay buffer of 16 MiB; a module that does not relay grants none (R149,
R435). Nothing is sent to a module that is lost (R420). -/
def State.grantCredits (s : State) : State :=
  if !s.mod.feat0.getLsbD 12 then s
  else
    let used := s.mod.link.relay.foldl (fun n m => n + 64 * msgFlits m.msg) 0
    let peers := s.peersNow
    let share := (2 ^ 24 - used) / max 1 peers.length
    s.left' ((peers.filter fun p => !s.isLost p).map fun p => .credit p share)
/-- The credits that the direct peers grant to this module, for this slot; how much is free (R149, log 33). -/
def State.takeCredits (s : State) : State :=
  s.peersNow.foldl (fun s p =>
    let (n, s) := s.draw
    s.updPair p fun q => { q with credit := Config.freeNat n % (2 ^ 24 + 1) }) s

/-- LOST notices go to each direct peer (R419). -/
def State.flood (s : State) : State :=
  let l := s.mod.link.floods
  let s := s.updLink fun k => { k with floods := l.filterMap fun f => if f.2.2 ≤ 1 then none else some (f.1, f.2.1, f.2.2 - 1) }
  s.peersNow.foldl (fun s p => l.foldl (fun s f => if s.isLost p then s else s.emit p 1 [.lost p f.1 f.2.1]) s) s

/-! ### Slots (R141, R143) -/

/-- SLOTLEN of a schedule: 10,000 where it names none (R141). -/
def podLen (p : PodCfg) : Nat := p.slotlen.getD 10000
/-- GUARDLEN: 500 where it names none (R141). -/
def podGuard (p : PodCfg) : Nat := p.guardlen.getD 500
/-- NSLOT: G − 1 for the G modules of the schedule where it names none (R141). -/
def podSlots (p : PodCfg) : Nat := p.nslot.getD (p.tables.length - 1)

/-- A schedule takes effect (R141, R142, R146, R432). With another NSLOT the slot index goes on modulo the new one: the spec does not say
which slot follows, the choice is the model's (log 88). -/
def State.applySchedule (s : State) (p : PodCfg) : State :=
  let s := s.updMod fun m => { m with chipid := p.chipid }
  let own := ((p.tables.find? fun t => t.1 = p.chipid).map (·.2)).getD []
  let s := s.updCal fun c =>
    { c with nslot := podSlots p, slotlen := podLen p, guardlen := podGuard p, peers := own, conf := some p, pend := none,
             slot := c.slot % max 1 (podSlots p) }
  p.budgets.foldl (fun s b => s.updPair b.1.val fun q => { q with budget := b.2 }) s

/-- The drain rounds that have begun for lost modules (R420). -/
def State.postRounds (s : State) : State :=
  s.mod.pairs.foldl (fun s p =>
    match p.2.lost with
    | some c0 => if p.2.cleared then s else s.next (.drainRound (Fin.ofNat 128 p.1) (s.mod.cal.cycle - c0))
    | none => s) s

/-- A slot begins with its guard: budgets, capacities and credits are fresh, open groups end, groups not acknowledged are not replayed
any more (R412), a mode that was set takes effect (R413). -/
def State.beginSlot (s : State) : State :=
  let s := s.updCal fun c => { c with guard := true, left := c.slotlen, downPorts := [], sentTo := [], stalled := [] }
  let s := s.updLink fun l => { l with beams := l.beams.filterMap fun b =>
    let x := { b.2.close with skid := b.2.nextSkid, kept := [], await := none }
    if x = Beam.reset then none else some (b.1, x) }
  s.updMod fun m => { m with pairs := m.pairs.filterMap fun p =>
    let x := { p.2 with used := 0, credit := 0 }
    if x = Pair.reset then none else some (p.1, x) }

/-- SLOT_BOUNDARY, R141, R144, R432. A slot does not end before its guard has: GUARDLEN is less than SLOTLEN (R141). -/
def execSlotBoundary (s : State) : Out :=
  .next (
    if !s.mod.cal.sync then s
    else if s.mod.cal.guard then s.postOnce .slotBoundary
    else
      let wrap := decide (s.mod.cal.nslot ≤ s.mod.cal.slot + 1)
      let s := s.updCal fun c =>
        { c with slot := if wrap then 0 else c.slot + 1, cycle := if wrap then (c.cycle + 1) % 2 ^ 41 else c.cycle }
      let s := match s.mod.cal.pend with | some p => s.applySchedule p | none => s
      let s := if wrap then s.postRounds else s
      (s.beginSlot.postOnce .guardEnd).postOnce .slotBoundary)

/-- Wavelength signals that have waited leave on the reverse direction of their port once it faces the transmitter again (R141 to R143,
log 110). -/
def State.flushSignals (s : State) : State :=
  let now (x : Nat × LinkOut) : Bool := match x.2 with
    | .wavelength b _ _ => (s.peerAt b.port.val).any fun d => d.val = x.1 && !s.isLost x.1
    | _ => false
  (s.updLink fun l => { l with signals := l.signals.filter fun x => !now x }).left' ((s.mod.link.signals.filter now).map (·.2))

/-- GUARD_END, R145 to R150: wavelength signals that waited, credits, control flits, relayed messages, then the heads of the queues, each queue as far as it goes. Queues
that share one next hop's capacity come in ascending chip number: the spec names no order, the choice is the model's
(log 90). -/
def execGuardEnd (s : State) : Out :=
  .next (
    if !s.mod.cal.sync || !s.mod.cal.guard then s
    else
      let s := s.updCal fun c => { c with guard := false, left := min c.left (c.slotlen - c.guardlen) }
      let s := (s.flushSignals.flood.grantCredits.takeCredits.sendControl true false).forward false
      (s.mod.pairs.foldl (fun s p => s.pump p.1 false (p.2.queue.length + 1)) s).sendControl false false)

/-- ROTOR_LOCK_LOSS, R143: nothing is sent; waiting messages are subject to the end-to-end timer. Of what the calendar items read while
SYNC is 0 the spec gives LEFT alone: that GUARD reads 0 and SLOT and CYCLE keep their values is the model's choice
(log 91). -/
def execRotorLockLoss (s : State) : Out :=
  .next (
    let s := ((s.updCal fun c => { c with sync := false, guard := false }).cancel .slotBoundary).cancel .guardEnd
    s.mod.pairs.foldl (fun s p => p.2.queue.foldl (fun s m => s.startTimer p.1 m.seq) s) s)

/-- ROTOR_LOCK_REGAIN, R143: lock comes at a slot boundary; a module that has failed gains none (R437). Which slot and cycle the rotor is in is free (log 3). -/
def execRotorLockRegain (s : State) : Out :=
  .next (
    if s.mod.cal.sync || s.mod.fw.failed then s
    else
      let s := s.updCal fun c => { c with sync := true }
      let s := match s.mod.cal.pend with | some p => s.applySchedule p | none => s
      let (n, s) := s.drawN 2
      let s := s.updCal fun c =>
        { c with slot := Config.freeNat n % max 1 c.nslot, cycle := Config.freeNat (n + 1) % 2 ^ 41 }
      (s.postRounds.beginSlot.postOnce .guardEnd).postOnce .slotBoundary)

/-! ### Receiving (R149, R151, R399, R415) -/

/-- The NI takes a message in order: it is delivered, or left for another cluster of the module (log 1). -/
def State.accepted (s : State) (m : PodMsg) : State :=
  if m.msg.dst = s.me then s.updCl fun c => { c with inbox := c.inbox ++ [(m.msg, m.skid)] }
  else s.updCl fun c => { c with outbox := c.outbox ++ [(m.msg, m.nonce)] }

/-- A fire of a round watch of this cluster's NI (R111): group round traffic (R145). -/
def State.isRoundFire (s : State) (b : NetBody) : Bool :=
  match b with
  | .fire tag _ _ => s.cl.groups.any fun g => g.2.rtag = some tag
  | _ => false
/-- A message whose link tag has not been checked is released early only where it fills registers: load replies and watch fires for
this cluster; a pull data reply is delivered to wait there for its tag (R153, R413). -/
def State.releasable (s : State) (m : PodMsg) : Bool :=
  m.skid.isNone || (m.msg.dst = s.me && match m.msg.body with
    | .data _ _ _ _ => true
    | .pullData _ _ _ => true
    | .fire tag v tf => !s.isRoundFire (.fire tag v tf)
    | _ => false)

/-- Held messages follow, and sequence numbers that the sender has abandoned are passed (R151, R414). -/
def State.flushHeld (s : State) (d : Nat) : Nat → State
  | 0 => s
  | n + 1 =>
    let p := s.pair d
    match p.held.find? fun m => m.seq = p.recvNext with
    | some m =>
      if !s.releasable m then s
      else
        let s := s.updPair d fun p => { p with recvNext := p.recvNext + 1, held := p.held.filter fun x => x.seq ≠ m.seq }
        (s.accepted m).flushHeld d n
    | none =>
      if p.skipped.contains p.recvNext then
        (s.updPair d fun p => { p with recvNext := p.recvNext + 1, skipped := p.skipped.filter (· ≠ p.recvNext) }).flushHeld d n
      else s
/-- As far as it goes. -/
def State.flushAll (s : State) (d : Nat) : State :=
  s.flushHeld d ((s.pair d).held.length + (s.pair d).skipped.length)

/-- The tag of the request that a message answers. -/
def bodyAnswers : NetBody → Option Nat
  | .data t _ _ _ | .pullData t _ _ | .status t _ | .watchStatus t _ | .deferred t | .fire t _ _ | .expired t | .refused t => some t
  | _ => none
/-- The tag of a read request or watch. -/
def bodyAsks : NetBody → Option Nat
  | .read r => some r.tag
  | .watch w => some w.tag
  | _ => none

/-- The reply that is still retained for a request or watch that came again is sent again (R415); it is no end-to-end resend of R414 and
RESEND does not count it. It enters its queue at the head, ahead of the
messages that wait, as a resend under R414 does: the spec does not say where, the choice is the model's (log 92). -/
def State.resendReply (s : State) (d : Nat) (m : PodMsg) : State :=
  match bodyAsks m.msg.body with
  | none => s
  | some tag =>
    match (s.pair d).retained.find? fun x => x.msg.dst = m.msg.src && bodyAnswers x.msg.body = some tag with
    | none => s
    | some x => s.updPair d fun p =>
      { p with retained := p.retained.filter fun y => y.seq ≠ x.seq, queue := x :: p.queue }

/-- The life number under which a cluster of this module accepts messages of another module (R398, R399). -/
def State.lifeFor (s : State) (dst : ClusterId) (chip : Nat) : Nat :=
  match s.mod.parts.find? fun p => p.clusters.contains dst with
  | none => 0
  | some p => mapGet 0 s.mod.fw.lives (128 * p.id + chip)
/-- The message passes: its GCM tag, and the life number in its nonce (R399). -/
def State.authentic (s : State) (m : PodMsg) : Bool :=
  m.good && m.nonce / 2 ^ 48 = s.lifeFor m.msg.dst m.msg.src.chip.val

/-- PAIR_SEQUENCE_DELIVERY, R151, R399, R415, R420. What its tag still has to show is acknowledged once it has (R413). A message of
another cluster of this module has a GCM tag and a life number in its nonce too, and no pair sequence (R399). -/
def execPairSequenceDelivery (m : PodMsg) (s : State) : Out :=
  .next (
    let d := m.msg.src.chip.val
    let p := s.pair d
    if p.cleared then s
    else if d = s.mod.chipid.val && s.authentic m then s.accepted m
    else if !s.authentic m then s.updPair d fun p => { p with gcmfail := min (2 ^ 64 - 1) (p.gcmfail + 1) }
    else if decide (m.seq < p.recvNext) || p.held.any (fun x => x.seq = m.seq) || p.skipped.contains m.seq then
      (s.resendReply d m).control (.ack d d m.seq)
    else
      let early := s.releasable m
      let s := (s.updPair d fun p => { p with held := p.held ++ [m] }).flushAll d
      if early then s.control (.ack d d m.seq) else s)

/-- RELAY_RECEIVE, R149: held as ciphertext; forwarded at once when its module is faced and capacity remains. From round DRAIN_R on the
relay holds nothing to or from a lost module (R420). -/
def execRelayReceive (m : PodMsg) (s : State) : Out :=
  .next (
    let d := m.msg.dst.chip.val
    if (s.pair d).drained || (s.pair m.msg.src.chip.val).drained then s
    else
      let s := s.updLink fun l => { l with relay := l.relay ++ [m] }
      if s.mod.cal.sync && !s.mod.cal.guard then s.forward true else s)

/-- A received message: for this module, or to be relayed. -/
def State.arrive' (s : State) (m : PodMsg) : State :=
  s.next (if m.msg.dst.chip = s.mod.chipid then .pairSequenceDelivery m else .relayReceive m)

/-! ### Retention and resend (R414) -/

/-- PAIR_ACK_RECEIPT, R414. -/
def execPairAckReceipt (chip : Fin 128) (seq : Nat) (s : State) : Out :=
  .next ((s.updPair chip.val fun p =>
    { p with retained := p.retained.filter fun x => x.seq ≠ seq
             queue := p.queue.filter fun x => x.seq ≠ seq || x.expired = 0 }).cancel (.e2eTimerExpiry chip seq))

/-- The final status of an operation whose message is abandoned: 7 (R132, R414), as always where it waits out a loss of lock (R143); where
every sending of it may have failed its tag also 3 (R399), which of the two is free (log 93). -/
def State.abandonStatus (s : State) (sent : Bool) : BitVec 4 × State :=
  if !sent || !s.mod.cal.sync then (7, s)
  else
    let (n, s) := s.draw
    (if Config.freeBool n then 3 else 7, s)
/-- What the abandoning of a message does at its sender: its own request or watch ends with a status, an active message is
reported and gives up its place (R132, R143, R414). -/
def State.abandoned (s : State) (m : NetMsg) (sent : Bool) : State :=
  let (st, s) := s.abandonStatus sent
  match m.body with
  | .read r => s.post (.remoteStatusReply r.tag st)
  | .watch w => s.post (.watchStatusReceipt w.tag st)
  | .amsg a => (s.report 0x02 [coords m.dst, a.ptag.val]).post (.amsgReoffer m.dst true)
  | _ => s

/-- E2E_TIMER_EXPIRY, R414: the message is sent again and its timer restarts, or it is abandoned at its E2E_N-th expiry. It goes back
to its place at the front of the queue, from where it leaves when a path opens. -/
def execE2eTimerExpiry (chip : Fin 128) (seq : Nat) (s : State) : Out :=
  .next (
    let p := s.pair chip.val
    if p.lost.isSome then s
    else
      match (p.retained ++ p.queue).find? fun x => x.seq = seq with
      | none => s
      | some x =>
        let x := { x with expired := x.expired + 1 }
        let left := p.retained.any fun y => y.seq = seq
        let s := s.updPair chip.val fun p => { p with retained := p.retained.filter fun y => y.seq ≠ seq }
        if s.mod.link.par.e2eN ≤ x.expired then
          let s := s.updPair chip.val fun p => { p with queue := p.queue.filter fun y => y.seq ≠ seq }
          (s.abandoned x.msg left).control (.abandon chip.val chip.val seq (bodyAnswers x.msg.body))
        else
          let s := s.updPair chip.val fun p =>
            { p with queue := (p.queue.filter fun y => decide (y.seq < seq)) ++ x :: (p.queue.filter fun y => decide (seq < y.seq)),
                     resend := if left then min (2 ^ 64 - 1) (p.resend + 1) else p.resend }
          s.startTimer chip.val seq)

/-- ABANDON_NOTICE, R414: later messages are not held for this one any more; the ABANDON of a reply ends the requester's
operation (R132, R399). -/
def execAbandonNotice (chip : Fin 128) (seq : Nat) (answers : Option Nat) (s : State) : Out :=
  .next (
    let p := s.pair chip.val
    let s :=
      if decide (seq < p.recvNext) || p.held.any fun x => x.seq = seq then s
      else (s.updPair chip.val fun p => { p with skipped := insNat p.skipped seq }).flushAll chip.val
    match answers with
    | none => s
    | some tag =>
      let (st, s) := s.abandonStatus true
      if s.cl.watchOut.any fun w => w.1 = tag then s.post (.watchStatusReceipt tag st)
      else s.post (.remoteStatusReply tag st))

/-! ### Tag groups (R152, R153, R411 to R413) -/

/-- Link tag t has passed: nothing waits for it any more (R153). -/
def Ctx.tagPassed (t : Nat) (x : Ctx) : Ctx :=
  let f (l : List Nat) : List Nat := l.filter (· ≠ t)
  let o (k : Option Nat) : Option Nat := if k = some t then none else k
  { x with
    g := fillVec x.g fun i => let r := x.g[i]?.getD GReg.reset; { r with unchk := f r.unchk }
    v := fillVec x.v fun i => let r := x.v[i]?.getD VReg.reset; { r with unchk := f r.unchk }
    ku := fillVec x.ku fun i => f (x.ku[i]?.getD [])
    eu := fillVec x.eu fun i => f (x.eu[i]?.getD [])
    tu := fillVec x.tu fun i => f (x.tu[i]?.getD [])
    replies := x.replies.map fun r =>
      match r with
      | .data tag l t lease k => .data tag l t lease (o k)
      | .fire tag v tf k => .fire tag v tf (o k)
      | r => r }

/-- Link tag t has failed: every g and v register that waits for it is full and poisoned with status 3; what came with it ends with
status 3 (R153). A mask, extension or tile register has no poison: it keeps its value and is checked (log 34). CLK keeps what the
early release of a load or watch fire has advanced it by: the spec does not say that it goes back, the choice is the model's
(log 111). -/
def Ctx.tagFailed (t : Nat) (x : Ctx) : Ctx :=
  let f (l : List Nat) : List Nat := l.filter (· ≠ t)
  { x with
    g := fillVec x.g fun i =>
      let r := x.g[i]?.getD GReg.reset
      if r.unchk.contains t then ⟨3, true, true, [], false⟩ else r
    v := fillVec x.v fun i =>
      let r := x.v[i]?.getD VReg.reset
      if r.unchk.contains t then ⟨3, .raw, true, true, [], false⟩ else r
    ku := fillVec x.ku fun i => f (x.ku[i]?.getD [])
    eu := fillVec x.eu fun i => f (x.eu[i]?.getD [])
    tu := fillVec x.tu fun i => f (x.tu[i]?.getD [])
    replies := x.replies.map fun r =>
      match r with
      | .data tag _ _ _ k => if k = some t then .status tag 3 else r
      | .fire tag _ _ k => if k = some t then .status tag 3 else r
      | r => r }

/-- An event of the agenda after link tag t has passed or failed. -/
def tagEvent (t : Nat) (good : Bool) (i : Instr) : Instr :=
  match i with
  | .remoteDataReply tag l tm lease k =>
    if k ≠ some t then i else if good then .remoteDataReply tag l tm lease none else .remoteStatusReply tag 3
  | .watchFireReceipt tag v tf k =>
    if k ≠ some t then i else if good then .watchFireReceipt tag v tf none else .watchStatusReceipt tag 3
  | i => i

/-- What is delivered of a message of a group that failed in skid mode (R413): a load reply, a watch fire and a pull data reply end
with status 3; any other, a fire of a round watch among them, is dropped. -/
def State.failedBody (s : State) (b : NetBody) : Option NetBody :=
  match b with
  | .data tag _ _ _ => some (.status tag 3)
  | .pullData tag _ _ => some (.status tag 3)
  | .fire tag _ _ => if s.isRoundFire b then none else some (.watchStatus tag 3)
  | _ => none
/-- A message received under link tag t that is held, after the tag has passed or failed; none when it is dropped. -/
def State.settled? (s : State) (t : Nat) (good : Bool) (m : PodMsg) : Option PodMsg :=
  if m.skid ≠ some t then some m
  else if good then some { m with skid := none }
  else (s.failedBody m.msg.body).map fun b => { m with msg := { m.msg with body := b }, skid := none }
/-- Held messages of chip d that come under link tag t: the passed ones are acknowledged, and deliveries go on (R153, R413). -/
def State.settleHeld (s : State) (t : Nat) (good : Bool) (d : Nat) : State :=
  let l := (s.pair d).held.filter fun m => m.skid = some t
  if l.isEmpty then s
  else
    let acks := if good then l.filter fun m => !s.releasable m else []
    let s := (s.updPair d fun p => { p with held := p.held.filterMap (s.settled? t good) }).flushAll d
    acks.foldl (fun s m => s.control (.ack d d m.seq)) s

/-- What was received under link tag t, after it has passed or failed (R153, R413): registers and replies; pull data that waited for it
is written or its request ends with status 3; lines that waited enter their L1; messages. -/
def State.settleTag (s : State) (t : Nat) (good : Bool) : State :=
  let body (m : NetMsg) : NetMsg := if good then m else { m with body := (s.failedBody m.body).getD m.body }
  let pulls := s.cl.heldPull.filter fun p => p.2 = t
  let lines := s.cl.heldLine.filter fun p => p.1 = t
  let s := { s with
    ctxs := fillVec s.ctxs fun i => let x := s.ctxs[i]?.getD Ctx.reset; if good then x.tagPassed t else x.tagFailed t
    agenda := s.agenda.map (tagEvent t good) }
  let s := s.updCl fun c => { c with
    inbox := c.inbox.map fun p => if p.2 = some t then (body p.1, none) else p
    heldPull := c.heldPull.filter fun p => p.2 ≠ t
    heldLine := c.heldLine.filter fun p => p.1 ≠ t }
  let s := pulls.foldl (fun s p => s.next (msgEvent (body p.1) none)) s
  let s := if good then lines.foldl (fun s p => s.l1Put p.2.1 p.2.2) s else s
  s.mod.pairs.foldl (fun s p => s.settleHeld t good p.1) s

/-- The receiver acknowledges a group or reports its failure on the reverse direction (R412), where flits may leave (R141, R143). -/
def State.ackGroup (s : State) (b : BeamId) (grp : Nat) (ok : Bool) : State :=
  if s.mod.cal.sync && !s.mod.cal.guard && !((s.peerAt b.port.val).any fun d => s.isLost d.val) then s.left' [.groupAck b grp ok]
  else s

/-- TAG_GROUP_RECEIPT, R152, R153, R411 to R413. An uncorrectable codeword fails the tag. A released group is acknowledged; in
containment mode a failed one is reported and nothing from it on is released until its replay passes. -/
def execTagGroupReceipt (g : GroupRcpt) (s : State) : Out :=
  .next (
    let k := s.beamAt false g.beam
    let b := s.beam k
    let s := g.uncorr.foldl (fun s w => s.count ctrUncorr (8 * k + w.val) 1) s
    if s.mod.fw.failed then s
    else if g.good && g.uncorr.isEmpty then
      if b.await.isSome && b.await ≠ some g.num then s
      else
        let s := ((s.updBeam k fun b => { b with await := none }).settleTag g.tag true).ackGroup g.beam g.num true
        g.msgs.foldl (fun s m => s.arrive' m) s
    else
      let s := s.count ctrTagfail k 1
      if !(s.beam (beamKey false g.beam)).skid then
        (s.updBeam k fun b => { b with await := if b.await.isSome then b.await else some g.num }).ackGroup g.beam g.num false
      else
        let s := s.settleTag g.tag false
        g.msgs.foldl (fun s m =>
          if m.msg.dst.chip ≠ s.mod.chipid then s
          else match s.failedBody m.msg.body with
            | none => s
            | some x => s.arrive' { m with msg := { m.msg with body := x }, skid := none }) s)

/-- TAG_GROUP_ACK, R412: an acknowledged group is not kept any more; a failed one is sent again with every later one, in their order,
in the same slot, and takes capacity. -/
def execTagGroupAck (b : BeamId) (grp : Nat) (ok : Bool) (s : State) : Out :=
  .next (
    let k := beamKey true b
    let kept := (s.beam k).kept
    if ok then s.updBeam k fun b => { b with kept := b.kept.filter fun g => g.1 ≠ grp }
    else
      let again := kept.dropWhile fun g => g.1 ≠ grp
      if again.isEmpty || !s.mod.cal.sync || s.mod.cal.guard || ((s.peerAt b.port.val).any fun d => s.isLost d.val) then s
      else
        let s := (s.count ctrReplay k again.length).left' (again.flatMap (·.2))
        match s.peerAt b.port.val with
        | none => s
        | some d => s.takeRoom d.val (5 * again.length))

/-- IDLE_GROUP_CLOSE, R411: idle flits close the open group; none leave in a guard or without lock (R141, R143). -/
def execIdleGroupClose (b : BeamId) (s : State) : Out :=
  .next (if s.mod.cal.sync && !s.mod.cal.guard then s.updBeam (beamKey true b) Beam.close else s)

/-! ### Wavelengths (R416, R417) -/

/-- The windows that end within the 4.0 µs, 128,000 bits, of a training pattern; the next one begins after it (R416, log 94). -/
def trainWindows (berwin : Nat) : Nat := 128000 / max 1 berwin
/-- A receiver tells the transmitter of a beam that it has dropped a wavelength or takes it back (R142): at once where something may
leave on the port, else when it next faces that module (R141, R143, log 110); never a module that is lost (R420). -/
def State.signalWl (s : State) (b : BeamId) (wl : Fin 8) (back : Bool) : State :=
  match s.peerAt b.port.val with
  | none => s
  | some d =>
    if s.isLost d.val then s
    else if s.mod.cal.sync && !s.mod.cal.guard then s.left' [.wavelength b wl back]
    else s.updLink fun l => { l with signals := l.signals ++ [(d.val, .wavelength b wl back)] }

/-- Wavelength `wl` leaves a beam: with a second one out the beam is out of service, and what it waited for is recovered end to end
(R416, R417). -/
def Beam.dropWl (x : Beam) (wl : Fin 8) (train : Nat) : Beam :=
  { x with oos := !x.out.isEmpty, out := x.out ++ [⟨wl, train, 0, 0⟩], await := if x.out.isEmpty then x.await else none }
/-- Wavelength `wl` is taken back (R416, R417). -/
def Beam.takeWl (x : Beam) (wl : Fin 8) : Beam := { x with oos := false, out := x.out.filter fun o => o.wl ≠ wl }

/-- What the receiver of a transmit beam of this module has decided of a wavelength, as it signals it (R142): the drop of one in service, the
return of one that is out, or nothing. The measurement and its parameters are the receiver's, so here the decision is free
(log 75). -/
def State.signalled (s : State) (b : BeamId) (wl : Fin 8) : State :=
  let k := beamKey true b
  let (n, s) := s.draw
  if !Config.freeBool n then s
  else if (s.beam k).out.any fun o => o.wl = wl then s.updBeam k fun x => x.takeWl wl
  else if (s.beam k).oos then s
  else s.updBeam k fun x => x.dropWl wl 0

/-- BER_WINDOW_END, R416 to R418: the receiver of a beam counts the window's errors and decides. With `tx` it is the peer's receiver that
has measured a transmit beam (R142); what it counts is counted there (R418). -/
def execBerWindowEnd (b : BeamId) (tx : Bool) (wl : Fin 8) (errors : Nat) (s : State) : Out :=
  .next (
    if tx then s.signalled b wl
    else
      let k := s.beamAt false b
      let p := s.mod.link.par
      let s := s.count ctrPrefec (8 * k + wl.val) errors
      let beam := s.beam k
      match beam.out.find? fun o => o.wl = wl with
      | none =>
        if beam.oos || decide (errors ≤ p.degr) then s
        else
          let s := s.count ctrDrops (8 * k + wl.val) 1
          (s.updBeam k fun x => x.dropWl wl (trainWindows p.berwin)).signalWl b wl false
      | some o =>
        let set (f : WlOut → WlOut) : State := s.updBeam k fun b => { b with out := b.out.map fun o => if o.wl = wl then f o else o }
        if 0 < o.train then set fun o => { o with train := o.train - 1 }
        else if 64 * p.rtMax ≤ o.windows then s
        else
          let clean := if errors ≤ p.restore then o.clean + 1 else 0
          if p.rwin ≤ clean then (s.updBeam k fun x => x.takeWl wl).signalWl b wl true
          else set fun o => { o with windows := o.windows + 1, clean := clean })

/-! ### Lost modules (R300, R386, R419, R420) -/

/-- A module fails or is declared lost: every cluster on it counts as killed, so every group that lists one is BROKEN (R300,
R386, R407). -/
def State.moduleGone (s : State) (chip : Fin 128) : State :=
  (s.cl.groups.filter fun g => g.2.st = 1 && (s.membersOf g.2).any fun m => m.chip = chip).foldl (fun s g => s.breakGroup g.1) s

/-- MODULE_FAILURE, R300: the failure of this module kills the cluster, and what the module holds as a relay is dropped (R149). -/
def execModuleFailure (chip : Fin 128) (s : State) : Out :=
  .next (
    if chip = s.mod.chipid then
      let s := s.updLink fun l => { l with relay := [] }
      if s.cl.killed then s else s.killOwn
    else s.moduleGone chip)

/-- The loss of a module is learnt with C0: the earliest is kept, the notice is flooded for NSLOT slots, timers stop (R419,
R420). -/
def State.learnLoss (s : State) (chip : Fin 128) (c0 : Nat) : State :=
  if chip = s.mod.chipid then s
  else
    let news := match (s.pair chip.val).lost with | none => true | some c => decide (c0 < c)
    if !news then s
    else
      let s := s.updPair chip.val fun p => { p with lost := some c0 }
      let s := s.updLink fun l =>
        { l with floods := l.floods.filter (fun f => f.1 ≠ chip) ++ [(chip, c0, s.mod.cal.nslot)] }
      let s := { s with agenda := s.agenda.filter fun i => match i with | .e2eTimerExpiry d _ => d ≠ chip | _ => true }
      (s.next (.moduleFailure chip)).next (.drainRound chip (s.mod.cal.cycle - c0))

/-- LOST_NOTICE, R419. -/
def execLostNotice (chip : Fin 128) (c0 : Nat) (s : State) : Out := .next (s.learnLoss chip c0)
/-- MANAGEMENT_LOSS_DECLARATION, R419: C0 is the CYCLE of the declaration. -/
def execManagementLossDeclaration (chip : Fin 128) (s : State) : Out := .next (s.learnLoss chip s.mod.cal.cycle)

/-- PORT_DOWN_CHECK, R419: a direct slot in which every port facing the peer was down; DEADN of them in a row declare it lost. -/
def execPortDownCheck (port : Fin 16) (received : Bool) (s : State) : Out :=
  .next (
    let c := s.mod.cal
    match s.peerAt port.val with
    | none => s
    | some d =>
      if !c.sync || s.isLost d.val then s
      else if received then s.updPair d.val fun p => { p with down := 0 }
      else if c.downPorts.contains port then s
      else
        let s := s.updCal fun c => { c with downPorts := c.downPorts ++ [port] }
        if !((s.portsTo d.val).all fun q => s.mod.cal.downPorts.any fun x => x.val = q) then s
        else
          let s := s.updPair d.val fun p => { p with down := p.down + 1 }
          if s.mod.link.par.deadn ≤ (s.pair d.val).down then s.learnLoss d s.mod.cal.cycle else s)

/-- Round DRAIN_R (R420): requests and watches at the module end with status 1, everything queued or retained for it and every
watch of its clusters is discarded. -/
def State.drain (s : State) (chip : Fin 128) : State :=
  let s := (s.cl.outst.filter fun o => o.owner.chip = chip).foldl (fun s o => s.next (.remoteStatusReply o.tag 1)) s
  let s := (s.cl.watchOut.filter fun w => w.2.chip = chip).foldl (fun s w => s.next (.watchStatusReceipt w.1 1)) s
  let s := s.updCl fun c =>
    { c with watches := c.watches.filter (fun w => w.src.chip ≠ chip), outAmsg := c.outAmsg.filter fun m => m.target.chip ≠ chip }
  let s := s.updLink fun l => { l with
    relay := l.relay.filter fun m => m.msg.dst.chip ≠ chip && m.msg.src.chip ≠ chip
    ctl := l.ctl.filter fun x => x.dst ≠ chip.val }
  s.updPair chip.val fun p => { p with queue := [], retained := [], drained := true }

/-- DRAIN_ROUND, R420. -/
def execDrainRound (chip : Fin 128) (k : Nat) (s : State) : Out :=
  .next (
    let r := s.mod.link.par.drainR
    let p := s.pair chip.val
    if p.lost.isNone then s
    else
      let s := if decide (r ≤ k) && !p.drained then s.drain chip else s
      if decide (r + 1 ≤ k) && !p.cleared then
        s.updPair chip.val fun p => { p with nextSeq := 0, recvNext := 0, held := [], skipped := [], cleared := true }
      else s)

end Sys2Proof.Machine
end

