-- ==== Sys2Proof/Machine/System.lean ====
section
/-!
DEFINITION. Sys2Proof/Machine/System.lean: special registers (R246, R308, R309), calendar items (R144, R267), protection regions
(R328), invalidation of translations with its acknowledgements (R329, R359, R360), walks that wait (R357), gated and halted
cores (R360).
-/
namespace Sys2Proof.Machine

/-! ### Reading a special register (R246, R308) -/

/-- The code of a context's state in CSTAT (R308). -/
def stCode : CtxSt → Nat
  | .idle => 0 | .ready => 1 | .issued => 2 | .blocked => 3 | .faulted => 4 | .stopped => 5
/-- The state of a context as CSTAT shows it: one whose last instruction takes more than a cycle stays ISSUED until it ends (R187). -/
def Ctx.shown (x : Ctx) : CtxSt := if x.st = .ready && x.lag then .issued else x.st
/-- CSTAT of the moving context's core. -/
def State.cstat (s : State) : Nat := packBits 3 ((coreCtxs (coreOf s.cur)).map fun c => stCode (s.getCtx c).shown)
/-- The last instructions of a core's contexts that may still be executing end or go on; which of them do is free (R187, log 3). -/
def State.settleLags (s : State) (core : CoreId) : State :=
  let (n, s) := s.drawN 16
  (coreCtxs core).foldl (fun s c => s.updCtx c fun x => { x with lag := x.lag && Config.freeBool (n + (numOf c).val) }) s
/-- TQSTAT: FATV, NHELD, NREP. -/
def Core.tqstat (k : Core) : Nat :=
  (if k.fatq.isSome then 2 ^ 63 else 0) + (k.tq.filter fun r => r.hold ≠ .none && r.waiting.isSome).length % 16 * 2 ^ 4
    + (k.tq.filter fun r => r.hold = .none).length % 16
/-- TCCST: DIRTY, VALID. -/
def Core.tccst (k : Core) : Nat :=
  flagBits (k.tcc.toList.map fun e => match e with | some x => x.dirty | none => false) * 2 ^ 8
    + flagBits (k.tcc.toList.map (·.isSome))
/-- The context that CSEL names. -/
def State.selected (s : State) : CtxId := ctxOf (coreOf s.cur) s.core.csel

/-- The value of a special register; none for a number that names no register. -/
def State.special (s : State) (num : Nat) : Option Word :=
  let x := s.ctx
  let k := s.core
  let y := s.getCtx s.selected
  let of (n : Nat) : Option Word := some (BitVec.ofNat 64 n)
  match num with
  | 0x0000 => of x.clk
  | 0x0001 => of x.drawn.toNat
  | 0x0002 => of ((x.bound.map (·.idx)).getD 0xFFFF)
  | 0x0003 => some x.expb
  | 0x0004 => some x.rcvb
  | 0x0005 => of s.mod.cycles
  | 0x8000 => of ((if k.hnd then 2 ^ 63 else 0) + (if k.tmask then 2 ^ 62 else 0))
  | 0x8001 => of k.sepc.toNat
  | 0x8002 => of k.srep.toNat
  | 0x8003 => of k.tvec.toNat
  | 0x8004 => of s.cstat
  | 0x8005 => of k.tqstat
  | 0x8006 => of k.csel.val
  | 0x8007 => of y.pc.toNat
  | 0x8008 => some k.trec[0]
  | 0x8009 => some k.trec[1]
  | 0x800A => some k.trec[2]
  | 0x800B => some k.trec[3]
  | 0x800C => of y.repidx.toNat
  | 0x800D => of y.retry.word0
  | 0x8010 => of k.tccst
  | 0x8011 => of s.savectr
  | 0x8012 => some 0
  | 0x8013 => of s.cl.par.prlock.toNat
  | 0x8014 => of (s.dumpBase (coreOf s.cur))
  | 0x8015 => some k.screat
  | _ => none

/-- S-level numbers are refused at U level at step 4 of R162 (R246, R306). -/
def State.specialPriv (s : State) (num : BitVec 16) (k : State → State) : State :=
  if 0x8000 ≤ num.toNat && !s.sup then s.trap 0x03 else k s

/-- R246. For CSTAT it first shows which instructions have ended by now (R187). -/
def execSrd (d : GNum) (num : BitVec 16) (s : State) : Out :=
  .next (s.specialPriv num fun s =>
    let s := if num = 0x8004 then s.settleLags (coreOf s.cur) else s
    match s.special num.toNat with
    | none => s.trap 0x01
    | some v => s.putG 4 d v)

/-! ### Writing a special register -/

/-- An address with bit 0 clear. -/
def evenPc (v : Word) : BitVec 48 := BitVec.ofNat 48 (v.toNat % 2 ^ 48 / 2 * 2)
/-- The moving context's core changed. -/
def State.ownCore (s : State) (f : Core → Core) : State := s.updCore (coreOf s.cur) f

/-- SCTL: TMASK (R308). -/
def State.writeSctl (s : State) (v : Word) : State := s.ownCore fun k => { k with tmask := bits v 62 1 = 1 }
/-- SAVEADV: writing 1 advances SAVECTR of the partition (R308). -/
def State.writeSaveadv (s : State) (v : Word) : State :=
  if bits v 0 1 = 1 then
    match s.cl.part with
    | none => s
    | some id => s.updPart id fun p => { p with savectr := p.savectr + 1 }
  else s
/-- CPC and CREPX take effect while the context CSEL, not 0, is STOPPED or FAULTED (R308, R309). -/
def State.writeSelected (s : State) (f : Ctx → Ctx) : State :=
  let c := s.selected
  let x := s.getCtx c
  if numOf c ≠ 0 && (x.st = .stopped || x.st = .faulted) then s.updCtx c f else s
/-- CPC. -/
def State.writeCpc (s : State) (v : Word) : State := s.writeSelected fun x => { x with pc := evenPc v }
/-- CREPX. -/
def State.writeCrepx (s : State) (v : Word) : State := s.writeSelected fun x => { x with repidx := BitVec.ofNat 6 v.toNat }
/-- SCREAT keeps its reserved bits 0 (R308). -/
def screatOf (v : Word) : Word := setBits v 32 20 0

/-- A write of a special register with no behaviour of its own; none for one that cannot be written. -/
def State.writePlain (s : State) (num : Nat) (v : Word) : Option State :=
  match num with
  | 0x0001 => some (s.upd fun x => { x with drawn := BitVec.ofNat 48 v.toNat })
  | 0x8001 => some (s.ownCore fun k => { k with sepc := evenPc v })
  | 0x8002 => some (s.ownCore fun k => { k with srep := BitVec.ofNat 6 v.toNat })
  | 0x8003 => some (s.ownCore fun k => { k with tvec := evenPc v })
  | 0x8006 => some (s.ownCore fun k => { k with csel := Fin.ofNat 16 (bits v 0 4) })
  | 0x8015 => some (s.ownCore fun k => { k with screat := screatOf v })
  | _ => none
/-- A write of a special register; none for one that is read-only or does not exist. -/
def State.writeSpecial (s : State) (num : Nat) (v : Word) : Option State :=
  match num with
  | 0x8000 => some (s.writeSctl v)
  | 0x8007 => some (s.writeCpc v)
  | 0x800C => some (s.writeCrepx v)
  | 0x8012 => some (s.writeSaveadv v)
  | n => s.writePlain n v

/-- R246. -/
def execSwr (d : GNum) (num : BitVec 16) (s : State) : Out :=
  .next (s.specialPriv num fun s => s.srcG false d fun v s =>
    match s.writeSpecial num.toNat v with
    | none => s.trap 0x01
    | some s => s.finish 4)

/-- The part of `swr` that writes SAVEADV (R308), in the moving context's core. -/
def execSaveadv (v : Word) (s : State) : Out := .next (s.writeSaveadv v)
/-- The part of `swr` that writes SCTL (R308, R311). -/
def execSctlWrite (v : Word) (s : State) : Out := .next (s.writeSctl v)
/-- The part of `swr` that writes CPC (R308, R309). -/
def execCpcWrite (v : Word) (s : State) : Out := .next (s.writeCpc v)
/-- The part of `swr` that writes CREPX (R308, R309). -/
def execCrepxWrite (v : Word) (s : State) : Out := .next (s.writeCrepx v)
/-- The part of `swr` that writes a register with no behaviour of its own (R246). -/
def execSpecialRegisterWrite (num : BitVec 16) (v : Word) (s : State) : Out :=
  .next ((s.writePlain num.toNat v).getD s)

/-! ### Calendar items (R144) -/

/-- The bytes of a peer word: port 8h + j in byte j (R144). -/
def peerWord (l : List (Option (Fin 128))) : Nat :=
  packBits 8 (l.map fun p => match p with | some c => 128 + c.val | none => 0)
/-- Flits that wait in a queue. -/
def Pair.flits (p : Pair) : Nat := p.queue.foldl (fun n m => n + m.flits) 0
/-- QSTAT of a chip (R144). -/
def Pair.qstat (p : Pair) : Nat := p.budget % 2 ^ 20 * 2 ^ 44 + min p.used 0xFFFFF * 2 ^ 24 + min p.flits 0xFFFFFF

/-- A calendar item; `left` is the time left in the slot. -/
def State.calItem (s : State) (item left : Nat) : Nat :=
  let c := s.mod.cal
  if item = 0 then
    (if c.sync then 2 ^ 63 else 0) + s.mod.chipid.val * 2 ^ 56 + c.nslot % 128 * 2 ^ 49 + c.slot % 128 * 2 ^ 42
      + (if c.guard then 2 ^ 41 else 0) + c.cycle % 2 ^ 41
  else if item = 1 then c.guardlen % 2 ^ 16 * 2 ^ 32 + c.slotlen % 2 ^ 16 * 2 ^ 16 + left % 2 ^ 16
  else if 16 ≤ item && decide (item < 16 + 2 * c.nslot) then
    peerWord (((c.peers.getD ((item - 16) / 2) []).drop (8 * (item % 2))).take 8)
  else if 272 ≤ item && decide (item < 400) then (s.pair (item - 272)).qstat
  else 0

/-- R267. -/
def execCalrd (d : GNum) (item : BitVec 10) (s : State) : Out :=
  .next (
    let (left, s) := s.readLeft
    s.putG 4 d (BitVec.ofNat 64 (s.calItem item.toNat left)))

/-! ### Protection regions (R328) -/

/-- R328. -/
def execPrset (d a b : GNum) (fa fb : Bool) (s : State) : Out :=
  .next (s.priv fun s => s.srcG fa a fun A s => s.srcG fb b fun w s =>
    let i := bits A 0 4
    if s.cl.par.prlock.toNat / 2 ^ i % 2 = 1 then s.putG 4 d 7
    else if bits w 47 9 ≠ 0 || bits w 15 17 ≠ 0 || (bits w 63 1 = 1 && decide (bits w 32 15 < bits w 0 15)) then s.putG 4 d 6
    else if !s.eng.idle then s.block .engineIdle
    else (s.updCl fun c => { c with regions := c.regions.setIfInBounds i w }).putG 4 d 0)

/-! ### Invalidation of translations (R329, R359, R360) -/

/-- Is a cached entry of a level and tag on the path of a span of 2^k bytes? -/
def onPath (lvl tag v k : Nat) : Bool :=
  let sh := if lvl = 1 then 30 else if lvl = 2 then 21 else 16
  tag / 2 ^ (max k sh - sh) = v / 2 ^ max k sh
/-- Cached entries dropped by scope (R329): the walks of the page start afresh. Which leaves they were stays known for `cinval` (R330). -/
def State.dropTlb (s : State) (scope : Nat) (A : Word) : State :=
  let v := offOf A - hbmLo
  let hit (x : Nat × Nat × Nat × Word) : Bool :=
    if scope = 2 then true
    else hbmLo ≤ offOf A && onPath x.2.1 x.2.2.1 v (if scope = 0 then 16 else 21)
  let leaves := ((s.mem.tlb.filter fun x => hit x && bits x.2.2.2 62 1 = 1).map (·.2)).filter fun x => !s.mem.gone.contains x
  s.updMem fun m => { m with tlb := m.tlb.filter fun x => !hit x, gone := m.gone ++ leaves }
/-- The agents of R360. -/
def tinvAgents : List TinvAgent := [.core 0, .core 1, .core 2, .core 3, .port, .copyEngine, .hostDma]

/-- R329. -/
def execTinv (d a b : GNum) (fa fb : Bool) (s : State) : Out :=
  .next (s.priv fun s => s.srcG fa a fun A s => s.srcG fb b fun B s =>
    let scope := bits B 0 2
    if scope = 3 then s.putG 4 d 6
    else if !ownForm s.me A then s.putG 4 d 3
    else if s.ctx.begun then s.putG 4 d 0
    else
      let s := (s.dropTlb scope A).updCl fun c => { c with tinvWait := c.tinvWait ++ tinvAgents.map fun g => (s.cur, g) }
      let s := tinvAgents.foldl (fun s g => s.postOnce (.tinvAcknowledge g)) s
      (s.upd fun x => { x with begun := true }).block .tinv)

/-- A request to HBM that has been translated is still being read, by the owner port for another cluster or by the copy engine (R360). -/
def State.stillReading (s : State) (agent : TinvAgent) : Bool :=
  s.cl.serving.any fun x => (x.2.2.2.2.any fun key => decide (hbmLo ≤ key)) &&
    ((agent = .port && x.1 ≠ s.me) || (agent = .copyEngine && x.1 = s.me))
/-- TINV_ACKNOWLEDGE, R360: the port and the copy engine answer once what they read through an older translation has been read. -/
def execTinvAcknowledge (agent : TinvAgent) (s : State) : Out :=
  .next (
    if s.stillReading agent then s.post (.tinvAcknowledge agent)
    else s.updCl fun c => { c with tinvWait := c.tinvWait.filter fun w => w.2 ≠ agent })

/-! ### Walks that wait for a node to move (R357) -/

/-- WALK_MIG_RETRY: the entry is read again. -/
def execWalkMigRetry (c : CtxId) (s : State) : Out :=
  .next (match (s.getCtx c).st, (s.getCtx c).wait with
    | .blocked, some (.mig key) =>
      if bits (s.word key) 58 1 = 1 then s.post (.walkMigRetry c)
      else (s.cancel (.walkMigTimeout c)).urge (.resume c)
    | _, _ => s)
/-- WALK_MIG_TIMEOUT: WALKNR, trap 0x18 (R358). A `tret` that steps past an instruction goes on without the parcel (R322). -/
def execWalkMigTimeout (c : CtxId) (s : State) : Out :=
  .next (match (s.getCtx c).st, (s.getCtx c).wait with
    | .blocked, some (.mig _) =>
      if (s.getCtx c).begun then ((s.cancel (.walkMigRetry c)).updCtx c fun x => { x with limitHit := true }).urge (.resume c)
      else (s.abandonWait c).trapAt c 0x18 0 0 0 .none
    | _, _ => s)

/-! ### Gated and halted cores (R360) -/

/-- CORE_POWER_GATING: a gated core issues nothing and has lost its translation caches; the next one ends it (log 31). -/
def execCorePowerGating (core : CoreId) (s : State) : Out :=
  .next ((s.updCore core fun k => { k with gated := !k.gated }).updMem fun m =>
    { m with tlb := m.tlb.filter fun x => x.1 ≠ core.val })
/-- DEBUGGER_HALT: a halted core issues nothing; the next one ends it (log 31). -/
def execDebuggerHalt (core : CoreId) (s : State) : Out :=
  .next (s.updCore core fun k => { k with dbgHalt := !k.dbgHalt })

end Sys2Proof.Machine
end

