-- ==== Sys2Proof/Machine/Scheduler.lean ====
section
/-!
DEFINITION. Sys2Proof/Machine/Scheduler.lean: the hardware scheduler (R333 to R350): the window and the environment of a
decision, the Almanac machine with its load rules, the three kinds of decision, `polld` and `polsw` (R331).
-/
namespace Sys2Proof.Machine

/-! ### Almanac instructions (R340, R341) -/

/-- op. -/
def almOp (w : BitVec 16) : Nat := w.toNat / 2 ^ 11
/-- d. -/
def almD (w : BitVec 16) : Nat := w.toNat / 2 ^ 8 % 8
/-- s. -/
def almS (w : BitVec 16) : Nat := w.toNat / 2 ^ 5 % 8
/-- x. -/
def almX (w : BitVec 16) : Nat := w.toNat % 32
/-- imm8. -/
def almImm (w : BitVec 16) : Nat := w.toNat % 256

/-- An assigned op whose unused fields are zero, with the ranges of FLD and EACH (R341, R343). -/
def almFields (w : BitVec 16) : Bool :=
  let d := almD w
  let s := almS w
  let x := almX w
  match almOp w with
  | 0x01 | 0x02 | 0x06 | 0x0F => true
  | 0x03 | 0x04 | 0x05 | 0x07 | 0x08 | 0x09 | 0x0C | 0x0D => x = 0
  | 0x0A | 0x0B => s = 0
  | 0x0E => decide (x ≤ 13)
  | 0x10 => s = 0 && decide (x < 16)
  | 0x11 => d = 0 && decide (x < 16)
  | 0x12 => d = 0
  | 0x13 | 0x14 | 0x15 | 0x16 => true
  | 0x17 => almImm w ≠ 0
  | 0x18 | 0x19 => d = 0 && x = 0
  | 0x1A => d = 0 && s = 0 && decide (x < 4)
  | 0x1B | 0x1C => d = 0 && s = 0 && x = 0
  | _ => false
/-- Where a jump at position p goes. -/
def almTarget (p : Nat) (w : BitVec 16) : Option Nat :=
  match almOp w with
  | 0x12 => some (p + 1 + almImm w)
  | 0x13 | 0x14 | 0x15 | 0x16 => some (p + 1 + almX w)
  | _ => none
/-- The bodies of a program: first and last positions (R342). -/
def almBodies (prog : List (BitVec 16)) : List (Nat × Nat) :=
  (prog.zip (List.range prog.length)).filterMap fun q => if almOp q.1 = 0x17 then some (q.2 + 1, q.2 + almImm q.1) else none
/-- A jump from p to t is legal (R343). -/
def almJumpOk (len : Nat) (bodies : List (Nat × Nat)) (p t : Nat) : Bool :=
  match bodies.find? fun b => decide (b.1 ≤ p) && decide (p ≤ b.2) with
  | some b => decide (b.1 ≤ t) && decide (t ≤ b.2 + 1)
  | none => decide (t < len) && !bodies.any fun b => decide (b.1 ≤ t) && decide (t ≤ b.2)
/-- The load rules (R343). -/
def policyOk (prog : List (BitVec 16)) : Bool :=
  let n := prog.length
  let bodies := almBodies prog
  decide (1 ≤ n) && decide (n ≤ 256) && prog.all almFields
    && bodies.all (fun b => decide (b.2 < n) && !bodies.any fun e => decide (b.1 ≤ e.1 - 1) && decide (e.1 - 1 ≤ b.2))
    && (prog.zip (List.range n)).all fun q =>
      match almTarget q.2 q.1 with
      | some t => almJumpOk n bodies q.2 t
      | none => true

/-! ### The window and the environment (R338, R339) -/

/-- What a decision is about. -/
inductive DecKind where
  | dispatch (c : CtxId) | preempt (idx : Nat) | fault (c : CtxId)
  deriving DecidableEq, Repr
/-- EVENT. -/
def DecKind.code : DecKind → Nat
  | .dispatch _ => 0 | .preempt _ => 1 | .fault _ => 2

/-- A slot of the window: the fields 0 to 13, and the index of the record. -/
structure Slot where
  idx : Nat
  fields : List Nat
  deriving DecidableEq, Repr

/-- A slot of a record with words 0 and 1 (R338). -/
def slotOf (idx age : Nat) (w0 w1 : Word) (core : Option CoreId) (side woke : Bool) : Slot :=
  let b (x : Bool) : Nat := if x then 1 else 0
  let affv := bits w1 20 1
  ⟨idx, [recQueue w1, recClass w1, min age (2 ^ 32 - 1), bits w1 28 4, bits w1 32 8, bits w1 40 8, bits w1 48 8, bits w1 56 8,
    recAffc w1, b (affv = 1 && core.any fun k => k.val = recAffc w1), bits w1 17 1,
    affv + 2 * bits w1 21 1 + 4 * b side + 8 * bits w0 55 1 + 16 * b woke, idx, bits w0 48 6]⟩

/-- The oldest QUEUED record of a queue that a context may take; a binding goes by the words as it reads them (R19). -/
def State.candidate (s : State) (c : CtxId) (q : Nat) : Option QEnt :=
  (s.cl.queues[q]?.getD []).find? fun e => s.fits c (s.recView e.idx 1)
/-- The slot of a QUEUED record. -/
def State.queuedSlot (s : State) (e : QEnt) (core : Option CoreId) : Slot :=
  slotOf e.idx (s.mod.cycles - e.since) (s.recView e.idx 0) (s.recView e.idx 1) core false e.woke
/-- The slot of a bound continuation: what it took at its binding, which no later store changes (R19). -/
def State.boundSlot (s : State) (c : CtxId) (b : Bound) : Slot :=
  slotOf b.idx (s.mod.cycles - mapGet s.mod.cycles s.cl.boundAt b.idx)
    (BitVec.ofNat 64 ((if b.prot then 2 ^ 55 else 0) + b.ptag.val * 2 ^ 48)) b.word1 (some (coreOf c)) (s.getCtx c).side b.woke
/-- The window of a decision (R338). -/
def State.window (s : State) (k : DecKind) : List (Option Slot) :=
  match k with
  | .dispatch c => (List.range 8).map fun q => (s.candidate c q).map fun e => s.queuedSlot e (some (coreOf c))
  | .preempt idx =>
    some (s.queuedSlot ((s.queued.find? fun e => e.idx = idx).getD ⟨idx, s.mod.cycles, false⟩) none) :: List.replicate 7 none
  | .fault c => ((s.getCtx c).bound.map (s.boundSlot c)) :: List.replicate 7 none

/-- IDLE contexts of a core, but a reserved one (R339). -/
def State.freeOn (s : State) (k : CoreId) (reserved : Option CtxId) : Nat :=
  ((coreCtxs k).filter fun c => (s.getCtx c).st = .idle && some c ≠ reserved).length
/-- The lowest CLASS among the continuations bound on a core; 8 if none (R339). -/
def State.minClass (s : State) (k : CoreId) : Nat :=
  (coreCtxs k).foldl (fun m c => match (s.getCtx c).bound with
    | some b => min m (recClass b.word1)
    | none => m) 8
/-- An environment item (R339); `left` is LEFT of the calendar. -/
def State.envItem (s : State) (k : DecKind) (win : List (Option Slot)) (decn left item : Nat) : Nat :=
  let c : Option CtxId := match k with
    | .dispatch c => some c
    | .fault c => some c
    | .preempt _ => none
  let res : Option CtxId := match k with
    | .dispatch c => some c
    | _ => none
  let sync := s.mod.cal.sync
  match item with
  | 0 => k.code
  | 1 => (c.map fun c => (coreOf c).val).getD 0
  | 2 => (c.map fun c => (numOf c).val).getD 0
  | 3 => flagBits (win.map (·.isSome))
  | 4 => if sync then s.mod.cal.slot else 0
  | 5 => left
  | 6 => match k with
    | .fault c => (((s.getCore (coreOf c)).tq.find? fun r => r.record.ctx = numOf c).map fun r => r.record.cause.toNat).getD 0
    | _ => 0
  | 7 => s.mod.cal.nslot
  | 8 | 9 | 10 | 11 => s.freeOn (Fin.ofNat 4 (item - 8)) res
  | 12 | 13 | 14 | 15 => s.minClass (Fin.ofNat 4 (item - 12))
  | 16 => decn % 2 ^ 32
  | 17 => min s.queued.length 65535
  | _ => 0

/-! ### Running a program (R340 to R344) -/

/-- How a program ends. -/
inductive AlmEnd where
  | take (slot : Nat) | vict (core : Nat) | fate (f : Nat) | none | dflt | overrun
  deriving DecidableEq, Repr
/-- The state of a run: a0 to a7, the persistent words with the buffered writes, the loop (its register, body and the slots
still to come). -/
structure Alm where
  a : List Nat
  pw : List Nat
  loop : Option (Nat × Nat × Nat × List Nat)
  deriving DecidableEq, Repr
/-- Register d written. -/
def Alm.set (m : Alm) (d v : Nat) : Alm := { m with a := m.a.set d (v % 2 ^ 32) }
/-- The end of a pass (R342): the next one, or the position after the body. -/
def Alm.settle (m : Alm) (p : Nat) : Alm × Nat :=
  match m.loop with
  | some (d, first, last, rest) =>
    if p = last + 1 then
      match rest with
      | [] => ({ m with loop := none }, p)
      | x :: r => ({ m.set d x with loop := some (d, first, last, r) }, first)
    else (m, p)
  | none => (m, p)

/-- What a run needs beside its own state. -/
structure AlmIn where
  prog : List (BitVec 16)
  kind : Nat
  win : List (Option Slot)
  env : List Nat
  deriving DecidableEq, Repr

/-- One instruction that is no outcome, at position p: the state after it and where it goes on. -/
def almStep (i : AlmIn) (m : Alm) (p : Nat) (w : BitVec 16) : Alm × Nat :=
  let d := almD w
  let x := almX w
  let ad := m.a.getD d 0
  let as_ := m.a.getD (almS w) 0
  let imm := almImm w
  let go (v : Nat) : Alm × Nat := (m.set d v, p + 1)
  let br (c : Bool) : Alm × Nat := (m, if c then p + 1 + x else p + 1)
  match almOp w with
  | 0x01 => go imm
  | 0x02 => go (ad * 256 + imm)
  | 0x03 => go as_
  | 0x04 => go (ad + as_)
  | 0x05 => go (ad + 2 ^ 32 - as_)
  | 0x06 => go (ad + (if imm < 128 then imm else 2 ^ 32 - 256 + imm))
  | 0x07 => go (ad &&& as_)
  | 0x08 => go (ad ||| as_)
  | 0x09 => go (ad ^^^ as_)
  | 0x0A => go (ad * 2 ^ x)
  | 0x0B => go (ad / 2 ^ x)
  | 0x0C => go (min ad as_)
  | 0x0D => go (max ad as_)
  | 0x0E => go (((i.win.getD (as_ % 8) none).map fun s => s.fields.getD x 0).getD 0)
  | 0x0F => go (i.env.getD imm 0)
  | 0x10 => go (m.pw.getD (x % 16) 0)
  | 0x11 => ({ m with pw := m.pw.set (x % 16) as_ }, p + 1)
  | 0x12 => (m, p + 1 + imm)
  | 0x13 => br (ad = as_)
  | 0x14 => br (ad ≠ as_)
  | 0x15 => br (decide (ad < as_))
  | 0x16 => br (decide (as_ ≤ ad))
  | _ =>
    match (List.range 8).filter fun k => (i.win.getD k none).isSome with
    | [] => (m, p + imm + 1)
    | k :: r => ({ m.set d k with loop := some (d, p + 1, p + imm, r) }, p + 1)

/-- An outcome (R341), an overrun where the decision's kind does not allow it or the slot is empty (R344). -/
def almOutcome (i : AlmIn) (m : Alm) (w : BitVec 16) : Option AlmEnd :=
  let v := m.a.getD (almS w) 0
  match almOp w with
  | 0x18 => some (if i.kind = 0 && (i.win.getD (v % 8) none).isSome then .take (v % 8) else .overrun)
  | 0x19 => some (if i.kind = 1 then .vict (v % 4) else .overrun)
  | 0x1A => some (if i.kind = 2 then .fate (almX w) else .overrun)
  | 0x1B => some (if i.kind = 2 then .overrun else .none)
  | 0x1C => some .dflt
  | _ => none

/-- At most 64 instructions from position p (R344). -/
def almRun (i : AlmIn) : Nat → Alm → Nat → AlmEnd × List Nat
  | 0, m, _ => (.overrun, m.pw)
  | fuel + 1, m, p =>
    let (m, p) := m.settle p
    match i.prog[p]? with
    | none => (.overrun, m.pw)
    | some w =>
      match almOutcome i m w with
      | some e => (e, m.pw)
      | none => let (m, p) := almStep i m p w; almRun i fuel m p

/-! ### Decisions (R335, R344, R345) -/

/-- The cluster runs: it is not killed (R386). -/
def State.running (s : State) : Bool := !s.cl.killed
/-- A change of the policy machine. -/
def State.updPol (s : State) (f : Policy → Policy) : State := s.updCl fun c => { c with policy := f c.policy }
/-- An overrun with its DECN; sixteen of them within 2^24 decisions disable the policy (R345). -/
def State.overrun (s : State) (decn : Nat) : State :=
  let l := (s.cl.policy.overruns ++ [decn])
  let l := l.drop (l.length - 16)
  let s := s.updPol fun p => { p with overruns := l }
  if l.length = 16 && decide (decn < l.headD 0 + 2 ^ 24) then
    (s.updPol fun p => { p with disabled := true }).report 0x04 [decn, l.length]
  else s

/-- The outcome of a decision: the program's, or DFLT where none runs (R344, R345). Persistent words take the writes of a
legal end. -/
def State.decide' (s : State) (k : DecKind) : AlmEnd × State :=
  let decn := s.cl.policy.decn
  let s := s.updPol fun p => { p with decn := p.decn + 1 }
  let pol := s.cl.policy
  if pol.disabled || pol.prog.isEmpty then (.dflt, s)
  else
    let (left, s) := s.readLeft
    let win := s.window k
    let env := (List.range 18).map (s.envItem k win decn left)
    let (e, pw) := almRun ⟨pol.prog, k.code, win, env⟩ 64 ⟨List.replicate 8 0, pol.pw.toList.map (·.toNat), none⟩ 0
    if e = .overrun then (.dflt, s.overrun decn)
    else (e, s.updPol fun p => { p with pw := fillVec p.pw fun i => BitVec.ofNat 32 (pw.getD i 0) })

/-- When a QUEUED record became QUEUED. -/
def State.queuedSince (s : State) (r : Nat) : Nat := ((s.queued.find? fun e => e.idx = r).map (·.since)).getD s.mod.cycles
/-- The FAULT decision of a context has been made, and its reaping waits for the context's operations (R324, R348): it stands in the way of
no other decision. -/
def State.reaping (s : State) (c : CtxId) : Bool := (s.getCore (coreOf c)).tq.any fun r =>
  r.record.ctx = numOf c && (match r.hold with | .reap _ => true | _ => false)
/-- A decision waits while a more urgent event waits: FAULT before DISPATCH before PREEMPT, contexts in ascending number, records
from the oldest on (R335). A swap of the policy comes at the first boundary (R349). -/
def State.decisionFirst (s : State) (i : Instr) : Bool :=
  let before (j : Instr) : Bool :=
    match i, j with
    | _, .policySwap => true
    | .faultDecision c, .faultDecision d => decide (d.val < c.val) && !s.reaping d
    | .dispatchDecision _, .faultDecision d => !s.reaping d
    | .dispatchDecision c, .dispatchDecision d => decide (d.val < c.val)
    | .preemptDecision _, .faultDecision d => !s.reaping d
    | .preemptDecision _, .dispatchDecision _ => true
    | .preemptDecision q, .preemptDecision r => decide (s.queuedSince r < s.queuedSince q)
    | _, _ => false
  !s.agenda.any before
/-- A decision at its boundary; otherwise its event waits on. -/
def State.atBoundary (s : State) (i : Instr) (k : State → State) : State :=
  if !s.running then s else if s.decisionFirst i then k s else s.post i

/-! ### DISPATCH (R337, R344, R346) -/

/-- Is entry a bound before entry b by age (R337, R344): the earlier queued; b stands in the higher queue. -/
def olderOf (a : Option QEnt) (b : QEnt) : QEnt :=
  match a with
  | none => b
  | some x => if b.since < x.since then b else x
/-- The oldest of some candidates, slot by slot; ties go to the lower slot. -/
def oldest (l : List QEnt) : Option QEnt := l.foldl (fun a b => some (olderOf a b)) none
/-- The built-in choice: the highest CLASS, then the oldest, then the lowest slot (R344). -/
def State.builtIn (s : State) (l : List QEnt) : Option QEnt :=
  let top := l.foldl (fun m e => max m (recClass (s.recView e.idx 1))) 0
  oldest (l.filter fun e => recClass (s.recView e.idx 1) = top)
/-- A context that was due for a decision has been bound before it: the first other IDLE context that may take a QUEUED record, and
that neither a decision nor a NONE outcome keeps waiting, is offered in its place (R334, R346). -/
def State.offerOther (s : State) : State :=
  match allCtxs.find? fun c => !s.agenda.contains (.dispatchDecision c) && !s.cl.noned.contains c
      && s.queued.any fun e => s.mayBind c (s.recView e.idx 1) with
  | some c => s.postDispatch c
  | none => s

/-- DISPATCH_DECISION, R334 to R337, R344, R346. -/
def execDispatchDecision (c : CtxId) (s : State) : Out :=
  .next (s.atBoundary (.dispatchDecision c) fun s =>
    let cands := (List.range 8).filterMap (s.candidate c)
    if (s.getCtx c).st ≠ .idle then s.offerOther
    else if cands.isEmpty then s
    else
      let bind (s : State) (e : Option QEnt) : State :=
        match e with
        | some e => s.bindQueued c e.idx
        | none => s
      match oldest (cands.filter fun e => decide (s.cl.par.ageMax ≤ s.mod.cycles - e.since)) with
      | some e => bind (s.updPol fun p => { p with decn := p.decn + 1 }) (some e)
      | none =>
        match s.decide' (.dispatch c) with
        | (.take q, s) => bind s (s.candidate c q)
        | (.none, s) => (s.updCl fun cl => { cl with noned := cl.noned ++ [c] }).post (.dispatchReoffer c)
        | (_, s) => bind s (s.builtIn cands))

/-- DISPATCH_REOFFER, R346: the context is offered again if a record it may take is still QUEUED. -/
def execDispatchReoffer (c : CtxId) (s : State) : Out :=
  .next (if s.running && (s.getCtx c).st = .idle && !((List.range 8).filterMap (s.candidate c)).isEmpty
    then s.postDispatch c else s)

/-! ### PREEMPT (R347) -/

/-- A scheduler stop, exactly as `cstop` makes one (R323, R347). -/
def State.stopBy (s : State) (c : CtxId) (by_ : StopBy) : State :=
  let x := s.getCtx c
  match x.st with
  | .ready => s.updCtx c fun x => { x with st := .stopped, stopReq := none }
  | .issued => s.updCtx c fun x => { x with stopReq := x.stopReq.or (some by_) }
  | .blocked =>
    if x.susp.isSome || s.agenda.contains (.twinRestart c) then s.updCtx c fun x => { x with stopReq := x.stopReq.or (some by_) }
    else (s.abandonWait c).updCtx c fun x => { x with st := .stopped, stopReq := none }
  | _ => s

/-- The cycle in which a record was bound. -/
def State.boundCycle (s : State) (idx : Nat) : Nat := mapGet 0 s.cl.boundAt idx
/-- Is victim a preferred to victim b: lower CLASS, then bound later, then the higher number (R347)? -/
def State.victimBefore (s : State) (a b : CtxId) : Bool :=
  match (s.getCtx a).bound, (s.getCtx b).bound with
  | some x, some y =>
    let cx := recClass x.word1
    let cy := recClass y.word1
    decide (cx < cy) || (cx = cy && (decide (s.boundCycle y.idx < s.boundCycle x.idx)
      || (s.boundCycle x.idx = s.boundCycle y.idx && decide (b.val < a.val))))
  | _, _ => false
/-- The victim on a core for record X (R347). -/
def State.victim (s : State) (core : CoreId) (w1 : Word) : Option CtxId :=
  let ok (c : CtxId) : Bool :=
    let x := s.getCtx c
    (x.st = .ready || x.st = .issued || x.st = .blocked) && s.fits c w1
      && (x.bound.any fun b => decide (recClass b.word1 < recClass w1))
  ((coreCtxs core).filter ok).foldl (fun m c => match m with
    | none => some c
    | some v => if s.victimBefore c v then some c else some v) none

/-- PREEMPT_DECISION, R334, R347. -/
def execPreemptDecision (r : Nat) (s : State) : Out :=
  .next (s.atBoundary (.preemptDecision r) fun s =>
    let w1 := s.recView r 1
    if !(s.queued.any fun e => e.idx = r) || (s.idleFor w1).isSome || !s.cl.preempting.isEmpty then s
    else match s.decide' (.preempt r) with
      | (.vict j, s) =>
        match s.victim (Fin.ofNat 4 j) w1 with
        | none => s
        | some v => (s.updCl fun c => { c with preempting := [v] }).stopBy v .preempt
      | (_, s) => s)

/-! ### FAULT (R348) -/

/-- The held record of a context. -/
def State.heldRec (s : State) (c : CtxId) : Option QRec :=
  (s.getCore (coreOf c)).tq.find? fun r => r.record.ctx = numOf c
/-- It changed, or removed where `f` answers none. -/
def State.updHeld (s : State) (c : CtxId) (f : QRec → Option QRec) : State :=
  s.updCore (coreOf c) fun k => { k with tq := k.tq.filterMap fun r => if r.record.ctx = numOf c then f r else some r }
/-- PARK: the context is released, its record SUSPENDED until a wake (R348). -/
def State.parkRelease (s : State) (c : CtxId) : State :=
  let b := (s.getCtx c).bound
  let s := (s.updCtx c fun x => { x with retry := RetryLatch.reset }).toIdle c
  match b with
  | none => s
  | some b => s.putRec b.idx 0 (setBits (setBits (s.recWord b.idx 0) 60 4 3) 56 4 4)
/-- The reaping that a decision has begun ends once the context's operations have completed (R324, R348). -/
def State.endReap (s : State) (c : CtxId) (how : Fin 3) : State :=
  if !s.opsDone c then s.post (.faultDecision c)
  else
    let s := s.updHeld c fun _ => none
    match how with
    | 0 => s.release c true
    | 1 => s.release c false
    | _ => s.parkRelease c
/-- The context is reaped (R348). -/
def State.beginReap (s : State) (c : CtxId) (how : Fin 3) : State :=
  ((s.updHeld c fun r => some { r with hold := .reap how }).cancelTasks c).endReap c how
/-- The record is released to context 0 (R348). -/
def State.escalate (s : State) (c : CtxId) : State := s.updHeld c fun r => some { r with hold := .none }

/-- FAULT_DECISION, R334, R348: with SIDE set, REQUEUE and PARK are ESCALATE. -/
def execFaultDecision (c : CtxId) (s : State) : Out :=
  .next (match s.heldRec c with
    | none => s
    | some r => match r.hold with
      | .reap how => if s.running then s.endReap c how else s
      | .decision => s.atBoundary (.faultDecision c) fun s =>
        let side := (s.getCtx c).side
        match s.decide' (.fault c) with
        | (.fate 0, s) => if side then s.escalate c else s.beginReap c 2
        | (.fate 1, s) => s.beginReap c 0
        | (.fate 2, s) => if side then s.escalate c else s.beginReap c 1
        | (_, s) => s.escalate c
      | _ => s)

/-! ### Loading and swapping (R331, R349) -/

/-- The 16-bit instructions at an offset. -/
def State.progAt (s : State) (o n : Nat) : List (BitVec 16) :=
  (List.range n).map fun i => BitVec.ofNat 16 (s.num (o + 2 * i) 2)

/-- R331: count, address, load rules, in this order. -/
def execPolld (d a b : GNum) (fa fb : Bool) (s : State) : Out :=
  .next (s.priv fun s => s.srcG fa a fun A s => s.srcG fb b fun B s =>
    let n := B.toNat
    let o := offOf A
    if n = 0 || decide (256 < n) then s.putG 4 d 6
    else if !ownForm s.me A || o % 2 ≠ 0 || !inSpad o (2 * n) || !s.spadAllowed true .rd o (2 * n) then s.putG 4 d 3
    else if s.badWord o (2 * n) then s.trapEa 0x19 A
    else s.readSpan s (fun s =>
      let prog := s.progAt o n
      if !policyOk prog then s.putG 4 d 6
      else (s.updPol fun p => { p with shadow := some prog }).putG 4 d 0) (granulesOf o (2 * n)))

/-- R331: the swap is asked for, and the instruction waits for it. -/
def execPolsw (d a : GNum) (fa : Bool) (s : State) : Out :=
  .next (s.priv fun s => s.srcG fa a fun A s =>
    if s.ctx.begun then s.putG 4 d 0
    else if s.cl.policy.shadow.isNone || s.cl.policy.swapKeep.isSome then s.putG 4 d 1
    else
      let s := (s.updPol fun p => { p with swapKeep := some (bits A 0 1 = 1) }).postOnce .policySwap
      (s.upd fun x => { x with begun := true }).block .policySwap)

/-- POLICY_SWAP, R349. -/
def execPolicySwap (s : State) : Out :=
  .next (match s.cl.policy.swapKeep, s.cl.policy.shadow with
    | some keep, some prog => s.updPol fun p =>
      { p with prog := prog, shadow := none, swapKeep := none, overruns := [], disabled := false,
               pw := if keep then p.pw else Vector.replicate 16 0 }
    | _, _ => s)

end Sys2Proof.Machine
end

