-- ==== Sys2Proof/Machine/Security.lean ====
section
/-!
DEFINITION. Sys2Proof/Machine/Security.lean: the security core: commands as they run (R431, R432), owner registers (R397),
measurements, signatures and receipts (R404, R405, R410), launch (R39, R93, R101, R350, R374, R381, R397, R398), teardown and
scrubbing (R387, R409), TDISP (R408), resets (R429, R430).
-/
namespace Sys2Proof.Machine

/-! ### Functions and commands (R431, R432) -/

/-- The security core changed. -/
def State.updFw (s : State) (f : Firmware → Firmware) : State := s.updMod fun m => { m with fw := f m.fw }
/-- A function of the host interface. -/
def State.fn (s : State) (f : Fin 17) : Fn := s.mod.fw.fns[f]
/-- It changed. -/
def State.updFn (s : State) (f : Fin 17) (g : Fn → Fn) : State := s.updFw fun w => { w with fns := w.fns.set f (g w.fns[f]) }

/-- The common part of a command. -/
def cmdOf : Instr → Option Cmd
  | .status c | .warmreset c | .featset c _ _ | .podcfg c _ | .linkcfg c _ | .linkstat c | .launch c _ | .teardown c _ _ _ _
  | .kill c _ | .wake c _ | .rejoin c _ | .revoke c _ _ | .ingestkey c _ _ _ | .quote c _ _ | .dumpget c _ _ | .checkpoint c _
  | .restore c _ | .bias c _ _ _ | .evtcfg c _ _ | .monread c | .pwrlim c _ | .debug c _ _ | .commandUnknown c => some c
  | _ => none

/-- RESULT codes (R431). -/
def resDone : Nat := 0
/-- BUSY. -/
def resBusy : Nat := 1
/-- REFUSED. -/
def resRefused : Nat := 2
/-- BADARG. -/
def resBadArg : Nat := 3
/-- DENIED. -/
def resDenied : Nat := 4
/-- ABORTED. -/
def resAborted : Nat := 5
/-- UNKNOWN. -/
def resUnknown : Nat := 6

/-- OPC of a 64-byte write to the command port, and the rest of it (R431): word 0 holds SEQ and OPC, word 1 ARGA, word 2 ARGL, word 3 RSPA;
reserved bits are ignored (R7). -/
def commandWrite (fn : Fin 17) (w : Vector Word 8) : Nat × Cmd :=
  (bits w[0] 0 16, ⟨fn, bits w[0] 32 32, w[1].toNat, bits w[2] 0 32, w[3].toNat⟩)
/-- The command codes (R432). -/
def opcOf : Instr → Option Nat
  | .status _ => some 0x0001
  | .warmreset _ => some 0x0002
  | .featset _ _ _ => some 0x0010
  | .podcfg _ _ => some 0x0020
  | .linkcfg _ _ => some 0x0021
  | .linkstat _ => some 0x0022
  | .launch _ _ => some 0x0030
  | .teardown _ _ _ _ _ => some 0x0031
  | .kill _ _ => some 0x0032
  | .wake _ _ => some 0x0033
  | .rejoin _ _ => some 0x0034
  | .revoke _ _ _ => some 0x0035
  | .ingestkey _ _ _ _ => some 0x0036
  | .quote _ _ _ => some 0x0037
  | .dumpget _ _ _ => some 0x0038
  | .checkpoint _ _ => some 0x0040
  | .restore _ _ => some 0x0041
  | .bias _ _ _ _ => some 0x0042
  | .evtcfg _ _ _ => some 0x0050
  | .monread _ => some 0x0060
  | .pwrlim _ _ => some 0x0061
  | .debug _ _ _ => some 0x0070
  | _ => none
/-- Longest argument block (R431). -/
def argMax : Nat := 2 ^ 20

/-- The next command of a function that waits is taken, once the module is READY (R429, R431). -/
def State.nextCmd (s : State) (fn : Fin 17) : State :=
  if s.mod.fw.boot ≠ 1 || (s.fn fn).busy.isSome then s
  else match s.mod.fw.waiting.find? fun i => (cmdOf i).any fun d => d.fn = fn with
    | none => s
    | some i => (s.updFw fun w => { w with waiting := w.waiting.erase i }).next i
/-- The response record of a command (R431): SEQ, RESULT, the length of its output, the host address of the output, which the module
chooses: free (log 112). -/
def State.respond (s : State) (c : Cmd) (result : Nat) (out : List Byte) : State :=
  let (n, s) := s.draw
  (s.toHost (.response c.fn c.rspA [c.seq, result, out.length, Config.freeNat n % 2 ^ 64] out)).updFn c.fn fun f => { f with busy := none }
/-- A command ends with its response; the next one of its function is taken (R431). -/
def State.finishCmd (s : State) (c : Cmd) (result : Nat) (out : List Byte) : State := (s.respond c result out).nextCmd c.fn
/-- A command goes on after this move. -/
def State.beginCmd (s : State) (c : Cmd) (self : Instr) : State := s.updFn c.fn fun f => { f with busy := some self }
/-- A command arrives: none is accepted before READY or after a failure; those of a function run one at a time (R429, R431). That an
argument block above its limit is a bad argument is the model's choice (log 112). -/
def State.command (s : State) (c : Cmd) (self : Instr) (k : State → State) : State :=
  if s.mod.fw.boot ≠ 1 || s.mod.fw.failed then s
  else if (s.fn c.fn).busy.isSome then s.updFw fun w => { w with waiting := w.waiting ++ [self] }
  else if argMax < c.argL then s.finishCmd c resBadArg []
  else k s
/-- Only the physical function (R432). -/
def State.pf (s : State) (c : Cmd) (k : State → State) : State := if c.fn = 0 then k s else s.finishCmd c resDenied []

/-- A partition. -/
def State.part? (s : State) (id : Nat) : Option Partition := s.mod.parts.find? fun p => p.id = id
/-- The partition that holds a cluster. -/
def State.partOf? (s : State) (cl : ClusterId) : Option Partition := s.mod.parts.find? fun p => p.clusters.contains cl
/-- A function is bound to a partition and in RUN (R432). -/
def State.boundRun (s : State) (f : Fin 17) (p : Partition) : Bool := p.fn = f && (s.fn f).tdisp = .run
/-- A running teardown, or a held one, is ending a partition (R387, R432). Clusters that a rejoin has lost it do not end it (R407). -/
def State.ending (s : State) (id : Nat) : Bool := s.mod.fw.quar.any fun q => q.part = id && q.ends
/-- A function was bound to the partition of a cluster that a teardown is ending, and is in RUN (R387, R432). -/
def State.boundQuar (s : State) (f : Fin 17) (q : Quar) : Bool := q.fn = f && (s.fn f).tdisp = .run
/-- A command of a function bound to a partition: DENIED for others, so for every function where there is no such partition, then BUSY
while a teardown ends it (R432, log 58). -/
def State.forPart (s : State) (c : Cmd) (id : Nat) (k : Partition → State → State) : State :=
  if s.ending id then
    s.finishCmd c (if s.mod.fw.quar.any fun q => q.part = id && q.ends && s.boundQuar c.fn q then resBusy else resDenied) []
  else match s.part? id with
    | none => s.finishCmd c resDenied []
    | some p => if s.boundRun c.fn p then k p s else s.finishCmd c resDenied []

/-! ### Owner registers (R397) -/

/-- The number of a cluster in its module. -/
def ownerKey (cl : ClusterId) : Nat := cl.x.val * 16 + cl.y.val
/-- A FREE owner register. -/
def Owner.free : Owner := ⟨false, 0, 0⟩
/-- The owner register of a cluster of the module. -/
def State.owner (s : State) (cl : ClusterId) : Owner := mapGet Owner.free s.mod.fw.owners (ownerKey cl)
/-- It is written. -/
def State.setOwner (s : State) (cl : ClusterId) (o : Owner) : State :=
  s.updFw fun w => { w with owners := mapSet Owner.free w.owners (ownerKey cl) o }
/-- A cluster of this module that is QUARANTINED or SCRUBBING (R432). -/
def State.clusterBusy (s : State) (cl : ClusterId) : Bool := cl.chip = s.mod.chipid && decide (2 ≤ (s.owner cl).st.toNat)
/-- The 64 bits of an owner register (R397). -/
def Owner.word (o : Owner) : Nat := (if o.lock then 2 ^ 63 else 0) + o.st.toNat * 2 ^ 61 + o.part % 2 ^ 16

/-! ### Measurements, signatures, receipts (R404, R405, R410) -/

/-- MR i extended with a digest. -/
def State.extend (s : State) (i : Fin 8) (d : BitVec 256) : State :=
  s.updFw fun w => { w with mrs := w.mrs.set i (extendMr w.mrs[i] d) }
/-- The beams in skid mode. -/
def State.skidBeams (s : State) : List Nat := (s.mod.link.beams.filter fun b => b.2.nextSkid).map (·.1)
/-- MR2 extended with the security configuration. -/
def State.measureConfig (s : State) : State := s.extend 2 (Config.configDigest s.mod.feat0 s.mod.feat1 s.skidBeams)

/-- Signatures that a key can make: two levels of 2^15 leaves each (R405). The next leaf of the lower tree is the index modulo 2^15, that
of the upper one the index divided by it. -/
def leafCount : Nat := 2 ^ 30
/-- The 5,396 bytes of a signature (R405). -/
def signature (n : Nat) (l : List Byte) : List Byte := (Config.lmsSign n l ++ List.replicate 5396 0).take 5396
/-- A message with its signature. The advanced index is written to monotonic storage first: whether that write fails is free (log 99), and
then no signature is released, as from a key whose leaves are used up (R405). -/
def State.sign (s : State) (l : List Byte) : Option (List Byte) × State :=
  let n := s.mod.fw.leaf
  let (d, s) := s.draw
  if leafCount ≤ n || Config.freeBool d then (none, s)
  else (some (l ++ signature n l), s.updFw fun w => { w with leaf := n + 1 })

/-- A range of a receipt (R410): bytes covered, start, cluster, WIN, METHOD. -/
structure ScrubRange where
  len : Nat
  start : Nat
  cl : ClusterId
  win : Nat
  method : Nat
  deriving DecidableEq, Repr
/-- Its 24 bytes. -/
def ScrubRange.bytes (r : ScrubRange) : List Byte :=
  wordBytes [coords r.cl * 2 ^ 34 + r.win * 2 ^ 32 + r.method, r.start, r.len]
/-- A receipt but for its signature (R410). -/
def receiptBytes (part reason ptag count : Nat) (ranges : List ScrubRange) : List Byte :=
  toLe 4 1 ++ toLe 2 part ++ toLe 1 reason ++ toLe 1 ptag ++ toLe 8 count ++ digestBytes Config.identityDigest
    ++ toLe 4 ranges.length ++ toLe 4 0 ++ ranges.flatMap ScrubRange.bytes
/-- A signed receipt leaves and the receipt count advances; false where no signature is made. -/
def State.receipt (s : State) (part reason ptag : Nat) (ranges : List ScrubRange) : Bool × State :=
  let n := s.mod.fw.receipts + 1
  match s.sign (receiptBytes part reason ptag n ranges) with
  | (none, s) => (false, s)
  | (some l, s) => (true, (s.updFw fun w => { w with receipts := n }).toHost (.receipt l))

/-! ### Launch -/

/-- Limits of the launch parameters (R39, R93, R101, R350, R374, R381) and the features they name (R434). -/
def paramsOk (p : Params) (feat0 : Word) : Bool :=
  decide (64 ≤ p.contMax) && decide (p.contMax ≤ 16384) && p.poolBase % 64 = 0 && inSpad p.poolBase (64 * p.contMax)
    && decide (p.holdCyc ≤ 65535) && !p.supPc.getLsbD 0
    && decide (65536 ≤ p.deferLim) && decide (p.deferLim ≤ 16777216)
    && decide (16 ≤ p.leaseLen) && decide (p.leaseLen ≤ 65536)
    && decide (4096 ≤ p.ageMax) && decide (p.ageMax ≤ 2 ^ 28) && decide (1 ≤ p.preemptMin) && decide (p.preemptMin ≤ 8)
    && p.polOff % 2 = 0 && decide (p.polCnt ≤ 256) && inSpad p.polOff (2 * p.polCnt)
    && p.troot % 512 = 0 && decide (p.troot + 512 ≤ 2 ^ 31)
    && decide (p.logMax ≤ 1023) && p.logBase % 4096 = 0 && p.logdBase % 32 = 0 && p.cmapBase % 8 = 0
    && inSpad p.logBase 1 && inSpad p.logdBase 1 && inSpad p.cmapBase 1024
    && (p.logMax = 0 || (inSpad p.logBase (4096 * p.logMax) && inSpad p.logdBase (32 * p.logMax)))
    && p.dumpOff % 8192 = 0 && (inSpad p.dumpOff 557056 || inHbm p.dumpOff 557056)
    && (!p.twin || feat0.getLsbD 9) && (!p.fused || feat0.getLsbD 10) && (p.logMax = 0 || feat0.getLsbD 11)

/-- The member list of an entry in this cluster's memory (R35). -/
def State.listedMembers (s : State) (g : List Word) : List Nat :=
  (List.range (bits (g.getD 0 0) 30 15)).map fun j => s.num (bits (g.getD 2 0) 0 23 + 2 * j) 2
/-- Limits of a group table entry of a cluster with its member list (R35); reserved bits are ignored (R7). That an entry with STATE UNUSED
or BROKEN refuses the launch is the model's choice: the table states no such limit (log 95). -/
def groupOk (l : LaunchArgs) (me : ClusterId) (g : Nat × List Word) (ms : List Nat) : Bool :=
  let w (i : Nat) : Word := g.2.getD i 0
  let scope := bits (w 0) 62 2
  let ncl := bits (w 0) 30 15
  let mlist := bits (w 2) 0 23
  decide (g.1 < 256) && scope ≠ 3 && bits (w 0) 60 2 = 1 && ms.length = ncl
    && decide (1 ≤ ncl) && decide (ncl ≤ 16384) && (scope ≠ 0 || ncl = 1) && decide (bits (w 0) 45 15 < ncl)
    && decide (1 ≤ bits (w 0) 0 16) && mlist % 4 = 0 && inSpad mlist (2 * ncl)
    && bits (w 3) 0 23 % 8 = 0
    && ms.all (fun m => l.clusters.contains (ofCoords m))
    && (scope ≠ 1 || ms.all fun m => (ofCoords m).chip = me.chip)
    && ms.getD (bits (w 0) 45 15) 0 % 2 ^ 15 = coords me
/-- Every member of an entry holds its round word at the same offset RWORD (R35): the entries of one index that a launch writes to
clusters of which one lists the other. -/
def rwordsAgree (l : List (ClusterId × Nat × List Word × List Nat)) : Bool :=
  l.all fun a => l.all fun b =>
    a.2.1 ≠ b.2.1 || !(a.2.2.2.any fun m => m % 2 ^ 15 = coords b.1) || bits (a.2.2.1.getD 3 0) 0 23 = bits (b.2.2.1.getD 3 0) 0 23
/-- The limits of R35 on every entry that a launch writes, this cluster's with its member lists in memory. -/
def State.groupsOk (s : State) (l : LaunchArgs) : Bool :=
  let own := if l.clusters.contains s.me then l.groups.map fun g => (s.me, g.1, g.2, s.listedMembers g.2) else []
  (own ++ l.others).all (fun e => groupOk l e.1 (e.2.1, e.2.2.1) e.2.2.2) && rwordsAgree (own ++ l.others)
/-- An entry as this cluster holds it. -/
def groupOf (w : List Word) : Group :=
  let w (i : Nat) : Word := w.getD i 0
  ⟨BitVec.ofNat 2 (bits (w 0) 62 2), BitVec.ofNat 2 (bits (w 0) 60 2), bits (w 0) 45 15, bits (w 0) 30 15, bits (w 0) 0 16,
    (w 1).toNat, bits (w 2) 0 23, bits (w 3) 0 23, 0, false, 0, none, 0, 0, 0⟩

/-- Limits of what a LAUNCH names beside its clusters (R401, R402, R424, R434). What it names of protected save images is SAVECTR (R316,
log 107). -/
def State.launchListsOk (s : State) (l : LaunchArgs) : Bool :=
  l.participants.length = l.participants.eraseDups.length && decide (l.bufs.length ≤ 256)
    && l.bufs.all (fun b => b.start % 8 = 0 && b.len % 8 = 0 && (inSpad b.start b.len || inHbm b.start b.len)
        && l.clusters.contains b.cl && (l.participants.any fun p => p.val = b.ptag))
    && decide (l.hdm.length ≤ 4096) && l.hdm.all (fun h => l.clusters.contains h.1) && (l.hdm.isEmpty || s.mod.feat0.getLsbD 14)
    && (l.savectr = 0 || s.mod.feat0.getLsbD 15)
    && l.regions.all fun r => decide (r.1 < 16)

/-- The scratchpad scrubbed by the launch: zero, full (R391, R394, R409). -/
def State.scrubSpad (s : State) : State :=
  s.updMem fun m => { m with
    cells := m.cells.filter (fun c => decide (2 ^ 32 ≤ c.1)), feEmpty := [], bad := m.bad.filter fun a => decide (2 ^ 32 ≤ a) }
/-- The scratchpad scrubbed and the images written (R391, R404). -/
def State.putImages (s : State) (l : LaunchArgs) : State :=
  let s := s.scrubSpad
  let s := l.images.foldl (fun s i => if inSpad i.1 i.2.length then s.putBytes i.1 i.2 else s) s
  let s := l.hbm.foldl (fun s i => if i.1 + i.2.length ≤ 2 ^ 31 then s.putBytes (hbmLo + i.1) i.2 else s) s
  s.updMem fun m => { m with stale := [] }

/-- A context at launch: IDLE, clock 0; context 0 READY at SUP_PC. The registers that nothing names are free (log 5). -/
def Ctx.atLaunch (x : Ctx) (c : CtxId) (p : Params) (n : Nat) : Ctx :=
  let x := ({ x with fresh := false }.clearWait).freeRegs n
  { x with
    st := if numOf c = 0 then .ready else .idle
    pc := p.supPc, repidx := 0, clk := 0, drawn := 0, expb := 0, rcvb := 0, latch := 0
    lcore := BitVec.ofNat 10 (p.lcluster.toNat * 4 + (coreOf c).val)
    bound := none, stopReq := none, susp := none, retry := RetryLatch.reset, spl := SparsityLatch.reset
    tl := Vector.replicate 4 Timeline.reset
    atomicDone := false, side := false, debug := false, fresh := true, lag := false, latchPc := 0 }

/-- A region word (R328): permission bits 62:56 over the 256-byte units of a span. -/
def regionWord (perm o n : Nat) : Word :=
  BitVec.ofNat 64 (2 ^ 63 + perm * 2 ^ 56 + (o + n - 1) / 256 * 2 ^ 32 + o / 256)
/-- The regions that the launch writes and locks (R354): the pool, which S level reads and writes (R18), the log descriptors and the logs,
which S level reads and nobody writes, the cocoon map for S level. They take the lowest numbers, so that no other region
comes before them (log 96). -/
def lockedRegions (p : Params) : List Word :=
  [regionWord 0x0C p.poolBase (64 * p.contMax), regionWord 0x0C p.cmapBase 1024]
    ++ (if p.logMax = 0 then [] else [regionWord 0x08 p.logdBase (32 * p.logMax), regionWord 0x08 p.logBase (4096 * p.logMax)])
/-- The regions of a launch: the locked ones, then those that LAUNCH names under other numbers. -/
def launchRegions (v : Vector Word 16) (p : Params) (l : List (Nat × Word)) : Vector Word 16 :=
  let locked := lockedRegions p
  let v := l.foldl (fun v r => v.setIfInBounds r.1 r.2) v
  fillVec v fun i => locked.getD i (v.getD i 0)

/-- The cluster modelled joins a partition (R13, R16, R18, R35, R39, R94, R95, R340, R349, R354). -/
def State.launchOwn (s : State) (l : LaunchArgs) : State :=
  let p := l.par
  let (n, s) := s.drawN (64 * 1024)
  let s := { s with
    ctxs := fillVec s.ctxs fun i => (s.ctxs[i]?.getD Ctx.reset).atLaunch (Fin.ofNat 64 i) p (n + 1024 * i)
    cores := fillVec s.cores fun i =>
      let k := s.cores[i]?.getD Core.reset
      { Core.reset with gated := k.gated, dbgHalt := k.dbgHalt, nseq := k.nseq }
    eng := { Engines.reset with nextOp := s.eng.nextOp }
    agenda := s.agenda.filter fun i => !diesWithCluster i }
  let prog := if p.polCnt = 0 then [] else s.progAt p.polOff p.polCnt
  let s := s.updCl fun c => { c with
    par := { p with prlock := BitVec.ofNat 16 (2 ^ (lockedRegions p).length - 1) }, part := some l.part, members := l.clusters, cclk := 0, queues := Vector.replicate 8 [], suspended := [],
    boundAt := [], recOld := [], noned := [], marks := [], ties := [], wb := [], nonces := [], policy := { Policy.reset with prog := prog }, preempting := [],
    groups := l.groups.map fun g => (g.1, groupOf g.2), watches := [],
    regions := launchRegions c.regions p l.regions,
    outst := [], watchOut := [], outAmsg := [], feLast := [], revoked := [], killed := false, recalls := [], pending := [],
    logMarks := [], slotSent := [], tinvWait := [], heldPull := [], heldLine := [], serving := [] }
  s.updMem fun m => { m with stamps := [], tlb := [] }

/-- The clusters of a LAUNCH can be taken: FREE, with their limits kept. The images stand in s already. -/
def State.launchOk (s : State) (l : LaunchArgs) : Bool :=
  decide (1 ≤ l.part) && decide (l.part ≤ 65535) && (s.part? l.part).isNone && !l.clusters.isEmpty
    && l.clusters.all (fun cl => cl.chip ≠ s.mod.chipid || (s.owner cl).st = 0)
    && paramsOk l.par s.mod.feat0 && s.launchListsOk l
    && s.groupsOk l
    && (!l.clusters.contains s.me || l.par.polCnt = 0 || policyOk (s.progAt l.par.polOff l.par.polCnt))

/-- The module's side of a launch (R397, R398, R404, R424). -/
def State.launchModule (s : State) (l : LaunchArgs) : State :=
  let s := s.measureConfig
  let mr (w : Firmware) (i : Nat) : BitVec 256 := if decide (i < 3) then (w.mrs[i]?).getD 0 else extendMr 0 (Config.launchDigest i l)
  let s := s.updFw fun w => { w with
    launched := true, keys := w.keys + 1, mrs := fillVec w.mrs (mr w), lives := w.lives.filter fun p => p.1 / 128 ≠ l.part }
  let s := (l.clusters.filter fun cl => cl.chip = s.mod.chipid).foldl (fun s cl => s.setOwner cl ⟨true, 1, l.part⟩) s
  let p : Partition := ⟨l.part, l.fn, l.clusters, l.participants.map (·.val), [], [], [], l.bufs, [],
    l.hdm.map fun h => ⟨h.1, h.2, false⟩, l.savectr, l.par.dumpOff, s.mod.fw.keys, l.agreed, s.mod.fw.mrs.toList⟩
  s.updMod fun m => { m with parts := m.parts ++ [p] }

/-! ### Teardown and scrubbing (R387, R409) -/

/-- Clusters of this module leave a partition and are QUARANTINED; their scrubs begin unless HOLD is set (R387). -/
def State.quarantine (s : State) (own : List ClusterId) (q : ClusterId → Quar) (hold : Bool) : State :=
  let s := s.updFw fun w => { w with quar := w.quar ++ own.map q }
  let s := own.foldl (fun s cl => s.setOwner cl ⟨false, 2, 0⟩) s
  if hold then s else own.foldl (fun s cl => s.next (.scrubStart cl)) s

/-- A partition ends (R387): its clusters are killed and QUARANTINED, its groups BROKEN, relays drop its messages; scrubs begin
unless HOLD is set. `reason` and `ptag` stand in the receipts (R410). -/
def State.tearDown (s : State) (p : Partition) (spad hbm : Nat) (hold : Bool) (reason ptag : Nat) (cmd : Option Cmd) : State :=
  let own := p.clusters.filter fun cl => cl.chip = s.mod.chipid
  let s := if p.clusters.contains s.me then s.dropHostLines fun _ => true else s
  let s := if p.clusters.contains s.me && !s.cl.killed then s.killOwn else s
  let s := if p.clusters.contains s.me then
      (s.cl.groups.foldl (fun s g => if g.2.st = 1 then s.breakGroup g.1 else s) s).updCl fun c => { c with part := none }
    else s
  let s := s.updLink fun k => { k with relay := k.relay.filter fun m => !p.clusters.contains m.msg.src && !p.clusters.contains m.msg.dst }
  let s := s.updMod fun m => { m with parts := m.parts.filter fun q => q.id ≠ p.id }
  s.quarantine own (fun cl => ⟨cl, p.id, p.fn, true, spad, hbm, hold, reason, ptag, p.dumpOff, cmd⟩) hold

/-- Every partition of an interface that goes to ERROR, or of the module (R408, R430). -/
def State.tearDownAll (s : State) (hit : Partition → Bool) : State :=
  (s.mod.parts.filter hit).foldl (fun s p => s.tearDown p 0 1 false 0 0xFF none) s

/-- SCRUB_START, R387: the owner register reads SCRUBBING. -/
def execScrubStart (cl : ClusterId) (s : State) : Out :=
  .next (
    if (s.owner cl).st = 2 && s.mod.fw.quar.any fun q => q.cl = cl && !q.hold then
      (s.setOwner cl ⟨false, 3, 0⟩).post (.scrubCompletion cl)
    else s)

/-- The memory of the cluster modelled after a scrub (R409). After KEYDROP what HBM reads as is not known (log 32), but for a dump area
that lies in pinned pages of the HBM window: it is zeroed as the scratchpad is. -/
def State.scrubOwn (s : State) (hbm : Nat) : State :=
  let (n, s) := s.draw
  let dump := if hbm = 1 && inHbm s.cl.par.dumpOff 557056 then
      (s.rawParts s.cl.par.dumpOff [] (pageParts s.cl.par.dumpOff 557056)).getD [] else []
  let s := s.updMem fun _ => ⟨[], [], [], [], [], [], if hbm = 1 then n + 1 else 0, []⟩
  dump.foldl (fun s p => s.updMem fun m => m.put p.2.1 (List.replicate p.2.2 0)) s

/-- The module after the scrubs of a warm reset (R430): steps 4 to 6 of R429 without HBM training. The schedule that it keeps takes
effect at the next slot boundary after lock. Clusters whose scrub has failed stay QUARANTINED, and the command fails (R405, R409,
log 59). -/
def State.warmFinish (s : State) (cmd : Option Cmd) : State :=
  let result := if s.mod.fw.quar.isEmpty then resDone else resRefused
  let s := s.scrubOwn 0
  let s := { s with
    ctxs := fillVec s.ctxs fun i => { (s.ctxs[i]?.getD Ctx.reset).clearWait with st := .idle, bound := none, stopReq := none, susp := none }
    cores := fillVec s.cores fun i => { (s.cores[i]?.getD Core.reset) with lastIssued := 15, hnd := false, tq := [], fatq := none, halted := false } }
  let s := s.updLink fun l => { l with relay := [], signals := [] }
  let s := s.updCal fun c => { c with sync := false, nslot := 0, guard := false, conf := none, pend := if c.pend.isSome then c.pend else c.conf }
  let s := s.updMod fun m => { m with feat0 := devfeat0, feat1 := devfeat1, hdmLines := [] }
  let s := s.updFw fun w => { w with
    boot := 1, owners := w.quar.foldl (fun l q => mapSet Owner.free l (ownerKey q.cl) ⟨false, 2, 0⟩) [], launched := false, warm := none }
  let s := (List.range 16).foldl (fun s i => s.nextCmd (Fin.ofNat 17 (i + 1))) s
  match cmd with
  | none => s.nextCmd 0
  | some c => s.finishCmd c result []
/-- A scrub of a teardown runs or is about to. -/
def State.scrubbing (s : State) : Bool := s.mod.fw.quar.any fun q => !q.hold
/-- A warm reset takes effect (R430): the module is BOOTING and accepts no command, every partition is torn down, and held clusters are
scrubbed too. -/
def State.warmStart (s : State) : State :=
  let s := s.updFw fun w => { w with boot := 0, quar := w.quar.map fun q => { q with hold := false } }
  let s := s.mod.fw.quar.foldl (fun s q => s.next (.scrubStart q.cl)) s
  s.tearDownAll fun _ => true
/-- A warm reset that waits takes effect once no teardown scrub runs; one under way ends with its last scrub (R430). -/
def State.warmCheck (s : State) : State :=
  match s.mod.fw.warm with
  | none => s
  | some cmd =>
    if s.scrubbing then s
    else
      let s := if s.mod.fw.boot = 1 then s.warmStart else s
      if s.scrubbing then s else s.warmFinish cmd

/-- A warm reset is asked for (R430). One that is asked for while another waits is that same one. -/
def State.warmReset (s : State) (cmd : Option Cmd) : State :=
  match s.mod.fw.warm with
  | some old => s.updFw fun w => { w with warm := some (cmd.or old) }
  | none => (s.updFw fun w => { w with warm := some cmd }).warmCheck

/-- The ranges of a cluster's receipt. -/
def scrubRanges (q : Quar) : List ScrubRange :=
  [⟨0x800000, 0, q.cl, 0, q.spad⟩, ⟨2 ^ 31, 0, q.cl, 1, q.hbm⟩, ⟨557056, q.dumpOff, q.cl, 2, q.spad⟩]

/-- SCRUB_COMPLETION, R387, R397, R409, R410: zero memory, the receipt, FREE. A method 2 scrub that does not read back zero, and a
receipt that cannot be signed, leave the cluster QUARANTINED, and the command that waits for it fails (R405, R409). -/
def execScrubCompletion (cl : ClusterId) (s : State) : Out :=
  .next (match s.mod.fw.quar.find? fun q => q.cl = cl with
    | none => s
    | some q =>
      if (s.owner cl).st ≠ 3 then s
      else
        let (n, s) := s.draw
        let bad := (q.spad = 2 || q.hbm = 2) && Config.freeBool n
        let s := if cl = s.me then s.scrubOwn q.hbm else s
        let fail (s : State) : State :=
          let s := (s.setOwner cl ⟨false, 2, 0⟩).updFw fun w =>
            { w with quar := w.quar.map fun x => if x.cl = cl then { x with hold := true, cmd := none }
                                                 else if x.cmd = q.cmd then { x with cmd := none } else x }
          (match q.cmd with | none => s | some c => s.finishCmd c resRefused []).warmCheck
        if bad then fail s
        else match s.receipt q.part q.reason q.ptag (scrubRanges q) with
          | (false, s) => fail s
          | (true, s) =>
            let s := (s.setOwner cl Owner.free).updFw fun w => { w with quar := w.quar.filter fun x => x.cl ≠ cl }
            let s := match q.cmd with
              | none => s
              | some c => if s.mod.fw.quar.any fun x => x.cmd = some c then s else s.finishCmd c resDone []
            s.warmCheck)

/-! ### TDISP (R408) -/

/-- An interface enters ERROR: its partitions are torn down. -/
def State.tdispError (s : State) (f : Fin 17) : State :=
  (s.updFn f fun x => { x with tdisp := .error }).tearDownAll fun p => p.fn = f

/-- TDISP_CONFIG_LOCK, R408: from CONFIG_UNLOCKED alone; the write-watch bitmap is armed. -/
def execTdispConfigLock (fn : Fin 17) (s : State) : Out :=
  .next (if (s.fn fn).tdisp = .unlocked then s.updFn fn fun x => { x with tdisp := .locked, armed := true } else s)
/-- TDISP_INTERFACE_REQUEST, R408, with the transitions of the TDISP specification (log 35). Leaving RUN or ERROR by a stop ends
the partitions bound to the interface. -/
def execTdispInterfaceRequest (fn : Fin 17) (r : TdispReq) (s : State) : Out :=
  .next (match r, (s.fn fn).tdisp with
    | .lock, .unlocked => s.next (.tdispConfigLock fn)
    | .start, .locked => s.updFn fn fun x => { x with tdisp := .run }
    | .stop, _ => (s.updFn fn fun x => { x with tdisp := .unlocked, armed := false }).tearDownAll fun p => p.fn = fn
    | _, _ => s)
/-- The bitmap marks a register of the management window (R408). Configuration registers are numbered from 0x10000 on; which of
them TDISP makes lockable is its specification's: all (log 35). -/
def markedReg (reg : Nat) : Bool := decide (0x90 ≤ reg)
/-- MARKED_REGISTER_WRITE, R408: the write has no effect; a locked interface goes to ERROR. -/
def execMarkedRegisterWrite (fn : Fin 17) (reg : Nat) (s : State) : Out :=
  .next (if (s.fn fn).armed && markedReg reg && (s.fn fn).tdisp ≠ .error then s.tdispError fn else s)
/-- MGMT_REGISTER_WRITE, R408: a read-only register ignores it; at a register that the armed bitmap marks it is a write to a marked
register. -/
def execMgmtRegisterWrite (fn : Fin 17) (reg : Nat) (s : State) : Out := execMarkedRegisterWrite fn reg s

/-! ### Resets and failures (R429, R430, R437) -/

/-- COLD_RESET, R404, R405, R410, R429: the first step, and the second up to the check of the firmware's signature; the module is BOOTING.
Memory is not scrubbed yet: what HBM reads as is not known. Monotonic storage and the supply of free values go on; events that
other agents have sent are lost. -/
def execColdReset (s : State) : Out :=
  .next (
    let (n, s) := s.draw
    let w := { Firmware.reset with
      boot := 0, mrs := (Vector.replicate 8 0).set 0 (extendMr 0 Config.romDigest)
      leaf := s.mod.fw.leaf, receipts := s.mod.fw.receipts, lives := s.mod.fw.lives, keys := s.mod.fw.keys }
    { State.reset with
      mem := { State.reset.mem with hbmKey := n + 1 }, mod := { Module.reset with fw := w }, draws := s.draws })
/-- A cold reset is under way. -/
def State.booting (s : State) : Bool := s.mod.fw.boot = 0 && s.mod.fw.warm.isNone
/-- It goes on (R404, R409, R429, R436): whether the firmware's signature passes is free. If not, the module stays in step 2 and says FWBAD.
Otherwise the firmware is measured, memory is scrubbed by method 0, the process monitor is read and the module is READY. -/
def State.bootMove (s : State) : State :=
  if !s.booting then s
  else
    let (n, s) := s.drawN 33
    if !Config.freeBool n then s.updFw fun w => { w with boot := 2 }
    else
      let s := { s with mem := State.reset.mem }
      s.updFw fun w => { w with
        boot := 1, mrs := w.mrs.set 1 (extendMr w.mrs[1] Config.firmwareDigest)
        procMon := ((List.range 32).map fun i => Config.freeNat (n + 1 + i), s.mod.cycles) }

/-- FUNCTION_LEVEL_RESET, R430: of the physical function. -/
def execFunctionLevelReset (s : State) : Out := .next (if s.mod.fw.boot ≠ 1 || s.mod.fw.failed then s else s.warmReset none)

/-- The module fails, powered down by a trip or not (R300, R437): it sends, receives and samples nothing more. -/
def State.failModule (s : State) : State :=
  let s := if s.cl.killed then s else s.killOwn
  let s := s.updFw fun w => { w with failed := true }
  s.updCal fun c => { c with sync := false, guard := false }
/-- A trip ends the commands that run with ABORTED (R437). -/
def State.abortAll (s : State) : State :=
  (s.mod.fw.fns.toList.zip (List.range 17)).foldl (fun s f =>
    match f.1.busy.bind cmdOf with
    | none => s
    | some c => s.respond c resAborted []) s

/-- RAIL_EXCURSION, R437. -/
def execRailExcursion (rail : Nat) (s : State) : Out :=
  .next (if s.mod.fw.failed then s else (s.report 0x08 [4, rail, 1]).failModule)

/-- The readings that cross a limit, up (1) or down (0): kind of the threshold, number of the sensor, direction (R437; the details of an
event log 63). -/
def crossings (kind : Nat) (limit : Int) (old new : List Int) : List (List Nat) :=
  ((old.zip new).zip (List.range new.length)).filterMap fun p =>
    if p.1.1 < limit && decide (limit ≤ p.1.2) then some [kind, p.2, 1]
    else if limit ≤ p.1.1 && decide (p.1.2 < limit) then some [kind, p.2, 0]
    else none
/-- Numbers of units of n sensors that have one at a limit. -/
def unitsAt (n : Nat) (limit : Int) (l : List Int) : List Nat :=
  ((l.zip (List.range l.length)).filterMap fun p => if limit ≤ p.1 then some (p.2 / n) else none).eraseDups

/-- SENSOR_SAMPLE, R436 to R438: each crossing is reported; throttles, which change timing only; trips. A module that a trip has powered
down samples nothing. -/
def execSensorSample (x : Sensors) (s : State) : Out :=
  .next (if s.mod.fw.failed then s else
    let old := s.mod.fw.sample.1
    let (oj, oh, j, h) := (old.junction.toList, old.hbm.toList, x.junction.toList, x.hbm.toList)
    let ev := crossings 0 95 oj j ++ crossings 1 105 oj j ++ crossings 2 95 oh h ++ crossings 3 115 oj j ++ crossings 5 105 oh h
    let s := ev.foldl (fun s e => s.report 0x08 e) s
    let hot := unitsAt 16 105 j
    let warm := unitsAt 16 100 j
    let hhot := unitsAt 1 95 h
    let hwarm := unitsAt 1 90 h
    let s := s.updFw fun w => { w with
      sample := (x, s.mod.cycles)
      throttled := hot ++ w.throttled.filter fun d => warm.contains d && !hot.contains d
      hbmHalf := hhot ++ w.hbmHalf.filter fun d => hwarm.contains d && !hhot.contains d
      powerHigh := decide (w.plim < x.power) || (w.powerHigh && decide (97 * w.plim ≤ 100 * x.power)) }
    if (unitsAt 16 115 j).isEmpty && (unitsAt 1 105 h).isEmpty then s else s.abortAll.failModule)

end Sys2Proof.Machine
end

