-- ==== Sys2Proof/Machine/Firmware.lean ====
section
/-!
DEFINITION. Sys2Proof/Machine/Firmware.lean: the firmware commands (R431, R432): features, pod and links, launch and teardown, kill,
wake, rejoin (R407), revocation (R403), keys, quotes (R406), dumps, checkpoints (R428), bias (R425, R426), events, monitors,
debugging.
-/
namespace Sys2Proof.Machine

/-! ### Status, features, monitors -/

/-- STATUS: boot status, owner registers, FEAT0 and FEAT1. -/
def execStatus (c : Cmd) (s : State) : Out :=
  .next (s.command c (.status c) fun s =>
    let owners := (List.range 256).map fun i => (mapGet Owner.free s.mod.fw.owners i).word
    s.finishCmd c resDone (wordBytes (s.mod.fw.boot :: owners ++ [s.mod.feat0.toNat, s.mod.feat1.toNat])))

/-- WARMRESET, R430: it ends when the scrubs have. -/
def execWarmreset (c : Cmd) (s : State) : Out :=
  .next (s.command c (.warmreset c) fun s => s.pf c fun s => (s.beginCmd c (.warmreset c)).warmReset (some c))

/-- FEATSET, R434: before the first LAUNCH only. BASE and every field of FEAT1 are read-only, so FEAT1 stays what DEVFEAT1 is. -/
def execFeatset (c : Cmd) (feat0 feat1 : Word) (s : State) : Out :=
  .next (s.command c (.featset c feat0 feat1) fun s => s.pf c fun s =>
    if s.mod.fw.launched then s.finishCmd c resRefused []
    else (s.updMod fun m => { m with feat0 := (feat0 &&& devfeat0) ||| 7 }).finishCmd c resDone [])

/-- The monitor readings: those of the last sample with its time, the process monitor's counts with theirs (R436), and the error counters
by kind, which firmware commands read (R376; order log 63). -/
def monitorWords (w : Firmware) (errors : List (Nat × Nat)) : List Nat :=
  let x := w.sample.1
  (x.junction.toList ++ x.hbm.toList).map (fun i => (BitVec.ofInt 64 i).toNat) ++ x.rails.flatMap (fun r => [r.1, r.2])
    ++ [x.power, w.sample.2] ++ w.procMon.1 ++ [w.procMon.2] ++ errors.flatMap fun e => [e.1, e.2]
/-- MONREAD, R436: every reading with its sample time. -/
def execMonread (c : Cmd) (s : State) : Out :=
  .next (s.command c (.monread c) fun s =>
    s.finishCmd c resDone (wordBytes (monitorWords s.mod.fw s.cl.errors)))

/-- PWRLIM, R438. -/
def execPwrlim (c : Cmd) (watts : Nat) (s : State) : Out :=
  .next (s.command c (.pwrlim c watts) fun s => s.pf c fun s =>
    if watts < 1200 || 2600 < watts then s.finishCmd c resBadArg []
    else (s.updFw fun w => { w with plim := watts }).finishCmd c resDone [])

/-- EVTCFG, R433: records are written from the start of the new range, counted from 0 (log 63). -/
def execEvtcfg (c : Cmd) (base len : Nat) (s : State) : Out :=
  .next (s.command c (.evtcfg c base len) fun s =>
    (s.updFn c.fn fun f => { f with evtBase := base, evtLen := len, evtCnt := 0 }).finishCmd c resDone [])

/-- An unassigned OPC (R431). -/
def execCommandUnknown (c : Cmd) (s : State) : Out :=
  .next (s.command c (.commandUnknown c) fun s => s.finishCmd c resUnknown [])
/-- PORT_WRITE_DISCARD, R423, R431, R433. -/
def execPortWriteDiscard (fn : Fin 17) (size : Nat) (s : State) : Out := .next (s.report 0x07 [fn.val, size])

/-! ### Pod and links -/

/-- The ranges of R141 and R146. -/
def podRanges (p : PodCfg) : Bool :=
  decide (2000 ≤ podLen p) && decide (podLen p ≤ 64000) && podLen p % 125 = 0
    && decide (250 ≤ podGuard p) && decide (podGuard p ≤ 4000) && podGuard p % 125 = 0 && decide (2 * podGuard p < podLen p)
    && decide (1 ≤ podSlots p) && decide (podSlots p ≤ 127)
    && p.budgets.all fun b => b.2 = 0 || (decide (65 ≤ b.2) && decide (b.2 ≤ 1048575))
/-- The schedule is symmetric and no module names itself (R142). -/
def podSymmetric (p : PodCfg) : Bool :=
  p.tables.all fun t => (List.range (podSlots p)).all fun x => ((t.2.getD x []).take 16).all fun d =>
    match d with
    | none => true
    | some d => d ≠ t.1 && p.tables.any fun u => u.1 = d && !(portsFacing u.2 x t.1.val).isEmpty
/-- PODCFG, R141, R142, R146, R432: applied at the next slot boundary after lock. -/
def execPodcfg (c : Cmd) (p : PodCfg) (s : State) : Out :=
  .next (s.command c (.podcfg c p) fun s => s.pf c fun s =>
    if !podRanges p then s.finishCmd c resBadArg []
    else if !podSymmetric p then s.finishCmd c resRefused []
    else (s.updCal fun k => { k with pend := some p }).finishCmd c resDone [])

/-- A parameter in its range, or not named. -/
def within (lo hi : Nat) : Option Nat → Bool
  | none => true
  | some x => decide (lo ≤ x) && decide (x ≤ hi)
/-- The link parameters after a LINKCFG. -/
def LinkPar.with (p : LinkPar) (l : LinkCfg) : LinkPar :=
  ⟨if l.e2eT.isSome then l.e2eT else p.e2eT, l.e2eN.getD p.e2eN, l.berwin.getD p.berwin, l.degr.getD p.degr, l.restore.getD p.restore,
    l.rwin.getD p.rwin, l.rtMax.getD p.rtMax, l.deadn.getD p.deadn, l.drainR.getD p.drainR⟩
/-- The ranges of R414, R416, R419 and R420; E2E_T in ns. -/
def linkRanges (l : LinkCfg) (p : LinkPar) : Bool :=
  within 100000 100000000 l.e2eT && within 1 15 l.e2eN && within 10000 1000000000 l.berwin && within 1 1000000 l.degr
    && decide ((p.with l).restore < (p.with l).degr) && within 1 256 l.rwin && within 1 255 l.rtMax && within 1 8 l.deadn
    && within 2 8 l.drainR
/-- A wavelength that is out is trained afresh (R416): the command names it by port and beam, whichever module transmits. -/
def State.restartWl (s : State) (b : BeamId) (wl : Fin 8) : State :=
  let train : WlOut := ⟨wl, trainWindows s.mod.link.par.berwin, 0, 0⟩
  let f (x : Nat × Beam) : Nat × Beam :=
    if x.1 % 1024 ≠ beamKey false b then x else (x.1, { x.2 with out := x.2.out.map fun o => if o.wl = wl then train else o })
  s.updLink fun l => { l with beams := l.beams.map f }
/-- LINKCFG, R413, R414, R416, R432: a mode takes effect at the next guard and is measured; out of range changes nothing. -/
def execLinkcfg (c : Cmd) (p : LinkCfg) (s : State) : Out :=
  .next (s.command c (.linkcfg c p) fun s => s.pf c fun s =>
    if !linkRanges p s.mod.link.par then s.finishCmd c resBadArg []
    else if p.skid.any (fun b => b.2) && !s.mod.feat0.getLsbD 13 then s.finishCmd c resRefused []
    else
      let s := s.updLink fun l => { l with par := l.par.with p }
      let mode (tx : Bool) (s : State) (b : BeamId × Bool) : State := s.updBeam (beamKey tx b.1) fun x => { x with nextSkid := b.2 }
      let s := p.skid.foldl (fun s b => mode true (mode false s b) b) s
      let s := p.restart.foldl (fun s r => s.restartWl r.1 r.2) s
      (if p.skid.isEmpty then s else s.measureConfig).finishCmd c resDone [])

/-- LINKSTAT, R418: the counters are read and cleared. -/
def execLinkstat (c : Cmd) (s : State) : Out :=
  .next (s.command c (.linkstat c) fun s => s.pf c fun s =>
    let l := s.mod.link.counters.flatMap (fun x => [x.1, x.2]) ++ s.mod.pairs.flatMap fun p => [p.1, p.2.resend, p.2.gcmfail]
    let s := s.updLink fun k => { k with counters := [] }
    let s := s.updMod fun m => { m with pairs := m.pairs.filterMap fun p =>
      let x := { p.2 with resend := 0, gcmfail := 0 }
      if x = Pair.reset then none else some (p.1, x) }
    s.finishCmd c resDone (wordBytes l))

/-! ### Partitions -/

/-- LAUNCH, R35, R39, R397, R398, R402, R404, R424, R432, R434. -/
def execLaunch (c : Cmd) (l : LaunchArgs) (s : State) : Out :=
  .next (s.command c (.launch c l) fun s => s.pf c fun s =>
    if l.clusters.any s.clusterBusy || s.ending l.part then s.finishCmd c resBusy []
    else
      let own := l.clusters.contains s.me
      let t := if own then s.putImages l else s
      if !t.launchOk l then s.finishCmd c resRefused []
      else
        let t := t.launchModule l
        (if own then t.launchOwn l else t).finishCmd c resDone [])

/-- TEARDOWN, R387, R409, R432: without HOLD it ends when the last scrub has; with HOLD the clusters stay QUARANTINED. A TEARDOWN with
HOLD clear of a held partition starts its scrub. -/
def execTeardown (c : Cmd) (part spadMethod hbmMethod : Nat) (hold : Bool) (s : State) : Out :=
  let self : Instr := .teardown c part spadMethod hbmMethod hold
  .next (s.command c self fun s =>
    let bad := !((spadMethod = 0 || spadMethod = 2) && (hbmMethod = 1 || hbmMethod = 2))
    match s.part? part with
      | some p =>
        if !(c.fn = 0 || s.boundRun c.fn p) then s.finishCmd c resDenied []
        else if s.ending part then s.finishCmd c resBusy []
        else if bad then s.finishCmd c resBadArg []
        else if hold || !(p.clusters.any fun cl => cl.chip = s.mod.chipid) then
          (s.tearDown p spadMethod hbmMethod hold 0 0xFF none).finishCmd c resDone []
        else (s.beginCmd c self).tearDown p spadMethod hbmMethod false 0 0xFF (some c)
      | none =>
        let held := s.mod.fw.quar.filter fun q => q.part = part && q.ends
        if !(c.fn = 0 || held.any (s.boundQuar c.fn)) then s.finishCmd c resDenied []
        else if held.isEmpty then s.finishCmd c resBadArg []
        else if hold || !(held.all fun q => q.hold) then s.finishCmd c resBusy []
        else if bad then s.finishCmd c resBadArg []
        else
          let s := (s.beginCmd c self).updFw fun w => { w with quar := w.quar.map fun q =>
            if q.part = part && q.ends then { q with hold := false, spad := spadMethod, hbm := hbmMethod, cmd := some c } else q }
          held.foldl (fun s q => s.next (.scrubStart q.cl)) s)

/-- A function is bound to the partition that a cluster is in or is leaving, and is in RUN. -/
def State.boundCluster (s : State) (f : Fin 17) (cl : ClusterId) : Bool :=
  (s.partOf? cl).any (s.boundRun f) || s.mod.fw.quar.any fun q => q.cl = cl && s.boundQuar f q
/-- A command that names one cluster of a partition bound to its function: DENIED for others, then BUSY for a cluster QUARANTINED or
SCRUBBING (R432, log 58). -/
def State.forCluster (s : State) (c : Cmd) (cl : ClusterId) (k : State → State) : State :=
  if !s.boundCluster c.fn cl then s.finishCmd c resDenied []
  else if s.clusterBusy cl then s.finishCmd c resBusy []
  else k s

/-- KILL, R384, R432. -/
def execKill (c : Cmd) (cl : ClusterId) (s : State) : Out :=
  .next (s.command c (.kill c cl) fun s => s.forCluster c cl fun s => (s.next (.clusterKill cl)).finishCmd c resDone [])

/-- Slots of the cocoon map that still hold a page (R364). -/
def State.mapped (s : State) : List Word :=
  ((List.range 128).map fun i => s.word (s.cl.par.cmapBase + 8 * i)).filter fun w => bits w 63 1 = 1
/-- WAKE, R364, R432: the owners are asked to recall the pages the cluster holds; the command ends when every V is 0. -/
def execWake (c : Cmd) (cl : ClusterId) (s : State) : Out :=
  .next (s.command c (.wake c cl) fun s => s.forCluster c cl fun s =>
    if cl ≠ s.me || s.mapped.isEmpty then s.finishCmd c resDone []
    else s.mapped.foldl (fun s w => s.send (ofCoords (bits w 32 15)) 0 (.recallPage (bits w 0 20))) (s.beginCmd c (.wake c cl)))

/-- A group is reformed (R407): OPEN, PHASE the largest of any member, no arrivals; its round word becomes PHASE × ROUNDS. -/
def State.reform (s : State) (idx phase : Nat) : State :=
  match s.group? idx with
  | none => s
  | some g =>
    if g.st ≠ 2 then s
    else
      let ph := max g.phase phase
      let s := s.updGroup idx fun g =>
        { g with st := 1, phase := ph, lcount := 0, partDone := false, round := 0, rtag := none, arrT := 0 }
      s.putBytes g.rword (toLe 8 (ph * g.rounds))

/-- The pair state with a module starts afresh (R407, R420). -/
def State.rejoinPair (s : State) (chip : Fin 128) : State :=
  let s := s.updPair chip.val fun p =>
    { p with lost := none, drained := false, cleared := false, down := 0, nextSeq := 0, recvNext := 0, held := [], skipped := [] }
  s.updLink fun l => { l with floods := l.floods.filter fun f => f.1 ≠ chip }

/-- A partition as a module that has reset takes it over from its other members (R398, R407). -/
def memberPartition (m : Membership) (id : Nat) : Partition :=
  ⟨id, m.fn, m.clusters, m.participants, m.revoked, [], [], [], [], [], m.savectr, m.par.dumpOff, m.pk, false, m.mset⟩
/-- The cluster modelled comes back: memory scrubbed, every context IDLE, message counters from 0, its groups BROKEN until they are
reformed (R399, R407). -/
def State.rejoinCluster (s : State) (id : Nat) (m : Option Membership) : State :=
  let s := s.scrubOwn 0
  let s := { s with ctxs := fillVec s.ctxs fun i =>
    { (s.ctxs[i]?.getD Ctx.reset).clearWait with st := .idle, bound := none, stopReq := none, susp := none } }
  s.updCl fun k => { k with
    killed := false, part := some id, queues := Vector.replicate 8 [], suspended := [], marks := [], ties := [], recOld := [], nonces := []
    par := (m.map (·.par)).getD k.par
    members := (m.map (·.clusters)).getD k.members
    revoked := (m.map (·.revoked)).getD k.revoked
    groups := match m with
      | some m => m.groups.map fun g => (g.1, { groupOf g.2 with st := 2 })
      | none => k.groups }
/-- This module's own clusters return (R407): ASSIGNED, the pair state with every module afresh. -/
def State.rejoinOwn (s : State) (p : Partition) (m : Option Membership) : State :=
  let s := (p.clusters.filter fun cl => cl.chip = s.mod.chipid).foldl (fun s cl => s.setOwner cl ⟨true, 1, p.id⟩) s
  let s := if (s.part? p.id).isSome then s else s.updMod fun k => { k with parts := k.parts ++ [p] }
  let s := s.mod.pairs.foldl (fun s q => s.rejoinPair (Fin.ofNat 128 q.1)) s
  if p.clusters.contains s.me then s.rejoinCluster p.id m else s
/-- A module whose measurements differ is refused (R407): its clusters leave the partition, whose rest runs on, and are QUARANTINED and
scrubbed. -/
def State.refuseRejoin (s : State) (p : Partition) (chip : Fin 128) : State :=
  let s := s.updPart p.id fun p => { p with clusters := p.clusters.filter fun cl => cl.chip ≠ chip }
  if chip ≠ s.mod.chipid then s
  else
    let s := if p.clusters.contains s.me then s.updCl fun c => { c with part := none } else s
    s.quarantine (p.clusters.filter fun cl => cl.chip = chip) (fun cl => ⟨cl, p.id, p.fn, false, 0, 1, false, 0, 0xFF, p.dumpOff, none⟩) false

/-- REJOIN, R398, R399, R407: refused when any register of the module's quote differs from the partition's measurement set, when its life
number would pass 65,535, or when the receipt of its scrub cannot be signed (R405, R410). -/
def execRejoin (c : Cmd) (r : RejoinArgs) (s : State) : Out :=
  .next (s.command c (.rejoin c r) fun s => s.pf c fun s =>
    let own := decide (r.chip = s.mod.chipid)
    if s.ending r.part then s.finishCmd c resBusy []
    else match (s.part? r.part).or (if own then r.member.map fun m => memberPartition m r.part else none) with
      | none => s.finishCmd c resBadArg []
      | some p =>
        let key := 128 * r.part + r.chip.val
        let life := mapGet 0 s.mod.fw.lives key
        let mine := p.clusters.filter fun cl => cl.chip = r.chip
        if mine.isEmpty then s.finishCmd c resBadArg []
        else if own && mine.any fun cl => s.clusterBusy cl || ((s.owner cl).st = 1 && (s.owner cl).part ≠ r.part) then s.finishCmd c resBusy []
        else if r.quote ≠ p.mset then (s.refuseRejoin p r.chip).finishCmd c resRefused []
        else if 65535 ≤ life then s.finishCmd c resRefused []
        else
          let ranges := mine.flatMap fun cl => scrubRanges ⟨cl, p.id, p.fn, false, 0, 0, false, 0, 0xFF, p.dumpOff, none⟩
          let (ok, s) := if own then s.receipt r.part 0 0xFF ranges else (true, s)
          if !ok then s.finishCmd c resRefused []
          else
            let s := s.updFw fun w => { w with lives := mapSet 0 w.lives key (life + 1) }
            let s := if own then s.rejoinOwn p r.member else s.rejoinPair r.chip
            (if s.cl.part = some r.part then r.groups.foldl (fun s g => s.reform g.1 g.2) s else s).finishCmd c resDone [])

/-! ### Revocation (R403) -/

/-- Contexts that hold a record of participant p. -/
def State.ctxsOf (s : State) (p : Nat) : List CtxId := allCtxs.filter fun c =>
  !s.isTrailer c && (s.getCtx c).bound.any fun b => b.ptag.val = p
/-- One of them stops at its next boundary; a FAULTED one loses its record, a fatal one too, with no (further) dump. -/
def State.stopRevoked (s : State) (c : CtxId) : State :=
  let x := s.getCtx c
  match x.st with
  | .ready => s.updCtx c fun x => { x with st := .stopped, stopReq := none }
  | .issued => s.updCtx c fun x => { x with stopReq := x.stopReq.or (some .revoke) }
  | .blocked =>
    if x.susp.isSome || s.agenda.contains (.twinRestart c) then s.updCtx c fun x => { x with stopReq := x.stopReq.or (some .revoke) }
    else (s.abandonWait c).updCtx c fun x => { x with st := .stopped, stopReq := none }
  | .faulted =>
    let s := (s.updCore (coreOf c) fun k => { k with tq := k.tq.filter fun r => r.record.ctx ≠ s.leaderNum c }).cancel (.faultDecision c)
    (s.dropFatal c).updCtx c fun x => { x.clearWait with st := .stopped }
  | _ => s
/-- Its host writes that have not entered the link are dropped. -/
def State.dropSends (s : State) (c : CtxId) : State :=
  (s.eng.copies.filter fun o => o.owner = c && o.kind = .hsend && decide (o.row < o.rows)).foldl
    (fun s o => (s.updCopy o.id fun x => { x with row := x.rows }).copySettled o.id) s

/-- The records of a participant that no context holds become FREE; cached images of them are dropped. -/
def State.freeRevoked (s : State) (p : Nat) : State :=
  (List.range s.cl.par.contMax).foldl (fun s i =>
    let st := s.recState i
    let held := allCtxs.any fun c => (s.getCtx c).bound.any fun b => b.idx = i
    if st ≠ 0 && !held && bits (s.recWord i 0) 48 6 = p then
      let s := s.freeRec i
      if st ≠ 2 then s
      else { s with cores := fillVec s.cores fun k =>
        let x := s.cores[k]?.getD Core.reset
        { x with tcc := fillVec x.tcc fun j => (x.tcc[j]?.getD none).bind fun e => if imgCrec e.img = i then none else some e } }
    else s) s

/-- An ingest buffer in this cluster reads zero, full, at time 0, as far as its pages are resident (R403, R409). -/
def State.scrubBuf (s : State) (b : IngestBuf) : State :=
  let s := (pageParts b.start b.len).foldl (fun s q =>
    match s.rawParts b.start [] [q] with
    | none => s
    | some parts =>
      let s := parts.foldl (fun s p => s.putBytes p.2.1 (List.replicate p.2.2 0)) s
      (granulesOf (b.start + q.1) q.2).foldl (fun s g => s.setStamp g 0 0) s) s
  if inSpad b.start b.len then (List.range (b.len / 8)).foldl (fun s i => s.setFE (b.start / 8 + i) true) s else s
/-- The HBM pages of an ingest buffer. -/
def bufPages (b : IngestBuf) : List Nat :=
  if inHbm b.start b.len then (pageParts b.start b.len).map fun q => (b.start + q.1 - hbmLo) / 2 ^ 16 else []
/-- The ingest buffers of a participant, in every cluster. -/
def State.bufsOf (s : State) (part ptag : Nat) : List IngestBuf :=
  ((s.part? part).map fun p => p.bufs.filter fun b => b.ptag = ptag).getD []
/-- Those of this cluster. -/
def State.ownBufs (s : State) (part ptag : Nat) : List IngestBuf := (s.bufsOf part ptag).filter fun b => b.cl = s.me

/-- REVOKE, R403, R410, R432: the revocation cycle; in a killed cluster nothing moves any more (R15, R386). Pages of its buffers that are
not resident are recalled. The command ends when no context holds a record of the participant and its buffers are
scrubbed. -/
def execRevoke (c : Cmd) (part : Nat) (ptag : Fin 64) (s : State) : Out :=
  .next (s.command c (.revoke c part ptag) fun s => s.forPart c part fun p s =>
    if !p.participants.contains ptag.val then s.finishCmd c resBadArg []
    else
      let s := s.updPart part fun p => { p with revoked := insNat p.revoked ptag.val }
      let s := s.beginCmd c (.revoke c part ptag)
      if s.cl.part ≠ some part || s.cl.killed then s
      else
        let s := s.updCl fun k => { k with revoked := insNat k.revoked ptag.val }
        let s := (s.ctxsOf ptag.val).foldl (fun s c => ((s.cancelTasks c).stopRevoked c).dropSends c) s
        let s := s.freeRevoked ptag.val
        (s.ownBufs part ptag.val).foldl (fun s b =>
          ((bufPages b).filter fun v => !s.pageResident v).foldl (fun s v => s.triggerRecall v) (s.scrubBuf b)) s)

/-- INGESTKEY, R401: the key comes wrapped; one that fails its check is a bad argument. -/
def execIngestkey (c : Cmd) (part : Nat) (ptag : Fin 64) (key : Nat) (s : State) : Out :=
  .next (s.command c (.ingestkey c part ptag key) fun s => s.forPart c part fun p s =>
    if !p.participants.contains ptag.val then s.finishCmd c resBadArg []
    else match Config.ingestUnwrap c.fn.val key with
      | none => s.finishCmd c resBadArg []
      | some k =>
        (s.updPart part fun p => { p with ikeys := p.ikeys.filter (fun x => x.1 ≠ ptag.val) ++ [(ptag.val, k)] }).finishCmd c resDone [])

/-- QUOTE, R405, R406. -/
def execQuote (c : Cmd) (part nonce : Nat) (s : State) : Out :=
  .next (s.command c (.quote c part nonce) fun s => s.forPart c part fun p s =>
    let l := toLe 4 1 ++ toLe 2 part ++ toLe 2 0 ++ toLe 32 nonce ++ s.mod.fw.mrs.toList.flatMap digestBytes
      ++ toLe 8 p.savectr ++ toLe 8 s.mod.fw.receipts
    match s.sign l with
    | (none, s) => s.finishCmd c resRefused []
    | (some l, s) => s.finishCmd c resDone l)

/-- DUMPGET, R387, R432: of a QUARANTINED cluster, for a function its partition was bound to. -/
def execDumpget (c : Cmd) (cl : ClusterId) (core : Fin 4) (s : State) : Out :=
  .next (s.command c (.dumpget c cl core) fun s =>
    if !s.boundCluster c.fn cl then s.finishCmd c resDenied []
    else if !s.mod.fw.quar.any fun q => q.cl = cl then s.finishCmd c resBadArg []
    else if (s.owner cl).st ≠ 2 then s.finishCmd c resBusy []
    else if cl ≠ s.me then s.finishCmd c resDone []
    else
      let parts := (s.rawParts (s.dumpBase core) [] (pageParts (s.dumpBase core) 0x22000)).getD []
      s.finishCmd c resDone (parts.flatMap fun p => s.bytes p.2.1 p.2.2))

/-! ### Checkpoints (R428) -/

/-- The memory key of a cluster under the life number of its module (R398). -/
def State.memKey (s : State) (p : Partition) (cl : ClusterId) : Nat :=
  Config.deriveKey p.pk (2 ^ 64 + coords cl * 2 ^ 16 + mapGet 0 s.mod.fw.lives (128 * p.id + cl.chip.val))
/-- The transport key of a partition (R398): the key of the GCM tags of which `PodMsg.good` says that they pass (R399). No bit of a
message in the clear depends on it. -/
def Partition.transportKey (p : Partition) : Nat := Config.deriveKey p.pk (2 ^ 65)
/-- Bytes of the slice as they are stored, or as stored bytes read (R400). -/
def crypt (enc : Bool) (key off : Nat) (l : List Byte) : List Byte :=
  (List.range (l.length / 128)).flatMap fun i => Config.xts enc key (off / 128 + i) ((l.drop (128 * i)).take 128)
/-- The header of a chunk (R428). -/
def chunkHeader (cl : ClusterId) (off : Nat) (l : List Byte) : List Byte :=
  toLe 8 (coords cl) ++ toLe 8 off ++ digestBytes (Config.sha256 l) ++ toLe 16 0
/-- Bytes of a chunk with its header. -/
def chunkSize : Nat := 2 ^ 21 + 64
/-- The host address of piece k of an image in the ranges that the host grants, which pieces fill in order (R428; the order log 113). -/
def grantAt : List (Nat × Nat) → Nat → Option Nat
  | [], _ => none
  | (a, n) :: r, k => if k < n / chunkSize then some (a + k * chunkSize) else grantAt r (k - n / chunkSize)
/-- The clusters of a partition on this module. -/
def State.ownClusters (s : State) (p : Partition) : List ClusterId := p.clusters.filter fun cl => cl.chip = s.mod.chipid
/-- The key blob of a partition (R428). -/
def Partition.blob (p : Partition) : KeyBlob := ⟨Config.identityDigest, p.mset, Config.keyWrap Config.identityDigest p.mset p.pk⟩
/-- The granted ranges hold the image: 1,024 chunks for each slice, and the key blob after them. -/
def State.granted (s : State) (p : Partition) (ranges : List (Nat × Nat)) : Bool :=
  (grantAt ranges (1024 * (s.ownClusters p).length)).isSome
/-- The chunks of this cluster's slice and the key blob leave. The memory of a killed cluster is unreadable (R386). -/
def State.checkpoint (s : State) (p : Partition) (ranges : List (Nat × Nat)) : State :=
  let own := s.ownClusters p
  let addr (k : Nat) : Nat := (grantAt ranges k).getD 0
  let s := if !p.clusters.contains s.me || s.cl.killed then s else
    (List.range 1024).foldl (fun s i =>
      let off := i * 2 ^ 21
      let l := crypt true (s.memKey p s.me) off (s.bytes (hbmLo + off) (2 ^ 21))
      s.toHost (.chunk (addr (1024 * own.findIdx (· = s.me) + i)) (chunkHeader s.me off l ++ l))) s
  s.toHost (.keyBlob (addr (1024 * own.length)) p.blob)
/-- CHECKPOINT, R428: it waits until the partition's transfers have ended. Ranges that do not hold the image are a bad argument
(log 113). -/
def execCheckpoint (c : Cmd) (a : CheckpointArgs) (s : State) : Out :=
  .next (s.command c (.checkpoint c a) fun s => s.forPart c a.part fun p s =>
    if !s.granted p a.ranges then s.finishCmd c resBadArg []
    else if s.eng.copies.isEmpty then (s.checkpoint p a.ranges).finishCmd c resDone []
    else s.beginCmd c (.checkpoint c a))
/-- The partition key in a blob: none unless this module has wrapped it for this measurement set (R428). -/
def Partition.keyOf (p : Partition) (b : KeyBlob) : Option Nat :=
  if b.ident ≠ Config.identityDigest || b.mset ≠ p.mset then none else Config.keyUnwrap b.ident b.mset b.wrapped
/-- RESTORE, R428: on the same module with an equal measurement set. -/
def execRestore (c : Cmd) (r : RestoreArgs) (s : State) : Out :=
  .next (s.command c (.restore c r) fun s => s.pf c fun s =>
    if s.ending r.part then s.finishCmd c resBusy []
    else match s.part? r.part with
      | none => s.finishCmd c resBadArg []
      | some p =>
        match p.keyOf r.blob with
        | none => s.finishCmd c resRefused []
        | some k =>
          let p := { p with pk := k }
          let s := s.updPart r.part fun p => { p with pk := k }
          (r.chunks.foldl (fun s k =>
            if k.1 = s.me && !s.cl.killed && decide (k.2.1 + k.2.2.length ≤ 2 ^ 31) then
              s.putBytes (hbmLo + k.2.1) (crypt false (s.memKey p k.1) k.2.1 k.2.2)
            else s) s).finishCmd c resDone [])

/-! ### Bias (R425, R426) -/

/-- BIAS, R425, R426: `page` numbers the HDM pages of the partition. A flip changes no value; a flip to device bias invalidates the
host's copies. -/
def execBias (c : Cmd) (part page : Nat) (host : Bool) (s : State) : Out :=
  .next (s.command c (.bias c part page host) fun s => s.forPart c part fun p s =>
    match p.hdm[page]? with
    | none => s.finishCmd c resBadArg []
    | some h =>
      let s := if !host && h.host && h.cl = s.me then
          s.dropHostLines fun x => decide (hbmLo + h.page * 2 ^ 16 ≤ 64 * x.1) && decide (64 * x.1 < hbmLo + (h.page + 1) * 2 ^ 16)
        else s
      (s.updPart part fun p => { p with hdm := p.hdm.set page { h with host := host } }).finishCmd c resDone [])

/-! ### Debugging -/

/-- DEBUG, R432: for a partition whose every participant agreed. -/
def execDebug (c : Cmd) (part : Nat) (ctxs : List CtxId) (s : State) : Out :=
  .next (s.command c (.debug c part ctxs) fun s => s.pf c fun s =>
    if s.ending part then s.finishCmd c resBusy []
    else match s.part? part with
      | none => s.finishCmd c resBadArg []
      | some p =>
        if !p.agreed then s.finishCmd c resRefused []
        else if s.cl.part ≠ some part then s.finishCmd c resDone []
        else (ctxs.foldl (fun s c => s.updCtx c fun x => { x with debug := true }) s).finishCmd c resDone [])

/-! ### Commands that go on -/

/-- A command that runs can go on (R364, R403, R428). A TEARDOWN and a WARMRESET go on with their scrubs. -/
def State.cmdReady (s : State) (i : Instr) : Bool :=
  match i with
  | .wake _ _ => s.cl.killed || s.mapped.isEmpty
  | .checkpoint _ _ => s.eng.copies.isEmpty
  | .revoke _ part p => s.cl.killed || s.cl.part ≠ some part || (((s.ctxsOf p.val).all fun c => (s.getCtx c).st = .stopped && s.opsDone c)
      && (s.ownBufs part p.val).all fun b => (bufPages b).all s.pageResident)
  | _ => false
/-- A revocation ends (R403): contexts are reaped as by `creap` with mode 1, what was saved meanwhile is freed, the buffers are scrubbed,
the participant gets its receipt and the host its report. Whether the revocation of the last participant is also its departure, which ends
the partition (R387), is free (log 98); revocation itself breaks no group. -/
def State.endRevoke (s : State) (c : Cmd) (part ptag : Nat) : State :=
  let s := if s.cl.killed || s.cl.part ≠ some part then s
    else
      let s := ((s.ctxsOf ptag).foldl (fun s c => (s.cancelTasks c).release c true) s).freeRevoked ptag
      (s.ownBufs part ptag).foldl (fun s b => s.scrubBuf b) s
  let bufs := s.bufsOf part ptag
  let win (b : IngestBuf) : ScrubRange :=
    if inSpad b.start b.len then ⟨b.len, b.start, b.cl, 0, 0⟩ else ⟨b.len, b.start - hbmLo, b.cl, 1, 0⟩
  let (ok, s) := if bufs.isEmpty then (true, s) else s.receipt part 1 ptag (bufs.map win)
  let s := if ok then (s.report 0x06 [part, ptag]).finishCmd c resDone [] else s.finishCmd c resRefused []
  match s.part? part with
  | some p =>
    if p.participants.all p.revoked.contains then
      let (n, s) := s.draw
      if Config.freeBool n then s.tearDown p 0 1 false 2 ptag none else s
    else s
  | none => s
/-- The functions whose command can go on. -/
def State.fwReady (s : State) : List (Fin 17) :=
  ((List.range 17).map fun i => (Fin.ofNat 17 i : Fin 17)).filter fun f => (s.fn f).busy.any s.cmdReady
/-- It goes on to its end. -/
def State.firmwareMove (s : State) (f : Fin 17) : State :=
  match (s.fn f).busy with
  | none => s
  | some i =>
    if !s.cmdReady i then s
    else match i with
      | .wake c _ => s.finishCmd c resDone []
      | .checkpoint c a =>
        match s.part? a.part with
        | some p => (s.checkpoint p a.ranges).finishCmd c resDone []
        | none => s.finishCmd c resBusy []
      | .revoke c part p => s.endRevoke c part p.val
      | _ => s

end Sys2Proof.Machine
end

