-- ==== Sys2Proof/Machine/HostLink.lean ====
section
/-!
DEFINITION. Sys2Proof/Machine/HostLink.lean: what the host does to the module beside commands: active messages (R25, R26, R401, R423)
and the HDM window (R424).
-/
namespace Sys2Proof.Machine

/-! ### Host active messages (R423) -/

/-- Word i of a message. -/
def hostWord (m : HostMsg) (i : Nat) : Word := m.words.getD i 0
/-- PTAG. -/
def hostPtag (m : HostMsg) : Nat := bits (hostWord m 0) 32 6
/-- The target cluster. -/
def hostTarget (m : HostMsg) : ClusterId :=
  let w := hostWord m 0
  ⟨Fin.ofNat 128 (bits w 54 7), Fin.ofNat 16 (bits w 50 4), Fin.ofNat 16 (bits w 46 4)⟩
/-- Reserved bits are zero. -/
def hostReserved (m : HostMsg) : Bool :=
  bits (hostWord m 0) 0 28 = 0 && bits (hostWord m 1) 48 16 = 0 && bits (hostWord m 4) 32 32 = 0
/-- The tag under an ingest key (R423). -/
def hostTagOk (m : HostMsg) (key : Nat) : Bool :=
  let nonce := 2 ^ 88 + hostPtag m * 2 ^ 80 + (hostWord m 5).toNat * 2 ^ 16
  let l := (List.range 6).flatMap fun i => toLe 8 (hostWord m i).toNat
  (hostWord m 6).toNat + (hostWord m 7).toNat * 2 ^ 64 = (Config.authTag key nonce l).toNat
/-- The creation that a message asks for (R24). The host carries no clock. -/
def hostAmsg (m : HostMsg) (me : ClusterId) (part : Nat) : AMsg :=
  let w := hostWord m 0
  ⟨hostTarget m, bits w 63 1 = 1, Fin.ofNat 4 (bits w 61 2), BitVec.ofNat 48 (bits (hostWord m 1) 0 48), hostWord m 2, hostWord m 3,
    Fin.ofNat 8 (bits w 43 3), Fin.ofNat 8 (bits w 40 3), BitVec.ofNat 4 (bits w 28 4), BitVec.ofNat 32 (bits (hostWord m 4) 0 32),
    bits w 39 1 = 1, Fin.ofNat 64 (hostPtag m), bits w 38 1 = 1, 0, me, part⟩

/-- The partition whose participant a host message comes from: one that is bound to the function and names PTAG, if it can be the one the
target is in. -/
def State.hostPart (s : State) (fn : Fin 17) (m : HostMsg) : Option Partition :=
  let mine (q : Partition) : Bool := q.fn = fn && q.participants.contains (hostPtag m)
  (s.mod.parts.find? fun q => mine q && q.clusters.contains (hostTarget m)).or (s.mod.parts.find? mine)
/-- Why a host message is rejected (R25, R401, R403, R423): the tag, which nothing passes without a key, MSGID and the reserved bits first,
then the checks of R25. -/
def State.hostReject (s : State) (fn : Fin 17) (m : HostMsg) : Option Nat :=
  let p := hostPtag m
  match s.hostPart fn m with
  | none => some 0
  | some q =>
    if !(q.ikey p).any (hostTagOk m) then some 0
    else if q.msgids.any fun k => k.1 = p && decide ((hostWord m 5).toNat ≤ k.2) then some 1
    else if !hostReserved m then some 2
    else if !q.clusters.contains (hostTarget m) then some 5
    else if bits (hostWord m 1) 0 1 = 1 then some 3
    else if hostTarget m = s.me && s.badGids (BitVec.ofNat 4 (bits (hostWord m 0) 28 4)) (BitVec.ofNat 32 (bits (hostWord m 4) 0 32)) then some 4
    else if q.revoked.contains p then some 6
    else if hostTarget m = s.me && s.cl.killed then some 7
    else none

/-- HOST_ACTIVE_MESSAGE, R25, R26, R423: a creation, or a report to the host; where the pool has no FREE record the host retries. A
message for another cluster of the module leaves for it (log 1). -/
def execHostActiveMessage (fn : Fin 17) (m : HostMsg) (s : State) : Out :=
  .next (
    let p := hostPtag m
    match s.hostReject fn m with
    | some r => s.report 0x01 [r, p]
    | none =>
      let part := ((s.partOf? (hostTarget m)).map fun q => q.id).getD 0
      let a := hostAmsg m s.me part
      let accepted (s : State) : State := s.updPart part fun q =>
        { q with msgids := q.msgids.filter (fun k => k.1 ≠ p) ++ [(p, (hostWord m 5).toNat)] }
      if hostTarget m ≠ s.me then accepted (s.send (hostTarget m) 0 (.amsg a))
      else match s.create a with
        | (some _, s) => accepted s
        | (none, s) => s.report 0x01 [8, p])

/-! ### The management window (R429, R433) -/

/-- What the host reads at an offset of a function's management window: the count of event records (R433), and the boot status word of the
physical function, at any time (R429). -/
def State.mgmtRead (s : State) (fn : Fin 17) (off : Nat) : Option Nat :=
  if off = 0x0080 then some ((s.fn fn).evtCnt % 2 ^ 64)
  else if off = 0x0088 && fn = 0 then some s.mod.fw.boot
  else none

/-! ### The HDM window (R424) -/

/-- The HDM page that a window offset of a cluster lies in. -/
def State.hdmPage? (s : State) (cl : ClusterId) (off : Nat) : Option HdmPage :=
  s.mod.parts.findSome? fun p => p.hdm.find? fun h => h.cl = cl && decide (hbmLo ≤ off) && h.page = (off - hbmLo) / 2 ^ 16

/-- HDM_HOST_READ, R424: in host bias the host may keep the line. A read of a page that is cocooned waits for its recall; one that is
not mapped is answered with poison (log 36), and so is one of a killed cluster, whose memory nobody reads (R386). -/
def execHdmHostRead (cl : ClusterId) (off : Nat) (s : State) : Out :=
  .next (match s.hdmPage? cl off with
    | none => s
    | some h =>
      if cl ≠ s.me then s
      else if s.cl.killed then s.toHost (.hdmPoison off)
      else match s.leafOf h.page with
        | none => s.toHost (.hdmPoison off)
        | some (_, leaf) =>
          if bits leaf 60 2 ≠ 0 then (s.triggerRecall h.page).post (.hdmHostRead cl off)
          else
            let key := hbmLo + bits leaf 16 15 * 2 ^ 16 + (off - hbmLo) % 2 ^ 16
            let s := s.toHost (.hdmData off (s.byte key))
            if h.host then s.updMod fun m => { m with hdmLines := m.hdmLines.erase (off / 64, key / 64) ++ [(off / 64, key / 64)] } else s)
/-- HDM_HOST_WRITE, R424: completes with poison and changes nothing. -/
def execHdmHostWrite (_cl : ClusterId) (off : Nat) (_value : Byte) (s : State) : Out := .next (s.toHost (.hdmPoison off))

end Sys2Proof.Machine
end

