-- ==== Sys2Proof/Machine/MemOps.lean ====
section
/-!
DEFINITION. Sys2Proof/Machine/MemOps.lean: scalar loads and stores (R202 to R206), full/empty operations (R207 to R210), local
atomics with their retry latch (R211 to R213, R319), and their 16-bit forms.
-/
namespace Sys2Proof.Machine

/-! ### Loads (R203) and stores (R205) -/

/-- A loaded value extended to 64 bits (R203). -/
def extendLoad (signed : Bool) (l : List Byte) : Word :=
  if signed then BitVec.ofInt 64 (sxInt (8 * l.length) (leNat l)) else BitVec.ofNat 64 (leNat l)

/-- A scalar load of `size` bytes (R203). -/
def load (len size : Nat) (signed : Bool) (d base : GNum) (fa : Bool) (off : BitVec 10) (s : State) : Out :=
  .next (s.srcG fa base fun b s =>
    s.loadElems [(s.eaM b off size, size, 0)]
      (fun l s => s.putG len d (extendLoad signed (l.headD [])))
      (fun st s => (s.poisonG d st).finish len))

/-- R203: one byte, sign-extended. -/
def execLdI8 (d base : GNum) (fa : Bool) (off : BitVec 10) (s : State) : Out := load 4 1 true d base fa off s
/-- R203: two bytes, sign-extended. -/
def execLdI16 (d base : GNum) (fa : Bool) (off : BitVec 10) (s : State) : Out := load 4 2 true d base fa off s
/-- R203: four bytes, sign-extended. -/
def execLdI32 (d base : GNum) (fa : Bool) (off : BitVec 10) (s : State) : Out := load 4 4 true d base fa off s
/-- R203: eight bytes. -/
def execLdI64 (d base : GNum) (fa : Bool) (off : BitVec 10) (s : State) : Out := load 4 8 true d base fa off s
/-- R203: one byte, zero-extended. -/
def execLdN8 (d base : GNum) (fa : Bool) (off : BitVec 10) (s : State) : Out := load 4 1 false d base fa off s
/-- R203: two bytes, zero-extended. -/
def execLdN16 (d base : GNum) (fa : Bool) (off : BitVec 10) (s : State) : Out := load 4 2 false d base fa off s
/-- R203: four bytes, zero-extended. -/
def execLdN32 (d base : GNum) (fa : Bool) (off : BitVec 10) (s : State) : Out := load 4 4 false d base fa off s
/-- R160: `ld.i64 gd, [ga+0]`. -/
def execCLd (d a : GNum) (s : State) : Out := load 2 8 true d a false 0 s

/-- A scalar store of `size` bytes (R205): base, then s with disposition 0. -/
def store (len size : Nat) (r base : GNum) (fa : Bool) (off : BitVec 10) (s : State) : Out :=
  .next (s.srcG fa base fun b s => s.srcG false r fun v s => s.checked fun s =>
    let ea := s.eaM b off size
    s.storeElems [⟨ea, size, [(offOf ea, toLe size v.toNat)]⟩] fun s => s.finish len)

/-- R205: one byte. -/
def execStI8 (r base : GNum) (fa : Bool) (off : BitVec 10) (s : State) : Out := store 4 1 r base fa off s
/-- R205: two bytes. -/
def execStI16 (r base : GNum) (fa : Bool) (off : BitVec 10) (s : State) : Out := store 4 2 r base fa off s
/-- R205: four bytes. -/
def execStI32 (r base : GNum) (fa : Bool) (off : BitVec 10) (s : State) : Out := store 4 4 r base fa off s
/-- R205: eight bytes. -/
def execStI64 (r base : GNum) (fa : Bool) (off : BitVec 10) (s : State) : Out := store 4 8 r base fa off s
/-- R160: `st.i64 gd, [ga+0]`. -/
def execCSt (d a : GNum) (s : State) : Out := store 2 8 d a false 0 s

/-! ### Full/empty operations (R208) -/

/-- The checks of R208, up to the wait. `k` gets the offset. -/
def State.feChecks (s : State) (p : Perm) (ea : Word) (k : Nat → State → State) : State :=
  if !ownForm s.me ea then s.trapEa 0x08 ea
  else if ea.toNat % 8 ≠ 0 then s.trapEa 0x07 ea
  else
    let o := offOf ea
    if hbmLo ≤ o ∧ o < hbmEnd then s.trapEa 0x08 ea
    else if !inSpad o 8 then s.trapEa 0x0A ea
    else match s.access s.agent s.sup p o 8 with
      | (.ok _, s) => k o s
      | (f, s) => s.failAcc f ea

/-- Waiting for an F/E state; every wait happens before placement (R208). -/
def State.feWait (s : State) (o : Nat) (full : Bool) (k : State → State) : State :=
  if s.isFull (o / 8) = full then k s else s.block (.feWord (o / 8) full)

/-- R208: waits full, reads, leaves empty. -/
def loadEmpty (len : Nat) (d base : GNum) (fa : Bool) (off : BitVec 10) (s : State) : Out :=
  .next (s.srcG fa base fun b s => s.checked fun s =>
    s.feChecks .wr (s.eaM b off 8) fun o s => s.feWait o true fun s =>
      s.placeWrite o fun _ s =>
        let v := s.word o
        ((s.setFE (o / 8) false).markAtomic).putG len d v)
/-- R208: `ldfe`. -/
def execLdfe (d base : GNum) (fa : Bool) (off : BitVec 10) (s : State) : Out := loadEmpty 4 d base fa off s
/-- R160: `ldfe gd, [ga+0]`. -/
def execCLdfe (d a : GNum) (s : State) : Out := loadEmpty 2 d a false 0 s
/-- R208: `ldff` waits full, reads, leaves full; R97 places it as a LocalRead (log 17). -/
def execLdff (d base : GNum) (fa : Bool) (off : BitVec 10) (s : State) : Out :=
  .next (s.srcG fa base fun b s =>
    s.feChecks .rd (s.eaM b off 8) fun o s => s.feWait o true fun s =>
      s.placeRead o fun s => s.putG 4 d (s.word o))

/-- A store that leaves its word full, with or without the wait for empty (R208). -/
def storeFull (len : Nat) (wait : Bool) (r base : GNum) (fa : Bool) (off : BitVec 10) (s : State) : Out :=
  .next (s.srcG fa base fun b s => s.srcG false r fun v s => s.checked fun s =>
    s.feChecks .wr (s.eaM b off 8) fun o s =>
      let go (s : State) : State := s.placeWrite o fun t s =>
        (((s.writeOwn o o (toLe 8 v.toNat) t).setFE (o / 8) true).markAtomic).finish len
      if wait then s.feWait o false go else go s)
/-- R208: `stfe` waits empty, writes, leaves full. -/
def execStfe (r base : GNum) (fa : Bool) (off : BitVec 10) (s : State) : Out := storeFull 4 true r base fa off s
/-- R160: `stfe gd, [ga+0]`. -/
def execCStfe (d a : GNum) (s : State) : Out := storeFull 2 true d a false 0 s
/-- R208: `stff` writes without waiting, leaves full. -/
def execStff (r base : GNum) (fa : Bool) (off : BitVec 10) (s : State) : Out := storeFull 4 false r base fa off s
/-- R208: `purge` leaves the word empty without waiting. -/
def execPurge (base : GNum) (fa : Bool) (off : BitVec 10) (s : State) : Out :=
  .next (s.srcG fa base fun b s => s.checked fun s =>
    s.feChecks .wr (s.eaM b off 8) fun o s => s.placeWrite o fun _ s =>
      ((s.setFE (o / 8) false).markAtomic).finish 4)

/-! ### Local atomics (R212) and the retry latch (R319) -/

/-- The operation of an atomic on an old value: `x` is the expected value of `acas` (op 9). -/
def atomicVal (op n : Nat) (old v x : Nat) : Nat :=
  if op = 9 then (if old = x then v else old) else atomicNew op (8 * n) old v

/-- g[d] := SignExt(old, 8n) (R212). -/
def State.atomicResult (s : State) (len n : Nat) (d : GNum) (old : Nat) : State :=
  s.putG len d (BitVec.ofInt 64 (sxInt (8 * n) old))

/-- An atomic that executes while its latch holds it (R319, R379). A walk that meets a moving node waits with the latch held
(R357). -/
def State.latched (s : State) (len : Nat) (d : GNum) : State :=
  let s := s.touch 24
  let r := s.ctx.retry
  let n := if r.func.toNat / 32 % 2 = 1 then 4 else 8
  let op := r.func.toNat % 16
  let clear (s : State) : State := s.upd fun x => { x with retry := RetryLatch.reset }
  if r.done then (clear s).atomicResult len n d (r.xres.toNat % 2 ^ (8 * n))
  else if !r.arm then s.trapEa 0x0C r.ea
  else
    let o := offOf r.ea
    match s.access s.agent s.sup .wr o n with
    | (.nonres vpn _, s) =>
      (s.upd fun x => { x with retry := { x.retry with arm := false } }).trapNonRes r.ea vpn
    | (.ok key, s) =>
      s.readWrite o key n (fun old => atomicVal op n old (r.opnd.toNat % 2 ^ (8 * n)) (r.xres.toNat % 2 ^ (8 * n)))
        fun old s => (clear s).markAtomic.atomicResult len n d old
    | (.mig key, s) => s.blockMig key
    | (.unmapped, s) => (clear s).failAcc .unmapped r.ea
    | (f, s) => s.failAcc f r.ea

/-- A local atomic (R212). `d` none is the no-return form; op as in R211. The latch of an atomic under the repeat prefix holds the PC of the
context, which is the prefix's, since the pair executes again from there (R318, log 109). -/
def atomic (op : Nat) (d : Option GNum) (a b : GNum) (fa fb w32 : Bool) (s : State) : Out :=
  let n := if w32 then 4 else 8
  .next (
    if s.ctx.retry.v && s.ctx.retry.pc = s.ctx.pc && d.isSome then s.latched 4 (d.getD 0)
    else s.srcG fa a fun ea s => s.srcG fb b fun v s =>
      (fun (k : Word → State → State) => if op = 9 then s.srcG false (d.getD 0) k else k 0 s) fun x s => s.checked fun s =>
      s.checkOwn .wr ea n fun o r s =>
        let vv := v.toNat % 2 ^ (8 * n)
        let xx := x.toNat % 2 ^ (8 * n)
        match r with
        | .ok key =>
          s.readWrite o key n (fun old => atomicVal op n old vv xx) fun old s =>
            match d with
            | none => s.markAtomic.finish 4
            | some d => s.markAtomic.atomicResult 4 n d old
        | .nonres vpn leaf =>
          match d with
          | none => s.logAppend vpn leaf [⟨true, n, op, 0, o % 2 ^ 16, vv⟩] fun s => s.markAtomic.finish 4
          | some _ =>
            let func : BitVec 7 := BitVec.ofNat 7 ((if w32 then 32 else 0) + op)
            (s.upd fun c => { c.mend 24 with retry := ⟨true, false, false, false, func, c.pc, ea, v, x⟩ }).trapNonRes ea vpn
        | f => s.failAcc f ea)

/-- R211, R212: old + v. -/
def execAadd (d a b : GNum) (fa fb w32 : Bool) (s : State) : Out := atomic 0 (some d) a b fa fb w32 s
/-- R212: `aadd.nr`. -/
def execAaddNr (a b : GNum) (fa fb w32 : Bool) (s : State) : Out := atomic 0 none a b fa fb w32 s
/-- R212: old and v. -/
def execAand (d a b : GNum) (fa fb w32 : Bool) (s : State) : Out := atomic 1 (some d) a b fa fb w32 s
/-- R212: `aand.nr`. -/
def execAandNr (a b : GNum) (fa fb w32 : Bool) (s : State) : Out := atomic 1 none a b fa fb w32 s
/-- R212: old or v. -/
def execAor (d a b : GNum) (fa fb w32 : Bool) (s : State) : Out := atomic 2 (some d) a b fa fb w32 s
/-- R212: `aor.nr`. -/
def execAorNr (a b : GNum) (fa fb w32 : Bool) (s : State) : Out := atomic 2 none a b fa fb w32 s
/-- R212: old xor v. -/
def execAxor (d a b : GNum) (fa fb w32 : Bool) (s : State) : Out := atomic 3 (some d) a b fa fb w32 s
/-- R212: `axor.nr`. -/
def execAxorNr (a b : GNum) (fa fb w32 : Bool) (s : State) : Out := atomic 3 none a b fa fb w32 s
/-- R212: signed minimum. -/
def execAmin (d a b : GNum) (fa fb w32 : Bool) (s : State) : Out := atomic 4 (some d) a b fa fb w32 s
/-- R212: `amin.nr`. -/
def execAminNr (a b : GNum) (fa fb w32 : Bool) (s : State) : Out := atomic 4 none a b fa fb w32 s
/-- R212: signed maximum. -/
def execAmax (d a b : GNum) (fa fb w32 : Bool) (s : State) : Out := atomic 5 (some d) a b fa fb w32 s
/-- R212: `amax.nr`. -/
def execAmaxNr (a b : GNum) (fa fb w32 : Bool) (s : State) : Out := atomic 5 none a b fa fb w32 s
/-- R212: unsigned minimum. -/
def execAminn (d a b : GNum) (fa fb w32 : Bool) (s : State) : Out := atomic 6 (some d) a b fa fb w32 s
/-- R212: `aminn.nr`. -/
def execAminnNr (a b : GNum) (fa fb w32 : Bool) (s : State) : Out := atomic 6 none a b fa fb w32 s
/-- R212: unsigned maximum. -/
def execAmaxn (d a b : GNum) (fa fb w32 : Bool) (s : State) : Out := atomic 7 (some d) a b fa fb w32 s
/-- R212: `amaxn.nr`. -/
def execAmaxnNr (a b : GNum) (fa fb w32 : Bool) (s : State) : Out := atomic 7 none a b fa fb w32 s
/-- R212: swap. -/
def execAswap (d a b : GNum) (fa fb w32 : Bool) (s : State) : Out := atomic 8 (some d) a b fa fb w32 s
/-- R212: compare and swap with g[d] as the expected value. -/
def execAcas (d a b : GNum) (fa fb w32 : Bool) (s : State) : Out := atomic 9 (some d) a b fa fb w32 s

end Sys2Proof.Machine
end

