-- ==== Sys2Proof/Machine/Repeat.lean ====
section
/-!
DEFINITION. Sys2Proof/Machine/Repeat.lean: the repeat prefix (R164 to R167): which instructions it may repeat, which of their
fields may step, and the check of the prefix itself. The step that follows stands in Fetch.lean.
-/
namespace Sys2Proof.Machine

/-- Of a legal repeat target in its 32-bit form: may its d, a and b fields step (R165, R166, R168)? No answer for an illegal
target. -/
def stepKinds : Instr → Option (Bool × Bool × Bool)
  | .add _ _ _ _ _ | .sub _ _ _ _ _ | .and _ _ _ _ _ | .or _ _ _ _ _ | .xor _ _ _ _ _ | .andn _ _ _ _ _
  | .orn _ _ _ _ _ | .xnor _ _ _ _ _ | .sll _ _ _ _ _ | .srl _ _ _ _ _ | .sra _ _ _ _ _ | .rol _ _ _ _ _
  | .ror _ _ _ _ _ | .mul _ _ _ _ _ | .mulh _ _ _ _ _ | .mulhn _ _ _ _ _ | .div _ _ _ _ _ | .divn _ _ _ _ _
  | .rem _ _ _ _ _ | .remn _ _ _ _ _ | .min _ _ _ _ _ | .max _ _ _ _ _ | .minn _ _ _ _ _ | .maxn _ _ _ _ _
  | .slt _ _ _ _ _ | .sltn _ _ _ _ _ | .seq _ _ _ _ _ | .sne _ _ _ _ _ | .adds _ _ _ _ _ | .subs _ _ _ _ _
  | .addsn _ _ _ _ _ | .subsn _ _ _ _ _ | .sel _ _ _ _ _ | .leaA _ _ _ _ _ | .leaR _ _ _ _ _ | .leaS _ _ _ _ _
  | .kand _ _ _ | .kor _ _ _ | .kxor _ _ _ | .kandn _ _ _ | .vperm _ _ _ _ _ _ | .vperm2 _ _ _ _ _ _
  | .vzip _ _ _ _ _ | .vunzip _ _ _ _ _ | .vscl _ _ _ _ _ _ | .vqnt _ _ _ _ _ _ | .aadd _ _ _ _ _ _
  | .aand _ _ _ _ _ _ | .aor _ _ _ _ _ _ | .axor _ _ _ _ _ _ | .amin _ _ _ _ _ _ | .amax _ _ _ _ _ _
  | .aminn _ _ _ _ _ _ | .amaxn _ _ _ _ _ _ | .aswap _ _ _ _ _ _ | .acas _ _ _ _ _ _ | .pull2d _ _ _ _ _ _
  | .vldt _ _ _ _ _ _ | .vadd _ _ _ _ _ _ | .vsub _ _ _ _ _ _ | .vadds _ _ _ _ _ _ | .vsubs _ _ _ _ _ _
  | .vmul _ _ _ _ _ _ | .vmulh _ _ _ _ _ _ | .vfma _ _ _ _ _ _ | .vfms _ _ _ _ _ _ | .vmin _ _ _ _ _ _
  | .vmax _ _ _ _ _ _ | .vand _ _ _ _ _ _ | .vor _ _ _ _ _ _ | .vxor _ _ _ _ _ _ | .vandn _ _ _ _ _ _
  | .vsll _ _ _ _ _ _ | .vsrl _ _ _ _ _ _ | .vsra _ _ _ _ _ _ | .vrol _ _ _ _ _ _ | .vcmp _ _ _ _ _ _ _
  | .vcmpa _ _ _ _ _ _ _ => some (true, true, true)
  | .clz _ _ _ | .ctz _ _ _ | .popc _ _ _ | .brev _ _ _ | .bswap _ _ _ | .sx8 _ _ _ | .sx16 _ _ _ | .sx32 _ _ _
  | .zx8 _ _ _ | .zx16 _ _ _ | .zx32 _ _ _ | .addi _ _ _ _ | .andi _ _ _ _ | .ori _ _ _ _ | .xori _ _ _ _
  | .slli _ _ _ _ | .srli _ _ _ _ | .srai _ _ _ _ | .roli _ _ _ _ | .rori _ _ _ _ | .slti _ _ _ _ | .sltni _ _ _ _
  | .bfx _ _ _ _ _ | .bfxs _ _ _ _ _ | .bfi _ _ _ _ _ | .knot _ _ | .kfromg _ _ _ | .ktog _ _ | .kpop _ _
  | .kfirst _ _ | .ldI8 _ _ _ _ | .ldI16 _ _ _ _ | .ldI32 _ _ _ _ | .ldI64 _ _ _ _ | .ldN8 _ _ _ _ | .ldN16 _ _ _ _
  | .ldN32 _ _ _ _ | .stI8 _ _ _ _ | .stI16 _ _ _ _ | .stI32 _ _ _ _ | .stI64 _ _ _ _ | .ldfe _ _ _ _ | .ldff _ _ _ _
  | .stfe _ _ _ _ | .stff _ _ _ _ | .vld _ _ _ _ _ _ | .vst _ _ _ _ _ | .vldp _ _ _ _ _ _ | .vcvt _ _ _ _ _ _
  | .vabs _ _ _ _ | .vneg _ _ _ _ | .vnot _ _ _ _ | .vclz _ _ _ _ | .vpopc _ _ _ _ | .vrcp _ _ _ _ | .vrsq _ _ _ _
  | .vexp2 _ _ _ _ | .vlog2 _ _ _ _ | .vrtrec _ _ _ _ | .vsqrt _ _ _ _ _ | .vrsum _ _ _ _ _ | .vrmax _ _ _ _
  | .vrmin _ _ _ _ | .vrand _ _ _ _ | .vrior _ _ _ _ | .vrxor _ _ _ _ | .vtagw _ _ _ _ | .vtag _ _ _
  | .vbcast _ _ _ _ _ | .vmovg _ _ _ | .vsldu _ _ _ _ _ | .vsldd _ _ _ _ _ | .vlrot _ _ _ _ _ => some (true, true, false)
  | .lim _ _ _ | .limk _ _ _ | .myid _ | .tlwait _ _ | .tltest _ _ | .tlrd _ _ | .tlhigh _ _ | .tlerr _ _
  | .calrd _ _ | .erd _ _ | .ewr _ _ | .tgetW0 _ _ | .tgetW1 _ _ | .vldg _ _ _ _ _ _ | .vstg _ _ _ _ _ _ => some (true, false, false)
  | .purge _ _ _ | .mmeta _ _ _ | .mstream _ _ _ | .mzero _ _ | .mtask _ _ => some (false, true, false)
  | .aaddNr _ _ _ _ _ | .aandNr _ _ _ _ _ | .aorNr _ _ _ _ _ | .axorNr _ _ _ _ _ | .aminNr _ _ _ _ _
  | .amaxNr _ _ _ _ _ | .aminnNr _ _ _ _ _ | .amaxnNr _ _ _ _ _ | .pull _ _ _ _ _ | .pullAdd _ _ _ _ _
  | .copy _ _ _ _ _ | .hget _ _ _ _ _ | .hsend _ _ _ _ _ | .tset _ _ _ _ _ | .mcvt _ _ _ _ _ => some (false, true, true)
  | .pullG _ _ _ _ | .vlds _ _ _ _ _ _ | .vsts _ _ _ _ _ _ => some (true, false, true)
  | .mld _ | .mldt _ | .mswap => some (false, false, false)
  | _ => none

/-- R165: the checks of the prefix at the PC (trap 0x02, R166) for the target that has been fetched behind it. Its repetition
REPIDX executes in the same step; with a saved REPIDX above CNT the target is passed without one, whatever it is. -/
def execRep (cnt : BitVec 6) (sd sa sb st : Bool) (s : State) : Out :=
  .next (match s.target with
    | none => s.trap 0x02
    | some (i, len) =>
      let j := s.ctx.repidx.toNat
      if cnt.toNat < j then s.jumpTo (s.ctx.pc + BitVec.ofNat 48 (len + 2))
      else match stepKinds i with
        | none => s.trap 0x02
        | some (kd, ka, kb) =>
          if (sd && !kd) || (sa && !ka) || (sb && !kb) then s.trap 0x02
          else { s with rep := some ⟨cnt.toNat, j, if st then 2 else 1, sd, sa, sb, len⟩ })

end Sys2Proof.Machine
end

