-- ==== Sys2Proof/Machine/Scalar.lean ====
section
/-!
DEFINITION. Sys2Proof/Machine/Scalar.lean: the integer, immediate and address forms of chapter 08 (R185 to R197), and their
16-bit forms (R160).
-/
namespace Sys2Proof.Machine

/-! ### Shapes -/

/-- Two sources, a then b, one result. -/
def gop2 (len : Nat) (f : Word → Word → Word) (d a b : GNum) (fa fb : Bool) (s : State) : Out :=
  .next (s.srcG fa a fun x s => s.srcG fb b fun y s => s.putG len d (f x y))
/-- One source, one result. -/
def gop1 (len : Nat) (f : Word → Word) (d a : GNum) (fa : Bool) (s : State) : Out :=
  .next (s.srcG fa a fun x s => s.putG len d (f x))
/-- One source and d as a second source with disposition 0, checked after it. -/
def gopD (f : Word → Word → Word) (d a : GNum) (fa : Bool) (s : State) : Out :=
  .next (s.srcG fa a fun x s => s.srcG false d fun y s => s.putG 4 d (f x y))

/-! ### The functions of R191 -/

/-- 1 for true, 0 for false (R191). -/
def ofBool (b : Bool) : Word := if b then 1 else 0
/-- Bits 127:64 of the signed product (R191). -/
def mulHigh (a b : Word) : Word := BitVec.ofInt 64 (a.toInt * b.toInt / (2 ^ 64 : Nat))
/-- Bits 127:64 of the unsigned product (R191). -/
def mulHighN (a b : Word) : Word := BitVec.ofNat 64 (a.toNat * b.toNat / 2 ^ 64)
/-- Signed division truncated towards zero; B = 0 gives all ones, −2^63 / −1 gives −2^63 (R191). -/
def divS (a b : Word) : Word := if b = 0 then BitVec.allOnes 64 else BitVec.ofInt 64 (a.toInt.tdiv b.toInt)
/-- Unsigned division; B = 0 gives all ones (R191). -/
def divN (a b : Word) : Word := if b = 0 then BitVec.allOnes 64 else BitVec.ofNat 64 (a.toNat / b.toNat)
/-- Signed remainder with the sign of A; B = 0 gives A (R191). -/
def remS (a b : Word) : Word := if b = 0 then a else BitVec.ofInt 64 (a.toInt.tmod b.toInt)
/-- Unsigned remainder; B = 0 gives A (R191). -/
def remN (a b : Word) : Word := if b = 0 then a else BitVec.ofNat 64 (a.toNat % b.toNat)
/-- Sat of R191. -/
def sat64 (v : Int) : Word := BitVec.ofInt 64 (max (-(2 ^ 63 : Nat)) (min v ((2 ^ 63 : Nat) - 1)))
/-- The amount X[5:0] (R191). -/
def amt (b : Word) : Nat := b.toNat % 64
/-- Leading zero bits of the low w bits. -/
def clzNat (w x : Nat) : Nat := if x % 2 ^ w = 0 then w else w - 1 - (x % 2 ^ w).log2
/-- Trailing zero bits among the low w bits. -/
def ctzNat : Nat → Nat → Nat
  | 0, _ => 0
  | w + 1, x => if x % 2 = 1 then 0 else ctzNat w (x / 2) + 1
/-- One bits among the low w bits. -/
def popNat : Nat → Nat → Nat
  | 0, _ => 0
  | w + 1, x => x % 2 + popNat w (x / 2)
/-- The low w bits in reverse order. -/
def revNat : Nat → Nat → Nat
  | 0, _ => 0
  | w + 1, x => x % 2 * 2 ^ w + revNat w (x / 2)

/-- Shifts and rotates by an amount below 64 (R191). -/
def sllW (a : Word) (n : Nat) : Word := a <<< n
def srlW (a : Word) (n : Nat) : Word := a >>> n
def sraW (a : Word) (n : Nat) : Word := a.sshiftRight n
def rolW (a : Word) (n : Nat) : Word := a.rotateLeft n
def rorW (a : Word) (n : Nat) : Word := a.rotateRight n

/-! ### Register forms (R191, R192) -/

/-- R191: A + B. -/
def execAdd (d a b : GNum) (fa fb : Bool) (s : State) : Out := gop2 4 (· + ·) d a b fa fb s
/-- R191: A − B. -/
def execSub (d a b : GNum) (fa fb : Bool) (s : State) : Out := gop2 4 (· - ·) d a b fa fb s
/-- R191: bitwise and. -/
def execAnd (d a b : GNum) (fa fb : Bool) (s : State) : Out := gop2 4 (· &&& ·) d a b fa fb s
/-- R191: bitwise or. -/
def execOr (d a b : GNum) (fa fb : Bool) (s : State) : Out := gop2 4 (· ||| ·) d a b fa fb s
/-- R191: bitwise exclusive or. -/
def execXor (d a b : GNum) (fa fb : Bool) (s : State) : Out := gop2 4 (· ^^^ ·) d a b fa fb s
/-- R191: A and not B. -/
def execAndn (d a b : GNum) (fa fb : Bool) (s : State) : Out := gop2 4 (fun x y => x &&& ~~~y) d a b fa fb s
/-- R191: A or not B. -/
def execOrn (d a b : GNum) (fa fb : Bool) (s : State) : Out := gop2 4 (fun x y => x ||| ~~~y) d a b fa fb s
/-- R191: not (A xor B). -/
def execXnor (d a b : GNum) (fa fb : Bool) (s : State) : Out := gop2 4 (fun x y => ~~~(x ^^^ y)) d a b fa fb s
/-- R191: A shifted left by B[5:0]. -/
def execSll (d a b : GNum) (fa fb : Bool) (s : State) : Out := gop2 4 (fun x y => sllW x (amt y)) d a b fa fb s
/-- R191: A shifted logically right by B[5:0]. -/
def execSrl (d a b : GNum) (fa fb : Bool) (s : State) : Out := gop2 4 (fun x y => srlW x (amt y)) d a b fa fb s
/-- R191: A shifted arithmetically right by B[5:0]. -/
def execSra (d a b : GNum) (fa fb : Bool) (s : State) : Out := gop2 4 (fun x y => sraW x (amt y)) d a b fa fb s
/-- R191: A rotated left by B[5:0]. -/
def execRol (d a b : GNum) (fa fb : Bool) (s : State) : Out := gop2 4 (fun x y => rolW x (amt y)) d a b fa fb s
/-- R191: A rotated right by B[5:0]. -/
def execRor (d a b : GNum) (fa fb : Bool) (s : State) : Out := gop2 4 (fun x y => rorW x (amt y)) d a b fa fb s
/-- R191: (A × B)[63:0]. -/
def execMul (d a b : GNum) (fa fb : Bool) (s : State) : Out := gop2 4 (· * ·) d a b fa fb s
/-- R191: bits 127:64 of the signed product. -/
def execMulh (d a b : GNum) (fa fb : Bool) (s : State) : Out := gop2 4 mulHigh d a b fa fb s
/-- R191: bits 127:64 of the unsigned product. -/
def execMulhn (d a b : GNum) (fa fb : Bool) (s : State) : Out := gop2 4 mulHighN d a b fa fb s
/-- R191: signed division. -/
def execDiv (d a b : GNum) (fa fb : Bool) (s : State) : Out := gop2 4 divS d a b fa fb s
/-- R191: unsigned division. -/
def execDivn (d a b : GNum) (fa fb : Bool) (s : State) : Out := gop2 4 divN d a b fa fb s
/-- R191: signed remainder. -/
def execRem (d a b : GNum) (fa fb : Bool) (s : State) : Out := gop2 4 remS d a b fa fb s
/-- R191: unsigned remainder. -/
def execRemn (d a b : GNum) (fa fb : Bool) (s : State) : Out := gop2 4 remN d a b fa fb s
/-- R191: signed minimum. -/
def execMin (d a b : GNum) (fa fb : Bool) (s : State) : Out := gop2 4 (fun x y => if x.toInt ≤ y.toInt then x else y) d a b fa fb s
/-- R191: signed maximum. -/
def execMax (d a b : GNum) (fa fb : Bool) (s : State) : Out := gop2 4 (fun x y => if x.toInt ≤ y.toInt then y else x) d a b fa fb s
/-- R191: unsigned minimum. -/
def execMinn (d a b : GNum) (fa fb : Bool) (s : State) : Out := gop2 4 (fun x y => if x.toNat ≤ y.toNat then x else y) d a b fa fb s
/-- R191: unsigned maximum. -/
def execMaxn (d a b : GNum) (fa fb : Bool) (s : State) : Out := gop2 4 (fun x y => if x.toNat ≤ y.toNat then y else x) d a b fa fb s
/-- R191: sA < sB. -/
def execSlt (d a b : GNum) (fa fb : Bool) (s : State) : Out := gop2 4 (fun x y => ofBool (decide (x.toInt < y.toInt))) d a b fa fb s
/-- R191: A < B unsigned. -/
def execSltn (d a b : GNum) (fa fb : Bool) (s : State) : Out := gop2 4 (fun x y => ofBool (decide (x.toNat < y.toNat))) d a b fa fb s
/-- R191: A = B. -/
def execSeq (d a b : GNum) (fa fb : Bool) (s : State) : Out := gop2 4 (fun x y => ofBool (x == y)) d a b fa fb s
/-- R191: A ≠ B. -/
def execSne (d a b : GNum) (fa fb : Bool) (s : State) : Out := gop2 4 (fun x y => ofBool (x != y)) d a b fa fb s
/-- R191: leading zero bits. -/
def execClz (d a : GNum) (fa : Bool) (s : State) : Out := gop1 4 (fun x => BitVec.ofNat 64 (clzNat 64 x.toNat)) d a fa s
/-- R191: trailing zero bits. -/
def execCtz (d a : GNum) (fa : Bool) (s : State) : Out := gop1 4 (fun x => BitVec.ofNat 64 (ctzNat 64 x.toNat)) d a fa s
/-- R191: one bits. -/
def execPopc (d a : GNum) (fa : Bool) (s : State) : Out := gop1 4 (fun x => BitVec.ofNat 64 (popNat 64 x.toNat)) d a fa s
/-- R191: bit order reversed. -/
def execBrev (d a : GNum) (fa : Bool) (s : State) : Out := gop1 4 (fun x => BitVec.ofNat 64 (revNat 64 x.toNat)) d a fa s
/-- R191: byte order reversed. -/
def execBswap (d a : GNum) (fa : Bool) (s : State) : Out := gop1 4 (fun x => BitVec.ofNat 64 (leNat (toLe 8 x.toNat).reverse)) d a fa s
/-- R191: SignExt(A[7:0]). -/
def execSx8 (d a : GNum) (fa : Bool) (s : State) : Out := gop1 4 (fun x => (x.extractLsb' 0 8).signExtend 64) d a fa s
/-- R191: SignExt(A[15:0]). -/
def execSx16 (d a : GNum) (fa : Bool) (s : State) : Out := gop1 4 (fun x => (x.extractLsb' 0 16).signExtend 64) d a fa s
/-- R191: SignExt(A[31:0]). -/
def execSx32 (d a : GNum) (fa : Bool) (s : State) : Out := gop1 4 (fun x => (x.extractLsb' 0 32).signExtend 64) d a fa s
/-- R191: A[7:0]. -/
def execZx8 (d a : GNum) (fa : Bool) (s : State) : Out := gop1 4 (fun x => (x.extractLsb' 0 8).zeroExtend 64) d a fa s
/-- R191: A[15:0]. -/
def execZx16 (d a : GNum) (fa : Bool) (s : State) : Out := gop1 4 (fun x => (x.extractLsb' 0 16).zeroExtend 64) d a fa s
/-- R191: A[31:0]. -/
def execZx32 (d a : GNum) (fa : Bool) (s : State) : Out := gop1 4 (fun x => (x.extractLsb' 0 32).zeroExtend 64) d a fa s
/-- R191: Sat(sA + sB). -/
def execAdds (d a b : GNum) (fa fb : Bool) (s : State) : Out := gop2 4 (fun x y => sat64 (x.toInt + y.toInt)) d a b fa fb s
/-- R191: Sat(sA − sB). -/
def execSubs (d a b : GNum) (fa fb : Bool) (s : State) : Out := gop2 4 (fun x y => sat64 (x.toInt - y.toInt)) d a b fa fb s
/-- R191: min(A + B, 2^64 − 1). -/
def execAddsn (d a b : GNum) (fa fb : Bool) (s : State) : Out :=
  gop2 4 (fun x y => BitVec.ofNat 64 (min (x.toNat + y.toNat) (2 ^ 64 - 1))) d a b fa fb s
/-- R191: max(A − B, 0). -/
def execSubsn (d a b : GNum) (fa fb : Bool) (s : State) : Out :=
  gop2 4 (fun x y => BitVec.ofNat 64 (x.toNat - y.toNat)) d a b fa fb s
/-- R192: A if the old g[d] is not zero, else B; sources in the order a, b, d. -/
def execSel (d a b : GNum) (fa fb : Bool) (s : State) : Out :=
  .next (s.srcG fa a fun x s => s.srcG fb b fun y s => s.srcG false d fun c s => s.putG 4 d (if c ≠ 0 then x else y))

/-! ### Immediate forms (R193 to R195) -/

/-- R193: A + S. -/
def execAddi (d a : GNum) (fa : Bool) (imm : BitVec 13) (s : State) : Out := gop1 4 (· + imm.signExtend 64) d a fa s
/-- R193: A and S. -/
def execAndi (d a : GNum) (fa : Bool) (imm : BitVec 13) (s : State) : Out := gop1 4 (· &&& imm.signExtend 64) d a fa s
/-- R193: A or Z. -/
def execOri (d a : GNum) (fa : Bool) (imm : BitVec 13) (s : State) : Out := gop1 4 (· ||| imm.zeroExtend 64) d a fa s
/-- R193: A xor Z. -/
def execXori (d a : GNum) (fa : Bool) (imm : BitVec 13) (s : State) : Out := gop1 4 (· ^^^ imm.zeroExtend 64) d a fa s
/-- R193: A shifted left by the amount. -/
def execSlli (d a : GNum) (fa : Bool) (n : BitVec 6) (s : State) : Out := gop1 4 (sllW · n.toNat) d a fa s
/-- R193: A shifted logically right. -/
def execSrli (d a : GNum) (fa : Bool) (n : BitVec 6) (s : State) : Out := gop1 4 (srlW · n.toNat) d a fa s
/-- R193: A shifted arithmetically right. -/
def execSrai (d a : GNum) (fa : Bool) (n : BitVec 6) (s : State) : Out := gop1 4 (sraW · n.toNat) d a fa s
/-- R193: A rotated left. -/
def execRoli (d a : GNum) (fa : Bool) (n : BitVec 6) (s : State) : Out := gop1 4 (rolW · n.toNat) d a fa s
/-- R193: A rotated right. -/
def execRori (d a : GNum) (fa : Bool) (n : BitVec 6) (s : State) : Out := gop1 4 (rorW · n.toNat) d a fa s
/-- R193: 1 if sA < S. -/
def execSlti (d a : GNum) (fa : Bool) (imm : BitVec 13) (s : State) : Out := gop1 4 (fun x => ofBool (decide (x.toInt < imm.toInt))) d a fa s
/-- R193: 1 if A < Z unsigned. -/
def execSltni (d a : GNum) (fa : Bool) (imm : BitVec 13) (s : State) : Out := gop1 4 (fun x => ofBool (decide (x.toNat < imm.toNat))) d a fa s

/-- The field of len + 1 bits at pos (R194; the encoding holds len − 1). -/
def fieldOf (a : Word) (len pos : BitVec 6) : Nat := a.toNat / 2 ^ pos.toNat % 2 ^ (len.toNat + 1)
/-- R194: the field, zero-extended. -/
def execBfx (d a : GNum) (fa : Bool) (len pos : BitVec 6) (s : State) : Out :=
  gop1 4 (fun x => BitVec.ofNat 64 (fieldOf x len pos)) d a fa s
/-- R194: the field, sign-extended. -/
def execBfxs (d a : GNum) (fa : Bool) (len pos : BitVec 6) (s : State) : Out :=
  gop1 4 (fun x => BitVec.ofInt 64 (sxInt (len.toNat + 1) (fieldOf x len pos))) d a fa s
/-- R194: the low bits of A put into the field of g[d], which is read as a source after a. -/
def execBfi (d a : GNum) (fa : Bool) (len pos : BitVec 6) (s : State) : Out :=
  gopD (fun x y => setBits y pos.toNat (len.toNat + 1) x.toNat) d a fa s
/-- R195: SignExt(imm16) × 2^(16h). -/
def execLim (d : GNum) (h : Fin 4) (imm : BitVec 16) (s : State) : Out := .next (s.putG 4 d (imm.signExtend 64 <<< (16 * h.val)))
/-- R195: bits 16h+15:16h of g[d] replaced. -/
def execLimk (d : GNum) (h : Fin 4) (imm : BitVec 16) (s : State) : Out :=
  .next (s.srcG false d fun x s => s.putG 4 d (setBits x (16 * h.val) 16 imm.toNat))

/-! ### Addresses and identity (R196, R197) -/

/-- The relative form that names a cluster from another (R65, R196). -/
def relAddr (me c : ClusterId) (o : Nat) : Word :=
  BitVec.ofNat 64 ((2 ^ 15 + (c.chip.val + 128 - me.chip.val) % 128 * 256 + (c.x.val + 16 - me.x.val) % 16 * 16
    + (c.y.val + 16 - me.y.val) % 16) * 2 ^ 48 + o % 2 ^ 48)
/-- An absolute address, except that chip 0, cluster (0, 0) named from another cluster takes its relative form (R196). -/
def absOrRel (me c : ClusterId) (o : Nat) : Word := if coords c = 0 && coords me ≠ 0 then relAddr me c o else absAddr c o
/-- R196: cat(0, A[14:0], B[47:0]). -/
def execLeaA (d a b : GNum) (fa fb : Bool) (s : State) : Out :=
  .next (s.srcG fa a fun x s => s.srcG fb b fun y s => s.putG 4 d (absOrRel s.me (ofCoords (x.toNat % 2 ^ 15)) (offOf y)))
/-- R196: cat(1, A[14:0], B[47:0]). -/
def execLeaR (d a b : GNum) (fa fb : Bool) (s : State) : Out :=
  gop2 4 (fun x y => BitVec.ofNat 64 ((2 ^ 15 + x.toNat % 2 ^ 15) * 2 ^ 48 + offOf y)) d a b fa fb s
/-- R196: A resolved to absolute form with OFF (A[47:0] + B) mod 2^48. -/
def execLeaS (d a b : GNum) (fa fb : Bool) (s : State) : Out :=
  .next (s.srcG fa a fun x s => s.srcG fb b fun y s => s.putG 4 d (absOrRel s.me (resolve s.me x) (offOf x + y.toNat)))
/-- R197: the identity word. -/
def execMyid (d : GNum) (s : State) : Out :=
  .next (s.putG 4 d (BitVec.ofNat 64 (s.ctx.lcore.toNat * 2 ^ 38 + (s.leaderNum s.cur).val * 2 ^ 24
    + (coreOf s.cur).val * 2 ^ 16 + coords s.me)))

/-! ### 16-bit forms (R160): as their 32-bit equivalents, two bytes long -/

/-- R160: `add gd, ga, g0`. -/
def execCMov (d a : GNum) (s : State) : Out := gop2 2 (· + ·) d a 0 false false s
/-- R160: `add gd, gd, ga`. -/
def execCAdd (d a : GNum) (s : State) : Out := gop2 2 (· + ·) d d a false false s
/-- R160: `sub gd, gd, ga`. -/
def execCSub (d a : GNum) (s : State) : Out := gop2 2 (· - ·) d d a false false s
/-- R160: `and gd, gd, ga`. -/
def execCAnd (d a : GNum) (s : State) : Out := gop2 2 (· &&& ·) d d a false false s
/-- R160: `or gd, gd, ga`. -/
def execCOr (d a : GNum) (s : State) : Out := gop2 2 (· ||| ·) d d a false false s
/-- R160: `xor gd, gd, ga`. -/
def execCXor (d a : GNum) (s : State) : Out := gop2 2 (· ^^^ ·) d d a false false s
/-- R160: `sll gd, gd, ga`. -/
def execCSll (d a : GNum) (s : State) : Out := gop2 2 (fun x y => sllW x (amt y)) d d a false false s
/-- R160: `srl gd, gd, ga`. -/
def execCSrl (d a : GNum) (s : State) : Out := gop2 2 (fun x y => srlW x (amt y)) d d a false false s
/-- R160: `sra gd, gd, ga`. -/
def execCSra (d a : GNum) (s : State) : Out := gop2 2 (fun x y => sraW x (amt y)) d d a false false s
/-- R160: `addi gd, gd, SignExt(imm6)`. -/
def execCAddi (d : GNum) (imm : BitVec 6) (s : State) : Out := gop1 2 (· + imm.signExtend 64) d d false s
/-- R160: `addi gd, g0, SignExt(imm6)`. -/
def execCLi (d : GNum) (imm : BitVec 6) (s : State) : Out := gop1 2 (· + imm.signExtend 64) d 0 false s
/-- R160: `slli gd, gd, imm6`. -/
def execCSlli (d : GNum) (imm : BitVec 6) (s : State) : Out := gop1 2 (sllW · imm.toNat) d d false s
/-- R160: `srli gd, gd, imm6`. -/
def execCSrli (d : GNum) (imm : BitVec 6) (s : State) : Out := gop1 2 (srlW · imm.toNat) d d false s
/-- R160: `srai gd, gd, imm6`. -/
def execCSrai (d : GNum) (imm : BitVec 6) (s : State) : Out := gop1 2 (sraW · imm.toNat) d d false s

end Sys2Proof.Machine
end

