-- ==== Sys2Proof/Machine/Dispatch.lean ====
section
/-!
DEFINITION. Sys2Proof/Machine/Dispatch.lean: one arm per constructor of Instr, each a direct call of its meaning.
-/
namespace Sys2Proof.Machine

def exec (i : Instr) (s : State) : Host.Outcome State Fault Refusal :=
  match i with
  | .coldReset => Sys2Proof.Machine.execColdReset s
  | .functionLevelReset => Sys2Proof.Machine.execFunctionLevelReset s
  | .hostActiveMessage fn m => Sys2Proof.Machine.execHostActiveMessage fn m s
  | .amsgArrival m => Sys2Proof.Machine.execAmsgArrival m s
  | .amsgReoffer dst accepted => Sys2Proof.Machine.execAmsgReoffer dst accepted s
  | .holdWindowEnd c => Sys2Proof.Machine.execHoldWindowEnd c s
  | .suspension c => Sys2Proof.Machine.execSuspension c s
  | .dispatchDecision c => Sys2Proof.Machine.execDispatchDecision c s
  | .dispatchReoffer c => Sys2Proof.Machine.execDispatchReoffer c s
  | .preemptDecision r => Sys2Proof.Machine.execPreemptDecision r s
  | .faultDecision c => Sys2Proof.Machine.execFaultDecision c s
  | .policySwap => Sys2Proof.Machine.execPolicySwap s
  | .handlerEntry core => Sys2Proof.Machine.execHandlerEntry core s
  | .fatalFault c r port => Sys2Proof.Machine.execFatalFault c r port s
  | .twinRestart c => Sys2Proof.Machine.execTwinRestart c s
  | .feWaiterOffer word => Sys2Proof.Machine.execFeWaiterOffer word s
  | .watchRegistration w => Sys2Proof.Machine.execWatchRegistration w s
  | .watchFireReceipt tag value tf skid => Sys2Proof.Machine.execWatchFireReceipt tag value tf skid s
  | .watchExpiry src tag => Sys2Proof.Machine.execWatchExpiry src tag s
  | .watchExpiredReceipt tag => Sys2Proof.Machine.execWatchExpiredReceipt tag s
  | .watchRefusedReceipt tag => Sys2Proof.Machine.execWatchRefusedReceipt tag s
  | .watchStatusReceipt tag st => Sys2Proof.Machine.execWatchStatusReceipt tag st s
  | .watchWithdrawal src tag => Sys2Proof.Machine.execWatchWithdrawal src tag s
  | .roundWatchRetry grp => Sys2Proof.Machine.execRoundWatchRetry grp s
  | .roundComplete grp tf => Sys2Proof.Machine.execRoundComplete grp tf s
  | .gwaitLimitExpiry c => Sys2Proof.Machine.execGwaitLimitExpiry c s
  | .groupBrokenNotice cl => Sys2Proof.Machine.execGroupBrokenNotice cl s
  | .remoteRequest r => Sys2Proof.Machine.execRemoteRequest r s
  | .remoteDataReply tag bytes t lease skid => Sys2Proof.Machine.execRemoteDataReply tag bytes t lease skid s
  | .remoteStatusReply tag st => Sys2Proof.Machine.execRemoteStatusReply tag st s
  | .deferredReply tag => Sys2Proof.Machine.execDeferredReply tag s
  | .deferredResend tag => Sys2Proof.Machine.execDeferredResend tag s
  | .deferLimitExpiry tag => Sys2Proof.Machine.execDeferLimitExpiry tag s
  | .copyRequestSend op => Sys2Proof.Machine.execCopyRequestSend op s
  | .pullDataReply tag bytes t => Sys2Proof.Machine.execPullDataReply tag bytes t s
  | .copyOpCompletion op => Sys2Proof.Machine.execCopyOpCompletion op s
  | .directEntryStart => Sys2Proof.Machine.execDirectEntryStart s
  | .planeLoadCompletion => Sys2Proof.Machine.execPlaneLoadCompletion s
  | .passCompletion => Sys2Proof.Machine.execPassCompletion s
  | .residueRestream row => Sys2Proof.Machine.execResidueRestream row s
  | .mcvtCompletion => Sys2Proof.Machine.execMcvtCompletion s
  | .mzeroCompletion => Sys2Proof.Machine.execMzeroCompletion s
  | .taskVisible idx => Sys2Proof.Machine.execTaskVisible idx s
  | .taskLaunch => Sys2Proof.Machine.execTaskLaunch s
  | .taskCompletion idx => Sys2Proof.Machine.execTaskCompletion idx s
  | .recallStart page => Sys2Proof.Machine.execRecallStart page s
  | .pendingRecallStart => Sys2Proof.Machine.execPendingRecallStart s
  | .fillCancelNotice owner page => Sys2Proof.Machine.execFillCancelNotice owner page s
  | .recallCompletion page => Sys2Proof.Machine.execRecallCompletion page s
  | .walkMigRetry c => Sys2Proof.Machine.execWalkMigRetry c s
  | .walkMigTimeout c => Sys2Proof.Machine.execWalkMigTimeout c s
  | .tinvAcknowledge agent => Sys2Proof.Machine.execTinvAcknowledge agent s
  | .slotBoundary => Sys2Proof.Machine.execSlotBoundary s
  | .guardEnd => Sys2Proof.Machine.execGuardEnd s
  | .rotorLockLoss => Sys2Proof.Machine.execRotorLockLoss s
  | .rotorLockRegain => Sys2Proof.Machine.execRotorLockRegain s
  | .relayReceive m => Sys2Proof.Machine.execRelayReceive m s
  | .pairSequenceDelivery m => Sys2Proof.Machine.execPairSequenceDelivery m s
  | .pairAckReceipt chip seq => Sys2Proof.Machine.execPairAckReceipt chip seq s
  | .e2eTimerExpiry chip seq => Sys2Proof.Machine.execE2eTimerExpiry chip seq s
  | .abandonNotice chip seq answers => Sys2Proof.Machine.execAbandonNotice chip seq answers s
  | .tagGroupReceipt g => Sys2Proof.Machine.execTagGroupReceipt g s
  | .tagGroupAck b grp ok => Sys2Proof.Machine.execTagGroupAck b grp ok s
  | .idleGroupClose b => Sys2Proof.Machine.execIdleGroupClose b s
  | .berWindowEnd b tx wl errors => Sys2Proof.Machine.execBerWindowEnd b tx wl errors s
  | .portDownCheck port received => Sys2Proof.Machine.execPortDownCheck port received s
  | .lostNotice chip c0 => Sys2Proof.Machine.execLostNotice chip c0 s
  | .drainRound chip k => Sys2Proof.Machine.execDrainRound chip k s
  | .moduleFailure chip => Sys2Proof.Machine.execModuleFailure chip s
  | .clusterKill cl => Sys2Proof.Machine.execClusterKill cl s
  | .scrubStart cl => Sys2Proof.Machine.execScrubStart cl s
  | .scrubCompletion cl => Sys2Proof.Machine.execScrubCompletion cl s
  | .atsInvalidation page => Sys2Proof.Machine.execAtsInvalidation page s
  | .atsInvalTimeout page => Sys2Proof.Machine.execAtsInvalTimeout page s
  | .hdmHostRead cl off => Sys2Proof.Machine.execHdmHostRead cl off s
  | .hdmHostWrite cl off value => Sys2Proof.Machine.execHdmHostWrite cl off value s
  | .tdispConfigLock fn => Sys2Proof.Machine.execTdispConfigLock fn s
  | .markedRegisterWrite fn reg => Sys2Proof.Machine.execMarkedRegisterWrite fn reg s
  | .mgmtRegisterWrite fn reg => Sys2Proof.Machine.execMgmtRegisterWrite fn reg s
  | .portWriteDiscard fn size => Sys2Proof.Machine.execPortWriteDiscard fn size s
  | .status c => Sys2Proof.Machine.execStatus c s
  | .warmreset c => Sys2Proof.Machine.execWarmreset c s
  | .featset c feat0 feat1 => Sys2Proof.Machine.execFeatset c feat0 feat1 s
  | .podcfg c p => Sys2Proof.Machine.execPodcfg c p s
  | .linkcfg c p => Sys2Proof.Machine.execLinkcfg c p s
  | .linkstat c => Sys2Proof.Machine.execLinkstat c s
  | .launch c l => Sys2Proof.Machine.execLaunch c l s
  | .teardown c part spadMethod hbmMethod hold => Sys2Proof.Machine.execTeardown c part spadMethod hbmMethod hold s
  | .kill c cl => Sys2Proof.Machine.execKill c cl s
  | .wake c cl => Sys2Proof.Machine.execWake c cl s
  | .rejoin c r => Sys2Proof.Machine.execRejoin c r s
  | .revoke c part ptag => Sys2Proof.Machine.execRevoke c part ptag s
  | .ingestkey c part ptag key => Sys2Proof.Machine.execIngestkey c part ptag key s
  | .quote c part nonce => Sys2Proof.Machine.execQuote c part nonce s
  | .dumpget c cl core => Sys2Proof.Machine.execDumpget c cl core s
  | .checkpoint c a => Sys2Proof.Machine.execCheckpoint c a s
  | .restore c r => Sys2Proof.Machine.execRestore c r s
  | .bias c part page host => Sys2Proof.Machine.execBias c part page host s
  | .evtcfg c base len => Sys2Proof.Machine.execEvtcfg c base len s
  | .monread c => Sys2Proof.Machine.execMonread c s
  | .pwrlim c watts => Sys2Proof.Machine.execPwrlim c watts s
  | .debug c part ctxs => Sys2Proof.Machine.execDebug c part ctxs s
  | .commandUnknown c => Sys2Proof.Machine.execCommandUnknown c s
  | .sensorSample r => Sys2Proof.Machine.execSensorSample r s
  | .railExcursion rail => Sys2Proof.Machine.execRailExcursion rail s
  | .saveadv v => Sys2Proof.Machine.execSaveadv v s
  | .sctlWrite v => Sys2Proof.Machine.execSctlWrite v s
  | .cpcWrite v => Sys2Proof.Machine.execCpcWrite v s
  | .crepxWrite v => Sys2Proof.Machine.execCrepxWrite v s
  | .specialRegisterWrite num v => Sys2Proof.Machine.execSpecialRegisterWrite num v s
  | .illegalEncoding w => Sys2Proof.Machine.execIllegalEncoding w s
  | .fetchFault cause addr => Sys2Proof.Machine.execFetchFault cause addr s
  | .hostCompletionTimeout op => Sys2Proof.Machine.execHostCompletionTimeout op s
  | .tdispInterfaceRequest fn r => Sys2Proof.Machine.execTdispInterfaceRequest fn r s
  | .managementLossDeclaration chip => Sys2Proof.Machine.execManagementLossDeclaration chip s
  | .corePowerGating core => Sys2Proof.Machine.execCorePowerGating core s
  | .debuggerHalt core => Sys2Proof.Machine.execDebuggerHalt core s
  | .add d a b fa fb => Sys2Proof.Machine.execAdd d a b fa fb s
  | .sub d a b fa fb => Sys2Proof.Machine.execSub d a b fa fb s
  | .and d a b fa fb => Sys2Proof.Machine.execAnd d a b fa fb s
  | .or d a b fa fb => Sys2Proof.Machine.execOr d a b fa fb s
  | .xor d a b fa fb => Sys2Proof.Machine.execXor d a b fa fb s
  | .andn d a b fa fb => Sys2Proof.Machine.execAndn d a b fa fb s
  | .orn d a b fa fb => Sys2Proof.Machine.execOrn d a b fa fb s
  | .xnor d a b fa fb => Sys2Proof.Machine.execXnor d a b fa fb s
  | .sll d a b fa fb => Sys2Proof.Machine.execSll d a b fa fb s
  | .srl d a b fa fb => Sys2Proof.Machine.execSrl d a b fa fb s
  | .sra d a b fa fb => Sys2Proof.Machine.execSra d a b fa fb s
  | .rol d a b fa fb => Sys2Proof.Machine.execRol d a b fa fb s
  | .ror d a b fa fb => Sys2Proof.Machine.execRor d a b fa fb s
  | .mul d a b fa fb => Sys2Proof.Machine.execMul d a b fa fb s
  | .mulh d a b fa fb => Sys2Proof.Machine.execMulh d a b fa fb s
  | .mulhn d a b fa fb => Sys2Proof.Machine.execMulhn d a b fa fb s
  | .div d a b fa fb => Sys2Proof.Machine.execDiv d a b fa fb s
  | .divn d a b fa fb => Sys2Proof.Machine.execDivn d a b fa fb s
  | .rem d a b fa fb => Sys2Proof.Machine.execRem d a b fa fb s
  | .remn d a b fa fb => Sys2Proof.Machine.execRemn d a b fa fb s
  | .min d a b fa fb => Sys2Proof.Machine.execMin d a b fa fb s
  | .max d a b fa fb => Sys2Proof.Machine.execMax d a b fa fb s
  | .minn d a b fa fb => Sys2Proof.Machine.execMinn d a b fa fb s
  | .maxn d a b fa fb => Sys2Proof.Machine.execMaxn d a b fa fb s
  | .slt d a b fa fb => Sys2Proof.Machine.execSlt d a b fa fb s
  | .sltn d a b fa fb => Sys2Proof.Machine.execSltn d a b fa fb s
  | .seq d a b fa fb => Sys2Proof.Machine.execSeq d a b fa fb s
  | .sne d a b fa fb => Sys2Proof.Machine.execSne d a b fa fb s
  | .clz d a fa => Sys2Proof.Machine.execClz d a fa s
  | .ctz d a fa => Sys2Proof.Machine.execCtz d a fa s
  | .popc d a fa => Sys2Proof.Machine.execPopc d a fa s
  | .brev d a fa => Sys2Proof.Machine.execBrev d a fa s
  | .bswap d a fa => Sys2Proof.Machine.execBswap d a fa s
  | .sx8 d a fa => Sys2Proof.Machine.execSx8 d a fa s
  | .sx16 d a fa => Sys2Proof.Machine.execSx16 d a fa s
  | .sx32 d a fa => Sys2Proof.Machine.execSx32 d a fa s
  | .zx8 d a fa => Sys2Proof.Machine.execZx8 d a fa s
  | .zx16 d a fa => Sys2Proof.Machine.execZx16 d a fa s
  | .zx32 d a fa => Sys2Proof.Machine.execZx32 d a fa s
  | .adds d a b fa fb => Sys2Proof.Machine.execAdds d a b fa fb s
  | .subs d a b fa fb => Sys2Proof.Machine.execSubs d a b fa fb s
  | .addsn d a b fa fb => Sys2Proof.Machine.execAddsn d a b fa fb s
  | .subsn d a b fa fb => Sys2Proof.Machine.execSubsn d a b fa fb s
  | .sel d a b fa fb => Sys2Proof.Machine.execSel d a b fa fb s
  | .addi d a fa imm => Sys2Proof.Machine.execAddi d a fa imm s
  | .andi d a fa imm => Sys2Proof.Machine.execAndi d a fa imm s
  | .ori d a fa imm => Sys2Proof.Machine.execOri d a fa imm s
  | .xori d a fa imm => Sys2Proof.Machine.execXori d a fa imm s
  | .slli d a fa n => Sys2Proof.Machine.execSlli d a fa n s
  | .srli d a fa n => Sys2Proof.Machine.execSrli d a fa n s
  | .srai d a fa n => Sys2Proof.Machine.execSrai d a fa n s
  | .roli d a fa n => Sys2Proof.Machine.execRoli d a fa n s
  | .rori d a fa n => Sys2Proof.Machine.execRori d a fa n s
  | .slti d a fa imm => Sys2Proof.Machine.execSlti d a fa imm s
  | .sltni d a fa imm => Sys2Proof.Machine.execSltni d a fa imm s
  | .bfx d a fa len pos => Sys2Proof.Machine.execBfx d a fa len pos s
  | .bfxs d a fa len pos => Sys2Proof.Machine.execBfxs d a fa len pos s
  | .bfi d a fa len pos => Sys2Proof.Machine.execBfi d a fa len pos s
  | .lim d h imm => Sys2Proof.Machine.execLim d h imm s
  | .limk d h imm => Sys2Proof.Machine.execLimk d h imm s
  | .leaA d a b fa fb => Sys2Proof.Machine.execLeaA d a b fa fb s
  | .leaR d a b fa fb => Sys2Proof.Machine.execLeaR d a b fa fb s
  | .leaS d a b fa fb => Sys2Proof.Machine.execLeaS d a b fa fb s
  | .myid d => Sys2Proof.Machine.execMyid d s
  | .kand d a b => Sys2Proof.Machine.execKand d a b s
  | .kor d a b => Sys2Proof.Machine.execKor d a b s
  | .kxor d a b => Sys2Proof.Machine.execKxor d a b s
  | .kandn d a b => Sys2Proof.Machine.execKandn d a b s
  | .knot d a => Sys2Proof.Machine.execKnot d a s
  | .kfromg d a fa => Sys2Proof.Machine.execKfromg d a fa s
  | .ktog d a => Sys2Proof.Machine.execKtog d a s
  | .kpop d a => Sys2Proof.Machine.execKpop d a s
  | .kfirst d a => Sys2Proof.Machine.execKfirst d a s
  | .vperm d a b k fa fb => Sys2Proof.Machine.execVperm d a b k fa fb s
  | .vperm2 d a b k fa fb => Sys2Proof.Machine.execVperm2 d a b k fa fb s
  | .vzip d a b fa fb => Sys2Proof.Machine.execVzip d a b fa fb s
  | .vunzip d a b fa fb => Sys2Proof.Machine.execVunzip d a b fa fb s
  | .vscl d a b k fa fb => Sys2Proof.Machine.execVscl d a b k fa fb s
  | .vqnt d a b k fa fb => Sys2Proof.Machine.execVqnt d a b k fa fb s
  | .beq a b disp => Sys2Proof.Machine.execBeq a b disp s
  | .bne a b disp => Sys2Proof.Machine.execBne a b disp s
  | .blt a b disp => Sys2Proof.Machine.execBlt a b disp s
  | .bge a b disp => Sys2Proof.Machine.execBge a b disp s
  | .bltn a b disp => Sys2Proof.Machine.execBltn a b disp s
  | .bgen a b disp => Sys2Proof.Machine.execBgen a b disp s
  | .j disp => Sys2Proof.Machine.execJ disp s
  | .call disp => Sys2Proof.Machine.execCall disp s
  | .jr a fa => Sys2Proof.Machine.execJr a fa s
  | .callr d a fa => Sys2Proof.Machine.execCallr d a fa s
  | .ldI8 d base fa off => Sys2Proof.Machine.execLdI8 d base fa off s
  | .ldI16 d base fa off => Sys2Proof.Machine.execLdI16 d base fa off s
  | .ldI32 d base fa off => Sys2Proof.Machine.execLdI32 d base fa off s
  | .ldI64 d base fa off => Sys2Proof.Machine.execLdI64 d base fa off s
  | .ldN8 d base fa off => Sys2Proof.Machine.execLdN8 d base fa off s
  | .ldN16 d base fa off => Sys2Proof.Machine.execLdN16 d base fa off s
  | .ldN32 d base fa off => Sys2Proof.Machine.execLdN32 d base fa off s
  | .stI8 r base fa off => Sys2Proof.Machine.execStI8 r base fa off s
  | .stI16 r base fa off => Sys2Proof.Machine.execStI16 r base fa off s
  | .stI32 r base fa off => Sys2Proof.Machine.execStI32 r base fa off s
  | .stI64 r base fa off => Sys2Proof.Machine.execStI64 r base fa off s
  | .ldfe d base fa off => Sys2Proof.Machine.execLdfe d base fa off s
  | .ldff d base fa off => Sys2Proof.Machine.execLdff d base fa off s
  | .stfe r base fa off => Sys2Proof.Machine.execStfe r base fa off s
  | .stff r base fa off => Sys2Proof.Machine.execStff r base fa off s
  | .purge base fa off => Sys2Proof.Machine.execPurge base fa off s
  | .aadd d a b fa fb w32 => Sys2Proof.Machine.execAadd d a b fa fb w32 s
  | .aaddNr a b fa fb w32 => Sys2Proof.Machine.execAaddNr a b fa fb w32 s
  | .aand d a b fa fb w32 => Sys2Proof.Machine.execAand d a b fa fb w32 s
  | .aandNr a b fa fb w32 => Sys2Proof.Machine.execAandNr a b fa fb w32 s
  | .aor d a b fa fb w32 => Sys2Proof.Machine.execAor d a b fa fb w32 s
  | .aorNr a b fa fb w32 => Sys2Proof.Machine.execAorNr a b fa fb w32 s
  | .axor d a b fa fb w32 => Sys2Proof.Machine.execAxor d a b fa fb w32 s
  | .axorNr a b fa fb w32 => Sys2Proof.Machine.execAxorNr a b fa fb w32 s
  | .amin d a b fa fb w32 => Sys2Proof.Machine.execAmin d a b fa fb w32 s
  | .aminNr a b fa fb w32 => Sys2Proof.Machine.execAminNr a b fa fb w32 s
  | .amax d a b fa fb w32 => Sys2Proof.Machine.execAmax d a b fa fb w32 s
  | .amaxNr a b fa fb w32 => Sys2Proof.Machine.execAmaxNr a b fa fb w32 s
  | .aminn d a b fa fb w32 => Sys2Proof.Machine.execAminn d a b fa fb w32 s
  | .aminnNr a b fa fb w32 => Sys2Proof.Machine.execAminnNr a b fa fb w32 s
  | .amaxn d a b fa fb w32 => Sys2Proof.Machine.execAmaxn d a b fa fb w32 s
  | .amaxnNr a b fa fb w32 => Sys2Proof.Machine.execAmaxnNr a b fa fb w32 s
  | .aswap d a b fa fb w32 => Sys2Proof.Machine.execAswap d a b fa fb w32 s
  | .acas d a b fa fb w32 => Sys2Proof.Machine.execAcas d a b fa fb w32 s
  | .watch d a b fa fb => Sys2Proof.Machine.execWatch d a b fa fb s
  | .watchT d a b fa fb e => Sys2Proof.Machine.execWatchT d a b fa fb e s
  | .seqAdv d a b fa fb => Sys2Proof.Machine.execSeqAdv d a b fa fb s
  | .pfence => Sys2Proof.Machine.execPfence s
  | .yield => Sys2Proof.Machine.execYield s
  | .park => Sys2Proof.Machine.execPark s
  | .exit => Sys2Proof.Machine.execExit s
  | .pull a b fa fb e => Sys2Proof.Machine.execPull a b fa fb e s
  | .pull2d d a b fa fb e => Sys2Proof.Machine.execPull2d d a b fa fb e s
  | .pullG d b fb e => Sys2Proof.Machine.execPullG d b fb e s
  | .pullAdd a b fa fb e => Sys2Proof.Machine.execPullAdd a b fa fb e s
  | .copy a b fa fb e => Sys2Proof.Machine.execCopy a b fa fb e s
  | .hget a b fa fb e => Sys2Proof.Machine.execHget a b fa fb e s
  | .hsend a b fa fb e => Sys2Proof.Machine.execHsend a b fa fb e s
  | .spawn d a b fa fb e => Sys2Proof.Machine.execSpawn d a b fa fb e s
  | .amsg d a b fa fb e => Sys2Proof.Machine.execAmsg d a b fa fb e s
  | .tlwait d tl => Sys2Proof.Machine.execTlwait d tl s
  | .tltest d tl => Sys2Proof.Machine.execTltest d tl s
  | .tlrd d tl => Sys2Proof.Machine.execTlrd d tl s
  | .tlhigh d tl => Sys2Proof.Machine.execTlhigh d tl s
  | .tlerr d tl => Sys2Proof.Machine.execTlerr d tl s
  | .garrive d idx => Sys2Proof.Machine.execGarrive d idx s
  | .gwait d idx => Sys2Proof.Machine.execGwait d idx s
  | .gwaitT d e idx => Sys2Proof.Machine.execGwaitT d e idx s
  | .gsync d idx => Sys2Proof.Machine.execGsync d idx s
  | .gquery d idx => Sys2Proof.Machine.execGquery d idx s
  | .calrd d item => Sys2Proof.Machine.execCalrd d item s
  | .srd d num => Sys2Proof.Machine.execSrd d num s
  | .swr d num => Sys2Proof.Machine.execSwr d num s
  | .erd d e => Sys2Proof.Machine.execErd d e s
  | .ewr d e => Sys2Proof.Machine.execEwr d e s
  | .tset a b fa fb t => Sys2Proof.Machine.execTset a b fa fb t s
  | .tgetW0 d t => Sys2Proof.Machine.execTgetW0 d t s
  | .tgetW1 d t => Sys2Proof.Machine.execTgetW1 d t s
  | .mld t => Sys2Proof.Machine.execMld t s
  | .mldt t => Sys2Proof.Machine.execMldt t s
  | .mmeta a fa t => Sys2Proof.Machine.execMmeta a fa t s
  | .mswap => Sys2Proof.Machine.execMswap s
  | .mstream a fa t => Sys2Proof.Machine.execMstream a fa t s
  | .mzero a fa => Sys2Proof.Machine.execMzero a fa s
  | .mcvt a b fa fb t => Sys2Proof.Machine.execMcvt a b fa fb t s
  | .mtask a fa => Sys2Proof.Machine.execMtask a fa s
  | .tret a fa => Sys2Proof.Machine.execTret a fa s
  | .cstart d a fa => Sys2Proof.Machine.execCstart d a fa s
  | .cstop d a fa => Sys2Proof.Machine.execCstop d a fa s
  | .creap d a b fa fb => Sys2Proof.Machine.execCreap d a b fa fb s
  | .ctxsv d a b fa fb => Sys2Proof.Machine.execCtxsv d a b fa fb s
  | .ctxld d a b fa fb => Sys2Proof.Machine.execCtxld d a b fa fb s
  | .rlarm d a fa => Sys2Proof.Machine.execRlarm d a fa s
  | .prset d a b fa fb => Sys2Proof.Machine.execPrset d a b fa fb s
  | .tinv d a b fa fb => Sys2Proof.Machine.execTinv d a b fa fb s
  | .cflush d a b fa fb => Sys2Proof.Machine.execCflush d a b fa fb s
  | .cinval d a b fa fb => Sys2Proof.Machine.execCinval d a b fa fb s
  | .polld d a b fa fb => Sys2Proof.Machine.execPolld d a b fa fb s
  | .polsw d a fa => Sys2Proof.Machine.execPolsw d a fa s
  | .vld d base fa tag k off => Sys2Proof.Machine.execVld d base fa tag k off s
  | .vst r base fa k off => Sys2Proof.Machine.execVst r base fa k off s
  | .vlds d base fa tag k r => Sys2Proof.Machine.execVlds d base fa tag k r s
  | .vsts d base fa tag k r => Sys2Proof.Machine.execVsts d base fa tag k r s
  | .vldp d base fa tag k off => Sys2Proof.Machine.execVldp d base fa tag k off s
  | .vldt d base fa tag k r => Sys2Proof.Machine.execVldt d base fa tag k r s
  | .vldg d a tag sc k e => Sys2Proof.Machine.execVldg d a tag sc k e s
  | .vstg d a tag sc k e => Sys2Proof.Machine.execVstg d a tag sc k e s
  | .vadd d a b k fa fb => Sys2Proof.Machine.execVadd d a b k fa fb s
  | .vsub d a b k fa fb => Sys2Proof.Machine.execVsub d a b k fa fb s
  | .vadds d a b k fa fb => Sys2Proof.Machine.execVadds d a b k fa fb s
  | .vsubs d a b k fa fb => Sys2Proof.Machine.execVsubs d a b k fa fb s
  | .vmul d a b k fa fb => Sys2Proof.Machine.execVmul d a b k fa fb s
  | .vmulh d a b k fa fb => Sys2Proof.Machine.execVmulh d a b k fa fb s
  | .vfma d a b k fa fb => Sys2Proof.Machine.execVfma d a b k fa fb s
  | .vfms d a b k fa fb => Sys2Proof.Machine.execVfms d a b k fa fb s
  | .vmin d a b k fa fb => Sys2Proof.Machine.execVmin d a b k fa fb s
  | .vmax d a b k fa fb => Sys2Proof.Machine.execVmax d a b k fa fb s
  | .vand d a b k fa fb => Sys2Proof.Machine.execVand d a b k fa fb s
  | .vor d a b k fa fb => Sys2Proof.Machine.execVor d a b k fa fb s
  | .vxor d a b k fa fb => Sys2Proof.Machine.execVxor d a b k fa fb s
  | .vandn d a b k fa fb => Sys2Proof.Machine.execVandn d a b k fa fb s
  | .vsll d a b k fa fb => Sys2Proof.Machine.execVsll d a b k fa fb s
  | .vsrl d a b k fa fb => Sys2Proof.Machine.execVsrl d a b k fa fb s
  | .vsra d a b k fa fb => Sys2Proof.Machine.execVsra d a b k fa fb s
  | .vrol d a b k fa fb => Sys2Proof.Machine.execVrol d a b k fa fb s
  | .vcmp cond kd a b k fa fb => Sys2Proof.Machine.execVcmp cond kd a b k fa fb s
  | .vcmpa cond kd a b k fa fb => Sys2Proof.Machine.execVcmpa cond kd a b k fa fb s
  | .vcvt d a dtag rnd k fa => Sys2Proof.Machine.execVcvt d a dtag rnd k fa s
  | .vabs d a k fa => Sys2Proof.Machine.execVabs d a k fa s
  | .vneg d a k fa => Sys2Proof.Machine.execVneg d a k fa s
  | .vnot d a k fa => Sys2Proof.Machine.execVnot d a k fa s
  | .vclz d a k fa => Sys2Proof.Machine.execVclz d a k fa s
  | .vpopc d a k fa => Sys2Proof.Machine.execVpopc d a k fa s
  | .vrcp d a k fa => Sys2Proof.Machine.execVrcp d a k fa s
  | .vrsq d a k fa => Sys2Proof.Machine.execVrsq d a k fa s
  | .vexp2 d a k fa => Sys2Proof.Machine.execVexp2 d a k fa s
  | .vlog2 d a k fa => Sys2Proof.Machine.execVlog2 d a k fa s
  | .vrtrec d a k fa => Sys2Proof.Machine.execVrtrec d a k fa s
  | .vsqrt d a rnd k fa => Sys2Proof.Machine.execVsqrt d a rnd k fa s
  | .vrsum d a rnd k fa => Sys2Proof.Machine.execVrsum d a rnd k fa s
  | .vrmax d a k fa => Sys2Proof.Machine.execVrmax d a k fa s
  | .vrmin d a k fa => Sys2Proof.Machine.execVrmin d a k fa s
  | .vrand d a k fa => Sys2Proof.Machine.execVrand d a k fa s
  | .vrior d a k fa => Sys2Proof.Machine.execVrior d a k fa s
  | .vrxor d a k fa => Sys2Proof.Machine.execVrxor d a k fa s
  | .vtagw d a tag fa => Sys2Proof.Machine.execVtagw d a tag fa s
  | .vtag d a fa => Sys2Proof.Machine.execVtag d a fa s
  | .vbcast d a tag k fa => Sys2Proof.Machine.execVbcast d a tag k fa s
  | .vmovg d a fa => Sys2Proof.Machine.execVmovg d a fa s
  | .vsldu d a amt k fa => Sys2Proof.Machine.execVsldu d a amt k fa s
  | .vsldd d a amt k fa => Sys2Proof.Machine.execVsldd d a amt k fa s
  | .vlrot d a amt k fa => Sys2Proof.Machine.execVlrot d a amt k fa s
  | .cMov d a => Sys2Proof.Machine.execCMov d a s
  | .cAdd d a => Sys2Proof.Machine.execCAdd d a s
  | .cSub d a => Sys2Proof.Machine.execCSub d a s
  | .cAnd d a => Sys2Proof.Machine.execCAnd d a s
  | .cOr d a => Sys2Proof.Machine.execCOr d a s
  | .cXor d a => Sys2Proof.Machine.execCXor d a s
  | .cSll d a => Sys2Proof.Machine.execCSll d a s
  | .cSrl d a => Sys2Proof.Machine.execCSrl d a s
  | .cSra d a => Sys2Proof.Machine.execCSra d a s
  | .cLd d a => Sys2Proof.Machine.execCLd d a s
  | .cSt d a => Sys2Proof.Machine.execCSt d a s
  | .cJr a => Sys2Proof.Machine.execCJr a s
  | .cCallr d a => Sys2Proof.Machine.execCCallr d a s
  | .cLdfe d a => Sys2Proof.Machine.execCLdfe d a s
  | .cStfe d a => Sys2Proof.Machine.execCStfe d a s
  | .cAddi d imm => Sys2Proof.Machine.execCAddi d imm s
  | .cLi d imm => Sys2Proof.Machine.execCLi d imm s
  | .cSlli d imm => Sys2Proof.Machine.execCSlli d imm s
  | .cSrli d imm => Sys2Proof.Machine.execCSrli d imm s
  | .cSrai d imm => Sys2Proof.Machine.execCSrai d imm s
  | .cBz d imm => Sys2Proof.Machine.execCBz d imm s
  | .cBnz d imm => Sys2Proof.Machine.execCBnz d imm s
  | .nop => Sys2Proof.Machine.execNop s
  | .cJ imm => Sys2Proof.Machine.execCJ imm s
  | .cYield => Sys2Proof.Machine.execCYield s
  | .cPark => Sys2Proof.Machine.execCPark s
  | .cExit => Sys2Proof.Machine.execCExit s
  | .brk imm => Sys2Proof.Machine.execBrk imm s
  | .svc imm => Sys2Proof.Machine.execSvc imm s
  | .cPfence => Sys2Proof.Machine.execCPfence s
  | .rep cnt sd sa sb st => Sys2Proof.Machine.execRep cnt sd sa sb st s

end Sys2Proof.Machine
end

