-- ==== Sys2Proof/Machine/Fetch.lean ====
section
/-!
DEFINITION. Sys2Proof/Machine/Fetch.lean: fetching an instruction (R155, R156, R353), the operands of a repetition (R165), the
execution of a context's next instruction, and when a BLOCKED context's wait is over. The definitions are noncomputable
for compiled code only (see Decode.lean).
-/
namespace Sys2Proof.Machine

noncomputable section

/-! ### Parcels -/

/-- What fetching gives. -/
inductive Fetched where
  | instr (i : Instr) (len : Nat)
  | illegal (w : BitVec 32)
  | fail (cause : BitVec 8) (addr : Word)
  | wait (key : Nat)
  deriving DecidableEq, Repr

/-- One parcel fetched with its checks (R353), or the cause that stops it. -/
def State.fetchParcel (s : State) (pc : BitVec 48) : (Parcel ⊕ Fetched) × State :=
  let a : Word := pc.zeroExtend 64
  match s.access s.agent s.sup .fx pc.toNat 2 with
  | (.ok key, s) => let (p, s) := s.parcelAt key; (.inl p, s)
  | (.unmapped, s) => (.inr (.fail 0x0A a), s)
  | (.denied hbm, s) => (.inr (.fail (if hbm then 0x0A else 0x09) a), s)
  | (.nonres _ _, s) => (.inr (.fail 0x0C a), s)
  | (.walknr, s) => (.inr (.fail 0x18 a), s)
  | (.mig key, s) => (.inr (.wait key), s)
  | (.err, s) => (.inr (.fail 0x19 a), s)

/-- The instruction at an address (R155). -/
def State.fetchAt (s : State) (pc : BitVec 48) : Fetched × State :=
  match s.fetchParcel pc with
  | (.inr f, s) => (f, s)
  | (.inl p, s) =>
    if isLong p then
      match s.fetchParcel (pc + 2) with
      | (.inr f, s) => (f, s)
      | (.inl q, s) =>
        match decode [p, q] with
        | .ok (i, _) => (.instr i 4, s)
        | .error _ => (.illegal (p ++ q), s)
    else
      match decode [p] with
      | .ok (i, _) => (.instr i 2, s)
      | .error _ => (.illegal (p.zeroExtend 32), s)

/-! ### Repetitions (R160, R165) -/

/-- The 32-bit form of a repeatable 16-bit instruction (R160). -/
def longForm : Instr → Instr
  | .cMov d a => .add d a 0 false false
  | .cAdd d a => .add d d a false false
  | .cSub d a => .sub d d a false false
  | .cAnd d a => .and d d a false false
  | .cOr d a => .or d d a false false
  | .cXor d a => .xor d d a false false
  | .cSll d a => .sll d d a false false
  | .cSrl d a => .srl d d a false false
  | .cSra d a => .sra d d a false false
  | .cLd d a => .ldI64 d a false 0
  | .cSt d a => .stI64 d a false 0
  | .cLdfe d a => .ldfe d a false 0
  | .cStfe d a => .stfe d a false 0
  | .cAddi d imm => .addi d d false (imm.signExtend 13)
  | .cLi d imm => .addi d 0 false (imm.signExtend 13)
  | .cSlli d imm => .slli d d false imm
  | .cSrli d imm => .srli d d false imm
  | .cSrai d imm => .srai d d false imm
  | i => i

/-- A field stepped modulo its file size (R165). -/
def RepRun.step (p : RepRun) (on : Bool) (n : Nat) (x : Fin n) : Fin n :=
  if on then ⟨(x.val + p.j * p.stride) % n, Nat.mod_lt _ (Nat.lt_of_le_of_lt (Nat.zero_le _) x.isLt)⟩ else x
/-- A d field. -/
def RepRun.d (p : RepRun) (n : Nat) (x : Fin n) : Fin n := p.step p.sd n x
/-- An a field. -/
def RepRun.a (p : RepRun) (n : Nat) (x : Fin n) : Fin n := p.step p.sa n x
/-- A b field. -/
def RepRun.b (p : RepRun) (n : Nat) (x : Fin n) : Fin n := p.step p.sb n x

/-- The instruction of a repetition: its stepped register fields (R165). -/
def repOperands (p : RepRun) : Instr → Instr
  | .add d a b fa fb => .add (p.d 32 d) (p.a 32 a) (p.b 32 b) fa fb
  | .sub d a b fa fb => .sub (p.d 32 d) (p.a 32 a) (p.b 32 b) fa fb
  | .and d a b fa fb => .and (p.d 32 d) (p.a 32 a) (p.b 32 b) fa fb
  | .or d a b fa fb => .or (p.d 32 d) (p.a 32 a) (p.b 32 b) fa fb
  | .xor d a b fa fb => .xor (p.d 32 d) (p.a 32 a) (p.b 32 b) fa fb
  | .andn d a b fa fb => .andn (p.d 32 d) (p.a 32 a) (p.b 32 b) fa fb
  | .orn d a b fa fb => .orn (p.d 32 d) (p.a 32 a) (p.b 32 b) fa fb
  | .xnor d a b fa fb => .xnor (p.d 32 d) (p.a 32 a) (p.b 32 b) fa fb
  | .sll d a b fa fb => .sll (p.d 32 d) (p.a 32 a) (p.b 32 b) fa fb
  | .srl d a b fa fb => .srl (p.d 32 d) (p.a 32 a) (p.b 32 b) fa fb
  | .sra d a b fa fb => .sra (p.d 32 d) (p.a 32 a) (p.b 32 b) fa fb
  | .rol d a b fa fb => .rol (p.d 32 d) (p.a 32 a) (p.b 32 b) fa fb
  | .ror d a b fa fb => .ror (p.d 32 d) (p.a 32 a) (p.b 32 b) fa fb
  | .mul d a b fa fb => .mul (p.d 32 d) (p.a 32 a) (p.b 32 b) fa fb
  | .mulh d a b fa fb => .mulh (p.d 32 d) (p.a 32 a) (p.b 32 b) fa fb
  | .mulhn d a b fa fb => .mulhn (p.d 32 d) (p.a 32 a) (p.b 32 b) fa fb
  | .div d a b fa fb => .div (p.d 32 d) (p.a 32 a) (p.b 32 b) fa fb
  | .divn d a b fa fb => .divn (p.d 32 d) (p.a 32 a) (p.b 32 b) fa fb
  | .rem d a b fa fb => .rem (p.d 32 d) (p.a 32 a) (p.b 32 b) fa fb
  | .remn d a b fa fb => .remn (p.d 32 d) (p.a 32 a) (p.b 32 b) fa fb
  | .min d a b fa fb => .min (p.d 32 d) (p.a 32 a) (p.b 32 b) fa fb
  | .max d a b fa fb => .max (p.d 32 d) (p.a 32 a) (p.b 32 b) fa fb
  | .minn d a b fa fb => .minn (p.d 32 d) (p.a 32 a) (p.b 32 b) fa fb
  | .maxn d a b fa fb => .maxn (p.d 32 d) (p.a 32 a) (p.b 32 b) fa fb
  | .slt d a b fa fb => .slt (p.d 32 d) (p.a 32 a) (p.b 32 b) fa fb
  | .sltn d a b fa fb => .sltn (p.d 32 d) (p.a 32 a) (p.b 32 b) fa fb
  | .seq d a b fa fb => .seq (p.d 32 d) (p.a 32 a) (p.b 32 b) fa fb
  | .sne d a b fa fb => .sne (p.d 32 d) (p.a 32 a) (p.b 32 b) fa fb
  | .clz d a fa => .clz (p.d 32 d) (p.a 32 a) fa
  | .ctz d a fa => .ctz (p.d 32 d) (p.a 32 a) fa
  | .popc d a fa => .popc (p.d 32 d) (p.a 32 a) fa
  | .brev d a fa => .brev (p.d 32 d) (p.a 32 a) fa
  | .bswap d a fa => .bswap (p.d 32 d) (p.a 32 a) fa
  | .sx8 d a fa => .sx8 (p.d 32 d) (p.a 32 a) fa
  | .sx16 d a fa => .sx16 (p.d 32 d) (p.a 32 a) fa
  | .sx32 d a fa => .sx32 (p.d 32 d) (p.a 32 a) fa
  | .zx8 d a fa => .zx8 (p.d 32 d) (p.a 32 a) fa
  | .zx16 d a fa => .zx16 (p.d 32 d) (p.a 32 a) fa
  | .zx32 d a fa => .zx32 (p.d 32 d) (p.a 32 a) fa
  | .adds d a b fa fb => .adds (p.d 32 d) (p.a 32 a) (p.b 32 b) fa fb
  | .subs d a b fa fb => .subs (p.d 32 d) (p.a 32 a) (p.b 32 b) fa fb
  | .addsn d a b fa fb => .addsn (p.d 32 d) (p.a 32 a) (p.b 32 b) fa fb
  | .subsn d a b fa fb => .subsn (p.d 32 d) (p.a 32 a) (p.b 32 b) fa fb
  | .sel d a b fa fb => .sel (p.d 32 d) (p.a 32 a) (p.b 32 b) fa fb
  | .addi d a fa imm => .addi (p.d 32 d) (p.a 32 a) fa imm
  | .andi d a fa imm => .andi (p.d 32 d) (p.a 32 a) fa imm
  | .ori d a fa imm => .ori (p.d 32 d) (p.a 32 a) fa imm
  | .xori d a fa imm => .xori (p.d 32 d) (p.a 32 a) fa imm
  | .slli d a fa n => .slli (p.d 32 d) (p.a 32 a) fa n
  | .srli d a fa n => .srli (p.d 32 d) (p.a 32 a) fa n
  | .srai d a fa n => .srai (p.d 32 d) (p.a 32 a) fa n
  | .roli d a fa n => .roli (p.d 32 d) (p.a 32 a) fa n
  | .rori d a fa n => .rori (p.d 32 d) (p.a 32 a) fa n
  | .slti d a fa imm => .slti (p.d 32 d) (p.a 32 a) fa imm
  | .sltni d a fa imm => .sltni (p.d 32 d) (p.a 32 a) fa imm
  | .bfx d a fa len pos => .bfx (p.d 32 d) (p.a 32 a) fa len pos
  | .bfxs d a fa len pos => .bfxs (p.d 32 d) (p.a 32 a) fa len pos
  | .bfi d a fa len pos => .bfi (p.d 32 d) (p.a 32 a) fa len pos
  | .lim d h imm => .lim (p.d 32 d) h imm
  | .limk d h imm => .limk (p.d 32 d) h imm
  | .leaA d a b fa fb => .leaA (p.d 32 d) (p.a 32 a) (p.b 32 b) fa fb
  | .leaR d a b fa fb => .leaR (p.d 32 d) (p.a 32 a) (p.b 32 b) fa fb
  | .leaS d a b fa fb => .leaS (p.d 32 d) (p.a 32 a) (p.b 32 b) fa fb
  | .myid d => .myid (p.d 32 d)
  | .kand d a b => .kand (p.d 8 d) (p.a 8 a) (p.b 8 b)
  | .kor d a b => .kor (p.d 8 d) (p.a 8 a) (p.b 8 b)
  | .kxor d a b => .kxor (p.d 8 d) (p.a 8 a) (p.b 8 b)
  | .kandn d a b => .kandn (p.d 8 d) (p.a 8 a) (p.b 8 b)
  | .knot d a => .knot (p.d 8 d) (p.a 8 a)
  | .kfromg d a fa => .kfromg (p.d 8 d) (p.a 32 a) fa
  | .ktog d a => .ktog (p.d 32 d) (p.a 8 a)
  | .kpop d a => .kpop (p.d 32 d) (p.a 8 a)
  | .kfirst d a => .kfirst (p.d 32 d) (p.a 8 a)
  | .vperm d a b k fa fb => .vperm (p.d 64 d) (p.a 64 a) (p.b 64 b) k fa fb
  | .vperm2 d a b k fa fb => .vperm2 (p.d 64 d) (p.a 64 a) (p.b 64 b) k fa fb
  | .vzip d a b fa fb => .vzip (p.d 64 d) (p.a 64 a) (p.b 64 b) fa fb
  | .vunzip d a b fa fb => .vunzip (p.d 64 d) (p.a 64 a) (p.b 64 b) fa fb
  | .vscl d a b k fa fb => .vscl (p.d 64 d) (p.a 64 a) (p.b 64 b) k fa fb
  | .vqnt d a b k fa fb => .vqnt (p.d 64 d) (p.a 64 a) (p.b 64 b) k fa fb
  | .ldI8 d base fa off => .ldI8 (p.d 32 d) base fa off
  | .ldI16 d base fa off => .ldI16 (p.d 32 d) base fa off
  | .ldI32 d base fa off => .ldI32 (p.d 32 d) base fa off
  | .ldI64 d base fa off => .ldI64 (p.d 32 d) base fa off
  | .ldN8 d base fa off => .ldN8 (p.d 32 d) base fa off
  | .ldN16 d base fa off => .ldN16 (p.d 32 d) base fa off
  | .ldN32 d base fa off => .ldN32 (p.d 32 d) base fa off
  | .stI8 s base fa off => .stI8 (p.d 32 s) base fa off
  | .stI16 s base fa off => .stI16 (p.d 32 s) base fa off
  | .stI32 s base fa off => .stI32 (p.d 32 s) base fa off
  | .stI64 s base fa off => .stI64 (p.d 32 s) base fa off
  | .ldfe d base fa off => .ldfe (p.d 32 d) base fa off
  | .ldff d base fa off => .ldff (p.d 32 d) base fa off
  | .stfe s base fa off => .stfe (p.d 32 s) base fa off
  | .stff s base fa off => .stff (p.d 32 s) base fa off
  | .aadd d a b fa fb w32 => .aadd (p.d 32 d) (p.a 32 a) (p.b 32 b) fa fb w32
  | .aaddNr a b fa fb w32 => .aaddNr (p.a 32 a) (p.b 32 b) fa fb w32
  | .aand d a b fa fb w32 => .aand (p.d 32 d) (p.a 32 a) (p.b 32 b) fa fb w32
  | .aandNr a b fa fb w32 => .aandNr (p.a 32 a) (p.b 32 b) fa fb w32
  | .aor d a b fa fb w32 => .aor (p.d 32 d) (p.a 32 a) (p.b 32 b) fa fb w32
  | .aorNr a b fa fb w32 => .aorNr (p.a 32 a) (p.b 32 b) fa fb w32
  | .axor d a b fa fb w32 => .axor (p.d 32 d) (p.a 32 a) (p.b 32 b) fa fb w32
  | .axorNr a b fa fb w32 => .axorNr (p.a 32 a) (p.b 32 b) fa fb w32
  | .amin d a b fa fb w32 => .amin (p.d 32 d) (p.a 32 a) (p.b 32 b) fa fb w32
  | .aminNr a b fa fb w32 => .aminNr (p.a 32 a) (p.b 32 b) fa fb w32
  | .amax d a b fa fb w32 => .amax (p.d 32 d) (p.a 32 a) (p.b 32 b) fa fb w32
  | .amaxNr a b fa fb w32 => .amaxNr (p.a 32 a) (p.b 32 b) fa fb w32
  | .aminn d a b fa fb w32 => .aminn (p.d 32 d) (p.a 32 a) (p.b 32 b) fa fb w32
  | .aminnNr a b fa fb w32 => .aminnNr (p.a 32 a) (p.b 32 b) fa fb w32
  | .amaxn d a b fa fb w32 => .amaxn (p.d 32 d) (p.a 32 a) (p.b 32 b) fa fb w32
  | .amaxnNr a b fa fb w32 => .amaxnNr (p.a 32 a) (p.b 32 b) fa fb w32
  | .aswap d a b fa fb w32 => .aswap (p.d 32 d) (p.a 32 a) (p.b 32 b) fa fb w32
  | .acas d a b fa fb w32 => .acas (p.d 32 d) (p.a 32 a) (p.b 32 b) fa fb w32
  | .pull a b fa fb e => .pull (p.a 32 a) (p.b 32 b) fa fb e
  | .pull2d d a b fa fb e => .pull2d (p.d 32 d) (p.a 32 a) (p.b 32 b) fa fb e
  | .pullG d b fb e => .pullG (p.d 32 d) (p.b 32 b) fb e
  | .pullAdd a b fa fb e => .pullAdd (p.a 32 a) (p.b 32 b) fa fb e
  | .copy a b fa fb e => .copy (p.a 32 a) (p.b 32 b) fa fb e
  | .hget a b fa fb e => .hget (p.a 32 a) (p.b 32 b) fa fb e
  | .hsend a b fa fb e => .hsend (p.a 32 a) (p.b 32 b) fa fb e
  | .tlwait d tl => .tlwait (p.d 32 d) tl
  | .tltest d tl => .tltest (p.d 32 d) tl
  | .tlrd d tl => .tlrd (p.d 32 d) tl
  | .tlhigh d tl => .tlhigh (p.d 32 d) tl
  | .tlerr d tl => .tlerr (p.d 32 d) tl
  | .calrd d item => .calrd (p.d 32 d) item
  | .erd d e => .erd (p.d 32 d) e
  | .ewr d e => .ewr (p.d 32 d) e
  | .tset a b fa fb t => .tset (p.a 32 a) (p.b 32 b) fa fb t
  | .tgetW0 d t => .tgetW0 (p.d 32 d) t
  | .tgetW1 d t => .tgetW1 (p.d 32 d) t
  | .mmeta a fa t => .mmeta (p.a 32 a) fa t
  | .mstream a fa t => .mstream (p.a 32 a) fa t
  | .mzero a fa => .mzero (p.a 32 a) fa
  | .mcvt a b fa fb t => .mcvt (p.a 32 a) (p.b 32 b) fa fb t
  | .mtask a fa => .mtask (p.a 32 a) fa
  | .vld d base fa tag k off => .vld (p.d 64 d) base fa tag k off
  | .vst s base fa k off => .vst (p.d 64 s) base fa k off
  | .vlds d base fa tag k s => .vlds (p.d 64 d) base fa tag k (p.b 32 s)
  | .vsts d base fa tag k s => .vsts (p.d 64 d) base fa tag k (p.b 32 s)
  | .vldp d base fa tag k off => .vldp (p.d 64 d) base fa tag k off
  | .vldt d base fa tag k s => .vldt (p.d 64 d) base fa tag k (p.b 32 s)
  | .vldg d a tag sc k e => .vldg (p.d 64 d) a tag sc k e
  | .vstg d a tag sc k e => .vstg (p.d 64 d) a tag sc k e
  | .vadd d a b k fa fb => .vadd (p.d 64 d) (p.a 64 a) (p.b 64 b) k fa fb
  | .vsub d a b k fa fb => .vsub (p.d 64 d) (p.a 64 a) (p.b 64 b) k fa fb
  | .vadds d a b k fa fb => .vadds (p.d 64 d) (p.a 64 a) (p.b 64 b) k fa fb
  | .vsubs d a b k fa fb => .vsubs (p.d 64 d) (p.a 64 a) (p.b 64 b) k fa fb
  | .vmul d a b k fa fb => .vmul (p.d 64 d) (p.a 64 a) (p.b 64 b) k fa fb
  | .vmulh d a b k fa fb => .vmulh (p.d 64 d) (p.a 64 a) (p.b 64 b) k fa fb
  | .vfma d a b k fa fb => .vfma (p.d 64 d) (p.a 64 a) (p.b 64 b) k fa fb
  | .vfms d a b k fa fb => .vfms (p.d 64 d) (p.a 64 a) (p.b 64 b) k fa fb
  | .vmin d a b k fa fb => .vmin (p.d 64 d) (p.a 64 a) (p.b 64 b) k fa fb
  | .vmax d a b k fa fb => .vmax (p.d 64 d) (p.a 64 a) (p.b 64 b) k fa fb
  | .vand d a b k fa fb => .vand (p.d 64 d) (p.a 64 a) (p.b 64 b) k fa fb
  | .vor d a b k fa fb => .vor (p.d 64 d) (p.a 64 a) (p.b 64 b) k fa fb
  | .vxor d a b k fa fb => .vxor (p.d 64 d) (p.a 64 a) (p.b 64 b) k fa fb
  | .vandn d a b k fa fb => .vandn (p.d 64 d) (p.a 64 a) (p.b 64 b) k fa fb
  | .vsll d a b k fa fb => .vsll (p.d 64 d) (p.a 64 a) (p.b 64 b) k fa fb
  | .vsrl d a b k fa fb => .vsrl (p.d 64 d) (p.a 64 a) (p.b 64 b) k fa fb
  | .vsra d a b k fa fb => .vsra (p.d 64 d) (p.a 64 a) (p.b 64 b) k fa fb
  | .vrol d a b k fa fb => .vrol (p.d 64 d) (p.a 64 a) (p.b 64 b) k fa fb
  | .vcmp cond kd a b k fa fb => .vcmp cond (p.d 8 kd) (p.a 64 a) (p.b 64 b) k fa fb
  | .vcmpa cond kd a b k fa fb => .vcmpa cond (p.d 8 kd) (p.a 64 a) (p.b 64 b) k fa fb
  | .vcvt d a dtag rnd k fa => .vcvt (p.d 64 d) (p.a 64 a) dtag rnd k fa
  | .vabs d a k fa => .vabs (p.d 64 d) (p.a 64 a) k fa
  | .vneg d a k fa => .vneg (p.d 64 d) (p.a 64 a) k fa
  | .vnot d a k fa => .vnot (p.d 64 d) (p.a 64 a) k fa
  | .vclz d a k fa => .vclz (p.d 64 d) (p.a 64 a) k fa
  | .vpopc d a k fa => .vpopc (p.d 64 d) (p.a 64 a) k fa
  | .vrcp d a k fa => .vrcp (p.d 64 d) (p.a 64 a) k fa
  | .vrsq d a k fa => .vrsq (p.d 64 d) (p.a 64 a) k fa
  | .vexp2 d a k fa => .vexp2 (p.d 64 d) (p.a 64 a) k fa
  | .vlog2 d a k fa => .vlog2 (p.d 64 d) (p.a 64 a) k fa
  | .vrtrec d a k fa => .vrtrec (p.d 64 d) (p.a 64 a) k fa
  | .vsqrt d a rnd k fa => .vsqrt (p.d 64 d) (p.a 64 a) rnd k fa
  | .vrsum d a rnd k fa => .vrsum (p.d 64 d) (p.a 64 a) rnd k fa
  | .vrmax d a k fa => .vrmax (p.d 64 d) (p.a 64 a) k fa
  | .vrmin d a k fa => .vrmin (p.d 64 d) (p.a 64 a) k fa
  | .vrand d a k fa => .vrand (p.d 64 d) (p.a 64 a) k fa
  | .vrior d a k fa => .vrior (p.d 64 d) (p.a 64 a) k fa
  | .vrxor d a k fa => .vrxor (p.d 64 d) (p.a 64 a) k fa
  | .vtagw d a tag fa => .vtagw (p.d 64 d) (p.a 64 a) tag fa
  | .vtag d a fa => .vtag (p.d 32 d) (p.a 64 a) fa
  | .vbcast d a tag k fa => .vbcast (p.d 64 d) (p.a 32 a) tag k fa
  | .vmovg d a fa => .vmovg (p.d 32 d) (p.a 64 a) fa
  | .vsldu d a amt k fa => .vsldu (p.d 64 d) (p.a 64 a) amt k fa
  | .vsldd d a amt k fa => .vsldd (p.d 64 d) (p.a 64 a) amt k fa
  | .vlrot d a amt k fa => .vlrot (p.d 64 d) (p.a 64 a) amt k fa
  | i => i

/-! ### Executing a context's next instruction -/

/-- REPIDX becomes 0 before an instruction that no prefix repeats (R167). -/
def State.clearRepidx (s : State) : State := s.upd fun x => { x with repidx := 0 }

/-- A format tag that a disabled feature takes away (R434). -/
def tagOff (feat0 : Word) (code : BitVec 5) : Bool :=
  match tagOfCode code.toNat with
  | some t => tagDisabled feat0 t
  | none => false
/-- A format tag of four bits that a disabled feature takes away (R434). -/
def vTagOff (feat0 : Word) (code : BitVec 4) : Bool := tagOff feat0 (code.zeroExtend 5)
/-- The encoding uses a feature that is not enabled (R434): F8 and Q4 tags, rounding mode SR, sparsity. -/
def featureOff (feat0 : Word) (i : Instr) : Bool :=
  match i with
  | .vcvt _ _ dtag rnd _ _ => tagOff feat0 dtag || (rnd = 4 && !feat0.getLsbD 8)
  | .vsqrt _ _ rnd _ _ => rnd = 4 && !feat0.getLsbD 8
  | .vrsum _ _ rnd _ _ => rnd = 4 && !feat0.getLsbD 8
  | .vtagw _ _ tag _ => tagOff feat0 tag
  | .vbcast _ _ tag _ _ => tagOff feat0 tag
  | .vld _ _ _ tag _ _ => vTagOff feat0 tag
  | .vldp _ _ _ tag _ _ => vTagOff feat0 tag
  | .vlds _ _ _ tag _ _ => vTagOff feat0 tag
  | .vldt _ _ _ tag _ _ => vTagOff feat0 tag
  | .vldg _ _ tag _ _ _ => vTagOff feat0 tag
  | .vsts _ _ _ tag _ _ => vTagOff feat0 tag
  | .vstg _ _ tag _ _ _ => vTagOff feat0 tag
  | .mmeta _ _ _ => !feat0.getLsbD 7
  | _ => false

/-- The instructions that take one cycle (R187): integer, immediate, address and bit operations but the multiplications and
divisions. -/
def oneCycle : Instr → Bool
  | .add _ _ _ _ _ | .sub _ _ _ _ _ | .and _ _ _ _ _ | .or _ _ _ _ _ | .xor _ _ _ _ _ | .andn _ _ _ _ _
  | .orn _ _ _ _ _ | .xnor _ _ _ _ _ | .sll _ _ _ _ _ | .srl _ _ _ _ _ | .sra _ _ _ _ _ | .rol _ _ _ _ _
  | .ror _ _ _ _ _ | .min _ _ _ _ _ | .max _ _ _ _ _ | .minn _ _ _ _ _ | .maxn _ _ _ _ _
  | .slt _ _ _ _ _ | .sltn _ _ _ _ _ | .seq _ _ _ _ _ | .sne _ _ _ _ _ | .adds _ _ _ _ _ | .subs _ _ _ _ _
  | .addsn _ _ _ _ _ | .subsn _ _ _ _ _ | .sel _ _ _ _ _ | .leaA _ _ _ _ _ | .leaR _ _ _ _ _ | .leaS _ _ _ _ _
  | .clz _ _ _ | .ctz _ _ _ | .popc _ _ _ | .brev _ _ _ | .bswap _ _ _ | .sx8 _ _ _ | .sx16 _ _ _ | .sx32 _ _ _
  | .zx8 _ _ _ | .zx16 _ _ _ | .zx32 _ _ _ | .addi _ _ _ _ | .andi _ _ _ _ | .ori _ _ _ _ | .xori _ _ _ _
  | .slli _ _ _ _ | .srli _ _ _ _ | .srai _ _ _ _ | .roli _ _ _ _ | .rori _ _ _ _ | .slti _ _ _ _ | .sltni _ _ _ _
  | .bfx _ _ _ _ _ | .bfxs _ _ _ _ _ | .bfi _ _ _ _ _ | .lim _ _ _ | .limk _ _ _ | .myid _ => true
  | _ => false

/-- An instruction issues; its context may stay ISSUED for more than a cycle (R187). -/
def State.issueAs (s : State) (i : Instr) : State := s.upd fun x => { x with lag := !oneCycle (longForm i) }
/-- An instruction that has read a damaged entry raises a machine check and performs nothing (R376). -/
def State.guarded (s : State) (m : State → Out) : Out :=
  match m s with
  | .next t => .next (if t.hurt then s.trap 0x1F else t)
  | o => o

/-- A fetched item that stands where an instruction should. An encoding of a disabled feature traps (R434). -/
def State.runFetched (s : State) (f : Fetched) (k : Instr → Nat → State → Out) : Out :=
  match f with
  | .instr i len => if featureOff s.mod.feat0 i then exec (.illegalEncoding 0) s else (s.issueAs i).guarded (k i len)
  | .illegal w => exec (.illegalEncoding w) s
  | .fail cause addr => exec (.fetchFault cause addr) s
  | .wait key => .next (s.blockMig key)

/-- The repetition that a prefix has begun (R165); a stepped field that gives an illegal encoding traps in it. -/
def runRepetition (i : Instr) (s : State) : Out :=
  match s.rep with
  | none => .next s
  | some p =>
    let i' := repOperands p i
    if i'.wf then exec i' s else exec (.illegalEncoding 0) s

/-- A context begins to execute the instruction at its PC. The WAIT latch and the retry latch are for one PC (R243, R318). -/
def State.begin (s : State) (c : CtxId) : State :=
  let s := { s with cur := c, taint := [], hurt := false, rep := none, target := none }
  let s := s.updCl fun cl => { cl with wb := cl.wb.filter fun w => !(numOf c = 0 && w.1 = coreOf c) }
  s.upd fun x =>
    { x with
      st := .issued, wait := none, retry := { x.retry with v := x.retry.v && x.retry.pc = x.pc }
      latch := if x.pc = x.latchPc then x.latch else 0 }

/-- The loop of a prefix whose saved REPIDX lies above CNT runs no repetition: its target, of which the first parcel gives the
length, is passed whatever it is (R165). -/
def State.passTarget (s : State) (cnt : BitVec 6) (sd sa sb st : Bool) : Out :=
  match s.fetchParcel (s.ctx.pc + 2) with
  | (.inr f, s) => s.runFetched f fun i _ s => exec i s
  | (.inl p, s) => exec (.rep cnt sd sa sb st) { s with target := some (.illegalEncoding (p.zeroExtend 32), if isLong p then 4 else 2) }

/-- A context executes the instruction at its PC. REPIDX becomes 0 before one that no prefix repeats (R167); the record of a trap
that its own fetch raises shows REPIDX as it was saved (log 103). A target whose encoding is illegal as fetched traps in every
repetition, also in one whose step would make it legal (R165, R176, log 102). -/
def State.runCtx (s : State) (c : CtxId) : Out :=
  let s := s.begin c
  let (f, s) := s.fetchAt s.ctx.pc
  match f with
  | .instr (.rep cnt sd sa sb st) _ =>
    if cnt.toNat < s.ctx.repidx.toNat then s.passTarget cnt sd sa sb st
    else
      let (g, s) := s.fetchAt (s.ctx.pc + 2)
      s.runFetched g fun i len s =>
        match exec (.rep cnt sd sa sb st) { s with target := some (longForm i, len) } with
        | .next s => runRepetition (longForm i) s
        | o => o
  | .instr i len => s.clearRepidx.runFetched (.instr i len) fun i _ s => exec i s
  | .illegal w => exec (.illegalEncoding w) s.clearRepidx
  | f => s.runFetched f fun i _ s => exec i s

/-! ### Who can move -/

/-- The condition a BLOCKED context waits for holds. A trailer goes with its leader (log 13). -/
def State.waitMet (s : State) (c : CtxId) : Bool :=
  let x := s.getCtx c
  x.st = .blocked && x.susp.isNone && !s.isTrailer c &&
  match x.wait with
  | none => false
  | some w =>
    match w with
    | .greg r => (x.g[r]).full
    | .vreg r => (x.v[r]).full
    | .unchecked => !x.anyUnchecked
    | .feWord _ _ => false
    | .reply tags => tags.all fun t => x.replies.any fun r =>
        match r with
        | .data u _ _ _ _ => u = t
        | .status u _ => u = t
        | _ => false
    | .watch tag _ => x.replies.any fun r =>
        match r with
        | .fire u _ _ _ => u = tag
        | .expired u => u = tag
        | .refused u => u = tag
        | .status u _ => u = tag
        | _ => false
    | .timeline tl n => decide (n ≤ (x.tl[tl]).val)
    | .allOps => s.opsDone c
    | .copyOps => s.copyDone c
    | .copySlot => decide (s.copyInFlight (coreOf c) < 128)
    | .taskSlot => decide (s.eng.tasks.length < 256)
    | .directSlot => decide (s.eng.queue.length < 16)
    | .amsgSlot => decide (s.cl.outAmsg.length < 256)
    | .group idx n => x.limitHit || s.groupMet idx n
    | .page vpn => s.pageResident vpn
    | .stopOf d => (s.getCtx d).stopReq.isNone
    | .opsOf d => s.opsDone d
    | .tinv => s.tinvDone c
    | .engineIdle => s.eng.idle
    | .policySwap => s.cl.policy.swapKeep.isNone
    | .mig _ => false

/-- The contexts that a core's issue slot can go to, from the one behind the last that issued on (R13). -/
def State.readyList (s : State) (core : CoreId) : List CtxId :=
  let k := s.getCore core
  if k.halted || k.gated || k.dbgHalt || !s.running then []
  else ((List.range 16).map fun i => ctxOf core (Fin.ofNat 16 (k.lastIssued.val + 1 + i))).filter fun c =>
    (s.getCtx c).st = .ready && !s.isTrailer c
/-- The context that a core's issue slot goes to: the first of them (R13). One whose last instruction takes more than a cycle may not
be READY again, so that the slot passes on to another; whether it is, is free (R187, log 3). -/
def State.nextReady (s : State) (core : CoreId) : Option CtxId × State :=
  let (n, s) := s.drawN 16
  let l := s.readyList core
  ((l.find? fun c => !((s.getCtx c).lag && Config.freeBool (n + (numOf c).val))).or l.head?, s)

/-- Trap 0x1C of the debug facilities before an instruction of a context that DEBUG has named (R375, R432); when they raise it is free
(log 100). -/
def State.debugStop (s : State) (c : CtxId) : Bool × State :=
  if !(s.getCtx c).debug then (false, s)
  else
    let (n, s) := s.draw
    (Config.freeBool n, s)
/-- A core uses its issue slot (R13); context 0 enters its handler instead at a boundary where a record is due (R311). -/
def State.issueCore (s : State) (core : CoreId) : Out :=
  match s.nextReady core with
  | (none, s) => .next s
  | (some c, s) =>
    if numOf c = 0 && s.handlerDue core then exec (.handlerEntry core) s
    else
      let s := s.updCore core fun k => { k with lastIssued := numOf c }
      let (stop, s) := s.debugStop c
      if stop then .next ((s.begin c).trap 0x1C) else s.runCtx c

/-! ### Messages and responses -/

/-- The NI delivers the next message it has received (R110, R151). Pull data that came early in skid mode waits for its tag (R153). -/
def State.deliverMove (s : State) : Host.Outcome State Fault Refusal :=
  match s.cl.inbox with
  | [] => .next s
  | (m, skid) :: r =>
    match m.body, skid with
    | .pullData _ _ _, some g => .next (s.updCl fun c => { c with inbox := r, heldPull := c.heldPull ++ [(m, g)] })
    | _, _ => exec (msgEvent m skid) (s.updCl fun c => { c with inbox := r })

/-- The owner whose response an event is: the owner of the request or the watch that it answers (R110). Data that has been accepted
and is still to be written is no response any more. -/
def State.respOwner (s : State) (i : Instr) : Option ClusterId :=
  let req (tag : Nat) : Option ClusterId := (s.request? tag).map (·.owner)
  let wat (tag : Nat) : Option ClusterId := (s.cl.watchOut.find? fun w => w.1 = tag).map (·.2)
  match i with
  | .remoteDataReply tag _ _ _ _ => req tag
  | .remoteStatusReply tag _ => req tag
  | .deferredReply tag => req tag
  | .pullDataReply tag _ _ => if (s.copyOfTag tag).any fun p => p.2.data.isSome then none else req tag
  | .watchFireReceipt tag _ _ _ => wat tag
  | .watchExpiredReceipt tag => wat tag
  | .watchRefusedReceipt tag => wat tag
  | .watchStatusReceipt tag _ => wat tag
  | _ => none
/-- The place in the agenda of the event that takes place when the one at place n, which is i, is chosen: responses of one owner come
in the order in which it issued them (R110), and of commands that wait together those of the lowest function come first, in their order
(R431). -/
def State.inOrder (s : State) (n : Nat) (i : Instr) : Nat :=
  match cmdOf i with
  | some c =>
    let f := (s.agenda.filterMap fun j => (cmdOf j).map fun d => d.fn.val).foldl min c.fn.val
    s.agenda.findIdx fun j => (cmdOf j).any fun d => d.fn.val = f
  | none =>
    match s.respOwner i with
    | none => n
    | some o => s.agenda.findIdx fun j => s.respOwner j = some o

/-! ### Soft errors -/

/-- Soft errors (R376): between moves a bit may flip in a register, the retry latch, an accumulator element or a word of memory.
Whether one does, and where, is free; one that a check code corrects is counted. -/
def State.upset (s : State) : State :=
  let (n, s) := s.drawN 5
  let hit (k : Nat) : Bool := Config.freeBool n && decide (Config.freeNat (n + 1) % 6 = k)
  let c := Config.freeNat (n + 2) % 64
  let r := Config.freeNat (n + 3)
  { s with
    ctxs := fillVec s.ctxs fun i =>
      let x := s.ctxs[i]?.getD Ctx.reset
      { x with
        g := fillVec x.g fun j => let y := x.g[j]?.getD GReg.reset; { y with bad := y.bad || (hit 1 && decide (c = i ∧ r % 32 = j)) }
        v := fillVec x.v fun j => let y := x.v[j]?.getD VReg.reset; { y with bad := y.bad || (hit 2 && decide (c = i ∧ r % 64 = j)) }
        badRegs := if hit 3 && decide (c = i) then insNat x.badRegs (r % 25) else x.badRegs }
    eng := { s.eng with accBad := if hit 4 then insNat s.eng.accBad (r % 8192) else s.eng.accBad }
    mem :=
      { s.mem with
        bad := if hit 5 then insNat s.mem.bad (if Config.freeBool (n + 4) then 8 * (r % 2 ^ 20) else hbmLo + 8 * (r % 2 ^ 33)) else s.mem.bad }
    cl := { s.cl with errors := if hit 0 then mapSet 0 s.cl.errors 0 (mapGet 0 s.cl.errors 0 + 1) else s.cl.errors } }

end

end Sys2Proof.Machine
end

