-- ==== Sys2Proof/Machine/Step.lean ====
section
/-!
DEFINITION. Sys2Proof/Machine/Step.lean: one move of the machine. A move that another one has put first (`turns`) comes first.
Otherwise one of the moves that can be made is made, freely chosen where there are several (log 2): an event that waits, a
BLOCKED context whose condition is met, the issue slot of a core with a READY context, the next message of the NI, the
head of a send queue, a command that goes on.
-/
namespace Sys2Proof.Machine

noncomputable section

/-- An event takes place. A program instruction is no event. -/
def runEvent (i : Instr) (s : State) : Host.Outcome State Fault Refusal :=
  if i.isProgram then .fault .noSuchEvent else exec i s

/-- A chosen move. -/
def runTurn (t : Turn) (s : State) : Host.Outcome State Fault Refusal :=
  match t with
  | .event i => runEvent i s
  | .issue core => s.issueCore core
  | .resume c => if (s.getCtx c).st = .blocked then s.runCtx c else .next s
  | .deliver => s.deliverMove
  | .link chip => .next (s.linkMove chip)
  | .firmware fn => .next (s.firmwareMove fn)
  | .boot => .next s.bootMove

/-- The contexts that can go on from a wait. -/
def State.resumable (s : State) : List CtxId := if s.running then allCtxs.filter s.waitMet else []
/-- The cores that can use their issue slot, from the rotor on. -/
def State.issuers (s : State) : List CoreId :=
  ((List.range 4).map fun i => (Fin.ofNat 4 (s.rotor.val + i) : CoreId)).filter fun k => !(s.readyList k).isEmpty

/-- The moves that can be made beside the events that wait: waits that are over, issue slots, the next message of the NI, heads of
send queues, commands that go on. -/
def State.moves (s : State) : List Turn :=
  s.resumable.map Turn.resume ++ s.issuers.map Turn.issue ++ (if s.cl.inbox.isEmpty then [] else [.deliver])
    ++ s.linkReady.map Turn.link ++ s.fwReady.map Turn.firmware ++ (if s.booting then [.boot] else [])

/-- How many moves wait to be chosen. -/
def State.choices (s : State) : Nat := s.agenda.length + s.moves.length

/-- Move number n among those that can be made: the events of the agenda, then the others. -/
def State.choose (s : State) (n : Nat) : Host.Outcome State Fault Refusal :=
  match s.agenda[n]? with
  | some i =>
    let m := s.inOrder n i
    runEvent (s.agenda[m]?.getD i) { s with agenda := s.agenda.eraseIdx m }
  | none =>
    match s.moves[n - s.agenda.length]? with
    | some (.issue k) => runTurn (.issue k) { s with rotor := k }
    | some t => runTurn t s
    | none => .next s

/-- In twin mode a trailer holds what its leader holds (R32, log 13). -/
def State.mirrorTwins (s : State) : State :=
  if s.cl.par.twin then
    { s with ctxs := fillVec s.ctxs fun i => if 9 ≤ i % 16 then s.ctxs[i - 8]?.getD Ctx.reset else s.ctxs[i]?.getD Ctx.reset }
  else s
/-- What is left when a move has been made. -/
def settled : Host.Outcome State Fault Refusal → Host.Outcome State Fault Refusal
  | .next s => .next s.mirrorTwins
  | o => o

/-- Core cycles pass between moves, how many is free (log 3), and soft errors may happen. -/
def State.tick (s : State) : State :=
  let (n, s) := s.draw
  (s.updMod fun m => { m with cycles := m.cycles + Config.freeNat n }).upset

/-- One move. -/
def step (s : State) : Host.Outcome State Fault Refusal :=
  match s.turns with
  | t :: r => settled (runTurn t { s with turns := r })
  | [] =>
    let s := s.tick
    let k := s.choices
    if k ≤ 1 then settled (s.choose 0)
    else
      let (n, s) := s.draw
      settled (s.choose (Config.freeNat n % k))

/-! ### Placing an instruction -/

/-- Where `withFetchWord` puts an instruction: a scratchpad offset. -/
def fetchAddr : Nat := 0x400000
/-- Region 0 for that span: enabled, S level may read, write and fetch (R328). -/
def fetchRegion : Word := 0x8E00400000004000
/-- The parcels of a table word: zero parcels follow, up to the longest instruction, a prefix with its 32-bit target. -/
def fetchParcels (nbits w : Nat) : List Parcel :=
  (if nbits = 0 then [] else if nbits ≤ 16 then one w else two w) ++ List.replicate 2 0
/-- The bytes of parcels, each little-endian (R155). -/
def parcelBytes (l : List Parcel) : List Byte := l.flatMap fun p => toLe 2 p.toNat

/-- The state in which context 0 of core 0, at S level, is READY at an instruction of the given bits, and the next step is
its issue. Stands for the load of a program that LAUNCH makes (log 7). -/
def State.withFetchWord (s : State) (nbits w : Nat) : State :=
  let s := s.updMem fun m =>
    { m with cells := putCells m.cells fetchAddr (parcelBytes (fetchParcels nbits w)), stale := [], bad := [] }
  let s := s.updCl fun c => { c with regions := c.regions.set 0 fetchRegion, killed := false }
  let s := s.updMod fun m => { m with feat0 := 0xFFFF }
  let s := s.updCore 0 fun k => { k with lastIssued := 15, tmask := true, halted := false, gated := false, dbgHalt := false }
  let s := s.updCtx 0 fun x =>
    { x with st := .ready, pc := BitVec.ofNat 48 fetchAddr, repidx := 0, wait := none, susp := none, stopReq := none,
             replies := [], sent := [], begun := false, arrived := none, limitHit := false, retry := RetryLatch.reset, lag := false, debug := false }
  { s with turns := [.issue 0] }

end

end Sys2Proof.Machine
end

