-- ==== Sys2Proof/Laws/State.lean ====
section
/-!
SUPPORT. Sys2Proof/Laws/State.lean: what each update of the state does to each of its parts, one lemma per part and update.
-/
namespace Sys2Proof.Machine

@[simp] theorem State.setCtx_ctxs (s : State) (c : CtxId) (x : Ctx) : (s.setCtx c x).ctxs = s.ctxs.set c x := rfl
@[simp] theorem State.setCtx_cores (s : State) (c : CtxId) (x : Ctx) : (s.setCtx c x).cores = s.cores := rfl
@[simp] theorem State.setCtx_mem (s : State) (c : CtxId) (x : Ctx) : (s.setCtx c x).mem = s.mem := rfl
@[simp] theorem State.setCtx_cl (s : State) (c : CtxId) (x : Ctx) : (s.setCtx c x).cl = s.cl := rfl
@[simp] theorem State.setCtx_eng (s : State) (c : CtxId) (x : Ctx) : (s.setCtx c x).eng = s.eng := rfl
@[simp] theorem State.setCtx_mod (s : State) (c : CtxId) (x : Ctx) : (s.setCtx c x).mod = s.mod := rfl
@[simp] theorem State.setCtx_cur (s : State) (c : CtxId) (x : Ctx) : (s.setCtx c x).cur = s.cur := rfl
@[simp] theorem State.setCtx_rep (s : State) (c : CtxId) (x : Ctx) : (s.setCtx c x).rep = s.rep := rfl
@[simp] theorem State.setCtx_taint (s : State) (c : CtxId) (x : Ctx) : (s.setCtx c x).taint = s.taint := rfl
@[simp] theorem State.setCtx_target (s : State) (c : CtxId) (x : Ctx) : (s.setCtx c x).target = s.target := rfl
@[simp] theorem State.setCtx_hurt (s : State) (c : CtxId) (x : Ctx) : (s.setCtx c x).hurt = s.hurt := rfl
@[simp] theorem State.setCtx_turns (s : State) (c : CtxId) (x : Ctx) : (s.setCtx c x).turns = s.turns := rfl
@[simp] theorem State.setCtx_agenda (s : State) (c : CtxId) (x : Ctx) : (s.setCtx c x).agenda = s.agenda := rfl
@[simp] theorem State.setCtx_rotor (s : State) (c : CtxId) (x : Ctx) : (s.setCtx c x).rotor = s.rotor := rfl
@[simp] theorem State.setCtx_draws (s : State) (c : CtxId) (x : Ctx) : (s.setCtx c x).draws = s.draws := rfl

@[simp] theorem State.updCtx_ctxs (s : State) (c : CtxId) (f : Ctx → Ctx) : (s.updCtx c f).ctxs = s.ctxs.set c (f (s.getCtx c)) := rfl
@[simp] theorem State.updCtx_cores (s : State) (c : CtxId) (f : Ctx → Ctx) : (s.updCtx c f).cores = s.cores := rfl
@[simp] theorem State.updCtx_mem (s : State) (c : CtxId) (f : Ctx → Ctx) : (s.updCtx c f).mem = s.mem := rfl
@[simp] theorem State.updCtx_cl (s : State) (c : CtxId) (f : Ctx → Ctx) : (s.updCtx c f).cl = s.cl := rfl
@[simp] theorem State.updCtx_eng (s : State) (c : CtxId) (f : Ctx → Ctx) : (s.updCtx c f).eng = s.eng := rfl
@[simp] theorem State.updCtx_mod (s : State) (c : CtxId) (f : Ctx → Ctx) : (s.updCtx c f).mod = s.mod := rfl
@[simp] theorem State.updCtx_cur (s : State) (c : CtxId) (f : Ctx → Ctx) : (s.updCtx c f).cur = s.cur := rfl
@[simp] theorem State.updCtx_rep (s : State) (c : CtxId) (f : Ctx → Ctx) : (s.updCtx c f).rep = s.rep := rfl
@[simp] theorem State.updCtx_taint (s : State) (c : CtxId) (f : Ctx → Ctx) : (s.updCtx c f).taint = s.taint := rfl
@[simp] theorem State.updCtx_target (s : State) (c : CtxId) (f : Ctx → Ctx) : (s.updCtx c f).target = s.target := rfl
@[simp] theorem State.updCtx_hurt (s : State) (c : CtxId) (f : Ctx → Ctx) : (s.updCtx c f).hurt = s.hurt := rfl
@[simp] theorem State.updCtx_turns (s : State) (c : CtxId) (f : Ctx → Ctx) : (s.updCtx c f).turns = s.turns := rfl
@[simp] theorem State.updCtx_agenda (s : State) (c : CtxId) (f : Ctx → Ctx) : (s.updCtx c f).agenda = s.agenda := rfl
@[simp] theorem State.updCtx_rotor (s : State) (c : CtxId) (f : Ctx → Ctx) : (s.updCtx c f).rotor = s.rotor := rfl
@[simp] theorem State.updCtx_draws (s : State) (c : CtxId) (f : Ctx → Ctx) : (s.updCtx c f).draws = s.draws := rfl

@[simp] theorem State.upd_ctxs (s : State) (f : Ctx → Ctx) : (s.upd f).ctxs = s.ctxs.set s.cur (f (s.getCtx s.cur)) := rfl
@[simp] theorem State.upd_cores (s : State) (f : Ctx → Ctx) : (s.upd f).cores = s.cores := rfl
@[simp] theorem State.upd_mem (s : State) (f : Ctx → Ctx) : (s.upd f).mem = s.mem := rfl
@[simp] theorem State.upd_cl (s : State) (f : Ctx → Ctx) : (s.upd f).cl = s.cl := rfl
@[simp] theorem State.upd_eng (s : State) (f : Ctx → Ctx) : (s.upd f).eng = s.eng := rfl
@[simp] theorem State.upd_mod (s : State) (f : Ctx → Ctx) : (s.upd f).mod = s.mod := rfl
@[simp] theorem State.upd_cur (s : State) (f : Ctx → Ctx) : (s.upd f).cur = s.cur := rfl
@[simp] theorem State.upd_rep (s : State) (f : Ctx → Ctx) : (s.upd f).rep = s.rep := rfl
@[simp] theorem State.upd_taint (s : State) (f : Ctx → Ctx) : (s.upd f).taint = s.taint := rfl
@[simp] theorem State.upd_target (s : State) (f : Ctx → Ctx) : (s.upd f).target = s.target := rfl
@[simp] theorem State.upd_hurt (s : State) (f : Ctx → Ctx) : (s.upd f).hurt = s.hurt := rfl
@[simp] theorem State.upd_turns (s : State) (f : Ctx → Ctx) : (s.upd f).turns = s.turns := rfl
@[simp] theorem State.upd_agenda (s : State) (f : Ctx → Ctx) : (s.upd f).agenda = s.agenda := rfl
@[simp] theorem State.upd_rotor (s : State) (f : Ctx → Ctx) : (s.upd f).rotor = s.rotor := rfl
@[simp] theorem State.upd_draws (s : State) (f : Ctx → Ctx) : (s.upd f).draws = s.draws := rfl

@[simp] theorem State.updCore_ctxs (s : State) (i : CoreId) (f : Core → Core) : (s.updCore i f).ctxs = s.ctxs := rfl
@[simp] theorem State.updCore_cores (s : State) (i : CoreId) (f : Core → Core) : (s.updCore i f).cores = s.cores.set i (f s.cores[i]) := rfl
@[simp] theorem State.updCore_mem (s : State) (i : CoreId) (f : Core → Core) : (s.updCore i f).mem = s.mem := rfl
@[simp] theorem State.updCore_cl (s : State) (i : CoreId) (f : Core → Core) : (s.updCore i f).cl = s.cl := rfl
@[simp] theorem State.updCore_eng (s : State) (i : CoreId) (f : Core → Core) : (s.updCore i f).eng = s.eng := rfl
@[simp] theorem State.updCore_mod (s : State) (i : CoreId) (f : Core → Core) : (s.updCore i f).mod = s.mod := rfl
@[simp] theorem State.updCore_cur (s : State) (i : CoreId) (f : Core → Core) : (s.updCore i f).cur = s.cur := rfl
@[simp] theorem State.updCore_rep (s : State) (i : CoreId) (f : Core → Core) : (s.updCore i f).rep = s.rep := rfl
@[simp] theorem State.updCore_taint (s : State) (i : CoreId) (f : Core → Core) : (s.updCore i f).taint = s.taint := rfl
@[simp] theorem State.updCore_target (s : State) (i : CoreId) (f : Core → Core) : (s.updCore i f).target = s.target := rfl
@[simp] theorem State.updCore_hurt (s : State) (i : CoreId) (f : Core → Core) : (s.updCore i f).hurt = s.hurt := rfl
@[simp] theorem State.updCore_turns (s : State) (i : CoreId) (f : Core → Core) : (s.updCore i f).turns = s.turns := rfl
@[simp] theorem State.updCore_agenda (s : State) (i : CoreId) (f : Core → Core) : (s.updCore i f).agenda = s.agenda := rfl
@[simp] theorem State.updCore_rotor (s : State) (i : CoreId) (f : Core → Core) : (s.updCore i f).rotor = s.rotor := rfl
@[simp] theorem State.updCore_draws (s : State) (i : CoreId) (f : Core → Core) : (s.updCore i f).draws = s.draws := rfl

@[simp] theorem State.updCl_ctxs (s : State) (f : Cluster → Cluster) : (s.updCl f).ctxs = s.ctxs := rfl
@[simp] theorem State.updCl_cores (s : State) (f : Cluster → Cluster) : (s.updCl f).cores = s.cores := rfl
@[simp] theorem State.updCl_mem (s : State) (f : Cluster → Cluster) : (s.updCl f).mem = s.mem := rfl
@[simp] theorem State.updCl_cl (s : State) (f : Cluster → Cluster) : (s.updCl f).cl = f s.cl := rfl
@[simp] theorem State.updCl_eng (s : State) (f : Cluster → Cluster) : (s.updCl f).eng = s.eng := rfl
@[simp] theorem State.updCl_mod (s : State) (f : Cluster → Cluster) : (s.updCl f).mod = s.mod := rfl
@[simp] theorem State.updCl_cur (s : State) (f : Cluster → Cluster) : (s.updCl f).cur = s.cur := rfl
@[simp] theorem State.updCl_rep (s : State) (f : Cluster → Cluster) : (s.updCl f).rep = s.rep := rfl
@[simp] theorem State.updCl_taint (s : State) (f : Cluster → Cluster) : (s.updCl f).taint = s.taint := rfl
@[simp] theorem State.updCl_target (s : State) (f : Cluster → Cluster) : (s.updCl f).target = s.target := rfl
@[simp] theorem State.updCl_hurt (s : State) (f : Cluster → Cluster) : (s.updCl f).hurt = s.hurt := rfl
@[simp] theorem State.updCl_turns (s : State) (f : Cluster → Cluster) : (s.updCl f).turns = s.turns := rfl
@[simp] theorem State.updCl_agenda (s : State) (f : Cluster → Cluster) : (s.updCl f).agenda = s.agenda := rfl
@[simp] theorem State.updCl_rotor (s : State) (f : Cluster → Cluster) : (s.updCl f).rotor = s.rotor := rfl
@[simp] theorem State.updCl_draws (s : State) (f : Cluster → Cluster) : (s.updCl f).draws = s.draws := rfl

@[simp] theorem State.updMem_ctxs (s : State) (f : Memory → Memory) : (s.updMem f).ctxs = s.ctxs := rfl
@[simp] theorem State.updMem_cores (s : State) (f : Memory → Memory) : (s.updMem f).cores = s.cores := rfl
@[simp] theorem State.updMem_mem (s : State) (f : Memory → Memory) : (s.updMem f).mem = f s.mem := rfl
@[simp] theorem State.updMem_cl (s : State) (f : Memory → Memory) : (s.updMem f).cl = s.cl := rfl
@[simp] theorem State.updMem_eng (s : State) (f : Memory → Memory) : (s.updMem f).eng = s.eng := rfl
@[simp] theorem State.updMem_mod (s : State) (f : Memory → Memory) : (s.updMem f).mod = s.mod := rfl
@[simp] theorem State.updMem_cur (s : State) (f : Memory → Memory) : (s.updMem f).cur = s.cur := rfl
@[simp] theorem State.updMem_rep (s : State) (f : Memory → Memory) : (s.updMem f).rep = s.rep := rfl
@[simp] theorem State.updMem_taint (s : State) (f : Memory → Memory) : (s.updMem f).taint = s.taint := rfl
@[simp] theorem State.updMem_target (s : State) (f : Memory → Memory) : (s.updMem f).target = s.target := rfl
@[simp] theorem State.updMem_hurt (s : State) (f : Memory → Memory) : (s.updMem f).hurt = s.hurt := rfl
@[simp] theorem State.updMem_turns (s : State) (f : Memory → Memory) : (s.updMem f).turns = s.turns := rfl
@[simp] theorem State.updMem_agenda (s : State) (f : Memory → Memory) : (s.updMem f).agenda = s.agenda := rfl
@[simp] theorem State.updMem_rotor (s : State) (f : Memory → Memory) : (s.updMem f).rotor = s.rotor := rfl
@[simp] theorem State.updMem_draws (s : State) (f : Memory → Memory) : (s.updMem f).draws = s.draws := rfl

@[simp] theorem State.updEng_ctxs (s : State) (f : Engines → Engines) : (s.updEng f).ctxs = s.ctxs := rfl
@[simp] theorem State.updEng_cores (s : State) (f : Engines → Engines) : (s.updEng f).cores = s.cores := rfl
@[simp] theorem State.updEng_mem (s : State) (f : Engines → Engines) : (s.updEng f).mem = s.mem := rfl
@[simp] theorem State.updEng_cl (s : State) (f : Engines → Engines) : (s.updEng f).cl = s.cl := rfl
@[simp] theorem State.updEng_eng (s : State) (f : Engines → Engines) : (s.updEng f).eng = f s.eng := rfl
@[simp] theorem State.updEng_mod (s : State) (f : Engines → Engines) : (s.updEng f).mod = s.mod := rfl
@[simp] theorem State.updEng_cur (s : State) (f : Engines → Engines) : (s.updEng f).cur = s.cur := rfl
@[simp] theorem State.updEng_rep (s : State) (f : Engines → Engines) : (s.updEng f).rep = s.rep := rfl
@[simp] theorem State.updEng_taint (s : State) (f : Engines → Engines) : (s.updEng f).taint = s.taint := rfl
@[simp] theorem State.updEng_target (s : State) (f : Engines → Engines) : (s.updEng f).target = s.target := rfl
@[simp] theorem State.updEng_hurt (s : State) (f : Engines → Engines) : (s.updEng f).hurt = s.hurt := rfl
@[simp] theorem State.updEng_turns (s : State) (f : Engines → Engines) : (s.updEng f).turns = s.turns := rfl
@[simp] theorem State.updEng_agenda (s : State) (f : Engines → Engines) : (s.updEng f).agenda = s.agenda := rfl
@[simp] theorem State.updEng_rotor (s : State) (f : Engines → Engines) : (s.updEng f).rotor = s.rotor := rfl
@[simp] theorem State.updEng_draws (s : State) (f : Engines → Engines) : (s.updEng f).draws = s.draws := rfl

@[simp] theorem State.updMod_ctxs (s : State) (f : Module → Module) : (s.updMod f).ctxs = s.ctxs := rfl
@[simp] theorem State.updMod_cores (s : State) (f : Module → Module) : (s.updMod f).cores = s.cores := rfl
@[simp] theorem State.updMod_mem (s : State) (f : Module → Module) : (s.updMod f).mem = s.mem := rfl
@[simp] theorem State.updMod_cl (s : State) (f : Module → Module) : (s.updMod f).cl = s.cl := rfl
@[simp] theorem State.updMod_eng (s : State) (f : Module → Module) : (s.updMod f).eng = s.eng := rfl
@[simp] theorem State.updMod_mod (s : State) (f : Module → Module) : (s.updMod f).mod = f s.mod := rfl
@[simp] theorem State.updMod_cur (s : State) (f : Module → Module) : (s.updMod f).cur = s.cur := rfl
@[simp] theorem State.updMod_rep (s : State) (f : Module → Module) : (s.updMod f).rep = s.rep := rfl
@[simp] theorem State.updMod_taint (s : State) (f : Module → Module) : (s.updMod f).taint = s.taint := rfl
@[simp] theorem State.updMod_target (s : State) (f : Module → Module) : (s.updMod f).target = s.target := rfl
@[simp] theorem State.updMod_hurt (s : State) (f : Module → Module) : (s.updMod f).hurt = s.hurt := rfl
@[simp] theorem State.updMod_turns (s : State) (f : Module → Module) : (s.updMod f).turns = s.turns := rfl
@[simp] theorem State.updMod_agenda (s : State) (f : Module → Module) : (s.updMod f).agenda = s.agenda := rfl
@[simp] theorem State.updMod_rotor (s : State) (f : Module → Module) : (s.updMod f).rotor = s.rotor := rfl
@[simp] theorem State.updMod_draws (s : State) (f : Module → Module) : (s.updMod f).draws = s.draws := rfl

@[simp] theorem State.post_ctxs (s : State) (i : Instr) : (s.post i).ctxs = s.ctxs := rfl
@[simp] theorem State.post_cores (s : State) (i : Instr) : (s.post i).cores = s.cores := rfl
@[simp] theorem State.post_mem (s : State) (i : Instr) : (s.post i).mem = s.mem := rfl
@[simp] theorem State.post_cl (s : State) (i : Instr) : (s.post i).cl = s.cl := rfl
@[simp] theorem State.post_eng (s : State) (i : Instr) : (s.post i).eng = s.eng := rfl
@[simp] theorem State.post_mod (s : State) (i : Instr) : (s.post i).mod = s.mod := rfl
@[simp] theorem State.post_cur (s : State) (i : Instr) : (s.post i).cur = s.cur := rfl
@[simp] theorem State.post_rep (s : State) (i : Instr) : (s.post i).rep = s.rep := rfl
@[simp] theorem State.post_taint (s : State) (i : Instr) : (s.post i).taint = s.taint := rfl
@[simp] theorem State.post_target (s : State) (i : Instr) : (s.post i).target = s.target := rfl
@[simp] theorem State.post_hurt (s : State) (i : Instr) : (s.post i).hurt = s.hurt := rfl
@[simp] theorem State.post_turns (s : State) (i : Instr) : (s.post i).turns = s.turns := rfl
@[simp] theorem State.post_agenda (s : State) (i : Instr) : (s.post i).agenda = s.agenda ++ [i] := rfl
@[simp] theorem State.post_rotor (s : State) (i : Instr) : (s.post i).rotor = s.rotor := rfl
@[simp] theorem State.post_draws (s : State) (i : Instr) : (s.post i).draws = s.draws := rfl

@[simp] theorem State.posts_ctxs (s : State) (l : List Instr) : (s.posts l).ctxs = s.ctxs := rfl
@[simp] theorem State.posts_cores (s : State) (l : List Instr) : (s.posts l).cores = s.cores := rfl
@[simp] theorem State.posts_mem (s : State) (l : List Instr) : (s.posts l).mem = s.mem := rfl
@[simp] theorem State.posts_cl (s : State) (l : List Instr) : (s.posts l).cl = s.cl := rfl
@[simp] theorem State.posts_eng (s : State) (l : List Instr) : (s.posts l).eng = s.eng := rfl
@[simp] theorem State.posts_mod (s : State) (l : List Instr) : (s.posts l).mod = s.mod := rfl
@[simp] theorem State.posts_cur (s : State) (l : List Instr) : (s.posts l).cur = s.cur := rfl
@[simp] theorem State.posts_rep (s : State) (l : List Instr) : (s.posts l).rep = s.rep := rfl
@[simp] theorem State.posts_taint (s : State) (l : List Instr) : (s.posts l).taint = s.taint := rfl
@[simp] theorem State.posts_target (s : State) (l : List Instr) : (s.posts l).target = s.target := rfl
@[simp] theorem State.posts_hurt (s : State) (l : List Instr) : (s.posts l).hurt = s.hurt := rfl
@[simp] theorem State.posts_turns (s : State) (l : List Instr) : (s.posts l).turns = s.turns := rfl
@[simp] theorem State.posts_agenda (s : State) (l : List Instr) : (s.posts l).agenda = s.agenda ++ l := rfl
@[simp] theorem State.posts_rotor (s : State) (l : List Instr) : (s.posts l).rotor = s.rotor := rfl
@[simp] theorem State.posts_draws (s : State) (l : List Instr) : (s.posts l).draws = s.draws := rfl

@[simp] theorem State.next_ctxs (s : State) (i : Instr) : (s.next i).ctxs = s.ctxs := rfl
@[simp] theorem State.next_cores (s : State) (i : Instr) : (s.next i).cores = s.cores := rfl
@[simp] theorem State.next_mem (s : State) (i : Instr) : (s.next i).mem = s.mem := rfl
@[simp] theorem State.next_cl (s : State) (i : Instr) : (s.next i).cl = s.cl := rfl
@[simp] theorem State.next_eng (s : State) (i : Instr) : (s.next i).eng = s.eng := rfl
@[simp] theorem State.next_mod (s : State) (i : Instr) : (s.next i).mod = s.mod := rfl
@[simp] theorem State.next_cur (s : State) (i : Instr) : (s.next i).cur = s.cur := rfl
@[simp] theorem State.next_rep (s : State) (i : Instr) : (s.next i).rep = s.rep := rfl
@[simp] theorem State.next_taint (s : State) (i : Instr) : (s.next i).taint = s.taint := rfl
@[simp] theorem State.next_target (s : State) (i : Instr) : (s.next i).target = s.target := rfl
@[simp] theorem State.next_hurt (s : State) (i : Instr) : (s.next i).hurt = s.hurt := rfl
@[simp] theorem State.next_turns (s : State) (i : Instr) : (s.next i).turns = s.turns ++ [.event i] := rfl
@[simp] theorem State.next_agenda (s : State) (i : Instr) : (s.next i).agenda = s.agenda := rfl
@[simp] theorem State.next_rotor (s : State) (i : Instr) : (s.next i).rotor = s.rotor := rfl
@[simp] theorem State.next_draws (s : State) (i : Instr) : (s.next i).draws = s.draws := rfl

@[simp] theorem State.urge_ctxs (s : State) (t : Turn) : (s.urge t).ctxs = s.ctxs := rfl
@[simp] theorem State.urge_cores (s : State) (t : Turn) : (s.urge t).cores = s.cores := rfl
@[simp] theorem State.urge_mem (s : State) (t : Turn) : (s.urge t).mem = s.mem := rfl
@[simp] theorem State.urge_cl (s : State) (t : Turn) : (s.urge t).cl = s.cl := rfl
@[simp] theorem State.urge_eng (s : State) (t : Turn) : (s.urge t).eng = s.eng := rfl
@[simp] theorem State.urge_mod (s : State) (t : Turn) : (s.urge t).mod = s.mod := rfl
@[simp] theorem State.urge_cur (s : State) (t : Turn) : (s.urge t).cur = s.cur := rfl
@[simp] theorem State.urge_rep (s : State) (t : Turn) : (s.urge t).rep = s.rep := rfl
@[simp] theorem State.urge_taint (s : State) (t : Turn) : (s.urge t).taint = s.taint := rfl
@[simp] theorem State.urge_target (s : State) (t : Turn) : (s.urge t).target = s.target := rfl
@[simp] theorem State.urge_hurt (s : State) (t : Turn) : (s.urge t).hurt = s.hurt := rfl
@[simp] theorem State.urge_turns (s : State) (t : Turn) : (s.urge t).turns = t :: s.turns := rfl
@[simp] theorem State.urge_agenda (s : State) (t : Turn) : (s.urge t).agenda = s.agenda := rfl
@[simp] theorem State.urge_rotor (s : State) (t : Turn) : (s.urge t).rotor = s.rotor := rfl
@[simp] theorem State.urge_draws (s : State) (t : Turn) : (s.urge t).draws = s.draws := rfl

@[simp] theorem State.cancel_ctxs (s : State) (i : Instr) : (s.cancel i).ctxs = s.ctxs := rfl
@[simp] theorem State.cancel_cores (s : State) (i : Instr) : (s.cancel i).cores = s.cores := rfl
@[simp] theorem State.cancel_mem (s : State) (i : Instr) : (s.cancel i).mem = s.mem := rfl
@[simp] theorem State.cancel_cl (s : State) (i : Instr) : (s.cancel i).cl = s.cl := rfl
@[simp] theorem State.cancel_eng (s : State) (i : Instr) : (s.cancel i).eng = s.eng := rfl
@[simp] theorem State.cancel_mod (s : State) (i : Instr) : (s.cancel i).mod = s.mod := rfl
@[simp] theorem State.cancel_cur (s : State) (i : Instr) : (s.cancel i).cur = s.cur := rfl
@[simp] theorem State.cancel_rep (s : State) (i : Instr) : (s.cancel i).rep = s.rep := rfl
@[simp] theorem State.cancel_taint (s : State) (i : Instr) : (s.cancel i).taint = s.taint := rfl
@[simp] theorem State.cancel_target (s : State) (i : Instr) : (s.cancel i).target = s.target := rfl
@[simp] theorem State.cancel_hurt (s : State) (i : Instr) : (s.cancel i).hurt = s.hurt := rfl
@[simp] theorem State.cancel_turns (s : State) (i : Instr) : (s.cancel i).turns = s.turns := rfl
@[simp] theorem State.cancel_agenda (s : State) (i : Instr) : (s.cancel i).agenda = s.agenda.filter (· ≠ i) := rfl
@[simp] theorem State.cancel_rotor (s : State) (i : Instr) : (s.cancel i).rotor = s.rotor := rfl
@[simp] theorem State.cancel_draws (s : State) (i : Instr) : (s.cancel i).draws = s.draws := rfl

@[simp] theorem State.ended_ctxs (s : State) : (s.ended).ctxs = s.ctxs := rfl
@[simp] theorem State.ended_cores (s : State) : (s.ended).cores = s.cores := rfl
@[simp] theorem State.ended_mem (s : State) : (s.ended).mem = s.mem := rfl
@[simp] theorem State.ended_cl (s : State) : (s.ended).cl = s.cl := rfl
@[simp] theorem State.ended_eng (s : State) : (s.ended).eng = s.eng := rfl
@[simp] theorem State.ended_mod (s : State) : (s.ended).mod = s.mod := rfl
@[simp] theorem State.ended_cur (s : State) : (s.ended).cur = s.cur := rfl
@[simp] theorem State.ended_rep (s : State) : (s.ended).rep = none := rfl
@[simp] theorem State.ended_taint (s : State) : (s.ended).taint = [] := rfl
@[simp] theorem State.ended_target (s : State) : (s.ended).target = none := rfl
@[simp] theorem State.ended_hurt (s : State) : (s.ended).hurt = s.hurt := rfl
@[simp] theorem State.ended_turns (s : State) : (s.ended).turns = s.turns := rfl
@[simp] theorem State.ended_agenda (s : State) : (s.ended).agenda = s.agenda := rfl
@[simp] theorem State.ended_rotor (s : State) : (s.ended).rotor = s.rotor := rfl
@[simp] theorem State.ended_draws (s : State) : (s.ended).draws = s.draws := rfl

@[simp] theorem State.setStamp_ctxs (s : State) (g w r : Nat) : (s.setStamp g w r).ctxs = s.ctxs := rfl
@[simp] theorem State.setStamp_cores (s : State) (g w r : Nat) : (s.setStamp g w r).cores = s.cores := rfl
@[simp] theorem State.setStamp_mem (s : State) (g w r : Nat) : (s.setStamp g w r).mem = { s.mem with stamps := mapSet (0, 0) s.mem.stamps g (w, r) } := rfl
@[simp] theorem State.setStamp_cl (s : State) (g w r : Nat) : (s.setStamp g w r).cl = s.cl := rfl
@[simp] theorem State.setStamp_eng (s : State) (g w r : Nat) : (s.setStamp g w r).eng = s.eng := rfl
@[simp] theorem State.setStamp_mod (s : State) (g w r : Nat) : (s.setStamp g w r).mod = s.mod := rfl
@[simp] theorem State.setStamp_cur (s : State) (g w r : Nat) : (s.setStamp g w r).cur = s.cur := rfl
@[simp] theorem State.setStamp_rep (s : State) (g w r : Nat) : (s.setStamp g w r).rep = s.rep := rfl
@[simp] theorem State.setStamp_taint (s : State) (g w r : Nat) : (s.setStamp g w r).taint = s.taint := rfl
@[simp] theorem State.setStamp_target (s : State) (g w r : Nat) : (s.setStamp g w r).target = s.target := rfl
@[simp] theorem State.setStamp_hurt (s : State) (g w r : Nat) : (s.setStamp g w r).hurt = s.hurt := rfl
@[simp] theorem State.setStamp_turns (s : State) (g w r : Nat) : (s.setStamp g w r).turns = s.turns := rfl
@[simp] theorem State.setStamp_agenda (s : State) (g w r : Nat) : (s.setStamp g w r).agenda = s.agenda := rfl
@[simp] theorem State.setStamp_rotor (s : State) (g w r : Nat) : (s.setStamp g w r).rotor = s.rotor := rfl
@[simp] theorem State.setStamp_draws (s : State) (g w r : Nat) : (s.setStamp g w r).draws = s.draws := rfl

@[simp] theorem State.toHost_ctxs (s : State) (x : HostOut) : (s.toHost x).ctxs = s.ctxs := rfl
@[simp] theorem State.toHost_cores (s : State) (x : HostOut) : (s.toHost x).cores = s.cores := rfl
@[simp] theorem State.toHost_mem (s : State) (x : HostOut) : (s.toHost x).mem = s.mem := rfl
@[simp] theorem State.toHost_cl (s : State) (x : HostOut) : (s.toHost x).cl = s.cl := rfl
@[simp] theorem State.toHost_eng (s : State) (x : HostOut) : (s.toHost x).eng = s.eng := rfl
@[simp] theorem State.toHost_mod (s : State) (x : HostOut) : (s.toHost x).mod = { s.mod with hostOut := s.mod.hostOut ++ [x] } := rfl
@[simp] theorem State.toHost_cur (s : State) (x : HostOut) : (s.toHost x).cur = s.cur := rfl
@[simp] theorem State.toHost_rep (s : State) (x : HostOut) : (s.toHost x).rep = s.rep := rfl
@[simp] theorem State.toHost_taint (s : State) (x : HostOut) : (s.toHost x).taint = s.taint := rfl
@[simp] theorem State.toHost_target (s : State) (x : HostOut) : (s.toHost x).target = s.target := rfl
@[simp] theorem State.toHost_hurt (s : State) (x : HostOut) : (s.toHost x).hurt = s.hurt := rfl
@[simp] theorem State.toHost_turns (s : State) (x : HostOut) : (s.toHost x).turns = s.turns := rfl
@[simp] theorem State.toHost_agenda (s : State) (x : HostOut) : (s.toHost x).agenda = s.agenda := rfl
@[simp] theorem State.toHost_rotor (s : State) (x : HostOut) : (s.toHost x).rotor = s.rotor := rfl
@[simp] theorem State.toHost_draws (s : State) (x : HostOut) : (s.toHost x).draws = s.draws := rfl

@[simp] theorem State.draw_ctxs (s : State) : s.draw.2.ctxs = s.ctxs := rfl
@[simp] theorem State.draw_cores (s : State) : s.draw.2.cores = s.cores := rfl
@[simp] theorem State.draw_mem (s : State) : s.draw.2.mem = s.mem := rfl
@[simp] theorem State.draw_cl (s : State) : s.draw.2.cl = s.cl := rfl
@[simp] theorem State.draw_eng (s : State) : s.draw.2.eng = s.eng := rfl
@[simp] theorem State.draw_mod (s : State) : s.draw.2.mod = s.mod := rfl
@[simp] theorem State.draw_cur (s : State) : s.draw.2.cur = s.cur := rfl
@[simp] theorem State.draw_rep (s : State) : s.draw.2.rep = s.rep := rfl
@[simp] theorem State.draw_taint (s : State) : s.draw.2.taint = s.taint := rfl
@[simp] theorem State.draw_target (s : State) : s.draw.2.target = s.target := rfl
@[simp] theorem State.draw_hurt (s : State) : s.draw.2.hurt = s.hurt := rfl
@[simp] theorem State.draw_turns (s : State) : s.draw.2.turns = s.turns := rfl
@[simp] theorem State.draw_agenda (s : State) : s.draw.2.agenda = s.agenda := rfl
@[simp] theorem State.draw_rotor (s : State) : s.draw.2.rotor = s.rotor := rfl
@[simp] theorem State.draw_draws (s : State) : s.draw.2.draws = s.draws + 1 := rfl
@[simp] theorem State.drawN_ctxs (s : State) (k : Nat) : (s.drawN k).2.ctxs = s.ctxs := rfl
@[simp] theorem State.drawN_cores (s : State) (k : Nat) : (s.drawN k).2.cores = s.cores := rfl
@[simp] theorem State.drawN_mem (s : State) (k : Nat) : (s.drawN k).2.mem = s.mem := rfl
@[simp] theorem State.drawN_cl (s : State) (k : Nat) : (s.drawN k).2.cl = s.cl := rfl
@[simp] theorem State.drawN_eng (s : State) (k : Nat) : (s.drawN k).2.eng = s.eng := rfl
@[simp] theorem State.drawN_mod (s : State) (k : Nat) : (s.drawN k).2.mod = s.mod := rfl
@[simp] theorem State.drawN_cur (s : State) (k : Nat) : (s.drawN k).2.cur = s.cur := rfl
@[simp] theorem State.drawN_rep (s : State) (k : Nat) : (s.drawN k).2.rep = s.rep := rfl
@[simp] theorem State.drawN_taint (s : State) (k : Nat) : (s.drawN k).2.taint = s.taint := rfl
@[simp] theorem State.drawN_target (s : State) (k : Nat) : (s.drawN k).2.target = s.target := rfl
@[simp] theorem State.drawN_hurt (s : State) (k : Nat) : (s.drawN k).2.hurt = s.hurt := rfl
@[simp] theorem State.drawN_turns (s : State) (k : Nat) : (s.drawN k).2.turns = s.turns := rfl
@[simp] theorem State.drawN_agenda (s : State) (k : Nat) : (s.drawN k).2.agenda = s.agenda := rfl
@[simp] theorem State.drawN_rotor (s : State) (k : Nat) : (s.drawN k).2.rotor = s.rotor := rfl
@[simp] theorem State.drawN_draws (s : State) (k : Nat) : (s.drawN k).2.draws = s.draws + k := rfl

@[simp] theorem State.postOnce_ctxs (s : State) (i : Instr) : (s.postOnce i).ctxs = s.ctxs := by
  unfold State.postOnce; split <;> rfl
@[simp] theorem State.postOnce_cores (s : State) (i : Instr) : (s.postOnce i).cores = s.cores := by
  unfold State.postOnce; split <;> rfl
@[simp] theorem State.postOnce_mem (s : State) (i : Instr) : (s.postOnce i).mem = s.mem := by
  unfold State.postOnce; split <;> rfl
@[simp] theorem State.postOnce_cl (s : State) (i : Instr) : (s.postOnce i).cl = s.cl := by
  unfold State.postOnce; split <;> rfl
@[simp] theorem State.postOnce_eng (s : State) (i : Instr) : (s.postOnce i).eng = s.eng := by
  unfold State.postOnce; split <;> rfl
@[simp] theorem State.postOnce_mod (s : State) (i : Instr) : (s.postOnce i).mod = s.mod := by
  unfold State.postOnce; split <;> rfl
@[simp] theorem State.postOnce_cur (s : State) (i : Instr) : (s.postOnce i).cur = s.cur := by
  unfold State.postOnce; split <;> rfl
@[simp] theorem State.postOnce_rep (s : State) (i : Instr) : (s.postOnce i).rep = s.rep := by
  unfold State.postOnce; split <;> rfl
@[simp] theorem State.postOnce_taint (s : State) (i : Instr) : (s.postOnce i).taint = s.taint := by
  unfold State.postOnce; split <;> rfl
@[simp] theorem State.postOnce_target (s : State) (i : Instr) : (s.postOnce i).target = s.target := by
  unfold State.postOnce; split <;> rfl
@[simp] theorem State.postOnce_hurt (s : State) (i : Instr) : (s.postOnce i).hurt = s.hurt := by
  unfold State.postOnce; split <;> rfl
@[simp] theorem State.postOnce_turns (s : State) (i : Instr) : (s.postOnce i).turns = s.turns := by
  unfold State.postOnce; split <;> rfl
@[simp] theorem State.postOnce_rotor (s : State) (i : Instr) : (s.postOnce i).rotor = s.rotor := by
  unfold State.postOnce; split <;> rfl
@[simp] theorem State.postOnce_draws (s : State) (i : Instr) : (s.postOnce i).draws = s.draws := by
  unfold State.postOnce; split <;> rfl

/-! ### Contexts -/

@[simp] theorem State.getCtx_setCtx_same (s : State) (c : CtxId) (x : Ctx) : (s.setCtx c x).getCtx c = x := by
  simp [State.getCtx, State.setCtx]
@[simp] theorem State.getCtx_setCtx_other (s : State) (c d : CtxId) (x : Ctx) (h : d ≠ c) : (s.setCtx c x).getCtx d = s.getCtx d := by
  simp only [State.getCtx, State.setCtx, Fin.getElem_fin]
  exact Vector.getElem_set_ne _ _ (fun e => h (Fin.ext e.symm))
@[simp] theorem State.getCtx_updCtx_same (s : State) (c : CtxId) (f : Ctx → Ctx) : (s.updCtx c f).getCtx c = f (s.getCtx c) := by
  simp [State.updCtx]
@[simp] theorem State.getCtx_updCtx_other (s : State) (c d : CtxId) (f : Ctx → Ctx) (h : d ≠ c) :
    (s.updCtx c f).getCtx d = s.getCtx d := by
  simp [State.updCtx, h]
@[simp] theorem State.ctx_upd (s : State) (f : Ctx → Ctx) : (s.upd f).ctx = f s.ctx := by
  simp [State.ctx, State.upd, State.updCtx]
theorem State.getCtx_upd_other (s : State) (d : CtxId) (f : Ctx → Ctx) (h : d ≠ s.cur) : (s.upd f).getCtx d = s.getCtx d := by
  simp [State.upd, h]
@[simp] theorem State.getCtx_cur (s : State) : s.getCtx s.cur = s.ctx := rfl
@[simp] theorem State.updCl_getCtx (s : State) (f : Cluster → Cluster) (c : CtxId) : (s.updCl f).getCtx c = s.getCtx c := rfl
@[simp] theorem State.updMod_getCtx (s : State) (f : Module → Module) (c : CtxId) : (s.updMod f).getCtx c = s.getCtx c := rfl
@[simp] theorem State.updMem_getCtx (s : State) (f : Memory → Memory) (c : CtxId) : (s.updMem f).getCtx c = s.getCtx c := rfl
@[simp] theorem State.updEng_getCtx (s : State) (f : Engines → Engines) (c : CtxId) : (s.updEng f).getCtx c = s.getCtx c := rfl
@[simp] theorem State.updCore_getCtx (s : State) (k : CoreId) (f : Core → Core) (c : CtxId) :
    (s.updCore k f).getCtx c = s.getCtx c := rfl
@[simp] theorem State.updCl_ctx (s : State) (f : Cluster → Cluster) : (s.updCl f).ctx = s.ctx := rfl
@[simp] theorem State.updMod_ctx (s : State) (f : Module → Module) : (s.updMod f).ctx = s.ctx := rfl
@[simp] theorem State.updMem_ctx (s : State) (f : Memory → Memory) : (s.updMem f).ctx = s.ctx := rfl
@[simp] theorem State.updEng_ctx (s : State) (f : Engines → Engines) : (s.updEng f).ctx = s.ctx := rfl
@[simp] theorem State.updCore_ctx (s : State) (k : CoreId) (f : Core → Core) : (s.updCore k f).ctx = s.ctx := rfl
@[simp] theorem State.ended_ctx (s : State) : s.ended.ctx = s.ctx := rfl
@[simp] theorem State.ended_getCtx (s : State) (c : CtxId) : s.ended.getCtx c = s.getCtx c := rfl
@[simp] theorem State.getCore_updCore_same (s : State) (i : CoreId) (f : Core → Core) : (s.updCore i f).getCore i = f (s.getCore i) := by
  simp [State.getCore, State.updCore]

end Sys2Proof.Machine
end

