-- ==== Sys2Proof/Laws/Memory.lean ====
section
/-!
SUPPORT. Sys2Proof/Laws/Memory.lean: reads after writes, and that every memory operation keeps the canonical form.
-/
namespace Sys2Proof.Machine

/-! ### Tables -/

section Tables
variable {β : Type} [DecidableEq β] (d : β)

/-- A key below every listed one reads the default. -/
theorem mapGet_below : ∀ (m : List (Nat × β)) (lo a : Nat), mapWf d (some lo) m = true → a ≤ lo → mapGet d m a = d
  | [], _, _, _, _ => rfl
  | (b, x) :: r, lo, a, h, ha => by
    simp only [mapWf, Bool.and_eq_true, decide_eq_true_eq] at h
    have hb : a ≠ b := by omega
    simp only [mapGet, if_neg hb]
    exact mapGet_below r b a h.2 (by omega)

theorem mapGet_mapSet_same : ∀ (m : List (Nat × β)) (lo : Option Nat) (a : Nat) (v : β), mapWf d lo m = true →
    mapGet d (mapSet d m a v) a = v
  | [], _, a, v, _ => by
    by_cases hv : v = d <;> simp [mapSet, mapGet, hv]
  | (b, x) :: r, lo, a, v, h => by
    simp only [mapWf, Bool.and_eq_true, decide_eq_true_eq] at h
    simp only [mapSet]
    by_cases h1 : a < b
    · simp only [if_pos h1]
      by_cases hv : v = d
      · have hab : a ≠ b := by omega
        rw [if_pos hv, mapGet, if_neg hab, hv]
        exact mapGet_below d r b a h.2 (by omega)
      · simp [hv, mapGet]
    · simp only [if_neg h1]
      by_cases h2 : a = b
      · simp only [if_pos h2]
        by_cases hv : v = d
        · simp only [if_pos hv]
          rw [mapGet_below d r b a h.2 (by omega), hv]
        · simp [hv, mapGet]
      · simp only [if_neg h2, mapGet]
        exact mapGet_mapSet_same r (some b) a v h.2

theorem mapGet_mapSet_other : ∀ (m : List (Nat × β)) (a c : Nat) (v : β), c ≠ a →
    mapGet d (mapSet d m a v) c = mapGet d m c
  | [], a, c, v, h => by
    by_cases hv : v = d <;> simp [mapSet, mapGet, hv, h]
  | (b, x) :: r, a, c, v, h => by
    simp only [mapSet]
    by_cases h1 : a < b
    · simp only [if_pos h1]
      by_cases hv : v = d
      · simp [hv]
      · simp [hv, mapGet, h]
    · simp only [if_neg h1]
      by_cases h2 : a = b
      · subst h2
        by_cases hv : v = d <;> simp [hv, mapGet, h]
      · simp only [if_neg h2, mapGet]
        by_cases h3 : c = b
        · simp [h3]
        · simp only [if_neg h3]
          exact mapGet_mapSet_other r a c v h

theorem mapWf_mapSet : ∀ (m : List (Nat × β)) (lo : Option Nat) (a : Nat) (v : β), mapWf d lo m = true →
    (∀ l, lo = some l → l < a) → mapWf d lo (mapSet d m a v) = true
  | [], lo, a, v, _, hl => by
    by_cases hv : v = d
    · simp [mapSet, hv, mapWf]
    · cases lo with
      | none => simp [mapSet, hv, mapWf]
      | some l => simp [mapSet, hv, mapWf, hl l rfl]
  | (b, x) :: r, lo, a, v, h, hl => by
    have h' := h
    simp only [mapWf, Bool.and_eq_true, decide_eq_true_eq] at h
    obtain ⟨⟨hlo, hx⟩, hr⟩ := h
    simp only [mapSet]
    by_cases h1 : a < b
    · simp only [if_pos h1]
      by_cases hv : v = d
      · simp only [if_pos hv]; exact h'
      · simp only [if_neg hv, mapWf, Bool.and_eq_true, decide_eq_true_eq]
        refine ⟨⟨?_, hv⟩, ⟨h1, hx⟩, hr⟩
        cases lo with
        | none => rfl
        | some l => simpa using hl l rfl
    · simp only [if_neg h1]
      by_cases h2 : a = b
      · subst h2
        simp only [if_true]
        by_cases hv : v = d
        · simp only [if_pos hv]
          cases r with
          | nil => simp [mapWf]
          | cons p r =>
            obtain ⟨c, y⟩ := p
            simp only [mapWf, Bool.and_eq_true, decide_eq_true_eq] at hr ⊢
            refine ⟨⟨?_, hr.1.2⟩, hr.2⟩
            cases lo with
            | none => rfl
            | some l => have := hl l rfl; have := hr.1.1; simp only [decide_eq_true_eq]; omega
        · simp only [if_neg hv, mapWf, Bool.and_eq_true, decide_eq_true_eq]
          exact ⟨⟨hlo, hv⟩, hr⟩
      · simp only [if_neg h2, mapWf, Bool.and_eq_true, decide_eq_true_eq]
        refine ⟨⟨hlo, hx⟩, mapWf_mapSet r (some b) a v hr ?_⟩
        rintro l ⟨⟩
        omega

end Tables

theorem rising_insNat : ∀ (m : List Nat) (lo : Option Nat) (a : Nat), rising lo m = true → (∀ l, lo = some l → l < a) →
    rising lo (insNat m a) = true
  | [], lo, a, _, hl => by
    cases lo with
    | none => simp [insNat, rising]
    | some l => simpa [insNat, rising] using hl l rfl
  | b :: r, lo, a, h, hl => by
    have h' := h
    simp only [rising, Bool.and_eq_true] at h
    simp only [insNat]
    by_cases h1 : a < b
    · simp only [if_pos h1, rising, Bool.and_eq_true, decide_eq_true_eq]
      refine ⟨?_, h1, h.2⟩
      cases lo with
      | none => rfl
      | some l => simpa using hl l rfl
    · simp only [if_neg h1]
      by_cases h2 : a = b
      · subst h2; simpa using h'
      · simp only [if_neg h2, rising, Bool.and_eq_true]
        refine ⟨h.1, rising_insNat r (some b) a h.2 ?_⟩
        rintro l ⟨⟩
        omega

theorem rising_weaken : ∀ (m : List Nat) (l k : Nat), rising (some l) m = true → k ≤ l → rising (some k) m = true
  | [], _, _, _, _ => rfl
  | b :: r, l, k, h, hk => by
    simp only [rising, Bool.and_eq_true, decide_eq_true_eq] at h ⊢
    exact ⟨by omega, h.2⟩

theorem rising_filter (f : Nat → Bool) : ∀ (m : List Nat) (lo : Option Nat), rising lo m = true → rising lo (m.filter f) = true
  | [], _, _ => rfl
  | b :: r, lo, h => by
    simp only [rising, Bool.and_eq_true] at h
    by_cases hb : f b = true
    · simp only [List.filter_cons_of_pos hb, rising, Bool.and_eq_true]
      exact ⟨h.1, rising_filter f r (some b) h.2⟩
    · simp only [List.filter_cons_of_neg hb]
      have ih := rising_filter f r (some b) h.2
      cases lo with
      | none =>
        cases hr : r.filter f with
        | nil => rfl
        | cons c t => rw [hr] at ih; simp only [rising, Bool.and_eq_true, decide_eq_true_eq] at ih ⊢; exact ⟨trivial, ih.2⟩
      | some l =>
        have hl : l < b := by simpa using h.1
        exact rising_weaken _ b l ih (by omega)

/-! ### Bytes of memory -/

theorem mapWf_putCells : ∀ (l : List Byte) (m : List Host.Cell) (a : Nat), mapWf 0 none m = true → mapWf 0 none (putCells m a l) = true
  | [], _, _, h => h
  | b :: r, m, a, h => mapWf_putCells r _ (a + 1) (mapWf_mapSet 0 m none a b h (by intro l hl; cases hl))

theorem mapGet_putCells_other : ∀ (l : List Byte) (m : List Host.Cell) (a c : Nat), c < a ∨ a + l.length ≤ c →
    mapGet 0 (putCells m a l) c = mapGet 0 m c
  | [], _, _, _, _ => rfl
  | b :: r, m, a, c, h => by
    simp only [List.length_cons] at h
    rw [putCells, mapGet_putCells_other r _ (a + 1) c (by omega), mapGet_mapSet_other 0 m a c b (by omega)]

theorem mapGet_putCells_same : ∀ (l : List Byte) (m : List Host.Cell) (a i : Nat), mapWf 0 none m = true → i < l.length →
    mapGet 0 (putCells m a l) (a + i) = l.getD i 0
  | [], _, _, _, _, h => by simp at h
  | b :: r, m, a, 0, hm, _ => by
    rw [putCells, mapGet_putCells_other r _ (a + 1) (a + 0) (by omega)]
    exact mapGet_mapSet_same 0 m none a b hm
  | b :: r, m, a, i + 1, hm, h => by
    have := mapGet_putCells_same r (mapSet 0 m a b) (a + 1) i (mapWf_mapSet 0 m none a b hm (by intro l hl; cases hl))
      (by simpa using h)
    rw [putCells, show a + (i + 1) = a + 1 + i by omega, this]
    simp

theorem Memory.asCells_length (m : Memory) : ∀ (l : List Byte) (a : Nat), (m.asCells a l).length = l.length
  | [], _ => rfl
  | _ :: r, a => by simp [Memory.asCells, Memory.asCells_length m r (a + 1)]

theorem Memory.asCells_getD (m : Memory) : ∀ (l : List Byte) (a i : Nat), i < l.length →
    (m.asCells a l).getD i 0 = l.getD i 0 ^^^ m.residue (a + i)
  | [], _, _, h => by simp at h
  | b :: r, a, 0, _ => by simp [Memory.asCells]
  | b :: r, a, i + 1, h => by
    have := Memory.asCells_getD m r (a + 1) i (by simpa using h)
    simpa [Memory.asCells, show a + (i + 1) = a + 1 + i by omega] using this

@[simp] theorem Memory.put_residue (m : Memory) (a : Nat) (l : List Byte) (c : Nat) : (m.put a l).residue c = m.residue c := rfl

/-- A byte outside the span of a write keeps its value. -/
theorem Memory.get_put_other (m : Memory) (a c : Nat) (l : List Byte) (h : c < a ∨ a + l.length ≤ c) : (m.put a l).get c = m.get c := by
  simp only [Memory.get, Memory.put_residue]
  congr 1
  exact mapGet_putCells_other _ _ _ _ (by rwa [Memory.asCells_length])

/-- A byte inside it takes the value written. -/
theorem Memory.get_put_same (m : Memory) (a i : Nat) (l : List Byte) (hm : m.wf = true) (h : i < l.length) :
    (m.put a l).get (a + i) = l.getD i 0 := by
  have hc : mapWf 0 none m.cells = true := by
    simp only [Memory.wf, Bool.and_eq_true] at hm; exact hm.1.1
  have hg : mapGet 0 (m.put a l).cells (a + i) = l.getD i 0 ^^^ m.residue (a + i) := by
    rw [← Memory.asCells_getD m l a i h]
    exact mapGet_putCells_same _ _ _ _ hc (by rwa [Memory.asCells_length])
  rw [Memory.get, Memory.put_residue, hg, BitVec.xor_assoc, BitVec.xor_self, BitVec.xor_zero]

/-- A write keeps the canonical form. -/
theorem Memory.wf_put (m : Memory) (a : Nat) (l : List Byte) (h : m.wf = true) : (m.put a l).wf = true := by
  simp only [Memory.wf, Bool.and_eq_true, Memory.put] at h ⊢
  exact ⟨⟨mapWf_putCells _ _ _ h.1.1, h.1.2⟩, h.2⟩

/-! ### The operations of Ops.lean keep the canonical form -/

theorem reset_memory_wf : State.reset.mem.wf = true := rfl

theorem State.putBytes_wf (s : State) (a : Nat) (l : List Byte) (h : s.mem.wf = true) : (s.putBytes a l).mem.wf = true :=
  Memory.wf_put s.mem a l h
theorem State.putWord_wf (s : State) (a : Nat) (w : Word) (h : s.mem.wf = true) : (s.putWord a w).mem.wf = true :=
  s.putBytes_wf a _ h
theorem State.setStamp_wf (s : State) (g w r : Nat) (h : s.mem.wf = true) : (s.setStamp g w r).mem.wf = true := by
  simp only [Memory.wf, Bool.and_eq_true, State.setStamp_mem] at h ⊢
  exact ⟨⟨h.1.1, mapWf_mapSet _ _ none _ _ h.1.2 (by intro l hl; cases hl)⟩, h.2⟩
theorem State.stampRead_wf (s : State) (g t : Nat) (h : s.mem.wf = true) : (s.stampRead g t).mem.wf = true := s.setStamp_wf _ _ _ h
theorem State.stampWrite_wf (s : State) (g t : Nat) (h : s.mem.wf = true) : (s.stampWrite g t).mem.wf = true := s.setStamp_wf _ _ _ h
theorem State.setFE_wf (s : State) (w : Nat) (full : Bool) (h : s.mem.wf = true) : (s.setFE w full).mem.wf = true := by
  have key : ∀ m : Memory, m.wf = true →
      ({ m with feEmpty := if full then m.feEmpty.filter (· ≠ w) else insNat m.feEmpty w } : Memory).wf = true := by
    intro m hm
    simp only [Memory.wf, Bool.and_eq_true] at hm ⊢
    refine ⟨hm.1, ?_⟩
    cases full with
    | true => exact rising_filter _ _ none hm.2
    | false => exact rising_insNat _ none w hm.2 (by intro l hl; cases hl)
  unfold State.setFE
  split
  · exact h
  · dsimp only
    have hp : ∀ (c : Bool) (s : State) (i : Instr), (if c = true then s.next i else s).mem = s.mem := by
      intro c s i; cases c <;> rfl
    rw [hp]
    exact key _ h
theorem State.putRec_wf (s : State) (i w : Nat) (x : Word) (h : s.mem.wf = true) : (s.putRec i w x).mem.wf = true := s.putWord_wf _ _ h
theorem State.setRecState_wf (s : State) (i st : Nat) (h : s.mem.wf = true) : (s.setRecState i st).mem.wf = true := s.putRec_wf _ _ _ h
theorem State.setNext_wf (s : State) (i n : Nat) (h : s.mem.wf = true) : (s.setNext i n).mem.wf = true := s.putRec_wf _ _ _ h
theorem State.chain_wf : ∀ (l : List QEnt) (s : State), s.mem.wf = true → (s.chain l).mem.wf = true
  | [], _, h => h
  | [_], s, h => s.setNext_wf _ _ h
  | _ :: f :: r, s, h => State.chain_wf (f :: r) _ (s.setNext_wf _ _ h)
theorem State.enqueue_wf (s : State) (i : Nat) (woke : Bool) (h : s.mem.wf = true) : (s.enqueue i woke).mem.wf = true :=
  State.chain_wf _ _ (s.setRecState_wf i 1 h)
theorem State.unlinkChanged_wf : ∀ (n : Nat) (s : State), s.mem.wf = true → (s.unlinkChanged n).mem.wf = true
  | 0, _, h => h
  | q + 1, s, h => by
    have ih := State.unlinkChanged_wf q s h
    unfold State.unlinkChanged
    dsimp only
    split
    · exact ih
    · exact State.chain_wf _ _ ih
@[simp] theorem State.observeWord_mem (s0 s : State) (x : Nat) : (s0.observeWord s x).mem = s.mem := by
  unfold State.observeWord
  dsimp only
  split
  · rfl
  · split <;> rfl
@[simp] theorem State.observeMap_mem (s : State) (o n : Nat) : (s.observeMap o n).mem = s.mem := rfl
@[simp] theorem State.observeWords_mem (s0 : State) : ∀ (k : Nat) (s : State) (x : Nat), (s0.observeWords s x k).mem = s.mem
  | 0, _, _ => rfl
  | k + 1, s, x => by rw [State.observeWords, State.observeWords_mem s0 k, State.observeWord_mem]
@[simp] theorem State.dropEvents_mem (s : State) : s.dropEvents.mem = s.mem := rfl
theorem State.observePool_wf (s0 s : State) (o n : Nat) (h : s.mem.wf = true) : (State.observePool s0 s o n).mem.wf = true := by
  unfold State.observePool
  dsimp only
  split
  · apply State.unlinkChanged_wf
    rwa [State.dropEvents_mem, State.observeWords_mem]
  · exact h

@[simp] theorem State.queueMsg_mem (s : State) (m : NetMsg) (n : Nat) : (s.queueMsg m n).mem = s.mem := by
  unfold State.queueMsg
  dsimp only
  split
  · rfl
  · exact State.postOnce_mem _ _
/-- Sending a message changes no memory. -/
@[simp] theorem State.send_mem (s : State) (dst : ClusterId) (route : BitVec 2) (b : NetBody) : (s.send dst route b).mem = s.mem := by
  unfold State.send State.bounce
  dsimp only
  repeat' split
  all_goals first | rfl | exact State.queueMsg_mem _ _ _
theorem State.fire_wf (s : State) (w : WatchReq) (T : Nat) (h : s.mem.wf = true) : (s.fire w T).mem.wf = true := by
  unfold State.fire
  dsimp only
  split
  · simpa using h
  · simpa using s.setStamp_wf _ _ _ h
theorem State.fireList_wf (o n t : Nat) : ∀ (l : List WatchReq) (s : State), s.mem.wf = true → (s.fireList o n t l).mem.wf = true
  | [], _, h => h
  | w :: r, s, h => by
    unfold State.fireList
    dsimp only
    apply State.fireList_wf o n t r
    split
    · exact State.fire_wf _ _ _ h
    · exact h
theorem State.backInvalidate_mem (s : State) (key n : Nat) : (s.backInvalidate key n).mem = s.mem := by
  unfold State.backInvalidate
  dsimp only
  split <;> rfl
/-- The write of a store with all that it brings. -/
theorem State.writeOwn_wf (s : State) (o key : Nat) (l : List Byte) (t : Nat) (h : s.mem.wf = true) : (s.writeOwn o key l t).mem.wf = true := by
  unfold State.writeOwn State.fireWatches
  dsimp only
  apply State.fireList_wf
  rw [State.observeMap_mem]
  apply State.observePool_wf
  apply State.putBytes_wf
  rwa [State.backInvalidate_mem]

end Sys2Proof.Machine
end

