-- ==== Sys2Proof/Safety.lean ====
section
/-!
DEFINITION. Sys2Proof/Safety.lean: what a safe run is, and the words that the claims are stated in: when a register can be
read, what reading it leaves, what stays as it was.
-/
namespace Sys2Proof.Machine

/-- An outcome is safe when the machine goes on. -/
def goesOn : Host.Outcome State Fault Refusal → Prop
  | .next _ => True
  | _ => False

/-! ### Sources -/

/-- g[r] can be read: g0, or full, not poisoned, not damaged (R161, R79, R376). -/
def State.gOk (s : State) (r : GNum) : Bool := r = 0 || (!s.ctx.g[r].bad && s.ctx.g[r].full && !s.ctx.g[r].poison)
/-- What reading g[r] gives: g0 reads zero (R185). -/
def State.gVal (s : State) (r : GNum) : Word := if r = 0 then 0 else s.ctx.g[r].val
/-- The link tags that the value of g[r] waits for (R153). -/
def State.gTags (s : State) (r : GNum) : List Nat := if r = 0 then [] else s.ctx.g[r].unchk
/-- The state in which g registers have been read. -/
def State.reads (s : State) (l : List GNum) : State := { s with taint := s.taint ++ (l.map s.gTags).flatten }
/-- v[r] can be read. -/
def State.vOk (s : State) (r : VNum) : Bool := !s.ctx.v[r].bad && s.ctx.v[r].full && !s.ctx.v[r].poison
/-- The state in which v registers have been read. -/
def State.readsV (s : State) (l : List VNum) : State := { s with taint := s.taint ++ (l.map fun r => s.ctx.v[r].unchk).flatten }
/-- The moving context holds only checked registers (R153). -/
def State.allChecked (s : State) : Prop := s.ctx.anyUnchecked = false

/-! ### Where an access stores -/

/-- A NEXT word of a record that stands in a ready queue: the scheduler rewrites it when software takes a record out (R18, R20). -/
def State.queuedNext (s : State) (a : Nat) : Prop :=
  ∃ l ∈ s.cl.queues.toList, ∃ e ∈ l, s.recAt e.idx 1 ≤ a ∧ a < s.recAt e.idx 1 + 8
/-- A byte of the pending-operation log of number i, or of its descriptor (R368, R369). -/
def State.inLog (s : State) (i a : Nat) : Prop :=
  (s.cl.par.logdBase + 32 * i ≤ a ∧ a < s.cl.par.logdBase + 32 * i + 32) ∨
    (s.cl.par.logBase + 4096 * i ≤ a ∧ a < s.cl.par.logBase + 4096 * i + 8192)
/-- The bytes that an access of n bytes at a window offset may change: its own, with the NEXT words of queued records, when the
access is allowed; the log of the page, when the page is not resident; none otherwise. -/
def State.storedTo (s : State) (p : Perm) (o n a : Nat) : Prop :=
  match (s.access s.agent s.sup p o n).1 with
  | .ok key => (key ≤ a ∧ a < key + n) ∨ s.queuedNext a
  | .nonres _ leaf => s.inLog (bits leaf 6 10) a
  | _ => False

/-! ### What stays as it was -/

/-- In a context every register outside the lists, the timelines and what R177 gives a context beside them are as before. -/
structure CtxKept (x y : Ctx) (gs : List GNum) (vs : List VNum) (ks : List KNum) : Prop where
  g : ∀ r, r ∉ gs → y.g[r] = x.g[r]
  v : ∀ r, r ∉ vs → y.v[r] = x.v[r]
  k : ∀ r, r ∉ ks → y.k[r] = x.k[r] ∧ y.ku[r] = x.ku[r]
  t : y.t = x.t ∧ y.tu = x.tu
  e : y.e = x.e ∧ y.eu = x.eu
  tl : y.tl = x.tl
  spl : y.spl = x.spl
  ids : y.lcore = x.lcore ∧ y.bound = x.bound ∧ y.expb = x.expb ∧ y.rcvb = x.rcvb ∧ y.debug = x.debug

/-- Of the registers of all contexts only those listed, of the moving context, may have changed. -/
structure OwnKept (s t : State) (gs : List GNum) (vs : List VNum) (ks : List KNum) : Prop where
  cur : t.cur = s.cur
  own : CtxKept s.ctx t.ctx gs vs ks
  others : ∀ c, c ≠ s.cur → t.getCtx c = s.getCtx c

/-- A step of the moving context that works on its registers alone: every other context, its own clock and retry latch, every
byte and F/E bit of memory, the engines and the module are as before, and so are the special registers of the cores and the
cluster's tables; a trap may write its core's trap queue (R310), and a context that traps is no longer on its way to a
preemption. The draw counter has advanced by no more than `draws` (R51). -/
structure RegsOnly (s t : State) (gs : List GNum) (vs : List VNum) (ks : List KNum) (draws : Nat := 0) : Prop where
  regs : OwnKept s t gs vs ks
  clk : t.ctx.clk = s.ctx.clk
  drawn : ∃ n, n ≤ draws ∧ t.ctx.drawn = s.ctx.drawn + BitVec.ofNat 48 n
  marks : t.ctx.retry = s.ctx.retry ∧ t.ctx.atomicDone = s.ctx.atomicDone ∧ t.ctx.side = s.ctx.side
  bytes : ∀ a, t.byte a = s.byte a
  mem : t.mem = s.mem
  cores : ∀ i, { t.getCore i with tq := [] } = { s.getCore i with tq := [] }
  cl : { t.cl with preempting := [] } = { s.cl with preempting := [] }
  eng : t.eng = s.eng
  mod : t.mod = s.mod

/-! ### The machine as a whole -/

/-- In twin mode every trailer holds what its leader holds (R32, log 13). -/
def State.TwinsAgree (s : State) : Prop :=
  s.cl.par.twin = true → ∀ i : Nat, 9 ≤ i % 16 → s.ctxs[i]?.getD Ctx.reset = s.ctxs[i - 8]?.getD Ctx.reset

/-- Context c has the issue slot of its core; the moves that were put behind it are r (R13). What its wait had kept is gone, the WAIT
latch and the retry latch are for one PC (R243, R318); a write-back that context 0 of the core has made is complete
(R332). -/
def State.slotFor (s : State) (core : CoreId) (c : CtxId) (r : List Turn) : State :=
  let s := ({ s with turns := r, draws := s.draws + 16 }).updCore core fun k => { k with lastIssued := numOf c }
  let s := ({ s with cur := c, taint := [], hurt := false, rep := none, target := none }).updCl fun k =>
    { k with wb := k.wb.filter fun w => !(numOf c = 0 && w.1 = coreOf c) }
  s.upd fun x =>
    { x with st := .issued, wait := none, retry := { x.retry with v := x.retry.v && x.retry.pc = x.pc },
             latch := if x.pc = x.latchPc then x.latch else 0 }

end Sys2Proof.Machine
end

