-- ==== Sys2Proof/Certificates/Slice0/Obligations.lean ====
section
/-!
DEFINITION. Sys2Proof/Certificates/Slice0/Obligations.lean: what the provers are to prove of the model, one Prop for each
claim. A name of a rule R<n> in a docstring is the rule that the claim follows.
-/
open Sys2Proof Sys2Proof.Machine

/-- R185, R161, R165: an instruction that writes g[d], with no repeat prefix, leaves it full and unpoisoned, changes no other
register, discards a write to g0, and moves the PC past its own bytes. R15, R165: the end of an instruction with no prefix,
or with its last repetition done, puts the PC where the instruction leaves it; before the last repetition the PC stays and
REPIDX counts. The context is READY again, or STOPPED when a stop is pending. -/
def Obligations.RegisterWrite : Prop :=
  (∀ (s : State) (len : Nat) (d : GNum) (v : Word), s.rep = none →
      let t := s.putG len d v
      (t.ctx.pc = s.ctx.pc + BitVec.ofNat 48 len) ∧
      (d ≠ 0 → t.ctx.g[d] = ⟨v, true, false, s.taint, false⟩) ∧
      (∀ r, r ≠ d ∨ d = 0 → t.ctx.g[r] = s.ctx.g[r]) ∧
      (t.ctx.v = s.ctx.v ∧ t.ctx.k = s.ctx.k ∧ t.ctx.e = s.ctx.e ∧ t.ctx.t = s.ctx.t ∧ t.mem = s.mem) ∧
      (s.ctx.stopReq = none → t.ctx.st = .ready) ∧ (s.ctx.stopReq ≠ none → t.ctx.st = .stopped)) ∧
  (∀ (s : State) (len : Nat) (pc : BitVec 48),
      ((s.jumpTo pc).ctx.pc = pc ∧ (s.jumpTo pc).ctx.repidx = 0 ∧ (s.jumpTo pc).ctx.g = s.ctx.g ∧
        (s.jumpTo pc).ctx.st = (if s.ctx.stopReq.isSome then CtxSt.stopped else CtxSt.ready)) ∧
      (s.rep = none → s.finish len = s.jumpTo (s.ctx.pc + BitVec.ofNat 48 len)) ∧
      (∀ r, s.rep = some r → r.cnt ≤ r.j → s.finish len = s.jumpTo (s.ctx.pc + BitVec.ofNat 48 (r.len + 2))) ∧
      (∀ r, s.rep = some r → r.j < r.cnt → (s.finish len).ctx.pc = s.ctx.pc ∧ (s.finish len).ctx.repidx = BitVec.ofNat 6 (r.j + 1)))

/-- R191, R192, R196: the two-source register forms complete with the value of the table, whatever the dispositions, when their
sources can be read. R191: division by zero and the overflowing quotient give the values of the table, and every other
quotient and remainder is exact. -/
def Obligations.ScalarArithmetic : Prop :=
  (∀ (s : State) (d a b : GNum) (fa fb : Bool), s.gOk a → s.gOk b →
      let A := s.gVal a
      let B := s.gVal b
      let w (v : Word) : Out := .next ((s.reads [a, b]).putG 4 d v)
      let n := B.toNat % 64
      exec (.add d a b fa fb) s = w (A + B) ∧ exec (.sub d a b fa fb) s = w (A - B) ∧
      exec (.and d a b fa fb) s = w (A &&& B) ∧ exec (.or d a b fa fb) s = w (A ||| B) ∧
      exec (.xor d a b fa fb) s = w (A ^^^ B) ∧ exec (.andn d a b fa fb) s = w (A &&& ~~~B) ∧
      exec (.orn d a b fa fb) s = w (A ||| ~~~B) ∧ exec (.xnor d a b fa fb) s = w (~~~(A ^^^ B)) ∧
      exec (.sll d a b fa fb) s = w (A <<< n) ∧ exec (.srl d a b fa fb) s = w (A >>> n) ∧
      exec (.sra d a b fa fb) s = w (A.sshiftRight n) ∧ exec (.rol d a b fa fb) s = w (A.rotateLeft n) ∧
      exec (.ror d a b fa fb) s = w (A.rotateRight n) ∧ exec (.mul d a b fa fb) s = w (A * B) ∧
      exec (.mulh d a b fa fb) s = w (BitVec.ofInt 64 (A.toInt * B.toInt / 2 ^ 64)) ∧
      exec (.mulhn d a b fa fb) s = w (BitVec.ofNat 64 (A.toNat * B.toNat / 2 ^ 64)) ∧
      exec (.min d a b fa fb) s = w (if A.toInt ≤ B.toInt then A else B) ∧
      exec (.max d a b fa fb) s = w (if A.toInt ≤ B.toInt then B else A) ∧
      exec (.minn d a b fa fb) s = w (if A.toNat ≤ B.toNat then A else B) ∧
      exec (.maxn d a b fa fb) s = w (if A.toNat ≤ B.toNat then B else A) ∧
      exec (.slt d a b fa fb) s = w (if A.toInt < B.toInt then 1 else 0) ∧
      exec (.sltn d a b fa fb) s = w (if A.toNat < B.toNat then 1 else 0) ∧
      exec (.seq d a b fa fb) s = w (if A = B then 1 else 0) ∧ exec (.sne d a b fa fb) s = w (if A = B then 0 else 1) ∧
      exec (.addsn d a b fa fb) s = w (BitVec.ofNat 64 (min (A.toNat + B.toNat) (2 ^ 64 - 1))) ∧
      exec (.subsn d a b fa fb) s = w (BitVec.ofNat 64 (A.toNat - B.toNat)) ∧
      exec (.adds d a b fa fb) s = w (BitVec.ofInt 64 (max (-2 ^ 63) (min (A.toInt + B.toInt) (2 ^ 63 - 1)))) ∧
      exec (.subs d a b fa fb) s = w (BitVec.ofInt 64 (max (-2 ^ 63) (min (A.toInt - B.toInt) (2 ^ 63 - 1)))) ∧
      exec (.leaR d a b fa fb) s = w (BitVec.ofNat 64 ((2 ^ 15 + A.toNat % 2 ^ 15) * 2 ^ 48 + B.toNat % 2 ^ 48)) ∧
      (s.gOk d → exec (.sel d a b fa fb) s = .next ((s.reads [a, b, d]).putG 4 d (if s.gVal d = 0 then B else A)))) ∧
  (∀ (s : State) (d a b : GNum) (fa fb : Bool), s.gOk a → s.gOk b →
      let A := s.gVal a
      let B := s.gVal b
      let w (v : Word) : Out := .next ((s.reads [a, b]).putG 4 d v)
      (∃ v, exec (.div d a b fa fb) s = w v ∧ (B = 0 → v = BitVec.allOnes 64) ∧
        (A.toInt = -2 ^ 63 → B.toInt = -1 → v.toInt = -2 ^ 63) ∧
        (B ≠ 0 → ¬(A.toInt = -2 ^ 63 ∧ B.toInt = -1) → v.toInt = A.toInt.tdiv B.toInt)) ∧
      (∃ v, exec (.divn d a b fa fb) s = w v ∧ (B = 0 → v = BitVec.allOnes 64) ∧ (B ≠ 0 → v.toNat = A.toNat / B.toNat)) ∧
      (∃ v, exec (.rem d a b fa fb) s = w v ∧ (B = 0 → v = A) ∧ (A.toInt = -2 ^ 63 → B.toInt = -1 → v = 0) ∧
        (B ≠ 0 → v.toInt = A.toInt - B.toInt * A.toInt.tdiv B.toInt)) ∧
      (∃ v, exec (.remn d a b fa fb) s = w v ∧ (B = 0 → v = A) ∧ (B ≠ 0 → v.toNat = A.toNat % B.toNat)))

/-- R191: the one-source register forms complete with a value that the table describes bit by bit. R193 to R195: the immediate
forms and the bit fields complete with the value of their rules, `bfi` and `limk` alone reading the destination before.
R160: a 16-bit form does what its 32-bit equivalent does, two bytes long. -/
def Obligations.ScalarImmediates : Prop :=
  (∀ (s : State) (d a : GNum) (fa : Bool), s.gOk a →
      let A := s.gVal a
      let w (v : Word) : Out := .next ((s.reads [a]).putG 4 d v)
      (∃ n : Nat, n ≤ 64 ∧ exec (.clz d a fa) s = w (BitVec.ofNat 64 n) ∧ (∀ i, i < n → A.getLsbD (63 - i) = false) ∧
        (n < 64 → A.getLsbD (63 - n) = true)) ∧
      (∃ n : Nat, n ≤ 64 ∧ exec (.ctz d a fa) s = w (BitVec.ofNat 64 n) ∧ (∀ i, i < n → A.getLsbD i = false) ∧
        (n < 64 → A.getLsbD n = true)) ∧
      exec (.popc d a fa) s = w (BitVec.ofNat 64 ((List.range 64).filter fun i => A.getLsbD i).length) ∧
      (∃ v, exec (.brev d a fa) s = w v ∧ ∀ i, i < 64 → v.getLsbD i = A.getLsbD (63 - i)) ∧
      (∃ v, exec (.bswap d a fa) s = w v ∧ ∀ i, i < 8 → v.extractLsb' (8 * i) 8 = A.extractLsb' (8 * (7 - i)) 8) ∧
      exec (.sx8 d a fa) s = w ((A.setWidth 8).signExtend 64) ∧ exec (.sx16 d a fa) s = w ((A.setWidth 16).signExtend 64) ∧
      exec (.sx32 d a fa) s = w ((A.setWidth 32).signExtend 64) ∧ exec (.zx8 d a fa) s = w ((A.setWidth 8).setWidth 64) ∧
      exec (.zx16 d a fa) s = w ((A.setWidth 16).setWidth 64) ∧ exec (.zx32 d a fa) s = w ((A.setWidth 32).setWidth 64)) ∧
  (∀ (s : State) (d a : GNum) (fa : Bool) (imm : BitVec 13) (n len pos : BitVec 6) (h : Fin 4) (imm16 : BitVec 16),
      let A := s.gVal a
      let D := s.gVal d
      let S : Word := imm.signExtend 64
      let Z : Word := imm.setWidth 64
      let w (v : Word) : Out := .next ((s.reads [a]).putG 4 d v)
      (s.gOk a → exec (.addi d a fa imm) s = w (A + S) ∧ exec (.andi d a fa imm) s = w (A &&& S) ∧
        exec (.ori d a fa imm) s = w (A ||| Z) ∧ exec (.xori d a fa imm) s = w (A ^^^ Z) ∧
        exec (.slli d a fa n) s = w (A <<< n.toNat) ∧ exec (.srli d a fa n) s = w (A >>> n.toNat) ∧
        exec (.srai d a fa n) s = w (A.sshiftRight n.toNat) ∧ exec (.roli d a fa n) s = w (A.rotateLeft n.toNat) ∧
        exec (.rori d a fa n) s = w (A.rotateRight n.toNat) ∧
        exec (.slti d a fa imm) s = w (if A.toInt < imm.toInt then 1 else 0) ∧
        exec (.sltni d a fa imm) s = w (if A.toNat < imm.toNat then 1 else 0)) ∧
      (s.gOk a → pos.toNat + len.toNat + 1 ≤ 64 →
        (∃ v, exec (.bfx d a fa len pos) s = w v ∧
          ∀ i, i < 64 → v.getLsbD i = (decide (i ≤ len.toNat) && A.getLsbD (pos.toNat + i))) ∧
        (∃ v, exec (.bfxs d a fa len pos) s = w v ∧
          ∀ i, i < 64 → v.getLsbD i = A.getLsbD (pos.toNat + min i len.toNat)) ∧
        (s.gOk d → ∃ v, exec (.bfi d a fa len pos) s = .next ((s.reads [a, d]).putG 4 d v) ∧
          ∀ i, i < 64 → v.getLsbD i =
            if pos.toNat ≤ i ∧ i ≤ pos.toNat + len.toNat then A.getLsbD (i - pos.toNat) else D.getLsbD i)) ∧
      exec (.lim d h imm16) s = .next (s.putG 4 d (imm16.signExtend 64 <<< (16 * h.val))) ∧
      (s.gOk d → ∃ v, exec (.limk d h imm16) s = .next ((s.reads [d]).putG 4 d v) ∧
        ∀ i, i < 64 → v.getLsbD i = if 16 * h.val ≤ i ∧ i < 16 * h.val + 16 then imm16.getLsbD (i - 16 * h.val) else D.getLsbD i)) ∧
  (∀ (s : State) (d a : GNum) (imm : BitVec 6),
      let A := s.gVal a
      let D := s.gVal d
      let w (l : List GNum) (v : Word) : Out := .next ((s.reads l).putG 2 d v)
      (s.gOk a → exec (.cMov d a) s = w [a] A) ∧ exec (.cLi d imm) s = w [] (imm.signExtend 64) ∧
      (s.gOk d → exec (.cAddi d imm) s = w [d] (D + imm.signExtend 64) ∧
        exec (.cSlli d imm) s = w [d] (D <<< imm.toNat) ∧ exec (.cSrli d imm) s = w [d] (D >>> imm.toNat) ∧
        exec (.cSrai d imm) s = w [d] (D.sshiftRight imm.toNat)) ∧
      (s.gOk a → s.gOk d →
        exec (.cAdd d a) s = w [d, a] (D + A) ∧ exec (.cSub d a) s = w [d, a] (D - A) ∧
        exec (.cAnd d a) s = w [d, a] (D &&& A) ∧ exec (.cOr d a) s = w [d, a] (D ||| A) ∧ exec (.cXor d a) s = w [d, a] (D ^^^ A) ∧
        exec (.cSll d a) s = w [d, a] (D <<< (A.toNat % 64)) ∧ exec (.cSrl d a) s = w [d, a] (D >>> (A.toNat % 64)) ∧
        exec (.cSra d a) s = w [d, a] (D.sshiftRight (A.toNat % 64))))

/-- R65, R66, R196, R197: `lea.a`, `lea.r`, `lea.s` and `myid` complete, in every state in which their sources can be read, with
the address or word of their rules: the coordinates of A with the offset of B; the owner that A names with the sum of the
offsets, the coordinates untouched; chip 0, cluster (0, 0) named from another cluster in its relative form, each delta the
target coordinate minus the issuer's; the identity word. The addresses name the cluster and offset of their sources. -/
def Obligations.AddressForms : Prop :=
  (∀ (s : State) (d a b : GNum) (fa fb : Bool), s.gOk a → s.gOk b →
    let A := s.gVal a
    let B := s.gVal b
    let me := s.me
    let form (c : ClusterId) (o : Nat) : Word :=
      if coords c = 0 ∧ coords me ≠ 0 then
        BitVec.ofNat 64 ((2 ^ 15 + (128 - me.chip.val) % 128 * 256 + (16 - me.x.val) % 16 * 16 + (16 - me.y.val) % 16) * 2 ^ 48 + o)
      else BitVec.ofNat 64 (coords c * 2 ^ 48 + o)
    let L := form (ofCoords (A.toNat % 2 ^ 15)) (B.toNat % 2 ^ 48)
    let S := form (resolve me A) ((A.toNat + B.toNat) % 2 ^ 48)
    exec (.leaA d a b fa fb) s = .next ((s.reads [a, b]).putG 4 d L) ∧
    exec (.leaR d a b fa fb) s =
      .next ((s.reads [a, b]).putG 4 d (BitVec.ofNat 64 ((2 ^ 15 + A.toNat % 2 ^ 15) * 2 ^ 48 + B.toNat % 2 ^ 48))) ∧
    exec (.leaS d a b fa fb) s = .next ((s.reads [a, b]).putG 4 d S) ∧
    offOf L = B.toNat % 2 ^ 48 ∧ resolve me L = ofCoords (A.toNat % 2 ^ 15) ∧
    offOf S = (A.toNat + B.toNat) % 2 ^ 48 ∧ resolve me S = resolve me A) ∧
  (∀ (s : State) (d : GNum), exec (.myid d) s = .next (s.putG 4 d (BitVec.ofNat 64
    (s.ctx.lcore.toNat * 2 ^ 38 + (s.leaderNum s.cur).val * 2 ^ 24 + (coreOf s.cur).val * 2 ^ 16 + coords s.me))))

/-- R161, R79, R376: a source that cannot be read stops the instruction with nothing written: an empty one blocks, or traps 0x04
under disposition 1; a poisoned one traps with its status; a damaged one is a machine check. Said of `add` and its first
source. -/
def Obligations.SourceTrouble : Prop :=
  ∀ (s : State) (d a b : GNum) (fa fb : Bool), a ≠ 0 →
    let r := s.ctx.g[a]
    (r.bad = true → exec (.add d a b fa fb) s = .next (s.trap 0x1F)) ∧
    (r.bad = false → r.full = false → exec (.add d a b true fb) s = .next (s.trap 0x04)) ∧
    (r.bad = false → r.full = false → exec (.add d a b false fb) s = .next (s.block (.greg a))) ∧
    (r.bad = false → r.full = true → r.poison = true → r.val.setWidth 4 = (3 : BitVec 4) →
      exec (.add d a b fa fb) s = .next (s.trapAux 0x05 3 (BitVec.ofNat 64 a.val) 0)) ∧
    (r.bad = false → r.full = true → r.poison = true → r.val.setWidth 4 ≠ (3 : BitVec 4) →
      exec (.add d a b fa fb) s = .next (s.trapAux 0x0B (r.val.setWidth 4) (BitVec.ofNat 64 a.val) 0))

/-- R158, R198 to R200, R160: branches, jumps and calls, with the words that jumps and calls decode from. A conditional branch
goes to addr + SignExt(disp) × 2 when its condition holds, and otherwise to the next instruction. The target of a register
jump is even (else trap 0x07) and of the own cluster (else 0x08), with the target in AUX and no link written; the link
register gets the address after the instruction, and is written after the target is read. -/
def Obligations.ControlTransfers : Prop :=
  (∀ (s : State) (a b : GNum) (disp : BitVec 14) (imm : BitVec 6), s.gOk a → s.gOk b →
    let A := s.gVal a
    let B := s.gVal b
    let go (t : State) (len : Nat) (dest : BitVec 48) (taken : Bool) : Out := .next (if taken then t.jumpTo dest else t.finish len)
    let far := s.ctx.pc + disp.signExtend 48 * 2
    let near := s.ctx.pc + imm.signExtend 48 * 2
    ((s.reads [a, b]).taint = [] →
      exec (.beq a b disp) s = go (s.reads [a, b]) 4 far (A = B) ∧ exec (.bne a b disp) s = go (s.reads [a, b]) 4 far (A ≠ B) ∧
      exec (.blt a b disp) s = go (s.reads [a, b]) 4 far (A.toInt < B.toInt) ∧
      exec (.bge a b disp) s = go (s.reads [a, b]) 4 far (B.toInt ≤ A.toInt) ∧
      exec (.bltn a b disp) s = go (s.reads [a, b]) 4 far (A.toNat < B.toNat) ∧
      exec (.bgen a b disp) s = go (s.reads [a, b]) 4 far (B.toNat ≤ A.toNat)) ∧
    ((s.reads [a]).taint = [] →
      exec (.cBz a imm) s = go (s.reads [a]) 2 near (A = 0) ∧ exec (.cBnz a imm) s = go (s.reads [a]) 2 near (A ≠ 0))) ∧
  (∀ (s : State) (d a : GNum) (fa : Bool) (disp : BitVec 24) (imm : BitVec 10),
    let ret (len : Nat) : Word := s.ctx.pc.zeroExtend 64 + BitVec.ofNat 64 len
    (exec (.j disp) s = .next (s.jumpTo (s.ctx.pc + disp.signExtend 48 * 2)) ∧
      exec (.cJ imm) s = .next (s.jumpTo (s.ctx.pc + imm.signExtend 48 * 2)) ∧
      exec (.call disp) s = .next ((s.setG 31 (ret 4)).jumpTo (s.ctx.pc + disp.signExtend 48 * 2)) ∧
      exec .nop s = .next (s.finish 2)) ∧
    (s.gOk a → (s.reads [a]).taint = [] →
      ((s.gVal a).getLsbD 0 = true →
        let t := (s.reads [a]).trapAux 0x07 0 (s.gVal a) 0
        exec (.jr a fa) s = .next t ∧ exec (.callr d a fa) s = .next t ∧ exec (.cJr a) s = .next t ∧ exec (.cCallr d a) s = .next t) ∧
      ((s.gVal a).getLsbD 0 = false → ownForm s.me (s.gVal a) = false →
        let t := (s.reads [a]).trapAux 0x08 0 (s.gVal a) 0
        exec (.jr a fa) s = .next t ∧ exec (.callr d a fa) s = .next t ∧ exec (.cJr a) s = .next t ∧ exec (.cCallr d a) s = .next t) ∧
      ((s.gVal a).getLsbD 0 = false → ownForm s.me (s.gVal a) = true →
        let dest : BitVec 48 := (s.gVal a).setWidth 48
        exec (.jr a fa) s = .next ((s.reads [a]).jumpTo dest) ∧ exec (.cJr a) s = .next ((s.reads [a]).jumpTo dest) ∧
        exec (.callr d a fa) s = .next (((s.reads [a]).setG d (ret 4)).jumpTo dest) ∧
        exec (.cCallr d a) s = .next (((s.reads [a]).setG d (ret 2)).jumpTo dest)))) ∧
  (∀ (d a b : GNum) (fa fb : Bool) (disp : BitVec 24),
    let word (func : Nat) := decodeTableWord 32 (0xD8000000 + d.val * 2 ^ 19 + a.val * 2 ^ 14 + b.val * 2 ^ 9 + fa.toNat * 2 ^ 8 +
      fb.toNat * 2 ^ 7 + func)
    decodeTableWord 32 (0xD6000000 + disp.toNat) = some (.j disp) ∧ decodeTableWord 32 (0xD7000000 + disp.toNat) = some (.call disp) ∧
    word 0 = (if d = 0 ∧ b = 0 ∧ fb = false then some (.jr a fa) else none) ∧
    word 1 = (if b = 0 ∧ fb = false then some (.callr d a fa) else none))

/-- R160, R310, R377: `brk` and `svc` in a context other than 0 write one record to the core's trap queue, with the cause, the
context's number, its PC and REPIDX and imm10 in AUX, and the context is FAULTED; no other register of it changes. R307,
R375, R380: a trap of context 0, and a fatal cause in any context, leaves the context FAULTED, writes no trap queue, and
makes the FATAL_FAULT decision the next move. -/
def Obligations.Traps : Prop :=
  (∀ (s : State) (imm : BitVec 10), numOf s.cur ≠ 0 →
      let entry (cause : BitVec 8) : TrapRec := ⟨cause, s.leaderNum s.cur, false, s.ctx.repidx, 0, s.ctx.pc, imm.zeroExtend 64, 0⟩
      let took (t : State) (cause : BitVec 8) : Prop :=
        t.core.tq = s.core.tq ++ [⟨entry cause, .none⟩] ∧ t.ctx.st = .faulted ∧ t.ctx.pc = s.ctx.pc ∧ t.ctx.g = s.ctx.g ∧
          t.ctx.wait = none ∧ t.mem = s.mem ∧ t.turns = s.turns
      (∃ t, exec (.brk imm) s = .next t ∧ took t 0x1B) ∧ (∃ t, exec (.svc imm) s = .next t ∧ took t 0x1A)) ∧
  (∀ (s : State) (cause : BitVec 8) (st : BitVec 4) (aux aux2 : Word),
      numOf s.cur = 0 ∨ cause = 0x18 ∨ cause = 0x19 ∨ cause = 0x1F →
      let t := s.trapAux cause st aux aux2
      t.ctx.st = .faulted ∧ t.cores = s.cores ∧
        t.turns = .event (.fatalFault s.cur ⟨cause, s.leaderNum s.cur, true, s.ctx.repidx, st, s.ctx.pc, aux, aux2⟩ false) :: s.turns)

/-- R185, R190: whatever becomes of a scalar instruction, a result, a trap or a wait, no register but its destination, no byte
of memory and nothing of the rest of the machine changes but what a trap writes. R158, R198 to R200: a branch, jump or call
changes no register but the PC and the link register it names, and no memory; nor do `nop` and the software traps. -/
def Obligations.ScalarFrame : Prop :=
  (∀ (s t : State) (d a b : GNum) (fa fb : Bool) (imm : BitVec 13) (n n' : BitVec 6) (h : Fin 4) (imm16 : BitVec 16),
      let only (i : Instr) : Prop := exec i s = .next t → RegsOnly s t [d] [] []
      only (.add d a b fa fb) ∧ only (.sub d a b fa fb) ∧ only (.and d a b fa fb) ∧ only (.or d a b fa fb) ∧ only (.xor d a b fa fb) ∧
      only (.andn d a b fa fb) ∧ only (.orn d a b fa fb) ∧ only (.xnor d a b fa fb) ∧ only (.sll d a b fa fb) ∧ only (.srl d a b fa fb) ∧
      only (.sra d a b fa fb) ∧ only (.rol d a b fa fb) ∧ only (.ror d a b fa fb) ∧ only (.mul d a b fa fb) ∧ only (.mulh d a b fa fb) ∧
      only (.mulhn d a b fa fb) ∧ only (.div d a b fa fb) ∧ only (.divn d a b fa fb) ∧ only (.rem d a b fa fb) ∧ only (.remn d a b fa fb) ∧
      only (.min d a b fa fb) ∧ only (.max d a b fa fb) ∧ only (.minn d a b fa fb) ∧ only (.maxn d a b fa fb) ∧ only (.slt d a b fa fb) ∧
      only (.sltn d a b fa fb) ∧ only (.seq d a b fa fb) ∧ only (.sne d a b fa fb) ∧ only (.adds d a b fa fb) ∧ only (.subs d a b fa fb) ∧
      only (.addsn d a b fa fb) ∧ only (.subsn d a b fa fb) ∧ only (.sel d a b fa fb) ∧ only (.leaA d a b fa fb) ∧ only (.leaR d a b fa fb) ∧
      only (.leaS d a b fa fb) ∧
      only (.clz d a fa) ∧ only (.ctz d a fa) ∧ only (.popc d a fa) ∧ only (.brev d a fa) ∧ only (.bswap d a fa) ∧ only (.sx8 d a fa) ∧
      only (.sx16 d a fa) ∧ only (.sx32 d a fa) ∧ only (.zx8 d a fa) ∧ only (.zx16 d a fa) ∧ only (.zx32 d a fa) ∧
      only (.addi d a fa imm) ∧ only (.andi d a fa imm) ∧ only (.ori d a fa imm) ∧ only (.xori d a fa imm) ∧ only (.slti d a fa imm) ∧
      only (.sltni d a fa imm) ∧
      only (.slli d a fa n) ∧ only (.srli d a fa n) ∧ only (.srai d a fa n) ∧ only (.roli d a fa n) ∧ only (.rori d a fa n) ∧
      only (.bfx d a fa n n') ∧ only (.bfxs d a fa n n') ∧ only (.bfi d a fa n n') ∧
      only (.lim d h imm16) ∧ only (.limk d h imm16) ∧ only (.myid d) ∧
      only (.cMov d a) ∧ only (.cAdd d a) ∧ only (.cSub d a) ∧ only (.cAnd d a) ∧ only (.cOr d a) ∧ only (.cXor d a) ∧
      only (.cSll d a) ∧ only (.cSrl d a) ∧ only (.cSra d a) ∧
      only (.cAddi d n) ∧ only (.cLi d n) ∧ only (.cSlli d n) ∧ only (.cSrli d n) ∧ only (.cSrai d n)) ∧
  (∀ (s t : State) (d a b : GNum) (fa : Bool) (disp : BitVec 14) (n : BitVec 6) (near : BitVec 10) (far : BitVec 24),
      let none (i : Instr) : Prop := exec i s = .next t → RegsOnly s t [] [] []
      none (.beq a b disp) ∧ none (.bne a b disp) ∧ none (.blt a b disp) ∧ none (.bge a b disp) ∧ none (.bltn a b disp) ∧ none (.bgen a b disp) ∧
      none (.cBz d n) ∧ none (.cBnz d n) ∧ none (.j far) ∧ none (.cJ near) ∧ none .nop ∧ none (.jr a fa) ∧ none (.cJr a) ∧
      none (.brk near) ∧ none (.svc near) ∧
      (exec (.call far) s = .next t → RegsOnly s t [31] [] []) ∧
      (exec (.callr d a fa) s = .next t → RegsOnly s t [d] [] []) ∧ (exec (.cCallr d a) s = .next t → RegsOnly s t [d] [] []))

/-- R188, R203: a load from own memory that the checks allow completes: the bytes at the effective address, sign- or
zero-extended, placed as one LocalRead. -/
def Obligations.Loads : Prop :=
  ∀ (s : State) (d base : GNum) (fa : Bool) (off : BitVec 10), s.gOk base → s.ctx.sent = [] →
    let does (i : Instr) (len n : Nat) (off : BitVec 10) (v : Nat → Word) : Prop :=
      let ea := s.gVal base + off.signExtend 64 * BitVec.ofNat 64 n + s.bump n
      let T := max (s.ctx.clk + 1) (s.wts (granule (offOf ea)))
      ∀ key t, ea.toNat % n = 0 → resolve s.me ea = s.me → T < clockLimit →
        s.access s.agent s.sup .rd (offOf ea) n = (.ok key, t) →
        exec i s = .next ((((t.reads [base]).stampRead (granule (offOf ea)) T).setClk T).putG len d (v (s.num key n)))
    does (.ldI8 d base fa off) 4 1 off (fun x => (BitVec.ofNat 8 x).signExtend 64) ∧
    does (.ldI16 d base fa off) 4 2 off (fun x => (BitVec.ofNat 16 x).signExtend 64) ∧
    does (.ldI32 d base fa off) 4 4 off (fun x => (BitVec.ofNat 32 x).signExtend 64) ∧
    does (.ldI64 d base fa off) 4 8 off (fun x => BitVec.ofNat 64 x) ∧
    does (.ldN8 d base fa off) 4 1 off (fun x => BitVec.ofNat 64 x) ∧
    does (.ldN16 d base fa off) 4 2 off (fun x => BitVec.ofNat 64 x) ∧
    does (.ldN32 d base fa off) 4 4 off (fun x => BitVec.ofNat 64 x) ∧
    does (.cLd d base) 2 8 0 (fun x => BitVec.ofNat 64 x)

/-- R188, R205, R206: a store to own resident memory that the checks allow writes the low bytes of g[s] as one LocalWrite. -/
def Obligations.Stores : Prop :=
  ∀ (s : State) (r base : GNum) (fa : Bool) (off : BitVec 10), s.gOk base → s.gOk r → s.allChecked →
    let does (i : Instr) (len n : Nat) (off : BitVec 10) : Prop :=
      let ea := s.gVal base + off.signExtend 64 * BitVec.ofNat 64 n + s.bump n
      let o := offOf ea
      let T := max (s.ctx.clk + 1) (s.rts (granule o) + 1)
      ∀ key t, ea.toNat % n = 0 → ownForm s.me ea = true → T < clockLimit →
        s.access s.agent s.sup .wr o n = (.ok key, t) →
        exec i s = .next (((((t.reads [base, r]).stampWrite (granule o) T).setClk T).writeParts o n key T
          [(o, toLe n (s.gVal r).toNat)]).markSide.finish len)
    does (.stI8 r base fa off) 4 1 off ∧ does (.stI16 r base fa off) 4 2 off ∧ does (.stI32 r base fa off) 4 4 off ∧
    does (.stI64 r base fa off) 4 8 off ∧ does (.cSt r base) 2 8 0

/-- R207, R208: a full/empty operation whose checks pass and whose wait is met does its data effect and sets the F/E bit, placed
as one LocalReadWrite; `ldff` is placed as a read (log 17). Where the wait is not met the context is BLOCKED with nothing
done. -/
def Obligations.FullEmpty : Prop :=
  ∀ (s : State) (r base : GNum) (fa : Bool) (off : BitVec 10), s.gOk base → s.gOk r → s.allChecked →
    let ready (off : BitVec 10) (P : Nat → Prop) : Prop :=
      let ea := s.gVal base + off.signExtend 64 * 8 + s.bump 8
      let o := offOf ea
      ea.toNat % 8 = 0 → ownForm s.me ea = true → inSpad o 8 = true → s.badWord o 8 = false → P o
    let wr (o : Nat) : Prop := s.spadAllowed s.sup .wr o 8 = true
    let T (o : Nat) := max (s.ctx.clk + 1) (s.rts (granule o) + 1)
    let R (o : Nat) := max (s.ctx.clk + 1) (s.wts (granule o))
    let put (l : List GNum) (o : Nat) := ((s.reads l).stampWrite (granule o) (T o)).setClk (T o)
    let take (i : Instr) (len : Nat) (off : BitVec 10) : Prop := ready off fun o => wr o →
      (s.isFull (o / 8) = true → T o < clockLimit →
        exec i s = .next (((put [base] o).setFE (o / 8) false).markAtomic.putG len r (s.word o))) ∧
      (s.isFull (o / 8) = false → exec i s = .next ((s.reads [base]).block (.feWord (o / 8) true)))
    let fill (o len : Nat) : Out :=
      .next ((((put [base, r] o).writeOwn o o (toLe 8 (s.gVal r).toNat) (T o)).setFE (o / 8) true).markAtomic.finish len)
    let give (i : Instr) (len : Nat) (off : BitVec 10) : Prop := ready off fun o => wr o →
      (s.isFull (o / 8) = false → T o < clockLimit → exec i s = fill o len) ∧
      (s.isFull (o / 8) = true → exec i s = .next ((s.reads [base, r]).block (.feWord (o / 8) false)))
    take (.ldfe r base fa off) 4 off ∧ take (.cLdfe r base) 2 0 ∧ give (.stfe r base fa off) 4 off ∧ give (.cStfe r base) 2 0 ∧
    (ready off fun o => wr o → T o < clockLimit → exec (.stff r base fa off) s = fill o 4 ∧
      exec (.purge base fa off) s = .next (((put [base] o).setFE (o / 8) false).markAtomic.finish 4)) ∧
    (ready off fun o => s.spadAllowed s.sup .rd o 8 = true →
      (s.isFull (o / 8) = true → R o < clockLimit → exec (.ldff r base fa off) s =
        .next ((((s.reads [base]).stampRead (granule o) (R o)).setClk (R o)).putG 4 r (s.word o))) ∧
      (s.isFull (o / 8) = false → exec (.ldff r base fa off) s = .next ((s.reads [base]).block (.feWord (o / 8) true))))

/-- R211, R212: a local atomic on own resident memory, with no latched operation for its PC, replaces the bytes with the new
value of the table as one LocalReadWrite; the returning forms write the old value, sign-extended. R319: a returning atomic
that meets a non-resident page sets the latch and traps 0x0C; at the latch's PC a latch with DONE gives its result with no
access, one without ARM traps again, and one with ARM performs the latched operation once. The damage of a soft error in the
latch is noticed (R376). -/
def Obligations.Atomics : Prop :=
  (∀ (s : State) (d a b : GNum) (fa fb w32 : Bool) (key : Nat) (t : State), s.gOk a → s.gOk b → s.gOk d → s.allChecked →
      (s.ctx.retry.v = false ∨ s.ctx.retry.pc ≠ s.ctx.pc) →
      let n := if w32 then 4 else 8
      let ea := s.gVal a
      let o := offOf ea
      let T := max (s.ctx.clk + 1) (s.rts (granule o) + 1)
      ea.toNat % n = 0 → ownForm s.me ea = true → T < clockLimit → s.access s.agent s.sup .wr o n = (.ok key, t) →
      let O := BitVec.ofNat (8 * n) (s.num key n)
      let V := BitVec.ofNat (8 * n) (s.gVal b).toNat
      let X := BitVec.ofNat (8 * n) (s.gVal d).toNat
      let put (l : List GNum) (x : BitVec (8 * n)) : State :=
        ((((t.reads l).stampWrite (granule o) T).setClk T).writeOwn o key (toLe n x.toNat) T).markAtomic
      let ret (l : List GNum) (x : BitVec (8 * n)) : Out := .next ((put l x).putG 4 d (O.signExtend 64))
      let nr (x : BitVec (8 * n)) : Out := .next ((put [a, b] x).finish 4)
      let both (i j : Instr) (x : BitVec (8 * n)) : Prop := exec i s = ret [a, b] x ∧ exec j s = nr x
      both (.aadd d a b fa fb w32) (.aaddNr a b fa fb w32) (O + V) ∧
      both (.aand d a b fa fb w32) (.aandNr a b fa fb w32) (O &&& V) ∧
      both (.aor d a b fa fb w32) (.aorNr a b fa fb w32) (O ||| V) ∧
      both (.axor d a b fa fb w32) (.axorNr a b fa fb w32) (O ^^^ V) ∧
      both (.amin d a b fa fb w32) (.aminNr a b fa fb w32) (if O.toInt ≤ V.toInt then O else V) ∧
      both (.amax d a b fa fb w32) (.amaxNr a b fa fb w32) (if O.toInt ≤ V.toInt then V else O) ∧
      both (.aminn d a b fa fb w32) (.aminnNr a b fa fb w32) (if O ≤ V then O else V) ∧
      both (.amaxn d a b fa fb w32) (.amaxnNr a b fa fb w32) (if O ≤ V then V else O) ∧
      exec (.aswap d a b fa fb w32) s = ret [a, b] V ∧
      exec (.acas d a b fa fb w32) s = ret [a, b, d] (if O = X then V else O)) ∧
  (∀ (s : State) (d a b : GNum) (fa fb w32 : Bool),
      let r := s.ctx.retry
      let n := if r.func.toNat / 32 % 2 = 1 then 4 else 8
      let cleared (s : State) : State := s.upd fun x => { x with retry := RetryLatch.reset }
      (∀ vpn leaf t, s.gOk a → s.gOk b → s.allChecked → r.v = false → (s.gVal a).toNat % 8 = 0 → ownForm s.me (s.gVal a) = true →
        s.access s.agent s.sup .wr (offOf (s.gVal a)) 8 = (.nonres vpn leaf, t) →
        exec (.aadd d a b fa fb false) s = .next (((t.reads [a, b]).upd fun x =>
          { x.mend 24 with retry := ⟨true, false, false, false, 0, x.pc, s.gVal a, s.gVal b, 0⟩ }).trapNonRes (s.gVal a) vpn)) ∧
      (r.v = true → r.pc = s.ctx.pc → r.done = true → exec (.aadd d a b fa fb w32) s =
        .next ((cleared (s.touch 24)).putG 4 d ((BitVec.ofNat (8 * n) r.xres.toNat).signExtend 64))) ∧
      (r.v = true → r.pc = s.ctx.pc → r.done = false → r.arm = false →
        exec (.aadd d a b fa fb w32) s = .next ((s.touch 24).trapEa 0x0C r.ea)) ∧
      (∀ key t, r.v = true → r.pc = s.ctx.pc → r.done = false → r.arm = true →
        (s.touch 24).access s.agent s.sup .wr (offOf r.ea) n = (.ok key, t) →
        r.func.toNat % 16 = 0 → let T := max (s.ctx.clk + 1) (s.rts (granule (offOf r.ea)) + 1)
          let O := BitVec.ofNat (8 * n) (s.num key n)
          T < clockLimit → exec (.aadd d a b fa fb w32) s =
            .next ((cleared (((t.stampWrite (granule (offOf r.ea)) T).setClk T).writeOwn (offOf r.ea) key
              (toLe n (O + BitVec.ofNat (8 * n) r.opnd.toNat).toNat) T)).markAtomic.putG 4 d (O.signExtend 64))))

/-- R67, R69, R70, R75, R351: the checks of a store of each width, and of its 16-bit form, in their order: an address of another
cluster traps 0x08, a misaligned one 0x07, one outside both windows 0x0A, a scratchpad byte that protection denies 0x09; AUX
holds the address and nothing is written. -/
def Obligations.StoreTraps : Prop :=
  ∀ (s : State) (r base : GNum) (fa : Bool) (off : BitVec 10), s.gOk base → s.gOk r → s.allChecked →
    let does (i : Instr) (n : Nat) (off : BitVec 10) : Prop :=
      let ea := s.gVal base + off.signExtend 64 * BitVec.ofNat 64 n + s.bump n
      let o := offOf ea
      let traps (cause : BitVec 8) : Prop := exec i s = .next ((s.reads [base, r]).trapAux cause 0 ea 0)
      (ownForm s.me ea = false → traps 0x08) ∧
      (ownForm s.me ea = true → ea.toNat % n ≠ 0 → traps 0x07) ∧
      (ownForm s.me ea = true → ea.toNat % n = 0 → inSpad o n = false → inHbm o n = false → traps 0x0A) ∧
      (ownForm s.me ea = true → ea.toNat % n = 0 → inSpad o n = true → s.spadAllowed s.sup .wr o n = false → traps 0x09)
    does (.stI8 r base fa off) 1 off ∧ does (.stI16 r base fa off) 2 off ∧ does (.stI32 r base fa off) 4 off ∧
    does (.stI64 r base fa off) 8 off ∧ does (.cSt r base) 8 0

/-- R351: whether a 256-byte unit of scratchpad allows an access is told by the lowest-numbered region that matches it; a unit
that no region matches can be read and written at S level alone, and is never fetched. -/
def Obligations.Regions : Prop :=
  ∀ (s : State) (sup : Bool) (p : Perm) (o n : Nat), 0 < n → inSpad o n = true →
    let hit (i : Fin 16) (b : Nat) : Prop :=
      let r := s.cl.regions[i]
      bits r 63 1 = 1 ∧ bits r 0 15 ≤ b / 256 ∧ b / 256 ≤ bits r 32 15
    let allowed (b : Nat) : Prop :=
      (∃ i : Fin 16, hit i b ∧ (∀ j : Fin 16, j < i → ¬hit j b) ∧ bits s.cl.regions[i] (regionBit sup p) 1 = 1) ∨
        ((∀ i : Fin 16, ¬hit i b) ∧ sup = true ∧ (p = .rd ∨ p = .wr))
    (s.spadAllowed sup p o n = true ↔ ∀ b, o ≤ b → b < o + n → allowed b)

/-- R74, R97, R203: an instruction that only reads memory changes no register but its destination, and no byte but those of the
pending-operation logs (R371: a read of a logged page is recorded there). R74, R205, R207: a store, an F/E store or `purge`
changes no register, and no byte outside those that it stores to at its effective address. R74, R207, R212: `ldfe` changes
no byte and no register but d; an atomic with no latched operation changes none but d and the bytes at g[a]. -/
def Obligations.MemoryFrame : Prop :=
  (∀ (s t : State) (d base : GNum) (fa : Bool) (off : BitVec 10),
      let only (i : Instr) : Prop := exec i s = .next t →
        OwnKept s t [d] [] [] ∧ ∀ x, (∀ i, i < 1024 → ¬s.inLog i x) → t.byte x = s.byte x
      only (.ldI8 d base fa off) ∧ only (.ldI16 d base fa off) ∧ only (.ldI32 d base fa off) ∧ only (.ldI64 d base fa off) ∧
      only (.ldN8 d base fa off) ∧ only (.ldN16 d base fa off) ∧ only (.ldN32 d base fa off) ∧ only (.cLd d base) ∧
      only (.ldff d base fa off)) ∧
  (∀ (s t : State) (r base : GNum) (fa : Bool) (off : BitVec 10),
      let only (i : Instr) (n : Nat) (off : BitVec 10) : Prop := exec i s = .next t →
        let ea := s.gVal base + off.signExtend 64 * BitVec.ofNat 64 n + s.bump n
        OwnKept s t [] [] [] ∧ ∀ x, ¬s.storedTo .wr (offOf ea) n x → t.byte x = s.byte x
      only (.stI8 r base fa off) 1 off ∧ only (.stI16 r base fa off) 2 off ∧ only (.stI32 r base fa off) 4 off ∧
      only (.stI64 r base fa off) 8 off ∧ only (.cSt r base) 8 0 ∧ only (.stfe r base fa off) 8 off ∧ only (.cStfe r base) 8 0 ∧
      only (.stff r base fa off) 8 off ∧
      (exec (.purge base fa off) s = .next t → OwnKept s t [] [] [] ∧ ∀ x, t.byte x = s.byte x)) ∧
  (∀ (s t : State) (d a b : GNum) (fa fb w32 : Bool) (off : BitVec 10), (s.ctx.retry.v = false ∨ s.ctx.retry.pc ≠ s.ctx.pc) →
      let only (i : Instr) (l : List GNum) : Prop := exec i s = .next t →
        OwnKept s t l [] [] ∧ ∀ x, ¬s.storedTo .wr (offOf (s.gVal a)) (if w32 then 4 else 8) x → t.byte x = s.byte x
      (exec (.ldfe d a fa off) s = .next t → OwnKept s t [d] [] [] ∧ ∀ x, t.byte x = s.byte x) ∧
      (exec (.cLdfe d a) s = .next t → OwnKept s t [d] [] [] ∧ ∀ x, t.byte x = s.byte x) ∧
      only (.aadd d a b fa fb w32) [d] ∧ only (.aand d a b fa fb w32) [d] ∧ only (.aor d a b fa fb w32) [d] ∧
      only (.axor d a b fa fb w32) [d] ∧ only (.amin d a b fa fb w32) [d] ∧ only (.amax d a b fa fb w32) [d] ∧
      only (.aminn d a b fa fb w32) [d] ∧ only (.amaxn d a b fa fb w32) [d] ∧ only (.aswap d a b fa fb w32) [d] ∧
      only (.acas d a b fa fb w32) [d] ∧ only (.aaddNr a b fa fb w32) [] ∧ only (.aandNr a b fa fb w32) [] ∧
      only (.aorNr a b fa fb w32) [] ∧ only (.axorNr a b fa fb w32) [] ∧ only (.aminNr a b fa fb w32) [] ∧
      only (.amaxNr a b fa fb w32) [] ∧ only (.aminnNr a b fa fb w32) [] ∧ only (.amaxnNr a b fa fb w32) [])

/-- R214 to R216: a vector result. Each active element takes the result, each other one keeps the bits it held; the register is
full and unpoisoned under the result tag, and no other register changes. R153: the register depends on the unchecked data
that its sources depended on, and where it keeps an element, on that which it held. -/
def Obligations.VectorWrite : Prop :=
  ∀ (s : State) (d : VNum) (g : Tag) (m : Word) (l : List Nat), l.length = tagLanes g →
    let t := s.putV d g m l
    let r := t.ctx.v[d]
    (r.tag = g ∧ r.full = true ∧ r.poison = false ∧ r.bad = false) ∧
    ((∀ i, i < tagLanes g → m.getLsbD (if tagLanes g = 128 then i / 2 else i) = true) → r.unchk = s.taint) ∧
    ((∃ i, i < tagLanes g ∧ m.getLsbD (if tagLanes g = 128 then i / 2 else i) = false) →
      r.unchk = s.taint ++ s.ctx.v[d].unchk) ∧
    (∀ i, i < tagLanes g → laneOf (tagWidth g) r.val i =
      if m.getLsbD (if tagLanes g = 128 then i / 2 else i) then l.getD i 0 % 2 ^ tagWidth g
      else laneOf (tagWidth g) (s.ctx.v[d]).val i) ∧
    (∀ e, e ≠ d → t.ctx.v[e] = s.ctx.v[e]) ∧ t.ctx.g = s.ctx.g ∧ t.ctx.k = s.ctx.k ∧ t.ctx.pc = s.ctx.pc ∧ t.mem = s.mem

/-- R221, R222, R219, R44: the lane operations on integer tags, and the bitwise ones on every tag, complete with the value of
the table in every active lane. -/
def Obligations.VectorIntegers : Prop :=
  ∀ (s : State) (d a b : VNum) (k : KNum) (fa fb : Bool), s.vOk a → s.vOk b →
    let g := s.ctx.v[a].tag
    let h := s.ctx.v[b].tag
    let w := tagWidth g
    let res (f : Nat → Nat → Nat) : Out := .next ((((s.readsV [a, b]).taintK k).putV d g (s.getK k)
      ((List.range (tagLanes g)).map fun i => f (laneOf w s.ctx.v[a].val i) (laneOf w s.ctx.v[b].val i))).finish 4)
    let I (x : Nat) : Int := if g = .n8 ∨ g = .n16 ∨ g = .n32 then (x : Int) else (BitVec.ofNat w x).toInt
    let lo : Int := if g = .n8 ∨ g = .n16 ∨ g = .n32 then 0 else -(2 ^ (w - 1) : Nat)
    let hi : Int := if g = .n8 ∨ g = .n16 ∨ g = .n32 then (2 ^ w : Nat) - 1 else (2 ^ (w - 1) : Nat) - 1
    let B (v : Int) : Nat := (BitVec.ofInt w v).toNat
    (isInt g = true → h = g →
      exec (.vadd d a b k fa fb) s = res (fun x y => B (I x + I y)) ∧
      exec (.vsub d a b k fa fb) s = res (fun x y => B (I x - I y)) ∧
      exec (.vadds d a b k fa fb) s = res (fun x y => B (max lo (min (I x + I y) hi))) ∧
      exec (.vsubs d a b k fa fb) s = res (fun x y => B (max lo (min (I x - I y) hi))) ∧
      exec (.vmul d a b k fa fb) s = res (fun x y => B (I x * I y)) ∧
      exec (.vmulh d a b k fa fb) s = res (fun x y => B (I x * I y / (2 ^ w : Nat))) ∧
      exec (.vmin d a b k fa fb) s = res (fun x y => if I x ≤ I y then x else y) ∧
      exec (.vmax d a b k fa fb) s = res (fun x y => if I x ≤ I y then y else x)) ∧
    (isInt g = true → isInt h = true → tagWidth h = w →
      exec (.vsll d a b k fa fb) s = res (fun x y => (BitVec.ofNat w x <<< y).toNat) ∧
      exec (.vsrl d a b k fa fb) s = res (fun x y => (BitVec.ofNat w x >>> y).toNat) ∧
      exec (.vsra d a b k fa fb) s = res (fun x y => ((BitVec.ofNat w x).sshiftRight y).toNat) ∧
      exec (.vrol d a b k fa fb) s = res (fun x y => ((BitVec.ofNat w x).rotateLeft (y % w)).toNat)) ∧
    (exec (.vand d a b k fa fb) s = res (fun x y => x &&& y) ∧ exec (.vor d a b k fa fb) s = res (fun x y => x ||| y) ∧
      exec (.vxor d a b k fa fb) s = res (fun x y => x ^^^ y) ∧
      exec (.vandn d a b k fa fb) s = res (fun x y => (BitVec.ofNat w x &&& ~~~BitVec.ofNat w y).toNat))

/-- R217, R222, R223, R43: the lane operations on float tags round the exact value once to the tag by RNE; the fused forms round
once; a compare with a NaN holds for `ne` and `uno` alone. Bits of kd outside the lanes are 0, or are kept by `vcmpa`. -/
def Obligations.VectorFloats : Prop :=
  ∀ (s : State) (d a b : VNum) (k : KNum) (fa fb : Bool) (cond : Fin 8) (kd : KNum), s.vOk a → s.vOk b → s.vOk d →
    let g := s.ctx.v[a].tag
    s.ctx.v[b].tag = g →
    let f := ffmt g
    let n := tagLanes g
    let la (i : Nat) : FVal := decodeF f (laneOf (tagWidth g) s.ctx.v[a].val i)
    let lb (i : Nat) : FVal := decodeF f (laneOf (tagWidth g) s.ctx.v[b].val i)
    let ld (i : Nat) : FVal := decodeF f (laneOf (tagWidth g) s.ctx.v[d].val i)
    let put (l : List VNum) (v : Nat → FVal) : Out := .next ((((s.readsV l).taintK k).putV d g (s.getK k)
      ((List.range n).map fun i => roundNE f (v i))).finish 4)
    let holds (i : Nat) : Bool :=
      match cond with
      | 0 => feq (la i) (lb i)
      | 1 => !feq (la i) (lb i)
      | 2 => flt (la i) (lb i)
      | 3 => flt (la i) (lb i) || feq (la i) (lb i)
      | 4 => flt (lb i) (la i)
      | 5 => flt (lb i) (la i) || feq (la i) (lb i)
      | 6 => la i ≠ .nan && lb i ≠ .nan
      | _ => la i = .nan || lb i = .nan
    let act (i : Nat) : Bool := (s.getK k).getLsbD i
    (isFlt g = true ∨ isF8 g = true) →
      exec (.vadd d a b k fa fb) s = put [a, b] (fun i => fadd .rne (la i) (lb i)) ∧
      exec (.vsub d a b k fa fb) s = put [a, b] (fun i => fadd .rne (la i) (fneg (lb i))) ∧
      exec (.vmul d a b k fa fb) s = put [a, b] (fun i => fmul (la i) (lb i)) ∧
      exec (.vmin d a b k fa fb) s = put [a, b] (fun i => fmin (la i) (lb i)) ∧
      exec (.vmax d a b k fa fb) s = put [a, b] (fun i => fmax (la i) (lb i)) ∧
      (s.ctx.v[d].tag = g →
        exec (.vfma d a b k fa fb) s = put [a, b, d] (fun i => ffma .rne (ld i) (la i) (lb i)) ∧
        exec (.vfms d a b k fa fb) s = put [a, b, d] (fun i => ffma .rne (ld i) (fneg (la i)) (lb i))) ∧
      (∃ m, exec (.vcmp cond kd a b k fa fb) s = .next ((((s.readsV [a, b]).taintK k).setK kd m).finish 4) ∧
        ∀ i, i < 64 → m.getLsbD i = (decide (i < n) && act i && holds i)) ∧
      (∃ m, exec (.vcmpa cond kd a b k fa fb) s = .next (((((s.readsV [a, b]).taintK k).taintK kd).setK kd m).finish 4) ∧
        ∀ i, i < 64 → m.getLsbD i = if i < n ∧ act i = true then (s.getK kd).getLsbD i && holds i else (s.getK kd).getLsbD i)

/-- R224 to R226, R217: the one-source lane forms complete; under SR `vsqrt` draws once for each active element, in ascending
order. R225: the special operands give their table's results, and every other result of `vrcp`, `vrsq`, `vexp2` and `vlog2`
is the exact value's magnitude rounded down or up, its two neighbours (beyond the largest value the infinity), whatever
choice `Config.approxUp` makes between them. The choice is log 8's, as are the marked magnitudes that stand for an
irrational value. -/
def Obligations.VectorOneSource : Prop :=
  ∀ (s : State) (d a : VNum) (k : KNum) (fa : Bool) (rnd : BitVec 3), s.vOk a →
    let g := s.ctx.v[a].tag
    let w := tagWidth g
    let n := tagLanes g
    let res (f : Nat → Nat) : State := ((s.readsV [a]).taintK k).putV d g (s.getK k)
      ((List.range n).map fun i => f (laneOf w s.ctx.v[a].val i))
    let does (i : Instr) (f : Nat → Nat) : Prop := exec i s = .next ((res f).finish 4)
    let X (x : Nat) : BitVec w := BitVec.ofNat w x
    let count (i : Nat) : Nat := ((List.range i).filter fun j => (s.getK k).getLsbD j).length
    let f := ffmt g
    let near (r : Nat) (neg : Bool) (m : Mag) : Prop :=
      let up := roundMag f (if neg then .rdn else .rup) neg m (fun _ => 0) 0
      if up = infBits f neg then r = up else r = roundMag f .rtz neg m (fun _ => 0) 0 ∨ r = up
    does (.vnot d a k fa) (fun x => (~~~X x).toNat) ∧
    (isInt g = true →
      does (.vabs d a k fa) (fun x => if isSigned g = true ∧ (X x).toInt < 0 then (-X x).toNat else x) ∧
      does (.vneg d a k fa) (fun x => (-X x).toNat) ∧
      (∃ f, does (.vclz d a k fa) f ∧ ∀ x, x < 2 ^ w → f x ≤ w ∧ (∀ i, w - f x ≤ i → i < w → (X x).getLsbD i = false) ∧
        (f x < w → (X x).getLsbD (w - 1 - f x) = true)) ∧
      does (.vpopc d a k fa) (fun x => ((List.range w).filter fun i => (X x).getLsbD i).length)) ∧
    (isFlt g = true ∨ isF8 g = true →
      does (.vabs d a k fa) (fun x => if decodeF (ffmt g) x = .nan then (ffmt g).nan else x % 2 ^ (w - 1)) ∧
      does (.vneg d a k fa) (fun x => if decodeF (ffmt g) x = .nan then (ffmt g).nan else (x + 2 ^ (w - 1)) % 2 ^ w)) ∧
    (isFlt g = true →
      does (.vrcp d a k fa) (approx 0 g) ∧ does (.vrsq d a k fa) (approx 1 g) ∧ does (.vexp2 d a k fa) (approx 2 g) ∧
      does (.vlog2 d a k fa) (approx 3 g) ∧
      (rnd.toNat < 4 → does (.vsqrt d a rnd k fa) (sqrtLane g (rndOf rnd) 0)) ∧
      (rnd = 4 → exec (.vsqrt d a rnd k fa) s = .next (((((s.readsV [a]).taintK k).putV d g (s.getK k)
        ((List.range n).map fun i => sqrtLane g .sr (s.drawAt (count i)) (laneOf w s.ctx.v[a].val i))).addDraws (count n)).finish 4)) ∧
      ∀ x, match decodeF f x with
        | .nan => ∀ op, approx op g x = f.nan
        | .inf neg => approx 0 g x = signBit f neg ∧ approx 1 g x = (if neg then f.nan else 0) ∧
          approx 2 g x = (if neg then 0 else infBits f false) ∧ approx 3 g x = (if neg then f.nan else infBits f false)
        | .fin neg m e =>
          (m = 0 → approx 0 g x = infBits f neg ∧ approx 1 g x = infBits f neg ∧ approx 2 g x = roundNE f (.fin false 1 0) ∧
            approx 3 g x = infBits f true) ∧
          (m ≠ 0 → near (approx 0 g x) neg ⟨1, m, -e⟩ ∧ near (approx 2 g x) false (exp2Mag neg m e) ∧
            (neg = true → approx 1 g x = f.nan ∧ approx 3 g x = f.nan) ∧
            (neg = false → near (approx 1 g x) false (sqrtMag 1 m (-e) 100) ∧
              near (approx 3 g x) (log2Mag m e).1 (log2Mag m e).2)))

/-- R60, R227: the integer reductions. The sum is taken modulo 2^64 under tag I64; the others leave in lane 0 the value that the
active lanes have together, and their identity when no lane is active; every other lane is zero. -/
def Obligations.Reductions : Prop :=
  ∀ (s : State) (d a : VNum) (k : KNum) (fa : Bool) (rnd : BitVec 3), s.vOk a →
    let g := s.ctx.v[a].tag
    let w := tagWidth g
    let n := tagLanes g
    isInt g = true →
    let x (i : Nat) : BitVec w := BitVec.ofNat w (laneOf w s.ctx.v[a].val i)
    let I (v : BitVec w) : Int := if isSigned g then v.toInt else v.toNat
    let act (i : Nat) : Prop := i < n ∧ (s.getK k).getLsbD i = true
    let gives (i : Instr) (P : BitVec w → Prop) : Prop :=
      ∃ v, exec i s = .next ((((s.readsV [a]).taintK k).setV d g (v.setWidth 512)).finish 4) ∧ P v
    (exec (.vrsum d a rnd k fa) s = .next ((((s.readsV [a]).taintK k).setV d .i64 ((BitVec.ofInt 64
      (((List.range n).filter fun i => (s.getK k).getLsbD i).map fun i => I (x i)).sum).setWidth 512)).finish 4)) ∧
    gives (.vrmax d a k fa) (fun v => (∀ i, act i → I (x i) ≤ I v) ∧ ((∃ i, act i ∧ v = x i) ∨
      ((∀ i, ¬act i) ∧ ∀ y : BitVec w, I v ≤ I y))) ∧
    gives (.vrmin d a k fa) (fun v => (∀ i, act i → I v ≤ I (x i)) ∧ ((∃ i, act i ∧ v = x i) ∨
      ((∀ i, ¬act i) ∧ ∀ y : BitVec w, I y ≤ I v))) ∧
    gives (.vrand d a k fa) (fun v => ∀ j, j < w → (v.getLsbD j = true ↔ ∀ i, act i → (x i).getLsbD j = true)) ∧
    gives (.vrior d a k fa) (fun v => ∀ j, j < w → (v.getLsbD j = true ↔ ∃ i, act i ∧ (x i).getLsbD j = true)) ∧
    gives (.vrxor d a k fa) (fun v => ∀ j, j < w → (v.getLsbD j = true ↔
      ((List.range n).filter fun i => (s.getK k).getLsbD i && (x i).getLsbD j).length % 2 = 1))

/-- R228, R229, R231, R49, R54: conversions, block scales and residue words complete; a bad scale traps 0x0D, a bad residue word
0x0E. Said of one-register groups for `vcvt`, and for `vqnt` of the four registers of an F32 source. -/
def Obligations.Conversions : Prop :=
  ∀ (s : State) (d a b : VNum) (k : KNum) (fa fb : Bool) (dtag : BitVec 5) (rnd : BitVec 3) (dt : Tag), s.vOk a → s.vOk b →
    let g := s.ctx.v[a].tag
    let w := tagWidth g
    let lane (r : VNum) (i : Nat) : Nat := laneOf w s.ctx.v[r].val i
    let m := s.getK k
    let sc := laneOf 32 s.ctx.v[b].val 0
    let read (l : List VNum) : State := (s.readsV l).taintK k
    (vTagOfCode dtag.toNat = some dt → dt ≠ .raw → g ≠ .raw → tagWidth dt = w → rnd.toNat < 4 →
      exec (.vcvt d a dtag rnd k fa) s = .next (((read [a, a]).putV d dt m
        ((List.range (tagLanes g)).map fun i => convert g dt (rndOf rnd) (lane a i)
          (s.drawAt (activeBelow m (tagLanes g) i)))).finish 4)) ∧
    ((vTagOfCode dtag.toNat = none ∨ vTagOfCode dtag.toNat = some .raw) → exec (.vcvt d a dtag rnd k fa) s = .next (s.trap 0x06)) ∧
    (g = .q8 → s.ctx.v[b].tag = .f32 → 0 < sc → sc < 0x7F800000 →
      exec (.vscl d a b k fa fb) s = .next (((read [a, b]).putGroup d .f32 m 64 4
        ((List.range 64).map fun i => roundNE (ffmt .f32) (fmul (srcVal .q8 (lane a i)) (decodeF (ffmt .f32) sc)))).finish 4)) ∧
    (g = .q8 ∨ g = .q4 → s.ctx.v[b].tag = .f32 → ¬(0 < sc ∧ sc < 0x7F800000) →
      exec (.vscl d a b k fa fb) s = .next ((read [a, b]).trap 0x0D)) ∧
    (g = .f32 → (∀ i, i < 4 → s.vOk (vAt a i) = true ∧ s.ctx.v[vAt a i].tag = .f32) → s.ctx.v[b].tag = .f32 →
      (0 < sc ∧ sc < 0x7F800000 →
        exec (.vqnt d a b k fa fb) s = .next (((read [a, a, vAt a 1, vAt a 2, vAt a 3, b]).putV d .q8 m
          ((List.range 64).map fun i => quantLane .f32 sc (lane (vAt a (i / 16)) (i % 16)))).finish 4)) ∧
      (¬(0 < sc ∧ sc < 0x7F800000) →
        exec (.vqnt d a b k fa fb) s = .next ((read [a, a, vAt a 1, vAt a 2, vAt a 3, b]).trap 0x0D))) ∧
    (g = .n32 ∨ g = .i32 →
      ((∀ i, i < 16 → m.getLsbD i = true → rtGood (lane a i) = true) →
        exec (.vrtrec d a k fa) s = .next (((read [a]).putV d .i32 m
          ((List.range 16).map fun i => wrapInt 32 (rtReconstruct (lane a i)))).finish 4)) ∧
      ((∃ i, i < 16 ∧ m.getLsbD i = true ∧ rtGood (lane a i) = false) →
        exec (.vrtrec d a k fa) s = .next ((read [a]).trap 0x0E)))

/-- R232 to R235, R219: lane movement and tag forms complete with the lanes of their rules. -/
def Obligations.LaneMoves : Prop :=
  ∀ (s : State) (d a b : VNum) (r : GNum) (k : KNum) (fa fb : Bool) (amt : BitVec 6) (tag : BitVec 5) (t : Tag),
    s.vOk a → s.vOk b → s.vOk (vAt a 1) → s.gOk r →
    let g := s.ctx.v[a].tag
    let h := s.ctx.v[b].tag
    let w := tagWidth g
    let n := tagLanes g
    let m := s.getK k
    let A (i : Nat) : Nat := laneOf w s.ctx.v[a].val i
    let B (i : Nat) : Nat := laneOf w s.ctx.v[b].val i
    let res (l : List VNum) (f : Nat → Nat) : Out := .next ((((s.readsV l).taintK k).putV d g m ((List.range n).map f)).finish 4)
    let pair (f1 f2 : Nat → Nat) : Out := .next ((((s.readsV [a, b]).setV d g (packLanes w ((List.range n).map f1))).setV (vAt d 1) g
      (packLanes w ((List.range n).map f2))).finish 4)
    exec (.vsldu d a amt k fa) s = res [a] (fun i => if amt.toNat ≤ i then A (i - amt.toNat) else 0) ∧
    exec (.vsldd d a amt k fa) s = res [a] (fun i => if i + amt.toNat < n then A (i + amt.toNat) else 0) ∧
    exec (.vlrot d a amt k fa) s = res [a] (fun i => A ((i + amt.toNat) % n)) ∧
    (g ≠ .q4 → (if g = .raw then h = .i64 else isInt h = true ∧ tagWidth h = w) →
      exec (.vperm d a b k fa fb) s = res [a, b] (fun i => A (B i % n)) ∧
      (s.ctx.v[vAt a 1].tag = g → exec (.vperm2 d a b k fa fb) s = res [a, b, vAt a 1] (fun i =>
        if B i % (2 * n) < n then A (B i % (2 * n)) else laneOf w s.ctx.v[vAt a 1].val (B i % (2 * n) - n)))) ∧
    (tagWidth h = w →
      exec (.vzip d a b fa fb) s = pair (fun i => if i % 2 = 0 then A (i / 2) else B (i / 2))
        (fun i => if i % 2 = 0 then A (n / 2 + i / 2) else B (n / 2 + i / 2)) ∧
      exec (.vunzip d a b fa fb) s = pair (fun i => if 2 * i < n then A (2 * i) else B (2 * i - n))
        (fun i => if 2 * i + 1 < n then A (2 * i + 1) else B (2 * i + 1 - n))) ∧
    (vTagOfCode tag.toNat = some t →
      exec (.vtagw d a tag fa) s = .next (((s.readsV [a]).setV d t s.ctx.v[a].val).finish 4) ∧
      exec (.vbcast d r tag k fa) s = .next ((((s.reads [r]).taintK k).putV d t m
        (List.replicate (tagLanes t) ((s.gVal r).toNat % 2 ^ tagWidth t))).finish 4)) ∧
    exec (.vtag r a fa) s = .next ((s.readsV [a]).putG 4 r (BitVec.ofNat 64 (tagCode g))) ∧
    exec (.vmovg r a fa) s = .next ((s.readsV [a]).putG 4 r (s.ctx.v[a].val.setWidth 64))

/-- R215, R236: the mask operations; k0 reads as all ones and is never written. -/
def Obligations.MaskOperations : Prop :=
  ∀ (s : State) (d a b : KNum) (r : GNum) (fa : Bool), s.gOk r →
    let A := s.getK a
    let B := s.getK b
    let w (v : Word) : Out := .next ((((s.taintK a).taintK b).setK d v).finish 4)
    (s.getK 0 = BitVec.allOnes 64 ∧ ∀ v, s.setK 0 v = s) ∧
    exec (.kand d a b) s = w (A &&& B) ∧ exec (.kor d a b) s = w (A ||| B) ∧ exec (.kxor d a b) s = w (A ^^^ B) ∧
    exec (.kandn d a b) s = w (A &&& ~~~B) ∧ exec (.knot d a) s = .next (((s.taintK a).setK d (~~~A)).finish 4) ∧
    exec (.kfromg d r fa) s = .next (((s.reads [r]).setK d (s.gVal r)).finish 4) ∧
    exec (.ktog r a) s = .next ((s.taintK a).putG 4 r A) ∧
    exec (.kpop r a) s = .next ((s.taintK a).putG 4 r (BitVec.ofNat 64 ((List.range 64).filter fun i => A.getLsbD i).length)) ∧
    (∃ n, exec (.kfirst r a) s = .next ((s.taintK a).putG 4 r (BitVec.ofNat 64 n)) ∧ n ≤ 64 ∧
      (∀ i, i < n → A.getLsbD i = false) ∧ (n < 64 → A.getLsbD n = true)) ∧
    (∀ v u, d ≠ 0 → u = s.setK d v → u.ctx.k[d] = v ∧ (∀ e, e ≠ d → u.ctx.k[e] = s.ctx.k[e]) ∧ u.ctx.v = s.ctx.v ∧ u.ctx.g = s.ctx.g)

/-- R185, R190, R216: a vector instruction on registers changes no register but its destinations, whatever becomes of it;
nothing outside the moving context changes but what a trap writes, and the draw counter moves under SR alone. R74, R216,
R237: a vector load changes no register but its destinations and no byte outside the pending-operation logs; a vector store
changes no register, and no byte outside those of the active elements at the addresses it computes, each translated as
`State.access` does after the translations of the active elements before it (which of the cached and the stored entries a
translation takes is free: log 10). -/
def Obligations.VectorFrame : Prop :=
  (∀ (s t : State) (d a b : VNum) (r : GNum) (k p q : KNum) (fa fb : Bool) (amt : BitVec 6) (tag : BitVec 5) (rnd : BitVec 3)
      (cond : Fin 8),
      let v (i : Instr) (l : List VNum) : Prop := exec i s = .next t → RegsOnly s t [] l []
      let vd (i : Instr) (l : List VNum) (draws : Nat) : Prop := exec i s = .next t → RegsOnly s t [] l [] draws
      let m (i : Instr) : Prop := exec i s = .next t → RegsOnly s t [] [] [p]
      let gr (i : Instr) : Prop := exec i s = .next t → RegsOnly s t [r] [] []
      let from_ (n : Nat) : List VNum := (List.range n).map (vAt d)
      v (.vadd d a b k fa fb) [d] ∧ v (.vsub d a b k fa fb) [d] ∧ v (.vadds d a b k fa fb) [d] ∧ v (.vsubs d a b k fa fb) [d] ∧
      v (.vmul d a b k fa fb) [d] ∧ v (.vmulh d a b k fa fb) [d] ∧ v (.vmin d a b k fa fb) [d] ∧ v (.vmax d a b k fa fb) [d] ∧
      v (.vand d a b k fa fb) [d] ∧ v (.vor d a b k fa fb) [d] ∧ v (.vxor d a b k fa fb) [d] ∧ v (.vandn d a b k fa fb) [d] ∧
      v (.vsll d a b k fa fb) [d] ∧ v (.vsrl d a b k fa fb) [d] ∧ v (.vsra d a b k fa fb) [d] ∧ v (.vrol d a b k fa fb) [d] ∧
      v (.vfma d a b k fa fb) [d] ∧ v (.vfms d a b k fa fb) [d] ∧ v (.vabs d a k fa) [d] ∧ v (.vneg d a k fa) [d] ∧
      v (.vnot d a k fa) [d] ∧ v (.vclz d a k fa) [d] ∧ v (.vpopc d a k fa) [d] ∧ v (.vrcp d a k fa) [d] ∧ v (.vrsq d a k fa) [d] ∧
      v (.vexp2 d a k fa) [d] ∧ v (.vlog2 d a k fa) [d] ∧ vd (.vsqrt d a rnd k fa) [d] 128 ∧ vd (.vrsum d a rnd k fa) [d] 1 ∧
      (rnd.toNat < 4 → v (.vsqrt d a rnd k fa) [d] ∧ v (.vrsum d a rnd k fa) [d] ∧ v (.vcvt d a tag rnd k fa) (from_ 16)) ∧
      v (.vrmax d a k fa) [d] ∧ v (.vrmin d a k fa) [d] ∧ v (.vrand d a k fa) [d] ∧ v (.vrior d a k fa) [d] ∧ v (.vrxor d a k fa) [d] ∧
      vd (.vcvt d a tag rnd k fa) (from_ 16) 128 ∧ v (.vscl d a b k fa fb) (from_ 8) ∧ v (.vqnt d a b k fa fb) [d] ∧ v (.vrtrec d a k fa) [d] ∧
      v (.vsldu d a amt k fa) [d] ∧ v (.vsldd d a amt k fa) [d] ∧ v (.vlrot d a amt k fa) [d] ∧ v (.vperm d a b k fa fb) [d] ∧
      v (.vperm2 d a b k fa fb) [d] ∧ v (.vzip d a b fa fb) [d, vAt d 1] ∧ v (.vunzip d a b fa fb) [d, vAt d 1] ∧
      v (.vtagw d a tag fa) [d] ∧ v (.vbcast d r tag k fa) [d] ∧ gr (.vtag r a fa) ∧ gr (.vmovg r a fa) ∧
      m (.vcmp cond p a b k fa fb) ∧ m (.vcmpa cond p a b k fa fb) ∧ m (.kand p q k) ∧ m (.kor p q k) ∧
      m (.kxor p q k) ∧ m (.kandn p q k) ∧ m (.knot p q) ∧ m (.kfromg p r fa) ∧
      gr (.ktog r q) ∧ gr (.kpop r q) ∧ gr (.kfirst r q)) ∧
  (∀ (s t : State) (d a : VNum) (base r : GNum) (fa : Bool) (tag : BitVec 4) (sc : Fin 4) (k : KNum) (e : ENum) (off : BitVec 5),
      let reads (i : Instr) (l : List VNum) : Prop := exec i s = .next t →
        OwnKept s t [] l [] ∧ ∀ x, (∀ i, i < 1024 → ¬s.inLog i x) → t.byte x = s.byte x
      let m := s.getK k
      let g := s.ctx.v[d].tag
      let looked (at_ : Nat → Word) (j : Nat) : State :=
        ((List.range j).filter fun i => active m (tagLanes g) i).foldl
          (fun u i => (u.access u.agent u.sup .wr (offOf (at_ i)) (tagWidth g / 8)).2) s
      let writes (i : Instr) (at_ : Nat → Word) : Prop := exec i s = .next t →
        OwnKept s t [] [] [] ∧ ∀ x, (∀ j, j < tagLanes g → active m (tagLanes g) j = true →
          ¬(looked at_ j).storedTo .wr (offOf (at_ j)) (tagWidth g / 8) x) → t.byte x = s.byte x
      let ea := s.gVal base + off.signExtend 64 * 64 + s.bump 64
      reads (.vld d base fa tag k off) [d] ∧ reads (.vldp d base fa tag k off) [d, vAt d 1] ∧ reads (.vlds d base fa tag k r) [d] ∧
      reads (.vldt d base fa tag k r) [d] ∧ reads (.vldg d a tag sc k e) [d] ∧
      (exec (.vst d base fa k off) s = .next t → OwnKept s t [] [] [] ∧
        ∀ x, ¬(match (s.access s.agent s.sup .wr (offOf ea) 64).1 with
          | .ok key => (∃ p ∈ spanParts m g (offOf ea) s.ctx.v[d].val, key + (p.1 - offOf ea) ≤ x ∧
              x < key + (p.1 - offOf ea) + p.2.length) ∨ s.queuedNext x
          | .nonres _ leaf => s.inLog (bits leaf 6 10) x
          | _ => False) → t.byte x = s.byte x) ∧
      writes (.vsts d base fa tag k r) (fun i => s.gVal base + BitVec.ofNat 64 i * s.gVal r) ∧
      writes (.vstg d a tag sc k e) (fun i => s.ctx.e[e] +
        BitVec.ofInt 64 (laneInt s.ctx.v[a].tag (laneOf (tagWidth s.ctx.v[a].tag) s.ctx.v[a].val i)) <<< sc.val))

/-- R237, R238, R240: a span load from own memory that the checks allow puts the lanes of the bytes at its address into the
active lanes, as one LocalRead; with no active lane the span is checked and nothing is read. R237, R240: `vst` writes the
bytes of the active lanes of vs to the span, as one LocalWrite, and no other byte is part of it; with no active lane nothing
is written. A reserved tag code traps 0x01, and so does an odd vd of `vldp`. -/
def Obligations.VectorSpans : Prop :=
  (∀ (s t : State) (d : VNum) (base : GNum) (fa : Bool) (tag : BitVec 4) (k : KNum) (off : BitVec 5) (g : Tag) (key : Nat),
      s.gOk base → s.ctx.sent = [] → vTagOfCode tag.toNat = some g →
      let m := s.getK k
      let ea (n : Nat) : Word := s.gVal base + off.signExtend 64 * BitVec.ofNat 64 n + s.bump n
      let own (n : Nat) : Prop :=
        (ea n).toNat % n = 0 ∧ resolve s.me (ea n) = s.me ∧ s.access s.agent s.sup .rd (offOf (ea n)) n = (.ok key, t)
      let start : State := (t.reads [base]).taintK k
      let placed (n : Nat) : State :=
        let T := max (s.ctx.clk + 1) (s.wts (granule (offOf (ea n))))
        (start.stampRead (granule (offOf (ea n))) T).setClk T
      let timely (n : Nat) : Prop := max (s.ctx.clk + 1) (s.wts (granule (offOf (ea n)))) < clockLimit
      let lanes (a : Nat) : List Nat := (List.range (tagLanes g)).map fun i => laneOf (tagWidth g) (BitVec.ofNat 512 (s.num a 64)) i
      let none_ : List Nat := List.replicate (tagLanes g) 0
      ((∃ i, i < tagLanes g ∧ active m (tagLanes g) i = true) →
        (own 64 → timely 64 → exec (.vld d base fa tag k off) s = .next (((placed 64).putV d g m (lanes key)).finish 4)) ∧
        (own 128 → timely 128 → d.val % 2 = 0 → exec (.vldp d base fa tag k off) s =
          .next ((((placed 128).putV d g m (lanes key)).putV (vAt d 1) g m (lanes (key + 64))).finish 4))) ∧
      ((∀ i, i < tagLanes g → active m (tagLanes g) i = false) →
        (own 64 → exec (.vld d base fa tag k off) s = .next ((start.putV d g m none_).finish 4)) ∧
        (own 128 → d.val % 2 = 0 → exec (.vldp d base fa tag k off) s =
          .next (((start.putV d g m none_).putV (vAt d 1) g m none_).finish 4)))) ∧
  (∀ (s t : State) (r : VNum) (base : GNum) (fa : Bool) (tag : BitVec 4) (k : KNum) (off : BitVec 5) (key : Nat),
      let m := s.getK k
      let g := s.ctx.v[r].tag
      let ea := s.gVal base + off.signExtend 64 * 64 + s.bump 64
      let o := offOf ea
      let parts := spanParts m g o s.ctx.v[r].val
      let start : State := ((t.reads [base]).readsV [r]).taintK k
      let T := max (s.ctx.clk + 1) (s.rts (granule o) + 1)
      (s.gOk base → s.vOk r → s.allChecked → ea.toNat % 64 = 0 → ownForm s.me ea = true → s.access s.agent s.sup .wr o 64 = (.ok key, t) →
        (parts ≠ [] → T < clockLimit → exec (.vst r base fa k off) s =
          .next ((((start.stampWrite (granule o) T).setClk T).writeParts o 64 key T parts).markSide.finish 4)) ∧
        (parts = [] → exec (.vst r base fa k off) s = .next (start.markSide.finish 4))) ∧
      (∀ j, j < 64 → ((∃ p ∈ parts, p.1 ≤ o + j ∧ o + j < p.1 + p.2.length) ↔
        active m (if g = .q4 then 64 else tagLanes g) (if g = .q4 then j else 8 * j / tagWidth g) = true)) ∧
      (∀ p ∈ parts, ∀ i (h : i < p.2.length), o ≤ p.1 ∧ p.1 + i < o + 64 ∧
        p.2[i] = BitVec.ofNat 8 (s.ctx.v[r].val.toNat / 2 ^ (8 * (p.1 + i - o)))) ∧
      (vTagOfCode tag.toNat = none → exec (.vld r base fa tag k off) s = .next (s.trap 0x01)) ∧
      (r.val % 2 = 1 → exec (.vldp r base fa tag k off) s = .next (s.trap 0x01)))

/-- R237, R238, R241, R125: a strided load, a gather and a swizzled column load whose active elements lie in own scratchpad read
them in lane order, each placed as one LocalRead, and put them into the active lanes. (Elements in HBM and remote ones are
not spoken of here.) A layout that is no mode or whose pitch is out of step traps 0x07; that its AUX is lane 0's address is
the model's, log 21. R237, R238: a strided store and a scatter whose active elements lie in own scratchpad write them in
lane order, each placed as one LocalWrite; a vs whose tag is not the one named traps 0x06. -/
def Obligations.VectorElements : Prop :=
  (∀ (s u : State) (d a : VNum) (base r : GNum) (fa : Bool) (tag : BitVec 4) (sc : Fin 4) (k : KNum) (e : ENum) (g : Tag),
      s.ctx.sent = [] → vTagOfCode tag.toNat = some g → g ≠ .raw → g ≠ .q4 →
      let m := s.getK k
      let w := tagWidth g / 8
      let act := (List.range (tagLanes g)).filter fun i => active m (tagLanes g) i
      let read (x : State) (i : Nat) : Option State :=
        let T := max (x.ctx.clk + 1) (x.wts (granule i))
        if T < clockLimit then some ((x.stampRead (granule i) T).setClk T) else none
      let mine (ea : Word) : Prop := ea.toNat % w = 0 ∧ resolve s.me ea = s.me ∧ inSpad (offOf ea) w = true ∧
        s.badWord (offOf ea) w = false ∧ s.spadAllowed s.sup .rd (offOf ea) w = true
      let gives (i : Instr) (x : State) (at_ : Nat → Word) : Prop := (∀ i ∈ act, mine (at_ i)) →
        (act.map fun i => offOf (at_ i)).foldlM read x = some u →
        exec i s = .next ((u.putV d g m ((List.range (tagLanes g)).map fun i => s.num (offOf (at_ i)) w)).finish 4)
      let lay := s.gVal r
      let mode := bits lay 24 3
      let pitch := bits lay 0 24
      (s.gOk base → s.gOk r → gives (.vlds d base fa tag k r) ((s.reads [base, r]).taintK k)
        (fun i => s.gVal base + BitVec.ofNat 64 i * s.gVal r)) ∧
      (s.vOk a → isInt s.ctx.v[a].tag = true → tagWidth s.ctx.v[a].tag = tagWidth g →
        gives (.vldg d a tag sc k e) (((s.readsV [a]).taintK k).taintE e)
          (fun i => s.ctx.e[e] + BitVec.ofInt 64 (laneInt s.ctx.v[a].tag (laneOf (tagWidth g) s.ctx.v[a].val i)) <<< sc.val)) ∧
      (s.gOk base → s.gOk r →
        (mode = 0 ∨ (mode < 5 ∧ pitch % (if mode = 3 then 256 else 128) = 0) →
          (∀ i ∈ act, ownForm s.me (tileLane (s.gVal base + s.bump w) pitch mode i) = true) →
          gives (.vldt d base fa tag k r) ((s.reads [base, r]).taintK k)
            (fun i => tileLane (s.gVal base + s.bump w) pitch mode i)) ∧
        (mode ≠ 0 → (5 ≤ mode ∨ pitch % (if mode = 3 then 256 else 128) ≠ 0) →
          exec (.vldt d base fa tag k r) s =
            .next (((s.reads [base, r]).taintK k).trapAux 0x07 0 (s.gVal base + s.bump w) 0)))) ∧
  (∀ (s u : State) (v a : VNum) (base r : GNum) (fa : Bool) (tag : BitVec 4) (sc : Fin 4) (k : KNum) (e : ENum) (g : Tag),
      vTagOfCode tag.toNat = some g → g ≠ .raw → g ≠ .q4 → s.vOk v → s.allChecked →
      let m := s.getK k
      let w := tagWidth g / 8
      let act := (List.range (tagLanes g)).filter fun i => active m (tagLanes g) i
      let write (at_ : Nat → Word) (x : State) (i : Nat) : Option State :=
        let o := offOf (at_ i)
        let T := max (x.ctx.clk + 1) (x.rts (granule o) + 1)
        if T < clockLimit then some (((x.stampWrite (granule o) T).setClk T).writeParts o w o T
          [(o, toLe w (laneOf (tagWidth g) s.ctx.v[v].val i))]) else none
      let mine (ea : Word) : Prop := ea.toNat % w = 0 ∧ ownForm s.me ea = true ∧ inSpad (offOf ea) w = true ∧
        s.badWord (offOf ea) w = false ∧ s.spadAllowed s.sup .wr (offOf ea) w = true
      let gives (i : Instr) (x : State) (at_ : Nat → Word) : Prop := s.ctx.v[v].tag = g → (∀ i ∈ act, mine (at_ i)) →
        act.foldlM (write at_) x = some u → exec i s = .next (u.markSide.finish 4)
      (s.gOk base → s.gOk r →
        gives (.vsts v base fa tag k r) (((s.reads [base, r]).readsV [v]).taintK k)
          (fun i => s.gVal base + BitVec.ofNat 64 i * s.gVal r) ∧
        (s.ctx.v[v].tag ≠ g → exec (.vsts v base fa tag k r) s = .next (((s.reads [base, r]).readsV [v]).trap 0x06))) ∧
      (s.vOk a → isInt s.ctx.v[a].tag = true → tagWidth s.ctx.v[a].tag = tagWidth g →
        gives (.vstg v a tag sc k e) (((s.readsV [a, v]).taintK k).touch (3 * e.val + 2))
          (fun i => s.ctx.e[e] + BitVec.ofInt 64 (laneInt s.ctx.v[a].tag (laneOf (tagWidth g) s.ctx.v[a].val i)) <<< sc.val)))

/-- R244, R252, R29, R132: `yield`, `park` and `exit` begin to suspend or free the context; in context 0 `yield` only advances
the PC and the others trap 0x01. `pfence` waits for the copies, clears both counts, and traps where they differ. -/
def Obligations.Suspending : Prop :=
  ∀ (s : State), s.allChecked →
    let away (p : Susp) : Out :=
      let u := s.upd fun x => { x with st := .blocked, wait := some .allOps, susp := some p }
      .next { (if s.opsDone s.cur then u.post (.suspension s.cur) else u) with rep := none, target := none, taint := [] }
    let gone : Out :=
      let u := s.raiseClk (s.opsTime s.cur)
      let u := u.raiseCclk u.ctx.clk
      .next { ((match s.ctx.bound with | none => u | some b => u.freeRec b.idx).toIdle s.cur) with
        rep := none, target := none, taint := [] }
    let clear := (s.raiseClk s.ctx.copyTime).upd fun x => { x with expb := 0, rcvb := 0 }
    (s.sup = true →
      exec .yield s = .next (s.finish 4) ∧ exec .cYield s = .next (s.finish 2) ∧
      exec .park s = .next (s.trap 0x01) ∧ exec .cPark s = .next (s.trap 0x01) ∧
      exec .exit s = .next (s.trap 0x01) ∧ exec .cExit s = .next (s.trap 0x01)) ∧
    (s.sup = false →
      exec .yield s = away (.yield (s.ctx.pc + 4)) ∧ exec .cYield s = away (.yield (s.ctx.pc + 2)) ∧
      exec .park s = away (.park (s.ctx.pc + 4)) ∧ exec .cPark s = away (.park (s.ctx.pc + 2)) ∧
      (s.opsDone s.cur = true → exec .exit s = gone ∧ exec .cExit s = gone) ∧
      (s.opsDone s.cur = false → exec .exit s = .next (s.block .allOps) ∧ exec .cExit s = .next (s.block .allOps))) ∧
    (s.copyDone s.cur = false → exec .pfence s = .next (s.block .copyOps) ∧ exec .cPfence s = .next (s.block .copyOps)) ∧
    (s.copyDone s.cur = true → s.ctx.clkTrap = false →
      (s.ctx.expb = s.ctx.rcvb → exec .pfence s = .next (clear.finish 4) ∧ exec .cPfence s = .next (clear.finish 2)) ∧
      (s.ctx.expb ≠ s.ctx.rcvb → exec .pfence s = .next (clear.trapAux 0x11 0 s.ctx.expb s.ctx.rcvb)))

/-- R259, R260, R133, R268: the timeline instructions and the moves of extension registers, with the words they decode from. A
wait or a test past HIGH traps 0x14; one that is satisfied takes the timeline's time, and the trap of a recorded cause. That
a satisfied `tlwait` takes the trap 0x1F of R114 before that of a recorded cause, and that `tltest` never takes it, is the
model's choice (log 46): no rule gives this order for it. -/
def Obligations.Timelines : Prop :=
  (∀ (s : State) (d : GNum) (l : TLNum) (e : ENum), s.gOk d →
    let u := s.reads [d]
    let n := (s.gVal d).toNat
    let t := s.ctx.tl[l]
    let took := u.raiseClk (t.timeAt n)
    let cause := (took.upd fun x => { x with tl := x.tl.set l { x.tl[l] with ecause := 0 } }).trapAux t.ecause 0 0 (BitVec.ofNat 64 t.enum)
    (t.high < n → exec (.tlwait d l) s = .next (u.trap 0x14) ∧ exec (.tltest d l) s = .next (u.trap 0x14)) ∧
    (n ≤ t.high → t.val < n →
      exec (.tlwait d l) s = .next (u.block (.timeline l n)) ∧ exec (.tltest d l) s = .next (u.putG 4 d 0)) ∧
    (n ≤ t.high → n ≤ t.val →
      (t.ecause = 0 ∨ n < t.enum →
        (s.ctx.clkTrap = false → exec (.tlwait d l) s = .next (took.finish 4)) ∧ exec (.tltest d l) s = .next (took.putG 4 d 1)) ∧
      (t.ecause ≠ 0 → t.enum ≤ n →
        (s.ctx.clkTrap = false → exec (.tlwait d l) s = .next cause) ∧ exec (.tltest d l) s = .next cause) ∧
      (s.ctx.clkTrap = true → exec (.tlwait d l) s = .next ((took.upd fun x => { x with clkTrap := false }).trap 0x1F))) ∧
    exec (.tlrd d l) s = .next (s.putG 4 d (BitVec.ofNat 64 t.val)) ∧
    exec (.tlhigh d l) s = .next (s.putG 4 d (BitVec.ofNat 64 t.high)) ∧
    exec (.tlerr d l) s = .next ((s.upd fun x =>
      { x with tl := x.tl.set l { t with estat := 0, enum := if t.ecause = 0 then 0 else t.enum } }).putG 4 d
        (t.estat ++ t.ecause ++ BitVec.ofNat 52 t.enum)) ∧
    exec (.erd d e) s = .next ({ s.touch (3 * e.val + 2) with taint := s.taint ++ s.ctx.eu[e] }.putG 4 d s.ctx.e[e]) ∧
    exec (.ewr d e) s = .next ((u.upd fun x =>
      { x.mend (3 * e.val + 2) with e := x.e.set e (s.gVal d), eu := x.eu.set e u.taint }).finish 4)) ∧
  (∀ (d : GNum) (l : TLNum) (e : ENum) (imm : BitVec 16) (top : Bool),
    let x (m e : Nat) := decodeTableWord 32 (0xC0000000 + m * 2 ^ 24 + d.val * 2 ^ 19 + e * 2 ^ 16 + imm.toNat)
    x 0b100011 (l.val + if top then 4 else 0) =
      (if top then none else if imm = 0 then some (.tlwait d l) else if imm = 1 then some (.tltest d l) else if imm = 2 then some (.tlrd d l)
       else if imm = 3 then some (.tlhigh d l) else if imm = 4 then some (.tlerr d l) else none) ∧
    x 0b100111 e.val = (if imm = 0 then some (.erd d e) else if imm = 1 then some (.ewr d e) else none) ∧
    stepKinds (.erd d e) = some (true, false, false) ∧ stepKinds (.ewr d e) = some (true, false, false)) ∧
  (∀ (c : CtxId) (l : TLNum), let t := (State.reset.getCtx c).tl[l]; t.estat = 0 ∧ t.ecause = 0 ∧ t.enum = 0)

/-- R247 to R251: a watch sends its registration and waits; the fire's value, an expiry's 0 or a status's poison ends it, and a
refusal traps 0x13. `seq.adv` writes the larger of the old word and B once earlier engine work is complete. -/
def Obligations.Watches : Prop :=
  ∀ (s : State) (d a b : GNum) (fa fb : Bool) (e : ENum), s.gOk a → s.gOk b → s.allChecked →
    let u := s.reads [a, b]
    let A := s.gVal a
    let o := offOf A
    let owner := resolve s.me A
    (A.toNat % 8 = 0 → inSpad o 8 = true → (owner = s.me ∨ s.cl.members.contains owner = true) → s.ctx.latch ≠ 1 →
      let ends (u : State) : State := u.cancel (.holdWindowEnd s.cur)
      let both (f : State → State) : Prop := exec (.watch d a b fa fb) s = .next (f u) ∧
        exec (.watchT d a b fa fb e) s = .next (f (u.touch (3 * e.val + 2)))
      let asked (u : State) (limit : Option Nat) : State :=
        let w : WatchReq := ⟨s.me, some s.cur, none, s.cl.nextTag, o, s.gVal b, s.ctx.clk, limit, s.cl.part.getD 0, s.sup⟩
        ((u.updCl fun c => { c with nextTag := c.nextTag + 1, watchOut := c.watchOut ++ [(s.cl.nextTag, owner)] }).send owner 0
          (.watch w)).upd fun x => { x with sent := [(s.cl.nextTag, 0)] }
      (s.ctx.sent = [] →
        exec (.watch d a b fa fb) s = .next ((if s.sup then asked u none else (asked u none).post (.holdWindowEnd s.cur)).block
          (.watch s.cl.nextTag d)) ∧
        exec (.watchT d a b fa fb e) s = .next ((asked (u.touch (3 * e.val + 2)) (some (s.ctx.e[e].toNat % 2 ^ 32))).block
          (.watch s.cl.nextTag d))) ∧
      (∀ tag r, s.ctx.sent = [(tag, 0)] → s.ctx.watchReply tag = some r →
        (∀ k v t skid, r = .fire k v t skid →
          both fun u => (ends (({ u with taint := skid.toList }.setG d v).raiseClk t)).finish 4) ∧
        (∀ k, r = .expired k → both fun u => (ends (u.setG d 0)).finish 4) ∧
        (∀ k, r = .refused k → both fun u => (ends u).trap 0x13) ∧
        (∀ k st, r = .status k st → both fun u => (ends (u.poisonG d st)).finish 4))) ∧
    (s.ctx.latch = 1 → exec (.watch d a b fa fb) s = .next (s.finish 4)) ∧
    (∀ key t, A.toNat % 8 = 0 → ownForm s.me A = true → inSpad o 8 = true → s.access s.agent s.sup .wr o 8 = (.ok key, t) →
      let c := max s.ctx.clk (s.opsTime s.cur)
      let T := max (c + 1) (s.rts (granule o) + 1)
      (s.opsDone s.cur = false → exec (.seqAdv d a b fa fb) s = .next ((t.reads [a, b]).block .allOps)) ∧
      (s.opsDone s.cur = true → T < clockLimit → exec (.seqAdv d a b fa fb) s =
        .next ((((((t.reads [a, b]).setClk c).stampWrite (granule o) T).setClk T).writeOwn o key
          (toLe 8 (max (s.num key 8) (s.gVal b).toNat)) T).markAtomic.putG 4 d (BitVec.ofNat 64 (s.num key 8)))))

/-- R36, R262: arriving adds one and runs the rounds with the last; waiting ends with 0 once PHASE exceeds n, with 2 where the
group is BROKEN, with 1 at its limit; a continuation that does not name the group traps 0x09. -/
def Obligations.Groups : Prop :=
  ∀ (s : State) (d : GNum) (e : ENum) (idx : BitVec 8) (g : Group), s.gOk d → s.allChecked →
    let i := idx.toNat
    let n := (s.gVal d).toNat
    let u := s.reads [d]
    let w := u.touch (3 * e.val + 2)
    let ends (u : State) (v : Word) : Out := .next (((u.cancel (.holdWindowEnd s.cur)).cancel (.gwaitLimitExpiry s.cur)).putG 4 d v)
    let came : State :=
      let t := ((s.setClk (s.ctx.clk + 1)).markAtomic).updGroup i fun g =>
        { g with lcount := g.lcount + 1, arrT := max g.arrT (s.ctx.clk + 1) }
      if g.lcount + 1 = g.lexp then t.partDone i else t
    (s.group? i = some g → s.ctx.holdsGroup i = true → g.st ≠ 0 →
      (g.st = 2 → exec (.garrive d idx) s = .next (s.trap 0x10)) ∧
      (g.st ≠ 2 → g.partDone = true → exec (.garrive d idx) s = .next (s.trap 0x0F)) ∧
      (g.st ≠ 2 → g.partDone = false → s.ctx.clk + 1 < clockLimit →
        exec (.garrive d idx) s = .next (came.putG 4 d (BitVec.ofNat 64 g.phase)) ∧
        (s.ctx.latch ≠ 3 → s.ctx.arrived = none → exec (.gsync d idx) s =
          .next (((came.setG d (BitVec.ofNat 64 g.phase)).upd fun x => { x with arrived := some g.phase }).groupWait i g.phase d false
            false))) ∧
      (∀ k, s.ctx.latch ≠ 3 → s.ctx.arrived = some k → g.st ≠ 2 → k < g.phase →
        exec (.gsync d idx) s = ends (s.raiseClk g.phaseT) 0) ∧
      (g.st = 2 → s.ctx.begun = false → exec (.gwait d idx) s = ends u 2 ∧ exec (.gwaitT d e idx) s = ends w 2) ∧
      (g.st ≠ 2 → n < g.phase →
        exec (.gwait d idx) s = ends (u.raiseClk g.phaseT) 0 ∧ exec (.gwaitT d e idx) s = ends (w.raiseClk g.phaseT) 0) ∧
      (g.st ≠ 2 → g.phase ≤ n → s.ctx.limitHit = true → exec (.gwaitT d e idx) s = ends w 1) ∧
      (g.st ≠ 2 → g.phase ≤ n → s.ctx.limitHit = false → s.ctx.begun = false → s.sup = false →
        exec (.gwait d idx) s = .next (((u.post (.holdWindowEnd s.cur)).upd fun x => { x with begun := true }).block (.group i n)) ∧
        exec (.gwaitT d e idx) s =
          .next (((w.post (.gwaitLimitExpiry s.cur)).upd fun x => { x with begun := true }).block (.group i n))) ∧
      exec (.gquery d idx) s = .next (s.putG 4 d (g.st ++ BitVec.ofNat 62 g.phase))) ∧
    (s.group? i = none ∨ s.ctx.holdsGroup i = false →
      exec (.garrive d idx) s = .next (s.trap 0x09) ∧ exec (.gwait d idx) s = .next (u.trap 0x09) ∧
      exec (.gwaitT d e idx) s = .next (w.trap 0x09) ∧ exec (.gquery d idx) s = .next (s.trap 0x09))

/-- R24 to R28, R263 to R266: `spawn` creates a record from its operands and the issuer's fields and answers its index, or all
ones; its waking form makes a PARKED record QUEUED. `amsg` puts its message into the outbound queue, and offers it when it
is the first to its target. AFFC of a record that `spawn` makes is free (R24 gives none). That CCLK is raised to the
issuer's CLK before the record may be bound is the model's reading (log 23), and so is that an all-zero target names chip 0,
cluster (0, 0) (log 73). -/
def Obligations.Spawning : Prop :=
  ∀ (s : State) (d a b : GNum) (fa fb : Bool) (e : ENum), s.gOk a → s.gOk b → s.gOk d → s.allChecked →
    let u := (s.reads [a, b, d]).touch (3 * e.val + 2)
    let A := s.gVal a
    let D := s.ctx.e[e]
    let (ptag, prot, gval, gids, twin) := s.issuer
    let m (target : ClusterId) (any : Bool) (core : CoreId) (gval : BitVec 4) (gids : BitVec 32) (twin : Bool) : AMsg :=
      ⟨target, any, core, A.extractLsb' 0 48, s.gVal b, s.gVal d, Fin.ofNat 8 (bits D 41 3), Fin.ofNat 8 (bits D 38 3), gval, gids,
        twin, ptag, prot, s.ctx.clk, s.me, s.cl.part.getD 0⟩
    let target : ClusterId := if bits D 62 1 = 0 then ⟨Fin.ofNat 128 (bits D 55 7), Fin.ofNat 16 (bits D 51 4), Fin.ofNat 16 (bits D 47 4)⟩
      else ⟨Fin.ofNat 128 (s.me.chip.val + bits D 55 7), Fin.ofNat 16 (s.me.x.val + bits D 51 4), Fin.ofNat 16 (s.me.y.val + bits D 47 4)⟩
    let sent := m target (bits D 46 1 = 1) (Fin.ofNat 4 (bits D 44 2)) (BitVec.ofNat 4 (bits D 33 4)) (BitVec.ofNat 32 (bits D 0 32))
      (bits D 37 1 = 1)
    let queued := u.updCl fun c => { c with outAmsg := c.outAmsg ++ [sent] }
    bits D 32 1 = 0 →
      (bits D 63 1 = 0 → bits A 0 1 = 0 → s.badGids gval gids = false →
        let r := ({ u with draws := u.draws + 1 }.raiseCclk s.ctx.clk).create
          (m s.me true (Fin.ofNat 4 (Config.freeNat s.draws)) gval gids twin)
        exec (.spawn d a b fa fb e) s = .next (r.2.markAtomic.putG 4 d
          (match r.1 with | some i => BitVec.ofNat 64 i | none => BitVec.allOnes 64))) ∧
      (bits D 63 1 = 1 → A.toNat < min (2 ^ 16) s.cl.par.contMax →
        let w := s.recWord A.toNat 0
        let may := s.recState A.toNat = 3 ∧ bits w 56 4 = 4 ∧ (s.sup = true ∨ bits w 48 6 = ptag.val)
        (may → exec (.spawn d a b fa fb e) s = .next (((u.raiseCclk s.ctx.clk).wakeRecord A.toNat none true).markAtomic.putG 4 d 0)) ∧
        (¬may → exec (.spawn d a b fa fb e) s = .next (u.markAtomic.putG 4 d 1))) ∧
      (bits D 63 1 = 0 → bits A 0 1 = 0 → s.badGids sent.gval sent.gids = false →
        (target = s.me ∨ s.cl.members.contains target = true) → s.cl.outAmsg.length < 256 →
        exec (.amsg d a b fa fb e) s = .next ((if s.cl.outAmsg.any fun x => x.target = target then queued
          else queued.send target 0 (.amsg sent)).markAtomic.finish 4))

/-- R253 to R256: a transfer that passes the checks takes the number HIGH + INC on its timeline and goes to the copy engine; at
128 operations of its core in flight it waits. The span of own memory is the destination, or the source of `hsend`. -/
def Obligations.Transfers : Prop :=
  ∀ (s : State) (d a b : GNum) (fa fb : Bool) (e : ENum), s.gOk a → s.gOk b → s.gOk d → s.allChecked →
    let D := s.ctx.e[e]
    let tl : TLNum := Fin.ofNat 4 (bits D 54 2)
    let n := s.ctx.tl[tl].high + bits D 37 16
    let goes (i : Instr) (kind : CopyKind) (l : List GNum) (A B g : Word) : Prop :=
      let x := transferOf kind D g
      let own := if kind = .hsend then A else B
      let o := offOf own
      let u := (s.reads l).touch (3 * e.val + 2)
      x.route ≠ 3 → x.reserved = false → (if kind = .pullAdd then (addTag x.tagCode).isSome = true else x.tagCode = 0) →
      x.inRange = true → (kind ≠ .pullG → A.toNat % 8 = 0) → B.toNat % 8 = 0 → x.spitch % 8 = 0 → x.dpitch % 8 = 0 → x.listAt % 8 = 0 →
      ownForm s.me own = true → (kind = .copy → ownForm s.me A = true) → (inSpad o x.span = true ∨ inHbm o x.span = true) →
      (x.fe = true → inSpad o x.span = true ∧ kind ≠ .hsend) → (kind = .hget → s.ingestOf o x.len ≠ .bad) →
      (kind = .pullG → inSpad x.listAt (8 * x.rows) = true) →
      (kind = .pull ∨ kind = .pull2d ∨ kind = .pullAdd → resolve s.me A = s.me ∨ s.cl.members.contains (resolve s.me A) = true) →
      0 < n → n < 2 ^ 64 →
      (s.copyInFlight (coreOf s.cur) < 128 → exec i s = .next ((((u.newCopy x s.cur tl n A B s.sup s.ctx.clk none).upd fun c =>
        c.updTl tl fun t => t.issue n).markAtomic).finish 4)) ∧
      (128 ≤ s.copyInFlight (coreOf s.cur) → exec i s = .next (u.block .copySlot))
    goes (.pull a b fa fb e) .pull [a, b] (s.gVal a) (s.gVal b) 0 ∧
    goes (.pull2d d a b fa fb e) .pull2d [a, b, d] (s.gVal a) (s.gVal b) (s.gVal d) ∧
    goes (.pullG d b fb e) .pullG [b, d] 0 (s.gVal b) (s.gVal d) ∧
    goes (.pullAdd a b fa fb e) .pullAdd [a, b] (s.gVal a) (s.gVal b) 0 ∧
    goes (.copy a b fa fb e) .copy [a, b] (s.gVal a) (s.gVal b) 0 ∧
    goes (.hget a b fa fb e) .hget [a, b] (s.gVal a) (s.gVal b) 0 ∧
    goes (.hsend a b fa fb e) .hsend [a, b] (s.gVal a) (s.gVal b) 0

/-- R185, R190: what these instructions leave unchanged: every register but the destination (and the timelines, `tlerr`, `e[N]`,
where the rule names them), and memory but for `seq.adv`'s word and the NEXT words of queued records that its watches reach.
R22 to R29, R36: `yield`, `park`, `amsg` and `gwait` change no register but `gwait`'s d, and no byte; `spawn`, `garrive` and
`gsync` none but d, and bytes of records and of the round word alone; `exit` frees its record and changes no other byte but
NEXT words. -/
def Obligations.SyncFrame : Prop :=
  (∀ (s t : State) (d a b : GNum) (fa fb : Bool) (l : TLNum) (e : ENum) (idx : BitVec 8),
      let only (i : Instr) (gs : List GNum) : Prop := exec i s = .next t → OwnKept s t gs [] [] ∧ ∀ x, t.byte x = s.byte x
      let timed (i : Instr) (gs : List GNum) : Prop := exec i s = .next t →
        (∃ l, OwnKept (s.upd fun x => { x with tl := l }) t gs [] []) ∧ ∀ x, t.byte x = s.byte x
      timed (.tlwait d l) [] ∧ timed (.tltest d l) [d] ∧ only (.tlrd d l) [d] ∧ only (.tlhigh d l) [d] ∧ timed (.tlerr d l) [d] ∧
      only (.erd d e) [d] ∧
      (exec (.ewr d e) s = .next t → (∃ v w, OwnKept (s.upd fun x => { x with e := x.e.set e v, eu := x.eu.set e w }) t [] [] []) ∧
        ∀ x, t.byte x = s.byte x) ∧
      only (.gquery d idx) [d] ∧ only (.watch d a b fa fb) [d] ∧ only (.watchT d a b fa fb e) [d] ∧
      (exec (.seqAdv d a b fa fb) s = .next t → OwnKept s t [d] [] [] ∧
        ∀ x, ¬s.storedTo .wr (offOf (s.gVal a)) 8 x → t.byte x = s.byte x) ∧
      timed (.pull a b fa fb e) [] ∧ timed (.pull2d d a b fa fb e) [] ∧ timed (.pullG d b fb e) [] ∧ timed (.pullAdd a b fa fb e) [] ∧
      timed (.copy a b fa fb e) [] ∧ timed (.hget a b fa fb e) [] ∧ timed (.hsend a b fa fb e) []) ∧
  (∀ (s t : State) (d a b : GNum) (fa fb : Bool) (e : ENum) (idx : BitVec 8), s.ctx.st ≠ .idle →
      let only (i : Instr) (gs : List GNum) : Prop := exec i s = .next t → OwnKept s t gs [] [] ∧ ∀ x, t.byte x = s.byte x
      let record (x : Nat) : Prop := ∃ i, (i < s.cl.par.contMax ∨ ∃ e ∈ s.cl.suspended,
        (match e with | .watch j _ _ => j | .group j _ _ => j) = i) ∧ s.recAt i 0 ≤ x ∧ x < s.recAt i 0 + 64
      let round (x : Nat) : Prop := ∃ g, s.group? idx.toNat = some g ∧ g.rword ≤ x ∧ x < g.rword + 8
      let works (i : Instr) (P : Nat → Prop) : Prop := exec i s = .next t →
        CtxKept s.ctx t.ctx [d] [] [] ∧ ∀ x, ¬record x → ¬s.queuedNext x → ¬P x → t.byte x = s.byte x
      let leaves (i : Instr) : Prop := exec i s = .next t →
        (t.ctx.g = s.ctx.g ∧ t.ctx.v = s.ctx.v ∧ t.ctx.k = s.ctx.k ∧ t.ctx.t = s.ctx.t ∧ t.ctx.e = s.ctx.e) ∧
        (∀ c, c ≠ s.cur → t.getCtx c = s.getCtx c) ∧
        ∀ x, (∀ b, s.ctx.bound = some b → ¬(s.recAt b.idx 0 ≤ x ∧ x < s.recAt b.idx 0 + 8)) → ¬s.queuedNext x → t.byte x = s.byte x
      only .yield [] ∧ only .cYield [] ∧ only .park [] ∧ only .cPark [] ∧ only (.amsg d a b fa fb e) [] ∧
      only (.gwait d idx) [d] ∧ only (.gwaitT d e idx) [d] ∧
      works (.spawn d a b fa fb e) (fun _ => False) ∧ works (.garrive d idx) round ∧ works (.gsync d idx) round ∧
      leaves .exit ∧ leaves .cExit)

/-- R246, R308, R309: `srd` gives the value of every register; `swr` writes those that can be written. A number at or above
0x8000 is refused below S level with trap 0x03, and one that names no register, or, to `swr`, one that is read-only, with
trap 0x01. CSTAT shows a context ISSUED whose last instruction is still executing (R187); when it ends is free (log 3).
R144, R267: `calrd` of an item: the head, the guard and slot lengths with what is left of the slot, the peer words of each
slot and the queue words of each chip; every other item is 0. LEFT is 0 without lock; with it LEFT is free, but it never
rises within a slot and never contradicts GUARD (log 3). -/
def Obligations.SpecialRegisters : Prop :=
  (∀ (s : State) (d : GNum) (num : BitVec 16), s.gOk d →
      let v := s.gVal d
      let u := s.reads [d]
      let x := s.ctx
      let k := s.core
      let y := s.getCtx (ctxOf (coreOf s.cur) k.csel)
      let gives (n : BitVec 16) (w : Word) : Prop := exec (.srd d n) s = .next (s.putG 4 d w)
      let puts (n : BitVec 16) (t : State) : Prop := exec (.swr d n) s = .next (t.finish 4)
      let own (f : Core → Core) : State := u.updCore (coreOf s.cur) f
      let named (f : Ctx → Ctx) : State :=
        if k.csel ≠ 0 ∧ (y.st = .stopped ∨ y.st = .faulted) then u.updCtx (ctxOf (coreOf s.cur) k.csel) f else u
      let even (v : Word) : BitVec 48 := v.setWidth 48 &&& ~~~1
      (s.sup = false → 0x8000 ≤ num.toNat → exec (.srd d num) s = .next (s.trap 0x03) ∧ exec (.swr d num) s = .next (s.trap 0x03)) ∧
      (gives 0x0000 (BitVec.ofNat 64 x.clk) ∧ gives 0x0001 (x.drawn.setWidth 64) ∧
        gives 0x0002 (BitVec.ofNat 64 (match x.bound with | some b => b.idx | none => 0xFFFF)) ∧
        gives 0x0003 x.expb ∧ gives 0x0004 x.rcvb ∧ gives 0x0005 (BitVec.ofNat 64 s.mod.cycles)) ∧
      (puts 0x0001 (u.upd fun x => { x with drawn := v.setWidth 48 })) ∧
      (s.sup = true →
        gives 0x8001 (k.sepc.setWidth 64) ∧ gives 0x8002 (k.srep.setWidth 64) ∧ gives 0x8003 (k.tvec.setWidth 64) ∧
        gives 0x8000 (BitVec.ofBool k.hnd ++ BitVec.ofBool k.tmask ++ (0 : BitVec 62)) ∧ gives 0x8006 (BitVec.ofNat 64 k.csel.val) ∧
        gives 0x8007 (y.pc.setWidth 64) ∧ gives 0x8008 k.trec[0] ∧ gives 0x8009 k.trec[1] ∧ gives 0x800A k.trec[2] ∧
        gives 0x800B k.trec[3] ∧ gives 0x800C (y.repidx.setWidth 64) ∧ gives 0x8012 0 ∧ gives 0x8015 k.screat ∧
        (∃ (z : State) (w : Word), (∀ c, (z.getCtx c).lag = true → (s.getCtx c).lag = true) ∧
          (∀ c, { z.getCtx c with lag := false } = { s.getCtx c with lag := false }) ∧ exec (.srd d 0x8004) s = .next (z.putG 4 d w) ∧
          bits w 48 16 = 0 ∧ ∀ c : Fin 16, let y := z.getCtx (ctxOf (coreOf s.cur) c)
            bits w (3 * c.val) 3 = match y.st with
              | .idle => 0 | .ready => if y.lag then 2 else 1 | .issued => 2 | .blocked => 3 | .faulted => 4 | .stopped => 5) ∧
        gives 0x8005 (BitVec.ofBool k.fatq.isSome ++ (0 : BitVec 55) ++
          BitVec.ofNat 4 (k.tq.filter fun r => r.hold ≠ .none && r.waiting.isSome).length ++
          BitVec.ofNat 4 (k.tq.filter fun r => r.hold = .none).length) ∧
        gives 0x800D (BitVec.ofBool y.retry.v ++ BitVec.ofBool y.retry.arm ++ BitVec.ofBool y.retry.sent ++ BitVec.ofBool y.retry.done ++
          (0 : BitVec 5) ++ y.retry.func ++ y.retry.pc) ∧
        (∃ w : Word, gives 0x8010 w ∧ bits w 16 48 = 0 ∧ ∀ i : Fin 8, bits w i.val 1 = (if k.tcc[i].isSome then 1 else 0) ∧
          bits w (8 + i.val) 1 = (match k.tcc[i] with | some e => if e.dirty then 1 else 0 | none => 0)) ∧
        (∀ p, s.mod.parts.find? (fun p => s.cl.part = some p.id) = some p → gives 0x8011 (BitVec.ofNat 64 p.savectr)) ∧
        ((num = 0x800E ∨ num = 0x800F ∨ 0x8015 < num.toNat) → exec (.srd d num) s = .next (s.trap 0x01)) ∧
        gives 0x8013 (BitVec.ofNat 64 s.cl.par.prlock.toNat) ∧ gives 0x8014 (BitVec.ofNat 64 (s.cl.par.dumpOff + 0x22000 * (coreOf s.cur).val)) ∧
        puts 0x8000 (own fun k => { k with tmask := v.getLsbD 62 }) ∧ puts 0x8001 (own fun k => { k with sepc := even v }) ∧
        puts 0x8002 (own fun k => { k with srep := v.setWidth 6 }) ∧ puts 0x8003 (own fun k => { k with tvec := even v }) ∧
        puts 0x8006 (own fun k => { k with csel := Fin.ofNat 16 v.toNat }) ∧ puts 0x8007 (named fun y => { y with pc := even v }) ∧
        puts 0x800C (named fun y => { y with repidx := v.setWidth 6 }) ∧ puts 0x8015 (own fun k => { k with screat := v &&& 0xFFF00000FFFFFFFF }) ∧
        (v.getLsbD 0 = false → puts 0x8012 u) ∧
        (∀ id, v.getLsbD 0 = true → s.cl.part = some id → puts 0x8012 (u.updPart id fun p => { p with savectr := p.savectr + 1 })) ∧
        (num ∈ ([0x8004, 0x8005, 0x8008, 0x8009, 0x800A, 0x800B, 0x800D, 0x800E, 0x800F, 0x8010, 0x8011, 0x8013, 0x8014] : List (BitVec 16)) ∨
          0x8015 < num.toNat → exec (.swr d num) s = .next (u.trap 0x01))) ∧
      (0x0005 < num.toNat → num.toNat < 0x8000 →
        exec (.srd d num) s = .next (s.trap 0x01) ∧ exec (.swr d num) s = .next (u.trap 0x01)) ∧
      (num = 0x0000 ∨ num = 0x0002 ∨ num = 0x0003 ∨ num = 0x0004 ∨ num = 0x0005 → exec (.swr d num) s = .next (u.trap 0x01))) ∧
  (∀ (s : State) (d : GNum) (item : BitVec 10), s.mod.cal.nslot ≤ 128 →
      let c := s.mod.cal
      let left := s.readLeft.1
      let u := s.readLeft.2
      let least := if c.guard then c.slotlen - c.guardlen else 0
      (c.sync = false → left = 0 ∧ u = s) ∧
      (c.sync = true → least ≤ left ∧ (least ≤ c.left → left ≤ c.left) ∧
        u = { s with draws := s.draws + 1, mod := { s.mod with cal := { c with left := left } } }) ∧
      (let gives (w : Word) : Prop := exec (.calrd d item) s = .next (u.putG 4 d w)
      (item.toNat = 0 → gives (BitVec.ofBool c.sync ++ BitVec.ofNat 7 s.mod.chipid.val ++ BitVec.ofNat 7 c.nslot ++ BitVec.ofNat 7 c.slot ++
        BitVec.ofBool c.guard ++ BitVec.ofNat 41 c.cycle)) ∧
      (item.toNat = 1 → gives ((0 : BitVec 16) ++ BitVec.ofNat 16 c.guardlen ++ BitVec.ofNat 16 c.slotlen ++ BitVec.ofNat 16 left)) ∧
      (∀ j h, j < c.nslot → h < 2 → item.toNat = 16 + 2 * j + h → ∃ w, gives w ∧ ∀ p, p < 8 →
        w.toNat / 2 ^ (8 * p) % 2 ^ 8 = match ((c.peers.getD j []).drop (8 * h)).getD p none with | some x => 128 + x.val | none => 0) ∧
      (∀ h : Fin 128, item.toNat = 272 + h.val → let q := s.pair h.val
        gives (BitVec.ofNat 20 q.budget ++ BitVec.ofNat 20 (min q.used 0xFFFFF) ++
          BitVec.ofNat 24 (min (q.queue.map fun m => m.flits).sum 0xFFFFFF))) ∧
      (2 ≤ item.toNat → item.toNat < 16 → gives 0) ∧ (16 + 2 * c.nslot ≤ item.toNat → item.toNat < 272 → gives 0) ∧
      (400 ≤ item.toNat → gives 0)))

/-- R164 to R167: the prefix runs repetition REPIDX of its target; where REPIDX is past CNT it is passed over whatever it is,
and otherwise an illegal target or a step of a field that may not step traps 0x02. -/
def Obligations.RepeatPrefix : Prop :=
  ∀ (s : State) (cnt : BitVec 6) (sd sa sb st : Bool) (i : Instr) (len : Nat), s.target = some (i, len) →
    let j := s.ctx.repidx.toNat
    (cnt.toNat < j → exec (.rep cnt sd sa sb st) s = .next (s.jumpTo (s.ctx.pc + BitVec.ofNat 48 (len + 2)))) ∧
    (j ≤ cnt.toNat → (stepKinds i = none → exec (.rep cnt sd sa sb st) s = .next (s.trap 0x02)) ∧
      (∀ kd ka kb, stepKinds i = some (kd, ka, kb) →
        ((sd = true ∧ kd = false) ∨ (sa = true ∧ ka = false) ∨ (sb = true ∧ kb = false) →
          exec (.rep cnt sd sa sb st) s = .next (s.trap 0x02)) ∧
        ((sd = true → kd = true) → (sa = true → ka = true) → (sb = true → kb = true) → exec (.rep cnt sd sa sb st) s =
          .next { s with rep := some ⟨cnt.toNat, j, if st then 2 else 1, sd, sa, sb, len⟩ }))) ∧
    (∀ r n, s.rep = some r → r.j < r.cnt → s.finish n =
      { s.upd (fun x => { x with repidx := BitVec.ofNat 6 (r.j + 1) }.boundary) with rep := none, target := none, taint := [] }) ∧
    (∀ r n, s.rep = some r → r.cnt ≤ r.j → s.finish n = s.jumpTo (s.ctx.pc + BitVec.ofNat 48 (r.len + 2)))

/-- R124, R270, R271, R279, R434: `tset` writes a descriptor that passes the checks and traps with the cause of the first that
fails; `tget` reads its words; `mmeta` sets the sparsity latch. A tag whose feature is not enabled traps 0x01, before the
checks of the descriptor (log 107); which of a descriptor's addresses AUX has is log 21's. R270: a descriptor that is
refused: which check fails first decides the cause. -/
def Obligations.TileRegisters : Prop :=
  (∀ (s : State) (d a b : GNum) (fa fb : Bool) (r : TNum), s.gOk a → s.gOk b →
      let w := s.gVal b ++ s.gVal a
      let u := s.reads [a, b]
      let m := s.gVal a
      (s.tileDisabled w = true → exec (.tset a b fa fb r) s = .next (u.trap 0x01)) ∧
      (s.tileDisabled w = false → tileFault w = none → exec (.tset a b fa fb r) s =
        .next ((u.upd fun x => { x.mend (3 * r.val + 1) with t := x.t.set r w, tu := x.tu.set r u.taint }).finish 4)) ∧
      (∀ c x, s.tileDisabled w = false → tileFault w = some (c, x) → exec (.tset a b fa fb r) s = .next (u.trapAux c 0 (BitVec.ofNat 64 x) 0)) ∧
      exec (.tgetW0 d r) s = .next ({ s.touch (3 * r.val + 1) with taint := s.taint ++ s.ctx.tu[r] }.putG 4 d (s.ctx.t[r].setWidth 64)) ∧
      exec (.tgetW1 d r) s = .next ({ s.touch (3 * r.val + 1) with taint := s.taint ++ s.ctx.tu[r] }.putG 4 d ((s.ctx.t[r] >>> 64).setWidth 64)) ∧
      (bits m 0 56 = 0 → bits m 59 5 = 0 → bits m 56 3 ≠ 0 → tileFault s.ctx.t[r] = none →
        (tileOf s.ctx.t[r]).tag = .n8 →
        s.tileDisabled s.ctx.t[r] = false → (∀ p ∈ (tileOf s.ctx.t[r]).spans, s.spadAllowed s.sup .rd p.1 p.2 = true) →
        exec (.mmeta a fa r) s = .next ((((s.reads [a]).taintT r).upd fun x =>
          { x with spl := ⟨x.t[r], true, (m >>> 56).setWidth 3⟩ }).finish 4)) ∧
      (bits m 0 56 ≠ 0 ∨ bits m 59 5 ≠ 0 ∨ bits m 56 3 = 0 → exec (.mmeta a fa r) s = .next ((s.reads [a]).trap 0x15))) ∧
  (∀ (w : TWord) (c : BitVec 8) (x : Nat), tileFault w = some (c, x) →
      let w0 : Word := w.setWidth 64
      let w1 : Word := (w >>> 64).setWidth 64
      (c = 0x06 ∨ c = 0x07 ∨ c = 0x15) ∧
      (bits w1 23 40 ≠ 0 → c = 0x15 ∧ x = 0) ∧
      (bits w1 23 40 = 0 → tagOfCode (bits w0 59 5) = none → c = 0x06) ∧
      (c = 0x06 → tagOfCode (bits w0 59 5) = none) ∧
      (c = 0x07 → x = bits w0 0 23 ∨ x = bits w1 0 23))

/-- R272 to R274, R280 to R286, R434: a direct matrix instruction that passes its checks is sent: its job joins the queue of at
most 16, the context is ISSUED and its PC stays until the engine ends the job. A full queue BLOCKS it with nothing sent. A
tag, or rounding mode SR, whose feature is not enabled traps 0x01. The order of the checks of a load and of a pass is the
model's (logs 107, 108). -/
def Obligations.DirectMatrix : Prop :=
  ∀ (s : State) (a b : GNum) (fa fb : Bool) (r : TNum), s.gOk a → s.gOk b → s.allChecked →
    let w := s.ctx.t[r]
    let W := s.gVal a
    let f := bits (s.gVal b) 0 32
    let sent (u : State) (kind : MatKind) (tile : TWord) (word : Word) (factor : Nat) (sp : SparsityLatch) (g : Ctx → Ctx) : State :=
      let j : MatJob := ⟨kind, tile, word, factor, sp, s.sup, s.ctx.clk, s.ctx.lcore, BitVec.ofNat 4 (s.leaderNum s.cur).val, s.ctx.drawn⟩
      if 16 ≤ s.eng.queue.length then u.block .directSlot
      else (((u.updEng fun e => { e with queue := e.queue ++ [⟨j, s.cur, s.rep⟩] }).markAtomic).upd g).postOnce .directEntryStart
    let allowed (p : Perm) (l : List (Nat × Nat)) : Prop := ∀ x ∈ l, s.spadAllowed s.sup p x.1 x.2 = true
    let reads (kind : MatKind) (word : Word) (sp : SparsityLatch) : List (Nat × Nat) := (⟨kind, w, word, 0, sp, s.sup, 0, 0, 0, 0⟩ : MatJob).reads
    let on : Prop := s.tileDisabled w = false
    let load (tr : Bool) (i : Instr) : Prop := on → loadFault w tr s.ctx.spl = none → allowed .rd (reads (.load tr) 0 s.ctx.spl) →
      exec i s = .next (sent (s.taintT r) (.load tr) w 0 0 s.ctx.spl fun x => { x with spl := SparsityLatch.reset })
    load false (.mld r) ∧ load true (.mldt r) ∧
    exec .mswap s = .next (sent s .swap 0 0 0 SparsityLatch.reset id) ∧
    (on → bits W 7 55 = 0 → passFault w W = none → allowed .rd (reads .pass W SparsityLatch.reset) →
      exec (.mstream a fa r) s = .next (sent ((s.reads [a]).taintT r) .pass w W 0 SparsityLatch.reset id)) ∧
    (bits W 7 1 = 0 → bits W 15 49 = 0 → bits W 0 7 + bits W 8 7 < 128 →
      exec (.mzero a fa) s = .next (sent (s.reads [a]) .zero 0 W 0 SparsityLatch.reset id)) ∧
    (on → s.srDisabled W = false → cvtReserved W = false → cvtFault w W = none → (bits W 20 1 = 1 → 0 < f ∧ f < 0x7F800000) → allowed .wr (tileOf w).spans →
      exec (.mcvt a b fa fb r) s = .next (sent ((s.reads [a, b]).taintT r) .convert w W f SparsityLatch.reset fun x =>
        if bits W 16 3 = 4 then { x with drawn := x.drawn + BitVec.ofNat 48 ((tileOf w).rows * (tileOf w).cols) } else x)) ∧
    (s.tileDisabled w = true → exec (.mld r) s = .next ((s.taintT r).trap 0x01) ∧ exec (.mldt r) s = .next ((s.taintT r).trap 0x01) ∧
      (bits W 7 55 = 0 → exec (.mstream a fa r) s = .next (((s.reads [a]).taintT r).trap 0x01)) ∧
      (cvtReserved W = false → exec (.mcvt a b fa fb r) s = .next (((s.reads [a, b]).taintT r).trap 0x01))) ∧
    (on → cvtReserved W = false → cvtFault w W = none → s.srDisabled W = true →
      exec (.mcvt a b fa fb r) s = .next (((s.reads [a, b]).taintT r).trap 0x01)) ∧
    (∀ c x, on → loadFault w false s.ctx.spl = some (c, x) → exec (.mld r) s = .next ((s.taintT r).trapAux c 0 (BitVec.ofNat 64 x) 0)) ∧
    (∀ c x, on → bits W 7 55 = 0 → passFault w W = some (c, x) →
      exec (.mstream a fa r) s = .next (((s.reads [a]).taintT r).trapAux c 0 (BitVec.ofNat 64 x) 0)) ∧
    (on → s.srDisabled W = false → cvtReserved W = false → cvtFault w W = none → bits W 20 1 = 1 → ¬(0 < f ∧ f < 0x7F800000) →
      exec (.mcvt a b fa fb r) s = .next (((s.reads [a, b]).taintT r).trap 0x0D))

/-- R136, R289, R434: `mtask` accepts a valid record in one step, numbered on its timeline, with at most 256 records live; one
that uses a feature that is not enabled traps 0x01 (the place of that check is log 107's), an invalid one 0x15, a number
below HIGH 0x14. -/
def Obligations.TaskSubmission : Prop :=
  ∀ (s : State) (a : GNum) (fa : Bool), s.gOk a → s.allChecked →
    let A := s.gVal a
    let o := offOf A
    let u := s.reads [a]
    let idx := o / 128
    let tl : TLNum := Fin.ofNat 4 (bits (s.taskWord idx 0) 50 2)
    let n := (s.taskWord idx 1).toNat
    (ownForm s.me A = false ∨ inSpad o 1 = false → exec (.mtask a fa) s = .next (u.trapAux 0x08 0 A 0)) ∧
    (ownForm s.me A = true → inSpad o 1 = true →
      (o % 128 ≠ 0 → exec (.mtask a fa) s = .next (u.trapAux 0x07 0 A 0)) ∧
      (o % 128 = 0 → (s.taskDisabled idx = true → exec (.mtask a fa) s = .next (u.trap 0x01)) ∧
        (s.taskDisabled idx = false → s.taskValid idx = false → exec (.mtask a fa) s = .next (u.trap 0x15)) ∧
        (s.taskDisabled idx = false → s.taskValid idx = true →
          (256 ≤ s.eng.tasks.length → exec (.mtask a fa) s = .next (u.block .taskSlot)) ∧
          (s.eng.tasks.length < 256 → (n = 0 ∨ n < s.ctx.tl[tl].high → exec (.mtask a fa) s = .next (u.trap 0x14)) ∧
            (0 < n → s.ctx.tl[tl].high ≤ n → exec (.mtask a fa) s = .next (u.acceptTask idx tl n))))))

/-- R185, R190, R273: what these instructions leave unchanged: `srd`, `calrd` and `tget` no register but d (`srd` of CSTAT may
find the last instructions of the core's contexts ended: log 3); `swr` no general, vector or mask register, and nothing of
another context but PC and REPIDX of the one that CSEL names; `tset` none but tN, `mmeta` and the loads none but the
sparsity latch; the direct instructions change no byte of memory when they are sent. R321 to R331: a system instruction
other than `tret` and `creap` changes no register of its own context but d, `tret` that reaps nothing none at all; none of
them but `cflush` and a `ctxsv` that has to evict, which write entries back, changes a byte of memory. -/
def Obligations.SystemFrame : Prop :=
  (∀ (s t : State) (d a b : GNum) (fa fb : Bool) (r : TNum) (num : BitVec 16) (item : BitVec 10),
      let bytes : Prop := ∀ x, t.byte x = s.byte x
      let only (i : Instr) (gs : List GNum) : Prop := exec i s = .next t → OwnKept s t gs [] [] ∧ bytes
      let latch (i : Instr) : Prop := exec i s = .next t → (∃ l, OwnKept (s.upd fun x => { x with spl := l }) t [] [] []) ∧ bytes
      (exec (.srd d num) s = .next t → (OwnKept s t [d] [] [] ∨ num = 0x8004 ∧ OwnKept (s.settleLags (coreOf s.cur)) t [d] [] []) ∧ bytes) ∧
      (exec (.swr d num) s = .next t → CtxKept s.ctx t.ctx [] [] [] ∧ bytes ∧
        ∀ c, c ≠ s.cur → { t.getCtx c with pc := 0, repidx := 0 } = { s.getCtx c with pc := 0, repidx := 0 } ∧
          (t.getCtx c = s.getCtx c ∨ c = ctxOf (coreOf s.cur) s.core.csel)) ∧
      only (.calrd d item) [d] ∧ only (.tgetW0 d r) [d] ∧ only (.tgetW1 d r) [d] ∧
      (exec (.tset a b fa fb r) s = .next t →
        (∃ w l, OwnKept (s.upd fun x => { x with t := x.t.set r w, tu := x.tu.set r l }) t [] [] []) ∧ bytes) ∧
      latch (.mmeta a fa r) ∧ latch (.mld r) ∧ latch (.mldt r) ∧ only .mswap [] ∧ only (.mstream a fa r) [] ∧ only (.mzero a fa) [] ∧
      only (.mcvt a b fa fb r) []) ∧
  (∀ (s t : State) (d a b : GNum) (fa fb : Bool),
      let quiet (i : Instr) : Prop := exec i s = .next t → CtxKept s.ctx t.ctx [d] [] [] ∧ ∀ x, t.byte x = s.byte x
      let own (i : Instr) : Prop := exec i s = .next t → OwnKept s t [d] [] [] ∧ ∀ x, t.byte x = s.byte x
      quiet (.cstart d a fa) ∧ quiet (.cstop d a fa) ∧ quiet (.rlarm d a fa) ∧ own (.prset d a b fa fb) ∧ own (.tinv d a b fa fb) ∧
      own (.cinval d a b fa fb) ∧ own (.polld d a b fa fb) ∧ own (.polsw d a fa) ∧
      quiet (.ctxld d a b fa fb) ∧
      (exec (.ctxsv d a b fa fb) s = .next t → CtxKept s.ctx t.ctx [d] [] [] ∧
        ((∀ x, t.byte x = s.byte x) ∨ s.tccFind (s.gVal b) = none ∧ ∀ i, i < 8 → s.tcc.getD i none ≠ none)) ∧
      (exec (.cflush d a b fa fb) s = .next t → OwnKept s t [d] [] []) ∧
      (exec (.tret a fa) s = .next t → s.sup = true → s.gOk a → (s.gVal a).toNat % 4 ≠ 2 →
        t.ctx.g = s.ctx.g ∧ t.ctx.v = s.ctx.v ∧ t.ctx.k = s.ctx.k ∧ ∀ x, t.byte x = s.byte x))

/-- R306, R174: below S level every system instruction, and `srd` and `swr` of a number from 0x8000 on, raises trap 0x03 with
nothing performed, whatever its sources hold; a store to scratchpad that only S level may write raises 0x09. (Of a page,
R306 names 0x09 too; the model follows R358 there, log 38.) -/
def Obligations.Privilege : Prop :=
  ∀ (s : State) (d a b : GNum) (fa fb : Bool) (num : BitVec 16) (off : BitVec 10), s.sup = false →
    let no (i : Instr) : Prop := exec i s = .next (s.trap 0x03)
    no (.tret a fa) ∧ no (.cstart d a fa) ∧ no (.cstop d a fa) ∧ no (.creap d a b fa fb) ∧ no (.ctxsv d a b fa fb) ∧
    no (.ctxld d a b fa fb) ∧ no (.rlarm d a fa) ∧ no (.prset d a b fa fb) ∧ no (.tinv d a b fa fb) ∧ no (.cflush d a b fa fb) ∧
    no (.cinval d a b fa fb) ∧ no (.polld d a b fa fb) ∧ no (.polsw d a fa) ∧
    (0x8000 ≤ num.toNat → no (.srd d num) ∧ no (.swr d num)) ∧
    (s.gOk a → s.gOk d → s.allChecked →
      let ea := s.gVal a + off.signExtend 64 * 8 + s.bump 8
      ownForm s.me ea = true → ea.toNat % 8 = 0 → inSpad (offOf ea) 8 = true → s.spadAllowed false .wr (offOf ea) 8 = false →
      exec (.stI64 d a fa off) s = .next ((s.reads [a, d]).trapAux 0x09 0 ea 0))

/-- R321 to R324, R327: the result codes and effects of `cstart`, `cstop`, `creap` and `rlarm` on the context named. A `cstop`
that has waited answers DONE where its stop has taken effect, whatever has become of the context since. That a context whose
participant is revoked is neither started nor reaped, with the code STATE, is the model's (log 97). R322: `tret` outside a
handler traps 0x01; in one it sets PC and REPIDX from SEPC and SREP and clears HND, after the faulted context has been
resumed, stopped, reaped or left. -/
def Obligations.ContextControl : Prop :=
  (∀ (s : State) (d a b : GNum) (fa fb : Bool), s.sup = true → s.gOk a → s.gOk b →
      let u := s.reads [a]
      let c := ctxOf (coreOf s.cur) (Fin.ofNat 16 (s.gVal a).toNat)
      let x := s.getCtx c
      let code (i : Instr) (v : Word) : Prop := exec i s = .next (u.putG 4 d v)
      (s.badCtx c = true → code (.cstart d a fa) 2 ∧ code (.cstop d a fa) 2 ∧ code (.rlarm d a fa) 2 ∧
        exec (.creap d a b fa fb) s = .next ((s.reads [a, b]).putG 4 d 2)) ∧
      (s.badCtx c = false →
        (x.st = .stopped → s.isRevoked c = false → exec (.cstart d a fa) s = .next (((u.updCl fun l => { l with preempting := l.preempting.filter (· ≠ c) }).updCtx c
          fun x => { x with st := .ready }).putG 4 d 0)) ∧
        (x.st ≠ .stopped ∨ s.isRevoked c = true → code (.cstart d a fa) 1) ∧
        (s.ctx.begun = false →
          (x.st = .ready → exec (.cstop d a fa) s =
            .next ((u.updCtx c fun x => { x with st := .stopped, stopReq := none }).putG 4 d 0)) ∧
          (x.st = .issued → exec (.cstop d a fa) s = .next (((u.updCtx c fun x =>
            { x with stopReq := some .cstop, cstopped := false }).upd fun x => { x with begun := true }).block (.stopOf c))) ∧
          (x.st = .blocked → x.susp = none → s.agenda.contains (.twinRestart c) = false → exec (.cstop d a fa) s =
            .next (((u.abandonWait c).updCtx c fun x => { x with st := .stopped, stopReq := none }).putG 4 d 0)) ∧
          (x.st = .idle ∨ x.st = .faulted ∨ x.st = .stopped → code (.cstop d a fa) 1)) ∧
        (s.ctx.begun = true → code (.cstop d a fa) (if x.cstopped then 0 else 1)) ∧
        ((x.st = .stopped ∨ x.st = .faulted) → x.retry.v = true → x.retry.arm = false → exec (.rlarm d a fa) s =
          .next ((u.updCtx c fun x => { x with retry := { x.retry with arm := true } }).putG 4 d 0)) ∧
        (¬((x.st = .stopped ∨ x.st = .faulted) ∧ x.retry.v = true ∧ x.retry.arm = false) → code (.rlarm d a fa) 1) ∧
        (s.atRest c = true → let t := (s.reads [a, b]).cancelTasks c
          (t.opsDone c = true → exec (.creap d a b fa fb) s = .next ((t.release c (decide ((s.gVal b).toNat % 2 = 1))).putG 4 d 0)) ∧
          (t.opsDone c = false → exec (.creap d a b fa fb) s = .next (t.block (.opsOf c)))) ∧
        (s.atRest c = false → exec (.creap d a b fa fb) s = .next ((s.reads [a, b]).putG 4 d 1)))) ∧
  (∀ (s : State) (a : GNum) (fa : Bool), s.sup = true → s.gOk a →
      let u := s.reads [a]
      let A := (s.gVal a).toNat
      let c := ctxOf (coreOf s.cur) (Fin.ofNat 16 (bits s.core.trec[0] 52 4))
      let back (u : State) : State :=
        let t := u.updCore (coreOf s.cur) fun k => { k with hnd := false }
        { t.upd fun x => { x with pc := u.core.sepc, repidx := u.core.srep }.boundary with rep := none, target := none, taint := [] }
      let past (k : State → State) : State := if A / 4 % 2 = 1 then u.stepPast c k else k u
      (s.core.hnd = false → exec (.tret a fa) s = .next (u.trap 0x01)) ∧
      (s.core.hnd = true →
        ((s.getCtx c).st ≠ .faulted ∨ s.hasRecord c = true → exec (.tret a fa) s = .next (back u)) ∧
        ((s.getCtx c).st = .faulted → s.hasRecord c = false →
          (A % 4 = 0 → exec (.tret a fa) s = .next (past fun u => back (u.updCtx c fun x => { x with st := .ready }))) ∧
          (A % 4 = 1 → exec (.tret a fa) s = .next (past fun u => back (u.updCtx c fun x => { x with st := .stopped }))) ∧
          (A % 4 = 3 → exec (.tret a fa) s = .next (past back)) ∧
          (A % 4 = 2 → (u.cancelTasks c).opsDone c = true →
            exec (.tret a fa) s = .next (back ((u.cancelTasks c).release c (decide (A / 8 % 2 = 1))))))))

/-- R325, R326, R316, R19: `ctxsv` puts the context's image into a thread-context cache entry and leaves the context IDLE with
its record BOUND; `ctxld` restores the image of an entry, and binds its record, or answers the code of the check that fails.
The marks that an image does not hold stay with the record, and are free where the model holds none (log 45). -/
def Obligations.ContextImages : Prop :=
  ∀ (s t : State) (d a b : GNum) (fa fb : Bool) (parts : List (Nat × Nat × Nat)), s.sup = true → s.gOk a → s.gOk b →
    let u := s.reads [a, b]
    let c := ctxOf (coreOf s.cur) (Fin.ofNat 16 (s.gVal a).toNat)
    let H := s.gVal b
    let x := s.getCtx c
    let core := coreOf s.cur
    (s.badCtx c = true → exec (.ctxsv d a b fa fb) s = .next (u.putG 4 d 2) ∧ exec (.ctxld d a b fa fb) s = .next (u.putG 4 d 2)) ∧
    (s.badCtx c = false →
      (s.atRest c = false → exec (.ctxsv d a b fa fb) s = .next (u.putG 4 d 1)) ∧
      (x.st ≠ .idle → exec (.ctxld d a b fa fb) s = .next (u.putG 4 d 1)) ∧
      (ownForm s.me H = true → offOf H % 128 = 0 → (inSpad (offOf H) 5120 = true ∨ inHbm (offOf H) 5120 = true) →
        u.span s.agent true .wr (offOf H) 5120 = (.ok parts, t) →
        (s.atRest c = true → s.opsDone c = true → x.damaged = false → ∀ i, i < 8 →
          (s.tccFind H = some i ∨ (s.tccFind H = none ∧ s.tcc.getD i none = none ∧ ∀ j, j < i → s.tcc.getD j none ≠ none)) →
          let v := t.updCtx c fun x => { x with clk := max x.clk (max (s.opsTime c) x.copyTime) }
          exec (.ctxsv d a b fa fb) s = .next ((((v.updCore core fun k =>
            { k with tcc := k.tcc.setIfInBounds i (some ⟨v.homeOf H, v.imageOf c, true, v.tccClock⟩) }).tieRecord c).toIdle c).putG 4 d 0)) ∧
        (∀ i e, x.st = .idle → s.tccFind H = some i → s.tcc.getD i none = some e →
          (∀ n, t.imageCheck e.img false = .inl n → exec (.ctxld d a b fa fb) s = .next (t.putG 4 d (BitVec.ofNat 64 n))) ∧
          (∀ l, t.imageCheck e.img false = .inr l →
            let j := imgCrec l
            let tie := (t.tie? j).getD ⟨c, Config.freeBool t.draws, Config.freeBool (t.draws + 1), Config.freeBool (t.draws + 2)⟩
            let v := ({ t with draws := t.draws + 3 }.updCtx c fun x => { x.ofImage l tie with
              clk := max (imgNum l 0x1308 8) t.cl.cclk
              bound := some ⟨j, bits (t.recView j 0) 55 1 = 1, Fin.ofNat 64 (bits (t.recView j 0) 48 6), t.recView j 1, tie.woke⟩
              st := .stopped }).updCl fun k =>
                { k with
                  boundAt := k.boundAt.filter (fun p : Nat × Nat => decide (p.1 ≠ j)) ++ [(j, t.mod.cycles)]
                  recOld := k.recOld.filter (fun p => decide (p.1 / 8 ≠ j))
                  ties := k.ties.filter (fun p => decide (p.1 ≠ j))
                  noned := k.noned.filter (fun x => decide (x ≠ c)) }
            exec (.ctxld d a b fa fb) s = .next ((v.updCore core fun k => { k with tcc := k.tcc.setIfInBounds i none }).putG 4 d 0)))) ∧
      (ownForm s.me H = false ∨ offOf H % 128 ≠ 0 ∨ (inSpad (offOf H) 5120 = false ∧ inHbm (offOf H) 5120 = false) →
        (s.atRest c = true → exec (.ctxsv d a b fa fb) s = .next (u.putG 4 d 3)) ∧
        (x.st = .idle → exec (.ctxld d a b fa fb) s = .next (u.putG 4 d 3))))

/-- R328 to R331, R316: `prset` writes a region or gives the code of the check that fails; `tinv` drops the translations in its
scope and waits for every agent; `cflush` writes back the DIRTY entry whose home is named, or every DIRTY entry, each to its
home word by word; `cinval` drops cached parcels, remote lines and entries; `polld` loads a program that keeps the load
rules, `polsw` asks for the swap. When `prset` waits for the matrix engine (log 51) and which check of `tinv` comes first
(log 52) are the model's. -/
def Obligations.Maintenance : Prop :=
  ∀ (s : State) (d a b : GNum) (fa fb : Bool), s.sup = true → s.gOk a → s.gOk b →
    let u := s.reads [a, b]
    let A := s.gVal a
    let B := s.gVal b
    let code (i : Instr) (v : Word) : Prop := exec i s = .next (u.putG 4 d v)
    let i := A.toNat % 16
    let bad := bits B 47 9 ≠ 0 ∨ bits B 15 17 ≠ 0 ∨ (bits B 63 1 = 1 ∧ bits B 32 15 < bits B 0 15)
    let o := offOf A
    let n := B.toNat
    let core := coreOf s.cur
    let flushed (x : State) (j : Nat) : Option State :=
      match x.tcc.getD j none with
      | none => some x
      | some e =>
        let h := offOf e.home
        if e.dirty = false then some x
        else if ownForm x.me e.home = false ∨ h % 128 ≠ 0 ∨ (inSpad h 5120 = false ∧ inHbm h 5120 = false) then none
        else match x.span x.agent true .wr h 5120 with
          | (.ok parts, y) =>
            let k := coreOf y.cur
            let z := y.updCore k fun k => { k with nseq := k.nseq + 1 }
            (z.putParts' z.ctx.clk h (y.sealed k y.core.nseq e.img) parts).map fun r =>
              ((r.2.setClk r.1).setTcc j (some { e with dirty := false })).updCl fun c =>
                { c with wb := c.wb.filter (fun w => !(w.1 = k && w.2.1 = h)) ++ [(k, h, y.partBytes parts)] }
          | _ => none
    (s.cl.par.prlock.toNat / 2 ^ i % 2 = 1 → code (.prset d a b fa fb) 7) ∧
    (s.cl.par.prlock.toNat / 2 ^ i % 2 = 0 → (bad → code (.prset d a b fa fb) 6) ∧
      (¬bad → (s.eng.idle = true → exec (.prset d a b fa fb) s =
          .next ((u.updCl fun c => { c with regions := c.regions.setIfInBounds i B }).putG 4 d 0)) ∧
        (s.eng.idle = false → exec (.prset d a b fa fb) s = .next (u.block .engineIdle)))) ∧
    (B.toNat % 4 = 3 → code (.tinv d a b fa fb) 6) ∧
    (B.toNat % 4 ≠ 3 → (ownForm s.me A = false → code (.tinv d a b fa fb) 3) ∧
      (ownForm s.me A = true → (s.ctx.begun = true → code (.tinv d a b fa fb) 0) ∧
        (s.ctx.begun = false → ∃ t, exec (.tinv d a b fa fb) s = .next t ∧ t.ctx.st = .blocked ∧ t.ctx.wait = some .tinv ∧
          t.cl.tinvWait = s.cl.tinvWait ++ tinvAgents.map (fun g => (s.cur, g)) ∧ t.mem.cells = s.mem.cells ∧
          (∀ e ∈ t.mem.tlb, e ∈ s.mem.tlb) ∧ (B.toNat % 4 = 2 → t.mem.tlb = [])))) ∧
    (B.toNat % 8 = 0 → s.tccFind A = none → code (.cflush d a b fa fb) 0) ∧
    (∀ j t, B.toNat % 8 = 0 → s.tccFind A = some j → flushed u j = some t → exec (.cflush d a b fa fb) s = .next (t.putG 4 d 0)) ∧
    (∀ t, B.toNat % 8 = 1 → (List.range 8).foldlM flushed u = some t → exec (.cflush d a b fa fb) s = .next (t.putG 4 d 0)) ∧
    (1 < B.toNat % 8 → code (.cflush d a b fa fb) 6) ∧
    (B.toNat % 8 = 0 → ownForm s.me A = true → inSpad (o / 128 * 128) 128 = true → exec (.cinval d a b fa fb) s =
      .next ((u.updMem fun m => { m with stale := m.stale.filter fun x =>
        !(decide (x.2.2 = coreOf s.cur) && (decide (o / 128 * 128 ≤ x.1) && decide (x.1 < o / 128 * 128 + 128))) }).putG 4 d 0)) ∧
    (B.toNat % 8 = 0 → exec (.cinval d a b fa fb) s = .next ((u.updMem fun m => { m with stale := m.stale.filter fun x =>
      !(decide (x.2.2 = core) && (u.spanKeys A).any fun key => decide (key ≤ x.1) && decide (x.1 < key + 128)) }).putG 4 d 0)) ∧
    (B.toNat % 8 = 1 → exec (.cinval d a b fa fb) s =
      .next ((u.updMem fun m => { m with stale := m.stale.filter fun x => decide (x.2.2 ≠ core) }).putG 4 d 0)) ∧
    (B.toNat % 8 = 3 → (s.tccFind A = none → code (.cinval d a b fa fb) 0) ∧ ∀ j, s.tccFind A = some j →
      exec (.cinval d a b fa fb) s = .next ((u.updCore core fun k => { k with tcc := k.tcc.setIfInBounds j none }).putG 4 d 0)) ∧
    (B.toNat % 8 = 2 → exec (.cinval d a b fa fb) s = .next (((u.updCore (coreOf s.cur) fun k => { k with l1 := [] }).updCl
      fun c => { c with heldLine := c.heldLine.filter fun p => p.2.1 ≠ coreOf s.cur }).putG 4 d 0)) ∧
    (B.toNat % 8 = 4 → exec (.cinval d a b fa fb) s =
      .next ((u.updCore (coreOf s.cur) fun k => { k with tcc := Vector.replicate 8 none }).putG 4 d 0)) ∧
    (4 < B.toNat % 8 → code (.cinval d a b fa fb) 6) ∧
    (n = 0 ∨ 256 < n → code (.polld d a b fa fb) 6) ∧
    (0 < n → n ≤ 256 → (ownForm s.me A = false ∨ o % 2 ≠ 0 ∨ inSpad o (2 * n) = false ∨ s.spadAllowed true .rd o (2 * n) = false →
      code (.polld d a b fa fb) 3) ∧
      (∀ t, ownForm s.me A = true → o % 2 = 0 → inSpad o (2 * n) = true → s.spadAllowed true .rd o (2 * n) = true →
        s.badWord o (2 * n) = false →
        (granulesOf o (2 * n)).foldlM (fun (x : State) g =>
          let T := max (x.ctx.clk + 1) (x.wts (granule (128 * g)))
          if T < clockLimit then some ((x.stampRead (granule (128 * g)) T).setClk T) else none) u = some t →
        exec (.polld d a b fa fb) s = .next (if policyOk (s.progAt o n) then
          (t.updPol fun p => { p with shadow := some (s.progAt o n) }).putG 4 d 0 else t.putG 4 d 6))) ∧
    (s.ctx.begun = true → exec (.polsw d a fa) s = .next ((s.reads [a]).putG 4 d 0)) ∧
    (s.ctx.begun = false → (s.cl.policy.shadow = none ∨ s.cl.policy.swapKeep ≠ none → exec (.polsw d a fa) s =
        .next ((s.reads [a]).putG 4 d 1)) ∧
      (s.cl.policy.shadow ≠ none → s.cl.policy.swapKeep = none → exec (.polsw d a fa) s = .next (((((s.reads [a]).updPol
        fun p => { p with swapKeep := some (A.getLsbD 0) }).postOnce .policySwap).upd fun x => { x with begun := true }).block .policySwap)))

/-- R21, R23, R334 to R337, R344 to R349: a hold window that ends begins the suspension, which writes the record; a decision
binds, preempts, or settles a fault as the policy's outcome says, and the built-in choice stands where the policy gives
none. -/
def Obligations.Decisions : Prop :=
  ∀ (s : State) (c : CtxId),
    (∀ (r : BitVec 4), (s.getCtx c).bound ≠ none → (s.getCtx c).st = .blocked → (s.getCtx c).susp = none → s.formMet c = false →
      ((∃ tag d, (s.getCtx c).wait = some (.watch tag d) ∧ r = 1) ∨
        (∃ g n, (s.getCtx c).wait = some (.group g n) ∧ r = if (s.getCtx c).arrived.isSome then 3 else 2)) →
      let u := s.updCtx c fun x => { x with susp := some (.waiting r) }
      exec (.holdWindowEnd c) s = .next (if u.opsDone c then u.post (.suspension c) else u)) ∧
    (∀ p b, (s.getCtx c).bound = some b → (s.getCtx c).susp = some p → s.opsDone c = true → s.cl.revoked.contains b.ptag.val = false →
      let bad := (List.range 6).any fun r => (s.getCtx c).g[r + 1]?.any (·.bad)
      (s.formMet c = false → bad = true → exec (.suspension c) s = .next (s.trapAt c 0x1F 0 0 0 .none)) ∧
      (s.formMet c = true → ∀ w, p = .waiting w → exec (.suspension c) s = .next (s.updCtx c fun x => { x with susp := none })) ∧
      (bad = false →
        (∀ pc, p = .yield pc → exec (.suspension c) s =
          .next (((((s.saveRecord c b pc 0).enqueue b.idx false).offerIdle b.idx).toIdle c).offerPreempt b.idx)) ∧
        (∀ pc, p = .park pc → exec (.suspension c) s = .next ((s.saveRecord c b pc 4).toIdle c)) ∧
        (∀ w, p = .waiting w → s.formMet c = false →
          exec (.suspension c) s = .next (((s.saveRecord c b (s.getCtx c).pc w).updCl fun cl =>
            { cl with suspended := cl.suspended ++ suspEvent (s.getCtx c) b.idx }).toIdle c)))) ∧
    (s.running = true → ∀ (q : QRec), s.heldRec c = some q → q.hold = .decision →
      s.decisionFirst (.faultDecision c) = true → ∀ e u, s.decide' (.fault c) = (e, u) →
      let side := (s.getCtx c).side
      (e = .fate 1 → exec (.faultDecision c) s = .next (u.beginReap c 0)) ∧
      (e = .fate 0 → side = false → exec (.faultDecision c) s = .next (u.beginReap c 2)) ∧
      (e = .fate 2 → side = false → exec (.faultDecision c) s = .next (u.beginReap c 1)) ∧
      (e = .fate 3 ∨ e = .dflt ∨ (side = true ∧ (e = .fate 0 ∨ e = .fate 2)) →
        exec (.faultDecision c) s = .next (u.updHeld c fun r => some { r with hold := .none }))) ∧
    (s.running = true → ∀ (q : QRec), s.heldRec c = some q → ∀ how, q.hold = .reap how → s.opsDone c = true →
      let u := s.updHeld c fun _ => none
      exec (.faultDecision c) s = .next (if how = 0 then u.release c true else if how = 1 then u.release c false else u.parkRelease c)) ∧
    (s.running = true → ∀ (k : CtxId), (s.getCtx k).st = .idle →
      let cands := (List.range 8).filterMap (s.candidate k)
      let starved := cands.filter fun e => decide (s.cl.par.ageMax ≤ s.mod.cycles - e.since)
      cands ≠ [] →
      exec (.dispatchReoffer k) s = .next (s.postDispatch k) ∧
      (s.decisionFirst (.dispatchDecision k) = true →
        (∀ e, oldest starved = some e → exec (.dispatchDecision k) s =
          .next ((s.updPol fun p => { p with decn := p.decn + 1 }).bindQueued k e.idx)) ∧
        (starved = [] → ∀ o u, s.decide' (.dispatch k) = (o, u) →
          (∀ n e, o = .take n → u.candidate k n = some e → exec (.dispatchDecision k) s = .next (u.bindQueued k e.idx)) ∧
          (o = .none → exec (.dispatchDecision k) s =
            .next ((u.updCl fun cl => { cl with noned := cl.noned ++ [k] }).post (.dispatchReoffer k))) ∧
          (∀ e, o = .dflt → u.builtIn cands = some e → exec (.dispatchDecision k) s = .next (u.bindQueued k e.idx))))) ∧
    (s.running = true → ∀ i, s.queued.any (fun e => e.idx = i) = true → s.idleFor (s.recView i 1) = none → s.cl.preempting = [] →
      s.decisionFirst (.preemptDecision i) = true → ∀ o u, s.decide' (.preempt i) = (o, u) →
      (o = .none ∨ o = .dflt → exec (.preemptDecision i) s = .next u) ∧
      (∀ j, o = .vict j →
        (u.victim (Fin.ofNat 4 j) (s.recView i 1) = none → exec (.preemptDecision i) s = .next u) ∧
        (∀ v, u.victim (Fin.ofNat 4 j) (s.recView i 1) = some v → exec (.preemptDecision i) s =
          .next ((u.updCl fun c => { c with preempting := [v] }).stopBy v .preempt)))) ∧
    (∀ keep prog, s.cl.policy.swapKeep = some keep → s.cl.policy.shadow = some prog →
      exec .policySwap s = .next (s.updPol fun p =>
        { p with prog := prog, shadow := none, swapKeep := none, overruns := [], disabled := false,
                 pw := if keep then p.pw else Vector.replicate 16 0 }))

/-- R337: before the program runs for a DISPATCH, a candidate that has been QUEUED for AGE_MAX cycles or more is bound, the
oldest of such, the lowest queue on a tie. No program runs: the persistent words and the overruns on record stay as they
are. -/
def Obligations.Starvation : Prop :=
  ∀ (s : State) (c : CtxId) (e : QEnt) (before after : List QEnt), s.running = true → (s.getCtx c).st = .idle →
    s.decisionFirst (.dispatchDecision c) = true →
    ((List.range 8).filterMap (s.candidate c)).filter (fun x => decide (s.cl.par.ageMax ≤ s.mod.cycles - x.since)) = before ++ e :: after →
    (∀ x ∈ before, e.since < x.since) → (∀ x ∈ after, e.since ≤ x.since) →
    let counted := s.updPol fun p => { p with decn := p.decn + 1 }
    exec (.dispatchDecision c) s = .next (counted.bindQueued c e.idx) ∧
    (counted.bindQueued c e.idx).cl.policy = { s.cl.policy with decn := s.cl.policy.decn + 1 }

/-- R310, R311, R380 to R386, R353, R357: context 0 takes the oldest record; a fatal fault dumps and frees the context, or halts
the core and kills the cluster, where a fatal record stands before it or it is context 0's; a pair that differs restarts or
traps 0x12; fetching and moving nodes trap. That fatal faults still under way stand before a later one of the same core is
the model's (log 86). R246, R308, R309, R329, R360: the parts of `swr` that write one special register each, the
acknowledgement of an invalidation by one translation agent, which waits while the agent still reads through an older
translation, and the gating and halting of a core (log 31). -/
def Obligations.FaultEvents : Prop :=
  (∀ (s : State) (c : CtxId) (r : TrapRec) (core : CoreId) (w : BitVec 32) (a : Word),
      (∀ k, s.handlerDue core = true → (s.getCore core).takeNext = some (r, k) →
        let c0 := ctxOf core 0
        let x := s.getCtx c0
        exec (.handlerEntry core) s = .next ((s.updCore core fun _ =>
          { k with trec := fillVec k.trec fun i => (recWords r).getD i 0, sepc := x.pc, srep := x.repidx, hnd := true }).updCtx c0
            fun x => { x with pc := k.tvec, repidx := 0 })) ∧
      (s.cl.killed = false →
        let k := s.getCore (coreOf c)
        let ahead := k.fatq.toList ++ s.fatalsAhead (coreOf c) c
        let sup := decide (numOf c = 0)
        let memory := decide (r.cause = 0x19) && !sup
        let scope := if memory then 2 else if !ahead.isEmpty || sup then 1 else 0
        let kill (u : State) : State := u.urge (.event (.clusterKill u.me))
        let ends (u : State) : State := if u.opsDone c then (u.release c true).updCore (coreOf c) fun k => { k with fatq := some r }
          else u.post (.fatalFault c r false)
        (s.lowerFatal c = true → exec (.fatalFault c r false) s = .next (s.next (.fatalFault c r false))) ∧
        (s.lowerFatal c = false → (s.getCtx c).begun = true → exec (.fatalFault c r false) s = .next (ends s)) ∧
        (∀ img u, s.lowerFatal c = false → (s.getCtx c).begun = false → s.dumpImage c false = (img, u) →
          let dumped := u.dump (coreOf c) r.ctx.val scope r.cause.toNat img
            ((r :: ((if scope = 1 then ahead else []) ++ k.tq.filterMap QRec.waiting)).take 8) (s.getCtx c).clk
          (dumped = none → exec (.fatalFault c r false) s = .next (kill u)) ∧
          (∀ v, dumped = some v →
            (scope = 2 → exec (.fatalFault c r false) s = .next (kill v)) ∧
            (scope = 1 → exec (.fatalFault c r false) s = .next (kill (v.updCore (coreOf c) fun k => { k with halted := true }))) ∧
            (scope = 0 → exec (.fatalFault c r false) s =
              .next (ends ((v.cancelTasks c).updCtx c fun x => { x with begun := true })))))) ∧
      (s.cl.killed = false → r.cause ≠ 0x19 → (s.getCore 0).fatq = none → s.fatalsAhead 0 c = [] →
        ∀ v, s.dump 0 r.ctx.val 3 r.cause.toNat (List.replicate 5120 0) ((r :: (s.getCore 0).tq.filterMap QRec.waiting).take 8) s.cl.cclk = some v →
        exec (.fatalFault c r true) s = .next (v.updCore 0 fun k => { k with fatq := some r })) ∧
      (∀ b, (s.getCtx c).bound = some b → s.cl.par.twin = true → ((s.getCtx c).st = .ready ∨ (s.getCtx c).st = .blocked) →
        ((s.getCtx c).atomicDone = true → exec (.twinRestart c) s = .next ((s.abandonWait c).trapAt c 0x12 0 0 0 .none)) ∧
        ((s.getCtx c).atomicDone = false →
          (s.opsDone c = false → exec (.twinRestart c) s =
            .next (((s.abandonWait c).updCtx c fun x => { x with st := .blocked, susp := none }).post (.twinRestart c))) ∧
          (s.opsDone c = true → let u := (s.abandonWait c).restartPair c b.idx
            exec (.twinRestart c) s = .next (if (s.getCtx c).stopReq.isSome then u.updCtx c fun x =>
              { x with st := .stopped, stopReq := none, cstopped := x.cstopped || (s.getCtx c).stopReq = some .cstop } else u)))) ∧
      (∀ cl, cl ≠ s.me → exec (.clusterKill cl) s = .next ((s.report 0x03 [coords cl]).post (.groupBrokenNotice cl))) ∧
      (s.cl.killed = false → exec (.clusterKill s.me) s = .next s.killOwn) ∧
      exec (.illegalEncoding w) s = .next (s.trapAux 0x01 0 0 0) ∧
      exec (.fetchFault 0x09 a) s = .next (s.trapAux 0x09 0 a 0) ∧ exec (.fetchFault 0x0A a) s = .next (s.trapAux 0x0A 0 a 0) ∧
      exec (.fetchFault 0x18 a) s = .next (s.trapAux 0x18 0 0 0) ∧
      exec (.fetchFault 0x0C a) s = .next
        ((s.trapAt s.cur 0x0C 0 a 0 (.recall ((a.toNat - hbmLo) / 2 ^ 16))).next (.recallStart ((a.toNat - hbmLo) / 2 ^ 16))) ∧
      (∀ key, (s.getCtx c).st = .blocked → (s.getCtx c).wait = some (.mig key) →
        ((s.getCtx c).begun = false → exec (.walkMigTimeout c) s = .next ((s.abandonWait c).trapAt c 0x18 0 0 0 .none)) ∧
        ((s.getCtx c).begun = true → exec (.walkMigTimeout c) s =
          .next (((s.cancel (.walkMigRetry c)).updCtx c fun x => { x with limitHit := true }).urge (.resume c))) ∧
        (bits (s.word key) 58 1 = 1 → exec (.walkMigRetry c) s = .next (s.post (.walkMigRetry c))) ∧
        (bits (s.word key) 58 1 = 0 → exec (.walkMigRetry c) s = .next ((s.cancel (.walkMigTimeout c)).urge (.resume c)))) ∧
      (∀ word last, s.cl.feLast.find? (fun p => p.1 = word) = some last →
        (s.nextWaiter word (last.2 + 1) = none → exec (.feWaiterOffer word) s = .next s) ∧
        (∀ k, s.nextWaiter word (last.2 + 1) = some k → exec (.feWaiterOffer word) s = .next
          ((s.updCl fun cl => { cl with feLast := (word, k.val) :: cl.feLast.filter fun p => p.1 ≠ word }).urge
            (.event (.feWaiterOffer word)) |>.urge (.resume k))))) ∧
  (∀ (s : State) (v : Word) (core : CoreId) (agent : TinvAgent),
      let own (f : Core → Core) : Out := .next (s.updCore (coreOf s.cur) f)
      let c := ctxOf (coreOf s.cur) (s.getCore (coreOf s.cur)).csel
      let even : BitVec 48 := BitVec.ofNat 48 (v.toNat % 2 ^ 48 - v.toNat % 2)
      (∀ id, s.cl.part = some id → bits v 0 1 = 1 →
        exec (.saveadv v) s = .next (s.updPart id fun p => { p with savectr := p.savectr + 1 })) ∧
      (bits v 0 1 = 0 ∨ s.cl.part = none → exec (.saveadv v) s = .next s) ∧
      exec (.sctlWrite v) s = own (fun k => { k with tmask := bits v 62 1 = 1 }) ∧
      (numOf c ≠ 0 → ((s.getCtx c).st = .stopped ∨ (s.getCtx c).st = .faulted) →
        exec (.cpcWrite v) s = .next (s.updCtx c fun x => { x with pc := even }) ∧
        exec (.crepxWrite v) s = .next (s.updCtx c fun x => { x with repidx := v.extractLsb' 0 6 })) ∧
      (numOf c = 0 ∨ ((s.getCtx c).st ≠ .stopped ∧ (s.getCtx c).st ≠ .faulted) →
        exec (.cpcWrite v) s = .next s ∧ exec (.crepxWrite v) s = .next s) ∧
      exec (.specialRegisterWrite 0x0001 v) s = .next (s.upd fun x => { x with drawn := v.extractLsb' 0 48 }) ∧
      exec (.specialRegisterWrite 0x8001 v) s = own (fun k => { k with sepc := even }) ∧
      exec (.specialRegisterWrite 0x8002 v) s = own (fun k => { k with srep := v.extractLsb' 0 6 }) ∧
      exec (.specialRegisterWrite 0x8003 v) s = own (fun k => { k with tvec := even }) ∧
      exec (.specialRegisterWrite 0x8006 v) s = own (fun k => { k with csel := ⟨v.toNat % 16, by omega⟩ }) ∧
      (s.stillReading agent = true → exec (.tinvAcknowledge agent) s = .next (s.post (.tinvAcknowledge agent))) ∧
      (s.stillReading agent = false → exec (.tinvAcknowledge agent) s = .next (s.updCl fun c => { c with tinvWait := c.tinvWait.filter fun w => w.2 ≠ agent })) ∧
      exec (.corePowerGating core) s = .next ((s.updCore core fun k => { k with gated := !k.gated }).updMem fun m =>
        { m with tlb := m.tlb.filter fun x => x.1 ≠ core.val }) ∧
      exec (.debuggerHalt core) s = .next (s.updCore core fun k => { k with dbgHalt := !k.dbgHalt }))

/-- R86 to R89, R102, R245, R248 to R250: at the owner a watch fires at once, expires, is refused past 2,048 entries, or is
kept; a reply goes to the BLOCKED context, into the suspended record, which wakes, or to the round. That REFUSED wakes a
suspended watch as a status does, with WAIT 0, is the model's (log 20). R25 to R28, R36 to R38, R111, R262, R386, R423: the
rounds of a group run to its next phase; a broken group ends the waits; an active message raises CCLK and creates, and its
answer frees its place or offers it again. The model's choices: the records that a broken group wakes have WOKE 0 (log 78);
a message that is discarded does not raise CCLK (log 41); MSGID advances with an accepted message alone (log 60). -/
def Obligations.WatchEvents : Prop :=
  (∀ (s : State) (w : WatchReq) (tag tf : Nat) (value : Word) (skid : Option Nat) (st : BitVec 4),
      (let own := decide (w.src = s.me);
        s.cl.killed = false → w.part = s.cl.part.getD 0 → inSpad w.off 8 = true →
        s.spadAllowed (own && w.sup) (if own then .rd else .rr) w.off 8 = true → s.badWord w.off 8 = false →
        s.cl.watches.any (fun x => x.src = w.src && x.tag = w.tag) = false →
        (w.thr.toNat ≤ (s.word w.off).toNat → exec (.watchRegistration w) s = .next (s.fire w (s.wts (granule w.off)))) ∧
        ((s.word w.off).toNat < w.thr.toNat →
          (w.limit = some 0 → exec (.watchRegistration w) s = .next (s.send w.src 0 (.expired w.tag))) ∧
          (w.limit ≠ some 0 →
            (2048 ≤ s.cl.watches.length → exec (.watchRegistration w) s = .next (s.send w.src 0 (.refused w.tag))) ∧
            (s.cl.watches.length < 2048 →
              let u := s.updCl fun c => { c with watches := c.watches ++ [w] }
              exec (.watchRegistration w) s = .next (if w.limit = none then u else u.post (.watchExpiry w.src w.tag)))))) ∧
      (let gone := s.updCl fun c => { c with watches := c.watches.filter fun x => !(x.src = w.src && x.tag = tag) };
        (s.cl.watches.any (fun x => x.src = w.src && x.tag = tag) = true →
          exec (.watchExpiry w.src tag) s = .next (gone.send w.src 0 (.expired tag))) ∧
        (s.cl.watches.any (fun x => x.src = w.src && x.tag = tag) = false → exec (.watchExpiry w.src tag) s = .next s) ∧
        exec (.watchWithdrawal w.src tag) s = .next (gone.cancel (.watchExpiry w.src tag))) ∧
      (let u := s.updCl fun c => { c with watchOut := c.watchOut.filter fun p => p.1 ≠ tag };
        (s.cl.watchOut.any (fun p => p.1 = tag) = true →
          (∀ c, s.watcher tag = some (.ctx c) →
            let got (r : Reply) : Out := .next (u.updCtx c fun x => { x with replies := x.replies ++ [r] })
            exec (.watchFireReceipt tag value tf skid) s = got (.fire tag value tf skid) ∧
            exec (.watchExpiredReceipt tag) s = got (.expired tag) ∧
            exec (.watchRefusedReceipt tag) s = got (.refused tag) ∧
            exec (.watchStatusReceipt tag st) s = got (.status tag st)) ∧
          (∀ i reg, s.watcher tag = some (.record i reg) →
            exec (.watchFireReceipt tag value tf none) s = .next (((u.putRec i (reg + 1) value).raiseCclk tf).wakeRecord i none true) ∧
            exec (.watchExpiredReceipt tag) s = .next u ∧
            exec (.watchRefusedReceipt tag) s = .next (u.wakeRecord i (some 0) false) ∧
            exec (.watchStatusReceipt tag st) s = .next (u.wakeRecord i (some 0) false)) ∧
          (∀ g, s.watcher tag = some (.round g) →
            let v := u.updGroup g fun x => { x with rtag := none }
            exec (.watchFireReceipt tag value tf none) s = .next (v.post (.roundComplete g tf)) ∧
            exec (.watchRefusedReceipt tag) s = .next (v.post (.roundWatchRetry g)) ∧
            exec (.watchStatusReceipt tag st) s = .next (v.post (.roundWatchRetry g)))) ∧
        (s.cl.watchOut.any (fun p => p.1 = tag) = false →
          exec (.watchFireReceipt tag value tf none) s = .next u ∧ exec (.watchExpiredReceipt tag) s = .next u ∧
          exec (.watchRefusedReceipt tag) s = .next u ∧ exec (.watchStatusReceipt tag st) s = .next u))) ∧
  (∀ (s : State) (grp tf : Nat) (cl : ClusterId) (c : CtxId) (m : AMsg) (fn : Fin 17) (h : HostMsg),
      (∀ g, s.group? grp = some g → g.st = 1 → g.partDone = true → g.rtag = none →
        (g.round + 1 < g.rounds → exec (.roundComplete grp tf) s =
          .next ((s.updGroup grp fun g => { g with round := g.round + 1 }).startRound grp tf)) ∧
        (g.rounds ≤ g.round + 1 → exec (.roundComplete grp tf) s = .next ((s.updGroup grp fun g =>
          { g with phase := g.phase + 1, partDone := false, round := 0, rtag := none, arrT := 0, phaseT := tf }).wakeGroup grp true)) ∧
        exec (.roundWatchRetry grp) s = .next (s.sendRound grp)) ∧
      (∀ g n, (s.getCtx c).wait = some (.group g n) →
        exec (.gwaitLimitExpiry c) s = .next (s.updCtx c fun x => { x with limitHit := true })) ∧
      (s.cl.groups.filter (fun g => g.2.st = 1 && (s.membersOf g.2).contains cl) = [] →
        exec (.groupBrokenNotice cl) s = .next s) ∧
      (∀ i g, s.cl.groups.filter (fun g => g.2.st = 1 && (s.membersOf g.2).contains cl) = [(i, g)] → s.group? i = some g → g.rtag = none →
        let u := s.updGroup i fun g => { g with st := 2, rtag := none }
        exec (.groupBrokenNotice cl) s = .next (if s.cl.killed then u else u.wakeGroup i false)) ∧
      (s.cl.killed = false → s.cl.revoked.contains m.ptag.val = false →
        let r := ({ s with cl := { s.cl with cclk := max s.cl.cclk m.clk } }).create m
        exec (.amsgArrival m) s = .next (r.2.send m.src 0 (.amsgAnswer r.1.isSome))) ∧
      (s.cl.killed = true ∨ s.cl.revoked.contains m.ptag.val = true →
        exec (.amsgArrival m) s = .next (s.send m.src 0 (.amsgAnswer true))) ∧
      (s.cl.outAmsg.find? (fun m => m.target = cl) = some m →
        exec (.amsgReoffer cl false) s = .next (s.send m.target 0 (.amsg m)) ∧
        (let u := s.updCl fun c => { c with outAmsg := c.outAmsg.erase m };
          exec (.amsgReoffer cl true) s = .next (match u.cl.outAmsg.find? fun m => m.target = cl with
            | none => u
            | some m' => u.send m'.target 0 (.amsg m')))) ∧
      (let p := bits (h.words.getD 0 0) 32 6;
        (∀ r, s.hostReject fn h = some r → exec (.hostActiveMessage fn h) s = .next (s.report 0x01 [r, p])) ∧
        (s.hostReject fn h = none →
          let part := ((s.partOf? (hostTarget h)).map fun q => q.id).getD 0
          let a := hostAmsg h s.me part
          let accepted (u : State) : State := u.updPart part fun q =>
            { q with msgids := q.msgids.filter (fun k => k.1 ≠ p) ++ [(p, (h.words.getD 5 0).toNat)] }
          (hostTarget h ≠ s.me → exec (.hostActiveMessage fn h) s = .next (accepted (s.send (hostTarget h) 0 (.amsg a)))) ∧
          (hostTarget h = s.me →
            (∀ i, (s.create a).1 = some i → exec (.hostActiveMessage fn h) s = .next (accepted (s.create a).2)) ∧
            ((s.create a).1 = none → exec (.hostActiveMessage fn h) s = .next ((s.create a).2.report 0x01 [8, p]))))))

/-- R77, R78, R80, R83, R97, R99, R114, R360, R362, R435: the owner answers an allowed scratchpad read with its bytes at their
time, and others with the status of the first check they fail; a source request that it has begun to read it reads on where
it stands; a reply settles its request and reaches the context that waits, and its line is one of at most 512 of the L1, in
skid mode once its tag passes. R364 to R366, R373: a trigger starts a recall, of which eight run at most; the leaf goes to
RECALLING; its end writes the slot's data and the log into the frame, of which the host loses its lines (R424), and leaves
the leaf RESIDENT. A killed cluster does none of it (R386). -/
def Obligations.RemoteEvents : Prop :=
  (∀ (s : State) (r : ReadReq) (tag t lease : Nat) (l : List Byte) (st : BitVec 4) (o : Outst) (c : CtxId),
      let v := s.updCl fun c => c.unserve r.src r.tag
      let answer (x : BitVec 4) : Out := .next (v.send r.src r.route (.status r.tag x))
      let fits := r.part = s.cl.part.getD 0
      let known := r.need.zeroExtend 64 &&& ~~~ s.mod.feat0 = 0
      let recent := (r.rev < bits s.mod.feat1 0 8 && r.need ≠ 7) = false
      (s.cl.killed = true → exec (.remoteRequest r) s = answer 1) ∧
      (s.cl.killed = false → ¬fits → exec (.remoteRequest r) s = answer 5) ∧
      (∀ key, s.cl.killed = false → fits → (s.cl.served r.src r.tag).2.2 = some key → s.badWord key r.size = false →
        exec (.remoteRequest r) s = .next (v.serve r key (s.cl.served r.src r.tag).1 (s.cl.served r.src r.tag).2.1)) ∧
      ((s.cl.served r.src r.tag).2.2 = none →
      (s.cl.killed = false → fits → ¬(known ∧ recent) → exec (.remoteRequest r) s = answer 4) ∧
      (s.cl.killed = false → fits → known → recent →
        (inSpad r.off r.size = false → inHbm r.off r.size = false → exec (.remoteRequest r) s = answer 6) ∧
        (inSpad r.off r.size = true →
          (s.spadAllowed false .rr r.off r.size = false → exec (.remoteRequest r) s = answer 5) ∧
          (s.spadAllowed false .rr r.off r.size = true → s.badWord r.off r.size = false → r.kind = .load →
            let g := granule r.off
            let T := max (r.clk + 1) (s.wts g)
            (clockLimit ≤ T → exec (.remoteRequest r) s = answer 7) ∧
            (T < clockLimit → exec (.remoteRequest r) s =
              .next ((v.setStamp g (s.wts g) (max (s.rts g) (T + s.cl.par.leaseLen))).send r.src r.route
                (.data r.tag (s.bytes r.off r.size) T (T + s.cl.par.leaseLen)))))))) ∧
      (s.request? tag = some o → o.tag = tag →
        (exec (.deferredResend tag) s = .next (s.send o.owner o.req.route (.read o.req))) ∧
        (let u := s.updCl fun c => { c with outst := c.outst.map fun x => if x.tag = tag then { x with deferred := true } else x };
          exec (.deferredReply tag) s =
            .next ((if o.deferred then u else u.post (.deferLimitExpiry tag)).post (.deferredResend tag))) ∧
        (o.who = .ctx c → (s.getCtx c).sent.any (fun p => p.1 = tag) = true →
          let u := ((s.updCl fun c => { c with outst := c.outst.filter fun o => o.tag ≠ tag }).cancel (.deferredResend tag)).cancel
            (.deferLimitExpiry tag)
          let got (x : Reply) : State := u.updCtx c fun y => { y with replies := y.replies ++ [x] }
          let line : L1Line := ⟨o.owner, o.req.off, l, lease⟩
          let others := (s.getCore (coreOf c)).l1.filter fun y => !(y.owner = o.owner && y.off = o.req.off)
          (s.cl.par.fused = false →
            (∀ k, exec (.remoteDataReply tag l t lease (some k)) s = .next ((got (.data tag l t lease (some k))).updCl fun x =>
              { x with heldLine := x.heldLine ++ [(k, coreOf c, line)] })) ∧
            (others.length < 512 → exec (.remoteDataReply tag l t lease none) s =
              .next ((got (.data tag l t lease none)).updCore (coreOf c) fun x => { x with l1 := line :: others })) ∧
            (512 ≤ others.length → ∃ n, n < others.length ∧ exec (.remoteDataReply tag l t lease none) s =
              .next ({ got (.data tag l t lease none) with draws := s.draws + 1 }.updCore (coreOf c) fun x =>
                { x with l1 := line :: others.eraseIdx n }))) ∧
          (s.copyOfTag tag = none →
            exec (.remoteStatusReply tag st) s = .next (got (.status tag st)) ∧
            exec (.deferLimitExpiry tag) s = .next (got (.status tag 2))))) ∧
      (s.request? tag = none → s.copyOfTag tag = none → exec (.remoteStatusReply tag st) s = .next s ∧
        exec (.deferLimitExpiry tag) s = .next s ∧ exec (.deferredReply tag) s = .next s ∧ exec (.deferredResend tag) s = .next s)) ∧
  (∀ (s : State) (page key : Nat) (leaf : Word) (owner : ClusterId), s.leafOf page = some (key, leaf) →
      (s.cl.killed = true → exec (.recallStart page) s = .next s ∧ exec (.fillCancelNotice owner page) s = .next s) ∧
      (s.cl.killed = false →
      (bits leaf 60 2 = 0 → exec (.recallStart page) s = .next (s.releaseHeld page)) ∧
      (bits leaf 60 2 = 3 → exec (.recallStart page) s = .next s) ∧
      ((bits leaf 60 2 = 1 ∨ bits leaf 60 2 = 2) → s.cl.pending.contains page = false →
        (8 ≤ s.cl.recalls.length → exec (.recallStart page) s = .next (s.updCl fun c => { c with pending := c.pending ++ [page] })) ∧
        (s.cl.recalls.length < 8 →
          let fill := decide (bits leaf 60 2 = 1)
          let u := (s.putWord key (setBits leaf 60 2 3)).updCl fun c => { c with recalls := c.recalls ++ [⟨page, fill, []⟩] }
          exec (.recallStart page) s = .next (if fill then (u.send (s.holderOf leaf) 0 (.cancelFill page)).post (.recallCompletion page)
            else (List.range 16).foldl (fun u k =>
              (u.sendRead (.recall page k) (s.holderOf leaf) (bits leaf 32 7 * 2 ^ 16 + 4096 * k) 4096 0 .recall 0 7).2) u)))) ∧
      (∀ rest, s.cl.pending = page :: rest → s.cl.recalls.length < 8 →
        exec .pendingRecallStart s = .next (((s.updCl fun c => { c with pending := rest }).triggerRecall page).pendingNext)) ∧
      (∀ r, s.cl.recalls.find? (fun r => r.vpn = page) = some r → (r.fromFill = true ∨ 16 ≤ r.got.length) →
        let frame := hbmLo + bits leaf 16 15 * 2 ^ 16
        let v := s.dropHostLines fun x => decide (hbmLo + page * 2 ^ 16 ≤ 64 * x.1) && decide (64 * x.1 < hbmLo + (page + 1) * 2 ^ 16)
        let u := (r.got.foldl (fun u g => u.putBytes (frame + 4096 * g.1) g.2) v).applyLog page frame leaf
        exec (.recallCompletion page) s =
          .next ((u.putWord key (setBits (setBits (setBits leaf 60 2 0) 32 15 0) 6 10 0)).endRecall page)) ∧
      (s.cl.killed = false → exec (.fillCancelNotice owner page) s = .next ((List.range 128).foldl (fun u i =>
        let a := u.cl.par.cmapBase + 8 * i
        let w := u.word a
        if bits w 63 1 = 1 && (bits w 32 15 = coords owner && bits w 0 20 = page) then u.putWord a (setBits w 63 1 0) else u) s)))

/-- R106, R107, R128 to R132, R254, R255, R422, R424, R427: the copy engine sends an operation's next request to its owner, or
goes on with one to its own memory; it writes accepted data piece by piece, the length of a piece free (R106), and a
destination on a non-resident page waits with its recall started; it reports the status of the lowest failed request. Host
pages and HDM lines are answered, a killed cluster's with poison (R386). The model's choices: a pull task's source outside
the partition ends with status 5 (log 81); a host read of a page that is not mapped is answered with poison, one of a page
that is cocooned after its recall (log 36). R119 to R123, R137 to R140, R273 to R287: the head of the direct queue starts
once its units are free: a load by the load unit, a pass or a swap by the array, which a draining pass has released, mcvt
and mzero by an engine with nothing in it. A load fills the shadow plane; a pass reads its scales, then its rows one by one,
releases the array after the last and completes after its drain; which of two passes moves is free. A mismatch streams, or
converts, its row once more, which RETRY counts; a second one ends the job with trap 0x0E; a conversion verifies and writes
row by row; a task launches and completes, with status 7 where an access of its own passes the clock limit (R114). The
model's choices: RESIDUE_RESTREAM stands for a mismatch (log 26); `accBad` names the elements whose check fails until they
are written again (log 19); a load reads its tile when it completes, and a row is one move (log 29). -/
def Obligations.EngineEvents : Prop :=
  (∀ (s : State) (op tag t page off : Nat) (l got : List Byte) (o : CopyOp) (r : CopyReq) (cl : ClusterId) (v : Byte),
      (s.copy? op = some o → s.localReading o = some (r, got, t) → exec (.copyRequestSend op) s = .next (s.localRead o r got t)) ∧
      (s.copy? op = some o → s.localReading o = none → o.row < o.rows →
        let a := o.rowSrc o.row + BitVec.ofNat 64 o.pos
        let failed (st : BitVec 4) : Out := .next ((s.updCopy op fun x => ({ x with
          fails := x.fails ++ [(o.rowAt o.row + o.pos, st)] } : CopyOp).skipRow).copyNext op)
        (o.kind = .hget → exec (.copyRequestSend op) s = .next (s.copyHostRead o)) ∧
        (o.kind = .hsend → exec (.copyRequestSend op) s = .next (s.copyHostWrite o)) ∧
        (o.kind = .pullG → o.listRead = false → exec (.copyRequestSend op) s = .next (s.copyList o)) ∧
        (o.kind = .copy → (a.toNat % 8 ≠ 0 → exec (.copyRequestSend op) s = failed 6) ∧
          (a.toNat % 8 = 0 → exec (.copyRequestSend op) s = .next (s.copyLocal o a))) ∧
        (o.kind = .pull ∨ o.kind = .pull2d ∨ o.kind = .pullAdd ∨ (o.kind = .pullG ∧ o.listRead = true) →
          (a.toNat % 8 ≠ 0 → exec (.copyRequestSend op) s = failed 6) ∧
          (a.toNat % 8 = 0 →
            (resolve s.me a = s.me → exec (.copyRequestSend op) s = .next (s.copyLocal o a)) ∧
            (resolve s.me a ≠ s.me →
              (s.cl.members.contains (resolve s.me a) = false → exec (.copyRequestSend op) s = failed 5) ∧
              (s.cl.members.contains (resolve s.me a) = true →
                exec (.copyRequestSend op) s = .next (s.copyRemote o (resolve s.me a) a)))))) ∧
      (s.copyOfTag tag = some (o, r) →
        (o.kind = .hsend → exec (.pullDataReply tag l t) s = .next (s.copyAnswered o r)) ∧
        (o.kind ≠ .hsend → ∀ w d n u b u', (r.data = some d ∧ w = s ∨ r.data = none ∧ o.ingest = none ∧ d = l.take r.len ∧ w = s.accept o r.len) →
          w.writePiece d.length = (n, u) → u.copyStore o r.at_ (d.take n) = (b, u') →
          let v := u'.updCopy o.id fun o => { o with time := max o.time t }
          exec (.pullDataReply tag l t) s = .next (if b then u'.copyHold o r r.at_ d t
            else if d.length ≤ n then v.copyAnswered o r else v.copyHold o r (r.at_ + n) (d.drop n) t)) ∧
        (o.kind ≠ .hsend → r.data = none → ∀ p, o.ingest = some p →
          exec (.pullDataReply tag l t) s = .next (s.copyIngest o r p l t))) ∧
      (s.copy? op = some o → o.rows ≤ o.row → o.out = [] →
        let st : BitVec 4 := if o.clkLimit then 7 else o.status
        let u := (s.updEng fun e => { e with copies := e.copies.filter fun x => x.id ≠ op }).updCtx o.owner fun x =>
          { x with copyTime := max x.copyTime o.time, clkTrap := x.clkTrap || o.clkLimit }
        (∀ idx, o.task = some idx → exec (.copyOpCompletion op) s = .next ((u.updEng fun e => { e with tasks := e.tasks.map fun t =>
          if t.idx = idx then { t with status := st, time := o.time } else t }).post (.taskCompletion idx))) ∧
        (o.task = none → let w := u.tlComplete o.owner o.tl o.n st 0 o.time
          exec (.copyOpCompletion op) s = .next (if w.eng.tasks.any fun t => t.ready && t.visible then w.postOnce .taskLaunch else w))) ∧
      (s.copy? op = some o → (o.kind = .hget ∨ o.kind = .hsend) →
        exec (.hostCompletionTimeout op) s = .next (o.out.foldl (fun u r => u.requestFailed r.tag 5) s)) ∧
      (s.eng.copies = [] →
        exec (.atsInvalidation page) s = .next ((((s.updMod fun m =>
          { m with ats := (m.ats ++ [page]).filter (· ≠ page), atc := m.atc.filter (· ≠ page) }).post
          (.atsInvalTimeout page)).toHost (.invalidated page)).cancel (.atsInvalTimeout page))) ∧
      (s.eng.copies = [] → s.mod.ats.contains page = true →
        exec (.atsInvalTimeout page) s = .next (((s.updMod fun m => { m with ats := m.ats.filter (· ≠ page) }).toHost
          (.invalidated page)).cancel (.atsInvalTimeout page))) ∧
      (∀ h, s.hdmPage? s.me off = some h → s.cl.killed = true → exec (.hdmHostRead s.me off) s = .next (s.toHost (.hdmPoison off))) ∧
      (∀ h, s.hdmPage? s.me off = some h → s.cl.killed = false →
        (s.leafOf h.page = none → exec (.hdmHostRead s.me off) s = .next (s.toHost (.hdmPoison off))) ∧
        (∀ k leaf, s.leafOf h.page = some (k, leaf) →
          (bits leaf 60 2 ≠ 0 → exec (.hdmHostRead s.me off) s = .next ((s.triggerRecall h.page).post (.hdmHostRead s.me off))) ∧
          (bits leaf 60 2 = 0 →
            let key := hbmLo + bits leaf 16 15 * 2 ^ 16 + (off - hbmLo) % 2 ^ 16
            let u := s.toHost (.hdmData off (s.byte key))
            exec (.hdmHostRead s.me off) s = .next
              (if h.host then u.updMod fun m => 
                { m with hdmLines := m.hdmLines.erase (off / 64, key / 64) ++ [(off / 64, key / 64)] } else u)))) ∧
      exec (.hdmHostWrite cl off v) s = .next (s.toHost (.hdmPoison off))) ∧
  (∀ (s u : State) (e : DirectEnt) (q : List DirectEnt) (r p : MatRun) (ds : List MatRun) (row idx time : Nat),
      (s.eng.queue = e :: q → s.eng.matrixTasks = false →
        let job := MatRun.start e.job (.direct e.owner e.rep)
        let pop := s.updEng fun g => { g with queue := q }
        let idle := s.eng.load = none ∧ s.eng.pass = none ∧ s.eng.drain = [] ∧ s.eng.conv = none
        (∀ tr, e.job.kind = .load tr → s.eng.load = none → s.eng.conv = none →
          (s.eng.shs = .empty → exec .directEntryStart s = .next (((pop.updEng fun g =>
            { g with shs := .loading, load := some job }).post .planeLoadCompletion).engineKick)) ∧
          (s.eng.shs ≠ .empty → exec .directEntryStart s = .next ((pop.matEnd job 0x15 (shsCode s.eng.shs) e.job.clk).engineKick))) ∧
        (e.job.kind = .swap →
          (s.eng.shs = .empty → exec .directEntryStart s = .next ((pop.matEnd job 0x15 0 e.job.clk).engineKick)) ∧
          (s.eng.shs = .full → s.eng.pass = none → s.eng.conv = none → exec .directEntryStart s = .next (((pop.updEng fun g =>
            { g with active := g.shadow, shadow := g.active, shs := .empty }).matEnd job 0 0 e.job.clk).engineKick))) ∧
        (e.job.kind = .pass → s.eng.pass = none → s.eng.conv = none →
          (bits e.job.word 63 1 = 0 ∨ s.eng.shs = .full → exec .directEntryStart s = .next ((pop.startPass job).engineKick)) ∧
          (bits e.job.word 63 1 = 1 → s.eng.shs = .empty →
            exec .directEntryStart s = .next ((pop.matEnd job 0x15 0 e.job.clk).engineKick))) ∧
        (e.job.kind = .convert → idle →
          exec .directEntryStart s = .next ((pop.updEng fun g => { g with conv := some job }).post .mcvtCompletion)) ∧
        (e.job.kind = .zero → idle →
          exec .directEntryStart s = .next ((pop.updEng fun g => { g with conv := some job }).post .mzeroCompletion))) ∧
      (∀ tr, s.eng.load = some r → r.job.kind = .load tr → s.engineReads r.job.clk r.job.reads = (.ok time, u) →
        (u.metaFault r.job.sp (keptOf (tileOf r.job.tile) tr) = none → exec .planeLoadCompletion s = .next (((u.updEng fun e =>
          { e with shadow := u.planeOf (tileOf r.job.tile) tr r.job.sp, shs := .full, load := none }).matEnd r 0 0 time).engineKick)) ∧
        (∀ x, u.metaFault r.job.sp (keptOf (tileOf r.job.tile) tr) = some x → exec .planeLoadCompletion s = .next (((u.updEng fun e =>
          { e with shs := .empty, load := none }).matEnd r 0x15 x time).engineKick))) ∧
      (s.eng.pass = none → s.eng.drain = p :: ds → exec .passCompletion s =
        .next (((s.draw.2.updEng fun e => { e with drain := ds }).matEnd p 0 0 p.time).engineKick)) ∧
      (s.eng.pass = some r → r.swapped = true →
        (s.eng.drain = [] → exec .passCompletion s = .next (s.passMove r)) ∧
        (s.eng.drain = p :: ds → exec .passCompletion s = .next (if Config.freeBool s.draw.1 then s.draw.2.passMove r
          else ((s.draw.2.updEng fun e => { e with drain := ds }).matEnd p 0 0 p.time).engineKick)) ∧
        (r.scales ≠ none → r.row = row →
          (r.retries = 0 → exec (.residueRestream row) s =
            .next (s.updEng fun e => { e with pass := some { r with failRow := row, retries := 1 } })) ∧
          (r.retries ≠ 0 → exec (.residueRestream row) s =
            .next (((({ s with agenda := s.agenda.erase .passCompletion }).updEng fun e => { e with pass := none }).matEnd
              r 0x0E row r.time).engineKick)))) ∧
      (let t := tileOf r.job.tile
        let at_ := { r with time := max r.time time }
        (r.scales = none → s.engineReads r.job.clk (if isQ t.tag then t.scaleSpan t.rows (blocksOf t.cols) else []) = (.ok time, u) →
          (∀ x, u.scaleFault t u.eng.active = some x →
            s.passMove r = ((u.updEng fun e => { e with pass := none }).matEnd at_ 0x0D x at_.time).engineKick) ∧
          (u.scaleFault t u.eng.active = none → s.passMove r = (u.updEng fun e =>
            { e with pass := some { at_ with scales := some ((List.range t.rows).map (u.rowScales t)) } }).post .passCompletion)) ∧
        (∀ scales, r.scales = some scales → s.engineReads r.job.clk (t.rowSpans r.row) = (.ok time, u) →
          let v := u.passRow r.job t (scales.getD r.row []) r.row
          let next := { at_ with row := r.row + 1 }
          (r.row + 1 < t.rows → s.passMove r = (v.updEng fun e => { e with pass := some next }).post .passCompletion) ∧
          (t.rows ≤ r.row + 1 → s.passMove r =
            ((v.updEng fun e => { e with pass := none, drain := e.drain ++ [next] }).post .passCompletion).engineKick))) ∧
      (s.eng.conv = some r →
        (r.job.kind = .convert →
          let t := tileOf r.job.tile
          let bad := (List.range t.cols).any fun c =>
            s.eng.accBad.contains (64 * (bits r.job.word 0 7 + r.row) + bits r.job.word 8 6 + c)
          let cells := t.rowCells r.row (s.cvtRow r.job t r.row)
          let wrote := s.writeCells r.job.clk r.time cells ((cells.map fun p => p.1 / 8).foldl insNat [])
          let ends (u : State) (r : MatRun) (cause : BitVec 8) (aux at_ : Nat) : Out :=
            .next (((u.updEng fun e => { e with conv := none }).matEnd r cause aux at_).engineKick)
          let once := { r with failRow := r.row, retries := r.retries + 1 }
          let again := r.retries ≠ 0 ∧ r.failRow = r.row
          (bad = true → (again → exec .mcvtCompletion s = ends s r 0x0E r.row r.time) ∧
            (¬again → exec .mcvtCompletion s = ends s once 0x0E r.row r.time)) ∧
          (bad = false → wrote = none → exec .mcvtCompletion s = ends s r 0x1F 0 r.time) ∧
          (bad = false → wrote = some (time, u) →
            (r.row + 1 < t.rows → exec .mcvtCompletion s = .next ((u.updEng fun e =>
              { e with conv := some { r with row := r.row + 1, time := time } }).post .mcvtCompletion)) ∧
            (t.rows ≤ r.row + 1 → exec .mcvtCompletion s = ends u r 0 0 time)) ∧
          (s.eng.pass = none → r.row = row → (r.retries = 0 ∨ r.failRow ≠ row) → exec (.residueRestream row) s =
            .next (s.updEng fun e => { e with conv := some { r with failRow := row, retries := r.retries + 1 } })) ∧
          (s.eng.pass = none → r.row = row → r.retries ≠ 0 → r.failRow = row → exec (.residueRestream row) s =
            .next ((((s.updEng fun e => { e with conv := none }).matEnd r 0x0E row r.time).cancel .mcvtCompletion).engineKick))) ∧
        (r.job.kind = .zero → exec .mzeroCompletion s = .next (((s.updEng fun e =>
          let lo := bits r.job.word 0 7
          let hi := lo + bits r.job.word 8 7
          { e with acc := e.acc.filter (fun p => !(decide (lo ≤ p.1 / 64) && decide (p.1 / 64 ≤ hi))),
                   accBad := e.accBad.filter (fun x => !(decide (lo ≤ x / 64) && decide (x / 64 ≤ hi))), conv := none }).matEnd r 0 0
            r.job.clk).engineKick))) ∧
      exec (.taskVisible idx) s = .next ((s.updEng fun e =>
        { e with tasks := e.tasks.map fun t => if t.idx = idx then { t with visible := true } else t }).engineKick) ∧
      (bestTask (s.eng.tasks.filter s.launchable) = none → exec .taskLaunch s = .next s) ∧
      (∀ t, bestTask (s.eng.tasks.filter s.launchable) = some t → exec .taskLaunch s = .next ((s.launch t).engineKick)) ∧
      (∀ t, s.eng.tasks.find? (fun t => t.idx = idx) = some t →
        (t.running = true → exec (.taskCompletion idx) s = .next (s.completeTask t)) ∧
        (t.running = false → exec (.taskCompletion idx) s = .next s)))

/-- R132, R141 to R153, R399, R411 to R418: a slot boundary begins a guard, its end sends floods, control flits, relayed
messages, then the queues; a message that passes its tag and life number is delivered in pair sequence, a repeated one is
acknowledged; one not acknowledged is resent with its timer restarted, or abandoned at its E2E_N-th expiry; a tag group
settles what waits for it and is acknowledged where flits may leave; a failed one is sent again with all later ones; idle
flits close a group outside guards; a wavelength past its limit leaves its beam, trains, and comes back, and the transmitter
is told, of whose own beams the peer decides. Model's choices: the slot and cycle on regaining lock (log 3), timers of
queued messages (log 54), the acknowledging of duplicates (log 55), the peer's decision of a transmit beam (log 75), that
the queues go in ascending chip number (log 90), GUARD while SYNC is 0 (log 91), status 3 or 7 of an abandoned message (log
93), the windows of the training pattern (log 94), which beam a port receives and when its signals leave (log 110). R300,
R419, R420: the loss of a module, found by dead slots, a notice or the management, is learnt with its C0 and flooded; its
failure breaks the groups that list it, and its own drops what it relays (R149); the drain rounds end what waits for it.
That MODULE_FAILURE comes at once with the learning of a loss is the model's (log 56). -/
def Obligations.FabricEvents : Prop :=
  (∀ (s : State) (m : PodMsg) (chip : Fin 128) (seq grp errors : Nat) (b : BeamId) (g : GroupRcpt) (wl : Fin 8)
      (ans : Option Nat),
      (s.mod.cal.sync = true →
        (s.mod.cal.guard = true → exec .slotBoundary s = .next (s.postOnce .slotBoundary)) ∧
        (s.mod.cal.guard = false → s.mod.cal.slot + 1 < s.mod.cal.nslot → s.mod.cal.pend = none →
          exec .slotBoundary s = .next ((((s.updCal fun c => { c with slot := c.slot + 1 }).beginSlot).postOnce .guardEnd).postOnce
            .slotBoundary)) ∧
        (s.mod.cal.guard = false → s.mod.cal.nslot ≤ s.mod.cal.slot + 1 → s.mod.cal.pend = none →
          exec .slotBoundary s = .next ((((s.updCal fun c => { c with slot := 0, cycle := (c.cycle + 1) % 2 ^ 41 }).postRounds.beginSlot).postOnce
            .guardEnd).postOnce .slotBoundary)) ∧
        (s.mod.cal.guard = true →
          let u := s.updCal fun c => { c with guard := false, left := min c.left (c.slotlen - c.guardlen) }
          let v := (u.flushSignals.flood.grantCredits.takeCredits.sendControl true false).forward false
          exec .guardEnd s =
            .next ((v.mod.pairs.foldl (fun v p => v.pump p.1 false (p.2.queue.length + 1)) v).sendControl false false)) ∧
        (s.mod.cal.guard = false → exec .guardEnd s = .next s) ∧
        exec .rotorLockRegain s = .next s) ∧
      (s.mod.fw.failed = true → exec .rotorLockRegain s = .next s) ∧
      (s.mod.fw.failed = false → s.mod.cal.sync = false → s.mod.cal.pend = none →
        let c := s.mod.cal
        let u := { s with draws := s.draws + 2 }.updCal fun _ =>
          { c with sync := true, slot := Config.freeNat s.draws % max 1 c.nslot, cycle := Config.freeNat (s.draws + 1) % 2 ^ 41 }
        exec .rotorLockRegain s = .next ((u.postRounds.beginSlot.postOnce .guardEnd).postOnce .slotBoundary)) ∧
      (let u := ((s.updCal fun c => { c with sync := false, guard := false }).cancel .slotBoundary).cancel .guardEnd;
        exec .rotorLockLoss s =
          .next (u.mod.pairs.foldl (fun u p => p.2.queue.foldl (fun u m => u.startTimer p.1 m.seq) u) u)) ∧
      (let d := m.msg.src.chip.val
        let passes := m.good && decide (m.nonce / 2 ^ 48 = s.lifeFor m.msg.dst d)
        let known := decide (m.seq < (s.pair d).recvNext) || (s.pair d).held.any (fun x => x.seq = m.seq) || (s.pair d).skipped.contains m.seq
        let u := (s.updPair d fun p => { p with held := p.held ++ [m] }).flushAll d
        ((s.pair d).cleared = true → exec (.pairSequenceDelivery m) s = .next s) ∧
        ((s.pair d).cleared = false → d = s.mod.chipid.val → passes = true → exec (.pairSequenceDelivery m) s = .next (s.accepted m)) ∧
        ((s.pair d).cleared = false →
          (passes = false → exec (.pairSequenceDelivery m) s =
            .next (s.updPair d fun p => { p with gcmfail := min (2 ^ 64 - 1) (p.gcmfail + 1) })) ∧
          (d ≠ s.mod.chipid.val → passes = true → known = true →
            exec (.pairSequenceDelivery m) s = .next ((s.resendReply d m).control (.ack d d m.seq))) ∧
          (d ≠ s.mod.chipid.val → passes = true → known = false →
            exec (.pairSequenceDelivery m) s = .next (if s.releasable m then u.control (.ack d d m.seq) else u)))) ∧
      (let gone : Fin 128 → Bool := fun d => (s.pair d.val).drained;
        (gone m.msg.dst.chip = true ∨ gone m.msg.src.chip = true → exec (.relayReceive m) s = .next s) ∧
        (gone m.msg.dst.chip = false → gone m.msg.src.chip = false →
          let u := s.updLink fun l => { l with relay := l.relay ++ [m] }
          exec (.relayReceive m) s = .next (if s.mod.cal.sync && !s.mod.cal.guard then u.forward true else u))) ∧
      exec (.pairAckReceipt chip seq) s = .next ((s.updPair chip.val fun p =>
        { p with retained := p.retained.filter fun x => x.seq ≠ seq,
                 queue := p.queue.filter fun x => x.seq ≠ seq || x.expired = 0 }).cancel (.e2eTimerExpiry chip seq)) ∧
      (∀ x, (s.pair chip.val).lost = none →
        ((s.pair chip.val).retained ++ (s.pair chip.val).queue).find? (fun x => x.seq = seq) = some x →
        let sent := (s.pair chip.val).retained.any fun y => y.seq = seq
        let u := s.updPair chip.val fun p => { p with retained := p.retained.filter fun y => y.seq ≠ seq }
        (s.mod.link.par.e2eN ≤ x.expired + 1 → exec (.e2eTimerExpiry chip seq) s = .next (((u.updPair chip.val fun p =>
          { p with queue := p.queue.filter fun y => y.seq ≠ seq }).abandoned x.msg sent).control
            (.abandon chip.val chip.val seq (bodyAnswers x.msg.body)))) ∧
        (x.expired + 1 < s.mod.link.par.e2eN → exec (.e2eTimerExpiry chip seq) s = .next ((u.updPair chip.val fun p =>
          { p with queue := (p.queue.filter fun y => decide (y.seq < seq)) ++ { x with expired := x.expired + 1 } ::
                     (p.queue.filter fun y => decide (seq < y.seq)),
                   resend := if sent then min (2 ^ 64 - 1) (p.resend + 1) else p.resend }).startTimer chip.val seq))) ∧
      (let known := decide (seq < (s.pair chip.val).recvNext) || (s.pair chip.val).held.any (fun x => x.seq = seq)
        let u := if known then s else (s.updPair chip.val fun p => { p with skipped := insNat p.skipped seq }).flushAll chip.val
        (ans = none → exec (.abandonNotice chip seq ans) s = .next u) ∧
        (∀ tag, ans = some tag →
          let st : BitVec 4 := if u.mod.cal.sync && Config.freeBool u.draws then 3 else 7
          let v := if u.mod.cal.sync then { u with draws := u.draws + 1 } else u
          exec (.abandonNotice chip seq ans) s = .next
            (v.post (if v.cl.watchOut.any fun w => w.1 = tag then .watchStatusReceipt tag st else .remoteStatusReply tag st)))) ∧
      (let k := s.beamAt false g.beam
        let u := g.uncorr.foldl (fun u w => u.count ctrUncorr (8 * k + w.val) 1) s
        let ok := g.good && g.uncorr.isEmpty
        let skid := (s.beam (beamKey false g.beam)).skid
        (s.mod.fw.failed = true → exec (.tagGroupReceipt g) s = .next u) ∧ (s.mod.fw.failed = false →
        (ok = true → ((s.beam k).await = none ∨ (s.beam k).await = some g.num) →
          exec (.tagGroupReceipt g) s = .next (g.msgs.foldl (fun u m => u.arrive' m)
            (((u.updBeam k fun b => { b with await := none }).settleTag g.tag true).ackGroup g.beam g.num true))) ∧
        (ok = true → (∃ n, (s.beam k).await = some n ∧ n ≠ g.num) → exec (.tagGroupReceipt g) s = .next u) ∧
        (ok = false → skid = false → exec (.tagGroupReceipt g) s = .next (((u.count ctrTagfail k 1).updBeam k fun b =>
          { b with await := if b.await.isSome then b.await else some g.num }).ackGroup g.beam g.num false)) ∧
        (ok = false → skid = true → exec (.tagGroupReceipt g) s = .next (g.msgs.foldl (fun v m =>
          if m.msg.dst.chip ≠ v.mod.chipid then v
          else match v.failedBody m.msg.body with
            | none => v
            | some x => v.arrive' { m with msg := { m.msg with body := x }, skid := none })
          ((u.count ctrTagfail k 1).settleTag g.tag false))))) ∧
      (let k := beamKey true b
        let again := (s.beam k).kept.dropWhile fun g => g.1 ≠ grp
        let u := s.updLink fun l => { l with sent := l.sent ++ again.flatMap (·.2) }
        exec (.tagGroupAck b grp true) s = .next (s.updBeam k fun b => { b with kept := b.kept.filter fun g => g.1 ≠ grp }) ∧
        let faced := (s.mod.cal.peers.getD s.mod.cal.slot []).getD b.port.val none
        (again = [] ∨ s.mod.cal.sync = false ∨ s.mod.cal.guard = true → exec (.tagGroupAck b grp false) s = .next s) ∧
        (∀ d, faced = some d → s.isLost d.val = true → exec (.tagGroupAck b grp false) s = .next s) ∧
        (again ≠ [] → s.mod.cal.sync = true → s.mod.cal.guard = false →
          (∀ d, faced = some d → s.isLost d.val = false → exec (.tagGroupAck b grp false) s =
            .next ((u.count ctrReplay k again.length).takeRoom d.val (5 * again.length))) ∧
          (faced = none → exec (.tagGroupAck b grp false) s =
            .next (u.count ctrReplay k again.length))) ∧
        (s.mod.cal.sync = false ∨ s.mod.cal.guard = true → exec (.idleGroupClose b) s = .next s) ∧
        ((s.beam k).flits = 0 → s.mod.cal.sync = true → s.mod.cal.guard = false →
          exec (.idleGroupClose b) s = .next (s.updBeam k fun b => b)) ∧
        ((s.beam k).flits ≠ 0 → s.mod.cal.sync = true → s.mod.cal.guard = false →
          exec (.idleGroupClose b) s = .next (s.updBeam k fun b =>
            let kept := b.kept ++ [(b.group, b.ends)]
            { b with flits := 0, ends := [], group := (b.group + 1) % 2 ^ 16, kept := kept.drop (kept.length - 64) }))) ∧
      (let k := beamKey true b
        let u := { s with draws := s.draws + 1 }
        let out := (s.beam k).out.any fun o => o.wl = wl
        (Config.freeBool s.draws = false → exec (.berWindowEnd b true wl errors) s = .next u) ∧
        (Config.freeBool s.draws = true →
          (out = true → exec (.berWindowEnd b true wl errors) s = .next (u.updBeam k fun b =>
            { b with oos := false, out := b.out.filter fun o => o.wl ≠ wl })) ∧
          (out = false → (s.beam k).oos = true → exec (.berWindowEnd b true wl errors) s = .next u) ∧
          (out = false → (s.beam k).oos = false → exec (.berWindowEnd b true wl errors) s = .next (u.updBeam k fun b =>
            { b with oos := !b.out.isEmpty, out := b.out ++ [⟨wl, 0, 0, 0⟩], await := if b.out.isEmpty then b.await else none })))) ∧
      (let k := s.beamAt false b
        let u := s.count ctrPrefec (8 * k + wl.val) errors
        let par := s.mod.link.par
        let signal (u : State) (back : Bool) : State :=
          match (s.mod.cal.peers.getD s.mod.cal.slot []).getD b.port.val none with
          | none => u
          | some d =>
            if s.isLost d.val then u
            else if s.mod.cal.sync && !s.mod.cal.guard then u.updLink fun l => { l with sent := l.sent ++ [.wavelength b wl back] }
            else u.updLink fun l => { l with signals := l.signals ++ [(d.val, .wavelength b wl back)] }
        let put (f : WlOut → WlOut) : State := u.updBeam k fun b => { b with out := b.out.map fun o => if o.wl = wl then f o else o }
        (((s.beam k).out.find? fun o => o.wl = wl) = none →
          ((s.beam k).oos = true ∨ errors ≤ par.degr → exec (.berWindowEnd b false wl errors) s = .next u) ∧
          ((s.beam k).oos = false → par.degr < errors → exec (.berWindowEnd b false wl errors) s =
            .next (signal ((u.count ctrDrops (8 * k + wl.val) 1).updBeam k fun b => ({ b with
              oos := !b.out.isEmpty, out := b.out ++ [⟨wl, 128000 / max 1 par.berwin, 0, 0⟩],
              await := (if b.out.isEmpty then b.await else none) } : Beam)) false))) ∧
        (∀ o, ((s.beam k).out.find? fun o => o.wl = wl) = some o →
          let clean := if errors ≤ par.restore then o.clean + 1 else 0
          (0 < o.train → exec (.berWindowEnd b false wl errors) s = .next (put fun o => { o with train := o.train - 1 })) ∧
          (o.train = 0 → 64 * par.rtMax ≤ o.windows → exec (.berWindowEnd b false wl errors) s = .next u) ∧
          (o.train = 0 → o.windows < 64 * par.rtMax →
            (par.rwin ≤ clean → exec (.berWindowEnd b false wl errors) s = .next (signal (u.updBeam k fun b =>
              { b with oos := false, out := b.out.filter fun o => o.wl ≠ wl }) true)) ∧
            (clean < par.rwin → exec (.berWindowEnd b false wl errors) s = .next
              (put fun o => { o with windows := o.windows + 1, clean := clean })))))) ∧
  (∀ (s : State) (chip : Fin 128) (c0 k : Nat) (port : Fin 16) (d : Fin 128),
      let learnt (u : State) (chip : Fin 128) (c0 : Nat) : State :=
        let v := (u.updPair chip.val fun p => { p with lost := some c0 }).updLink fun l =>
          { l with floods := l.floods.filter (fun f => f.1 ≠ chip) ++ [(chip, c0, u.mod.cal.nslot)] }
        ({ v with agenda := v.agenda.filter fun i => match i with | .e2eTimerExpiry d _ => d ≠ chip | _ => true }.next
          (.moduleFailure chip)).next (.drainRound chip (u.mod.cal.cycle - c0))
      (chip = s.mod.chipid → exec (.lostNotice chip c0) s = .next s ∧ exec (.managementLossDeclaration chip) s = .next s ∧
        (let u := s.updLink fun l => { l with relay := [] };
          exec (.moduleFailure chip) s = .next (if s.cl.killed then u else u.killOwn))) ∧
      (chip ≠ s.mod.chipid →
        ((s.pair chip.val).lost = none → exec (.lostNotice chip c0) s = .next (learnt s chip c0) ∧
          exec (.managementLossDeclaration chip) s = .next (learnt s chip s.mod.cal.cycle)) ∧
        (∀ c, (s.pair chip.val).lost = some c →
          (c0 < c → exec (.lostNotice chip c0) s = .next (learnt s chip c0)) ∧ (c ≤ c0 → exec (.lostNotice chip c0) s = .next s)) ∧
        exec (.moduleFailure chip) s = .next ((s.cl.groups.filter fun g => g.2.st = 1 && (s.membersOf g.2).any fun m => m.chip = chip).foldl
          (fun s g => s.breakGroup g.1) s)) ∧
      (((s.mod.cal.peers.getD s.mod.cal.slot []).getD port.val none) = some d → s.mod.cal.sync = true → s.isLost d.val = false →
        exec (.portDownCheck port true) s = .next (s.updPair d.val fun p => { p with down := 0 }) ∧
        (s.mod.cal.downPorts.contains port = true → exec (.portDownCheck port false) s = .next s) ∧
        (s.mod.cal.downPorts.contains port = false →
          let u := s.updCal fun c => { c with downPorts := c.downPorts ++ [port] }
          let v := u.updPair d.val fun p => { p with down := p.down + 1 }
          ((s.portsTo d.val).all (fun q => u.mod.cal.downPorts.any fun x => x.val = q) = false →
            exec (.portDownCheck port false) s = .next u) ∧
          ((s.portsTo d.val).all (fun q => u.mod.cal.downPorts.any fun x => x.val = q) = true →
            (s.mod.link.par.deadn ≤ (s.pair d.val).down + 1 → d ≠ s.mod.chipid →
              exec (.portDownCheck port false) s = .next (learnt v d s.mod.cal.cycle)) ∧
            ((s.pair d.val).down + 1 < s.mod.link.par.deadn → exec (.portDownCheck port false) s = .next v)))) ∧
      ((s.pair chip.val).lost ≠ none →
        let R := s.mod.link.par.drainR
        (k < R → exec (.drainRound chip k) s = .next s) ∧
        (k = R → (s.pair chip.val).drained = false → exec (.drainRound chip k) s = .next (s.drain chip)) ∧
        (R < k → (s.pair chip.val).drained = true → (s.pair chip.val).cleared = false → exec (.drainRound chip k) s =
          .next (s.updPair chip.val fun p => { p with nextSeq := 0, recvNext := 0, held := [], skipped := [], cleared := true }))))

/-- R246, R387, R397, R398, R404, R405, R408 to R410, R423, R429 to R431, R433, R436 to R438: a cold reset keeps monotonic
storage alone (leaf index, receipt count, life numbers) with, in the model, the count that names keys (log 67) and the
supply of free values, and starts CYCLES at 0; it goes on to READY or FWBAD. Scrubs zero memory and end with their receipt;
the interface's security states, of which the requests and the marked registers from 0x90 on are the model's (log 35); event
records with the details of log 63, sensors and rails. What the firmware's signature, a read-back, the process monitor and a
write to monotonic storage (log 99) give is free, and so is what HBM reads before the boot scrub and after KEYDROP (log 32).
A scrub that fails leaves its cluster held (log 59). -/
def Obligations.SecurityEvents : Prop :=
  ∀ (s : State) (cl : ClusterId) (fn : Fin 17) (reg size rail : Nat) (x : Sensors),
    (let fw : Firmware := { Firmware.reset with
        boot := 0, mrs := (Vector.replicate 8 0).set 0 (extendMr 0 Config.romDigest),
        leaf := s.mod.fw.leaf, receipts := s.mod.fw.receipts, lives := s.mod.fw.lives, keys := s.mod.fw.keys };
      exec .coldReset s = .next { State.reset with
        mem := { State.reset.mem with hbmKey := s.draws + 1 }, mod := { Module.reset with fw := fw }, draws := s.draws + 1 }) ∧
    (s.mod.fw.boot = 0 → s.mod.fw.warm = none →
      let u := { s with draws := s.draws + 33 }
      (Config.freeBool s.draws = false → s.bootMove = u.updFw fun w => { w with boot := 2 }) ∧
      (Config.freeBool s.draws = true → s.bootMove = ({ u with mem := State.reset.mem } : State).updFw fun w => { w with
        boot := 1, mrs := w.mrs.set 1 (extendMr w.mrs[1] Config.firmwareDigest),
        procMon := ((List.range 32).map fun i => Config.freeNat (s.draws + 1 + i), s.mod.cycles) })) ∧
    (s.mod.fw.boot ≠ 0 → s.bootMove = s) ∧ s.mgmtRead 0 0x0088 = some s.mod.fw.boot ∧
    s.mgmtRead fn 0x0080 = some ((s.fn fn).evtCnt % 2 ^ 64) ∧
    (s.mod.fw.boot = 1 → s.mod.fw.failed = false → exec .functionLevelReset s = .next (s.warmReset none)) ∧
    (s.mod.fw.boot ≠ 1 ∨ s.mod.fw.failed = true → exec .functionLevelReset s = .next s) ∧
    ((s.owner cl).st = 2 → s.mod.fw.quar.any (fun q => q.cl = cl && !q.hold) = true →
      exec (.scrubStart cl) s = .next ((s.setOwner cl ⟨false, 3, 0⟩).post (.scrubCompletion cl))) ∧
    (∀ q v, s.mod.fw.quar.find? (fun q => q.cl = cl) = some q → (s.owner cl).st = 3 → q.cmd = none →
      let w := { s with draws := s.draws + 1 }
      let u := if cl = s.me then w.scrubOwn q.hbm else w
      let bad := (decide (q.spad = 2) || decide (q.hbm = 2)) && Config.freeBool s.draws
      let held (v : State) : State := ((v.setOwner cl ⟨false, 2, 0⟩).updFw fun w => { w with
        quar := w.quar.map fun x => if x.cl = cl then { x with hold := true, cmd := none } else x }).warmCheck
      (bad = true → exec (.scrubCompletion cl) s = .next (held u)) ∧
      (bad = false → u.receipt q.part q.reason q.ptag (scrubRanges q) = (true, v) → exec (.scrubCompletion cl) s =
        .next (((v.setOwner cl Owner.free).updFw fun w => { w with quar := w.quar.filter fun x => x.cl ≠ cl }).warmCheck)) ∧
      (bad = false → u.receipt q.part q.reason q.ptag (scrubRanges q) = (false, v) →
        exec (.scrubCompletion cl) s = .next (held v))) ∧
    (s.scrubOwn 0).mem = ⟨[], [], [], [], [], [], 0, []⟩ ∧
    (inHbm s.cl.par.dumpOff 557056 = false → (s.scrubOwn 1).mem = ⟨[], [], [], [], [], [], s.draws + 1, []⟩) ∧
    ((s.fn fn).tdisp = .unlocked →
      exec (.tdispConfigLock fn) s = .next (s.updFn fn fun f => { f with tdisp := .locked, armed := true })) ∧
    ((s.fn fn).tdisp ≠ .unlocked → exec (.tdispConfigLock fn) s = .next s) ∧
    ((s.fn fn).tdisp = .unlocked → exec (.tdispInterfaceRequest fn .lock) s = .next (s.next (.tdispConfigLock fn))) ∧
    ((s.fn fn).tdisp = .locked →
      exec (.tdispInterfaceRequest fn .start) s = .next (s.updFn fn fun f => { f with tdisp := .run })) ∧
    exec (.tdispInterfaceRequest fn .stop) s = .next ((s.updFn fn fun f =>
      { f with tdisp := .unlocked, armed := false }).tearDownAll fun p => p.fn = fn) ∧
    (((s.fn fn).armed = true ∧ 0x90 ≤ reg ∧ (s.fn fn).tdisp ≠ .error) → exec (.markedRegisterWrite fn reg) s =
      .next ((s.updFn fn fun f => { f with tdisp := .error }).tearDownAll fun p => p.fn = fn)) ∧
    ((s.fn fn).armed = false ∨ reg < 0x90 ∨ (s.fn fn).tdisp = .error → exec (.markedRegisterWrite fn reg) s = .next s) ∧
    exec (.mgmtRegisterWrite fn reg) s = exec (.markedRegisterWrite fn reg) s ∧
    exec (.portWriteDiscard fn size) s = .next (s.report 0x07 [fn.val, size]) ∧
    (32 ≤ (s.fn fn).evtLen → let t := s.report 0x07 [fn.val, size]; let f := s.fn fn
      HostOut.event (f.evtBase + 32 * (f.evtCnt % (f.evtLen / 32))) [0x07, fn.val, size, 0] ∈ t.mod.hostOut ∧
        t.fn fn = { f with evtCnt := f.evtCnt + 1 }) ∧
    ((s.fn fn).evtLen < 32 → (s.report 0x07 [fn.val, size]).fn fn = s.fn fn) ∧
    (s.mod.fw.failed = true → exec (.railExcursion rail) s = .next s ∧ exec (.sensorSample x) s = .next s) ∧
    (s.mod.fw.failed = false →
      exec (.railExcursion rail) s = .next ((s.report 0x08 [4, rail, 1]).failModule) ∧
      ((∀ t ∈ s.mod.fw.sample.1.junction.toList ++ x.junction.toList, t < 95) → (∀ t ∈ s.mod.fw.sample.1.hbm.toList ++ x.hbm.toList, t < 95) →
        s.mod.fw.throttled = [] → s.mod.fw.hbmHalf = [] → x.power ≤ s.mod.fw.plim → s.mod.fw.powerHigh = false →
        exec (.sensorSample x) s = .next (s.updFw fun w => { w with sample := (x, s.mod.cycles) })) ∧
      ((∃ i : Fin 64, 115 ≤ x.junction[i]) ∨ (∃ i : Fin 8, 105 ≤ x.hbm[i]) →
        ∃ t, exec (.sensorSample x) s = .next t ∧ t.mod.fw.failed = true ∧ t.mod.cal.sync = false))

/-- R376, R403, R405 to R407, R413, R416, R418, R428, R431 to R434, R436, R438: a command of a READY module whose function is
free, with an argument block within its limit, runs and ends with its response record: DENIED below the physical function
where R432 says so, before its other checks (log 58), then BUSY, BADARG and REFUSED by its own, DONE with its effect. The
address of the output is free (log 112), the order of monitor readings and the start of event records log 63; a warm reset
ends with its scrubs (log 59). R364, R384, R387, R401, R403, R405, R406, R425, R426, R428, R432: a command about a
partition, or one of its clusters, is DENIED for a function that is not bound to it and in RUN, then BUSY while a teardown
ends it, before its arguments are checked (log 58); else it has its effect, and one that goes on ends when it can. That a
write to monotonic storage may fail, so that nothing is signed, is free (log 99), and whether the revocation of the last
participant ends its partition (log 98); how an image fills granted ranges is log 113. -/
def Obligations.ModuleCommands : Prop :=
  (∀ (s : State) (c : Cmd), s.mod.fw.boot = 1 → s.mod.fw.failed = false → (s.fn c.fn).busy = none → c.argL ≤ 2 ^ 20 →
      let ends (u : State) (r : Nat) (out : List Byte) : Out := .next (((({ u with draws := u.draws + 1 } : State).toHost
        (.response c.fn c.rspA [c.seq, r, out.length, Config.freeNat u.draws % 2 ^ 64] out)).updFn c.fn fun f => { f with busy := none }).nextCmd c.fn)
      (s.nextCmd c.fn = match s.mod.fw.waiting.find? fun i => (cmdOf i).any fun d => d.fn = c.fn with
        | none => s
        | some i => (s.updFw fun w => { w with waiting := w.waiting.erase i }).next i) ∧
      exec (.status c) s = ends s 0 (wordBytes (s.mod.fw.boot :: (List.range 256).map (fun i => (mapGet Owner.free s.mod.fw.owners i).word)
        ++ [s.mod.feat0.toNat, s.mod.feat1.toNat])) ∧
      exec (.commandUnknown c) s = ends s 6 [] ∧
      (∀ base len, exec (.evtcfg c base len) s = ends (s.updFn c.fn fun f => { f with evtBase := base, evtLen := len, evtCnt := 0 }) 0 []) ∧
      (let x := s.mod.fw.sample.1;
        exec (.monread c) s = ends s 0 (wordBytes ((x.junction.toList ++ x.hbm.toList).map (fun i => (BitVec.ofInt 64 i).toNat)
          ++ x.rails.flatMap (fun r => [r.1, r.2]) ++ [x.power, s.mod.fw.sample.2] ++ s.mod.fw.procMon.1 ++ [s.mod.fw.procMon.2]
          ++ s.cl.errors.flatMap fun e => [e.1, e.2]))) ∧
      (c.fn ≠ 0 → ∀ (f0 f1 : Word) (p : PodCfg) (l : LinkCfg) (w : Nat) (a : LaunchArgs) (r : RejoinArgs) (t : RestoreArgs)
        (n : Nat) (k : List CtxId),
        exec (.warmreset c) s = ends s 4 [] ∧ exec (.featset c f0 f1) s = ends s 4 [] ∧ exec (.podcfg c p) s = ends s 4 [] ∧
        exec (.linkcfg c l) s = ends s 4 [] ∧ exec (.linkstat c) s = ends s 4 [] ∧ exec (.pwrlim c w) s = ends s 4 [] ∧
        exec (.launch c a) s = ends s 4 [] ∧ exec (.rejoin c r) s = ends s 4 [] ∧ exec (.restore c t) s = ends s 4 [] ∧
        exec (.debug c n k) s = ends s 4 []) ∧
      (c.fn = 0 →
        exec (.warmreset c) s = .next ((s.updFn c.fn fun f => { f with busy := some (.warmreset c) }).warmReset (some c)) ∧
        (∀ f0 f1, (s.mod.fw.launched = true → exec (.featset c f0 f1) s = ends s 2 []) ∧
          (s.mod.fw.launched = false →
            exec (.featset c f0 f1) s = ends (s.updMod fun m => { m with feat0 := (f0 &&& 0xFFFF) ||| 7 }) 0 [])) ∧
        (∀ w, (w < 1200 ∨ 2600 < w → exec (.pwrlim c w) s = ends s 3 []) ∧
          (1200 ≤ w → w ≤ 2600 → exec (.pwrlim c w) s = ends (s.updFw fun v => { v with plim := w }) 0 [])) ∧
        (∀ p, (podRanges p = false → exec (.podcfg c p) s = ends s 3 []) ∧
          (podRanges p = true → podSymmetric p = false → exec (.podcfg c p) s = ends s 2 []) ∧
          (podRanges p = true → podSymmetric p = true →
            exec (.podcfg c p) s = ends (s.updMod fun m => { m with cal := { m.cal with pend := some p } }) 0 [])) ∧
        (∀ l, (linkRanges l s.mod.link.par = false → exec (.linkcfg c l) s = ends s 3 []) ∧
          (linkRanges l s.mod.link.par = true → l.skid.any (fun b => b.2) = true → s.mod.feat0.getLsbD 13 = false →
            exec (.linkcfg c l) s = ends s 2 []) ∧
          (linkRanges l s.mod.link.par = true → l.skid.any (fun b => b.2) = false ∨ s.mod.feat0.getLsbD 13 = true →
            let u := s.updLink fun k => { k with par := k.par.with l }
            let u := l.skid.foldl (fun u b => (u.updBeam (beamKey false b.1) fun x => { x with nextSkid := b.2 }).updBeam (beamKey true b.1)
              fun x => { x with nextSkid := b.2 }) u
            let u := l.restart.foldl (fun u r => u.restartWl r.1 r.2) u
            (l.skid = [] → exec (.linkcfg c l) s = ends u 0 []) ∧
            (l.skid ≠ [] → exec (.linkcfg c l) s =
              ends (u.extend 2 (Config.configDigest u.mod.feat0 u.mod.feat1 u.skidBeams)) 0 []))) ∧
        (∀ l : LaunchArgs, (l.clusters.any s.clusterBusy = true ∨ s.ending l.part = true → exec (.launch c l) s = ends s 1 []) ∧
          (l.clusters.any s.clusterBusy = false → s.ending l.part = false →
            (l.clusters.contains s.me = false →
              (s.launchOk l = false → exec (.launch c l) s = ends s 2 []) ∧
              (s.launchOk l = true → exec (.launch c l) s = ends (s.launchModule l) 0 [])) ∧
            (l.clusters.contains s.me = true →
              ((s.putImages l).launchOk l = false → exec (.launch c l) s = ends s 2 []) ∧
              ((s.putImages l).launchOk l = true →
                exec (.launch c l) s = ends (((s.putImages l).launchModule l).launchOwn l) 0 [])))) ∧
        exec (.linkstat c) s = ends ((s.updLink fun k => { k with counters := [] }).updMod fun m => { m with
            pairs := m.pairs.filterMap fun p => let x := { p.2 with resend := 0, gcmfail := 0 }; if x = Pair.reset then none else some (p.1, x) }) 0
          (wordBytes (s.mod.link.counters.flatMap (fun x => [x.1, x.2]) ++ s.mod.pairs.flatMap fun p => [p.1, p.2.resend, p.2.gcmfail])) ∧
        (∀ r, (s.ending r.part = true → exec (.rejoin c r) s = ends s 1 []) ∧
          (∀ p, s.ending r.part = false → s.part? r.part = some p →
            let mine := p.clusters.filter fun cl => cl.chip = r.chip
            let life := mapGet 0 s.mod.fw.lives (128 * r.part + r.chip.val)
            let born (u : State) : State := u.updFw fun w => { w with lives := mapSet 0 w.lives (128 * r.part + r.chip.val) (life + 1) }
            let open' (u : State) : State := if u.cl.part = some r.part then r.groups.foldl (fun u g => u.reform g.1 g.2) u else u
            (mine = [] → exec (.rejoin c r) s = ends s 3 []) ∧
            (mine ≠ [] → r.chip ≠ s.mod.chipid →
              (r.quote ≠ p.mset → exec (.rejoin c r) s = ends (s.updPart p.id fun p =>
                { p with clusters := p.clusters.filter fun cl => cl.chip ≠ r.chip }) 2 []) ∧
              (r.quote = p.mset → 65535 ≤ life → exec (.rejoin c r) s = ends s 2 []) ∧
              (r.quote = p.mset → life < 65535 → exec (.rejoin c r) s = ends (open' ((born s).rejoinPair r.chip)) 0 [])) ∧
            (mine ≠ [] → r.chip = s.mod.chipid →
              mine.any (fun cl => s.clusterBusy cl || (decide ((s.owner cl).st = 1) && decide ((s.owner cl).part ≠ r.part))) = false →
              (r.quote ≠ p.mset → exec (.rejoin c r) s = ends (s.refuseRejoin p r.chip) 2 []) ∧
              (r.quote = p.mset → 65535 ≤ life → exec (.rejoin c r) s = ends s 2 []) ∧
              (r.quote = p.mset → life < 65535 → ∀ v,
                let ranges := mine.flatMap fun cl => scrubRanges ⟨cl, p.id, p.fn, false, 0, 0, false, 0, 0xFF, p.dumpOff, none⟩;
                (s.receipt r.part 0 0xFF ranges = (false, v) → exec (.rejoin c r) s = ends v 2 []) ∧
                (s.receipt r.part 0 0xFF ranges = (true, v) →
                  exec (.rejoin c r) s = ends (open' ((born v).rejoinOwn p r.member)) 0 []))))) ∧
        (∀ r : RestoreArgs, (s.ending r.part = true → exec (.restore c r) s = ends s 1 []) ∧
          (s.ending r.part = false → s.part? r.part = none → exec (.restore c r) s = ends s 3 []) ∧
          (∀ p, s.ending r.part = false → s.part? r.part = some p →
            (r.blob.ident ≠ Config.identityDigest ∨ r.blob.mset ≠ p.mset ∨ Config.keyUnwrap r.blob.ident r.blob.mset r.blob.wrapped = none →
              exec (.restore c r) s = ends s 2 []) ∧
            (∀ k, r.blob.ident = Config.identityDigest → r.blob.mset = p.mset →
              Config.keyUnwrap r.blob.ident r.blob.mset r.blob.wrapped = some k → exec (.restore c r) s = ends (r.chunks.foldl (fun u x =>
                if x.1 = u.me && !u.cl.killed && decide (x.2.1 + x.2.2.length ≤ 2 ^ 31) then
                  u.putBytes (hbmLo + x.2.1) (crypt false (u.memKey { p with pk := k } x.1) x.2.1 x.2.2) else u)
                (s.updPart r.part fun p => { p with pk := k })) 0 []))) ∧
        (∀ part k, (s.ending part = true → exec (.debug c part k) s = ends s 1 []) ∧
          (s.ending part = false → s.part? part = none → exec (.debug c part k) s = ends s 3 []) ∧
          (∀ p, s.ending part = false → s.part? part = some p →
            (p.agreed = false → exec (.debug c part k) s = ends s 2 []) ∧
            (p.agreed = true → s.cl.part ≠ some part → exec (.debug c part k) s = ends s 0 []) ∧
            (p.agreed = true → s.cl.part = some part →
              exec (.debug c part k) s = ends (k.foldl (fun u x => u.updCtx x fun y => { y with debug := true }) s) 0 []))))) ∧
  (∀ (s : State) (c : Cmd) (part : Nat) (cl : ClusterId) (tag : Fin 64) (key : Nat) (host : Bool) (core : Fin 4)
        (m n : Nat) (hold : Bool) (ranges : List (Nat × Nat)),
      s.mod.fw.boot = 1 → s.mod.fw.failed = false → (s.fn c.fn).busy = none → c.argL ≤ 2 ^ 20 →
      let ends (u : State) (r : Nat) (out : List Byte) : Out := .next (u.finishCmd c r out)
      let run := decide ((s.fn c.fn).tdisp = .run)
      let about (r : Nat) : Prop := exec (.ingestkey c part tag key) s = ends s r [] ∧ exec (.quote c part key) s = ends s r [] ∧
        exec (.revoke c part tag) s = ends s r [] ∧ exec (.checkpoint c ⟨part, ranges⟩) s = ends s r [] ∧
        exec (.bias c part key host) s = ends s r []
      let mine (q : Quar) : Bool := decide (q.part = part) && q.ends
      let was (q : Quar) : Bool := decide (q.fn = c.fn) && run
      (s.ending part = true → s.mod.fw.quar.any (fun q => mine q && was q) = false → about 4) ∧
      (s.ending part = true → s.mod.fw.quar.any (fun q => mine q && was q) = true → about 1) ∧
      (s.ending part = false → s.part? part = none → about 4) ∧
      (∀ p, s.ending part = false → s.part? part = some p →
        (p.fn ≠ c.fn ∨ run = false → about 4) ∧
        (p.fn = c.fn → run = true →
          (p.participants.contains tag.val = true →
            (Config.ingestUnwrap c.fn.val key = none → exec (.ingestkey c part tag key) s = ends s 3 []) ∧
            (∀ k, Config.ingestUnwrap c.fn.val key = some k → exec (.ingestkey c part tag key) s =
              ends (s.updPart part fun q => { q with ikeys := q.ikeys.filter (fun x => x.1 ≠ tag.val) ++ [(tag.val, k)] }) 0 [])) ∧
          (p.participants.contains tag.val = false → exec (.ingestkey c part tag key) s = ends s 3 [] ∧
            exec (.revoke c part tag) s = ends s 3 []) ∧
          (p.participants.contains tag.val = true →
            let u := (s.updPart part fun q => { q with revoked := insNat q.revoked tag.val }).updFn c.fn fun f =>
              { f with busy := some (.revoke c part tag) }
            (s.cl.part ≠ some part ∨ s.cl.killed = true → exec (.revoke c part tag) s = .next u) ∧
            (s.cl.part = some part → s.cl.killed = false →
              let v := u.updCl fun k => { k with revoked := insNat k.revoked tag.val }
              let w := ((v.ctxsOf tag.val).foldl (fun w x => ((w.cancelTasks x).stopRevoked x).dropSends x) v).freeRevoked tag.val
              exec (.revoke c part tag) s = .next ((w.ownBufs part tag.val).foldl (fun w b =>
                ((bufPages b).filter fun v => !w.pageResident v).foldl (fun w v => w.triggerRecall v) (w.scrubBuf b)) w))) ∧
          (let l := toLe 4 1 ++ toLe 2 part ++ toLe 2 0 ++ toLe 32 key ++ s.mod.fw.mrs.toList.flatMap digestBytes
              ++ toLe 8 p.savectr ++ toLe 8 s.mod.fw.receipts
            let u := { s with draws := s.draws + 1 }
            (s.mod.fw.leaf < 2 ^ 30 → Config.freeBool s.draws = false →
              exec (.quote c part key) s = ends (u.updFw fun w => { w with leaf := s.mod.fw.leaf + 1 }) 0
                (l ++ (Config.lmsSign s.mod.fw.leaf l ++ List.replicate 5396 0).take 5396)) ∧
            (2 ^ 30 ≤ s.mod.fw.leaf ∨ Config.freeBool s.draws = true → exec (.quote c part key) s = ends u 2 [])) ∧
          (s.granted p ranges = false → exec (.checkpoint c ⟨part, ranges⟩) s = ends s 3 []) ∧
          (s.granted p ranges = true → s.eng.copies = [] → exec (.checkpoint c ⟨part, ranges⟩) s = ends (s.checkpoint p ranges) 0 []) ∧
          (s.granted p ranges = true → s.eng.copies ≠ [] → exec (.checkpoint c ⟨part, ranges⟩) s =
            .next (s.updFn c.fn fun f => { f with busy := some (.checkpoint c ⟨part, ranges⟩) })) ∧
          (p.hdm[key]? = none → exec (.bias c part key host) s = ends s 3 []) ∧
          (∀ h, p.hdm[key]? = some h →
            let flip (u : State) : State := u.updPart part fun q => { q with hdm := q.hdm.set key { h with host := host } }
            let lines (x : Nat × Nat) : Bool := decide (hbmLo + h.page * 2 ^ 16 ≤ 64 * x.1) && decide (64 * x.1 < hbmLo + (h.page + 1) * 2 ^ 16)
            (host = true ∨ h.host = false ∨ h.cl ≠ s.me → exec (.bias c part key host) s = ends (flip s) 0 []) ∧
            (host = false → h.host = true → h.cl = s.me → exec (.bias c part key host) s = ends (flip (s.dropHostLines lines)) 0 [])))) ∧
      (let bound := (s.partOf? cl).any (fun p => decide (p.fn = c.fn) && run) || s.mod.fw.quar.any fun q => decide (q.cl = cl) && was q;
        (bound = false → exec (.kill c cl) s = ends s 4 [] ∧ exec (.wake c cl) s = ends s 4 [] ∧ exec (.dumpget c cl core) s = ends s 4 []) ∧
        (bound = true → s.clusterBusy cl = true → exec (.kill c cl) s = ends s 1 [] ∧ exec (.wake c cl) s = ends s 1 []) ∧
        (bound = true → s.clusterBusy cl = false → exec (.kill c cl) s = ends (s.next (.clusterKill cl)) 0 [] ∧
          (cl ≠ s.me ∨ s.mapped = [] → exec (.wake c cl) s = ends s 0 []) ∧
          (cl = s.me → s.mapped ≠ [] → exec (.wake c cl) s = .next (s.mapped.foldl (fun u w =>
            u.send (ofCoords (bits w 32 15)) 0 (.recallPage (bits w 0 20))) (s.updFn c.fn fun f => { f with busy := some (.wake c cl) })))) ∧
        (bound = true →
          (s.mod.fw.quar.any (fun q => q.cl = cl) = false → exec (.dumpget c cl core) s = ends s 3 []) ∧
          (s.mod.fw.quar.any (fun q => q.cl = cl) = true →
            ((s.owner cl).st ≠ 2 → exec (.dumpget c cl core) s = ends s 1 []) ∧
            ((s.owner cl).st = 2 → cl ≠ s.me → exec (.dumpget c cl core) s = ends s 0 []) ∧
            (∀ l, (s.owner cl).st = 2 → cl = s.me → s.rawParts (s.dumpBase core) [] (pageParts (s.dumpBase core) 0x22000) = some l →
              exec (.dumpget c cl core) s = ends s 0 (l.flatMap fun x => s.bytes x.2.1 x.2.2))))) ∧
      (let good := (decide (m = 0) || decide (m = 2)) && (decide (n = 1) || decide (n = 2));
        (∀ p, s.part? part = some p →
          (c.fn ≠ 0 → p.fn ≠ c.fn ∨ run = false → exec (.teardown c part m n hold) s = ends s 4 []) ∧
          (c.fn = 0 ∨ (p.fn = c.fn ∧ run = true) →
            (s.ending part = true → exec (.teardown c part m n hold) s = ends s 1 []) ∧
            (s.ending part = false → good = false → exec (.teardown c part m n hold) s = ends s 3 []) ∧
            (s.ending part = false → good = true →
              (hold = true ∨ p.clusters.any (fun cl => cl.chip = s.mod.chipid) = false →
                exec (.teardown c part m n hold) s = ends (s.tearDown p m n hold 0 0xFF none) 0 []) ∧
              (hold = false → p.clusters.any (fun cl => cl.chip = s.mod.chipid) = true → exec (.teardown c part m n hold) s =
                .next ((s.updFn c.fn fun f => { f with busy := some (.teardown c part m n hold) }).tearDown p m n false 0 0xFF (some c)))))) ∧
        (s.part? part = none → let left := s.mod.fw.quar.filter mine
          (c.fn ≠ 0 → left.any was = false → exec (.teardown c part m n hold) s = ends s 4 []) ∧
          (c.fn = 0 ∨ left.any was = true →
            (left = [] → exec (.teardown c part m n hold) s = ends s 3 []) ∧
            (left ≠ [] → hold = true ∨ left.any (fun q => !q.hold) = true → exec (.teardown c part m n hold) s = ends s 1 []) ∧
            (left ≠ [] → hold = false → left.any (fun q => !q.hold) = false →
              (good = false → exec (.teardown c part m n hold) s = ends s 3 []) ∧
              (good = true → exec (.teardown c part m n hold) s = .next (left.foldl (fun u q => u.next (.scrubStart q.cl))
                ((s.updFn c.fn fun f => { f with busy := some (.teardown c part m n hold) }).updFw fun w => { w with
                  quar := w.quar.map fun q => if mine q then { q with hold := false, spad := m, hbm := n, cmd := some c } else q }))))))) ∧
      (∀ f, (∀ d x, (s.fn f).busy = some (.wake d x) → s.cl.killed = true ∨ s.mapped = [] → s.firmwareMove f = s.finishCmd d 0 []) ∧
        (∀ d x p, (s.fn f).busy = some (.checkpoint d x) → s.eng.copies = [] → s.part? x.part = some p →
          s.firmwareMove f = (s.checkpoint p x.ranges).finishCmd d 0 []) ∧
        (∀ d x t, (s.fn f).busy = some (.revoke d x t) → s.cmdReady (.revoke d x t) = true → s.firmwareMove f = s.endRevoke d x t.val)))

/-- R353, R156: the checks of fetching, parcel by parcel, and the traps of those that fail. -/
def Obligations.FetchChecks : Prop :=
  (∀ (s : State) (pc : BitVec 48),
    let a : Word := pc.zeroExtend 64
    let fails (cause : BitVec 8) : Prop := ∃ t, s.fetchParcel pc = (.inr (.fail cause a), t)
    let w := (s.walk s.agent pc.toNat).1
    (inSpad pc.toNat 2 = false → inHbm pc.toNat 2 = false → fails 0x0A) ∧
    (inSpad pc.toNat 2 = true → s.spadAllowed s.sup .fx pc.toNat 2 = false → fails 0x09) ∧
    (inSpad pc.toNat 2 = false → inHbm pc.toNat 2 = true →
      (w = .unmapped → fails 0x0A) ∧
      (∀ leaf two, w = .leaf leaf two →
        (bits leaf (if s.sup then 52 else 55) 1 = 0 → fails 0x0A) ∧
        (bits leaf (if s.sup then 52 else 55) 1 = 1 → bits leaf 60 2 ≠ 0 → fails 0x0C)))) ∧
  (∀ (s t : State) (pc : BitVec 48) (cause : BitVec 8) (a : Word) (p : Parcel),
    (s.fetchParcel pc = (.inr (.fail cause a), t) → s.fetchAt pc = (.fail cause a, t)) ∧
    (∀ u, s.fetchParcel pc = (.inl p, t) → isLong p = true → t.fetchParcel (pc + 2) = (.inr (.fail cause a), u) →
      s.fetchAt pc = (.fail cause a, u))) ∧
  (∀ (s : State) (core : CoreId) (c : CtxId) (r : List Turn) (t : State) (cause : BitVec 8) (a : Word),
    s.turns = .issue core :: r → (({ s with turns := r } : State).nextReady core).1 = some c → (s.getCtx c).debug = false →
    (numOf c = 0 → ({ s with turns := r } : State).handlerDue core = false) →
    (s.slotFor core c r).fetchAt (s.slotFor core c r).ctx.pc = (.fail cause a, t) →
    (cause = 0x09 ∨ cause = 0x0A → step s = settled (.next (t.trapAux cause 0 a 0))) ∧
    (cause = 0x0C →
      let page := (a.toNat - hbmLo) / 2 ^ 16
      step s = settled (.next ((t.trapAt t.cur 0x0C 0 a 0 (.recall page)).next (.recallStart page)))))

/-- R4, R20, R72, R87, R95: what each operation on memory leaves. The memory stays in canonical form; bytes written are read
back, low address first; nothing else changes, but for NEXT words of queued records in a write that takes a record from its
queue. A write of software leaves the read-only bits of the pool as they are (R18). -/
def Obligations.MemoryOperations : Prop :=
  ∀ s : State, s.mem.wf = true →
    (∀ (a : Nat) (l : List Byte), (s.putBytes a l).mem.wf = true ∧ (∀ i, i < l.length → (s.putBytes a l).byte (a + i) = l.getD i 0) ∧
      (∀ c, c < a ∨ a + l.length ≤ c → (s.putBytes a l).byte c = s.byte c)) ∧
    (∀ (a : Nat) (w : Word), (s.putWord a w).word a = w ∧ (s.putWord a w).mem.wf = true) ∧
    (∀ (o key t : Nat) (l : List Byte), (s.writeOwn o key l t).mem.wf = true ∧
      (∀ i, i < l.length → ¬s.queuedNext (key + i) → (s.writeOwn o key l t).byte (key + i) =
        ((l.getD i 0 &&& ~~~s.roBits (o + i)) ||| (s.byte (key + i) &&& s.roBits (o + i)))) ∧
      (∀ c, c < key ∨ key + l.length ≤ c → ¬s.queuedNext c → (s.writeOwn o key l t).byte c = s.byte c)) ∧
    (∀ (w : Nat) (full : Bool), (s.setFE w full).mem.wf = true ∧ (s.setFE w full).isFull w = full ∧
      (∀ v, v ≠ w → (s.setFE w full).isFull v = s.isFull v) ∧ (∀ c, (s.setFE w full).byte c = s.byte c)) ∧
    (∀ g w r : Nat, (s.setStamp g w r).mem.wf = true ∧ (s.setStamp g w r).wts g = w ∧ (s.setStamp g w r).rts g = r ∧
      (∀ h, h ≠ g → (s.setStamp g w r).wts h = s.wts h ∧ (s.setStamp g w r).rts h = s.rts h) ∧
      (∀ c, (s.setStamp g w r).byte c = s.byte c)) ∧
    (∀ nbits w : Nat, (s.withFetchWord nbits w).mem.wf = true)

/-- Every well-formed program instruction, encoded and decoded again, is itself, whatever parcels follow (R155 to R175). -/
def Obligations.RoundTrip : Prop :=
  ∀ i : Instr, i.isProgram = true → i.wf = true → ∀ r : List Parcel, decode (encode i ++ r) = .ok (i, r)

/-- R157 to R175: words that the spec's encodings give decode to the instructions they stand for. -/
def Obligations.DecodedWords : Prop :=
  decodeTableWord 32 0xC0190A80 = some (.add 3 4 5 false true) ∧
  decodeTableWord 16 0xBC3C = some (.rep 3 true true false false) ∧
  decodeTableWord 32 0xCA480010 = some (.lim 9 0 0x10) ∧
  decodeTableWord 32 0xCB425401 = some (.leaR 8 9 10 false false) ∧
  decodeTableWord 32 0xDA5A0C00 = some (.ldI64 11 8 false 0) ∧
  decodeTableWord 32 0xDD031610 = some (.aaddNr 12 11 false false false) ∧
  decodeTableWord 32 0xEA20AA00 = some (.vld 8 5 false 0xA 0 0) ∧
  decodeTableWord 32 0xFB841080 = some (.vcmp 4 1 1 2 0 false false) ∧
  decodeTableWord 32 0xFD0C1408 = some (.vrsum 3 1 0 1 false) ∧
  decodeTableWord 16 0x8000 = some .nop ∧
  decodeTableWord 16 0 = none ∧
  decodeTableWord 32 0xFFFFFFFF = none

/-- R13, R110, R155, R165, R187, R353, R376, R431, R434: what a step does when a core has the issue slot, and which move a step
makes. An instruction that reads a damaged entry has no effect but the machine check 0x1F. Which of several moves is made is
free (log 2), and whether a context that takes more than a cycle is passed over (log 3). -/
def Obligations.StepRunsDecoded : Prop :=
  -- the first READY context behind the one that issued last has the slot, unless its last instruction may still take its cycles
  (∀ (s : State) (core : CoreId) (n : Nat), (s.getCore core).halted = false → (s.getCore core).gated = false →
    (s.getCore core).dbgHalt = false → s.running = true → n < 16 →
    (∀ m, m < n → (s.getCtx (ctxOf core (Fin.ofNat 16 ((s.getCore core).lastIssued.val + 1 + m)))).st ≠ .ready ∨
      s.isTrailer (ctxOf core (Fin.ofNat 16 ((s.getCore core).lastIssued.val + 1 + m))) = true) →
    let c := ctxOf core (Fin.ofNat 16 ((s.getCore core).lastIssued.val + 1 + n))
    (s.getCtx c).st = .ready → s.isTrailer c = false → (s.getCtx c).lag = false → (s.nextReady core).1 = some c) ∧
  (∀ (s : State) (core : CoreId) (c : CtxId), (s.nextReady core).1 = some c → (s.getCtx c).st = .ready ∧ s.isTrailer c = false) ∧
  -- its next instruction is executed
  (∀ (s : State) (core : CoreId) (c : CtxId) (r : List Turn) (i : Instr) (len : Nat) (t w : State),
    s.turns = .issue core :: r → (({ s with turns := r } : State).nextReady core).1 = some c → (s.getCtx c).debug = false →
    (numOf c = 0 → ({ s with turns := r } : State).handlerDue core = false) →
    (s.slotFor core c r).fetchAt (s.slotFor core c r).ctx.pc = (.instr i len, t) →
    (∀ n d a b x, i ≠ .rep n d a b x) → featureOff t.mod.feat0 i = false →
    let u := t.upd fun x => { x with repidx := 0, lag := !oneCycle (longForm i) }
    exec i u = .next w → step s = settled (.next (if w.hurt then u.trap 0x1F else w))) ∧
  -- a prefix with its target: the repetition that REPIDX names is executed, or the target is passed
  (∀ (s : State) (core : CoreId) (c : CtxId) (r : List Turn) (cnt : BitVec 6) (sd sa sb st : Bool) (len : Nat) (t : State)
      (i : Instr) (m : Nat) (u w z : State),
    s.turns = .issue core :: r → (({ s with turns := r } : State).nextReady core).1 = some c → (s.getCtx c).debug = false →
    (numOf c = 0 → ({ s with turns := r } : State).handlerDue core = false) →
    (s.slotFor core c r).fetchAt (s.slotFor core c r).ctx.pc = (.instr (.rep cnt sd sa sb st) len, t) →
    t.ctx.repidx.toNat ≤ cnt.toNat → t.fetchAt (t.ctx.pc + 2) = (.instr i m, u) → featureOff u.mod.feat0 i = false →
    let u' := u.upd fun x => { x with lag := !oneCycle (longForm i) }
    exec (.rep cnt sd sa sb st) { u' with target := some (longForm i, m) } = .next w →
    ((w.rep = none ∧ z = w) ∨ (∃ p, w.rep = some p ∧ (repOperands p (longForm i)).wf = true ∧ exec (repOperands p (longForm i)) w = .next z) ∨
      (∃ p, w.rep = some p ∧ (repOperands p (longForm i)).wf = false ∧ exec (.illegalEncoding 0) w = .next z)) →
    step s = settled (.next (if z.hurt then u'.trap 0x1F else z))) ∧
  -- a REPIDX above CNT: the target is passed by its first parcel alone, no trap of its own is raised
  (∀ (s : State) (core : CoreId) (c : CtxId) (r : List Turn) (cnt : BitVec 6) (sd sa sb st : Bool) (len : Nat) (t u : State) (p : Parcel),
    s.turns = .issue core :: r → (({ s with turns := r } : State).nextReady core).1 = some c → (s.getCtx c).debug = false →
    (numOf c = 0 → ({ s with turns := r } : State).handlerDue core = false) →
    (s.slotFor core c r).fetchAt (s.slotFor core c r).ctx.pc = (.instr (.rep cnt sd sa sb st) len, t) →
    cnt.toNat < t.ctx.repidx.toNat → t.fetchParcel (t.ctx.pc + 2) = (.inl p, u) →
    step s = settled (exec (.rep cnt sd sa sb st)
      { u with target := some (.illegalEncoding (p.zeroExtend 32), if isLong p then 4 else 2) })) ∧
  -- the instruction is the one whose bytes stand at the PC: one parcel, or two
  (∀ (s : State) (pc : BitVec 48) (key : Nat) (t : State) (i : Instr),
    s.access s.agent s.sup .fx pc.toNat 2 = (.ok key, t) → t.mem.stale = [] →
    decode [t.byte (key + 1) ++ t.byte key] = .ok (i, []) → s.fetchAt pc = (.instr i 2, t)) ∧
  (∀ (s : State) (pc : BitVec 48) (key key' : Nat) (t u : State) (i : Instr),
    s.access s.agent s.sup .fx pc.toNat 2 = (.ok key, t) → t.mem.stale = [] → isLong (t.byte (key + 1) ++ t.byte key) = true →
    t.access t.agent t.sup .fx (pc + 2).toNat 2 = (.ok key', u) → u.mem.stale = [] →
    decode [t.byte (key + 1) ++ t.byte key, u.byte (key' + 1) ++ u.byte key'] = .ok (i, []) → s.fetchAt pc = (.instr i 4, u)) ∧
  -- what cannot be fetched or is not assigned takes its trap
  (∀ (s : State) (core : CoreId) (c : CtxId) (r : List Turn) (f : Fetched) (t : State),
    s.turns = .issue core :: r → (({ s with turns := r } : State).nextReady core).1 = some c → (s.getCtx c).debug = false →
    (numOf c = 0 → ({ s with turns := r } : State).handlerDue core = false) →
    (s.slotFor core c r).fetchAt (s.slotFor core c r).ctx.pc = (f, t) →
    (∀ w, f = .illegal w → step s = settled (exec (.illegalEncoding w) (t.upd fun x => { x with repidx := 0 }))) ∧
    (∀ cause a, f = .fail cause a → step s = settled (exec (.fetchFault cause a) t))) ∧
  -- with no move put first, cycles pass and one of the moves that can be made is made
  (∀ s : State, s.turns = [] → s.tick.choices ≤ 1 → step s = settled (s.tick.choose 0)) ∧
  (∀ s : State, s.turns = [] → 2 ≤ s.tick.choices → ∃ n, n < s.tick.choices ∧ step s = settled (s.tick.draw.2.choose n)) ∧
  -- an event that is chosen takes place; of the responses of one owner the oldest does (R110), of commands that wait together the first of
  -- the lowest function (R431)
  (∀ (s : State) (n : Nat) (i : Instr), s.agenda[n]? = some i → i.isProgram = false → cmdOf i = none → s.respOwner i = none →
    s.choose n = exec i { s with agenda := s.agenda.eraseIdx n }) ∧
  (∀ (s : State) (n m : Nat) (i j : Instr), s.agenda[n]? = some i → cmdOf i = none → s.respOwner i ≠ none → s.agenda[m]? = some j →
    s.respOwner j = s.respOwner i → (∀ k x, k < m → s.agenda[k]? = some x → s.respOwner x ≠ s.respOwner i) → j.isProgram = false →
    s.choose n = exec j { s with agenda := s.agenda.eraseIdx m }) ∧
  (∀ (s : State) (n m : Nat) (i j : Instr) (c d : Cmd), s.agenda[n]? = some i → cmdOf i = some c → s.agenda[m]? = some j → cmdOf j = some d →
    (∀ x ∈ s.agenda, ∀ e, cmdOf x = some e → d.fn.val ≤ e.fn.val) →
    (∀ k x e, k < m → s.agenda[k]? = some x → cmdOf x = some e → e.fn ≠ d.fn) → j.isProgram = false →
    s.choose n = exec j { s with agenda := s.agenda.eraseIdx m }) ∧
  (∀ (s : State) (n : Nat) (k : CoreId), s.moves[n]? = some (.issue k) →
    s.choose (s.agenda.length + n) = State.issueCore { s with rotor := k } k)

/-- No instruction and no event ends in a fault or a refusal; a step stops only where a program instruction is among the events,
which none of the model's operations puts there (the model's choice). -/
def Obligations.NothingStops : Prop :=
  (∀ (i : Instr) (s : State), ∃ t, exec i s = .next t) ∧
  (∀ s : State, (∀ i, .event i ∈ s.turns → i.isProgram = false) → (∀ i ∈ s.agenda, i.isProgram = false) → ∃ t, step s = .next t) ∧
  (∀ s : State, ∀ w, step s ≠ .refused w)

/-- R13, R15, R72, R95, R116, R308, R404, R434: what a cold reset leaves, among it the invariants of the model. -/
def Obligations.ResetState : Prop :=
  (∀ c, (State.reset.getCtx c).st = .idle ∧ (State.reset.getCtx c).bound = none ∧ (State.reset.getCtx c).clk = 0 ∧
    (State.reset.getCtx c).drawn = 0 ∧ (State.reset.getCtx c).expb = 0 ∧ (State.reset.getCtx c).rcvb = 0) ∧
  (∀ k, (State.reset.getCore k).lastIssued = 15 ∧ (State.reset.getCore k).tmask = true ∧ (State.reset.getCore k).hnd = false ∧
    (State.reset.getCore k).tq = [] ∧ (State.reset.getCore k).fatq = none) ∧
  (∀ a, State.reset.byte a = 0) ∧ (∀ w, State.reset.isFull w = true) ∧ (∀ g, State.reset.wts g = 0 ∧ State.reset.rts g = 0) ∧
  (∀ i : Fin 16, State.reset.cl.regions[i] = 0) ∧
  State.reset.eng.shs = .empty ∧ State.reset.eng.active = ⟨.raw, 0, 0, 0, [], []⟩ ∧ State.reset.eng.shadow = State.reset.eng.active ∧
  State.reset.eng.acc = [] ∧
  State.reset.mod.cycles = 0 ∧ State.reset.mod.feat0 = 0xFFFF ∧ State.reset.mod.feat1 = 0x0202 ∧
  (∀ i : Fin 8, 2 ≤ i.val → State.reset.mod.fw.mrs[i] = 0) ∧
  State.reset.mem.wf = true ∧ State.reset.TwinsAgree ∧ State.reset.turns = [] ∧ State.reset.agenda = []

/-- R32: in twin mode a trailer holds what its leader holds, after every step. The model advances a pair in one step (log 13). -/
def Obligations.StepKeepsTwins : Prop :=
  ∀ s t : State, s.TwinsAgree → step s = .next t → t.TwinsAgree
end

