-- ==== Sys2Proof/Laws/Ops.lean ====
section
/-!
SUPPORT. Sys2Proof/Laws/Ops.lean: for each shared operation, once, what it can do: reading a source, ending an instruction,
waiting, taking a trap, the checks before an effect.
-/
namespace Sys2Proof.Machine

/-! ### Sources -/

/-- A source that can be read is read. -/
theorem State.srcG_ok (s : State) (fa : Bool) (r : GNum) (k : Word → State → State) (h : s.gOk r = true) :
    s.srcG fa r k = k (s.gVal r) (s.reads [r]) := by
  unfold State.srcG State.gVal State.reads State.gTags
  unfold State.gOk at h
  by_cases h0 : r = 0
  · subst h0; simp
  · simp only [h0, decide_false, Bool.false_or, Bool.and_eq_true, Bool.not_eq_true'] at h
    obtain ⟨⟨hb, hf⟩, hp⟩ := h
    simp only [if_neg h0, hb, hf, hp, Bool.not_true, Bool.false_eq_true, if_false, List.map_cons, List.map_nil, List.flatten_cons,
      List.flatten_nil, List.append_nil]

/-- A source is read, or the instruction traps or waits with nothing performed. -/
theorem State.srcG_cases (P : State → Prop) (s : State) (fa : Bool) (r : GNum) (k : Word → State → State)
    (hk : ∀ v l, P (k v { s with taint := s.taint ++ l })) (ht : ∀ c st a b, P (s.trapAux c st a b)) (hb : ∀ w, P (s.block w)) :
    P (s.srcG fa r k) := by
  unfold State.srcG
  split
  · simpa using hk 0 []
  · dsimp only
    split
    · exact ht _ _ _ _
    · split
      · split
        · exact ht _ _ _ _
        · exact hb _
      · split
        · exact ht _ _ _ _
        · exact hk _ _

@[simp] theorem State.reads_ctx (s : State) (l : List GNum) : (s.reads l).ctx = s.ctx := rfl
@[simp] theorem State.reads_gOk (s : State) (l : List GNum) (r : GNum) : (s.reads l).gOk r = s.gOk r := rfl
@[simp] theorem State.reads_gVal (s : State) (l : List GNum) (r : GNum) : (s.reads l).gVal r = s.gVal r := rfl
@[simp] theorem State.reads_reads (s : State) (l m : List GNum) : (s.reads l).reads m = s.reads (l ++ m) := by
  have h : (s.reads l).gTags = s.gTags := rfl
  unfold State.reads at *
  rw [h]; simp

/-! ### The end of an instruction, a wait -/

theorem State.jumpTo_ctx (s : State) (pc : BitVec 48) : (s.jumpTo pc).ctx = Ctx.boundary { s.ctx with pc := pc, repidx := 0 } :=
  State.ctx_upd s fun x => Ctx.boundary { x with pc := pc, repidx := 0 }
theorem State.block_ctx (s : State) (w : Wait) : (s.block w).ctx = { s.ctx with st := .blocked, wait := some w } :=
  State.ctx_upd s fun x => { x with st := .blocked, wait := some w }
/-- With no prefix the PC passes the instruction. -/
theorem State.finish_plain (s : State) (len : Nat) (h : s.rep = none) : s.finish len = s.jumpTo (s.ctx.pc + BitVec.ofNat 48 len) := by
  unfold State.finish; rw [h]
@[simp] theorem State.jumpTo_mem (s : State) (pc : BitVec 48) : (s.jumpTo pc).mem = s.mem := rfl
@[simp] theorem State.block_mem (s : State) (w : Wait) : (s.block w).mem = s.mem := rfl
@[simp] theorem State.finish_mem (s : State) (len : Nat) : (s.finish len).mem = s.mem := by
  unfold State.finish; split
  · rfl
  · split <;> rfl
theorem State.setG_ctx (s : State) (d : GNum) (v : Word) (h : d ≠ 0) :
    (s.setG d v).ctx = { s.ctx with g := s.ctx.g.set d ⟨v, true, false, s.taint, false⟩ } := by
  unfold State.setG; rw [if_neg h, State.ctx_upd]
@[simp] theorem State.setG_mem (s : State) (d : GNum) (v : Word) : (s.setG d v).mem = s.mem := by
  unfold State.setG; split <;> rfl

/-! ### Taking a trap -/

theorem State.trapAt_getCtx (s : State) (c d : CtxId) (cause : BitVec 8) (st : BitVec 4) (a b : Word) (hd : Hold) :
    (s.trapAt c cause st a b hd).getCtx d
      = (s.updCtx c fun x => { x.clearWait with st := .faulted, stopReq := none, susp := none }).getCtx d := by
  unfold State.trapAt; dsimp only; split
  · rfl
  · split <;> rfl
@[simp] theorem State.trapAt_cur (s : State) (c : CtxId) (cause : BitVec 8) (st : BitVec 4) (a b : Word) (hd : Hold) :
    (s.trapAt c cause st a b hd).cur = s.cur := by
  unfold State.trapAt; dsimp only; split
  · rfl
  · split <;> rfl
@[simp] theorem State.trapAt_mem (s : State) (c : CtxId) (cause : BitVec 8) (st : BitVec 4) (a b : Word) (hd : Hold) :
    (s.trapAt c cause st a b hd).mem = s.mem := by
  unfold State.trapAt; dsimp only; split
  · rfl
  · split <;> rfl
/-- A context that traps is FAULTED and waits for nothing; its registers, PC and REPIDX stay. -/
theorem State.trapAux_ctx (s : State) (cause : BitVec 8) (st : BitVec 4) (a b : Word) :
    (s.trapAux cause st a b).ctx = { s.ctx.clearWait with st := .faulted, stopReq := none, susp := none } := by
  show (s.trapAt s.cur cause st a b .none).getCtx (s.trapAt s.cur cause st a b .none).cur = _
  rw [State.trapAt_cur, State.trapAt_getCtx]
  exact State.ctx_upd s fun x => { x.clearWait with st := .faulted, stopReq := none, susp := none }
@[simp] theorem State.trapAux_mem (s : State) (cause : BitVec 8) (st : BitVec 4) (a b : Word) : (s.trapAux cause st a b).mem = s.mem :=
  s.trapAt_mem _ _ _ _ _ _
/-- A fatal trap puts its decision before every other move and writes no queue. -/
theorem State.trapAux_fatal (s : State) (cause : BitVec 8) (st : BitVec 4) (a b : Word)
    (h : (fatalCause cause || decide (numOf s.cur = 0)) = true) :
    (s.trapAux cause st a b).cores = s.cores ∧
      (s.trapAux cause st a b).turns
        = .event (.fatalFault s.cur ⟨cause, s.leaderNum s.cur, true, s.ctx.repidx, st, s.ctx.pc, a, b⟩ false) :: s.turns := by
  unfold State.trapAux State.trapAt; dsimp only; rw [if_pos h, h]; exact ⟨rfl, rfl⟩
/-- Any other trap writes one record to the queue of the context's core. -/
theorem State.trapAux_queued (s : State) (cause : BitVec 8) (st : BitVec 4) (a b : Word)
    (h : (fatalCause cause || decide (numOf s.cur = 0)) = false) :
    (s.trapAux cause st a b).core.tq = s.core.tq ++ [⟨⟨cause, s.leaderNum s.cur, false, s.ctx.repidx, st, s.ctx.pc, a, b⟩,
      if directCause cause then .none else .decision⟩] ∧ (s.trapAux cause st a b).turns = s.turns := by
  have hc : ∀ (u : State) (k : CoreId) (q : List QRec),
      ((u.updCore k fun x => { x with tq := x.tq ++ q }).getCore k).tq = (u.getCore k).tq ++ q := by
    intro u k q; simp [State.updCore, State.getCore]
  have key : (s.trapAux cause st a b).core = (s.trapAux cause st a b).getCore (coreOf s.cur) := by
    show (s.trapAux cause st a b).getCore (coreOf (s.trapAux cause st a b).cur) = _
    rw [show (s.trapAux cause st a b).cur = s.cur from s.trapAt_cur _ _ _ _ _ _]
  rw [key]
  unfold State.trapAux State.trapAt; dsimp only
  rw [if_neg (by rw [h]; decide), h]
  cases hd : directCause cause
  · exact ⟨hc _ _ _, rfl⟩
  · exact ⟨hc _ _ _, rfl⟩

/-! ### What stays as it was -/

theorem CtxKept.refl (x : Ctx) (gs : List GNum) (vs : List VNum) (ks : List KNum) : CtxKept x x gs vs ks :=
  ⟨fun _ _ => rfl, fun _ _ => rfl, fun _ _ => ⟨rfl, rfl⟩, ⟨rfl, rfl⟩, ⟨rfl, rfl⟩, rfl, rfl, ⟨rfl, rfl, rfl, rfl, rfl⟩⟩

/-- Two contexts that agree on what the frame speaks of. -/
theorem CtxKept.of_eq {x y : Ctx} {gs : List GNum} {vs : List VNum} {ks : List KNum}
    (h : (y.g, y.v, y.k, y.ku, y.t, y.tu, y.e, y.eu, y.tl, y.spl, y.lcore, y.bound, y.expb, y.rcvb, y.debug) =
      (x.g, x.v, x.k, x.ku, x.t, x.tu, x.e, x.eu, x.tl, x.spl, x.lcore, x.bound, x.expb, x.rcvb, x.debug)) : CtxKept x y gs vs ks := by
  simp only [Prod.mk.injEq] at h
  obtain ⟨h1, h2, h3, h4, h5, h6, h7, h8, h9, h10, h11, h12, h13, h14, h15⟩ := h
  exact ⟨fun _ _ => by rw [h1], fun _ _ => by rw [h2], fun _ _ => ⟨by rw [h3], by rw [h4]⟩, ⟨h5, h6⟩, ⟨h7, h8⟩, h9, h10,
    ⟨h11, h12, h13, h14, h15⟩⟩

theorem CtxKept.trans {x y z : Ctx} {gs : List GNum} {vs : List VNum} {ks : List KNum} (o : CtxKept x y gs vs ks) (h : CtxKept y z gs vs ks) :
    CtxKept x z gs vs ks :=
  ⟨fun r hr => (h.g r hr).trans (o.g r hr), fun r hr => (h.v r hr).trans (o.v r hr),
    fun r hr => ⟨(h.k r hr).1.trans (o.k r hr).1, (h.k r hr).2.trans (o.k r hr).2⟩,
    ⟨h.t.1.trans o.t.1, h.t.2.trans o.t.2⟩, ⟨h.e.1.trans o.e.1, h.e.2.trans o.e.2⟩, h.tl.trans o.tl, h.spl.trans o.spl,
    ⟨h.ids.1.trans o.ids.1, h.ids.2.1.trans o.ids.2.1, h.ids.2.2.1.trans o.ids.2.2.1, h.ids.2.2.2.1.trans o.ids.2.2.2.1,
      h.ids.2.2.2.2.trans o.ids.2.2.2.2⟩⟩

theorem OwnKept.refl (s : State) (gs : List GNum) (vs : List VNum) (ks : List KNum) : OwnKept s s gs vs ks :=
  ⟨rfl, CtxKept.refl _ _ _ _, fun _ _ => rfl⟩

/-- A change of the moving context keeps the frame when it keeps its context. -/
theorem OwnKept.upd {s0 s : State} {gs : List GNum} {vs : List VNum} {ks : List KNum} (h : OwnKept s0 s gs vs ks) (f : Ctx → Ctx)
    (hf : CtxKept s.ctx (f s.ctx) gs vs ks) : OwnKept s0 (s.upd f) gs vs ks := by
  refine ⟨h.cur, ?_, ?_⟩
  · rw [State.ctx_upd]; exact h.own.trans hf
  · intro c hc
    rw [State.getCtx_upd_other _ _ _ (by rw [h.cur]; exact hc)]
    exact h.others c hc

/-- The contexts and the mover decide the frame. -/
theorem OwnKept.of_eq {s0 s t : State} {gs : List GNum} {vs : List VNum} {ks : List KNum} (h : OwnKept s0 s gs vs ks)
    (e1 : t.ctxs = s.ctxs) (e2 : t.cur = s.cur) : OwnKept s0 t gs vs ks := by
  have hg : ∀ c, t.getCtx c = s.getCtx c := fun c => by simp only [State.getCtx, e1]
  have hc : t.ctx = s.ctx := by simp only [State.ctx, hg, e2]
  exact ⟨e2.trans h.cur, hc ▸ h.own, fun c hn => (hg c).trans (h.others c hn)⟩

/-- Clearing what an attempt keeps touches no register. -/
theorem CtxKept.clearWait (x : Ctx) (gs : List GNum) (vs : List VNum) (ks : List KNum) : CtxKept x x.clearWait gs vs ks :=
  CtxKept.of_eq rfl
theorem CtxKept.boundary {x y : Ctx} {gs : List GNum} {vs : List VNum} {ks : List KNum} (h : CtxKept x y gs vs ks) :
    CtxKept x y.boundary gs vs ks := by
  unfold Ctx.boundary; dsimp only; split <;> exact h.trans (CtxKept.of_eq rfl)

/-! ### A trap, a wait, the end of an instruction: no register but the pc changes -/

theorem OwnKept.trapAt {s0 s : State} {gs : List GNum} {vs : List VNum} {ks : List KNum} (h : OwnKept s0 s gs vs ks)
    (cause : BitVec 8) (st : BitVec 4) (a b : Word) (hd : Hold) : OwnKept s0 (s.trapAt s.cur cause st a b hd) gs vs ks := by
  have key := h.upd (fun x => { x.clearWait with st := .faulted, stopReq := none, susp := none }) (CtxKept.of_eq rfl)
  unfold State.trapAt
  dsimp only
  split
  · exact key.of_eq rfl rfl
  · split <;> exact key.of_eq rfl rfl

theorem OwnKept.trapAux {s0 s : State} {gs : List GNum} {vs : List VNum} {ks : List KNum} (h : OwnKept s0 s gs vs ks)
    (cause : BitVec 8) (st : BitVec 4) (a b : Word) : OwnKept s0 (s.trapAux cause st a b) gs vs ks := h.trapAt _ _ _ _ _
theorem OwnKept.trap {s0 s : State} {gs : List GNum} {vs : List VNum} {ks : List KNum} (h : OwnKept s0 s gs vs ks)
    (cause : BitVec 8) : OwnKept s0 (s.trap cause) gs vs ks := h.trapAt _ _ _ _ _
theorem OwnKept.trapEa {s0 s : State} {gs : List GNum} {vs : List VNum} {ks : List KNum} (h : OwnKept s0 s gs vs ks)
    (cause : BitVec 8) (ea : Word) : OwnKept s0 (s.trapEa cause ea) gs vs ks := h.trapAt _ _ _ _ _
theorem OwnKept.trapNonRes {s0 s : State} {gs : List GNum} {vs : List VNum} {ks : List KNum} (h : OwnKept s0 s gs vs ks)
    (ea : Word) (vpn : Nat) : OwnKept s0 (s.trapNonRes ea vpn) gs vs ks := (h.trapAt _ _ _ _ _).of_eq rfl rfl

theorem OwnKept.block {s0 s : State} {gs : List GNum} {vs : List VNum} {ks : List KNum} (h : OwnKept s0 s gs vs ks) (w : Wait) :
    OwnKept s0 (s.block w) gs vs ks :=
  (h.upd (fun x => { x with st := .blocked, wait := some w }) (CtxKept.of_eq rfl)).of_eq rfl rfl
theorem OwnKept.jumpTo {s0 s : State} {gs : List GNum} {vs : List VNum} {ks : List KNum} (h : OwnKept s0 s gs vs ks) (pc : BitVec 48) :
    OwnKept s0 (s.jumpTo pc) gs vs ks :=
  (h.upd (fun x => Ctx.boundary { x with pc := pc, repidx := 0 }) (CtxKept.boundary (by exact CtxKept.of_eq rfl))).of_eq rfl rfl
theorem OwnKept.finish {s0 s : State} {gs : List GNum} {vs : List VNum} {ks : List KNum} (h : OwnKept s0 s gs vs ks) (len : Nat) :
    OwnKept s0 (s.finish len) gs vs ks := by
  unfold State.finish
  split
  · exact h.jumpTo _
  · rename_i r _
    split
    · exact h.jumpTo _
    · exact (h.upd (fun x => Ctx.boundary { x with repidx := BitVec.ofNat 6 (r.j + 1) })
        (CtxKept.boundary (by exact CtxKept.of_eq rfl))).of_eq rfl rfl
theorem OwnKept.priv {s0 s : State} {gs : List GNum} {vs : List VNum} {ks : List KNum} (h : OwnKept s0 s gs vs ks) {k : State → State}
    (hk : OwnKept s0 (k s) gs vs ks) : OwnKept s0 (s.priv k) gs vs ks := by
  unfold State.priv; split
  · exact hk
  · exact h.trap _
theorem OwnKept.checked {s0 s : State} {gs : List GNum} {vs : List VNum} {ks : List KNum} (h : OwnKept s0 s gs vs ks) {k : State → State}
    (hk : OwnKept s0 (k s) gs vs ks) : OwnKept s0 (s.checked k) gs vs ks := by
  unfold State.checked; split
  · exact h.block _
  · exact hk
theorem OwnKept.checkedValue {s0 s : State} {gs : List GNum} {vs : List VNum} {ks : List KNum} (h : OwnKept s0 s gs vs ks) {k : State → State}
    (hk : OwnKept s0 (k s) gs vs ks) : OwnKept s0 (s.checkedValue k) gs vs ks := by
  unfold State.checkedValue; split
  · exact hk
  · exact h.block _
theorem OwnKept.srcG {s0 s : State} {gs : List GNum} {vs : List VNum} {ks : List KNum} (h : OwnKept s0 s gs vs ks) (fa : Bool) (r : GNum)
    {k : Word → State → State} (hk : ∀ v l, OwnKept s0 (k v { s with taint := s.taint ++ l }) gs vs ks) :
    OwnKept s0 (s.srcG fa r k) gs vs ks :=
  s.srcG_cases (OwnKept s0 · gs vs ks) fa r k hk (fun _ _ _ _ => h.trapAux _ _ _ _) (fun _ => h.block _)
theorem OwnKept.setG {s0 s : State} {gs : List GNum} {vs : List VNum} {ks : List KNum} (h : OwnKept s0 s gs vs ks) (d : GNum) (v : Word)
    (hd : d ∈ gs) : OwnKept s0 (s.setG d v) gs vs ks := by
  unfold State.setG
  split
  · exact h
  · refine h.upd _ { CtxKept.refl s.ctx gs vs ks with g := fun r hr => ?_ }
    have hne : (r : Nat) ≠ (d : Nat) := fun e => hr (Fin.ext e ▸ hd)
    simp only [Fin.getElem_fin]
    exact Vector.getElem_set_ne _ _ hne.symm
theorem OwnKept.putG {s0 s : State} {gs : List GNum} {vs : List VNum} {ks : List KNum} (h : OwnKept s0 s gs vs ks) (len : Nat) (d : GNum)
    (v : Word) (hd : d ∈ gs) : OwnKept s0 (s.putG len d v) gs vs ks := (h.setG d v hd).finish len

/-! ### The same of instructions that work on registers alone -/

theorem RegsOnly.refl (s : State) (gs : List GNum) (vs : List VNum) (ks : List KNum) {n : Nat} : RegsOnly s s gs vs ks n :=
  ⟨OwnKept.refl _ _ _ _, rfl, ⟨0, by omega, by simp⟩, ⟨rfl, rfl, rfl⟩, fun _ => rfl, rfl, fun _ => rfl, rfl, rfl, rfl⟩

/-- Nothing but the contexts differs. -/
theorem RegsOnly.of_eq {s0 s : State} {gs : List GNum} {vs : List VNum} {ks : List KNum} {n : Nat} (h : RegsOnly s0 s gs vs ks n) {t : State} (o : OwnKept s0 t gs vs ks)
    (m : (t.ctx.clk, t.ctx.drawn, t.ctx.retry, t.ctx.atomicDone, t.ctx.side) = (s.ctx.clk, s.ctx.drawn, s.ctx.retry, s.ctx.atomicDone, s.ctx.side))
    (e1 : t.mem = s.mem) (e2 : t.cores = s.cores) (e3 : t.cl = s.cl) (e4 : t.eng = s.eng) (e5 : t.mod = s.mod) : RegsOnly s0 t gs vs ks n := by
  simp only [Prod.mk.injEq] at m
  obtain ⟨m1, m2, m3, m4, m5⟩ := m
  refine ⟨o, m1.trans h.clk, m2 ▸ h.drawn, ⟨m3.trans h.marks.1, m4.trans h.marks.2.1, m5.trans h.marks.2.2⟩, fun a => ?_,
    e1.trans h.mem, fun i => ?_, ?_, e4.trans h.eng, e5.trans h.mod⟩
  · exact (show t.byte a = s.byte a by simp only [State.byte, e1]).trans (h.bytes a)
  · exact (show _ = { s.getCore i with tq := [] } by simp only [State.getCore, e2]).trans (h.cores i)
  · rw [e3]; exact h.cl

theorem RegsOnly.trapAt {s0 s : State} {gs : List GNum} {vs : List VNum} {ks : List KNum} {n : Nat} (h : RegsOnly s0 s gs vs ks n)
    (cause : BitVec 8) (st : BitVec 4) (a b : Word) (hd : Hold) : RegsOnly s0 (s.trapAt s.cur cause st a b hd) gs vs ks n := by
  have o := h.regs.trapAt cause st a b hd
  have m : ((s.trapAt s.cur cause st a b hd).ctx.clk, (s.trapAt s.cur cause st a b hd).ctx.drawn, (s.trapAt s.cur cause st a b hd).ctx.retry,
      (s.trapAt s.cur cause st a b hd).ctx.atomicDone, (s.trapAt s.cur cause st a b hd).ctx.side)
      = (s.ctx.clk, s.ctx.drawn, s.ctx.retry, s.ctx.atomicDone, s.ctx.side) := by
    have e : ∀ c, (s.trapAt s.cur cause st a b hd).getCtx c
        = (s.updCtx s.cur fun x => { x.clearWait with st := .faulted, stopReq := none, susp := none }).getCtx c := by
      intro c; unfold State.trapAt; dsimp only; split
      · rfl
      · split <;> rfl
    have ec : (s.trapAt s.cur cause st a b hd).ctx = (s.upd fun x => { x.clearWait with st := .faulted, stopReq := none, susp := none }).ctx := by
      show (s.trapAt s.cur cause st a b hd).getCtx (s.trapAt s.cur cause st a b hd).cur = _
      rw [o.cur, ← h.regs.cur, e]; rfl
    rw [ec, State.ctx_upd]; rfl
  simp only [Prod.mk.injEq] at m
  obtain ⟨m1, m2, m3, m4, m5⟩ := m
  have em : (s.trapAt s.cur cause st a b hd).mem = s.mem := by
    unfold State.trapAt; dsimp only; split
    · rfl
    · split <;> rfl
  refine ⟨o, m1.trans h.clk, m2 ▸ h.drawn, ⟨m3.trans h.marks.1, m4.trans h.marks.2.1, m5.trans h.marks.2.2⟩, fun a => ?_,
    em.trans h.mem, fun i => ?_, ?_, ?_, ?_⟩
  · exact (show _ = s.byte a by simp only [State.byte, em]).trans (h.bytes a)
  · refine Eq.trans ?_ (h.cores i)
    have hc : ∀ (u : State) (k : CoreId) (q : List QRec),
        ({ (u.updCore k fun x => { x with tq := x.tq ++ q }).getCore i with tq := [] } : Core) = { u.getCore i with tq := [] } := by
      intro u k q
      by_cases hi : (k : Nat) = (i : Nat)
      · obtain rfl : k = i := Fin.ext hi
        simp [State.updCore, State.getCore]
      · simp only [State.updCore, State.getCore, Fin.getElem_fin, Vector.getElem_set_ne _ _ hi]
    unfold State.trapAt; dsimp only; split
    · rfl
    · split <;> exact hc _ _ _
  · refine Eq.trans ?_ h.cl
    unfold State.trapAt; dsimp only; split
    · rfl
    · split <;> rfl
  · refine Eq.trans ?_ h.eng
    unfold State.trapAt; dsimp only; split
    · rfl
    · split <;> rfl
  · refine Eq.trans ?_ h.mod
    unfold State.trapAt; dsimp only; split
    · rfl
    · split <;> rfl

theorem RegsOnly.trapAux {s0 s : State} {gs : List GNum} {vs : List VNum} {ks : List KNum} {n : Nat} (h : RegsOnly s0 s gs vs ks n)
    (cause : BitVec 8) (st : BitVec 4) (a b : Word) : RegsOnly s0 (s.trapAux cause st a b) gs vs ks n := h.trapAt _ _ _ _ _
theorem RegsOnly.trap {s0 s : State} {gs : List GNum} {vs : List VNum} {ks : List KNum} {n : Nat} (h : RegsOnly s0 s gs vs ks n)
    (cause : BitVec 8) : RegsOnly s0 (s.trap cause) gs vs ks n := h.trapAt _ _ _ _ _
theorem RegsOnly.trapEa {s0 s : State} {gs : List GNum} {vs : List VNum} {ks : List KNum} {n : Nat} (h : RegsOnly s0 s gs vs ks n)
    (cause : BitVec 8) (ea : Word) : RegsOnly s0 (s.trapEa cause ea) gs vs ks n := h.trapAt _ _ _ _ _
theorem RegsOnly.upd {s0 s : State} {gs : List GNum} {vs : List VNum} {ks : List KNum} {n : Nat} (h : RegsOnly s0 s gs vs ks n) (f : Ctx → Ctx)
    (hf : CtxKept s.ctx (f s.ctx) gs vs ks)
    (m : ((f s.ctx).clk, (f s.ctx).drawn, (f s.ctx).retry, (f s.ctx).atomicDone, (f s.ctx).side)
      = (s.ctx.clk, s.ctx.drawn, s.ctx.retry, s.ctx.atomicDone, s.ctx.side)) : RegsOnly s0 (s.upd f) gs vs ks n :=
  h.of_eq (h.regs.upd f hf) (by rw [State.ctx_upd]; exact m) rfl rfl rfl rfl rfl
/-- What belongs to the move under way is no part of the frame. -/
theorem RegsOnly.move {s0 s : State} {gs : List GNum} {vs : List VNum} {ks : List KNum} {n : Nat} (h : RegsOnly s0 s gs vs ks n) (r : Option RepRun)
    (g : Option (Instr × Nat)) (l : List Nat) : RegsOnly s0 { s with rep := r, target := g, taint := l } gs vs ks n :=
  h.of_eq (h.regs.of_eq rfl rfl) rfl rfl rfl rfl rfl rfl
theorem RegsOnly.block {s0 s : State} {gs : List GNum} {vs : List VNum} {ks : List KNum} {n : Nat} (h : RegsOnly s0 s gs vs ks n) (w : Wait) :
    RegsOnly s0 (s.block w) gs vs ks n :=
  (h.upd (fun x => { x with st := .blocked, wait := some w }) (CtxKept.of_eq rfl) rfl).move _ _ _
theorem boundary_marks (x : Ctx) : (x.boundary.clk, x.boundary.drawn, x.boundary.retry, x.boundary.atomicDone, x.boundary.side)
    = (x.clk, x.drawn, x.retry, x.atomicDone, x.side) := by
  unfold Ctx.boundary; dsimp only; split <;> rfl
theorem RegsOnly.jumpTo {s0 s : State} {gs : List GNum} {vs : List VNum} {ks : List KNum} {n : Nat} (h : RegsOnly s0 s gs vs ks n) (pc : BitVec 48) :
    RegsOnly s0 (s.jumpTo pc) gs vs ks n :=
  (h.upd (fun x => Ctx.boundary { x with pc := pc, repidx := 0 }) (CtxKept.boundary (by exact CtxKept.of_eq rfl)) (boundary_marks _)).move _ _ _
theorem RegsOnly.finish {s0 s : State} {gs : List GNum} {vs : List VNum} {ks : List KNum} {n : Nat} (h : RegsOnly s0 s gs vs ks n) (len : Nat) :
    RegsOnly s0 (s.finish len) gs vs ks n := by
  unfold State.finish
  split
  · exact h.jumpTo _
  · rename_i r _
    split
    · exact h.jumpTo _
    · exact (h.upd (fun x => Ctx.boundary { x with repidx := BitVec.ofNat 6 (r.j + 1) }) (CtxKept.boundary (by exact CtxKept.of_eq rfl))
        (boundary_marks _)).move _ _ _
theorem RegsOnly.srcG {s0 s : State} {gs : List GNum} {vs : List VNum} {ks : List KNum} {n : Nat} (h : RegsOnly s0 s gs vs ks n) (fa : Bool) (r : GNum)
    {k : Word → State → State} (hk : ∀ v (s' : State), RegsOnly s0 s' gs vs ks n → RegsOnly s0 (k v s') gs vs ks n) :
    RegsOnly s0 (s.srcG fa r k) gs vs ks n :=
  s.srcG_cases (RegsOnly s0 · gs vs ks n) fa r k (fun v _ => hk v _ (h.move _ _ _)) (fun _ _ _ _ => h.trapAux _ _ _ _) (fun _ => h.block _)
theorem RegsOnly.checkedValue {s0 s : State} {gs : List GNum} {vs : List VNum} {ks : List KNum} {n : Nat} (h : RegsOnly s0 s gs vs ks n) {k : State → State}
    (hk : RegsOnly s0 (k s) gs vs ks n) : RegsOnly s0 (s.checkedValue k) gs vs ks n := by
  unfold State.checkedValue; split
  · exact hk
  · exact h.block _
theorem RegsOnly.setG {s0 s : State} {gs : List GNum} {vs : List VNum} {ks : List KNum} {n : Nat} (h : RegsOnly s0 s gs vs ks n) (d : GNum) (v : Word)
    (hd : d ∈ gs) : RegsOnly s0 (s.setG d v) gs vs ks n := by
  refine h.of_eq (h.regs.setG d v hd) ?_ ?_ ?_ ?_ ?_ ?_ <;> (unfold State.setG; split <;> first | rfl | (rw [State.ctx_upd]))
theorem RegsOnly.putG {s0 s : State} {gs : List GNum} {vs : List VNum} {ks : List KNum} {n : Nat} (h : RegsOnly s0 s gs vs ks n) (len : Nat) (d : GNum)
    (v : Word) (hd : d ∈ gs) : RegsOnly s0 (s.putG len d v) gs vs ks n := (h.setG d v hd).finish len

end Sys2Proof.Machine
end

