-- ==== Sys2Proof/Laws/Access.lean ====
section
/-!
SUPPORT. Sys2Proof/Laws/Access.lean: what the checks on an access can change: the translation cache of the agent and the count
of free values drawn, nothing else.
-/
namespace Sys2Proof.Machine

/-- The state that a check on an access may leave. -/
def State.looked (s : State) (tlb : List (Nat × Nat × Nat × Word)) (n : Nat) : State :=
  { s with mem := { s.mem with tlb := tlb }, draws := n }

theorem State.tlbPick_looked (s : State) (agent lvl tag : Nat) (w : Word) :
    ∃ t n, (s.tlbPick agent lvl tag w).2 = s.looked t n := by
  unfold State.tlbPick; split
  · exact ⟨s.mem.tlb, s.draws, rfl⟩
  · exact ⟨s.mem.tlb, s.draws + 1, rfl⟩
theorem State.tlbKeep_looked (s : State) (agent lvl tag : Nat) (e : Word) : ∃ t n, s.tlbKeep agent lvl tag e = s.looked t n := by
  unfold State.tlbKeep; split
  · exact ⟨s.mem.tlb, s.draws, rfl⟩
  · exact ⟨_, s.draws, rfl⟩
theorem State.walkFrom_looked (agent v : Nat) : ∀ (fuel p : Nat) (s : State), ∃ t n, (s.walkFrom agent v fuel p).2 = s.looked t n
  | 0, _, s => ⟨s.mem.tlb, s.draws, rfl⟩
  | fuel + 1, p, s => by
    unfold State.walkFrom
    dsimp only
    generalize (if 3 - fuel = 1 then v / 2 ^ 30 else if 3 - fuel = 2 then v / 2 ^ 21 else v / 2 ^ 16) = tag
    generalize hbmLo + p + 8 * (if 3 - fuel = 1 then v / 2 ^ 30 % 64 else if 3 - fuel = 2 then v / 2 ^ 21 % 512 else v / 2 ^ 16 % 32) = key
    cases s.badWord key 8
    · obtain ⟨t, n, e⟩ := s.tlbPick_looked agent (3 - fuel) tag (s.word key)
      generalize s.tlbPick agent (3 - fuel) tag (s.word key) = q at e ⊢
      obtain ⟨w, s1⟩ := q
      dsimp only at e ⊢
      subst e
      have self : ∃ t' n', s.looked t n = s.looked t' n' := ⟨t, n, rfl⟩
      obtain ⟨t', n', e'⟩ := (s.looked t n).tlbKeep_looked agent (3 - fuel) tag w
      obtain ⟨t2, n2, e2⟩ := State.walkFrom_looked agent v fuel (bits w 8 23 * 256) ((s.looked t n).tlbKeep agent (3 - fuel) tag w)
      rw [if_neg (by decide)]
      by_cases h1 : bits w 63 1 = 0
      · rw [if_pos h1]; exact self
      rw [if_neg h1]
      by_cases h2 : bits w 62 1 = 1
      · rw [if_pos h2]
        by_cases h3 : 3 - fuel = 1
        · rw [if_pos h3]; exact self
        rw [if_neg h3]
        by_cases h4 : leafMalformed w (decide (3 - fuel = 2)) (s.looked t n).cl.par.logMax = true
        · rw [if_pos h4]; exact self
        rw [if_neg h4]
        by_cases h5 : bits w 60 2 = 0
        · rw [if_pos h5]; exact ⟨t', n', e'⟩
        · rw [if_neg h5]; exact self
      · rw [if_neg h2]
        by_cases h3 : 3 - fuel = 3
        · rw [if_pos h3]; exact self
        rw [if_neg h3]
        by_cases h4 : ptrMalformed w (3 - fuel) = true
        · rw [if_pos h4]; exact self
        rw [if_neg h4]
        by_cases h5 : bits w 58 1 = 1
        · rw [if_pos h5]; exact self
        rw [if_neg h5]
        by_cases h6 : (decide (bits w 59 1 = 0) || decide (bits w 60 2 ≠ 0)) = true
        · rw [if_pos h6]; exact self
        rw [if_neg h6]
        exact ⟨t2, n2, e2.trans (by rw [e']; rfl)⟩
    · exact ⟨s.mem.tlb, s.draws, rfl⟩

/-- The checks on an access. -/
theorem State.access_looked (s : State) (agent : Nat) (sup : Bool) (p : Perm) (o n : Nat) :
    ∃ t k, (s.access agent sup p o n).2 = s.looked t k := by
  unfold State.access
  split
  · split
    · exact ⟨s.mem.tlb, s.draws, rfl⟩
    · split <;> exact ⟨s.mem.tlb, s.draws, rfl⟩
  · split
    · obtain ⟨t, k, e⟩ := State.walkFrom_looked agent (o - hbmLo) 3 s.cl.par.troot s
      have e' : (s.walk agent o).2 = s.looked t k := e
      generalize s.walk agent o = q at e' ⊢
      obtain ⟨w, s1⟩ := q
      dsimp only at e' ⊢
      subst e'
      repeat' split
      all_goals first
        | exact ⟨t, k, rfl⟩
        | (rename_i h; injection h with h1 h2; subst h2; exact ⟨t, k, rfl⟩)
        | (rename_i h _; injection h with h1 h2; subst h2; exact ⟨t, k, rfl⟩)
        | (rename_i h _ _; injection h with h1 h2; subst h2; exact ⟨t, k, rfl⟩)
        | (rename_i h _ _ _; injection h with h1 h2; subst h2; exact ⟨t, k, rfl⟩)
    · exact ⟨s.mem.tlb, s.draws, rfl⟩

/-! ### What the instruction has read plays no part in the checks -/

/-- The state with other link tags and other damage read by the instruction. -/
def State.tainted (s : State) (l : List Nat) (h : Bool) : State := { s with taint := l, hurt := h }
theorem State.tlbPick_tainted (s : State) (l : List Nat) (h : Bool) (agent lvl tag : Nat) (w : Word) :
    (s.tainted l h).tlbPick agent lvl tag w = ((s.tlbPick agent lvl tag w).1, (s.tlbPick agent lvl tag w).2.tainted l h) := by
  unfold State.tlbPick
  show (match s.mem.tlb.find? _ with | none => _ | some x => _) = _
  cases s.mem.tlb.find? fun x => x.1 = agent && x.2.1 = lvl && x.2.2.1 = tag && x.2.2.2 ≠ w <;> rfl
theorem State.tlbKeep_tainted (s : State) (l : List Nat) (h : Bool) (agent lvl tag : Nat) (e : Word) :
    (s.tainted l h).tlbKeep agent lvl tag e = (s.tlbKeep agent lvl tag e).tainted l h := by
  unfold State.tlbKeep
  show (if s.mem.tlb.contains _ then _ else _) = _
  cases s.mem.tlb.contains (agent, lvl, tag, e) <;> rfl
theorem State.walkFrom_tainted (agent v : Nat) (l : List Nat) (h : Bool) : ∀ (fuel p : Nat) (s : State),
    (s.tainted l h).walkFrom agent v fuel p = ((s.walkFrom agent v fuel p).1, (s.walkFrom agent v fuel p).2.tainted l h)
  | 0, _, _ => rfl
  | fuel + 1, p, s => by
    unfold State.walkFrom
    dsimp only
    generalize (if 3 - fuel = 1 then v / 2 ^ 30 else if 3 - fuel = 2 then v / 2 ^ 21 else v / 2 ^ 16) = tag
    generalize hbmLo + p + 8 * (if 3 - fuel = 1 then v / 2 ^ 30 % 64 else if 3 - fuel = 2 then v / 2 ^ 21 % 512 else v / 2 ^ 16 % 32) = key
    rw [show (s.tainted l h).badWord key 8 = s.badWord key 8 from rfl]
    cases s.badWord key 8
    · have hw : (s.tainted l h).word key = s.word key := by
        unfold State.word State.num; congr 2
      rw [hw, State.tlbPick_tainted]
      generalize s.tlbPick agent (3 - fuel) tag (s.word key) = q
      obtain ⟨w, s1⟩ := q
      have ih := fun u => State.walkFrom_tainted agent v l h fuel (bits w 8 23 * 256) u
      dsimp only
      rw [State.tlbKeep_tainted]
      simp only [Bool.false_eq_true, if_false]
      by_cases h1 : bits w 63 1 = 0
      · simp only [if_pos h1]
      simp only [if_neg h1]
      by_cases h2 : bits w 62 1 = 1
      · simp only [if_pos h2]
        by_cases h3 : 3 - fuel = 1
        · simp only [if_pos h3]
        simp only [if_neg h3]
        rw [show (s1.tainted l h).cl = s1.cl from rfl]
        by_cases h4 : leafMalformed w (decide (3 - fuel = 2)) s1.cl.par.logMax = true
        · simp only [if_pos h4]
        simp only [if_neg h4]
        by_cases h5 : bits w 60 2 = 0
        · simp only [if_pos h5]
        · simp only [if_neg h5]
      · simp only [if_neg h2]
        by_cases h3 : 3 - fuel = 3
        · simp only [if_pos h3]
        simp only [if_neg h3]
        by_cases h4 : ptrMalformed w (3 - fuel) = true
        · simp only [if_pos h4]
        simp only [if_neg h4]
        by_cases h5 : bits w 58 1 = 1
        · simp only [if_pos h5]
        simp only [if_neg h5]
        by_cases h6 : (decide (bits w 59 1 = 0) || decide (bits w 60 2 ≠ 0)) = true
        · simp only [if_pos h6]
        simp only [if_neg h6]
        exact ih _
    · rfl
theorem State.access_tainted (s : State) (l : List Nat) (h : Bool) (agent : Nat) (sup : Bool) (p : Perm) (o n : Nat) :
    (s.tainted l h).access agent sup p o n = ((s.access agent sup p o n).1, (s.access agent sup p o n).2.tainted l h) := by
  have hw : (s.tainted l h).walk agent o = ((s.walk agent o).1, (s.walk agent o).2.tainted l h) := State.walkFrom_tainted _ _ _ _ _ _ _
  unfold State.access
  rw [hw]
  generalize s.walk agent o = q
  obtain ⟨w, s1⟩ := q
  dsimp only
  rw [show (s.tainted l h).spadAllowed = s.spadAllowed from rfl, show (s.tainted l h).badWord = s.badWord from rfl]
  cases inSpad o n
  · cases inHbm o n
    · rfl
    · cases w with
      | leaf e two =>
        simp only [Bool.false_eq_true, if_false, if_true]
        rw [show (s1.tainted l h).badWord = s1.badWord from rfl]
        by_cases h1 : bits e (leafBit sup p) 1 = 0
        · simp only [if_pos h1]
        by_cases h2 : bits e 60 2 ≠ 0
        · simp only [if_neg h1, if_pos h2]
        simp only [if_neg h1, if_neg h2]
        cases s1.badWord (hbmLo + frameOf e two (o - hbmLo)) n <;> rfl
      | _ => rfl
  · cases s.spadAllowed sup p o n
    · rfl
    · cases s.badWord o n <;> rfl
/-- The checks of an instruction that has read a mask. -/
theorem State.access_taintK (s : State) (k : KNum) (agent : Nat) (sup : Bool) (p : Perm) (o n : Nat) :
    (s.taintK k).access agent sup p o n = ((s.access agent sup p o n).1, (s.access agent sup p o n).2.tainted (s.taintK k).taint (s.taintK k).hurt) := by
  have e : s.taintK k = s.tainted (s.taintK k).taint (s.taintK k).hurt := by unfold State.taintK; split <;> rfl
  rw [e, State.access_tainted]; rfl
/-- The checks of an instruction that has read registers. -/
theorem State.access_reads (s : State) (l : List GNum) (agent : Nat) (sup : Bool) (p : Perm) (o n : Nat) :
    (s.reads l).access agent sup p o n = ((s.access agent sup p o n).1, (s.access agent sup p o n).2.tainted (s.reads l).taint s.hurt) :=
  s.access_tainted _ _ _ _ _ _ _

@[simp] theorem State.looked_byte (s : State) (t : List (Nat × Nat × Nat × Word)) (n a : Nat) : (s.looked t n).byte a = s.byte a := rfl
/-- Bytes of a span depend on the bytes alone. -/
theorem State.bytes_congr (s t : State) : ∀ (n a : Nat), (∀ i, i < n → t.byte (a + i) = s.byte (a + i)) → t.bytes a n = s.bytes a n
  | 0, _, _ => rfl
  | n + 1, a, h => by
    show t.byte a :: t.bytes (a + 1) n = s.byte a :: s.bytes (a + 1) n
    rw [show t.byte a = s.byte a from h 0 (by omega), State.bytes_congr s t n (a + 1) fun i hi => by
      rw [Nat.add_right_comm]; exact h (i + 1) (by omega)]
@[simp] theorem State.looked_ctx (s : State) (t : List (Nat × Nat × Nat × Word)) (n : Nat) : (s.looked t n).ctx = s.ctx := rfl
@[simp] theorem State.looked_getCtx (s : State) (t : List (Nat × Nat × Nat × Word)) (n : Nat) (c : CtxId) : (s.looked t n).getCtx c = s.getCtx c := rfl
@[simp] theorem State.looked_me (s : State) (t : List (Nat × Nat × Nat × Word)) (n : Nat) : (s.looked t n).me = s.me := rfl
@[simp] theorem State.looked_cl (s : State) (t : List (Nat × Nat × Nat × Word)) (n : Nat) : (s.looked t n).cl = s.cl := rfl
@[simp] theorem State.looked_num (s : State) (t : List (Nat × Nat × Nat × Word)) (n : Nat) (a k : Nat) : (s.looked t n).num a k = s.num a k := by
  unfold State.num; congr 1; exact State.bytes_congr _ _ _ _ fun _ _ => rfl

end Sys2Proof.Machine
end

