-- ==== Sys2Proof/Laws/Numbers.lean ====
section
/-!
SUPPORT. Sys2Proof/Laws/Numbers.lean: little-endian numbers byte by byte, fields bit by bit, signed values, and the addresses that
name a cluster.
-/
namespace Sys2Proof.Machine

theorem leNat_lt : ∀ l : List Byte, leNat l < 256 ^ l.length
  | [] => by simp [leNat]
  | b :: r => by have := leNat_lt r; have := b.isLt; simp only [leNat, List.length_cons, pow_succ]; omega
theorem leNat_get : ∀ (l : List Byte) (i : Nat) (h : i < l.length), leNat l / 256 ^ i % 256 = (l[i]).toNat
  | b :: r, 0, h => by have := b.isLt; simp only [leNat, pow_zero, Nat.div_one, List.getElem_cons_zero]; omega
  | b :: r, i + 1, h => by
    have := leNat_get r i (by simpa using h)
    rw [pow_succ, mul_comm, ← Nat.div_div_eq_div_mul]
    have hb := b.isLt
    have e : leNat (b :: r) / 256 = leNat r := by simp only [leNat]; omega
    rw [e, this]; simp
theorem toLe_length : ∀ (n x : Nat), (toLe n x).length = n
  | 0, _ => rfl
  | n + 1, x => by simp [toLe, toLe_length n]
theorem toLe_get : ∀ (n x i : Nat) (h : i < (toLe n x).length), (toLe n x)[i] = BitVec.ofNat 8 (x / 256 ^ i)
  | n + 1, x, 0, h => by simp [toLe]
  | n + 1, x, i + 1, h => by
    simp only [toLe, List.getElem_cons_succ]
    rw [toLe_get n (x / 256) i, Nat.div_div_eq_div_mul, pow_succ, mul_comm]
theorem sxInt_eq (w x : Nat) (hw : 0 < w) : sxInt w x = (BitVec.ofNat w x).toInt := by
  unfold sxInt
  rw [BitVec.toInt_eq_toNat_cond, BitVec.toNat_ofNat]
  obtain ⟨n, rfl⟩ : ∃ n, w = n + 1 := ⟨w - 1, by omega⟩
  have : 2 * (x % 2 ^ (n + 1)) < 2 ^ (n + 1) ↔ x % 2 ^ (n + 1) < 2 ^ (n + 1 - 1) := by rw [pow_succ]; simp; omega
  simp only [this]

theorem testBit_setBits (w : Word) (lo n x i : Nat) (h : lo + n ≤ 64) : (setBits w lo n x).getLsbD i =
    if lo ≤ i ∧ i < lo + n then x.testBit (i - lo) else w.getLsbD i := by
  unfold setBits
  rw [BitVec.getLsbD_ofNat]
  have hw := w.isLt
  have e : w.toNat - w.toNat / 2 ^ lo % 2 ^ n * 2 ^ lo + x % 2 ^ n * 2 ^ lo = 2 ^ lo * (2 ^ n * (w.toNat / 2 ^ (lo + n)) + x % 2 ^ n) + w.toNat % 2 ^ lo := by
    have h1 := Nat.div_add_mod w.toNat (2 ^ lo)
    have h2 := Nat.div_add_mod (w.toNat / 2 ^ lo) (2 ^ n)
    rw [Nat.div_div_eq_div_mul, ← pow_add] at h2
    generalize w.toNat / 2 ^ (lo + n) = hi at *
    generalize w.toNat / 2 ^ lo % 2 ^ n = mid at *
    generalize w.toNat % 2 ^ lo = low at *
    rw [← h2] at h1
    have h3 : w.toNat = 2 ^ lo * (2^n * hi) + 2 ^ lo * mid + low := by rw [← h1]; ring
    rw [h3, mul_comm mid, mul_comm (x % 2^n), mul_add]
    omega
  rw [e, Nat.testBit_two_pow_mul_add _ (Nat.mod_lt _ (Nat.two_pow_pos _))]
  by_cases hi : i < lo
  · have : ¬ (lo ≤ i ∧ i < lo + n) := by omega
    rw [if_pos hi, if_neg this, Nat.testBit_mod_two_pow]; simp [hi, BitVec.getLsbD]; omega
  · rw [if_neg hi, Nat.testBit_two_pow_mul_add _ (Nat.mod_lt _ (Nat.two_pow_pos _))]
    by_cases h2 : i - lo < n
    · have : lo ≤ i ∧ i < lo + n := by omega
      rw [if_pos h2, if_pos this, Nat.testBit_mod_two_pow]; simp [h2]; omega
    · have : ¬ (lo ≤ i ∧ i < lo + n) := by omega
      rw [if_neg h2, if_neg this, Nat.testBit_div_two_pow]
      have e3 : i - lo - n + (lo + n) = i := by omega
      rw [e3]; simp [BitVec.getLsbD]; intro hw2
      by_contra hc; simp at hc
      have := Nat.testBit_lt_two_pow (x := w.toNat) (i := i) (lt_of_lt_of_le hw (Nat.pow_le_pow_right (by omega) (by omega)))
      simp [this] at hw2

/-! ### Addresses -/

theorem coords_lt (c : ClusterId) : coords c < 2 ^ 15 := by
  have := c.chip.isLt; have := c.x.isLt; have := c.y.isLt; unfold coords; omega
theorem ofCoords_coords (c : ClusterId) : ofCoords (coords c) = c := by
  have h1 := c.chip.isLt; have h2 := c.x.isLt; have h3 := c.y.isLt
  obtain ⟨⟨a, ha⟩, ⟨b, hb⟩, ⟨d, hd⟩⟩ := c
  simp only [ofCoords, coords, ClusterId.mk.injEq, Fin.mk.injEq] at *
  omega
theorem abs_off (c : ClusterId) (o : Nat) : offOf (absAddr c o) = o % 2 ^ 48 := by
  have := coords_lt c; unfold offOf absAddr; rw [BitVec.toNat_ofNat]; omega
theorem rel_off (m c : ClusterId) (o : Nat) : offOf (relAddr m c o) = o % 2 ^ 48 := by
  have := c.chip.isLt; have := c.x.isLt; have := c.y.isLt
  unfold offOf relAddr; rw [BitVec.toNat_ofNat]; omega
theorem absOrRel_off (m c : ClusterId) (o : Nat) : offOf (absOrRel m c o) = o % 2 ^ 48 := by
  unfold absOrRel; split
  · exact rel_off _ _ _
  · exact abs_off _ _
theorem absOrRel_owner (m c : ClusterId) (o : Nat) : resolve m (absOrRel m c o) = c := by
  have hl := coords_lt c
  unfold absOrRel; split
  · rename_i h
    have h1 := c.chip.isLt; have h2 := c.x.isLt; have h3 := c.y.isLt
    have h4 := m.chip.isLt; have h5 := m.x.isLt; have h6 := m.y.isLt
    obtain ⟨⟨a, ha⟩, ⟨b, hb⟩, ⟨d, hd⟩⟩ := c
    obtain ⟨⟨a', ha'⟩, ⟨b', hb'⟩, ⟨d', hd'⟩⟩ := m
    unfold resolve
    have et : (relAddr ⟨⟨a', ha'⟩, ⟨b', hb'⟩, ⟨d', hd'⟩⟩ ⟨⟨a, ha⟩, ⟨b, hb⟩, ⟨d, hd⟩⟩ o).toNat / 2 ^ 48 = 2 ^ 15 + (a + 128 - a') % 128 * 256 + (b + 16 - b') % 16 * 16 + (d + 16 - d') % 16 := by
      unfold relAddr; rw [BitVec.toNat_ofNat]; dsimp only at *; omega
    simp only [et] 
    rw [if_neg (by omega), if_neg (by omega)]
    simp only [ClusterId.mk.injEq, Fin.mk.injEq]
    dsimp only at *
    omega
  · rename_i h
    have et : (absAddr c o).toNat / 2 ^ 48 = coords c := by unfold absAddr; rw [BitVec.toNat_ofNat]; omega
    unfold resolve
    simp only [et]
    split
    · rename_i h0
      simp [h0] at h
      rw [← ofCoords_coords c, ← ofCoords_coords m, h0, h]
    · exact ofCoords_coords c

end Sys2Proof.Machine
end

