-- ==== Sys2Proof/Laws/Bytes.lean ====
section
/-!
SUPPORT. Sys2Proof/Laws/Bytes.lean: which bytes of memory each operation on memory can change, said once for each operation, and
that none of them touches a context.
-/
namespace Sys2Proof.Machine

/-- An operation on memory: contexts, mover and configuration stay, no record enters a ready queue, and no byte outside A changes. -/
structure MemStep (s t : State) (A : Nat → Prop) : Prop where
  ctxs : t.ctxs = s.ctxs
  cur : t.cur = s.cur
  par : t.cl.par = s.cl.par
  queued : ∀ a, t.queuedNext a → s.queuedNext a
  bytes : ∀ a, ¬A a → t.byte a = s.byte a

theorem MemStep.refl (s : State) (A : Nat → Prop) : MemStep s s A := ⟨rfl, rfl, rfl, fun _ h => h, fun _ _ => rfl⟩
theorem MemStep.trans {s t u : State} {A : Nat → Prop} (h : MemStep s t A) (g : MemStep t u A) : MemStep s u A :=
  ⟨g.ctxs.trans h.ctxs, g.cur.trans h.cur, g.par.trans h.par, fun a q => h.queued a (g.queued a q), fun a n => (g.bytes a n).trans (h.bytes a n)⟩
theorem MemStep.mono {s t : State} {A B : Nat → Prop} (h : MemStep s t A) (hb : ∀ a, A a → B a) : MemStep s t B :=
  { h with bytes := fun a n => h.bytes a fun x => n (hb a x) }
/-- Only the cells of memory decide its bytes. -/
theorem MemStep.of_eq {s t : State} {A : Nat → Prop} (h1 : t.ctxs = s.ctxs) (h2 : t.cur = s.cur) (h3 : t.cl.par = s.cl.par)
    (h4 : t.cl.queues = s.cl.queues) (h5 : t.mem.cells = s.mem.cells) (h6 : t.mem.hbmKey = s.mem.hbmKey) : MemStep s t A :=
  ⟨h1, h2, h3, fun a q => by unfold State.queuedNext State.recAt at *; rw [h3, h4] at q; exact q,
    fun a _ => by simp only [State.byte, Memory.get, Memory.residue, h5, h6]⟩
/-- A change of the cluster that keeps its configuration and its queues. -/
theorem MemStep.cl {s u : State} {A : Nat → Prop} (h : MemStep s u A) (f : Cluster → Cluster) (hp : (f u.cl).par = u.cl.par)
    (hq : (f u.cl).queues = u.cl.queues) : MemStep s (u.updCl f) A := h.trans (MemStep.of_eq rfl rfl hp hq rfl rfl)
theorem OwnKept.memStep {s0 s t : State} {A : Nat → Prop} {gs : List GNum} {vs : List VNum} {ks : List KNum} (h : OwnKept s0 s gs vs ks)
    (m : MemStep s t A) : OwnKept s0 t gs vs ks := h.of_eq m.ctxs m.cur

/-- Bytes written. -/
theorem State.putBytes_step (s : State) (key : Nat) (l : List Byte) : MemStep s (s.putBytes key l) fun a => key ≤ a ∧ a < key + l.length :=
  ⟨rfl, rfl, rfl, fun _ h => h, fun a h => s.mem.get_put_other key a l (by omega)⟩
theorem toLe_len (n x : Nat) : (toLe n x).length = n := toLe_length n x
theorem State.putWord_step (s : State) (key : Nat) (w : Word) : MemStep s (s.putWord key w) fun a => key ≤ a ∧ a < key + 8 := by
  have := s.putBytes_step key (toLe 8 w.toNat)
  rwa [toLe_len] at this

/-! ### The ready queues -/

theorem State.chain_step : ∀ (l : List QEnt) (s : State),
    MemStep s (s.chain l) fun a => ∃ e ∈ l, s.recAt e.idx 1 ≤ a ∧ a < s.recAt e.idx 1 + 8
  | [], s => MemStep.refl s _
  | [e], s => (s.putWord_step _ _).mono fun _ h => ⟨e, by simp, h⟩
  | e :: f :: r, s => by
    have h1 : MemStep s (s.setNext e.idx f.idx) _ := s.putWord_step (s.recAt e.idx 1) _
    have h2 := State.chain_step (f :: r) (s.setNext e.idx f.idx)
    refine (h1.mono fun _ h => ⟨e, by simp, h⟩).trans (h2.mono ?_)
    rintro a ⟨x, hx, h⟩
    exact ⟨x, List.mem_cons_of_mem _ hx, h⟩

theorem State.unlinkChanged_step : ∀ (n : Nat) (s : State), n ≤ 8 → MemStep s (s.unlinkChanged n) s.queuedNext
  | 0, s, _ => MemStep.refl s _
  | q + 1, s, hq => by
    have ih := State.unlinkChanged_step q s (by omega)
    unfold State.unlinkChanged
    dsimp only
    split
    · exact ih
    · generalize hs : s.unlinkChanged q = u at *
      have hsub : ∀ e ∈ (u.cl.queues[q]?.getD []).filter (fun e => u.recState e.idx = 1), ∃ l ∈ u.cl.queues.toList, e ∈ l := by
        intro e he
        have he' := (List.mem_filter.mp he).1
        have hlt : q < 8 := by omega
        rw [Vector.getElem?_eq_getElem hlt] at he'
        exact ⟨u.cl.queues[q], by simp, he'⟩
      generalize (u.cl.queues[q]?.getD []).filter (fun e => u.recState e.idx = 1) = l' at *
      refine MemStep.trans ?_ ((State.chain_step l' _).mono ?_)
      · refine ih.trans ⟨rfl, rfl, rfl, ?_, fun _ _ => rfl⟩
        rintro a ⟨l, hl, e, he, ha⟩
        have hl2 : l ∈ (u.cl.queues.setIfInBounds q l').toList := hl
        rw [Vector.toList_setIfInBounds] at hl2
        rcases List.mem_or_eq_of_mem_set hl2 with h | rfl
        · exact ⟨l, h, e, he, ha⟩
        · obtain ⟨m, hm, hem⟩ := hsub e he; exact ⟨m, hm, e, hem, ha⟩
      · rintro a ⟨e, he, ha⟩
        obtain ⟨m, hm, hem⟩ := hsub e he
        exact ih.queued a ⟨m, hm, e, hem, ha⟩

theorem State.observeWord_step (s0 s : State) (x : Nat) (A : Nat → Prop) : MemStep s (s0.observeWord s x) A := by
  unfold State.observeWord
  dsimp only
  split
  · exact MemStep.of_eq rfl rfl rfl rfl rfl rfl
  · split
    · exact MemStep.refl s A
    · exact MemStep.of_eq rfl rfl rfl rfl rfl rfl
theorem State.observeMap_step (s : State) (o n : Nat) (A : Nat → Prop) : MemStep s (s.observeMap o n) A :=
  MemStep.of_eq rfl rfl rfl rfl rfl rfl
theorem State.observeWords_step (s0 : State) (A : Nat → Prop) : ∀ (k : Nat) (s : State) (x : Nat), MemStep s (s0.observeWords s x k) A
  | 0, s, _ => MemStep.refl s A
  | k + 1, s, x => by
    have h := s0.observeWord_step s x A
    unfold State.observeWords
    generalize s0.observeWord s x = u at h ⊢
    exact h.trans (State.observeWords_step s0 A k u (x + 1))
theorem State.observeDrop_step (s0 s : State) (x k : Nat) (A : Nat → Prop) : MemStep s (s0.observeWords s x k).dropEvents A :=
  (s0.observeWords_step A k s x).cl _ rfl rfl
/-- What the scheduler does about a store to the pool. -/
theorem State.observePool_step (s0 s : State) (o n : Nat) : MemStep s (State.observePool s0 s o n) s.queuedNext := by
  unfold State.observePool
  dsimp only
  split
  · have h := State.observeDrop_step s0 s ((max o s.cl.par.poolBase - s.cl.par.poolBase) / 8)
      ((min (o + n) (s.cl.par.poolBase + 64 * s.cl.par.contMax) - 1 - s.cl.par.poolBase) / 8
        - (max o s.cl.par.poolBase - s.cl.par.poolBase) / 8 + 1) s.queuedNext
    generalize State.dropEvents _ = u at h ⊢
    exact h.trans ((State.unlinkChanged_step 8 u (Nat.le_refl 8)).mono h.queued)
  · exact MemStep.refl s _

/-! ### Watches, full/empty bits, stamps -/

theorem State.send_step (s : State) (dst : ClusterId) (route : BitVec 2) (b : NetBody) (A : Nat → Prop) : MemStep s (s.send dst route b) A := by
  unfold State.send; dsimp only
  split
  · exact MemStep.of_eq rfl rfl rfl rfl rfl rfl
  · split
    · exact MemStep.of_eq rfl rfl rfl rfl rfl rfl
    · split
      · unfold State.bounce; split <;> exact MemStep.of_eq rfl rfl rfl rfl rfl rfl
      · unfold State.queueMsg State.postOnce; dsimp only
        repeat' split
        all_goals exact MemStep.of_eq rfl rfl rfl rfl rfl rfl
theorem State.fire_step (s : State) (w : WatchReq) (T : Nat) (A : Nat → Prop) : MemStep s (s.fire w T) A := by
  unfold State.fire; dsimp only
  split
  · exact s.send_step _ _ _ A
  · exact (MemStep.of_eq rfl rfl rfl rfl rfl rfl : MemStep s (s.setStamp (granule w.off) _ _) A).trans (State.send_step _ _ _ _ A)
theorem State.fireList_step (o n t : Nat) (A : Nat → Prop) : ∀ (l : List WatchReq) (s : State), MemStep s (s.fireList o n t l) A
  | [], s => MemStep.refl s A
  | w :: r, s => by
    unfold State.fireList; dsimp only
    split
    · refine MemStep.trans ?_ (State.fireList_step o n t A r _)
      exact (MemStep.of_eq rfl rfl rfl rfl rfl rfl : MemStep s (s.updCl fun c => { c with watches := c.watches.filter (· ≠ w) }) A).trans
        (State.fire_step _ _ _ A)
    · exact State.fireList_step o n t A r s
theorem State.backInvalidate_step (s : State) (key n : Nat) (A : Nat → Prop) : MemStep s (s.backInvalidate key n) A := by
  unfold State.backInvalidate; dsimp only; split
  · exact MemStep.of_eq rfl rfl rfl rfl rfl rfl
  · exact MemStep.refl s A
theorem State.setFE_step (s : State) (w : Nat) (full : Bool) (A : Nat → Prop) : MemStep s (s.setFE w full) A := by
  unfold State.setFE; split
  · exact MemStep.refl s A
  · have h : MemStep s (s.updMem fun m => { m with feEmpty := if full then m.feEmpty.filter (· ≠ w) else insNat m.feEmpty w }) A :=
      MemStep.of_eq rfl rfl rfl rfl rfl rfl
    dsimp only
    generalize (s.updMem fun m => { m with feEmpty := if full then m.feEmpty.filter (· ≠ w) else insNat m.feEmpty w }) = u at h ⊢
    split
    · exact h.trans (MemStep.of_eq rfl rfl rfl rfl rfl rfl)
    · exact h
theorem State.setStamp_step (s : State) (g w r : Nat) (A : Nat → Prop) : MemStep s (s.setStamp g w r) A := MemStep.of_eq rfl rfl rfl rfl rfl rfl
theorem State.looked_step (s : State) (t : List (Nat × Nat × Nat × Word)) (n : Nat) (A : Nat → Prop) : MemStep s (s.looked t n) A :=
  MemStep.of_eq rfl rfl rfl rfl rfl rfl

theorem State.masked_length (s : State) : ∀ (l : List Byte) (o key : Nat), (s.masked o key l).length = l.length
  | [], _, _ => rfl
  | _ :: r, o, key => by simp only [State.masked, List.length_cons, State.masked_length s r]
/-- A write to own memory changes its own bytes, and the NEXT words of records in the queues when it reaches the pool. -/
theorem State.writeOwn_step (s : State) (o key : Nat) (l : List Byte) (t : Nat) :
    MemStep s (s.writeOwn o key l t) fun a => (key ≤ a ∧ a < key + l.length) ∨ s.queuedNext a := by
  unfold State.writeOwn
  dsimp only
  have h1 : MemStep s (s.backInvalidate key l.length) fun a => (key ≤ a ∧ a < key + l.length) ∨ s.queuedNext a := s.backInvalidate_step _ _ _
  generalize s.backInvalidate key l.length = u at *
  have h2 := h1.trans ((u.putBytes_step key (u.masked o key l)).mono fun a h => .inl (by rwa [State.masked_length] at h))
  generalize u.putBytes key (u.masked o key l) = v at *
  have h3 := h2.trans ((State.observePool_step u v o l.length).mono fun a h => .inr (h2.queued a h))
  exact (h3.trans (State.observeMap_step _ o l.length _)).trans (State.fireList_step _ _ _ _ _ _)
/-- The bytes of an access's parts, each within the access. -/
theorem Memory.putParts_get (o key n a : Nat) (h : ¬(key ≤ a ∧ a < key + n)) : ∀ (l : List (Nat × List Byte)) (m : Memory),
    (∀ p ∈ l, o ≤ p.1 ∧ p.1 + p.2.length ≤ o + n) → (m.putParts o key l).get a = m.get a
  | [], _, _ => rfl
  | (b, x) :: r, m, hp => by
    have hb := hp (b, x) (by simp)
    dsimp only at hb
    rw [Memory.putParts, Memory.putParts_get o key n a h r _ fun p q => hp p (List.mem_cons_of_mem _ q)]
    exact m.get_put_other _ a x (by omega)
/-- A store changes its own bytes, and the NEXT words of records in the queues when it reaches the pool. -/
theorem State.writeParts_step (s : State) (o n key t : Nat) (l : List (Nat × List Byte))
    (hl : ∀ p ∈ l, o ≤ p.1 ∧ p.1 + p.2.length ≤ o + n) :
    MemStep s (s.writeParts o n key t l) fun a => (key ≤ a ∧ a < key + n) ∨ s.queuedNext a := by
  unfold State.writeParts
  dsimp only
  have h1 : MemStep s (s.backInvalidate key n) fun a => (key ≤ a ∧ a < key + n) ∨ s.queuedNext a := s.backInvalidate_step _ _ _
  generalize s.backInvalidate key n = v at *
  have hp : MemStep v (v.putParts o n key l) fun a => (key ≤ a ∧ a < key + n) ∨ s.queuedNext a := by
    refine ⟨rfl, rfl, rfl, fun _ h => h, fun a h => ?_⟩
    refine Memory.putParts_get o key n a (fun x => h (.inl x)) _ v.mem fun p hp => ?_
    obtain ⟨q, hq, rfl⟩ := List.mem_map.mp hp
    simpa only [State.masked_length] using hl q hq
  have h2 := h1.trans hp
  generalize v.putParts o n key l = u at *
  have h3 := h2.trans ((State.observePool_step v u o n).mono fun a h => .inr (h2.queued a h))
  exact (h3.trans (State.observeMap_step _ o n _)).trans (State.fireList_step _ _ _ _ _ _)

/-! ### Pending-operation logs -/

theorem State.putLogDesc_step (s : State) (i : Nat) (d : LogDesc) : MemStep s (s.putLogDesc i d) (s.inLog i) := by
  refine (s.putBytes_step _ _).mono fun a h => ?_
  simp only [List.length_append, toLe_len] at h
  exact .inl (by omega)
theorem State.putLogEnt_step (s : State) (i j : Nat) (e : LogEnt) (h : j < 512) : MemStep s (s.putLogEnt i j e) (s.inLog i) := by
  refine (s.putBytes_step _ _).mono fun a h => ?_
  simp only [List.length_append, toLe_len] at h
  exact .inr (by omega)
theorem MemStep.log {s t u : State} {i : Nat} (h : MemStep s t (s.inLog i)) (g : MemStep t u (t.inLog i)) : MemStep s u (s.inLog i) :=
  h.trans (g.mono fun a x => by unfold State.inLog at *; rwa [h.par] at x)
theorem State.putLogEnts_step (i : Nat) : ∀ (l : List LogEnt) (j : Nat) (s : State), j + l.length ≤ 512 →
    MemStep s (s.putLogEnts i j l) (s.inLog i)
  | [], _, s, _ => MemStep.refl s _
  | e :: r, j, s, h => by
    simp only [List.length_cons] at h
    exact (s.putLogEnt_step i j e (by omega)).log (State.putLogEnts_step i r (j + 1) _ (by omega))
theorem State.dropLogEnts_step (i : Nat) : ∀ (k j : Nat) (s : State), j + k ≤ 512 → MemStep s (s.dropLogEnts i j k) (s.inLog i)
  | 0, _, s, _ => MemStep.refl s _
  | k + 1, j, s, h => by
    unfold State.dropLogEnts
    dsimp only
    refine MemStep.log ((s.putBytes_step _ _).mono fun a x => ?_) (State.dropLogEnts_step i k (j + 1) _ (by omega))
    rw [toLe_len] at x
    exact .inr (by omega)
theorem State.openLog_step (s : State) (i vpn : Nat) : MemStep s (s.openLog i vpn) (s.inLog i) := by
  unfold State.openLog; split
  · exact MemStep.refl s _
  · exact (s.putLogDesc_step i _).cl _ rfl rfl
theorem compactEnt_length (e : LogEnt) : ∀ l : List LogEnt, (compactEnt e l).length ≤ l.length + 1
  | [] => by simp [compactEnt]
  | f :: r => by
    unfold compactEnt
    split
    · repeat' split
      all_goals simp
    · dsimp only
      have := compactEnt_length e r
      split
      · simp
      · simp; omega
theorem compactPass_length : ∀ l : List LogEnt, (compactPass l).length ≤ l.length
  | [] => by simp [compactPass]
  | e :: r => by
    have h1 := compactPass_length r
    have h2 := compactEnt_length e (compactPass r)
    show (compactEnt e (compactPass r)).length ≤ _
    simp only [List.length_cons]; omega
theorem compactLog_length : ∀ (n : Nat) (l : List LogEnt), (compactLog n l).length ≤ l.length
  | 0, l => by simp [compactLog]
  | n + 1, l => by
    unfold compactLog; dsimp only; split
    · exact Nat.le_refl _
    · exact (compactLog_length n _).trans (compactPass_length l)
theorem State.compactIfDue_step (s : State) (i : Nat) : MemStep s (s.compactIfDue i) (s.inLog i) := by
  unfold State.compactIfDue; dsimp only; split
  · exact MemStep.refl s _
  · have h := compactLog_length 256 (s.logEnts i)
    have h1 : (s.logEnts i).length = (s.logDesc i).cnt := by simp [State.logEnts]
    have h2 : (s.logDesc i).cnt < 512 := by simp only [State.logDesc, bits]; omega
    refine MemStep.cl ((MemStep.log (State.putLogEnts_step i _ 0 s (by omega)) (State.dropLogEnts_step i _ _ _ (by omega))).log
      (State.putLogDesc_step _ i _)) _ rfl rfl

end Sys2Proof.Machine
end

