-- ==== Sys2Proof/Laws/Frames.lean ====
section
/-!
SUPPORT. Sys2Proof/Laws/Frames.lean: the frame of an instruction that reads or writes memory, closed under each shared
operation: which registers of the moving context and which bytes may have changed.
-/
namespace Sys2Proof.Machine

variable {gs : List GNum} {vs : List VNum} {ks : List KNum} {A : Nat → Prop}

/-- Only the listed registers of the moving context, and only bytes in A, may have changed. -/
structure Kept (s t : State) (gs : List GNum) (vs : List VNum) (ks : List KNum) (A : Nat → Prop) : Prop where
  own : OwnKept s t gs vs ks
  par : t.cl.par = s.cl.par
  queued : ∀ a, t.queuedNext a → s.queuedNext a
  bytes : ∀ a, ¬A a → t.byte a = s.byte a

theorem Kept.refl (s : State) : Kept s s gs vs ks A := ⟨OwnKept.refl _ _ _ _, rfl, fun _ h => h, fun _ _ => rfl⟩
/-- An operation on memory whose bytes lie in A. -/
theorem Kept.step {s t u : State} {B : Nat → Prop} (h : Kept s t gs vs ks A) (m : MemStep t u B) (hb : ∀ a, B a → A a) : Kept s u gs vs ks A :=
  ⟨h.own.memStep m, m.par.trans h.par, fun a q => h.queued a (m.queued a q), fun a ha => (m.bytes a fun x => ha (hb a x)).trans (h.bytes a ha)⟩
theorem Kept.quiet {s t u : State} (h : Kept s t gs vs ks A) (m : MemStep t u A) : Kept s u gs vs ks A := h.step m fun _ x => x
/-- A change of contexts that keeps the frame and touches neither memory nor the queues. -/
theorem Kept.of_own {s t u : State} (h : Kept s t gs vs ks A) (o : OwnKept s u gs vs ks) (hm : u.mem.cells = t.mem.cells)
    (hk : u.mem.hbmKey = t.mem.hbmKey) (hp : u.cl.par = t.cl.par) (hq : u.cl.queues = t.cl.queues) : Kept s u gs vs ks A :=
  ⟨o, hp.trans h.par, fun a q => h.queued a (by unfold State.queuedNext State.recAt at *; rwa [hp, hq] at q),
    fun a ha => (show u.byte a = t.byte a by simp only [State.byte, Memory.get, Memory.residue, hm, hk]).trans (h.bytes a ha)⟩
/-- A change outside contexts, memory cells and queues. -/
theorem Kept.same {s t u : State} (h : Kept s t gs vs ks A) (h1 : u.ctxs = t.ctxs) (h2 : u.cur = t.cur) (hm : u.mem.cells = t.mem.cells)
    (hk : u.mem.hbmKey = t.mem.hbmKey) (hp : u.cl.par = t.cl.par) (hq : u.cl.queues = t.cl.queues) : Kept s u gs vs ks A :=
  h.of_own (h.own.of_eq h1 h2) hm hk hp hq
theorem Kept.taint {s t : State} (h : Kept s t gs vs ks A) (l : List Nat) : Kept s { t with taint := l } gs vs ks A := h.same rfl rfl rfl rfl rfl rfl
theorem Kept.cl {s t : State} (h : Kept s t gs vs ks A) (f : Cluster → Cluster) (hp : (f t.cl).par = t.cl.par)
    (hq : (f t.cl).queues = t.cl.queues) : Kept s (t.updCl f) gs vs ks A := h.same rfl rfl rfl rfl hp hq
theorem Kept.upd {s t : State} (h : Kept s t gs vs ks A) (f : Ctx → Ctx) (hf : CtxKept t.ctx (f t.ctx) gs vs ks) : Kept s (t.upd f) gs vs ks A :=
  h.of_own (h.own.upd f hf) rfl rfl rfl rfl

/-! ### Traps, waits, ends, sources, results -/

theorem State.trapAt_cl (s : State) (c : CtxId) (cause : BitVec 8) (st : BitVec 4) (a b : Word) (hd : Hold) :
    (s.trapAt c cause st a b hd).cl.par = s.cl.par ∧ (s.trapAt c cause st a b hd).cl.queues = s.cl.queues := by
  unfold State.trapAt; dsimp only; split
  · exact ⟨rfl, rfl⟩
  · split <;> exact ⟨rfl, rfl⟩
theorem Kept.trapAux {s t : State} (h : Kept s t gs vs ks A) (c : BitVec 8) (st : BitVec 4) (a b : Word) :
    Kept s (t.trapAux c st a b) gs vs ks A :=
  h.of_own (h.own.trapAux _ _ _ _) (by rw [State.trapAux_mem]) (by rw [State.trapAux_mem]) (State.trapAt_cl _ _ _ _ _ _ _).1
    (State.trapAt_cl _ _ _ _ _ _ _).2
theorem Kept.trapEa {s t : State} (h : Kept s t gs vs ks A) (c : BitVec 8) (ea : Word) : Kept s (t.trapEa c ea) gs vs ks A := h.trapAux _ _ _ _
theorem Kept.trap {s t : State} (h : Kept s t gs vs ks A) (c : BitVec 8) : Kept s (t.trap c) gs vs ks A := h.trapAux _ _ _ _
theorem Kept.trapNonRes {s t : State} (h : Kept s t gs vs ks A) (ea : Word) (vpn : Nat) : Kept s (t.trapNonRes ea vpn) gs vs ks A := by
  refine h.of_own (h.own.trapNonRes ea vpn) ?_ ?_ (State.trapAt_cl _ _ _ _ _ _ _).1 (State.trapAt_cl _ _ _ _ _ _ _).2
  · show (t.trapAt _ _ _ _ _ _).mem.cells = _; rw [State.trapAt_mem]
  · show (t.trapAt _ _ _ _ _ _).mem.hbmKey = _; rw [State.trapAt_mem]
theorem Kept.block {s t : State} (h : Kept s t gs vs ks A) (w : Wait) : Kept s (t.block w) gs vs ks A := h.of_own (h.own.block w) rfl rfl rfl rfl
theorem Kept.post {s t : State} (h : Kept s t gs vs ks A) (i : Instr) : Kept s (t.post i) gs vs ks A := h.same rfl rfl rfl rfl rfl rfl
theorem Kept.failAcc {s t : State} (h : Kept s t gs vs ks A) (r : AccRes) (ea : Word) : Kept s (t.failAcc r ea) gs vs ks A := by
  unfold State.failAcc
  split
  · exact h
  · exact h.trapEa _ _
  · exact h.trapEa _ _
  · exact h.trapNonRes _ _
  · exact h.trap _
  · rename_i k; exact Kept.same (h.block (.mig k)) rfl rfl rfl rfl rfl rfl
  · exact h.trapEa _ _
theorem State.finish_cl (s : State) (n : Nat) : (s.finish n).cl = s.cl := by
  unfold State.finish; split
  · rfl
  · split <;> rfl
theorem Kept.finish {s t : State} (h : Kept s t gs vs ks A) (n : Nat) : Kept s (t.finish n) gs vs ks A :=
  h.of_own (h.own.finish n) (by rw [State.finish_mem]) (by rw [State.finish_mem]) (by rw [State.finish_cl]) (by rw [State.finish_cl])
theorem Kept.jumpTo {s t : State} (h : Kept s t gs vs ks A) (pc : BitVec 48) : Kept s (t.jumpTo pc) gs vs ks A :=
  h.of_own (h.own.jumpTo pc) rfl rfl rfl rfl
theorem Kept.checked {s t : State} (h : Kept s t gs vs ks A) {k : State → State} (hk : Kept s (k t) gs vs ks A) : Kept s (t.checked k) gs vs ks A := by
  unfold State.checked; split
  · exact h.block _
  · exact hk
theorem Kept.priv {s t : State} (h : Kept s t gs vs ks A) {k : State → State} (hk : Kept s (k t) gs vs ks A) : Kept s (t.priv k) gs vs ks A := by
  unfold State.priv; split
  · exact hk
  · exact h.trap _
theorem Kept.needTag {s t : State} (h : Kept s t gs vs ks A) (ok : Bool) {k : State → State} (hk : Kept s (k t) gs vs ks A) :
    Kept s (t.needTag ok k) gs vs ks A := by
  unfold State.needTag; split
  · exact hk
  · exact h.trap _
theorem Kept.srcG {s t : State} (h : Kept s t gs vs ks A) (fa : Bool) (r : GNum) {k : Word → State → State}
    (hk : ∀ v u, Kept s u gs vs ks A → Kept s (k v u) gs vs ks A) : Kept s (t.srcG fa r k) gs vs ks A :=
  t.srcG_cases (Kept s · gs vs ks A) fa r k (fun v _ => hk v _ (h.taint _)) (fun _ _ _ _ => h.trapAux _ _ _ _) (fun _ => h.block _)
theorem Kept.srcV {s t : State} (h : Kept s t gs vs ks A) (fa : Bool) (r : VNum) {k : VReg → State → State}
    (hk : ∀ v u, Kept s u gs vs ks A → Kept s (k v u) gs vs ks A) : Kept s (t.srcV fa r k) gs vs ks A := by
  unfold State.srcV; dsimp only
  repeat' split
  all_goals first
    | exact h.trap _
    | exact h.block _
    | exact h.trapAux _ _ _ _
    | exact hk _ _ (h.taint _)
theorem State.setG_cl (s : State) (d : GNum) (v : Word) : (s.setG d v).cl = s.cl := by unfold State.setG; split <;> rfl
theorem Kept.setG {s t : State} (h : Kept s t gs vs ks A) (d : GNum) (v : Word) (hd : d ∈ gs) : Kept s (t.setG d v) gs vs ks A :=
  h.of_own (h.own.setG d v hd) (by rw [State.setG_mem]) (by rw [State.setG_mem]) (by rw [State.setG_cl]) (by rw [State.setG_cl])
theorem Kept.putG {s t : State} (h : Kept s t gs vs ks A) (n : Nat) (d : GNum) (v : Word) (hd : d ∈ gs) : Kept s (t.putG n d v) gs vs ks A :=
  (h.setG d v hd).finish n
theorem Kept.poisonG {s t : State} (h : Kept s t gs vs ks A) (d : GNum) (st : BitVec 4) (hd : d ∈ gs) : Kept s (t.poisonG d st) gs vs ks A := by
  unfold State.poisonG
  split
  · exact h
  · refine h.upd _ { CtxKept.refl t.ctx gs vs ks with g := fun r hr => ?_ }
    have hne : (r : Nat) ≠ (d : Nat) := fun e => hr (Fin.ext e ▸ hd)
    simp only [Fin.getElem_fin]
    exact Vector.getElem_set_ne _ _ hne.symm
theorem CtxKept.setV (x : Ctx) (d : VNum) (r : VReg) (hd : d ∈ vs) : CtxKept x { x with v := x.v.set d r } gs vs ks := by
  refine { CtxKept.refl x gs vs ks with v := fun i hi => ?_ }
  have hne : (i : Nat) ≠ (d : Nat) := fun e => hi (Fin.ext e ▸ hd)
  simp only [Fin.getElem_fin]
  exact Vector.getElem_set_ne _ _ hne.symm
theorem Kept.setV {s t : State} (h : Kept s t gs vs ks A) (d : VNum) (g : Tag) (v : VWord) (hd : d ∈ vs) : Kept s (t.setV d g v) gs vs ks A :=
  h.upd _ (CtxKept.setV _ d _ hd)
theorem Kept.poisonV {s t : State} (h : Kept s t gs vs ks A) (d : VNum) (st : BitVec 4) (hd : d ∈ vs) : Kept s (t.poisonV d st) gs vs ks A :=
  h.upd _ (CtxKept.setV _ d _ hd)
theorem Kept.setK {s t : State} (h : Kept s t gs vs ks A) (d : KNum) (v : Word) (hd : d ∈ ks) : Kept s (t.setK d v) gs vs ks A := by
  unfold State.setK; split
  · exact h
  · refine h.upd _ { CtxKept.refl t.ctx gs vs ks with k := fun i hi => ?_ }
    have hne : (i : Nat) ≠ (d : Nat) := fun e => hi (Fin.ext e ▸ hd)
    simp only [Fin.getElem_fin]
    exact ⟨Vector.getElem_set_ne _ _ hne.symm, Vector.getElem_set_ne _ _ hne.symm⟩
theorem Kept.taintK {s t : State} (h : Kept s t gs vs ks A) (k : KNum) : Kept s (t.taintK k) gs vs ks A := by
  unfold State.taintK; split
  · exact h
  · exact h.same rfl rfl rfl rfl rfl rfl

/-! ### Accesses, placement, loads -/

theorem Kept.access {s t : State} (h : Kept s t gs vs ks A) (a : Nat) (b : Bool) (p : Perm) (o n : Nat) : Kept s (t.access a b p o n).2 gs vs ks A := by
  obtain ⟨x, y, e⟩ := t.access_looked a b p o n
  rw [e]; exact h.same rfl rfl rfl rfl rfl rfl
theorem Kept.setClk {s t : State} (h : Kept s t gs vs ks A) (T : Nat) : Kept s (t.setClk T) gs vs ks A := h.upd _ (CtxKept.of_eq rfl)
theorem Kept.raiseClk {s t : State} (h : Kept s t gs vs ks A) (T : Nat) : Kept s (t.raiseClk T) gs vs ks A := h.upd _ (CtxKept.of_eq rfl)
theorem Kept.markSide {s t : State} (h : Kept s t gs vs ks A) : Kept s t.markSide gs vs ks A := h.upd _ (CtxKept.of_eq rfl)
theorem Kept.markAtomic {s t : State} (h : Kept s t gs vs ks A) : Kept s t.markAtomic gs vs ks A := h.upd _ (CtxKept.of_eq rfl)
theorem Kept.stampRead {s t : State} (h : Kept s t gs vs ks A) (g T : Nat) : Kept s (t.stampRead g T) gs vs ks A := h.same rfl rfl rfl rfl rfl rfl
theorem Kept.stampWrite {s t : State} (h : Kept s t gs vs ks A) (g T : Nat) : Kept s (t.stampWrite g T) gs vs ks A := h.same rfl rfl rfl rfl rfl rfl
theorem Kept.placeRead {s t : State} (h : Kept s t gs vs ks A) (o : Nat) {k : State → State}
    (hk : ∀ u, Kept s u gs vs ks A → Kept s (k u) gs vs ks A) : Kept s (t.placeRead o k) gs vs ks A := by
  unfold State.placeRead; dsimp only; split
  · exact h.trap _
  · exact hk _ ((h.stampRead _ _).setClk _)
theorem Kept.placeWrite {s t : State} (h : Kept s t gs vs ks A) (o : Nat) {k : Nat → State → State}
    (hk : ∀ T u, Kept s u gs vs ks A → Kept s (k T u) gs vs ks A) : Kept s (t.placeWrite o k) gs vs ks A := by
  unfold State.placeWrite; dsimp only; split
  · exact h.trap _
  · exact hk _ _ ((h.stampWrite _ _).setClk _)
theorem Kept.setFE {s t : State} (h : Kept s t gs vs ks A) (w : Nat) (f : Bool) : Kept s (t.setFE w f) gs vs ks A := h.quiet (t.setFE_step w f A)
theorem Kept.feWait {s t : State} (h : Kept s t gs vs ks A) (o : Nat) (f : Bool) {k : State → State} (hk : Kept s (k t) gs vs ks A) :
    Kept s (t.feWait o f k) gs vs ks A := by
  unfold State.feWait; split
  · exact hk
  · exact h.block _
theorem Kept.writeOwn {s t : State} (h : Kept s t gs vs ks A) (o key : Nat) (l : List Byte) (T : Nat)
    (hb : ∀ a, key ≤ a → a < key + l.length → A a) (hq : ∀ a, s.queuedNext a → A a) : Kept s (t.writeOwn o key l T) gs vs ks A :=
  h.step (t.writeOwn_step o key l T) fun a x => x.elim (fun y => hb a y.1 y.2) fun y => hq a (h.queued a y)

/-- The logs of the machine's pages lie in A. -/
def LogsIn (s : State) (A : Nat → Prop) : Prop := ∀ i a, i < 1024 → s.inLog i a → A a
theorem Kept.inLog {s t : State} (h : Kept s t gs vs ks A) (i a : Nat) (x : t.inLog i a) : s.inLog i a := by
  unfold State.inLog at *; rwa [h.par] at x
theorem leaf_log (leaf : Word) : bits leaf 6 10 < 1024 := by unfold bits; omega
/-- What a log gives for a load; only the log's own bytes change. -/
theorem Kept.logServe {s t u : State} (h : Kept s t gs vs ks A) (hl : LogsIn s A) {vpn : Nat} {leaf : Word} {o n skip T : Nat}
    {l : List Byte} (e : t.logServe vpn leaf o n skip = some (l, T, u)) : Kept s u gs vs ks A := by
  unfold State.logServe at e
  dsimp only at e
  have h1 : Kept s (t.openLog (bits leaf 6 10) vpn) gs vs ks A :=
    h.step (t.openLog_step (bits leaf 6 10) vpn) fun a x => hl _ a (leaf_log leaf) (h.inLog _ a x)
  generalize t.openLog (bits leaf 6 10) vpn = v at h1 e
  split at e
  · cases e
  · simp only [Option.some.injEq, Prod.mk.injEq] at e
    obtain ⟨-, -, rfl⟩ := e
    exact h1.step (v.putLogDesc_step (bits leaf 6 10) _) fun a x => hl _ a (leaf_log leaf) (h1.inLog _ a x)
theorem Kept.logLoad {s t : State} (h : Kept s t gs vs ks A) (hl : LogsIn s A) (vpn : Nat) (leaf ea : Word) (o n skip : Nat)
    {k : List Byte → State → State} (hk : ∀ l u, Kept s u gs vs ks A → Kept s (k l u) gs vs ks A) :
    Kept s (t.logLoad vpn leaf ea o n skip k) gs vs ks A := by
  unfold State.logLoad; split
  · exact h.trapNonRes _ _
  · rename_i e
    split
    · exact h.trap _
    · exact hk _ _ ((h.logServe hl e).setClk _)
/-- Entries appended to a log. -/
theorem Kept.appendFrom {s : State} (i : Nat) (hl : ∀ a, s.inLog i a → A a) (T : Option Nat) :
    ∀ (l : List LogEnt) (t u : State), Kept s t gs vs ks A → t.appendFrom i T l = .ok u → Kept s u gs vs ks A
  | [], t, u, h, e => by
    simp only [State.appendFrom, Appended.ok.injEq] at e
    exact e ▸ h
  | x :: r, t, u, h, e => by
    unfold State.appendFrom at e
    dsimp only at e
    have hc : Kept s (t.compactIfDue i) gs vs ks A := h.step (t.compactIfDue_step i) fun a y => hl a (h.inLog _ a y)
    generalize t.compactIfDue i = v at hc e
    have hlt : (v.logDesc i).cnt < 512 := by simp only [State.logDesc, bits]; omega
    split at e
    · cases e
    · split at e
      · cases e
      · refine Kept.appendFrom i hl T r _ u (Kept.setClk ?_ _) e
        exact hc.step ((v.putLogEnt_step i _ _ hlt).log (State.putLogDesc_step _ i _)) fun a y => hl a (hc.inLog _ a y)
theorem Kept.next {s t : State} (h : Kept s t gs vs ks A) (i : Instr) : Kept s (t.next i) gs vs ks A := h.same rfl rfl rfl rfl rfl rfl
/-- The entries that a store or an atomic needs, appended to an open log. -/
theorem Kept.appendEnts {s t u : State} (h : Kept s t gs vs ks A) (i : Nat) (hl : ∀ a, s.inLog i a → A a) (vpn : Nat) (one : Bool)
    (l : List LogEnt) (e : (t.openLog i vpn).appendEnts i one l = .ok u) : Kept s u gs vs ks A := by
  have h1 : Kept s (t.openLog i vpn) gs vs ks A := h.step (t.openLog_step i vpn) fun a x => hl a (h.inLog _ a x)
  unfold State.appendEnts at e
  dsimp only at e
  have h2 : Kept s ((t.openLog i vpn).compactIfDue i) gs vs ks A := h1.step ((t.openLog i vpn).compactIfDue_step i) fun a y => hl a (h1.inLog _ a y)
  split at e
  · cases e
  · exact Kept.appendFrom i hl _ _ _ u h2 e
/-- What waits for no more room in a log, or is past the clock limit, or goes on after the entries. -/
theorem Kept.logAppend {s t : State} (h : Kept s t gs vs ks A) (vpn : Nat) (leaf : Word) (hl : ∀ a, s.inLog (bits leaf 6 10) a → A a)
    (l : List LogEnt) {k : State → State} (hk : ∀ u, Kept s u gs vs ks A → Kept s (k u) gs vs ks A) : Kept s (t.logAppend vpn leaf l k) gs vs ks A := by
  unfold State.logAppend; dsimp only
  split
  · exact (h.block _).next _
  · exact h.trap _
  · rename_i u e
    exact hk u (h.appendEnts _ hl vpn _ _ e)
/-- What a store may change at one of its accesses lies in A: the access's own bytes, or the log of the page. -/
def StoreIn (s : State) (A : Nat → Prop) (x : StoreEl × StoreAt) : Prop :=
  match x.2 with
  | .mem o key => (∀ p ∈ x.1.parts, o ≤ p.1 ∧ p.1 + p.2.length ≤ o + x.1.n) ∧ ∀ a, key ≤ a → a < key + x.1.n → A a
  | .log _ leaf => ∀ a, s.inLog (bits leaf 6 10) a → A a
/-- The accesses of a store change their own bytes and the logs of the pages they go to, and the NEXT words of queued records. -/
theorem Kept.performStores {s s0 : State} (all : List (StoreEl × StoreAt)) {k : State → State} (h0 : Kept s s0 gs vs ks A)
    (hq : ∀ a, s.queuedNext a → A a) (hk : ∀ u, Kept s u gs vs ks A → Kept s (k u) gs vs ks A) :
    ∀ (r : List (StoreEl × StoreAt)) (done : List Nat) (t : State), (∀ x ∈ r, StoreIn s A x) → Kept s t gs vs ks A →
      Kept s (s0.performStores t all done r k) gs vs ks A
  | [], _, t, _, h => hk t h
  | (e, .mem o key) :: r, done, t, hl, h => by
    have hr := fun x hx => hl x (List.mem_cons_of_mem _ hx)
    have hi : StoreIn s A (e, .mem o key) := hl _ (by simp)
    unfold State.performStores; dsimp only
    split
    · exact Kept.performStores all h0 hq hk r _ t hr h
    · split
      · exact h0.trap _
      · refine Kept.performStores all h0 hq hk r _ _ hr ?_
        have h1 := (h.stampWrite (granule o) (t.writeTime (granule o) t.ctx.clk)).setClk (t.writeTime (granule o) t.ctx.clk)
        exact h1.step (State.writeParts_step _ o e.n key _ e.parts hi.1) fun a x =>
          x.elim (fun y => hi.2 a y.1 y.2) fun y => hq a (h1.queued a y)
  | (e, .log vpn leaf) :: r, done, t, hl, h => by
    have hr := fun x hx => hl x (List.mem_cons_of_mem _ hx)
    have hi : StoreIn s A (e, .log vpn leaf) := hl _ (by simp)
    unfold State.performStores; dsimp only
    split
    · exact Kept.performStores all h0 hq hk r _ t hr h
    · split
      · exact (h0.block _).next _
      · exact h0.trap _
      · rename_i u eq
        exact Kept.performStores all h0 hq hk r _ u hr (h.appendEnts _ hi vpn _ _ eq)
theorem Kept.lowestFault {s : State} (ld : Bool) : ∀ (els : List (Word × Nat × Nat)) (f : AccRes) (ea : Word) (t : State),
    Kept s t gs vs ks A → Kept s (t.lowestFault ld f ea els).2.2 gs vs ks A
  | [], _, _, _, h => h
  | (a, n, skip) :: r, f, ea, t, h => by
    unfold State.lowestFault; dsimp only
    split
    · exact Kept.lowestFault ld r _ _ _ h
    · have ha := h.access t.agent t.sup (if ld then .rd else .wr) (offOf a) n
      generalize t.access t.agent t.sup (if ld then .rd else .wr) (offOf a) n = q at ha ⊢
      obtain ⟨w, u⟩ := q
      cases w <;> dsimp only <;> (try split) <;> exact Kept.lowestFault ld r _ _ _ ha
theorem Kept.failElem {s t : State} (h : Kept s t gs vs ks A) (ld : Bool) (f : AccRes) (ea : Word) (r : List (Word × Nat × Nat)) :
    Kept s (t.failElem ld f ea r) gs vs ks A := by
  unfold State.failElem
  exact (Kept.lowestFault ld _ f ea t h).failAcc _ _
theorem Kept.checkLoads {s : State} {k : List ElemAt → State → State} (hk : ∀ l u, Kept s u gs vs ks A → Kept s (k l u) gs vs ks A) :
    ∀ (els : List (Word × Nat × Nat)) (acc : List ElemAt) (t : State), Kept s t gs vs ks A → Kept s (t.checkLoads acc els k) gs vs ks A
  | [], acc, t, h => hk _ _ h
  | (ea, n, skip) :: r, acc, t, h => by
    unfold State.checkLoads; dsimp only
    split
    · exact h.trapEa _ _
    · split
      · split
        · exact Kept.checkLoads hk r _ _ h
        · exact h.trapEa _ _
      · have ha := h.access t.agent t.sup .rd (offOf ea) n
        generalize t.access t.agent t.sup .rd (offOf ea) n = q at ha ⊢
        obtain ⟨w, u⟩ := q
        cases w with
        | ok key => exact Kept.checkLoads hk r _ _ ha
        | nonres vpn leaf =>
          dsimp only; split
          · exact Kept.checkLoads hk r _ _ ha
          · exact ha.failElem _ _ _ _
        | _ => exact ha.failElem _ _ _ _
theorem Kept.l1Evict {s t : State} (h : Kept s t gs vs ks A) (o : ClusterId) (l : Nat) : Kept s (t.l1Evict o l) gs vs ks A := by
  unfold State.l1Evict; split
  · exact h
  · unfold State.draw; dsimp only; split <;> exact h.same rfl rfl rfl rfl rfl rfl
theorem Kept.sendRead {s t : State} (h : Kept s t gs vs ks A) (w : ReqFor) (o : ClusterId) (f sz c : Nat) (kd : ReadKind) (ro : BitVec 2)
    (ne : BitVec 16) : Kept s (t.sendRead w o f sz c kd ro ne).2 gs vs ks A := by
  unfold State.sendRead State.newTag; dsimp only
  exact ((h.cl _ rfl rfl).cl _ rfl rfl).quiet (State.send_step _ _ _ _ _)
theorem Kept.requestMissing {s : State} : ∀ (els : List ElemAt) (i : Nat) (t : State), Kept s t gs vs ks A →
    Kept s (t.requestMissing i els) gs vs ks A
  | [], _, _, h => h
  | .remote owner o n :: r, i, t, h => by
    unfold State.requestMissing; dsimp only
    split
    · exact Kept.requestMissing r _ _ h
    · have h1 := h.l1Evict owner (o / 128 * 128)
      split
      · exact Kept.requestMissing r _ _ h1
      · have h2 := h1.sendRead (.ctx (t.l1Evict owner (o / 128 * 128)).cur) owner (o / 128 * 128) 128
          (t.l1Evict owner (o / 128 * 128)).ctx.clk .load 0 7
        exact Kept.requestMissing r _ _ (h2.upd _ (CtxKept.of_eq rfl))
  | .none _ :: r, i, t, h => Kept.requestMissing r _ _ h
  | .mem _ _ _ :: r, i, t, h => Kept.requestMissing r _ _ h
  | .log _ _ _ _ _ _ :: r, i, t, h => Kept.requestMissing r _ _ h
theorem Kept.askAgain {s t : State} (h : Kept s t gs vs ks A) (owner : ClusterId) (line i clk : Nat) :
    Kept s (t.askAgain owner line i clk) gs vs ks A := by
  have h2 := h.sendRead (.ctx t.cur) owner line 128 clk .load 0 7
  exact (h2.upd _ (CtxKept.of_eq rfl)).block _
theorem Kept.readElems {s s0 : State} (hl : LogsIn s A) {k : List (List Byte) → State → State}
    (hk : ∀ l u, Kept s u gs vs ks A → Kept s (k l u) gs vs ks A) (h0 : Kept s s0 gs vs ks A) :
    ∀ (els : List ElemAt) (i : Nat) (acc : List (List Byte)) (t : State), Kept s t gs vs ks A → Kept s (s0.readElems t i acc els k) gs vs ks A
  | [], _, _, _, h => hk _ _ h
  | .none n :: r, i, acc, t, h => Kept.readElems hl hk h0 r _ _ _ h
  | .mem o key n :: r, i, acc, t, h => by
    unfold State.readElems; dsimp only
    split
    · exact h0.trap _
    · exact Kept.readElems hl hk h0 r _ _ _ ((h.stampRead _ _).setClk _)
  | .log vpn leaf ea o n skip :: r, i, acc, t, h => by
    unfold State.readElems
    split
    · exact h0.trapNonRes _ _
    · rename_i e
      split
      · exact h0.trap _
      · exact Kept.readElems hl hk h0 r _ _ _ ((h.logServe hl e).setClk _)
  | .remote owner o n :: r, i, acc, t, h => by
    unfold State.readElems; dsimp only
    split
    · split
      · split
        · exact h0.trap _
        · exact Kept.readElems hl hk h0 r _ _ _ ((h.setClk _).taint _)
      · exact h0.askAgain _ _ _ _
    · split
      · split
        · exact h0.trap _
        · exact Kept.readElems hl hk h0 r _ _ _ (h.setClk _)
      · exact h0.askAgain _ _ _ _
/-- A load changes no byte but those of the pending-operation logs. -/
theorem Kept.loadElems {s t : State} (h : Kept s t gs vs ks A) (hl : LogsIn s A) (els : List (Word × Nat × Nat))
    {k : List (List Byte) → State → State} {kf : BitVec 4 → State → State} (hk : ∀ l u, Kept s u gs vs ks A → Kept s (k l u) gs vs ks A)
    (hf : ∀ st u, Kept s u gs vs ks A → Kept s (kf st u) gs vs ks A) : Kept s (t.loadElems els k kf) gs vs ks A := by
  unfold State.loadElems
  refine Kept.checkLoads ?_ els [] t h
  intro l u hu
  have h1 := Kept.requestMissing l 0 u hu
  dsimp only
  split
  · exact h1.block _
  · split
    · exact hf _ _ h1
    · exact Kept.readElems hl hk h1 _ _ _ _ h1

/-- Scratchpad bytes stand at their offsets. -/
theorem State.access_spad (s : State) (a : Nat) (b : Bool) (p : Perm) (o n key : Nat) (h : inSpad o n = true)
    (hk : (s.access a b p o n).1 = .ok key) : key = o := by
  unfold State.access at hk
  rw [if_pos h] at hk
  cases h1 : s.spadAllowed b p o n
  · rw [h1] at hk; cases hk
  · cases h2 : s.badWord o n
    · rw [h1, h2] at hk; cases hk; rfl
    · rw [h1, h2] at hk; cases hk
/-- The checks of a full/empty operation. -/
theorem Kept.feChecks {s t : State} (h : Kept s t gs vs ks A) (p : Perm) (ea : Word) {k : Nat → State → State}
    (hk : ∀ u, Kept s u gs vs ks A → (t.access t.agent t.sup p (offOf ea) 8).1 = .ok (offOf ea) → Kept s (k (offOf ea) u) gs vs ks A) :
    Kept s (t.feChecks p ea k) gs vs ks A := by
  unfold State.feChecks; dsimp only
  split
  · exact h.trapEa _ _
  split
  · exact h.trapEa _ _
  split
  · exact h.trapEa _ _
  split
  · exact h.trapEa _ _
  rename_i hs
  have ha := h.access t.agent t.sup p (offOf ea) 8
  have hkey := fun key => t.access_spad t.agent t.sup p (offOf ea) 8 key (by cases hq : inSpad (offOf ea) 8 <;> simp_all)
  generalize t.access t.agent t.sup p (offOf ea) 8 = q at ha hk hkey ⊢
  obtain ⟨w, u⟩ := q
  cases w with
  | ok key => exact hk _ ha (by rw [hkey key rfl])
  | _ => exact ha.failAcc _ _
/-- Reading a source that can be read; any other ends in a trap or a wait. -/
theorem State.srcG_read {P : State → Prop} (s : State) (fa : Bool) (r : GNum) (k : Word → State → State)
    (hk : ∀ l, P (k (s.gVal r) (s.tainted l s.hurt))) (ht : ∀ c st a b, P (s.trapAux c st a b)) (hb : ∀ w, P (s.block w)) : P (s.srcG fa r k) := by
  unfold State.srcG
  split
  · rename_i h; subst h; exact hk s.taint
  · rename_i h0
    have e : s.gVal r = s.ctx.g[r].val := by unfold State.gVal; rw [if_neg h0]
    dsimp only
    rw [e] at hk
    split
    · exact ht _ _ _ _
    · split
      · split
        · exact ht _ _ _ _
        · exact hb _
      · split
        · exact ht _ _ _ _
        · exact hk _

end Sys2Proof.Machine
end

