-- ==== Sys2Proof/Laws/Lanes.lean ====
section
/-!
SUPPORT. Sys2Proof/Laws/Lanes.lean: lanes of a vector register put together and taken apart, mask bits, sources that are vector
registers.
-/
namespace Sys2Proof.Machine

theorem laneOf_lt (w : Nat) (v : VWord) (i : Nat) : laneOf w v i < 2 ^ w := Nat.mod_lt _ (Nat.two_pow_pos w)
theorem packNat_lt (w : Nat) : ∀ l : List Nat, packNat w l < 2 ^ (w * l.length)
  | [] => by simp [packNat]
  | x :: r => by
    have h := packNat_lt w r
    have hx : x % 2 ^ w < 2 ^ w := Nat.mod_lt _ (Nat.two_pow_pos w)
    simp only [packNat, List.length_cons, Nat.mul_add, Nat.mul_one, Nat.pow_add]
    calc x % 2 ^ w + 2 ^ w * packNat w r < 2 ^ w + 2 ^ w * packNat w r := Nat.add_lt_add_right hx _
      _ = 2 ^ w * (packNat w r + 1) := by rw [Nat.mul_add, Nat.mul_one, Nat.add_comm]
      _ ≤ 2 ^ w * 2 ^ (w * r.length) := Nat.mul_le_mul_left _ h
      _ = 2 ^ (w * r.length) * 2 ^ w := Nat.mul_comm _ _
theorem packNat_lane (w : Nat) : ∀ (l : List Nat) (i : Nat), i < l.length → packNat w l / 2 ^ (w * i) % 2 ^ w = l.getD i 0 % 2 ^ w
  | [], i, h => by simp at h
  | x :: r, 0, _ => by simp [packNat]
  | x :: r, i + 1, h => by
    have hx : x % 2 ^ w < 2 ^ w := Nat.mod_lt _ (Nat.two_pow_pos w)
    have e : packNat w (x :: r) / 2 ^ w = packNat w r := by
      rw [packNat, Nat.add_mul_div_left _ _ (Nat.two_pow_pos w), Nat.div_eq_of_lt hx, Nat.zero_add]
    rw [Nat.mul_add, Nat.mul_one, Nat.add_comm, Nat.pow_add, ← Nat.div_div_eq_div_mul, e]
    simpa using packNat_lane w r i (by simpa using h)
/-- A lane of lanes put together. -/
theorem lane_pack (w : Nat) (l : List Nat) (i : Nat) (hi : i < l.length) (hw : w * l.length ≤ 512) :
    laneOf w (packLanes w l) i = l.getD i 0 % 2 ^ w := by
  unfold laneOf packLanes
  rw [BitVec.toNat_ofNat, Nat.mod_eq_of_lt (Nat.lt_of_lt_of_le (packNat_lt w l) (Nat.pow_le_pow_right (by decide) hw))]
  exact packNat_lane w l i hi
theorem tag_lanes (g : Tag) : tagWidth g * tagLanes g = 512 := by cases g <;> rfl
theorem lanesOf_length (w n : Nat) (v : VWord) : (lanesOf w n v).length = n := by simp [lanesOf]
theorem mergeLanes_length (m : Word) (E : Nat) : ∀ (o x : List Nat) (e : Nat), x.length = o.length → (mergeLanes m E e o x).length = o.length
  | [], [], _, _ => rfl
  | a :: o, b :: x, e, h => by simp only [mergeLanes, List.length_cons, mergeLanes_length m E o x (e + 1) (by simpa using h)]
  | [], b :: x, _, h => by simp at h
  | a :: o, [], _, h => by simp at h
theorem mergeLanes_get (m : Word) (E : Nat) : ∀ (o x : List Nat) (e i : Nat), x.length = o.length → i < o.length →
    (mergeLanes m E e o x).getD i 0 = if active m E (e + i) then x.getD i 0 else o.getD i 0
  | [], _, _, _, _, h => by simp at h
  | a :: o, [], _, _, h, _ => by simp at h
  | a :: o, b :: x, e, 0, _, _ => by simp [mergeLanes]
  | a :: o, b :: x, e, i + 1, h, hi => by
    have := mergeLanes_get m E o x (e + 1) i (by simpa using h) (by simpa using hi)
    rw [show e + (i + 1) = e + 1 + i by omega]
    simpa [mergeLanes] using this
theorem State.putV_ctx (s : State) (d : VNum) (g : Tag) (m : Word) (l : List Nat) : (s.putV d g m l).ctx =
    { s.ctx with v := s.ctx.v.set d ⟨packLanes (tagWidth g) (mergeLanes m (tagLanes g) 0
      (lanesOf (tagWidth g) (tagLanes g) (s.ctx.v[d]).val) l), g, true, false,
      if (List.range (tagLanes g)).all (active m (tagLanes g)) then s.taint else s.taint ++ (s.ctx.v[d]).unchk, false⟩ } := by
  unfold State.putV State.setV; dsimp only; split <;> exact State.ctx_upd _ _

/-! ### Vector sources -/

theorem State.srcV_ok (s : State) (fa : Bool) (r : VNum) (k : VReg → State → State) (h : s.vOk r = true) :
    s.srcV fa r k = k s.ctx.v[r] (s.readsV [r]) := by
  unfold State.vOk at h
  simp only [Bool.and_eq_true, Bool.not_eq_true'] at h
  obtain ⟨⟨hb, hf⟩, hp⟩ := h
  unfold State.srcV State.readsV
  simp only [hb, hf, hp, Bool.not_true, Bool.false_eq_true, if_false, List.map_cons, List.map_nil, List.flatten_cons,
    List.flatten_nil, List.append_nil]
@[simp] theorem State.readsV_ctx (s : State) (l : List VNum) : (s.readsV l).ctx = s.ctx := rfl
@[simp] theorem State.readsV_vOk (s : State) (l : List VNum) (r : VNum) : (s.readsV l).vOk r = s.vOk r := rfl
@[simp] theorem State.readsV_readsV (s : State) (l m : List VNum) : (s.readsV l).readsV m = s.readsV (l ++ m) := by
  have h : (s.readsV l).ctx = s.ctx := rfl
  unfold State.readsV at *
  rw [h]; simp
theorem State.needTag_ok (s : State) (b : Bool) (k : State → State) (h : b = true) : s.needTag b k = k s := by
  unfold State.needTag; rw [if_pos h]
@[simp] theorem State.getK_readsV (s : State) (l : List VNum) (k : KNum) : (s.readsV l).getK k = s.getK k := rfl
@[simp] theorem State.taintK_ctx (s : State) (k : KNum) : (s.taintK k).ctx = s.ctx := by unfold State.taintK; split <;> rfl
theorem State.mask_eq (s : State) (k : KNum) (f : Word → State → State) : s.mask k f = f (s.getK k) (s.taintK k) := rfl

/-- Lanes taken one by one. -/
theorem zipWith_lanes (w n : Nat) (x y : VWord) (f : Nat → Nat → Nat) :
    List.zipWith f (lanesOf w n x) (lanesOf w n y) = (List.range n).map fun i => f (laneOf w x i) (laneOf w y i) := by
  unfold lanesOf; rw [List.zipWith_map, List.zipWith_self]
theorem map_lanes (w n : Nat) (x : VWord) (f : Nat → Nat) : (lanesOf w n x).map f = (List.range n).map fun i => f (laneOf w x i) := by
  unfold lanesOf; rw [List.map_map]; rfl

/-! ### Masks -/

theorem maskOf_bit : ∀ (l : List Bool) (i : Nat), (maskOf l).testBit i = l.getD i false
  | [], i => by simp [maskOf]
  | b :: r, 0 => by
    simp only [maskOf, List.getD_cons_zero, Nat.testBit_zero]
    cases b <;> simp
  | b :: r, i + 1 => by
    rw [List.getD_cons_succ, ← maskOf_bit r i, Nat.testBit_succ]
    congr 1
    simp only [maskOf]
    cases b
    · simp
    · simp; omega

/-! ### Frames of instructions on vector registers -/

variable {gs : List GNum} {vs : List VNum} {ks : List KNum} {n : Nat}

theorem RegsOnly.taint {s0 s : State} (h : RegsOnly s0 s gs vs ks n) (l : List Nat) : RegsOnly s0 { s with taint := l } gs vs ks n := h.move _ _ _
theorem RegsOnly.touchV {s0 s : State} (h : RegsOnly s0 s gs vs ks n) (d : VNum) : RegsOnly s0 (s.touchV d) gs vs ks n :=
  h.of_eq (h.regs.of_eq rfl rfl) rfl rfl rfl rfl rfl rfl
theorem RegsOnly.srcV {s0 s : State} (h : RegsOnly s0 s gs vs ks n) (fa : Bool) (r : VNum) {k : VReg → State → State}
    (hk : ∀ v u, RegsOnly s0 u gs vs ks n → RegsOnly s0 (k v u) gs vs ks n) : RegsOnly s0 (s.srcV fa r k) gs vs ks n := by
  unfold State.srcV; dsimp only
  repeat' split
  all_goals first
    | exact h.trap _
    | exact h.block _
    | exact h.trapAux _ _ _ _
    | exact hk _ _ (h.taint _)
theorem RegsOnly.needTag {s0 s : State} (h : RegsOnly s0 s gs vs ks n) (b : Bool) {k : State → State}
    (hk : ∀ u, RegsOnly s0 u gs vs ks n → RegsOnly s0 (k u) gs vs ks n) : RegsOnly s0 (s.needTag b k) gs vs ks n := by
  unfold State.needTag; split
  · exact hk _ h
  · exact h.trap _
theorem RegsOnly.taintK {s0 s : State} (h : RegsOnly s0 s gs vs ks n) (k : KNum) : RegsOnly s0 (s.taintK k) gs vs ks n := by
  unfold State.taintK; split
  · exact h
  · exact h.of_eq (h.regs.of_eq rfl rfl) rfl rfl rfl rfl rfl rfl
theorem RegsOnly.setV {s0 s : State} (h : RegsOnly s0 s gs vs ks n) (d : VNum) (g : Tag) (v : VWord) (hd : d ∈ vs) :
    RegsOnly s0 (s.setV d g v) gs vs ks n := h.upd _ (CtxKept.setV _ d _ hd) rfl
theorem RegsOnly.putV {s0 s : State} (h : RegsOnly s0 s gs vs ks n) (d : VNum) (g : Tag) (m : Word) (l : List Nat) (hd : d ∈ vs) :
    RegsOnly s0 (s.putV d g m l) gs vs ks n := by
  unfold State.putV; dsimp only; split
  · exact h.setV _ _ _ hd
  · exact (h.touchV d).setV _ _ _ hd
theorem RegsOnly.putGroup {s0 : State} (d : VNum) (g : Tag) (m : Word) (E : Nat) : ∀ (j : Nat) (l : List Nat) (s : State),
    (∀ i, i < j → vAt d i ∈ vs) → RegsOnly s0 s gs vs ks n → RegsOnly s0 (s.putGroup d g m E j l) gs vs ks n
  | 0, _, _, _, h => h
  | j + 1, l, s, hd, h => by
    have ih := RegsOnly.putGroup d g m E j l s (fun i hi => hd i (by omega)) h
    unfold State.putGroup; dsimp only; split
    · exact ih.setV _ _ _ (hd j (by omega))
    · exact (ih.touchV _).setV _ _ _ (hd j (by omega))
theorem RegsOnly.setK {s0 s : State} (h : RegsOnly s0 s gs vs ks n) (d : KNum) (v : Word) (hd : d ∈ ks) : RegsOnly s0 (s.setK d v) gs vs ks n := by
  unfold State.setK; split
  · exact h
  · refine h.upd _ { CtxKept.refl s.ctx gs vs ks with k := fun i hi => ?_ } rfl
    have hne : (i : Nat) ≠ (d : Nat) := fun e => hi (Fin.ext e ▸ hd)
    simp only [Fin.getElem_fin]
    exact ⟨Vector.getElem_set_ne _ _ hne.symm, Vector.getElem_set_ne _ _ hne.symm⟩
theorem RegsOnly.srcGroup {s0 : State} (fa : Bool) (a : VNum) (ok : Tag → Bool) {k : List VReg → State → State}
    (hk : ∀ l u, RegsOnly s0 u gs vs ks n → RegsOnly s0 (k l u) gs vs ks n) : ∀ (j i : Nat) (acc : List VReg) (s : State),
    RegsOnly s0 s gs vs ks n → RegsOnly s0 (s.srcGroup fa a ok j i acc k) gs vs ks n
  | 0, _, _, _, h => hk _ _ h
  | j + 1, i, acc, _, h => h.srcV _ _ fun v _ h => h.needTag _ fun u h => RegsOnly.srcGroup fa a ok hk j (i + 1) (v :: acc) u h
/-- Draws taken by an instruction that has taken none yet. -/
theorem RegsOnly.addDraws {s0 s : State} (h : RegsOnly s0 s gs vs ks 0) (k : Nat) (hk : k ≤ n) : RegsOnly s0 (s.addDraws k) gs vs ks n := by
  have e : (s.addDraws k).ctx = { s.ctx with drawn := s.ctx.drawn + BitVec.ofNat 48 k } := State.ctx_upd s fun x => { x with drawn := x.drawn + BitVec.ofNat 48 k }
  obtain ⟨j, hj, hd⟩ := h.drawn
  obtain rfl : j = 0 := by omega
  refine ⟨h.regs.upd _ (CtxKept.of_eq rfl), ?_, ⟨k, hk, ?_⟩, ?_, h.bytes, h.mem, h.cores, h.cl, h.eng, h.mod⟩
  · rw [e]; exact h.clk
  · rw [e]; show s.ctx.drawn + _ = _; rw [hd]; simp
  · rw [e]; exact h.marks
/-- Fewer draws are no more. -/
theorem RegsOnly.more {s0 s : State} (h : RegsOnly s0 s gs vs ks 0) : RegsOnly s0 s gs vs ks n := by
  obtain ⟨j, hj, hd⟩ := h.drawn
  exact { h with drawn := ⟨j, by omega, hd⟩ }
theorem activeBelow_le (m : Word) (E : Nat) : ∀ e, activeBelow m E e ≤ e
  | 0 => Nat.le_refl _
  | e + 1 => by
    have := activeBelow_le m E e
    unfold activeBelow; split <;> omega
theorem RegsOnly.drawnR {s0 s : State} (h : RegsOnly s0 s gs vs ks 0) (r : Rnd) (m : Word) (E : Nat) (hE : E ≤ n) :
    RegsOnly s0 (s.drawn r m E) gs vs ks n := by
  unfold State.drawn; split
  · exact h.addDraws _ (Nat.le_trans (activeBelow_le m E E) hE)
  · exact h.more
/-- A source read before any draw is taken: what follows may take draws. -/
theorem RegsOnly.srcVDraw {s0 s : State} (h : RegsOnly s0 s gs vs ks 0) (fa : Bool) (r : VNum) {k : VReg → State → State}
    (hk : ∀ v u, RegsOnly s0 u gs vs ks 0 → RegsOnly s0 (k v u) gs vs ks n) : RegsOnly s0 (s.srcV fa r k) gs vs ks n := by
  unfold State.srcV; dsimp only
  repeat' split
  all_goals first
    | exact (h.trap _).more
    | exact (h.block _).more
    | exact (h.trapAux _ _ _ _).more
    | exact hk _ _ (h.taint _)
theorem RegsOnly.needTagDraw {s0 s : State} (h : RegsOnly s0 s gs vs ks 0) (b : Bool) {k : State → State}
    (hk : ∀ u, RegsOnly s0 u gs vs ks 0 → RegsOnly s0 (k u) gs vs ks n) : RegsOnly s0 (s.needTag b k) gs vs ks n := by
  unfold State.needTag; split
  · exact hk _ h
  · exact (h.trap _).more
theorem RegsOnly.srcGroupDraw {s0 : State} (fa : Bool) (a : VNum) (ok : Tag → Bool) {k : List VReg → State → State}
    (hk : ∀ l u, RegsOnly s0 u gs vs ks 0 → RegsOnly s0 (k l u) gs vs ks n) : ∀ (j i : Nat) (acc : List VReg) (s : State),
    RegsOnly s0 s gs vs ks 0 → RegsOnly s0 (s.srcGroup fa a ok j i acc k) gs vs ks n
  | 0, _, _, _, h => hk _ _ h
  | j + 1, i, acc, _, h => h.srcVDraw _ _ fun v _ h => h.needTagDraw _ fun u h => RegsOnly.srcGroupDraw fa a ok hk j (i + 1) (v :: acc) u h

end Sys2Proof.Machine
end

