-- ==== Sys2Proof/Laws/PerInstr.lean ====
section
/-!
SUPPORT. Sys2Proof/Laws/PerInstr.lean: decoding an encoded instruction gives it back (R155 to R175), per instruction. First
each layout reads back the fields that its word was made of, and the bits between them stay what the fixed part had; then
each constructor.
-/
namespace Sys2Proof.Laws

theorem fin_val (n : Nat) [NeZero n] (x : Fin n) : fin n x.val = x := by
  simp [fin]

theorem bit_eq (b : Bool) : (b.toNat == 1) = b := by cases b <;> rfl

theorem bv_val {n : Nat} (x : BitVec n) : BitVec.ofNat n x.toNat = x := by simp

theorem bv_parts {n : Nat} (x : BitVec n) : BitVec.ofNat n (x.toNat / 4 * 4 + x.toNat % 4) = x := by
  rw [Nat.div_add_mod']; simp

/-- A 32-bit instruction decodes to what its word decodes to. -/
theorem decode_two {w major : Nat} {i : Instr} (top : w / 2 ^ 24 = major) (h : (decide (192 ≤ major) && decide (major < 256)) = true)
    (hd : decMajor major w = .ok i) (hw : i.wf = true) (r : List Parcel) : decode (two w ++ r) = .ok (i, r) := by
  subst top
  simp only [Bool.and_eq_true, decide_eq_true_eq] at h
  have hl : isLong (BitVec.ofNat 16 (w / 2 ^ 16)) = true := by
    simp only [isLong, BitVec.toNat_ofNat, beq_iff_eq]; omega
  have hv : wordOf (BitVec.ofNat 16 (w / 2 ^ 16)) (BitVec.ofNat 16 w) = w := by
    simp only [wordOf, BitVec.toNat_ofNat]; omega
  simp only [decode, two, List.cons_append, List.nil_append, hl, hv, decRaw32, hd, checkValues, hw, Except.map, if_true]

/-- A 16-bit instruction decodes to what its parcel decodes to. -/
theorem decode_one {w format : Nat} {i : Instr} (top : w / 2 ^ 14 = format) (h : decide (format < 3) = true)
    (hd : decFormat format w = .ok i) (hw : i.wf = true) (r : List Parcel) : decode (one w ++ r) = .ok (i, r) := by
  subst top
  simp only [decide_eq_true_eq] at h
  have hl : isLong (BitVec.ofNat 16 w) = false := by
    simp only [isLong, BitVec.toNat_ofNat, beq_eq_false_iff_ne]; omega
  have hv : (BitVec.ofNat 16 w).toNat = w := by
    simp only [BitVec.toNat_ofNat]; omega
  simp only [decode, one, List.cons_append, List.nil_append, hl, hv, decRaw16, hd, checkValues, hw, Except.map, if_true, Bool.false_eq_true, if_false]

/-- Fields that must be zero and are (R159). -/
theorem zeros_ok {w : Nat} {l : List (Nat × Nat)} {i j : Instr} (h : (l.all fun f => fld w f.1 f.2 == 0) = true)
    (e : i = j) : zeros w l i = .ok j := by
  simp [zeros, h, e]

/-! ### Layouts: the fields of a word are what the word was made of -/

theorem g3_word (c : GNum → GNum → GNum → Bool → Bool → Instr) (m : Nat) (d : GNum) (a : GNum) (b : GNum) (fa : Bool) (fb : Bool)
    (hm : m / 2 ^ 7 % 2 ^ 17 = 0) :
    g3 c (g3W m d a b fa fb) = c d a b fa fb ∧
    g3W m d a b fa fb / 2 ^ 24 = m / 2 ^ 24 ∧
    fld (g3W m d a b fa fb) 0 7 = fld m 0 7 ∧
    fld (g3W m d a b fa fb) 3 4 = fld m 3 4 ∧
    fld (g3W m d a b fa fb) 0 3 = fld m 0 3 := by
  have b0 := d.isLt
  have b1 := a.isLt
  have b2 := b.isLt
  have b3 := Bool.toNat_lt fa
  have b4 := Bool.toNat_lt fb
  have e0 : fld (g3W m d a b fa fb) 19 5 = d.val := by simp only [fld, g3W]; omega
  have e1 : fld (g3W m d a b fa fb) 14 5 = a.val := by simp only [fld, g3W]; omega
  have e2 : fld (g3W m d a b fa fb) 9 5 = b.val := by simp only [fld, g3W]; omega
  have e3 : fld (g3W m d a b fa fb) 8 1 = fa.toNat := by simp only [fld, g3W]; omega
  have e4 : fld (g3W m d a b fa fb) 7 1 = fb.toNat := by simp only [fld, g3W]; omega
  refine ⟨?_, ?_, ?_, ?_, ?_⟩
  · simp only [g3, e0, e1, e2, e3, e4, fin_val, bit_eq]
  · simp only [g3W]; omega
  · simp only [fld, g3W]; omega
  · simp only [fld, g3W]; omega
  · simp only [fld, g3W]; omega

theorem g2_word (c : GNum → GNum → Bool → Instr) (m : Nat) (d : GNum) (a : GNum) (fa : Bool)
    (hm : m / 2 ^ 8 % 2 ^ 1 = 0 ∧ m / 2 ^ 14 % 2 ^ 10 = 0) :
    g2 c (g2W m d a fa) = c d a fa ∧
    g2W m d a fa / 2 ^ 24 = m / 2 ^ 24 ∧
    fld (g2W m d a fa) 0 7 = fld m 0 7 ∧
    fld (g2W m d a fa) 7 1 = fld m 7 1 ∧
    fld (g2W m d a fa) 9 5 = fld m 9 5 := by
  have b0 := d.isLt
  have b1 := a.isLt
  have b2 := Bool.toNat_lt fa
  have e0 : fld (g2W m d a fa) 19 5 = d.val := by simp only [fld, g2W]; omega
  have e1 : fld (g2W m d a fa) 14 5 = a.val := by simp only [fld, g2W]; omega
  have e2 : fld (g2W m d a fa) 8 1 = fa.toNat := by simp only [fld, g2W]; omega
  refine ⟨?_, ?_, ?_, ?_, ?_⟩
  · simp only [g2, e0, e1, e2, fin_val, bit_eq]
  · simp only [g2W]; omega
  · simp only [fld, g2W]; omega
  · simp only [fld, g2W]; omega
  · simp only [fld, g2W]; omega

theorem imm13_word (c : GNum → GNum → Bool → BitVec 13 → Instr) (m : Nat) (d : GNum) (a : GNum) (fa : Bool) (imm : BitVec 13)
    (hm : m / 2 ^ 0 % 2 ^ 24 = 0) :
    imm13 c (imm13W m d a fa imm) = c d a fa imm ∧
    imm13W m d a fa imm / 2 ^ 24 = m / 2 ^ 24 := by
  have b0 := d.isLt
  have b1 := a.isLt
  have b2 := Bool.toNat_lt fa
  have b3 := imm.isLt
  have e0 : fld (imm13W m d a fa imm) 19 5 = d.val := by simp only [fld, imm13W]; omega
  have e1 : fld (imm13W m d a fa imm) 14 5 = a.val := by simp only [fld, imm13W]; omega
  have e2 : fld (imm13W m d a fa imm) 13 1 = fa.toNat := by simp only [fld, imm13W]; omega
  have e3 : fld (imm13W m d a fa imm) 0 13 = imm.toNat := by simp only [fld, imm13W]; omega
  refine ⟨?_, ?_⟩
  · simp only [imm13, e0, e1, e2, e3, fin_val, bit_eq, bv_val]
  · simp only [imm13W]; omega

theorem shift_word (c : GNum → GNum → Bool → BitVec 6 → Instr) (m : Nat) (d : GNum) (a : GNum) (fa : Bool) (n : BitVec 6)
    (hm : m / 2 ^ 0 % 2 ^ 6 = 0 ∧ m / 2 ^ 13 % 2 ^ 11 = 0) :
    shift c (shiftW m d a fa n) = c d a fa n ∧
    shiftW m d a fa n / 2 ^ 24 = m / 2 ^ 24 ∧
    fld (shiftW m d a fa n) 10 3 = fld m 10 3 ∧
    fld (shiftW m d a fa n) 6 4 = fld m 6 4 := by
  have b0 := d.isLt
  have b1 := a.isLt
  have b2 := Bool.toNat_lt fa
  have b3 := n.isLt
  have e0 : fld (shiftW m d a fa n) 19 5 = d.val := by simp only [fld, shiftW]; omega
  have e1 : fld (shiftW m d a fa n) 14 5 = a.val := by simp only [fld, shiftW]; omega
  have e2 : fld (shiftW m d a fa n) 13 1 = fa.toNat := by simp only [fld, shiftW]; omega
  have e3 : fld (shiftW m d a fa n) 0 6 = n.toNat := by simp only [fld, shiftW]; omega
  refine ⟨?_, ?_, ?_, ?_⟩
  · simp only [shift, e0, e1, e2, e3, fin_val, bit_eq, bv_val]
  · simp only [shiftW]; omega
  · simp only [fld, shiftW]; omega
  · simp only [fld, shiftW]; omega

theorem bitField_word (c : GNum → GNum → Bool → BitVec 6 → BitVec 6 → Instr) (m : Nat) (d : GNum) (a : GNum) (fa : Bool) (len : BitVec 6) (pos : BitVec 6)
    (hm : m / 2 ^ 0 % 2 ^ 12 = 0 ∧ m / 2 ^ 13 % 2 ^ 11 = 0) :
    bitField c (bitFieldW m d a fa len pos) = c d a fa len pos ∧
    bitFieldW m d a fa len pos / 2 ^ 24 = m / 2 ^ 24 ∧
    fld (bitFieldW m d a fa len pos) 12 1 = fld m 12 1 := by
  have b0 := d.isLt
  have b1 := a.isLt
  have b2 := Bool.toNat_lt fa
  have b3 := len.isLt
  have b4 := pos.isLt
  have e0 : fld (bitFieldW m d a fa len pos) 19 5 = d.val := by simp only [fld, bitFieldW]; omega
  have e1 : fld (bitFieldW m d a fa len pos) 14 5 = a.val := by simp only [fld, bitFieldW]; omega
  have e2 : fld (bitFieldW m d a fa len pos) 13 1 = fa.toNat := by simp only [fld, bitFieldW]; omega
  have e3 : fld (bitFieldW m d a fa len pos) 6 6 = len.toNat := by simp only [fld, bitFieldW]; omega
  have e4 : fld (bitFieldW m d a fa len pos) 0 6 = pos.toNat := by simp only [fld, bitFieldW]; omega
  refine ⟨?_, ?_, ?_⟩
  · simp only [bitField, e0, e1, e2, e3, e4, fin_val, bit_eq, bv_val]
  · simp only [bitFieldW]; omega
  · simp only [fld, bitFieldW]; omega

theorem chunk_word (c : GNum → Fin 4 → BitVec 16 → Instr) (m : Nat) (d : GNum) (h : Fin 4) (imm : BitVec 16)
    (hm : m / 2 ^ 0 % 2 ^ 18 = 0 ∧ m / 2 ^ 19 % 2 ^ 5 = 0) :
    chunk c (chunkW m d h imm) = c d h imm ∧
    chunkW m d h imm / 2 ^ 24 = m / 2 ^ 24 ∧
    fld (chunkW m d h imm) 18 1 = fld m 18 1 := by
  have b0 := d.isLt
  have b1 := h.isLt
  have b2 := imm.isLt
  have e0 : fld (chunkW m d h imm) 19 5 = d.val := by simp only [fld, chunkW]; omega
  have e1 : fld (chunkW m d h imm) 16 2 = h.val := by simp only [fld, chunkW]; omega
  have e2 : fld (chunkW m d h imm) 0 16 = imm.toNat := by simp only [fld, chunkW]; omega
  refine ⟨?_, ?_, ?_⟩
  · simp only [chunk, e0, e1, e2, fin_val, bv_val]
  · simp only [chunkW]; omega
  · simp only [fld, chunkW]; omega

theorem gD_word (c : GNum → Instr) (m : Nat) (d : GNum)
    (hm : m / 2 ^ 19 % 2 ^ 5 = 0) :
    gD c (gDW m d) = c d ∧
    gDW m d / 2 ^ 24 = m / 2 ^ 24 ∧
    fld (gDW m d) 0 7 = fld m 0 7 ∧
    fld (gDW m d) 7 12 = fld m 7 12 := by
  have b0 := d.isLt
  have e0 : fld (gDW m d) 19 5 = d.val := by simp only [fld, gDW]; omega
  refine ⟨?_, ?_, ?_, ?_⟩
  · simp only [gD, e0, fin_val]
  · simp only [gDW]; omega
  · simp only [fld, gDW]; omega
  · simp only [fld, gDW]; omega

theorem k3_word (c : KNum → KNum → KNum → Instr) (m : Nat) (d : KNum) (a : KNum) (b : KNum)
    (hm : m / 2 ^ 9 % 2 ^ 3 = 0 ∧ m / 2 ^ 14 % 2 ^ 3 = 0 ∧ m / 2 ^ 19 % 2 ^ 3 = 0) :
    k3 c (k3W m d a b) = c d a b ∧
    k3W m d a b / 2 ^ 24 = m / 2 ^ 24 ∧
    fld (k3W m d a b) 0 7 = fld m 0 7 ∧
    fld (k3W m d a b) 7 2 = fld m 7 2 ∧
    fld (k3W m d a b) 12 2 = fld m 12 2 ∧
    fld (k3W m d a b) 17 2 = fld m 17 2 ∧
    fld (k3W m d a b) 22 2 = fld m 22 2 := by
  have b0 := d.isLt
  have b1 := a.isLt
  have b2 := b.isLt
  have e0 : fld (k3W m d a b) 19 3 = d.val := by simp only [fld, k3W]; omega
  have e1 : fld (k3W m d a b) 14 3 = a.val := by simp only [fld, k3W]; omega
  have e2 : fld (k3W m d a b) 9 3 = b.val := by simp only [fld, k3W]; omega
  refine ⟨?_, ?_, ?_, ?_, ?_, ?_, ?_⟩
  · simp only [k3, e0, e1, e2, fin_val]
  · simp only [k3W]; omega
  · simp only [fld, k3W]; omega
  · simp only [fld, k3W]; omega
  · simp only [fld, k3W]; omega
  · simp only [fld, k3W]; omega
  · simp only [fld, k3W]; omega

theorem k2_word (c : KNum → KNum → Instr) (m : Nat) (d : KNum) (a : KNum)
    (hm : m / 2 ^ 14 % 2 ^ 3 = 0 ∧ m / 2 ^ 19 % 2 ^ 3 = 0) :
    k2 c (k2W m d a) = c d a ∧
    k2W m d a / 2 ^ 24 = m / 2 ^ 24 ∧
    fld (k2W m d a) 0 7 = fld m 0 7 ∧
    fld (k2W m d a) 7 7 = fld m 7 7 ∧
    fld (k2W m d a) 17 2 = fld m 17 2 ∧
    fld (k2W m d a) 22 2 = fld m 22 2 := by
  have b0 := d.isLt
  have b1 := a.isLt
  have e0 : fld (k2W m d a) 19 3 = d.val := by simp only [fld, k2W]; omega
  have e1 : fld (k2W m d a) 14 3 = a.val := by simp only [fld, k2W]; omega
  refine ⟨?_, ?_, ?_, ?_, ?_, ?_⟩
  · simp only [k2, e0, e1, fin_val]
  · simp only [k2W]; omega
  · simp only [fld, k2W]; omega
  · simp only [fld, k2W]; omega
  · simp only [fld, k2W]; omega
  · simp only [fld, k2W]; omega

theorem kFromG_word (c : KNum → GNum → Bool → Instr) (m : Nat) (d : KNum) (a : GNum) (fa : Bool)
    (hm : m / 2 ^ 8 % 2 ^ 1 = 0 ∧ m / 2 ^ 14 % 2 ^ 8 = 0) :
    kFromG c (kFromGW m d a fa) = c d a fa ∧
    kFromGW m d a fa / 2 ^ 24 = m / 2 ^ 24 ∧
    fld (kFromGW m d a fa) 0 7 = fld m 0 7 ∧
    fld (kFromGW m d a fa) 7 1 = fld m 7 1 ∧
    fld (kFromGW m d a fa) 9 5 = fld m 9 5 ∧
    fld (kFromGW m d a fa) 22 2 = fld m 22 2 := by
  have b0 := d.isLt
  have b1 := a.isLt
  have b2 := Bool.toNat_lt fa
  have e0 : fld (kFromGW m d a fa) 19 3 = d.val := by simp only [fld, kFromGW]; omega
  have e1 : fld (kFromGW m d a fa) 14 5 = a.val := by simp only [fld, kFromGW]; omega
  have e2 : fld (kFromGW m d a fa) 8 1 = fa.toNat := by simp only [fld, kFromGW]; omega
  refine ⟨?_, ?_, ?_, ?_, ?_, ?_⟩
  · simp only [kFromG, e0, e1, e2, fin_val, bit_eq]
  · simp only [kFromGW]; omega
  · simp only [fld, kFromGW]; omega
  · simp only [fld, kFromGW]; omega
  · simp only [fld, kFromGW]; omega
  · simp only [fld, kFromGW]; omega

theorem gFromK_word (c : GNum → KNum → Instr) (m : Nat) (d : GNum) (a : KNum)
    (hm : m / 2 ^ 14 % 2 ^ 3 = 0 ∧ m / 2 ^ 19 % 2 ^ 5 = 0) :
    gFromK c (gFromKW m d a) = c d a ∧
    gFromKW m d a / 2 ^ 24 = m / 2 ^ 24 ∧
    fld (gFromKW m d a) 0 7 = fld m 0 7 ∧
    fld (gFromKW m d a) 7 7 = fld m 7 7 ∧
    fld (gFromKW m d a) 17 2 = fld m 17 2 := by
  have b0 := d.isLt
  have b1 := a.isLt
  have e0 : fld (gFromKW m d a) 19 5 = d.val := by simp only [fld, gFromKW]; omega
  have e1 : fld (gFromKW m d a) 14 3 = a.val := by simp only [fld, gFromKW]; omega
  refine ⟨?_, ?_, ?_, ?_, ?_⟩
  · simp only [gFromK, e0, e1, fin_val]
  · simp only [gFromKW]; omega
  · simp only [fld, gFromKW]; omega
  · simp only [fld, gFromKW]; omega
  · simp only [fld, gFromKW]; omega

theorem v3_word (c : VNum → VNum → VNum → KNum → Bool → Bool → Instr) (m : Nat) (d : VNum) (a : VNum) (b : VNum) (k : KNum) (fa : Bool) (fb : Bool)
    (hm : m / 2 ^ 1 % 2 ^ 23 = 0) :
    v3 c (v3W m d a b k fa fb) = c d a b k fa fb ∧
    v3W m d a b k fa fb / 2 ^ 24 = m / 2 ^ 24 ∧
    fld (v3W m d a b k fa fb) 0 1 = fld m 0 1 := by
  have b0 := d.isLt
  have b1 := a.isLt
  have b2 := b.isLt
  have b3 := k.isLt
  have b4 := Bool.toNat_lt fa
  have b5 := Bool.toNat_lt fb
  have e0 : fld (v3W m d a b k fa fb) 18 6 = d.val := by simp only [fld, v3W]; omega
  have e1 : fld (v3W m d a b k fa fb) 12 6 = a.val := by simp only [fld, v3W]; omega
  have e2 : fld (v3W m d a b k fa fb) 6 6 = b.val := by simp only [fld, v3W]; omega
  have e3 : fld (v3W m d a b k fa fb) 3 3 = k.val := by simp only [fld, v3W]; omega
  have e4 : fld (v3W m d a b k fa fb) 2 1 = fa.toNat := by simp only [fld, v3W]; omega
  have e5 : fld (v3W m d a b k fa fb) 1 1 = fb.toNat := by simp only [fld, v3W]; omega
  refine ⟨?_, ?_, ?_⟩
  · simp only [v3, e0, e1, e2, e3, e4, e5, fin_val, bit_eq]
  · simp only [v3W]; omega
  · simp only [fld, v3W]; omega

theorem v3NoMask_word (c : VNum → VNum → VNum → Bool → Bool → Instr) (m : Nat) (d : VNum) (a : VNum) (b : VNum) (fa : Bool) (fb : Bool)
    (hm : m / 2 ^ 1 % 2 ^ 2 = 0 ∧ m / 2 ^ 6 % 2 ^ 18 = 0) :
    v3NoMask c (v3NoMaskW m d a b fa fb) = c d a b fa fb ∧
    v3NoMaskW m d a b fa fb / 2 ^ 24 = m / 2 ^ 24 ∧
    fld (v3NoMaskW m d a b fa fb) 0 1 = fld m 0 1 ∧
    fld (v3NoMaskW m d a b fa fb) 3 3 = fld m 3 3 := by
  have b0 := d.isLt
  have b1 := a.isLt
  have b2 := b.isLt
  have b3 := Bool.toNat_lt fa
  have b4 := Bool.toNat_lt fb
  have e0 : fld (v3NoMaskW m d a b fa fb) 18 6 = d.val := by simp only [fld, v3NoMaskW]; omega
  have e1 : fld (v3NoMaskW m d a b fa fb) 12 6 = a.val := by simp only [fld, v3NoMaskW]; omega
  have e2 : fld (v3NoMaskW m d a b fa fb) 6 6 = b.val := by simp only [fld, v3NoMaskW]; omega
  have e3 : fld (v3NoMaskW m d a b fa fb) 2 1 = fa.toNat := by simp only [fld, v3NoMaskW]; omega
  have e4 : fld (v3NoMaskW m d a b fa fb) 1 1 = fb.toNat := by simp only [fld, v3NoMaskW]; omega
  refine ⟨?_, ?_, ?_, ?_⟩
  · simp only [v3NoMask, e0, e1, e2, e3, e4, fin_val, bit_eq]
  · simp only [v3NoMaskW]; omega
  · simp only [fld, v3NoMaskW]; omega
  · simp only [fld, v3NoMaskW]; omega

theorem branchB_word (c : GNum → GNum → BitVec 14 → Instr) (m : Nat) (a : GNum) (b : GNum) (disp : BitVec 14)
    (hm : m / 2 ^ 0 % 2 ^ 24 = 0) :
    branchB c (branchBW m a b disp) = c a b disp ∧
    branchBW m a b disp / 2 ^ 24 = m / 2 ^ 24 := by
  have b0 := a.isLt
  have b1 := b.isLt
  have b2 := disp.isLt
  have e0 : fld (branchBW m a b disp) 19 5 = a.val := by simp only [fld, branchBW]; omega
  have e1 : fld (branchBW m a b disp) 14 5 = b.val := by simp only [fld, branchBW]; omega
  have e2 : fld (branchBW m a b disp) 0 14 = disp.toNat := by simp only [fld, branchBW]; omega
  refine ⟨?_, ?_⟩
  · simp only [branchB, e0, e1, e2, fin_val, bv_val]
  · simp only [branchBW]; omega

theorem jumpJ_word (c : BitVec 24 → Instr) (m : Nat) (disp : BitVec 24)
    (hm : m / 2 ^ 0 % 2 ^ 24 = 0) :
    jumpJ c (jumpJW m disp) = c disp ∧
    jumpJW m disp / 2 ^ 24 = m / 2 ^ 24 := by
  have b0 := disp.isLt
  have e0 : fld (jumpJW m disp) 0 24 = disp.toNat := by simp only [fld, jumpJW]; omega
  refine ⟨?_, ?_⟩
  · simp only [jumpJ, e0, bv_val]
  · simp only [jumpJW]; omega

theorem gA_word (c : GNum → Bool → Instr) (m : Nat) (a : GNum) (fa : Bool)
    (hm : m / 2 ^ 8 % 2 ^ 1 = 0 ∧ m / 2 ^ 14 % 2 ^ 5 = 0) :
    gA c (gAW m a fa) = c a fa ∧
    gAW m a fa / 2 ^ 24 = m / 2 ^ 24 ∧
    fld (gAW m a fa) 0 7 = fld m 0 7 ∧
    fld (gAW m a fa) 7 1 = fld m 7 1 ∧
    fld (gAW m a fa) 9 5 = fld m 9 5 ∧
    fld (gAW m a fa) 19 5 = fld m 19 5 ∧
    fld (gAW m a fa) 3 4 = fld m 3 4 ∧
    fld (gAW m a fa) 0 3 = fld m 0 3 := by
  have b0 := a.isLt
  have b1 := Bool.toNat_lt fa
  have e0 : fld (gAW m a fa) 14 5 = a.val := by simp only [fld, gAW]; omega
  have e1 : fld (gAW m a fa) 8 1 = fa.toNat := by simp only [fld, gAW]; omega
  refine ⟨?_, ?_, ?_, ?_, ?_, ?_, ?_, ?_⟩
  · simp only [gA, e0, e1, fin_val, bit_eq]
  · simp only [gAW]; omega
  · simp only [fld, gAW]; omega
  · simp only [fld, gAW]; omega
  · simp only [fld, gAW]; omega
  · simp only [fld, gAW]; omega
  · simp only [fld, gAW]; omega
  · simp only [fld, gAW]; omega

theorem memM_word (c : GNum → GNum → Bool → BitVec 10 → Instr) (m : Nat) (d : GNum) (base : GNum) (fa : Bool) (off : BitVec 10)
    (hm : m / 2 ^ 0 % 2 ^ 10 = 0 ∧ m / 2 ^ 13 % 2 ^ 11 = 0) :
    memM c (memMW m d base fa off) = c d base fa off ∧
    memMW m d base fa off / 2 ^ 24 = m / 2 ^ 24 ∧
    fld (memMW m d base fa off) 10 3 = fld m 10 3 := by
  have b0 := d.isLt
  have b1 := base.isLt
  have b2 := Bool.toNat_lt fa
  have b3 := off.isLt
  have e0 : fld (memMW m d base fa off) 19 5 = d.val := by simp only [fld, memMW]; omega
  have e1 : fld (memMW m d base fa off) 14 5 = base.val := by simp only [fld, memMW]; omega
  have e2 : fld (memMW m d base fa off) 13 1 = fa.toNat := by simp only [fld, memMW]; omega
  have e3 : fld (memMW m d base fa off) 0 10 = off.toNat := by simp only [fld, memMW]; omega
  refine ⟨?_, ?_, ?_⟩
  · simp only [memM, e0, e1, e2, e3, fin_val, bit_eq, bv_val]
  · simp only [memMW]; omega
  · simp only [fld, memMW]; omega

theorem memNoD_word (c : GNum → Bool → BitVec 10 → Instr) (m : Nat) (base : GNum) (fa : Bool) (off : BitVec 10)
    (hm : m / 2 ^ 0 % 2 ^ 10 = 0 ∧ m / 2 ^ 13 % 2 ^ 6 = 0) :
    memNoD c (memNoDW m base fa off) = c base fa off ∧
    memNoDW m base fa off / 2 ^ 24 = m / 2 ^ 24 ∧
    fld (memNoDW m base fa off) 10 3 = fld m 10 3 ∧
    fld (memNoDW m base fa off) 19 5 = fld m 19 5 := by
  have b0 := base.isLt
  have b1 := Bool.toNat_lt fa
  have b2 := off.isLt
  have e0 : fld (memNoDW m base fa off) 14 5 = base.val := by simp only [fld, memNoDW]; omega
  have e1 : fld (memNoDW m base fa off) 13 1 = fa.toNat := by simp only [fld, memNoDW]; omega
  have e2 : fld (memNoDW m base fa off) 0 10 = off.toNat := by simp only [fld, memNoDW]; omega
  refine ⟨?_, ?_, ?_, ?_⟩
  · simp only [memNoD, e0, e1, e2, fin_val, bit_eq, bv_val]
  · simp only [memNoDW]; omega
  · simp only [fld, memNoDW]; omega
  · simp only [fld, memNoDW]; omega

theorem atomicD_word (c : GNum → GNum → GNum → Bool → Bool → Bool → Instr) (m : Nat) (d : GNum) (a : GNum) (b : GNum) (fa : Bool) (fb : Bool) (w32 : Bool)
    (hm : m / 2 ^ 5 % 2 ^ 1 = 0 ∧ m / 2 ^ 7 % 2 ^ 17 = 0) :
    atomicD c (atomicDW m d a b fa fb w32) = c d a b fa fb w32 ∧
    atomicDW m d a b fa fb w32 / 2 ^ 24 = m / 2 ^ 24 ∧
    fld (atomicDW m d a b fa fb w32) 0 5 = fld m 0 5 ∧
    fld (atomicDW m d a b fa fb w32) 6 1 = fld m 6 1 := by
  have b0 := d.isLt
  have b1 := a.isLt
  have b2 := b.isLt
  have b3 := Bool.toNat_lt fa
  have b4 := Bool.toNat_lt fb
  have b5 := Bool.toNat_lt w32
  have e0 : fld (atomicDW m d a b fa fb w32) 19 5 = d.val := by simp only [fld, atomicDW]; omega
  have e1 : fld (atomicDW m d a b fa fb w32) 14 5 = a.val := by simp only [fld, atomicDW]; omega
  have e2 : fld (atomicDW m d a b fa fb w32) 9 5 = b.val := by simp only [fld, atomicDW]; omega
  have e3 : fld (atomicDW m d a b fa fb w32) 8 1 = fa.toNat := by simp only [fld, atomicDW]; omega
  have e4 : fld (atomicDW m d a b fa fb w32) 7 1 = fb.toNat := by simp only [fld, atomicDW]; omega
  have e5 : fld (atomicDW m d a b fa fb w32) 5 1 = w32.toNat := by simp only [fld, atomicDW]; omega
  refine ⟨?_, ?_, ?_, ?_⟩
  · simp only [atomicD, e0, e1, e2, e3, e4, e5, fin_val, bit_eq]
  · simp only [atomicDW]; omega
  · simp only [fld, atomicDW]; omega
  · simp only [fld, atomicDW]; omega

theorem atomicNoD_word (c : GNum → GNum → Bool → Bool → Bool → Instr) (m : Nat) (a : GNum) (b : GNum) (fa : Bool) (fb : Bool) (w32 : Bool)
    (hm : m / 2 ^ 5 % 2 ^ 1 = 0 ∧ m / 2 ^ 7 % 2 ^ 12 = 0) :
    atomicNoD c (atomicNoDW m a b fa fb w32) = c a b fa fb w32 ∧
    atomicNoDW m a b fa fb w32 / 2 ^ 24 = m / 2 ^ 24 ∧
    fld (atomicNoDW m a b fa fb w32) 0 5 = fld m 0 5 ∧
    fld (atomicNoDW m a b fa fb w32) 6 1 = fld m 6 1 ∧
    fld (atomicNoDW m a b fa fb w32) 19 5 = fld m 19 5 := by
  have b0 := a.isLt
  have b1 := b.isLt
  have b2 := Bool.toNat_lt fa
  have b3 := Bool.toNat_lt fb
  have b4 := Bool.toNat_lt w32
  have e0 : fld (atomicNoDW m a b fa fb w32) 14 5 = a.val := by simp only [fld, atomicNoDW]; omega
  have e1 : fld (atomicNoDW m a b fa fb w32) 9 5 = b.val := by simp only [fld, atomicNoDW]; omega
  have e2 : fld (atomicNoDW m a b fa fb w32) 8 1 = fa.toNat := by simp only [fld, atomicNoDW]; omega
  have e3 : fld (atomicNoDW m a b fa fb w32) 7 1 = fb.toNat := by simp only [fld, atomicNoDW]; omega
  have e4 : fld (atomicNoDW m a b fa fb w32) 5 1 = w32.toNat := by simp only [fld, atomicNoDW]; omega
  refine ⟨?_, ?_, ?_, ?_, ?_⟩
  · simp only [atomicNoD, e0, e1, e2, e3, e4, fin_val, bit_eq]
  · simp only [atomicNoDW]; omega
  · simp only [fld, atomicNoDW]; omega
  · simp only [fld, atomicNoDW]; omega
  · simp only [fld, atomicNoDW]; omega

theorem g3e_word (c : GNum → GNum → GNum → Bool → Bool → ENum → Instr) (m : Nat) (d : GNum) (a : GNum) (b : GNum) (fa : Bool) (fb : Bool) (e : ENum)
    (hm : m / 2 ^ 0 % 2 ^ 3 = 0 ∧ m / 2 ^ 7 % 2 ^ 17 = 0) :
    g3e c (g3eW m d a b fa fb e) = c d a b fa fb e ∧
    g3eW m d a b fa fb e / 2 ^ 24 = m / 2 ^ 24 ∧
    fld (g3eW m d a b fa fb e) 3 4 = fld m 3 4 := by
  have b0 := d.isLt
  have b1 := a.isLt
  have b2 := b.isLt
  have b3 := Bool.toNat_lt fa
  have b4 := Bool.toNat_lt fb
  have b5 := e.isLt
  have e0 : fld (g3eW m d a b fa fb e) 19 5 = d.val := by simp only [fld, g3eW]; omega
  have e1 : fld (g3eW m d a b fa fb e) 14 5 = a.val := by simp only [fld, g3eW]; omega
  have e2 : fld (g3eW m d a b fa fb e) 9 5 = b.val := by simp only [fld, g3eW]; omega
  have e3 : fld (g3eW m d a b fa fb e) 8 1 = fa.toNat := by simp only [fld, g3eW]; omega
  have e4 : fld (g3eW m d a b fa fb e) 7 1 = fb.toNat := by simp only [fld, g3eW]; omega
  have e5 : fld (g3eW m d a b fa fb e) 0 3 = e.val := by simp only [fld, g3eW]; omega
  refine ⟨?_, ?_, ?_⟩
  · simp only [g3e, e0, e1, e2, e3, e4, e5, fin_val, bit_eq]
  · simp only [g3eW]; omega
  · simp only [fld, g3eW]; omega

theorem g2e_word (c : GNum → GNum → Bool → Bool → ENum → Instr) (m : Nat) (a : GNum) (b : GNum) (fa : Bool) (fb : Bool) (e : ENum)
    (hm : m / 2 ^ 0 % 2 ^ 3 = 0 ∧ m / 2 ^ 7 % 2 ^ 12 = 0) :
    g2e c (g2eW m a b fa fb e) = c a b fa fb e ∧
    g2eW m a b fa fb e / 2 ^ 24 = m / 2 ^ 24 ∧
    fld (g2eW m a b fa fb e) 3 4 = fld m 3 4 ∧
    fld (g2eW m a b fa fb e) 19 5 = fld m 19 5 := by
  have b0 := a.isLt
  have b1 := b.isLt
  have b2 := Bool.toNat_lt fa
  have b3 := Bool.toNat_lt fb
  have b4 := e.isLt
  have e0 : fld (g2eW m a b fa fb e) 14 5 = a.val := by simp only [fld, g2eW]; omega
  have e1 : fld (g2eW m a b fa fb e) 9 5 = b.val := by simp only [fld, g2eW]; omega
  have e2 : fld (g2eW m a b fa fb e) 8 1 = fa.toNat := by simp only [fld, g2eW]; omega
  have e3 : fld (g2eW m a b fa fb e) 7 1 = fb.toNat := by simp only [fld, g2eW]; omega
  have e4 : fld (g2eW m a b fa fb e) 0 3 = e.val := by simp only [fld, g2eW]; omega
  refine ⟨?_, ?_, ?_, ?_⟩
  · simp only [g2e, e0, e1, e2, e3, e4, fin_val, bit_eq]
  · simp only [g2eW]; omega
  · simp only [fld, g2eW]; omega
  · simp only [fld, g2eW]; omega

theorem g2eB_word (c : GNum → GNum → Bool → ENum → Instr) (m : Nat) (d : GNum) (b : GNum) (fb : Bool) (e : ENum)
    (hm : m / 2 ^ 0 % 2 ^ 3 = 0 ∧ m / 2 ^ 7 % 2 ^ 1 = 0 ∧ m / 2 ^ 9 % 2 ^ 5 = 0 ∧ m / 2 ^ 19 % 2 ^ 5 = 0) :
    g2eB c (g2eBW m d b fb e) = c d b fb e ∧
    g2eBW m d b fb e / 2 ^ 24 = m / 2 ^ 24 ∧
    fld (g2eBW m d b fb e) 3 4 = fld m 3 4 ∧
    fld (g2eBW m d b fb e) 8 1 = fld m 8 1 ∧
    fld (g2eBW m d b fb e) 14 5 = fld m 14 5 := by
  have b0 := d.isLt
  have b1 := b.isLt
  have b2 := Bool.toNat_lt fb
  have b3 := e.isLt
  have e0 : fld (g2eBW m d b fb e) 19 5 = d.val := by simp only [fld, g2eBW]; omega
  have e1 : fld (g2eBW m d b fb e) 9 5 = b.val := by simp only [fld, g2eBW]; omega
  have e2 : fld (g2eBW m d b fb e) 7 1 = fb.toNat := by simp only [fld, g2eBW]; omega
  have e3 : fld (g2eBW m d b fb e) 0 3 = e.val := by simp only [fld, g2eBW]; omega
  refine ⟨?_, ?_, ?_, ?_, ?_⟩
  · simp only [g2eB, e0, e1, e2, e3, fin_val, bit_eq]
  · simp only [g2eBW]; omega
  · simp only [fld, g2eBW]; omega
  · simp only [fld, g2eBW]; omega
  · simp only [fld, g2eBW]; omega

theorem tlX_word (c : GNum → TLNum → Instr) (m : Nat) (d : GNum) (tl : TLNum)
    (hm : m / 2 ^ 16 % 2 ^ 2 = 0 ∧ m / 2 ^ 19 % 2 ^ 5 = 0) :
    tlX c (tlXW m d tl) = c d tl ∧
    tlXW m d tl / 2 ^ 24 = m / 2 ^ 24 ∧
    fld (tlXW m d tl) 0 16 = fld m 0 16 ∧
    fld (tlXW m d tl) 18 1 = fld m 18 1 := by
  have b0 := d.isLt
  have b1 := tl.isLt
  have e0 : fld (tlXW m d tl) 19 5 = d.val := by simp only [fld, tlXW]; omega
  have e1 : fld (tlXW m d tl) 16 2 = tl.val := by simp only [fld, tlXW]; omega
  refine ⟨?_, ?_, ?_, ?_⟩
  · simp only [tlX, e0, e1, fin_val]
  · simp only [tlXW]; omega
  · simp only [fld, tlXW]; omega
  · simp only [fld, tlXW]; omega

theorem grpX_word (c : GNum → BitVec 8 → Instr) (m : Nat) (d : GNum) (idx : BitVec 8)
    (hm : m / 2 ^ 0 % 2 ^ 8 = 0 ∧ m / 2 ^ 19 % 2 ^ 5 = 0) :
    grpX c (grpXW m d idx) = c d idx ∧
    grpXW m d idx / 2 ^ 24 = m / 2 ^ 24 ∧
    fld (grpXW m d idx) 12 4 = fld m 12 4 ∧
    fld (grpXW m d idx) 8 4 = fld m 8 4 ∧
    fld (grpXW m d idx) 16 3 = fld m 16 3 := by
  have b0 := d.isLt
  have b1 := idx.isLt
  have e0 : fld (grpXW m d idx) 19 5 = d.val := by simp only [fld, grpXW]; omega
  have e1 : fld (grpXW m d idx) 0 8 = idx.toNat := by simp only [fld, grpXW]; omega
  refine ⟨?_, ?_, ?_, ?_, ?_⟩
  · simp only [grpX, e0, e1, fin_val, bv_val]
  · simp only [grpXW]; omega
  · simp only [fld, grpXW]; omega
  · simp only [fld, grpXW]; omega
  · simp only [fld, grpXW]; omega

theorem grpEX_word (c : GNum → ENum → BitVec 8 → Instr) (m : Nat) (d : GNum) (e : ENum) (idx : BitVec 8)
    (hm : m / 2 ^ 0 % 2 ^ 8 = 0 ∧ m / 2 ^ 16 % 2 ^ 8 = 0) :
    grpEX c (grpEXW m d e idx) = c d e idx ∧
    grpEXW m d e idx / 2 ^ 24 = m / 2 ^ 24 ∧
    fld (grpEXW m d e idx) 12 4 = fld m 12 4 ∧
    fld (grpEXW m d e idx) 8 4 = fld m 8 4 := by
  have b0 := d.isLt
  have b1 := e.isLt
  have b2 := idx.isLt
  have e0 : fld (grpEXW m d e idx) 19 5 = d.val := by simp only [fld, grpEXW]; omega
  have e1 : fld (grpEXW m d e idx) 16 3 = e.val := by simp only [fld, grpEXW]; omega
  have e2 : fld (grpEXW m d e idx) 0 8 = idx.toNat := by simp only [fld, grpEXW]; omega
  refine ⟨?_, ?_, ?_, ?_⟩
  · simp only [grpEX, e0, e1, e2, fin_val, bv_val]
  · simp only [grpEXW]; omega
  · simp only [fld, grpEXW]; omega
  · simp only [fld, grpEXW]; omega

theorem itemX_word (c : GNum → BitVec 10 → Instr) (m : Nat) (d : GNum) (item : BitVec 10)
    (hm : m / 2 ^ 0 % 2 ^ 10 = 0 ∧ m / 2 ^ 19 % 2 ^ 5 = 0) :
    itemX c (itemXW m d item) = c d item ∧
    itemXW m d item / 2 ^ 24 = m / 2 ^ 24 ∧
    fld (itemXW m d item) 10 9 = fld m 10 9 := by
  have b0 := d.isLt
  have b1 := item.isLt
  have e0 : fld (itemXW m d item) 19 5 = d.val := by simp only [fld, itemXW]; omega
  have e1 : fld (itemXW m d item) 0 10 = item.toNat := by simp only [fld, itemXW]; omega
  refine ⟨?_, ?_, ?_⟩
  · simp only [itemX, e0, e1, fin_val, bv_val]
  · simp only [itemXW]; omega
  · simp only [fld, itemXW]; omega

theorem sprX_word (c : GNum → BitVec 16 → Instr) (m : Nat) (d : GNum) (num : BitVec 16)
    (hm : m / 2 ^ 0 % 2 ^ 16 = 0 ∧ m / 2 ^ 19 % 2 ^ 5 = 0) :
    sprX c (sprXW m d num) = c d num ∧
    sprXW m d num / 2 ^ 24 = m / 2 ^ 24 ∧
    fld (sprXW m d num) 16 3 = fld m 16 3 := by
  have b0 := d.isLt
  have b1 := num.isLt
  have e0 : fld (sprXW m d num) 19 5 = d.val := by simp only [fld, sprXW]; omega
  have e1 : fld (sprXW m d num) 0 16 = num.toNat := by simp only [fld, sprXW]; omega
  refine ⟨?_, ?_, ?_⟩
  · simp only [sprX, e0, e1, fin_val, bv_val]
  · simp only [sprXW]; omega
  · simp only [fld, sprXW]; omega

theorem extX_word (c : GNum → ENum → Instr) (m : Nat) (d : GNum) (e : ENum)
    (hm : m / 2 ^ 16 % 2 ^ 8 = 0) :
    extX c (extXW m d e) = c d e ∧
    extXW m d e / 2 ^ 24 = m / 2 ^ 24 ∧
    fld (extXW m d e) 0 16 = fld m 0 16 := by
  have b0 := d.isLt
  have b1 := e.isLt
  have e0 : fld (extXW m d e) 19 5 = d.val := by simp only [fld, extXW]; omega
  have e1 : fld (extXW m d e) 16 3 = e.val := by simp only [fld, extXW]; omega
  refine ⟨?_, ?_, ?_⟩
  · simp only [extX, e0, e1, fin_val]
  · simp only [extXW]; omega
  · simp only [fld, extXW]; omega

theorem g2t_word (c : GNum → GNum → Bool → Bool → TNum → Instr) (m : Nat) (a : GNum) (b : GNum) (fa : Bool) (fb : Bool) (t : TNum)
    (hm : m / 2 ^ 0 % 2 ^ 3 = 0 ∧ m / 2 ^ 7 % 2 ^ 12 = 0) :
    g2t c (g2tW m a b fa fb t) = c a b fa fb t ∧
    g2tW m a b fa fb t / 2 ^ 24 = m / 2 ^ 24 ∧
    fld (g2tW m a b fa fb t) 3 4 = fld m 3 4 ∧
    fld (g2tW m a b fa fb t) 19 5 = fld m 19 5 := by
  have b0 := a.isLt
  have b1 := b.isLt
  have b2 := Bool.toNat_lt fa
  have b3 := Bool.toNat_lt fb
  have b4 := t.isLt
  have e0 : fld (g2tW m a b fa fb t) 14 5 = a.val := by simp only [fld, g2tW]; omega
  have e1 : fld (g2tW m a b fa fb t) 9 5 = b.val := by simp only [fld, g2tW]; omega
  have e2 : fld (g2tW m a b fa fb t) 8 1 = fa.toNat := by simp only [fld, g2tW]; omega
  have e3 : fld (g2tW m a b fa fb t) 7 1 = fb.toNat := by simp only [fld, g2tW]; omega
  have e4 : fld (g2tW m a b fa fb t) 0 3 = t.val := by simp only [fld, g2tW]; omega
  refine ⟨?_, ?_, ?_, ?_⟩
  · simp only [g2t, e0, e1, e2, e3, e4, fin_val, bit_eq]
  · simp only [g2tW]; omega
  · simp only [fld, g2tW]; omega
  · simp only [fld, g2tW]; omega

theorem gT_word (c : GNum → TNum → Instr) (m : Nat) (d : GNum) (t : TNum)
    (hm : m / 2 ^ 0 % 2 ^ 3 = 0 ∧ m / 2 ^ 19 % 2 ^ 5 = 0) :
    gT c (gTW m d t) = c d t ∧
    gTW m d t / 2 ^ 24 = m / 2 ^ 24 ∧
    fld (gTW m d t) 3 4 = fld m 3 4 ∧
    fld (gTW m d t) 7 12 = fld m 7 12 := by
  have b0 := d.isLt
  have b1 := t.isLt
  have e0 : fld (gTW m d t) 19 5 = d.val := by simp only [fld, gTW]; omega
  have e1 : fld (gTW m d t) 0 3 = t.val := by simp only [fld, gTW]; omega
  refine ⟨?_, ?_, ?_, ?_⟩
  · simp only [gT, e0, e1, fin_val]
  · simp only [gTW]; omega
  · simp only [fld, gTW]; omega
  · simp only [fld, gTW]; omega

theorem tOnly_word (c : TNum → Instr) (m : Nat) (t : TNum)
    (hm : m / 2 ^ 0 % 2 ^ 3 = 0) :
    tOnly c (tOnlyW m t) = c t ∧
    tOnlyW m t / 2 ^ 24 = m / 2 ^ 24 ∧
    fld (tOnlyW m t) 3 4 = fld m 3 4 ∧
    fld (tOnlyW m t) 7 17 = fld m 7 17 := by
  have b0 := t.isLt
  have e0 : fld (tOnlyW m t) 0 3 = t.val := by simp only [fld, tOnlyW]; omega
  refine ⟨?_, ?_, ?_, ?_⟩
  · simp only [tOnly, e0, fin_val]
  · simp only [tOnlyW]; omega
  · simp only [fld, tOnlyW]; omega
  · simp only [fld, tOnlyW]; omega

theorem gAt_word (c : GNum → Bool → TNum → Instr) (m : Nat) (a : GNum) (fa : Bool) (t : TNum)
    (hm : m / 2 ^ 0 % 2 ^ 3 = 0 ∧ m / 2 ^ 8 % 2 ^ 1 = 0 ∧ m / 2 ^ 14 % 2 ^ 5 = 0) :
    gAt c (gAtW m a fa t) = c a fa t ∧
    gAtW m a fa t / 2 ^ 24 = m / 2 ^ 24 ∧
    fld (gAtW m a fa t) 3 4 = fld m 3 4 ∧
    fld (gAtW m a fa t) 7 1 = fld m 7 1 ∧
    fld (gAtW m a fa t) 9 5 = fld m 9 5 ∧
    fld (gAtW m a fa t) 19 5 = fld m 19 5 := by
  have b0 := a.isLt
  have b1 := Bool.toNat_lt fa
  have b2 := t.isLt
  have e0 : fld (gAtW m a fa t) 14 5 = a.val := by simp only [fld, gAtW]; omega
  have e1 : fld (gAtW m a fa t) 8 1 = fa.toNat := by simp only [fld, gAtW]; omega
  have e2 : fld (gAtW m a fa t) 0 3 = t.val := by simp only [fld, gAtW]; omega
  refine ⟨?_, ?_, ?_, ?_, ?_, ?_⟩
  · simp only [gAt, e0, e1, e2, fin_val, bit_eq]
  · simp only [gAtW]; omega
  · simp only [fld, gAtW]; omega
  · simp only [fld, gAtW]; omega
  · simp only [fld, gAtW]; omega
  · simp only [fld, gAtW]; omega

theorem vmOff_word (c : VNum → GNum → Bool → BitVec 4 → KNum → BitVec 5 → Instr) (m : Nat) (d : VNum) (base : GNum) (fa : Bool) (tag : BitVec 4) (k : KNum) (off : BitVec 5)
    (hm : m / 2 ^ 0 % 2 ^ 24 = 0) :
    vmOff c (vmOffW m d base fa tag k off) = c d base fa tag k off ∧
    vmOffW m d base fa tag k off / 2 ^ 24 = m / 2 ^ 24 := by
  have b0 := d.isLt
  have b1 := base.isLt
  have b2 := Bool.toNat_lt fa
  have b3 := tag.isLt
  have b4 := k.isLt
  have b5 := off.isLt
  have e0 : fld (vmOffW m d base fa tag k off) 18 6 = d.val := by simp only [fld, vmOffW]; omega
  have e1 : fld (vmOffW m d base fa tag k off) 13 5 = base.val := by simp only [fld, vmOffW]; omega
  have e2 : fld (vmOffW m d base fa tag k off) 12 1 = fa.toNat := by simp only [fld, vmOffW]; omega
  have e3 : fld (vmOffW m d base fa tag k off) 8 4 = tag.toNat := by simp only [fld, vmOffW]; omega
  have e4 : fld (vmOffW m d base fa tag k off) 5 3 = k.val := by simp only [fld, vmOffW]; omega
  have e5 : fld (vmOffW m d base fa tag k off) 0 5 = off.toNat := by simp only [fld, vmOffW]; omega
  refine ⟨?_, ?_⟩
  · simp only [vmOff, e0, e1, e2, e3, e4, e5, fin_val, bit_eq, bv_val]
  · simp only [vmOffW]; omega

theorem vmStore_word (c : VNum → GNum → Bool → KNum → BitVec 5 → Instr) (m : Nat) (s : VNum) (base : GNum) (fa : Bool) (k : KNum) (off : BitVec 5)
    (hm : m / 2 ^ 0 % 2 ^ 8 = 0 ∧ m / 2 ^ 12 % 2 ^ 12 = 0) :
    vmStore c (vmStoreW m s base fa k off) = c s base fa k off ∧
    vmStoreW m s base fa k off / 2 ^ 24 = m / 2 ^ 24 ∧
    fld (vmStoreW m s base fa k off) 8 4 = fld m 8 4 := by
  have b0 := s.isLt
  have b1 := base.isLt
  have b2 := Bool.toNat_lt fa
  have b3 := k.isLt
  have b4 := off.isLt
  have e0 : fld (vmStoreW m s base fa k off) 18 6 = s.val := by simp only [fld, vmStoreW]; omega
  have e1 : fld (vmStoreW m s base fa k off) 13 5 = base.val := by simp only [fld, vmStoreW]; omega
  have e2 : fld (vmStoreW m s base fa k off) 12 1 = fa.toNat := by simp only [fld, vmStoreW]; omega
  have e3 : fld (vmStoreW m s base fa k off) 5 3 = k.val := by simp only [fld, vmStoreW]; omega
  have e4 : fld (vmStoreW m s base fa k off) 0 5 = off.toNat := by simp only [fld, vmStoreW]; omega
  refine ⟨?_, ?_, ?_⟩
  · simp only [vmStore, e0, e1, e2, e3, e4, fin_val, bit_eq, bv_val]
  · simp only [vmStoreW]; omega
  · simp only [fld, vmStoreW]; omega

theorem vmStride_word (c : VNum → GNum → Bool → BitVec 4 → KNum → GNum → Instr) (m : Nat) (d : VNum) (base : GNum) (fa : Bool) (tag : BitVec 4) (k : KNum) (s : GNum)
    (hm : m / 2 ^ 0 % 2 ^ 24 = 0) :
    vmStride c (vmStrideW m d base fa tag k s) = c d base fa tag k s ∧
    vmStrideW m d base fa tag k s / 2 ^ 24 = m / 2 ^ 24 := by
  have b0 := d.isLt
  have b1 := base.isLt
  have b2 := Bool.toNat_lt fa
  have b3 := tag.isLt
  have b4 := k.isLt
  have b5 := s.isLt
  have e0 : fld (vmStrideW m d base fa tag k s) 18 6 = d.val := by simp only [fld, vmStrideW]; omega
  have e1 : fld (vmStrideW m d base fa tag k s) 13 5 = base.val := by simp only [fld, vmStrideW]; omega
  have e2 : fld (vmStrideW m d base fa tag k s) 12 1 = fa.toNat := by simp only [fld, vmStrideW]; omega
  have e3 : fld (vmStrideW m d base fa tag k s) 8 4 = tag.toNat := by simp only [fld, vmStrideW]; omega
  have e4 : fld (vmStrideW m d base fa tag k s) 5 3 = k.val := by simp only [fld, vmStrideW]; omega
  have e5 : fld (vmStrideW m d base fa tag k s) 0 5 = s.val := by simp only [fld, vmStrideW]; omega
  refine ⟨?_, ?_⟩
  · simp only [vmStride, e0, e1, e2, e3, e4, e5, fin_val, bit_eq, bv_val]
  · simp only [vmStrideW]; omega

theorem vgIdx_word (c : VNum → VNum → BitVec 4 → Fin 4 → KNum → ENum → Instr) (m : Nat) (d : VNum) (a : VNum) (tag : BitVec 4) (sc : Fin 4) (k : KNum) (e : ENum)
    (hm : m / 2 ^ 0 % 2 ^ 24 = 0) :
    vgIdx c (vgIdxW m d a tag sc k e) = c d a tag sc k e ∧
    vgIdxW m d a tag sc k e / 2 ^ 24 = m / 2 ^ 24 := by
  have b0 := d.isLt
  have b1 := a.isLt
  have b2 := tag.isLt
  have b3 := sc.isLt
  have b4 := k.isLt
  have b5 := e.isLt
  have e0 : fld (vgIdxW m d a tag sc k e) 18 6 = d.val := by simp only [fld, vgIdxW]; omega
  have e1 : fld (vgIdxW m d a tag sc k e) 12 6 = a.val := by simp only [fld, vgIdxW]; omega
  have e2 : fld (vgIdxW m d a tag sc k e) 8 4 = tag.toNat := by simp only [fld, vgIdxW]; omega
  have e3 : fld (vgIdxW m d a tag sc k e) 6 2 = sc.val := by simp only [fld, vgIdxW]; omega
  have e4 : fld (vgIdxW m d a tag sc k e) 3 3 = k.val := by simp only [fld, vgIdxW]; omega
  have e5 : fld (vgIdxW m d a tag sc k e) 0 3 = e.val := by simp only [fld, vgIdxW]; omega
  refine ⟨?_, ?_⟩
  · simp only [vgIdx, e0, e1, e2, e3, e4, e5, fin_val, bv_val]
  · simp only [vgIdxW]; omega

theorem vCond_word (c : Fin 8 → KNum → VNum → VNum → KNum → Bool → Bool → Instr) (m : Nat) (cond : Fin 8) (kd : KNum) (a : VNum) (b : VNum) (k : KNum) (fa : Bool) (fb : Bool)
    (hm : m / 2 ^ 1 % 2 ^ 23 = 0) :
    vCond c (vCondW m cond kd a b k fa fb) = c cond kd a b k fa fb ∧
    vCondW m cond kd a b k fa fb / 2 ^ 24 = m / 2 ^ 24 ∧
    fld (vCondW m cond kd a b k fa fb) 0 1 = fld m 0 1 := by
  have b0 := cond.isLt
  have b1 := kd.isLt
  have b2 := a.isLt
  have b3 := b.isLt
  have b4 := k.isLt
  have b5 := Bool.toNat_lt fa
  have b6 := Bool.toNat_lt fb
  have e0 : fld (vCondW m cond kd a b k fa fb) 21 3 = cond.val := by simp only [fld, vCondW]; omega
  have e1 : fld (vCondW m cond kd a b k fa fb) 18 3 = kd.val := by simp only [fld, vCondW]; omega
  have e2 : fld (vCondW m cond kd a b k fa fb) 12 6 = a.val := by simp only [fld, vCondW]; omega
  have e3 : fld (vCondW m cond kd a b k fa fb) 6 6 = b.val := by simp only [fld, vCondW]; omega
  have e4 : fld (vCondW m cond kd a b k fa fb) 3 3 = k.val := by simp only [fld, vCondW]; omega
  have e5 : fld (vCondW m cond kd a b k fa fb) 2 1 = fa.toNat := by simp only [fld, vCondW]; omega
  have e6 : fld (vCondW m cond kd a b k fa fb) 1 1 = fb.toNat := by simp only [fld, vCondW]; omega
  refine ⟨?_, ?_, ?_⟩
  · simp only [vCond, e0, e1, e2, e3, e4, e5, e6, fin_val, bit_eq]
  · simp only [vCondW]; omega
  · simp only [fld, vCondW]; omega

theorem vCvt_word (c : VNum → VNum → BitVec 5 → BitVec 3 → KNum → Bool → Instr) (m : Nat) (d : VNum) (a : VNum) (dtag : BitVec 5) (rnd : BitVec 3) (k : KNum) (fa : Bool)
    (hm : m / 2 ^ 0 % 2 ^ 24 = 0) :
    vCvt c (vCvtW m d a dtag rnd k fa) = c d a dtag rnd k fa ∧
    vCvtW m d a dtag rnd k fa / 2 ^ 24 = m / 2 ^ 24 := by
  have b0 := d.isLt
  have b1 := a.isLt
  have b2 := dtag.isLt
  have b3 := rnd.isLt
  have b4 := k.isLt
  have b5 := Bool.toNat_lt fa
  have s1 : rnd.toNat / 4 < 2 := by omega
  have s2 : rnd.toNat % 4 < 4 := by omega
  have e0 : fld (vCvtW m d a dtag rnd k fa) 18 6 = d.val := by simp only [fld, vCvtW]; generalize rnd.toNat / 4 = hi at *; generalize rnd.toNat % 4 = lo at *; omega
  have e1 : fld (vCvtW m d a dtag rnd k fa) 12 6 = a.val := by simp only [fld, vCvtW]; generalize rnd.toNat / 4 = hi at *; generalize rnd.toNat % 4 = lo at *; omega
  have e2 : fld (vCvtW m d a dtag rnd k fa) 7 5 = dtag.toNat := by simp only [fld, vCvtW]; generalize rnd.toNat / 4 = hi at *; generalize rnd.toNat % 4 = lo at *; omega
  have e3 : fld (vCvtW m d a dtag rnd k fa) 6 1 = rnd.toNat / 4 := by simp only [fld, vCvtW]; generalize rnd.toNat / 4 = hi at *; generalize rnd.toNat % 4 = lo at *; omega
  have e4 : fld (vCvtW m d a dtag rnd k fa) 0 2 = rnd.toNat % 4 := by simp only [fld, vCvtW]; generalize rnd.toNat / 4 = hi at *; generalize rnd.toNat % 4 = lo at *; omega
  have e5 : fld (vCvtW m d a dtag rnd k fa) 3 3 = k.val := by simp only [fld, vCvtW]; generalize rnd.toNat / 4 = hi at *; generalize rnd.toNat % 4 = lo at *; omega
  have e6 : fld (vCvtW m d a dtag rnd k fa) 2 1 = fa.toNat := by simp only [fld, vCvtW]; generalize rnd.toNat / 4 = hi at *; generalize rnd.toNat % 4 = lo at *; omega
  refine ⟨?_, ?_⟩
  · simp only [vCvt, e0, e1, e2, e3, e4, e5, e6, fin_val, bv_val, bv_parts, bit_eq]
  · simp only [vCvtW]; generalize rnd.toNat / 4 = hi at *; generalize rnd.toNat % 4 = lo at *; omega

theorem v2_word (c : VNum → VNum → KNum → Bool → Instr) (m : Nat) (d : VNum) (a : VNum) (k : KNum) (fa : Bool)
    (hm : m / 2 ^ 2 % 2 ^ 4 = 0 ∧ m / 2 ^ 12 % 2 ^ 12 = 0) :
    v2 c (v2W m d a k fa) = c d a k fa ∧
    v2W m d a k fa / 2 ^ 24 = m / 2 ^ 24 ∧
    fld (v2W m d a k fa) 7 5 = fld m 7 5 ∧
    fld (v2W m d a k fa) 6 1 = fld m 6 1 ∧
    fld (v2W m d a k fa) 0 2 = fld m 0 2 := by
  have b0 := d.isLt
  have b1 := a.isLt
  have b2 := k.isLt
  have b3 := Bool.toNat_lt fa
  have e0 : fld (v2W m d a k fa) 18 6 = d.val := by simp only [fld, v2W]; omega
  have e1 : fld (v2W m d a k fa) 12 6 = a.val := by simp only [fld, v2W]; omega
  have e2 : fld (v2W m d a k fa) 3 3 = k.val := by simp only [fld, v2W]; omega
  have e3 : fld (v2W m d a k fa) 2 1 = fa.toNat := by simp only [fld, v2W]; omega
  refine ⟨?_, ?_, ?_, ?_, ?_⟩
  · simp only [v2, e0, e1, e2, e3, fin_val, bit_eq]
  · simp only [v2W]; omega
  · simp only [fld, v2W]; omega
  · simp only [fld, v2W]; omega
  · simp only [fld, v2W]; omega

theorem v2Rnd_word (c : VNum → VNum → BitVec 3 → KNum → Bool → Instr) (m : Nat) (d : VNum) (a : VNum) (rnd : BitVec 3) (k : KNum) (fa : Bool)
    (hm : m / 2 ^ 0 % 2 ^ 7 = 0 ∧ m / 2 ^ 12 % 2 ^ 12 = 0) :
    v2Rnd c (v2RndW m d a rnd k fa) = c d a rnd k fa ∧
    v2RndW m d a rnd k fa / 2 ^ 24 = m / 2 ^ 24 ∧
    fld (v2RndW m d a rnd k fa) 7 5 = fld m 7 5 := by
  have b0 := d.isLt
  have b1 := a.isLt
  have b2 := rnd.isLt
  have b3 := k.isLt
  have b4 := Bool.toNat_lt fa
  have s1 : rnd.toNat / 4 < 2 := by omega
  have s2 : rnd.toNat % 4 < 4 := by omega
  have e0 : fld (v2RndW m d a rnd k fa) 18 6 = d.val := by simp only [fld, v2RndW]; generalize rnd.toNat / 4 = hi at *; generalize rnd.toNat % 4 = lo at *; omega
  have e1 : fld (v2RndW m d a rnd k fa) 12 6 = a.val := by simp only [fld, v2RndW]; generalize rnd.toNat / 4 = hi at *; generalize rnd.toNat % 4 = lo at *; omega
  have e2 : fld (v2RndW m d a rnd k fa) 6 1 = rnd.toNat / 4 := by simp only [fld, v2RndW]; generalize rnd.toNat / 4 = hi at *; generalize rnd.toNat % 4 = lo at *; omega
  have e3 : fld (v2RndW m d a rnd k fa) 0 2 = rnd.toNat % 4 := by simp only [fld, v2RndW]; generalize rnd.toNat / 4 = hi at *; generalize rnd.toNat % 4 = lo at *; omega
  have e4 : fld (v2RndW m d a rnd k fa) 3 3 = k.val := by simp only [fld, v2RndW]; generalize rnd.toNat / 4 = hi at *; generalize rnd.toNat % 4 = lo at *; omega
  have e5 : fld (v2RndW m d a rnd k fa) 2 1 = fa.toNat := by simp only [fld, v2RndW]; generalize rnd.toNat / 4 = hi at *; generalize rnd.toNat % 4 = lo at *; omega
  refine ⟨?_, ?_, ?_⟩
  · simp only [v2Rnd, e0, e1, e2, e3, e4, e5, fin_val, bv_parts, bit_eq]
  · simp only [v2RndW]; generalize rnd.toNat / 4 = hi at *; generalize rnd.toNat % 4 = lo at *; omega
  · simp only [fld, v2RndW]; generalize rnd.toNat / 4 = hi at *; generalize rnd.toNat % 4 = lo at *; omega

theorem vTagB_word (c : VNum → VNum → BitVec 5 → Bool → Instr) (m : Nat) (d : VNum) (a : VNum) (tag : BitVec 5) (fa : Bool)
    (hm : m / 2 ^ 0 % 2 ^ 3 = 0 ∧ m / 2 ^ 6 % 2 ^ 3 = 0 ∧ m / 2 ^ 12 % 2 ^ 12 = 0) :
    vTagB c (vTagBW m d a tag fa) = c d a tag fa ∧
    vTagBW m d a tag fa / 2 ^ 24 = m / 2 ^ 24 ∧
    fld (vTagBW m d a tag fa) 3 3 = fld m 3 3 := by
  have b0 := d.isLt
  have b1 := a.isLt
  have b2 := tag.isLt
  have b3 := Bool.toNat_lt fa
  have s1 : tag.toNat / 4 < 8 := by omega
  have s2 : tag.toNat % 4 < 4 := by omega
  have e0 : fld (vTagBW m d a tag fa) 18 6 = d.val := by simp only [fld, vTagBW]; generalize tag.toNat / 4 = hi at *; generalize tag.toNat % 4 = lo at *; omega
  have e1 : fld (vTagBW m d a tag fa) 12 6 = a.val := by simp only [fld, vTagBW]; generalize tag.toNat / 4 = hi at *; generalize tag.toNat % 4 = lo at *; omega
  have e2 : fld (vTagBW m d a tag fa) 6 3 = tag.toNat / 4 := by simp only [fld, vTagBW]; generalize tag.toNat / 4 = hi at *; generalize tag.toNat % 4 = lo at *; omega
  have e3 : fld (vTagBW m d a tag fa) 0 2 = tag.toNat % 4 := by simp only [fld, vTagBW]; generalize tag.toNat / 4 = hi at *; generalize tag.toNat % 4 = lo at *; omega
  have e4 : fld (vTagBW m d a tag fa) 2 1 = fa.toNat := by simp only [fld, vTagBW]; generalize tag.toNat / 4 = hi at *; generalize tag.toNat % 4 = lo at *; omega
  refine ⟨?_, ?_, ?_⟩
  · simp only [vTagB, e0, e1, e2, e3, e4, fin_val, bv_parts, bit_eq]
  · simp only [vTagBW]; generalize tag.toNat / 4 = hi at *; generalize tag.toNat % 4 = lo at *; omega
  · simp only [fld, vTagBW]; generalize tag.toNat / 4 = hi at *; generalize tag.toNat % 4 = lo at *; omega

theorem gV_word (c : GNum → VNum → Bool → Instr) (m : Nat) (d : GNum) (a : VNum) (fa : Bool)
    (hm : m / 2 ^ 2 % 2 ^ 1 = 0 ∧ m / 2 ^ 12 % 2 ^ 11 = 0) :
    gV c (gVW m d a fa) = c d a fa ∧
    gVW m d a fa / 2 ^ 24 = m / 2 ^ 24 ∧
    fld (gVW m d a fa) 7 5 = fld m 7 5 ∧
    fld (gVW m d a fa) 6 1 = fld m 6 1 ∧
    fld (gVW m d a fa) 0 2 = fld m 0 2 ∧
    fld (gVW m d a fa) 3 3 = fld m 3 3 ∧
    fld (gVW m d a fa) 23 1 = fld m 23 1 := by
  have b0 := d.isLt
  have b1 := a.isLt
  have b2 := Bool.toNat_lt fa
  have e0 : fld (gVW m d a fa) 18 5 = d.val := by simp only [fld, gVW]; omega
  have e1 : fld (gVW m d a fa) 12 6 = a.val := by simp only [fld, gVW]; omega
  have e2 : fld (gVW m d a fa) 2 1 = fa.toNat := by simp only [fld, gVW]; omega
  refine ⟨?_, ?_, ?_, ?_, ?_, ?_, ?_⟩
  · simp only [gV, e0, e1, e2, fin_val, bit_eq]
  · simp only [gVW]; omega
  · simp only [fld, gVW]; omega
  · simp only [fld, gVW]; omega
  · simp only [fld, gVW]; omega
  · simp only [fld, gVW]; omega
  · simp only [fld, gVW]; omega

theorem vBcast_word (c : VNum → GNum → BitVec 5 → KNum → Bool → Instr) (m : Nat) (d : VNum) (a : GNum) (tag : BitVec 5) (k : KNum) (fa : Bool)
    (hm : m / 2 ^ 0 % 2 ^ 9 = 0 ∧ m / 2 ^ 12 % 2 ^ 5 = 0 ∧ m / 2 ^ 18 % 2 ^ 6 = 0) :
    vBcast c (vBcastW m d a tag k fa) = c d a tag k fa ∧
    vBcastW m d a tag k fa / 2 ^ 24 = m / 2 ^ 24 ∧
    fld (vBcastW m d a tag k fa) 17 1 = fld m 17 1 := by
  have b0 := d.isLt
  have b1 := a.isLt
  have b2 := tag.isLt
  have b3 := k.isLt
  have b4 := Bool.toNat_lt fa
  have s1 : tag.toNat / 4 < 8 := by omega
  have s2 : tag.toNat % 4 < 4 := by omega
  have e0 : fld (vBcastW m d a tag k fa) 18 6 = d.val := by simp only [fld, vBcastW]; generalize tag.toNat / 4 = hi at *; generalize tag.toNat % 4 = lo at *; omega
  have e1 : fld (vBcastW m d a tag k fa) 12 5 = a.val := by simp only [fld, vBcastW]; generalize tag.toNat / 4 = hi at *; generalize tag.toNat % 4 = lo at *; omega
  have e2 : fld (vBcastW m d a tag k fa) 6 3 = tag.toNat / 4 := by simp only [fld, vBcastW]; generalize tag.toNat / 4 = hi at *; generalize tag.toNat % 4 = lo at *; omega
  have e3 : fld (vBcastW m d a tag k fa) 0 2 = tag.toNat % 4 := by simp only [fld, vBcastW]; generalize tag.toNat / 4 = hi at *; generalize tag.toNat % 4 = lo at *; omega
  have e4 : fld (vBcastW m d a tag k fa) 3 3 = k.val := by simp only [fld, vBcastW]; generalize tag.toNat / 4 = hi at *; generalize tag.toNat % 4 = lo at *; omega
  have e5 : fld (vBcastW m d a tag k fa) 2 1 = fa.toNat := by simp only [fld, vBcastW]; generalize tag.toNat / 4 = hi at *; generalize tag.toNat % 4 = lo at *; omega
  refine ⟨?_, ?_, ?_⟩
  · simp only [vBcast, e0, e1, e2, e3, e4, e5, fin_val, bv_parts, bit_eq]
  · simp only [vBcastW]; generalize tag.toNat / 4 = hi at *; generalize tag.toNat % 4 = lo at *; omega
  · simp only [fld, vBcastW]; generalize tag.toNat / 4 = hi at *; generalize tag.toNat % 4 = lo at *; omega

theorem vSlide_word (c : VNum → VNum → BitVec 6 → KNum → Bool → Instr) (m : Nat) (d : VNum) (a : VNum) (amt : BitVec 6) (k : KNum) (fa : Bool)
    (hm : m / 2 ^ 0 % 2 ^ 10 = 0 ∧ m / 2 ^ 12 % 2 ^ 12 = 0) :
    vSlide c (vSlideW m d a amt k fa) = c d a amt k fa ∧
    vSlideW m d a amt k fa / 2 ^ 24 = m / 2 ^ 24 ∧
    fld (vSlideW m d a amt k fa) 10 2 = fld m 10 2 := by
  have b0 := d.isLt
  have b1 := a.isLt
  have b2 := amt.isLt
  have b3 := k.isLt
  have b4 := Bool.toNat_lt fa
  have s1 : amt.toNat / 4 < 16 := by omega
  have s2 : amt.toNat % 4 < 4 := by omega
  have e0 : fld (vSlideW m d a amt k fa) 18 6 = d.val := by simp only [fld, vSlideW]; generalize amt.toNat / 4 = hi at *; generalize amt.toNat % 4 = lo at *; omega
  have e1 : fld (vSlideW m d a amt k fa) 12 6 = a.val := by simp only [fld, vSlideW]; generalize amt.toNat / 4 = hi at *; generalize amt.toNat % 4 = lo at *; omega
  have e2 : fld (vSlideW m d a amt k fa) 6 4 = amt.toNat / 4 := by simp only [fld, vSlideW]; generalize amt.toNat / 4 = hi at *; generalize amt.toNat % 4 = lo at *; omega
  have e3 : fld (vSlideW m d a amt k fa) 0 2 = amt.toNat % 4 := by simp only [fld, vSlideW]; generalize amt.toNat / 4 = hi at *; generalize amt.toNat % 4 = lo at *; omega
  have e4 : fld (vSlideW m d a amt k fa) 3 3 = k.val := by simp only [fld, vSlideW]; generalize amt.toNat / 4 = hi at *; generalize amt.toNat % 4 = lo at *; omega
  have e5 : fld (vSlideW m d a amt k fa) 2 1 = fa.toNat := by simp only [fld, vSlideW]; generalize amt.toNat / 4 = hi at *; generalize amt.toNat % 4 = lo at *; omega
  refine ⟨?_, ?_, ?_⟩
  · simp only [vSlide, e0, e1, e2, e3, e4, e5, fin_val, bv_parts, bit_eq]
  · simp only [vSlideW]; generalize amt.toNat / 4 = hi at *; generalize amt.toNat % 4 = lo at *; omega
  · simp only [fld, vSlideW]; generalize amt.toNat / 4 = hi at *; generalize amt.toNat % 4 = lo at *; omega

theorem c1_word (c : GNum → GNum → Instr) (m : Nat) (d : GNum) (a : GNum)
    (hm : m / 2 ^ 0 % 2 ^ 10 = 0) :
    c1 c (c1W m d a) = c d a ∧
    c1W m d a / 2 ^ 14 = m / 2 ^ 14 ∧
    fld (c1W m d a) 10 4 = fld m 10 4 := by
  have b0 := d.isLt
  have b1 := a.isLt
  have e0 : fld (c1W m d a) 5 5 = d.val := by simp only [fld, c1W]; omega
  have e1 : fld (c1W m d a) 0 5 = a.val := by simp only [fld, c1W]; omega
  refine ⟨?_, ?_, ?_⟩
  · simp only [c1, e0, e1, fin_val]
  · simp only [c1W]; omega
  · simp only [fld, c1W]; omega

theorem c1A_word (c : GNum → Instr) (m : Nat) (a : GNum)
    (hm : m / 2 ^ 0 % 2 ^ 5 = 0) :
    c1A c (c1AW m a) = c a ∧
    c1AW m a / 2 ^ 14 = m / 2 ^ 14 ∧
    fld (c1AW m a) 10 4 = fld m 10 4 ∧
    fld (c1AW m a) 5 5 = fld m 5 5 := by
  have b0 := a.isLt
  have e0 : fld (c1AW m a) 0 5 = a.val := by simp only [fld, c1AW]; omega
  refine ⟨?_, ?_, ?_, ?_⟩
  · simp only [c1A, e0, fin_val]
  · simp only [c1AW]; omega
  · simp only [fld, c1AW]; omega
  · simp only [fld, c1AW]; omega

theorem c2_word (c : GNum → BitVec 6 → Instr) (m : Nat) (d : GNum) (imm : BitVec 6)
    (hm : m / 2 ^ 0 % 2 ^ 11 = 0) :
    c2 c (c2W m d imm) = c d imm ∧
    c2W m d imm / 2 ^ 14 = m / 2 ^ 14 ∧
    fld (c2W m d imm) 11 3 = fld m 11 3 := by
  have b0 := d.isLt
  have b1 := imm.isLt
  have e0 : fld (c2W m d imm) 6 5 = d.val := by simp only [fld, c2W]; omega
  have e1 : fld (c2W m d imm) 0 6 = imm.toNat := by simp only [fld, c2W]; omega
  refine ⟨?_, ?_, ?_⟩
  · simp only [c2, e0, e1, fin_val, bv_val]
  · simp only [c2W]; omega
  · simp only [fld, c2W]; omega

theorem c3_word (c : BitVec 10 → Instr) (m : Nat) (imm : BitVec 10)
    (hm : m / 2 ^ 0 % 2 ^ 10 = 0) :
    c3 c (c3W m imm) = c imm ∧
    c3W m imm / 2 ^ 14 = m / 2 ^ 14 ∧
    fld (c3W m imm) 10 4 = fld m 10 4 := by
  have b0 := imm.isLt
  have e0 : fld (c3W m imm) 0 10 = imm.toNat := by simp only [fld, c3W]; omega
  refine ⟨?_, ?_, ?_⟩
  · simp only [c3, e0, bv_val]
  · simp only [c3W]; omega
  · simp only [fld, c3W]; omega

theorem repP_word (c : BitVec 6 → Bool → Bool → Bool → Bool → Instr) (m : Nat) (cnt : BitVec 6) (sd : Bool) (sa : Bool) (sb : Bool) (st : Bool)
    (hm : m / 2 ^ 0 % 2 ^ 10 = 0) :
    repP c (repPW m cnt sd sa sb st) = c cnt sd sa sb st ∧
    repPW m cnt sd sa sb st / 2 ^ 14 = m / 2 ^ 14 ∧
    fld (repPW m cnt sd sa sb st) 10 4 = fld m 10 4 := by
  have b0 := cnt.isLt
  have b1 := Bool.toNat_lt sd
  have b2 := Bool.toNat_lt sa
  have b3 := Bool.toNat_lt sb
  have b4 := Bool.toNat_lt st
  have e0 : fld (repPW m cnt sd sa sb st) 4 6 = cnt.toNat := by simp only [fld, repPW]; omega
  have e1 : fld (repPW m cnt sd sa sb st) 3 1 = sd.toNat := by simp only [fld, repPW]; omega
  have e2 : fld (repPW m cnt sd sa sb st) 2 1 = sa.toNat := by simp only [fld, repPW]; omega
  have e3 : fld (repPW m cnt sd sa sb st) 1 1 = sb.toNat := by simp only [fld, repPW]; omega
  have e4 : fld (repPW m cnt sd sa sb st) 0 1 = st.toNat := by simp only [fld, repPW]; omega
  refine ⟨?_, ?_, ?_⟩
  · simp only [repP, e0, e1, e2, e3, e4, bv_val, bit_eq]
  · simp only [repPW]; omega
  · simp only [fld, repPW]; omega

/-! ### One lemma per constructor -/

/-- A well-formed program instruction is what its parcels decode to, whatever follows them. -/
def RoundTrip.Statement (i : Instr) : Prop :=
  i.isProgram = true → i.wf = true → ∀ r, decode (encode i ++ r) = .ok (i, r)

namespace RoundTrip

theorem in_dec00 {w form : Nat} {x : Dec} (h : fld w 0 7 = form) (hd : dec00 form w = x) : decMajor 192 w = x := by
  subst h; exact hd
theorem in_dec05 {w form : Nat} {x : Dec} (h : fld w 10 3 = form) (hd : dec05 form w = x) : decMajor 197 w = x := by
  subst h; exact hd
theorem in_dec08 {w form : Nat} {x : Dec} (h : fld w 12 1 = form) (hd : dec08 form w = x) : decMajor 200 w = x := by
  subst h; exact hd
theorem in_dec09 {w form : Nat} {x : Dec} (h : fld w 12 1 = form) (hd : dec09 form w = x) : decMajor 201 w = x := by
  subst h; exact hd
theorem in_dec0A {w form : Nat} {x : Dec} (h : fld w 18 1 = form) (hd : dec0A form w = x) : decMajor 202 w = x := by
  subst h; exact hd
theorem in_dec0B {w form : Nat} {x : Dec} (h : fld w 0 7 = form) (hd : dec0B form w = x) : decMajor 203 w = x := by
  subst h; exact hd
theorem in_dec0C {w form : Nat} {x : Dec} (h : fld w 0 7 = form) (hd : dec0C form w = x) : decMajor 204 w = x := by
  subst h; exact hd
theorem in_dec0D {w form : Nat} {x : Dec} (h : fld w 0 1 = form) (hd : dec0D form w = x) : decMajor 205 w = x := by
  subst h; exact hd
theorem in_dec0E {w form : Nat} {x : Dec} (h : fld w 0 1 = form) (hd : dec0E form w = x) : decMajor 206 w = x := by
  subst h; exact hd
theorem in_dec0F {w form : Nat} {x : Dec} (h : fld w 0 1 = form) (hd : dec0F form w = x) : decMajor 207 w = x := by
  subst h; exact hd
theorem in_dec18 {w form : Nat} {x : Dec} (h : fld w 0 7 = form) (hd : dec18 form w = x) : decMajor 216 w = x := by
  subst h; exact hd
theorem in_dec1A {w form : Nat} {x : Dec} (h : fld w 10 3 = form) (hd : dec1A form w = x) : decMajor 218 w = x := by
  subst h; exact hd
theorem in_dec1B {w form : Nat} {x : Dec} (h : fld w 10 3 = form) (hd : dec1B form w = x) : decMajor 219 w = x := by
  subst h; exact hd
theorem in_dec1C {w form : Nat} {x : Dec} (h : fld w 10 3 = form) (hd : dec1C form w = x) : decMajor 220 w = x := by
  subst h; exact hd
theorem in_dec1D {w form : Nat} {x : Dec} (h : fld w 0 5 = form) (hd : dec1D form w = x) : decMajor 221 w = x := by
  subst h; exact hd
theorem in_dec20 {w form : Nat} {x : Dec} (h : fld w 3 4 = form) (hd : dec20 form w = x) : decMajor 224 w = x := by
  subst h; exact hd
theorem in_dec21 {w form : Nat} {x : Dec} (h : fld w 3 4 = form) (hd : dec21 form w = x) : decMajor 225 w = x := by
  subst h; exact hd
theorem in_dec22 {w form : Nat} {x : Dec} (h : fld w 3 4 = form) (hd : dec22 form w = x) : decMajor 226 w = x := by
  subst h; exact hd
theorem in_dec23 {w form : Nat} {x : Dec} (h : fld w 0 16 = form) (hd : dec23 form w = x) : decMajor 227 w = x := by
  subst h; exact hd
theorem in_dec24 {w form : Nat} {x : Dec} (h : fld w 12 4 = form) (hd : dec24 form w = x) : decMajor 228 w = x := by
  subst h; exact hd
theorem in_dec26 {w form : Nat} {x : Dec} (h : fld w 16 3 = form) (hd : dec26 form w = x) : decMajor 230 w = x := by
  subst h; exact hd
theorem in_dec27 {w form : Nat} {x : Dec} (h : fld w 0 16 = form) (hd : dec27 form w = x) : decMajor 231 w = x := by
  subst h; exact hd
theorem in_dec28 {w form : Nat} {x : Dec} (h : fld w 3 4 = form) (hd : dec28 form w = x) : decMajor 232 w = x := by
  subst h; exact hd
theorem in_dec29 {w form : Nat} {x : Dec} (h : fld w 0 7 = form) (hd : dec29 form w = x) : decMajor 233 w = x := by
  subst h; exact hd
theorem in_dec32 {w form : Nat} {x : Dec} (h : fld w 0 1 = form) (hd : dec32 form w = x) : decMajor 242 w = x := by
  subst h; exact hd
theorem in_dec33 {w form : Nat} {x : Dec} (h : fld w 0 1 = form) (hd : dec33 form w = x) : decMajor 243 w = x := by
  subst h; exact hd
theorem in_dec34 {w form : Nat} {x : Dec} (h : fld w 0 1 = form) (hd : dec34 form w = x) : decMajor 244 w = x := by
  subst h; exact hd
theorem in_dec35 {w form : Nat} {x : Dec} (h : fld w 0 1 = form) (hd : dec35 form w = x) : decMajor 245 w = x := by
  subst h; exact hd
theorem in_dec36 {w form : Nat} {x : Dec} (h : fld w 0 1 = form) (hd : dec36 form w = x) : decMajor 246 w = x := by
  subst h; exact hd
theorem in_dec37 {w form : Nat} {x : Dec} (h : fld w 0 1 = form) (hd : dec37 form w = x) : decMajor 247 w = x := by
  subst h; exact hd
theorem in_dec38 {w form : Nat} {x : Dec} (h : fld w 0 1 = form) (hd : dec38 form w = x) : decMajor 248 w = x := by
  subst h; exact hd
theorem in_dec39 {w form : Nat} {x : Dec} (h : fld w 0 1 = form) (hd : dec39 form w = x) : decMajor 249 w = x := by
  subst h; exact hd
theorem in_dec3A {w form : Nat} {x : Dec} (h : fld w 0 1 = form) (hd : dec3A form w = x) : decMajor 250 w = x := by
  subst h; exact hd
theorem in_dec3B {w form : Nat} {x : Dec} (h : fld w 0 1 = form) (hd : dec3B form w = x) : decMajor 251 w = x := by
  subst h; exact hd
theorem in_decTagForms {w kind op : Nat} {x : Dec} (h : fld w 7 5 = kind) (h2 : fld w 6 1 * 4 + fld w 0 2 = op)
    (hd : decTagForms kind op w = x) : decMajor 253 w = x := by
  subst h h2; exact hd
theorem in_dec3E {w form : Nat} {x : Dec} (h : fld w 10 2 = form) (hd : dec3E form w = x) : decMajor 254 w = x := by
  subst h; exact hd
theorem in_decC1 {w form : Nat} {x : Dec} (h : fld w 10 4 = form) (hd : decC1 form w = x) : decFormat 0 w = x := by
  subst h; exact hd
theorem in_decC2 {w form : Nat} {x : Dec} (h : fld w 11 3 = form) (hd : decC2 form w = x) : decFormat 1 w = x := by
  subst h; exact hd
theorem in_decC3 {w form : Nat} {x : Dec} (h : fld w 10 4 = form) (hd : decC3 form w = x) : decFormat 2 w = x := by
  subst h; exact hd
theorem add (d : GNum) (a : GNum) (b : GNum) (fa : Bool) (fb : Bool) : Statement (.add d a b fa fb) := fun _ hw =>
  have q := g3_word .add 0xC0000000 d a b fa fb rfl
  decode_two q.2.1 rfl (in_dec00 q.2.2.1 (congrArg Except.ok q.1)) hw
theorem sub (d : GNum) (a : GNum) (b : GNum) (fa : Bool) (fb : Bool) : Statement (.sub d a b fa fb) := fun _ hw =>
  have q := g3_word .sub 0xC0000001 d a b fa fb rfl
  decode_two q.2.1 rfl (in_dec00 q.2.2.1 (congrArg Except.ok q.1)) hw
theorem and (d : GNum) (a : GNum) (b : GNum) (fa : Bool) (fb : Bool) : Statement (.and d a b fa fb) := fun _ hw =>
  have q := g3_word .and 0xC0000002 d a b fa fb rfl
  decode_two q.2.1 rfl (in_dec00 q.2.2.1 (congrArg Except.ok q.1)) hw
theorem or (d : GNum) (a : GNum) (b : GNum) (fa : Bool) (fb : Bool) : Statement (.or d a b fa fb) := fun _ hw =>
  have q := g3_word .or 0xC0000003 d a b fa fb rfl
  decode_two q.2.1 rfl (in_dec00 q.2.2.1 (congrArg Except.ok q.1)) hw
theorem xor (d : GNum) (a : GNum) (b : GNum) (fa : Bool) (fb : Bool) : Statement (.xor d a b fa fb) := fun _ hw =>
  have q := g3_word .xor 0xC0000004 d a b fa fb rfl
  decode_two q.2.1 rfl (in_dec00 q.2.2.1 (congrArg Except.ok q.1)) hw
theorem andn (d : GNum) (a : GNum) (b : GNum) (fa : Bool) (fb : Bool) : Statement (.andn d a b fa fb) := fun _ hw =>
  have q := g3_word .andn 0xC0000005 d a b fa fb rfl
  decode_two q.2.1 rfl (in_dec00 q.2.2.1 (congrArg Except.ok q.1)) hw
theorem orn (d : GNum) (a : GNum) (b : GNum) (fa : Bool) (fb : Bool) : Statement (.orn d a b fa fb) := fun _ hw =>
  have q := g3_word .orn 0xC0000006 d a b fa fb rfl
  decode_two q.2.1 rfl (in_dec00 q.2.2.1 (congrArg Except.ok q.1)) hw
theorem xnor (d : GNum) (a : GNum) (b : GNum) (fa : Bool) (fb : Bool) : Statement (.xnor d a b fa fb) := fun _ hw =>
  have q := g3_word .xnor 0xC0000007 d a b fa fb rfl
  decode_two q.2.1 rfl (in_dec00 q.2.2.1 (congrArg Except.ok q.1)) hw
theorem sll (d : GNum) (a : GNum) (b : GNum) (fa : Bool) (fb : Bool) : Statement (.sll d a b fa fb) := fun _ hw =>
  have q := g3_word .sll 0xC0000008 d a b fa fb rfl
  decode_two q.2.1 rfl (in_dec00 q.2.2.1 (congrArg Except.ok q.1)) hw
theorem srl (d : GNum) (a : GNum) (b : GNum) (fa : Bool) (fb : Bool) : Statement (.srl d a b fa fb) := fun _ hw =>
  have q := g3_word .srl 0xC0000009 d a b fa fb rfl
  decode_two q.2.1 rfl (in_dec00 q.2.2.1 (congrArg Except.ok q.1)) hw
theorem sra (d : GNum) (a : GNum) (b : GNum) (fa : Bool) (fb : Bool) : Statement (.sra d a b fa fb) := fun _ hw =>
  have q := g3_word .sra 0xC000000A d a b fa fb rfl
  decode_two q.2.1 rfl (in_dec00 q.2.2.1 (congrArg Except.ok q.1)) hw
theorem rol (d : GNum) (a : GNum) (b : GNum) (fa : Bool) (fb : Bool) : Statement (.rol d a b fa fb) := fun _ hw =>
  have q := g3_word .rol 0xC000000B d a b fa fb rfl
  decode_two q.2.1 rfl (in_dec00 q.2.2.1 (congrArg Except.ok q.1)) hw
theorem ror (d : GNum) (a : GNum) (b : GNum) (fa : Bool) (fb : Bool) : Statement (.ror d a b fa fb) := fun _ hw =>
  have q := g3_word .ror 0xC000000C d a b fa fb rfl
  decode_two q.2.1 rfl (in_dec00 q.2.2.1 (congrArg Except.ok q.1)) hw
theorem mul (d : GNum) (a : GNum) (b : GNum) (fa : Bool) (fb : Bool) : Statement (.mul d a b fa fb) := fun _ hw =>
  have q := g3_word .mul 0xC0000010 d a b fa fb rfl
  decode_two q.2.1 rfl (in_dec00 q.2.2.1 (congrArg Except.ok q.1)) hw
theorem mulh (d : GNum) (a : GNum) (b : GNum) (fa : Bool) (fb : Bool) : Statement (.mulh d a b fa fb) := fun _ hw =>
  have q := g3_word .mulh 0xC0000011 d a b fa fb rfl
  decode_two q.2.1 rfl (in_dec00 q.2.2.1 (congrArg Except.ok q.1)) hw
theorem mulhn (d : GNum) (a : GNum) (b : GNum) (fa : Bool) (fb : Bool) : Statement (.mulhn d a b fa fb) := fun _ hw =>
  have q := g3_word .mulhn 0xC0000012 d a b fa fb rfl
  decode_two q.2.1 rfl (in_dec00 q.2.2.1 (congrArg Except.ok q.1)) hw
theorem div (d : GNum) (a : GNum) (b : GNum) (fa : Bool) (fb : Bool) : Statement (.div d a b fa fb) := fun _ hw =>
  have q := g3_word .div 0xC0000013 d a b fa fb rfl
  decode_two q.2.1 rfl (in_dec00 q.2.2.1 (congrArg Except.ok q.1)) hw
theorem divn (d : GNum) (a : GNum) (b : GNum) (fa : Bool) (fb : Bool) : Statement (.divn d a b fa fb) := fun _ hw =>
  have q := g3_word .divn 0xC0000014 d a b fa fb rfl
  decode_two q.2.1 rfl (in_dec00 q.2.2.1 (congrArg Except.ok q.1)) hw
theorem rem (d : GNum) (a : GNum) (b : GNum) (fa : Bool) (fb : Bool) : Statement (.rem d a b fa fb) := fun _ hw =>
  have q := g3_word .rem 0xC0000015 d a b fa fb rfl
  decode_two q.2.1 rfl (in_dec00 q.2.2.1 (congrArg Except.ok q.1)) hw
theorem remn (d : GNum) (a : GNum) (b : GNum) (fa : Bool) (fb : Bool) : Statement (.remn d a b fa fb) := fun _ hw =>
  have q := g3_word .remn 0xC0000016 d a b fa fb rfl
  decode_two q.2.1 rfl (in_dec00 q.2.2.1 (congrArg Except.ok q.1)) hw
theorem min (d : GNum) (a : GNum) (b : GNum) (fa : Bool) (fb : Bool) : Statement (.min d a b fa fb) := fun _ hw =>
  have q := g3_word .min 0xC0000018 d a b fa fb rfl
  decode_two q.2.1 rfl (in_dec00 q.2.2.1 (congrArg Except.ok q.1)) hw
theorem max (d : GNum) (a : GNum) (b : GNum) (fa : Bool) (fb : Bool) : Statement (.max d a b fa fb) := fun _ hw =>
  have q := g3_word .max 0xC0000019 d a b fa fb rfl
  decode_two q.2.1 rfl (in_dec00 q.2.2.1 (congrArg Except.ok q.1)) hw
theorem minn (d : GNum) (a : GNum) (b : GNum) (fa : Bool) (fb : Bool) : Statement (.minn d a b fa fb) := fun _ hw =>
  have q := g3_word .minn 0xC000001A d a b fa fb rfl
  decode_two q.2.1 rfl (in_dec00 q.2.2.1 (congrArg Except.ok q.1)) hw
theorem maxn (d : GNum) (a : GNum) (b : GNum) (fa : Bool) (fb : Bool) : Statement (.maxn d a b fa fb) := fun _ hw =>
  have q := g3_word .maxn 0xC000001B d a b fa fb rfl
  decode_two q.2.1 rfl (in_dec00 q.2.2.1 (congrArg Except.ok q.1)) hw
theorem slt (d : GNum) (a : GNum) (b : GNum) (fa : Bool) (fb : Bool) : Statement (.slt d a b fa fb) := fun _ hw =>
  have q := g3_word .slt 0xC0000020 d a b fa fb rfl
  decode_two q.2.1 rfl (in_dec00 q.2.2.1 (congrArg Except.ok q.1)) hw
theorem sltn (d : GNum) (a : GNum) (b : GNum) (fa : Bool) (fb : Bool) : Statement (.sltn d a b fa fb) := fun _ hw =>
  have q := g3_word .sltn 0xC0000021 d a b fa fb rfl
  decode_two q.2.1 rfl (in_dec00 q.2.2.1 (congrArg Except.ok q.1)) hw
theorem seq (d : GNum) (a : GNum) (b : GNum) (fa : Bool) (fb : Bool) : Statement (.seq d a b fa fb) := fun _ hw =>
  have q := g3_word .seq 0xC0000022 d a b fa fb rfl
  decode_two q.2.1 rfl (in_dec00 q.2.2.1 (congrArg Except.ok q.1)) hw
theorem sne (d : GNum) (a : GNum) (b : GNum) (fa : Bool) (fb : Bool) : Statement (.sne d a b fa fb) := fun _ hw =>
  have q := g3_word .sne 0xC0000023 d a b fa fb rfl
  decode_two q.2.1 rfl (in_dec00 q.2.2.1 (congrArg Except.ok q.1)) hw
theorem clz (d : GNum) (a : GNum) (fa : Bool) : Statement (.clz d a fa) := fun _ hw =>
  have q := g2_word .clz 0xC0000028 d a fa ⟨rfl, rfl⟩
  have z : ∀ w, dec00 (fld 0xC0000028 0 7) w = zeros w [(7, 1), (9, 5)] (g2 .clz w) := fun _ => rfl
  decode_two q.2.1 rfl (in_dec00 q.2.2.1 ((z _).trans (zeros_ok (by simp only [List.all_cons, List.all_nil, q.2.2.2.1, q.2.2.2.2]; rfl) q.1))) hw
theorem ctz (d : GNum) (a : GNum) (fa : Bool) : Statement (.ctz d a fa) := fun _ hw =>
  have q := g2_word .ctz 0xC0000029 d a fa ⟨rfl, rfl⟩
  have z : ∀ w, dec00 (fld 0xC0000029 0 7) w = zeros w [(7, 1), (9, 5)] (g2 .ctz w) := fun _ => rfl
  decode_two q.2.1 rfl (in_dec00 q.2.2.1 ((z _).trans (zeros_ok (by simp only [List.all_cons, List.all_nil, q.2.2.2.1, q.2.2.2.2]; rfl) q.1))) hw
theorem popc (d : GNum) (a : GNum) (fa : Bool) : Statement (.popc d a fa) := fun _ hw =>
  have q := g2_word .popc 0xC000002A d a fa ⟨rfl, rfl⟩
  have z : ∀ w, dec00 (fld 0xC000002A 0 7) w = zeros w [(7, 1), (9, 5)] (g2 .popc w) := fun _ => rfl
  decode_two q.2.1 rfl (in_dec00 q.2.2.1 ((z _).trans (zeros_ok (by simp only [List.all_cons, List.all_nil, q.2.2.2.1, q.2.2.2.2]; rfl) q.1))) hw
theorem brev (d : GNum) (a : GNum) (fa : Bool) : Statement (.brev d a fa) := fun _ hw =>
  have q := g2_word .brev 0xC000002B d a fa ⟨rfl, rfl⟩
  have z : ∀ w, dec00 (fld 0xC000002B 0 7) w = zeros w [(7, 1), (9, 5)] (g2 .brev w) := fun _ => rfl
  decode_two q.2.1 rfl (in_dec00 q.2.2.1 ((z _).trans (zeros_ok (by simp only [List.all_cons, List.all_nil, q.2.2.2.1, q.2.2.2.2]; rfl) q.1))) hw
theorem bswap (d : GNum) (a : GNum) (fa : Bool) : Statement (.bswap d a fa) := fun _ hw =>
  have q := g2_word .bswap 0xC000002C d a fa ⟨rfl, rfl⟩
  have z : ∀ w, dec00 (fld 0xC000002C 0 7) w = zeros w [(7, 1), (9, 5)] (g2 .bswap w) := fun _ => rfl
  decode_two q.2.1 rfl (in_dec00 q.2.2.1 ((z _).trans (zeros_ok (by simp only [List.all_cons, List.all_nil, q.2.2.2.1, q.2.2.2.2]; rfl) q.1))) hw
theorem sx8 (d : GNum) (a : GNum) (fa : Bool) : Statement (.sx8 d a fa) := fun _ hw =>
  have q := g2_word .sx8 0xC000002D d a fa ⟨rfl, rfl⟩
  have z : ∀ w, dec00 (fld 0xC000002D 0 7) w = zeros w [(7, 1), (9, 5)] (g2 .sx8 w) := fun _ => rfl
  decode_two q.2.1 rfl (in_dec00 q.2.2.1 ((z _).trans (zeros_ok (by simp only [List.all_cons, List.all_nil, q.2.2.2.1, q.2.2.2.2]; rfl) q.1))) hw
theorem sx16 (d : GNum) (a : GNum) (fa : Bool) : Statement (.sx16 d a fa) := fun _ hw =>
  have q := g2_word .sx16 0xC000002E d a fa ⟨rfl, rfl⟩
  have z : ∀ w, dec00 (fld 0xC000002E 0 7) w = zeros w [(7, 1), (9, 5)] (g2 .sx16 w) := fun _ => rfl
  decode_two q.2.1 rfl (in_dec00 q.2.2.1 ((z _).trans (zeros_ok (by simp only [List.all_cons, List.all_nil, q.2.2.2.1, q.2.2.2.2]; rfl) q.1))) hw
theorem sx32 (d : GNum) (a : GNum) (fa : Bool) : Statement (.sx32 d a fa) := fun _ hw =>
  have q := g2_word .sx32 0xC000002F d a fa ⟨rfl, rfl⟩
  have z : ∀ w, dec00 (fld 0xC000002F 0 7) w = zeros w [(7, 1), (9, 5)] (g2 .sx32 w) := fun _ => rfl
  decode_two q.2.1 rfl (in_dec00 q.2.2.1 ((z _).trans (zeros_ok (by simp only [List.all_cons, List.all_nil, q.2.2.2.1, q.2.2.2.2]; rfl) q.1))) hw
theorem zx8 (d : GNum) (a : GNum) (fa : Bool) : Statement (.zx8 d a fa) := fun _ hw =>
  have q := g2_word .zx8 0xC0000030 d a fa ⟨rfl, rfl⟩
  have z : ∀ w, dec00 (fld 0xC0000030 0 7) w = zeros w [(7, 1), (9, 5)] (g2 .zx8 w) := fun _ => rfl
  decode_two q.2.1 rfl (in_dec00 q.2.2.1 ((z _).trans (zeros_ok (by simp only [List.all_cons, List.all_nil, q.2.2.2.1, q.2.2.2.2]; rfl) q.1))) hw
theorem zx16 (d : GNum) (a : GNum) (fa : Bool) : Statement (.zx16 d a fa) := fun _ hw =>
  have q := g2_word .zx16 0xC0000031 d a fa ⟨rfl, rfl⟩
  have z : ∀ w, dec00 (fld 0xC0000031 0 7) w = zeros w [(7, 1), (9, 5)] (g2 .zx16 w) := fun _ => rfl
  decode_two q.2.1 rfl (in_dec00 q.2.2.1 ((z _).trans (zeros_ok (by simp only [List.all_cons, List.all_nil, q.2.2.2.1, q.2.2.2.2]; rfl) q.1))) hw
theorem zx32 (d : GNum) (a : GNum) (fa : Bool) : Statement (.zx32 d a fa) := fun _ hw =>
  have q := g2_word .zx32 0xC0000032 d a fa ⟨rfl, rfl⟩
  have z : ∀ w, dec00 (fld 0xC0000032 0 7) w = zeros w [(7, 1), (9, 5)] (g2 .zx32 w) := fun _ => rfl
  decode_two q.2.1 rfl (in_dec00 q.2.2.1 ((z _).trans (zeros_ok (by simp only [List.all_cons, List.all_nil, q.2.2.2.1, q.2.2.2.2]; rfl) q.1))) hw
theorem adds (d : GNum) (a : GNum) (b : GNum) (fa : Bool) (fb : Bool) : Statement (.adds d a b fa fb) := fun _ hw =>
  have q := g3_word .adds 0xC0000038 d a b fa fb rfl
  decode_two q.2.1 rfl (in_dec00 q.2.2.1 (congrArg Except.ok q.1)) hw
theorem subs (d : GNum) (a : GNum) (b : GNum) (fa : Bool) (fb : Bool) : Statement (.subs d a b fa fb) := fun _ hw =>
  have q := g3_word .subs 0xC0000039 d a b fa fb rfl
  decode_two q.2.1 rfl (in_dec00 q.2.2.1 (congrArg Except.ok q.1)) hw
theorem addsn (d : GNum) (a : GNum) (b : GNum) (fa : Bool) (fb : Bool) : Statement (.addsn d a b fa fb) := fun _ hw =>
  have q := g3_word .addsn 0xC000003A d a b fa fb rfl
  decode_two q.2.1 rfl (in_dec00 q.2.2.1 (congrArg Except.ok q.1)) hw
theorem subsn (d : GNum) (a : GNum) (b : GNum) (fa : Bool) (fb : Bool) : Statement (.subsn d a b fa fb) := fun _ hw =>
  have q := g3_word .subsn 0xC000003B d a b fa fb rfl
  decode_two q.2.1 rfl (in_dec00 q.2.2.1 (congrArg Except.ok q.1)) hw
theorem sel (d : GNum) (a : GNum) (b : GNum) (fa : Bool) (fb : Bool) : Statement (.sel d a b fa fb) := fun _ hw =>
  have q := g3_word .sel 0xC0000040 d a b fa fb rfl
  decode_two q.2.1 rfl (in_dec00 q.2.2.1 (congrArg Except.ok q.1)) hw
theorem addi (d : GNum) (a : GNum) (fa : Bool) (imm : BitVec 13) : Statement (.addi d a fa imm) := fun _ hw =>
  have q := imm13_word .addi 0xC1000000 d a fa imm rfl
  decode_two q.2 rfl (congrArg Except.ok q.1) hw
theorem andi (d : GNum) (a : GNum) (fa : Bool) (imm : BitVec 13) : Statement (.andi d a fa imm) := fun _ hw =>
  have q := imm13_word .andi 0xC2000000 d a fa imm rfl
  decode_two q.2 rfl (congrArg Except.ok q.1) hw
theorem ori (d : GNum) (a : GNum) (fa : Bool) (imm : BitVec 13) : Statement (.ori d a fa imm) := fun _ hw =>
  have q := imm13_word .ori 0xC3000000 d a fa imm rfl
  decode_two q.2 rfl (congrArg Except.ok q.1) hw
theorem xori (d : GNum) (a : GNum) (fa : Bool) (imm : BitVec 13) : Statement (.xori d a fa imm) := fun _ hw =>
  have q := imm13_word .xori 0xC4000000 d a fa imm rfl
  decode_two q.2 rfl (congrArg Except.ok q.1) hw
theorem slli (d : GNum) (a : GNum) (fa : Bool) (n : BitVec 6) : Statement (.slli d a fa n) := fun _ hw =>
  have q := shift_word .slli 0xC5000000 d a fa n ⟨rfl, rfl⟩
  have z : ∀ w, dec05 (fld 0xC5000000 10 3) w = zeros w [(6, 4)] (shift .slli w) := fun _ => rfl
  decode_two q.2.1 rfl (in_dec05 q.2.2.1 ((z _).trans (zeros_ok (by simp only [List.all_cons, List.all_nil, q.2.2.2]; rfl) q.1))) hw
theorem srli (d : GNum) (a : GNum) (fa : Bool) (n : BitVec 6) : Statement (.srli d a fa n) := fun _ hw =>
  have q := shift_word .srli 0xC5000400 d a fa n ⟨rfl, rfl⟩
  have z : ∀ w, dec05 (fld 0xC5000400 10 3) w = zeros w [(6, 4)] (shift .srli w) := fun _ => rfl
  decode_two q.2.1 rfl (in_dec05 q.2.2.1 ((z _).trans (zeros_ok (by simp only [List.all_cons, List.all_nil, q.2.2.2]; rfl) q.1))) hw
theorem srai (d : GNum) (a : GNum) (fa : Bool) (n : BitVec 6) : Statement (.srai d a fa n) := fun _ hw =>
  have q := shift_word .srai 0xC5000800 d a fa n ⟨rfl, rfl⟩
  have z : ∀ w, dec05 (fld 0xC5000800 10 3) w = zeros w [(6, 4)] (shift .srai w) := fun _ => rfl
  decode_two q.2.1 rfl (in_dec05 q.2.2.1 ((z _).trans (zeros_ok (by simp only [List.all_cons, List.all_nil, q.2.2.2]; rfl) q.1))) hw
theorem roli (d : GNum) (a : GNum) (fa : Bool) (n : BitVec 6) : Statement (.roli d a fa n) := fun _ hw =>
  have q := shift_word .roli 0xC5000C00 d a fa n ⟨rfl, rfl⟩
  have z : ∀ w, dec05 (fld 0xC5000C00 10 3) w = zeros w [(6, 4)] (shift .roli w) := fun _ => rfl
  decode_two q.2.1 rfl (in_dec05 q.2.2.1 ((z _).trans (zeros_ok (by simp only [List.all_cons, List.all_nil, q.2.2.2]; rfl) q.1))) hw
theorem rori (d : GNum) (a : GNum) (fa : Bool) (n : BitVec 6) : Statement (.rori d a fa n) := fun _ hw =>
  have q := shift_word .rori 0xC5001000 d a fa n ⟨rfl, rfl⟩
  have z : ∀ w, dec05 (fld 0xC5001000 10 3) w = zeros w [(6, 4)] (shift .rori w) := fun _ => rfl
  decode_two q.2.1 rfl (in_dec05 q.2.2.1 ((z _).trans (zeros_ok (by simp only [List.all_cons, List.all_nil, q.2.2.2]; rfl) q.1))) hw
theorem slti (d : GNum) (a : GNum) (fa : Bool) (imm : BitVec 13) : Statement (.slti d a fa imm) := fun _ hw =>
  have q := imm13_word .slti 0xC6000000 d a fa imm rfl
  decode_two q.2 rfl (congrArg Except.ok q.1) hw
theorem sltni (d : GNum) (a : GNum) (fa : Bool) (imm : BitVec 13) : Statement (.sltni d a fa imm) := fun _ hw =>
  have q := imm13_word .sltni 0xC7000000 d a fa imm rfl
  decode_two q.2 rfl (congrArg Except.ok q.1) hw
theorem bfx (d : GNum) (a : GNum) (fa : Bool) (len : BitVec 6) (pos : BitVec 6) : Statement (.bfx d a fa len pos) := fun _ hw =>
  have q := bitField_word .bfx 0xC8000000 d a fa len pos ⟨rfl, rfl⟩
  decode_two q.2.1 rfl (in_dec08 q.2.2 (congrArg Except.ok q.1)) hw
theorem bfxs (d : GNum) (a : GNum) (fa : Bool) (len : BitVec 6) (pos : BitVec 6) : Statement (.bfxs d a fa len pos) := fun _ hw =>
  have q := bitField_word .bfxs 0xC8001000 d a fa len pos ⟨rfl, rfl⟩
  decode_two q.2.1 rfl (in_dec08 q.2.2 (congrArg Except.ok q.1)) hw
theorem bfi (d : GNum) (a : GNum) (fa : Bool) (len : BitVec 6) (pos : BitVec 6) : Statement (.bfi d a fa len pos) := fun _ hw =>
  have q := bitField_word .bfi 0xC9000000 d a fa len pos ⟨rfl, rfl⟩
  decode_two q.2.1 rfl (in_dec09 q.2.2 (congrArg Except.ok q.1)) hw
theorem lim (d : GNum) (h : Fin 4) (imm : BitVec 16) : Statement (.lim d h imm) := fun _ hw =>
  have q := chunk_word .lim 0xCA000000 d h imm ⟨rfl, rfl⟩
  decode_two q.2.1 rfl (in_dec0A q.2.2 (congrArg Except.ok q.1)) hw
theorem limk (d : GNum) (h : Fin 4) (imm : BitVec 16) : Statement (.limk d h imm) := fun _ hw =>
  have q := chunk_word .limk 0xCA040000 d h imm ⟨rfl, rfl⟩
  decode_two q.2.1 rfl (in_dec0A q.2.2 (congrArg Except.ok q.1)) hw
theorem leaA (d : GNum) (a : GNum) (b : GNum) (fa : Bool) (fb : Bool) : Statement (.leaA d a b fa fb) := fun _ hw =>
  have q := g3_word .leaA 0xCB000000 d a b fa fb rfl
  decode_two q.2.1 rfl (in_dec0B q.2.2.1 (congrArg Except.ok q.1)) hw
theorem leaR (d : GNum) (a : GNum) (b : GNum) (fa : Bool) (fb : Bool) : Statement (.leaR d a b fa fb) := fun _ hw =>
  have q := g3_word .leaR 0xCB000001 d a b fa fb rfl
  decode_two q.2.1 rfl (in_dec0B q.2.2.1 (congrArg Except.ok q.1)) hw
theorem leaS (d : GNum) (a : GNum) (b : GNum) (fa : Bool) (fb : Bool) : Statement (.leaS d a b fa fb) := fun _ hw =>
  have q := g3_word .leaS 0xCB000002 d a b fa fb rfl
  decode_two q.2.1 rfl (in_dec0B q.2.2.1 (congrArg Except.ok q.1)) hw
theorem myid (d : GNum) : Statement (.myid d) := fun _ hw =>
  have q := gD_word .myid 0xCB000003 d rfl
  have z : ∀ w, dec0B (fld 0xCB000003 0 7) w = zeros w [(7, 12)] (gD .myid w) := fun _ => rfl
  decode_two q.2.1 rfl (in_dec0B q.2.2.1 ((z _).trans (zeros_ok (by simp only [List.all_cons, List.all_nil, q.2.2.2]; rfl) q.1))) hw
theorem kand (d : KNum) (a : KNum) (b : KNum) : Statement (.kand d a b) := fun _ hw =>
  have q := k3_word .kand 0xCC000000 d a b ⟨rfl, rfl, rfl⟩
  have z : ∀ w, dec0C (fld 0xCC000000 0 7) w = zeros w [(7, 2), (12, 2), (17, 2), (22, 2)] (k3 .kand w) := fun _ => rfl
  decode_two q.2.1 rfl (in_dec0C q.2.2.1 ((z _).trans (zeros_ok (by simp only [List.all_cons, List.all_nil, q.2.2.2.1, q.2.2.2.2.1, q.2.2.2.2.2.1, q.2.2.2.2.2.2]; rfl) q.1))) hw
theorem kor (d : KNum) (a : KNum) (b : KNum) : Statement (.kor d a b) := fun _ hw =>
  have q := k3_word .kor 0xCC000001 d a b ⟨rfl, rfl, rfl⟩
  have z : ∀ w, dec0C (fld 0xCC000001 0 7) w = zeros w [(7, 2), (12, 2), (17, 2), (22, 2)] (k3 .kor w) := fun _ => rfl
  decode_two q.2.1 rfl (in_dec0C q.2.2.1 ((z _).trans (zeros_ok (by simp only [List.all_cons, List.all_nil, q.2.2.2.1, q.2.2.2.2.1, q.2.2.2.2.2.1, q.2.2.2.2.2.2]; rfl) q.1))) hw
theorem kxor (d : KNum) (a : KNum) (b : KNum) : Statement (.kxor d a b) := fun _ hw =>
  have q := k3_word .kxor 0xCC000002 d a b ⟨rfl, rfl, rfl⟩
  have z : ∀ w, dec0C (fld 0xCC000002 0 7) w = zeros w [(7, 2), (12, 2), (17, 2), (22, 2)] (k3 .kxor w) := fun _ => rfl
  decode_two q.2.1 rfl (in_dec0C q.2.2.1 ((z _).trans (zeros_ok (by simp only [List.all_cons, List.all_nil, q.2.2.2.1, q.2.2.2.2.1, q.2.2.2.2.2.1, q.2.2.2.2.2.2]; rfl) q.1))) hw
theorem kandn (d : KNum) (a : KNum) (b : KNum) : Statement (.kandn d a b) := fun _ hw =>
  have q := k3_word .kandn 0xCC000003 d a b ⟨rfl, rfl, rfl⟩
  have z : ∀ w, dec0C (fld 0xCC000003 0 7) w = zeros w [(7, 2), (12, 2), (17, 2), (22, 2)] (k3 .kandn w) := fun _ => rfl
  decode_two q.2.1 rfl (in_dec0C q.2.2.1 ((z _).trans (zeros_ok (by simp only [List.all_cons, List.all_nil, q.2.2.2.1, q.2.2.2.2.1, q.2.2.2.2.2.1, q.2.2.2.2.2.2]; rfl) q.1))) hw
theorem knot (d : KNum) (a : KNum) : Statement (.knot d a) := fun _ hw =>
  have q := k2_word .knot 0xCC000004 d a ⟨rfl, rfl⟩
  have z : ∀ w, dec0C (fld 0xCC000004 0 7) w = zeros w [(7, 7), (17, 2), (22, 2)] (k2 .knot w) := fun _ => rfl
  decode_two q.2.1 rfl (in_dec0C q.2.2.1 ((z _).trans (zeros_ok (by simp only [List.all_cons, List.all_nil, q.2.2.2.1, q.2.2.2.2.1, q.2.2.2.2.2]; rfl) q.1))) hw
theorem kfromg (d : KNum) (a : GNum) (fa : Bool) : Statement (.kfromg d a fa) := fun _ hw =>
  have q := kFromG_word .kfromg 0xCC000008 d a fa ⟨rfl, rfl⟩
  have z : ∀ w, dec0C (fld 0xCC000008 0 7) w = zeros w [(7, 1), (9, 5), (22, 2)] (kFromG .kfromg w) := fun _ => rfl
  decode_two q.2.1 rfl (in_dec0C q.2.2.1 ((z _).trans (zeros_ok (by simp only [List.all_cons, List.all_nil, q.2.2.2.1, q.2.2.2.2.1, q.2.2.2.2.2]; rfl) q.1))) hw
theorem ktog (d : GNum) (a : KNum) : Statement (.ktog d a) := fun _ hw =>
  have q := gFromK_word .ktog 0xCC000009 d a ⟨rfl, rfl⟩
  have z : ∀ w, dec0C (fld 0xCC000009 0 7) w = zeros w [(7, 7), (17, 2)] (gFromK .ktog w) := fun _ => rfl
  decode_two q.2.1 rfl (in_dec0C q.2.2.1 ((z _).trans (zeros_ok (by simp only [List.all_cons, List.all_nil, q.2.2.2.1, q.2.2.2.2]; rfl) q.1))) hw
theorem kpop (d : GNum) (a : KNum) : Statement (.kpop d a) := fun _ hw =>
  have q := gFromK_word .kpop 0xCC00000A d a ⟨rfl, rfl⟩
  have z : ∀ w, dec0C (fld 0xCC00000A 0 7) w = zeros w [(7, 7), (17, 2)] (gFromK .kpop w) := fun _ => rfl
  decode_two q.2.1 rfl (in_dec0C q.2.2.1 ((z _).trans (zeros_ok (by simp only [List.all_cons, List.all_nil, q.2.2.2.1, q.2.2.2.2]; rfl) q.1))) hw
theorem kfirst (d : GNum) (a : KNum) : Statement (.kfirst d a) := fun _ hw =>
  have q := gFromK_word .kfirst 0xCC00000B d a ⟨rfl, rfl⟩
  have z : ∀ w, dec0C (fld 0xCC00000B 0 7) w = zeros w [(7, 7), (17, 2)] (gFromK .kfirst w) := fun _ => rfl
  decode_two q.2.1 rfl (in_dec0C q.2.2.1 ((z _).trans (zeros_ok (by simp only [List.all_cons, List.all_nil, q.2.2.2.1, q.2.2.2.2]; rfl) q.1))) hw
theorem vperm (d : VNum) (a : VNum) (b : VNum) (k : KNum) (fa : Bool) (fb : Bool) : Statement (.vperm d a b k fa fb) := fun _ hw =>
  have q := v3_word .vperm 0xCD000000 d a b k fa fb rfl
  decode_two q.2.1 rfl (in_dec0D q.2.2 (congrArg Except.ok q.1)) hw
theorem vperm2 (d : VNum) (a : VNum) (b : VNum) (k : KNum) (fa : Bool) (fb : Bool) : Statement (.vperm2 d a b k fa fb) := fun _ hw =>
  have q := v3_word .vperm2 0xCD000001 d a b k fa fb rfl
  decode_two q.2.1 rfl (in_dec0D q.2.2 (congrArg Except.ok q.1)) hw
theorem vzip (d : VNum) (a : VNum) (b : VNum) (fa : Bool) (fb : Bool) : Statement (.vzip d a b fa fb) := fun _ hw =>
  have q := v3NoMask_word .vzip 0xCE000000 d a b fa fb ⟨rfl, rfl⟩
  have z : ∀ w, dec0E (fld 0xCE000000 0 1) w = zeros w [(3, 3)] (v3NoMask .vzip w) := fun _ => rfl
  decode_two q.2.1 rfl (in_dec0E q.2.2.1 ((z _).trans (zeros_ok (by simp only [List.all_cons, List.all_nil, q.2.2.2]; rfl) q.1))) hw
theorem vunzip (d : VNum) (a : VNum) (b : VNum) (fa : Bool) (fb : Bool) : Statement (.vunzip d a b fa fb) := fun _ hw =>
  have q := v3NoMask_word .vunzip 0xCE000001 d a b fa fb ⟨rfl, rfl⟩
  have z : ∀ w, dec0E (fld 0xCE000001 0 1) w = zeros w [(3, 3)] (v3NoMask .vunzip w) := fun _ => rfl
  decode_two q.2.1 rfl (in_dec0E q.2.2.1 ((z _).trans (zeros_ok (by simp only [List.all_cons, List.all_nil, q.2.2.2]; rfl) q.1))) hw
theorem vscl (d : VNum) (a : VNum) (b : VNum) (k : KNum) (fa : Bool) (fb : Bool) : Statement (.vscl d a b k fa fb) := fun _ hw =>
  have q := v3_word .vscl 0xCF000000 d a b k fa fb rfl
  decode_two q.2.1 rfl (in_dec0F q.2.2 (congrArg Except.ok q.1)) hw
theorem vqnt (d : VNum) (a : VNum) (b : VNum) (k : KNum) (fa : Bool) (fb : Bool) : Statement (.vqnt d a b k fa fb) := fun _ hw =>
  have q := v3_word .vqnt 0xCF000001 d a b k fa fb rfl
  decode_two q.2.1 rfl (in_dec0F q.2.2 (congrArg Except.ok q.1)) hw
theorem beq (a : GNum) (b : GNum) (disp : BitVec 14) : Statement (.beq a b disp) := fun _ hw =>
  have q := branchB_word .beq 0xD0000000 a b disp rfl
  decode_two q.2 rfl (congrArg Except.ok q.1) hw
theorem bne (a : GNum) (b : GNum) (disp : BitVec 14) : Statement (.bne a b disp) := fun _ hw =>
  have q := branchB_word .bne 0xD1000000 a b disp rfl
  decode_two q.2 rfl (congrArg Except.ok q.1) hw
theorem blt (a : GNum) (b : GNum) (disp : BitVec 14) : Statement (.blt a b disp) := fun _ hw =>
  have q := branchB_word .blt 0xD2000000 a b disp rfl
  decode_two q.2 rfl (congrArg Except.ok q.1) hw
theorem bge (a : GNum) (b : GNum) (disp : BitVec 14) : Statement (.bge a b disp) := fun _ hw =>
  have q := branchB_word .bge 0xD3000000 a b disp rfl
  decode_two q.2 rfl (congrArg Except.ok q.1) hw
theorem bltn (a : GNum) (b : GNum) (disp : BitVec 14) : Statement (.bltn a b disp) := fun _ hw =>
  have q := branchB_word .bltn 0xD4000000 a b disp rfl
  decode_two q.2 rfl (congrArg Except.ok q.1) hw
theorem bgen (a : GNum) (b : GNum) (disp : BitVec 14) : Statement (.bgen a b disp) := fun _ hw =>
  have q := branchB_word .bgen 0xD5000000 a b disp rfl
  decode_two q.2 rfl (congrArg Except.ok q.1) hw
theorem j (disp : BitVec 24) : Statement (.j disp) := fun _ hw =>
  have q := jumpJ_word .j 0xD6000000 disp rfl
  decode_two q.2 rfl (congrArg Except.ok q.1) hw
theorem call (disp : BitVec 24) : Statement (.call disp) := fun _ hw =>
  have q := jumpJ_word .call 0xD7000000 disp rfl
  decode_two q.2 rfl (congrArg Except.ok q.1) hw
theorem jr (a : GNum) (fa : Bool) : Statement (.jr a fa) := fun _ hw =>
  have q := gA_word .jr 0xD8000000 a fa ⟨rfl, rfl⟩
  have z : ∀ w, dec18 (fld 0xD8000000 0 7) w = zeros w [(7, 1), (9, 5), (19, 5)] (gA .jr w) := fun _ => rfl
  decode_two q.2.1 rfl (in_dec18 q.2.2.1 ((z _).trans (zeros_ok (by simp only [List.all_cons, List.all_nil, q.2.2.2.1, q.2.2.2.2.1, q.2.2.2.2.2.1]; rfl) q.1))) hw
theorem callr (d : GNum) (a : GNum) (fa : Bool) : Statement (.callr d a fa) := fun _ hw =>
  have q := g2_word .callr 0xD8000001 d a fa ⟨rfl, rfl⟩
  have z : ∀ w, dec18 (fld 0xD8000001 0 7) w = zeros w [(7, 1), (9, 5)] (g2 .callr w) := fun _ => rfl
  decode_two q.2.1 rfl (in_dec18 q.2.2.1 ((z _).trans (zeros_ok (by simp only [List.all_cons, List.all_nil, q.2.2.2.1, q.2.2.2.2]; rfl) q.1))) hw
theorem ldI8 (d : GNum) (base : GNum) (fa : Bool) (off : BitVec 10) : Statement (.ldI8 d base fa off) := fun _ hw =>
  have q := memM_word .ldI8 0xDA000000 d base fa off ⟨rfl, rfl⟩
  decode_two q.2.1 rfl (in_dec1A q.2.2 (congrArg Except.ok q.1)) hw
theorem ldI16 (d : GNum) (base : GNum) (fa : Bool) (off : BitVec 10) : Statement (.ldI16 d base fa off) := fun _ hw =>
  have q := memM_word .ldI16 0xDA000400 d base fa off ⟨rfl, rfl⟩
  decode_two q.2.1 rfl (in_dec1A q.2.2 (congrArg Except.ok q.1)) hw
theorem ldI32 (d : GNum) (base : GNum) (fa : Bool) (off : BitVec 10) : Statement (.ldI32 d base fa off) := fun _ hw =>
  have q := memM_word .ldI32 0xDA000800 d base fa off ⟨rfl, rfl⟩
  decode_two q.2.1 rfl (in_dec1A q.2.2 (congrArg Except.ok q.1)) hw
theorem ldI64 (d : GNum) (base : GNum) (fa : Bool) (off : BitVec 10) : Statement (.ldI64 d base fa off) := fun _ hw =>
  have q := memM_word .ldI64 0xDA000C00 d base fa off ⟨rfl, rfl⟩
  decode_two q.2.1 rfl (in_dec1A q.2.2 (congrArg Except.ok q.1)) hw
theorem ldN8 (d : GNum) (base : GNum) (fa : Bool) (off : BitVec 10) : Statement (.ldN8 d base fa off) := fun _ hw =>
  have q := memM_word .ldN8 0xDA001000 d base fa off ⟨rfl, rfl⟩
  decode_two q.2.1 rfl (in_dec1A q.2.2 (congrArg Except.ok q.1)) hw
theorem ldN16 (d : GNum) (base : GNum) (fa : Bool) (off : BitVec 10) : Statement (.ldN16 d base fa off) := fun _ hw =>
  have q := memM_word .ldN16 0xDA001400 d base fa off ⟨rfl, rfl⟩
  decode_two q.2.1 rfl (in_dec1A q.2.2 (congrArg Except.ok q.1)) hw
theorem ldN32 (d : GNum) (base : GNum) (fa : Bool) (off : BitVec 10) : Statement (.ldN32 d base fa off) := fun _ hw =>
  have q := memM_word .ldN32 0xDA001800 d base fa off ⟨rfl, rfl⟩
  decode_two q.2.1 rfl (in_dec1A q.2.2 (congrArg Except.ok q.1)) hw
theorem stI8 (s : GNum) (base : GNum) (fa : Bool) (off : BitVec 10) : Statement (.stI8 s base fa off) := fun _ hw =>
  have q := memM_word .stI8 0xDB000000 s base fa off ⟨rfl, rfl⟩
  decode_two q.2.1 rfl (in_dec1B q.2.2 (congrArg Except.ok q.1)) hw
theorem stI16 (s : GNum) (base : GNum) (fa : Bool) (off : BitVec 10) : Statement (.stI16 s base fa off) := fun _ hw =>
  have q := memM_word .stI16 0xDB000400 s base fa off ⟨rfl, rfl⟩
  decode_two q.2.1 rfl (in_dec1B q.2.2 (congrArg Except.ok q.1)) hw
theorem stI32 (s : GNum) (base : GNum) (fa : Bool) (off : BitVec 10) : Statement (.stI32 s base fa off) := fun _ hw =>
  have q := memM_word .stI32 0xDB000800 s base fa off ⟨rfl, rfl⟩
  decode_two q.2.1 rfl (in_dec1B q.2.2 (congrArg Except.ok q.1)) hw
theorem stI64 (s : GNum) (base : GNum) (fa : Bool) (off : BitVec 10) : Statement (.stI64 s base fa off) := fun _ hw =>
  have q := memM_word .stI64 0xDB000C00 s base fa off ⟨rfl, rfl⟩
  decode_two q.2.1 rfl (in_dec1B q.2.2 (congrArg Except.ok q.1)) hw
theorem ldfe (d : GNum) (base : GNum) (fa : Bool) (off : BitVec 10) : Statement (.ldfe d base fa off) := fun _ hw =>
  have q := memM_word .ldfe 0xDC000000 d base fa off ⟨rfl, rfl⟩
  decode_two q.2.1 rfl (in_dec1C q.2.2 (congrArg Except.ok q.1)) hw
theorem ldff (d : GNum) (base : GNum) (fa : Bool) (off : BitVec 10) : Statement (.ldff d base fa off) := fun _ hw =>
  have q := memM_word .ldff 0xDC000400 d base fa off ⟨rfl, rfl⟩
  decode_two q.2.1 rfl (in_dec1C q.2.2 (congrArg Except.ok q.1)) hw
theorem stfe (s : GNum) (base : GNum) (fa : Bool) (off : BitVec 10) : Statement (.stfe s base fa off) := fun _ hw =>
  have q := memM_word .stfe 0xDC001000 s base fa off ⟨rfl, rfl⟩
  decode_two q.2.1 rfl (in_dec1C q.2.2 (congrArg Except.ok q.1)) hw
theorem stff (s : GNum) (base : GNum) (fa : Bool) (off : BitVec 10) : Statement (.stff s base fa off) := fun _ hw =>
  have q := memM_word .stff 0xDC001400 s base fa off ⟨rfl, rfl⟩
  decode_two q.2.1 rfl (in_dec1C q.2.2 (congrArg Except.ok q.1)) hw
theorem purge (base : GNum) (fa : Bool) (off : BitVec 10) : Statement (.purge base fa off) := fun _ hw =>
  have q := memNoD_word .purge 0xDC001800 base fa off ⟨rfl, rfl⟩
  have z : ∀ w, dec1C (fld 0xDC001800 10 3) w = zeros w [(19, 5)] (memNoD .purge w) := fun _ => rfl
  decode_two q.2.1 rfl (in_dec1C q.2.2.1 ((z _).trans (zeros_ok (by simp only [List.all_cons, List.all_nil, q.2.2.2]; rfl) q.1))) hw
theorem aadd (d : GNum) (a : GNum) (b : GNum) (fa : Bool) (fb : Bool) (w32 : Bool) : Statement (.aadd d a b fa fb w32) := fun _ hw =>
  have q := atomicD_word .aadd 0xDD000000 d a b fa fb w32 ⟨rfl, rfl⟩
  have z : ∀ w, dec1D (fld 0xDD000000 0 5) w = zeros w [(6, 1)] (atomicD .aadd w) := fun _ => rfl
  decode_two q.2.1 rfl (in_dec1D q.2.2.1 ((z _).trans (zeros_ok (by simp only [List.all_cons, List.all_nil, q.2.2.2]; rfl) q.1))) hw
theorem aaddNr (a : GNum) (b : GNum) (fa : Bool) (fb : Bool) (w32 : Bool) : Statement (.aaddNr a b fa fb w32) := fun _ hw =>
  have q := atomicNoD_word .aaddNr 0xDD000010 a b fa fb w32 ⟨rfl, rfl⟩
  have z : ∀ w, dec1D (fld 0xDD000010 0 5) w = zeros w [(6, 1), (19, 5)] (atomicNoD .aaddNr w) := fun _ => rfl
  decode_two q.2.1 rfl (in_dec1D q.2.2.1 ((z _).trans (zeros_ok (by simp only [List.all_cons, List.all_nil, q.2.2.2.1, q.2.2.2.2]; rfl) q.1))) hw
theorem aand (d : GNum) (a : GNum) (b : GNum) (fa : Bool) (fb : Bool) (w32 : Bool) : Statement (.aand d a b fa fb w32) := fun _ hw =>
  have q := atomicD_word .aand 0xDD000001 d a b fa fb w32 ⟨rfl, rfl⟩
  have z : ∀ w, dec1D (fld 0xDD000001 0 5) w = zeros w [(6, 1)] (atomicD .aand w) := fun _ => rfl
  decode_two q.2.1 rfl (in_dec1D q.2.2.1 ((z _).trans (zeros_ok (by simp only [List.all_cons, List.all_nil, q.2.2.2]; rfl) q.1))) hw
theorem aandNr (a : GNum) (b : GNum) (fa : Bool) (fb : Bool) (w32 : Bool) : Statement (.aandNr a b fa fb w32) := fun _ hw =>
  have q := atomicNoD_word .aandNr 0xDD000011 a b fa fb w32 ⟨rfl, rfl⟩
  have z : ∀ w, dec1D (fld 0xDD000011 0 5) w = zeros w [(6, 1), (19, 5)] (atomicNoD .aandNr w) := fun _ => rfl
  decode_two q.2.1 rfl (in_dec1D q.2.2.1 ((z _).trans (zeros_ok (by simp only [List.all_cons, List.all_nil, q.2.2.2.1, q.2.2.2.2]; rfl) q.1))) hw
theorem aor (d : GNum) (a : GNum) (b : GNum) (fa : Bool) (fb : Bool) (w32 : Bool) : Statement (.aor d a b fa fb w32) := fun _ hw =>
  have q := atomicD_word .aor 0xDD000002 d a b fa fb w32 ⟨rfl, rfl⟩
  have z : ∀ w, dec1D (fld 0xDD000002 0 5) w = zeros w [(6, 1)] (atomicD .aor w) := fun _ => rfl
  decode_two q.2.1 rfl (in_dec1D q.2.2.1 ((z _).trans (zeros_ok (by simp only [List.all_cons, List.all_nil, q.2.2.2]; rfl) q.1))) hw
theorem aorNr (a : GNum) (b : GNum) (fa : Bool) (fb : Bool) (w32 : Bool) : Statement (.aorNr a b fa fb w32) := fun _ hw =>
  have q := atomicNoD_word .aorNr 0xDD000012 a b fa fb w32 ⟨rfl, rfl⟩
  have z : ∀ w, dec1D (fld 0xDD000012 0 5) w = zeros w [(6, 1), (19, 5)] (atomicNoD .aorNr w) := fun _ => rfl
  decode_two q.2.1 rfl (in_dec1D q.2.2.1 ((z _).trans (zeros_ok (by simp only [List.all_cons, List.all_nil, q.2.2.2.1, q.2.2.2.2]; rfl) q.1))) hw
theorem axor (d : GNum) (a : GNum) (b : GNum) (fa : Bool) (fb : Bool) (w32 : Bool) : Statement (.axor d a b fa fb w32) := fun _ hw =>
  have q := atomicD_word .axor 0xDD000003 d a b fa fb w32 ⟨rfl, rfl⟩
  have z : ∀ w, dec1D (fld 0xDD000003 0 5) w = zeros w [(6, 1)] (atomicD .axor w) := fun _ => rfl
  decode_two q.2.1 rfl (in_dec1D q.2.2.1 ((z _).trans (zeros_ok (by simp only [List.all_cons, List.all_nil, q.2.2.2]; rfl) q.1))) hw
theorem axorNr (a : GNum) (b : GNum) (fa : Bool) (fb : Bool) (w32 : Bool) : Statement (.axorNr a b fa fb w32) := fun _ hw =>
  have q := atomicNoD_word .axorNr 0xDD000013 a b fa fb w32 ⟨rfl, rfl⟩
  have z : ∀ w, dec1D (fld 0xDD000013 0 5) w = zeros w [(6, 1), (19, 5)] (atomicNoD .axorNr w) := fun _ => rfl
  decode_two q.2.1 rfl (in_dec1D q.2.2.1 ((z _).trans (zeros_ok (by simp only [List.all_cons, List.all_nil, q.2.2.2.1, q.2.2.2.2]; rfl) q.1))) hw
theorem amin (d : GNum) (a : GNum) (b : GNum) (fa : Bool) (fb : Bool) (w32 : Bool) : Statement (.amin d a b fa fb w32) := fun _ hw =>
  have q := atomicD_word .amin 0xDD000004 d a b fa fb w32 ⟨rfl, rfl⟩
  have z : ∀ w, dec1D (fld 0xDD000004 0 5) w = zeros w [(6, 1)] (atomicD .amin w) := fun _ => rfl
  decode_two q.2.1 rfl (in_dec1D q.2.2.1 ((z _).trans (zeros_ok (by simp only [List.all_cons, List.all_nil, q.2.2.2]; rfl) q.1))) hw
theorem aminNr (a : GNum) (b : GNum) (fa : Bool) (fb : Bool) (w32 : Bool) : Statement (.aminNr a b fa fb w32) := fun _ hw =>
  have q := atomicNoD_word .aminNr 0xDD000014 a b fa fb w32 ⟨rfl, rfl⟩
  have z : ∀ w, dec1D (fld 0xDD000014 0 5) w = zeros w [(6, 1), (19, 5)] (atomicNoD .aminNr w) := fun _ => rfl
  decode_two q.2.1 rfl (in_dec1D q.2.2.1 ((z _).trans (zeros_ok (by simp only [List.all_cons, List.all_nil, q.2.2.2.1, q.2.2.2.2]; rfl) q.1))) hw
theorem amax (d : GNum) (a : GNum) (b : GNum) (fa : Bool) (fb : Bool) (w32 : Bool) : Statement (.amax d a b fa fb w32) := fun _ hw =>
  have q := atomicD_word .amax 0xDD000005 d a b fa fb w32 ⟨rfl, rfl⟩
  have z : ∀ w, dec1D (fld 0xDD000005 0 5) w = zeros w [(6, 1)] (atomicD .amax w) := fun _ => rfl
  decode_two q.2.1 rfl (in_dec1D q.2.2.1 ((z _).trans (zeros_ok (by simp only [List.all_cons, List.all_nil, q.2.2.2]; rfl) q.1))) hw
theorem amaxNr (a : GNum) (b : GNum) (fa : Bool) (fb : Bool) (w32 : Bool) : Statement (.amaxNr a b fa fb w32) := fun _ hw =>
  have q := atomicNoD_word .amaxNr 0xDD000015 a b fa fb w32 ⟨rfl, rfl⟩
  have z : ∀ w, dec1D (fld 0xDD000015 0 5) w = zeros w [(6, 1), (19, 5)] (atomicNoD .amaxNr w) := fun _ => rfl
  decode_two q.2.1 rfl (in_dec1D q.2.2.1 ((z _).trans (zeros_ok (by simp only [List.all_cons, List.all_nil, q.2.2.2.1, q.2.2.2.2]; rfl) q.1))) hw
theorem aminn (d : GNum) (a : GNum) (b : GNum) (fa : Bool) (fb : Bool) (w32 : Bool) : Statement (.aminn d a b fa fb w32) := fun _ hw =>
  have q := atomicD_word .aminn 0xDD000006 d a b fa fb w32 ⟨rfl, rfl⟩
  have z : ∀ w, dec1D (fld 0xDD000006 0 5) w = zeros w [(6, 1)] (atomicD .aminn w) := fun _ => rfl
  decode_two q.2.1 rfl (in_dec1D q.2.2.1 ((z _).trans (zeros_ok (by simp only [List.all_cons, List.all_nil, q.2.2.2]; rfl) q.1))) hw
theorem aminnNr (a : GNum) (b : GNum) (fa : Bool) (fb : Bool) (w32 : Bool) : Statement (.aminnNr a b fa fb w32) := fun _ hw =>
  have q := atomicNoD_word .aminnNr 0xDD000016 a b fa fb w32 ⟨rfl, rfl⟩
  have z : ∀ w, dec1D (fld 0xDD000016 0 5) w = zeros w [(6, 1), (19, 5)] (atomicNoD .aminnNr w) := fun _ => rfl
  decode_two q.2.1 rfl (in_dec1D q.2.2.1 ((z _).trans (zeros_ok (by simp only [List.all_cons, List.all_nil, q.2.2.2.1, q.2.2.2.2]; rfl) q.1))) hw
theorem amaxn (d : GNum) (a : GNum) (b : GNum) (fa : Bool) (fb : Bool) (w32 : Bool) : Statement (.amaxn d a b fa fb w32) := fun _ hw =>
  have q := atomicD_word .amaxn 0xDD000007 d a b fa fb w32 ⟨rfl, rfl⟩
  have z : ∀ w, dec1D (fld 0xDD000007 0 5) w = zeros w [(6, 1)] (atomicD .amaxn w) := fun _ => rfl
  decode_two q.2.1 rfl (in_dec1D q.2.2.1 ((z _).trans (zeros_ok (by simp only [List.all_cons, List.all_nil, q.2.2.2]; rfl) q.1))) hw
theorem amaxnNr (a : GNum) (b : GNum) (fa : Bool) (fb : Bool) (w32 : Bool) : Statement (.amaxnNr a b fa fb w32) := fun _ hw =>
  have q := atomicNoD_word .amaxnNr 0xDD000017 a b fa fb w32 ⟨rfl, rfl⟩
  have z : ∀ w, dec1D (fld 0xDD000017 0 5) w = zeros w [(6, 1), (19, 5)] (atomicNoD .amaxnNr w) := fun _ => rfl
  decode_two q.2.1 rfl (in_dec1D q.2.2.1 ((z _).trans (zeros_ok (by simp only [List.all_cons, List.all_nil, q.2.2.2.1, q.2.2.2.2]; rfl) q.1))) hw
theorem aswap (d : GNum) (a : GNum) (b : GNum) (fa : Bool) (fb : Bool) (w32 : Bool) : Statement (.aswap d a b fa fb w32) := fun _ hw =>
  have q := atomicD_word .aswap 0xDD000008 d a b fa fb w32 ⟨rfl, rfl⟩
  have z : ∀ w, dec1D (fld 0xDD000008 0 5) w = zeros w [(6, 1)] (atomicD .aswap w) := fun _ => rfl
  decode_two q.2.1 rfl (in_dec1D q.2.2.1 ((z _).trans (zeros_ok (by simp only [List.all_cons, List.all_nil, q.2.2.2]; rfl) q.1))) hw
theorem acas (d : GNum) (a : GNum) (b : GNum) (fa : Bool) (fb : Bool) (w32 : Bool) : Statement (.acas d a b fa fb w32) := fun _ hw =>
  have q := atomicD_word .acas 0xDD000009 d a b fa fb w32 ⟨rfl, rfl⟩
  have z : ∀ w, dec1D (fld 0xDD000009 0 5) w = zeros w [(6, 1)] (atomicD .acas w) := fun _ => rfl
  decode_two q.2.1 rfl (in_dec1D q.2.2.1 ((z _).trans (zeros_ok (by simp only [List.all_cons, List.all_nil, q.2.2.2]; rfl) q.1))) hw
theorem watch (d : GNum) (a : GNum) (b : GNum) (fa : Bool) (fb : Bool) : Statement (.watch d a b fa fb) := fun _ hw =>
  have q := g3_word .watch 0xE0000000 d a b fa fb rfl
  have z : ∀ w, dec20 (fld 0xE0000000 3 4) w = zeros w [(0, 3)] (g3 .watch w) := fun _ => rfl
  decode_two q.2.1 rfl (in_dec20 q.2.2.2.1 ((z _).trans (zeros_ok (by simp only [List.all_cons, List.all_nil, q.2.2.2.2]; rfl) q.1))) hw
theorem watchT (d : GNum) (a : GNum) (b : GNum) (fa : Bool) (fb : Bool) (e : ENum) : Statement (.watchT d a b fa fb e) := fun _ hw =>
  have q := g3e_word .watchT 0xE0000008 d a b fa fb e ⟨rfl, rfl⟩
  decode_two q.2.1 rfl (in_dec20 q.2.2 (congrArg Except.ok q.1)) hw
theorem seqAdv (d : GNum) (a : GNum) (b : GNum) (fa : Bool) (fb : Bool) : Statement (.seqAdv d a b fa fb) := fun _ hw =>
  have q := g3_word .seqAdv 0xE0000010 d a b fa fb rfl
  have z : ∀ w, dec20 (fld 0xE0000010 3 4) w = zeros w [(0, 3)] (g3 .seqAdv w) := fun _ => rfl
  decode_two q.2.1 rfl (in_dec20 q.2.2.2.1 ((z _).trans (zeros_ok (by simp only [List.all_cons, List.all_nil, q.2.2.2.2]; rfl) q.1))) hw
theorem pfence : Statement .pfence := fun _ => decode_two (w := 0xE0000018) rfl rfl rfl
theorem yield : Statement .yield := fun _ => decode_two (w := 0xE0000020) rfl rfl rfl
theorem park : Statement .park := fun _ => decode_two (w := 0xE0000028) rfl rfl rfl
theorem exit : Statement .exit := fun _ => decode_two (w := 0xE0000030) rfl rfl rfl
theorem pull (a : GNum) (b : GNum) (fa : Bool) (fb : Bool) (e : ENum) : Statement (.pull a b fa fb e) := fun _ hw =>
  have q := g2e_word .pull 0xE1000000 a b fa fb e ⟨rfl, rfl⟩
  have z : ∀ w, dec21 (fld 0xE1000000 3 4) w = zeros w [(19, 5)] (g2e .pull w) := fun _ => rfl
  decode_two q.2.1 rfl (in_dec21 q.2.2.1 ((z _).trans (zeros_ok (by simp only [List.all_cons, List.all_nil, q.2.2.2]; rfl) q.1))) hw
theorem pull2d (d : GNum) (a : GNum) (b : GNum) (fa : Bool) (fb : Bool) (e : ENum) : Statement (.pull2d d a b fa fb e) := fun _ hw =>
  have q := g3e_word .pull2d 0xE1000008 d a b fa fb e ⟨rfl, rfl⟩
  decode_two q.2.1 rfl (in_dec21 q.2.2 (congrArg Except.ok q.1)) hw
theorem pullG (d : GNum) (b : GNum) (fb : Bool) (e : ENum) : Statement (.pullG d b fb e) := fun _ hw =>
  have q := g2eB_word .pullG 0xE1000010 d b fb e ⟨rfl, rfl, rfl, rfl⟩
  have z : ∀ w, dec21 (fld 0xE1000010 3 4) w = zeros w [(8, 1), (14, 5)] (g2eB .pullG w) := fun _ => rfl
  decode_two q.2.1 rfl (in_dec21 q.2.2.1 ((z _).trans (zeros_ok (by simp only [List.all_cons, List.all_nil, q.2.2.2.1, q.2.2.2.2]; rfl) q.1))) hw
theorem pullAdd (a : GNum) (b : GNum) (fa : Bool) (fb : Bool) (e : ENum) : Statement (.pullAdd a b fa fb e) := fun _ hw =>
  have q := g2e_word .pullAdd 0xE1000018 a b fa fb e ⟨rfl, rfl⟩
  have z : ∀ w, dec21 (fld 0xE1000018 3 4) w = zeros w [(19, 5)] (g2e .pullAdd w) := fun _ => rfl
  decode_two q.2.1 rfl (in_dec21 q.2.2.1 ((z _).trans (zeros_ok (by simp only [List.all_cons, List.all_nil, q.2.2.2]; rfl) q.1))) hw
theorem copy (a : GNum) (b : GNum) (fa : Bool) (fb : Bool) (e : ENum) : Statement (.copy a b fa fb e) := fun _ hw =>
  have q := g2e_word .copy 0xE1000020 a b fa fb e ⟨rfl, rfl⟩
  have z : ∀ w, dec21 (fld 0xE1000020 3 4) w = zeros w [(19, 5)] (g2e .copy w) := fun _ => rfl
  decode_two q.2.1 rfl (in_dec21 q.2.2.1 ((z _).trans (zeros_ok (by simp only [List.all_cons, List.all_nil, q.2.2.2]; rfl) q.1))) hw
theorem hget (a : GNum) (b : GNum) (fa : Bool) (fb : Bool) (e : ENum) : Statement (.hget a b fa fb e) := fun _ hw =>
  have q := g2e_word .hget 0xE1000028 a b fa fb e ⟨rfl, rfl⟩
  have z : ∀ w, dec21 (fld 0xE1000028 3 4) w = zeros w [(19, 5)] (g2e .hget w) := fun _ => rfl
  decode_two q.2.1 rfl (in_dec21 q.2.2.1 ((z _).trans (zeros_ok (by simp only [List.all_cons, List.all_nil, q.2.2.2]; rfl) q.1))) hw
theorem hsend (a : GNum) (b : GNum) (fa : Bool) (fb : Bool) (e : ENum) : Statement (.hsend a b fa fb e) := fun _ hw =>
  have q := g2e_word .hsend 0xE1000030 a b fa fb e ⟨rfl, rfl⟩
  have z : ∀ w, dec21 (fld 0xE1000030 3 4) w = zeros w [(19, 5)] (g2e .hsend w) := fun _ => rfl
  decode_two q.2.1 rfl (in_dec21 q.2.2.1 ((z _).trans (zeros_ok (by simp only [List.all_cons, List.all_nil, q.2.2.2]; rfl) q.1))) hw
theorem spawn (d : GNum) (a : GNum) (b : GNum) (fa : Bool) (fb : Bool) (e : ENum) : Statement (.spawn d a b fa fb e) := fun _ hw =>
  have q := g3e_word .spawn 0xE2000000 d a b fa fb e ⟨rfl, rfl⟩
  decode_two q.2.1 rfl (in_dec22 q.2.2 (congrArg Except.ok q.1)) hw
theorem amsg (d : GNum) (a : GNum) (b : GNum) (fa : Bool) (fb : Bool) (e : ENum) : Statement (.amsg d a b fa fb e) := fun _ hw =>
  have q := g3e_word .amsg 0xE2000008 d a b fa fb e ⟨rfl, rfl⟩
  decode_two q.2.1 rfl (in_dec22 q.2.2 (congrArg Except.ok q.1)) hw
theorem tlwait (d : GNum) (tl : TLNum) : Statement (.tlwait d tl) := fun _ hw =>
  have q := tlX_word .tlwait 0xE3000000 d tl ⟨rfl, rfl⟩
  have z : ∀ w, dec23 (fld 0xE3000000 0 16) w = zeros w [(18, 1)] (tlX .tlwait w) := fun _ => rfl
  decode_two q.2.1 rfl (in_dec23 q.2.2.1 ((z _).trans (zeros_ok (by simp only [List.all_cons, List.all_nil, q.2.2.2]; rfl) q.1))) hw
theorem tltest (d : GNum) (tl : TLNum) : Statement (.tltest d tl) := fun _ hw =>
  have q := tlX_word .tltest 0xE3000001 d tl ⟨rfl, rfl⟩
  have z : ∀ w, dec23 (fld 0xE3000001 0 16) w = zeros w [(18, 1)] (tlX .tltest w) := fun _ => rfl
  decode_two q.2.1 rfl (in_dec23 q.2.2.1 ((z _).trans (zeros_ok (by simp only [List.all_cons, List.all_nil, q.2.2.2]; rfl) q.1))) hw
theorem tlrd (d : GNum) (tl : TLNum) : Statement (.tlrd d tl) := fun _ hw =>
  have q := tlX_word .tlrd 0xE3000002 d tl ⟨rfl, rfl⟩
  have z : ∀ w, dec23 (fld 0xE3000002 0 16) w = zeros w [(18, 1)] (tlX .tlrd w) := fun _ => rfl
  decode_two q.2.1 rfl (in_dec23 q.2.2.1 ((z _).trans (zeros_ok (by simp only [List.all_cons, List.all_nil, q.2.2.2]; rfl) q.1))) hw
theorem tlhigh (d : GNum) (tl : TLNum) : Statement (.tlhigh d tl) := fun _ hw =>
  have q := tlX_word .tlhigh 0xE3000003 d tl ⟨rfl, rfl⟩
  have z : ∀ w, dec23 (fld 0xE3000003 0 16) w = zeros w [(18, 1)] (tlX .tlhigh w) := fun _ => rfl
  decode_two q.2.1 rfl (in_dec23 q.2.2.1 ((z _).trans (zeros_ok (by simp only [List.all_cons, List.all_nil, q.2.2.2]; rfl) q.1))) hw
theorem tlerr (d : GNum) (tl : TLNum) : Statement (.tlerr d tl) := fun _ hw =>
  have q := tlX_word .tlerr 0xE3000004 d tl ⟨rfl, rfl⟩
  have z : ∀ w, dec23 (fld 0xE3000004 0 16) w = zeros w [(18, 1)] (tlX .tlerr w) := fun _ => rfl
  decode_two q.2.1 rfl (in_dec23 q.2.2.1 ((z _).trans (zeros_ok (by simp only [List.all_cons, List.all_nil, q.2.2.2]; rfl) q.1))) hw
theorem garrive (d : GNum) (idx : BitVec 8) : Statement (.garrive d idx) := fun _ hw =>
  have q := grpX_word .garrive 0xE4000000 d idx ⟨rfl, rfl⟩
  have z : ∀ w, dec24 (fld 0xE4000000 12 4) w = zeros w [(8, 4), (16, 3)] (grpX .garrive w) := fun _ => rfl
  decode_two q.2.1 rfl (in_dec24 q.2.2.1 ((z _).trans (zeros_ok (by simp only [List.all_cons, List.all_nil, q.2.2.2.1, q.2.2.2.2]; rfl) q.1))) hw
theorem gwait (d : GNum) (idx : BitVec 8) : Statement (.gwait d idx) := fun _ hw =>
  have q := grpX_word .gwait 0xE4001000 d idx ⟨rfl, rfl⟩
  have z : ∀ w, dec24 (fld 0xE4001000 12 4) w = zeros w [(8, 4), (16, 3)] (grpX .gwait w) := fun _ => rfl
  decode_two q.2.1 rfl (in_dec24 q.2.2.1 ((z _).trans (zeros_ok (by simp only [List.all_cons, List.all_nil, q.2.2.2.1, q.2.2.2.2]; rfl) q.1))) hw
theorem gwaitT (d : GNum) (e : ENum) (idx : BitVec 8) : Statement (.gwaitT d e idx) := fun _ hw =>
  have q := grpEX_word .gwaitT 0xE4002000 d e idx ⟨rfl, rfl⟩
  have z : ∀ w, dec24 (fld 0xE4002000 12 4) w = zeros w [(8, 4)] (grpEX .gwaitT w) := fun _ => rfl
  decode_two q.2.1 rfl (in_dec24 q.2.2.1 ((z _).trans (zeros_ok (by simp only [List.all_cons, List.all_nil, q.2.2.2]; rfl) q.1))) hw
theorem gsync (d : GNum) (idx : BitVec 8) : Statement (.gsync d idx) := fun _ hw =>
  have q := grpX_word .gsync 0xE4003000 d idx ⟨rfl, rfl⟩
  have z : ∀ w, dec24 (fld 0xE4003000 12 4) w = zeros w [(8, 4), (16, 3)] (grpX .gsync w) := fun _ => rfl
  decode_two q.2.1 rfl (in_dec24 q.2.2.1 ((z _).trans (zeros_ok (by simp only [List.all_cons, List.all_nil, q.2.2.2.1, q.2.2.2.2]; rfl) q.1))) hw
theorem gquery (d : GNum) (idx : BitVec 8) : Statement (.gquery d idx) := fun _ hw =>
  have q := grpX_word .gquery 0xE4004000 d idx ⟨rfl, rfl⟩
  have z : ∀ w, dec24 (fld 0xE4004000 12 4) w = zeros w [(8, 4), (16, 3)] (grpX .gquery w) := fun _ => rfl
  decode_two q.2.1 rfl (in_dec24 q.2.2.1 ((z _).trans (zeros_ok (by simp only [List.all_cons, List.all_nil, q.2.2.2.1, q.2.2.2.2]; rfl) q.1))) hw
theorem calrd (d : GNum) (item : BitVec 10) : Statement (.calrd d item) := fun _ hw =>
  have q := itemX_word .calrd 0xE5000000 d item ⟨rfl, rfl⟩
  have z : ∀ w, decMajor (0xE5000000 / 2 ^ 24) w = zeros w [(10, 9)] (itemX .calrd w) := fun _ => rfl
  decode_two q.2.1 rfl ((z _).trans (zeros_ok (by simp only [List.all_cons, List.all_nil, q.2.2]; rfl) q.1)) hw
theorem srd (d : GNum) (num : BitVec 16) : Statement (.srd d num) := fun _ hw =>
  have q := sprX_word .srd 0xE6000000 d num ⟨rfl, rfl⟩
  decode_two q.2.1 rfl (in_dec26 q.2.2 (congrArg Except.ok q.1)) hw
theorem swr (d : GNum) (num : BitVec 16) : Statement (.swr d num) := fun _ hw =>
  have q := sprX_word .swr 0xE6010000 d num ⟨rfl, rfl⟩
  decode_two q.2.1 rfl (in_dec26 q.2.2 (congrArg Except.ok q.1)) hw
theorem erd (d : GNum) (e : ENum) : Statement (.erd d e) := fun _ hw =>
  have q := extX_word .erd 0xE7000000 d e rfl
  decode_two q.2.1 rfl (in_dec27 q.2.2 (congrArg Except.ok q.1)) hw
theorem ewr (d : GNum) (e : ENum) : Statement (.ewr d e) := fun _ hw =>
  have q := extX_word .ewr 0xE7000001 d e rfl
  decode_two q.2.1 rfl (in_dec27 q.2.2 (congrArg Except.ok q.1)) hw
theorem tset (a : GNum) (b : GNum) (fa : Bool) (fb : Bool) (t : TNum) : Statement (.tset a b fa fb t) := fun _ hw =>
  have q := g2t_word .tset 0xE8000000 a b fa fb t ⟨rfl, rfl⟩
  have z : ∀ w, dec28 (fld 0xE8000000 3 4) w = zeros w [(19, 5)] (g2t .tset w) := fun _ => rfl
  decode_two q.2.1 rfl (in_dec28 q.2.2.1 ((z _).trans (zeros_ok (by simp only [List.all_cons, List.all_nil, q.2.2.2]; rfl) q.1))) hw
theorem tgetW0 (d : GNum) (t : TNum) : Statement (.tgetW0 d t) := fun _ hw =>
  have q := gT_word .tgetW0 0xE8000008 d t ⟨rfl, rfl⟩
  have z : ∀ w, dec28 (fld 0xE8000008 3 4) w = zeros w [(7, 12)] (gT .tgetW0 w) := fun _ => rfl
  decode_two q.2.1 rfl (in_dec28 q.2.2.1 ((z _).trans (zeros_ok (by simp only [List.all_cons, List.all_nil, q.2.2.2]; rfl) q.1))) hw
theorem tgetW1 (d : GNum) (t : TNum) : Statement (.tgetW1 d t) := fun _ hw =>
  have q := gT_word .tgetW1 0xE8000010 d t ⟨rfl, rfl⟩
  have z : ∀ w, dec28 (fld 0xE8000010 3 4) w = zeros w [(7, 12)] (gT .tgetW1 w) := fun _ => rfl
  decode_two q.2.1 rfl (in_dec28 q.2.2.1 ((z _).trans (zeros_ok (by simp only [List.all_cons, List.all_nil, q.2.2.2]; rfl) q.1))) hw
theorem mld (t : TNum) : Statement (.mld t) := fun _ hw =>
  have q := tOnly_word .mld 0xE8000018 t rfl
  have z : ∀ w, dec28 (fld 0xE8000018 3 4) w = zeros w [(7, 17)] (tOnly .mld w) := fun _ => rfl
  decode_two q.2.1 rfl (in_dec28 q.2.2.1 ((z _).trans (zeros_ok (by simp only [List.all_cons, List.all_nil, q.2.2.2]; rfl) q.1))) hw
theorem mldt (t : TNum) : Statement (.mldt t) := fun _ hw =>
  have q := tOnly_word .mldt 0xE8000020 t rfl
  have z : ∀ w, dec28 (fld 0xE8000020 3 4) w = zeros w [(7, 17)] (tOnly .mldt w) := fun _ => rfl
  decode_two q.2.1 rfl (in_dec28 q.2.2.1 ((z _).trans (zeros_ok (by simp only [List.all_cons, List.all_nil, q.2.2.2]; rfl) q.1))) hw
theorem mmeta (a : GNum) (fa : Bool) (t : TNum) : Statement (.mmeta a fa t) := fun _ hw =>
  have q := gAt_word .mmeta 0xE8000028 a fa t ⟨rfl, rfl, rfl⟩
  have z : ∀ w, dec28 (fld 0xE8000028 3 4) w = zeros w [(7, 1), (9, 5), (19, 5)] (gAt .mmeta w) := fun _ => rfl
  decode_two q.2.1 rfl (in_dec28 q.2.2.1 ((z _).trans (zeros_ok (by simp only [List.all_cons, List.all_nil, q.2.2.2.1, q.2.2.2.2.1, q.2.2.2.2.2]; rfl) q.1))) hw
theorem mswap : Statement .mswap := fun _ => decode_two (w := 0xE8000030) rfl rfl rfl
theorem mstream (a : GNum) (fa : Bool) (t : TNum) : Statement (.mstream a fa t) := fun _ hw =>
  have q := gAt_word .mstream 0xE8000038 a fa t ⟨rfl, rfl, rfl⟩
  have z : ∀ w, dec28 (fld 0xE8000038 3 4) w = zeros w [(7, 1), (9, 5), (19, 5)] (gAt .mstream w) := fun _ => rfl
  decode_two q.2.1 rfl (in_dec28 q.2.2.1 ((z _).trans (zeros_ok (by simp only [List.all_cons, List.all_nil, q.2.2.2.1, q.2.2.2.2.1, q.2.2.2.2.2]; rfl) q.1))) hw
theorem mzero (a : GNum) (fa : Bool) : Statement (.mzero a fa) := fun _ hw =>
  have q := gA_word .mzero 0xE8000040 a fa ⟨rfl, rfl⟩
  have z : ∀ w, dec28 (fld 0xE8000040 3 4) w = zeros w [(0, 3), (7, 1), (9, 5), (19, 5)] (gA .mzero w) := fun _ => rfl
  decode_two q.2.1 rfl (in_dec28 q.2.2.2.2.2.2.1 ((z _).trans (zeros_ok (by simp only [List.all_cons, List.all_nil, q.2.2.2.2.2.2.2, q.2.2.2.1, q.2.2.2.2.1, q.2.2.2.2.2.1]; rfl) q.1))) hw
theorem mcvt (a : GNum) (b : GNum) (fa : Bool) (fb : Bool) (t : TNum) : Statement (.mcvt a b fa fb t) := fun _ hw =>
  have q := g2t_word .mcvt 0xE8000048 a b fa fb t ⟨rfl, rfl⟩
  have z : ∀ w, dec28 (fld 0xE8000048 3 4) w = zeros w [(19, 5)] (g2t .mcvt w) := fun _ => rfl
  decode_two q.2.1 rfl (in_dec28 q.2.2.1 ((z _).trans (zeros_ok (by simp only [List.all_cons, List.all_nil, q.2.2.2]; rfl) q.1))) hw
theorem mtask (a : GNum) (fa : Bool) : Statement (.mtask a fa) := fun _ hw =>
  have q := gA_word .mtask 0xE8000050 a fa ⟨rfl, rfl⟩
  have z : ∀ w, dec28 (fld 0xE8000050 3 4) w = zeros w [(0, 3), (7, 1), (9, 5), (19, 5)] (gA .mtask w) := fun _ => rfl
  decode_two q.2.1 rfl (in_dec28 q.2.2.2.2.2.2.1 ((z _).trans (zeros_ok (by simp only [List.all_cons, List.all_nil, q.2.2.2.2.2.2.2, q.2.2.2.1, q.2.2.2.2.1, q.2.2.2.2.2.1]; rfl) q.1))) hw
theorem tret (a : GNum) (fa : Bool) : Statement (.tret a fa) := fun _ hw =>
  have q := gA_word .tret 0xE9000000 a fa ⟨rfl, rfl⟩
  have z : ∀ w, dec29 (fld 0xE9000000 0 7) w = zeros w [(7, 1), (9, 5), (19, 5)] (gA .tret w) := fun _ => rfl
  decode_two q.2.1 rfl (in_dec29 q.2.2.1 ((z _).trans (zeros_ok (by simp only [List.all_cons, List.all_nil, q.2.2.2.1, q.2.2.2.2.1, q.2.2.2.2.2.1]; rfl) q.1))) hw
theorem cstart (d : GNum) (a : GNum) (fa : Bool) : Statement (.cstart d a fa) := fun _ hw =>
  have q := g2_word .cstart 0xE9000001 d a fa ⟨rfl, rfl⟩
  have z : ∀ w, dec29 (fld 0xE9000001 0 7) w = zeros w [(7, 1), (9, 5)] (g2 .cstart w) := fun _ => rfl
  decode_two q.2.1 rfl (in_dec29 q.2.2.1 ((z _).trans (zeros_ok (by simp only [List.all_cons, List.all_nil, q.2.2.2.1, q.2.2.2.2]; rfl) q.1))) hw
theorem cstop (d : GNum) (a : GNum) (fa : Bool) : Statement (.cstop d a fa) := fun _ hw =>
  have q := g2_word .cstop 0xE9000002 d a fa ⟨rfl, rfl⟩
  have z : ∀ w, dec29 (fld 0xE9000002 0 7) w = zeros w [(7, 1), (9, 5)] (g2 .cstop w) := fun _ => rfl
  decode_two q.2.1 rfl (in_dec29 q.2.2.1 ((z _).trans (zeros_ok (by simp only [List.all_cons, List.all_nil, q.2.2.2.1, q.2.2.2.2]; rfl) q.1))) hw
theorem creap (d : GNum) (a : GNum) (b : GNum) (fa : Bool) (fb : Bool) : Statement (.creap d a b fa fb) := fun _ hw =>
  have q := g3_word .creap 0xE9000003 d a b fa fb rfl
  decode_two q.2.1 rfl (in_dec29 q.2.2.1 (congrArg Except.ok q.1)) hw
theorem ctxsv (d : GNum) (a : GNum) (b : GNum) (fa : Bool) (fb : Bool) : Statement (.ctxsv d a b fa fb) := fun _ hw =>
  have q := g3_word .ctxsv 0xE9000004 d a b fa fb rfl
  decode_two q.2.1 rfl (in_dec29 q.2.2.1 (congrArg Except.ok q.1)) hw
theorem ctxld (d : GNum) (a : GNum) (b : GNum) (fa : Bool) (fb : Bool) : Statement (.ctxld d a b fa fb) := fun _ hw =>
  have q := g3_word .ctxld 0xE9000005 d a b fa fb rfl
  decode_two q.2.1 rfl (in_dec29 q.2.2.1 (congrArg Except.ok q.1)) hw
theorem rlarm (d : GNum) (a : GNum) (fa : Bool) : Statement (.rlarm d a fa) := fun _ hw =>
  have q := g2_word .rlarm 0xE9000006 d a fa ⟨rfl, rfl⟩
  have z : ∀ w, dec29 (fld 0xE9000006 0 7) w = zeros w [(7, 1), (9, 5)] (g2 .rlarm w) := fun _ => rfl
  decode_two q.2.1 rfl (in_dec29 q.2.2.1 ((z _).trans (zeros_ok (by simp only [List.all_cons, List.all_nil, q.2.2.2.1, q.2.2.2.2]; rfl) q.1))) hw
theorem prset (d : GNum) (a : GNum) (b : GNum) (fa : Bool) (fb : Bool) : Statement (.prset d a b fa fb) := fun _ hw =>
  have q := g3_word .prset 0xE9000007 d a b fa fb rfl
  decode_two q.2.1 rfl (in_dec29 q.2.2.1 (congrArg Except.ok q.1)) hw
theorem tinv (d : GNum) (a : GNum) (b : GNum) (fa : Bool) (fb : Bool) : Statement (.tinv d a b fa fb) := fun _ hw =>
  have q := g3_word .tinv 0xE9000008 d a b fa fb rfl
  decode_two q.2.1 rfl (in_dec29 q.2.2.1 (congrArg Except.ok q.1)) hw
theorem cflush (d : GNum) (a : GNum) (b : GNum) (fa : Bool) (fb : Bool) : Statement (.cflush d a b fa fb) := fun _ hw =>
  have q := g3_word .cflush 0xE9000009 d a b fa fb rfl
  decode_two q.2.1 rfl (in_dec29 q.2.2.1 (congrArg Except.ok q.1)) hw
theorem cinval (d : GNum) (a : GNum) (b : GNum) (fa : Bool) (fb : Bool) : Statement (.cinval d a b fa fb) := fun _ hw =>
  have q := g3_word .cinval 0xE900000A d a b fa fb rfl
  decode_two q.2.1 rfl (in_dec29 q.2.2.1 (congrArg Except.ok q.1)) hw
theorem polld (d : GNum) (a : GNum) (b : GNum) (fa : Bool) (fb : Bool) : Statement (.polld d a b fa fb) := fun _ hw =>
  have q := g3_word .polld 0xE900000B d a b fa fb rfl
  decode_two q.2.1 rfl (in_dec29 q.2.2.1 (congrArg Except.ok q.1)) hw
theorem polsw (d : GNum) (a : GNum) (fa : Bool) : Statement (.polsw d a fa) := fun _ hw =>
  have q := g2_word .polsw 0xE900000C d a fa ⟨rfl, rfl⟩
  have z : ∀ w, dec29 (fld 0xE900000C 0 7) w = zeros w [(7, 1), (9, 5)] (g2 .polsw w) := fun _ => rfl
  decode_two q.2.1 rfl (in_dec29 q.2.2.1 ((z _).trans (zeros_ok (by simp only [List.all_cons, List.all_nil, q.2.2.2.1, q.2.2.2.2]; rfl) q.1))) hw
theorem vld (d : VNum) (base : GNum) (fa : Bool) (tag : BitVec 4) (k : KNum) (off : BitVec 5) : Statement (.vld d base fa tag k off) := fun _ hw =>
  have q := vmOff_word .vld 0xEA000000 d base fa tag k off rfl
  decode_two q.2 rfl (congrArg Except.ok q.1) hw
theorem vst (s : VNum) (base : GNum) (fa : Bool) (k : KNum) (off : BitVec 5) : Statement (.vst s base fa k off) := fun _ hw =>
  have q := vmStore_word .vst 0xEB000000 s base fa k off ⟨rfl, rfl⟩
  have z : ∀ w, decMajor (0xEB000000 / 2 ^ 24) w = zeros w [(8, 4)] (vmStore .vst w) := fun _ => rfl
  decode_two q.2.1 rfl ((z _).trans (zeros_ok (by simp only [List.all_cons, List.all_nil, q.2.2]; rfl) q.1)) hw
theorem vlds (d : VNum) (base : GNum) (fa : Bool) (tag : BitVec 4) (k : KNum) (s : GNum) : Statement (.vlds d base fa tag k s) := fun _ hw =>
  have q := vmStride_word .vlds 0xEC000000 d base fa tag k s rfl
  decode_two q.2 rfl (congrArg Except.ok q.1) hw
theorem vsts (d : VNum) (base : GNum) (fa : Bool) (tag : BitVec 4) (k : KNum) (s : GNum) : Statement (.vsts d base fa tag k s) := fun _ hw =>
  have q := vmStride_word .vsts 0xED000000 d base fa tag k s rfl
  decode_two q.2 rfl (congrArg Except.ok q.1) hw
theorem vldp (d : VNum) (base : GNum) (fa : Bool) (tag : BitVec 4) (k : KNum) (off : BitVec 5) : Statement (.vldp d base fa tag k off) := fun _ hw =>
  have q := vmOff_word .vldp 0xEE000000 d base fa tag k off rfl
  decode_two q.2 rfl (congrArg Except.ok q.1) hw
theorem vldt (d : VNum) (base : GNum) (fa : Bool) (tag : BitVec 4) (k : KNum) (s : GNum) : Statement (.vldt d base fa tag k s) := fun _ hw =>
  have q := vmStride_word .vldt 0xEF000000 d base fa tag k s rfl
  decode_two q.2 rfl (congrArg Except.ok q.1) hw
theorem vldg (d : VNum) (a : VNum) (tag : BitVec 4) (sc : Fin 4) (k : KNum) (e : ENum) : Statement (.vldg d a tag sc k e) := fun _ hw =>
  have q := vgIdx_word .vldg 0xF0000000 d a tag sc k e rfl
  decode_two q.2 rfl (congrArg Except.ok q.1) hw
theorem vstg (d : VNum) (a : VNum) (tag : BitVec 4) (sc : Fin 4) (k : KNum) (e : ENum) : Statement (.vstg d a tag sc k e) := fun _ hw =>
  have q := vgIdx_word .vstg 0xF1000000 d a tag sc k e rfl
  decode_two q.2 rfl (congrArg Except.ok q.1) hw
theorem vadd (d : VNum) (a : VNum) (b : VNum) (k : KNum) (fa : Bool) (fb : Bool) : Statement (.vadd d a b k fa fb) := fun _ hw =>
  have q := v3_word .vadd 0xF2000000 d a b k fa fb rfl
  decode_two q.2.1 rfl (in_dec32 q.2.2 (congrArg Except.ok q.1)) hw
theorem vsub (d : VNum) (a : VNum) (b : VNum) (k : KNum) (fa : Bool) (fb : Bool) : Statement (.vsub d a b k fa fb) := fun _ hw =>
  have q := v3_word .vsub 0xF2000001 d a b k fa fb rfl
  decode_two q.2.1 rfl (in_dec32 q.2.2 (congrArg Except.ok q.1)) hw
theorem vadds (d : VNum) (a : VNum) (b : VNum) (k : KNum) (fa : Bool) (fb : Bool) : Statement (.vadds d a b k fa fb) := fun _ hw =>
  have q := v3_word .vadds 0xF3000000 d a b k fa fb rfl
  decode_two q.2.1 rfl (in_dec33 q.2.2 (congrArg Except.ok q.1)) hw
theorem vsubs (d : VNum) (a : VNum) (b : VNum) (k : KNum) (fa : Bool) (fb : Bool) : Statement (.vsubs d a b k fa fb) := fun _ hw =>
  have q := v3_word .vsubs 0xF3000001 d a b k fa fb rfl
  decode_two q.2.1 rfl (in_dec33 q.2.2 (congrArg Except.ok q.1)) hw
theorem vmul (d : VNum) (a : VNum) (b : VNum) (k : KNum) (fa : Bool) (fb : Bool) : Statement (.vmul d a b k fa fb) := fun _ hw =>
  have q := v3_word .vmul 0xF4000000 d a b k fa fb rfl
  decode_two q.2.1 rfl (in_dec34 q.2.2 (congrArg Except.ok q.1)) hw
theorem vmulh (d : VNum) (a : VNum) (b : VNum) (k : KNum) (fa : Bool) (fb : Bool) : Statement (.vmulh d a b k fa fb) := fun _ hw =>
  have q := v3_word .vmulh 0xF4000001 d a b k fa fb rfl
  decode_two q.2.1 rfl (in_dec34 q.2.2 (congrArg Except.ok q.1)) hw
theorem vfma (d : VNum) (a : VNum) (b : VNum) (k : KNum) (fa : Bool) (fb : Bool) : Statement (.vfma d a b k fa fb) := fun _ hw =>
  have q := v3_word .vfma 0xF5000000 d a b k fa fb rfl
  decode_two q.2.1 rfl (in_dec35 q.2.2 (congrArg Except.ok q.1)) hw
theorem vfms (d : VNum) (a : VNum) (b : VNum) (k : KNum) (fa : Bool) (fb : Bool) : Statement (.vfms d a b k fa fb) := fun _ hw =>
  have q := v3_word .vfms 0xF5000001 d a b k fa fb rfl
  decode_two q.2.1 rfl (in_dec35 q.2.2 (congrArg Except.ok q.1)) hw
theorem vmin (d : VNum) (a : VNum) (b : VNum) (k : KNum) (fa : Bool) (fb : Bool) : Statement (.vmin d a b k fa fb) := fun _ hw =>
  have q := v3_word .vmin 0xF6000000 d a b k fa fb rfl
  decode_two q.2.1 rfl (in_dec36 q.2.2 (congrArg Except.ok q.1)) hw
theorem vmax (d : VNum) (a : VNum) (b : VNum) (k : KNum) (fa : Bool) (fb : Bool) : Statement (.vmax d a b k fa fb) := fun _ hw =>
  have q := v3_word .vmax 0xF6000001 d a b k fa fb rfl
  decode_two q.2.1 rfl (in_dec36 q.2.2 (congrArg Except.ok q.1)) hw
theorem vand (d : VNum) (a : VNum) (b : VNum) (k : KNum) (fa : Bool) (fb : Bool) : Statement (.vand d a b k fa fb) := fun _ hw =>
  have q := v3_word .vand 0xF7000000 d a b k fa fb rfl
  decode_two q.2.1 rfl (in_dec37 q.2.2 (congrArg Except.ok q.1)) hw
theorem vor (d : VNum) (a : VNum) (b : VNum) (k : KNum) (fa : Bool) (fb : Bool) : Statement (.vor d a b k fa fb) := fun _ hw =>
  have q := v3_word .vor 0xF7000001 d a b k fa fb rfl
  decode_two q.2.1 rfl (in_dec37 q.2.2 (congrArg Except.ok q.1)) hw
theorem vxor (d : VNum) (a : VNum) (b : VNum) (k : KNum) (fa : Bool) (fb : Bool) : Statement (.vxor d a b k fa fb) := fun _ hw =>
  have q := v3_word .vxor 0xF8000000 d a b k fa fb rfl
  decode_two q.2.1 rfl (in_dec38 q.2.2 (congrArg Except.ok q.1)) hw
theorem vandn (d : VNum) (a : VNum) (b : VNum) (k : KNum) (fa : Bool) (fb : Bool) : Statement (.vandn d a b k fa fb) := fun _ hw =>
  have q := v3_word .vandn 0xF8000001 d a b k fa fb rfl
  decode_two q.2.1 rfl (in_dec38 q.2.2 (congrArg Except.ok q.1)) hw
theorem vsll (d : VNum) (a : VNum) (b : VNum) (k : KNum) (fa : Bool) (fb : Bool) : Statement (.vsll d a b k fa fb) := fun _ hw =>
  have q := v3_word .vsll 0xF9000000 d a b k fa fb rfl
  decode_two q.2.1 rfl (in_dec39 q.2.2 (congrArg Except.ok q.1)) hw
theorem vsrl (d : VNum) (a : VNum) (b : VNum) (k : KNum) (fa : Bool) (fb : Bool) : Statement (.vsrl d a b k fa fb) := fun _ hw =>
  have q := v3_word .vsrl 0xF9000001 d a b k fa fb rfl
  decode_two q.2.1 rfl (in_dec39 q.2.2 (congrArg Except.ok q.1)) hw
theorem vsra (d : VNum) (a : VNum) (b : VNum) (k : KNum) (fa : Bool) (fb : Bool) : Statement (.vsra d a b k fa fb) := fun _ hw =>
  have q := v3_word .vsra 0xFA000000 d a b k fa fb rfl
  decode_two q.2.1 rfl (in_dec3A q.2.2 (congrArg Except.ok q.1)) hw
theorem vrol (d : VNum) (a : VNum) (b : VNum) (k : KNum) (fa : Bool) (fb : Bool) : Statement (.vrol d a b k fa fb) := fun _ hw =>
  have q := v3_word .vrol 0xFA000001 d a b k fa fb rfl
  decode_two q.2.1 rfl (in_dec3A q.2.2 (congrArg Except.ok q.1)) hw
theorem vcmp (cond : Fin 8) (kd : KNum) (a : VNum) (b : VNum) (k : KNum) (fa : Bool) (fb : Bool) : Statement (.vcmp cond kd a b k fa fb) := fun _ hw =>
  have q := vCond_word .vcmp 0xFB000000 cond kd a b k fa fb rfl
  decode_two q.2.1 rfl (in_dec3B q.2.2 (congrArg Except.ok q.1)) hw
theorem vcmpa (cond : Fin 8) (kd : KNum) (a : VNum) (b : VNum) (k : KNum) (fa : Bool) (fb : Bool) : Statement (.vcmpa cond kd a b k fa fb) := fun _ hw =>
  have q := vCond_word .vcmpa 0xFB000001 cond kd a b k fa fb rfl
  decode_two q.2.1 rfl (in_dec3B q.2.2 (congrArg Except.ok q.1)) hw
theorem vcvt (d : VNum) (a : VNum) (dtag : BitVec 5) (rnd : BitVec 3) (k : KNum) (fa : Bool) : Statement (.vcvt d a dtag rnd k fa) := fun _ hw =>
  have q := vCvt_word .vcvt 0xFC000000 d a dtag rnd k fa rfl
  decode_two q.2 rfl (congrArg Except.ok q.1) hw
theorem vabs (d : VNum) (a : VNum) (k : KNum) (fa : Bool) : Statement (.vabs d a k fa) := fun _ hw =>
  have q := v2_word .vabs 0xFD000000 d a k fa ⟨rfl, rfl⟩
  decode_two q.2.1 rfl (in_decTagForms (op := fld 0xFD000000 6 1 * 4 + fld 0xFD000000 0 2) q.2.2.1 (by rw [q.2.2.2.1, q.2.2.2.2]) (congrArg Except.ok q.1)) hw
theorem vneg (d : VNum) (a : VNum) (k : KNum) (fa : Bool) : Statement (.vneg d a k fa) := fun _ hw =>
  have q := v2_word .vneg 0xFD000001 d a k fa ⟨rfl, rfl⟩
  decode_two q.2.1 rfl (in_decTagForms (op := fld 0xFD000001 6 1 * 4 + fld 0xFD000001 0 2) q.2.2.1 (by rw [q.2.2.2.1, q.2.2.2.2]) (congrArg Except.ok q.1)) hw
theorem vnot (d : VNum) (a : VNum) (k : KNum) (fa : Bool) : Statement (.vnot d a k fa) := fun _ hw =>
  have q := v2_word .vnot 0xFD000002 d a k fa ⟨rfl, rfl⟩
  decode_two q.2.1 rfl (in_decTagForms (op := fld 0xFD000002 6 1 * 4 + fld 0xFD000002 0 2) q.2.2.1 (by rw [q.2.2.2.1, q.2.2.2.2]) (congrArg Except.ok q.1)) hw
theorem vclz (d : VNum) (a : VNum) (k : KNum) (fa : Bool) : Statement (.vclz d a k fa) := fun _ hw =>
  have q := v2_word .vclz 0xFD000003 d a k fa ⟨rfl, rfl⟩
  decode_two q.2.1 rfl (in_decTagForms (op := fld 0xFD000003 6 1 * 4 + fld 0xFD000003 0 2) q.2.2.1 (by rw [q.2.2.2.1, q.2.2.2.2]) (congrArg Except.ok q.1)) hw
theorem vpopc (d : VNum) (a : VNum) (k : KNum) (fa : Bool) : Statement (.vpopc d a k fa) := fun _ hw =>
  have q := v2_word .vpopc 0xFD000040 d a k fa ⟨rfl, rfl⟩
  decode_two q.2.1 rfl (in_decTagForms (op := fld 0xFD000040 6 1 * 4 + fld 0xFD000040 0 2) q.2.2.1 (by rw [q.2.2.2.1, q.2.2.2.2]) (congrArg Except.ok q.1)) hw
theorem vrcp (d : VNum) (a : VNum) (k : KNum) (fa : Bool) : Statement (.vrcp d a k fa) := fun _ hw =>
  have q := v2_word .vrcp 0xFD000080 d a k fa ⟨rfl, rfl⟩
  decode_two q.2.1 rfl (in_decTagForms (op := fld 0xFD000080 6 1 * 4 + fld 0xFD000080 0 2) q.2.2.1 (by rw [q.2.2.2.1, q.2.2.2.2]) (congrArg Except.ok q.1)) hw
theorem vrsq (d : VNum) (a : VNum) (k : KNum) (fa : Bool) : Statement (.vrsq d a k fa) := fun _ hw =>
  have q := v2_word .vrsq 0xFD000081 d a k fa ⟨rfl, rfl⟩
  decode_two q.2.1 rfl (in_decTagForms (op := fld 0xFD000081 6 1 * 4 + fld 0xFD000081 0 2) q.2.2.1 (by rw [q.2.2.2.1, q.2.2.2.2]) (congrArg Except.ok q.1)) hw
theorem vexp2 (d : VNum) (a : VNum) (k : KNum) (fa : Bool) : Statement (.vexp2 d a k fa) := fun _ hw =>
  have q := v2_word .vexp2 0xFD000082 d a k fa ⟨rfl, rfl⟩
  decode_two q.2.1 rfl (in_decTagForms (op := fld 0xFD000082 6 1 * 4 + fld 0xFD000082 0 2) q.2.2.1 (by rw [q.2.2.2.1, q.2.2.2.2]) (congrArg Except.ok q.1)) hw
theorem vlog2 (d : VNum) (a : VNum) (k : KNum) (fa : Bool) : Statement (.vlog2 d a k fa) := fun _ hw =>
  have q := v2_word .vlog2 0xFD000083 d a k fa ⟨rfl, rfl⟩
  decode_two q.2.1 rfl (in_decTagForms (op := fld 0xFD000083 6 1 * 4 + fld 0xFD000083 0 2) q.2.2.1 (by rw [q.2.2.2.1, q.2.2.2.2]) (congrArg Except.ok q.1)) hw
theorem vrtrec (d : VNum) (a : VNum) (k : KNum) (fa : Bool) : Statement (.vrtrec d a k fa) := fun _ hw =>
  have q := v2_word .vrtrec 0xFD0000C0 d a k fa ⟨rfl, rfl⟩
  decode_two q.2.1 rfl (in_decTagForms (op := fld 0xFD0000C0 6 1 * 4 + fld 0xFD0000C0 0 2) q.2.2.1 (by rw [q.2.2.2.1, q.2.2.2.2]) (congrArg Except.ok q.1)) hw
theorem vsqrt (d : VNum) (a : VNum) (rnd : BitVec 3) (k : KNum) (fa : Bool) : Statement (.vsqrt d a rnd k fa) := fun _ hw =>
  have q := v2Rnd_word .vsqrt 0xFD000100 d a rnd k fa ⟨rfl, rfl⟩
  decode_two q.2.1 rfl (in_decTagForms q.2.2 rfl (congrArg Except.ok q.1)) hw
theorem vrsum (d : VNum) (a : VNum) (rnd : BitVec 3) (k : KNum) (fa : Bool) : Statement (.vrsum d a rnd k fa) := fun _ hw =>
  have q := v2Rnd_word .vrsum 0xFD000400 d a rnd k fa ⟨rfl, rfl⟩
  decode_two q.2.1 rfl (in_decTagForms q.2.2 rfl (congrArg Except.ok q.1)) hw
theorem vrmax (d : VNum) (a : VNum) (k : KNum) (fa : Bool) : Statement (.vrmax d a k fa) := fun _ hw =>
  have q := v2_word .vrmax 0xFD000480 d a k fa ⟨rfl, rfl⟩
  decode_two q.2.1 rfl (in_decTagForms (op := fld 0xFD000480 6 1 * 4 + fld 0xFD000480 0 2) q.2.2.1 (by rw [q.2.2.2.1, q.2.2.2.2]) (congrArg Except.ok q.1)) hw
theorem vrmin (d : VNum) (a : VNum) (k : KNum) (fa : Bool) : Statement (.vrmin d a k fa) := fun _ hw =>
  have q := v2_word .vrmin 0xFD000500 d a k fa ⟨rfl, rfl⟩
  decode_two q.2.1 rfl (in_decTagForms (op := fld 0xFD000500 6 1 * 4 + fld 0xFD000500 0 2) q.2.2.1 (by rw [q.2.2.2.1, q.2.2.2.2]) (congrArg Except.ok q.1)) hw
theorem vrand (d : VNum) (a : VNum) (k : KNum) (fa : Bool) : Statement (.vrand d a k fa) := fun _ hw =>
  have q := v2_word .vrand 0xFD000580 d a k fa ⟨rfl, rfl⟩
  decode_two q.2.1 rfl (in_decTagForms (op := fld 0xFD000580 6 1 * 4 + fld 0xFD000580 0 2) q.2.2.1 (by rw [q.2.2.2.1, q.2.2.2.2]) (congrArg Except.ok q.1)) hw
theorem vrior (d : VNum) (a : VNum) (k : KNum) (fa : Bool) : Statement (.vrior d a k fa) := fun _ hw =>
  have q := v2_word .vrior 0xFD000600 d a k fa ⟨rfl, rfl⟩
  decode_two q.2.1 rfl (in_decTagForms (op := fld 0xFD000600 6 1 * 4 + fld 0xFD000600 0 2) q.2.2.1 (by rw [q.2.2.2.1, q.2.2.2.2]) (congrArg Except.ok q.1)) hw
theorem vrxor (d : VNum) (a : VNum) (k : KNum) (fa : Bool) : Statement (.vrxor d a k fa) := fun _ hw =>
  have q := v2_word .vrxor 0xFD000680 d a k fa ⟨rfl, rfl⟩
  decode_two q.2.1 rfl (in_decTagForms (op := fld 0xFD000680 6 1 * 4 + fld 0xFD000680 0 2) q.2.2.1 (by rw [q.2.2.2.1, q.2.2.2.2]) (congrArg Except.ok q.1)) hw
theorem vtagw (d : VNum) (a : VNum) (tag : BitVec 5) (fa : Bool) : Statement (.vtagw d a tag fa) := by
  intro _ hw
  have q := vTagB_word .vtagw 0xFD000800 d a tag fa ⟨rfl, rfl, rfl⟩
  have b0 := d.isLt
  have b1 := a.isLt
  have b2 := tag.isLt
  have b3 := Bool.toNat_lt fa
  have h : fld (vTagBW 0xFD000800 d a tag fa) 7 5 = 16 ∨ fld (vTagBW 0xFD000800 d a tag fa) 7 5 = 17 ∨ fld (vTagBW 0xFD000800 d a tag fa) 7 5 = 18 ∨ fld (vTagBW 0xFD000800 d a tag fa) 7 5 = 19 := by
    have s1 : tag.toNat / 4 < 8 := by omega
    have s2 : tag.toNat % 4 < 4 := by omega
    simp only [fld, vTagBW]; generalize tag.toNat / 4 = hi at *; generalize tag.toNat % 4 = lo at *; omega
  have z : ∀ op w, decTagForms 16 op w = zeros w [(3, 3)] (vTagB .vtagw w) ∧ decTagForms 17 op w = zeros w [(3, 3)] (vTagB .vtagw w) ∧ decTagForms 18 op w = zeros w [(3, 3)] (vTagB .vtagw w) ∧ decTagForms 19 op w = zeros w [(3, 3)] (vTagB .vtagw w) := fun _ _ => ⟨rfl, rfl, rfl, rfl⟩
  refine decode_two q.2.1 rfl ?_ hw
  rcases h with h | h | h | h
  · exact in_decTagForms h rfl ((z _ _).1.trans (zeros_ok (by simp only [List.all_cons, List.all_nil, q.2.2]; rfl) q.1))
  · exact in_decTagForms h rfl ((z _ _).2.1.trans (zeros_ok (by simp only [List.all_cons, List.all_nil, q.2.2]; rfl) q.1))
  · exact in_decTagForms h rfl ((z _ _).2.2.1.trans (zeros_ok (by simp only [List.all_cons, List.all_nil, q.2.2]; rfl) q.1))
  · exact in_decTagForms h rfl ((z _ _).2.2.2.trans (zeros_ok (by simp only [List.all_cons, List.all_nil, q.2.2]; rfl) q.1))
theorem vtag (d : GNum) (a : VNum) (fa : Bool) : Statement (.vtag d a fa) := fun _ hw =>
  have q := gV_word .vtag 0xFD000A00 d a fa ⟨rfl, rfl⟩
  have z : ∀ w, decTagForms (fld 0xFD000A00 7 5) (fld 0xFD000A00 6 1 * 4 + fld 0xFD000A00 0 2) w = zeros w [(3, 3), (23, 1)] (gV .vtag w) := fun _ => rfl
  decode_two q.2.1 rfl (in_decTagForms (op := fld 0xFD000A00 6 1 * 4 + fld 0xFD000A00 0 2) q.2.2.1 (by rw [q.2.2.2.1, q.2.2.2.2.1]) ((z _).trans (zeros_ok (by simp only [List.all_cons, List.all_nil, q.2.2.2.2.2.1, q.2.2.2.2.2.2]; rfl) q.1))) hw
theorem vbcast (d : VNum) (a : GNum) (tag : BitVec 5) (k : KNum) (fa : Bool) : Statement (.vbcast d a tag k fa) := by
  intro _ hw
  have q := vBcast_word .vbcast 0xFD000C00 d a tag k fa ⟨rfl, rfl, rfl⟩
  have b0 := d.isLt
  have b1 := a.isLt
  have b2 := tag.isLt
  have b3 := k.isLt
  have b4 := Bool.toNat_lt fa
  have h : fld (vBcastW 0xFD000C00 d a tag k fa) 7 5 = 24 ∨ fld (vBcastW 0xFD000C00 d a tag k fa) 7 5 = 25 ∨ fld (vBcastW 0xFD000C00 d a tag k fa) 7 5 = 26 ∨ fld (vBcastW 0xFD000C00 d a tag k fa) 7 5 = 27 := by
    have s1 : tag.toNat / 4 < 8 := by omega
    have s2 : tag.toNat % 4 < 4 := by omega
    simp only [fld, vBcastW]; generalize tag.toNat / 4 = hi at *; generalize tag.toNat % 4 = lo at *; omega
  have z : ∀ op w, decTagForms 24 op w = zeros w [(17, 1)] (vBcast .vbcast w) ∧ decTagForms 25 op w = zeros w [(17, 1)] (vBcast .vbcast w) ∧ decTagForms 26 op w = zeros w [(17, 1)] (vBcast .vbcast w) ∧ decTagForms 27 op w = zeros w [(17, 1)] (vBcast .vbcast w) := fun _ _ => ⟨rfl, rfl, rfl, rfl⟩
  refine decode_two q.2.1 rfl ?_ hw
  rcases h with h | h | h | h
  · exact in_decTagForms h rfl ((z _ _).1.trans (zeros_ok (by simp only [List.all_cons, List.all_nil, q.2.2]; rfl) q.1))
  · exact in_decTagForms h rfl ((z _ _).2.1.trans (zeros_ok (by simp only [List.all_cons, List.all_nil, q.2.2]; rfl) q.1))
  · exact in_decTagForms h rfl ((z _ _).2.2.1.trans (zeros_ok (by simp only [List.all_cons, List.all_nil, q.2.2]; rfl) q.1))
  · exact in_decTagForms h rfl ((z _ _).2.2.2.trans (zeros_ok (by simp only [List.all_cons, List.all_nil, q.2.2]; rfl) q.1))
theorem vmovg (d : GNum) (a : VNum) (fa : Bool) : Statement (.vmovg d a fa) := fun _ hw =>
  have q := gV_word .vmovg 0xFD000E00 d a fa ⟨rfl, rfl⟩
  have z : ∀ w, decTagForms (fld 0xFD000E00 7 5) (fld 0xFD000E00 6 1 * 4 + fld 0xFD000E00 0 2) w = zeros w [(3, 3), (23, 1)] (gV .vmovg w) := fun _ => rfl
  decode_two q.2.1 rfl (in_decTagForms (op := fld 0xFD000E00 6 1 * 4 + fld 0xFD000E00 0 2) q.2.2.1 (by rw [q.2.2.2.1, q.2.2.2.2.1]) ((z _).trans (zeros_ok (by simp only [List.all_cons, List.all_nil, q.2.2.2.2.2.1, q.2.2.2.2.2.2]; rfl) q.1))) hw
theorem vsldu (d : VNum) (a : VNum) (amt : BitVec 6) (k : KNum) (fa : Bool) : Statement (.vsldu d a amt k fa) := fun _ hw =>
  have q := vSlide_word .vsldu 0xFE000000 d a amt k fa ⟨rfl, rfl⟩
  decode_two q.2.1 rfl (in_dec3E q.2.2 (congrArg Except.ok q.1)) hw
theorem vsldd (d : VNum) (a : VNum) (amt : BitVec 6) (k : KNum) (fa : Bool) : Statement (.vsldd d a amt k fa) := fun _ hw =>
  have q := vSlide_word .vsldd 0xFE000400 d a amt k fa ⟨rfl, rfl⟩
  decode_two q.2.1 rfl (in_dec3E q.2.2 (congrArg Except.ok q.1)) hw
theorem vlrot (d : VNum) (a : VNum) (amt : BitVec 6) (k : KNum) (fa : Bool) : Statement (.vlrot d a amt k fa) := fun _ hw =>
  have q := vSlide_word .vlrot 0xFE000800 d a amt k fa ⟨rfl, rfl⟩
  decode_two q.2.1 rfl (in_dec3E q.2.2 (congrArg Except.ok q.1)) hw
theorem cMov (d : GNum) (a : GNum) : Statement (.cMov d a) := fun _ hw =>
  have q := c1_word .cMov 0x0400 d a rfl
  decode_one q.2.1 rfl (in_decC1 q.2.2 (congrArg Except.ok q.1)) hw
theorem cAdd (d : GNum) (a : GNum) : Statement (.cAdd d a) := fun _ hw =>
  have q := c1_word .cAdd 0x0800 d a rfl
  decode_one q.2.1 rfl (in_decC1 q.2.2 (congrArg Except.ok q.1)) hw
theorem cSub (d : GNum) (a : GNum) : Statement (.cSub d a) := fun _ hw =>
  have q := c1_word .cSub 0x0C00 d a rfl
  decode_one q.2.1 rfl (in_decC1 q.2.2 (congrArg Except.ok q.1)) hw
theorem cAnd (d : GNum) (a : GNum) : Statement (.cAnd d a) := fun _ hw =>
  have q := c1_word .cAnd 0x1000 d a rfl
  decode_one q.2.1 rfl (in_decC1 q.2.2 (congrArg Except.ok q.1)) hw
theorem cOr (d : GNum) (a : GNum) : Statement (.cOr d a) := fun _ hw =>
  have q := c1_word .cOr 0x1400 d a rfl
  decode_one q.2.1 rfl (in_decC1 q.2.2 (congrArg Except.ok q.1)) hw
theorem cXor (d : GNum) (a : GNum) : Statement (.cXor d a) := fun _ hw =>
  have q := c1_word .cXor 0x1800 d a rfl
  decode_one q.2.1 rfl (in_decC1 q.2.2 (congrArg Except.ok q.1)) hw
theorem cSll (d : GNum) (a : GNum) : Statement (.cSll d a) := fun _ hw =>
  have q := c1_word .cSll 0x1C00 d a rfl
  decode_one q.2.1 rfl (in_decC1 q.2.2 (congrArg Except.ok q.1)) hw
theorem cSrl (d : GNum) (a : GNum) : Statement (.cSrl d a) := fun _ hw =>
  have q := c1_word .cSrl 0x2000 d a rfl
  decode_one q.2.1 rfl (in_decC1 q.2.2 (congrArg Except.ok q.1)) hw
theorem cSra (d : GNum) (a : GNum) : Statement (.cSra d a) := fun _ hw =>
  have q := c1_word .cSra 0x2400 d a rfl
  decode_one q.2.1 rfl (in_decC1 q.2.2 (congrArg Except.ok q.1)) hw
theorem cLd (d : GNum) (a : GNum) : Statement (.cLd d a) := fun _ hw =>
  have q := c1_word .cLd 0x2800 d a rfl
  decode_one q.2.1 rfl (in_decC1 q.2.2 (congrArg Except.ok q.1)) hw
theorem cSt (d : GNum) (a : GNum) : Statement (.cSt d a) := fun _ hw =>
  have q := c1_word .cSt 0x2C00 d a rfl
  decode_one q.2.1 rfl (in_decC1 q.2.2 (congrArg Except.ok q.1)) hw
theorem cJr (a : GNum) : Statement (.cJr a) := fun _ hw =>
  have q := c1A_word .cJr 0x3000 a rfl
  have z : ∀ w, decC1 (fld 0x3000 10 4) w = zeros w [(5, 5)] (c1A .cJr w) := fun _ => rfl
  decode_one q.2.1 rfl (in_decC1 q.2.2.1 ((z _).trans (zeros_ok (by simp only [List.all_cons, List.all_nil, q.2.2.2]; rfl) q.1))) hw
theorem cCallr (d : GNum) (a : GNum) : Statement (.cCallr d a) := fun _ hw =>
  have q := c1_word .cCallr 0x3400 d a rfl
  decode_one q.2.1 rfl (in_decC1 q.2.2 (congrArg Except.ok q.1)) hw
theorem cLdfe (d : GNum) (a : GNum) : Statement (.cLdfe d a) := fun _ hw =>
  have q := c1_word .cLdfe 0x3800 d a rfl
  decode_one q.2.1 rfl (in_decC1 q.2.2 (congrArg Except.ok q.1)) hw
theorem cStfe (d : GNum) (a : GNum) : Statement (.cStfe d a) := fun _ hw =>
  have q := c1_word .cStfe 0x3C00 d a rfl
  decode_one q.2.1 rfl (in_decC1 q.2.2 (congrArg Except.ok q.1)) hw
theorem cAddi (d : GNum) (imm : BitVec 6) : Statement (.cAddi d imm) := fun _ hw =>
  have q := c2_word .cAddi 0x4000 d imm rfl
  decode_one q.2.1 rfl (in_decC2 q.2.2 (congrArg Except.ok q.1)) hw
theorem cLi (d : GNum) (imm : BitVec 6) : Statement (.cLi d imm) := fun _ hw =>
  have q := c2_word .cLi 0x4800 d imm rfl
  decode_one q.2.1 rfl (in_decC2 q.2.2 (congrArg Except.ok q.1)) hw
theorem cSlli (d : GNum) (imm : BitVec 6) : Statement (.cSlli d imm) := fun _ hw =>
  have q := c2_word .cSlli 0x5000 d imm rfl
  decode_one q.2.1 rfl (in_decC2 q.2.2 (congrArg Except.ok q.1)) hw
theorem cSrli (d : GNum) (imm : BitVec 6) : Statement (.cSrli d imm) := fun _ hw =>
  have q := c2_word .cSrli 0x5800 d imm rfl
  decode_one q.2.1 rfl (in_decC2 q.2.2 (congrArg Except.ok q.1)) hw
theorem cSrai (d : GNum) (imm : BitVec 6) : Statement (.cSrai d imm) := fun _ hw =>
  have q := c2_word .cSrai 0x6000 d imm rfl
  decode_one q.2.1 rfl (in_decC2 q.2.2 (congrArg Except.ok q.1)) hw
theorem cBz (d : GNum) (imm : BitVec 6) : Statement (.cBz d imm) := fun _ hw =>
  have q := c2_word .cBz 0x6800 d imm rfl
  decode_one q.2.1 rfl (in_decC2 q.2.2 (congrArg Except.ok q.1)) hw
theorem cBnz (d : GNum) (imm : BitVec 6) : Statement (.cBnz d imm) := fun _ hw =>
  have q := c2_word .cBnz 0x7000 d imm rfl
  decode_one q.2.1 rfl (in_decC2 q.2.2 (congrArg Except.ok q.1)) hw
theorem nop : Statement .nop := fun _ => decode_one (w := 0x8000) rfl rfl rfl
theorem cJ (imm : BitVec 10) : Statement (.cJ imm) := fun _ hw =>
  have q := c3_word .cJ 0x8400 imm rfl
  decode_one q.2.1 rfl (in_decC3 q.2.2 (congrArg Except.ok q.1)) hw
theorem cYield : Statement .cYield := fun _ => decode_one (w := 0x8800) rfl rfl rfl
theorem cPark : Statement .cPark := fun _ => decode_one (w := 0x8C00) rfl rfl rfl
theorem cExit : Statement .cExit := fun _ => decode_one (w := 0x9000) rfl rfl rfl
theorem brk (imm : BitVec 10) : Statement (.brk imm) := fun _ hw =>
  have q := c3_word .brk 0x9400 imm rfl
  decode_one q.2.1 rfl (in_decC3 q.2.2 (congrArg Except.ok q.1)) hw
theorem svc (imm : BitVec 10) : Statement (.svc imm) := fun _ hw =>
  have q := c3_word .svc 0x9800 imm rfl
  decode_one q.2.1 rfl (in_decC3 q.2.2 (congrArg Except.ok q.1)) hw
theorem cPfence : Statement .cPfence := fun _ => decode_one (w := 0x9C00) rfl rfl rfl
theorem rep (cnt : BitVec 6) (sd : Bool) (sa : Bool) (sb : Bool) (st : Bool) : Statement (.rep cnt sd sa sb st) := fun _ hw =>
  have q := repP_word .rep 0xBC00 cnt sd sa sb st rfl
  decode_one q.2.1 rfl (in_decC3 q.2.2 (congrArg Except.ok q.1)) hw
theorem notProgram {i : Instr} (h : i.isProgram = false) : Statement i := fun k => absurd (h.symm.trans k) Bool.false_ne_true
theorem coldReset : Statement .coldReset := notProgram rfl
theorem functionLevelReset : Statement .functionLevelReset := notProgram rfl
theorem hostActiveMessage (x0 : Fin 17) (x1 : HostMsg) : Statement (.hostActiveMessage x0 x1) := notProgram rfl
theorem amsgArrival (x0 : AMsg) : Statement (.amsgArrival x0) := notProgram rfl
theorem amsgReoffer (x0 : ClusterId) (x1 : Bool) : Statement (.amsgReoffer x0 x1) := notProgram rfl
theorem holdWindowEnd (x0 : CtxId) : Statement (.holdWindowEnd x0) := notProgram rfl
theorem suspension (x0 : CtxId) : Statement (.suspension x0) := notProgram rfl
theorem dispatchDecision (x0 : CtxId) : Statement (.dispatchDecision x0) := notProgram rfl
theorem dispatchReoffer (x0 : CtxId) : Statement (.dispatchReoffer x0) := notProgram rfl
theorem preemptDecision (x0 : Nat) : Statement (.preemptDecision x0) := notProgram rfl
theorem faultDecision (x0 : CtxId) : Statement (.faultDecision x0) := notProgram rfl
theorem policySwap : Statement .policySwap := notProgram rfl
theorem handlerEntry (x0 : Fin 4) : Statement (.handlerEntry x0) := notProgram rfl
theorem fatalFault (x0 : CtxId) (x1 : TrapRec) (x2 : Bool) : Statement (.fatalFault x0 x1 x2) := notProgram rfl
theorem twinRestart (x0 : CtxId) : Statement (.twinRestart x0) := notProgram rfl
theorem feWaiterOffer (x0 : Nat) : Statement (.feWaiterOffer x0) := notProgram rfl
theorem watchRegistration (x0 : WatchReq) : Statement (.watchRegistration x0) := notProgram rfl
theorem watchFireReceipt (x0 : Nat) (x1 : Word) (x2 : Nat) (x3 : Option Nat) : Statement (.watchFireReceipt x0 x1 x2 x3) := notProgram rfl
theorem watchExpiry (x0 : ClusterId) (x1 : Nat) : Statement (.watchExpiry x0 x1) := notProgram rfl
theorem watchExpiredReceipt (x0 : Nat) : Statement (.watchExpiredReceipt x0) := notProgram rfl
theorem watchRefusedReceipt (x0 : Nat) : Statement (.watchRefusedReceipt x0) := notProgram rfl
theorem watchStatusReceipt (x0 : Nat) (x1 : BitVec 4) : Statement (.watchStatusReceipt x0 x1) := notProgram rfl
theorem watchWithdrawal (x0 : ClusterId) (x1 : Nat) : Statement (.watchWithdrawal x0 x1) := notProgram rfl
theorem roundWatchRetry (x0 : Nat) : Statement (.roundWatchRetry x0) := notProgram rfl
theorem roundComplete (x0 : Nat) (x1 : Nat) : Statement (.roundComplete x0 x1) := notProgram rfl
theorem gwaitLimitExpiry (x0 : CtxId) : Statement (.gwaitLimitExpiry x0) := notProgram rfl
theorem groupBrokenNotice (x0 : ClusterId) : Statement (.groupBrokenNotice x0) := notProgram rfl
theorem remoteRequest (x0 : ReadReq) : Statement (.remoteRequest x0) := notProgram rfl
theorem remoteDataReply (x0 : Nat) (x1 : List Byte) (x2 : Nat) (x3 : Nat) (x4 : Option Nat) : Statement (.remoteDataReply x0 x1 x2 x3 x4) := notProgram rfl
theorem remoteStatusReply (x0 : Nat) (x1 : BitVec 4) : Statement (.remoteStatusReply x0 x1) := notProgram rfl
theorem deferredReply (x0 : Nat) : Statement (.deferredReply x0) := notProgram rfl
theorem deferredResend (x0 : Nat) : Statement (.deferredResend x0) := notProgram rfl
theorem deferLimitExpiry (x0 : Nat) : Statement (.deferLimitExpiry x0) := notProgram rfl
theorem copyRequestSend (x0 : Nat) : Statement (.copyRequestSend x0) := notProgram rfl
theorem pullDataReply (x0 : Nat) (x1 : List Byte) (x2 : Nat) : Statement (.pullDataReply x0 x1 x2) := notProgram rfl
theorem copyOpCompletion (x0 : Nat) : Statement (.copyOpCompletion x0) := notProgram rfl
theorem directEntryStart : Statement .directEntryStart := notProgram rfl
theorem planeLoadCompletion : Statement .planeLoadCompletion := notProgram rfl
theorem passCompletion : Statement .passCompletion := notProgram rfl
theorem residueRestream (x0 : Nat) : Statement (.residueRestream x0) := notProgram rfl
theorem mcvtCompletion : Statement .mcvtCompletion := notProgram rfl
theorem mzeroCompletion : Statement .mzeroCompletion := notProgram rfl
theorem taskVisible (x0 : Nat) : Statement (.taskVisible x0) := notProgram rfl
theorem taskLaunch : Statement .taskLaunch := notProgram rfl
theorem taskCompletion (x0 : Nat) : Statement (.taskCompletion x0) := notProgram rfl
theorem recallStart (x0 : Nat) : Statement (.recallStart x0) := notProgram rfl
theorem pendingRecallStart : Statement .pendingRecallStart := notProgram rfl
theorem fillCancelNotice (x0 : ClusterId) (x1 : Nat) : Statement (.fillCancelNotice x0 x1) := notProgram rfl
theorem recallCompletion (x0 : Nat) : Statement (.recallCompletion x0) := notProgram rfl
theorem walkMigRetry (x0 : CtxId) : Statement (.walkMigRetry x0) := notProgram rfl
theorem walkMigTimeout (x0 : CtxId) : Statement (.walkMigTimeout x0) := notProgram rfl
theorem tinvAcknowledge (x0 : TinvAgent) : Statement (.tinvAcknowledge x0) := notProgram rfl
theorem slotBoundary : Statement .slotBoundary := notProgram rfl
theorem guardEnd : Statement .guardEnd := notProgram rfl
theorem rotorLockLoss : Statement .rotorLockLoss := notProgram rfl
theorem rotorLockRegain : Statement .rotorLockRegain := notProgram rfl
theorem relayReceive (x0 : PodMsg) : Statement (.relayReceive x0) := notProgram rfl
theorem pairSequenceDelivery (x0 : PodMsg) : Statement (.pairSequenceDelivery x0) := notProgram rfl
theorem pairAckReceipt (x0 : Fin 128) (x1 : Nat) : Statement (.pairAckReceipt x0 x1) := notProgram rfl
theorem e2eTimerExpiry (x0 : Fin 128) (x1 : Nat) : Statement (.e2eTimerExpiry x0 x1) := notProgram rfl
theorem abandonNotice (x0 : Fin 128) (x1 : Nat) (x2 : Option Nat) : Statement (.abandonNotice x0 x1 x2) := notProgram rfl
theorem tagGroupReceipt (x0 : GroupRcpt) : Statement (.tagGroupReceipt x0) := notProgram rfl
theorem tagGroupAck (x0 : BeamId) (x1 : Nat) (x2 : Bool) : Statement (.tagGroupAck x0 x1 x2) := notProgram rfl
theorem idleGroupClose (x0 : BeamId) : Statement (.idleGroupClose x0) := notProgram rfl
theorem berWindowEnd (x0 : BeamId) (x1 : Bool) (x2 : Fin 8) (x3 : Nat) : Statement (.berWindowEnd x0 x1 x2 x3) := notProgram rfl
theorem portDownCheck (x0 : Fin 16) (x1 : Bool) : Statement (.portDownCheck x0 x1) := notProgram rfl
theorem lostNotice (x0 : Fin 128) (x1 : Nat) : Statement (.lostNotice x0 x1) := notProgram rfl
theorem drainRound (x0 : Fin 128) (x1 : Nat) : Statement (.drainRound x0 x1) := notProgram rfl
theorem moduleFailure (x0 : Fin 128) : Statement (.moduleFailure x0) := notProgram rfl
theorem clusterKill (x0 : ClusterId) : Statement (.clusterKill x0) := notProgram rfl
theorem scrubStart (x0 : ClusterId) : Statement (.scrubStart x0) := notProgram rfl
theorem scrubCompletion (x0 : ClusterId) : Statement (.scrubCompletion x0) := notProgram rfl
theorem atsInvalidation (x0 : Nat) : Statement (.atsInvalidation x0) := notProgram rfl
theorem atsInvalTimeout (x0 : Nat) : Statement (.atsInvalTimeout x0) := notProgram rfl
theorem hdmHostRead (x0 : ClusterId) (x1 : Nat) : Statement (.hdmHostRead x0 x1) := notProgram rfl
theorem hdmHostWrite (x0 : ClusterId) (x1 : Nat) (x2 : Byte) : Statement (.hdmHostWrite x0 x1 x2) := notProgram rfl
theorem tdispConfigLock (x0 : Fin 17) : Statement (.tdispConfigLock x0) := notProgram rfl
theorem markedRegisterWrite (x0 : Fin 17) (x1 : Nat) : Statement (.markedRegisterWrite x0 x1) := notProgram rfl
theorem mgmtRegisterWrite (x0 : Fin 17) (x1 : Nat) : Statement (.mgmtRegisterWrite x0 x1) := notProgram rfl
theorem portWriteDiscard (x0 : Fin 17) (x1 : Nat) : Statement (.portWriteDiscard x0 x1) := notProgram rfl
theorem status (x0 : Cmd) : Statement (.status x0) := notProgram rfl
theorem warmreset (x0 : Cmd) : Statement (.warmreset x0) := notProgram rfl
theorem featset (x0 : Cmd) (x1 : Word) (x2 : Word) : Statement (.featset x0 x1 x2) := notProgram rfl
theorem podcfg (x0 : Cmd) (x1 : PodCfg) : Statement (.podcfg x0 x1) := notProgram rfl
theorem linkcfg (x0 : Cmd) (x1 : LinkCfg) : Statement (.linkcfg x0 x1) := notProgram rfl
theorem linkstat (x0 : Cmd) : Statement (.linkstat x0) := notProgram rfl
theorem launch (x0 : Cmd) (x1 : LaunchArgs) : Statement (.launch x0 x1) := notProgram rfl
theorem teardown (x0 : Cmd) (x1 : Nat) (x2 : Nat) (x3 : Nat) (x4 : Bool) : Statement (.teardown x0 x1 x2 x3 x4) := notProgram rfl
theorem kill (x0 : Cmd) (x1 : ClusterId) : Statement (.kill x0 x1) := notProgram rfl
theorem wake (x0 : Cmd) (x1 : ClusterId) : Statement (.wake x0 x1) := notProgram rfl
theorem rejoin (x0 : Cmd) (x1 : RejoinArgs) : Statement (.rejoin x0 x1) := notProgram rfl
theorem revoke (x0 : Cmd) (x1 : Nat) (x2 : Fin 64) : Statement (.revoke x0 x1 x2) := notProgram rfl
theorem ingestkey (x0 : Cmd) (x1 : Nat) (x2 : Fin 64) (x3 : Nat) : Statement (.ingestkey x0 x1 x2 x3) := notProgram rfl
theorem quote (x0 : Cmd) (x1 : Nat) (x2 : Nat) : Statement (.quote x0 x1 x2) := notProgram rfl
theorem dumpget (x0 : Cmd) (x1 : ClusterId) (x2 : Fin 4) : Statement (.dumpget x0 x1 x2) := notProgram rfl
theorem checkpoint (x0 : Cmd) (x1 : CheckpointArgs) : Statement (.checkpoint x0 x1) := notProgram rfl
theorem restore (x0 : Cmd) (x1 : RestoreArgs) : Statement (.restore x0 x1) := notProgram rfl
theorem bias (x0 : Cmd) (x1 : Nat) (x2 : Nat) (x3 : Bool) : Statement (.bias x0 x1 x2 x3) := notProgram rfl
theorem evtcfg (x0 : Cmd) (x1 : Nat) (x2 : Nat) : Statement (.evtcfg x0 x1 x2) := notProgram rfl
theorem monread (x0 : Cmd) : Statement (.monread x0) := notProgram rfl
theorem pwrlim (x0 : Cmd) (x1 : Nat) : Statement (.pwrlim x0 x1) := notProgram rfl
theorem debug (x0 : Cmd) (x1 : Nat) (x2 : List CtxId) : Statement (.debug x0 x1 x2) := notProgram rfl
theorem commandUnknown (x0 : Cmd) : Statement (.commandUnknown x0) := notProgram rfl
theorem sensorSample (x0 : Sensors) : Statement (.sensorSample x0) := notProgram rfl
theorem railExcursion (x0 : Nat) : Statement (.railExcursion x0) := notProgram rfl
theorem saveadv (x0 : Word) : Statement (.saveadv x0) := notProgram rfl
theorem sctlWrite (x0 : Word) : Statement (.sctlWrite x0) := notProgram rfl
theorem cpcWrite (x0 : Word) : Statement (.cpcWrite x0) := notProgram rfl
theorem crepxWrite (x0 : Word) : Statement (.crepxWrite x0) := notProgram rfl
theorem specialRegisterWrite (x0 : BitVec 16) (x1 : Word) : Statement (.specialRegisterWrite x0 x1) := notProgram rfl
theorem illegalEncoding (x0 : BitVec 32) : Statement (.illegalEncoding x0) := notProgram rfl
theorem fetchFault (x0 : BitVec 8) (x1 : Word) : Statement (.fetchFault x0 x1) := notProgram rfl
theorem hostCompletionTimeout (x0 : Nat) : Statement (.hostCompletionTimeout x0) := notProgram rfl
theorem tdispInterfaceRequest (x0 : Fin 17) (x1 : TdispReq) : Statement (.tdispInterfaceRequest x0 x1) := notProgram rfl
theorem managementLossDeclaration (x0 : Fin 128) : Statement (.managementLossDeclaration x0) := notProgram rfl
theorem corePowerGating (x0 : Fin 4) : Statement (.corePowerGating x0) := notProgram rfl
theorem debuggerHalt (x0 : Fin 4) : Statement (.debuggerHalt x0) := notProgram rfl

end RoundTrip

end Sys2Proof.Laws
end

