-- ==== Sys2Proof/Tests/Slice0.lean ====
section
/-!
SUPPORT. Sys2Proof/Tests/Slice0.lean: tests by the spec's own examples and tables, and for every obligation with hypotheses
states and operands that meet them.
-/
namespace Sys2Proof.Tests

set_option Elab.async false

open Sys2Proof.Machine

/-! ### Well-formedness refuses each reserved value, and decoding rejects it by name -/

theorem test_wf_bfx : (Instr.bfx 1 2 false 63 1).wf = false ∧ (Instr.bfx 1 2 false 63 0).wf = true := by decide
theorem test_wf_bfxs : (Instr.bfxs 1 2 false 0 63).wf = true ∧ (Instr.bfxs 1 2 false 1 63).wf = false := by decide
theorem test_wf_bfi : (Instr.bfi 1 2 false 32 32).wf = false ∧ (Instr.bfi 1 2 false 31 32).wf = true := by decide
theorem test_wf_masks : (Instr.kand 0 1 2).wf = false ∧ (Instr.kor 0 1 2).wf = false ∧ (Instr.kxor 0 1 2).wf = false ∧
    (Instr.kandn 0 1 2).wf = false ∧ (Instr.knot 0 1).wf = false ∧ (Instr.kfromg 0 1 false).wf = false ∧ (Instr.kfromg 1 1 false).wf = true := by
  decide
theorem test_wf_compares : (Instr.vcmp 0 0 1 2 0 false false).wf = false ∧ (Instr.vcmpa 0 0 1 2 0 false false).wf = false := by decide
theorem test_wf_rounding : (Instr.vcvt 1 2 8 5 0 false).wf = false ∧ (Instr.vsqrt 1 2 5 0 false).wf = false ∧
    (Instr.vrsum 1 2 7 0 false).wf = false ∧ (Instr.vrsum 1 2 4 0 false).wf = true := by decide
theorem test_wf_kept : (Instr.watch 7 3 4 false false).wf = false ∧ (Instr.watch 0 3 4 false false).wf = false ∧
    (Instr.watch 5 7 4 false false).wf = false ∧ (Instr.watch 5 3 7 false false).wf = false ∧ (Instr.gwait 0 1).wf = false ∧
    (Instr.gsync 7 1).wf = false ∧ (Instr.watch 6 0 0 false false).wf = true := by decide
theorem test_wf_tags : (Instr.vld 1 2 false 0xF 0 0).wf = false ∧ (Instr.vldp 2 2 false 0xF 0 0).wf = false ∧
    (Instr.vldp 3 2 false 0 0 0).wf = false ∧ (Instr.vlds 1 2 false 0 0 3).wf = false ∧ (Instr.vsts 1 2 false 0xE 0 3).wf = false ∧
    (Instr.vldt 1 2 false 0xE 0 3).wf = false ∧ (Instr.vldg 1 2 0 0 0 0).wf = false ∧ (Instr.vstg 1 2 0xF 0 0 0).wf = false := by decide
/-- Parcels that decoding rejects, by name. -/
noncomputable def rejected (l : List Parcel) (r : Reject) : Bool :=
  match decode l with
  | .error e => decide (e = r)
  | .ok _ => false
/-- `vldp` with odd vd (major 0x2E), and `kand` to k0 (major 0x0C). -/
theorem test_reject_values : rejected (two 0xEE0C2000) .reservedValue = true ∧ rejected (two 0xCC004400) .reservedValue = true := by
  decide +kernel

/-! ### Words of the spec's examples, and words put together field by field from R157 to R175 -/

/-- Fields of the given widths, the first on top. -/
def cat (l : List (Nat × Nat)) : Nat := l.foldl (fun w p => w * 2 ^ p.1 + p.2 % 2 ^ p.1) 0
/-- A 32-bit word decodes to an instruction. -/
noncomputable def reads (w : Nat) (i : Instr) : Bool := decodeTableWord 32 w = some i
/-- A parcel decodes to an instruction. -/
noncomputable def short (w : Nat) (i : Instr) : Bool := decodeTableWord 16 w = some i

/-- The examples of chapters 07 and 08. -/
theorem test_words_scalar : reads 0xC0190A80 (.add 3 4 5 false true) ∧ reads 0xCA480010 (.lim 9 0 0x10) ∧
    reads 0xCB425401 (.leaR 8 9 10 false false) ∧ reads 0xDA5A0C00 (.ldI64 11 8 false 0) ∧
    reads 0xDD031610 (.aaddNr 12 11 false false false) ∧ reads 0xC0628210 (.mul 12 10 1 false false) ∧
    reads 0xC839C188 (.bfx 7 7 false 6 8) ∧ reads 0xCB380003 (.myid 7) ∧ reads 0xCB7B9200 (.leaA 15 14 9 false false) ∧
    reads 0xDB20C007 (.stI8 4 3 false 7) ∧ reads 0xDB314810 (.stI32 6 5 false 16) := by decide +kernel
/-- The examples of chapters 09, 12, 13 and 18. -/
theorem test_words_vector : reads 0xEA20AA00 (.vld 8 5 false 0xA 0 0) ∧ reads 0xEB20C000 (.vst 8 6 false 0 0) ∧
    reads 0xFD080C80 (.vbcast 2 0 8 0 false) ∧ reads 0xFB841080 (.vcmp 4 1 1 2 0 false false) ∧
    reads 0xFD0C1408 (.vrsum 3 1 0 1 false) ∧ reads 0xFD183E00 (.vmovg 6 3 false) ∧ reads 0xFD104C02 (.vbcast 4 4 2 0 false) ∧
    reads 0xCD1C2141 (.vperm2 7 2 5 0 false false) ∧ reads 0xEF32EA18 (.vldt 12 23 false 0xA 0 24) ∧
    reads 0xFD049C81 (.vbcast 1 9 9 0 false) ∧ reads 0xEE082000 (.vldp 2 1 false 0 0 0) := by decide +kernel
/-- The examples of chapters 10 and 13. -/
theorem test_words_sync : reads 0xE028C800 (.watch 5 3 4 false false) ∧ reads 0xE7390001 (.ewr 7 1) ∧
    reads 0xE100CC01 (.pull 3 6 false false 1) ∧ reads 0xE3400003 (.tlhigh 8 0) ∧ reads 0xE3400000 (.tlwait 8 0) ∧
    reads 0xE0025010 (.seqAdv 0 9 8 false false) ∧ reads 0xE3780004 (.tlerr 15 0) ∧ reads 0xE100D031 (.hsend 3 8 false false 1) ∧
    reads 0xE1020629 (.hget 8 3 false false 1) := by decide +kernel
/-- The examples of chapters 11 and 12. -/
theorem test_words_matrix : reads 0xE8021201 (.tset 8 9 false false 1) ∧ reads 0xE8000021 (.mldt 1) ∧
    reads 0xE802803A (.mstream 10 false 2) ∧ reads 0xE800004B (.mcvt 0 0 false false 3) ∧ reads 0xE800C050 (.mtask 3 false) := by
  decide +kernel
/-- The examples of chapters 14 and 18; of `cflush` and `cinval`, whose example words do not follow R157, the words that do. -/
theorem test_words_system : reads 0xE6098003 (.swr 1 0x8003) ∧ reads 0xE6508008 (.srd 10 0x8008) ∧ reads 0xE903C000 (.tret 15 false) ∧
    reads 0xE9104002 (.cstop 2 1 false) ∧ reads 0xE9104604 (.ctxsv 2 1 3 false false) ∧ reads 0xE910C009 (.cflush 2 3 0 false false) ∧
    reads 0xE910C80A (.cinval 2 3 4 false false) ∧ reads 0xE9104605 (.ctxld 2 1 3 false false) ∧ reads 0xE9104001 (.cstart 2 1 false) := by
  decide +kernel
/-- R160, R164: short forms, the prefix of the examples, and the parcels that are reserved. -/
theorem test_words_short : short 0xBC3C (.rep 3 true true false false) ∧ short 0xBC1A (.rep 1 true false true false) ∧
    short 0xBFF4 (.rep 63 false true false false) ∧ short 0x9000 .cExit ∧ short 0x8000 .nop ∧
    short (cat [(2, 0), (4, 1), (5, 7), (5, 9)]) (.cMov 7 9) ∧ short (cat [(2, 1), (3, 0), (5, 7), (6, 63)]) (.cAddi 7 63) ∧
    short (cat [(2, 2), (4, 6), (10, 5)]) (.svc 5) ∧ decodeTableWord 16 0 = none ∧ decodeTableWord 16 0x8001 = none ∧
    decodeTableWord 32 0xFFFFFFFF = none := by decide +kernel
/-- R169 to R173: one word of each of the other scalar families. -/
theorem test_words_packed : reads (cat [(2, 3), (6, 0x10), (5, 4), (5, 5), (14, 16383)]) (.beq 4 5 16383) ∧
    reads (cat [(2, 3), (6, 0x16), (24, 3)]) (.j 3) ∧ reads (cat [(2, 3), (6, 0x18), (5, 1), (5, 2), (5, 0), (1, 1), (1, 0), (7, 1)]) (.callr 1 2 true) ∧
    reads (cat [(2, 3), (6, 1), (5, 1), (5, 2), (1, 0), (13, 8191)]) (.addi 1 2 false 8191) ∧
    reads (cat [(2, 3), (6, 5), (5, 1), (5, 2), (1, 0), (3, 2), (4, 0), (6, 9)]) (.srai 1 2 false 9) ∧
    reads (cat [(2, 3), (6, 0x1C), (5, 1), (5, 2), (1, 0), (3, 0), (10, 4)]) (.ldfe 1 2 false 4) ∧
    reads (cat [(2, 3), (6, 0x1C), (5, 1), (5, 2), (1, 0), (3, 5), (10, 1023)]) (.stff 1 2 false 1023) ∧
    reads (cat [(2, 3), (6, 0x1D), (5, 1), (5, 2), (5, 3), (1, 0), (1, 0), (1, 0), (1, 1), (1, 0), (4, 9)]) (.acas 1 2 3 false false true) ∧
    reads (cat [(2, 3), (6, 0x0C), (5, 1), (5, 2), (5, 3), (2, 0), (7, 3)]) (.kandn 1 2 3) ∧
    decodeTableWord 32 (cat [(2, 3), (6, 0x1D), (5, 0), (5, 2), (5, 3), (2, 0), (3, 1), (4, 8)]) = none := by decide +kernel
/-- R157, R158, R174, R175: one word of each of the other families. -/
theorem test_words_packed' : reads (cat [(2, 3), (6, 0x32), (6, 1), (6, 2), (6, 3), (3, 4), (1, 1), (1, 0), (1, 1)]) (.vsub 1 2 3 4 true false) ∧
    reads (cat [(2, 3), (6, 0x3E), (6, 1), (6, 2), (6, 0x21), (3, 4), (1, 0), (2, 1)]) (.vlrot 1 2 5 4 false) ∧
    reads (cat [(2, 3), (6, 0x3C), (6, 1), (6, 2), (6, 0x10), (3, 4), (1, 0), (2, 1)]) (.vcvt 1 2 8 1 4 false) ∧
    reads (cat [(2, 3), (6, 0x30), (6, 1), (6, 2), (4, 8), (2, 2), (3, 3), (3, 4)]) (.vldg 1 2 8 2 3 4) ∧
    reads (cat [(2, 3), (6, 0x2C), (6, 1), (5, 2), (1, 0), (4, 8), (3, 3), (5, 4)]) (.vlds 1 2 false 8 3 4) ∧
    reads (cat [(2, 3), (6, 0x22), (5, 1), (5, 2), (5, 3), (2, 0), (4, 1), (3, 6)]) (.amsg 1 2 3 false false 6) ∧
    reads (cat [(2, 3), (6, 0x24), (5, 1), (3, 0), (4, 3), (4, 0), (8, 200)]) (.gsync 1 200) ∧
    reads (cat [(2, 3), (6, 0x25), (5, 1), (3, 0), (6, 0), (10, 17)]) (.calrd 1 17) ∧
    reads (cat [(2, 3), (6, 0x29), (5, 1), (5, 2), (5, 3), (2, 0), (7, 7)]) (.prset 1 2 3 false false) ∧
    reads (cat [(2, 3), (6, 0x0F), (6, 1), (6, 2), (6, 3), (3, 4), (1, 0), (1, 0), (1, 1)]) (.vqnt 1 2 3 4 false false) := by decide +kernel

/-! ### One step each on a small state -/

/-- The state after an outcome. -/
noncomputable def next (o : Out) : State :=
  match o with
  | .next t => t
  | _ => State.reset
/-- The machine after reset where context c moves: of core 0, context 0 is at S level, the others at U level. -/
def mover (c : CtxId) (f : Ctx → Ctx) : State := ({ State.reset with cur := c }).upd f
/-- A g register set. -/
def reg (r : GNum) (v : Word) (x : Ctx) : Ctx := { x with g := x.g.set r { x.g[r] with val := v } }
/-- A v register set. -/
def vreg (r : VNum) (g : Tag) (v : VWord) (x : Ctx) : Ctx := { x with v := x.v.set r ⟨v, g, true, false, [], false⟩ }
/-- g[3] after an instruction with g4 and g5 set. -/
noncomputable def result (i : Instr) (a b : Word) : Word := (next (exec i (mover 3 (reg 4 a ∘ reg 5 b)))).ctx.g[3].val
/-- v[3] after an instruction with v1 and v2 set. -/
noncomputable def vresult (i : Instr) (g : Tag) (a b : VWord) : VWord := (next (exec i (mover 3 (vreg 1 g a ∘ vreg 2 g b)))).ctx.v[3].val
/-- The cause of the record a trap has left. -/
def cause (s : State) : Option (BitVec 8) := (s.core.tq.head?).map fun r => r.record.cause
/-- −1. -/
def m1 : Word := BitVec.allOnes 64
/-- −2^63. -/
def mMin : Word := 0x8000000000000000

/-! R191: division and remainder at their corners, rounding towards zero. -/
theorem test_div : result (.div 3 4 5 false false) (BitVec.ofInt 64 (-7)) 2 = BitVec.ofInt 64 (-3) ∧
    result (.div 3 4 5 false false) 9 0 = m1 := by decide +kernel
theorem test_div_overflow : result (.div 3 4 5 false false) mMin m1 = mMin := by decide +kernel
theorem test_divn : result (.divn 3 4 5 false false) m1 2 = 0x7FFFFFFFFFFFFFFF := by decide +kernel
theorem test_rem : result (.rem 3 4 5 false false) (BitVec.ofInt 64 (-7)) 2 = m1 ∧ result (.rem 3 4 5 false false) 9 0 = 9 := by
  decide +kernel
theorem test_mulh : result (.mulh 3 4 5 false false) m1 m1 = 0 ∧ result (.mulhn 3 4 5 false false) m1 m1 = 0xFFFFFFFFFFFFFFFE := by
  decide +kernel
theorem test_sra : result (.sra 3 4 5 false false) mMin 63 = m1 ∧ result (.sll 3 4 5 false false) 1 64 = 1 := by decide +kernel
theorem test_min : result (.min 3 4 5 false false) m1 1 = m1 ∧ result (.minn 3 4 5 false false) m1 1 = 1 := by decide +kernel
theorem test_adds : result (.adds 3 4 5 false false) 0x7FFFFFFFFFFFFFFF 1 = 0x7FFFFFFFFFFFFFFF ∧
    result (.addsn 3 4 5 false false) m1 1 = m1 ∧ result (.subsn 3 4 5 false false) 1 2 = 0 := by decide +kernel
theorem test_add_wraps : result (.add 3 4 5 false false) m1 1 = 0 := by decide +kernel
theorem test_bfx : result (.bfx 3 4 false 6 8) 0xFFFF80FF 0 = 0 ∧ result (.bfxs 3 4 false 7 8) 0x8000 0 = BitVec.ofInt 64 (-128) := by
  decide +kernel
theorem test_lim : result (.lim 3 2 0x8000) 0 0 = 0xFFFF800000000000 ∧ result (.limk 3 1 0x1234) 0 0 = 0x12340000 := by decide +kernel
/-- Chapter 08's example: `lea.r` with delta X + 1 and offset 0x100. -/
theorem test_leaR : result (.leaR 3 4 5 false false) 0x10 0x100 = 0x8010000000000100 := by decide +kernel
/-- R67's example: an address in relative form, from chip 5, cluster (14, 2). -/
theorem test_resolve : resolve ⟨5, 14, 2⟩ 0x803C000000040000 = ⟨5, 1, 14⟩ := by decide +kernel
/-- A write to g0 is discarded (R161). -/
theorem test_g0 : (next (exec (.addi 0 0 false 5) (mover 3 id))).ctx.g = (mover 3 id).ctx.g := by decide +kernel
/-- R198, R200: a branch back by one instruction; a call through g31 reads its target first. -/
theorem test_bne : (next (exec (.bne 4 0 (BitVec.ofInt 14 (-2))) (mover 3 (fun x => { reg 4 1 x with pc := 0x100 })))).ctx.pc = 0xFC := by
  decide +kernel
theorem test_callr : (next (exec (.callr 4 4 false) (mover 3 (fun x => { reg 4 0x200 x with pc := 0x100 })))).ctx.pc = 0x200 ∧
    (next (exec (.callr 4 4 false) (mover 3 (fun x => { reg 4 0x200 x with pc := 0x100 })))).ctx.g[4].val = 0x104 := by decide +kernel
theorem test_jr_odd : cause (next (exec (.jr 4 false) (mover 3 (reg 4 0x201)))) = some 0x07 := by decide +kernel
/-- R377, R160: a service call leaves cause 0x1A with its code in AUX, and a FAULTED context. -/
theorem test_svc : ((next (exec (.svc 5) (mover 3 id))).core.tq.map fun r => (r.record.cause, r.record.aux)) = [(0x1A, 5)] ∧
    (next (exec (.svc 5) (mover 3 id))).ctx.st = .faulted := by decide +kernel
/-- R306: a system instruction at U level. -/
theorem test_tret_user : cause (next (exec (.tret 1 false) (mover 3 id))) = some 0x03 := by decide +kernel

/-! R205, R4: a store at S level, low byte first; a U level store finds no region. -/
theorem test_store : let t := next (exec (.stI32 5 4 false 1) (mover 0 (reg 4 0x100 ∘ reg 5 0x11223344AABBCCDD)))
    t.byte 0x104 = 0xDD ∧ t.byte 0x107 = 0xAA ∧ t.byte 0x108 = 0 ∧ t.mem.wf = true := by decide +kernel
theorem test_store_denied : cause (next (exec (.stI32 5 4 false 1) (mover 3 (reg 4 0x100)))) = some 0x09 := by decide +kernel
theorem test_load_sign : let s := (mover 0 (reg 4 0x100)).putBytes 0x100 [0x80, 0x01]
    (next (exec (.ldI8 3 4 false 0) s)).ctx.g[3].val = BitVec.ofInt 64 (-128) ∧ (next (exec (.ldN16 3 4 false 0) s)).ctx.g[3].val = 0x180 := by
  decide +kernel
/-- R207: `ldfe` of a full word leaves it empty; a second one waits. -/
theorem test_ldfe : let t := next (exec (.ldfe 3 4 false 0) (mover 0 (reg 4 0x100)))
    t.isFull 0x20 = false ∧ (next (exec (.ldfe 3 4 false 0) t)).ctx.st = .blocked := by decide +kernel
/-- R211: compare and swap; chapter 08's counter. -/
theorem test_acas : let s := (mover 0 (reg 4 0x100 ∘ reg 5 7 ∘ reg 3 0x0102)).putBytes 0x100 [2, 1]
    (next (exec (.acas 3 4 5 false false false) s)).byte 0x100 = 7 ∧ (next (exec (.acas 3 4 5 false false false) s)).ctx.g[3].val = 0x102 := by
  decide +kernel
theorem test_aadd : ((next (exec (.aaddNr 4 5 false false false) ((mover 0 (reg 4 0x200 ∘ reg 5 0x2A)).putBytes 0x200 [5]))).byte 0x200) = 0x2F := by
  decide +kernel

/-! Formats. -/
/-- R59's example: −625.0 in A80. -/
theorem test_a80 : roundNE (ffmt .a80) (decodeF (ffmt .f32) 0xC41C4000) = 0xC0020E20000000000000 := by decide +kernel
/-- R50's example: a draw, and the conversion it decides (R52). -/
theorem test_draw : drawValue 0x0000000500000003 0x012 3 7 = 0xCB77A2752437EE9C := by decide +kernel
theorem test_sr : convert .f32 .bf16 .sr 0x3F80F000 0xCB77A2752437EE9C = 0x3F81 := by decide +kernel
/-- R55's example: residues 60, 100, 120 and check 20 are −5,000; `vrtrec` gives it. -/
theorem test_vrtrec : laneOf 32 (vresult (.vrtrec 3 1 0 false) .n32 0x1478643C 0) 0 = 2 ^ 32 - 5000 := by decide +kernel

/-! Vectors. -/
/-- Bytes wrap, or saturate (R221). -/
theorem test_vadd : laneOf 8 (vresult (.vadd 3 1 2 0 false false) .i8 0x7F 1) 0 = 0x80 ∧
    laneOf 8 (vresult (.vadds 3 1 2 0 false false) .i8 0x7F 1) 0 = 0x7F := by decide +kernel
/-- Chapter 09's example: the row 1.5, −2, 3, 0, −0.5, 4, 2.25, −8, 0.25, 1, −1, 5, 0, 6, −3, 0.5. -/
def row : VWord := packLanes 32 [0x3FC00000, 0xC0000000, 0x40400000, 0, 0xBF000000, 0x40800000, 0x40100000, 0xC1000000, 0x3E800000,
  0x3F800000, 0xBF800000, 0x40A00000, 0, 0x40C00000, 0xC0400000, 0x3F000000]
theorem test_vcmp : (next (exec (.vcmp 4 1 1 2 0 false false) (mover 3 (vreg 1 .f32 row ∘ vreg 2 .f32 0)))).ctx.k[1] = 0xAB65 := by
  decide +kernel
theorem test_vrsum : (next (exec (.vrsum 3 1 0 1 false) (mover 3 fun x => { vreg 1 .f32 row x with k := x.k.set 1 0xAB65 }))).ctx.v[3].val =
    0x41BC0000 := by decide +kernel
theorem test_vmovg : (next (exec (.vmovg 6 3 false) (mover 3 (vreg 3 .f32 0x41BC0000)))).ctx.g[6].val = 0x41BC0000 := by decide +kernel
theorem test_vst : let t := next (exec (.vst 1 4 false 1 0) (mover 0 fun x => { reg 4 0x1000 (vreg 1 .f32 row x) with k := x.k.set 1 4 }))
    t.byte 0x100A = 0x40 ∧ t.byte 0x100B = 0x40 ∧ t.byte 0x1003 = 0 := by decide +kernel
theorem test_vld_misaligned : cause (next (exec (.vld 1 5 false 8 0 0) (mover 3 (reg 5 0x1020)))) = some 0x07 := by decide +kernel
theorem test_vsldu : laneOf 32 (vresult (.vsldu 3 1 1 0 false) .f32 row 0) 2 = 0xC0000000 := by decide +kernel
theorem test_kfirst : (next (exec (.kfirst 3 1) (mover 3 id))).ctx.g[3].val = 64 ∧
    (next (exec (.ktog 3 0) (mover 3 id))).ctx.g[3].val = m1 := by decide +kernel

/-! Synchronisation, tiles, system. -/
/-- R259: a test past HIGH traps 0x14; a test of 0 holds. -/
theorem test_tltest : cause (next (exec (.tltest 4 0) (mover 3 (reg 4 1)))) = some 0x14 ∧
    (next (exec (.tltest 4 0) (mover 3 id))).ctx.g[4].val = 1 := by decide +kernel
/-- R251: `seq.adv` never lowers its word and answers the old one. -/
theorem test_seqAdv : let t := next (exec (.seqAdv 3 4 5 false false) ((mover 0 (reg 4 0x100 ∘ reg 5 2)).putBytes 0x100 [9]))
    t.byte 0x100 = 9 ∧ t.ctx.g[3].val = 9 := by decide +kernel
/-- R270: a descriptor with a reserved bit. -/
theorem test_tset : cause (next (exec (.tset 4 5 false false 1) (mover 3 (reg 5 0x0000000000800000)))) = some 0x15 := by decide +kernel
/-- R308: TVEC is even. -/
theorem test_swr : (next (exec (.swr 1 0x8003) (mover 0 (reg 1 0x4001)))).core.tvec = 0x4000 := by decide +kernel
/-- R246: a number that names no register. -/
theorem test_srd : cause (next (exec (.srd 3 0x0006) (mover 3 id))) = some 0x01 := by decide +kernel
/-- R328: `prset` refuses FIRST > LAST. -/
theorem test_prset : (next (exec (.prset 3 4 5 false false) (mover 0 (reg 5 0x8000000000000001)))).ctx.g[3].val = 6 := by decide +kernel
/-- R165, R164: `rep 4, da` on `vld.f16 v8, [g5]` of chapter 07's example: one step loads v8 and REPIDX becomes 1; the PC stays. -/
theorem test_rep : let s := State.reset.withFetchWord 16 0xBC3C
    let t := next (step (((s.putBytes 0x400002 [0x20, 0xEA, 0x00, 0xAA]).updCtx 0 (reg 5 0x1000)).updMem fun m => { m with stale := [] }))
    (t.getCtx 0).repidx = 1 ∧ (t.getCtx 0).pc = 0x400000 ∧ ((t.getCtx 0).v[8]).tag = .f16 := by decide +kernel
/-- R155: a step executes the word at the PC and passes it. -/
theorem test_step : ((next (step (State.reset.withFetchWord 32 0xCA480010))).getCtx 0).g[9].val = 0x10 ∧
    ((next (step (State.reset.withFetchWord 32 0xCA480010))).getCtx 0).pc = 0x400004 := by decide +kernel

/-! ### States and operands that meet the hypotheses of the obligations, clause by clause -/

/-- Context 0 of core 0 moves: S level. -/
def sS : State := mover 0 id
/-- Context 3 of core 0 moves: U level. -/
def sU : State := mover 3 id
/-- Repetition j of a prefix with CNT cnt. -/
def run (j cnt : Nat) : RepRun := ⟨cnt, j, 1, false, true, false, 4⟩

theorem witness_RegisterWrite : sU.rep = none ∧ sU.ctx.stopReq = none ∧ (mover 3 fun x => { x with stopReq := some .cstop }).ctx.stopReq ≠ none ∧
    (∃ r, ({ sU with rep := some (run 63 63) } : State).rep = some r ∧ r.cnt ≤ r.j) ∧
    ∃ r, ({ sU with rep := some (run 62 63) } : State).rep = some r ∧ r.j < r.cnt := by decide +kernel
theorem witness_ScalarArithmetic : sU.gOk 0 ∧ sU.gOk 1 ∧ sU.gOk 31 ∧ ((mover 3 (reg 4 mMin)).gVal 4).toInt = -2 ^ 63 ∧
    ((mover 3 (reg 5 m1)).gVal 5).toInt = -1 ∧ sU.gVal 0 = 0 := by decide +kernel
theorem witness_ScalarImmediates : sU.gOk 0 ∧ sU.gOk 31 ∧ (63 : BitVec 6).toNat + (0 : BitVec 6).toNat + 1 ≤ 64 ∧
    (0 : BitVec 6).toNat + (63 : BitVec 6).toNat + 1 ≤ 64 := by decide +kernel
theorem witness_AddressForms : sU.gOk 1 ∧ sU.gOk 0 := by decide +kernel
/-- A register in a given condition. -/
def odd4 (full poison bad : Bool) (v : Word) : State := mover 3 fun x => { x with g := x.g.set 4 ⟨v, full, poison, [], bad⟩ }
theorem witness_SourceTrouble : (4 : GNum) ≠ 0 ∧ (odd4 true false true 0).ctx.g[4].bad = true ∧
    ((odd4 false false false 0).ctx.g[4].bad = false ∧ (odd4 false false false 0).ctx.g[4].full = false) ∧
    (let r := (odd4 true true false 3).ctx.g[4]
     r.bad = false ∧ r.full = true ∧ r.poison = true ∧ r.val.setWidth 4 = (3 : BitVec 4)) ∧
    (let r := (odd4 true true false 4).ctx.g[4]
     r.bad = false ∧ r.full = true ∧ r.poison = true ∧ r.val.setWidth 4 ≠ (3 : BitVec 4)) := by decide +kernel
theorem witness_ControlTransfers : sU.gOk 4 ∧ sU.gOk 0 ∧ (sU.reads [4, 0]).taint = [] ∧
    (let s := mover 3 (reg 4 0x201); s.gOk 4 ∧ (s.reads [4]).taint = [] ∧ (s.gVal 4).getLsbD 0 = true) ∧
    (let s := mover 3 (reg 4 0x8010000000000100); s.gOk 4 ∧ (s.gVal 4).getLsbD 0 = false ∧ ownForm s.me (s.gVal 4) = false) ∧
    (let s := mover 3 (reg 4 0xFFFFFFFFFFFE); s.gOk 4 ∧ (s.gVal 4).getLsbD 0 = false ∧ ownForm s.me (s.gVal 4) = true) := by
  decide +kernel
theorem witness_Traps : numOf sU.cur ≠ 0 ∧ numOf (mover 15 id).cur ≠ 0 ∧ numOf (mover 48 id).cur = 0 := by decide +kernel
theorem witness_ScalarFrame : (∃ t, exec (.add 3 4 5 false false) sU = .next t) ∧ ∃ t, exec (.beq 4 5 1) sU = .next t := ⟨⟨_, rfl⟩, _, rfl⟩

theorem witness_Loads : let s := mover 0 (reg 4 0x7FFFF8)
    let ea := s.gVal 4 + (0 : BitVec 10).signExtend 64 * BitVec.ofNat 64 8 + s.bump 8
    s.gOk 4 = true ∧ s.ctx.sent = [] ∧ ea.toNat % 8 = 0 ∧ resolve s.me ea = s.me ∧
    max (s.ctx.clk + 1) (s.wts (granule (offOf ea))) < clockLimit ∧ (s.access s.agent s.sup .rd (offOf ea) 8).1 = .ok 0x7FFFF8 := by
  decide +kernel
/-- A byte access at the last byte of scratchpad. -/
theorem witness_Loads_byte : let s := mover 0 (reg 4 0x800000)
    let ea := s.gVal 4 + (BitVec.ofInt 10 (-1)).signExtend 64 * BitVec.ofNat 64 1 + s.bump 1
    s.gOk 4 = true ∧ resolve s.me ea = s.me ∧ (s.access s.agent s.sup .rd (offOf ea) 1).1 = .ok 0x7FFFFF := by decide +kernel
theorem checked_sS : sS.allChecked := by unfold State.allChecked; decide +kernel
theorem checked_sU : sU.allChecked := by unfold State.allChecked; decide +kernel
theorem witness_Stores : let s := mover 0 (reg 4 0x7FFFF8)
    let ea := s.gVal 4 + (0 : BitVec 10).signExtend 64 * BitVec.ofNat 64 8 + s.bump 8
    s.gOk 4 = true ∧ s.gOk 5 = true ∧ s.ctx.anyUnchecked = false ∧ ea.toNat % 8 = 0 ∧ ownForm s.me ea = true ∧
    max (s.ctx.clk + 1) (s.rts (granule (offOf ea)) + 1) < clockLimit ∧ (s.access s.agent s.sup .wr (offOf ea) 8).1 = .ok 0x7FFFF8 := by
  decide +kernel
theorem witness_FullEmpty : let s := mover 0 (reg 4 0x100)
    let ea := s.gVal 4 + (0 : BitVec 10).signExtend 64 * 8 + s.bump 8
    let o := offOf ea
    s.gOk 4 = true ∧ s.gOk 5 = true ∧ s.ctx.anyUnchecked = false ∧ ea.toNat % 8 = 0 ∧ ownForm s.me ea = true ∧ inSpad o 8 = true ∧
    s.badWord o 8 = false ∧ s.spadAllowed s.sup .wr o 8 = true ∧ s.spadAllowed s.sup .rd o 8 = true ∧ s.isFull (o / 8) = true ∧
    (s.setFE (o / 8) false).isFull (o / 8) = false ∧ max (s.ctx.clk + 1) (s.rts (granule o) + 1) < clockLimit ∧
    max (s.ctx.clk + 1) (s.wts (granule o)) < clockLimit := by decide +kernel
/-- A page table for the first two pages of HBM: page 0 resident in frame 1, every permission but FX at S level; page 1 the
leaf given. -/
def paged (leaf : Word) (s : State) : State :=
  ((((s.updCl fun c => { c with par := { c.par with troot := 0x1000 } }).putWord (hbmLo + 0x1000) 0x8800000000002000).putWord (hbmLo + 0x2000)
    0x8800000000003000).putWord (hbmLo + 0x3000) 0xC360000000010000).putWord (hbmLo + 0x3008) leaf
/-- A leaf whose page is not resident: LENT, slot 3, log 2. -/
def lent : Word := 0xE360000300000080
/-- The latch of an atomic at the context's PC, its page resident again. -/
def latched (arm done : Bool) : State := mover 0 fun x => { x with retry := ⟨true, arm, false, done, 0, 0, 0x100, 5, 0⟩ }
theorem witness_Atomics : (let s := mover 0 (reg 4 0x7FFFFC);
    s.gOk 4 = true ∧ s.gOk 5 = true ∧ s.gOk 6 = true ∧ s.ctx.anyUnchecked = false ∧ s.ctx.retry.v = false ∧ (s.gVal 4).toNat % 4 = 0 ∧
    ownForm s.me (s.gVal 4) = true ∧ max (s.ctx.clk + 1) (s.rts (granule (offOf (s.gVal 4))) + 1) < clockLimit ∧
    (s.access s.agent s.sup .wr (offOf (s.gVal 4)) 4).1 = .ok 0x7FFFFC) ∧
    (let s := paged lent (mover 0 (reg 4 0x100010000));
     s.ctx.anyUnchecked = false ∧ s.ctx.retry.v = false ∧ (s.gVal 4).toNat % 8 = 0 ∧ ownForm s.me (s.gVal 4) = true ∧
     (s.access s.agent s.sup .wr (offOf (s.gVal 4)) 8).1 = .nonres 1 lent ∧ (s.access s.agent s.sup .wr hbmLo 8).1 = .ok 0x100010000) := by
  decide +kernel
theorem witness_Atomics_latched : (let r := (latched false true).ctx.retry; r.v = true ∧ r.pc = (latched false true).ctx.pc ∧ r.done = true) ∧
    (let s := latched false false; s.ctx.retry.done = false ∧ s.ctx.retry.arm = false ∧
      (s.access s.agent s.sup .wr (offOf s.ctx.retry.ea) 8).1 = .ok 0x100) ∧
    (let s := latched true false; s.ctx.retry.done = false ∧ s.ctx.retry.arm = true ∧ s.ctx.retry.func.toNat % 16 = 0 ∧
      (s.access s.agent s.sup .wr (offOf s.ctx.retry.ea) 8).1 = .ok 0x100 ∧
      max (s.ctx.clk + 1) (s.rts (granule (offOf s.ctx.retry.ea)) + 1) < clockLimit) := by decide +kernel
theorem witness_StoreTraps : (let s := mover 3 (reg 4 0x8010000000000100); s.gOk 4 ∧ ownForm s.me (s.gVal 4) = false) ∧
    (let s := mover 3 (reg 4 0x101); ownForm s.me (s.gVal 4) = true ∧ (s.gVal 4).toNat % 8 ≠ 0) ∧
    (let s := mover 3 (reg 4 0x800000); ownForm s.me (s.gVal 4) = true ∧ (s.gVal 4).toNat % 8 = 0 ∧ inSpad (offOf (s.gVal 4)) 8 = false ∧
      inHbm (offOf (s.gVal 4)) 8 = false) ∧
    (let s := mover 3 (reg 4 0x7FFFF8); ownForm s.me (s.gVal 4) = true ∧ (s.gVal 4).toNat % 8 = 0 ∧ inSpad (offOf (s.gVal 4)) 8 = true ∧
      s.spadAllowed s.sup .wr (offOf (s.gVal 4)) 8 = false) := by decide +kernel
theorem witness_Regions : 0 < 1 ∧ inSpad 0x7FFFFF 1 = true ∧ inSpad 0 0x800000 = true := by decide +kernel
theorem witness_MemoryFrame : (∃ t, exec (.ldI64 3 4 false 0) sS = .next t) ∧ (∃ t, exec (.stI64 3 4 false 0) sS = .next t) ∧
    sS.ctx.retry.v = false ∧ (∃ t, exec (.aadd 3 4 5 false false false) sS = .next t) :=
  ⟨⟨_, rfl⟩, ⟨_, rfl⟩, by decide +kernel, ⟨_, rfl⟩⟩

theorem witness_VectorWrite : (List.replicate 128 (0 : Nat)).length = tagLanes .q4 ∧ (List.replicate 8 (7 : Nat)).length = tagLanes .raw := by decide +kernel
/-- The mover with three v registers. -/
def vs (g h : Tag) : State := mover 3 (vreg 1 g 5 ∘ vreg 2 h 3 ∘ vreg 3 g 1)
theorem witness_VectorIntegers : (vs .i8 .i8).vOk 1 = true ∧ (vs .i8 .i8).vOk 2 = true ∧ isInt (vs .i8 .i8).ctx.v[1].tag = true ∧
    (vs .i8 .i8).ctx.v[2].tag = (vs .i8 .i8).ctx.v[1].tag ∧
    (let s := vs .i64 .i64; isInt s.ctx.v[1].tag = true ∧ isInt s.ctx.v[2].tag = true ∧ tagWidth s.ctx.v[2].tag = tagWidth s.ctx.v[1].tag) := by
  decide +kernel
theorem witness_VectorFloats : (let s := vs .f32 .f32; s.vOk 1 = true ∧ s.vOk 2 = true ∧ s.vOk 3 = true ∧ s.ctx.v[2].tag = s.ctx.v[1].tag ∧
    isFlt s.ctx.v[1].tag = true ∧ s.ctx.v[3].tag = s.ctx.v[1].tag) ∧ isF8 (vs .f8e4 .f8e4).ctx.v[1].tag = true := by decide +kernel
theorem witness_VectorOneSource : isInt (vs .i64 .i64).ctx.v[1].tag = true ∧ isFlt (vs .f16 .f16).ctx.v[1].tag = true ∧
    isF8 (vs .f8e5 .f8e5).ctx.v[1].tag = true ∧ (vs .f16 .f16).vOk 1 = true ∧ (3 : BitVec 3).toNat < 4 ∧
    decodeF (ffmt .f16) 0x7E00 = .nan := by decide +kernel
/-- A mask is full, or leaves no lane active. -/
theorem witness_Reductions : isInt (vs .i64 .i64).ctx.v[1].tag = true ∧ (vs .i64 .i64).vOk 1 = true ∧ ((vs .i64 .i64).getK 0).getLsbD 7 = true ∧
    (vs .i64 .i64).getK 1 = 0 := by decide +kernel
theorem witness_Conversions : (let s := vs .f16 .f16;
      s.vOk 1 = true ∧ vTagOfCode (9 : BitVec 5).toNat = some .bf16 ∧ Tag.bf16 ≠ .raw ∧ s.ctx.v[1].tag ≠ .raw ∧
      tagWidth .bf16 = tagWidth s.ctx.v[1].tag ∧ (3 : BitVec 3).toNat < 4 ∧ vTagOfCode (31 : BitVec 5).toNat = none ∧
      vTagOfCode (0 : BitVec 5).toNat = some .raw) ∧
    (let s := mover 3 (vreg 1 .q8 5 ∘ vreg 2 .f32 0x7F7FFFFF);
      s.ctx.v[1].tag = .q8 ∧ s.ctx.v[2].tag = .f32 ∧ 0 < laneOf 32 s.ctx.v[2].val 0 ∧ laneOf 32 s.ctx.v[2].val 0 < 0x7F800000) ∧
    (let s := mover 3 (vreg 1 .q4 5 ∘ vreg 2 .f32 0x7F800000);
      s.ctx.v[1].tag = .q4 ∧ ¬(0 < laneOf 32 s.ctx.v[2].val 0 ∧ laneOf 32 s.ctx.v[2].val 0 < 0x7F800000)) ∧
    (let s := mover 3 (vreg 4 .f32 5 ∘ vreg 5 .f32 5 ∘ vreg 6 .f32 5 ∘ vreg 7 .f32 5 ∘ vreg 2 .f32 1);
      s.ctx.v[4].tag = .f32 ∧ (∀ i, i < 4 → s.vOk (vAt 4 i) = true ∧ s.ctx.v[vAt 4 i].tag = .f32) ∧ 0 < laneOf 32 s.ctx.v[2].val 0) ∧
    (let s := mover 3 (vreg 1 .n32 0x1478643C);
      s.ctx.v[1].tag = .n32 ∧ rtGood (laneOf 32 s.ctx.v[1].val 0) = true ∧ rtGood (laneOf 32 s.ctx.v[1].val 1) = true) ∧
    (let s := mover 3 (vreg 1 .i32 0x1578643C); rtGood (laneOf 32 s.ctx.v[1].val 0) = false ∧ (s.getK 0).getLsbD 0 = true) := by
  decide +kernel
theorem witness_LaneMoves : (let s := vs .f16 .n16;
      s.vOk 1 = true ∧ s.vOk 2 = true ∧ s.vOk (vAt 1 1) = true ∧ s.gOk 4 = true ∧ s.ctx.v[1].tag ≠ .q4 ∧ isInt s.ctx.v[2].tag = true ∧
      tagWidth s.ctx.v[2].tag = tagWidth s.ctx.v[1].tag) ∧
    (let s := vs .raw .i64; s.ctx.v[1].tag = .raw ∧ s.ctx.v[2].tag = .i64) ∧
    (let s := vs .n16 .n16; s.ctx.v[vAt 1 1].tag = s.ctx.v[1].tag) ∧ vTagOfCode (14 : BitVec 5).toNat = some .q4 := by decide +kernel
theorem witness_MaskOperations : sU.gOk 4 = true ∧ (7 : KNum) ≠ 0 := by decide +kernel
theorem witness_VectorFrame : (∃ t, exec (.vadd 3 1 2 0 false false) sU = .next t) ∧ (3 : BitVec 3).toNat < 4 ∧
    (∃ t, exec (.vld 3 4 false 8 0 0) sS = .next t) ∧ ∃ t, exec (.vst 3 4 false 0 0) sS = .next t := ⟨⟨_, rfl⟩, by decide, ⟨_, rfl⟩, _, rfl⟩
theorem witness_VectorSpans : (let s := mover 0 fun x => { reg 4 0x7FFF80 x with k := x.k.set 2 0x8000 };
      s.gOk 4 = true ∧ s.ctx.sent = [] ∧ vTagOfCode (8 : BitVec 4).toNat = some .f32 ∧ s.ctx.anyUnchecked = false ∧
      ownForm s.me (s.gVal 4) = true ∧ resolve s.me (s.gVal 4) = s.me ∧ (s.gVal 4).toNat % 128 = 0 ∧
      (s.access s.agent s.sup .rd 0x7FFF80 128).1 = .ok 0x7FFF80 ∧ (s.access s.agent s.sup .wr 0x7FFF80 64).1 = .ok 0x7FFF80 ∧
      active (s.getK 2) (tagLanes .f32) 15 = true ∧ (∀ i, i < 16 → active (s.getK 1) (tagLanes .f32) i = false) ∧
      max (s.ctx.clk + 1) (s.rts (granule 0x7FFF80) + 1) < clockLimit ∧ s.vOk 1 = true) ∧
    spanParts 0x8000 .f32 0 row ≠ [] ∧ spanParts 0 .f32 0 row = [] ∧ vTagOfCode (15 : BitVec 4).toNat = none ∧ (63 : VNum).val % 2 = 1 ∧
    (62 : VNum).val % 2 = 0 := by decide +kernel
/-- One active lane, lane 1. -/
def lane1 (a b : Word) : State := mover 0 fun x => { reg 4 a (reg 5 b (vreg 1 .i32 7 x)) with k := x.k.set 2 2 }
theorem witness_VectorElements : (let s := lane1 0x1000 4;
      s.gOk 4 = true ∧ s.gOk 5 = true ∧ s.vOk 1 = true ∧ s.ctx.sent = [] ∧ s.ctx.anyUnchecked = false ∧
      vTagOfCode (8 : BitVec 4).toNat = some .f32 ∧
      ((List.range (tagLanes .f32)).filter fun i => active (s.getK 2) (tagLanes .f32) i) = [1] ∧
      (let ea := s.gVal 4 + BitVec.ofNat 64 1 * s.gVal 5
       ea.toNat % 4 = 0 ∧ resolve s.me ea = s.me ∧ ownForm s.me ea = true ∧ inSpad (offOf ea) 4 = true ∧ s.badWord (offOf ea) 4 = false ∧
       s.spadAllowed s.sup .rd (offOf ea) 4 = true ∧ s.spadAllowed s.sup .wr (offOf ea) 4 = true ∧
       max (s.ctx.clk + 1) (s.wts (granule (offOf ea))) < clockLimit ∧ max (s.ctx.clk + 1) (s.rts (granule (offOf ea)) + 1) < clockLimit) ∧
      isInt s.ctx.v[1].tag = true ∧ tagWidth s.ctx.v[1].tag = tagWidth .f32 ∧ s.ctx.v[1].tag ≠ .f32 ∧
      ownForm s.me (s.ctx.e[1] + BitVec.ofInt 64 (laneInt s.ctx.v[1].tag (laneOf 32 s.ctx.v[1].val 1)) <<< 2) = true) ∧
    (let s := lane1 0x1000 0x4000100; bits (s.gVal 5) 24 3 = 4 ∧ bits (s.gVal 5) 0 24 % 128 = 0 ∧
      ownForm s.me (tileLane (s.gVal 4 + s.bump 4) 0x100 4 1) = true) ∧
    (let s := lane1 0x1000 0x3000080; bits (s.gVal 5) 24 3 = 3 ∧ bits (s.gVal 5) 0 24 % 256 ≠ 0) ∧
    bits (0x5000100 : Word) 24 3 = 5 := by decide +kernel

/-- The mover's first timeline, as given. -/
def timed (t : Timeline) (v : Word) : State := mover 3 fun x => { reg 4 v x with tl := x.tl.set 0 t }
/-- Core 0's copy operation of context c. -/
def copyOp (c : CtxId) : CopyOp := ⟨0, .pull, c, 0, 1, 0x1000, 0x2000, 64, 1, 0, 0, 0, [], false, .raw, false, 0, true, 0, 0, 0, 0, [], [], false, false,
  none, none⟩
theorem witness_Suspending : (sS.ctx.anyUnchecked = false ∧ sS.sup = true) ∧ (sU.ctx.anyUnchecked = false ∧ sU.sup = false) ∧
    sU.opsDone sU.cur = true ∧ (let s := timed ⟨0, 1, 0, 0, 0, [1], []⟩ 0; s.opsDone s.cur = false ∧ s.ctx.anyUnchecked = false) ∧
    sU.copyDone sU.cur = true ∧ sU.ctx.clkTrap = false ∧ sU.ctx.expb = sU.ctx.rcvb ∧
    (mover 3 fun x => { x with expb := 1 }).ctx.expb ≠ (mover 3 fun x => { x with expb := 1 }).ctx.rcvb ∧
    (sU.updEng fun e => { e with copies := [copyOp 3] }).copyDone 3 = false := by decide +kernel
theorem witness_Timelines : (let s := timed ⟨2, 3, 0, 0, 0, [3], []⟩ 4; s.gOk 4 = true ∧ s.ctx.tl[0].high < (s.gVal 4).toNat) ∧
    (let s := timed ⟨2, 3, 0, 0, 0, [3], []⟩ 3; (s.gVal 4).toNat ≤ s.ctx.tl[0].high ∧ s.ctx.tl[0].val < (s.gVal 4).toNat) ∧
    (let s := timed ⟨3, 3, 0, 0, 0, [], []⟩ 3; (s.gVal 4).toNat ≤ s.ctx.tl[0].val ∧ s.ctx.tl[0].ecause = 0 ∧ s.ctx.clkTrap = false) ∧
    (let s := timed ⟨3, 3, 3, 1, 0x15, [], []⟩ 2; (s.gVal 4).toNat ≤ s.ctx.tl[0].val ∧ (s.gVal 4).toNat < s.ctx.tl[0].enum) ∧
    (let s := timed ⟨3, 3, 3, 1, 0x15, [], []⟩ 3; (s.gVal 4).toNat ≤ s.ctx.tl[0].val ∧ s.ctx.tl[0].ecause ≠ 0 ∧ s.ctx.tl[0].enum ≤ (s.gVal 4).toNat) ∧
    (mover 3 fun x => { x with clkTrap := true }).ctx.clkTrap = true := by decide +kernel
/-- A watching context with its reply. -/
def watching (r : Reply) : State := mover 3 fun x => { x with sent := [(9, 0)], replies := [r] }
theorem witness_Watches : (let s := mover 3 (reg 4 0x7FFFF8);
      s.gOk 4 = true ∧ s.gOk 5 = true ∧ s.ctx.anyUnchecked = false ∧ (s.gVal 4).toNat % 8 = 0 ∧ inSpad (offOf (s.gVal 4)) 8 = true ∧
      resolve s.me (s.gVal 4) = s.me ∧ s.ctx.latch ≠ 1 ∧ s.ctx.sent = []) ∧
    (watching (.fire 9 5 7 none)).ctx.watchReply 9 = some (.fire 9 5 7 none) ∧ (watching (.expired 9)).ctx.watchReply 9 = some (.expired 9) ∧
    (watching (.refused 9)).ctx.watchReply 9 = some (.refused 9) ∧ (watching (.status 9 2)).ctx.watchReply 9 = some (.status 9 2) ∧
    (watching (.status 9 2)).ctx.sent = [(9, 0)] ∧ (mover 3 fun x => { x with latch := 1 }).ctx.latch = 1 ∧
    (let s := mover 0 (reg 4 0x100);
      ownForm s.me (s.gVal 4) = true ∧ (s.access s.agent s.sup .wr (offOf (s.gVal 4)) 8).1 = .ok 0x100 ∧ s.opsDone s.cur = true ∧
      max (max s.ctx.clk (s.opsTime s.cur) + 1) (s.rts (granule (offOf (s.gVal 4))) + 1) < clockLimit) ∧
    (let s := mover 0 fun x => { reg 4 0x100 x with tl := x.tl.set 0 ⟨0, 1, 0, 0, 0, [1], []⟩ }; s.opsDone s.cur = false) := by decide +kernel
/-- A group of one cluster: STATE, PHASE, whether its part is done. -/
def group (st : BitVec 2) (phase : Nat) (done : Bool) : Group := ⟨0, st, 0, 1, 2, phase, 0x100, 0x200, 0, done, 0, none, 0, 0, 0⟩
/-- Context 3 names group 5, which the cluster holds. -/
def member (g : Group) (f : Ctx → Ctx) : State :=
  (mover 3 fun x => f { x with bound := some ⟨0, false, 0, 0x0000000510000000, false⟩ }).updCl fun c => { c with groups := [(5, g)] }
theorem witness_Groups : (let s := member (group 1 0 false) id;
      s.gOk 4 = true ∧ s.ctx.anyUnchecked = false ∧ s.group? 5 = some (group 1 0 false) ∧ s.ctx.holdsGroup 5 = true ∧
      (group 1 0 false).st ≠ 0 ∧ (group 1 0 false).st ≠ 2 ∧ s.ctx.clk + 1 < clockLimit ∧ s.ctx.latch ≠ 3 ∧ s.ctx.arrived = none ∧
      (group 1 0 false).phase ≤ (s.gVal 4).toNat ∧ s.ctx.begun = false ∧ s.ctx.limitHit = false ∧ s.sup = false) ∧
    (member (group 1 0 false) (fun x => { x with limitHit := true })).ctx.limitHit = true ∧
    (let s := member (group 1 1 false) fun x => { x with arrived := some 0 };
      s.ctx.arrived = some 0 ∧ s.ctx.holdsGroup 5 = true ∧ 0 < (group 1 1 false).phase ∧ (s.gVal 4).toNat < (group 1 1 false).phase) ∧
    (let s := member (group 2 0 false) id; s.group? 5 = some (group 2 0 false) ∧ s.ctx.holdsGroup 5 = true) ∧
    (let s := member (group 1 0 true) id; s.group? 5 = some (group 1 0 true) ∧ (group 1 0 true).partDone = true) ∧
    sU.group? 5 = none ∧ (member (group 1 0 false) id).ctx.holdsGroup 6 = false := by decide +kernel
/-- Context 3 with a descriptor in e1. -/
def described (D A B g : Word) : State := mover 3 fun x => { (reg 4 A ∘ reg 5 B ∘ reg 6 g) x with e := x.e.set 1 D }
theorem witness_Spawning : (let s := described 0 0x400000 1 2;
      s.gOk 4 = true ∧ s.gOk 5 = true ∧ s.gOk 6 = true ∧ s.ctx.anyUnchecked = false ∧ bits s.ctx.e[1] 32 1 = 0 ∧ bits s.ctx.e[1] 63 1 = 0 ∧
      bits (s.gVal 4) 0 1 = 0 ∧ s.badGids s.issuer.2.2.1 s.issuer.2.2.2.1 = false ∧ s.badGids (BitVec.ofNat 4 (bits s.ctx.e[1] 33 4)) 0 = false ∧
      s.cl.outAmsg.length < 256) ∧
    (let s := (described 0x8000000000000000 0xFFF 0 0).putWord 0x3FFC0 0x3400000000000000;
      bits s.ctx.e[1] 63 1 = 1 ∧ (s.gVal 4).toNat < min (2 ^ 16) s.cl.par.contMax ∧ s.recState (s.gVal 4).toNat = 3 ∧
      bits (s.recWord (s.gVal 4).toNat 0) 56 4 = 4 ∧ bits (s.recWord (s.gVal 4).toNat 0) 48 6 = s.issuer.1.val) ∧
    (let s := described 0x8000000000000000 0 0 0; (s.gVal 4).toNat < min (2 ^ 16) s.cl.par.contMax ∧ s.recState (s.gVal 4).toNat ≠ 3) := by
  decide +kernel
/-- The hypotheses of a transfer that is sent. -/
def sends (s : State) (kind : CopyKind) (A B g : Word) : Bool :=
  let x := transferOf kind s.ctx.e[1] g
  let own := if kind = .hsend then A else B
  let o := offOf own
  let n := s.ctx.tl[0].high + bits s.ctx.e[1] 37 16
  decide (x.route ≠ 3) && !x.reserved && (if kind = .pullAdd then (addTag x.tagCode).isSome else decide (x.tagCode = 0)) && x.inRange &&
    (kind = .pullG || decide (A.toNat % 8 = 0)) && decide (B.toNat % 8 = 0) && decide (x.spitch % 8 = 0) && decide (x.dpitch % 8 = 0) &&
    decide (x.listAt % 8 = 0) && ownForm s.me own && (kind ≠ .copy || ownForm s.me A) && (inSpad o x.span || inHbm o x.span) &&
    (!x.fe || (inSpad o x.span && kind ≠ .hsend)) && (kind ≠ .hget || s.ingestOf o x.len ≠ .bad) &&
    (kind ≠ .pullG || inSpad x.listAt (8 * x.rows)) && decide (resolve s.me A = s.me) && decide (0 < n) && decide (n < 2 ^ 64) &&
    s.gOk 4 && s.gOk 5 && s.gOk 6 && !s.ctx.anyUnchecked && bits s.ctx.e[1] 54 2 = 0
/-- LEN 8, INC 1; at the top of scratchpad, and LEN 2^24 at the top of HBM; two rows, two list entries, tag I32. -/
theorem witness_Transfers : (let s := described 0x2000000008 0x1000 0x7FFFF8 0;
      sends s .pull 0x1000 0x7FFFF8 0 ∧ sends s .copy 0x1000 0x7FFFF8 0 ∧ sends s .hget 0x1000 0x7FFFF8 0 ∧ sends s .hsend 0x7FFFF8 0x1000 0) ∧
    sends (described 0x2001000000 0x1000 0x10FF000000 0) .pull 0x1000 0x10FF000000 0 ∧
    sends (described 0x2000000008 0 0 0x0002000000000008) .pull2d 0x1000 0x2000 0x0002000000000008 ∧
    sends (described 0x2000000008 0 0 0x0002000000000008) .pullG 0 0x2000 0x0002000000000008 ∧
    sends (described 0x0300002000000008 0 0 0) .pullAdd 0x1000 0x2000 0 ∧ sU.copyInFlight 0 < 128 ∧
    128 ≤ (sU.updEng fun e => { e with copies := List.replicate 128 (copyOp 5) }).copyInFlight 0 := by decide +kernel
theorem witness_SyncFrame : (∃ t, exec (.tlrd 3 0) sU = .next t) ∧ (mover 3 fun x => { x with st := .issued }).ctx.st ≠ .idle ∧
    (∃ t, exec .yield (mover 3 fun x => { x with st := .issued }) = .next t) := ⟨⟨_, rfl⟩, by decide +kernel, _, rfl⟩

theorem witness_SpecialRegisters : sU.gOk 4 = true ∧ sU.sup = false ∧ sS.sup = true ∧ sS.gOk 4 = true ∧
    ((mover 0 (reg 4 1)).gVal 4).getLsbD 0 = true ∧ (sS.gVal 4).getLsbD 0 = false ∧
    (sS.updCl fun c => { c with part := some 1 }).cl.part = some 1 ∧ 0x8015 < (0xFFFF : BitVec 16).toNat ∧ 0x0005 < (6 : BitVec 16).toNat ∧
    (6 : BitVec 16).toNat < 0x8000 ∧ 0x8000 ≤ (0x8000 : BitVec 16).toNat ∧
    (sU.updMod fun m => { m with cal := { m.cal with nslot := 128 } }).mod.cal.nslot ≤ 128 ∧ (271 : BitVec 10).toNat = 16 + 2 * 127 + 1 ∧
    (400 : BitVec 10).toNat = 400 := by decide +kernel
/-- A prefix whose target is `add g3, g4, g5`, or an instruction that may not be repeated. -/
def repeated (i : Instr) (j : BitVec 6) : State := { mover 3 (fun x => { x with repidx := j }) with target := some (i, 4) }
theorem witness_RepeatPrefix : (repeated (.add 3 4 5 false false) 0).target = some (.add 3 4 5 false false, 4) ∧
    (stepKinds (.add 3 4 5 false false)).isSome = true ∧ stepKinds .nop = none ∧
    (stepKinds (.erd 3 0)) = some (true, false, false) ∧ (3 : BitVec 6).toNat < (repeated (.add 3 4 5 false false) 4).ctx.repidx.toNat ∧
    (repeated (.add 3 4 5 false false) 3).ctx.repidx.toNat ≤ (3 : BitVec 6).toNat := by decide +kernel
/-- A descriptor: tag code, rows, columns, pitch in 16-byte units, base. -/
def desc (tag rows cols pitch base : Nat) : TWord := BitVec.ofNat 128 (tag * 2 ^ 59 + rows * 2 ^ 47 + cols * 2 ^ 37 + pitch * 2 ^ 23 + base)
/-- Context 0 with t1 set. -/
def tiled (w : TWord) (A B : Word) : State := mover 0 fun x => { reg 4 A (reg 5 B x) with t := x.t.set 1 w }
theorem witness_TileRegisters : tileFault (desc 8 64 64 16 0x7FC000) = none ∧ tileFault (desc 8 64 64 16 0x7FC010) = some (0x15, 0) ∧
    tileFault (desc 0x12 64 64 16 0) = some (0x06, 0) ∧ tileFault (desc 8 64 64 16 8) = some (0x07, 8) ∧
    tileFault (desc 8 0 64 16 0) = some (0x15, 0) ∧
    (let s := tiled (desc 5 64 64 4 0x1000) 0x0100000000000000 0;
      s.gOk 4 = true ∧ bits (s.gVal 4) 0 56 = 0 ∧ bits (s.gVal 4) 59 5 = 0 ∧ bits (s.gVal 4) 56 3 ≠ 0 ∧ tileFault s.ctx.t[1] = none ∧
      (tileOf s.ctx.t[1]).tag = .n8 ∧ (∀ p ∈ (tileOf s.ctx.t[1]).spans, s.spadAllowed s.sup .rd p.1 p.2 = true)) ∧
    bits (1 : Word) 0 56 ≠ 0 := by decide +kernel
theorem witness_DirectMatrix : (let s := tiled (desc 0xA 128 64 8 0x1000) 0 0;
      s.gOk 4 = true ∧ s.gOk 5 = true ∧ s.ctx.anyUnchecked = false ∧ s.ctx.tu[1] = [] ∧ loadFault s.ctx.t[1] false s.ctx.spl = none ∧
      passFault s.ctx.t[1] (s.gVal 4) = none ∧ bits (s.gVal 4) 7 55 = 0 ∧
      (∀ x ∈ (⟨.load false, s.ctx.t[1], 0, 0, s.ctx.spl, s.sup, 0, 0, 0, 0⟩ : MatJob).reads, s.spadAllowed s.sup .rd x.1 x.2 = true) ∧
      (∀ x ∈ (⟨.pass, s.ctx.t[1], 0, 0, SparsityLatch.reset, s.sup, 0, 0, 0, 0⟩ : MatJob).reads, s.spadAllowed s.sup .rd x.1 x.2 = true) ∧
      (s.eng.queue.length < 16)) ∧
    loadFault (desc 0xA 64 128 16 0x1000) true SparsityLatch.reset = none ∧ loadFault (desc 5 64 64 4 0) false SparsityLatch.reset = some (0x06, 0) ∧
    passFault (desc 0xA 128 64 8 0x1000) 1 = some (0x15, 0) ∧ bits (127 : Word) 0 7 + bits (127 : Word) 8 7 < 128 ∧
    (let s := tiled (desc 8 128 64 16 0x1000) 0x100000 0x7F7FFFFF;
      cvtReserved (s.gVal 4) = false ∧ cvtFault s.ctx.t[1] (s.gVal 4) = none ∧ bits (s.gVal 4) 20 1 = 1 ∧ 0 < bits (s.gVal 5) 0 32 ∧
      bits (s.gVal 5) 0 32 < 0x7F800000 ∧ (∀ x ∈ (tileOf s.ctx.t[1]).spans, s.spadAllowed s.sup .wr x.1 x.2 = true)) ∧
    bits (0x7F800000 : Word) 0 32 = 0x7F800000 := by decide +kernel
/-- Context 0 names the task record of index 32, KIND 0, numbered 1. -/
def tasked (A : Word) : State := (mover 0 (reg 4 A)).putWord 0x1008 1
/-- A live task. -/
def liveTask : LiveTask := ⟨0, 3, true, true, false, 0, 0, 0, 0, 0, 0, 0, 0, 0, 1⟩
theorem witness_TaskSubmission : (let s := tasked 0x1000;
      s.gOk 4 = true ∧ s.ctx.anyUnchecked = false ∧ ownForm s.me (s.gVal 4) = true ∧ inSpad (offOf (s.gVal 4)) 1 = true ∧
      offOf (s.gVal 4) % 128 = 0 ∧ s.taskValid 32 = true ∧ s.eng.tasks.length < 256 ∧ 0 < (s.taskWord 32 1).toNat ∧
      s.ctx.tl[0].high ≤ (s.taskWord 32 1).toNat) ∧
    (let s := mover 0 (reg 4 0x1000); s.taskValid 32 = true ∧ (s.taskWord 32 1).toNat = 0) ∧
    ((tasked 0x1000).putWord 0x1000 0x0F00000000000000).taskValid 32 = false ∧ ownForm sS.me 0x8010000000001000 = false ∧
    inSpad 0x800000 1 = false ∧ 256 ≤ ((tasked 0x1000).updEng fun e => { e with tasks := List.replicate 256 liveTask }).eng.tasks.length := by
  decide +kernel
theorem witness_SystemFrame : (∃ t, exec (.srd 3 0) sU = .next t) ∧ (∃ t, exec (.mswap) sU = .next t) ∧
    ∃ t, exec (.cstart 3 4 false) sS = .next t := ⟨⟨_, rfl⟩, ⟨_, rfl⟩, _, rfl⟩
theorem witness_Privilege : (let s := mover 3 (reg 4 0x7FFFF8);
    s.sup = false ∧ s.gOk 4 = true ∧ s.gOk 5 = true ∧ s.ctx.anyUnchecked = false ∧
    (let ea := s.gVal 4 + (0 : BitVec 10).signExtend 64 * 8 + s.bump 8
     ownForm s.me ea = true ∧ ea.toNat % 8 = 0 ∧ inSpad (offOf ea) 8 = true ∧ s.spadAllowed false .wr (offOf ea) 8 = false)) ∧
    0x8000 ≤ (0x8000 : BitVec 16).toNat := by decide +kernel
/-- Context 0 moves; context 3 as given. -/
def other (f : Ctx → Ctx) : State := ((mover 0 (reg 4 3)).updCtx 3 f)
/-- A record bound. -/
def bound0 : Bound := ⟨0, false, 0, 0, false⟩
/-- A record of context 3's trap. -/
def trapRec : TrapRec := ⟨0x0A, 3, false, 0, 0, 0x400000, 0, 0⟩
/-- Context 0 in a handler, TREC naming context 3. -/
def handling (f : Ctx → Ctx) (A : Word) : State :=
  ((mover 0 (reg 4 A)).updCtx 3 f).updCore 0 fun k => { k with hnd := true, trec := k.trec.set 0 0x0A30000000000000 }
theorem witness_ContextControl : (let s := other id; s.sup = true ∧ s.gOk 4 = true ∧ s.gOk 5 = true ∧ s.badCtx 3 = false ∧ (s.getCtx 3).st = .idle ∧
      s.ctx.begun = false ∧ s.badCtx 0 = true ∧ s.atRest 3 = false) ∧
    ((other fun x => { x with st := .stopped, retry := { x.retry with v := true } }).getCtx 3).st = .stopped ∧
    ((other fun x => { x with st := .ready }).getCtx 3).st = .ready ∧ ((other fun x => { x with st := .issued }).getCtx 3).st = .issued ∧
    (let s := other fun x => { x with st := .blocked, wait := some .copySlot };
      (s.getCtx 3).st = .blocked ∧ (s.getCtx 3).susp = none ∧ s.agenda.contains (.twinRestart 3) = false) ∧
    ((other fun x => { x with st := .faulted }).atRest 3 = true ∧ ((other fun x => { x with st := .faulted }).cancelTasks 3).opsDone 3 = true) ∧
    (let s := other fun x => { x with st := .stopped, tl := x.tl.set 0 ⟨0, 1, 0, 0, 0, [1], []⟩ };
      s.atRest 3 = true ∧ (s.cancelTasks 3).opsDone 3 = false) ∧
    (other id |>.upd fun x => { x with begun := true }).ctx.begun = true := by decide +kernel
theorem witness_ContextControl_tret : sS.core.hnd = false ∧
    (let s := handling (fun x => { x with st := .faulted }) 0;
      s.sup = true ∧ s.gOk 4 = true ∧ s.core.hnd = true ∧ bits s.core.trec[0] 52 4 = 3 ∧ (s.getCtx 3).st = .faulted ∧ s.hasRecord 3 = false ∧
      (s.gVal 4).toNat % 4 = 0 ∧ ((s.reads [4]).cancelTasks 3).opsDone 3 = true) ∧
    ((handling id 1).getCtx 3).st ≠ .faulted ∧ ((handling id 1).gVal 4).toNat % 4 = 1 ∧ ((handling id 6).gVal 4).toNat % 4 = 2 ∧
    ((handling id 7).gVal 4).toNat % 4 = 3 := by decide +kernel
/-- Context 3 STOPPED with record 0 BOUND. -/
def stopped3 : State := (other fun x => { x with st := .stopped, bound := some bound0, pc := 0x400000 }).putWord 0x0 0x2000000000000000
/-- Its image in the cache at home 0x10000; the context is IDLE. -/
def cached (img : List Byte) : State :=
  (((mover 0 (reg 4 3 ∘ reg 5 0x10000)).putWord 0x0 0x2000000000000000).updCore 0 fun k => { k with tcc := k.tcc.set 0 (some ⟨0x10000, img, true, 1⟩) })
/-- What the checks of an image answer: 16 where it may be restored. -/
noncomputable def checkCode (s : State) (l : List Byte) : Nat := match s.imageCheck l false with | .inl n => n | .inr _ => 16
/-- A span that the checks allow. -/
def allowedSpan (s : State) (o n : Nat) : Bool := match (s.span s.agent true .wr o n).1 with | .ok _ => true | _ => false
theorem witness_ContextImages : (let s := stopped3;
      s.sup = true ∧ s.gOk 4 = true ∧ s.badCtx 3 = false ∧ s.atRest 3 = true ∧ s.opsDone 3 = true ∧ (s.getCtx 3).damaged = false ∧
      allowedSpan s 0x10000 5120 = true ∧ s.tccFind 0x10000 = none ∧ s.tcc.getD 0 none = none ∧ ownForm s.me 0x10000 = true ∧
      inSpad 0x7FEC00 5120 = true ∧ inSpad 0x7FEC80 5120 = false) ∧
    (let s := cached []; (s.getCtx 3).st = .idle ∧ s.tccFind 0x10000 = some 0 ∧ (s.tcc.getD 0 none).isSome = true ∧ checkCode s [] = 6) := by
  decide +kernel
theorem witness_ContextImages_restored : checkCode (cached []) (stopped3.imageOf 3) = 16 := by decide +kernel
theorem witness_Maintenance : (let s := mover 0 (reg 4 5 ∘ reg 5 0x8000000000000000);
      s.sup = true ∧ s.gOk 4 = true ∧ s.gOk 5 = true ∧ s.cl.par.prlock.toNat / 2 ^ 5 % 2 = 0 ∧
      ¬(bits (s.gVal 5) 47 9 ≠ 0 ∨ bits (s.gVal 5) 15 17 ≠ 0 ∨ (bits (s.gVal 5) 63 1 = 1 ∧ bits (s.gVal 5) 32 15 < bits (s.gVal 5) 0 15)) ∧
      s.eng.idle = true ∧ s.ctx.begun = false ∧ s.tccFind (s.gVal 4) = none ∧ s.cl.policy.shadow = none) ∧
    (0x20 : BitVec 16).toNat / 2 ^ 5 % 2 = 1 ∧ bits (0x0000000000008000 : Word) 15 17 ≠ 0 ∧
    (sS.updEng fun e => { e with queue := [⟨⟨.swap, 0, 0, 0, SparsityLatch.reset, true, 0, 0, 0, 0⟩, 3, none⟩] }).eng.idle = false ∧
    (3 : Word).toNat % 4 = 3 ∧ ownForm sS.me 0x8010000000000100 = false ∧
    (let s := cached []; s.tccFind 0x10000 = some 0 ∧
      (s.updCore 0 fun k => { k with tcc := k.tcc.set 0 (some ⟨0x10000, [], false, 1⟩) }).tcc.getD 0 none = some ⟨0x10000, [], false, 1⟩) ∧
    inSpad (0x7FFF80 / 128 * 128) 128 = true ∧ 0 < 256 ∧
    (let s := sS; inSpad 0x1000 (2 * 256) = true ∧ s.spadAllowed true .rd 0x1000 512 = true ∧ s.badWord 0x1000 512 = false ∧
      ((granulesOf 0x1000 512).foldlM (fun (x : State) g =>
        let T := max (x.ctx.clk + 1) (x.wts (granule (128 * g)))
        if T < clockLimit then some ((x.stampRead (granule (128 * g)) T).setClk T) else none) s).isSome = true) ∧
    (sS.updPol fun p => { p with shadow := some [0xE000] }).cl.policy.shadow ≠ none ∧ policyOk [0xE000] = true ∧ policyOk [0] = false := by
  decide +kernel
/-- Context 3 BLOCKED on a watch, its record bound. -/
def waiting3 (w : Wait) (p : Option Susp) : State := other fun x => { x with st := .blocked, wait := some w, susp := p, bound := some bound0 }
/-- A record of context 3 held in core 0's trap queue. -/
def held3 (h : Hold) : State := (other fun x => { x with st := .faulted, bound := some bound0 }).updCore 0 fun k => { k with tq := [⟨trapRec, h⟩] }
/-- A policy program in force. -/
def policy (prog : List (BitVec 16)) (s : State) : State := s.updPol fun p => { p with prog := prog }
/-- Record 0 QUEUED in queue 0 since a cycle, of class 9 and no affinity. -/
def queued0 (since cycles : Nat) : State :=
  (((other id).putWord 0x0 0x1000000000000000).putWord 0x8 0x000000000000FFFF |>.updCl fun c => { c with queues := c.queues.set 0 [⟨0, since, false⟩] }).updMod
    fun m => { m with cycles := cycles }
theorem witness_Decisions_suspending : (let s := waiting3 (.watch 1 5) none;
      (s.getCtx 3).bound ≠ none ∧ (s.getCtx 3).st = .blocked ∧ (s.getCtx 3).susp = none ∧ s.formMet 3 = false) ∧
    (waiting3 (.group 5 0) none |>.updCl fun c => { c with groups := [(5, group 1 0 false)] }).formMet 3 = false ∧
    (let s := waiting3 .allOps (some (.yield 0x400004));
      (s.getCtx 3).bound = some bound0 ∧ (s.getCtx 3).susp = some (.yield 0x400004) ∧ s.opsDone 3 = true ∧ s.cl.revoked.contains 0 = false) ∧
    ((waiting3 .allOps (some (.park 0x400004))).getCtx 3).susp = some (.park 0x400004) ∧
    (waiting3 (.watch 1 5) (some (.waiting 1))).formMet 3 = false ∧
    (waiting3 (.group 6 0) (some (.waiting 2))).formMet 3 = true := by decide +kernel
theorem witness_Decisions_faults : (let s := held3 .decision;
      s.running = true ∧ s.heldRec 3 = some ⟨trapRec, .decision⟩ ∧ s.decisionFirst (.faultDecision 3) = true ∧ (s.getCtx 3).side = false ∧
      (s.decide' (.fault 3)).1 = .dflt) ∧
    ((policy [0xD000] (held3 .decision)).decide' (.fault 3)).1 = .fate 0 ∧ ((policy [0xD001] (held3 .decision)).decide' (.fault 3)).1 = .fate 1 ∧
    ((policy [0xD002] (held3 .decision)).decide' (.fault 3)).1 = .fate 2 ∧ ((policy [0xD003] (held3 .decision)).decide' (.fault 3)).1 = .fate 3 ∧
    (held3 (.reap 2)).heldRec 3 = some ⟨trapRec, .reap 2⟩ ∧ (held3 (.reap 2)).opsDone 3 = true := by decide +kernel
theorem witness_Decisions_dispatch : (let s := queued0 0 1048576;
      s.running = true ∧ (s.getCtx 3).st = .idle ∧ ((List.range 8).filterMap (s.candidate 3)) = [⟨0, 0, false⟩] ∧
      s.decisionFirst (.dispatchDecision 3) = true ∧ s.cl.par.ageMax ≤ s.mod.cycles - 0) ∧
    (let s := queued0 0 1048575; ¬(s.cl.par.ageMax ≤ s.mod.cycles - 0) ∧ (s.decide' (.dispatch 3)).1 = .dflt ∧
      (s.decide' (.dispatch 3)).2.builtIn [⟨0, 0, false⟩] = some ⟨0, 0, false⟩) ∧
    ((policy [0xC000] (queued0 0 5)).decide' (.dispatch 3)).1 = .take 0 ∧ (policy [0xC000] (queued0 0 5)).candidate 3 0 = some ⟨0, 0, false⟩ ∧
    ((policy [0xD800] (queued0 0 5)).decide' (.dispatch 3)).1 = .none := by decide +kernel
/-- Record 0 QUEUED at class 2 (R18) while contexts 1 to 15 of every core run class 0. -/
def crowded : State :=
  { (queued0 0 0).putWord 0x8 0x000000000400FFFF with
    ctxs := Vector.replicate 64 { Ctx.reset with st := .ready, bound := some bound0 }, cur := 0 }
theorem witness_Decisions_preempt : (let s := crowded;
      s.running = true ∧ s.queued.any (fun e => e.idx = 0) = true ∧ s.idleFor (s.recWord 0 1) = none ∧ s.cl.preempting = [] ∧
      s.decisionFirst (.preemptDecision 0) = true ∧ (s.decide' (.preempt 0)).1 = .dflt ∧ (s.victim 0 (s.recWord 0 1)).isSome = true ∧
      s.victim 0 0 = none) ∧
    ((policy [0xC800] crowded).decide' (.preempt 0)).1 = .vict 0 ∧
    (let s := (sS.updPol fun p => { p with shadow := some [0xE000], swapKeep := some true });
      s.cl.policy.swapKeep = some true ∧ s.cl.policy.shadow = some [0xE000]) := by decide +kernel
theorem witness_Starvation : (let s := queued0 0 1048576;
      s.running = true ∧ (s.getCtx 3).st = .idle ∧ s.decisionFirst (.dispatchDecision 3) = true ∧
      ((List.range 8).filterMap (s.candidate 3)).filter (fun x => decide (s.cl.par.ageMax ≤ s.mod.cycles - x.since)) =
        [] ++ (⟨0, 0, false⟩ : QEnt) :: []) := by decide +kernel
/-- Core 0 with its trap queue, its fatal record, and the dump area of the cluster. -/
def faulty (dump : Nat) (f : Option TrapRec) (x : Ctx → Ctx) : State :=
  ((other x).updCore 0 fun k => { k with tq := [⟨trapRec, .none⟩], fatq := f, tmask := false }).updCl fun c =>
    { c with par := { c.par with dumpOff := dump } }
/-- Does the dump of context 3's fatal fault succeed? -/
noncomputable def dumped (s : State) (scope : Nat) : Bool :=
  let (img, u) := s.dumpImage 3 false
  (u.dump 0 3 scope 0x18 img [trapRec] 0).isSome
theorem witness_FaultEvents : (let s := (faulty 0x100000 none id).updCtx 0 fun x => { x with st := .ready };
      s.handlerDue 0 = true ∧ ((s.getCore 0).takeNext).isSome = true) ∧
    (let s := faulty 0x100000 none fun x => { x with begun := true, st := .faulted };
      s.cl.killed = false ∧ numOf 3 ≠ 0 ∧ trapRec.cause ≠ 0x19 ∧ (s.getCore 0).fatq = none ∧ (s.getCtx 3).begun = true ∧ s.opsDone 3 = true) ∧
    ((faulty 0x800000 none id).getCtx 3).begun = false ∧ ((faulty 0 (some trapRec) id).getCore 0).fatq = some trapRec ∧
    (let s := (other fun x => { x with st := .ready, bound := some bound0, atomicDone := true }).updCl fun c =>
        { c with par := { c.par with twin := true } };
      (s.getCtx 3).bound = some bound0 ∧ s.cl.par.twin = true ∧ (s.getCtx 3).st = .ready ∧ (s.getCtx 3).atomicDone = true) ∧
    (let s := other fun x => { x with st := .blocked, bound := some bound0 }; (s.getCtx 3).atomicDone = false ∧ s.opsDone 3 = true ∧
      (s.getCtx 3).stopReq = none) ∧
    (⟨0, 1, 0⟩ : ClusterId) ≠ sS.me ∧
    (let s := (waiting3 (.mig 0x100) none).putWord 0x100 0x0400000000000000; (s.getCtx 3).wait = some (.mig 0x100) ∧ bits (s.word 0x100) 58 1 = 1) ∧
    bits ((waiting3 (.mig 0x100) none).word 0x100) 58 1 = 0 ∧
    (let s := (waiting3 (.feWord 0x20 true) none).updCl fun c => { c with feLast := [(0x20, 63)] };
      s.cl.feLast.find? (fun p => p.1 = 0x20) = some (0x20, 63) ∧ s.nextWaiter 0x20 64 = some 3 ∧ s.nextWaiter 0x21 64 = none) ∧
    (sS.updCl fun c => { c with part := some 1 }).cl.part = some 1 ∧
    (let s := (other fun x => { x with st := .stopped }).updCore 0 fun k => { k with csel := 3 };
      numOf (ctxOf (coreOf s.cur) (s.getCore 0).csel) ≠ 0 ∧ (s.getCtx 3).st = .stopped) := by decide +kernel
theorem witness_FaultEvents_dump : dumped (faulty 0x800000 none id) 0 = false ∧ dumped (faulty 0x100000 none id) 0 = true := by decide +kernel
/-- A watch registration from cluster (0, 0) itself. -/
def watchReq (thr : Word) (limit : Option Nat) : WatchReq := ⟨⟨0, 0, 0⟩, some 3, none, 9, 0x7FFFF8, thr, 0, limit, 0, true⟩
theorem witness_WatchEvents_owner : (let s := sS; let w := watchReq 0 none;
      s.cl.killed = false ∧ w.part = s.cl.part.getD 0 ∧ inSpad w.off 8 = true ∧ s.spadAllowed (decide (w.src = s.me) && w.sup) .rd w.off 8 = true ∧
      s.badWord w.off 8 = false ∧ s.cl.watches.any (fun x => x.src = w.src && x.tag = w.tag) = false ∧ w.thr.toNat ≤ (s.word w.off).toNat) ∧
    (sS.word 0x7FFFF8).toNat < (watchReq 1 (some 0)).thr.toNat ∧ (watchReq 1 (some 0)).limit = some 0 ∧ (watchReq 1 (some 5)).limit ≠ some 0 ∧
    2048 ≤ (sS.updCl fun c => { c with watches := List.replicate 2048 (watchReq 1 none) }).cl.watches.length ∧
    (sS.updCl fun c => { c with watches := [watchReq 1 (some 5)] }).cl.watches.any (fun x => x.src = (⟨0, 0, 0⟩ : ClusterId) && x.tag = 9) = true := by
  decide +kernel
theorem witness_WatchEvents_watcher : (let s := (waiting3 (.watch 9 5) none).updCl fun c => { c with watchOut := [(9, ⟨0, 0, 0⟩)] };
      s.cl.watchOut.any (fun p => p.1 = 9) = true ∧ s.watcher 9 = some (.ctx 3)) ∧
    (let s := sS.updCl fun c => { c with watchOut := [(9, ⟨0, 0, 0⟩)], suspended := [.watch 7 9 5] };
      s.cl.watchOut.any (fun p => p.1 = 9) = true ∧ s.watcher 9 = some (.record 7 5)) ∧
    (let s := sS.updCl fun c => { c with watchOut := [(9, ⟨0, 0, 0⟩)], groups := [(5, { group 1 0 true with rtag := some 9 })] };
      s.watcher 9 = some (.round 5)) ∧ sS.cl.watchOut.any (fun p => p.1 = 9) = false := by decide +kernel
/-- A group of four clusters in a round of a phase. -/
def podGroup (round : Nat) : Group := ⟨1, 1, 0, 4, 2, 0, 0x100, 0x200, 0, true, round, none, 0, 0, 0⟩
/-- A creation asked for by cluster (0, 1). -/
def creation : AMsg := ⟨⟨0, 0, 0⟩, true, 0, 0x400000, 1, 2, 0, 0, 0, 0, false, 0, false, 5, ⟨0, 0, 1⟩, 0⟩
theorem witness_WatchEvents_groups : (let s := sS.updCl fun c => { c with groups := [(5, podGroup 0)] };
      s.group? 5 = some (podGroup 0) ∧ (podGroup 0).st = 1 ∧ (podGroup 0).partDone = true ∧ (podGroup 0).rtag = none ∧
      (podGroup 0).round + 1 < (podGroup 0).rounds ∧
      s.cl.groups.filter (fun g => g.2.st = 1 && (s.membersOf g.2).contains (⟨0, 0, 0⟩ : ClusterId)) = [(5, podGroup 0)] ∧
      s.cl.groups.filter (fun g => g.2.st = 1 && (s.membersOf g.2).contains (⟨0, 0, 1⟩ : ClusterId)) = []) ∧
    (podGroup 1).rounds ≤ (podGroup 1).round + 1 ∧ ((waiting3 (.group 5 0) none).getCtx 3).wait = some (.group 5 0) ∧
    sS.cl.killed = false ∧ sS.cl.revoked.contains creation.ptag.val = false ∧
    (sS.updCl fun c => { c with revoked := [0] }).cl.revoked.contains creation.ptag.val = true ∧
    (sS.updCl fun c => { c with outAmsg := [creation] }).cl.outAmsg.find? (fun m => m.target = (⟨0, 0, 0⟩ : ClusterId)) = some creation := by
  decide +kernel
/-- A host message for cluster (0, 0) or another, its tag as given. -/
def hostMsg (w0 : Word) (t : BitVec 128) : HostMsg := ⟨[w0, 0x400000, 1, 2, 0, 1, t.setWidth 64, (t >>> 64).setWidth 64]⟩
/-- The tag of a host message under key 0. -/
noncomputable def hostMac (m : HostMsg) : BitVec 128 :=
  Config.authTag 0 (2 ^ 88 + hostPtag m * 2 ^ 80 + (hostWord m 5).toNat * 2 ^ 16) ((List.range 6).flatMap fun i => toLe 8 (hostWord m i).toNat)
/-- A host message with its tag. -/
noncomputable def tagged (w0 : Word) : HostMsg := hostMsg w0 (hostMac (hostMsg w0 0))
/-- A partition of two clusters with participant 0, bound to function 1. -/
def partition : Partition := ⟨1, 1, [⟨0, 0, 0⟩, ⟨0, 0, 1⟩], [0], [], [(0, 0)], [], [], [], [⟨⟨0, 0, 0⟩, 0, true⟩], 0, 0x100000, 0, true, []⟩
/-- The module holds it. -/
def launched : State := (sS.updMod fun m => { m with parts := [partition] }).updCl fun c => { c with part := some 1 }
theorem tagged_ok (w0 : Word) : hostTagOk (tagged w0) 0 = true := by
  have w (t : BitVec 128) (i : Nat) (h : i < 6) : hostWord (hostMsg w0 t) i = hostWord (hostMsg w0 0) i :=
    match i, h with
    | 0, _ => rfl | 1, _ => rfl | 2, _ => rfl | 3, _ => rfl | 4, _ => rfl | 5, _ => rfl
  have e (t : BitVec 128) : hostMac (hostMsg w0 t) = hostMac (hostMsg w0 0) := by
    have p : hostPtag (hostMsg w0 t) = hostPtag (hostMsg w0 0) := by unfold hostPtag; rw [w t 0 (by omega)]
    have l : ((List.range 6).flatMap fun i => toLe 8 (hostWord (hostMsg w0 t) i).toNat) =
        (List.range 6).flatMap fun i => toLe 8 (hostWord (hostMsg w0 0) i).toNat := by
      rw [List.flatMap_def, List.flatMap_def, List.map_congr_left fun i hi => by rw [w t i (List.mem_range.mp hi)]]
    unfold hostMac
    rw [p, l, w t 5 (by omega)]
  have h : hostTagOk (tagged w0) 0 = decide ((hostWord (tagged w0) 6).toNat + (hostWord (tagged w0) 7).toNat * 2 ^ 64 =
    (hostMac (tagged w0)).toNat) := rfl
  have a : hostWord (tagged w0) 6 = (hostMac (hostMsg w0 0)).setWidth 64 := rfl
  have b : hostWord (tagged w0) 7 = (hostMac (hostMsg w0 0) >>> 64).setWidth 64 := rfl
  have n := (hostMac (hostMsg w0 0)).isLt
  rw [h, a, b, tagged, e (hostMac (hostMsg w0 0))]
  simp only [decide_eq_true_eq, BitVec.toNat_setWidth, BitVec.toNat_ushiftRight, Nat.shiftRight_eq_div_pow]
  omega
/-- Nothing rejects a host message under these conditions. -/
theorem not_rejected (s : State) (fn : Fin 17) (m : HostMsg) (q : Partition) (h : s.hostPart fn m = some q)
    (t : (q.ikey (hostPtag m)).any (hostTagOk m) = true) (n : q.msgids.any (fun k => k.1 = hostPtag m && decide ((hostWord m 5).toNat ≤ k.2)) = false)
    (r : hostReserved m = true) (c : q.clusters.contains (hostTarget m) = true) (p : bits (hostWord m 1) 0 1 = 0)
    (g : s.badGids (BitVec.ofNat 4 (bits (hostWord m 0) 28 4)) (BitVec.ofNat 32 (bits (hostWord m 4) 0 32)) = false)
    (v : q.revoked.contains (hostPtag m) = false) (k : s.cl.killed = false) : s.hostReject fn m = none := by
  simp only [State.hostReject, h, t, n, r, c, p, g, v, k, Bool.not_true, Bool.and_false, Bool.false_eq_true, if_false]
  rfl
theorem tagged_part (w0 : Word) (k : bits w0 32 6 = 0) (c : partition.clusters.contains (hostTarget (tagged w0)) = true) :
    launched.hostPart 1 (tagged w0) = some partition := by
  have p : hostPtag (tagged w0) = 0 := k
  have f : launched.mod.parts = [partition] := rfl
  have m : (decide (partition.fn = 1) && partition.participants.contains 0) = true := by decide +kernel
  simp only [State.hostPart, p, f, List.find?_cons, m, c, Bool.and_self, Option.some_or]
theorem tagged_key (w0 : Word) (k : bits w0 32 6 = 0) : (partition.ikey (hostPtag (tagged w0))).any (hostTagOk (tagged w0)) = true := by
  have p : hostPtag (tagged w0) = 0 := k
  have i : partition.ikey 0 = some 0 := by decide +kernel
  rw [p, i, Option.any_some, tagged_ok]
theorem tagged_reserved (w0 : Word) (z : bits w0 0 28 = 0) : hostReserved (tagged w0) = true := by
  have a : hostWord (tagged w0) 0 = w0 := rfl
  have b : hostWord (tagged w0) 1 = 0x400000 := rfl
  have c : hostWord (tagged w0) 4 = 0 := rfl
  simp only [hostReserved, a, b, c, z]; decide +kernel
theorem tagged_groups (w0 : Word) (g : bits w0 28 4 = 0) :
    launched.badGids (BitVec.ofNat 4 (bits (hostWord (tagged w0) 0) 28 4)) (BitVec.ofNat 32 (bits (hostWord (tagged w0) 4) 0 32)) = false := by
  have a : hostWord (tagged w0) 0 = w0 := rfl
  have b : hostWord (tagged w0) 4 = 0 := rfl
  rw [a, b, g]; decide +kernel
theorem tagged_passes (w0 : Word) (k : bits w0 32 6 = 0) (c : partition.clusters.contains (hostTarget (tagged w0)) = true)
    (z : bits w0 0 28 = 0) (g : bits w0 28 4 = 0) : launched.hostReject 1 (tagged w0) = none := by
  have b : bits (hostWord (tagged w0) 1) 0 1 = 0 := by
    have b : hostWord (tagged w0) 1 = 0x400000 := rfl
    rw [b]; decide +kernel
  have n : partition.msgids = [] ∧ partition.revoked = [] ∧ launched.cl.killed = false := by decide +kernel
  exact not_rejected launched 1 _ partition (tagged_part w0 k c) (tagged_key w0 k) (by rw [n.1]; rfl) (tagged_reserved w0 z) c b
    (tagged_groups w0 g) (by rw [n.2.1]; rfl) n.2.2
theorem tagged_target : hostTarget (tagged 0) = launched.me := by
  have h : hostWord (tagged 0) 0 = 0 := rfl
  unfold hostTarget; rw [h]; decide +kernel
theorem tagged_target' : hostTarget (tagged (1 <<< 46)) = ⟨0, 0, 1⟩ := by
  have h : hostWord (tagged (1 <<< 46)) 0 = 1 <<< 46 := rfl
  unfold hostTarget; rw [h]; decide +kernel
theorem witness_WatchEvents_host : launched.hostReject 1 (tagged 0) = none ∧ launched.hostReject 1 (tagged (1 <<< 46)) = none ∧
    hostTarget (tagged 0) = launched.me ∧ hostTarget (tagged (1 <<< 46)) ≠ launched.me ∧
    launched.hostReject 2 (hostMsg 0 0) = some 0 ∧ (launched.create creation).1 = some 0 :=
  ⟨tagged_passes 0 (by decide +kernel) (by rw [tagged_target]; decide +kernel) (by decide +kernel) (by decide +kernel),
    tagged_passes (1 <<< 46) (by decide +kernel) (by rw [tagged_target']; decide +kernel) (by decide +kernel) (by decide +kernel),
    tagged_target, by rw [tagged_target']; decide +kernel, by decide +kernel⟩
/-- A read request of one line at scratchpad offset 0x7FFF80. -/
def readReq (off : Nat) (need : BitVec 16) (part : Nat) : ReadReq := ⟨⟨0, 0, 1⟩, 5, off, 128, 0, part, .load, 0, need, 2⟩
/-- Region 0 lets others read the whole of scratchpad. -/
def shared (s : State) : State := s.updCl fun c => { c with regions := c.regions.set 0 0x81007FFF00000000 }
/-- Context 3's load is out under tag 5. -/
def loading : State := (other fun x => { x with st := .blocked, sent := [(5, 0)] }).updCl fun c =>
  { c with outst := [⟨5, .ctx 3, ⟨0, 0, 1⟩, readReq 0x100 7 0, false⟩] }
theorem witness_RemoteEvents_owner : (sS.updCl fun c => { c with killed := true }).cl.killed = true ∧
    (let s := shared sS; let r := readReq 0x7FFF80 7 0
     s.cl.killed = false ∧ r.part = s.cl.part.getD 0 ∧ r.need.zeroExtend 64 &&& ~~~ s.mod.feat0 = 0 ∧
     (r.rev < bits s.mod.feat1 0 8 && r.need ≠ 7) = false ∧ inSpad r.off r.size = true ∧ s.spadAllowed false .rr r.off r.size = true ∧
     s.badWord r.off r.size = false ∧ r.kind = .load ∧ max (r.clk + 1) (s.wts (granule r.off)) < clockLimit) ∧
    clockLimit ≤ max (({ readReq 0x7FFF80 7 0 with clk := 2 ^ 63 - 1 } : ReadReq).clk + 1) (sS.wts 0) ∧
    (readReq 0 7 1).part ≠ sS.cl.part.getD 0 ∧
    ((readReq 0 0x8000 0).need.zeroExtend 64 &&& ~~~ (sS.updMod fun m => { m with feat0 := 7 }).mod.feat0 ≠ 0) ∧
    inSpad (readReq 0x7FFFC0 7 0).off 128 = false ∧ inHbm (readReq 0x7FFFC0 7 0).off 128 = false ∧
    sS.spadAllowed false .rr (readReq 0x100 7 0).off 128 = false := by decide +kernel
theorem witness_RemoteEvents_replies : (loading.request? 5).isSome = true ∧ ((loading.request? 5).map (·.tag)) = some 5 ∧
    ((loading.request? 5).map (·.who)) = some (.ctx 3) ∧ (loading.getCtx 3).sent.any (fun p => p.1 = 5) = true ∧
    loading.cl.par.fused = false ∧ loading.copyOfTag 5 = none ∧ sS.request? 5 = none ∧ sS.copyOfTag 5 = none := by decide +kernel
/-- A page in state FILLING, log 2. -/
def filling : Word := 0xD360000300000080
/-- A page under recall. -/
def recalling : Word := 0xF360000300000080
/-- A recall of page 1 runs. -/
def recalled (r : Recall) : State := (paged recalling sS).updCl fun c => { c with recalls := [r] }
theorem witness_RemoteEvents_recall : ((paged 0xC360000000020000 sS).leafOf 1).map (fun p => bits p.2 60 2) = some 0 ∧
    ((paged filling sS).leafOf 1).map (fun p => bits p.2 60 2) = some 1 ∧ ((paged lent sS).leafOf 1).map (fun p => bits p.2 60 2) = some 2 ∧
    ((paged recalling sS).leafOf 1).map (fun p => bits p.2 60 2) = some 3 ∧ sS.cl.pending.contains 1 = false ∧ sS.cl.recalls.length < 8 ∧
    8 ≤ (sS.updCl fun c => { c with recalls := List.replicate 8 ⟨0, true, []⟩ }).cl.recalls.length ∧
    (sS.updCl fun c => { c with pending := [1] }).cl.pending = 1 :: [] ∧
    (recalled ⟨1, true, []⟩).cl.recalls.find? (fun r => r.vpn = 1) = some ⟨1, true, []⟩ ∧ ((recalled ⟨1, true, []⟩).leafOf 1).isSome = true ∧
    16 ≤ (⟨1, false, List.replicate 16 (0, [])⟩ : Recall).got.length := by decide +kernel
/-- The engines with one copy operation. -/
def copying (o : CopyOp) : State := sS.updEng fun e => { e with copies := [o] }
/-- A remote source: cluster (0, 1), which is a member. -/
def peer (s : State) : State := s.updCl fun c => { c with members := [⟨0, 0, 0⟩, ⟨0, 0, 1⟩] }
/-- The operation's next source address. -/
def sourceOf (o : CopyOp) : Word := o.rowSrc o.row + BitVec.ofNat 64 o.pos
theorem witness_EngineEvents_copies : (let o := copyOp 3; (copying o).copy? 0 = some o ∧ o.row < o.rows ∧ o.kind = .pull ∧ (sourceOf o).toNat % 8 = 0 ∧
      resolve sS.me (sourceOf o) = sS.me) ∧
    (let o := { copyOp 3 with src := 0x0001000000001000 };
      resolve sS.me (sourceOf o) ≠ sS.me ∧ sS.cl.members.contains (resolve sS.me (sourceOf o)) = false ∧
      (peer sS).cl.members.contains (resolve sS.me (sourceOf o)) = true) ∧
    (sourceOf { copyOp 3 with src := 0x1004 }).toNat % 8 ≠ 0 ∧
    (let o : CopyOp := { copyOp 3 with kind := .pullG, listRead := true, list := [0x1000] };
      (copying o).copy? 0 = some o ∧ o.listRead = true ∧ (sourceOf o).toNat % 8 = 0) ∧
    (let o : CopyOp := { copyOp 3 with row := 1, out := [⟨5, 0x1000, 0, 64, none⟩] };
      (copying o).copyOfTag 5 = some (o, ⟨5, 0x1000, 0, 64, none⟩) ∧ o.ingest = none ∧
      ((copying o).copyStore o 0 (List.replicate 64 1)).1 = false ∧ (copying o).localReading o = none) ∧
    (let o : CopyOp := { copyOp 3 with kind := .hsend, row := 1, out := [⟨5, 0x1000, 0, 64, none⟩] };
      (copying o).copyOfTag 5 = some (o, ⟨5, 0x1000, 0, 64, none⟩) ∧ o.kind = .hsend) ∧
    (let o : CopyOp := { copyOp 3 with row := 1, task := some 7 };
      (copying o).copy? 0 = some o ∧ o.rows ≤ o.row ∧ o.out = [] ∧ o.task = some 7 ∧ (copying o).eng.tasks = []) ∧
    sS.eng.copies = [] ∧ (sS.updMod fun m => { m with ats := [4] }).mod.ats.contains 4 = true ∧ sS.mod.ats.contains 4 = false := by decide +kernel
/-- A copy into a page that is not resident. -/
theorem witness_EngineEvents_waits : let o := { copyOp 3 with dst := 0x100010000 }
    ((paged lent (copying o)).copyStore o 0 (List.replicate 64 1)).1 = true := by decide +kernel
theorem witness_EngineEvents_hdm : (let s := paged 0xC360000000020000 launched;
      (s.hdmPage? s.me hbmLo).map (fun h => h.page) = some 0 ∧ ((s.leafOf 0).map fun p => bits p.2 60 2) = some 0) ∧
    (launched.hdmPage? launched.me hbmLo).isSome = true ∧ launched.leafOf 0 = none ∧
    ((paged 0 launched).putWord (hbmLo + 0x3000) lent |>.leafOf 0).map (fun p => bits p.2 60 2) = some 2 := by decide +kernel
/-- A matrix job of context 3. -/
def job (k : MatKind) (tile : TWord) (word : Word) : MatJob := ⟨k, tile, word, 0, SparsityLatch.reset, true, 0, 0, 3, 0⟩
/-- It runs. -/
def running (k : MatKind) (tile : TWord) (word : Word) : MatRun := MatRun.start (job k tile word) (.direct 3 none)
/-- It is the head of the direct queue, SHS as given. -/
def headed (k : MatKind) (word : Word) (shs : Shs) : State :=
  sS.updEng fun e => { e with queue := [⟨job k (desc 0xA 1 64 8 0x1000) word, 3, none⟩], shs := shs }
/-- Are the reads of a job placed? -/
def readsOk (s : State) (r : MatRun) : Bool := match (s.engineReads r.job.clk r.job.reads).1 with | .ok _ => true | _ => false
theorem witness_EngineEvents_matrix : (headed (.load true) 0 .empty).eng.matrixTasks = false ∧
    (headed (.load true) 0 .empty).eng.queue = ⟨job (.load true) (desc 0xA 1 64 8 0x1000) 0, 3, none⟩ :: [] ∧
    (headed (.load true) 0 .empty).eng.load = none ∧ (headed (.load true) 0 .full).eng.shs ≠ .empty ∧ (headed .swap 0 .empty).eng.shs = .empty ∧
    (headed .swap 0 .full).eng.pass = none ∧ (headed .swap 0 .full).eng.conv = none ∧ bits (job .pass 0 0).word 63 1 = 0 ∧
    bits (job .pass 0 0x8000000000000000).word 63 1 = 1 ∧ (job .convert 0 0).kind = .convert ∧ (job .zero 0 0).kind = .zero ∧
    (let r := running (.load false) (desc 0xA 1 64 8 0x1000) 0;
      readsOk sS r = true ∧ sS.metaFault r.job.sp (keptOf (tileOf r.job.tile) false) = none) ∧
    (let r := running .pass (desc 0xA 1 64 8 0x1000) 0;
      readsOk sS r = true ∧ sS.scaleFault (tileOf r.job.tile) sS.eng.active = none ∧ (0 < (tileOf r.job.tile).rows) ∧ r.failRow ≤ 0 ∧ r.retries = 0) ∧
    (let w : TWord := (0x8000000000002000 : Word) ++ (BitVec.ofNat 64 (0xD * 2 ^ 59 + 1 * 2 ^ 47 + 64 * 2 ^ 37 + 4 * 2 ^ 23 + 0x1000) : Word);
      sS.scaleFault (tileOf w) sS.eng.active = some 0) := by decide +kernel
/-- Metadata of zeros keeps element 0 sixteen times: a fault in column 0. -/
theorem witness_EngineEvents_meta : (sS.metaFault ⟨desc 5 8 512 32 0x4000, true, 1⟩ 8).isSome = true := by decide +kernel
theorem witness_EngineEvents_tasks : bestTask ([] : List LiveTask) = none ∧
    (let s := sS.updEng fun e => { e with tasks := [liveTask] };
      bestTask (s.eng.tasks.filter s.launchable) = some liveTask ∧ s.eng.tasks.find? (fun t => t.idx = 0) = some liveTask ∧
      liveTask.running = false ∧ ({ liveTask with running := true } : LiveTask).running = true) ∧
    (sS.eng.tasks.filter sS.launchable) = [] := by decide +kernel
/-- The orrery with a change. -/
def orrery (f : Orrery → Orrery) : State := sS.updMod fun m => { m with cal := f m.cal }
/-- A message from module 1 with its sequence number. -/
def podMsg (seq : Nat) (good : Bool) : PodMsg := ⟨seq, 0, ⟨⟨1, 0, 0⟩, ⟨0, 0, 0⟩, 0, .refused 1⟩, good, none⟩
/-- A message that waits or is retained. -/
def sent (seq expired : Nat) : Sent := ⟨seq, 0, ⟨⟨0, 0, 0⟩, ⟨1, 0, 0⟩, 0, .refused 1⟩, 1, expired⟩
/-- What the module keeps about module 1. -/
def paired (f : Pair → Pair) : State := sS.updPair 1 f
/-- A beam, and one with a change. -/
def beam0 : BeamId := ⟨0, 0⟩
/-- The receive (or transmit) side of that beam changed. -/
def beamed (tx : Bool) (f : Beam → Beam) : State := sS.updBeam (beamKey tx beam0) f
theorem witness_FabricEvents_slots : (let s := orrery fun c => { c with sync := true, nslot := 2 };
      s.mod.cal.sync = true ∧ s.mod.cal.slot + 1 < s.mod.cal.nslot ∧ s.mod.cal.pend = none) ∧
    (let s := orrery fun c => { c with sync := true, nslot := 2, slot := 1, guard := true };
      s.mod.cal.nslot ≤ s.mod.cal.slot + 1 ∧ s.mod.cal.guard = true) ∧ sS.mod.cal.sync = false ∧ sS.mod.cal.pend = none := by decide +kernel
theorem witness_FabricEvents_pairs : (sS.pair 1).cleared = false ∧ (podMsg 0 false).good = false ∧ sS.authentic (podMsg 0 true) = true ∧
    (let s := paired fun p => { p with recvNext := 4 }; (podMsg 3 true).seq < (s.pair 1).recvNext ∧ (s.pair 1).recvNext ≤ (podMsg 4 true).seq ∧
      (s.pair 1).held.any (fun x => x.seq = 4) = false ∧ (s.pair 1).skipped.contains 4 = false) ∧ sS.isLost 0 = false ∧ sS.isLost 1 = false ∧
    (let s := paired fun p => { p with retained := [sent 3 2] };
      (s.pair 1).lost = none ∧ ((s.pair 1).retained ++ (s.pair 1).queue).find? (fun x => x.seq = 3) = some (sent 3 2) ∧ s.mod.link.par.e2eN ≤ (sent 3 2).expired + 1) ∧
    (sent 3 1).expired + 1 < sS.mod.link.par.e2eN := by decide +kernel
theorem witness_FabricEvents_beams : (let g : GroupRcpt := ⟨beam0, 7, true, 1, [], []⟩; g.uncorr = [] ∧ g.good = true ∧ (sS.beam (beamKey false g.beam)).await = none) ∧
    ((beamed false fun b => { b with await := some 7 }).beam (beamKey false beam0)).await = some 7 ∧
    ((beamed false fun b => { b with skid := true }).beam (beamKey false beam0)).skid = true ∧ (sS.beam (beamKey false beam0)).skid = false ∧
    (let s := (beamed true fun b => { b with kept := [(5, []), (6, [])], flits := 4 }).updCal fun c => { c with sync := true };
      ((s.beam (beamKey true beam0)).kept.dropWhile fun g => g.1 ≠ 6) = [(6, [])] ∧
      ((s.beam (beamKey true beam0)).kept.dropWhile fun g => g.1 ≠ 7) = [] ∧ s.mod.cal.sync = true ∧ s.mod.cal.guard = false ∧
      (s.beam (beamKey true beam0)).flits ≠ 0) ∧ (sS.beam (beamKey true beam0)).flits = 0 ∧
    (((sS.beam 0).out.find? fun o => o.wl = 0) = none ∧ (sS.beam 0).oos = false ∧ 1000 ≤ sS.mod.link.par.degr ∧ sS.mod.link.par.degr < 1001) ∧
    (let s := beamed false fun b => { b with out := [⟨0, 0, 511, 15⟩] };
      ((s.beam 0).out.find? fun o => o.wl = 0) = some ⟨0, 0, 511, 15⟩ ∧ 511 < 64 * s.mod.link.par.rtMax) ∧
    (let s := beamed false fun b => { b with out := [⟨0, 1, 0, 0⟩] }; ((s.beam 0).out.find? fun o => o.wl = 0) = some ⟨0, 1, 0, 0⟩) := by decide +kernel
/-- Port 0 faces module 1 in the slot. -/
def facing (down : List (Fin 16)) : State :=
  orrery fun c => { c with sync := true, nslot := 1, peers := [some 1 :: List.replicate 15 none], downPorts := down }
theorem witness_FabricEvents_losses : sS.mod.chipid = 0 ∧ (1 : Fin 128) ≠ sS.mod.chipid ∧ (sS.pair 1).lost = none ∧
    (let s := paired fun p => { p with lost := some 9 }; (s.pair 1).lost = some 9 ∧ 8 < 9 ∧ (s.pair 1).drained = false ∧ (s.pair 1).lost ≠ none) ∧
    ((paired fun p => { p with lost := some 9, drained := true }).pair 1).drained = true ∧
    ((paired fun p => { p with lost := some 9, drained := true }).pair 1).cleared = false ∧ sS.mod.link.par.drainR = 2 ∧
    (let s := facing [];
      ((s.mod.cal.peers.getD s.mod.cal.slot []).getD (0 : Fin 16).val none) = some 1 ∧ s.mod.cal.sync = true ∧ s.isLost 1 = false ∧
      s.mod.cal.downPorts.contains 0 = false ∧
      (s.portsTo 1).all (fun q => ([0] : List (Fin 16)).any fun x => x.val = q) = true ∧ (s.pair 1).down + 1 < s.mod.link.par.deadn) ∧
    (facing [0]).mod.cal.downPorts.contains 0 = true ∧
    (let s := (facing []).updPair 1 fun p => { p with down := 1 }; s.mod.link.par.deadn ≤ (s.pair 1).down + 1) ∧
    (let s := orrery fun c => { c with sync := true, nslot := 1, peers := [some 1 :: some 1 :: List.replicate 14 none] };
      (s.portsTo 1).all (fun q => ([0] : List (Fin 16)).any fun x => x.val = q) = false) := by decide +kernel
/-- A quarantined cluster: the state of its owner register, its scrub methods. -/
def quarantined (cl : ClusterId) (st : BitVec 2) (spad hbm : Nat) : State :=
  (launched.updFw fun w => { w with quar := [⟨cl, 1, 1, true, spad, hbm, false, 0, 0xFF, 0x100000, none⟩] }).setOwner cl ⟨false, st, 0⟩
theorem witness_SecurityEvents : sS.mod.fw.boot = 1 ∧ sS.mod.fw.failed = false ∧ (sS.updFw fun w => { w with boot := 2 }).mod.fw.boot ≠ 1 ∧
    (let cl : ClusterId := ⟨0, 0, 1⟩; let s := quarantined cl 2 0 1;
      (s.owner cl).st = 2 ∧ s.mod.fw.quar.any (fun q => q.cl = cl && !q.hold) = true) ∧
    (let cl : ClusterId := ⟨0, 0, 1⟩; let s := quarantined cl 3 0 1; let q : Quar := ⟨cl, 1, 1, true, 0, 1, false, 0, 0xFF, 0x100000, none⟩;
      s.mod.fw.quar.find? (fun q => q.cl = cl) = some q ∧ (s.owner cl).st = 3 ∧ q.cmd = none ∧
        (decide (q.spad = 2) || decide (q.hbm = 2)) = false ∧
      ((({ s with draws := s.draws + 1 } : State).updFw fun w => { w with leaf := 2 ^ 30 }).receipt q.part q.reason q.ptag (scrubRanges q)).1 = false) ∧
    inHbm 0x7000 557056 = false ∧
    (sS.fn 1).tdisp = .unlocked ∧ ((sS.updFn 1 fun f => { f with tdisp := .locked, armed := true }).fn 1).tdisp = .locked ∧
    ((sS.updFn 1 fun f => { f with tdisp := .locked, armed := true }).fn 1).armed = true ∧ 0x90 ≤ 0x90 ∧ (sS.fn 1).armed = false ∧ 0x8F < 0x90 ∧
    (let x : Sensors := ⟨Vector.replicate 64 94, Vector.replicate 8 94, [], 2600⟩; (∀ t ∈ sS.mod.fw.sample.1.junction.toList ++ x.junction.toList, t < 95) ∧
      (∀ t ∈ sS.mod.fw.sample.1.hbm.toList ++ x.hbm.toList, t < 95) ∧ sS.mod.fw.throttled = [] ∧
      sS.mod.fw.hbmHalf = [] ∧ x.power ≤ sS.mod.fw.plim ∧ sS.mod.fw.powerHigh = false) ∧ 32 ≤ ((sS.updFn 1 fun f => { f with evtLen := 64 }).fn 1).evtLen ∧ (sS.fn 1).evtLen < 32 := by decide +kernel
/-- R433: the fourth record of a range of two stands in its second place, and is counted. -/
theorem test_event_cycles :
    (let s := (sS.updFn 1 fun f => { f with evtBase := 0x1000, evtLen := 64, evtCnt := 3 }).report 0x03 [5];
      s.mod.hostOut = [.event 0x1020 [0x03, 5, 0, 0]] ∧ (s.fn 1).evtCnt = 4 ∧ (s.fn 2).evtCnt = 0) := by decide +kernel
/-- A receipt is made where the write to monotonic storage does not fail, which is free. -/
theorem witness_SecurityEvents_receipt (s : State) (part reason ptag : Nat) (l : List ScrubRange) (h : s.mod.fw.leaf < 2 ^ 30)
    (g : Config.freeBool s.draws = false) : (s.receipt part reason ptag l).1 = true := by
  have k : ¬leafCount ≤ s.mod.fw.leaf := by unfold leafCount; omega
  simp [State.receipt, State.sign, State.draw, k, g]
/-- LINKCFG that names no parameter. -/
def linkCfg : LinkCfg := ⟨[], [], none, none, none, none, none, none, none, none, none⟩
/-- A launch of partition 1 on some clusters. -/
def launch (l : List ClusterId) : LaunchArgs := ⟨1, 1, l, { Params.reset with contMax := 64 }, [], [], [], [], [], [0], true, [], [], 3⟩
/-- A schedule of one slot in which modules 0 and 1 face each other. -/
def podCfg (d : Fin 128) : PodCfg :=
  ⟨0, some 2000, some 250, some 1, [(0, [some d :: List.replicate 15 none]), (1, [some 0 :: List.replicate 15 none])], [(1, 65)]⟩
theorem witness_ModuleCommands : sS.mod.fw.boot = 1 ∧ sS.mod.fw.failed = false ∧ (sS.fn 0).busy = none ∧ (sS.fn 16).busy = none ∧
    (⟨0, 5, 0, 64, 0x1000⟩ : Cmd).argL ≤ 2 ^ 20 ∧
    (16 : Fin 17) ≠ 0 ∧ sS.mod.fw.launched = false ∧ (sS.updFw fun w => { w with launched := true }).mod.fw.launched = true ∧
    1199 < 1200 ∧ podRanges (podCfg 1) = true ∧ podSymmetric (podCfg 1) = true ∧ podSymmetric (podCfg 0) = false ∧
    podRanges { podCfg 1 with nslot := some 128 } = false ∧ podRanges { podCfg 1 with slotlen := none, guardlen := none, nslot := none } = true ∧ linkRanges linkCfg sS.mod.link.par = true ∧
    linkRanges { linkCfg with drainR := some 1 } sS.mod.link.par = false ∧
    (let l := launch [⟨0, 0, 1⟩]; l.clusters.any sS.clusterBusy = false ∧ sS.ending l.part = false ∧ l.clusters.contains sS.me = false ∧
      sS.launchOk l = true ∧ sS.launchOk { l with part := 0 } = false) ∧
    (let l := launch [⟨0, 0, 0⟩]; l.clusters.contains sS.me = true ∧ (sS.putImages l).launchOk l = true ∧
      (sS.putImages { l with part := 0 }).launchOk { l with part := 0 } = false) ∧
    (let l := { linkCfg with skid := [(beam0, true)] }; linkRanges l sS.mod.link.par = true ∧ l.skid.any (fun b => b.2) = true ∧
      sS.mod.feat0.getLsbD 13 = true ∧ (sS.updMod fun m => { m with feat0 := 7 }).mod.feat0.getLsbD 13 = false) := by decide +kernel
/-- The partition with its function in RUN. -/
def bound1 (f : Partition → Partition) : State := (launched.updPart 1 f).updFn 1 fun f => { f with tdisp := .run }
theorem witness_ModuleCommands_partition : (let s := bound1 fun p => { p with clusters := [⟨1, 0, 0⟩], mset := [5] };
      s.ending 1 = false ∧ (s.part? 1).map (fun p => (p.clusters.any fun cl => cl.chip = 1, p.mset, mapGet 0 s.mod.fw.lives 129)) = some (true, [5], 0) ∧
      (1 : Fin 128) ≠ s.mod.chipid) ∧
    ((bound1 id).part? 1).map (fun p => (p.fn, p.agreed, p.participants)) = some (1, true, [0]) ∧ (bound1 id).cl.part = some 1 ∧
    ((bound1 fun p => { p with agreed := false }).part? 1).map (fun p => p.agreed) = some false ∧
    ((bound1 id).fn 1).tdisp = .run ∧ (launched.fn 1).tdisp ≠ .run ∧ (quarantined ⟨0, 0, 1⟩ 2 0 1).ending 1 = true ∧
    partition.participants.contains (0 : Fin 64).val = true ∧ partition.participants.contains (63 : Fin 64).val = false ∧
    ((bound1 id).updCl fun c => { c with part := none }).cl.part ≠ some 1 ∧ partition.bufs.filter (fun b => b.ptag = 0) = [] ∧
    (bound1 id).mod.fw.leaf < 2 ^ 30 ∧ (bound1 id).eng.copies = [] ∧ partition.hdm[0]? = some ⟨⟨0, 0, 0⟩, 0, true⟩ ∧ partition.hdm[1]? = none ∧
    (quarantined ⟨0, 0, 0⟩ 2 0 1).clusterBusy ⟨0, 0, 0⟩ = true ∧ (bound1 id).clusterBusy ⟨0, 0, 0⟩ = false ∧
    ((bound1 id).partOf? ⟨0, 0, 0⟩).map (·.id) = some 1 ∧ (bound1 id).mapped = [] ∧ ((bound1 id).putWord 0 0x8000000000000000).mapped ≠ [] ∧
    (let s := (quarantined ⟨0, 0, 0⟩ 2 0 1).updFn 1 fun f => { f with tdisp := .run };
      (s.owner ⟨0, 0, 0⟩).st = 2 ∧ (s.rawParts (s.dumpBase 3) [] (pageParts (s.dumpBase 3) 0x22000)).isSome = true) ∧
    ((0 = 0 ∨ 0 = 2) ∧ (1 = 1 ∨ 1 = 2)) ∧ partition.clusters.any (fun cl => cl.chip = (0 : Fin 128)) = true := by decide +kernel

/-- Context 0 fetches: FX at U and S level from scratchpad pages allowed, or not. -/
def fetching (f : Ctx → Ctx) (s : State) : State :=
  { (s.updCtx 0 f).updCl (fun c => { c with regions := c.regions.set 0 0x86007FFF00000000 }) with turns := [.issue 0] }
/-- A fetch failure's cause. -/
def failure (s : State) (pc : BitVec 48) : Option (BitVec 8) := match (s.fetchParcel pc).1 with | .inr (.fail c _) => some c | _ => none
/-- What the fetch of an instruction answers: 1 an instruction, 2 an illegal word, 3 a failure, 4 a wait. -/
noncomputable def fetchCode (s : State) (pc : BitVec 48) : Nat :=
  match (s.fetchAt pc).1 with | .instr _ _ => 1 | .illegal _ => 2 | .fail _ _ => 3 | .wait _ => 4
theorem witness_FetchChecks : inSpad (0x7FFFFE : BitVec 48).toNat 2 = true ∧ inSpad (0x800000 : BitVec 48).toNat 2 = false ∧
    inHbm (0x800000 : BitVec 48).toNat 2 = false ∧ sS.spadAllowed sS.sup .fx 0x7FFFFE 2 = false ∧ failure sS 0x800000 = some 0x0A ∧
    failure sS 0x7FFFFE = some 0x09 ∧ failure sS 0x100000000 = some 0x0A ∧
    failure (paged (lent ||| 0x10000000000000) sS) 0x100010000 = some 0x0C ∧ failure (paged lent sS) 0x100010000 = some 0x0A ∧
    (let s := fetching (fun x => { x with st := .ready, pc := 0x800000 }) State.reset;
      s.turns = .issue 0 :: [] ∧ (({ s with turns := [] } : State).nextReady 0).1 = some 0 ∧ (s.getCtx 0).debug = false ∧ ({ s with turns := [] } : State).handlerDue 0 = false ∧
      fetchCode (s.slotFor 0 0 []) 0x800000 = 3) ∧
    (let s := fetching id ((State.reset.putBytes 0x7FFFFE [0, 0xC0]).updMem fun m => { m with stale := [] }); failure s 0x7FFFFE = none ∧ failure s 0x800000 = some 0x0A ∧
      fetchCode s 0x7FFFFE = 3) := by decide +kernel
theorem witness_MemoryOperations : State.reset.mem.wf = true ∧ ((State.reset.putBytes 5 [1, 2]).putBytes 3 [0, 7, 0]).mem.wf = true := by
  decide +kernel
theorem witness_RoundTrip : (Instr.bfx 31 31 true 0 63).isProgram = true ∧ (Instr.bfx 31 31 true 0 63).wf = true := by decide
/-- Context 0 has the slot and a word stands at its PC; regions let it fetch. -/
def slot (w : Nat) (nbits : Nat) : State := State.reset.withFetchWord nbits w
theorem witness_StepRunsDecoded : (let s := slot 0xCA480010 32;
      (({ s with turns := [] } : State).nextReady 0).1 = some 0 ∧ (s.getCtx 0).debug = false ∧ (s.getCtx 0).lag = false ∧
      ({ s with turns := [] } : State).handlerDue 0 = false ∧ s.running = true ∧
      fetchCode (s.slotFor 0 0 []) 0x400000 = 1 ∧ (s.access s.agent s.sup .fx 0x400000 2).1 = .ok 0x400000 ∧ s.mem.stale = [] ∧
      isLong (s.byte 0x400001 ++ s.byte 0x400000) = true) ∧
    (let s := slot 0 16; fetchCode (s.slotFor 0 0 []) 0x400000 = 2) ∧
    (let s := fetching (fun x => { x with st := .ready, pc := 0x800000 }) State.reset; fetchCode (s.slotFor 0 0 []) 0x800000 = 3) ∧
    (let s := State.reset; (s.getCore 0).halted = false ∧ (s.getCore 0).gated = false ∧ (s.getCore 0).dbgHalt = false ∧ s.turns = [] ∧
      s.tick.choices ≤ 1) ∧
    (let s := { (State.reset.updCtx 0 fun x => { x with st := .ready }).updCtx 16 (fun x => { x with st := .ready }) with agenda := [.slotBoundary] };
      2 ≤ s.tick.choices ∧ s.agenda[0]? = some .slotBoundary ∧ (Instr.slotBoundary).isProgram = false ∧ s.moves[0]? = some (.issue 0)) := by
  decide +kernel
theorem witness_NothingStops : (∀ i, .event i ∈ State.reset.turns → i.isProgram = false) ∧ ∀ i ∈ State.reset.agenda, i.isProgram = false := by
  constructor <;> intro i h <;> cases h
theorem witness_StepKeepsTwins : State.reset.TwinsAgree ∧ (∃ t, step State.reset = .next t) := by
  refine ⟨by (unfold State.TwinsAgree; intro h; cases h), ?_⟩
  have h : (match step State.reset with | .next _ => true | _ => false) = true := by decide +kernel
  cases e : step State.reset with
  | next t => exact ⟨t, rfl⟩
  | fault f => rw [e] at h; cases h
  | refused r => rw [e] at h; cases h
/-! ### Further clauses of the same statements -/

/-- The cluster stands at (5, 14, 2): chip 0, cluster (0, 0) is another one. -/
def elsewhere (f : Ctx → Ctx) : State :=
  ((mover 3 f).updMod fun m => { m with chipid := 5 }).updCl fun c => { c with x := 14, y := 2 }
theorem witness_AddressForms_forms : (let s := elsewhere (reg 4 0);
      s.gOk 4 ∧ coords (ofCoords ((s.gVal 4).toNat % 2 ^ 15)) = 0 ∧ coords s.me ≠ 0) ∧
    (let s := elsewhere (reg 4 0xFB2E000000000000); s.gOk 4 ∧ coords (resolve s.me (s.gVal 4)) = 0) ∧
    (let s := elsewhere (reg 4 0x7FFF); s.gOk 4 ∧ coords (ofCoords ((s.gVal 4).toNat % 2 ^ 15)) ≠ 0) ∧ coords sU.me = 0 := by
  decide +kernel
theorem witness_AtomicLatch_damaged : (let s := (latched true false).upd fun x => { x with badRegs := [24] };
      (s.touch 24).hurt = true ∧ ((s.touch 24).access s.agent s.sup .wr (offOf s.ctx.retry.ea) 8).1 = .ok 0x100) ∧
    ((latched true false).touch 24).hurt = false := by decide +kernel
theorem witness_Calendar : (let s := sS.updCal fun c => { c with sync := true, nslot := 2, slotlen := 2000, guardlen := 250, left := 1900, guard := true };
      s.mod.cal.sync = true ∧ s.mod.cal.guard = true ∧ s.mod.cal.slotlen - s.mod.cal.guardlen ≤ s.mod.cal.left) ∧
    (let s := sS.updCal fun c => { c with sync := true, nslot := 128, slotlen := 2000, guardlen := 250, left := 0 };
      s.mod.cal.nslot ≤ 128 ∧ s.mod.cal.guard = false ∧ s.mod.cal.left = 0 ∧ (270 : BitVec 10).toNat = 16 + 2 * 127 + 0) ∧ sS.mod.cal.sync = false := by
  decide +kernel
/-- Context 3 STOPPED with a record of participant 5, who has been revoked. -/
def revoked3 : State := (other fun x => { x with st := .stopped, bound := some { bound0 with ptag := 5 } }).updCl fun c => { c with revoked := [5] }
theorem witness_ContextControl_revoked : (revoked3.getCtx 3).st = .stopped ∧ revoked3.badCtx 3 = false ∧ revoked3.isRevoked 3 = true ∧
    stopped3.isRevoked 3 = false ∧
    (let s := other fun x => { x with st := .faulted, retry := { x.retry with v := true, arm := true } };
      (s.getCtx 3).retry.v = true ∧ (s.getCtx 3).retry.arm = true) := by decide +kernel
theorem witness_Decisions_damaged : (let s := (waiting3 (.watch 1 5) (some (.waiting 1))).updCtx 3 fun x => { x with g := x.g.set 6 { x.g[6] with bad := true } };
      (s.getCtx 3).bound = some bound0 ∧ s.opsDone 3 = true ∧ s.formMet 3 = false ∧ s.cl.revoked.contains 0 = false ∧
      ((List.range 6).any fun r => (s.getCtx 3).g[r + 1]?.any (·.bad)) = true) ∧
    (let s := (waiting3 .allOps (some (.yield 0x400004))).updCtx 3 fun x => { x with g := x.g.set 7 { x.g[7] with bad := true } };
      ((List.range 6).any fun r => (s.getCtx 3).g[r + 1]?.any (·.bad)) = false) := by decide +kernel
/-- A fatal record of a context with a cause. -/
def fatalRec (cause : BitVec 8) (c : Fin 16) : TrapRec := ⟨cause, c, false, 0, 0, 0x400000, 0, 0⟩
/-- A fatal fault of context 2 of core 0 waits. -/
def fatal2 : State := (faulty 0x100000 none fun x => { x with st := .faulted }).urge (.event (.fatalFault 2 (fatalRec 0x18 2) false))
theorem witness_FaultEvents_scopes : (fatal2.lowerFatal 3 = true ∧ fatal2.lowerFatal 1 = false ∧ fatal2.cl.killed = false) ∧
    (let s := faulty 0x100000 (some trapRec) id; s.lowerFatal 3 = false ∧ (s.getCore 0).fatq.toList ≠ []) ∧ numOf 16 = 0 ∧
    (fatalRec 0x19 3).cause = 0x19 ∧ (faulty 0x100000 none id).fatalsAhead 0 3 = [] ∧
    (let s := (other fun x => { x with st := .blocked, bound := some bound0, tl := x.tl.set 0 ⟨0, 1, 0, 0, 0, [1], []⟩ }).updCl fun c =>
        { c with par := { c.par with twin := true } };
      (s.getCtx 3).bound = some bound0 ∧ s.cl.par.twin = true ∧ (s.getCtx 3).atomicDone = false ∧ s.opsDone 3 = false) ∧
    (let s := (waiting3 (.mig 0x100) none).updCtx 3 fun x => { x with begun := true };
      (s.getCtx 3).wait = some (.mig 0x100) ∧ (s.getCtx 3).begun = true) ∧ ((waiting3 (.mig 0x100) none).getCtx 3).begun = false := by decide +kernel
/-- The dump of a fatal fault behind another one, of scope 1. -/
theorem witness_FaultEvents_halt : dumped (faulty 0x100000 (some trapRec) id) 1 = true := by decide +kernel
/-- Core 0 holds n lines of cluster (0, 1). -/
def cachedLines (n : Nat) : State := loading.updCore 0 fun k => { k with l1 := (List.range n).map fun i => ⟨⟨0, 0, 1⟩, 128 * (i + 100), [], 9⟩ }
theorem witness_RemoteEvents_lines : ((cachedLines 511).getCore 0).l1.length < 512 ∧ 512 ≤ ((cachedLines 512).getCore 0).l1.length ∧
    (cachedLines 512).cl.par.fused = false ∧ ((cachedLines 512).request? 5).map (·.who) = some (.ctx 3) ∧
    ((cachedLines 512).getCore 0).l1.all (fun y => decide (y.owner ≠ ⟨0, 0, 1⟩) || decide (y.off ≠ 0x100)) = true := by decide +kernel
theorem witness_RecallEvents_pending : (let s := (recalled ⟨7, true, []⟩).updCl fun c => { c with pending := [1, 2] };
      s.cl.pending = 1 :: [2] ∧ s.cl.recalls.length < 8) ∧
    (let s := recalled ⟨1, false, (List.range 16).map fun i => (i, [])⟩;
      (s.leafOf 1).isSome = true ∧ s.cl.recalls.find? (fun r => r.vpn = 1) = some ⟨1, false, (List.range 16).map fun i => (i, [])⟩) := by decide +kernel
theorem witness_CopyEvents_more : (let o : CopyOp := { copyOp 3 with out := [⟨5, 0x1000, 0, 64, none⟩] };
      let s := (copying o).updCl fun c => { c with serving := [(⟨0, 0, 0⟩, 5, [1, 2, 3, 4, 5, 6, 7, 8], 3, none)] };
      s.localReading o = some (⟨5, 0x1000, 0, 64, none⟩, [1, 2, 3, 4, 5, 6, 7, 8], 3) ∧ s.copy? 0 = some o) ∧
    (let o : CopyOp := { copyOp 3 with row := 1, out := [⟨5, 0x1000, 8, 64, some [1, 2, 3, 4, 5, 6, 7, 8]⟩] };
      (copying o).copyOfTag 5 = some (o, ⟨5, 0x1000, 8, 64, some [1, 2, 3, 4, 5, 6, 7, 8]⟩)) ∧
    (let o : CopyOp := { copyOp 3 with kind := .hget, row := 1, ingest := some 0, out := [⟨5, 0, 0, 64, none⟩] };
      (copying o).copyOfTag 5 = some (o, ⟨5, 0, 0, 64, none⟩) ∧ o.ingest = some 0) ∧
    ((launched.updCl fun c => { c with killed := true }).hdmPage? launched.me hbmLo).isSome = true := by decide +kernel
/-- A pass of one row of 64 columns, its swap made; its scales read, or not. -/
def passRun (scales : Option (List (List Nat))) (retries : Nat) : MatRun :=
  { running .pass (desc 0xA 1 64 8 0x1000) 0 with swapped := true, scales := scales, retries := retries }
/-- A conversion of one row. -/
def convRun (fail retries : Nat) : MatRun := { running .convert (desc 0xB 1 64 16 0x1000) 0 with failRow := fail, retries := retries }
/-- Are the reads placed? -/
def placed (s : State) (l : List (Nat × Nat)) : Bool := match (s.engineReads 0 l).1 with | .ok _ => true | _ => false
theorem witness_MatrixEvents_passes : (sS.updEng fun e => { e with pass := some (passRun none 0) }).eng.pass = some (passRun none 0) ∧
    (passRun (some [[]]) 1).retries ≠ 0 ∧ (passRun (some [[]]) 0).row = 0 ∧ (passRun (some [[]]) 0).scales ≠ none ∧
    (passRun none 0).swapped = true ∧ placed sS [] = true ∧ placed sS ((tileOf (desc 0xA 1 64 8 0x1000)).rowSpans 0) = true ∧
    (tileOf (desc 0xA 1 64 8 0x1000)).rows ≤ 0 + 1 ∧ 0 + 1 < (tileOf (desc 0xA 2 64 8 0x1000)).rows ∧
    sS.scaleFault (tileOf (desc 0xA 1 64 8 0x1000)) sS.eng.active = none ∧
    (let s := sS.updEng fun e => { e with drain := [passRun (some [[]]) 0] };
      s.eng.pass = none ∧ s.eng.drain = passRun (some [[]]) 0 :: []) ∧
    (convRun 0 1).failRow = 0 ∧ (convRun 0 0).retries = 0 ∧ (convRun 0 1).row = 0 := by decide +kernel
theorem witness_MatrixEvents_conversions : (let s := sS.updEng fun e => { e with conv := some (convRun 0 0) };
      let r := convRun 0 0
      let t := tileOf r.job.tile
      let cells := t.rowCells 0 (s.cvtRow r.job t 0)
      s.eng.conv = some r ∧ r.job.kind = .convert ∧ s.eng.pass = none ∧
      ((List.range t.cols).any fun c => s.eng.accBad.contains (64 * (bits r.job.word 0 7 + 0) + bits r.job.word 8 6 + c)) = false ∧
      (s.writeCells r.job.clk r.time cells ((cells.map fun p => p.1 / 8).foldl insNat [])).isSome = true) ∧
    (let s := sS.updEng fun e => { e with conv := some (convRun 0 0), accBad := [63] };
      ((List.range 64).any fun c => s.eng.accBad.contains (64 * (bits (convRun 0 0).job.word 0 7 + 0) + bits (convRun 0 0).job.word 8 6 + c)) = true) := by
  decide +kernel
theorem witness_StepRunsDecoded_repeats : (let s := State.reset.withFetchWord 16 0xBC3C; let t := s.updCtx 0 fun x => { x with repidx := 4 };
      fetchCode (t.slotFor 0 0 []) 0x400000 = 1 ∧ (3 : BitVec 6).toNat < (t.getCtx 0).repidx.toNat ∧
      (match ((t.slotFor 0 0 []).fetchParcel 0x400002).1 with | .inl _ => true | _ => false) = true) ∧
    (let s := loading; let i : Instr := .remoteStatusReply 5 2; s.respOwner i = some ⟨0, 0, 1⟩ ∧
      ({ s with agenda := [.slotBoundary, i] } : State).agenda[1]? = some i ∧ s.respOwner .slotBoundary = none ∧ i.isProgram = false) := by decide +kernel
theorem witness_FabricEvents_more : ((sS.updPair 1 fun p => { p with cleared := true }).pair 1).cleared = true ∧
    (let m := podMsg 0 true; m.good = true ∧ m.nonce / 2 ^ 48 = sS.lifeFor m.msg.dst 1 ∧ (sS.pair 1).recvNext ≤ m.seq) ∧
    (let m : PodMsg := { podMsg 0 true with nonce := 2 ^ 48 }; m.nonce / 2 ^ 48 ≠ sS.lifeFor m.msg.dst 1) ∧
    ((sS.updPair 1 fun p => { p with skipped := [4] }).pair 1).skipped.contains 4 = true ∧
    (let s := sS.updLink fun l => { l with floods := [(2, 9, 1)] }; s.mod.link.floods ≠ []) ∧
    (let g : GroupRcpt := ⟨beam0, 7, true, 1, [], [0, 7]⟩; (g.good && g.uncorr.isEmpty) = false) ∧
    (sS.updPair 2 fun p => { p with lost := some 0 }).isLost 2 = true ∧
    (let s := sS.updPair 1 fun p => { p with recvNext := 4 }; decide (3 < (s.pair 1).recvNext) = true ∧ decide (4 < (s.pair 1).recvNext) = false) ∧
    ((sS.updPair 1 fun p => { p with retained := [sent 3 0] }).pair 1).retained.any (fun y => y.seq = 3) = true := by decide +kernel
theorem witness_LossEvents_self : sS.mod.chipid = 0 ∧ (sS.updCl fun c => { c with killed := true }).cl.killed = true ∧
    (let s := (facing []).updPair 1 fun p => { p with down := 1, lost := none }; s.isLost 1 = false ∧ (1 : Fin 128) ≠ s.mod.chipid) := by decide +kernel
theorem witness_PartitionCommands_more : (bound1 id).cl.part = some 1 ∧ (bound1 id).cl.killed = false ∧
    (bound1 id |>.updCl fun c => { c with killed := true }).cl.killed = true ∧
    (let s := bound1 fun p => { p with clusters := [⟨1, 0, 0⟩], mset := [5] };
      (s.part? 1).map (fun p => p.mset) = some [5] ∧ ([4] : List (BitVec 256)) ≠ [5]) ∧
    mapGet 0 (bound1 id |>.updFw fun w => { w with lives := [(129, 65535)] }).mod.fw.lives (128 * 1 + 1) = 65535 ∧
    (bound1 id |>.updFw fun w => { w with leaf := 2 ^ 30 }).mod.fw.leaf = 2 ^ 30 := by decide +kernel
/-! ### Clauses added later -/

theorem witness_VectorWrite_lanes : (∀ i, i < tagLanes .i32 → (BitVec.allOnes 64 : BitVec 64).getLsbD (if tagLanes .i32 = 128 then i / 2 else i) = true) ∧
    (∃ i, i < tagLanes .i32 ∧ (0 : BitVec 64).getLsbD (if tagLanes .i32 = 128 then i / 2 else i) = false) := by decide +kernel
theorem witness_StoreTraps_widths : (let s := mover 3 (reg 4 0x101); ownForm s.me (s.gVal 4) = true ∧ (s.gVal 4).toNat % 2 ≠ 0 ∧ (s.gVal 4).toNat % 4 ≠ 0) ∧
    inSpad 0x800000 1 = false ∧ inHbm 0x800000 1 = false ∧ (sU.spadAllowed sU.sup .wr 0x100 1 = false) := by decide +kernel
theorem witness_SpecialRegisters_more : launched.mod.parts.find? (fun p => launched.cl.part = some p.id) = some partition ∧
    (0x800E : BitVec 16).toNat < 0x8015 ∧ (272 + (127 : Fin 128).val) = (399 : BitVec 10).toNat ∧
    16 + 2 * (sS.updMod fun m => { m with cal := { m.cal with nslot := 1 } }).mod.cal.nslot ≤ (18 : BitVec 10).toNat ∧ (18 : BitVec 10).toNat < 272 ∧
    (400 : BitVec 10).toNat = 400 := by decide +kernel
/-- No optional feature is on. -/
def plain (s : State) : State := s.updMod fun m => { m with feat0 := 7 }
theorem witness_TileRegisters_features : (plain sS).tileDisabled (desc 0xB 64 64 8 0x1000) = true ∧ sS.tileDisabled (desc 0xB 64 64 8 0x1000) = false ∧
    (plain sS).srDisabled 0x40000 = true ∧ sS.srDisabled 0x40000 = false ∧ cvtReserved 0x40000 = false ∧
    cvtFault (desc 8 64 64 16 0x1000) 0x40000 = none := by decide +kernel
theorem witness_TaskSubmission_features : (tasked 0x1000).taskDisabled 32 = false ∧
    (plain (((tasked 0x1000).putWord 0x1000 0x0400000000000000).putWord 0x1050 0x40000)).taskDisabled 32 = true := by decide +kernel
theorem witness_ContextControl_waited : (let s := (other fun x => { x with st := .stopped, cstopped := true }).upd fun x => { x with begun := true };
      s.ctx.begun = true ∧ s.badCtx 3 = false ∧ (s.getCtx 3).cstopped = true) ∧
    ((other fun x => { x with st := .issued }).getCtx 3).st = .issued := by decide +kernel
theorem witness_Maintenance_flush : (let s := (cached []).updCore 0 fun k => { k with tcc := k.tcc.set 0 (some ⟨0x10000, List.replicate 5120 0, true, 1⟩) };
      s.tccFind 0x10000 = some 0 ∧ allowedSpan s 0x10000 5120 = true ∧ ownForm s.me 0x10000 = true ∧ 0x10000 % 128 = 0) ∧
    (3 : Word).toNat % 8 = 3 ∧ sS.tccFind 0x10000 = none ∧ (8 : Word).toNat % 8 = 0 ∧ (9 : Word).toNat % 8 = 1 := by decide +kernel
theorem witness_FaultEvents_stop : ((waiting3 .allOps none).updCtx 3 fun x => { x with stopReq := some .cstop }).opsDone 3 = true ∧
    (((waiting3 .allOps none).updCtx 3 fun x => { x with stopReq := some .cstop }).getCtx 3).stopReq.isSome = true := by decide +kernel
theorem witness_RegisterEvents_agents : sS.stillReading .port = false ∧
    ((sS.updCl fun c => { c with serving := [⟨⟨0, 0, 1⟩, 5, [1], 3, some 0x100000000⟩] }).stillReading .port = true) := by decide +kernel
theorem witness_RemoteEvents_served : ((sS.updCl fun c => { c with serving := [⟨⟨0, 0, 1⟩, 5, [1], 3, some 0x100⟩] }).cl.served ⟨0, 0, 1⟩ 5).2.2 = some 0x100 ∧
    (sS.cl.served ⟨0, 0, 1⟩ 5).2.2 = none ∧ sS.badWord 0x100 128 = false ∧ (sS.updCl fun c => { c with killed := true }).cl.killed = true := by decide +kernel
theorem witness_FabricEvents_guards : (orrery fun c => { c with sync := true, guard := true, nslot := 2 }).mod.cal.guard = true ∧
    (sS.updFw fun w => { w with failed := true }).mod.fw.failed = true ∧
    (let m : PodMsg := { podMsg 0 true with msg := { (podMsg 0 true).msg with src := ⟨0, 0, 1⟩ } };
      m.msg.src.chip.val = sS.mod.chipid.val ∧ m.good = true ∧ m.nonce / 2 ^ 48 = sS.lifeFor m.msg.dst m.msg.src.chip.val) ∧
    ((sS.updPair 1 fun p => { p with drained := true }).pair 1).drained = true ∧ (sS.pair 1).drained = false ∧
    (facing []).beamAt false beam0 = 4096 ∧ sS.beamAt false beam0 = 0 ∧
    ((beamed true fun b => { b with out := [⟨3, 0, 0, 0⟩] }).beam (beamKey true beam0)).out.any (fun o => o.wl = 3) = true ∧
    ((beamed true fun b => { b with oos := true }).beam (beamKey true beam0)).oos = true := by decide +kernel
theorem witness_SecurityEvents_more : (let s := sS.updFw fun w => { w with boot := 0 }; s.mod.fw.boot = 0 ∧ s.mod.fw.warm = none) ∧ sS.mod.fw.boot ≠ 0 ∧
    (let x : Sensors := ⟨(Vector.replicate 64 30).set 63 115, Vector.replicate 8 30, [], 100⟩; 115 ≤ x.junction[(63 : Fin 64)]) ∧
    (let x : Sensors := ⟨Vector.replicate 64 30, (Vector.replicate 8 30).set 7 105, [], 100⟩; 105 ≤ x.hbm[(7 : Fin 8)]) ∧
    (⟨⟨0, 0, 1⟩, 1, 1, true, 2, 1, false, 0, 0xFF, 0x100000, none⟩ : Quar).spad = 2 := by decide +kernel
/-- A restore in which the key blob unwraps. -/
theorem witness_ModuleCommands_restore (w : List Byte) (k : Nat) (h : Config.keyUnwrap Config.identityDigest [] w = some k) :
    partition.keyOf ⟨Config.identityDigest, [], w⟩ = some k := by
  have e : partition.mset = [] := rfl
  simp [Partition.keyOf, e, h]
theorem witness_ModuleCommands_more : (quarantined ⟨0, 0, 1⟩ 2 0 1).ending 1 = true ∧ (bound1 id).part? 2 = none ∧ (bound1 id).ending 2 = false ∧
    (quarantined ⟨0, 0, 0⟩ 2 0 1).clusterBusy ⟨0, 0, 0⟩ = true ∧
    (let mine := partition.clusters.filter fun cl => cl.chip = (0 : Fin 128); mine ≠ [] ∧
      mine.any (fun cl => (bound1 id).clusterBusy cl || (decide (((bound1 id).owner cl).st = 1) && decide (((bound1 id).owner cl).part ≠ 1))) = false) ∧
    partition.clusters.filter (fun cl => cl.chip = (1 : Fin 128)) = [] ∧ ((bound1 id).updCl fun c => { c with part := none }).cl.part ≠ some 1 := by decide +kernel
theorem witness_PartitionCommands_args : (bound1 id).granted partition [(0, 2 ^ 40)] = true ∧ (bound1 id).granted partition [] = false ∧
    (let s := (quarantined ⟨0, 0, 1⟩ 2 0 1).updFn 1 fun f => { f with tdisp := .run };
      s.ending 1 = true ∧ s.mod.fw.quar.any (fun q => q.part = 1 && q.ends && (decide (q.fn = 1) && decide ((s.fn 1).tdisp = .run))) = true ∧
      s.mod.fw.quar.any (fun q => q.part = 1 && q.ends && (decide (q.fn = 2) && decide ((s.fn 2).tdisp = .run))) = false) ∧
    (let s := (sS.updFw fun w => { w with quar := [⟨⟨0, 0, 1⟩, 1, 1, true, 0, 1, true, 0, 0xFF, 0x100000, none⟩] }).setOwner ⟨0, 0, 1⟩ ⟨false, 2, 0⟩;
      s.part? 1 = none ∧ (s.mod.fw.quar.filter fun q => q.part = 1 && q.ends) ≠ [] ∧
      (s.mod.fw.quar.filter fun q => q.part = 1 && q.ends).any (fun q => !q.hold) = false ∧ s.mod.fw.quar.any (fun q => q.cl = (⟨0, 0, 1⟩ : ClusterId)) = true) ∧
    (bound1 id).boundCluster 1 ⟨0, 0, 0⟩ = true ∧ (bound1 id).boundCluster 2 ⟨0, 0, 0⟩ = false ∧
    (let s := (bound1 id).updFn 2 fun f => { f with busy := some (.revoke ⟨2, 0, 0, 0, 0⟩ 1 5) };
      (s.fn 2).busy = some (.revoke ⟨2, 0, 0, 0, 0⟩ 1 5) ∧ s.cmdReady (.revoke ⟨2, 0, 0, 0, 0⟩ 1 5) = true) := by decide +kernel
theorem witness_StepRunsDecoded_commands : (let i : Instr := .status ⟨3, 0, 0, 0, 0⟩; let j : Instr := .status ⟨0, 0, 0, 0, 0⟩
      let s : State := { sS with agenda := [i, j] };
      s.agenda[0]? = some i ∧ (cmdOf i).isSome = true ∧ s.agenda[1]? = some j ∧ cmdOf j = some ⟨0, 0, 0, 0, 0⟩ ∧
      s.agenda.all (fun x => (cmdOf x).all fun e => decide ((0 : Nat) ≤ e.fn.val)) = true ∧ j.isProgram = false ∧ cmdOf .slotBoundary = none) := by decide +kernel
end Sys2Proof.Tests
end

/-!
SUPPORT. Control transfers (R158, R160, R198 to R200): what a branch and a register jump do when their sources can be read and
wait for no link tag, and the words that jumps and calls decode from.
-/
namespace Sys2Proof.Machine

/-! ### Sources that wait for no link tag -/

/-- An instruction whose sources wait for no link tag goes on (R153). -/
theorem State.checkedValue_of_taint_nil {s : State} (h : s.taint = []) (k : State → State) : s.checkedValue k = k s := by
  simp [State.checkedValue, h]

/-- Reading g0 adds no link tag. -/
@[simp] theorem State.reads_zero_right (s : State) (a : GNum) : s.reads [a, 0] = s.reads [a] := by
  simp [State.reads, State.gTags]

/-- g0 can be read always. -/
@[simp] theorem State.gOk_zero (s : State) : s.gOk 0 = true := by simp [State.gOk]

/-- g0 reads zero. -/
@[simp] theorem State.gVal_zero (s : State) : s.gVal 0 = 0 := by simp [State.gVal]

/-- Bit 0 of a word as a field. -/
theorem bits_zero_one_eq_one_iff (t : Word) : bits t 0 1 = 1 ↔ t.getLsbD 0 = true := by
  simp [bits, BitVec.getLsbD, Nat.testBit_zero]

/-! ### Branches -/

/-- A branch on readable, checked values goes to its target when its condition holds, and otherwise completes. -/
theorem branch_next {n : Nat} {len : Nat} {cond : Word → Word → Bool} {a b : GNum} {disp : BitVec n} {s : State} {taken : Bool}
    (ha : s.gOk a = true) (hb : s.gOk b = true) (ht : (s.reads [a, b]).taint = []) (hc : cond (s.gVal a) (s.gVal b) = taken) :
    branch len cond a b disp s =
      .next (if taken then (s.reads [a, b]).jumpTo (s.ctx.pc + disp.signExtend 48 * 2) else (s.reads [a, b]).finish len) := by
  have hr : (s.reads [a]).reads [b] = s.reads [a, b] := s.reads_reads [a] [b]
  rw [branch, s.srcG_ok _ _ _ ha, (s.reads [a]).srcG_ok _ _ _ hb, hr, State.checkedValue_of_taint_nil ht, State.reads_gVal, hc]
  rfl

/-- A 16-bit branch compares its register with zero (R160). -/
theorem branch_zero_next {n : Nat} {len : Nat} {cond : Word → Word → Bool} {a : GNum} {disp : BitVec n} {s : State} {taken : Bool}
    (ha : s.gOk a = true) (ht : (s.reads [a]).taint = []) (hc : cond (s.gVal a) 0 = taken) :
    branch len cond a 0 disp s =
      .next (if taken then (s.reads [a]).jumpTo (s.ctx.pc + disp.signExtend 48 * 2) else (s.reads [a]).finish len) := by
  rw [← s.reads_zero_right a] at ht ⊢
  exact branch_next ha s.gOk_zero ht (s.gVal_zero ▸ hc)

/-! ### Register jumps and calls -/

/-- The link of a register jump: none, or the return address in the register named. -/
def State.linked (s : State) (link : Option GNum) (ret : Word) : State :=
  match link with
  | none => s
  | some d => s.setG d ret

section
variable {s : State} {a : GNum} (ha : s.gOk a = true) (ht : (s.reads [a]).taint = [])
include ha ht

/-- A register jump on a readable, checked target: the target is judged before the link is written (R200). -/
theorem jumpReg_eq (len : Nat) (link : Option GNum) (fa : Bool) :
    jumpReg len link a fa s = .next
      (if (s.gVal a).getLsbD 0 = true then (s.reads [a]).trapAux 0x07 0 (s.gVal a) 0
       else if ownForm s.me (s.gVal a) = false then (s.reads [a]).trapAux 0x08 0 (s.gVal a) 0
       else ((s.reads [a]).linked link (s.ctx.pc.zeroExtend 64 + BitVec.ofNat 64 len)).jumpTo ((s.gVal a).setWidth 48)) := by
  have hpc : (s.gVal a).extractLsb' 0 48 = (s.gVal a).setWidth 48 := (BitVec.setWidth_eq_extractLsb' (by decide)).symm
  rw [jumpReg, s.srcG_ok _ _ _ ha, State.checkedValue_of_taint_nil ht]
  simp only [bits_zero_one_eq_one_iff, Bool.not_eq_true', hpc]
  rfl

/-- An odd target traps 0x07 with the target in AUX. -/
theorem jumpReg_odd (len : Nat) (link : Option GNum) (fa : Bool) (ho : (s.gVal a).getLsbD 0 = true) :
    jumpReg len link a fa s = .next ((s.reads [a]).trapAux 0x07 0 (s.gVal a) 0) := by
  rw [jumpReg_eq ha ht, if_pos ho]

/-- An even target of another cluster traps 0x08 with the target in AUX. -/
theorem jumpReg_foreign (len : Nat) (link : Option GNum) (fa : Bool) (he : (s.gVal a).getLsbD 0 = false)
    (hf : ownForm s.me (s.gVal a) = false) :
    jumpReg len link a fa s = .next ((s.reads [a]).trapAux 0x08 0 (s.gVal a) 0) := by
  rw [jumpReg_eq ha ht, if_neg (ne_true_of_eq_false he), if_pos hf]

/-- An even target of the own cluster is jumped to, the link written. -/
theorem jumpReg_taken (len : Nat) (link : Option GNum) (fa : Bool) (he : (s.gVal a).getLsbD 0 = false)
    (hf : ownForm s.me (s.gVal a) = true) :
    jumpReg len link a fa s = .next
      (((s.reads [a]).linked link (s.ctx.pc.zeroExtend 64 + BitVec.ofNat 64 len)).jumpTo ((s.gVal a).setWidth 48)) := by
  rw [jumpReg_eq ha ht, if_neg (ne_true_of_eq_false he), if_neg (ne_false_of_eq_true hf)]

end

/-! ### The words of jumps and calls (R155, R159, R199, R200) -/

/-- A 32-bit table word means what its parcels decode to. -/
theorem decodeTableWord_of_decode {w : Nat} {i : Instr} (h : decode (two w ++ []) = .ok (i, [])) : decodeTableWord 32 w = some i := by
  rw [List.append_nil] at h
  simp [decodeTableWord, h]

/-- The two parcels of a 32-bit word decode as that word. -/
theorem decode_two_eq {w : Nat} (lo : 192 ≤ w / 2 ^ 24) (hi : w / 2 ^ 24 < 256) :
    decode (two w) = (checkValues (decRaw32 w)).map fun i => (i, []) := by
  have hl : isLong (BitVec.ofNat 16 (w / 2 ^ 16)) = true := by
    simp only [isLong, BitVec.toNat_ofNat, beq_iff_eq]; omega
  have hv : wordOf (BitVec.ofNat 16 (w / 2 ^ 16)) (BitVec.ofNat 16 w) = w := by
    simp only [wordOf, BitVec.toNat_ofNat]; omega
  simp only [decode, two, hl, hv, if_true]

/-- A 32-bit table word whose major opcode rejects it means nothing. -/
theorem decodeTableWord_of_error {w major : Nat} {e : Reject} (top : w / 2 ^ 24 = major) (lo : 192 ≤ major) (hi : major < 256)
    (h : decMajor major w = .error e) : decodeTableWord 32 w = none := by
  have hr : decRaw32 w = .error e := by rw [decRaw32, top, h]
  have hd : decode (two w) = .error e := by rw [decode_two_eq (top ▸ lo) (top ▸ hi), hr]; rfl
  simp [decodeTableWord, hd]

/-- A field that must be zero and is not makes the bits no instruction (R159). -/
theorem zeros_error {w lo n : Nat} {l : List (Nat × Nat)} {i : Instr} (hm : (lo, n) ∈ l) (h : fld w lo n ≠ 0) :
    zeros w l i = .error .reservedBits := by
  refine if_neg fun hall => h ?_
  simpa using List.all_eq_true.mp hall (lo, n) hm

/-- The major opcode, the function code and the d, b and fb fields of a word in the G format. -/
theorem g3W_fields (m : Nat) (d a b : GNum) (fa fb : Bool) (hm : m / 2 ^ 7 % 2 ^ 17 = 0) :
    g3W m d a b fa fb / 2 ^ 24 = m / 2 ^ 24 ∧ fld (g3W m d a b fa fb) 0 7 = fld m 0 7 ∧
      fld (g3W m d a b fa fb) 19 5 = d.val ∧ fld (g3W m d a b fa fb) 9 5 = b.val ∧ fld (g3W m d a b fa fb) 7 1 = fb.toNat := by
  have hd := d.isLt
  have ha := a.isLt
  have hb := b.isLt
  have hfa := Bool.toNat_lt fa
  have hfb := Bool.toNat_lt fb
  simp only [fld, g3W]
  omega

/-- A word of major 0x18 in which a field that its form requires to be zero is not means nothing. -/
theorem decodeTableWord_major18_error {m : Nat} {d a b : GNum} {fa fb : Bool} {l : List (Nat × Nat)} {c : Nat → Instr}
    (hm : m / 2 ^ 7 % 2 ^ 17 = 0) (top : m / 2 ^ 24 = 216) (hc : ∀ w, dec18 (fld m 0 7) w = zeros w l (c w))
    {f : Nat × Nat} (hf : f ∈ l) (h : fld (g3W m d a b fa fb) f.1 f.2 ≠ 0) : decodeTableWord 32 (g3W m d a b fa fb) = none := by
  obtain ⟨htop, hfunc, -⟩ := g3W_fields m d a b fa fb hm
  exact decodeTableWord_of_error (htop.trans top) (by decide) (by decide)
    (Laws.RoundTrip.in_dec18 hfunc ((hc _).trans (zeros_error hf h)))

/-- The word of `jr` (R200): its d, b and fb fields must be zero. -/
theorem decodeTableWord_jr (d a b : GNum) (fa fb : Bool) :
    decodeTableWord 32 (g3W 0xD8000000 d a b fa fb) = if d = 0 ∧ b = 0 ∧ fb = false then some (.jr a fa) else none := by
  have hc : ∀ w, dec18 (fld 0xD8000000 0 7) w = zeros w [(7, 1), (9, 5), (19, 5)] (gA .jr w) := fun _ => rfl
  obtain ⟨-, -, hd, hb, hfb⟩ := g3W_fields 0xD8000000 d a b fa fb rfl
  split
  case isTrue h =>
    obtain ⟨rfl, rfl, rfl⟩ := h
    exact decodeTableWord_of_decode (Laws.RoundTrip.jr a fa rfl rfl [])
  case isFalse h =>
    rw [not_and_or, not_and_or] at h
    obtain h | h | h := h
    · exact decodeTableWord_major18_error rfl rfl hc (f := (19, 5)) (by simp) (by simpa [hd] using h)
    · exact decodeTableWord_major18_error rfl rfl hc (f := (9, 5)) (by simp) (by simpa [hb] using h)
    · exact decodeTableWord_major18_error rfl rfl hc (f := (7, 1)) (by simp) (by simpa [hfb] using h)

/-- The word of `callr` (R200): its b and fb fields must be zero. -/
theorem decodeTableWord_callr (d a b : GNum) (fa fb : Bool) :
    decodeTableWord 32 (g3W 0xD8000001 d a b fa fb) = if b = 0 ∧ fb = false then some (.callr d a fa) else none := by
  have hc : ∀ w, dec18 (fld 0xD8000001 0 7) w = zeros w [(7, 1), (9, 5)] (g2 .callr w) := fun _ => rfl
  obtain ⟨-, -, -, hb, hfb⟩ := g3W_fields 0xD8000001 d a b fa fb rfl
  split
  case isTrue h =>
    obtain ⟨rfl, rfl⟩ := h
    exact decodeTableWord_of_decode (Laws.RoundTrip.callr d a fa rfl rfl [])
  case isFalse h =>
    rw [not_and_or] at h
    obtain h | h := h
    · exact decodeTableWord_major18_error rfl rfl hc (f := (9, 5)) (by simp) (by simpa [hb] using h)
    · exact decodeTableWord_major18_error rfl rfl hc (f := (7, 1)) (by simp) (by simpa [hfb] using h)

/-! ### The obligation -/

/-- Settles O6: a branch and a register jump whose sources can be read are `branch_next` and `jumpReg_eq`; the words of `j` and
`call` decode by the round trip, and those of `jr` and `callr` only with zero in the fields that R200 names. -/
theorem controlTransfers : Obligations.ControlTransfers := by
  unfold Obligations.ControlTransfers
  refine ⟨fun s a b disp imm ha hb => ⟨fun ht => ?branches, fun ht => ?shortBranches⟩,
    fun s d a fa disp imm => ⟨?direct, fun ha ht => ⟨fun ho => ?odd, fun he hf => ?foreign, fun he hf => ?taken⟩⟩,
    fun d a b fa fb disp => ⟨?wordJ, ?wordCall, ?wordJr, ?wordCallr⟩⟩
  case branches =>
    exact ⟨branch_next ha hb ht rfl, branch_next ha hb ht decide_not.symm, branch_next ha hb ht rfl, branch_next ha hb ht rfl,
      branch_next ha hb ht rfl, branch_next ha hb ht rfl⟩
  case shortBranches => exact ⟨branch_zero_next ha ht rfl, branch_zero_next ha ht decide_not.symm⟩
  case direct => exact ⟨rfl, rfl, rfl, rfl⟩
  case odd =>
    exact ⟨jumpReg_odd ha ht 4 none fa ho, jumpReg_odd ha ht 4 (some d) fa ho, jumpReg_odd ha ht 2 none false ho,
      jumpReg_odd ha ht 2 (some d) false ho⟩
  case foreign =>
    exact ⟨jumpReg_foreign ha ht 4 none fa he hf, jumpReg_foreign ha ht 4 (some d) fa he hf, jumpReg_foreign ha ht 2 none false he hf,
      jumpReg_foreign ha ht 2 (some d) false he hf⟩
  case taken =>
    exact ⟨jumpReg_taken ha ht 4 none fa he hf, jumpReg_taken ha ht 2 none false he hf, jumpReg_taken ha ht 4 (some d) fa he hf,
      jumpReg_taken ha ht 2 (some d) false he hf⟩
  case wordJ => exact decodeTableWord_of_decode (Laws.RoundTrip.j disp rfl rfl [])
  case wordCall => exact decodeTableWord_of_decode (Laws.RoundTrip.call disp rfl rfl [])
  case wordJr => exact decodeTableWord_jr d a b fa fb
  case wordCallr =>
    have hw : 0xD8000000 + d.val * 2 ^ 19 + a.val * 2 ^ 14 + b.val * 2 ^ 9 + fa.toNat * 2 ^ 8 + fb.toNat * 2 ^ 7 + 1 =
        g3W 0xD8000001 d a b fa fb := by unfold g3W; omega
    exact (congrArg (decodeTableWord 32) hw).trans (decodeTableWord_callr d a b fa fb)

end Sys2Proof.Machine

/-!
SUPPORT. Starvation (R337): which candidate `oldest` picks, what a DISPATCH decision does with a starved candidate, and that a
binding leaves the policy machine as it is.
-/
namespace Sys2Proof.Machine

/-! ### The oldest of some candidates -/

/-- A candidate stays the choice while none of those after it was queued before it. -/
theorem foldl_olderOf_of_le {e : QEnt} : ∀ {l : List QEnt}, (∀ x ∈ l, e.since ≤ x.since) →
    l.foldl (fun a b => some (olderOf a b)) (some e) = some e
  | [], _ => rfl
  | b :: r, h => by
    obtain ⟨hb, hr⟩ := List.forall_mem_cons.mp h
    have keep : olderOf (some e) b = e := if_neg (Nat.not_lt.mpr hb)
    rw [List.foldl_cons, keep]
    exact foldl_olderOf_of_le hr

/-- Every choice among candidates queued after a cycle was queued after it. -/
theorem lt_since_foldl_olderOf {t : Nat} : ∀ {l : List QEnt} {a : Option QEnt}, (∀ x ∈ a, t < x.since) → (∀ x ∈ l, t < x.since) →
    ∀ x ∈ l.foldl (fun a b => some (olderOf a b)) a, t < x.since
  | [], _, ha, _ => ha
  | b :: r, a, ha, h => by
    obtain ⟨hb, hr⟩ := List.forall_mem_cons.mp h
    refine lt_since_foldl_olderOf (a := some (olderOf a b)) ?_ hr
    rintro x ⟨⟩
    cases a with
    | none => exact hb
    | some y =>
      rw [olderOf]
      split
      · exact hb
      · exact ha y rfl

/-- A candidate replaces a choice that was queued after it. -/
theorem olderOf_of_lt {e : QEnt} {a : Option QEnt} (h : ∀ x ∈ a, e.since < x.since) : olderOf a e = e := by
  cases a with
  | none => rfl
  | some x => exact if_pos (h x rfl)

/-- The oldest candidate is the one queued before all those in lower slots, and not after those in higher slots (R337). -/
theorem oldest_append_cons {e : QEnt} {before after : List QEnt} (hb : ∀ x ∈ before, e.since < x.since)
    (ha : ∀ x ∈ after, e.since ≤ x.since) : oldest (before ++ e :: after) = some e := by
  have hlt := lt_since_foldl_olderOf (a := none) (by simp) hb
  rw [oldest, List.foldl_append, List.foldl_cons, olderOf_of_lt hlt]
  exact foldl_olderOf_of_le ha

/-! ### The DISPATCH decision -/

/-- At its boundary, for an IDLE context, a DISPATCH decision binds the oldest starved candidate and only counts itself. -/
theorem execDispatchDecision_starved {s : State} {c : CtxId} {e : QEnt} (hrun : s.running = true) (hidle : (s.getCtx c).st = .idle)
    (hfirst : s.decisionFirst (.dispatchDecision c) = true)
    (he : oldest (((List.range 8).filterMap (s.candidate c)).filter fun x => decide (s.cl.par.ageMax ≤ s.mod.cycles - x.since)) = some e) :
    execDispatchDecision c s = .next ((s.updPol fun p => { p with decn := p.decn + 1 }).bindQueued c e.idx) := by
  have hcands : ((List.range 8).filterMap (s.candidate c)).isEmpty = false := by
    rw [Bool.eq_false_iff]
    intro hempty
    rw [List.isEmpty_iff.mp hempty] at he
    cases he
  simp only [execDispatchDecision, State.atBoundary, hrun, hfirst, hidle, hcands, he, Bool.not_true, Bool.false_eq_true, ne_eq,
    not_true_eq_false, if_true, if_false]

/-! ### A binding and the cluster's policy machine -/

/-- A change of the policy machine changes it alone. -/
theorem State.updPol_policy (s : State) (f : Policy → Policy) : (s.updPol f).cl.policy = f s.cl.policy := rfl

/-- A record's word is written in memory alone. -/
@[simp] theorem State.putRec_cl (s : State) (i w : Nat) (x : Word) : (s.putRec i w x).cl = s.cl := rfl

/-- A chain is written in memory alone. -/
@[simp] theorem State.chain_cl : ∀ (l : List QEnt) (s : State), (s.chain l).cl = s.cl
  | [], _ => rfl
  | [_], _ => rfl
  | e :: f :: r, s => State.chain_cl (f :: r) (s.setNext e.idx f.idx)

/-- Chains are rewritten in memory alone. -/
@[simp] theorem State.rechain_cl (s : State) (old : Vector (List QEnt) 8) : ∀ n, (s.rechain old n).cl = s.cl
  | 0 => rfl
  | q + 1 => by
    rw [State.rechain]
    split
    · exact s.rechain_cl old q
    · rw [State.chain_cl, s.rechain_cl old q]

/-- A context takes a record with nothing of the cluster changed. -/
@[simp] theorem State.takeRecord_cl (s : State) (c : CtxId) (i : Nat) : (s.takeRecord c i).cl = s.cl := rfl

/-- A binding leaves the policy machine as it is. -/
theorem State.bindCtx_policy (s : State) (c : CtxId) (i : Nat) (woke : Bool) : (s.bindCtx c i woke).cl.policy = s.cl.policy := by
  rw [State.bindCtx, State.rechain_cl, State.updCtx_cl, State.updCl_cl]
  dsimp only
  split <;> simp only [State.putRec_cl, State.takeRecord_cl]

/-- A QUEUED record is bound with the policy machine as it is. -/
theorem State.bindQueued_policy (s : State) (c : CtxId) (i : Nat) : (s.bindQueued c i).cl.policy = s.cl.policy := by
  rw [State.bindQueued, State.bindCtx_policy]

/-! ### The obligation -/

/-- Settles O45: the starved candidate of the statement is the one `oldest` picks (`oldest_append_cons`), so the decision binds it
(`execDispatchDecision_starved`), and the binding leaves the counted policy machine as it is (`bindQueued_policy`). -/
theorem starvation : Obligations.Starvation := by
  unfold Obligations.Starvation
  intro s c e before after hrun hidle hfirst hstarved hb ha
  have he := oldest_append_cons hb ha
  rw [← hstarved] at he
  refine ⟨execDispatchDecision_starved hrun hidle hfirst he, ?_⟩
  rw [State.bindQueued_policy, State.updPol_policy]

end Sys2Proof.Machine

/-!
SUPPORT. Fetching a parcel (R156, R353): which checks of an access fail, the cause that each gives a fetch, and the step in which a
context that has the issue slot cannot fetch its instruction.
-/
namespace Sys2Proof.Machine

/-! ### The checks of an access that fail -/

section
variable {s : State} {agent o n : Nat} {sup : Bool} {p : Perm}

/-- A span outside both windows is not mapped (R353). -/
theorem State.access_outside (hs : inSpad o n = false) (hh : inHbm o n = false) : (s.access agent sup p o n).1 = .unmapped := by
  simp [State.access, hs, hh]

/-- A scratchpad span with a byte that its region denies (R351). -/
theorem State.access_spad_denied (hs : inSpad o n = true) (hp : s.spadAllowed sup p o n = false) :
    (s.access agent sup p o n).1 = .denied false := by
  simp [State.access, hs, hp]

section
variable (hs : inSpad o n = false) (hh : inHbm o n = true)
include hs hh

/-- A span in HBM whose walk finds no leaf (R357). -/
theorem State.access_hbm_unmapped (hw : (s.walk agent o).1 = .unmapped) : (s.access agent sup p o n).1 = .unmapped := by
  obtain ⟨t, ht⟩ : ∃ t, s.walk agent o = (.unmapped, t) := ⟨_, Prod.ext hw rfl⟩
  simp [State.access, hs, hh, ht]

variable {leaf : Word} {two : Bool} (hw : (s.walk agent o).1 = .leaf leaf two)
include hw

/-- A span in HBM whose leaf denies the access (R356), resident or not. -/
theorem State.access_hbm_denied (hp : bits leaf (leafBit sup p) 1 = 0) : (s.access agent sup p o n).1 = .denied true := by
  obtain ⟨t, ht⟩ : ∃ t, s.walk agent o = (.leaf leaf two, t) := ⟨_, Prod.ext hw rfl⟩
  simp [State.access, hs, hh, ht, hp]

/-- A span in HBM that its leaf allows, on a page that is not resident (R358). -/
theorem State.access_hbm_nonres (hp : bits leaf (leafBit sup p) 1 = 1) (hr : bits leaf 60 2 ≠ 0) :
    (s.access agent sup p o n).1 = .nonres ((o - hbmLo) / 2 ^ 16) leaf := by
  obtain ⟨t, ht⟩ : ∃ t, s.walk agent o = (.leaf leaf two, t) := ⟨_, Prod.ext hw rfl⟩
  simp [State.access, hs, hh, ht, hp, hr]

end
end

/-! ### Fetching (R156, R353) -/

/-- The cause with which a check of an access stops a fetch; none where it lets the fetch go on or wait. -/
def AccRes.fetchCause : AccRes → Option (BitVec 8)
  | .ok _ | .mig _ => none
  | .unmapped => some 0x0A
  | .denied hbm => some (if hbm then 0x0A else 0x09)
  | .nonres _ _ => some 0x0C
  | .walknr => some 0x18
  | .err => some 0x19

/-- A parcel whose access fails is not fetched: the fetch reports the failure's cause and the parcel's address. -/
theorem State.fetchParcel_fails {s : State} {pc : BitVec 48} {r : AccRes} {cause : BitVec 8}
    (ha : (s.access s.agent s.sup .fx pc.toNat 2).1 = r) (hc : r.fetchCause = some cause) :
    ∃ t, s.fetchParcel pc = (.inr (.fail cause (pc.zeroExtend 64)), t) := by
  obtain ⟨t, ht⟩ : ∃ t, s.access s.agent s.sup .fx pc.toNat 2 = (r, t) := ⟨_, Prod.ext ha rfl⟩
  rw [State.fetchParcel, ht]
  cases r with
  | ok key => cases hc
  | mig key => cases hc
  | unmapped | denied hbm | nonres vpn leaf | walknr | err => cases hc; exact ⟨t, rfl⟩

section
variable {s t u : State} {pc : BitVec 48} {f : Fetched} {p : Parcel}

/-- An instruction whose first parcel cannot be fetched fails with it. -/
theorem State.fetchAt_first (h : s.fetchParcel pc = (.inr f, t)) : s.fetchAt pc = (f, t) := by
  simp only [State.fetchAt, h]

/-- A 32-bit instruction whose second parcel cannot be fetched fails with that one. -/
theorem State.fetchAt_second (h : s.fetchParcel pc = (.inl p, t)) (hl : isLong p = true) (hn : t.fetchParcel (pc + 2) = (.inr f, u)) :
    s.fetchAt pc = (f, u) := by
  simp only [State.fetchAt, h, hl, hn, if_true]

end

/-! ### A step whose fetch fails -/

/-- What a failed fetch executes. -/
theorem exec_fetchFault (cause : BitVec 8) (a : Word) (s : State) : exec (.fetchFault cause a) s = execFetchFault cause a s := rfl

/-- A failed fetch of any cause but the two with a rule of their own traps with the parcel's address. -/
theorem exec_fetchFault_ea {cause : BitVec 8} (hr : cause ≠ 0x0C) (hw : cause ≠ 0x18) (a : Word) (s : State) :
    exec (.fetchFault cause a) s = .next (s.trapAux cause 0 a 0) := by
  rw [exec_fetchFault, execFetchFault, if_neg hr, if_neg hw, State.trapEa]

/-- A fetch that meets a non-resident page traps with the parcel's address, its record held for the page's recall (R366). -/
theorem exec_fetchFault_nonres (a : Word) (s : State) :
    exec (.fetchFault 0x0C a) s = .next (s.trapNonRes a ((a.toNat - hbmLo) / 2 ^ 16)) := by
  rw [exec_fetchFault, execFetchFault, if_pos rfl]

/-- A context that, once begun, cannot fetch at its PC executes the failure in place of an instruction. -/
theorem State.runCtx_fail {s u t : State} {c : CtxId} {cause : BitVec 8} {a : Word} (hb : s.begin c = u)
    (h : u.fetchAt u.ctx.pc = (.fail cause a, t)) : s.runCtx c = exec (.fetchFault cause a) t := by
  simp only [State.runCtx, hb, h, State.runFetched]

/-- A core's issue slot goes to a context that DEBUG has not named and that enters no handler: it runs (R13). -/
theorem State.issueCore_runs {s : State} {core : CoreId} {c : CtxId} (hc : (s.nextReady core).1 = some c)
    (hd : (s.getCtx c).debug = false) (hh : numOf c = 0 → s.handlerDue core = false) :
    s.issueCore core = ((s.drawN 16).2.updCore core fun k => { k with lastIssued := numOf c }).runCtx c := by
  have hn : s.nextReady core = (some c, (s.drawN 16).2) := Prod.ext hc rfl
  have hdue : (decide (numOf c = 0) && (s.drawN 16).2.handlerDue core) = false := by
    rw [Bool.and_eq_false_imp]
    exact fun h0 => hh (of_decide_eq_true h0)
  have hstop : ∀ f, ((s.drawN 16).2.updCore core f).debugStop c = (false, (s.drawN 16).2.updCore core f) := fun f =>
    if_pos (by rw [State.updCore_getCtx]; exact congrArg (!·) hd)
  simp only [State.issueCore, hn, hdue, hstop, Bool.false_eq_true, if_false]

/-- A core's issue slot that was put first is the step (R13). -/
theorem step_issue {s : State} {core : CoreId} {r : List Turn} (h : s.turns = .issue core :: r) :
    step s = settled (({ s with turns := r } : State).issueCore core) := by
  simp only [step, h, runTurn]

/-- A context that begins with the issue slot stands as `State.slotFor` says. -/
theorem State.begin_eq_slotFor (s : State) (core : CoreId) (c : CtxId) (r : List Turn) :
    ((({ s with turns := r } : State).drawN 16).2.updCore core fun k => { k with lastIssued := numOf c }).begin c =
      s.slotFor core c r := rfl

/-- The step in which a context has the issue slot and cannot fetch executes the failure (R156). -/
theorem step_fetch_fails {s t : State} {core : CoreId} {c : CtxId} {r : List Turn} {cause : BitVec 8} {a : Word}
    (hs : s.turns = .issue core :: r) (hc : (({ s with turns := r } : State).nextReady core).1 = some c)
    (hd : (s.getCtx c).debug = false) (hh : numOf c = 0 → ({ s with turns := r } : State).handlerDue core = false)
    (hf : (s.slotFor core c r).fetchAt (s.slotFor core c r).ctx.pc = (.fail cause a, t)) :
    step s = settled (exec (.fetchFault cause a) t) := by
  rw [step_issue hs, State.issueCore_runs hc hd hh, State.runCtx_fail (s.begin_eq_slotFor core c r) hf]

/-! ### The obligation -/

/-- Settles O53: each check that fails makes the access fail, so that the parcel's fetch reports the cause (`fetchParcel_fails`); an
instruction fails with whichever of its parcels fails (`fetchAt_first`, `fetchAt_second`), and the step traps with that cause
(`step_fetch_fails`). -/
theorem fetchChecks : Obligations.FetchChecks := by
  unfold Obligations.FetchChecks
  refine ⟨fun s pc => ⟨fun hs hh => ?outside, fun hs hp => ?spad, fun hs hh => ⟨fun hw => ?unmapped, fun leaf two hw =>
    ⟨fun hp => ?denied, fun hp hr => ?nonres⟩⟩⟩, fun s t pc cause a p => ⟨?first, fun u => ?second⟩,
    fun s core c r t cause a hs hc hd hh hf => ⟨fun hcause => ?trap, fun hcause => ?nonResident⟩⟩
  case outside => exact State.fetchParcel_fails (State.access_outside hs hh) rfl
  case spad => exact State.fetchParcel_fails (State.access_spad_denied hs hp) rfl
  case unmapped => exact State.fetchParcel_fails (State.access_hbm_unmapped hs hh hw) rfl
  case denied => exact State.fetchParcel_fails (State.access_hbm_denied hs hh hw hp) rfl
  case nonres => exact State.fetchParcel_fails (State.access_hbm_nonres hs hh hw hp hr) rfl
  case first => exact State.fetchAt_first
  case second => exact State.fetchAt_second
  case trap =>
    have hea : cause ≠ 0x0C ∧ cause ≠ 0x18 := by
      obtain rfl | rfl := hcause
      · decide
      · decide
    exact (step_fetch_fails hs hc hd hh hf).trans (congrArg settled (exec_fetchFault_ea hea.1 hea.2 a t))
  case nonResident =>
    subst hcause
    exact (step_fetch_fails hs hc hd hh hf).trans (congrArg settled (exec_fetchFault_nonres a t))

end Sys2Proof.Machine

/-!
SUPPORT. Decoding of encoded instructions (R155 to R175): the lemmas of each constructor put together.
-/
namespace Sys2Proof.Laws.RoundTrip

/-- Every instruction is what its parcels decode to. -/
theorem statement (i : Instr) : Statement i := by
  cases i with
  | add => exact add _ _ _ _ _
  | sub => exact sub _ _ _ _ _
  | and => exact and _ _ _ _ _
  | or => exact or _ _ _ _ _
  | xor => exact xor _ _ _ _ _
  | andn => exact andn _ _ _ _ _
  | orn => exact orn _ _ _ _ _
  | xnor => exact xnor _ _ _ _ _
  | sll => exact sll _ _ _ _ _
  | srl => exact srl _ _ _ _ _
  | sra => exact sra _ _ _ _ _
  | rol => exact rol _ _ _ _ _
  | ror => exact ror _ _ _ _ _
  | mul => exact mul _ _ _ _ _
  | mulh => exact mulh _ _ _ _ _
  | mulhn => exact mulhn _ _ _ _ _
  | div => exact div _ _ _ _ _
  | divn => exact divn _ _ _ _ _
  | rem => exact rem _ _ _ _ _
  | remn => exact remn _ _ _ _ _
  | min => exact min _ _ _ _ _
  | max => exact max _ _ _ _ _
  | minn => exact minn _ _ _ _ _
  | maxn => exact maxn _ _ _ _ _
  | slt => exact slt _ _ _ _ _
  | sltn => exact sltn _ _ _ _ _
  | seq => exact seq _ _ _ _ _
  | sne => exact sne _ _ _ _ _
  | clz => exact clz _ _ _
  | ctz => exact ctz _ _ _
  | popc => exact popc _ _ _
  | brev => exact brev _ _ _
  | bswap => exact bswap _ _ _
  | sx8 => exact sx8 _ _ _
  | sx16 => exact sx16 _ _ _
  | sx32 => exact sx32 _ _ _
  | zx8 => exact zx8 _ _ _
  | zx16 => exact zx16 _ _ _
  | zx32 => exact zx32 _ _ _
  | adds => exact adds _ _ _ _ _
  | subs => exact subs _ _ _ _ _
  | addsn => exact addsn _ _ _ _ _
  | subsn => exact subsn _ _ _ _ _
  | sel => exact sel _ _ _ _ _
  | addi => exact addi _ _ _ _
  | andi => exact andi _ _ _ _
  | ori => exact ori _ _ _ _
  | xori => exact xori _ _ _ _
  | slli => exact slli _ _ _ _
  | srli => exact srli _ _ _ _
  | srai => exact srai _ _ _ _
  | roli => exact roli _ _ _ _
  | rori => exact rori _ _ _ _
  | slti => exact slti _ _ _ _
  | sltni => exact sltni _ _ _ _
  | bfx => exact bfx _ _ _ _ _
  | bfxs => exact bfxs _ _ _ _ _
  | bfi => exact bfi _ _ _ _ _
  | lim => exact lim _ _ _
  | limk => exact limk _ _ _
  | leaA => exact leaA _ _ _ _ _
  | leaR => exact leaR _ _ _ _ _
  | leaS => exact leaS _ _ _ _ _
  | myid => exact myid _
  | kand => exact kand _ _ _
  | kor => exact kor _ _ _
  | kxor => exact kxor _ _ _
  | kandn => exact kandn _ _ _
  | knot => exact knot _ _
  | kfromg => exact kfromg _ _ _
  | ktog => exact ktog _ _
  | kpop => exact kpop _ _
  | kfirst => exact kfirst _ _
  | vperm => exact vperm _ _ _ _ _ _
  | vperm2 => exact vperm2 _ _ _ _ _ _
  | vzip => exact vzip _ _ _ _ _
  | vunzip => exact vunzip _ _ _ _ _
  | vscl => exact vscl _ _ _ _ _ _
  | vqnt => exact vqnt _ _ _ _ _ _
  | beq => exact beq _ _ _
  | bne => exact bne _ _ _
  | blt => exact blt _ _ _
  | bge => exact bge _ _ _
  | bltn => exact bltn _ _ _
  | bgen => exact bgen _ _ _
  | j => exact j _
  | call => exact call _
  | jr => exact jr _ _
  | callr => exact callr _ _ _
  | ldI8 => exact ldI8 _ _ _ _
  | ldI16 => exact ldI16 _ _ _ _
  | ldI32 => exact ldI32 _ _ _ _
  | ldI64 => exact ldI64 _ _ _ _
  | ldN8 => exact ldN8 _ _ _ _
  | ldN16 => exact ldN16 _ _ _ _
  | ldN32 => exact ldN32 _ _ _ _
  | stI8 => exact stI8 _ _ _ _
  | stI16 => exact stI16 _ _ _ _
  | stI32 => exact stI32 _ _ _ _
  | stI64 => exact stI64 _ _ _ _
  | ldfe => exact ldfe _ _ _ _
  | ldff => exact ldff _ _ _ _
  | stfe => exact stfe _ _ _ _
  | stff => exact stff _ _ _ _
  | purge => exact purge _ _ _
  | aadd => exact aadd _ _ _ _ _ _
  | aaddNr => exact aaddNr _ _ _ _ _
  | aand => exact aand _ _ _ _ _ _
  | aandNr => exact aandNr _ _ _ _ _
  | aor => exact aor _ _ _ _ _ _
  | aorNr => exact aorNr _ _ _ _ _
  | axor => exact axor _ _ _ _ _ _
  | axorNr => exact axorNr _ _ _ _ _
  | amin => exact amin _ _ _ _ _ _
  | aminNr => exact aminNr _ _ _ _ _
  | amax => exact amax _ _ _ _ _ _
  | amaxNr => exact amaxNr _ _ _ _ _
  | aminn => exact aminn _ _ _ _ _ _
  | aminnNr => exact aminnNr _ _ _ _ _
  | amaxn => exact amaxn _ _ _ _ _ _
  | amaxnNr => exact amaxnNr _ _ _ _ _
  | aswap => exact aswap _ _ _ _ _ _
  | acas => exact acas _ _ _ _ _ _
  | watch => exact watch _ _ _ _ _
  | watchT => exact watchT _ _ _ _ _ _
  | seqAdv => exact seqAdv _ _ _ _ _
  | pfence => exact pfence
  | yield => exact yield
  | park => exact park
  | exit => exact exit
  | pull => exact pull _ _ _ _ _
  | pull2d => exact pull2d _ _ _ _ _ _
  | pullG => exact pullG _ _ _ _
  | pullAdd => exact pullAdd _ _ _ _ _
  | copy => exact copy _ _ _ _ _
  | hget => exact hget _ _ _ _ _
  | hsend => exact hsend _ _ _ _ _
  | spawn => exact spawn _ _ _ _ _ _
  | amsg => exact amsg _ _ _ _ _ _
  | tlwait => exact tlwait _ _
  | tltest => exact tltest _ _
  | tlrd => exact tlrd _ _
  | tlhigh => exact tlhigh _ _
  | tlerr => exact tlerr _ _
  | garrive => exact garrive _ _
  | gwait => exact gwait _ _
  | gwaitT => exact gwaitT _ _ _
  | gsync => exact gsync _ _
  | gquery => exact gquery _ _
  | calrd => exact calrd _ _
  | srd => exact srd _ _
  | swr => exact swr _ _
  | erd => exact erd _ _
  | ewr => exact ewr _ _
  | tset => exact tset _ _ _ _ _
  | tgetW0 => exact tgetW0 _ _
  | tgetW1 => exact tgetW1 _ _
  | mld => exact mld _
  | mldt => exact mldt _
  | mmeta => exact mmeta _ _ _
  | mswap => exact mswap
  | mstream => exact mstream _ _ _
  | mzero => exact mzero _ _
  | mcvt => exact mcvt _ _ _ _ _
  | mtask => exact mtask _ _
  | tret => exact tret _ _
  | cstart => exact cstart _ _ _
  | cstop => exact cstop _ _ _
  | creap => exact creap _ _ _ _ _
  | ctxsv => exact ctxsv _ _ _ _ _
  | ctxld => exact ctxld _ _ _ _ _
  | rlarm => exact rlarm _ _ _
  | prset => exact prset _ _ _ _ _
  | tinv => exact tinv _ _ _ _ _
  | cflush => exact cflush _ _ _ _ _
  | cinval => exact cinval _ _ _ _ _
  | polld => exact polld _ _ _ _ _
  | polsw => exact polsw _ _ _
  | vld => exact vld _ _ _ _ _ _
  | vst => exact vst _ _ _ _ _
  | vlds => exact vlds _ _ _ _ _ _
  | vsts => exact vsts _ _ _ _ _ _
  | vldp => exact vldp _ _ _ _ _ _
  | vldt => exact vldt _ _ _ _ _ _
  | vldg => exact vldg _ _ _ _ _ _
  | vstg => exact vstg _ _ _ _ _ _
  | vadd => exact vadd _ _ _ _ _ _
  | vsub => exact vsub _ _ _ _ _ _
  | vadds => exact vadds _ _ _ _ _ _
  | vsubs => exact vsubs _ _ _ _ _ _
  | vmul => exact vmul _ _ _ _ _ _
  | vmulh => exact vmulh _ _ _ _ _ _
  | vfma => exact vfma _ _ _ _ _ _
  | vfms => exact vfms _ _ _ _ _ _
  | vmin => exact vmin _ _ _ _ _ _
  | vmax => exact vmax _ _ _ _ _ _
  | vand => exact vand _ _ _ _ _ _
  | vor => exact vor _ _ _ _ _ _
  | vxor => exact vxor _ _ _ _ _ _
  | vandn => exact vandn _ _ _ _ _ _
  | vsll => exact vsll _ _ _ _ _ _
  | vsrl => exact vsrl _ _ _ _ _ _
  | vsra => exact vsra _ _ _ _ _ _
  | vrol => exact vrol _ _ _ _ _ _
  | vcmp => exact vcmp _ _ _ _ _ _ _
  | vcmpa => exact vcmpa _ _ _ _ _ _ _
  | vcvt => exact vcvt _ _ _ _ _ _
  | vabs => exact vabs _ _ _ _
  | vneg => exact vneg _ _ _ _
  | vnot => exact vnot _ _ _ _
  | vclz => exact vclz _ _ _ _
  | vpopc => exact vpopc _ _ _ _
  | vrcp => exact vrcp _ _ _ _
  | vrsq => exact vrsq _ _ _ _
  | vexp2 => exact vexp2 _ _ _ _
  | vlog2 => exact vlog2 _ _ _ _
  | vrtrec => exact vrtrec _ _ _ _
  | vsqrt => exact vsqrt _ _ _ _ _
  | vrsum => exact vrsum _ _ _ _ _
  | vrmax => exact vrmax _ _ _ _
  | vrmin => exact vrmin _ _ _ _
  | vrand => exact vrand _ _ _ _
  | vrior => exact vrior _ _ _ _
  | vrxor => exact vrxor _ _ _ _
  | vtagw => exact vtagw _ _ _ _
  | vtag => exact vtag _ _ _
  | vbcast => exact vbcast _ _ _ _ _
  | vmovg => exact vmovg _ _ _
  | vsldu => exact vsldu _ _ _ _ _
  | vsldd => exact vsldd _ _ _ _ _
  | vlrot => exact vlrot _ _ _ _ _
  | cMov => exact cMov _ _
  | cAdd => exact cAdd _ _
  | cSub => exact cSub _ _
  | cAnd => exact cAnd _ _
  | cOr => exact cOr _ _
  | cXor => exact cXor _ _
  | cSll => exact cSll _ _
  | cSrl => exact cSrl _ _
  | cSra => exact cSra _ _
  | cLd => exact cLd _ _
  | cSt => exact cSt _ _
  | cJr => exact cJr _
  | cCallr => exact cCallr _ _
  | cLdfe => exact cLdfe _ _
  | cStfe => exact cStfe _ _
  | cAddi => exact cAddi _ _
  | cLi => exact cLi _ _
  | cSlli => exact cSlli _ _
  | cSrli => exact cSrli _ _
  | cSrai => exact cSrai _ _
  | cBz => exact cBz _ _
  | cBnz => exact cBnz _ _
  | nop => exact nop
  | cJ => exact cJ _
  | cYield => exact cYield
  | cPark => exact cPark
  | cExit => exact cExit
  | brk => exact brk _
  | svc => exact svc _
  | cPfence => exact cPfence
  | rep => exact rep _ _ _ _ _
  | _ => exact notProgram rfl

/-- Settles O55: the claim is `Statement` of each instruction. -/
theorem roundTrip : Obligations.RoundTrip := statement

end Sys2Proof.Laws.RoundTrip

/-!
SUPPORT. Twin mode (R32): what the end of every move leaves of a pair, whatever the move was.
-/
namespace Sys2Proof.Machine

/-! ### Vectors made place by place -/

/-- Places written one by one: those below the bound hold the function's value, the others what they held. -/
theorem foldl_setIfInBounds_getElem? {β : Type} {n : Nat} (f : Nat → β) (v : Vector β n) (k i : Nat) :
    ((List.range k).foldl (fun v i => v.setIfInBounds i (f i)) v)[i]? = if i < k ∧ i < n then some (f i) else v[i]? := by
  induction k with
  | zero => simp
  | succ k ih =>
    rw [List.range_succ, List.foldl_append, List.foldl_cons, List.foldl_nil, Vector.getElem?_setIfInBounds, ih]
    by_cases hk : k = i
    · subst hk
      simp
      grind
    · simp only [hk, if_false]
      congr 1
      simp only [eq_iff_iff]
      omega

/-- A place of a vector made by a function holds the function's value. -/
theorem fillVec_getElem? {β : Type} {n : Nat} (v : Vector β n) (f : Nat → β) (i : Nat) :
    (fillVec v f)[i]? = if i < n then some (f i) else none := by
  rw [fillVec, foldl_setIfInBounds_getElem?]
  split <;> simp_all

/-! ### The trailers of a move's end -/

/-- The mirrored state's trailers hold what their leaders hold: a leader is no trailer of another context. -/
theorem State.mirrorTwins_twinsAgree (s : State) : s.mirrorTwins.TwinsAgree := by
  intro htwin i hi
  rw [State.mirrorTwins] at htwin ⊢
  split at htwin
  case isFalse h => exact absurd htwin h
  case isTrue h =>
    rw [if_pos h]
    have hlead : ¬ 9 ≤ (i - 8) % 16 := by omega
    simp only [fillVec_getElem?, hi, hlead, if_true, if_false]
    by_cases hb : i < 64
    · rw [if_pos hb, if_pos (by omega)]
    · rw [if_neg hb, if_neg (by omega)]

/-- A step's next state is a mirrored one. -/
theorem step_next_mirrored {s t : State} (h : step s = .next t) : ∃ u : State, t = u.mirrorTwins := by
  have key : ∀ o : Out, settled o = .next t → ∃ u : State, t = u.mirrorTwins := by
    intro o ho
    cases o with
    | next u => exact ⟨u, (Host.Outcome.next.inj ho).symm⟩
    | fault f => cases ho
    | refused w => cases ho
  rw [step] at h
  split at h
  · exact key _ h
  · dsimp only at h
    split at h
    · exact key _ h
    · exact key _ h

/-- Settles O60: every step ends by mirroring the pairs (`step_next_mirrored`), whatever stood before. -/
theorem stepKeepsTwins : Obligations.StepKeepsTwins := by
  intro s t _ h
  obtain ⟨u, rfl⟩ := step_next_mirrored h
  exact u.mirrorTwins_twinsAgree

end Sys2Proof.Machine

/-!
SUPPORT. The two-source scalar instructions (R191, R192, R196): what an instruction of two readable sources leaves, and the values
of division and remainder.
-/
namespace Sys2Proof.Machine

/-! ### Instructions of readable sources -/

/-- Two readable sources: the function's value is written. -/
theorem gop2_next {s : State} {d a b : GNum} {len : Nat} {f : Word → Word → Word} {fa fb : Bool} (ha : s.gOk a = true) (hb : s.gOk b = true) :
    gop2 len f d a b fa fb s = .next ((s.reads [a, b]).putG len d (f (s.gVal a) (s.gVal b))) := by
  rw [gop2, s.srcG_ok _ _ _ ha, (s.reads [a]).srcG_ok _ _ _ hb, State.reads_reads, State.reads_gVal]
  rfl

/-- Two readable sources whose function has a value that is known otherwise. -/
theorem gop2_value {s : State} {d a b : GNum} {len : Nat} {f : Word → Word → Word} {fa fb : Bool} {v : Word} (ha : s.gOk a = true)
    (hb : s.gOk b = true) (h : f (s.gVal a) (s.gVal b) = v) : gop2 len f d a b fa fb s = .next ((s.reads [a, b]).putG len d v) :=
  h ▸ gop2_next ha hb

/-- One readable source: the function's value is written. -/
theorem gop1_next {s : State} {d a : GNum} {len : Nat} {f : Word → Word} {fa : Bool} (ha : s.gOk a = true) :
    gop1 len f d a fa s = .next ((s.reads [a]).putG len d (f (s.gVal a))) := by
  rw [gop1, s.srcG_ok _ _ _ ha]

/-- One readable source whose function has a value that is known otherwise. -/
theorem gop1_value {s : State} {d a : GNum} {len : Nat} {f : Word → Word} {fa : Bool} {v : Word} (ha : s.gOk a = true)
    (h : f (s.gVal a) = v) : gop1 len f d a fa s = .next ((s.reads [a]).putG len d v) := h ▸ gop1_next ha

/-- A readable source, and d read after it. -/
theorem gopD_next {s : State} {d a : GNum} {f : Word → Word → Word} {fa : Bool} (ha : s.gOk a = true) (hd : s.gOk d = true) :
    gopD f d a fa s = .next ((s.reads [a, d]).putG 4 d (f (s.gVal a) (s.gVal d))) := by
  rw [gopD, s.srcG_ok _ _ _ ha, (s.reads [a]).srcG_ok _ _ _ hd, State.reads_reads, State.reads_gVal]
  rfl

/-- `sel` with three readable sources (R192). -/
theorem execSel_next {s : State} {d a b : GNum} {fa fb : Bool} (ha : s.gOk a = true) (hb : s.gOk b = true) (hd : s.gOk d = true) :
    execSel d a b fa fb s = .next ((s.reads [a, b, d]).putG 4 d (if s.gVal d = 0 then s.gVal b else s.gVal a)) := by
  rw [execSel, s.srcG_ok _ _ _ ha, (s.reads [a]).srcG_ok _ _ _ hb, State.reads_reads, (s.reads ([a] ++ [b])).srcG_ok _ _ _ hd,
    State.reads_reads]
  exact congrArg (fun v => Host.Outcome.next ((s.reads [a, b, d]).putG 4 d v)) (ite_not (s.gVal d = 0) _ _)

/-! ### Truth values -/

/-- The word of a condition. -/
theorem ofBool_decide (p : Prop) [Decidable p] : ofBool (decide p) = if p then 1 else 0 := by simp [ofBool]

/-- The word of an inequality. -/
theorem ofBool_bne (x y : Word) : ofBool (x != y) = if x = y then 0 else 1 := by
  by_cases h : x = y
  · simp [ofBool, h]
  · simp [ofBool, h]

/-! ### Division and remainder (R191) -/

/-- A signed word within its bounds is its number. -/
theorem toInt_ofInt_of_bounds {v : Int} (lo : -2 ^ 63 ≤ v) (hi : v < 2 ^ 63) : (BitVec.ofInt 64 v).toInt = v := by
  rw [BitVec.toInt_ofInt]
  exact Int.bmod_eq_of_le (by simpa using lo) (by simpa using hi)

/-- The bounds of a signed word. -/
theorem word_toInt_bounds (x : Word) : -2 ^ 63 ≤ x.toInt ∧ x.toInt < 2 ^ 63 := by
  have lo := BitVec.le_toInt x
  have hi := BitVec.toInt_lt (x := x)
  simp only [Nat.add_one_sub_one] at lo hi
  exact ⟨lo, hi⟩

/-- A word that is not zero has a signed value that is not. -/
theorem toInt_ne_zero {x : Word} (h : x ≠ 0) : x.toInt ≠ 0 := fun e => h (BitVec.eq_of_toInt_eq (by simpa using e))

/-- The quotient that fits: all but that of the least word and −1. -/
theorem tdiv_bounds {a b : Word} (hb : b ≠ 0) (h : ¬(a.toInt = -2 ^ 63 ∧ b.toInt = -1)) :
    -2 ^ 63 ≤ a.toInt.tdiv b.toInt ∧ a.toInt.tdiv b.toInt < 2 ^ 63 := by
  obtain ⟨alo, ahi⟩ := word_toInt_bounds a
  have hb0 := toInt_ne_zero hb
  have habs : (a.toInt.tdiv b.toInt).natAbs ≤ a.toInt.natAbs := by
    rw [Int.natAbs_tdiv]
    exact Nat.div_le_self _ _
  by_cases hmin : a.toInt = -2 ^ 63
  case neg => omega
  case pos =>
    have hb1 : b.toInt ≠ -1 := fun e => h ⟨hmin, e⟩
    by_cases hone : b.toInt = 1
    · rw [hone, Int.tdiv_one, hmin]; omega
    · have hlt : (a.toInt.tdiv b.toInt).natAbs < a.toInt.natAbs := by
        rw [Int.natAbs_tdiv]
        exact Nat.div_lt_self (by omega) (by omega)
      omega

/-- Signed division (R191): by zero, at the overflow, and otherwise exact. -/
theorem divS_spec (a b : Word) : (b = 0 → divS a b = BitVec.allOnes 64) ∧
    (a.toInt = -2 ^ 63 → b.toInt = -1 → (divS a b).toInt = -2 ^ 63) ∧
    (b ≠ 0 → ¬(a.toInt = -2 ^ 63 ∧ b.toInt = -1) → (divS a b).toInt = a.toInt.tdiv b.toInt) := by
  refine ⟨fun h => if_pos h, fun ha hb => ?_, fun h0 h => ?_⟩
  · have h0 : b ≠ 0 := by
      rintro rfl
      simp at hb
    rw [divS, if_neg h0, ha, hb]
    decide
  · rw [divS, if_neg h0]
    exact toInt_ofInt_of_bounds (tdiv_bounds h0 h).1 (tdiv_bounds h0 h).2

/-- Unsigned division (R191). -/
theorem divN_spec (a b : Word) : (b = 0 → divN a b = BitVec.allOnes 64) ∧ (b ≠ 0 → (divN a b).toNat = a.toNat / b.toNat) := by
  refine ⟨fun h => if_pos h, fun h => ?_⟩
  rw [divN, if_neg h, BitVec.toNat_ofNat]
  exact Nat.mod_eq_of_lt (Nat.lt_of_le_of_lt (Nat.div_le_self _ _) a.isLt)

/-- Signed remainder (R191): of zero, at the overflow, and otherwise what the quotient leaves. -/
theorem remS_spec (a b : Word) : (b = 0 → remS a b = a) ∧ (a.toInt = -2 ^ 63 → b.toInt = -1 → remS a b = 0) ∧
    (b ≠ 0 → (remS a b).toInt = a.toInt - b.toInt * a.toInt.tdiv b.toInt) := by
  refine ⟨fun h => if_pos h, fun ha hb => ?_, fun h => ?_⟩
  · have h0 : b ≠ 0 := by
      rintro rfl
      simp at hb
    rw [remS, if_neg h0, ha, hb]
    decide
  · rw [remS, if_neg h, ← Int.tmod_def]
    obtain ⟨blo, bhi⟩ := word_toInt_bounds b
    have hb0 := toInt_ne_zero h
    have habs : (a.toInt.tmod b.toInt).natAbs < b.toInt.natAbs := by
      rw [Int.natAbs_tmod]
      exact Nat.mod_lt _ (by omega)
    exact toInt_ofInt_of_bounds (by omega) (by omega)

/-- Unsigned remainder (R191). -/
theorem remN_spec (a b : Word) : (b = 0 → remN a b = a) ∧ (b ≠ 0 → (remN a b).toNat = a.toNat % b.toNat) := by
  refine ⟨fun h => if_pos h, fun h => ?_⟩
  rw [remN, if_neg h, BitVec.toNat_ofNat]
  exact Nat.mod_eq_of_lt (Nat.lt_of_le_of_lt (Nat.mod_le _ _) a.isLt)

/-- Settles O2: each form is a function of two readable sources (`gop2_next`); division and remainder have the values of the table
(`divS_spec`, `divN_spec`, `remS_spec`, `remN_spec`). -/
theorem scalarArithmetic : Obligations.ScalarArithmetic := by
  unfold Obligations.ScalarArithmetic
  refine ⟨fun s d a b fa fb ha hb => ?values, fun s d a b fa fb ha hb => ?division⟩
  case values =>
    refine ⟨gop2_next ha hb, gop2_next ha hb, gop2_next ha hb, gop2_next ha hb, gop2_next ha hb, gop2_next ha hb, gop2_next ha hb,
      gop2_next ha hb, gop2_next ha hb, gop2_next ha hb, gop2_next ha hb, gop2_next ha hb, gop2_next ha hb, gop2_next ha hb,
      gop2_next ha hb, gop2_next ha hb, gop2_next ha hb, gop2_next ha hb, gop2_next ha hb, gop2_next ha hb,
      gop2_value ha hb (ofBool_decide _), gop2_value ha hb (ofBool_decide _), gop2_value ha hb ?seq, gop2_value ha hb (ofBool_bne _ _),
      gop2_next ha hb, gop2_next ha hb, gop2_next ha hb, gop2_next ha hb, gop2_next ha hb, execSel_next ha hb⟩
    case seq => simp [ofBool]
  case division =>
    exact ⟨⟨_, gop2_next ha hb, divS_spec _ _⟩, ⟨_, gop2_next ha hb, divN_spec _ _⟩, ⟨_, gop2_next ha hb, remS_spec _ _⟩,
      ⟨_, gop2_next ha hb, remN_spec _ _⟩⟩

end Sys2Proof.Machine

/-!
SUPPORT. The one-source, immediate and 16-bit scalar instructions (R160, R191, R193 to R195): what counting, reversing, extending and
field functions give bit by bit.
-/
namespace Sys2Proof.Machine

/-! ### Counting bits (R191) -/

/-- The leading zeros of the low w bits: those bits are zero, and the next below them, if any, is one. -/
theorem clzNat_spec (w x : Nat) : clzNat w x ≤ w ∧ (∀ i, w - clzNat w x ≤ i → i < w → x.testBit i = false) ∧
    (clzNat w x < w → x.testBit (w - 1 - clzNat w x) = true) := by
  have hlow : ∀ i, i < w → x.testBit i = (x % 2 ^ w).testBit i := fun i hi => by simp [Nat.testBit_mod_two_pow, hi]
  rw [clzNat]
  split
  case isTrue h0 => exact ⟨le_rfl, fun i _ hi => by rw [hlow i hi, h0, Nat.zero_testBit], fun h => absurd h (lt_irrefl w)⟩
  case isFalse h0 =>
    have hlog : (x % 2 ^ w).log2 < w := (Nat.log2_lt h0).mpr (Nat.mod_lt _ (Nat.two_pow_pos w))
    refine ⟨by omega, fun i hlo hi => ?_, fun _ => ?_⟩
    · rw [hlow i hi]
      refine Nat.testBit_lt_two_pow ((Nat.log2_lt h0).mp ?_)
      omega
    · have hi : w - 1 - (w - 1 - (x % 2 ^ w).log2) = (x % 2 ^ w).log2 := by omega
      rw [hi, hlow _ hlog]
      exact Nat.testBit_log2 h0

/-- The trailing zeros among the low w bits. -/
theorem ctzNat_spec : ∀ w x : Nat, ctzNat w x ≤ w ∧ (∀ i, i < ctzNat w x → x.testBit i = false) ∧
    (ctzNat w x < w → x.testBit (ctzNat w x) = true)
  | 0, _ => ⟨le_rfl, fun _ h => absurd h (Nat.not_lt_zero _), fun h => absurd h (lt_irrefl 0)⟩
  | w + 1, x => by
    obtain ⟨hle, hlow, hbit⟩ := ctzNat_spec w (x / 2)
    rw [ctzNat]
    split
    case isTrue h => exact ⟨Nat.zero_le _, fun _ h => absurd h (Nat.not_lt_zero _), fun _ => by simp [Nat.testBit_zero, h]⟩
    case isFalse h =>
      refine ⟨by omega, fun i hi => ?_, fun hlt => ?_⟩
      · cases i with
        | zero => simpa [Nat.testBit_zero] using h
        | succ i => rw [Nat.testBit_succ]; exact hlow i (by omega)
      · rw [Nat.testBit_succ]; exact hbit (by omega)

/-- The one bits among the low w bits. -/
theorem popNat_eq : ∀ w x : Nat, popNat w x = ((List.range w).filter fun i => x.testBit i).length
  | 0, _ => rfl
  | w + 1, x => by
    have hsucc : ((List.range w).map Nat.succ).filter (fun i => x.testBit i) =
        ((List.range w).filter fun i => (x / 2).testBit i).map Nat.succ := by
      rw [List.filter_map]
      exact congrArg (List.map Nat.succ) (List.filter_congr fun i _ => x.testBit_succ i)
    rw [popNat, popNat_eq w (x / 2), List.range_succ_eq_map, List.filter_cons, hsucc]
    by_cases h : x % 2 = 1
    · simp [Nat.testBit_zero, h]; omega
    · have h0 : x % 2 = 0 := by omega
      simp [Nat.testBit_zero, h0]

/-- The low w bits in reverse order fit in w bits. -/
theorem revNat_lt : ∀ w x : Nat, revNat w x < 2 ^ w
  | 0, _ => by simp [revNat]
  | w + 1, x => by
    have h := revNat_lt w (x / 2)
    rw [revNat, pow_succ]
    obtain h2 | h2 := Nat.mod_two_eq_zero_or_one x
    · rw [h2]; omega
    · rw [h2]; omega

/-- Bit i of the reverse is bit w − 1 − i. -/
theorem revNat_testBit : ∀ w x i : Nat, i < w → (revNat w x).testBit i = x.testBit (w - 1 - i)
  | w + 1, x, i, hi => by
    have hlt := revNat_lt w (x / 2)
    have hx : revNat (w + 1) x = 2 ^ w * (x % 2) + revNat w (x / 2) := by rw [revNat, mul_comm]
    rw [hx, Nat.testBit_two_pow_mul_add _ hlt]
    split
    case isTrue h =>
      rw [revNat_testBit w (x / 2) i h, show w + 1 - 1 - i = w - 1 - i + 1 by omega, Nat.testBit_succ]
    case isFalse h =>
      have e : i = w := by omega
      subst e
      simp [Nat.testBit_zero]

/-! ### Words bit by bit -/

/-- A bit of a word made of a number. -/
theorem getLsbD_ofNat_word {x i : Nat} (h : i < 64) : (BitVec.ofNat 64 x).getLsbD i = x.testBit i := by
  rw [BitVec.getLsbD_ofNat, decide_eq_true h, Bool.true_and]

/-- Byte i of a word whose bytes have been put in reverse order is byte 7 − i. -/
theorem bswap_byte (x : Word) {i : Nat} (h : i < 8) :
    (BitVec.ofNat 64 (leNat (toLe 8 x.toNat).reverse)).extractLsb' (8 * i) 8 = x.extractLsb' (8 * (7 - i)) 8 := by
  have hlen : (toLe 8 x.toNat).length = 8 := toLe_length 8 _
  have hrev : i < (toLe 8 x.toNat).reverse.length := by rw [List.length_reverse, hlen]; exact h
  have hlt : leNat (toLe 8 x.toNat).reverse < 2 ^ 64 := by
    have := leNat_lt (toLe 8 x.toNat).reverse
    rw [List.length_reverse, hlen] at this
    exact this
  apply BitVec.eq_of_toNat_eq
  have key := leNat_get (toLe 8 x.toNat).reverse i hrev
  rw [List.getElem_reverse, toLe_get, hlen] at key
  simp only [BitVec.extractLsb'_toNat, BitVec.toNat_ofNat, Nat.mod_eq_of_lt hlt, Nat.shiftRight_eq_div_pow]
  rw [show (2 : Nat) ^ (8 * i) = 256 ^ i by rw [pow_mul]; rfl, show (2 : Nat) ^ 8 = 256 from rfl, key, BitVec.toNat_ofNat,
    show 8 - 1 - i = 7 - i by omega, show (2 : Nat) ^ (8 * (7 - i)) = 256 ^ (7 - i) by rw [pow_mul]; rfl]

/-! ### Bit fields (R194, R195) -/

/-- A field bit by bit. -/
theorem fieldOf_testBit (a : Word) (len pos : BitVec 6) (i : Nat) :
    (fieldOf a len pos).testBit i = (decide (i ≤ len.toNat) && a.getLsbD (pos.toNat + i)) := by
  rw [fieldOf, Nat.testBit_mod_two_pow, Nat.testBit_div_two_pow, Nat.add_comm i]
  simp only [Nat.lt_succ_iff]
  rfl

/-- A field extended with its sign, bit by bit: beyond its last bit that bit is repeated. -/
theorem bfxs_getLsbD (a : Word) (len pos : BitVec 6) {i : Nat} (hi : i < 64) :
    (BitVec.ofInt 64 (sxInt (len.toNat + 1) (fieldOf a len pos))).getLsbD i = a.getLsbD (pos.toNat + min i len.toNat) := by
  rw [sxInt_eq _ _ (Nat.succ_pos _)]
  show ((BitVec.ofNat (len.toNat + 1) (fieldOf a len pos)).signExtend 64).getLsbD i = _
  have hbit : ∀ j, j ≤ len.toNat → (BitVec.ofNat (len.toNat + 1) (fieldOf a len pos)).getLsbD j = a.getLsbD (pos.toNat + j) := fun j hj => by
    rw [BitVec.getLsbD_ofNat, fieldOf_testBit, decide_eq_true hj, decide_eq_true (Nat.lt_succ_of_le hj), Bool.true_and, Bool.true_and]
  rw [BitVec.getLsbD_signExtend, decide_eq_true hi, Bool.true_and, BitVec.msb_eq_getLsbD_last, Nat.add_sub_cancel]
  split
  case isTrue h => rw [hbit i (Nat.le_of_lt_succ h), Nat.min_eq_left (Nat.le_of_lt_succ h)]
  case isFalse h => rw [hbit _ le_rfl, Nat.min_eq_right (by omega)]

/-- The low bits of a word put into a field of another. -/
theorem bfi_getLsbD (x y : Word) (len pos : BitVec 6) (h : pos.toNat + len.toNat + 1 ≤ 64) (i : Nat) :
    (setBits y pos.toNat (len.toNat + 1) x.toNat).getLsbD i =
      if pos.toNat ≤ i ∧ i ≤ pos.toNat + len.toNat then x.getLsbD (i - pos.toNat) else y.getLsbD i := by
  rw [testBit_setBits _ _ _ _ _ (by omega)]
  refine if_congr ?_ rfl rfl
  omega

/-- `limk` with a readable destination (R195). -/
theorem execLimk_next {s : State} {d : GNum} {h : Fin 4} {imm : BitVec 16} (hd : s.gOk d = true) :
    execLimk d h imm s = .next ((s.reads [d]).putG 4 d (setBits (s.gVal d) (16 * h.val) 16 imm.toNat)) := by
  rw [execLimk, s.srcG_ok _ _ _ hd]

/-- Two 16-bit operands of which the second is g0. -/
theorem cMov_next {s : State} {d a : GNum} (ha : s.gOk a = true) : execCMov d a s = .next ((s.reads [a]).putG 2 d (s.gVal a)) := by
  rw [execCMov, gop2_next ha s.gOk_zero, State.reads_zero_right, State.gVal_zero, add_zero]

/-- `c.li` reads g0 alone. -/
theorem cLi_next {s : State} {d : GNum} {imm : BitVec 6} : execCLi d imm s = .next ((s.reads []).putG 2 d (imm.signExtend 64)) := by
  have hr : s.reads [0] = s.reads [] := by simp [State.reads, State.gTags]
  rw [execCLi, gop1_next s.gOk_zero, hr, State.gVal_zero, zero_add]

/-! ### The obligation -/

/-- Settles O3: each form is a function of its readable sources (`gop1_next`, `gop2_next`, `gopD_next`); what the functions give bit
by bit is said by the lemmas above. -/
theorem scalarImmediates : Obligations.ScalarImmediates := by
  unfold Obligations.ScalarImmediates
  refine ⟨fun s d a fa ha => ?oneSource, fun s d a fa imm n len pos h imm16 => ⟨fun ha => ?immediate, fun ha hp => ?fields, rfl,
    fun hd => ?limk⟩, fun s d a imm => ⟨cMov_next, cLi_next, fun hd => ?shortImm, fun ha hd => ?short⟩⟩
  case oneSource =>
    refine ⟨?clz, ?ctz, ?popc, ?brev, ?bswap, ?sx8, ?sx16, ?sx32, ?zx8, ?zx16, ?zx32⟩
    case clz =>
      obtain ⟨hle, hlow, hbit⟩ := clzNat_spec 64 (s.gVal a).toNat
      exact ⟨_, hle, gop1_next ha, fun i hi => hlow _ (by omega) (by omega), hbit⟩
    case ctz =>
      obtain ⟨hle, hlow, hbit⟩ := ctzNat_spec 64 (s.gVal a).toNat
      exact ⟨_, hle, gop1_next ha, hlow, hbit⟩
    case popc => exact gop1_value ha (congrArg (BitVec.ofNat 64) (popNat_eq 64 _))
    case brev => exact ⟨_, gop1_next ha, fun i hi => (getLsbD_ofNat_word hi).trans (revNat_testBit 64 _ i hi)⟩
    case bswap => exact ⟨_, gop1_next ha, fun i hi => bswap_byte _ hi⟩
    all_goals exact gop1_value ha (by rw [← BitVec.setWidth_eq_extractLsb' (by decide)])
  case immediate =>
    exact ⟨gop1_next ha, gop1_next ha, gop1_next ha, gop1_next ha, gop1_next ha, gop1_next ha, gop1_next ha, gop1_next ha, gop1_next ha,
      gop1_value ha (ofBool_decide _), gop1_value ha (ofBool_decide _)⟩
  case fields =>
    exact ⟨⟨_, gop1_next ha, fun i hi => (getLsbD_ofNat_word hi).trans (fieldOf_testBit _ _ _ _)⟩,
      ⟨_, gop1_next ha, fun i hi => bfxs_getLsbD _ _ _ hi⟩, fun hd => ⟨_, gopD_next ha hd, fun i _ => bfi_getLsbD _ _ _ _ hp i⟩⟩
  case limk => exact ⟨_, execLimk_next hd, fun i _ => testBit_setBits _ _ _ _ _ (by omega)⟩
  case shortImm => exact ⟨gop1_next hd, gop1_next hd, gop1_next hd, gop1_next hd⟩
  case short =>
    exact ⟨gop2_next hd ha, gop2_next hd ha, gop2_next hd ha, gop2_next hd ha, gop2_next hd ha, gop2_next hd ha, gop2_next hd ha,
      gop2_next hd ha⟩

end Sys2Proof.Machine

/-!
SUPPORT. Results, ends and traps of the scalar instructions (R15, R161, R165, R185, R310), addresses and identity (R196, R197), and what
these instructions leave unchanged (R190).
-/
namespace Sys2Proof.Machine

/-! ### The end of an instruction -/

/-- At the boundary a context keeps its registers, PC and REPIDX. -/
theorem Ctx.boundary_kept (x : Ctx) : x.boundary.pc = x.pc ∧ x.boundary.repidx = x.repidx ∧ x.boundary.g = x.g ∧ x.boundary.v = x.v ∧
    x.boundary.k = x.k ∧ x.boundary.e = x.e ∧ x.boundary.t = x.t := by
  unfold Ctx.boundary
  dsimp only
  split
  · exact ⟨rfl, rfl, rfl, rfl, rfl, rfl, rfl⟩
  · exact ⟨rfl, rfl, rfl, rfl, rfl, rfl, rfl⟩

/-- At the boundary a pending stop takes effect (R15). -/
theorem Ctx.boundary_st (x : Ctx) : x.boundary.st = if x.stopReq.isSome then .stopped else .ready := by
  unfold Ctx.boundary Ctx.clearWait
  dsimp only
  split
  next h => rw [h]; rfl
  next c h => rw [h]; rfl

/-- What an instruction that goes to a PC leaves of its context. -/
theorem State.jumpTo_spec (s : State) (pc : BitVec 48) : (s.jumpTo pc).ctx.pc = pc ∧ (s.jumpTo pc).ctx.repidx = 0 ∧
    (s.jumpTo pc).ctx.g = s.ctx.g ∧ (s.jumpTo pc).ctx.st = (if s.ctx.stopReq.isSome then CtxSt.stopped else CtxSt.ready) := by
  rw [State.jumpTo_ctx]
  obtain ⟨hpc, hrep, hg, -⟩ := Ctx.boundary_kept { s.ctx with pc := pc, repidx := 0 }
  exact ⟨hpc, hrep, hg, Ctx.boundary_st _⟩

/-- The last repetition passes `rep` and its target (R165). -/
theorem State.finish_last {s : State} {len : Nat} {r : RepRun} (h : s.rep = some r) (hj : r.cnt ≤ r.j) :
    s.finish len = s.jumpTo (s.ctx.pc + BitVec.ofNat 48 (r.len + 2)) := by
  simp only [State.finish, h, if_pos hj]

/-- Before the last repetition REPIDX counts (R165). -/
theorem State.finish_repeats {s : State} {len : Nat} {r : RepRun} (h : s.rep = some r) (hj : r.j < r.cnt) :
    (s.finish len).ctx = { s.ctx with repidx := BitVec.ofNat 6 (r.j + 1) }.boundary := by
  simp only [State.finish, h, if_neg (not_le.mpr hj)]
  exact State.ctx_upd s fun x => { x with repidx := BitVec.ofNat 6 (r.j + 1) }.boundary

/-! ### A register result -/

/-- A write to g0 is discarded (R185). -/
theorem State.setG_zero (s : State) (v : Word) : s.setG 0 v = s := if_pos rfl

/-- What a write to g[d] does to the context (R161, R185). -/
theorem State.setG_ctx_eq (s : State) (d : GNum) (v : Word) :
    (s.setG d v).ctx = { s.ctx with g := if d = 0 then s.ctx.g else s.ctx.g.set d ⟨v, true, false, s.taint, false⟩ } := by
  by_cases h : d = 0
  · subst h
    rw [State.setG_zero, if_pos rfl]
  · rw [State.setG_ctx s d v h, if_neg h]

/-- The write of a register does not touch the repetition. -/
@[simp] theorem State.setG_rep (s : State) (d : GNum) (v : Word) : (s.setG d v).rep = s.rep := by
  unfold State.setG
  split
  · rfl
  · rfl

/-- A result outside a repetition: the register, then the next instruction. -/
theorem State.putG_ctx {s : State} (h : s.rep = none) (len : Nat) (d : GNum) (v : Word) : (s.putG len d v).ctx =
    { s.ctx with g := if d = 0 then s.ctx.g else s.ctx.g.set d ⟨v, true, false, s.taint, false⟩,
                 pc := s.ctx.pc + BitVec.ofNat 48 len, repidx := 0 }.boundary := by
  rw [State.putG, State.finish_plain _ _ ((s.setG_rep d v).trans h), State.jumpTo_ctx, State.setG_ctx_eq]

/-- Settles O1: a result is a write of its register and the end of an instruction (`putG_ctx`); an end outside a repetition, one of the last
repetition and one of an earlier repetition are `finish_plain`, `finish_last` and `finish_repeats`. -/
theorem registerWrite : Obligations.RegisterWrite := by
  unfold Obligations.RegisterWrite
  refine ⟨fun s len d v hrep => ?result, fun s len pc => ⟨s.jumpTo_spec pc, s.finish_plain len, fun r hr hj => State.finish_last hr hj,
    fun r hr hj => ?repeats⟩⟩
  case result =>
    intro t
    obtain ⟨hpc, -, hg, hv, hk, he, ht⟩ := Ctx.boundary_kept
      { s.ctx with g := if d = 0 then s.ctx.g else s.ctx.g.set d ⟨v, true, false, s.taint, false⟩,
                   pc := s.ctx.pc + BitVec.ofNat 48 len, repidx := 0 }
    have hst := Ctx.boundary_st
      { s.ctx with g := if d = 0 then s.ctx.g else s.ctx.g.set d ⟨v, true, false, s.taint, false⟩,
                   pc := s.ctx.pc + BitVec.ofNat 48 len, repidx := 0 }
    rw [← State.putG_ctx hrep] at hpc hg hv hk he ht hst
    refine ⟨hpc, fun hd => ?_, fun r hr => ?_, ⟨hv, hk, he, ht, ?_⟩, fun h => ?_, fun h => ?_⟩
    · rw [hg, if_neg hd]
      simp
    · rw [hg]
      split
      · rfl
      next hd =>
        have hne : (d : Nat) ≠ r := fun e => (hr.resolve_right hd) (Fin.ext e.symm)
        simp only [Fin.getElem_fin]
        exact Vector.getElem_set_ne _ _ hne
    · exact (State.finish_mem _ _).trans (s.setG_mem d v)
    · rw [hst, h]; rfl
    · rw [hst, if_pos (Option.isSome_iff_ne_none.mpr h)]
  case repeats =>
    rw [State.finish_repeats hr hj]
    obtain ⟨hpc, hrepidx, -⟩ := Ctx.boundary_kept { s.ctx with repidx := BitVec.ofNat 6 (r.j + 1) }
    exact ⟨hpc, hrepidx⟩

/-! ### Addresses (R196) -/

/-- Coordinates 0 are those of chip 0, cluster (0, 0). -/
theorem coords_eq_zero {c : ClusterId} (h : coords c = 0) : c.chip.val = 0 ∧ c.x.val = 0 ∧ c.y.val = 0 := by
  unfold coords at h
  omega

/-- The two forms of an address of another cluster (R65, R196), with the deltas of the relative form written out. -/
theorem absOrRel_eq (me c : ClusterId) (o : Nat) : absOrRel me c o =
    if coords c = 0 ∧ coords me ≠ 0 then
      BitVec.ofNat 64 ((2 ^ 15 + (128 - me.chip.val) % 128 * 256 + (16 - me.x.val) % 16 * 16 + (16 - me.y.val) % 16) * 2 ^ 48 + o % 2 ^ 48)
    else BitVec.ofNat 64 (coords c * 2 ^ 48 + o % 2 ^ 48) := by
  rw [absOrRel]
  simp only [Bool.and_eq_true, decide_eq_true_eq]
  split
  next h =>
    obtain ⟨hchip, hx, hy⟩ := coords_eq_zero h.1
    simp only [relAddr, hchip, hx, hy, Nat.zero_add]
  · rfl

/-- `lea.a` with readable sources. -/
theorem execLeaA_next {s : State} {d a b : GNum} {fa fb : Bool} (ha : s.gOk a = true) (hb : s.gOk b = true) : execLeaA d a b fa fb s =
    .next ((s.reads [a, b]).putG 4 d (absOrRel s.me (ofCoords ((s.gVal a).toNat % 2 ^ 15)) (offOf (s.gVal b)))) := by
  rw [execLeaA, s.srcG_ok _ _ _ ha, (s.reads [a]).srcG_ok _ _ _ hb, State.reads_reads]
  rfl

/-- `lea.s` with readable sources. -/
theorem execLeaS_next {s : State} {d a b : GNum} {fa fb : Bool} (ha : s.gOk a = true) (hb : s.gOk b = true) : execLeaS d a b fa fb s =
    .next ((s.reads [a, b]).putG 4 d (absOrRel s.me (resolve s.me (s.gVal a)) (offOf (s.gVal a) + (s.gVal b).toNat))) := by
  rw [execLeaS, s.srcG_ok _ _ _ ha, (s.reads [a]).srcG_ok _ _ _ hb, State.reads_reads]
  rfl

/-- Settles O4: the forms of an address are `absOrRel_eq`; that it names its cluster and offset are `absOrRel_owner` and
`absOrRel_off`. -/
theorem addressForms : Obligations.AddressForms := by
  unfold Obligations.AddressForms
  refine ⟨fun s d a b fa fb ha hb => ?_, fun s d => rfl⟩
  have hoff : offOf (s.gVal b) % 2 ^ 48 = (s.gVal b).toNat % 2 ^ 48 := Nat.mod_mod _ _
  have hsum : (offOf (s.gVal a) + (s.gVal b).toNat) % 2 ^ 48 = ((s.gVal a).toNat + (s.gVal b).toNat) % 2 ^ 48 := Nat.mod_add_mod _ _ _
  have hL := absOrRel_eq s.me (ofCoords ((s.gVal a).toNat % 2 ^ 15)) (offOf (s.gVal b))
  have hS := absOrRel_eq s.me (resolve s.me (s.gVal a)) (offOf (s.gVal a) + (s.gVal b).toNat)
  rw [hoff] at hL
  rw [hsum] at hS
  dsimp only
  rw [← hL, ← hS]
  exact ⟨execLeaA_next ha hb, gop2_next ha hb, execLeaS_next ha hb, (absOrRel_off _ _ _).trans hoff, absOrRel_owner _ _ _,
    (absOrRel_off _ _ _).trans hsum, absOrRel_owner _ _ _⟩

/-! ### Sources that cannot be read (R161, R79, R376) -/

section
variable {s : State} {a : GNum} {fa : Bool} {k : Word → State → State} (h0 : a ≠ 0)
include h0

/-- A damaged source is a machine check. -/
theorem State.srcG_bad (hb : s.ctx.g[a].bad = true) : s.srcG fa a k = s.trap 0x1F := by
  rw [State.srcG, if_neg h0]
  exact if_pos hb

variable (hb : s.ctx.g[a].bad = false)
include hb

/-- An empty source blocks, or traps under disposition 1. -/
theorem State.srcG_empty (hf : s.ctx.g[a].full = false) : s.srcG fa a k = if fa then s.trap 0x04 else s.block (.greg a) := by
  rw [State.srcG, if_neg h0]
  dsimp only
  rw [hb, hf]
  rfl

/-- A poisoned source traps, with the cause of its status. -/
theorem State.srcG_poisoned (hf : s.ctx.g[a].full = true) (hp : s.ctx.g[a].poison = true) : s.srcG fa a k =
    s.trapAux (if s.ctx.g[a].val.setWidth 4 = 3 then 0x05 else 0x0B) (s.ctx.g[a].val.setWidth 4) (BitVec.ofNat 64 a.val) 0 := by
  rw [State.srcG, if_neg h0, BitVec.setWidth_eq_extractLsb' (by decide)]
  dsimp only
  rw [hb, hf, hp]
  rfl

end

/-- Settles O5: `add` reads its first source first, and `srcG` ends as `srcG_bad`, `srcG_empty` and `srcG_poisoned` say. -/
theorem sourceTrouble : Obligations.SourceTrouble := by
  unfold Obligations.SourceTrouble
  intro s d a b fa fb h0
  have hadd : ∀ fa, exec (.add d a b fa fb) s = .next (s.srcG fa a fun x s => s.srcG fb b fun y s => s.putG 4 d (x + y)) := fun _ => rfl
  refine ⟨fun hb => ?damaged, fun hb hf => ?traps, fun hb hf => ?blocks, fun hb hf hp h3 => ?status3, fun hb hf hp h3 => ?status⟩
  case damaged => rw [hadd, State.srcG_bad h0 hb]
  case traps => rw [hadd, State.srcG_empty h0 hb hf]; rfl
  case blocks => rw [hadd, State.srcG_empty h0 hb hf]; rfl
  case status3 => rw [hadd, State.srcG_poisoned h0 hb hf hp, if_pos h3, h3]
  case status => rw [hadd, State.srcG_poisoned h0 hb hf hp, if_neg h3]

/-! ### Traps (R310, R375, R377, R380) -/

/-- Settles O7: a trap writes its record to the queue (`trapAux_queued`), or, when it is fatal, puts its decision first
(`trapAux_fatal`); of its context only the state changes (`trapAux_ctx`). -/
theorem traps : Obligations.Traps := by
  unfold Obligations.Traps
  refine ⟨fun s imm hn => ?queued, fun s cause st aux aux2 h => ?fatal⟩
  case queued =>
    have took : ∀ cause, fatalCause cause = false → directCause cause = true →
        let t := s.trapAux cause 0 (imm.zeroExtend 64) 0
        t.core.tq = s.core.tq ++ [⟨⟨cause, s.leaderNum s.cur, false, s.ctx.repidx, 0, s.ctx.pc, imm.zeroExtend 64, 0⟩, .none⟩] ∧
          t.ctx.st = .faulted ∧ t.ctx.pc = s.ctx.pc ∧ t.ctx.g = s.ctx.g ∧ t.ctx.wait = none ∧ t.mem = s.mem ∧ t.turns = s.turns := by
      intro cause hf hd
      obtain ⟨htq, hturns⟩ := s.trapAux_queued cause 0 (imm.zeroExtend 64) 0 (by simp [hf, hn])
      rw [hd] at htq
      dsimp only
      rw [State.trapAux_ctx]
      exact ⟨htq, rfl, rfl, rfl, rfl, State.trapAux_mem _ _ _ _ _, hturns⟩
    exact ⟨⟨_, rfl, took _ rfl rfl⟩, ⟨_, rfl, took _ rfl rfl⟩⟩
  case fatal =>
    have hf : (fatalCause cause || decide (numOf s.cur = 0)) = true := by
      simp only [fatalCause, Bool.or_eq_true, decide_eq_true_eq]
      tauto
    refine ⟨?_, s.trapAux_fatal cause st aux aux2 hf⟩
    rw [State.trapAux_ctx]

/-! ### What scalar and control instructions leave unchanged (R190) -/

/-- An instruction whose next state keeps a frame: what its outcome is does not matter. -/
theorem RegsOnly.of_next {s u t : State} {gs : List GNum} {vs : List VNum} {ks : List KNum} {n : Nat} (h : RegsOnly s u gs vs ks n)
    (e : (.next u : Out) = .next t) : RegsOnly s t gs vs ks n := Host.Outcome.next.inj e ▸ h

section
variable {s t : State} {d a b : GNum} {len : Nat} {fa fb : Bool}

/-- Two sources and a result. -/
theorem gop2_frame {f : Word → Word → Word} : gop2 len f d a b fa fb s = .next t → RegsOnly s t [d] [] [] :=
  RegsOnly.of_next ((RegsOnly.refl s _ _ _).srcG fa a fun _ _ h => h.srcG fb b fun _ _ h => h.putG len d _ (List.mem_singleton_self d))

/-- One source and a result. -/
theorem gop1_frame {f : Word → Word} : gop1 len f d a fa s = .next t → RegsOnly s t [d] [] [] :=
  RegsOnly.of_next ((RegsOnly.refl s _ _ _).srcG fa a fun _ _ h => h.putG len d _ (List.mem_singleton_self d))

/-- One source, then d, and a result. -/
theorem gopD_frame {f : Word → Word → Word} : gopD f d a fa s = .next t → RegsOnly s t [d] [] [] :=
  RegsOnly.of_next ((RegsOnly.refl s _ _ _).srcG fa a fun _ _ h => h.srcG false d fun _ _ h => h.putG 4 d _ (List.mem_singleton_self d))

/-- A result that reads no register. -/
theorem putG_frame {v : Word} : (.next (s.putG len d v) : Out) = .next t → RegsOnly s t [d] [] [] :=
  RegsOnly.of_next ((RegsOnly.refl s _ _ _).putG len d v (List.mem_singleton_self d))

theorem execSel_frame : execSel d a b fa fb s = .next t → RegsOnly s t [d] [] [] :=
  RegsOnly.of_next ((RegsOnly.refl s _ _ _).srcG fa a fun _ _ h => h.srcG fb b fun _ _ h => h.srcG false d fun _ _ h =>
    h.putG 4 d _ (List.mem_singleton_self d))

theorem execLeaA_frame : execLeaA d a b fa fb s = .next t → RegsOnly s t [d] [] [] :=
  RegsOnly.of_next ((RegsOnly.refl s _ _ _).srcG fa a fun _ _ h => h.srcG fb b fun _ _ h => h.putG 4 d _ (List.mem_singleton_self d))

theorem execLeaS_frame : execLeaS d a b fa fb s = .next t → RegsOnly s t [d] [] [] :=
  RegsOnly.of_next ((RegsOnly.refl s _ _ _).srcG fa a fun _ _ h => h.srcG fb b fun _ _ h => h.putG 4 d _ (List.mem_singleton_self d))

theorem execLimk_frame {h : Fin 4} {imm : BitVec 16} : execLimk d h imm s = .next t → RegsOnly s t [d] [] [] :=
  RegsOnly.of_next ((RegsOnly.refl s _ _ _).srcG false d fun _ _ h => h.putG 4 d _ (List.mem_singleton_self d))

/-- A branch. -/
theorem branch_frame {n : Nat} {cond : Word → Word → Bool} {disp : BitVec n} : branch len cond a b disp s = .next t → RegsOnly s t [] [] [] :=
  RegsOnly.of_next ((RegsOnly.refl s _ _ _).srcG false a fun _ _ h => h.srcG false b fun _ _ h => h.checkedValue (by
    split
    · exact h.jumpTo _
    · exact h.finish _))

/-- A jump. -/
theorem jumpTo_frame {pc : BitVec 48} : (.next (s.jumpTo pc) : Out) = .next t → RegsOnly s t [] [] [] :=
  RegsOnly.of_next ((RegsOnly.refl s _ _ _).jumpTo pc)

/-- A trap. -/
theorem trapAux_frame {cause : BitVec 8} {st : BitVec 4} {x y : Word} : (.next (s.trapAux cause st x y) : Out) = .next t →
    RegsOnly s t [] [] [] := RegsOnly.of_next ((RegsOnly.refl s _ _ _).trapAux cause st x y)

/-- The checks of a register jump trap or go on. -/
theorem RegsOnly.jumpChecks {s0 s : State} {gs : List GNum} {pc : BitVec 48} {x : Word} {u : State} (h : RegsOnly s0 s gs [] [])
    (hu : RegsOnly s0 u gs [] []) : RegsOnly s0 (if bits x 0 1 = 1 then s.trapEa 0x07 x
      else if !ownForm s.me x then s.trapEa 0x08 x else u.jumpTo pc) gs [] [] := by
  split
  · exact h.trapEa _ _
  · split
    · exact h.trapEa _ _
    · exact hu.jumpTo _

/-- A register jump with no link. -/
theorem jumpReg_frame : jumpReg len none a fa s = .next t → RegsOnly s t [] [] [] :=
  RegsOnly.of_next ((RegsOnly.refl s _ _ _).srcG fa a fun _ _ h => h.checkedValue (h.jumpChecks h))

/-- A register jump with a link. -/
theorem jumpReg_link_frame : jumpReg len (some d) a fa s = .next t → RegsOnly s t [d] [] [] :=
  RegsOnly.of_next ((RegsOnly.refl s _ _ _).srcG fa a fun _ _ h => h.checkedValue (h.jumpChecks (h.setG d _ (List.mem_singleton_self d))))

theorem execCall_frame {disp : BitVec 24} : execCall disp s = .next t → RegsOnly s t [31] [] [] :=
  RegsOnly.of_next (((RegsOnly.refl s _ _ _).setG 31 _ (List.mem_singleton_self _)).jumpTo _)

end

/-- Settles O8: each instruction has one of the shapes above, and every shape keeps the frame. -/
theorem scalarFrame : Obligations.ScalarFrame := by
  unfold Obligations.ScalarFrame
  refine ⟨fun s t d a b fa fb imm n n' h imm16 => ?scalar, fun s t d a b fa disp n near far => ?control⟩
  case scalar =>
    exact ⟨gop2_frame, gop2_frame, gop2_frame, gop2_frame, gop2_frame, gop2_frame, gop2_frame, gop2_frame, gop2_frame, gop2_frame,
      gop2_frame, gop2_frame, gop2_frame, gop2_frame, gop2_frame, gop2_frame, gop2_frame, gop2_frame, gop2_frame, gop2_frame,
      gop2_frame, gop2_frame, gop2_frame, gop2_frame, gop2_frame, gop2_frame, gop2_frame, gop2_frame, gop2_frame, gop2_frame,
      gop2_frame, gop2_frame, execSel_frame, execLeaA_frame, gop2_frame, execLeaS_frame,
      gop1_frame, gop1_frame, gop1_frame, gop1_frame, gop1_frame, gop1_frame, gop1_frame, gop1_frame, gop1_frame, gop1_frame, gop1_frame,
      gop1_frame, gop1_frame, gop1_frame, gop1_frame, gop1_frame, gop1_frame,
      gop1_frame, gop1_frame, gop1_frame, gop1_frame, gop1_frame, gop1_frame, gop1_frame, gopD_frame,
      putG_frame, execLimk_frame, putG_frame,
      gop2_frame, gop2_frame, gop2_frame, gop2_frame, gop2_frame, gop2_frame, gop2_frame, gop2_frame, gop2_frame,
      gop1_frame, gop1_frame, gop1_frame, gop1_frame, gop1_frame⟩
  case control =>
    exact ⟨branch_frame, branch_frame, branch_frame, branch_frame, branch_frame, branch_frame, branch_frame, branch_frame, jumpTo_frame,
      jumpTo_frame, RegsOnly.of_next ((RegsOnly.refl s _ _ _).finish 2), jumpReg_frame (len := 4), jumpReg_frame (len := 2), trapAux_frame, trapAux_frame,
      execCall_frame, jumpReg_link_frame, jumpReg_link_frame⟩

end Sys2Proof.Machine

/-!
SUPPORT. Scalar loads and stores of own memory (R203, R205): one element whose checks pass, and the traps of a store's checks.
-/
namespace Sys2Proof.Machine

/-! ### What the checks of an access leave -/

/-- A check leaves what `looked` says. -/
theorem State.access_eq_looked {s t : State} {agent o n : Nat} {sup : Bool} {p : Perm} {r : AccRes} (h : s.access agent sup p o n = (r, t)) :
    ∃ x k, t = s.looked x k := by
  obtain ⟨x, k, e⟩ := s.access_looked agent sup p o n
  exact ⟨x, k, by rw [← e, h]⟩

/-- The registers that an instruction has read play no part in its checks. -/
theorem State.access_reads_eq {s t : State} {agent o n : Nat} {sup : Bool} {p : Perm} {r : AccRes} (h : s.access agent sup p o n = (r, t))
    (l : List GNum) : (s.reads l).access agent sup p o n = (r, t.reads l) := by
  obtain ⟨x, k, rfl⟩ := State.access_eq_looked h
  rw [State.access_reads, h]
  rfl

/-- A span of an instruction that has read registers. -/
theorem State.reads_bytes (s : State) (l : List GNum) (key n : Nat) : (s.reads l).bytes key n = s.bytes key n :=
  State.bytes_congr _ _ n key fun _ _ => rfl

/-- The bytes of a span, counted. -/
theorem State.bytes_length (s : State) : ∀ key n : Nat, (s.bytes key n).length = n
  | _, 0 => rfl
  | key, n + 1 => congrArg (· + 1) (s.bytes_length (key + 1) n)

/-- A number of n bytes lies below 2^(8n). -/
theorem State.num_lt (s : State) (key n : Nat) : s.num key n < 2 ^ (8 * n) := by
  have h := leNat_lt (s.bytes key n)
  rw [s.bytes_length, show (256 : Nat) = 2 ^ 8 from rfl, ← pow_mul] at h
  exact h

/-! ### One element of a load -/

/-- A load with no mask leaves no byte out. -/
theorem allSkipped_zero {n : Nat} (h : 0 < n) : allSkipped n 0 = false := by
  have := Nat.one_lt_two_pow (Nat.ne_of_gt h)
  rw [allSkipped, Nat.zero_mod, decide_eq_false_iff_not]
  omega

/-- With no request sent no element has a reply. -/
theorem Ctx.replyOf_of_sent_nil {x : Ctx} (h : x.sent = []) (i : Nat) : x.replyOf i = none := by
  rw [Ctx.replyOf, h]
  rfl

section
variable {s t : State} {ea : Word} {n key : Nat}

/-- The checks of one element of own memory that pass. -/
theorem State.checkLoads_own {k : List ElemAt → State → State} (hn : 0 < n) (hal : ea.toNat % n = 0) (hown : resolve s.me ea = s.me)
    (ha : s.access s.agent s.sup .rd (offOf ea) n = (.ok key, t)) : s.checkLoads [] [(ea, n, 0)] k = k [.mem (offOf ea) key n] t := by
  simp [State.checkLoads, hal, hown, ha, allSkipped_zero hn]

/-- One element of own memory is read and placed (R97). -/
theorem State.readElems_own {s0 : State} {o : Nat} {k : List (List Byte) → State → State}
    (hT : s.readTime (granule o) s.ctx.clk < clockLimit) : s0.readElems s 0 [] [.mem o key n] k =
      k [s.bytes key n] ((s.stampRead (granule o) (s.readTime (granule o) s.ctx.clk)).setClk (s.readTime (granule o) s.ctx.clk)) := by
  simp only [State.readElems, if_neg (not_le.mpr hT), List.reverse_singleton]
  congr 2
  exact State.bytes_congr _ _ n key fun _ _ => rfl

/-- A load of one element of own memory whose checks pass (R203). -/
theorem State.loadElems_own {k : List (List Byte) → State → State} {kf : BitVec 4 → State → State} (hn : 0 < n) (hal : ea.toNat % n = 0)
    (hown : resolve s.me ea = s.me) (ha : s.access s.agent s.sup .rd (offOf ea) n = (.ok key, t)) (hsent : s.ctx.sent = [])
    (hT : s.readTime (granule (offOf ea)) s.ctx.clk < clockLimit) : s.loadElems [(ea, n, 0)] k kf =
      k [s.bytes key n] ((t.stampRead (granule (offOf ea)) (s.readTime (granule (offOf ea)) s.ctx.clk)).setClk
        (s.readTime (granule (offOf ea)) s.ctx.clk)) := by
  obtain ⟨x, d, rfl⟩ := State.access_eq_looked ha
  rw [State.loadElems, State.checkLoads_own hn hal hown ha]
  have hreq : (s.looked x d).requestMissing 0 [.mem (offOf ea) key n] = s.looked x d := rfl
  have hwait : ((s.looked x d).ctx.sent.any fun p => ((s.looked x d).ctx.replyOf p.2).isNone) = false := by
    rw [State.looked_ctx, hsent]
    rfl
  have hstatus : (s.looked x d).firstStatus 0 [.mem (offOf ea) key n] = none := by
    simp [State.firstStatus, Ctx.replyOf_of_sent_nil hsent]
  simp only [hreq, hwait, Bool.false_eq_true, if_false, hstatus]
  rw [State.readElems_own (s := s.looked x d) hT, State.bytes_congr s (s.looked x d) n key fun _ _ => rfl]
  rfl

end

/-! ### The value of a load -/

/-- A number extended with its sign is the word extended. -/
theorem ofInt_sxInt {w x : Nat} (hw : 0 < w) : BitVec.ofInt 64 (sxInt w x) = (BitVec.ofNat w x).signExtend 64 := by
  rw [sxInt_eq w x hw]
  rfl

/-- A signed load's value. -/
theorem State.extendLoad_signed (s : State) (key : Nat) {n : Nat} (hn : 0 < n) :
    extendLoad true (s.bytes key n) = (BitVec.ofNat (8 * n) (s.num key n)).signExtend 64 := by
  rw [extendLoad, if_pos rfl, s.bytes_length, ofInt_sxInt (by omega)]
  rfl

/-- A load of own memory that the checks allow. -/
theorem load_own {s t : State} {d base : GNum} {fa signed : Bool} {off : BitVec 10} {len n key : Nat} (hbase : s.gOk base = true)
    (hsent : s.ctx.sent = []) (hn : 0 < n) (hal : (s.eaM (s.gVal base) off n).toNat % n = 0)
    (hown : resolve s.me (s.eaM (s.gVal base) off n) = s.me)
    (hT : s.readTime (granule (offOf (s.eaM (s.gVal base) off n))) s.ctx.clk < clockLimit)
    (ha : s.access s.agent s.sup .rd (offOf (s.eaM (s.gVal base) off n)) n = (.ok key, t)) :
    load len n signed d base fa off s = .next ((((t.reads [base]).stampRead (granule (offOf (s.eaM (s.gVal base) off n)))
      (s.readTime (granule (offOf (s.eaM (s.gVal base) off n))) s.ctx.clk)).setClk
        (s.readTime (granule (offOf (s.eaM (s.gVal base) off n))) s.ctx.clk)).putG len d (extendLoad signed (s.bytes key n))) := by
  have hea : (s.reads [base]).eaM (s.gVal base) off n = s.eaM (s.gVal base) off n := rfl
  rw [load, s.srcG_ok _ _ _ hbase, hea, (s.reads [base]).loadElems_own hn hal hown (State.access_reads_eq ha [base]) hsent hT,
    s.reads_bytes]
  rfl

/-- Settles O9: a load of one element of own memory (`load_own`), with the value extended (`extendLoad_signed`). -/
theorem loads : Obligations.Loads := by
  unfold Obligations.Loads
  intro s d base fa off hbase hsent
  have does : ∀ {len n : Nat} {signed : Bool} {i : Instr} {fa : Bool} {off : BitVec 10} {v : Nat → Word}, 0 < n →
      exec i s = load len n signed d base fa off s → (∀ key, extendLoad signed (s.bytes key n) = v (s.num key n)) →
      let ea := s.eaM (s.gVal base) off n
      let T := max (s.ctx.clk + 1) (s.wts (granule (offOf ea)))
      ∀ key t, ea.toNat % n = 0 → resolve s.me ea = s.me → T < clockLimit → s.access s.agent s.sup .rd (offOf ea) n = (.ok key, t) →
        exec i s = .next ((((t.reads [base]).stampRead (granule (offOf ea)) T).setClk T).putG len d (v (s.num key n))) := by
    intro len n signed i fa off v hn hi hv ea T key t hal hown hT ha
    rw [hi, load_own hbase hsent hn hal hown hT ha, hv key]
    rfl
  have full : ∀ key, extendLoad true (s.bytes key 8) = BitVec.ofNat 64 (s.num key 8) := fun key =>
    (s.extendLoad_signed key (by decide)).trans (BitVec.signExtend_eq _)
  have short : ∀ (n key : Nat), extendLoad false (s.bytes key n) = BitVec.ofNat 64 (s.num key n) := fun _ _ => rfl
  refine ⟨?_, ?_, ?_, ?_, ?_, ?_, ?_, ?_⟩
  · exact does (v := fun x => (BitVec.ofNat 8 x).signExtend 64) (n := 1) (signed := true) (by decide) rfl fun key => s.extendLoad_signed key (by decide)
  · exact does (v := fun x => (BitVec.ofNat 16 x).signExtend 64) (n := 2) (signed := true) (by decide) rfl fun key => s.extendLoad_signed key (by decide)
  · exact does (v := fun x => (BitVec.ofNat 32 x).signExtend 64) (n := 4) (signed := true) (by decide) rfl fun key => s.extendLoad_signed key (by decide)
  · exact does (n := 8) (signed := true) (v := fun x => BitVec.ofNat 64 x) (by decide) rfl full
  · exact does (n := 1) (signed := false) (by decide) rfl (short 1)
  · exact does (n := 2) (signed := false) (by decide) rfl (short 2)
  · exact does (n := 4) (signed := false) (by decide) rfl (short 4)
  · exact does (n := 8) (signed := true) (v := fun x => BitVec.ofNat 64 x) (by decide) rfl full

/-! ### One access of a store -/

/-- An instruction of a context that holds only checked registers goes on (R153). -/
theorem State.checked_of_allChecked {s : State} (h : s.ctx.anyUnchecked = false) (k : State → State) : s.checked k = k s := by
  rw [State.checked, h]
  rfl

section
variable {s t : State} {ea : Word} {n key : Nat} {part : Nat × List Byte}

/-- A store of one access that the checks allow (R205). -/
theorem State.storeElems_own {k : State → State} (hal : ea.toNat % n = 0) (hown : ownForm s.me ea = true)
    (ha : s.access s.agent s.sup .wr (offOf ea) n = (.ok key, t)) (hT : s.writeTime (granule (offOf ea)) s.ctx.clk < clockLimit) :
    s.storeElems [⟨ea, n, [part]⟩] k = k (((t.stampWrite (granule (offOf ea)) (s.writeTime (granule (offOf ea)) s.ctx.clk)).setClk
      (s.writeTime (granule (offOf ea)) s.ctx.clk)).writeParts (offOf ea) n key (s.writeTime (granule (offOf ea)) s.ctx.clk) [part]).markSide := by
  obtain ⟨x, d, rfl⟩ := State.access_eq_looked ha
  have hT' : ¬clockLimit ≤ (s.looked x d).writeTime (granule (offOf ea)) (s.looked x d).ctx.clk := not_le.mpr hT
  simp only [State.storeElems, State.checkStores, hown, hal, ha, Bool.not_true, Bool.false_eq_true, ne_eq, not_true_eq_false, if_false,
    List.reverse_singleton, State.performStores, List.isEmpty_cons, if_neg hT']
  rfl

/-- An address of another cluster traps 0x08 before any other check of a store (R75). -/
theorem State.storeElems_foreign {k : State → State} (hown : ownForm s.me ea = false) :
    s.storeElems [⟨ea, n, [part]⟩] k = s.trapEa 0x08 ea := by
  simp [State.storeElems, State.checkStores, hown]

variable (hown : ownForm s.me ea = true)
include hown

/-- A misaligned address traps 0x07 (R67). -/
theorem State.storeElems_misaligned {k : State → State} (hal : ea.toNat % n ≠ 0) :
    s.storeElems [⟨ea, n, [part]⟩] k = s.trapEa 0x07 ea := by
  simp [State.storeElems, State.checkStores, hown, hal]

variable (hal : ea.toNat % n = 0)
include hal

/-- An address outside both windows traps 0x0A (R70). -/
theorem State.storeElems_outside {k : State → State} (hs : inSpad (offOf ea) n = false) (hh : inHbm (offOf ea) n = false) :
    s.storeElems [⟨ea, n, [part]⟩] k = s.trapEa 0x0A ea := by
  simp [State.storeElems, State.checkStores, hown, hal, State.access, hs, hh, State.failElem, State.lowestFault, State.failAcc]

/-- A scratchpad byte that protection denies traps 0x09 (R351). -/
theorem State.storeElems_denied {k : State → State} (hs : inSpad (offOf ea) n = true) (hp : s.spadAllowed s.sup .wr (offOf ea) n = false) :
    s.storeElems [⟨ea, n, [part]⟩] k = s.trapEa 0x09 ea := by
  simp [State.storeElems, State.checkStores, hown, hal, State.access, hs, hp, State.failElem, State.lowestFault, State.failAcc]

end

/-- A store whose sources can be read, in a context with only checked registers, is one access. -/
theorem store_eq {s : State} {r base : GNum} {fa : Bool} {off : BitVec 10} {len n : Nat} (hbase : s.gOk base = true) (hr : s.gOk r = true)
    (hc : s.allChecked) : store len n r base fa off s = .next ((s.reads [base, r]).storeElems
      [⟨s.eaM (s.gVal base) off n, n, [(offOf (s.eaM (s.gVal base) off n), toLe n (s.gVal r).toNat)]⟩] fun s => s.finish len) := by
  rw [store, s.srcG_ok _ _ _ hbase, (s.reads [base]).srcG_ok _ _ _ hr, State.reads_reads,
    State.checked_of_allChecked (s := s.reads ([base] ++ [r])) hc]
  rfl

/-- Settles O10: a store is one access of own memory (`store_eq`, `storeElems_own`). -/
theorem stores : Obligations.Stores := by
  unfold Obligations.Stores
  intro s r base fa off hbase hr hc
  have does : ∀ {len n : Nat} {i : Instr} {fa : Bool} {off : BitVec 10}, exec i s = store len n r base fa off s →
      let ea := s.eaM (s.gVal base) off n
      let T := max (s.ctx.clk + 1) (s.rts (granule (offOf ea)) + 1)
      ∀ key t, ea.toNat % n = 0 → ownForm s.me ea = true → T < clockLimit → s.access s.agent s.sup .wr (offOf ea) n = (.ok key, t) →
        exec i s = .next (((((t.reads [base, r]).stampWrite (granule (offOf ea)) T).setClk T).writeParts (offOf ea) n key T
          [(offOf ea, toLe n (s.gVal r).toNat)]).markSide.finish len) := by
    intro len n i fa off hi ea T key t hal hown hT ha
    rw [hi, store_eq hbase hr hc, (s.reads [base, r]).storeElems_own hal hown (State.access_reads_eq ha _) hT]
    rfl
  exact ⟨does rfl, does rfl, does rfl, does rfl, does rfl⟩

/-- Settles O13: the checks of a store's one access, in their order. -/
theorem storeTraps : Obligations.StoreTraps := by
  unfold Obligations.StoreTraps
  intro s r base fa off hbase hr hc
  have does : ∀ {len n : Nat} {i : Instr} {fa : Bool} {off : BitVec 10}, exec i s = store len n r base fa off s →
      let ea := s.eaM (s.gVal base) off n
      let traps (cause : BitVec 8) : Prop := exec i s = .next ((s.reads [base, r]).trapAux cause 0 ea 0)
      (ownForm s.me ea = false → traps 0x08) ∧ (ownForm s.me ea = true → ea.toNat % n ≠ 0 → traps 0x07) ∧
        (ownForm s.me ea = true → ea.toNat % n = 0 → inSpad (offOf ea) n = false → inHbm (offOf ea) n = false → traps 0x0A) ∧
        (ownForm s.me ea = true → ea.toNat % n = 0 → inSpad (offOf ea) n = true → s.spadAllowed s.sup .wr (offOf ea) n = false →
          traps 0x09) := by
    intro len n i fa off hi ea traps
    simp only [traps, hi, store_eq hbase hr hc]
    exact ⟨fun h => congrArg _ ((s.reads [base, r]).storeElems_foreign h),
      fun h hal => congrArg _ ((s.reads [base, r]).storeElems_misaligned h hal),
      fun h hal hs hh => congrArg _ ((s.reads [base, r]).storeElems_outside h hal hs hh),
      fun h hal hs hp => congrArg _ ((s.reads [base, r]).storeElems_denied h hal hs hp)⟩
  exact ⟨does rfl, does rfl, does rfl, does rfl, does rfl⟩

end Sys2Proof.Machine

/-!
SUPPORT. Full/empty operations (R207 to R210) and scratchpad protection (R351).
-/
namespace Sys2Proof.Machine

/-! ### Placed accesses -/

section
variable {s : State} {o : Nat}

/-- A read below the clock limit is placed (R97). -/
theorem State.placeRead_eq {k : State → State} (h : s.readTime (granule o) s.ctx.clk < clockLimit) : s.placeRead o k =
    k ((s.stampRead (granule o) (s.readTime (granule o) s.ctx.clk)).setClk (s.readTime (granule o) s.ctx.clk)) := by
  rw [State.placeRead]
  exact if_neg (not_le.mpr h)

/-- A write below the clock limit is placed (R97). -/
theorem State.placeWrite_eq {k : Nat → State → State} (h : s.writeTime (granule o) s.ctx.clk < clockLimit) : s.placeWrite o k =
    k (s.writeTime (granule o) s.ctx.clk)
      ((s.stampWrite (granule o) (s.writeTime (granule o) s.ctx.clk)).setClk (s.writeTime (granule o) s.ctx.clk)) := by
  rw [State.placeWrite]
  exact if_neg (not_le.mpr h)

/-! ### The checks and the wait of a full/empty operation -/

/-- A scratchpad span that protection allows and no soft error has hit. -/
theorem State.access_spad_ok {agent n : Nat} {sup : Bool} {p : Perm} (hs : inSpad o n = true) (hp : s.spadAllowed sup p o n = true)
    (hb : s.badWord o n = false) : s.access agent sup p o n = (.ok o, s) := by
  simp [State.access, hs, hp, hb]

/-- The checks of a full/empty operation that pass (R208). -/
theorem State.feChecks_ok {p : Perm} {ea : Word} {k : Nat → State → State} (hal : ea.toNat % 8 = 0) (hown : ownForm s.me ea = true)
    (hs : inSpad (offOf ea) 8 = true) (hb : s.badWord (offOf ea) 8 = false) (hp : s.spadAllowed s.sup p (offOf ea) 8 = true) :
    s.feChecks p ea k = k (offOf ea) s := by
  have hlow : ¬(hbmLo ≤ offOf ea ∧ offOf ea < hbmEnd) := by
    have hle : offOf ea + 8 ≤ 0x800000 := of_decide_eq_true hs
    simp only [hbmLo]
    omega
  simp [State.feChecks, hal, hown, hs, hlow, State.access_spad_ok hs hp hb]

/-- A wait that is met. -/
theorem State.feWait_met {full : Bool} {k : State → State} (h : s.isFull (o / 8) = full) : s.feWait o full k = k s := if_pos h

/-- A wait that is not met leaves the context BLOCKED (R208). -/
theorem State.feWait_unmet {full : Bool} {k : State → State} (h : s.isFull (o / 8) ≠ full) :
    s.feWait o full k = s.block (.feWord (o / 8) full) := if_neg h

end

/-! ### The operations -/

/-- A word written and left full (R208). -/
def State.fillWord (o len : Nat) (v : Word) (s : State) : State :=
  s.placeWrite o fun T u => (((u.writeOwn o o (toLe 8 v.toNat) T).setFE (o / 8) true).markAtomic).finish len

section
variable {s : State} {r base : GNum} {fa : Bool} {off : BitVec 10} {len : Nat} (hbase : s.gOk base = true)
  (hal : (s.eaM (s.gVal base) off 8).toNat % 8 = 0) (hown : ownForm s.me (s.eaM (s.gVal base) off 8) = true)
  (hs : inSpad (offOf (s.eaM (s.gVal base) off 8)) 8 = true) (hb : s.badWord (offOf (s.eaM (s.gVal base) off 8)) 8 = false)
include hbase hal hown hs hb

/-- `ldff` up to its wait. -/
theorem execLdff_eq (hp : s.spadAllowed s.sup .rd (offOf (s.eaM (s.gVal base) off 8)) 8 = true) : execLdff r base fa off s =
    .next ((s.reads [base]).feWait (offOf (s.eaM (s.gVal base) off 8)) true fun t => t.placeRead (offOf (s.eaM (s.gVal base) off 8))
      fun u => u.putG 4 r (u.word (offOf (s.eaM (s.gVal base) off 8)))) := by
  rw [execLdff, s.srcG_ok _ _ _ hbase]
  exact congrArg _ ((s.reads [base]).feChecks_ok hal hown hs hb hp)

variable (hc : s.allChecked) (hp : s.spadAllowed s.sup .wr (offOf (s.eaM (s.gVal base) off 8)) 8 = true)
include hc hp

/-- `ldfe` up to its wait. -/
theorem loadEmpty_eq : loadEmpty len r base fa off s =
    .next ((s.reads [base]).feWait (offOf (s.eaM (s.gVal base) off 8)) true fun t => t.placeWrite (offOf (s.eaM (s.gVal base) off 8))
      fun _ u => ((u.setFE (offOf (s.eaM (s.gVal base) off 8) / 8) false).markAtomic).putG len r (u.word (offOf (s.eaM (s.gVal base) off 8)))) := by
  rw [loadEmpty, s.srcG_ok _ _ _ hbase, State.checked_of_allChecked (s := s.reads [base]) hc]
  exact congrArg _ ((s.reads [base]).feChecks_ok hal hown hs hb hp)

/-- `purge` up to its placement. -/
theorem execPurge_eq : execPurge base fa off s = .next ((s.reads [base]).placeWrite (offOf (s.eaM (s.gVal base) off 8))
    fun _ u => ((u.setFE (offOf (s.eaM (s.gVal base) off 8) / 8) false).markAtomic).finish 4) := by
  rw [execPurge, s.srcG_ok _ _ _ hbase, State.checked_of_allChecked (s := s.reads [base]) hc]
  exact congrArg _ ((s.reads [base]).feChecks_ok hal hown hs hb hp)

variable (hr : s.gOk r = true)
include hr

/-- `stfe` up to its wait. -/
theorem storeFull_wait_eq : storeFull len true r base fa off s = .next ((s.reads [base, r]).feWait (offOf (s.eaM (s.gVal base) off 8)) false
    (State.fillWord (offOf (s.eaM (s.gVal base) off 8)) len (s.gVal r))) := by
  rw [storeFull, s.srcG_ok _ _ _ hbase, (s.reads [base]).srcG_ok _ _ _ hr, State.reads_reads,
    State.checked_of_allChecked (s := s.reads ([base] ++ [r])) hc]
  exact congrArg _ ((s.reads [base, r]).feChecks_ok hal hown hs hb hp)

/-- `stff` does not wait. -/
theorem storeFull_eq : storeFull len false r base fa off s =
    .next (State.fillWord (offOf (s.eaM (s.gVal base) off 8)) len (s.gVal r) (s.reads [base, r])) := by
  rw [storeFull, s.srcG_ok _ _ _ hbase, (s.reads [base]).srcG_ok _ _ _ hr, State.reads_reads,
    State.checked_of_allChecked (s := s.reads ([base] ++ [r])) hc]
  exact congrArg _ ((s.reads [base, r]).feChecks_ok hal hown hs hb hp)

end

/-- Settles O11: each operation is its wait and its placed effect; a wait met is `feWait_met`, one not met `feWait_unmet`. -/
theorem fullEmpty : Obligations.FullEmpty := by
  unfold Obligations.FullEmpty
  intro s r base fa off hbase hr hc
  refine ⟨?ldfe, ?cLdfe, ?stfe, ?cStfe, ?stff, ?ldff⟩
  case ldfe =>
    intro hal hown hs hb hp
    have e : exec (.ldfe r base fa off) s = _ := loadEmpty_eq hbase hal hown hs hb hc hp
    exact ⟨fun hf hT => e.trans (congrArg _ ((State.feWait_met (s := s.reads [base]) hf).trans (State.placeWrite_eq (s := s.reads [base]) hT))),
      fun hf => e.trans (congrArg _ (State.feWait_unmet (s := s.reads [base]) (ne_true_of_eq_false hf)))⟩
  case cLdfe =>
    intro hal hown hs hb hp
    have e : exec (.cLdfe r base) s = _ := loadEmpty_eq hbase hal hown hs hb hc hp
    exact ⟨fun hf hT => e.trans (congrArg _ ((State.feWait_met (s := s.reads [base]) hf).trans (State.placeWrite_eq (s := s.reads [base]) hT))),
      fun hf => e.trans (congrArg _ (State.feWait_unmet (s := s.reads [base]) (ne_true_of_eq_false hf)))⟩
  case stfe =>
    intro hal hown hs hb hp
    have e : exec (.stfe r base fa off) s = _ := storeFull_wait_eq hbase hal hown hs hb hc hp hr
    exact ⟨fun hf hT => e.trans (congrArg _ ((State.feWait_met (s := s.reads [base, r]) hf).trans (State.placeWrite_eq (s := s.reads [base, r]) hT))),
      fun hf => e.trans (congrArg _ (State.feWait_unmet (s := s.reads [base, r]) (ne_false_of_eq_true hf)))⟩
  case cStfe =>
    intro hal hown hs hb hp
    have e : exec (.cStfe r base) s = _ := storeFull_wait_eq hbase hal hown hs hb hc hp hr
    exact ⟨fun hf hT => e.trans (congrArg _ ((State.feWait_met (s := s.reads [base, r]) hf).trans (State.placeWrite_eq (s := s.reads [base, r]) hT))),
      fun hf => e.trans (congrArg _ (State.feWait_unmet (s := s.reads [base, r]) (ne_false_of_eq_true hf)))⟩
  case stff =>
    intro hal hown hs hb hp hT
    exact ⟨(storeFull_eq hbase hal hown hs hb hc hp hr).trans (congrArg _ (State.placeWrite_eq (s := s.reads [base, r]) hT)),
      (execPurge_eq hbase hal hown hs hb hc hp).trans (congrArg _ (State.placeWrite_eq (s := s.reads [base]) hT))⟩
  case ldff =>
    intro hal hown hs hb hp
    have e : exec (.ldff r base fa off) s = _ := execLdff_eq hbase hal hown hs hb hp
    exact ⟨fun hf hT => e.trans (congrArg _ ((State.feWait_met (s := s.reads [base]) hf).trans (State.placeRead_eq (s := s.reads [base]) hT))),
      fun hf => e.trans (congrArg _ (State.feWait_unmet (s := s.reads [base]) (ne_true_of_eq_false hf)))⟩

/-! ### Protection regions (R351) -/

/-- Permission of a unit: the first region that matches it decides; none, and S level may read and write it. -/
theorem unitAllowed_iff {sup : Bool} {p : Perm} {u : Nat} : ∀ l : List Word, unitAllowed sup p u l = true ↔
    (∃ (i : Nat) (h : i < l.length), regionHit l[i] u = true ∧ (∀ j (hj : j < i), regionHit (l[j]'(hj.trans h)) u = false) ∧
      bits l[i] (regionBit sup p) 1 = 1) ∨
    ((∀ (i : Nat) (h : i < l.length), regionHit l[i] u = false) ∧ sup = true ∧ (p = .rd ∨ p = .wr))
  | [] => by simp [unitAllowed]
  | r :: l => by
    rw [unitAllowed]
    split
    case isTrue hr =>
      rw [decide_eq_true_eq]
      constructor
      · exact fun h => .inl ⟨0, Nat.succ_pos _, hr, fun j hj => absurd hj (Nat.not_lt_zero j), h⟩
      · rintro (⟨i, hi, -, hfirst, hbit⟩ | ⟨hnone, -⟩)
        · cases i with
          | zero => exact hbit
          | succ i => exact absurd hr (ne_true_of_eq_false (hfirst 0 (Nat.succ_pos i)))
        · exact absurd hr (ne_true_of_eq_false (hnone 0 (Nat.succ_pos _)))
    case isFalse hr =>
      rw [unitAllowed_iff l]
      have hr0 := eq_false_of_ne_true hr
      refine or_congr ⟨?_, ?_⟩ (and_congr_left fun _ => ⟨fun h i hi => ?_, fun h i hi => h (i + 1) (Nat.succ_lt_succ hi)⟩)
      · rintro ⟨i, hi, hit, hfirst, hbit⟩
        refine ⟨i + 1, Nat.succ_lt_succ hi, hit, fun j hj => ?_, hbit⟩
        cases j with
        | zero => exact hr0
        | succ j => exact hfirst j (Nat.lt_of_succ_lt_succ hj)
      · rintro ⟨i, hi, hit, hfirst, hbit⟩
        cases i with
        | zero => exact absurd hit hr
        | succ i => exact ⟨i, Nat.lt_of_succ_lt_succ hi, hit, fun j hj => hfirst (j + 1) (Nat.succ_lt_succ hj), hbit⟩
      · cases i with
        | zero => exact hr0
        | succ i => exact h i (Nat.lt_of_succ_lt_succ hi)

/-- A span is allowed when the unit of each of its bytes is. -/
theorem State.spadAllowed_iff {s : State} {sup : Bool} {p : Perm} {o n : Nat} (hn : 0 < n) : s.spadAllowed sup p o n = true ↔
    ∀ b, o ≤ b → b < o + n → unitAllowed sup p (b / 256) s.cl.regions.toList = true := by
  simp only [State.spadAllowed, List.all_eq_true, List.mem_range]
  constructor
  · intro h b hlo hhi
    have hlow : o / 256 ≤ b / 256 := Nat.div_le_div_right hlo
    have hhigh : b / 256 ≤ (o + n - 1) / 256 := Nat.div_le_div_right (by omega)
    have := h (b / 256 - o / 256) (by omega)
    rwa [Nat.add_sub_cancel' hlow] at this
  · intro h i hi
    by_cases hfirst : i = 0
    · subst hfirst
      exact h o le_rfl (by omega)
    · have hu : (256 * (o / 256 + i)) / 256 = o / 256 + i := Nat.mul_div_cancel_left _ (by decide)
      rw [← hu]
      exact h _ (by omega) (by omega)

/-- Settles O14: the units of the bytes decide (`spadAllowed_iff`), and of each the lowest region that matches (`unitAllowed_iff`). -/
theorem regions : Obligations.Regions := by
  unfold Obligations.Regions
  intro s sup p o n hn _ hit allowed
  rw [State.spadAllowed_iff hn]
  refine forall_congr' fun b => imp_congr_right fun _ => imp_congr_right fun _ => ?_
  have hlen : s.cl.regions.toList.length = 16 := Vector.length_toList
  have hget : ∀ (i : Fin 16), s.cl.regions.toList[i.val]'(hlen.symm ▸ i.isLt) = s.cl.regions[i] := fun i => by simp
  have hhit : ∀ (i : Fin 16), regionHit (s.cl.regions.toList[i.val]'(hlen.symm ▸ i.isLt)) (b / 256) = true ↔ hit i b := fun i => by
    rw [hget]
    simp only [regionHit, Bool.and_eq_true, decide_eq_true_eq, hit, and_assoc]
  have hmiss : ∀ (i : Fin 16), regionHit (s.cl.regions.toList[i.val]'(hlen.symm ▸ i.isLt)) (b / 256) = false ↔ ¬hit i b := fun i => by
    rw [← hhit i, Bool.not_eq_true]
  rw [unitAllowed_iff]
  refine or_congr ⟨?_, ?_⟩ (and_congr_left fun _ => ⟨?_, ?_⟩)
  · rintro ⟨i, hi, h, hfirst, hbit⟩
    have hi' : i < 16 := hlen ▸ hi
    exact ⟨⟨i, hi'⟩, (hhit ⟨i, hi'⟩).mp h, fun j hj => (hmiss j).mp (hfirst j hj), by rw [← hget ⟨i, hi'⟩]; exact hbit⟩
  · rintro ⟨i, h, hfirst, hbit⟩
    exact ⟨i, hlen.symm ▸ i.isLt, (hhit i).mpr h, fun j hj => (hmiss ⟨j, hj.trans i.isLt⟩).mpr (hfirst ⟨j, _⟩ hj), by rw [hget i]; exact hbit⟩
  · exact fun h i => (hmiss i).mp (h i (hlen.symm ▸ i.isLt))
  · exact fun h i hi => (hmiss ⟨i, hlen ▸ hi⟩).mpr (h ⟨i, hlen ▸ hi⟩)

end Sys2Proof.Machine

/-!
SUPPORT. Local atomics (R211, R212) and the retry latch (R319).
-/
namespace Sys2Proof.Machine

/-! ### The values of R211 as words of the atomic's width -/

section
variable {w : Nat} (x y : BitVec w)

/-- A signed number of w bits. -/
theorem sxInt_toNat (hw : 0 < w) : sxInt w x.toNat = x.toInt := by rw [sxInt_eq w _ hw, BitVec.ofNat_toNat, BitVec.setWidth_eq]

theorem atomicNew_add : atomicNew 0 w x.toNat y.toNat = (x + y).toNat := (BitVec.toNat_add x y).symm
theorem atomicNew_and : atomicNew 1 w x.toNat y.toNat = (x &&& y).toNat := (BitVec.toNat_and x y).symm
theorem atomicNew_or : atomicNew 2 w x.toNat y.toNat = (x ||| y).toNat := (BitVec.toNat_or x y).symm
theorem atomicNew_xor : atomicNew 3 w x.toNat y.toNat = (x ^^^ y).toNat := (BitVec.toNat_xor x y).symm
theorem atomicNew_min (hw : 0 < w) : atomicNew 4 w x.toNat y.toNat = (if x.toInt ≤ y.toInt then x else y).toNat := by
  rw [atomicNew, sxInt_toNat x hw, sxInt_toNat y hw, apply_ite BitVec.toNat]
theorem atomicNew_max (hw : 0 < w) : atomicNew 5 w x.toNat y.toNat = (if x.toInt ≤ y.toInt then y else x).toNat := by
  rw [atomicNew, sxInt_toNat x hw, sxInt_toNat y hw, apply_ite BitVec.toNat]
theorem atomicNew_minn : atomicNew 6 w x.toNat y.toNat = (if x ≤ y then x else y).toNat := by
  rw [atomicNew, apply_ite BitVec.toNat, Nat.min_def]
  rfl
theorem atomicNew_maxn : atomicNew 7 w x.toNat y.toNat = (if x ≤ y then y else x).toNat := by
  rw [atomicNew, apply_ite BitVec.toNat, Nat.max_def]
  rfl
theorem atomicVal_cas {n : Nat} (z : BitVec w) : atomicVal 9 n x.toNat y.toNat z.toNat = (if x = z then y else x).toNat := by
  rw [atomicVal, if_pos rfl, apply_ite BitVec.toNat]
  exact if_congr (BitVec.toNat_inj) rfl rfl

end

/-! ### A read-write of own memory -/

/-- A number in memory as a word of its width. -/
theorem State.num_eq_toNat (s : State) (key n : Nat) : s.num key n = (BitVec.ofNat (8 * n) (s.num key n)).toNat := by
  rw [BitVec.toNat_ofNat, Nat.mod_eq_of_lt (s.num_lt key n)]

/-- Placing a write changes no byte. -/
theorem State.num_placed (s : State) (g t u key n : Nat) : ((s.stampWrite g t).setClk u).num key n = s.num key n :=
  congrArg leNat (State.bytes_congr s _ n key fun _ _ => rfl)

/-- Checks, and registers read, change no byte. -/
theorem State.looked_reads_num (s : State) (x : List (Nat × Nat × Nat × Word)) (k : Nat) (l : List GNum) (key n : Nat) :
    ((s.looked x k).reads l).num key n = s.num key n := congrArg leNat (State.bytes_congr s _ n key fun _ _ => rfl)

section
variable {s t : State} {ea : Word} {n key : Nat}

/-- The checks of a read-write of own memory that pass (R212). -/
theorem State.checkOwn_ok {p : Perm} {k : Nat → AccRes → State → State} (hal : ea.toNat % n = 0) (hown : ownForm s.me ea = true)
    (ha : s.access s.agent s.sup p (offOf ea) n = (.ok key, t)) : s.checkOwn p ea n k = k (offOf ea) (.ok key) t := by
  simp [State.checkOwn, hal, hown, ha]

/-- The checks of a read-write that meets a non-resident page (R358). -/
theorem State.checkOwn_nonres {p : Perm} {k : Nat → AccRes → State → State} {vpn : Nat} {leaf : Word} (hal : ea.toNat % n = 0)
    (hown : ownForm s.me ea = true) (ha : s.access s.agent s.sup p (offOf ea) n = (.nonres vpn leaf, t)) :
    s.checkOwn p ea n k = k (offOf ea) (.nonres vpn leaf) t := by
  simp [State.checkOwn, hal, hown, ha]

/-- A LocalReadWrite below the clock limit (R97, R105). -/
theorem State.readWrite_eq {o : Nat} {f : Nat → Nat} {k : Nat → State → State} (hT : s.writeTime (granule o) s.ctx.clk < clockLimit) :
    s.readWrite o key n f k = k (s.num key n) (((s.stampWrite (granule o) (s.writeTime (granule o) s.ctx.clk)).setClk
      (s.writeTime (granule o) s.ctx.clk)).writeOwn o key (toLe n (f (s.num key n))) (s.writeTime (granule o) s.ctx.clk)) := by
  rw [State.readWrite, State.placeWrite_eq hT, State.num_placed]

end

/-! ### An atomic with no latched operation for its PC -/

/-- The state in which an atomic has written its new value. -/
def State.atomicPut (t : State) (l : List GNum) (o key n T x : Nat) : State :=
  ((((t.reads l).stampWrite (granule o) T).setClk T).writeOwn o key (toLe n x) T).markAtomic

section
variable {s t : State} {d a b : GNum} {fa fb w32 : Bool} {op key n : Nat}

/-- The result of a returning atomic is the old value, extended (R212). -/
theorem State.atomicResult_eq (s : State) (len : Nat) (d : GNum) (x : Nat) (hn : 0 < n) :
    s.atomicResult len n d x = s.putG len d ((BitVec.ofNat (8 * n) x).signExtend 64) := by
  rw [State.atomicResult, ofInt_sxInt (by omega)]

variable (ha : s.gOk a = true) (hb : s.gOk b = true) (hc : s.allChecked) (hl : s.ctx.retry.v = false ∨ s.ctx.retry.pc ≠ s.ctx.pc)
include hl

/-- The latch plays no part (R319). -/
theorem State.not_latched (r : Bool) : (s.ctx.retry.v && decide (s.ctx.retry.pc = s.ctx.pc) && r) = false := by
  obtain hv | hpc := hl
  · rw [hv]; rfl
  · rw [decide_eq_false hpc, Bool.and_false]; rfl

variable (hn : (if w32 then 4 else 8) = n) (hal : (s.gVal a).toNat % n = 0) (hown : ownForm s.me (s.gVal a) = true)
  (hacc : s.access s.agent s.sup .wr (offOf (s.gVal a)) n = (.ok key, t))
  (hT : s.writeTime (granule (offOf (s.gVal a))) s.ctx.clk < clockLimit)
include ha hb hc hn hal hown hacc hT

/-- An atomic of two sources: what it writes, and what becomes of the old value. -/
theorem atomic_own (dd : Option GNum) (h9 : op ≠ 9) : atomic op dd a b fa fb w32 s = .next
    (let u := t.atomicPut [a, b] (offOf (s.gVal a)) key n (s.writeTime (granule (offOf (s.gVal a))) s.ctx.clk)
      (atomicVal op n (s.num key n) ((s.gVal b).toNat % 2 ^ (8 * n)) (0 % 2 ^ (8 * n)))
    match dd with
    | none => u.finish 4
    | some d => u.atomicResult 4 n d (s.num key n)) := by
  obtain ⟨x, k, rfl⟩ := State.access_eq_looked hacc
  have hacc' := State.access_reads_eq hacc [a, b]
  rw [atomic, hn, State.not_latched hl, if_neg Bool.false_ne_true, s.srcG_ok _ _ _ ha, (s.reads [a]).srcG_ok _ _ _ hb, State.reads_reads]
  simp only [if_neg h9]
  rw [State.checked_of_allChecked (s := s.reads ([a] ++ [b])) hc, (s.reads ([a] ++ [b])).checkOwn_ok hal hown hacc']
  dsimp only
  rw [State.readWrite_eq (s := (s.looked x k).reads [a, b]) hT, State.looked_reads_num]
  cases dd with
  | none => rfl
  | some d => rfl

/-- `acas` reads d as the expected value (R211). -/
theorem atomic_cas (hd : s.gOk d = true) : atomic 9 (some d) a b fa fb w32 s = .next
    ((t.atomicPut [a, b, d] (offOf (s.gVal a)) key n (s.writeTime (granule (offOf (s.gVal a))) s.ctx.clk)
      (atomicVal 9 n (s.num key n) ((s.gVal b).toNat % 2 ^ (8 * n)) ((s.gVal d).toNat % 2 ^ (8 * n)))).atomicResult 4 n d (s.num key n)) := by
  obtain ⟨x, k, rfl⟩ := State.access_eq_looked hacc
  have hacc' := State.access_reads_eq hacc [a, b, d]
  rw [atomic, hn, State.not_latched hl, if_neg Bool.false_ne_true, s.srcG_ok _ _ _ ha, (s.reads [a]).srcG_ok _ _ _ hb, State.reads_reads]
  simp only [if_true, Option.getD_some]
  rw [(s.reads ([a] ++ [b])).srcG_ok _ _ _ hd, State.reads_reads,
    State.checked_of_allChecked (s := s.reads ([a] ++ [b] ++ [d])) hc, (s.reads ([a] ++ [b] ++ [d])).checkOwn_ok hal hown hacc']
  dsimp only
  rw [State.readWrite_eq (s := (s.looked x k).reads [a, b, d]) hT, State.looked_reads_num]
  rfl

/-- A returning atomic whose new value is known as a word (R212). -/
theorem atomic_ret (h9 : op ≠ 9) (hpos : 0 < n) {v : BitVec (8 * n)}
    (hv : atomicNew op (8 * n) (BitVec.ofNat (8 * n) (s.num key n)).toNat (BitVec.ofNat (8 * n) (s.gVal b).toNat).toNat = v.toNat) :
    atomic op (some d) a b fa fb w32 s = .next ((t.atomicPut [a, b] (offOf (s.gVal a)) key n
      (s.writeTime (granule (offOf (s.gVal a))) s.ctx.clk) v.toNat).putG 4 d ((BitVec.ofNat (8 * n) (s.num key n)).signExtend 64)) := by
  rw [atomic_own ha hb hc hl hn hal hown hacc hT _ h9, ← hv, atomicVal, if_neg h9, ← s.num_eq_toNat, BitVec.toNat_ofNat]
  exact congrArg _ (State.atomicResult_eq _ _ _ _ hpos)

/-- `acas` with its new value as a word (R211). -/
theorem atomic_cas_ret (hd : s.gOk d = true) (hpos : 0 < n) : atomic 9 (some d) a b fa fb w32 s = .next
    ((t.atomicPut [a, b, d] (offOf (s.gVal a)) key n (s.writeTime (granule (offOf (s.gVal a))) s.ctx.clk)
      (if BitVec.ofNat (8 * n) (s.num key n) = BitVec.ofNat (8 * n) (s.gVal d).toNat then BitVec.ofNat (8 * n) (s.gVal b).toNat
        else BitVec.ofNat (8 * n) (s.num key n)).toNat).putG 4 d ((BitVec.ofNat (8 * n) (s.num key n)).signExtend 64)) := by
  rw [atomic_cas ha hb hc hl hn hal hown hacc hT hd, ← atomicVal_cas (n := n), ← s.num_eq_toNat, BitVec.toNat_ofNat, BitVec.toNat_ofNat]
  exact congrArg _ (State.atomicResult_eq _ _ _ _ hpos)

/-- The form without a result. -/
theorem atomic_nr (h9 : op ≠ 9) {v : BitVec (8 * n)}
    (hv : atomicNew op (8 * n) (BitVec.ofNat (8 * n) (s.num key n)).toNat (BitVec.ofNat (8 * n) (s.gVal b).toNat).toNat = v.toNat) :
    atomic op none a b fa fb w32 s = .next ((t.atomicPut [a, b] (offOf (s.gVal a)) key n
      (s.writeTime (granule (offOf (s.gVal a))) s.ctx.clk) v.toNat).finish 4) := by
  rw [atomic_own ha hb hc hl hn hal hown hacc hT _ h9, ← hv, atomicVal, if_neg h9, ← s.num_eq_toNat, BitVec.toNat_ofNat]

end

/-! ### The retry latch -/

section
variable {s : State} {d a b : GNum} {fa fb w32 : Bool} {op : Nat}

/-- A returning atomic that meets a non-resident page sets the latch and traps 0x0C (R319). -/
theorem atomic_nonres {t : State} {vpn : Nat} {leaf : Word} (ha : s.gOk a = true) (hb : s.gOk b = true) (hc : s.allChecked)
    (hv : s.ctx.retry.v = false) (hal : (s.gVal a).toNat % 8 = 0) (hown : ownForm s.me (s.gVal a) = true)
    (hacc : s.access s.agent s.sup .wr (offOf (s.gVal a)) 8 = (.nonres vpn leaf, t)) : atomic 0 (some d) a b fa fb false s = .next
      (((t.reads [a, b]).upd fun x =>
        { x.mend 24 with retry := ⟨true, false, false, false, 0, x.pc, s.gVal a, s.gVal b, 0⟩ }).trapNonRes (s.gVal a) vpn) := by
  have hacc' := State.access_reads_eq hacc [a, b]
  rw [atomic, State.not_latched (.inl hv), if_neg Bool.false_ne_true, s.srcG_ok _ _ _ ha, (s.reads [a]).srcG_ok _ _ _ hb, State.reads_reads]
  simp only [OfNat.zero_ne_ofNat, if_false]
  rw [State.checked_of_allChecked (s := s.reads ([a] ++ [b])) hc]
  exact congrArg _ ((s.reads ([a] ++ [b])).checkOwn_nonres hal hown hacc')

variable (hv : s.ctx.retry.v = true) (hpc : s.ctx.retry.pc = s.ctx.pc)
include hv hpc

/-- At the latch's PC a returning atomic is the latched operation (R319). -/
theorem atomic_latched : atomic op (some d) a b fa fb w32 s = .next (s.latched 4 d) := by
  rw [atomic, if_pos (by simp [hv, hpc])]
  rfl

end

/-- The bytes of the latched operation (R319). -/
def RetryLatch.width (r : RetryLatch) : Nat := if r.func.toNat / 32 % 2 = 1 then 4 else 8
theorem RetryLatch.width_pos (r : RetryLatch) : 0 < r.width := by
  unfold RetryLatch.width
  split
  · decide
  · decide
/-- The latch is empty again. -/
def State.unlatch (s : State) : State := s.upd fun x => { x with retry := RetryLatch.reset }

/-- A read of damage changes no context. -/
theorem State.touch_ctx (s : State) (n : Nat) : (s.touch n).ctx = s.ctx := rfl

section
variable {s : State} {d : GNum}

/-- A latch with DONE gives its result with no access (R319). -/
theorem State.latched_done (hd : s.ctx.retry.done = true) : s.latched 4 d =
    (s.touch 24).unlatch.putG 4 d ((BitVec.ofNat (8 * s.ctx.retry.width) s.ctx.retry.xres.toNat).signExtend 64) := by
  rw [State.latched]
  simp only [State.touch_ctx, hd, if_true]
  refine (State.atomicResult_eq _ 4 d _ s.ctx.retry.width_pos).trans ?_
  congr 2
  exact BitVec.eq_of_toNat_eq (by rw [BitVec.toNat_ofNat, BitVec.toNat_ofNat]; exact Nat.mod_mod _ _)

variable (hd : s.ctx.retry.done = false)
include hd

/-- A latch without ARM traps again (R319). -/
theorem State.latched_disarmed (ha : s.ctx.retry.arm = false) : s.latched 4 d = (s.touch 24).trapEa 0x0C s.ctx.retry.ea := by
  rw [State.latched]
  simp only [State.touch_ctx, hd, ha, Bool.false_eq_true, if_false, Bool.not_false, if_true]

/-- A latch with ARM performs the latched operation once, here an addition (R319). -/
theorem State.latched_armed {t : State} {key : Nat} (ha : s.ctx.retry.arm = true) (hf : s.ctx.retry.func.toNat % 16 = 0)
    (hacc : (s.touch 24).access s.agent s.sup .wr (offOf s.ctx.retry.ea) s.ctx.retry.width = (.ok key, t))
    (hT : s.writeTime (granule (offOf s.ctx.retry.ea)) s.ctx.clk < clockLimit) : s.latched 4 d =
      (((t.stampWrite (granule (offOf s.ctx.retry.ea)) (s.writeTime (granule (offOf s.ctx.retry.ea)) s.ctx.clk)).setClk
        (s.writeTime (granule (offOf s.ctx.retry.ea)) s.ctx.clk)).writeOwn (offOf s.ctx.retry.ea) key (toLe s.ctx.retry.width
          (BitVec.ofNat (8 * s.ctx.retry.width) (s.num key s.ctx.retry.width) +
            BitVec.ofNat (8 * s.ctx.retry.width) s.ctx.retry.opnd.toNat).toNat)
        (s.writeTime (granule (offOf s.ctx.retry.ea)) s.ctx.clk)).unlatch.markAtomic.putG 4 d
          ((BitVec.ofNat (8 * s.ctx.retry.width) (s.num key s.ctx.retry.width)).signExtend 64) := by
  obtain ⟨x, k, rfl⟩ := State.access_eq_looked hacc
  have hnum : ((s.touch 24).looked x k).num key s.ctx.retry.width = s.num key s.ctx.retry.width :=
    congrArg leNat (State.bytes_congr s _ _ key fun _ _ => rfl)
  have hstays : ¬(s.touch 24).ctx.retry.done = true := ne_true_of_eq_false hd
  have hgoes : ¬(!(s.touch 24).ctx.retry.arm) = true := by rw [s.touch_ctx, ha]; decide
  rw [State.latched]
  dsimp only
  rw [if_neg hstays, if_neg hgoes, show (s.touch 24).access (s.touch 24).agent (s.touch 24).sup .wr (offOf (s.touch 24).ctx.retry.ea)
    (if (s.touch 24).ctx.retry.func.toNat / 32 % 2 = 1 then 4 else 8) = _ from hacc]
  dsimp only
  refine (State.readWrite_eq (s := (s.touch 24).looked x k) (o := offOf (s.touch 24).ctx.retry.ea) hT).trans ?_
  refine (State.atomicResult_eq _ 4 d _ s.ctx.retry.width_pos).trans ?_
  have hval : atomicVal (s.ctx.retry.func.toNat % 16) s.ctx.retry.width (s.num key s.ctx.retry.width)
      (s.ctx.retry.opnd.toNat % 2 ^ (8 * s.ctx.retry.width)) (s.ctx.retry.xres.toNat % 2 ^ (8 * s.ctx.retry.width)) =
      (BitVec.ofNat (8 * s.ctx.retry.width) (s.num key s.ctx.retry.width) +
        BitVec.ofNat (8 * s.ctx.retry.width) s.ctx.retry.opnd.toNat).toNat := by
    rw [← atomicNew_add, ← s.num_eq_toNat, BitVec.toNat_ofNat, hf]
    rfl
  rw [← hval, ← hnum]
  rfl

end

/-- Settles O12: an atomic writes its new value (`atomic_ret`, `atomic_nr`, `atomic_cas`), which R211 gives as a word of its width, or sets
the latch (`atomic_nonres`); at the latch's PC it is the latched operation. -/
theorem atomics : Obligations.Atomics := by
  unfold Obligations.Atomics
  refine ⟨fun s d a b fa fb w32 key t ha hb hd hc hl => ?own, fun s d a b fa fb w32 => ⟨fun vpn leaf t ha hb hc hv hal hown hacc => ?nonres,
    fun hv hpc hdone => ?done, fun hv hpc hdone harm => ?disarmed, fun key t hv hpc hdone harm hacc hf => ?armed⟩⟩
  case own =>
    intro n ea o T hal hown hT hacc
    have hpos : 0 < n := by
      show 0 < if w32 then 4 else 8
      split
      · decide
      · decide
    have hw : 0 < 8 * n := by omega
    have both : ∀ (op : Nat) (v : BitVec (8 * n)), op ≠ 9 →
        atomicNew op (8 * n) (BitVec.ofNat (8 * n) (s.num key n)).toNat (BitVec.ofNat (8 * n) (s.gVal b).toNat).toNat = v.toNat → _ ∧ _ :=
      fun op v h9 hv => And.intro (atomic_ret (d := d) (fa := fa) (fb := fb) ha hb hc hl rfl hal hown hacc hT h9 hpos hv)
        (atomic_nr (fa := fa) (fb := fb) ha hb hc hl rfl hal hown hacc hT h9 hv)
    refine ⟨both 0 _ (by decide) (atomicNew_add _ _), both 1 _ (by decide) (atomicNew_and _ _), both 2 _ (by decide) (atomicNew_or _ _),
      both 3 _ (by decide) (atomicNew_xor _ _), both 4 _ (by decide) (atomicNew_min _ _ hw), both 5 _ (by decide) (atomicNew_max _ _ hw),
      both 6 _ (by decide) (atomicNew_minn _ _), both 7 _ (by decide) (atomicNew_maxn _ _), (both 8 _ (by decide) rfl).1,
      atomic_cas_ret ha hb hc hl rfl hal hown hacc hT hd hpos⟩
  case nonres => exact atomic_nonres ha hb hc hv hal hown hacc
  case done => exact (atomic_latched hv hpc).trans (congrArg _ (State.latched_done hdone))
  case disarmed => exact (atomic_latched hv hpc).trans (congrArg _ (State.latched_disarmed hdone harm))
  case armed => exact fun hT => (atomic_latched hv hpc).trans (congrArg _ (State.latched_armed hdone harm hf hacc hT))

end Sys2Proof.Machine

/-!
SUPPORT. What scalar memory instructions leave unchanged (R74, R97, R203 to R212): registers, and bytes outside those at their address.
-/
namespace Sys2Proof.Machine

/-- An instruction whose next state keeps a frame. -/
theorem Kept.of_next {s u t : State} {gs : List GNum} {vs : List VNum} {ks : List KNum} {A : Nat → Prop} (h : Kept s u gs vs ks A)
    (e : (.next u : Out) = .next t) : Kept s t gs vs ks A := Host.Outcome.next.inj e ▸ h

/-- The bytes of the pending-operation logs. -/
def State.logBytesIn (s : State) (x : Nat) : Prop := ∃ i, i < 1024 ∧ s.inLog i x

theorem State.logsIn_logBytesIn (s : State) : LogsIn s s.logBytesIn := fun i _ hi hx => ⟨i, hi, hx⟩

/-- What a frame outside the logs says. -/
theorem Kept.outside_logs {s t : State} {gs : List GNum} {vs : List VNum} (h : Kept s t gs vs [] s.logBytesIn) :
    OwnKept s t gs vs [] ∧ ∀ x, (∀ i, i < 1024 → ¬s.inLog i x) → t.byte x = s.byte x :=
  ⟨h.own, fun x hx => h.bytes x fun ⟨i, hi, hin⟩ => hx i hi hin⟩

/-- What a frame of no byte says. -/
theorem Kept.no_byte {s t : State} {gs : List GNum} (h : Kept s t gs [] [] fun _ => False) :
    OwnKept s t gs [] [] ∧ ∀ x, t.byte x = s.byte x := ⟨h.own, fun x => h.bytes x id⟩

/-- Other link tags change nothing of the frame. -/
theorem Kept.tainted (s : State) (l : List Nat) (h : Bool) {gs : List GNum} {A : Nat → Prop} : Kept s (s.tainted l h) gs [] [] A :=
  (Kept.refl s).same rfl rfl rfl rfl rfl rfl

/-- A source of an instruction that has read others: it is read, or the instruction traps or waits with nothing performed. -/
theorem Kept.srcTainted {s : State} {l : List Nat} {gs : List GNum} {A : Nat → Prop} {fa : Bool} {r : GNum} {k : Word → State → State}
    (hk : ∀ l', Kept s (k (s.gVal r) (s.tainted l' s.hurt)) gs [] [] A) : Kept s ((s.tainted l s.hurt).srcG fa r k) gs [] [] A :=
  State.srcG_read (P := fun u => Kept s u gs [] [] A) _ fa r k hk (fun _ _ _ _ => (Kept.tainted s l s.hurt).trapAux _ _ _ _)
    fun _ => (Kept.tainted s l s.hurt).block _

/-- The first source of an instruction. -/
theorem Kept.srcFirst {s : State} {gs : List GNum} {A : Nat → Prop} {fa : Bool} {r : GNum} {k : Word → State → State}
    (hk : ∀ l', Kept s (k (s.gVal r) (s.tainted l' s.hurt)) gs [] [] A) : Kept s (s.srcG fa r k) gs [] [] A :=
  Kept.srcTainted (l := s.taint) hk

/-! ### Instructions that read -/

section
variable {s t : State} {d base : GNum} {fa : Bool} {off : BitVec 10} {len : Nat}

/-- A load. -/
theorem load_kept {n : Nat} {signed : Bool} : load len n signed d base fa off s = .next t → Kept s t [d] [] [] s.logBytesIn :=
  Kept.of_next ((Kept.refl s).srcG fa base fun _ _ h => h.loadElems s.logsIn_logBytesIn _
    (fun _ _ h => h.putG len d _ (List.mem_singleton_self d)) fun _ _ h => (h.poisonG d _ (List.mem_singleton_self d)).finish len)

/-- `ldff`. -/
theorem execLdff_kept : execLdff d base fa off s = .next t → Kept s t [d] [] [] s.logBytesIn :=
  Kept.of_next ((Kept.refl s).srcG fa base fun _ _ h => h.feChecks .rd _ fun _ h _ => h.feWait _ true
    (h.placeRead _ fun _ h => h.putG 4 d _ (List.mem_singleton_self d)))

/-- `ldfe` changes an F/E bit and no byte. -/
theorem loadEmpty_kept : loadEmpty len d base fa off s = .next t → Kept s t [d] [] [] fun _ => False :=
  Kept.of_next ((Kept.refl s).srcG fa base fun _ _ h => h.checked (h.feChecks .wr _ fun _ h _ => h.feWait _ true
    (h.placeWrite _ fun _ _ h => (h.setFE _ _).markAtomic.putG len d _ (List.mem_singleton_self d))))

/-- `purge` changes an F/E bit and no byte. -/
theorem execPurge_kept : execPurge base fa off s = .next t → Kept s t [] [] [] fun _ => False :=
  Kept.of_next ((Kept.refl s).srcG fa base fun _ _ h => h.checked (h.feChecks .wr _ fun _ h _ =>
    h.placeWrite _ fun _ _ h => (h.setFE _ _).markAtomic.finish 4))

end

/-! ### Instructions that store -/

/-- The checks of an access do not see what the instruction has read. -/
theorem State.access_tainted_eq (s : State) (l : List Nat) (h : Bool) (p : Perm) (o n : Nat) :
    (s.tainted l h).access (s.tainted l h).agent (s.tainted l h).sup p o n =
      ((s.access s.agent s.sup p o n).1, (s.access s.agent s.sup p o n).2.tainted l h) := s.access_tainted l h _ _ _ _ _

section
variable {s : State} {o n key : Nat}

/-- An allowed access stores to its own bytes and the NEXT words of queued records. -/
theorem State.storedTo_ok (h : (s.access s.agent s.sup .wr o n).1 = .ok key) {a : Nat} :
    s.storedTo .wr o n a ↔ (key ≤ a ∧ a < key + n) ∨ s.queuedNext a := by rw [State.storedTo, h]

/-- An access to a non-resident page stores to the page's log. -/
theorem State.storedTo_nonres {vpn : Nat} {leaf : Word} (h : (s.access s.agent s.sup .wr o n).1 = .nonres vpn leaf) {a : Nat} :
    s.storedTo .wr o n a ↔ s.inLog (bits leaf 6 10) a := by rw [State.storedTo, h]

end

section
variable {s : State} {l : List Nat} {h : Bool} {ea : Word} {n : Nat}

/-- A store of one access whose part lies within it. -/
theorem Kept.storeOne {bs : List Byte} {k : State → State} (hlen : bs.length = n)
    (hk : ∀ u, Kept s u [] [] [] (s.storedTo .wr (offOf ea) n) → Kept s (k u) [] [] [] (s.storedTo .wr (offOf ea) n)) :
    Kept s ((s.tainted l h).storeElems [⟨ea, n, [(offOf ea, bs)]⟩] k) [] [] [] (s.storedTo .wr (offOf ea) n) := by
  have h0 : Kept s (s.tainted l h) [] [] [] (s.storedTo .wr (offOf ea) n) := Kept.tainted s l h
  have hacc := h0.access (s.tainted l h).agent (s.tainted l h).sup .wr (offOf ea) n
  rw [State.access_tainted_eq] at hacc
  rw [State.storeElems, State.checkStores]
  split
  · exact h0.trapEa _ _
  split
  · exact h0.trapEa _ _
  rw [State.access_tainted_eq]
  cases hr : (s.access s.agent s.sup .wr (offOf ea) n).1 with
  | ok key =>
    refine Kept.performStores _ hacc (fun a hq => (State.storedTo_ok hr).mpr (.inr hq)) (fun u hu => hk _ hu.markSide) _ _ _ ?_ hacc
    intro x hx
    obtain rfl := List.mem_singleton.mp hx
    refine ⟨fun p hp => ?_, fun a hlo hhi => (State.storedTo_ok hr).mpr (.inl ⟨hlo, hhi⟩)⟩
    obtain rfl := List.mem_singleton.mp hp
    exact ⟨le_rfl, by simp only [hlen]; exact le_rfl⟩
  | nonres vpn leaf =>
    dsimp only [State.checkStores]
    rw [List.reverse_singleton, State.performStores]
    split
    · exact hk _ hacc.markSide
    · dsimp only
      split
      · exact (hacc.block _).next _
      · exact hacc.trap _
      next u eq => exact hk _ (hacc.appendEnts _ (fun a ha => (State.storedTo_nonres hr).mpr ha) vpn _ _ eq).markSide
  | unmapped | denied hbm | walknr | mig k | err => exact hacc.failElem _ _ _ _

/-- A write of an F/E store (R208). -/
theorem Kept.fillOne {bs : List Byte} {u : State} {T len : Nat} (hlen : bs.length = n) {key : Nat}
    (hr : (s.access s.agent s.sup .wr (offOf ea) n).1 = .ok key) (hu : Kept s u [] [] [] (s.storedTo .wr (offOf ea) n)) :
    Kept s (((u.writeOwn (offOf ea) key bs T).setFE (offOf ea / 8) true).markAtomic.finish len) [] [] [] (s.storedTo .wr (offOf ea) n) :=
  (((hu.writeOwn _ _ _ _ (fun a hlo hhi => (State.storedTo_ok hr).mpr (.inl ⟨hlo, by rwa [hlen] at hhi⟩))
    fun a hq => (State.storedTo_ok hr).mpr (.inr hq)).setFE _ _).markAtomic).finish len

end

section
variable {s t : State} {r base : GNum} {fa : Bool} {off : BitVec 10} {len : Nat}

/-- A store. -/
theorem store_kept {n : Nat} : store len n r base fa off s = .next t →
    Kept s t [] [] [] (s.storedTo .wr (offOf (s.eaM (s.gVal base) off n)) n) := by
  refine Kept.of_next (Kept.srcFirst fun l => Kept.srcTainted fun l' => ?_)
  exact (Kept.tainted s l' s.hurt).checked (Kept.storeOne (toLe_length n _) fun u hu => hu.finish len)

/-- A store that leaves its word full. -/
theorem storeFull_kept {wait : Bool} : storeFull len wait r base fa off s = .next t →
    Kept s t [] [] [] (s.storedTo .wr (offOf (s.eaM (s.gVal base) off 8)) 8) := by
  refine Kept.of_next (Kept.srcFirst fun l => Kept.srcTainted fun l' => ?_)
  refine (Kept.tainted s l' s.hurt).checked ((Kept.tainted s l' s.hurt).feChecks .wr _ fun u hu hok => ?_)
  have hr : (s.access s.agent s.sup .wr (offOf (s.eaM (s.gVal base) off 8)) 8).1 = .ok (offOf (s.eaM (s.gVal base) off 8)) :=
    (congrArg Prod.fst (s.access_tainted_eq l' s.hurt .wr (offOf (s.eaM (s.gVal base) off 8)) 8)).symm.trans hok
  have fill : ∀ T v, Kept s v [] [] [] (s.storedTo .wr (offOf (s.eaM (s.gVal base) off 8)) 8) → _ := fun T v hv =>
    Kept.fillOne (T := T) (len := len) (toLe_length 8 (s.gVal r).toNat) hr hv
  dsimp only
  split
  · unfold State.feWait
    split
    · exact hu.placeWrite _ fill
    · exact hu.block _
  · exact hu.placeWrite _ fill

end

/-! ### Atomics -/

section
variable {s t : State} {a b : GNum} {fa fb w32 : Bool} {op : Nat}

/-- A read-write of own memory changes the bytes of its access. -/
theorem Kept.readWriteOne {u : State} {o n key : Nat} {f : Nat → Nat} {k : Nat → State → State} {gs : List GNum}
    (hr : (s.access s.agent s.sup .wr o n).1 = .ok key) (hu : Kept s u gs [] [] (s.storedTo .wr o n))
    (hk : ∀ x v, Kept s v gs [] [] (s.storedTo .wr o n) → Kept s (k x v) gs [] [] (s.storedTo .wr o n)) :
    Kept s (u.readWrite o key n f k) gs [] [] (s.storedTo .wr o n) :=
  hu.placeWrite o fun T v hv => hk _ _ (hv.writeOwn _ _ _ _
    (fun a hlo hhi => (State.storedTo_ok hr).mpr (.inl ⟨hlo, by rwa [toLe_length] at hhi⟩)) fun a hq => (State.storedTo_ok hr).mpr (.inr hq))

/-- The checks of a read-write of own memory: an allowed access goes on, and one to a non-resident page. -/
theorem Kept.checkOwnOne {l : List Nat} {ea : Word} {n : Nat} {gs : List GNum} {k : Nat → AccRes → State → State}
    (hok : ∀ key u, (s.access s.agent s.sup .wr (offOf ea) n).1 = .ok key → Kept s u gs [] [] (s.storedTo .wr (offOf ea) n) →
      Kept s (k (offOf ea) (.ok key) u) gs [] [] (s.storedTo .wr (offOf ea) n))
    (hnr : ∀ vpn leaf u, (∀ x, s.inLog (bits leaf 6 10) x → s.storedTo .wr (offOf ea) n x) → Kept s u gs [] [] (s.storedTo .wr (offOf ea) n) →
      Kept s (k (offOf ea) (.nonres vpn leaf) u) gs [] [] (s.storedTo .wr (offOf ea) n)) :
    Kept s ((s.tainted l s.hurt).checkOwn .wr ea n k) gs [] [] (s.storedTo .wr (offOf ea) n) := by
  have h0 : Kept s (s.tainted l s.hurt) gs [] [] (s.storedTo .wr (offOf ea) n) := Kept.tainted s l s.hurt
  have hacc := h0.access (s.tainted l s.hurt).agent (s.tainted l s.hurt).sup .wr (offOf ea) n
  rw [State.access_tainted_eq] at hacc
  rw [State.checkOwn]
  split
  · exact h0.trapEa _ _
  split
  · exact h0.trapEa _ _
  dsimp only
  rw [State.access_tainted_eq]
  cases hr : (s.access s.agent s.sup .wr (offOf ea) n).1 with
  | ok key => exact hok key _ hr hacc
  | nonres vpn leaf => exact hnr vpn leaf _ (fun x hx => (State.storedTo_nonres hr).mpr hx) hacc
  | unmapped | denied hbm | walknr | mig k | err => exact hacc.failAcc _ _

/-- The third source of an atomic, which only one operation has. -/
theorem Kept.srcIf {c : Prop} [Decidable c] {l : List Nat} {r : GNum} {gs : List GNum} {A : Nat → Prop} {k : Word → State → State}
    (hk : ∀ x l', Kept s (k x (s.tainted l' s.hurt)) gs [] [] A) :
    Kept s (if c then (s.tainted l s.hurt).srcG false r k else k 0 (s.tainted l s.hurt)) gs [] [] A := by
  split
  · exact Kept.srcTainted fun l' => hk _ l'
  · exact hk 0 l

/-- An atomic with no latched operation for its PC (R212). -/
theorem atomic_kept {dd : Option GNum} (hl : s.ctx.retry.v = false ∨ s.ctx.retry.pc ≠ s.ctx.pc) : atomic op dd a b fa fb w32 s = .next t →
    Kept s t dd.toList [] [] (s.storedTo .wr (offOf (s.gVal a)) (if w32 then 4 else 8)) := by
  rw [atomic, State.not_latched hl, if_neg Bool.false_ne_true]
  refine Kept.of_next (Kept.srcFirst fun l => Kept.srcTainted fun l' => ?_)
  refine Kept.srcIf fun x m => (Kept.tainted s m s.hurt).checked (Kept.checkOwnOne (fun key u hr hu => ?_) fun vpn leaf u hlog hu => ?_)
  · refine Kept.readWriteOne hr hu fun y w hw => ?_
    cases dd with
    | none => exact hw.markAtomic.finish 4
    | some d => exact hw.markAtomic.putG 4 d _ (List.mem_singleton_self d)
  · cases dd with
    | none => exact hu.logAppend vpn leaf hlog _ fun w hw => hw.markAtomic.finish 4
    | some d => exact (hu.upd _ (CtxKept.of_eq rfl)).trapNonRes _ _

end

/-- Settles O15: each shape of instruction keeps its frame; a store's bytes are those of `State.storedTo` at its address. -/
theorem memoryFrame : Obligations.MemoryFrame := by
  unfold Obligations.MemoryFrame
  refine ⟨fun s t d base fa off => ?reads, fun s t r base fa off => ?stores, fun s t d a b fa fb w32 off hl => ?atomics⟩
  case reads =>
    have ld : ∀ {len n : Nat} {signed : Bool} {fa : Bool} {off : BitVec 10}, load len n signed d base fa off s = .next t → _ :=
      fun h => (load_kept h).outside_logs
    exact ⟨ld, ld, ld, ld, ld, ld, ld, ld, fun h => (execLdff_kept h).outside_logs⟩
  case stores =>
    have own : ∀ {A : Nat → Prop}, Kept s t [] [] [] A → OwnKept s t [] [] [] ∧ ∀ x, ¬A x → t.byte x = s.byte x := fun k => ⟨k.own, k.bytes⟩
    exact ⟨fun h => own (store_kept h), fun h => own (store_kept h), fun h => own (store_kept h), fun h => own (store_kept h),
      fun h => own (store_kept h), fun h => own (storeFull_kept h), fun h => own (storeFull_kept h), fun h => own (storeFull_kept h),
      fun h => (execPurge_kept h).no_byte⟩
  case atomics =>
    have ret : ∀ {op : Nat} {dd : Option GNum}, atomic op dd a b fa fb w32 s = .next t → OwnKept s t dd.toList [] [] ∧ _ :=
      fun h => And.intro (atomic_kept hl h).own (atomic_kept hl h).bytes
    exact ⟨fun h => (loadEmpty_kept h).no_byte, fun h => (loadEmpty_kept h).no_byte,
      ret (dd := some d), ret (dd := some d), ret (dd := some d), ret (dd := some d), ret (dd := some d), ret (dd := some d),
      ret (dd := some d), ret (dd := some d), ret (dd := some d), ret (dd := some d),
      ret (dd := none), ret (dd := none), ret (dd := none), ret (dd := none), ret (dd := none), ret (dd := none), ret (dd := none),
      ret (dd := none)⟩

end Sys2Proof.Machine

/-!
SUPPORT. What a cold reset leaves, words written out, privilege, and that nothing stops.
-/
namespace Sys2Proof.Machine

/-- Settles O56: the decoder's table is evaluated on each word. -/
theorem decodedWords : Obligations.DecodedWords := by
  unfold Obligations.DecodedWords
  decide +kernel

/-! ### The state after a reset -/

/-- Every context after a cold reset. -/
theorem State.reset_getCtx (c : CtxId) : State.reset.getCtx c = Ctx.reset := Vector.getElem_replicate _

/-- Every core after a cold reset. -/
theorem State.reset_getCore (k : CoreId) : State.reset.getCore k = Core.reset := Vector.getElem_replicate _

/-- The measurement registers after a cold reset: the two of the boot, and zeros. -/
theorem State.reset_mrs (i : Fin 8) (hi : 2 ≤ i.val) : State.reset.mod.fw.mrs[i] = 0 := by
  show (((Vector.replicate 8 (0 : BitVec 256)).set 0 (extendMr 0 Config.romDigest)).set 1 (extendMr 0 Config.firmwareDigest))[i.val] = 0
  rw [Vector.getElem_set_ne _ _ (by omega), Vector.getElem_set_ne _ _ (by omega), Vector.getElem_replicate]

/-- Settles O59: the vectors of a reset hold one value, its maps are empty, and it is not in twin mode. -/
theorem resetState : Obligations.ResetState := by
  unfold Obligations.ResetState
  refine ⟨fun c => ?ctx, fun k => ?core, fun a => ?byte, fun w => rfl, fun g => ⟨rfl, rfl⟩, fun i => Vector.getElem_replicate _,
    rfl, rfl, rfl, rfl, rfl, rfl, rfl, State.reset_mrs, rfl, nofun, rfl, rfl⟩
  case ctx =>
    rw [State.reset_getCtx]
    exact ⟨rfl, rfl, rfl, rfl, rfl, rfl⟩
  case core =>
    rw [State.reset_getCore]
    exact ⟨rfl, rfl, rfl, rfl, rfl⟩
  case byte => simp [State.byte, Memory.get, State.reset, Memory.residue, mapGet]

/-! ### Privilege -/

/-- At U level an S-level instruction traps. -/
theorem State.priv_user {s : State} (h : s.sup = false) (k : State → State) : s.priv k = s.trap 0x03 := by
  rw [State.priv, h]; rfl

/-- At U level an S-level special register traps. -/
theorem State.specialPriv_user {s : State} (h : s.sup = false) {num : BitVec 16} (hn : 0x8000 ≤ num.toNat) (k : State → State) :
    s.specialPriv num k = s.trap 0x03 := by
  simp [State.specialPriv, h, hn]

/-- Settles O40: the check of the level comes first (`priv_user`, `specialPriv_user`); a store's is the fourth of `storeTraps`. -/
theorem privilege : Obligations.Privilege := by
  unfold Obligations.Privilege
  intro s d a b fa fb num off hu
  have no : ∀ {i : Instr} (k : State → State), exec i s = .next (s.priv k) → exec i s = .next (s.trap 0x03) := fun k h =>
    h.trans (congrArg _ (State.priv_user hu k))
  refine ⟨no _ rfl, no _ rfl, no _ rfl, no _ rfl, no _ rfl, no _ rfl, no _ rfl, no _ rfl, no _ rfl, no _ rfl, no _ rfl, no _ rfl,
    no _ rfl, fun hn => ⟨congrArg _ (State.specialPriv_user hu hn _), congrArg _ (State.specialPriv_user hu hn _)⟩,
    fun ha hd hc hown hal hs hp => ?_⟩
  obtain ⟨-, -, -, ⟨-, -, -, denied⟩, -⟩ := storeTraps s d a fa off ha hd hc
  exact denied hown hal hs (hu ▸ hp)

/-! ### Nothing stops -/

/-- Every meaning goes on. -/
theorem exec_goes (i : Instr) (s : State) : ∃ t, exec i s = .next t := by
  cases i <;> exact ⟨_, rfl⟩

/-- Reading a damaged entry replaces the state that an instruction leaves. -/
theorem State.guarded_goes {s : State} {k : State → Out} (h : ∃ t, k s = .next t) : ∃ t, s.guarded k = .next t := by
  obtain ⟨t, ht⟩ := h
  exact ⟨_, by rw [State.guarded, ht]⟩

/-- What was fetched goes on when its meaning does. -/
theorem State.runFetched_goes (s : State) (f : Fetched) {k : Instr → Nat → State → Out} (h : ∀ i n u, ∃ t, k i n u = .next t) :
    ∃ t, s.runFetched f k = .next t := by
  cases f with
  | instr i len =>
    rw [State.runFetched]
    split
    · exact exec_goes _ _
    · exact State.guarded_goes (h _ _ _)
  | illegal w => exact exec_goes (.illegalEncoding w) s
  | fail cause a => exact exec_goes (.fetchFault cause a) s
  | wait key => exact ⟨_, rfl⟩

/-- A repetition goes on. -/
theorem runRepetition_goes (i : Instr) (s : State) : ∃ t, runRepetition i s = .next t := by
  rw [runRepetition]
  split
  · exact ⟨_, rfl⟩
  · dsimp only
    split
    · exact exec_goes _ _
    · exact exec_goes _ _

/-- A context that runs goes on. -/
theorem State.runCtx_goes (s : State) (c : CtxId) : ∃ t, s.runCtx c = .next t := by
  have plain : ∀ i (_ : Nat) u, ∃ t, exec i u = .next t := fun i _ u => exec_goes i u
  rw [State.runCtx]
  dsimp only
  split
  · split
    · rw [State.passTarget]
      split
      · exact State.runFetched_goes _ _ plain
      · exact exec_goes _ _
    · refine State.runFetched_goes _ _ fun i len u => ?_
      obtain ⟨t, ht⟩ := exec_goes (.rep _ _ _ _ _) _
      rw [ht]
      exact runRepetition_goes _ _
  · exact State.runFetched_goes _ _ plain
  · exact exec_goes _ _
  · exact State.runFetched_goes _ _ plain

/-- A core's issue slot goes on. -/
theorem State.issueCore_goes (s : State) (core : CoreId) : ∃ t, s.issueCore core = .next t := by
  rw [State.issueCore]
  split
  · exact ⟨_, rfl⟩
  · split
    · exact exec_goes _ _
    · dsimp only
      split
      · exact ⟨_, rfl⟩
      · exact State.runCtx_goes _ _

/-- A move that is no event goes on. -/
theorem runTurn_goes {t : Turn} (ht : ∀ i, t ≠ .event i) (s : State) : ∃ u, runTurn t s = .next u := by
  cases t with
  | event i => exact absurd rfl (ht i)
  | issue core => exact State.issueCore_goes _ _
  | resume c =>
    rw [runTurn]
    split
    · exact State.runCtx_goes _ _
    · exact ⟨_, rfl⟩
  | deliver =>
    rw [runTurn, State.deliverMove]
    split
    · exact ⟨_, rfl⟩
    · split
      · exact ⟨_, rfl⟩
      · exact exec_goes _ _
  | link chip => exact ⟨_, rfl⟩
  | firmware fn => exact ⟨_, rfl⟩
  | boot => exact ⟨_, rfl⟩

/-- The moves beside the events are none. -/
theorem State.moves_ne_event {s : State} {t : Turn} (h : t ∈ s.moves) (i : Instr) : t ≠ .event i := by
  rintro rfl
  simp only [State.moves, List.mem_append, List.mem_map] at h
  obtain ((((⟨_, _, h⟩ | ⟨_, _, h⟩) | h) | ⟨_, _, h⟩) | ⟨_, _, h⟩) | h := h
  all_goals first | cases h | (split at h <;> simp at h)

/-- A chosen move is an event that waits, or goes on. -/
theorem State.choose_cases (s : State) (n : Nat) : (∃ i ∈ s.agenda, ∃ u, s.choose n = runEvent i u) ∨ ∃ t, s.choose n = .next t := by
  rw [State.choose]
  split
  next i hi =>
    refine .inl ⟨_, ?_, _, rfl⟩
    cases hm : s.agenda[s.inOrder n i]? with
    | none => exact List.mem_of_getElem? hi
    | some j => exact List.mem_of_getElem? hm
  · split
    next k hk => exact .inr (State.issueCore_goes _ _)
    next t _ ht => exact .inr (runTurn_goes (State.moves_ne_event (List.mem_of_getElem? ht)) _)
    · exact .inr ⟨_, rfl⟩

/-- The end of a move goes on when the move does. -/
theorem settled_goes {o : Out} (h : ∃ t, o = .next t) : ∃ t, settled o = .next t := by
  obtain ⟨t, rfl⟩ := h
  exact ⟨_, rfl⟩

/-- Passing cycles and soft errors leave the events that wait. -/
theorem State.tick_agenda (s : State) : s.tick.agenda = s.agenda := by
  unfold State.tick State.upset
  rfl

/-- A step is an event's, or goes on. -/
theorem step_cases (s : State) :
    (∃ i u, (.event i ∈ s.turns ∨ i ∈ s.agenda) ∧ step s = settled (runEvent i u)) ∨ ∃ t, step s = .next t := by
  have chosen : ∀ (u : State) n, u.agenda = s.agenda → step s = settled (u.choose n) →
      (∃ i u, (.event i ∈ s.turns ∨ i ∈ s.agenda) ∧ step s = settled (runEvent i u)) ∨ ∃ t, step s = .next t := by
    intro u n hu hs
    rw [hs]
    obtain ⟨i, hi, v, hv⟩ | h := u.choose_cases n
    · exact .inl ⟨i, v, .inr (hu ▸ hi), by rw [hv]⟩
    · exact .inr (settled_goes h)
  by_cases ht : s.turns = []
  · by_cases hk : s.tick.choices ≤ 1
    · exact chosen s.tick 0 s.tick_agenda (by simp only [step, ht, hk, if_true])
    · exact chosen s.tick.draw.2 (Config.freeNat s.tick.draw.1 % s.tick.choices) s.tick_agenda (by simp only [step, ht, hk, if_false])
  · obtain ⟨t, r, ht⟩ := List.exists_cons_of_ne_nil ht
    have hs : step s = settled (runTurn t { s with turns := r }) := by simp only [step, ht]
    by_cases h : ∃ i, t = .event i
    · obtain ⟨i, rfl⟩ := h
      exact .inl ⟨i, _, .inl (ht ▸ List.mem_cons_self ..), hs⟩
    · exact .inr (hs ▸ settled_goes (runTurn_goes (fun i hi => h ⟨i, hi⟩) _))

/-- Settles O58: every meaning goes on (`exec_goes`), and a step that does not is an event's whose instruction is a program's
(`step_cases`). -/
theorem nothingStops : Obligations.NothingStops := by
  unfold Obligations.NothingStops
  refine ⟨exec_goes, fun s ht ha => ?goes, fun s w hw => ?refused⟩
  case goes =>
    obtain ⟨i, u, hi, hs⟩ | h := step_cases s
    · have hp : i.isProgram = false := hi.elim (ht i) (ha i)
      rw [hs, runEvent, hp]
      exact settled_goes (exec_goes i u)
    · exact h
  case refused =>
    obtain ⟨i, u, -, hs⟩ | ⟨t, hs⟩ := step_cases s
    · rw [hs, runEvent] at hw
      split at hw
      · cases hw
      · obtain ⟨t, ht⟩ := exec_goes i u
        rw [ht] at hw
        cases hw
    · rw [hs] at hw
      cases hw

end Sys2Proof.Machine

/-!
SUPPORT. The operations on memory: what each writes is read back, and nothing else changes (R4, R20, R72, R87, R95).
-/
namespace Sys2Proof.Machine

/-! ### Bytes -/

/-- The bytes from an address are a list when each place holds the list's byte. -/
theorem State.bytes_of_places (s : State) : ∀ (l : List Byte) (a : Nat), (∀ i, i < l.length → s.byte (a + i) = l.getD i 0) →
    s.bytes a l.length = l
  | [], _, _ => rfl
  | b :: r, a, h => by
    have ih := State.bytes_of_places s r (a + 1) fun i hi => by
      rw [Nat.add_assoc, Nat.add_comm 1 i]
      exact h (i + 1) (Nat.succ_lt_succ hi)
    rw [List.length_cons, State.bytes, ih]
    exact congrArg (· :: r) (h 0 (Nat.zero_lt_succ _))

/-- The number of n little-endian bytes of a number (R4). -/
theorem leNat_toLe : ∀ n x : Nat, leNat (toLe n x) = x % 256 ^ n
  | 0, x => by simp [toLe, leNat, Nat.mod_one]
  | n + 1, x => by
    rw [toLe, leNat, leNat_toLe n, BitVec.toNat_ofNat, Nat.pow_succ' (m := 256), Nat.mod_mul (a := 256)]

/-- A word written is read back (R4). -/
theorem State.word_putWord (s : State) (a : Nat) (w : Word) (h : s.mem.wf = true) : (s.putWord a w).word a = w := by
  have hb : (s.putWord a w).bytes a (toLe 8 w.toNat).length = toLe 8 w.toNat :=
    State.bytes_of_places _ _ _ fun i hi => Memory.get_put_same _ _ _ _ h hi
  rw [toLe_length] at hb
  rw [State.word, State.num, hb, leNat_toLe 8, Nat.mod_eq_of_lt (b := 256 ^ 8) w.isLt, BitVec.ofNat_toNat, BitVec.setWidth_eq]

/-! ### A write of software -/

/-- A byte that a store leaves: the read-only bits keep their values (R18). -/
theorem State.masked_getD (s : State) : ∀ (l : List Byte) (o key i : Nat), i < l.length →
    (s.masked o key l).getD i 0 = ((l.getD i 0 &&& ~~~s.roBits (o + i)) ||| (s.byte (key + i) &&& s.roBits (o + i)))
  | [], _, _, _, h => absurd h (Nat.not_lt_zero _)
  | _ :: _, _, _, 0, _ => rfl
  | b :: r, o, key, i + 1, h => by
    have ih := State.masked_getD s r (o + 1) (key + 1) i (Nat.lt_of_succ_lt_succ h)
    rw [Nat.add_assoc, Nat.add_comm 1 i, Nat.add_assoc, Nat.add_comm 1 i] at ih
    exact ih

/-- Invalidating host copies changes neither a byte nor what is read-only. -/
theorem State.backInvalidate_masked (s : State) (o key n : Nat) (l : List Byte) : (s.backInvalidate key n).masked o key l = s.masked o key l := by
  unfold State.backInvalidate
  dsimp only
  split
  · have h : ∀ (l : List Byte) (o key : Nat) (f : Nat × Nat → Bool), (s.dropHostLines f).masked o key l = s.masked o key l := by
      intro l
      induction l with
      | nil => exact fun _ _ _ => rfl
      | cons b r ih => exact fun o key f => congrArg (_ :: ·) (ih (o + 1) (key + 1) f)
    exact h l o key _
  · rfl

/-- A byte of a write of software, outside the NEXT words of queued records. -/
theorem State.writeOwn_byte {s : State} {o key t i : Nat} {l : List Byte} (h : s.mem.wf = true) (hi : i < l.length)
    (hq : ¬s.queuedNext (key + i)) : (s.writeOwn o key l t).byte (key + i) =
      ((l.getD i 0 &&& ~~~s.roBits (o + i)) ||| (s.byte (key + i) &&& s.roBits (o + i))) := by
  unfold State.writeOwn
  dsimp only
  rw [State.backInvalidate_masked]
  have h1 : MemStep s (s.backInvalidate key l.length) fun _ => False := s.backInvalidate_step _ _ _
  have hm : (s.backInvalidate key l.length).mem.wf = true := by rwa [State.backInvalidate_mem]
  generalize s.backInvalidate key l.length = u at *
  have hq' : ¬(u.putBytes key (s.masked o key l)).queuedNext (key + i) := fun q => hq (h1.queued _ q)
  have hlen : i < (s.masked o key l).length := by rwa [State.masked_length]
  have h2 := State.observePool_step u (u.putBytes key (s.masked o key l)) o l.length
  rw [State.fireWatches, (State.fireList_step o l.length t (fun _ => False) _ _).bytes _ id,
    (State.observeMap_step _ o l.length fun _ => False).bytes _ id, h2.bytes _ hq', ← State.masked_getD s l o key i hi]
  exact Memory.get_put_same _ _ _ _ hm hlen

/-! ### F/E bits -/

/-- Offering the waiters of a word changes no F/E bit. -/
theorem State.setFE_isFull_eq (s : State) (w v : Nat) (full : Bool) (h : s.isFull w ≠ full) : (s.setFE w full).isFull v =
    !((if full then s.mem.feEmpty.filter (· ≠ w) else insNat s.mem.feEmpty w).contains v) := by
  have offer : ∀ (c : Bool) (u : State) (i : Instr), (if c = true then u.next i else u).isFull v = u.isFull v := by
    intro c u i
    cases c with
    | true => rfl
    | false => rfl
  unfold State.setFE
  rw [if_neg h]
  dsimp only
  rw [offer]
  rfl

/-- The members of a rising list after one was put into it. -/
theorem insNat_contains (a v : Nat) : ∀ l : List Nat, (insNat l a).contains v = (decide (v = a) || l.contains v)
  | [] => by simp [insNat]
  | b :: r => by
    have ih := insNat_contains a v r
    simp only [insNat]
    split
    · simp
    · split
      next h => subst h; simp
      · simp only [List.contains_cons, ih]
        exact Bool.or_left_comm ..

/-- The F/E bit that was set (R72). -/
theorem State.setFE_isFull_same (s : State) (w : Nat) (full : Bool) : (s.setFE w full).isFull w = full := by
  by_cases h : s.isFull w = full
  · rw [State.setFE, if_pos h, h]
  · rw [State.setFE_isFull_eq s w w full h]
    cases full with
    | true => simp
    | false => simp [-List.contains_eq_mem, insNat_contains]

/-- The other F/E bits. -/
theorem State.setFE_isFull_other (s : State) {w v : Nat} (full : Bool) (hv : v ≠ w) : (s.setFE w full).isFull v = s.isFull v := by
  by_cases h : s.isFull w = full
  · rw [State.setFE, if_pos h]
  · rw [State.setFE_isFull_eq s w v full h, State.isFull]
    cases full with
    | true => simp [hv]
    | false => simp [-List.contains_eq_mem, insNat_contains, hv]

/-! ### Stamps -/

/-- The stamps that were set (R95). -/
theorem State.setStamp_same (s : State) (g w r : Nat) (h : s.mem.wf = true) : mapGet (0, 0) (s.setStamp g w r).mem.stamps g = (w, r) := by
  simp only [Memory.wf, Bool.and_eq_true] at h
  exact mapGet_mapSet_same _ _ none g (w, r) h.1.2

/-- The stamps of another granule. -/
theorem State.setStamp_other (s : State) {g k : Nat} (w r : Nat) (hk : k ≠ g) :
    mapGet (0, 0) (s.setStamp g w r).mem.stamps k = mapGet (0, 0) s.mem.stamps k := mapGet_mapSet_other _ _ g k (w, r) hk

/-- An instruction placed keeps the canonical form. -/
theorem State.withFetchWord_wf (s : State) (nbits w : Nat) (h : s.mem.wf = true) : (s.withFetchWord nbits w).mem.wf = true := by
  simp only [Memory.wf, Bool.and_eq_true] at h ⊢
  exact ⟨⟨mapWf_putCells _ _ _ h.1.1, h.1.2⟩, h.2⟩

/-- Settles O54: each operation by its own lemmas: the canonical form, what is read back, and what stays. -/
theorem memoryOperations : Obligations.MemoryOperations := by
  unfold Obligations.MemoryOperations
  intro s hm
  refine ⟨fun a l => ⟨s.putBytes_wf a l hm, fun i hi => Memory.get_put_same _ _ _ _ hm hi, fun c hc => Memory.get_put_other _ _ _ _ hc⟩,
    fun a w => ⟨s.word_putWord a w hm, s.putWord_wf a w hm⟩, fun o key t l => ⟨s.writeOwn_wf o key l t hm,
      fun i hi hq => State.writeOwn_byte hm hi hq, fun c hc hq => (s.writeOwn_step o key l t).bytes c ?own⟩,
    fun w full => ⟨s.setFE_wf w full hm, s.setFE_isFull_same w full, fun v hv => s.setFE_isFull_other full hv,
      fun c => (s.setFE_step w full fun _ => False).bytes c id⟩,
    fun g w r => ⟨s.setStamp_wf g w r hm, congrArg Prod.fst (s.setStamp_same g w r hm), congrArg Prod.snd (s.setStamp_same g w r hm),
      fun k hk => ⟨congrArg Prod.fst (s.setStamp_other w r hk), congrArg Prod.snd (s.setStamp_other w r hk)⟩, fun c => rfl⟩,
    fun nbits w => s.withFetchWord_wf nbits w hm⟩
  case own =>
    rintro (⟨h1, h2⟩ | h)
    · omega
    · exact hq h

end Sys2Proof.Machine

/-!
SUPPORT. One step (R13, R110, R155, R165, R187, R431): whose slot it is, what is fetched, what is executed, which move is made.
-/
namespace Sys2Proof.Machine

/-! ### The issue slot (R13) -/

/-- Contexts of a core that can take its issue slot. -/
def State.canIssue (s : State) (c : CtxId) : Bool := (s.getCtx c).st = .ready && !s.isTrailer c

/-- The n-th context behind the one that issued last. -/
def State.behind (s : State) (core : CoreId) (n : Nat) : CtxId := ctxOf core (Fin.ofNat 16 ((s.getCore core).lastIssued.val + 1 + n))

/-- The ready contexts of a core that runs, in their order. -/
theorem State.readyList_eq {s : State} {core : CoreId} (hh : (s.getCore core).halted = false) (hg : (s.getCore core).gated = false)
    (hd : (s.getCore core).dbgHalt = false) (hr : s.running = true) :
    s.readyList core = ((List.range 16).map (s.behind core)).filter s.canIssue := by
  simp only [State.readyList, hh, hg, hd, hr, Bool.or_false, Bool.not_true, Bool.false_eq_true, if_false]
  rfl

/-- The first context behind the last issuer that is READY and no trailer has the slot, unless its last instruction takes time. -/
theorem State.nextReady_first {s : State} {core : CoreId} {n : Nat} (hl : s.readyList core = ((List.range 16).map (s.behind core)).filter s.canIssue)
    (hn : n < 16) (hbefore : ∀ m, m < n → s.canIssue (s.behind core m) = false) (hc : s.canIssue (s.behind core n) = true)
    (hlag : (s.getCtx (s.behind core n)).lag = false) : (s.nextReady core).1 = some (s.behind core n) := by
  have hfind : ∀ free : CtxId → Bool, (s.readyList core).find? (fun c => !((s.getCtx c).lag && free c)) = some (s.behind core n) := by
    intro free
    rw [hl, List.find?_filter, List.find?_map, (List.find?_range_eq_some (i := n)).mpr ⟨?_, List.mem_range.mpr hn, fun m hm => ?_⟩]
    · rfl
    · simp [hc, hlag]
    · simp [hbefore m hm]
  have h : (s.nextReady core).1 = ((s.readyList core).find? fun c => !((s.getCtx c).lag && Config.freeBool (s.draws + (numOf c).val))).or
      (s.readyList core).head? := rfl
  rw [h, hfind]
  rfl

/-- The slot goes to one of the ready contexts. -/
theorem State.nextReady_mem {s : State} {core : CoreId} {c : CtxId} (h : (s.nextReady core).1 = some c) : c ∈ s.readyList core := by
  have h' : ((s.readyList core).find? fun c => !((s.getCtx c).lag && Config.freeBool (s.draws + (numOf c).val))).or
      (s.readyList core).head? = some c := h
  obtain hf | ⟨-, hf⟩ := Option.or_eq_some_iff.mp h'
  · exact List.mem_of_find?_eq_some hf
  · exact List.mem_of_head? hf

/-- A ready context is READY and no trailer. -/
theorem State.readyList_ready {s : State} {core : CoreId} {c : CtxId} (h : c ∈ s.readyList core) :
    (s.getCtx c).st = .ready ∧ s.isTrailer c = false := by
  unfold State.readyList at h
  dsimp only at h
  split at h
  · cases h
  · have hc := (List.mem_filter.mp h).2
    simpa using hc

/-! ### Fetching (R155) -/

/-- A parcel whose access is allowed, with nothing stale. -/
theorem State.fetchParcel_ok {s t : State} {pc : BitVec 48} {key : Nat} (ha : s.access s.agent s.sup .fx pc.toNat 2 = (.ok key, t))
    (hs : t.mem.stale = []) : s.fetchParcel pc = (.inl (t.byte (key + 1) ++ t.byte key), t) := by
  rw [State.fetchParcel, ha]
  simp [State.parcelAt, hs]

/-- A first parcel that decodes by itself is a 16-bit one. -/
theorem isLong_of_decode {p : Parcel} {x : Instr × List Parcel} (h : decode [p] = .ok x) : isLong p = false := by
  cases hl : isLong p with
  | false => rfl
  | true => simp [decode, hl] at h

/-- An instruction of one parcel. -/
theorem State.fetchAt_short {s t : State} {pc : BitVec 48} {p : Parcel} {i : Instr} {r : List Parcel} (h : s.fetchParcel pc = (.inl p, t))
    (hd : decode [p] = .ok (i, r)) : s.fetchAt pc = (.instr i 2, t) := by
  simp only [State.fetchAt, h, isLong_of_decode hd, hd, Bool.false_eq_true, if_false]

/-- An instruction of two parcels. -/
theorem State.fetchAt_long {s t u : State} {pc : BitVec 48} {p q : Parcel} {i : Instr} {r : List Parcel} (h : s.fetchParcel pc = (.inl p, t))
    (hl : isLong p = true) (hn : t.fetchParcel (pc + 2) = (.inl q, u)) (hd : decode [p, q] = .ok (i, r)) :
    s.fetchAt pc = (.instr i 4, u) := by
  simp only [State.fetchAt, h, hl, hn, hd, if_true]

/-! ### Running what was fetched -/

/-- Two changes of the moving context, one after the other. -/
theorem State.upd_upd (s : State) (f g : Ctx → Ctx) : (s.upd f).upd g = s.upd fun x => g (f x) := by
  have h : (s.upd f).getCtx s.cur = f (s.getCtx s.cur) := State.ctx_upd s f
  unfold State.upd at h ⊢
  simp only [State.updCtx, State.setCtx] at h ⊢
  rw [h]
  simp only [Vector.set_set]

/-- An instruction that is executed, unless it read a damaged entry. -/
theorem State.runFetched_instr {s w : State} {i : Instr} {len : Nat} {k : Instr → Nat → State → Out} (hf : featureOff s.mod.feat0 i = false)
    (hk : k i len (s.issueAs i) = .next w) :
    s.runFetched (.instr i len) k = .next (if w.hurt then (s.issueAs i).trap 0x1F else w) := by
  simp only [State.runFetched, hf, State.guarded, hk, Bool.false_eq_true, if_false]

section
variable {s t u : State} {c : CtxId} {i : Instr} {len : Nat} {cnt : BitVec 6} {sd sa sb st : Bool}

/-- A context runs an instruction that is no repeat. -/
theorem State.runCtx_instr {w : State} (h : (s.begin c).fetchAt (s.begin c).ctx.pc = (.instr i len, t))
    (hi : ∀ n d a b x, i ≠ .rep n d a b x) (hf : featureOff t.mod.feat0 i = false)
    (he : exec i (t.upd fun x => { x with repidx := 0, lag := !oneCycle (longForm i) }) = .next w) :
    s.runCtx c = .next (if w.hurt then (t.upd fun x => { x with repidx := 0, lag := !oneCycle (longForm i) }).trap 0x1F else w) := by
  have hu : t.clearRepidx.issueAs i = t.upd fun x => { x with repidx := 0, lag := !oneCycle (longForm i) } := State.upd_upd t _ _
  have hr : s.runCtx c = t.clearRepidx.runFetched (.instr i len) fun i _ s => exec i s := by
    simp only [State.runCtx, h]
  rw [hr, State.runFetched_instr (s := t.clearRepidx) hf (w := w) (by rw [hu]; exact he), hu]

/-- A context runs a repeat whose REPIDX lies above CNT: the target is passed. -/
theorem State.runCtx_pass {p : Parcel} (h : (s.begin c).fetchAt (s.begin c).ctx.pc = (.instr (.rep cnt sd sa sb st) len, t))
    (hx : cnt.toNat < t.ctx.repidx.toNat) (hp : t.fetchParcel (t.ctx.pc + 2) = (.inl p, u)) :
    s.runCtx c = exec (.rep cnt sd sa sb st) { u with target := some (.illegalEncoding (p.zeroExtend 32), if isLong p then 4 else 2) } := by
  simp only [State.runCtx, h, hx, if_true, State.passTarget, hp]

/-- A context runs a repeat with its target. -/
theorem State.runCtx_rep {m : Nat} {w z : State} (h : (s.begin c).fetchAt (s.begin c).ctx.pc = (.instr (.rep cnt sd sa sb st) len, t))
    (hx : t.ctx.repidx.toNat ≤ cnt.toNat) (hg : t.fetchAt (t.ctx.pc + 2) = (.instr i m, u)) (hf : featureOff u.mod.feat0 i = false)
    (he : exec (.rep cnt sd sa sb st) { u.issueAs i with target := some (longForm i, m) } = .next w)
    (hz : runRepetition (longForm i) w = .next z) : s.runCtx c = .next (if z.hurt then (u.issueAs i).trap 0x1F else z) := by
  simp only [State.runCtx, h, Nat.not_lt.mpr hx, if_false, hg]
  exact State.runFetched_instr hf (by simp only [he, hz])

/-- A context whose fetch gives an illegal encoding. -/
theorem State.runCtx_illegal {w : BitVec 32} (h : (s.begin c).fetchAt (s.begin c).ctx.pc = (.illegal w, t)) :
    s.runCtx c = exec (.illegalEncoding w) (t.upd fun x => { x with repidx := 0 }) := by
  simp only [State.runCtx, h, State.clearRepidx]

end

/-- A repetition: none is left, the target with its stepped operands, or an illegal encoding. -/
theorem runRepetition_next {i : Instr} {w z : State} (h : (w.rep = none ∧ z = w) ∨
    (∃ p, w.rep = some p ∧ (repOperands p i).wf = true ∧ exec (repOperands p i) w = .next z) ∨
    (∃ p, w.rep = some p ∧ (repOperands p i).wf = false ∧ exec (.illegalEncoding 0) w = .next z)) : runRepetition i w = .next z := by
  obtain ⟨hr, rfl⟩ | ⟨p, hr, hwf, he⟩ | ⟨p, hr, hwf, he⟩ := h
  · simp only [runRepetition, hr]
  · simp only [runRepetition, hr, hwf, if_true, he]
  · simp only [runRepetition, hr, hwf, Bool.false_eq_true, if_false, he]

/-- The step in which a context has the issue slot runs it. -/
theorem step_slot {s : State} {core : CoreId} {c : CtxId} {r : List Turn} (hs : s.turns = .issue core :: r)
    (hc : (({ s with turns := r } : State).nextReady core).1 = some c) (hd : (s.getCtx c).debug = false)
    (hh : numOf c = 0 → ({ s with turns := r } : State).handlerDue core = false) :
    ∃ u : State, u.begin c = s.slotFor core c r ∧ step s = settled (u.runCtx c) :=
  ⟨_, s.begin_eq_slotFor core c r, by rw [step_issue hs, State.issueCore_runs hc hd hh]⟩

/-! ### The choice of a move (R110, R431) -/

/-- An event takes place. -/
theorem runEvent_event {i : Instr} (h : i.isProgram = false) (s : State) : runEvent i s = exec i s := by
  rw [runEvent, h]; rfl

/-- The event chosen of the agenda is the one that its order names. -/
theorem State.choose_event {s : State} {n m : Nat} {i j : Instr} (hn : s.agenda[n]? = some i) (hm : s.inOrder n i = m)
    (hj : s.agenda[m]? = some j) (hp : j.isProgram = false) : s.choose n = exec j { s with agenda := s.agenda.eraseIdx m } := by
  simp only [State.choose, hn, hm, hj, Option.getD_some]
  exact runEvent_event hp _

/-- The first place of a list that meets a condition. -/
theorem findIdx_first {β : Type} {l : List β} {p : β → Bool} {m : Nat} {x : β} (hx : l[m]? = some x) (hp : p x = true)
    (hb : ∀ k y, k < m → l[k]? = some y → p y = false) : l.findIdx p = m := by
  obtain ⟨hm, rfl⟩ := List.getElem?_eq_some_iff.mp hx
  exact (List.findIdx_eq hm).mpr ⟨hp, fun k hk => hb k _ hk (List.getElem?_eq_getElem (hk.trans hm))⟩

/-- The least of some numbers, one of which is the least. -/
theorem foldl_min_eq {d : Nat} : ∀ {l : List Nat} {a : Nat}, d ≤ a → (∀ x ∈ l, d ≤ x) → (a = d ∨ d ∈ l) → l.foldl min a = d
  | [], a, _, _, h => h.elim id fun h => absurd h (List.not_mem_nil)
  | x :: l, a, ha, hl, h => by
    have hx : d ≤ x := hl x (List.mem_cons_self ..)
    refine foldl_min_eq (l := l) (a := min a x) (Nat.le_min.mpr ⟨ha, hx⟩) (fun y hy => hl y (List.mem_cons_of_mem _ hy)) ?_
    obtain rfl | h := h
    · exact .inl (Nat.min_eq_left hx)
    · obtain rfl | h := List.mem_cons.mp h
      · exact .inl (Nat.min_eq_right ha)
      · exact .inr h

/-- Of the responses of one owner the oldest comes first (R110). -/
theorem State.inOrder_response {s : State} {n m : Nat} {i j : Instr} (hc : cmdOf i = none) (ho : s.respOwner i ≠ none)
    (hj : s.agenda[m]? = some j) (hjo : s.respOwner j = s.respOwner i)
    (hb : ∀ k x, k < m → s.agenda[k]? = some x → s.respOwner x ≠ s.respOwner i) : s.inOrder n i = m := by
  obtain ⟨o, ho⟩ := Option.ne_none_iff_exists'.mp ho
  simp only [State.inOrder, hc, ho]
  rw [ho] at hjo hb
  exact findIdx_first hj (decide_eq_true hjo) fun k x hk hx => decide_eq_false (hb k x hk hx)

/-- Of commands that wait together the first of the lowest function comes first (R431). -/
theorem State.inOrder_command {s : State} {n m : Nat} {i j : Instr} {c d : Cmd} (hn : s.agenda[n]? = some i) (hc : cmdOf i = some c)
    (hj : s.agenda[m]? = some j) (hd : cmdOf j = some d) (hlow : ∀ x ∈ s.agenda, ∀ e, cmdOf x = some e → d.fn.val ≤ e.fn.val)
    (hb : ∀ k x e, k < m → s.agenda[k]? = some x → cmdOf x = some e → e.fn ≠ d.fn) : s.inOrder n i = m := by
  have hmin : (s.agenda.filterMap fun j => (cmdOf j).map fun d => d.fn.val).foldl min c.fn.val = d.fn.val := by
    refine foldl_min_eq (hlow i (List.mem_of_getElem? hn) c hc) (fun x hx => ?_) (.inr ?_)
    · obtain ⟨y, hy, he⟩ := List.mem_filterMap.mp hx
      obtain ⟨e, hye, rfl⟩ := Option.map_eq_some_iff.mp he
      exact hlow y hy e hye
    · exact List.mem_filterMap.mpr ⟨j, List.mem_of_getElem? hj, by rw [hd]; rfl⟩
  simp only [State.inOrder, hc, hmin]
  refine findIdx_first hj (by simp [hd]) fun k x hk hx => ?_
  cases he : cmdOf x with
  | none => rfl
  | some e => exact decide_eq_false fun h => hb k x e hk hx he (Fin.ext h)

/-- A move that is no event. -/
theorem State.choose_issue {s : State} {n : Nat} {k : CoreId} (h : s.moves[n]? = some (.issue k)) :
    s.choose (s.agenda.length + n) = State.issueCore { s with rotor := k } k := by
  have hn : s.agenda[s.agenda.length + n]? = none := List.getElem?_eq_none (Nat.le_add_right _ _)
  simp only [State.choose, hn, Nat.add_sub_cancel_left, h, runTurn]

/-- Settles O57: the slot (`nextReady_first`), the fetch (`fetchAt_short`, `fetchAt_long`), what the context that has the slot runs
(`step_slot` with `runCtx_instr`, `runCtx_rep`, `runCtx_pass`), and the choice of a move (`choose_event`). -/
theorem stepRunsDecoded : Obligations.StepRunsDecoded := by
  unfold Obligations.StepRunsDecoded
  refine ⟨?slot, ?ready, ?runs, ?repeats, ?passes, ?short, ?long, ?fails, ?one, ?several, ?event, ?response, ?command, ?issue⟩
  case slot =>
    intro s core n hh hg hd hr hn hbefore c hst htr hlag
    refine State.nextReady_first (State.readyList_eq hh hg hd hr) hn (fun m hm => ?_) ?_ hlag
    · obtain h | h := hbefore m hm
      · exact Bool.and_eq_false_imp.mpr fun h' => absurd (of_decide_eq_true h') h
      · exact Bool.and_eq_false_imp.mpr fun _ => congrArg (!·) h
    · exact Bool.and_eq_true_iff.mpr ⟨decide_eq_true hst, congrArg (!·) htr⟩
  case ready => exact fun s core c h => State.readyList_ready (State.nextReady_mem h)
  case runs =>
    intro s core c r i len t w hs hc hd hh hf hi ho u he
    obtain ⟨v, hb, hstep⟩ := step_slot hs hc hd hh
    rw [hstep, State.runCtx_instr (by rw [hb]; exact hf) hi ho he]
  case repeats =>
    intro s core c r cnt sd sa sb st len t i m u w z hs hc hd hh hf hx hg ho u' he hz
    obtain ⟨v, hb, hstep⟩ := step_slot hs hc hd hh
    rw [hstep, State.runCtx_rep (by rw [hb]; exact hf) hx hg ho he (runRepetition_next hz)]
    rfl
  case passes =>
    intro s core c r cnt sd sa sb st len t u p hs hc hd hh hf hx hp
    obtain ⟨v, hb, hstep⟩ := step_slot hs hc hd hh
    rw [hstep, State.runCtx_pass (by rw [hb]; exact hf) hx hp]
  case short => exact fun s pc key t i ha hst hd => State.fetchAt_short (State.fetchParcel_ok ha hst) hd
  case long =>
    exact fun s pc key key' t u i ha hst hl ha' hst' hd =>
      State.fetchAt_long (State.fetchParcel_ok ha hst) hl (State.fetchParcel_ok ha' hst') hd
  case fails =>
    intro s core c r f t hs hc hd hh hf
    refine ⟨?_, ?_⟩
    · rintro w rfl
      obtain ⟨v, hb, hstep⟩ := step_slot hs hc hd hh
      rw [hstep, State.runCtx_illegal (by rw [hb]; exact hf)]
    · rintro cause a rfl
      exact step_fetch_fails hs hc hd hh hf
  case one =>
    intro s ht hk
    simp only [step, ht, hk, if_true]
  case several =>
    intro s ht hk
    refine ⟨Config.freeNat s.tick.draw.1 % s.tick.choices, Nat.mod_lt _ (by omega), ?_⟩
    simp only [step, ht, Nat.not_le.mpr hk, if_false]
  case event =>
    intro s n i hn hp hc ho
    have hm : s.inOrder n i = n := by simp only [State.inOrder, hc, ho]
    exact State.choose_event hn hm hn hp
  case response => exact fun s n m i j hn hc ho hj hjo hb hp => State.choose_event hn (State.inOrder_response hc ho hj hjo hb) hj hp
  case command => exact fun s n m i j c d hn hc hj hd hlow hb hp => State.choose_event hn (State.inOrder_command hn hc hj hd hlow hb) hj hp
  case issue => exact fun s n k h => State.choose_issue h

end Sys2Proof.Machine

/-!
SUPPORT. Vector results (R214 to R216) and the lane operations on integers and bits (R221, R222).
-/
namespace Sys2Proof.Machine

/-! ### A vector result -/

section
variable (s : State) (d : VNum) (g : Tag) (m : Word) (l : List Nat)

/-- The register that a vector result leaves. -/
theorem State.putV_register : (s.putV d g m l).ctx.v[d] = ⟨packLanes (tagWidth g) (mergeLanes m (tagLanes g) 0
    (lanesOf (tagWidth g) (tagLanes g) (s.ctx.v[d]).val) l), g, true, false,
    if (List.range (tagLanes g)).all (active m (tagLanes g)) then s.taint else s.taint ++ (s.ctx.v[d]).unchk, false⟩ := by
  rw [State.putV_ctx]
  exact Vector.getElem_set_self _

/-- The other registers of a vector result. -/
theorem State.putV_other {e : VNum} (h : e ≠ d) : (s.putV d g m l).ctx.v[e] = s.ctx.v[e] := by
  rw [State.putV_ctx]
  exact Vector.getElem_set_ne d.isLt e.isLt fun he => h (Fin.ext he.symm)

/-- A lane of a vector result. -/
theorem State.putV_lane (hl : l.length = tagLanes g) {i : Nat} (hi : i < tagLanes g) :
    laneOf (tagWidth g) (s.putV d g m l).ctx.v[d].val i =
      if active m (tagLanes g) i then l.getD i 0 % 2 ^ tagWidth g else laneOf (tagWidth g) (s.ctx.v[d]).val i := by
  have hold : (lanesOf (tagWidth g) (tagLanes g) (s.ctx.v[d]).val).length = tagLanes g := lanesOf_length _ _ _
  have hlen := mergeLanes_length m (tagLanes g) _ l 0 (hl.trans hold.symm)
  rw [State.putV_register, lane_pack _ _ _ (by rw [hlen, hold]; exact hi) (by rw [hlen, hold, tag_lanes]),
    mergeLanes_get _ _ _ _ _ _ (hl.trans hold.symm) (by rw [hold]; exact hi), Nat.zero_add]
  split
  · rfl
  · simp [lanesOf, hi, Nat.mod_eq_of_lt (laneOf_lt _ _ _)]

end

/-- Settles O16: the register that a result leaves (`putV_register`) and its lanes (`putV_lane`). -/
theorem vectorWrite : Obligations.VectorWrite := by
  unfold Obligations.VectorWrite
  intro s d g m l hl t r
  have hr : r = _ := s.putV_register d g m l
  refine ⟨?fields, fun hall => ?all, fun ⟨i, hi, hm⟩ => ?some, fun i hi => s.putV_lane d g m l hl hi,
    fun e he => s.putV_other d g m l he, ?gs, ?ks, ?pc, ?mem⟩
  case fields => rw [hr]; exact ⟨rfl, rfl, rfl, rfl⟩
  case all =>
    rw [hr]
    exact if_pos (List.all_eq_true.mpr fun i hi => hall i (List.mem_range.mp hi))
  case some =>
    rw [hr]
    refine if_neg fun hall => ?_
    have h : active m (tagLanes g) i = true := List.all_eq_true.mp hall i (List.mem_range.mpr hi)
    exact absurd (h.symm.trans hm) (by decide)
  case gs => exact (congrArg Ctx.g (s.putV_ctx d g m l)).trans rfl
  case ks => exact (congrArg Ctx.k (s.putV_ctx d g m l)).trans rfl
  case pc => exact (congrArg Ctx.pc (s.putV_ctx d g m l)).trans rfl
  case mem =>
    show (s.putV d g m l).mem = s.mem
    unfold State.putV
    dsimp only
    split <;> rfl

/-! ### Integers of a lane -/

section
variable {w x y : Nat}

/-- The lane's bits of an integer. -/
theorem wrapInt_eq_toNat (w : Nat) (v : Int) : wrapInt w v = (BitVec.ofInt w v).toNat := (BitVec.toNat_ofInt v).symm

/-- Shifting a lane left. -/
theorem lane_sll (hx : x < 2 ^ w) : (if w ≤ y then 0 else x * 2 ^ y % 2 ^ w) = (BitVec.ofNat w x <<< y).toNat := by
  rw [BitVec.toNat_shiftLeft, BitVec.toNat_ofNat, Nat.mod_eq_of_lt hx, Nat.shiftLeft_eq]
  split
  next h => exact (Nat.mod_eq_zero_of_dvd ((Nat.pow_dvd_pow 2 h).mul_left x)).symm
  · rfl

/-- Shifting a lane right. -/
theorem lane_srl (hx : x < 2 ^ w) : (if w ≤ y then 0 else x / 2 ^ y) = (BitVec.ofNat w x >>> y).toNat := by
  rw [BitVec.toNat_ushiftRight, BitVec.toNat_ofNat, Nat.mod_eq_of_lt hx, Nat.shiftRight_eq_div_pow]
  split
  next h => exact (Nat.div_eq_of_lt (hx.trans_le (Nat.pow_le_pow_right (by decide) h))).symm
  · rfl

/-- The quotient of a small integer by a power of two tells its sign. -/
theorem ediv_two_pow_small {v : Int} {n : Nat} (hlo : -(2 ^ n : Nat) ≤ v) (hhi : v < (2 ^ n : Nat)) :
    v / (2 ^ n : Nat) = if v < 0 then -1 else 0 := by
  have hpos : (0 : Int) < (2 ^ n : Nat) := Int.natCast_pos.mpr (Nat.two_pow_pos n)
  split
  next h => exact (Int.ediv_eq_iff_of_pos hpos).mpr ⟨by omega, by omega⟩
  next h => exact Int.ediv_eq_zero_of_lt (by omega) hhi

/-- Shifting a lane right with its sign: amounts above the width do what the width does. -/
theorem lane_sra (hw : 0 < w) : wrapInt w (sxInt w x / (2 ^ Nat.min y w : Nat)) = ((BitVec.ofNat w x).sshiftRight y).toNat := by
  have hsmall : ∀ n, w ≤ n → -(2 ^ n : Nat) ≤ (BitVec.ofNat w x).toInt ∧ (BitVec.ofNat w x).toInt < (2 ^ n : Nat) := by
    intro n hn
    have h1 := (BitVec.ofNat w x).le_toInt
    have h2 := (BitVec.ofNat w x).toInt_lt
    have h3 : (2 : Int) ^ (w - 1) ≤ (2 ^ n : Nat) := by exact_mod_cast Nat.pow_le_pow_right (by decide) (by omega)
    omega
  have hdiv : (BitVec.ofNat w x).toInt / (2 ^ Nat.min y w : Nat) = (BitVec.ofNat w x).toInt / (2 ^ y : Nat) := by
    obtain h | h := Nat.le_total y w
    · rw [show Nat.min y w = y from Nat.min_eq_left h]
    · rw [show Nat.min y w = w from Nat.min_eq_right h, ediv_two_pow_small (hsmall w le_rfl).1 (hsmall w le_rfl).2,
        ediv_two_pow_small (hsmall y h).1 (hsmall y h).2]
  rw [sxInt_eq w x hw, hdiv, BitVec.sshiftRight_eq, wrapInt_eq_toNat, Int.shiftRight_eq_div_pow]

/-- Rotating a lane left. -/
theorem lane_rol (hw : 0 < w) (hx : x < 2 ^ w) :
    (x * 2 ^ (y % w) + x / 2 ^ (w - y % w)) % 2 ^ w = ((BitVec.ofNat w x).rotateLeft (y % w)).toNat := by
  have hr : y % w < w := Nat.mod_lt _ hw
  generalize y % w = r at hr ⊢
  have hsplit : 2 ^ w = 2 ^ (w - r) * 2 ^ r := by rw [← Nat.pow_add]; congr 1; omega
  have hhigh : x / 2 ^ (w - r) < 2 ^ r := Nat.div_lt_of_lt_mul (hsplit ▸ hx)
  have hlow : x * 2 ^ r % 2 ^ w = x % 2 ^ (w - r) * 2 ^ r := by rw [hsplit, Nat.mul_mod_mul_right]
  have hsum : x % 2 ^ (w - r) * 2 ^ r + x / 2 ^ (w - r) < 2 ^ w := by
    rw [hsplit]
    calc x % 2 ^ (w - r) * 2 ^ r + x / 2 ^ (w - r) < x % 2 ^ (w - r) * 2 ^ r + 2 ^ r := Nat.add_lt_add_left hhigh _
      _ = (x % 2 ^ (w - r) + 1) * 2 ^ r := (Nat.succ_mul _ _).symm
      _ ≤ 2 ^ (w - r) * 2 ^ r := Nat.mul_le_mul_right _ (Nat.mod_lt _ (Nat.two_pow_pos _))
  rw [BitVec.toNat_rotateLeft, Nat.mod_eq_of_lt hr, BitVec.toNat_ofNat, Nat.mod_eq_of_lt hx, Nat.shiftLeft_eq, Nat.shiftRight_eq_div_pow,
    ← Nat.mod_add_mod, hlow, Nat.mod_eq_of_lt hsum, ← Nat.shiftLeft_eq, Nat.shiftLeft_add_eq_or_of_lt hhigh]

/-- The bits of one lane that another has not. -/
theorem lane_andn (hx : x < 2 ^ w) : x &&& (2 ^ w - 1 - y % 2 ^ w) = (BitVec.ofNat w x &&& ~~~BitVec.ofNat w y).toNat := by
  rw [BitVec.toNat_and, BitVec.toNat_not, BitVec.toNat_ofNat, BitVec.toNat_ofNat, Nat.mod_eq_of_lt hx]

end

/-- The tags of the natural numbers. -/
theorem isSigned_of_isInt {g : Tag} (h : isInt g = true) : isSigned g = !decide (g = .n8 ∨ g = .n16 ∨ g = .n32) := by
  revert h; cases g <;> decide

/-- The width of a lane is positive. -/
theorem tagWidth_pos (g : Tag) : 0 < tagWidth g := by cases g <;> decide

/-- The integer of a lane (R44). -/
theorem laneInt_eq {g : Tag} (h : isInt g = true) {x : Nat} (hx : x < 2 ^ tagWidth g) :
    laneInt g x = if g = .n8 ∨ g = .n16 ∨ g = .n32 then (x : Int) else (BitVec.ofNat (tagWidth g) x).toInt := by
  rw [laneInt, isSigned_of_isInt h, sxInt_eq _ _ (tagWidth_pos g), Nat.mod_eq_of_lt hx]
  by_cases hn : g = .n8 ∨ g = .n16 ∨ g = .n32
  · simp [hn]
  · simp [hn]

/-- Clamping to an integer tag (R44). -/
theorem saturate_eq {g : Tag} (h : isInt g = true) (v : Int) : saturate g v =
    max (if g = .n8 ∨ g = .n16 ∨ g = .n32 then (0 : Int) else -(2 ^ (tagWidth g - 1) : Nat))
      (min v (if g = .n8 ∨ g = .n16 ∨ g = .n32 then (2 ^ tagWidth g : Nat) - 1 else (2 ^ (tagWidth g - 1) : Nat) - 1)) := by
  rw [saturate, isSigned_of_isInt h]
  by_cases hn : g = .n8 ∨ g = .n16 ∨ g = .n32
  · simp [hn]
  · simp [hn]

section
variable {g : Tag} {x : Nat} (hx : x < 2 ^ tagWidth g) (y : Nat)
include hx

/-- The shifts of a lane (R222). -/
theorem laneIntOp_sll : laneIntOp .sll g x y = (BitVec.ofNat (tagWidth g) x <<< y).toNat := lane_sll hx
theorem laneIntOp_srl : laneIntOp .srl g x y = (BitVec.ofNat (tagWidth g) x >>> y).toNat := lane_srl hx
omit hx in
theorem laneIntOp_sra (x : Nat) : laneIntOp .sra g x y = ((BitVec.ofNat (tagWidth g) x).sshiftRight y).toNat := lane_sra (tagWidth_pos g)
theorem laneIntOp_rol : laneIntOp .rol g x y = ((BitVec.ofNat (tagWidth g) x).rotateLeft (y % tagWidth g)).toNat := lane_rol (tagWidth_pos g) hx
theorem laneIntOp_andn : laneIntOp .andn g x y = (BitVec.ofNat (tagWidth g) x &&& ~~~BitVec.ofNat (tagWidth g) y).toNat := lane_andn hx

end

/-! ### Two-source lane operations -/

/-- The meaning of an operation on the lanes of a tag. -/
def LaneOp.lane (op : LaneOp) (g : Tag) : Nat → Nat → Nat := if op.bitwise || isInt g then laneIntOp op g else laneFltOp op g

/-- On an integer tag it is the integer operation. -/
theorem LaneOp.lane_of_isInt (op : LaneOp) {g : Tag} (h : isInt g = true) (x y : Nat) : op.lane g x y = laneIntOp op g x y := by
  rw [LaneOp.lane, h, Bool.or_true, if_pos rfl]

/-- A bitwise operation is the same on every tag. -/
theorem LaneOp.lane_of_bitwise {op : LaneOp} (h : op.bitwise = true) {g : Tag} (x y : Nat) : op.lane g x y = laneIntOp op g x y := by
  rw [LaneOp.lane, h, Bool.true_or, if_pos rfl]

section
variable {s : State} {a b : VNum}

/-- A two-source lane instruction whose sources can be read and have the right tags. -/
theorem vop2_next (ha : s.vOk a) (hb : s.vOk b) {op : LaneOp} (hA : op.okA s.ctx.v[a].tag = true)
    (hB : op.okB s.ctx.v[a].tag s.ctx.v[b].tag = true) (d : VNum) (k : KNum) (fa fb : Bool) :
    vop2 op d a b k fa fb s = .next ((((s.readsV [a, b]).taintK k).putV d s.ctx.v[a].tag (s.getK k)
      ((List.range (tagLanes s.ctx.v[a].tag)).map fun i =>
        op.lane s.ctx.v[a].tag (laneOf (tagWidth s.ctx.v[a].tag) s.ctx.v[a].val i)
          (laneOf (tagWidth s.ctx.v[a].tag) s.ctx.v[b].val i))).finish 4) := by
  rw [vop2, s.srcV_ok fa a _ ha, State.needTag_ok _ _ _ hA, (s.readsV [a]).srcV_ok fb b _ hb, State.readsV_ctx, State.readsV_readsV,
    State.needTag_ok _ _ _ hB, State.mask_eq]
  dsimp only
  rw [zipWith_lanes]
  rfl

/-- Lanes of a vector result that agree. -/
theorem lanes_congr {n w : Nat} {x y : VWord} {f h : Nat → Nat → Nat} (hf : ∀ x y, x < 2 ^ w → y < 2 ^ w → f x y = h x y) :
    ((List.range n).map fun i => f (laneOf w x i) (laneOf w y i)) = (List.range n).map fun i => h (laneOf w x i) (laneOf w y i) :=
  List.map_congr_left fun i _ => hf _ _ (laneOf_lt w x i) (laneOf_lt w y i)

/-- A two-source lane instruction with the values of its table. -/
theorem vop2_value (ha : s.vOk a) (hb : s.vOk b) {op : LaneOp} (hA : op.okA s.ctx.v[a].tag = true)
    (hB : op.okB s.ctx.v[a].tag s.ctx.v[b].tag = true) {f : Nat → Nat → Nat}
    (hf : ∀ x y, x < 2 ^ tagWidth s.ctx.v[a].tag → y < 2 ^ tagWidth s.ctx.v[a].tag → op.lane s.ctx.v[a].tag x y = f x y)
    (d : VNum) (k : KNum) (fa fb : Bool) :
    vop2 op d a b k fa fb s = .next ((((s.readsV [a, b]).taintK k).putV d s.ctx.v[a].tag (s.getK k)
      ((List.range (tagLanes s.ctx.v[a].tag)).map fun i => f (laneOf (tagWidth s.ctx.v[a].tag) s.ctx.v[a].val i)
          (laneOf (tagWidth s.ctx.v[a].tag) s.ctx.v[b].val i))).finish 4) := by
  rw [vop2_next ha hb hA hB, lanes_congr hf]

end

/-- Settles O17: each operation's lanes are those of its table, on an integer tag (`laneInt_eq`), shifted, or bit by bit. -/
theorem vectorIntegers : Obligations.VectorIntegers := by
  unfold Obligations.VectorIntegers
  intro s d a b k fa fb ha hb g h w res I lo hi B
  refine ⟨fun hg hh => ?ints, fun hg hh hw => ?shifts, ?bits⟩
  case ints =>
    have hB : (h == g) = true := beq_iff_eq.mpr hh
    have hI : ∀ x, x < 2 ^ w → laneInt g x = I x := fun x hx => laneInt_eq hg hx
    have tab : ∀ {i : Instr} (op : LaneOp) (f : Nat → Nat → Nat), exec i s = vop2 op d a b k fa fb s → op.okA g = true →
        op.okB g h = true → (∀ x y, x < 2 ^ w → y < 2 ^ w → laneIntOp op g x y = f x y) → exec i s = res f := by
      intro i op f hi hA hB hf
      exact hi.trans (vop2_value (f := f) ha hb hA hB (fun x y hx hy => (op.lane_of_isInt hg x y).trans (hf x y hx hy)) d k fa fb)
    have arith : ∀ {i : Instr} (op : LaneOp) (f : Int → Int → Int), exec i s = vop2 op d a b k fa fb s → op.okA g = true →
        op.okB g h = true → (∀ x y, laneIntOp op g x y = wrapInt w (f (laneInt g x) (laneInt g y))) →
        exec i s = res fun x y => B (f (I x) (I y)) := by
      intro i op f hi hA hB hf
      exact tab op (fun x y => B (f (I x) (I y))) hi hA hB fun x y hx hy => by rw [hf, hI x hx, hI y hy, wrapInt_eq_toNat]
    have okAll : (isInt g || isFlt g || isF8 g) = true := by rw [hg]; rfl
    refine ⟨arith .add (· + ·) rfl okAll hB fun _ _ => rfl, arith .sub (· - ·) rfl okAll hB fun _ _ => rfl,
      arith .adds (fun x y => max lo (min (x + y) hi)) rfl hg hB fun x y => ?adds,
      arith .subs (fun x y => max lo (min (x - y) hi)) rfl hg hB fun x y => ?subs,
      arith .mul (· * ·) rfl okAll hB fun _ _ => rfl, arith .mulh (fun x y => x * y / (2 ^ w : Nat)) rfl hg hB fun _ _ => rfl,
      tab .min (fun x y => if I x ≤ I y then x else y) rfl okAll hB fun x y hx hy => ?min, tab .max (fun x y => if I x ≤ I y then y else x) rfl okAll hB fun x y hx hy => ?max⟩
    case adds => exact congrArg (wrapInt w) (saturate_eq hg _)
    case subs => exact congrArg (wrapInt w) (saturate_eq hg _)
    case min => rw [laneIntOp, hI x hx, hI y hy]
    case max => rw [laneIntOp, hI x hx, hI y hy]
  case shifts =>
    have hB : (isInt h && decide (tagWidth h = tagWidth g)) = true := Bool.and_eq_true_iff.mpr ⟨hh, decide_eq_true hw⟩
    have tab : ∀ (op : LaneOp) (f : Nat → Nat → Nat), op.okA g = true →
        op.okB g h = true → (∀ x y, x < 2 ^ w → laneIntOp op g x y = f x y) → vop2 op d a b k fa fb s = res f := by
      intro op f hA hB hf
      exact vop2_value ha hb hA hB (fun x y hx _ => (op.lane_of_isInt hg x y).trans (hf x y hx)) d k fa fb
    exact ⟨(tab .sll _ hg hB fun _ y hx => laneIntOp_sll hx y :), (tab .srl _ hg hB fun _ y hx => laneIntOp_srl hx y :),
      (tab .sra _ hg hB fun x y _ => laneIntOp_sra y x :), (tab .rol _ hg hB fun _ y hx => laneIntOp_rol hx y :)⟩
  case bits =>
    have tab : ∀ (op : LaneOp) (f : Nat → Nat → Nat), op.bitwise = true →
        (∀ x y, x < 2 ^ w → laneIntOp op g x y = f x y) → vop2 op d a b k fa fb s = res f := by
      intro op f hop hf
      exact vop2_value (f := f) ha hb (by rw [LaneOp.okA, hop]; rfl) (by rw [LaneOp.okB, hop]; rfl)
        (fun x y hx _ => (LaneOp.lane_of_bitwise hop x y).trans (hf x y hx)) d k fa fb
    exact ⟨(tab .and _ rfl fun _ _ _ => rfl :), (tab .or _ rfl fun _ _ _ => rfl :), (tab .xor _ rfl fun _ _ _ => rfl :),
      (tab .andn _ rfl fun _ y hx => laneIntOp_andn hx y :)⟩

end Sys2Proof.Machine

/-!
SUPPORT. Mask operations (R236) and the movement of lanes (R232 to R235).
-/
namespace Sys2Proof.Machine

/-! ### Mask registers -/

/-- Reading a mask changes none. -/
@[simp] theorem State.getK_taintK (s : State) (a b : KNum) : (s.taintK a).getK b = s.getK b := by
  unfold State.getK
  rw [State.taintK_ctx]

/-- A mask operation of two sources. -/
theorem kop2_next (f : Word → Word → Word) (d a b : KNum) (s : State) :
    kop2 f d a b s = .next ((((s.taintK a).taintK b).setK d (f (s.getK a) (s.getK b))).finish 4) := by
  rw [kop2, State.mask_eq, State.mask_eq, State.getK_taintK]

/-- Counting the bits of a lane is counting those of a number. -/
theorem popLane_eq_popNat : ∀ w x : Nat, popLane w x = popNat w x
  | 0, _ => rfl
  | w + 1, x => by rw [popLane, popNat, popLane_eq_popNat w]

/-- The lowest one bit is the number of trailing zeros. -/
theorem lowestBit_eq_ctzNat : ∀ w x : Nat, lowestBit w x = ctzNat w x
  | 0, _ => rfl
  | w + 1, x => by rw [lowestBit, ctzNat, lowestBit_eq_ctzNat w]

/-- A mask register written (R215). -/
theorem State.setK_ctx_of_ne {s : State} {d : KNum} (hd : d ≠ 0) (v : Word) :
    (s.setK d v).ctx = { s.ctx.mend (3 * d.val) with k := s.ctx.k.set d v, ku := s.ctx.ku.set d s.taint } := by
  rw [State.setK, if_neg hd]
  exact State.ctx_upd s _

/-- Settles O23: each operation reads its masks (`kop2_next`); counting and finding bits are `popNat_eq` and `ctzNat_spec`. -/
theorem maskOperations : Obligations.MaskOperations := by
  unfold Obligations.MaskOperations
  intro s d a b r fa hr A B w
  refine ⟨⟨rfl, fun v => rfl⟩, kop2_next _ d a b s, kop2_next _ d a b s, kop2_next _ d a b s, kop2_next _ d a b s, rfl,
    congrArg _ (s.srcG_ok fa r _ hr), rfl, ?pop, ⟨lowestBit 64 A.toNat, rfl, ?first⟩, fun v u hd hu => ?written⟩
  case pop => exact congrArg (fun n => Host.Outcome.next ((s.taintK a).putG 4 r (BitVec.ofNat 64 n))) ((popLane_eq_popNat 64 _).trans (popNat_eq 64 A.toNat))
  case first =>
    rw [lowestBit_eq_ctzNat]
    exact ctzNat_spec 64 A.toNat
  case written =>
    subst hu
    rw [State.setK_ctx_of_ne hd]
    exact ⟨Vector.getElem_set_self _, fun e he => Vector.getElem_set_ne d.isLt e.isLt fun h => he (Fin.ext h.symm), rfl, rfl⟩

/-! ### Slides and permutations -/

/-- A slide or rotate of a source that can be read. -/
theorem vslide_next {s : State} {a : VNum} (ha : s.vOk a) (src : Nat → Nat → Option Nat) (d : VNum) (k : KNum) (fa : Bool) :
    vslide src d a k fa s = .next ((((s.readsV [a]).taintK k).putV d s.ctx.v[a].tag (s.getK k) ((List.range (tagLanes s.ctx.v[a].tag)).map
      fun i => ((src (tagLanes s.ctx.v[a].tag) i).map (laneOf (tagWidth s.ctx.v[a].tag) s.ctx.v[a].val)).getD 0)).finish 4) := by
  rw [vslide, s.srcV_ok fa a _ ha, State.mask_eq]
  refine congrArg (fun l => Host.Outcome.next ((((s.readsV [a]).taintK k).putV d s.ctx.v[a].tag (s.getK k) l).finish 4))
    (List.map_congr_left fun i _ => ?_)
  cases src (tagLanes s.ctx.v[a].tag) i <;> rfl

/-- The index tag of a permute (R219). -/
theorem permIdx_of {g h : Tag} (hp : if g = .raw then h = .i64 else isInt h = true ∧ tagWidth h = tagWidth g) : permIdx g h = true := by
  unfold permIdx
  split at hp
  next hg => rw [if_pos hg]; exact beq_iff_eq.mpr hp
  next hg => rw [if_neg hg]; exact Bool.and_eq_true_iff.mpr ⟨hp.1, decide_eq_true hp.2⟩

/-! ### Zips -/

/-- The elements of two interleaved lists of one length. -/
theorem interleave_getElem? : ∀ (x y : List Nat), x.length = y.length → ∀ i,
    (interleave x y)[i]? = if i % 2 = 0 then x[i / 2]? else y[i / 2]?
  | [], [], _, i => by simp [interleave]
  | a :: x, b :: y, h, 0 => rfl
  | a :: x, b :: y, h, 1 => rfl
  | a :: x, b :: y, h, i + 2 => by
    have ih := interleave_getElem? x y (Nat.succ.inj h) i
    rw [interleave, List.getElem?_cons_succ, List.getElem?_cons_succ, ih, Nat.add_mod_right, Nat.add_div_right _ (by decide),
      List.getElem?_cons_succ, List.getElem?_cons_succ]

/-- Every second element of a list. -/
theorem evens_getElem? : ∀ (l : List Nat) (i : Nat), (evens l)[i]? = l[2 * i]?
  | [], _ => by simp [evens]
  | [a], i => by cases i <;> simp [evens]
  | a :: b :: r, 0 => rfl
  | a :: b :: r, i + 1 => by
    rw [evens, List.getElem?_cons_succ, evens_getElem? r i]
    rfl

/-- Lane i of a register, as a list has it. -/
theorem lanesOf_getElem? (w n : Nat) (v : VWord) (i : Nat) : (lanesOf w n v)[i]? = if i < n then some (laneOf w v i) else none := by
  unfold lanesOf
  split
  next h => rw [List.getElem?_map, List.getElem?_range h]; rfl
  next h => exact List.getElem?_eq_none (by simpa using h)

/-- Elements of a list made of lanes. -/
theorem range_map_getElem? (n : Nat) (f : Nat → Nat) (i : Nat) : ((List.range n).map f)[i]? = if i < n then some (f i) else none := by
  split
  next h => rw [List.getElem?_map, List.getElem?_range h]; rfl
  next h => exact List.getElem?_eq_none (by simpa using h)

section
variable (w n : Nat) (x y : VWord)

/-- The low half of an interleaving. -/
theorem interleave_take : (interleave (lanesOf w n x) (lanesOf w n y)).take n =
    (List.range n).map fun i => if i % 2 = 0 then laneOf w x (i / 2) else laneOf w y (i / 2) := by
  refine List.ext_getElem? fun i => ?_
  rw [List.getElem?_take, interleave_getElem? _ _ (by rw [lanesOf_length, lanesOf_length]), lanesOf_getElem?, lanesOf_getElem?, range_map_getElem?]
  by_cases h : i < n
  · simp only [h, if_true, show i / 2 < n by omega]
    split <;> rfl
  · simp only [h, if_false]

/-- The high half of an interleaving of an even number of lanes. -/
theorem interleave_drop (hn : n % 2 = 0) : (interleave (lanesOf w n x) (lanesOf w n y)).drop n =
    (List.range n).map fun i => if i % 2 = 0 then laneOf w x (n / 2 + i / 2) else laneOf w y (n / 2 + i / 2) := by
  refine List.ext_getElem? fun i => ?_
  rw [List.getElem?_drop, interleave_getElem? _ _ (by rw [lanesOf_length, lanesOf_length]), lanesOf_getElem?, lanesOf_getElem?, range_map_getElem?,
    show (n + i) % 2 = i % 2 by omega, show (n + i) / 2 = n / 2 + i / 2 by omega]
  by_cases h : i < n
  · simp only [h, if_true, show n / 2 + i / 2 < n by omega]
    split <;> rfl
  · simp only [h, show ¬n / 2 + i / 2 < n by omega, if_false, ite_self]

/-- An element of two registers' lanes, one after the other. -/
theorem lanesOf_append_getElem? (i : Nat) : (lanesOf w n x ++ lanesOf w n y)[i]? =
    if i < n then some (laneOf w x i) else if i < 2 * n then some (laneOf w y (i - n)) else none := by
  rw [List.getElem?_append, lanesOf_length, lanesOf_getElem?, lanesOf_getElem?]
  by_cases h : i < n
  · simp only [h, if_true]
  · simp only [h, if_false]
    congr 1
    simp only [eq_iff_iff]
    omega

/-- The even lanes of two registers. -/
theorem evens_append : evens (lanesOf w n x ++ lanesOf w n y) =
    (List.range n).map fun i => if 2 * i < n then laneOf w x (2 * i) else laneOf w y (2 * i - n) := by
  refine List.ext_getElem? fun i => ?_
  rw [evens_getElem?, lanesOf_append_getElem?, range_map_getElem?]
  by_cases h : i < n
  · simp only [h, if_true, show 2 * i < 2 * n by omega]
    split <;> rfl
  · simp only [h, show ¬2 * i < n by omega, show ¬2 * i < 2 * n by omega, if_false]

/-- The odd lanes of two registers. -/
theorem odds_append : evens ((lanesOf w n x ++ lanesOf w n y).drop 1) =
    (List.range n).map fun i => if 2 * i + 1 < n then laneOf w x (2 * i + 1) else laneOf w y (2 * i + 1 - n) := by
  refine List.ext_getElem? fun i => ?_
  rw [evens_getElem?, List.getElem?_drop, Nat.add_comm 1, lanesOf_append_getElem?, range_map_getElem?]
  by_cases h : i < n
  · simp only [h, if_true, show 2 * i + 1 < 2 * n by omega]
    split <;> rfl
  · simp only [h, show ¬2 * i + 1 < n by omega, show ¬2 * i + 1 < 2 * n by omega, if_false]

end

/-- The number of lanes is even. -/
theorem tagLanes_even (g : Tag) : tagLanes g % 2 = 0 := by cases g <;> decide

/-- A zip or unzip of sources that can be read. -/
theorem vzipOp_next {s : State} {a b : VNum} (ha : s.vOk a) (hb : s.vOk b) (hw : tagWidth s.ctx.v[b].tag = tagWidth s.ctx.v[a].tag)
    {f : List Nat → List Nat → List Nat × List Nat} {lo hi : List Nat}
    (hf : f (lanesOf (tagWidth s.ctx.v[a].tag) (tagLanes s.ctx.v[a].tag) s.ctx.v[a].val)
      (lanesOf (tagWidth s.ctx.v[a].tag) (tagLanes s.ctx.v[a].tag) s.ctx.v[b].val) = (lo, hi)) (d : VNum) (fa fb : Bool) :
    vzipOp f d a b fa fb s = .next ((((s.readsV [a, b]).setV d s.ctx.v[a].tag (packLanes (tagWidth s.ctx.v[a].tag) lo)).setV (vAt d 1) s.ctx.v[a].tag
      (packLanes (tagWidth s.ctx.v[a].tag) hi)).finish 4) := by
  rw [vzipOp, s.srcV_ok fa a _ ha, (s.readsV [a]).srcV_ok fb b _ hb, State.readsV_ctx, State.readsV_readsV,
    State.needTag_ok _ _ _ (decide_eq_true hw.symm)]
  dsimp only
  rw [hf]
  rfl

section
variable {s : State} {a b : VNum} (ha : s.vOk a) (hb : s.vOk b) (hw : tagWidth s.ctx.v[b].tag = tagWidth s.ctx.v[a].tag)
include ha hb hw

/-- A zip interleaves (R234). -/
theorem execVzip_next (d : VNum) (fa fb : Bool) : execVzip d a b fa fb s = .next ((((s.readsV [a, b]).setV d s.ctx.v[a].tag
    (packLanes (tagWidth s.ctx.v[a].tag) ((List.range (tagLanes s.ctx.v[a].tag)).map fun i =>
      if i % 2 = 0 then laneOf (tagWidth s.ctx.v[a].tag) s.ctx.v[a].val (i / 2) else laneOf (tagWidth s.ctx.v[a].tag) s.ctx.v[b].val (i / 2)))).setV
    (vAt d 1) s.ctx.v[a].tag (packLanes (tagWidth s.ctx.v[a].tag) ((List.range (tagLanes s.ctx.v[a].tag)).map fun i =>
      if i % 2 = 0 then laneOf (tagWidth s.ctx.v[a].tag) s.ctx.v[a].val (tagLanes s.ctx.v[a].tag / 2 + i / 2)
      else laneOf (tagWidth s.ctx.v[a].tag) s.ctx.v[b].val (tagLanes s.ctx.v[a].tag / 2 + i / 2)))).finish 4) := by
  refine vzipOp_next ha hb hw ?_ d fa fb
  dsimp only
  rw [lanesOf_length, interleave_take, interleave_drop _ _ _ _ (tagLanes_even _)]

/-- An unzip separates the even lanes from the odd ones (R234). -/
theorem execVunzip_next (d : VNum) (fa fb : Bool) : execVunzip d a b fa fb s = .next ((((s.readsV [a, b]).setV d s.ctx.v[a].tag
    (packLanes (tagWidth s.ctx.v[a].tag) ((List.range (tagLanes s.ctx.v[a].tag)).map fun i =>
      if 2 * i < tagLanes s.ctx.v[a].tag then laneOf (tagWidth s.ctx.v[a].tag) s.ctx.v[a].val (2 * i)
      else laneOf (tagWidth s.ctx.v[a].tag) s.ctx.v[b].val (2 * i - tagLanes s.ctx.v[a].tag)))).setV
    (vAt d 1) s.ctx.v[a].tag (packLanes (tagWidth s.ctx.v[a].tag) ((List.range (tagLanes s.ctx.v[a].tag)).map fun i =>
      if 2 * i + 1 < tagLanes s.ctx.v[a].tag then laneOf (tagWidth s.ctx.v[a].tag) s.ctx.v[a].val (2 * i + 1)
      else laneOf (tagWidth s.ctx.v[a].tag) s.ctx.v[b].val (2 * i + 1 - tagLanes s.ctx.v[a].tag)))).finish 4) := by
  refine vzipOp_next ha hb hw ?_ d fa fb
  rw [evens_append, odds_append]

end

/-- Settles O22: slides (`vslide_next`), permutations of the lanes that the index register names, zips (`execVzip_next`,
`execVunzip_next`), tag forms and moves. -/
theorem laneMoves : Obligations.LaneMoves := by
  unfold Obligations.LaneMoves
  intro s d a b r k fa fb amt tag t ha hb ha1 hr g h w n m A B res pair
  refine ⟨?sldu, ?sldd, vslide_next ha (fun n i => some ((i + amt.toNat) % n)) d k fa, fun hg hp => ⟨?perm, fun hz => ?perm2⟩, fun hw => ⟨?zip, ?unzip⟩,
    fun ht => ⟨?tagw, ?bcast⟩, ?tag, ?movg⟩
  case sldu =>
    refine (vslide_next ha (fun _ i => if amt.toNat ≤ i then some (i - amt.toNat) else none) d k fa).trans ?_
    have h : ∀ i, ((if amt.toNat ≤ i then some (i - amt.toNat) else none).map A).getD 0 = if amt.toNat ≤ i then A (i - amt.toNat) else 0 := by
      intro i; split <;> rfl
    exact congrArg (fun f => res [a] f) (funext h)
  case sldd =>
    refine (vslide_next ha (fun n i => if i + amt.toNat < n then some (i + amt.toNat) else none) d k fa).trans ?_
    have h : ∀ i, ((if i + amt.toNat < n then some (i + amt.toNat) else none).map A).getD 0 = if i + amt.toNat < n then A (i + amt.toNat) else 0 := by
      intro i; split <;> rfl
    exact congrArg (fun f => res [a] f) (funext h)
  case perm =>
    show execVperm d a b k fa fb s = _
    rw [execVperm, s.srcV_ok fa a _ ha, State.needTag_ok _ _ _ (bne_iff_ne.mpr hg), (s.readsV [a]).srcV_ok fb b _ hb, State.readsV_ctx,
      State.readsV_readsV, State.needTag_ok _ _ _ (permIdx_of hp), State.mask_eq]
    dsimp only
    rw [map_lanes]
    rfl
  case perm2 =>
    show execVperm2 d a b k fa fb s = _
    rw [execVperm2, s.srcV_ok fa a _ ha, State.needTag_ok _ _ _ (bne_iff_ne.mpr hg), (s.readsV [a]).srcV_ok fb b _ hb, State.readsV_ctx,
      State.readsV_readsV, State.needTag_ok _ _ _ (permIdx_of hp), (s.readsV _).srcV_ok false (vAt a 1) _ ha1, State.readsV_ctx,
      State.readsV_readsV, State.needTag_ok _ _ _ (beq_iff_eq.mpr hz), State.mask_eq]
    dsimp only
    rw [map_lanes]
    rfl
  case zip => exact execVzip_next ha hb hw d fa fb
  case unzip => exact execVunzip_next ha hb hw d fa fb
  case tagw =>
    show execVtagw d a tag fa s = _
    rw [execVtagw, ht]
    exact congrArg Host.Outcome.next (s.srcV_ok fa a _ ha)
  case bcast =>
    show execVbcast d r tag k fa s = _
    rw [execVbcast, ht]
    dsimp only
    rw [s.srcG_ok fa r _ hr, State.mask_eq]
    rfl
  case tag => exact congrArg Host.Outcome.next (s.srcV_ok fa a _ ha)
  case movg =>
    refine (congrArg Host.Outcome.next (s.srcV_ok fa a _ ha)).trans ?_
    rw [BitVec.setWidth_eq_extractLsb' (by decide)]

end Sys2Proof.Machine

/-!
SUPPORT. The pairwise tree (R60) and the integer reductions (R227).
-/
namespace Sys2Proof.Machine

/-! ### The tree -/

section
variable {α : Type} (f : α → α → α)

/-- A level halves the number of elements. -/
theorem pairUp_length : ∀ l : List α, (pairUp f l).length = (l.length + 1) / 2
  | [] => by simp [pairUp]
  | [_] => by simp [pairUp]
  | x :: y :: r => by
    rw [pairUp, List.length_cons, pairUp_length r, List.length_cons, List.length_cons]
    omega

/-- Enough levels leave one element. -/
theorem treeLevels_single : ∀ (n : Nat) (l : List α), 0 < l.length → l.length ≤ 2 ^ n → ∃ x, treeLevels f n l = [x]
  | 0, l, h0, h => List.length_eq_one_iff.mp (Nat.le_antisymm h h0)
  | n + 1, l, h0, h => by
    refine treeLevels_single n (pairUp f l) ?_ ?_
    · rw [pairUp_length]; omega
    · rw [pairUp_length]; rw [Nat.pow_succ] at h; omega

section
variable (z : α) {l : List α} (h0 : 0 < l.length) (h : l.length ≤ 128)
include h0 h

/-- The tree's value is the element that its levels leave. -/
theorem tree_levels : treeLevels f 7 l = [tree f z l] := by
  obtain ⟨x, hx⟩ := treeLevels_single f 7 l h0 h
  rw [tree, hx]
  rfl

end

/-- A level keeps the value of an associative fold. -/
theorem pairUp_foldr (e : α) (ha : ∀ x y z, f (f x y) z = f x (f y z)) : ∀ l : List α, (pairUp f l).foldr f e = l.foldr f e
  | [] => rfl
  | [_] => rfl
  | x :: y :: r => by rw [pairUp, List.foldr_cons, List.foldr_cons, List.foldr_cons, pairUp_foldr e ha r, ha]

/-- Levels keep the value of an associative fold. -/
theorem treeLevels_foldr (e : α) (ha : ∀ x y z, f (f x y) z = f x (f y z)) : ∀ (n : Nat) (l : List α),
    (treeLevels f n l).foldr f e = l.foldr f e
  | 0, _ => rfl
  | n + 1, l => by rw [treeLevels, treeLevels_foldr e ha n, pairUp_foldr f e ha]

/-- The tree of an associative operation is its fold. -/
theorem tree_foldr {e : α} (ha : ∀ x y z, f (f x y) z = f x (f y z)) (he : ∀ x, f x e = x) (z : α) {l : List α} (h0 : 0 < l.length)
    (h : l.length ≤ 128) : tree f z l = l.foldr f e := by
  rw [← treeLevels_foldr f e ha 7 l, tree_levels f z h0 h]
  exact (he _).symm

/-- A level of an operation that takes one of its operands takes elements of the list, and loses none that it does not bound. -/
theorem pairUp_choice {le : α → α → Prop} (hc : ∀ x y, f x y = x ∨ f x y = y) (hl : ∀ x y, le x (f x y)) (hr : ∀ x y, le y (f x y))
    (hrefl : ∀ x, le x x) : ∀ l : List α, (∀ x ∈ pairUp f l, x ∈ l) ∧ ∀ x ∈ l, ∃ y ∈ pairUp f l, le x y
  | [] => ⟨fun _ h => h, fun _ h => absurd h List.not_mem_nil⟩
  | [a] => ⟨fun _ h => h, fun x h => ⟨x, h, hrefl x⟩⟩
  | a :: b :: r => by
    obtain ⟨hmem, hbound⟩ := pairUp_choice hc hl hr hrefl r
    refine ⟨fun x hx => ?_, fun x hx => ?_⟩
    · obtain rfl | hx := List.mem_cons.mp hx
      · obtain h | h := hc a b
        · rw [h]; exact List.mem_cons_self ..
        · rw [h]; exact List.mem_cons_of_mem _ (List.mem_cons_self ..)
      · exact List.mem_cons_of_mem _ (List.mem_cons_of_mem _ (hmem x hx))
    · obtain rfl | hx := List.mem_cons.mp hx
      · exact ⟨_, List.mem_cons_self .., hl x b⟩
      obtain rfl | hx := List.mem_cons.mp hx
      · exact ⟨_, List.mem_cons_self .., hr a x⟩
      · obtain ⟨y, hy, hxy⟩ := hbound x hx
        exact ⟨y, List.mem_cons_of_mem _ hy, hxy⟩

/-- The tree of such an operation is an element of the list that bounds all. -/
theorem tree_choice {le : α → α → Prop} (hc : ∀ x y, f x y = x ∨ f x y = y) (hl : ∀ x y, le x (f x y)) (hr : ∀ x y, le y (f x y))
    (hrefl : ∀ x, le x x) (htrans : ∀ x y z, le x y → le y z → le x z) (z : α) {l : List α} (h0 : 0 < l.length) (h : l.length ≤ 128) :
    tree f z l ∈ l ∧ ∀ x ∈ l, le x (tree f z l) := by
  have levels : ∀ (n : Nat) (l : List α), (∀ x ∈ treeLevels f n l, x ∈ l) ∧ ∀ x ∈ l, ∃ y ∈ treeLevels f n l, le x y := by
    intro n
    induction n with
    | zero => exact fun l => ⟨fun _ h => h, fun x h => ⟨x, h, hrefl x⟩⟩
    | succ n ih =>
      intro l
      obtain ⟨hmem, hbound⟩ := pairUp_choice f hc hl hr hrefl l
      obtain ⟨hmem', hbound'⟩ := ih (pairUp f l)
      refine ⟨fun x hx => hmem x (hmem' x hx), fun x hx => ?_⟩
      obtain ⟨y, hy, hxy⟩ := hbound x hx
      obtain ⟨w, hw, hyw⟩ := hbound' y hy
      exact ⟨w, hw, htrans x y w hxy hyw⟩
  obtain ⟨hmem, hbound⟩ := levels 7 l
  rw [tree_levels f z h0 h] at hmem hbound
  refine ⟨hmem _ (List.mem_cons_self ..), fun x hx => ?_⟩
  obtain ⟨y, hy, hxy⟩ := hbound x hx
  rwa [List.mem_singleton.mp hy] at hxy

end

section
variable {α β : Type} {f : α → α → α} {g : β → β → β} {φ : α → β} (hφ : ∀ x y, φ (f x y) = g (φ x) (φ y))
include hφ

/-- A level of values that a map takes to others. -/
theorem pairUp_map : ∀ l : List α, (pairUp f l).map φ = pairUp g (l.map φ)
  | [] => rfl
  | [_] => rfl
  | x :: y :: r => by rw [pairUp, List.map_cons, pairUp_map r, hφ]; rfl

/-- Levels of values that a map takes to others. -/
theorem treeLevels_map : ∀ (n : Nat) (l : List α), (treeLevels f n l).map φ = treeLevels g n (l.map φ)
  | 0, _ => rfl
  | n + 1, l => by rw [treeLevels, treeLevels_map n, pairUp_map hφ]; rfl

/-- A tree of values that a map takes to others. -/
theorem tree_map (z : α) (l : List α) : φ (tree f z l) = tree g (φ z) (l.map φ) := by
  rw [tree, tree, ← treeLevels_map hφ]
  cases treeLevels f 7 l <;> rfl

end

/-! ### Folds of bits -/

/-- All bits are set. -/
theorem foldr_and_iff (l : List Bool) : l.foldr (· && ·) true = true ↔ ∀ b ∈ l, b = true := by
  induction l with
  | nil => simp
  | cons b r ih => rw [List.foldr_cons, Bool.and_eq_true, ih]; simp

/-- Some bit is set. -/
theorem foldr_or_iff (l : List Bool) : l.foldr (· || ·) false = true ↔ ∃ b ∈ l, b = true := by
  induction l with
  | nil => simp
  | cons b r ih => rw [List.foldr_cons, Bool.or_eq_true, ih]; simp

/-- An odd number of bits is set. -/
theorem foldr_xor_iff (l : List Bool) : l.foldr (· ^^ ·) false = true ↔ (l.filter id).length % 2 = 1 := by
  induction l with
  | nil => simp
  | cons b r ih =>
    rw [List.foldr_cons]
    cases b with
    | false => simpa using ih
    | true =>
      simp only [Bool.true_xor, Bool.not_eq_true', List.filter_cons, id, if_true, List.length_cons]
      rw [← Bool.not_eq_true, ih]
      omega

/-! ### Lanes that take part -/

/-- The number of lanes. -/
theorem tagLanes_bounds (g : Tag) : 0 < tagLanes g ∧ tagLanes g ≤ 128 := by cases g <;> decide

/-- On an integer tag each element has a mask bit of its own. -/
theorem active_of_isInt {g : Tag} (h : isInt g = true) (m : Word) (i : Nat) : active m (tagLanes g) i = m.getLsbD i := by
  have hn : tagLanes g ≠ 128 := by revert h; cases g <;> decide
  rw [active, if_neg hn]

/-- The lanes that take part in a reduction. -/
def redLanes (g : Tag) (m : Word) (v : VWord) : List (Option Nat) :=
  (List.range (tagLanes g)).map fun e => if active m (tagLanes g) e then some (laneOf (tagWidth g) v e) else none

section
variable {s : State} {a : VNum}

/-- An integer reduction of a source that can be read. -/
theorem vreduce_next (ha : s.vOk a) (hg : isInt s.ctx.v[a].tag = true) {op : RedOp} {ok : Tag → Bool} (hok : ok s.ctx.v[a].tag = true)
    (rnd : Rnd) (d : VNum) (k : KNum) (fa : Bool) : ∃ x, vreduce op ok rnd d a k fa s = .next ((((s.readsV [a]).taintK k).setV d
      (if op = .sum then .i64 else s.ctx.v[a].tag)
      (BitVec.ofNat 512 (reduceLanes op s.ctx.v[a].tag rnd x (redLanes s.ctx.v[a].tag (s.getK k) s.ctx.v[a].val)))).finish 4) := by
  refine ⟨((s.readsV [a]).taintK k).drawAt 0, ?_⟩
  rw [vreduce, s.srcV_ok fa a _ ha, State.needTag_ok _ _ _ hok, State.mask_eq]
  simp only [hg, Bool.not_true, Bool.and_false, Bool.false_eq_true, if_false, Bool.and_true, decide_eq_true_eq]
  rfl

end

section
variable {g : Tag} (hg : isInt g = true)

/-- The integer of a lane as a machine word says it. -/
def wordInt (g : Tag) (v : BitVec (tagWidth g)) : Int := if isSigned g then v.toInt else v.toNat

/-- The integer of a lane (R44). -/
theorem laneInt_eq_wordInt (x : Nat) : laneInt g x = wordInt g (BitVec.ofNat (tagWidth g) x) := by
  rw [laneInt, wordInt, sxInt_eq _ _ (tagWidth_pos g), BitVec.toNat_ofNat]

/-- The word of an integer's lane. -/
theorem ofInt_wordInt (v : BitVec (tagWidth g)) : BitVec.ofInt (tagWidth g) (wordInt g v) = v := by
  rw [wordInt]
  split
  · exact BitVec.ofInt_toInt
  · rw [BitVec.ofInt_natCast, BitVec.ofNat_toNat, BitVec.setWidth_eq]

/-- The least and the greatest integer of a lane. -/
def lowWord (g : Tag) : BitVec (tagWidth g) := if isSigned g then BitVec.intMin _ else 0
def highWord (g : Tag) : BitVec (tagWidth g) := if isSigned g then BitVec.intMax _ else BitVec.allOnes _

theorem wordInt_lowWord : wordInt g (lowWord g) = if isSigned g then (-(2 ^ (tagWidth g - 1) : Nat) : Int) else 0 := by
  rw [wordInt, lowWord]
  split
  · rw [BitVec.toInt_intMin_of_pos (tagWidth_pos g)]; push_cast; rfl
  · rfl

theorem wordInt_highWord : wordInt g (highWord g) = if isSigned g then ((2 ^ (tagWidth g - 1) : Nat) : Int) - 1 else ((2 ^ tagWidth g : Nat) : Int) - 1 := by
  rw [wordInt, highWord]
  split
  · rw [BitVec.toInt_intMax]; push_cast; rfl
  · rw [BitVec.toNat_allOnes, Nat.cast_sub Nat.one_le_two_pow]; rfl

theorem wordInt_zero : wordInt g 0 = 0 := by
  rw [wordInt]
  split
  · exact BitVec.toInt_zero
  · rfl

theorem wordInt_allOnes : wordInt g (BitVec.allOnes _) = if isSigned g then (-1 : Int) else ((2 ^ tagWidth g : Nat) : Int) - 1 := by
  rw [wordInt]
  split
  · rw [BitVec.toInt_allOnes, if_pos (tagWidth_pos g)]
  · rw [BitVec.toNat_allOnes, Nat.cast_sub Nat.one_le_two_pow]; rfl

theorem lowWord_le (v : BitVec (tagWidth g)) : wordInt g (lowWord g) ≤ wordInt g v := by
  rw [wordInt_lowWord, wordInt]
  have := v.le_toInt
  split
  · push_cast; exact this
  · omega

theorem le_highWord (v : BitVec (tagWidth g)) : wordInt g v ≤ wordInt g (highWord g) := by
  rw [wordInt_highWord, wordInt]
  have h1 := v.toInt_lt
  have h2 : (v.toNat : Int) < (2 ^ tagWidth g : Nat) := Int.ofNat_lt.mpr v.isLt
  split
  · push_cast; omega
  · omega

end

/-! ### The words that a reduction folds -/

/-- The words of the lanes, with another in place of those masked off. -/
def maskedWords (g : Tag) (m : Word) (v : VWord) (e : BitVec (tagWidth g)) : List (BitVec (tagWidth g)) :=
  (List.range (tagLanes g)).map fun i => if m.getLsbD i then BitVec.ofNat _ (laneOf (tagWidth g) v i) else e

section
variable {g : Tag} (m : Word) (v : VWord) (e : BitVec (tagWidth g))

theorem maskedWords_length : (maskedWords g m v e).length = tagLanes g := by simp [maskedWords]

theorem mem_maskedWords {y : BitVec (tagWidth g)} : y ∈ maskedWords g m v e ↔
    ∃ i < tagLanes g, y = if m.getLsbD i then BitVec.ofNat _ (laneOf (tagWidth g) v i) else e := by
  simp only [maskedWords, List.mem_map, List.mem_range, eq_comm]

/-- The integers that a reduction folds. -/
theorem redLanes_ints (hg : isInt g = true) :
    ((redLanes g m v).map fun o => o.elim (wordInt g e) (laneInt g)) = (maskedWords g m v e).map (wordInt g) := by
  rw [redLanes, maskedWords, List.map_map, List.map_map]
  refine List.map_congr_left fun i _ => ?_
  simp only [Function.comp_apply, active_of_isInt hg]
  split
  · exact laneInt_eq_wordInt _
  · rfl

/-- The bits that a bitwise reduction folds. -/
theorem redLanes_bits (hg : isInt g = true) :
    ((redLanes g m v).map fun o => o.elim (wordInt g e) (laneInt g)).map (wrapInt (tagWidth g)) = (maskedWords g m v e).map BitVec.toNat := by
  rw [redLanes_ints m v e hg, List.map_map]
  refine List.map_congr_left fun y _ => ?_
  rw [Function.comp_apply, wrapInt_eq_toNat, ofInt_wordInt]

end

/-- What the lanes masked off count as (R227). -/
def RedOp.neutral (op : RedOp) (g : Tag) : BitVec (tagWidth g) :=
  match op with
  | .max => lowWord g
  | .min => highWord g
  | .and => BitVec.allOnes _
  | _ => 0

section
variable {g : Tag} (hg : isInt g = true) (r : Rnd) (x : Nat) (m : Word) (v : VWord)
include hg

/-- The words that take part in a reduction. -/
theorem redLanes_neutral {op : RedOp} {id : Int} (h : id = wordInt g (op.neutral g)) {f : Option Nat → Int}
    (hf : ∀ o, f o = o.elim id (laneInt g)) : (redLanes g m v).map f = (maskedWords g m v (op.neutral g)).map (wordInt g) := by
  rw [← redLanes_ints m v _ hg, ← h]
  exact List.map_congr_left fun o _ => hf o

theorem reduceLanes_sum : reduceLanes .sum g r x (redLanes g m v) =
    wrapInt 64 (((maskedWords g m v 0).map (wordInt g)).foldl (· + ·) 0) := by
  unfold reduceLanes
  dsimp only
  rw [if_pos hg]
  rw [redLanes_neutral hg m v (op := .sum) wordInt_zero.symm fun o => by cases o <;> rfl]
  rfl

theorem reduceLanes_max : reduceLanes .max g r x (redLanes g m v) =
    wrapInt (tagWidth g) (tree (fun a b => if a ≤ b then b else a) 0 ((maskedWords g m v (lowWord g)).map (wordInt g))) := by
  unfold reduceLanes
  dsimp only
  rw [if_pos hg]
  rw [redLanes_neutral hg m v (op := .max) wordInt_lowWord.symm fun o => by cases o <;> rfl]
  rfl

theorem reduceLanes_min : reduceLanes .min g r x (redLanes g m v) =
    wrapInt (tagWidth g) (tree (fun a b => if a ≤ b then a else b) 0 ((maskedWords g m v (highWord g)).map (wordInt g))) := by
  unfold reduceLanes
  dsimp only
  rw [if_pos hg]
  rw [redLanes_neutral hg m v (op := .min) wordInt_highWord.symm fun o => by cases o <;> rfl]
  rfl

/-- A bitwise reduction is the tree of the words. -/
theorem redLanes_tree {op : RedOp} {id : Int} (h : id = wordInt g (op.neutral g)) {f : Option Nat → Int} (hf : ∀ o, f o = o.elim id (laneInt g))
    {b : Nat → Nat → Nat} {c : BitVec (tagWidth g) → BitVec (tagWidth g) → BitVec (tagWidth g)} (hb : ∀ y z, (c y z).toNat = b y.toNat z.toNat) :
    tree b 0 (((redLanes g m v).map f).map (wrapInt (tagWidth g))) = (tree c 0 (maskedWords g m v (op.neutral g))).toNat := by
  rw [tree_map (φ := BitVec.toNat) hb, redLanes_neutral hg m v h hf, ← redLanes_bits m v _ hg, redLanes_ints m v _ hg]
  rfl

theorem reduceLanes_and : reduceLanes .and g r x (redLanes g m v) = (tree (· &&& ·) 0 (maskedWords g m v (BitVec.allOnes _))).toNat := by
  unfold reduceLanes
  dsimp only
  rw [if_pos hg]
  exact redLanes_tree hg m v (op := .and) wordInt_allOnes.symm (fun o => by cases o <;> rfl) fun y z => BitVec.toNat_and y z

theorem reduceLanes_or : reduceLanes .or g r x (redLanes g m v) = (tree (· ||| ·) 0 (maskedWords g m v 0)).toNat := by
  unfold reduceLanes
  dsimp only
  rw [if_pos hg]
  exact redLanes_tree hg m v (op := .or) wordInt_zero.symm (fun o => by cases o <;> rfl) fun y z => BitVec.toNat_or y z

theorem reduceLanes_xor : reduceLanes .xor g r x (redLanes g m v) = (tree (· ^^^ ·) 0 (maskedWords g m v 0)).toNat := by
  unfold reduceLanes
  dsimp only
  rw [if_pos hg]
  exact redLanes_tree hg m v (op := .xor) wordInt_zero.symm (fun o => by cases o <;> rfl) fun y z => BitVec.toNat_xor y z

end

section
variable {g : Tag} (m : Word) (v : VWord) {e : BitVec (tagWidth g)}

/-- The extreme among the words of the active lanes, or the neutral word where no lane is active. -/
theorem maskedWords_choice {le : Int → Int → Prop} {f : Int → Int → Int} (hc : ∀ x y, f x y = x ∨ f x y = y) (hl : ∀ x y, le x (f x y))
    (hr : ∀ x y, le y (f x y)) (hrefl : ∀ x, le x x) (htrans : ∀ x y z, le x y → le y z → le x z) (hanti : ∀ x y, le x y → le y x → x = y)
    (he : ∀ y, le (wordInt g e) (wordInt g y)) :
    ∃ u : BitVec (tagWidth g), tree f 0 ((maskedWords g m v e).map (wordInt g)) = wordInt g u ∧
      (∀ i, (i < tagLanes g ∧ m.getLsbD i = true) → le (wordInt g (BitVec.ofNat _ (laneOf (tagWidth g) v i))) (wordInt g u)) ∧
      ((∃ i, (i < tagLanes g ∧ m.getLsbD i = true) ∧ u = BitVec.ofNat _ (laneOf (tagWidth g) v i)) ∨
        ((∀ i, ¬(i < tagLanes g ∧ m.getLsbD i = true)) ∧ ∀ y, le (wordInt g u) (wordInt g y))) := by
  have hlen : ((maskedWords g m v e).map (wordInt g)).length = tagLanes g := (List.length_map _).trans (maskedWords_length m v e)
  obtain ⟨hmem, hbound⟩ := tree_choice f hc hl hr hrefl htrans 0 (hlen.symm ▸ (tagLanes_bounds g).1) (hlen.symm ▸ (tagLanes_bounds g).2)
  obtain ⟨y, hy, ht⟩ := List.mem_map.mp hmem
  rw [← ht] at hbound ⊢
  have hact : ∀ i, (i < tagLanes g ∧ m.getLsbD i = true) → le (wordInt g (BitVec.ofNat _ (laneOf (tagWidth g) v i))) (wordInt g y) := fun i hi =>
    hbound _ (List.mem_map_of_mem ((mem_maskedWords m v e).mpr ⟨i, hi.1, by rw [if_pos hi.2]⟩))
  obtain ⟨i, hi, hyi⟩ := (mem_maskedWords m v e).mp hy
  by_cases hm : m.getLsbD i = true
  · rw [if_pos hm] at hyi
    exact ⟨y, rfl, hact, .inl ⟨i, ⟨hi, hm⟩, hyi⟩⟩
  · rw [if_neg hm] at hyi
    by_cases hany : ∃ j, j < tagLanes g ∧ m.getLsbD j = true
    · obtain ⟨j, hj⟩ := hany
      have heq : wordInt g y = wordInt g (BitVec.ofNat _ (laneOf (tagWidth g) v j)) := hanti _ _ (hyi ▸ he _) (hact j hj)
      exact ⟨_, heq, fun k hk => heq ▸ hact k hk, .inl ⟨j, hj, rfl⟩⟩
    · exact ⟨y, rfl, hact, .inr ⟨fun j hj => hany ⟨j, hj⟩, hyi ▸ he⟩⟩

/-- The bits of a bitwise reduction are folds of the words' bits. -/
theorem maskedWords_bit {c : BitVec (tagWidth g) → BitVec (tagWidth g) → BitVec (tagWidth g)} {b : Bool → Bool → Bool} {z : Bool} (j : Nat)
    (hcb : ∀ y z, (c y z).getLsbD j = b (y.getLsbD j) (z.getLsbD j)) (ha : ∀ x y z, b (b x y) z = b x (b y z)) (hz : ∀ x, b x z = x) :
    (tree c 0 (maskedWords g m v e)).getLsbD j = ((maskedWords g m v e).map fun y => y.getLsbD j).foldr b z := by
  have hlen : ((maskedWords g m v e).map fun y => y.getLsbD j).length = tagLanes g := (List.length_map _).trans (maskedWords_length m v e)
  rw [tree_map (φ := fun y : BitVec (tagWidth g) => y.getLsbD j) hcb]
  exact tree_foldr b ha hz _ (hlen.symm ▸ (tagLanes_bounds g).1) (hlen.symm ▸ (tagLanes_bounds g).2)

/-- The words of the active lanes that have a bit. -/
theorem maskedWords_count (j : Nat) : (((maskedWords g m v 0).map fun y => y.getLsbD j).filter id).length =
    ((List.range (tagLanes g)).filter fun i => m.getLsbD i && (BitVec.ofNat (tagWidth g) (laneOf (tagWidth g) v i)).getLsbD j).length := by
  rw [maskedWords, List.map_map, List.filter_map, List.length_map]
  congr 2
  funext i
  simp only [Function.comp_apply, id]
  split
  next h => rw [h, Bool.true_and]
  next h => rw [Bool.not_eq_true] at h; rw [h, Bool.false_and]; exact BitVec.getLsbD_zero

end

/-- A sum in which some terms count as zero. -/
theorem sum_map_ite_zero (p : Nat → Bool) (f : Nat → Int) (l : List Nat) :
    (l.map fun i => if p i then f i else 0).sum = ((l.filter p).map f).sum := by
  induction l with
  | nil => rfl
  | cons i r ih =>
    rw [List.map_cons, List.sum_cons, ih, List.filter_cons]
    split
    · rw [List.map_cons, List.sum_cons]
    · exact Int.zero_add _

/-- Settles O20: the sum of the active lanes' integers; the extreme word of the active lanes (`maskedWords_choice`); the bits of a bitwise
reduction one by one (`maskedWords_bit`). -/
theorem reductions : Obligations.Reductions := by
  unfold Obligations.Reductions
  intro s d a k fa rnd ha g w n hg x I act gives
  have okAll : LaneOp.okA .add g = true := by
    show (isInt g || isFlt g || isF8 g) = true
    rw [hg]; rfl
  have result : ∀ {op : RedOp} {ok : Tag → Bool} {rnd : Rnd} (u : BitVec w), op ≠ .sum → ok g = true →
      (∀ y, reduceLanes op g rnd y (redLanes g (s.getK k) s.ctx.v[a].val) = u.toNat) →
      vreduce op ok rnd d a k fa s = .next ((((s.readsV [a]).taintK k).setV d g (u.setWidth 512)).finish 4) := by
    intro op ok rnd u hop hok hu
    obtain ⟨y, hy⟩ := vreduce_next ha hg hok rnd d k fa (op := op)
    rw [hy, if_neg hop, hu y, BitVec.ofNat_toNat]
  have extreme : ∀ u : BitVec w, wrapInt w (wordInt g u) = u.toNat := fun u => by rw [wrapInt_eq_toNat, ofInt_wordInt]
  refine ⟨?sum, ?max, ?min, ?and, ?or, ?xor⟩
  case sum =>
    obtain ⟨y, hy⟩ := vreduce_next ha hg okAll (rndOf rnd) d k fa (op := .sum)
    refine hy.trans ?_
    rw [if_pos rfl, reduceLanes_sum hg, wrapInt_eq_toNat, BitVec.ofNat_toNat, ← List.sum_eq_foldl, maskedWords, List.map_map,
      ← sum_map_ite_zero]
    have h : ∀ i, (wordInt g ∘ fun i => if (s.getK k).getLsbD i then BitVec.ofNat w (laneOf w s.ctx.v[a].val i) else 0) i =
        if (s.getK k).getLsbD i then I (x i) else 0 := by
      intro i
      rw [Function.comp_apply]
      split
      · rfl
      · exact wordInt_zero
    rw [funext h]
  case max =>
    obtain ⟨u, hu, hact, hext⟩ := maskedWords_choice (s.getK k) s.ctx.v[a].val (le := (· ≤ ·)) (f := fun a b => if a ≤ b then b else a)
      (e := lowWord g) (fun x y => by split <;> simp) (fun x y => by split <;> omega) (fun x y => by split <;> omega) Int.le_refl
      (fun _ _ _ => Int.le_trans) (fun _ _ => Int.le_antisymm) lowWord_le
    exact ⟨u, result u (by decide) okAll fun y => by rw [reduceLanes_max hg, hu, extreme], hact, hext⟩
  case min =>
    obtain ⟨u, hu, hact, hext⟩ := maskedWords_choice (s.getK k) s.ctx.v[a].val (le := fun x y => y ≤ x) (f := fun a b => if a ≤ b then a else b)
      (e := highWord g) (fun x y => by split <;> simp) (fun x y => by split <;> omega) (fun x y => by split <;> omega) Int.le_refl
      (fun _ _ _ h h' => Int.le_trans h' h) (fun _ _ h h' => Int.le_antisymm h' h) le_highWord
    exact ⟨u, result u (by decide) okAll fun y => by rw [reduceLanes_min hg, hu, extreme], hact, hext⟩
  case and =>
    refine ⟨_, result _ (by decide) hg fun y => reduceLanes_and hg _ y _ _, fun j hj => ?_⟩
    rw [maskedWords_bit _ _ j (b := (· && ·)) (z := true) (fun y z => BitVec.getLsbD_and ..) Bool.and_assoc Bool.and_true, foldr_and_iff]
    refine ⟨fun h i hi => h _ (List.mem_map_of_mem ((mem_maskedWords _ _ _).mpr ⟨i, hi.1, (if_pos hi.2).symm⟩)), fun h b hb => ?_⟩
    obtain ⟨y, hy, rfl⟩ := List.mem_map.mp hb
    obtain ⟨i, hi, rfl⟩ := (mem_maskedWords _ _ _).mp hy
    split
    next hm => exact h i ⟨hi, hm⟩
    next => rw [BitVec.getLsbD_allOnes]; exact decide_eq_true hj
  case or =>
    refine ⟨_, result _ (by decide) hg fun y => reduceLanes_or hg _ y _ _, fun j hj => ?_⟩
    rw [maskedWords_bit _ _ j (b := (· || ·)) (z := false) (fun y z => BitVec.getLsbD_or ..) Bool.or_assoc Bool.or_false, foldr_or_iff]
    refine ⟨fun ⟨b, hb, ht⟩ => ?_, fun ⟨i, hi, ht⟩ =>
      ⟨_, List.mem_map_of_mem ((mem_maskedWords _ _ _).mpr ⟨i, hi.1, (if_pos hi.2).symm⟩), ht⟩⟩
    obtain ⟨y, hy, rfl⟩ := List.mem_map.mp hb
    obtain ⟨i, hi, rfl⟩ := (mem_maskedWords _ _ _).mp hy
    split at ht
    next hm => exact ⟨i, ⟨hi, hm⟩, ht⟩
    next => exact absurd (BitVec.getLsbD_zero.symm.trans ht) (by decide)
  case xor =>
    refine ⟨_, result _ (by decide) hg fun y => reduceLanes_xor hg _ y _ _, fun j hj => ?_⟩
    rw [maskedWords_bit _ _ j (b := Bool.xor) (z := false) (fun y z => BitVec.getLsbD_xor ..) Bool.xor_assoc Bool.xor_false, foldr_xor_iff,
      maskedWords_count]

end Sys2Proof.Machine

/-!
SUPPORT. Lane operations and compares on float tags (R217, R222, R223).
-/
namespace Sys2Proof.Machine

/-! ### The order of float values -/

section
variable {x y : FVal}

/-- Less is asymmetric. -/
theorem flt_asymm (h : flt x y = true) : flt y x = false := by
  cases x with
  | nan => cases h
  | inf a =>
    cases y with
    | nan => cases h
    | inf b => revert h; cases a <;> cases b <;> decide
    | fin b m e => exact congrArg (!·) h
  | fin a m e =>
    cases y with
    | nan => cases h
    | inf b => simpa [flt] using h
    | fin b n f =>
      simp only [flt, decide_eq_true_eq, decide_eq_false_iff_not] at h ⊢
      rw [min_comm]
      omega

/-- Of two numbers, equal ones are those of which none is less. -/
theorem feq_of_numbers (h : (fisNaN x || fisNaN y) = false) : feq x y = (!flt x y && !flt y x) := by
  obtain ⟨hx, hy⟩ := Bool.or_eq_false_iff.mp h
  cases x with
  | nan => cases hx
  | inf a =>
    cases y with
    | nan => cases hy
    | inf b => rfl
    | fin b m e => rfl
  | fin a m e =>
    cases y with
    | nan => cases hy
    | inf b => rfl
    | fin b n f => rfl

/-- A NaN is not less than a value, nor greater, nor equal. -/
theorem order_of_nan (h : (fisNaN x || fisNaN y) = true) : flt x y = false ∧ flt y x = false ∧ feq x y = false := by
  cases x with
  | nan => cases y <;> exact ⟨rfl, rfl, rfl⟩
  | inf a =>
    cases y with
    | nan => exact ⟨rfl, rfl, rfl⟩
    | inf b => cases h
    | fin b m e => cases h
  | fin a m e =>
    cases y with
    | nan => exact ⟨rfl, rfl, rfl⟩
    | inf b => cases h
    | fin b n f => cases h

/-- The condition `gt` of R223. -/
theorem condHolds_gt : condHolds 4 (feq x y) (flt x y) (fisNaN x || fisNaN y) = flt y x := by
  cases hn : fisNaN x || fisNaN y with
  | true =>
    obtain ⟨-, h, -⟩ := order_of_nan hn
    rw [h, condHolds, Bool.or_true]; rfl
  | false =>
    rw [feq_of_numbers hn, condHolds]
    cases hlt : flt x y with
    | true => rw [flt_asymm hlt]; rfl
    | false => cases flt y x <;> rfl

/-- The condition `ge` of R223. -/
theorem condHolds_ge : condHolds 5 (feq x y) (flt x y) (fisNaN x || fisNaN y) = (flt y x || feq x y) := by
  cases hn : fisNaN x || fisNaN y with
  | true =>
    obtain ⟨-, h, h'⟩ := order_of_nan hn
    rw [h, h', condHolds, Bool.not_true, Bool.and_false]; rfl
  | false =>
    rw [feq_of_numbers hn, condHolds]
    cases hlt : flt x y with
    | true => rw [flt_asymm hlt]; rfl
    | false => cases flt y x <;> rfl

/-- Being a NaN. -/
theorem fisNaN_eq (x : FVal) : fisNaN x = decide (x = .nan) := by
  cases x with
  | nan => rfl
  | inf a => rfl
  | fin a m e => rfl

end

/-! ### Float tags -/

/-- A float tag is no integer tag, and has at most 64 lanes. -/
theorem float_tag {g : Tag} (h : isFlt g = true ∨ isF8 g = true) : isInt g = false ∧ tagLanes g ≤ 64 ∧ LaneOp.okA .add g = true := by
  revert h
  cases g <;> decide

/-- On a float tag an operation that is not bitwise is the float operation. -/
theorem LaneOp.lane_of_float {op : LaneOp} {g : Tag} (hop : op.bitwise = false) (hg : isInt g = false) : op.lane g = laneFltOp op g := by
  rw [LaneOp.lane, hop, hg]
  rfl

section
variable {s : State} {a b d : VNum} (ha : s.vOk a) (hb : s.vOk b)
include ha hb

/-- A fused operation of sources that can be read. -/
theorem vfmaOp_next (hd : s.vOk d) (hA : LaneOp.okA .add s.ctx.v[a].tag = true) (hB : s.ctx.v[b].tag = s.ctx.v[a].tag)
    (hD : s.ctx.v[d].tag = s.ctx.v[a].tag) (neg : Bool) (k : KNum) (fa fb : Bool) :
    vfmaOp neg d a b k fa fb s = .next ((((s.readsV [a, b, d]).taintK k).putV d s.ctx.v[a].tag (s.getK k)
      ((List.range (tagLanes s.ctx.v[a].tag)).map fun i => fmaLane neg s.ctx.v[a].tag (laneOf (tagWidth s.ctx.v[a].tag) s.ctx.v[d].val i)
        (laneOf (tagWidth s.ctx.v[a].tag) s.ctx.v[a].val i) (laneOf (tagWidth s.ctx.v[a].tag) s.ctx.v[b].val i))).finish 4) := by
  rw [vfmaOp, s.srcV_ok fa a _ ha, State.needTag_ok _ _ _ hA, (s.readsV [a]).srcV_ok fb b _ hb, State.readsV_ctx, State.readsV_readsV,
    State.needTag_ok _ _ _ (beq_iff_eq.mpr hB), (s.readsV _).srcV_ok false d _ hd, State.readsV_ctx, State.readsV_readsV,
    State.needTag_ok _ _ _ (beq_iff_eq.mpr hD), State.mask_eq]
  dsimp only
  rw [show ∀ w n, (lanesOf w n s.ctx.v[a].val).zip (lanesOf w n s.ctx.v[b].val) =
    (List.range n).map fun i => (laneOf w s.ctx.v[a].val i, laneOf w s.ctx.v[b].val i) from fun w n => by
      rw [List.zip, lanesOf, lanesOf, List.zipWith_map, List.zipWith_self]]
  rw [lanesOf, List.zipWith_map, List.zipWith_self]
  rfl

/-- The mask that a compare writes. -/
theorem vcmpOp_next (hA : LaneOp.okA .add s.ctx.v[a].tag = true) (hB : s.ctx.v[b].tag = s.ctx.v[a].tag) (acc : Bool) (cond : Fin 8)
    (kd k : KNum) (fa fb : Bool) :
    vcmpOp acc cond kd a b k fa fb s =
      (let c : Word := BitVec.ofNat 64 (maskOf ((List.range (tagLanes s.ctx.v[a].tag)).map fun i => cmpLane cond.val s.ctx.v[a].tag
        (laneOf (tagWidth s.ctx.v[a].tag) s.ctx.v[a].val i) (laneOf (tagWidth s.ctx.v[a].tag) s.ctx.v[b].val i)))
      let low : Word := BitVec.ofNat 64 (2 ^ tagLanes s.ctx.v[a].tag - 1)
      .next (((if acc then ((s.readsV [a, b]).taintK k).taintK kd else (s.readsV [a, b]).taintK k).setK kd
        (if acc then s.getK kd &&& (~~~(s.getK k &&& low) ||| c) else c &&& s.getK k &&& low)).finish 4)) := by
  rw [vcmpOp, s.srcV_ok fa a _ ha, State.needTag_ok _ _ _ hA, (s.readsV [a]).srcV_ok fb b _ hb, State.readsV_ctx, State.readsV_readsV,
    State.needTag_ok _ _ _ (beq_iff_eq.mpr hB), State.mask_eq]
  dsimp only
  rw [lanesOf, lanesOf, List.zipWith_map, List.zipWith_self, State.getK_taintK]
  rfl

end

section
variable (f : Nat → Bool) (n : Nat) {i : Nat} (hi : i < 64)
include hi

/-- A bit of a compare's conditions. -/
theorem maskOf_range_getLsbD : (BitVec.ofNat 64 (maskOf ((List.range n).map f)) : Word).getLsbD i = (decide (i < n) && f i) := by
  rw [BitVec.getLsbD_ofNat, maskOf_bit, List.getD_eq_getElem?_getD, decide_eq_true hi, Bool.true_and]
  by_cases h : i < n
  · rw [List.getElem?_map, List.getElem?_range h, decide_eq_true h]; rfl
  · rw [List.getElem?_eq_none (by simpa using h), decide_eq_false h]; rfl

/-- A bit of the mask of the lanes. -/
theorem lowMask_getLsbD : (BitVec.ofNat 64 (2 ^ n - 1) : Word).getLsbD i = decide (i < n) := by
  rw [BitVec.getLsbD_ofNat, Nat.testBit_two_pow_sub_one, decide_eq_true hi, Bool.true_and]

end

/-- Settles O18: the float operation of each lane (`LaneOp.lane_of_float`), the fused forms (`vfmaOp_next`), and the compares' masks bit by bit
(`vcmpOp_next`), of which the conditions are those of `condHolds`. -/
theorem vectorFloats : Obligations.VectorFloats := by
  unfold Obligations.VectorFloats
  intro s d a b k fa fb cond kd ha hb hd g hB f n la lb ld put holds act hg
  obtain ⟨hi, hn, hA⟩ := float_tag hg
  have hBeq : (s.ctx.v[b].tag == g) = true := beq_iff_eq.mpr hB
  have two : ∀ (op : LaneOp) (v : Nat → FVal), op.bitwise = false → op.okA g = true → op.okB g s.ctx.v[b].tag = true →
      (∀ i, laneFltOp op g (laneOf (tagWidth g) s.ctx.v[a].val i) (laneOf (tagWidth g) s.ctx.v[b].val i) = roundNE f (v i)) →
      vop2 op d a b k fa fb s = put [a, b] v := by
    intro op v hop hoA hoB hv
    rw [vop2_next ha hb hoA hoB, LaneOp.lane_of_float hop hi]
    exact congrArg (fun l => Host.Outcome.next ((((s.readsV [a, b]).taintK k).putV d g (s.getK k) l).finish 4)) (List.map_congr_left fun i _ => hv i)
  have three : ∀ (neg : Bool) (v : Nat → FVal), s.ctx.v[d].tag = g →
      (∀ i, ffma .rne (ld i) (if neg then fneg (la i) else la i) (lb i) = v i) → vfmaOp neg d a b k fa fb s = put [a, b, d] v := by
    intro neg v hD hv
    rw [vfmaOp_next ha hb hd hA hB hD]
    refine congrArg (fun l => Host.Outcome.next ((((s.readsV [a, b, d]).taintK k).putV d g (s.getK k) l).finish 4))
      (List.map_congr_left fun i _ => ?_)
    rw [fmaLane, show isInt s.ctx.v[a].tag = false from hi, ← hv i]
    rfl
  have hcond : ∀ i, cmpLane cond.val g (laneOf (tagWidth g) s.ctx.v[a].val i) (laneOf (tagWidth g) s.ctx.v[b].val i) = holds i := by
    intro i
    have hc : cmpLane cond.val g (laneOf (tagWidth g) s.ctx.v[a].val i) (laneOf (tagWidth g) s.ctx.v[b].val i) =
        condHolds cond.val (feq (la i) (lb i)) (flt (la i) (lb i)) (fisNaN (la i) || fisNaN (lb i)) := by
      rw [cmpLane, hi]; rfl
    rw [hc]
    fin_cases cond
    · rfl
    · rfl
    · rfl
    · rfl
    · exact condHolds_gt
    · exact condHolds_ge
    · exact (Bool.not_or ..).trans (by rw [fisNaN_eq, fisNaN_eq]; simp [holds])
    · exact (by rw [fisNaN_eq, fisNaN_eq]; rfl)
  refine ⟨two .add _ rfl hA hBeq fun _ => rfl, two .sub _ rfl hA hBeq fun _ => rfl, two .mul _ rfl hA hBeq fun _ => rfl,
    two .min _ rfl hA hBeq fun _ => rfl, two .max _ rfl hA hBeq fun _ => rfl,
    fun hD => ⟨three false _ hD fun _ => rfl, three true _ hD fun _ => rfl⟩,
    ⟨_, vcmpOp_next ha hb hA hB false cond kd k fa fb, fun i h64 => ?cmp⟩, ⟨_, vcmpOp_next ha hb hA hB true cond kd k fa fb, fun i h64 => ?cmpa⟩⟩
  case cmp =>
    rw [if_neg Bool.false_ne_true, BitVec.getLsbD_and, BitVec.getLsbD_and, maskOf_range_getLsbD _ _ h64, lowMask_getLsbD _ h64, hcond]
    show (decide (i < n) && holds i && act i && decide (i < n)) = _
    cases decide (i < n) <;> cases holds i <;> cases act i <;> rfl
  case cmpa =>
    rw [if_pos rfl, BitVec.getLsbD_and, BitVec.getLsbD_or, BitVec.getLsbD_not, BitVec.getLsbD_and, maskOf_range_getLsbD _ _ h64,
      lowMask_getLsbD _ h64, hcond, decide_eq_true h64, Bool.true_and]
    by_cases hlane : i < n ∧ act i = true
    · rw [if_pos hlane, show (s.getK k).getLsbD i = true from hlane.2, decide_eq_true hlane.1]
      simp
    · have hz : ((s.getK k).getLsbD i && decide (i < tagLanes s.ctx.v[a].tag)) = false := by
        rw [Bool.and_eq_false_imp]
        exact fun hact => decide_eq_false fun h => hlane ⟨h, hact⟩
      rw [if_neg hlane, hz, Bool.not_false, Bool.true_or, Bool.and_true]

end Sys2Proof.Machine

/-!
SUPPORT. One-source lane operations (R224 to R226): bits, signs, roots, and the neighbours of the approximations.
-/
namespace Sys2Proof.Machine

/-! ### Neighbours (R225) -/

/-- The mode that rounds a magnitude up. -/
def awayMode (neg : Bool) : Rnd := if neg then .rdn else .rup

/-- The pattern of a magnitude's truncated multiple, below the sign, and whether anything is discarded. -/
def FFmt.truncated (f : FFmt) (m : Mag) : Nat × Bool :=
  ((unitExp f m - f.emin).toNat * 2 ^ (f.p - 1) + (scaledDiv m.num m.den (m.exp - unitExp f m)).1,
    decide (0 < (scaledDiv m.num m.den (m.exp - unitExp f m)).2.1))

section
variable {f : FFmt} (neg : Bool) {m : Mag} (hm : m.num ≠ 0)
include hm

/-- Rounding a magnitude up: the truncated pattern, or the next, or the infinity. -/
theorem roundMag_away (hinf : f.hasInf = true) : roundMag f (awayMode neg) neg m (fun _ => 0) 0 =
    if f.maxBits < (f.truncated m).1 + (f.truncated m).2.toNat then infBits f neg
    else signBit f neg + ((f.truncated m).1 + (f.truncated m).2.toNat) := by
  have hmode : ∀ q rem d, roundUpQ (awayMode neg) neg q rem d 0 0 = decide (0 < rem) := by cases neg <;> exact fun _ _ _ => rfl
  have hsr : (decide (awayMode neg = .sr)) = false := by cases neg <;> rfl
  have hover : overflowBits f (awayMode neg) neg = infBits f neg := by
    unfold overflowBits
    rw [hinf]
    cases neg <;> rfl
  unfold roundMag
  rw [if_neg hm]
  simp only [hmode, hsr, hover, Bool.false_and, Bool.false_eq_true, if_false, Nat.min_zero, FFmt.truncated]
  by_cases h : 0 < (scaledDiv m.num m.den (m.exp - unitExp f m)).2.1
  · simp [h, Nat.add_assoc]
  · simp [h]

/-- Rounding a magnitude towards zero: the truncated pattern. -/
theorem roundMag_rtz (h : (f.truncated m).1 ≤ f.maxBits) :
    roundMag f .rtz neg m (fun _ => 0) 0 = signBit f neg + (f.truncated m).1 := by
  unfold roundMag
  rw [if_neg hm]
  simp only [roundUpQ, Bool.false_eq_true, if_false]
  exact if_neg (Nat.not_lt.mpr h)

/-- The neighbour that is chosen. -/
theorem neighbour_eq (up : Bool) : neighbour f neg m up =
    if f.maxBits < (f.truncated m).1 + (f.truncated m).2.toNat then infBits f neg
    else signBit f neg + ((f.truncated m).1 + ((f.truncated m).2 && up).toNat) := by
  unfold neighbour
  rw [if_neg hm]
  simp only [FFmt.truncated]
  by_cases h : (scaledDiv m.num m.den (m.exp - unitExp f m)).2.1 = 0
  · simp [h]
  · have hor : ∀ b : Nat, (f.maxBits < b ∨ f.maxBits = b) = (f.maxBits < b + 1) := fun b => by simp only [eq_iff_iff]; omega
    cases up <;> simp [h, Nat.pos_of_ne_zero h, hor]

end

/-- The result of an approximation is one of the two neighbours of its magnitude, beyond the largest value the infinity. -/
theorem neighbour_near {f : FFmt} (hinf : f.hasInf = true) (neg : Bool) (m : Mag) (up : Bool) :
    let u := roundMag f (if neg then .rdn else .rup) neg m (fun _ => 0) 0
    if u = infBits f neg then neighbour f neg m up = u
    else neighbour f neg m up = roundMag f .rtz neg m (fun _ => 0) 0 ∨ neighbour f neg m up = u := by
  by_cases hm : m.num = 0
  · have hn : neighbour f neg m up = signBit f neg := if_pos hm
    have hr : ∀ r, roundMag f r neg m (fun _ => 0) 0 = signBit f neg := fun r => if_pos hm
    simp only [hn, hr, true_or, ite_self]
  · intro u
    have hu : u = _ := roundMag_away neg hm hinf
    rw [hu, neighbour_eq neg hm up]
    by_cases hmax : f.maxBits < (f.truncated m).1 + (f.truncated m).2.toNat
    · rw [if_pos hmax, if_pos hmax, if_pos rfl]
    · have hfin : signBit f neg + ((f.truncated m).1 + (f.truncated m).2.toNat) ≠ infBits f neg := by
        rw [infBits, if_pos hinf]
        omega
      rw [if_neg hmax, if_neg hmax, if_neg hfin, roundMag_rtz neg hm (by omega)]
      cases (f.truncated m).2 <;> cases up <;> simp

/-! ### The approximations of each kind of value -/

/-- A tag of the approximations has at most 32 lanes. -/
theorem isFlt_lanes {g : Tag} (h : isFlt g = true) : tagLanes g ≠ 128 := by
  revert h; cases g <;> decide

/-- The formats of the approximations have infinities. -/
theorem ffmt_hasInf {g : Tag} (h : isFlt g = true) : (ffmt g).hasInf = true := by
  revert h; cases g <;> decide

section
variable {g : Tag} {x : Nat}

theorem approx_nan (h : decodeF (ffmt g) x = .nan) (op : Nat) : approx op g x = (ffmt g).nan := by
  unfold approx
  dsimp only
  rw [h]

theorem approx_inf {neg : Bool} (h : decodeF (ffmt g) x = .inf neg) : approx 0 g x = signBit (ffmt g) neg ∧
    approx 1 g x = (if neg then (ffmt g).nan else 0) ∧ approx 2 g x = (if neg then 0 else infBits (ffmt g) false) ∧
    approx 3 g x = (if neg then (ffmt g).nan else infBits (ffmt g) false) := by
  unfold approx
  dsimp only
  rw [h]
  exact ⟨rfl, rfl, rfl, rfl⟩

theorem approx_zero {neg : Bool} {e : Int} (h : decodeF (ffmt g) x = .fin neg 0 e) : approx 0 g x = infBits (ffmt g) neg ∧
    approx 1 g x = infBits (ffmt g) neg ∧ approx 2 g x = roundNE (ffmt g) (.fin false 1 0) ∧ approx 3 g x = infBits (ffmt g) true := by
  unfold approx
  dsimp only
  rw [h]
  exact ⟨rfl, rfl, rfl, rfl⟩

theorem approx_fin {neg : Bool} {m : Nat} {e : Int} (h : decodeF (ffmt g) x = .fin neg m e) (hm : m ≠ 0) :
    (∃ up, approx 0 g x = neighbour (ffmt g) neg ⟨1, m, -e⟩ up) ∧ (∃ up, approx 2 g x = neighbour (ffmt g) false (exp2Mag neg m e) up) ∧
    (neg = true → approx 1 g x = (ffmt g).nan ∧ approx 3 g x = (ffmt g).nan) ∧
    (neg = false → (∃ up, approx 1 g x = neighbour (ffmt g) false (sqrtMag 1 m (-e) 100) up) ∧
      ∃ up, approx 3 g x = neighbour (ffmt g) (log2Mag m e).1 (log2Mag m e).2 up) := by
  unfold approx
  dsimp only
  rw [h]
  refine ⟨⟨_, if_neg hm⟩, ⟨_, if_neg hm⟩, ?_, ?_⟩
  · rintro rfl
    exact ⟨if_neg hm, if_neg hm⟩
  · rintro rfl
    exact ⟨⟨_, if_neg hm⟩, ⟨_, if_neg hm⟩⟩

end

/-! ### Lanes -/

section
variable {g : Tag} {x : Nat}

/-- The bits of a lane that is taken for another. -/
theorem lane_not (hx : x < 2 ^ tagWidth g) : 2 ^ tagWidth g - 1 - x = (~~~BitVec.ofNat (tagWidth g) x).toNat := by
  rw [BitVec.toNat_not, BitVec.toNat_ofNat, Nat.mod_eq_of_lt hx]

/-- The negation of an integer lane (R224). -/
theorem negLane_int (hg : isInt g = true) (x : Nat) : negLane g x = (-BitVec.ofNat (tagWidth g) x).toNat := by
  rw [negLane, if_pos hg, laneInt_eq_wordInt, wrapInt_eq_toNat, BitVec.ofInt_neg, ofInt_wordInt]

/-- The absolute value of an integer lane (R224). -/
theorem absLane_int (hg : isInt g = true) (hx : x < 2 ^ tagWidth g) : absLane g x =
    if isSigned g = true ∧ (BitVec.ofNat (tagWidth g) x).toInt < 0 then (-BitVec.ofNat (tagWidth g) x).toNat else x := by
  rw [absLane, if_pos hg, laneInt_eq_wordInt, wrapInt_eq_toNat]
  split
  next h =>
    have hw : wordInt g (BitVec.ofNat (tagWidth g) x) = (BitVec.ofNat (tagWidth g) x).toInt := if_pos h.1
    rw [Int.ofNat_natAbs_of_nonpos (by rw [hw]; exact h.2.le), BitVec.ofInt_neg, ofInt_wordInt]
  next h =>
    have hpos : 0 ≤ wordInt g (BitVec.ofNat (tagWidth g) x) := by
      rw [wordInt]
      split
      next hs => exact Int.not_lt.mp fun hlt => h ⟨hs, hlt⟩
      next => exact Int.natCast_nonneg _
    rw [Int.natAbs_of_nonneg hpos, ofInt_wordInt, BitVec.toNat_ofNat, Nat.mod_eq_of_lt hx]

/-- The sign of a float lane (R224). -/
theorem absLane_float (hg : isInt g = false) (x : Nat) :
    absLane g x = if decodeF (ffmt g) x = .nan then (ffmt g).nan else x % 2 ^ (tagWidth g - 1) := by
  rw [absLane, if_neg (by rw [hg]; exact Bool.false_ne_true)]
  cases decodeF (ffmt g) x <;> rfl

theorem negLane_float (hg : isInt g = false) (x : Nat) :
    negLane g x = if decodeF (ffmt g) x = .nan then (ffmt g).nan else (x + 2 ^ (tagWidth g - 1)) % 2 ^ tagWidth g := by
  rw [negLane, if_neg (by rw [hg]; exact Bool.false_ne_true)]
  cases decodeF (ffmt g) x <;> rfl

/-- Counting the one bits of a lane (R224). -/
theorem popLane_lane {w x : Nat} : popLane w x = ((List.range w).filter fun i => (BitVec.ofNat w x).getLsbD i).length := by
  rw [popLane_eq_popNat, popNat_eq]
  congr 1
  refine List.filter_congr fun i hi => ?_
  rw [BitVec.getLsbD_ofNat, decide_eq_true (List.mem_range.mp hi), Bool.true_and]

end

/-! ### Roots and draws -/

/-- A draw plays no part outside SR. -/
theorem roundMag_draw {r : Rnd} (hr : r ≠ .sr) (f : FFmt) (neg : Bool) (m : Mag) (srD : Int → Nat) (x : Nat) :
    roundMag f r neg m srD x = roundMag f r neg m srD 0 := by
  have h : ∀ q rem d n, roundUpQ r neg q rem d n x = roundUpQ r neg q rem d n 0 := by
    cases r with
    | sr => exact absurd rfl hr
    | rne | rtz | rdn | rup => exact fun _ _ _ _ => rfl
  unfold roundMag
  simp only [h]

/-- A root outside SR takes no draw. -/
theorem sqrtLane_draw {r : Rnd} (hr : r ≠ .sr) (g : Tag) (x a : Nat) : sqrtLane g r x a = sqrtLane g r 0 a := by
  unfold sqrtLane
  split
  · rfl
  · exact roundMag_draw hr _ _ _ _ _

section
variable {s : State} {a : VNum}

/-- A one-source lane operation of a source that can be read. -/
theorem vop1_next (ha : s.vOk a) {ok : Tag → Bool} (hok : ok s.ctx.v[a].tag = true) (f : Tag → Nat → Nat) (d : VNum) (k : KNum) (fa : Bool) :
    vop1 ok f d a k fa s = .next ((((s.readsV [a]).taintK k).putV d s.ctx.v[a].tag (s.getK k)
      ((List.range (tagLanes s.ctx.v[a].tag)).map fun i => f s.ctx.v[a].tag (laneOf (tagWidth s.ctx.v[a].tag) s.ctx.v[a].val i))).finish 4) := by
  rw [vop1, s.srcV_ok fa a _ ha, State.needTag_ok _ _ _ hok, State.mask_eq, map_lanes]
  rfl

/-- A one-source lane operation with the values of its table. -/
theorem vop1_value (ha : s.vOk a) {ok : Tag → Bool} (hok : ok s.ctx.v[a].tag = true) {f : Tag → Nat → Nat} {h : Nat → Nat}
    (hf : ∀ x, x < 2 ^ tagWidth s.ctx.v[a].tag → f s.ctx.v[a].tag x = h x) (d : VNum) (k : KNum) (fa : Bool) :
    vop1 ok f d a k fa s = .next ((((s.readsV [a]).taintK k).putV d s.ctx.v[a].tag (s.getK k)
      ((List.range (tagLanes s.ctx.v[a].tag)).map fun i => h (laneOf (tagWidth s.ctx.v[a].tag) s.ctx.v[a].val i))).finish 4) := by
  rw [vop1_next ha hok, List.map_congr_left fun i _ => hf _ (laneOf_lt _ _ i)]

/-- Elements of a range mapped with their draws (R53). -/
theorem State.mapDraw_range (s : State) (m : Word) (E : Nat) (f : Nat → Nat → Nat) (w n : Nat) (v : VWord) :
    s.mapDraw m E f (lanesOf w n v) = (List.range n).map fun i => f (s.drawAt (activeBelow m E i)) (laneOf w v i) := by
  rw [State.mapDraw, lanesOf_length, lanesOf, List.zip, List.zipWith_map_left, List.zipWith_self, List.map_map]
  rfl

/-- The active elements below one, where each element has a mask bit of its own. -/
theorem activeBelow_eq (m : Word) {E : Nat} (hE : E ≠ 128) : ∀ i, activeBelow m E i = ((List.range i).filter fun j => m.getLsbD j).length
  | 0 => rfl
  | i + 1 => by
    rw [activeBelow, activeBelow_eq m hE i, active, if_neg hE, List.range_succ, List.filter_append, List.length_append, List.filter_singleton]
    cases m.getLsbD i <;> rfl

/-- A root of a source that can be read. -/
theorem execVsqrt_next (ha : s.vOk a) (hg : isFlt s.ctx.v[a].tag = true) (d : VNum) (rnd : BitVec 3) (k : KNum) (fa : Bool) :
    execVsqrt d a rnd k fa s = .next (((((s.readsV [a]).taintK k).putV d s.ctx.v[a].tag (s.getK k) ((List.range (tagLanes s.ctx.v[a].tag)).map fun i =>
      sqrtLane s.ctx.v[a].tag (rndOf rnd) (s.drawAt (activeBelow (s.getK k) (tagLanes s.ctx.v[a].tag) i))
        (laneOf (tagWidth s.ctx.v[a].tag) s.ctx.v[a].val i))).drawn (rndOf rnd) (s.getK k) (tagLanes s.ctx.v[a].tag)).finish 4) := by
  have hdraw : ∀ i, ((s.readsV [a]).taintK k).drawAt i = s.drawAt i := by
    intro i
    rw [State.taintK]
    split <;> rfl
  rw [execVsqrt, s.srcV_ok fa a _ ha, State.needTag_ok _ _ _ hg, State.mask_eq]
  dsimp only
  rw [State.mapDraw_range]
  simp only [hdraw]
  rfl

end

/-- Settles O19: each lane operation by its value; under SR the draws of the active elements in order (`activeBelow_eq`); the approximations of
each kind of value, with `neighbour_near` for the others. -/
theorem vectorOneSource : Obligations.VectorOneSource := by
  unfold Obligations.VectorOneSource
  intro s d a k fa rnd ha g w n res does X count f near
  have tab : ∀ (ok : Tag → Bool) (f : Tag → Nat → Nat) (h : Nat → Nat), ok g = true → (∀ x, x < 2 ^ w → f g x = h x) →
      vop1 ok f d a k fa s = .next ((res h).finish 4) := fun ok f h hok hf => vop1_value ha hok hf d k fa
  have okInt : isInt g = true → LaneOp.okA .add g = true := fun hg => by
    show (isInt g || isFlt g || isF8 g) = true
    rw [hg]; rfl
  refine ⟨(tab (fun _ => true) (fun t x => 2 ^ tagWidth t - 1 - x) _ rfl fun x hx => lane_not hx :),
    fun hg => ⟨(tab _ absLane _ (okInt hg) fun x hx => absLane_int hg hx :), (tab _ negLane _ (okInt hg) fun x _ => negLane_int hg x :),
      ⟨clzNat w, (tab isInt (fun t x => clzLane (tagWidth t) x) (clzNat w) hg fun _ _ => rfl :), fun x hx => ?clz⟩,
      (tab isInt (fun t x => popLane (tagWidth t) x) _ hg fun x _ => popLane_lane :)⟩,
    fun hg => ?signs, fun hg => ⟨vop1_next ha hg _ d k fa, vop1_next ha hg _ d k fa, vop1_next ha hg _ d k fa, vop1_next ha hg _ d k fa,
      fun hr => ?sqrt, fun hr => ?sqrtSr, fun x => ?approx⟩⟩
  case clz =>
    have hbit : ∀ i, i < w → (X x).getLsbD i = x.testBit i := fun i hi => by
      rw [BitVec.getLsbD_ofNat, decide_eq_true hi, Bool.true_and]
    obtain ⟨hle, hzero, hone⟩ := clzNat_spec w x
    have := tagWidth_pos g
    exact ⟨hle, fun i h1 h2 => (hbit i h2).trans (hzero i h1 h2), fun h => (hbit _ (by omega)).trans (hone h)⟩
  case signs =>
    obtain ⟨hi, -, hA⟩ := float_tag hg
    exact ⟨(tab _ absLane _ hA fun x _ => absLane_float hi x :), (tab _ negLane _ hA fun x _ => negLane_float hi x :)⟩
  case sqrt =>
    have hsr : rndOf rnd ≠ .sr := by
      revert hr; revert rnd; decide
    refine (execVsqrt_next ha hg d rnd k fa).trans ?_
    rw [State.drawn, if_neg hsr]
    exact congrArg (fun l => Host.Outcome.next ((((s.readsV [a]).taintK k).putV d g (s.getK k) l).finish 4))
      (List.map_congr_left fun i _ => sqrtLane_draw hsr _ _ _)
  case sqrtSr =>
    subst hr
    have hn : tagLanes s.ctx.v[a].tag ≠ 128 := isFlt_lanes hg
    refine (execVsqrt_next ha hg d 4 k fa).trans ?_
    rw [State.drawn, show rndOf 4 = .sr from rfl, if_pos rfl]
    simp only [activeBelow_eq _ hn]
    rfl
  case approx =>
    have hinf : f.hasInf = true := ffmt_hasInf hg
    cases hv : decodeF f x with
    | nan => exact approx_nan hv
    | inf neg => exact approx_inf hv
    | fin neg m e =>
      refine ⟨?_, fun hm => ?_⟩
      · rintro rfl
        exact approx_zero hv
      · obtain ⟨⟨u0, h0⟩, ⟨u2, h2⟩, hneg, hpos⟩ := approx_fin hv hm
        refine ⟨h0 ▸ neighbour_near hinf _ _ _, h2 ▸ neighbour_near hinf _ _ _, hneg, fun hn => ?_⟩
        obtain ⟨⟨u1, h1⟩, u3, h3⟩ := hpos hn
        exact ⟨h1 ▸ neighbour_near hinf _ _ _, h3 ▸ neighbour_near hinf _ _ _⟩

end Sys2Proof.Machine

/-!
SUPPORT. Conversions, block scales and residue words (R228, R229, R231), and groups of registers (R214).
-/
namespace Sys2Proof.Machine

/-! ### Groups of registers -/

/-- The first register of a group. -/
@[simp] theorem vAt_zero (r : VNum) : vAt r 0 = r := Fin.ext (Nat.mod_eq_of_lt r.isLt)

/-- A source group of one register more: its first is read and checked. -/
theorem State.srcGroup_ok {s : State} {l : List VNum} {a r : VNum} {n i : Nat} (hr : vAt a i = r) (h : s.vOk r) {fa : Bool} {ok : Tag → Bool}
    {acc : List VReg} (hok : (ok s.ctx.v[r].tag && acc.all fun y => y.tag == s.ctx.v[r].tag) = true) (k : List VReg → State → State) :
    (s.readsV l).srcGroup fa a ok (n + 1) i acc k = (s.readsV (l ++ [r])).srcGroup fa a ok n (i + 1) (s.ctx.v[r] :: acc) k := by
  subst hr
  rw [State.srcGroup, (s.readsV l).srcV_ok _ _ _ h, State.readsV_readsV, State.readsV_ctx, State.needTag_ok _ _ _ hok]

/-- A destination group of one register. -/
theorem State.putGroup_one (s : State) (d : VNum) (t : Tag) (m : Word) {l : List Nat} (hl : l.length = tagLanes t) :
    s.putGroup d t m (tagLanes t) 1 l = s.putV d t m l := by
  simp only [State.putGroup, State.putV, vAt_zero, Nat.zero_mul, Nat.zero_add, List.drop_zero, List.take_of_length_le hl.le]

/-- The lanes of one register. -/
theorem groupLanes_singleton (t : Tag) (x : VReg) : groupLanes t [x] = lanesOf (tagWidth t) (tagLanes t) x.val := by
  rw [groupLanes, List.flatMap_singleton]

section
variable {s : State} {a b d : VNum} {k : KNum} {fa fb : Bool}

/-- Reading masks and sources changes no draw. -/
theorem State.drawAt_read (s : State) (l : List VNum) (k : KNum) (i : Nat) : ((s.readsV l).taintK k).drawAt i = s.drawAt i := by
  rw [State.taintK]
  split <;> rfl

/-- Tags of one width have as many lanes. -/
theorem tagLanes_of_width {g t : Tag} (h : tagWidth t = tagWidth g) : tagLanes t = tagLanes g := by
  rw [tagLanes, tagLanes, h]

/-- A conversion between tags of one width, outside SR (R228). -/
theorem execVcvt_next {dtag : BitVec 5} {rnd : BitVec 3} {dt : Tag} (ha : s.vOk a) (ht : vTagOfCode dtag.toNat = some dt) (hdt : dt ≠ .raw)
    (hg : s.ctx.v[a].tag ≠ .raw) (hw : tagWidth dt = tagWidth s.ctx.v[a].tag) (hr : rndOf rnd ≠ .sr) :
    execVcvt d a dtag rnd k fa s = .next ((((s.readsV [a, a]).taintK k).putV d dt (s.getK k)
      ((List.range (tagLanes s.ctx.v[a].tag)).map fun i => convert s.ctx.v[a].tag dt (rndOf rnd) (laneOf (tagWidth s.ctx.v[a].tag) s.ctx.v[a].val i)
        (s.drawAt (activeBelow (s.getK k) (tagLanes s.ctx.v[a].tag) i)))).finish 4) := by
  have hn := tagLanes_of_width hw
  have h1 : tagLanes s.ctx.v[a].tag / tagLanes s.ctx.v[a].tag = 1 := Nat.div_self (tagLanes_bounds _).1
  rw [execVcvt, ht]
  refine congrArg Host.Outcome.next ?_
  split
  next heq => cases heq
  next heq => exact absurd (Option.some.inj heq) hdt
  next t _ heq =>
    obtain rfl := Option.some.inj heq
    rw [s.srcV_ok fa a _ ha, State.needTag_ok _ _ _ (bne_iff_ne.mpr hg)]
    dsimp only
    rw [hn, Nat.max_self, h1, State.srcGroup_ok (n := 0) (vAt_zero a) ha (by simp), State.srcGroup, State.mask_eq,
      List.reverse_singleton, groupLanes_singleton, State.mapDraw_range, State.drawn, if_neg hr, ← hn,
      State.putGroup_one _ _ _ _ (by simp)]
    simp only [State.drawAt_read]
    rfl

/-- A conversion to a tag that no v register may hold, or to RAW (R41, R228). -/
theorem execVcvt_noTag {dtag : BitVec 5} {rnd : BitVec 3} (h : vTagOfCode dtag.toNat = none ∨ vTagOfCode dtag.toNat = some .raw) :
    execVcvt d a dtag rnd k fa s = .next (s.trap 0x06) := by
  rw [execVcvt]
  obtain h | h := h
  · rw [h]
  · rw [h]

/-- A block scale that is positive and finite (R46). -/
theorem scaleValid_iff (x : Nat) : scaleValid x = true ↔ 0 < x ∧ x < 0x7F800000 := by
  rw [scaleValid, Bool.and_eq_true, decide_eq_true_eq, decide_eq_true_eq]

section
variable (ha : s.vOk a) (hb : s.vOk b) (hB : s.ctx.v[b].tag = .f32)
include ha hb hB

/-- Block-scaled elements (R229). -/
theorem execVscl_next {g : Tag} (hA : s.ctx.v[a].tag = g) (hg : g = .q8 ∨ g = .q4) : execVscl d a b k fa fb s =
    .next (if scaleValid (laneOf 32 s.ctx.v[b].val 0) then
      (((s.readsV [a, b]).taintK k).putGroup d .f32 (s.getK k) (tagLanes g) (tagLanes g / 16)
        ((List.range (tagLanes g)).map fun i => roundNE (ffmt .f32) (fmul (srcVal g
          (laneOf (tagWidth s.ctx.v[a].tag) s.ctx.v[a].val i)) (decodeF (ffmt .f32) (laneOf 32 s.ctx.v[b].val 0))))).finish 4
      else ((s.readsV [a, b]).taintK k).trap 0x0D) := by
  subst hA
  have hok : (s.ctx.v[a].tag == .q8 || s.ctx.v[a].tag == .q4) = true := by rwa [Bool.or_eq_true, beq_iff_eq, beq_iff_eq]
  rw [execVscl, s.srcV_ok fa a _ ha, State.needTag_ok _ _ _ hok, (s.readsV [a]).srcV_ok fb b _ hb, State.readsV_ctx, State.readsV_readsV,
    State.needTag_ok _ _ _ (beq_iff_eq.mpr hB), State.mask_eq]
  dsimp only
  rw [groupLanes_singleton, map_lanes]
  cases scaleValid (laneOf 32 s.ctx.v[b].val 0) <;> rfl

/-- F32 elements divided by their block scale (R229). -/
theorem execVqnt_next (hA : s.ctx.v[a].tag = .f32) (hg : ∀ i, i < 4 → s.vOk (vAt a i) = true ∧ s.ctx.v[vAt a i].tag = .f32) :
    execVqnt d a b k fa fb s = .next (if scaleValid (laneOf 32 s.ctx.v[b].val 0) then
      (((s.readsV [a, a, vAt a 1, vAt a 2, vAt a 3, b]).taintK k).putV d .q8 (s.getK k)
        ((List.range 64).map fun i => quantLane .f32 (laneOf 32 s.ctx.v[b].val 0) (laneOf (tagWidth s.ctx.v[a].tag) s.ctx.v[vAt a (i / 16)].val (i % 16)))).finish 4
      else ((s.readsV [a, a, vAt a 1, vAt a 2, vAt a 3, b]).taintK k).trap 0x0D) := by
  have hlanes : groupLanes .f32 [s.ctx.v[a], s.ctx.v[vAt a 1], s.ctx.v[vAt a 2], s.ctx.v[vAt a 3]] =
      (List.range 64).map fun i => laneOf 32 s.ctx.v[vAt a (i / 16)].val (i % 16) := by
    have h0 : s.ctx.v[a] = s.ctx.v[vAt a 0] := (congrArg (fun r : VNum => s.ctx.v[r]) (vAt_zero a)).symm
    rw [h0]
    rfl
  have hchecked : ∀ i, i < 4 → s.vOk (vAt a i) = true := fun i hi => (hg i hi).1
  have htag : ∀ i, i < 4 → s.ctx.v[vAt a i].tag = .f32 := fun i hi => (hg i hi).2
  rw [execVqnt, s.srcV_ok fa a _ ha, State.needTag_ok _ _ _ (by rw [hA]; rfl), hA]
  dsimp only
  have h1 := htag 1 (by decide)
  have h2 := htag 2 (by decide)
  have h3 := htag 3 (by decide)
  rw [show 64 / tagLanes .f32 = 4 from rfl, State.srcGroup_ok (n := 3) (vAt_zero a) ha (by rw [hA]; rfl),
    State.srcGroup_ok (n := 2) rfl (hchecked 1 (by decide)) (by rw [List.all_cons, h1, hA]; rfl),
    State.srcGroup_ok (n := 1) rfl (hchecked 2 (by decide)) (by rw [List.all_cons, List.all_cons, h2, h1, hA]; rfl),
    State.srcGroup_ok (n := 0) rfl (hchecked 3 (by decide)) (by rw [List.all_cons, List.all_cons, List.all_cons, h3, h2, h1, hA]; rfl),
    State.srcGroup]
  rw [(s.readsV _).srcV_ok fb b _ hb, State.readsV_ctx, State.readsV_readsV, State.needTag_ok _ _ _ (beq_iff_eq.mpr hB), State.mask_eq]
  rw [show [s.ctx.v[vAt a 3], s.ctx.v[vAt a 2], s.ctx.v[vAt a 1], s.ctx.v[a]].reverse =
    [s.ctx.v[a], s.ctx.v[vAt a 1], s.ctx.v[vAt a 2], s.ctx.v[vAt a 3]] from rfl, hlanes, List.map_map]
  cases scaleValid (laneOf 32 s.ctx.v[b].val 0) <;> rfl

end

/-- Residue words reconstructed, or the trap of a bad one (R231). -/
theorem execVrtrec_next (ha : s.vOk a) (hA : (s.ctx.v[a].tag == .n32 || s.ctx.v[a].tag == .i32) = true) : execVrtrec d a k fa s =
    .next (if (List.range 16).any fun e => active (s.getK k) 16 e && !rtGood (laneOf 32 s.ctx.v[a].val e) then ((s.readsV [a]).taintK k).trap 0x0E
      else (((s.readsV [a]).taintK k).putV d .i32 (s.getK k) ((List.range 16).map fun i => wrapInt 32 (rtReconstruct (laneOf 32 s.ctx.v[a].val i)))).finish 4) := by
  rw [execVrtrec, s.srcV_ok fa a _ ha, State.needTag_ok _ _ _ hA, State.mask_eq]
  dsimp only
  rw [map_lanes]
  rfl

end

/-- Settles O21: each form in the states that its premises name; the checks of scales and residue words decide between result and trap. -/
theorem conversions : Obligations.Conversions := by
  unfold Obligations.Conversions
  intro s d a b k fa fb dtag rnd dt ha hb g w lane m sc read
  have valid : ∀ {p q : State} (h : 0 < sc ∧ sc < 0x7F800000), (if scaleValid sc then p else q) = p := fun h => if_pos ((scaleValid_iff sc).mpr h)
  have invalid : ∀ {p q : State} (h : ¬(0 < sc ∧ sc < 0x7F800000)), (if scaleValid sc then p else q) = q := fun h =>
    if_neg fun hv => h ((scaleValid_iff sc).mp hv)
  refine ⟨fun ht hdt hg hw hr => ?cvt, execVcvt_noTag, fun hg hB hlo hhi => ?scl, fun hg hB hs => ?sclTrap,
    fun hg hgroup hB => ⟨fun hs => ?qnt, fun hs => ?qntTrap⟩, fun hg => ⟨fun hgood => ?rtrec, fun hbad => ?rtrecTrap⟩⟩
  case cvt =>
    have hsr : rndOf rnd ≠ .sr := by
      revert hr; revert rnd; decide
    exact execVcvt_next ha ht hdt hg hw hsr
  case scl =>
    exact (execVscl_next ha hb hB hg (.inl rfl)).trans (congrArg Host.Outcome.next (valid ⟨hlo, hhi⟩))
  case sclTrap =>
    exact (execVscl_next ha hb hB rfl hg).trans (congrArg Host.Outcome.next (invalid hs))
  case qnt => exact (execVqnt_next ha hb hB hg hgroup).trans (congrArg Host.Outcome.next (valid hs))
  case qntTrap => exact (execVqnt_next ha hb hB hg hgroup).trans (congrArg Host.Outcome.next (invalid hs))
  all_goals
    have hA : (s.ctx.v[a].tag == .n32 || s.ctx.v[a].tag == .i32) = true := by
      rw [Bool.or_eq_true, beq_iff_eq, beq_iff_eq]; exact hg
    have hw : tagWidth s.ctx.v[a].tag = 32 := by
      obtain h | h := hg
      · rw [show s.ctx.v[a].tag = .n32 from h]; rfl
      · rw [show s.ctx.v[a].tag = .i32 from h]; rfl
    refine (execVrtrec_next ha hA).trans (congrArg Host.Outcome.next ?_)
  case rtrec =>
    rw [← hw]
    refine if_neg fun hany => ?_
    obtain ⟨i, hi, hbad⟩ := List.any_eq_true.mp hany
    obtain ⟨hact, hrt⟩ := Bool.and_eq_true_iff.mp hbad
    have hgd : rtGood (laneOf (tagWidth s.ctx.v[a].tag) s.ctx.v[a].val i) = true := hgood i (List.mem_range.mp hi) hact
    rw [hgd] at hrt
    cases hrt
  case rtrecTrap =>
    rw [← hw]
    obtain ⟨i, hi, hact, hrt⟩ := hbad
    refine if_pos (List.any_eq_true.mpr ⟨i, List.mem_range.mpr hi, Bool.and_eq_true_iff.mpr ⟨hact, ?_⟩⟩)
    rw [show rtGood (laneOf (tagWidth s.ctx.v[a].tag) s.ctx.v[a].val i) = false from hrt]
    rfl

end Sys2Proof.Machine

/-!
SUPPORT. What vector and mask instructions on registers leave unchanged (R185, R190, R216): everything but their destinations, and
under SR the draw counter.
-/
namespace Sys2Proof.Machine

/-- Draws under a rounding mode: none but under SR, and then one for each active element at most (R53). -/
theorem RegsOnly.drawnIf {s0 s : State} {gs : List GNum} {vs : List VNum} {ks : List KNum} {n : Nat} (h : RegsOnly s0 s gs vs ks 0)
    {r : Rnd} {E : Nat} (m : Word) (hE : E ≤ 128) (hr : r ≠ .sr ∨ 128 ≤ n) : RegsOnly s0 (s.drawn r m E) gs vs ks n := by
  rcases hr with hr | hn
  · rw [State.drawn, if_neg hr]
    exact h.more
  · exact h.drawnR r m E (hE.trans hn)

/-- A rounding mode below SR's number is not SR (R47). -/
theorem rndOf_ne_sr {r : BitVec 3} (h : r.toNat < 4) : rndOf r ≠ .sr := by
  revert r
  decide

/-- A vector tag has at least eight lanes. -/
theorem tagLanes_of_code {g : Tag} (n : Nat) (h : vTagOfCode n = some g) : 8 ≤ tagLanes g := by
  cases g with
  | a80 =>
    unfold vTagOfCode at h
    split at h
    · cases h
    · cases h
    next hne _ => exact absurd h hne
  | _ => decide

/-- A group of at most n registers. -/
theorem vAt_mem_group {d : VNum} {i n : Nat} (h : i < n) : vAt d i ∈ (List.range n).map (vAt d) :=
  List.mem_map_of_mem (List.mem_range.mpr h)

section
variable {s t : State} {d a b : VNum} {k : KNum} {fa fb : Bool}

theorem vop2_frame {op : LaneOp} : vop2 op d a b k fa fb s = .next t → RegsOnly s t [] [d] [] :=
  RegsOnly.of_next ((RegsOnly.refl s _ _ _).srcV fa a fun _ _ h => h.needTag _ fun _ h => h.srcV fb b fun _ _ h => h.needTag _ fun _ h =>
    ((h.taintK k).putV d _ _ _ (List.mem_singleton_self d)).finish 4)

theorem vfmaOp_frame {neg : Bool} : vfmaOp neg d a b k fa fb s = .next t → RegsOnly s t [] [d] [] :=
  RegsOnly.of_next ((RegsOnly.refl s _ _ _).srcV fa a fun _ _ h => h.needTag _ fun _ h => h.srcV fb b fun _ _ h => h.needTag _ fun _ h =>
    h.srcV false d fun _ _ h => h.needTag _ fun _ h => ((h.taintK k).putV d _ _ _ (List.mem_singleton_self d)).finish 4)

theorem vop1_frame {ok : Tag → Bool} {f : Tag → Nat → Nat} : vop1 ok f d a k fa s = .next t → RegsOnly s t [] [d] [] :=
  RegsOnly.of_next ((RegsOnly.refl s _ _ _).srcV fa a fun _ _ h => h.needTag _ fun _ h =>
    ((h.taintK k).putV d _ _ _ (List.mem_singleton_self d)).finish 4)

theorem execVsqrt_frame {rnd : BitVec 3} {n : Nat} (hr : rndOf rnd ≠ .sr ∨ 128 ≤ n) : execVsqrt d a rnd k fa s = .next t →
    RegsOnly s t [] [d] [] n :=
  RegsOnly.of_next ((RegsOnly.refl s _ _ _).srcVDraw fa a fun x _ h => h.needTagDraw _ fun _ h =>
    (((h.taintK k).putV d _ _ _ (List.mem_singleton_self d)).drawnIf _ (tagLanes_bounds x.tag).2 hr).finish 4)

theorem vreduce_frame {op : RedOp} {ok : Tag → Bool} {r : Rnd} {n : Nat} (hr : r ≠ .sr ∨ 1 ≤ n) : vreduce op ok r d a k fa s = .next t →
    RegsOnly s t [] [d] [] n := by
  refine RegsOnly.of_next ((RegsOnly.refl s _ _ _).srcVDraw fa a fun x _ h => h.needTagDraw _ fun _ h => ?_)
  rw [State.mask_eq]
  dsimp only
  split
  next hc =>
    simp only [Bool.and_eq_true, decide_eq_true_eq] at hc
    exact (((h.taintK k).setV d _ _ (List.mem_singleton_self d)).addDraws 1 (hr.resolve_left fun h => h hc.1.1)).finish 4
  next => exact ((h.taintK k).setV d _ _ (List.mem_singleton_self d)).more.finish 4

theorem execVcvt_frame {tag : BitVec 5} {rnd : BitVec 3} {n : Nat} (hr : rndOf rnd ≠ .sr ∨ 128 ≤ n) : execVcvt d a tag rnd k fa s = .next t →
    RegsOnly s t [] ((List.range 16).map (vAt d)) [] n := by
  have h0 : RegsOnly s s [] ((List.range 16).map (vAt d)) [] 0 := RegsOnly.refl s _ _ _
  refine RegsOnly.of_next ?_
  split
  · exact (h0.trap _).more
  · exact (h0.trap _).more
  next dt _ hdt =>
    refine h0.srcVDraw fa a fun x _ h => h.needTagDraw _ fun _ h => RegsOnly.srcGroupDraw fa a _ (fun g _ h => ?_) _ _ _ _ h
    have hlanes := tagLanes_bounds dt
    have hsrc := tagLanes_bounds x.tag
    have hgroup : max (tagLanes x.tag) (tagLanes dt) / tagLanes dt ≤ 16 := Nat.div_le_of_le_mul (max_le
      (by have := tagLanes_of_code _ hdt; omega) (by omega))
    exact ((RegsOnly.putGroup d dt _ _ _ _ _ (fun i hi => vAt_mem_group (hi.trans_le hgroup)) (h.taintK k)).drawnIf _
      (max_le hsrc.2 hlanes.2) hr).finish 4

theorem execVscl_frame : execVscl d a b k fa fb s = .next t → RegsOnly s t [] ((List.range 8).map (vAt d)) [] := by
  refine RegsOnly.of_next ((RegsOnly.refl s _ _ _).srcV fa a fun x _ h => h.needTag _ fun _ h => h.srcV fb b fun _ _ h =>
    h.needTag _ fun _ h => ?_)
  rw [State.mask_eq]
  dsimp only
  split
  · exact (h.taintK k).trap _
  · have hgroup : tagLanes x.tag / 16 ≤ 8 := by
      cases x.tag <;> decide
    exact (RegsOnly.putGroup d .f32 _ _ _ _ _ (fun i hi => vAt_mem_group (hi.trans_le hgroup)) (h.taintK k)).finish 4

theorem execVqnt_frame : execVqnt d a b k fa fb s = .next t → RegsOnly s t [] [d] [] := by
  refine RegsOnly.of_next ((RegsOnly.refl s _ _ _).srcV fa a fun x _ h => h.needTag _ fun _ h => RegsOnly.srcGroup fa a _ (fun g _ h =>
    h.srcV fb b fun _ _ h => h.needTag _ fun _ h => ?_) _ _ _ _ h)
  rw [State.mask_eq]
  dsimp only
  split
  · exact (h.taintK k).trap _
  · exact ((h.taintK k).putV d _ _ _ (List.mem_singleton_self d)).finish 4

theorem execVrtrec_frame : execVrtrec d a k fa s = .next t → RegsOnly s t [] [d] [] := by
  refine RegsOnly.of_next ((RegsOnly.refl s _ _ _).srcV fa a fun x _ h => h.needTag _ fun _ h => ?_)
  rw [State.mask_eq]
  dsimp only
  split
  · exact (h.taintK k).trap _
  · exact ((h.taintK k).putV d _ _ _ (List.mem_singleton_self d)).finish 4

theorem vslide_frame {src : Nat → Nat → Option Nat} : vslide src d a k fa s = .next t → RegsOnly s t [] [d] [] :=
  RegsOnly.of_next ((RegsOnly.refl s _ _ _).srcV fa a fun _ _ h => ((h.taintK k).putV d _ _ _ (List.mem_singleton_self d)).finish 4)

theorem execVperm_frame : execVperm d a b k fa fb s = .next t → RegsOnly s t [] [d] [] :=
  RegsOnly.of_next ((RegsOnly.refl s _ _ _).srcV fa a fun _ _ h => h.needTag _ fun _ h => h.srcV fb b fun _ _ h => h.needTag _ fun _ h =>
    ((h.taintK k).putV d _ _ _ (List.mem_singleton_self d)).finish 4)

theorem execVperm2_frame : execVperm2 d a b k fa fb s = .next t → RegsOnly s t [] [d] [] :=
  RegsOnly.of_next ((RegsOnly.refl s _ _ _).srcV fa a fun _ _ h => h.needTag _ fun _ h => h.srcV fb b fun _ _ h => h.needTag _ fun _ h =>
    h.srcV false (vAt a 1) fun _ _ h => h.needTag _ fun _ h => ((h.taintK k).putV d _ _ _ (List.mem_singleton_self d)).finish 4)

theorem vzipOp_frame {f : List Nat → List Nat → List Nat × List Nat} : vzipOp f d a b fa fb s = .next t →
    RegsOnly s t [] [d, vAt d 1] [] :=
  RegsOnly.of_next ((RegsOnly.refl s _ _ _).srcV fa a fun _ _ h => h.srcV fb b fun _ _ h => h.needTag _ fun _ h =>
    ((h.setV d _ _ List.mem_cons_self).setV (vAt d 1) _ _ (List.mem_cons_of_mem _ (List.mem_singleton_self _))).finish 4)

theorem execVtagw_frame {tag : BitVec 5} : execVtagw d a tag fa s = .next t → RegsOnly s t [] [d] [] := by
  refine RegsOnly.of_next ?_
  split
  · exact (RegsOnly.refl s _ _ _).trap _
  · exact (RegsOnly.refl s _ _ _).srcV fa a fun _ _ h => (h.setV d _ _ (List.mem_singleton_self d)).finish 4

variable {r : GNum}

theorem execVbcast_frame {tag : BitVec 5} : execVbcast d r tag k fa s = .next t → RegsOnly s t [] [d] [] := by
  refine RegsOnly.of_next ?_
  split
  · exact (RegsOnly.refl s _ _ _).trap _
  · exact (RegsOnly.refl s _ _ _).srcG fa r fun _ _ h => ((h.taintK k).putV d _ _ _ (List.mem_singleton_self d)).finish 4

theorem execVtag_frame : execVtag r a fa s = .next t → RegsOnly s t [r] [] [] :=
  RegsOnly.of_next ((RegsOnly.refl s _ _ _).srcV fa a fun _ _ h => h.putG 4 r _ (List.mem_singleton_self r))

theorem execVmovg_frame : execVmovg r a fa s = .next t → RegsOnly s t [r] [] [] :=
  RegsOnly.of_next ((RegsOnly.refl s _ _ _).srcV fa a fun _ _ h => h.putG 4 r _ (List.mem_singleton_self r))

variable {p q : KNum}

theorem vcmpOp_frame {acc : Bool} {cond : Fin 8} : vcmpOp acc cond p a b k fa fb s = .next t → RegsOnly s t [] [] [p] := by
  refine RegsOnly.of_next ((RegsOnly.refl s _ _ _).srcV fa a fun _ _ h => h.needTag _ fun _ h => h.srcV fb b fun _ _ h =>
    h.needTag _ fun _ h => ?_)
  cases acc with
  | true => exact (((h.taintK k).taintK p).setK p _ (List.mem_singleton_self p)).finish 4
  | false => exact ((h.taintK k).setK p _ (List.mem_singleton_self p)).finish 4

theorem kop2_frame {f : Word → Word → Word} : kop2 f p q k s = .next t → RegsOnly s t [] [] [p] :=
  RegsOnly.of_next (((((RegsOnly.refl s _ _ _).taintK q).taintK k).setK p _ (List.mem_singleton_self p)).finish 4)

theorem execKnot_frame : execKnot p q s = .next t → RegsOnly s t [] [] [p] :=
  RegsOnly.of_next ((((RegsOnly.refl s _ _ _).taintK q).setK p _ (List.mem_singleton_self p)).finish 4)

theorem execKfromg_frame : execKfromg p r fa s = .next t → RegsOnly s t [] [] [p] :=
  RegsOnly.of_next ((RegsOnly.refl s _ _ _).srcG fa r fun _ _ h => (h.setK p _ (List.mem_singleton_self p)).finish 4)

/-- A mask's word to a general register. -/
theorem maskToG_frame {f : Word → Word} : (.next (s.mask q fun x s => s.putG 4 r (f x)) : Out) = .next t → RegsOnly s t [r] [] [] :=
  RegsOnly.of_next (((RegsOnly.refl s _ _ _).taintK q).putG 4 r _ (List.mem_singleton_self r))

end

end Sys2Proof.Machine

/-!
SUPPORT. What vector loads and stores leave unchanged (R74, R216, R237): registers but the destinations, and bytes but those of the
parts that a store writes at the addresses it computes.
-/
namespace Sys2Proof.Machine

/-! ### Vector loads -/

section
variable {s t : State} {gs : List GNum} {vs : List VNum} {ks : List KNum} {A : Nat → Prop}

theorem Kept.touch (h : Kept s t gs vs ks A) (n : Nat) : Kept s (t.touch n) gs vs ks A := h.same rfl rfl rfl rfl rfl rfl

theorem Kept.touchV (h : Kept s t gs vs ks A) (d : VNum) : Kept s (t.touchV d) gs vs ks A := h.same rfl rfl rfl rfl rfl rfl

theorem Kept.taintE (h : Kept s t gs vs ks A) (e : ENum) : Kept s (t.taintE e) gs vs ks A := h.same rfl rfl rfl rfl rfl rfl

theorem Kept.putV (h : Kept s t gs vs ks A) (d : VNum) (g : Tag) (m : Word) (l : List Nat) (hd : d ∈ vs) :
    Kept s (t.putV d g m l) gs vs ks A := by
  unfold State.putV
  dsimp only
  split
  · exact h.setV _ _ _ hd
  · exact (h.touchV d).setV _ _ _ hd

theorem Kept.memTag (h : Kept s t gs vs ks A) (tag : BitVec 4) (whole : Bool) {k : Tag → State → State}
    (hk : ∀ g, Kept s (k g t) gs vs ks A) : Kept s (t.memTag tag whole k) gs vs ks A := by
  unfold State.memTag
  split
  · exact h.trap _
  · split
    · exact h.trap _
    · exact hk _

theorem Kept.poisonDests (st : BitVec 4) : ∀ (l : List VNum) (t : State), (∀ d ∈ l, d ∈ vs) → Kept s t gs vs ks A →
    Kept s (t.poisonDests st l) gs vs ks A
  | [], _, _, h => h
  | d :: r, _, hd, h => Kept.poisonDests st r _ (fun e he => hd e (List.mem_cons_of_mem _ he)) (h.poisonV d st (hd d List.mem_cons_self))

theorem Kept.tileChecks (w : Nat) {k : State → State} (hk : ∀ u, Kept s u gs vs ks A → Kept s (k u) gs vs ks A) :
    ∀ (l : List Word) (t : State), Kept s t gs vs ks A → Kept s (t.tileChecks w l k) gs vs ks A
  | [], t, h => hk t h
  | ea :: r, t, h => by
    unfold State.tileChecks
    split
    · exact h.trapEa _ _
    split
    · exact h.trapEa _ _
    split
    · exact h.trapEa _ _
    have ha := h.access t.agent t.sup .rd (offOf ea) w
    generalize t.access t.agent t.sup .rd (offOf ea) w = q at ha ⊢
    obtain ⟨f, u⟩ := q
    cases f with
    | ok key => exact Kept.tileChecks w hk r u ha
    | _ => exact ha.failAcc _ _

end

section
variable {s t : State} {d a : VNum} {base r : GNum} {fa : Bool} {tag : BitVec 4} {k : KNum} {off : BitVec 5}

/-- A load of elements into one register. -/
theorem Kept.elemLoad {u : State} (h : Kept s u [] [d] [] s.logBytesIn) (g : Tag) (m : Word) (at_ : Nat → Word) :
    Kept s (u.elemLoad d g m at_) [] [d] [] s.logBytesIn :=
  h.loadElems s.logsIn_logBytesIn _ (fun _ _ h => (h.putV d g m _ (List.mem_singleton_self d)).finish 4)
    fun st _ h => (h.poisonV d st (List.mem_singleton_self d)).finish 4

/-- The destinations of a span load. -/
def spanDests (d2 : Bool) (d : VNum) : List VNum := if d2 then [d, vAt d 1] else [d]

/-- A span load fills its destinations. -/
theorem Kept.fillSpan {u : State} {d2 : Bool} {A : Nat → Prop} (h : Kept s u [] (spanDests d2 d) [] A) (g : Tag) (m : Word) (l : List Byte) :
    Kept s ((if d2 then (u.putV d g m (spanLanes g l 0)).putV (vAt d 1) g m (spanLanes g l 64) else u.putV d g m (spanLanes g l 0)).finish 4)
      [] (spanDests d2 d) [] A := by
  cases d2 with
  | false => exact (h.putV d g m _ List.mem_cons_self).finish 4
  | true => exact ((h.putV d g m _ List.mem_cons_self).putV _ g m _ (List.mem_cons_of_mem _ List.mem_cons_self)).finish 4

theorem spanLoad_kept {d2 : Bool} : spanLoad d2 d base fa tag k off s = .next t → Kept s t [] (spanDests d2 d) [] s.logBytesIn := by
  have h0 : Kept s s [] (spanDests d2 d) [] s.logBytesIn := Kept.refl s
  refine Kept.of_next ?_
  split
  · exact h0.trap _
  · refine h0.memTag tag false fun g => h0.srcG fa base fun _ _ h => ?_
    rw [State.mask_eq]
    dsimp only
    split
    · exact Kept.checkLoads (fun _ _ h => h.fillSpan g _ []) _ _ _ (h.taintK k)
    · exact (h.taintK k).loadElems s.logsIn_logBytesIn _ (fun l _ h => h.fillSpan g _ _) fun st _ h =>
        (Kept.poisonDests st _ _ (fun _ he => he) h).finish 4

theorem execVlds_kept : execVlds d base fa tag k r s = .next t → Kept s t [] [d] [] s.logBytesIn :=
  Kept.of_next ((Kept.refl s).memTag tag true fun g => (Kept.refl s).srcG fa base fun _ _ h => h.srcG false r fun _ _ h =>
    (h.taintK k).elemLoad g _ _)

theorem execVldg_kept {sc : Fin 4} {e : ENum} : execVldg d a tag sc k e s = .next t → Kept s t [] [d] [] s.logBytesIn :=
  Kept.of_next ((Kept.refl s).memTag tag true fun g => (Kept.refl s).srcV false a fun _ _ h => h.needTag _
    (((h.taintK k).taintE e).elemLoad g _ _))

theorem execVldt_kept : execVldt d base fa tag k r s = .next t → Kept s t [] [d] [] s.logBytesIn := by
  refine Kept.of_next ((Kept.refl s).memTag tag true fun g => (Kept.refl s).srcG fa base fun _ _ h => h.srcG false r fun _ _ h => ?_)
  rw [State.mask_eq]
  dsimp only
  split
  · exact (h.taintK k).trapEa _ _
  · exact Kept.tileChecks _ (fun _ h => h.elemLoad g _ _) _ _ (h.taintK k)

end

/-! ### The bytes that a store of several accesses may change -/

/-- The state after the translations of a store's accesses. -/
def State.lookups (u : State) (els : List StoreEl) : State :=
  els.foldl (fun u e => (u.access u.agent u.sup .wr (offOf e.ea) e.n).2) u

/-- The bytes of the parts of an access that is allowed, with the NEXT words of queued records; the log of a page that is not
resident. -/
def State.partsStored (u : State) (e : StoreEl) (a : Nat) : Prop :=
  match (u.access u.agent u.sup .wr (offOf e.ea) e.n).1 with
  | .ok key => (∃ p ∈ e.parts, key + (p.1 - offOf e.ea) ≤ a ∧ a < key + (p.1 - offOf e.ea) + p.2.length) ∨ u.queuedNext a
  | .nonres _ leaf => u.inLog (bits leaf 6 10) a
  | _ => False

/-- The bytes that the accesses of a store may change, each translated after those before it. -/
def State.storedBy : State → List StoreEl → Nat → Prop
  | _, [], _ => False
  | u, e :: r, a => u.partsStored e a ∨ (u.access u.agent u.sup .wr (offOf e.ea) e.n).2.storedBy r a

/-- What a store may change at one of its accesses lies in A. -/
def StoreWithin (s : State) (A : Nat → Prop) (x : StoreEl × StoreAt) : Prop :=
  match x.2 with
  | .mem o key => (∀ p ∈ x.1.parts, ∀ a, key + (p.1 - o) ≤ a → a < key + (p.1 - o) + p.2.length → A a) ∧ ∀ a, s.queuedNext a → A a
  | .log _ leaf => ∀ a, s.inLog (bits leaf 6 10) a → A a

/-- Translations alone have taken place between two states. -/
def State.Looks (s u : State) : Prop := ∃ tlb n, u = s.looked tlb n

theorem State.Looks.refl (s : State) : s.Looks s := ⟨s.mem.tlb, s.draws, rfl⟩

theorem State.Looks.access {s u : State} (h : s.Looks u) (a : Nat) (b : Bool) (p : Perm) (o n : Nat) : s.Looks (u.access a b p o n).2 := by
  obtain ⟨tlb, n', rfl⟩ := h
  obtain ⟨tlb', n'', e⟩ := (s.looked tlb n').access_looked a b p o n
  exact ⟨tlb', n'', e⟩

theorem State.Looks.queued {s u : State} (h : s.Looks u) {a : Nat} : u.queuedNext a ↔ s.queuedNext a := by
  obtain ⟨tlb, n, rfl⟩ := h
  exact Iff.rfl

theorem State.Looks.log {s u : State} (h : s.Looks u) {i a : Nat} : u.inLog i a ↔ s.inLog i a := by
  obtain ⟨tlb, n, rfl⟩ := h
  exact Iff.rfl

theorem State.Looks.kept {s u : State} (h : s.Looks u) (l : List Nat) (b : Bool) {A : Nat → Prop} : Kept s (u.tainted l b) [] [] [] A := by
  obtain ⟨tlb, n, rfl⟩ := h
  exact (Kept.refl s).same rfl rfl rfl rfl rfl rfl

/-! ### The frame of a store -/

/-- The bytes of parts written. -/
theorem Memory.putParts_get_other {o key a : Nat} : ∀ (l : List (Nat × List Byte)) (m : Memory),
    (∀ p ∈ l, ¬(key + (p.1 - o) ≤ a ∧ a < key + (p.1 - o) + p.2.length)) → (m.putParts o key l).get a = m.get a
  | [], _, _ => rfl
  | (b, x) :: r, m, h => by
    have hb := h (b, x) List.mem_cons_self
    rw [Memory.putParts, Memory.putParts_get_other r _ fun p hp => h p (List.mem_cons_of_mem _ hp)]
    exact m.get_put_other _ a x (by dsimp only at hb; omega)

/-- A store of parts changes the bytes of its parts, and the NEXT words of queued records when it reaches the pool. -/
theorem State.writeParts_bytes (s : State) (o n key T : Nat) (l : List (Nat × List Byte)) : MemStep s (s.writeParts o n key T l) fun a =>
    (∃ p ∈ l, key + (p.1 - o) ≤ a ∧ a < key + (p.1 - o) + p.2.length) ∨ s.queuedNext a := by
  unfold State.writeParts
  dsimp only
  have h1 : MemStep s (s.backInvalidate key n) fun a =>
    (∃ p ∈ l, key + (p.1 - o) ≤ a ∧ a < key + (p.1 - o) + p.2.length) ∨ s.queuedNext a := s.backInvalidate_step _ _ _
  generalize s.backInvalidate key n = v at *
  have hp : MemStep v (v.putParts o n key l) fun a =>
      (∃ p ∈ l, key + (p.1 - o) ≤ a ∧ a < key + (p.1 - o) + p.2.length) ∨ s.queuedNext a := by
    refine ⟨rfl, rfl, rfl, fun _ h => h, fun a h => ?_⟩
    refine Memory.putParts_get_other _ v.mem fun p hp hin => ?_
    obtain ⟨q, hq, rfl⟩ := List.mem_map.mp hp
    exact h (.inl ⟨q, hq, by simpa only [State.masked_length] using hin⟩)
  have h2 := h1.trans hp
  generalize v.putParts o n key l = u at *
  have h3 := h2.trans ((State.observePool_step v u o n).mono fun a h => .inr (h2.queued a h))
  exact (h3.trans (State.observeMap_step _ o n _)).trans (State.fireList_step _ _ _ _ _ _)

section
variable {s : State} {A : Nat → Prop}

/-- The accesses of a store performed: each changes the bytes of its parts or the log of its page. -/
theorem Kept.performWithin {s0 : State} (all : List (StoreEl × StoreAt)) {k : State → State} (h0 : Kept s s0 [] [] [] A)
    (hk : ∀ u, Kept s u [] [] [] A → Kept s (k u) [] [] [] A) : ∀ (r : List (StoreEl × StoreAt)) (done : List Nat) (t : State),
    (∀ x ∈ r, StoreWithin s A x) → Kept s t [] [] [] A → Kept s (s0.performStores t all done r k) [] [] [] A
  | [], _, t, _, h => hk t h
  | (e, .mem o key) :: r, done, t, hl, h => by
    have hr := fun x hx => hl x (List.mem_cons_of_mem _ hx)
    obtain ⟨hparts, hq⟩ : StoreWithin s A (e, .mem o key) := hl _ List.mem_cons_self
    unfold State.performStores
    dsimp only
    split
    · exact Kept.performWithin all h0 hk r _ t hr h
    · split
      · exact h0.trap _
      · have h1 := (h.stampWrite (granule o) (t.writeTime (granule o) t.ctx.clk)).setClk (t.writeTime (granule o) t.ctx.clk)
        refine Kept.performWithin all h0 hk r _ _ hr (h1.step (State.writeParts_bytes _ o e.n key _ e.parts) fun a x => ?_)
        rcases x with ⟨p, hp, hlo, hhi⟩ | hqa
        · exact hparts p hp a hlo hhi
        · exact hq a (h1.queued a hqa)
  | (e, .log vpn leaf) :: r, done, t, hl, h => by
    have hr := fun x hx => hl x (List.mem_cons_of_mem _ hx)
    have hi : StoreWithin s A (e, .log vpn leaf) := hl _ List.mem_cons_self
    unfold State.performStores
    dsimp only
    split
    · exact Kept.performWithin all h0 hk r _ t hr h
    · split
      · exact (h0.block _).next _
      · exact h0.trap _
      next u eq => exact Kept.performWithin all h0 hk r _ u hr (h.appendEnts _ hi vpn _ _ eq)

/-- The checks of a store's accesses, then what they write. -/
theorem Kept.checkWithin {l : List Nat} {b : Bool} {k : List (StoreEl × StoreAt) → State → State}
    (hk : ∀ ats u, (∀ x ∈ ats, StoreWithin s A x) → Kept s u [] [] [] A → Kept s (k ats u) [] [] [] A) :
    ∀ (els : List StoreEl) (acc : List (StoreEl × StoreAt)) (u : State), s.Looks u → (∀ a, u.storedBy els a → A a) →
      (∀ x ∈ acc, StoreWithin s A x) → Kept s ((u.tainted l b).checkStores acc els k) [] [] [] A
  | [], acc, u, hu, _, hacc => hk _ _ (fun x hx => hacc x (List.mem_reverse.mp hx)) (hu.kept l b)
  | e :: r, acc, u, hu, hA, hacc => by
    have hlook := hu.access u.agent u.sup .wr (offOf e.ea) e.n
    rw [State.checkStores]
    split
    · exact (hu.kept l b).trapEa _ _
    split
    · exact (hu.kept l b).trapEa _ _
    rw [State.access_tainted_eq]
    have hrest : ∀ a, (u.access u.agent u.sup .wr (offOf e.ea) e.n).2.storedBy r a → A a := fun a h => hA a (.inr h)
    have hhere : ∀ a, u.partsStored e a → A a := fun a h => hA a (.inl h)
    unfold State.partsStored at hhere
    cases hr : (u.access u.agent u.sup .wr (offOf e.ea) e.n).1 with
    | ok key =>
      rw [hr] at hhere
      refine Kept.checkWithin hk r _ _ hlook hrest fun x hx => ?_
      rcases List.mem_cons.mp hx with rfl | hx
      · exact ⟨fun p hp a hlo hhi => hhere a (.inl ⟨p, hp, hlo, hhi⟩), fun a hq => hhere a (.inr (hu.queued.mpr hq))⟩
      · exact hacc x hx
    | nonres vpn leaf =>
      rw [hr] at hhere
      refine Kept.checkWithin hk r _ _ hlook hrest fun x hx => ?_
      rcases List.mem_cons.mp hx with rfl | hx
      · exact fun a ha => hhere a (hu.log.mpr ha)
      · exact hacc x hx
    | unmapped | denied hbm | walknr | mig k | err => exact (hlook.kept l b).failElem _ _ _ _

/-- A store changes no byte but those of its accesses. -/
theorem Kept.storeWithin {l : List Nat} {b : Bool} {els : List StoreEl} (hA : ∀ a, s.storedBy els a → A a) :
    Kept s ((s.tainted l b).storeElems els fun u => u.finish 4) [] [] [] A :=
  Kept.checkWithin (fun ats _ hin hu => Kept.performWithin ats hu (fun _ h => h.markSide.finish 4) ats [] _ hin hu) els [] s
    (State.Looks.refl s) hA fun _ hx => absurd hx List.not_mem_nil

end

/-! ### Vector stores -/

/-- The accesses before the last, then the last. -/
theorem State.storedBy_append (e : StoreEl) (a : Nat) : ∀ (l : List StoreEl) (u : State), u.storedBy (l ++ [e]) a →
    u.storedBy l a ∨ (u.lookups l).partsStored e a
  | [], _, h => .inr (h.resolve_right id)
  | f :: r, u, h => by
    rcases h with h | h
    · exact .inl (.inl h)
    · exact (State.storedBy_append e a r _ h).imp .inr id

/-- The store of one element. -/
def laneStore (w : Nat) (at_ : Nat → Word) (x : Nat → Nat) (i : Nat) : StoreEl := ⟨at_ i, w, [(offOf (at_ i), toLe w (x i))]⟩

/-- The state after the translations of the active elements below j. -/
def State.lanesLooked (s : State) (w : Nat) (at_ : Nat → Word) (p : Nat → Bool) (j : Nat) : State :=
  ((List.range j).filter p).foldl (fun u i => (u.access u.agent u.sup .wr (offOf (at_ i)) w).2) s

/-- The part of an element is the whole of its access. -/
theorem State.partsStored_lane {u : State} {w : Nat} {at_ : Nat → Word} {x : Nat → Nat} {i a : Nat}
    (h : u.partsStored (laneStore w at_ x i) a) : u.storedTo .wr (offOf (at_ i)) w a := by
  unfold State.partsStored at h
  unfold State.storedTo
  dsimp only [laneStore] at h
  cases hr : (u.access u.agent u.sup .wr (offOf (at_ i)) w).1 with
  | ok key =>
    rw [hr] at h
    rcases h with ⟨p, hp, hlo, hhi⟩ | hq
    · obtain rfl := List.mem_singleton.mp hp
      rw [toLe_length] at hhi
      exact .inl ⟨by omega, by omega⟩
    · exact .inr hq
  | nonres vpn leaf =>
    rw [hr] at h
    exact h
  | unmapped | denied hbm | walknr | mig k | err =>
    rw [hr] at h
    exact h

/-- What the stores of the active elements may change. -/
theorem State.storedBy_lanes {s : State} {w : Nat} {at_ : Nat → Word} {x : Nat → Nat} {p : Nat → Bool} {a : Nat} : ∀ n : Nat,
    s.storedBy (((List.range n).filter p).map (laneStore w at_ x)) a →
    ∃ j, j < n ∧ p j = true ∧ (s.lanesLooked w at_ p j).storedTo .wr (offOf (at_ j)) w a
  | 0, h => absurd h id
  | n + 1, h => by
    have below : s.storedBy (((List.range n).filter p).map (laneStore w at_ x)) a → ∃ j, j < n + 1 ∧ p j = true ∧ _ := fun h =>
      let ⟨j, hj, hp, hs⟩ := State.storedBy_lanes n h
      ⟨j, by omega, hp, hs⟩
    rw [List.range_succ, List.filter_append, List.map_append] at h
    cases hp : p n with
    | false =>
      rw [List.filter_singleton, hp] at h
      exact below (by simpa using h)
    | true =>
      rw [List.filter_singleton, hp] at h
      rcases State.storedBy_append _ _ _ _ h with h | h
      · exact below h
      · refine ⟨n, Nat.lt_succ_self n, hp, State.partsStored_lane (x := x) ?_⟩
        rwa [State.lookups, List.foldl_map] at h

/-- A register read by an instruction that has read others. -/
theorem Kept.srcVTainted {s : State} {l : List Nat} {gs : List GNum} {vs : List VNum} {A : Nat → Prop} {fa : Bool} {r : VNum}
    {k : VReg → State → State} (hk : ∀ l', Kept s (k s.ctx.v[r] (s.tainted l' s.hurt)) gs vs [] A) :
    Kept s ((s.tainted l s.hurt).srcV fa r k) gs vs [] A := by
  have h0 : Kept s (s.tainted l s.hurt) gs vs [] A := (Kept.refl s).same rfl rfl rfl rfl rfl rfl
  unfold State.srcV
  dsimp only
  split
  · exact h0.trap _
  · split
    · split
      · exact h0.trap _
      · exact h0.block _
    · split
      · exact h0.trapAux _ _ _ _
      · exact hk _

/-- A mask read changes link tags alone. -/
theorem State.taintK_tainted (s : State) (k : KNum) : ∃ l h, s.taintK k = s.tainted l h := by
  unfold State.taintK
  split
  · exact ⟨s.taint, s.hurt, rfl⟩
  · exact ⟨_, _, rfl⟩

/-- The mask of a store. -/
theorem Kept.maskTainted {s : State} {l : List Nat} {k : KNum} {A : Nat → Prop} {f : Word → State → State}
    (hk : ∀ l' h', Kept s (f (s.getK k) (s.tainted l' h')) [] [] [] A) : Kept s ((s.tainted l s.hurt).mask k f) [] [] [] A := by
  obtain ⟨l', h', e⟩ := (s.tainted l s.hurt).taintK_tainted k
  rw [State.mask_eq, e]
  exact hk l' h'

section
variable {s t : State} {v a : VNum} {base r : GNum} {fa : Bool} {tag : BitVec 4} {k : KNum} {off : BitVec 5}

/-- The bytes that the active elements of a vector store may change. -/
def State.lanesStored (s : State) (g : Tag) (m : Word) (at_ : Nat → Word) (x : Nat) : Prop :=
  ∃ j, j < tagLanes g ∧ active m (tagLanes g) j = true ∧
    (s.lanesLooked (tagWidth g / 8) at_ (fun i => active m (tagLanes g) i) j).storedTo .wr (offOf (at_ j)) (tagWidth g / 8) x

/-- A store of elements. -/
theorem Kept.elemStore {l : List Nat} {h : Bool} {x : VReg} {m : Word} {at_ : Nat → Word} :
    Kept s ((s.tainted l h).elemStore x m at_) [] [] [] (s.lanesStored x.tag m at_) :=
  Kept.storeWithin fun _ ha => State.storedBy_lanes (x := laneOf (8 * (tagWidth x.tag / 8)) x.val) _ ha

theorem execVsts_kept : execVsts v base fa tag k r s = .next t → Kept s t [] [] []
    (s.lanesStored s.ctx.v[v].tag (s.getK k) fun i => s.gVal base + BitVec.ofNat 64 i * s.gVal r) := by
  refine Kept.of_next ((Kept.refl s).memTag tag true fun g => Kept.srcFirst fun _ => Kept.srcTainted fun _ => Kept.srcVTainted fun l => ?_)
  refine (Kept.tainted s l s.hurt).needTag _ (Kept.maskTainted fun l h => (Kept.tainted s l h).checked Kept.elemStore)

theorem execVstg_kept {sc : Fin 4} {e : ENum} : execVstg v a tag sc k e s = .next t → Kept s t [] [] []
    (s.lanesStored s.ctx.v[v].tag (s.getK k) fun i => s.ctx.e[e] + indexLane s.ctx.v[a] i <<< sc.val) := by
  refine Kept.of_next ((Kept.refl s).memTag tag true fun g => Kept.srcVTainted (l := s.taint) fun l => ?_)
  refine (Kept.tainted s l s.hurt).needTag _ (Kept.srcVTainted fun l => (Kept.tainted s l s.hurt).needTag _ (Kept.maskTainted fun l h =>
    (Kept.tainted s l h).checked ?_))
  exact Kept.elemStore (l := l) (h := ((s.tainted l h).touch (3 * e.val + 2)).hurt)

theorem execVst_kept : execVst v base fa k off s = .next t → Kept s t [] [] []
    (s.partsStored ⟨s.gVal base + off.signExtend 64 * 64 + s.bump 64, 64,
      spanParts (s.getK k) s.ctx.v[v].tag (offOf (s.gVal base + off.signExtend 64 * 64 + s.bump 64)) s.ctx.v[v].val⟩) :=
  Kept.of_next (Kept.srcFirst fun _ => Kept.srcVTainted fun _ => Kept.maskTainted fun l h => (Kept.tainted s l h).checked
    (Kept.storeWithin fun _ ha => ha.resolve_right id))

end

/-- Settles O24: each shape of register instruction keeps its frame (`vop2_frame` and its neighbours), each load that of
`Kept.outside_logs`, and a store changes the bytes that its accesses store (`Kept.storeWithin`). -/
theorem vectorFrame : Obligations.VectorFrame := by
  unfold Obligations.VectorFrame
  refine ⟨fun s t d a b r k p q fa fb amt tag rnd cond => ?registers, fun s t d a base r fa tag sc k e off => ?memory⟩
  case registers =>
    exact ⟨vop2_frame, vop2_frame, vop2_frame, vop2_frame, vop2_frame, vop2_frame, vop2_frame, vop2_frame, vop2_frame, vop2_frame,
      vop2_frame, vop2_frame, vop2_frame, vop2_frame, vop2_frame, vop2_frame, vfmaOp_frame, vfmaOp_frame,
      vop1_frame (ok := LaneOp.okA .add) (f := absLane), vop1_frame (ok := LaneOp.okA .add) (f := negLane),
      vop1_frame (ok := fun _ => true) (f := fun t x => 2 ^ tagWidth t - 1 - x),
      vop1_frame (ok := isInt) (f := fun t x => clzLane (tagWidth t) x), vop1_frame (ok := isInt) (f := fun t x => popLane (tagWidth t) x),
      vop1_frame (ok := isFlt) (f := approx 0), vop1_frame (ok := isFlt) (f := approx 1), vop1_frame (ok := isFlt) (f := approx 2),
      vop1_frame (ok := isFlt) (f := approx 3), execVsqrt_frame (.inr le_rfl),
      vreduce_frame (.inr le_rfl),
      fun h => ⟨execVsqrt_frame (.inl (rndOf_ne_sr h)), vreduce_frame (.inl (rndOf_ne_sr h)), execVcvt_frame (.inl (rndOf_ne_sr h))⟩,
      vreduce_frame (.inl (by decide)), vreduce_frame (.inl (by decide)), vreduce_frame (.inl (by decide)),
      vreduce_frame (.inl (by decide)), vreduce_frame (.inl (by decide)), execVcvt_frame (.inr le_rfl), execVscl_frame, execVqnt_frame,
      execVrtrec_frame,
      vslide_frame (src := fun _ i => if amt.toNat ≤ i then some (i - amt.toNat) else none),
      vslide_frame (src := fun n i => if i + amt.toNat < n then some (i + amt.toNat) else none),
      vslide_frame (src := fun n i => some ((i + amt.toNat) % n)), execVperm_frame, execVperm2_frame,
      vzipOp_frame (f := fun x y => let l := interleave x y; (l.take x.length, l.drop x.length)),
      vzipOp_frame (f := fun x y => (evens (x ++ y), evens ((x ++ y).drop 1))), execVtagw_frame, execVbcast_frame, execVtag_frame,
      execVmovg_frame, vcmpOp_frame (acc := false), vcmpOp_frame (acc := true), kop2_frame (f := (· &&& ·)), kop2_frame (f := (· ||| ·)),
      kop2_frame (f := (· ^^^ ·)), kop2_frame (f := fun x y => x &&& ~~~y), execKnot_frame, execKfromg_frame,
      maskToG_frame (f := fun x => x), maskToG_frame (f := fun x => BitVec.ofNat 64 (popLane 64 x.toNat)),
      maskToG_frame (f := fun x => BitVec.ofNat 64 (lowestBit 64 x.toNat))⟩
  case memory =>
    have lanes : ∀ {g : Tag} {m : Word} {at_ : Nat → Word}, Kept s t [] [] [] (s.lanesStored g m at_) → OwnKept s t [] [] [] ∧ ∀ x,
        (∀ j, j < tagLanes g → active m (tagLanes g) j = true →
          ¬(s.lanesLooked (tagWidth g / 8) at_ (fun i => active m (tagLanes g) i) j).storedTo .wr (offOf (at_ j)) (tagWidth g / 8) x) →
        t.byte x = s.byte x := fun h => ⟨h.own, fun x hx => h.bytes x fun ⟨j, hj, ha, hs⟩ => hx j hj ha hs⟩
    refine ⟨fun h => (spanLoad_kept h).outside_logs, fun h => (spanLoad_kept h).outside_logs, fun h => (execVlds_kept h).outside_logs,
      fun h => (execVldt_kept h).outside_logs, fun h => (execVldg_kept h).outside_logs,
      fun h => ⟨(execVst_kept h).own, fun x hx => (execVst_kept h).bytes x fun hin => hx ?_⟩,
      fun h => lanes (execVsts_kept h), fun h => lanes (execVstg_kept h)⟩
    unfold State.partsStored at hin
    dsimp only at hin
    revert hin
    cases (s.access s.agent s.sup .wr (offOf (s.gVal base + off.signExtend 64 * 64 + s.bump 64)) 64).1 <;> exact id

end Sys2Proof.Machine

/-!
SUPPORT. Span loads and stores (R237, R238, R240): the bytes that a mask leaves out, one access, and the parts of a store.
-/
namespace Sys2Proof.Machine

/-! ### What an instruction has read -/

/-- What an instruction has read tells itself by link tags and the mark of damage alone, whatever translations come between. -/
def State.ReadBy (s : State) (f : State → State) : Prop :=
  ∃ l h, f s = s.tainted l h ∧ ∀ tlb n, f (s.looked tlb n) = (s.looked tlb n).tainted l h

theorem State.readBy_reads (s : State) (l : List GNum) : s.ReadBy fun u => u.reads l := ⟨_, _, rfl, fun _ _ => rfl⟩

theorem State.ReadBy.readsV {s : State} {f : State → State} (h : s.ReadBy f) (l : List VNum) : s.ReadBy fun u => (f u).readsV l := by
  obtain ⟨l', h', e, he⟩ := h
  refine ⟨((s.tainted l' h').readsV l).taint, h', congrArg (State.readsV · l) e, fun tlb n => congrArg (State.readsV · l) (he tlb n)⟩

theorem State.ReadBy.taintK {s : State} {f : State → State} (h : s.ReadBy f) (k : KNum) : s.ReadBy fun u => (f u).taintK k := by
  obtain ⟨l', h', e, he⟩ := h
  have read : ∀ u : State, (u.tainted l' h').ctx = s.ctx → (u.tainted l' h').taintK k =
      u.tainted ((s.tainted l' h').taintK k).taint ((s.tainted l' h').taintK k).hurt := by
    intro u hu
    unfold State.taintK State.touch
    rw [hu]
    split <;> rfl
  exact ⟨_, _, (congrArg (State.taintK · k) e).trans (read s rfl), fun tlb n => (congrArg (State.taintK · k) (he tlb n)).trans (read _ rfl)⟩

/-- The checks of an access do not see what the instruction has read. -/
theorem State.ReadBy.access {s t : State} {f : State → State} (h : s.ReadBy f) {p : Perm} {o n : Nat} {r : AccRes}
    (ha : s.access s.agent s.sup p o n = (r, t)) : (f s).access (f s).agent (f s).sup p o n = (r, f t) := by
  obtain ⟨l', h', e, he⟩ := h
  obtain ⟨tlb, d, rfl⟩ := State.access_eq_looked ha
  rw [e, he, State.access_tainted_eq, ha]

/-- Nothing else of the state has changed. -/
theorem State.ReadBy.tainted {s : State} {f : State → State} (h : s.ReadBy f) : ∃ l b, f s = s.tainted l b :=
  let ⟨l, b, e, _⟩ := h
  ⟨l, b, e⟩

/-! ### Loads of own memory -/

section
variable {s t : State} {els : List (Word × Nat × Nat)} {ats : List ElemAt}

/-- Elements that all stand in own memory ask for nothing. -/
theorem State.requestMissing_mem (s : State) : ∀ (l : List (Nat × Nat × Nat)) (i : Nat),
    s.requestMissing i (l.map fun x => .mem x.1 x.2.1 x.2.2) = s
  | [], _ => rfl
  | _ :: r, i => State.requestMissing_mem s r (i + 1)

/-- With no request sent no element has failed. -/
theorem State.firstStatus_of_sent_nil (h : s.ctx.sent = []) : ∀ (l : List ElemAt) (i : Nat), s.firstStatus i l = none
  | [], _ => rfl
  | _ :: r, i => by
    rw [State.firstStatus, Ctx.replyOf_of_sent_nil h]
    exact State.firstStatus_of_sent_nil h r (i + 1)

/-- A load whose checks find every element in own memory reads them (R203). -/
theorem State.loadElems_mem {l : List (Nat × Nat × Nat)} {k : List (List Byte) → State → State} {kf : BitVec 4 → State → State}
    (hc : ∀ k', s.checkLoads [] els k' = k' (l.map fun x => .mem x.1 x.2.1 x.2.2) t) (hsent : t.ctx.sent = []) :
    s.loadElems els k kf = t.readElems t 0 [] (l.map fun x => .mem x.1 x.2.1 x.2.2) k := by
  rw [State.loadElems, hc]
  dsimp only
  rw [State.requestMissing_mem, hsent, List.any_nil, if_neg Bool.false_ne_true, State.firstStatus_of_sent_nil hsent]

variable {ea : Word} {n skip key : Nat}

/-- The checks of one element of own memory that a mask does not leave out. -/
theorem State.checkLoads_masked {k : List ElemAt → State → State} (hs : allSkipped n skip = false) (hal : ea.toNat % n = 0)
    (hown : resolve s.me ea = s.me) (ha : s.access s.agent s.sup .rd (offOf ea) n = (.ok key, t)) :
    s.checkLoads [] [(ea, n, skip)] k = k [.mem (offOf ea) key n] t := by
  simp [State.checkLoads, hal, hown, ha, hs]

/-- The checks of one element that nothing is read of. -/
theorem State.checkLoads_only {k : State → State} (hal : ea.toNat % n = 0) (hown : resolve s.me ea = s.me)
    (ha : s.access s.agent s.sup .rd (offOf ea) n = (.ok key, t)) : s.checkLoads [] [(ea, n, skip)] (fun _ => k) = k t := by
  simp [State.checkLoads, hal, hown, ha]

/-- A load of one element of own memory that a mask does not leave out. -/
theorem State.loadElems_masked {k : List (List Byte) → State → State} {kf : BitVec 4 → State → State} (hs : allSkipped n skip = false)
    (hal : ea.toNat % n = 0) (hown : resolve s.me ea = s.me) (ha : s.access s.agent s.sup .rd (offOf ea) n = (.ok key, t))
    (hsent : s.ctx.sent = []) (hT : s.readTime (granule (offOf ea)) s.ctx.clk < clockLimit) : s.loadElems [(ea, n, skip)] k kf =
      k [s.bytes key n] ((t.stampRead (granule (offOf ea)) (s.readTime (granule (offOf ea)) s.ctx.clk)).setClk
        (s.readTime (granule (offOf ea)) s.ctx.clk)) := by
  obtain ⟨x, d, rfl⟩ := State.access_eq_looked ha
  rw [State.loadElems_mem (l := [(offOf ea, key, n)]) (fun _ => State.checkLoads_masked hs hal hown ha) hsent, List.map_singleton,
    State.readElems_own (s := s.looked x d) hT, State.bytes_congr s (s.looked x d) n key fun _ _ => rfl]
  rfl

end

/-! ### The bytes that a mask leaves out -/

theorem spanSkip_lt (m : Word) (g : Tag) : ∀ n, spanSkip m g n < 2 ^ n
  | 0 => Nat.one_pos
  | n + 1 => by
    have := spanSkip_lt m g n
    unfold spanSkip
    dsimp only
    split <;> omega

/-- Bit i tells whether byte i is left out (R240). -/
theorem spanSkip_bit (m : Word) (g : Tag) : ∀ n i, i < n →
    (spanSkip m g n).testBit i = !active m (tagLanes g) (i % 64 * 8 / tagWidth g)
  | n + 1, i, h => by
    have hlt := spanSkip_lt m g n
    unfold spanSkip
    dsimp only
    rcases Nat.lt_succ_iff_lt_or_eq.mp h with hi | rfl
    · rw [← spanSkip_bit m g n i hi]
      split
      · rw [Nat.zero_add]
      · exact Nat.testBit_two_pow_add_gt hi _
    · cases ha : active m (tagLanes g) (i % 64 * 8 / tagWidth g)
      · rw [if_neg Bool.false_ne_true, Nat.testBit_two_pow_add_eq, Nat.testBit_lt_two_pow hlt]
      · rw [if_pos rfl, Nat.zero_add, Nat.testBit_lt_two_pow hlt]
        rfl

/-- The byte of a span that a lane begins in is the lane's. -/
theorem active_byte (g : Tag) (m : Word) (i : Nat) (h : i < tagLanes g) : i * tagWidth g / 8 < 64 ∧
    active m (tagLanes g) (i * tagWidth g / 8 % 64 * 8 / tagWidth g) = active m (tagLanes g) i := by
  have hlt : i * tagWidth g / 8 < 64 := by
    have := tag_lanes g
    have : i * tagWidth g < tagLanes g * tagWidth g := Nat.mul_lt_mul_of_pos_right h (tagWidth_pos g)
    rw [Nat.mul_comm (tagLanes g)] at this
    omega
  refine ⟨hlt, ?_⟩
  rw [Nat.mod_eq_of_lt hlt]
  by_cases hq : g = .q4
  · subst hq
    show m.getLsbD (i * 4 / 8 * 8 / 4 / 2) = m.getLsbD (i / 2)
    congr 1
    omega
  · obtain ⟨w, hw, h8⟩ : ∃ w, 0 < w ∧ tagWidth g = 8 * w := by
      refine ⟨tagWidth g / 8, ?_⟩
      cases g with
      | q4 => exact absurd rfl hq
      | _ => decide
    rw [h8, show i * (8 * w) = i * w * 8 by ring, Nat.mul_div_cancel _ (by decide), show i * w * 8 = i * (8 * w) by ring,
      Nat.mul_div_cancel _ (by omega)]

/-- A span with an active lane is read. -/
theorem allSkipped_span {g : Tag} {m : Word} {n : Nat} (hn : 64 ≤ n) (h : ∃ i, i < tagLanes g ∧ active m (tagLanes g) i = true) :
    allSkipped n (spanSkip m g n) = false := by
  obtain ⟨i, hi, ha⟩ := h
  obtain ⟨hlt, hb⟩ := active_byte g m i hi
  rw [allSkipped, decide_eq_false_iff_not, Nat.mod_eq_of_lt (spanSkip_lt m g n)]
  intro he
  have := spanSkip_bit m g n _ (hlt.trans_le hn)
  rw [he, hb, ha, Nat.testBit_two_pow_sub_one, decide_eq_true (hlt.trans_le hn)] at this
  exact Bool.noConfusion this

/-- The active lanes of a register. -/
theorem activeLanes_isEmpty (g : Tag) (m : Word) :
    (activeLanes m g).isEmpty = true ↔ ∀ i, i < tagLanes g → active m (tagLanes g) i = false := by
  simp [activeLanes]

/-! ### Span loads -/

/-- The lanes of the first 64 bytes of a span. -/
theorem spanLanes_bytes (s : State) (g : Tag) (key lo n : Nat) (h : lo + 64 ≤ n) : spanLanes g (s.bytes key n) lo =
    (List.range (tagLanes g)).map fun i => laneOf (tagWidth g) (BitVec.ofNat 512 (s.num (key + lo) 64)) i := by
  have cut : ∀ (lo key n : Nat), lo ≤ n → (s.bytes key n).drop lo = s.bytes (key + lo) (n - lo) := by
    intro lo
    induction lo with
    | zero => exact fun _ _ _ => rfl
    | succ lo ih =>
      intro key n h
      obtain ⟨n, rfl⟩ : ∃ k, n = k + 1 := ⟨n - 1, by omega⟩
      rw [Nat.add_sub_add_right, show key + (lo + 1) = key + 1 + lo by omega]
      exact ih (key + 1) n (by omega)
  have front : ∀ (j key n : Nat), j ≤ n → (s.bytes key n).take j = s.bytes key j := by
    intro j
    induction j with
    | zero => exact fun _ _ _ => rfl
    | succ j ih =>
      intro key n h
      obtain ⟨n, rfl⟩ : ∃ k, n = k + 1 := ⟨n - 1, by omega⟩
      exact congrArg (s.byte key :: ·) (ih (key + 1) n (by omega))
  rw [spanLanes, cut lo key n (by omega), front 64 _ _ (by omega)]
  rfl

/-- The lanes of no bytes. -/
theorem spanLanes_nil (g : Tag) (lo : Nat) : spanLanes g [] lo = List.replicate (tagLanes g) 0 := by
  rw [spanLanes, List.drop_nil, List.take_nil, lanesOf]
  exact List.eq_replicate_iff.mpr ⟨by simp, fun x hx => by
    obtain ⟨i, -, rfl⟩ := List.mem_map.mp hx
    rw [laneOf, show leNat [] = 0 from rfl, BitVec.toNat_zero, Nat.zero_div, Nat.zero_mod]⟩

/-- What a span load leaves of its destinations. -/
def State.fillSpan (s : State) (d2 : Bool) (d : VNum) (g : Tag) (m : Word) (l : List Byte) : State :=
  if d2 then (s.putV d g m (spanLanes g l 0)).putV (vAt d 1) g m (spanLanes g l 64) else s.putV d g m (spanLanes g l 0)

/-- The bytes of a span load. -/
def spanBytes (d2 : Bool) : Nat := if d2 then 128 else 64

section
variable {s t : State} {d2 : Bool} {d : VNum} {base : GNum} {fa : Bool} {tag : BitVec 4} {k : KNum} {off : BitVec 5} {g : Tag} {key : Nat}

/-- The address of a span load. -/
def State.spanEa (s : State) (base : GNum) (off : BitVec 5) (n : Nat) : Word :=
  s.gVal base + off.signExtend 64 * BitVec.ofNat 64 n + s.bump n

/-- A span load with readable sources. -/
theorem spanLoad_eq (hd : (d2 && decide (d.val % 2 = 1)) = false) (hg : vTagOfCode tag.toNat = some g) (hbase : s.gOk base = true) :
    spanLoad d2 d base fa tag k off s = .next (
      if (activeLanes (s.getK k) g).isEmpty then
        ((s.reads [base]).taintK k).checkLoads [] [(s.spanEa base off (spanBytes d2), spanBytes d2, spanSkip (s.getK k) g (spanBytes d2))]
          fun _ u => (u.fillSpan d2 d g (s.getK k) []).finish 4
      else ((s.reads [base]).taintK k).loadElems [(s.spanEa base off (spanBytes d2), spanBytes d2, spanSkip (s.getK k) g (spanBytes d2))]
        (fun l u => (u.fillSpan d2 d g (s.getK k) (l.headD [])).finish 4)
        fun st u => (u.poisonDests st (if d2 then [d, vAt d 1] else [d])).finish 4) := by
  have hbump : ((s.reads [base]).taintK k).bump (spanBytes d2) = s.bump (spanBytes d2) := by
    obtain ⟨l, b, e⟩ := ((s.readBy_reads [base]).taintK k).tainted
    exact e ▸ rfl
  rw [spanLoad]
  dsimp only
  rw [hd, if_neg Bool.false_ne_true, State.memTag, hg]
  dsimp only
  rw [Bool.false_and, if_neg Bool.false_ne_true, s.srcG_ok _ _ _ hbase, State.mask_eq]
  show Host.Outcome.next (if _ then State.checkLoads _ [] [(s.gVal base + _ + ((s.reads [base]).taintK k).bump (spanBytes d2), _, _)] _
    else State.loadElems _ [(s.gVal base + _ + ((s.reads [base]).taintK k).bump (spanBytes d2), _, _)] _ _) = _
  rw [hbump]
  rfl

variable (hg : vTagOfCode tag.toNat = some g) (hbase : s.gOk base = true) (hd : (d2 && decide (d.val % 2 = 1)) = false)
  (hal : (s.spanEa base off (spanBytes d2)).toNat % spanBytes d2 = 0) (hown : resolve s.me (s.spanEa base off (spanBytes d2)) = s.me)
  (ha : s.access s.agent s.sup .rd (offOf (s.spanEa base off (spanBytes d2))) (spanBytes d2) = (.ok key, t))
include hg hbase hd hal hown ha

/-- A span load of own memory with an active lane (R240). -/
theorem spanLoad_active (hsent : s.ctx.sent = []) (hact : ∃ i, i < tagLanes g ∧ active (s.getK k) (tagLanes g) i = true)
    (hT : s.readTime (granule (offOf (s.spanEa base off (spanBytes d2)))) s.ctx.clk < clockLimit) :
    spanLoad d2 d base fa tag k off s = .next ((((((t.reads [base]).taintK k).stampRead
      (granule (offOf (s.spanEa base off (spanBytes d2)))) (s.readTime (granule (offOf (s.spanEa base off (spanBytes d2)))) s.ctx.clk)).setClk
      (s.readTime (granule (offOf (s.spanEa base off (spanBytes d2)))) s.ctx.clk)).fillSpan d2 d g (s.getK k)
        (s.bytes key (spanBytes d2))).finish 4) := by
  have hread := (s.readBy_reads [base]).taintK k
  obtain ⟨l, b, e⟩ := hread.tainted
  have hne : (activeLanes (s.getK k) g).isEmpty = false := by
    rw [Bool.eq_false_iff, Ne, activeLanes_isEmpty]
    obtain ⟨i, hi, hai⟩ := hact
    exact fun h => Bool.false_ne_true ((h i hi).symm.trans hai)
  have hn : 64 ≤ spanBytes d2 := by cases d2 <;> decide
  rw [spanLoad_eq hd hg hbase, hne, if_neg Bool.false_ne_true]
  refine congrArg Host.Outcome.next ((State.loadElems_masked (allSkipped_span hn hact) hal ?_ (hread.access ha) ?_ ?_).trans ?_)
  · exact e ▸ hown
  · exact e ▸ hsent
  · exact e ▸ hT
  · rw [e]
    rw [State.bytes_congr s (s.tainted l b) _ _ fun _ _ => rfl]
    rfl

/-- A span load of own memory with no active lane: the span is checked and nothing is read (R238). -/
theorem spanLoad_inactive (hact : ∀ i, i < tagLanes g → active (s.getK k) (tagLanes g) i = false) :
    spanLoad d2 d base fa tag k off s = .next ((((t.reads [base]).taintK k).fillSpan d2 d g (s.getK k) []).finish 4) := by
  have hread := (s.readBy_reads [base]).taintK k
  obtain ⟨l, b, e⟩ := hread.tainted
  rw [spanLoad_eq hd hg hbase, if_pos ((activeLanes_isEmpty g _).mpr hact)]
  exact congrArg Host.Outcome.next (State.checkLoads_only hal (by exact e ▸ hown) (hread.access ha))

end

/-! ### Span stores -/

section
variable {s t : State} {ea : Word} {n key : Nat} {parts : List (Nat × List Byte)} {k : State → State}

/-- A store of one access of own memory that the checks allow (R205). -/
theorem State.storeElems_parts (hal : ea.toNat % n = 0) (hown : ownForm s.me ea = true)
    (ha : s.access s.agent s.sup .wr (offOf ea) n = (.ok key, t)) (hp : parts ≠ [])
    (hT : s.writeTime (granule (offOf ea)) s.ctx.clk < clockLimit) :
    s.storeElems [⟨ea, n, parts⟩] k = k (((t.stampWrite (granule (offOf ea)) (s.writeTime (granule (offOf ea)) s.ctx.clk)).setClk
      (s.writeTime (granule (offOf ea)) s.ctx.clk)).writeParts (offOf ea) n key (s.writeTime (granule (offOf ea)) s.ctx.clk) parts).markSide := by
  obtain ⟨x, d, rfl⟩ := State.access_eq_looked ha
  have hT' : ¬clockLimit ≤ (s.looked x d).writeTime (granule (offOf ea)) (s.looked x d).ctx.clk := not_le.mpr hT
  have he : parts.isEmpty = false := List.isEmpty_eq_false_iff.mpr hp
  simp only [State.storeElems, State.checkStores, hown, hal, ha, Bool.not_true, Bool.false_eq_true, ne_eq, not_true_eq_false, if_false,
    List.reverse_singleton, State.performStores, he, if_neg hT']
  rfl

/-- A store of no part. -/
theorem State.storeElems_no_parts (hal : ea.toNat % n = 0) (hown : ownForm s.me ea = true)
    (ha : s.access s.agent s.sup .wr (offOf ea) n = (.ok key, t)) : s.storeElems [⟨ea, n, []⟩] k = k t.markSide := by
  simp [State.storeElems, State.checkStores, hown, hal, ha, State.performStores]

end

/-- A `vst` with readable sources in a context with only checked registers is one access. -/
theorem execVst_eq {s : State} {r : VNum} {base : GNum} {fa : Bool} {k : KNum} {off : BitVec 5} (hbase : s.gOk base = true)
    (hr : s.vOk r = true) (hc : s.allChecked) : execVst r base fa k off s = .next ((((s.reads [base]).readsV [r]).taintK k).storeElems
      [⟨s.gVal base + off.signExtend 64 * 64 + s.bump 64, 64, spanParts (s.getK k) s.ctx.v[r].tag
        (offOf (s.gVal base + off.signExtend 64 * 64 + s.bump 64)) s.ctx.v[r].val⟩] fun u => u.finish 4) := by
  have hstart : ∃ l b, ((s.reads [base]).readsV [r]).taintK k = s.tainted l b := (((s.readBy_reads [base]).readsV [r]).taintK k).tainted
  rw [execVst, s.srcG_ok _ _ _ hbase, (s.reads [base]).srcV_ok _ _ _ hr, State.mask_eq]
  obtain ⟨l, b, e⟩ := hstart
  rw [e, State.checked_of_allChecked (s := s.tainted l b) hc]
  rfl

/-- Parts of w bytes at multiples of w that divide a register. -/
theorem spanParts_eq (m : Word) (g : Tag) (o : Nat) (v : VWord) : ∃ w n, 0 < w ∧ n * w = 64 ∧ (g ≠ .q4 → tagWidth g = 8 * w) ∧ (g = .q4 → w = 1) ∧
    n = (if g = .q4 then 64 else tagLanes g) ∧
    spanParts m g o v = ((List.range n).filter fun i => active m n i).map fun i => (o + i * w, ((vBytes v).drop (i * w)).take w) := by
  cases g with
  | q4 => exact ⟨1, 64, by decide, by decide, fun h => absurd rfl h, fun _ => rfl, rfl, rfl⟩
  | raw | i64 => exact ⟨8, 8, by decide, by decide, fun _ => rfl, nofun, rfl, rfl⟩
  | i32 | n32 | f32 | rt => exact ⟨4, 16, by decide, by decide, fun _ => rfl, nofun, rfl, rfl⟩
  | i16 | n16 | bf16 | f16 => exact ⟨2, 32, by decide, by decide, fun _ => rfl, nofun, rfl, rfl⟩
  | i8 | n8 | f8e4 | f8e5 | q8 => exact ⟨1, 64, by decide, by decide, fun _ => rfl, nofun, rfl, rfl⟩
  | a80 => exact ⟨16, 4, by decide, by decide, fun _ => rfl, nofun, rfl, rfl⟩

/-- The length of a part. -/
theorem part_length (v : VWord) {w n i : Nat} (h : n * w = 64) (hi : i < n) : (((vBytes v).drop (i * w)).take w).length = w := by
  have : (i + 1) * w ≤ n * w := Nat.mul_le_mul_right w hi
  rw [List.length_take, List.length_drop, vBytes, toLe_length]
  have hs : (i + 1) * w = i * w + w := by ring
  omega

/-- A byte of a span belongs to a part when its lane is active (R215, R240). -/
theorem spanParts_covers (m : Word) (g : Tag) (o : Nat) (v : VWord) {j : Nat} (hj : j < 64) :
    (∃ p ∈ spanParts m g o v, p.1 ≤ o + j ∧ o + j < p.1 + p.2.length) ↔
      active m (if g = .q4 then 64 else tagLanes g) (if g = .q4 then j else 8 * j / tagWidth g) = true := by
  obtain ⟨w, n, hw, hnw, h8, h1, hn, he⟩ := spanParts_eq m g o v
  have hlane : (if g = .q4 then j else 8 * j / tagWidth g) = j / w := by
    split
    next h => rw [h1 h, Nat.div_one]
    next h => rw [h8 h, Nat.mul_div_mul_left _ _ (by decide)]
  have hjn : j / w < n := Nat.div_lt_of_lt_mul (by rw [Nat.mul_comm, hnw]; exact hj)
  rw [he, hlane, ← hn]
  constructor
  · rintro ⟨p, hp, hlo, hhi⟩
    obtain ⟨i, hi, rfl⟩ := List.mem_map.mp hp
    obtain ⟨hin, ha⟩ := List.mem_filter.mp hi
    rw [part_length v hnw (List.mem_range.mp hin)] at hhi
    have : j / w = i := Nat.div_eq_of_lt_le (by omega) (by rw [Nat.add_mul]; omega)
    exact this ▸ ha
  · intro ha
    refine ⟨_, List.mem_map_of_mem (List.mem_filter.mpr ⟨List.mem_range.mpr hjn, ha⟩), ?_, ?_⟩
    · exact Nat.add_le_add_left (Nat.div_mul_le_self j w) o
    · rw [part_length v hnw hjn]
      have := Nat.lt_div_mul_add (a := j) hw
      dsimp only
      omega

/-- The bytes of a part are the register's. -/
theorem spanParts_byte (m : Word) (g : Tag) (o : Nat) (v : VWord) {p : Nat × List Byte} (hp : p ∈ spanParts m g o v) {i : Nat}
    (h : i < p.2.length) : o ≤ p.1 ∧ p.1 + i < o + 64 ∧ p.2[i] = BitVec.ofNat 8 (v.toNat / 2 ^ (8 * (p.1 + i - o))) := by
  obtain ⟨w, n, hw, hnw, -, -, -, he⟩ := spanParts_eq m g o v
  rw [he] at hp
  obtain ⟨j, hj, rfl⟩ := List.mem_map.mp hp
  have hjn : j < n := List.mem_range.mp (List.mem_filter.mp hj).1
  have hi : i < w := by
    rw [part_length v hnw hjn] at h
    exact h
  have hbound : (j + 1) * w ≤ n * w := Nat.mul_le_mul_right w hjn
  have hs : (j + 1) * w = j * w + w := by ring
  refine ⟨Nat.le_add_right _ _, by dsimp only; omega, ?_⟩
  have hdrop : o + j * w + i - o = j * w + i := by omega
  dsimp only
  rw [List.getElem_take, List.getElem_drop, hdrop, pow_mul]
  exact toLe_get 64 v.toNat (j * w + i) _

/-- Settles O25: a span load is one access (`spanLoad_active`, `spanLoad_inactive`), a `vst` one access of the parts of its active
lanes (`spanParts_covers`, `spanParts_byte`). -/
theorem vectorSpans : Obligations.VectorSpans := by
  unfold Obligations.VectorSpans
  refine ⟨fun s t d base fa tag k off g key hbase hsent hg => ⟨fun hact => ?active, fun hact => ?inactive⟩,
    fun s t r base fa tag k off key => ⟨fun hbase hr hc hal hown ha => ?store, fun j hj => spanParts_covers _ _ _ _ hj,
      fun p hp i h => spanParts_byte _ _ _ _ hp h, fun hn => ?noTag, fun hodd => ?odd⟩⟩
  case active =>
    refine ⟨fun ⟨hal, hown, ha⟩ hT => ?_, fun ⟨hal, hown, ha⟩ hT hd => ?_⟩
    · refine (spanLoad_active (d2 := false) hg hbase rfl hal hown ha hsent hact hT).trans ?_
      rw [State.fillSpan, if_neg Bool.false_ne_true, spanLanes_bytes s g key 0 _ (by decide)]
      rfl
    · have hd' : (true && decide (d.val % 2 = 1)) = false := by simp [hd]
      refine (spanLoad_active (d2 := true) hg hbase hd' hal hown ha hsent hact hT).trans ?_
      rw [State.fillSpan, if_pos rfl, spanLanes_bytes s g key 0 _ (by decide), spanLanes_bytes s g key 64 _ (by decide)]
      rfl
  case inactive =>
    refine ⟨fun ⟨hal, hown, ha⟩ => ?_, fun ⟨hal, hown, ha⟩ hd => ?_⟩
    · refine (spanLoad_inactive (d2 := false) hg hbase rfl hal hown ha hact).trans ?_
      rw [State.fillSpan, if_neg Bool.false_ne_true, spanLanes_nil]
    · have hd' : (true && decide (d.val % 2 = 1)) = false := by simp [hd]
      refine (spanLoad_inactive (d2 := true) hg hbase hd' hal hown ha hact).trans ?_
      rw [State.fillSpan, if_pos rfl, spanLanes_nil, spanLanes_nil]
  case store =>
    have hread := ((s.readBy_reads [base]).readsV [r]).taintK k
    obtain ⟨l, b, e⟩ := hread.tainted
    have hown' : ownForm (((s.reads [base]).readsV [r]).taintK k).me (s.gVal base + off.signExtend 64 * 64 + s.bump 64) = true := by
      rw [e]
      exact hown
    refine ⟨fun hp hT => (execVst_eq hbase hr hc).trans (congrArg Host.Outcome.next ?_), fun hp => (execVst_eq hbase hr hc).trans
      (congrArg Host.Outcome.next ?_)⟩
    · refine (State.storeElems_parts hal hown' (hread.access ha) hp ?_).trans ?_
      · rw [e]
        exact hT
      · rw [e]
        rfl
    · rw [hp]
      exact State.storeElems_no_parts hal hown' (hread.access ha)
  case noTag =>
    show spanLoad false r base fa tag k off s = _
    rw [spanLoad]
    dsimp only
    rw [Bool.false_and, if_neg Bool.false_ne_true, State.memTag, hn]
  case odd =>
    refine congrArg Host.Outcome.next (if_pos ?_)
    simp [hodd]

end Sys2Proof.Machine

/-!
SUPPORT. Vector loads and stores of elements in own scratchpad (R237, R238, R241): each element checked, then moved in lane order.
-/
namespace Sys2Proof.Machine

/-- An element of own scratchpad that the checks allow. -/
def State.spadElem (s : State) (p : Perm) (w : Nat) (ea : Word) : Prop :=
  ea.toNat % w = 0 ∧ inSpad (offOf ea) w = true ∧ s.badWord (offOf ea) w = false ∧ s.spadAllowed s.sup p (offOf ea) w = true

/-! ### Loads of elements -/

/-- An element read: placed as one LocalRead, unless its time is past the clock limit (R97, R114). -/
def State.readSpad (x : State) (o : Nat) : Option State :=
  if x.readTime (granule o) x.ctx.clk < clockLimit then
    some ((x.stampRead (granule o) (x.readTime (granule o) x.ctx.clk)).setClk (x.readTime (granule o) x.ctx.clk))
  else none

section
variable {s : State} {w : Nat}

/-- The checks of elements of own scratchpad. -/
theorem State.checkLoads_spad (hw : 0 < w) {k : List ElemAt → State → State} : ∀ (l : List Word) (acc : List ElemAt),
    (∀ ea ∈ l, s.spadElem .rd w ea ∧ resolve s.me ea = s.me) →
    s.checkLoads acc (l.map fun ea => (ea, w, 0)) k = k (acc.reverse ++ l.map fun ea => .mem (offOf ea) (offOf ea) w) s
  | [], acc, _ => by
    rw [List.map_nil, List.map_nil, List.append_nil]
    rfl
  | ea :: r, acc, h => by
    obtain ⟨⟨hal, hs, hb, hp⟩, hown⟩ := h ea List.mem_cons_self
    rw [List.map_cons, State.checkLoads]
    rw [if_neg (not_not_intro hal), if_neg (not_not_intro hown), State.access_spad_ok hs hp hb]
    dsimp only
    rw [allSkipped_zero hw, if_neg Bool.false_ne_true, State.checkLoads_spad hw r _ fun ea' he => h ea' (List.mem_cons_of_mem _ he)]
    simp

/-- Elements of own scratchpad are read one after the other (R97, R98). -/
theorem State.readElems_spad {s0 : State} {k : List (List Byte) → State → State} : ∀ (l : List Nat) (i : Nat) (acc : List (List Byte))
    (x u : State), x.mem.cells = s.mem.cells → x.mem.hbmKey = s.mem.hbmKey → l.foldlM State.readSpad x = some u →
    s0.readElems x i acc (l.map fun o => .mem o o w) k = k (acc.reverse ++ l.map fun o => s.bytes o w) u
  | [], i, acc, x, u, _, _, h => by
    obtain rfl : x = u := Option.some.inj h
    rw [List.map_nil, List.map_nil, List.append_nil]
    rfl
  | o :: r, i, acc, x, u, hc, hk, h => by
    rw [List.foldlM_cons] at h
    by_cases hT : x.readTime (granule o) x.ctx.clk < clockLimit
    · rw [State.readSpad, if_pos hT] at h
      have hbytes : ((x.stampRead (granule o) (x.readTime (granule o) x.ctx.clk)).setClk (x.readTime (granule o) x.ctx.clk)).bytes o w =
          s.bytes o w := State.bytes_congr _ _ w o fun a _ => by
        show x.byte (o + a) = s.byte (o + a)
        simp only [State.byte, Memory.get, Memory.residue, hc, hk]
      rw [List.map_cons, State.readElems]
      dsimp only
      rw [if_neg (not_le.mpr hT), State.readElems_spad r (i + 1) _
        ((x.stampRead (granule o) (x.readTime (granule o) x.ctx.clk)).setClk (x.readTime (granule o) x.ctx.clk)) u hc hk h]
      simp only [List.reverse_cons, List.append_assoc, List.map_cons, List.singleton_append]
      rw [hbytes]
    · rw [State.readSpad, if_neg hT] at h
      cases h

/-- A load of elements of own scratchpad. -/
theorem State.loadElems_spad (hw : 0 < w) {l : List Word} {k : List (List Byte) → State → State} {kf : BitVec 4 → State → State}
    {u : State} (hl : ∀ ea ∈ l, s.spadElem .rd w ea ∧ resolve s.me ea = s.me) (hsent : s.ctx.sent = [])
    (hu : (l.map offOf).foldlM State.readSpad s = some u) :
    s.loadElems (l.map fun ea => (ea, w, 0)) k kf = k (l.map fun ea => s.bytes (offOf ea) w) u := by
  rw [State.loadElems_mem (l := l.map fun ea => (offOf ea, offOf ea, w)) (t := s) (fun k' => ?_) hsent]
  · rw [List.map_map]
    have := State.readElems_spad (s := s) (w := w) (s0 := s) (k := k) (l.map offOf) 0 [] s u rfl rfl hu
    rw [List.map_map, List.map_map] at this
    exact this
  · rw [State.checkLoads_spad hw l [] hl, List.map_map]
    rfl

end

/-- What a table that lists f holds. -/
theorem mapGet_graph (f : Nat → Nat) : ∀ (l : List Nat) (i : Nat), i ∈ l → mapGet 0 (l.map fun j => (j, f j)) i = f i
  | j :: r, i, h => by
    rw [List.map_cons, mapGet]
    split
    next e => rw [e]
    next hne => exact mapGet_graph f r i ((List.mem_cons.mp h).resolve_left hne)

/-- A vector result depends on its active lanes alone (R216). -/
theorem mergeLanes_congr {m : Word} {E : Nat} : ∀ (old x y : List Nat) (e : Nat), x.length = y.length →
    (∀ i, active m E (e + i) = true → x[i]? = y[i]?) → mergeLanes m E e old x = mergeLanes m E e old y
  | [], x, y, e, _, _ => by cases x <;> cases y <;> rfl
  | o :: os, [], [], e, _, _ => rfl
  | o :: os, a :: x, b :: y, e, hlen, h => by
    rw [mergeLanes, mergeLanes, mergeLanes_congr os x y (e + 1) (Nat.succ.inj hlen) fun i hi => by
      have := h (i + 1) (by rwa [show e + (i + 1) = e + 1 + i by omega])
      simpa using this]
    congr 1
    split
    next ha => exact Option.some.inj (h 0 ha)
    next => rfl

theorem State.putV_congr (s : State) (d : VNum) (g : Tag) (m : Word) {x y : List Nat} (hlen : x.length = y.length)
    (h : ∀ i, active m (tagLanes g) i = true → x[i]? = y[i]?) : s.putV d g m x = s.putV d g m y := by
  unfold State.putV
  dsimp only
  rw [mergeLanes_congr (lanesOf (tagWidth g) (tagLanes g) s.ctx.v[d].val) x y 0 hlen fun i hi => h i (by rwa [Nat.zero_add] at hi)]

/-- The active lanes take the numbers loaded for them. -/
theorem State.putV_placeLoaded (s : State) (d : VNum) (g : Tag) (m : Word) (bs : Nat → List Byte) :
    s.putV d g m (placeLoaded m g ((activeLanes m g).map bs)) = s.putV d g m ((List.range (tagLanes g)).map fun i => leNat (bs i)) := by
  have hlen : (placeLoaded m g ((activeLanes m g).map bs)).length = tagLanes g := by
    rw [placeLoaded, List.length_map, List.length_range]
  refine s.putV_congr d g m (hlen.trans (by simp)) fun i ha => ?_
  by_cases hi : i < tagLanes g
  · have hgraph : (activeLanes m g).zip (((activeLanes m g).map bs).map leNat) = (activeLanes m g).map fun i => (i, leNat (bs i)) := by
      rw [List.map_map, List.zip_map_right, List.zip_eq_zipWith, List.zipWith_self, List.map_map]
      rfl
    have hmem : i ∈ activeLanes m g := List.mem_filter.mpr ⟨List.mem_range.mpr hi, ha⟩
    rw [placeLoaded, hgraph, range_map_getElem?, range_map_getElem?, mapGet_graph (fun i => leNat (bs i)) _ i hmem]
  · rw [List.getElem?_eq_none (by omega), List.getElem?_eq_none (by simp; omega)]

/-- A byte or more a lane (R237). -/
theorem tagWidth_bytes {g : Tag} (h4 : g ≠ .q4) : 0 < tagWidth g / 8 ∧ 8 * (tagWidth g / 8) = tagWidth g := by
  cases g with
  | q4 => exact absurd rfl h4
  | _ => decide

/-- A load of the active elements from own scratchpad (R238). -/
theorem State.elemLoad_spad {s u : State} {d : VNum} {g : Tag} {m : Word} {at_ : Nat → Word} (h4 : g ≠ .q4) (hsent : s.ctx.sent = [])
    (hl : ∀ i ∈ activeLanes m g, s.spadElem .rd (tagWidth g / 8) (at_ i) ∧ resolve s.me (at_ i) = s.me)
    (hu : ((activeLanes m g).map fun i => offOf (at_ i)).foldlM State.readSpad s = some u) : s.elemLoad d g m at_ =
      (u.putV d g m ((List.range (tagLanes g)).map fun i => s.num (offOf (at_ i)) (tagWidth g / 8))).finish 4 := by
  have h := State.loadElems_spad (s := s) (tagWidth_bytes h4).1 (l := (activeLanes m g).map at_)
    (k := fun l s => (s.putV d g m (placeLoaded m g l)).finish 4) (kf := fun st s => (s.poisonV d st).finish 4) (u := u)
    (fun ea he => by
      obtain ⟨i, hi, rfl⟩ := List.mem_map.mp he
      exact hl i hi) hsent (by rw [List.map_map]; exact hu)
  rw [List.map_map, List.map_map] at h
  exact h.trans (congrArg (State.finish · 4) (u.putV_placeLoaded d g m _))

/-! ### Stores of elements -/

/-- An element written: placed as one LocalWrite, unless its time is past the clock limit. -/
def State.writeSpad (w : Nat) (at_ x : Nat → Nat) (u : State) (i : Nat) : Option State :=
  if u.writeTime (granule (at_ i)) u.ctx.clk < clockLimit then
    some (((u.stampWrite (granule (at_ i)) (u.writeTime (granule (at_ i)) u.ctx.clk)).setClk (u.writeTime (granule (at_ i)) u.ctx.clk)).writeParts
      (at_ i) w (at_ i) (u.writeTime (granule (at_ i)) u.ctx.clk) [(at_ i, toLe w (x i))])
  else none

section
variable {s : State} {w : Nat} {at_ : Nat → Word} {x : Nat → Nat}

/-- The checks of stores to own scratchpad. -/
theorem State.checkStores_spad {k : List (StoreEl × StoreAt) → State → State} : ∀ (l : List Nat) (acc : List (StoreEl × StoreAt)),
    (∀ i ∈ l, s.spadElem .wr w (at_ i) ∧ ownForm s.me (at_ i) = true) → s.checkStores acc (l.map (laneStore w at_ x)) k =
      k (acc.reverse ++ l.map fun i => (laneStore w at_ x i, .mem (offOf (at_ i)) (offOf (at_ i)))) s
  | [], acc, _ => by
    rw [List.map_nil, List.map_nil, List.append_nil]
    rfl
  | i :: r, acc, h => by
    obtain ⟨⟨hal, hs, hb, hp⟩, hown⟩ := h i List.mem_cons_self
    have hown' : ¬(!ownForm s.me (laneStore w at_ x i).ea) = true := by simp [laneStore, hown]
    have hal' : ¬(laneStore w at_ x i).ea.toNat % (laneStore w at_ x i).n ≠ 0 := not_not_intro hal
    have hacc : s.access s.agent s.sup .wr (offOf (laneStore w at_ x i).ea) (laneStore w at_ x i).n = (.ok (offOf (at_ i)), s) :=
      State.access_spad_ok hs hp hb
    rw [List.map_cons, State.checkStores, if_neg hown', if_neg hal', hacc]
    refine (State.checkStores_spad r _ fun j hj => h j (List.mem_cons_of_mem _ hj)).trans ?_
    simp [laneStore]

/-- Stores to own scratchpad are performed one after the other. -/
theorem State.performStores_spad {s0 : State} {all : List (StoreEl × StoreAt)} {done : List Nat} {k : State → State} :
    ∀ (l : List Nat) (y u : State), l.foldlM (State.writeSpad w (fun i => offOf (at_ i)) x) y = some u →
    s0.performStores y all done (l.map fun i => (laneStore w at_ x i, .mem (offOf (at_ i)) (offOf (at_ i)))) k = k u
  | [], y, u, h => by
    obtain rfl : y = u := Option.some.inj h
    rfl
  | i :: r, y, u, h => by
    rw [List.foldlM_cons] at h
    by_cases hT : y.writeTime (granule (offOf (at_ i))) y.ctx.clk < clockLimit
    · rw [State.writeSpad, if_pos hT] at h
      have hne : ¬(laneStore w at_ x i).parts.isEmpty = true := Bool.false_ne_true
      rw [List.map_cons, State.performStores, if_neg hne]
      dsimp only
      rw [if_neg (not_le.mpr hT)]
      exact State.performStores_spad r _ u h
    · rw [State.writeSpad, if_neg hT] at h
      cases h

/-- A store of the active elements to own scratchpad (R238). -/
theorem State.elemStore_spad {v : VReg} {m : Word} {u : State}
    (hl : ∀ i ∈ activeLanes m v.tag, s.spadElem .wr (tagWidth v.tag / 8) (at_ i) ∧ ownForm s.me (at_ i) = true)
    (hu : (activeLanes m v.tag).foldlM (State.writeSpad (tagWidth v.tag / 8) (fun i => offOf (at_ i))
      fun i => laneOf (8 * (tagWidth v.tag / 8)) v.val i) s = some u) : s.elemStore v m at_ = u.markSide.finish 4 := by
  refine (State.checkStores_spad (x := fun i => laneOf (8 * (tagWidth v.tag / 8)) v.val i) (activeLanes m v.tag) [] hl).trans ?_
  dsimp only
  rw [List.reverse_nil, List.nil_append]
  exact State.performStores_spad _ s u hu

end

/-! ### The forms -/

/-- A vector memory form of a whole-byte tag (R237). -/
theorem State.memTag_ok {s : State} {tag : BitVec 4} {g : Tag} {whole : Bool} {k : Tag → State → State} (hg : vTagOfCode tag.toNat = some g)
    (hr : g ≠ .raw) (h4 : g ≠ .q4) : s.memTag tag whole k = k g s := by
  have : (g == .raw || g == .q4) = false := by simp [hr, h4]
  rw [State.memTag, hg]
  dsimp only
  rw [this, Bool.and_false, if_neg Bool.false_ne_true]

/-- The checks of R241 on elements of own scratchpad. -/
theorem State.tileChecks_spad {s : State} {w : Nat} {k : State → State} : ∀ l : List Word,
    (∀ ea ∈ l, s.spadElem .rd w ea ∧ ownForm s.me ea = true) → s.tileChecks w l k = k s
  | [], _ => rfl
  | ea :: r, h => by
    obtain ⟨⟨hal, hs, hb, hp⟩, hown⟩ := h ea List.mem_cons_self
    rw [State.tileChecks, if_neg (not_not_intro hal), if_neg (by simp [hown]), if_neg (by simp [hs]), State.access_spad_ok hs hp hb]
    exact State.tileChecks_spad r fun ea' he => h ea' (List.mem_cons_of_mem _ he)

section
variable {s u : State} {v d a : VNum} {base r : GNum} {fa : Bool} {tag : BitVec 4} {sc : Fin 4} {k : KNum} {e : ENum} {g : Tag}
  (hg : vTagOfCode tag.toNat = some g) (hr : g ≠ .raw) (h4 : g ≠ .q4)
include hg hr h4

section
variable (hb : s.gOk base = true) (hs : s.gOk r = true)
include hb hs

theorem execVlds_next : execVlds d base fa tag k r s = .next (((s.reads [base, r]).taintK k).elemLoad d g (s.getK k)
    fun i => s.gVal base + BitVec.ofNat 64 i * s.gVal r) := by
  rw [execVlds, State.memTag_ok hg hr h4, s.srcG_ok _ _ _ hb, (s.reads [base]).srcG_ok _ _ _ hs, State.reads_reads, State.mask_eq]
  rfl

/-- The swizzled column load, with its check of the layout (R241). -/
theorem execVldt_next : execVldt d base fa tag k r s = .next (
    if bits (s.gVal r) 24 3 ≠ 0 ∧ (5 ≤ bits (s.gVal r) 24 3 ∨ bits (s.gVal r) 0 24 % swzSpan (bits (s.gVal r) 24 3) ≠ 0) then
      ((s.reads [base, r]).taintK k).trapEa 0x07 (s.gVal base + s.bump (tagWidth g / 8))
    else ((s.reads [base, r]).taintK k).tileChecks (tagWidth g / 8) ((activeLanes (s.getK k) g).map
      (tileLane (s.gVal base + s.bump (tagWidth g / 8)) (bits (s.gVal r) 0 24) (bits (s.gVal r) 24 3)))
      fun u => u.elemLoad d g (s.getK k) (tileLane (s.gVal base + s.bump (tagWidth g / 8)) (bits (s.gVal r) 0 24) (bits (s.gVal r) 24 3))) := by
  have hbump : ((s.reads [base, r]).taintK k).bump (tagWidth g / 8) = s.bump (tagWidth g / 8) := by
    obtain ⟨l, b, e⟩ := ((s.readBy_reads [base, r]).taintK k).tainted
    exact e ▸ rfl
  rw [execVldt, State.memTag_ok hg hr h4, s.srcG_ok _ _ _ hb, (s.reads [base]).srcG_ok _ _ _ hs, State.reads_reads, State.mask_eq]
  dsimp only [List.singleton_append]
  rw [hbump]
  rfl

variable (hv : s.vOk v = true) (hc : s.allChecked)
include hv

theorem execVsts_next (htag : s.ctx.v[v].tag = g) (hc : s.allChecked) : execVsts v base fa tag k r s =
    .next ((((s.reads [base, r]).readsV [v]).taintK k).elemStore s.ctx.v[v] (s.getK k) fun i => s.gVal base + BitVec.ofNat 64 i * s.gVal r) := by
  obtain ⟨l, b, e⟩ := (((s.readBy_reads [base, r]).readsV [v]).taintK k).tainted
  have htag' : ((s.reads ([base] ++ [r])).ctx.v[v].tag == g) = true := beq_iff_eq.mpr htag
  rw [execVsts, State.memTag_ok hg hr h4, s.srcG_ok _ _ _ hb, (s.reads [base]).srcG_ok _ _ _ hs, State.reads_reads,
    (s.reads ([base] ++ [r])).srcV_ok _ _ _ hv, State.needTag_ok _ _ _ htag', State.mask_eq]
  refine congrArg Host.Outcome.next (?_ : (((s.reads [base, r]).readsV [v]).taintK k).checked _ = _)
  rw [e, State.checked_of_allChecked (s := s.tainted l b) hc]
  rfl

/-- A vs of another tag than the one named traps 0x06 (R237). -/
theorem execVsts_otherTag (htag : s.ctx.v[v].tag ≠ g) : execVsts v base fa tag k r s =
    .next (((s.reads [base, r]).readsV [v]).trap 0x06) := by
  have hne : ¬(s.ctx.v[v].tag == g) = true := by simpa using htag
  rw [execVsts, State.memTag_ok hg hr h4, s.srcG_ok _ _ _ hb, (s.reads [base]).srcG_ok _ _ _ hs, State.reads_reads,
    (s.reads ([base] ++ [r])).srcV_ok _ _ _ hv]
  exact congrArg Host.Outcome.next (if_neg hne)

end

section
variable (ha : s.vOk a = true) (hI : isInt s.ctx.v[a].tag = true) (hw : tagWidth s.ctx.v[a].tag = tagWidth g)
include ha hI hw

theorem execVldg_next : execVldg d a tag sc k e s = .next ((((s.readsV [a]).taintK k).taintE e).elemLoad d g (s.getK k)
    fun i => s.ctx.e[e] + indexLane s.ctx.v[a] i <<< sc.val) := by
  have hidx : indexOk g s.ctx.v[a] = true := by rw [indexOk, hI, hw]; simp
  obtain ⟨l, b, e'⟩ := (s.readsV [a]).taintK_tainted k
  rw [execVldg, State.memTag_ok hg hr h4, s.srcV_ok _ _ _ ha, State.needTag_ok _ _ _ hidx, State.mask_eq, e']
  rfl

theorem execVstg_next (hv : s.vOk v = true) (hc : s.allChecked) (htag : s.ctx.v[v].tag = g) : execVstg v a tag sc k e s =
    .next ((((s.readsV [a, v]).taintK k).touch (3 * e.val + 2)).elemStore s.ctx.v[v] (s.getK k)
      fun i => s.ctx.e[e] + indexLane s.ctx.v[a] i <<< sc.val) := by
  have hidx : indexOk g s.ctx.v[a] = true := by rw [indexOk, hI, hw]; simp
  obtain ⟨l, b, e'⟩ := (s.readsV [a, v]).taintK_tainted k
  rw [execVstg, State.memTag_ok hg hr h4, s.srcV_ok _ _ _ ha, State.needTag_ok _ _ _ hidx, (s.readsV [a]).srcV_ok _ _ _ hv,
    State.readsV_ctx, State.readsV_readsV, State.needTag_ok _ _ _ (beq_iff_eq.mpr htag), State.mask_eq]
  refine congrArg Host.Outcome.next (?_ : ((s.readsV [a, v]).taintK k).checked _ = _)
  rw [e', State.checked_of_allChecked (s := (s.readsV [a, v]).tainted l b) hc]
  rfl

end

end

/-- The element of a vector in lanes of whole bytes. -/
theorem writeSpad_lane {g : Tag} (h4 : g ≠ .q4) (at_ : Nat → Nat) (v : VWord) :
    State.writeSpad (tagWidth g / 8) at_ (fun i => laneOf (8 * (tagWidth g / 8)) v i) =
      State.writeSpad (tagWidth g / 8) at_ fun i => laneOf (tagWidth g) v i := by
  rw [(tagWidth_bytes h4).2]

section
variable {s u : State} {l : List Nat} {b : Bool} {g : Tag} {m : Word} {at_ : Nat → Word} (h4 : g ≠ .q4)
include h4

/-- A load of the active elements by an instruction that has read its sources. -/
theorem State.elemLoad_read {d : VNum} (hsent : s.ctx.sent = [])
    (hm : ∀ i ∈ activeLanes m g, (at_ i).toNat % (tagWidth g / 8) = 0 ∧ resolve s.me (at_ i) = s.me ∧
      inSpad (offOf (at_ i)) (tagWidth g / 8) = true ∧ s.badWord (offOf (at_ i)) (tagWidth g / 8) = false ∧
      s.spadAllowed s.sup .rd (offOf (at_ i)) (tagWidth g / 8) = true)
    (hu : ((activeLanes m g).map fun i => offOf (at_ i)).foldlM State.readSpad (s.tainted l b) = some u) :
    (s.tainted l b).elemLoad d g m at_ =
      (u.putV d g m ((List.range (tagLanes g)).map fun i => s.num (offOf (at_ i)) (tagWidth g / 8))).finish 4 := by
  have hnum : ∀ o w, (s.tainted l b).num o w = s.num o w := fun o w => congrArg leNat (State.bytes_congr s (s.tainted l b) w o fun _ _ => rfl)
  have h := State.elemLoad_spad (s := s.tainted l b) (d := d) h4 hsent (fun i hi => by
    obtain ⟨hal, hown, hs, hb, hp⟩ := hm i hi
    exact ⟨⟨hal, hs, hb, hp⟩, hown⟩) hu
  simpa only [hnum] using h

/-- A store of the active elements by an instruction that has read its sources. -/
theorem State.elemStore_read {v : VReg} (htag : v.tag = g)
    (hm : ∀ i ∈ activeLanes m g, (at_ i).toNat % (tagWidth g / 8) = 0 ∧ ownForm s.me (at_ i) = true ∧
      inSpad (offOf (at_ i)) (tagWidth g / 8) = true ∧ s.badWord (offOf (at_ i)) (tagWidth g / 8) = false ∧
      s.spadAllowed s.sup .wr (offOf (at_ i)) (tagWidth g / 8) = true)
    (hu : (activeLanes m g).foldlM (State.writeSpad (tagWidth g / 8) (fun i => offOf (at_ i)) fun i => laneOf (tagWidth g) v.val i)
      (s.tainted l b) = some u) : (s.tainted l b).elemStore v m at_ = u.markSide.finish 4 := by
  subst htag
  refine State.elemStore_spad (s := s.tainted l b) (fun i hi => ?_) (by rw [writeSpad_lane h4]; exact hu)
  obtain ⟨hal, hown, hs, hb, hp⟩ := hm i hi
  exact ⟨⟨hal, hs, hb, hp⟩, hown⟩

end

/-- Every mode but the plain one has a span (R125). -/
theorem swzSpan_of_ne {mode : Nat} (h : mode ≠ 0) : swzSpan mode = if mode = 3 then 256 else 128 := by
  rw [swzSpan, if_neg h]

section
variable {s u : State} {d a : VNum} {base r : GNum} {fa : Bool} {tag : BitVec 4} {sc : Fin 4} {k : KNum} {e : ENum} {g : Tag}
  (hg : vTagOfCode tag.toNat = some g) (hr : g ≠ .raw) (h4 : g ≠ .q4) (hb : s.gOk base = true) (hs : s.gOk r = true)
include hg hr h4 hb hs

/-- A layout that is no mode, or whose pitch is out of step, traps 0x07 (R241). -/
theorem execVldt_badLayout (h0 : bits (s.gVal r) 24 3 ≠ 0)
    (hbad : 5 ≤ bits (s.gVal r) 24 3 ∨ bits (s.gVal r) 0 24 % (if bits (s.gVal r) 24 3 = 3 then 256 else 128) ≠ 0) :
    execVldt d base fa tag k r s = .next (((s.reads [base, r]).taintK k).trapEa 0x07 (s.gVal base + s.bump (tagWidth g / 8))) :=
  (execVldt_next hg hr h4 hb hs).trans (congrArg Host.Outcome.next (if_pos ⟨h0, swzSpan_of_ne h0 ▸ hbad⟩))

/-- Any other layout goes on to the checks of the lanes. -/
theorem execVldt_goodLayout
    (hmode : bits (s.gVal r) 24 3 = 0 ∨ (bits (s.gVal r) 24 3 < 5 ∧
      bits (s.gVal r) 0 24 % (if bits (s.gVal r) 24 3 = 3 then 256 else 128) = 0)) :
    execVldt d base fa tag k r s = .next (((s.reads [base, r]).taintK k).tileChecks (tagWidth g / 8) ((activeLanes (s.getK k) g).map
      (tileLane (s.gVal base + s.bump (tagWidth g / 8)) (bits (s.gVal r) 0 24) (bits (s.gVal r) 24 3)))
      fun u => u.elemLoad d g (s.getK k) (tileLane (s.gVal base + s.bump (tagWidth g / 8)) (bits (s.gVal r) 0 24) (bits (s.gVal r) 24 3))) := by
  refine (execVldt_next hg hr h4 hb hs).trans (congrArg Host.Outcome.next (if_neg ?_))
  rintro ⟨h0, hbad⟩
  obtain ⟨hlt, hp⟩ := hmode.resolve_left h0
  rw [swzSpan_of_ne h0] at hbad
  exact hbad.elim (fun h => by omega) fun h => h hp

end

/-- Settles O26: loads and stores of elements of own scratchpad are `elemLoad_read` and `elemStore_read`, after the sources of each form
and, for `vldt`, its check of the layout. -/
theorem vectorElements : Obligations.VectorElements := by
  unfold Obligations.VectorElements
  refine ⟨fun s u d a base r fa tag sc k e g hsent hg hr h4 => ?loads, fun s u v a base r fa tag sc k e g hg hr h4 hv hc => ?stores⟩
  case loads =>
    refine ⟨fun hb hs hm hu => (execVlds_next hg hr h4 hb hs).trans (congrArg Host.Outcome.next ?strided), fun ha hI hw hm hu =>
      (execVldg_next hg hr h4 ha hI hw).trans (congrArg Host.Outcome.next ?gathered), fun hb hs => ⟨fun hmode hform hm hu =>
      (execVldt_goodLayout hg hr h4 hb hs hmode).trans (congrArg Host.Outcome.next ?swizzled), fun h0 hbad =>
      execVldt_badLayout hg hr h4 hb hs h0 hbad⟩⟩
    case strided =>
      obtain ⟨l, b, e'⟩ := ((s.readBy_reads [base, r]).taintK k).tainted
      dsimp only at hu ⊢
      rw [e'] at hu ⊢
      exact State.elemLoad_read h4 hsent hm hu
    case gathered =>
      have hidx : ∀ i, indexLane s.ctx.v[a] i = BitVec.ofInt 64 (laneInt s.ctx.v[a].tag (laneOf (tagWidth g) s.ctx.v[a].val i)) := fun i => by
        rw [indexLane, hw]
      have hread : ∃ l b, ((s.readsV [a]).taintK k).taintE e = s.tainted l b := by
        obtain ⟨l, b, e'⟩ := (s.readsV [a]).taintK_tainted k
        exact e' ▸ ⟨((s.readsV [a]).tainted l b |>.taintE e).taint, ((s.readsV [a]).tainted l b |>.taintE e).hurt, rfl⟩
      obtain ⟨l, b, e'⟩ := hread
      simp only [hidx]
      dsimp only at hu ⊢
      rw [e'] at hu ⊢
      exact State.elemLoad_read h4 hsent hm hu
    case swizzled =>
      obtain ⟨l, b, e'⟩ := ((s.readBy_reads [base, r]).taintK k).tainted
      dsimp only at hu ⊢
      rw [e'] at hu ⊢
      refine (State.tileChecks_spad _ fun ea he => ?_).trans (State.elemLoad_read h4 hsent hm hu)
      obtain ⟨i, hi, rfl⟩ := List.mem_map.mp he
      obtain ⟨hal, -, hs, hb, hp⟩ := hm i hi
      exact ⟨⟨hal, hs, hb, hp⟩, hform i hi⟩
  case stores =>
    refine ⟨fun hb hs => ⟨fun htag hm hu => (execVsts_next hg hr h4 hb hs hv htag hc).trans (congrArg Host.Outcome.next ?strided), fun htag =>
      execVsts_otherTag hg hr h4 hb hs hv htag⟩, fun ha hI hw htag hm hu => (execVstg_next hg hr h4 ha hI hw hv hc htag).trans
      (congrArg Host.Outcome.next ?scattered)⟩
    case strided =>
      obtain ⟨l, b, e'⟩ := (((s.readBy_reads [base, r]).readsV [v]).taintK k).tainted
      dsimp only at hu ⊢
      rw [e'] at hu ⊢
      exact State.elemStore_read h4 htag hm hu
    case scattered =>
      have hidx : ∀ i, indexLane s.ctx.v[a] i = BitVec.ofInt 64 (laneInt s.ctx.v[a].tag (laneOf (tagWidth g) s.ctx.v[a].val i)) := fun i => by
        rw [indexLane, hw]
      have hread : ∃ l b, ((s.readsV [a, v]).taintK k).touch (3 * e.val + 2) = s.tainted l b := by
        obtain ⟨l, b, e'⟩ := (s.readsV [a, v]).taintK_tainted k
        exact e' ▸ ⟨_, _, rfl⟩
      obtain ⟨l, b, e'⟩ := hread
      simp only [hidx]
      dsimp only at hu ⊢
      rw [e'] at hu ⊢
      exact State.elemStore_read h4 htag hm hu

end Sys2Proof.Machine

/-!
SUPPORT. Instructions that suspend, end or wait for engine work (R244, R252), timelines and extension registers (R259, R260, R268).
-/
namespace Sys2Proof.Machine

/-! ### A record freed -/

/-- Chains rewritten change NEXT words of queued records alone. -/
theorem State.rechain_step (old : Vector (List QEnt) 8) : ∀ (n : Nat) (s : State), n ≤ 8 → MemStep s (s.rechain old n) s.queuedNext
  | 0, s, _ => MemStep.refl s _
  | q + 1, s, h => by
    have ih := State.rechain_step old q s (by omega)
    rw [State.rechain]
    split
    · exact ih
    · refine ih.trans ((State.chain_step _ _).mono ?_)
      rintro a ⟨e, he, ha⟩
      have hq : q < 8 := by omega
      rw [Vector.getElem?_eq_getElem hq] at he
      exact ih.queued a ⟨(s.rechain old q).cl.queues[q], by simp, e, he, ha⟩

/-- Messages sent one after the other change no memory. -/
theorem State.sends_step {β : Type} (f : State → β → State) (hf : ∀ s x A, MemStep s (f s x) A) (A : Nat → Prop) :
    ∀ (l : List β) (s : State), MemStep s (l.foldl f s) A
  | [], s => MemStep.refl s A
  | x :: r, s => (hf s x A).trans (State.sends_step f hf A r (f s x))

/-- Queues that hold no other record than before. -/
theorem MemStep.requeue {s : State} {f : Cluster → Cluster} {A : Nat → Prop} (hp : (f s.cl).par = s.cl.par)
    (hq : ∀ l ∈ (f s.cl).queues.toList, ∀ e ∈ l, ∃ m ∈ s.cl.queues.toList, e ∈ m) : MemStep s (s.updCl f) A := by
  refine ⟨rfl, rfl, hp, ?_, fun _ _ => rfl⟩
  rintro a ⟨l, hl, e, he, hlo, hhi⟩
  obtain ⟨m, hm, hem⟩ := hq l hl e he
  rw [State.recAt, State.updCl_cl, hp] at hlo hhi
  exact ⟨m, hm, e, hem, hlo, hhi⟩

/-- Records taken out of queues leave no other record in them. -/
theorem mem_fillVec_filter {v : Vector (List QEnt) 8} {p : QEnt → Bool} {l : List QEnt}
    (hl : l ∈ (fillVec v fun q => (v[q]?.getD []).filter p).toList) {e : QEnt} (he : e ∈ l) : ∃ m ∈ v.toList, e ∈ m := by
  obtain ⟨i, hi, rfl⟩ := List.getElem_of_mem hl
  rw [Vector.length_toList] at hi
  have hget := fillVec_getElem? v (fun q => (v[q]?.getD []).filter p) i
  rw [if_pos hi, Vector.getElem?_eq_getElem hi, Vector.getElem?_eq_getElem hi] at hget
  rw [Vector.getElem_toList, Option.some.inj hget] at he
  exact ⟨v[i], by simp, (List.mem_filter.mp he).1⟩

/-- A record freed: its word 0 and NEXT words of queued records change (R29). -/
theorem State.freeRec_step (s : State) (i : Nat) :
    MemStep s (s.freeRec i) fun a => (s.recAt i 0 ≤ a ∧ a < s.recAt i 0 + 8) ∨ s.queuedNext a := by
  unfold State.freeRec
  dsimp only
  generalize hu : s.updCl _ = u
  have h1 : MemStep s u fun a => (s.recAt i 0 ≤ a ∧ a < s.recAt i 0 + 8) ∨ s.queuedNext a := by
    subst hu
    exact MemStep.of_eq rfl rfl rfl rfl rfl rfl
  generalize hv : List.foldl _ u _ = v
  have h2 := h1.trans (show MemStep u v _ from hv ▸ State.sends_step _ (fun s w A => s.send_step _ _ _ A) _ _ _)
  have h3 := h2.trans ((v.putWord_step (v.recAt i 0) (setBits (v.recWord i 0) 60 4 0)).mono fun a h => .inl (by
    rwa [State.recAt, h2.par] at h))
  generalize hw : v.setRecState i 0 = w
  rw [show v.putWord (v.recAt i 0) (setBits (v.recWord i 0) 60 4 0) = w from hw] at h3
  generalize hx : w.updCl _ = x
  have h4 := h3.trans (show MemStep w x _ from hx ▸ MemStep.requeue rfl fun l hl e he => mem_fillVec_filter hl he)
  exact h4.trans ((State.rechain_step _ 8 x le_rfl).mono fun a h => .inr (h4.queued a h))

/-! ### `yield`, `park`, `exit`, `pfence` -/

/-- A change of the moving context that keeps its timelines leaves what its engine work has come to (R23). -/
theorem State.opsDone_upd (s : State) {f : Ctx → Ctx} (h : (f s.ctx).tl = s.ctx.tl) : (s.upd f).opsDone s.cur = s.opsDone s.cur := by
  unfold State.opsDone
  rw [show ((s.upd f).getCtx s.cur).tl = s.ctx.tl from (congrArg Ctx.tl (s.ctx_upd f)).trans h]
  rfl

/-- A suspension that begins (R23). -/
theorem State.beginSuspend_eq (s : State) (p : Susp) : s.beginSuspend p =
    { (if s.opsDone s.cur then (s.upd fun x => { x with st := .blocked, wait := some .allOps, susp := some p }).post (.suspension s.cur)
      else s.upd fun x => { x with st := .blocked, wait := some .allOps, susp := some p }) with rep := none, target := none, taint := [] } := by
  have h := s.opsDone_upd (f := fun x => { x with st := .blocked, wait := some .allOps, susp := some p }) rfl
  unfold State.beginSuspend
  dsimp only
  rw [State.upd_cur, h]
  rfl

section
variable {s : State} {len : Nat}

theorem yieldForm_sup (h : s.sup = true) : yieldForm len s = .next (s.finish len) := congrArg Host.Outcome.next (if_pos h)

theorem parkForm_sup (h : s.sup = true) : parkForm len s = .next (s.trap 0x01) := congrArg Host.Outcome.next (if_pos h)

theorem exitForm_sup (h : s.sup = true) : exitForm s = .next (s.trap 0x01) := congrArg Host.Outcome.next (if_pos h)

theorem yieldForm_user (h : s.sup = false) (hc : s.allChecked) :
    yieldForm len s = .next (s.beginSuspend (.yield (s.ctx.pc + BitVec.ofNat 48 len))) := by
  rw [yieldForm, if_neg (by simp [h]), State.checked_of_allChecked hc]

theorem parkForm_user (h : s.sup = false) (hc : s.allChecked) :
    parkForm len s = .next (s.beginSuspend (.park (s.ctx.pc + BitVec.ofNat 48 len))) := by
  rw [parkForm, if_neg (by simp [h]), State.checked_of_allChecked hc]

/-- `exit` waits for the context's operations (R29). -/
theorem exitForm_waits (h : s.sup = false) (ho : s.opsDone s.cur = false) : exitForm s = .next (s.block .allOps) := by
  rw [exitForm, if_neg (by simp [h]), if_pos (by simp [ho])]

theorem exitForm_ends (h : s.sup = false) (ho : s.opsDone s.cur = true) : exitForm s = .next (
    let u := s.raiseClk (s.opsTime s.cur)
    let u := u.raiseCclk u.ctx.clk
    { (match s.ctx.bound with | none => u | some b => u.freeRec b.idx).toIdle s.cur with rep := none, target := none, taint := [] }) := by
  have hb : ((s.raiseClk (s.opsTime s.cur)).raiseCclk (s.raiseClk (s.opsTime s.cur)).ctx.clk).ctx.bound = s.ctx.bound := by
    show (s.upd fun x => { x with clk := max x.clk (s.opsTime s.cur) }).ctx.bound = _
    rw [State.ctx_upd]
  rw [exitForm, if_neg (by simp [h]), if_neg (by simp [ho])]
  dsimp only
  rw [hb]
  refine congrArg Host.Outcome.next ?_
  cases s.ctx.bound with
  | none => rfl
  | some b => exact congrArg (fun c => State.ended (State.toIdle _ c)) ((State.freeRec_step _ _).cur)

/-- `pfence` waits for the context's copies (R132). -/
theorem pfenceForm_waits (h : s.copyDone s.cur = false) : pfenceForm len s = .next (s.block .copyOps) := by
  rw [pfenceForm, if_pos (by simp [h])]

/-- Both counts become 0 and are compared (R132). -/
theorem pfenceForm_done (h : s.copyDone s.cur = true) (hk : s.ctx.clkTrap = false) : pfenceForm len s = .next (
    if s.ctx.expb ≠ s.ctx.rcvb then
      ((s.raiseClk s.ctx.copyTime).upd fun x => { x with expb := 0, rcvb := 0 }).trapAux 0x11 0 s.ctx.expb s.ctx.rcvb
    else ((s.raiseClk s.ctx.copyTime).upd fun x => { x with expb := 0, rcvb := 0 }).finish len) := by
  have hx : (s.raiseClk s.ctx.copyTime).ctx = { s.ctx with clk := max s.ctx.clk s.ctx.copyTime } := s.ctx_upd _
  rw [pfenceForm, if_neg (by simp [h])]
  dsimp only
  rw [hx]
  dsimp only
  rw [if_neg (by simp [hk])]

end

/-- Settles O27: each form has its equation for context 0 and for the others, for work that is done and work that is not. -/
theorem suspending : Obligations.Suspending := by
  unfold Obligations.Suspending
  intro s hc away gone clear
  have leaves : ∀ p, .next (s.beginSuspend p) = away p := fun p => congrArg Host.Outcome.next (s.beginSuspend_eq p)
  refine ⟨fun h => ?sup, fun h => ?user, fun h => ?waits, fun h hk => ⟨fun he => ?balanced, fun hne => ?unbalanced⟩⟩
  case sup => exact ⟨yieldForm_sup h, yieldForm_sup h, parkForm_sup h, parkForm_sup h, exitForm_sup h, exitForm_sup h⟩
  case user =>
    exact ⟨(yieldForm_user h hc).trans (leaves _), (yieldForm_user h hc).trans (leaves _), (parkForm_user h hc).trans (leaves _),
      (parkForm_user h hc).trans (leaves _), fun ho => ⟨exitForm_ends h ho, exitForm_ends h ho⟩,
      fun ho => ⟨exitForm_waits h ho, exitForm_waits h ho⟩⟩
  case waits => exact ⟨pfenceForm_waits h, pfenceForm_waits h⟩
  case balanced =>
    have hne : ¬s.ctx.expb ≠ s.ctx.rcvb := not_not_intro he
    exact ⟨(pfenceForm_done h hk).trans (congrArg Host.Outcome.next (if_neg hne)),
      (pfenceForm_done h hk).trans (congrArg Host.Outcome.next (if_neg hne))⟩
  case unbalanced => exact (pfenceForm_done h hk).trans (congrArg Host.Outcome.next (if_pos hne))

/-! ### Timelines -/

section
variable {s : State} {d : GNum} {l : TLNum} {n : Nat}

/-- A source read changes no timeline. -/
theorem State.reads_tl (s : State) (r : List GNum) (l : TLNum) : (s.reads r).ctx.tl[l] = s.ctx.tl[l] := rfl

/-- A satisfied wait with no trap of R114 takes the time, and the trap of a recorded cause (R107, R133). -/
theorem State.tlTake_eq {waits : Bool} {k : State → State} (h : (waits && s.ctx.clkTrap) = false) : s.tlTake waits l n k =
    if s.ctx.tl[l].ecause ≠ 0 ∧ s.ctx.tl[l].enum ≤ n then
      ((s.raiseClk (s.ctx.tl[l].timeAt n)).upd fun x => { x with tl := x.tl.set l { x.tl[l] with ecause := 0 } }).trapAux
        s.ctx.tl[l].ecause 0 0 (BitVec.ofNat 64 s.ctx.tl[l].enum)
    else k (s.raiseClk (s.ctx.tl[l].timeAt n)) := by
  have hx : (s.raiseClk (s.ctx.tl[l].timeAt n)).ctx.clkTrap = s.ctx.clkTrap := by
    rw [State.raiseClk, State.ctx_upd]
  unfold State.tlTake
  dsimp only
  rw [hx, if_neg (by rw [h]; exact Bool.false_ne_true)]
  simp only [ne_eq, Bool.and_eq_true, decide_eq_true_eq]
  rfl

/-- A `tlwait` after a clock trap of engine work takes trap 0x1F (R114). -/
theorem State.tlTake_clk {k : State → State} (h : s.ctx.clkTrap = true) : s.tlTake true l n k =
    ((s.raiseClk (s.ctx.tl[l].timeAt n)).upd fun x => { x with clkTrap := false }).trap 0x1F := by
  have hx : (s.raiseClk (s.ctx.tl[l].timeAt n)).ctx.clkTrap = s.ctx.clkTrap := by
    rw [State.raiseClk, State.ctx_upd]
  unfold State.tlTake
  dsimp only
  rw [hx, h]
  rfl

variable (hd : s.gOk d = true)
include hd

theorem execTlwait_next : execTlwait d l s = .next (
    if s.ctx.tl[l].high < (s.gVal d).toNat then (s.reads [d]).trap 0x14
    else if s.ctx.tl[l].val < (s.gVal d).toNat then (s.reads [d]).block (.timeline l (s.gVal d).toNat)
    else (s.reads [d]).tlTake true l (s.gVal d).toNat fun s => s.finish 4) := by
  rw [execTlwait, s.srcG_ok _ _ _ hd]
  rfl

theorem execTltest_next : execTltest d l s = .next (
    if s.ctx.tl[l].high < (s.gVal d).toNat then (s.reads [d]).trap 0x14
    else if s.ctx.tl[l].val < (s.gVal d).toNat then (s.reads [d]).putG 4 d 0
    else (s.reads [d]).tlTake false l (s.gVal d).toNat fun s => s.putG 4 d 1) := by
  rw [execTltest, s.srcG_ok _ _ _ hd]
  rfl

end

/-- The error word's fields are those of the timeline (R260). -/
theorem Timeline.errWord_eq (t : Timeline) : t.errWord = t.estat ++ t.ecause ++ BitVec.ofNat 52 t.enum := by
  have := t.estat.isLt
  have hc := t.ecause.isLt
  have hn := Nat.mod_lt t.enum (Nat.two_pow_pos 52)
  refine BitVec.eq_of_toNat_eq ?_
  rw [Timeline.errWord, BitVec.toNat_ofNat, BitVec.toNat_append, BitVec.toNat_append, BitVec.toNat_ofNat,
    ← Nat.shiftLeft_add_eq_or_of_lt hn, ← Nat.shiftLeft_add_eq_or_of_lt hc, Nat.shiftLeft_eq, Nat.shiftLeft_eq]
  omega

/-- The error word read, with what the reading clears (R260). -/
theorem execTlerr_eq (s : State) (d : GNum) (l : TLNum) : execTlerr d l s = .next ((s.upd fun x =>
    { x with tl := x.tl.set l { s.ctx.tl[l] with estat := 0, enum := if s.ctx.tl[l].ecause = 0 then 0 else s.ctx.tl[l].enum } }).putG 4 d
      (s.ctx.tl[l].estat ++ s.ctx.tl[l].ecause ++ BitVec.ofNat 52 s.ctx.tl[l].enum)) := by
  rw [← Timeline.errWord_eq]
  rfl

theorem execEwr_next {s : State} {d : GNum} {e : ENum} (hd : s.gOk d = true) : execEwr d e s = .next (((s.reads [d]).upd fun x =>
    { x.mend (3 * e.val + 2) with e := x.e.set e (s.gVal d), eu := x.eu.set e (s.reads [d]).taint }).finish 4) := by
  rw [execEwr, s.srcG_ok _ _ _ hd]

/-! ### The words of timelines and extension registers (R157, R259, R268) -/

/-- A 32-bit table word, by the rules of its major opcode. -/
theorem decodeTableWord_major {w major : Nat} (top : w / 2 ^ 24 = major) (lo : 192 ≤ major) (hi : major < 256) :
    decodeTableWord 32 w = match checkValues (decMajor major w) with | .ok i => some i | .error _ => none := by
  have hl : 192 ≤ w / 2 ^ 24 ∧ w / 2 ^ 24 < 256 := by omega
  rw [decodeTableWord]
  simp only [Nat.reduceEqDiff, if_false, Nat.reduceLeDiff]
  rw [decode_two_eq hl.1 hl.2, decRaw32, top]
  cases checkValues (decMajor major w) <;> rfl

/-- The fields of a word of major 0x23 or 0x27. -/
theorem tlWord_fields (m : Nat) (d : GNum) (f : Nat) (imm : BitVec 16) (hf : f < 8) :
    let w := 0xC0000000 + m * 2 ^ 24 + d.val * 2 ^ 19 + f * 2 ^ 16 + imm.toNat
    w / 2 ^ 24 = 192 + m ∧ fld w 0 16 = imm.toNat ∧ fld w 16 3 = f ∧ fld w 16 2 = f % 4 ∧ fld w 18 1 = f / 4 ∧ fld w 19 5 = d.val := by
  have := d.isLt
  have := imm.isLt
  simp only [fld]
  omega

/-- The word of a timeline form (R259). -/
theorem decodeTableWord_tl (d : GNum) (l : TLNum) (imm : BitVec 16) (top : Bool) :
    decodeTableWord 32 (0xC0000000 + 0b100011 * 2 ^ 24 + d.val * 2 ^ 19 + (l.val + if top then 4 else 0) * 2 ^ 16 + imm.toNat) =
      (if top then none else if imm = 0 then some (.tlwait d l) else if imm = 1 then some (.tltest d l) else if imm = 2 then some (.tlrd d l)
       else if imm = 3 then some (.tlhigh d l) else if imm = 4 then some (.tlerr d l) else none) := by
  have hl := l.isLt
  obtain ⟨hmaj, himm, -, hlo, htop, hd⟩ := tlWord_fields 0b100011 d (l.val + if top then 4 else 0) imm (by split <;> omega)
  generalize 0xC0000000 + 0b100011 * 2 ^ 24 + d.val * 2 ^ 19 + (l.val + if top then 4 else 0) * 2 ^ 16 + imm.toNat = w at *
  have hX : ∀ c : GNum → TLNum → Instr, tlX c w = c d l := fun c => by
    have hmod : (l.val + if top then 4 else 0) % 4 = l.val := by split <;> omega
    rw [tlX, hd, hlo, hmod, Laws.fin_val, Laws.fin_val]
  have hz : ∀ i, zeros w [(18, 1)] i = if top then .error .reservedBits else .ok i := fun i => by
    have hq : (l.val + if top then 4 else 0) / 4 = if top then 1 else 0 := by split <;> omega
    rw [zeros, List.all_cons, htop, hq]
    cases top <;> rfl
  rw [decodeTableWord_major hmaj (by decide) (by decide), Laws.RoundTrip.in_dec23 himm rfl]
  cases top with
  | true =>
    have hr : ∃ e, dec23 imm.toNat w = .error e := by
      unfold dec23
      split <;> simp [hz]
    obtain ⟨e, he⟩ := hr
    rw [he]
    rfl
  | false =>
    rw [if_neg Bool.false_ne_true]
    split_ifs with h0 h1 h2 h3 h4
    case neg =>
      have hr : dec23 imm.toNat w = .error .reservedForm := by
        unfold dec23
        split
        next h => exact absurd (BitVec.eq_of_toNat_eq h) h0
        next h => exact absurd (BitVec.eq_of_toNat_eq h) h1
        next h => exact absurd (BitVec.eq_of_toNat_eq h) h2
        next h => exact absurd (BitVec.eq_of_toNat_eq h) h3
        next h => exact absurd (BitVec.eq_of_toNat_eq h) h4
        next => rfl
      rw [hr]
      rfl
    all_goals
      subst imm
      simp [dec23, hz, hX, checkValues, Instr.wf]

/-- The word of a move of an extension register (R268). -/
theorem decodeTableWord_ext (d : GNum) (e : ENum) (imm : BitVec 16) :
    decodeTableWord 32 (0xC0000000 + 0b100111 * 2 ^ 24 + d.val * 2 ^ 19 + e.val * 2 ^ 16 + imm.toNat) =
      (if imm = 0 then some (.erd d e) else if imm = 1 then some (.ewr d e) else none) := by
  obtain ⟨hmaj, himm, hf, -, -, hd⟩ := tlWord_fields 0b100111 d e.val imm e.isLt
  generalize 0xC0000000 + 0b100111 * 2 ^ 24 + d.val * 2 ^ 19 + e.val * 2 ^ 16 + imm.toNat = w at *
  have hX : ∀ c : GNum → ENum → Instr, extX c w = c d e := fun c => by rw [extX, hd, hf, Laws.fin_val, Laws.fin_val]
  rw [decodeTableWord_major hmaj (by decide) (by decide), Laws.RoundTrip.in_dec27 himm rfl]
  split_ifs with h0 h1
  case neg =>
    have hr : dec27 imm.toNat w = .error .reservedForm := by
      unfold dec27
      split
      next h => exact absurd (BitVec.eq_of_toNat_eq h) h0
      next h => exact absurd (BitVec.eq_of_toNat_eq h) h1
      next => rfl
    rw [hr]
    rfl
  all_goals
    subst imm
    simp [dec27, hX, checkValues, Instr.wf]

/-- Settles O28: a wait or test by its three cases (`execTlwait_next`, `execTltest_next`) and what a satisfied one takes
(`tlTake_eq`), the reads and moves, and the words. -/
theorem timelines : Obligations.Timelines := by
  unfold Obligations.Timelines
  refine ⟨fun s d l e hd => ⟨fun hpast => ?past, fun hin hlow => ?unmet, fun hin hmet => ?met, rfl, rfl, execTlerr_eq s d l, rfl, execEwr_next hd⟩,
    fun d l e imm top => ⟨decodeTableWord_tl d l imm top, decodeTableWord_ext d e imm, rfl, rfl⟩, fun c l => ?reset⟩
  case past => exact ⟨(execTlwait_next hd).trans (congrArg _ (if_pos hpast)), (execTltest_next hd).trans (congrArg _ (if_pos hpast))⟩
  case unmet =>
    rw [show exec (.tlwait d l) s = _ from execTlwait_next hd, show exec (.tltest d l) s = _ from execTltest_next hd,
      if_neg (not_lt.mpr hin), if_pos hlow, if_neg (not_lt.mpr hin), if_pos hlow]
    exact ⟨rfl, rfl⟩
  case met =>
    have hwait : exec (.tlwait d l) s = .next ((s.reads [d]).tlTake true l (s.gVal d).toNat fun s => s.finish 4) := by
      rw [show exec (.tlwait d l) s = _ from execTlwait_next hd, if_neg (not_lt.mpr hin), if_neg (not_lt.mpr hmet)]
    have htest : exec (.tltest d l) s = .next ((s.reads [d]).tlTake false l (s.gVal d).toNat fun s => s.putG 4 d 1) := by
      rw [show exec (.tltest d l) s = _ from execTltest_next hd, if_neg (not_lt.mpr hin), if_neg (not_lt.mpr hmet)]
    have hnone : ∀ {k : Bool}, k = false → (true && k) = false := fun h => h
    refine ⟨fun hno => ⟨fun hk => hwait.trans (congrArg Host.Outcome.next ?_), htest.trans (congrArg Host.Outcome.next ?_)⟩,
      fun hc he => ⟨fun hk => hwait.trans (congrArg Host.Outcome.next ?_), htest.trans (congrArg Host.Outcome.next ?_)⟩,
      fun hk => hwait.trans (congrArg Host.Outcome.next (State.tlTake_clk (s := s.reads [d]) hk))⟩
    · exact (State.tlTake_eq (s := s.reads [d]) (hnone hk)).trans (if_neg fun h => hno.elim h.1 (not_lt.mpr h.2))
    · exact (State.tlTake_eq (s := s.reads [d]) (Bool.false_and _)).trans (if_neg fun h => hno.elim h.1 (not_lt.mpr h.2))
    · exact (State.tlTake_eq (s := s.reads [d]) (hnone hk)).trans (if_pos ⟨hc, he⟩)
    · exact (State.tlTake_eq (s := s.reads [d]) (Bool.false_and _)).trans (if_pos ⟨hc, he⟩)
  case reset =>
    rw [State.reset_getCtx]
    have : Ctx.reset.tl[l] = Timeline.reset := Vector.getElem_replicate _
    dsimp only
    rw [this]
    exact ⟨rfl, rfl, rfl⟩

end Sys2Proof.Machine

/-!
SUPPORT. Watches as a context sees them and `seq.adv` (R247 to R251); group arrival and waiting (R36, R262).
-/
namespace Sys2Proof.Machine

/-! ### Watches -/

/-- A change of the moving context that gives the same. -/
theorem State.upd_congr {s : State} {f g : Ctx → Ctx} (h : f s.ctx = g s.ctx) : s.upd f = s.upd g := by
  show s.setCtx s.cur (f (s.getCtx s.cur)) = s.setCtx s.cur (g (s.getCtx s.cur))
  rw [State.getCtx_cur, h]

/-- A register write leaves the mover. -/
@[simp] theorem State.setG_cur (s : State) (d : GNum) (v : Word) : (s.setG d v).cur = s.cur := by
  unfold State.setG
  split <;> rfl

/-- A poisoned register leaves the mover. -/
@[simp] theorem State.poisonG_cur (s : State) (d : GNum) (st : BitVec 4) : (s.poisonG d st).cur = s.cur := by
  unfold State.poisonG
  split <;> rfl

/-- A message sent leaves the mover. -/
@[simp] theorem State.send_cur (s : State) (dst : ClusterId) (r : BitVec 2) (b : NetBody) : (s.send dst r b).cur = s.cur :=
  (s.send_step dst r b fun _ => False).cur

section
variable {s : State} {d a b : GNum} {fa fb : Bool} {e : ENum} {A B : Word} {limit : Option Nat}

/-- The request that a watch registers with (R248). -/
def State.watchReq (s : State) (A B : Word) (limit : Option Nat) : WatchReq :=
  ⟨s.me, some s.cur, none, s.cl.nextTag, offOf A, B, s.ctx.clk, limit, s.cl.part.getD 0, s.sup⟩

/-- A watch whose registration has left. -/
def State.watchAsked (s : State) (A B : Word) (limit : Option Nat) : State :=
  ((s.updCl fun c => { c with nextTag := c.nextTag + 1, watchOut := c.watchOut ++ [(s.cl.nextTag, resolve s.me A)] }).send (resolve s.me A) 0
    (.watch (s.watchReq A B limit))).upd fun x => { x with sent := [(s.cl.nextTag, 0)] }

/-- The checks of a watch that pass (R67, R75, R86). -/
def State.watchable (s : State) (A : Word) : Prop :=
  A.toNat % 8 = 0 ∧ inSpad (offOf A) 8 = true ∧ (resolve s.me A = s.me ∨ s.cl.members.contains (resolve s.me A) = true)

/-- A cluster that may be asked is no foreign one (R86). -/
theorem State.not_foreign {c : ClusterId} (h : c = s.me ∨ s.cl.members.contains c = true) :
    ¬(decide (c ≠ s.me) && !s.cl.members.contains c) = true := by
  rw [Bool.and_eq_true, decide_eq_true_eq, Bool.not_eq_true']
  rintro ⟨hne, hm⟩
  exact h.elim hne fun hc => Bool.noConfusion (hc.symm.trans hm)

/-- A watch that has sent nothing yet registers and waits (R248). -/
theorem State.watchOn_registers (hA : s.watchable A) (hsent : s.ctx.sent = []) : s.watchOn d A B limit =
    ((if limit.isNone then (s.watchAsked A B limit).startHold else s.watchAsked A B limit).block (.watch s.cl.nextTag d)) := by
  obtain ⟨hal, hs, ho⟩ := hA
  have hm := State.not_foreign ho
  rw [State.watchOn, if_neg (not_not_intro hal), if_neg (by simp [hs]), if_neg hm, hsent]
  rfl

/-- What a watch does with its reply (R248 to R250). -/
def State.watchEnds (s : State) (tag : Nat) (d : GNum) : Reply → State
  | .fire _ v tf skid => (({ s with taint := skid.toList }.setG d v).raiseClk tf).endWatch
  | .expired _ => (s.setG d 0).endWatch
  | .refused _ => (s.cancel (.holdWindowEnd s.cur)).trap 0x13
  | .status _ st => (s.poisonG d st).endWatch
  | .data _ _ _ _ _ => s.block (.watch tag d)

/-- A watch whose request has left, once its reply is there (R248 to R250). -/
theorem State.watchOn_replied (hA : s.watchable A) {tag : Nat} {r : Reply} (hsent : s.ctx.sent = [(tag, 0)])
    (hr : s.ctx.watchReply tag = some r) : s.watchOn d A B limit =
    s.watchEnds tag d r := by
  obtain ⟨hal, hs, ho⟩ := hA
  have hm := State.not_foreign ho
  rw [State.watchOn, if_neg (not_not_intro hal), if_neg (by simp [hs]), if_neg hm, hsent]
  dsimp only [List.head?_cons]
  rw [hr]
  cases r <;> rfl

/-- The watch ends, in the state of its mover (R248). -/
theorem State.endWatch_eq {u : State} (h : u.cur = s.cur) : u.endWatch = (u.cancel (.holdWindowEnd s.cur)).finish 4 := by
  rw [State.endWatch, h]

variable (ha : s.gOk a = true) (hb : s.gOk b = true) (hc : s.allChecked)
include ha hb hc

theorem execWatch_next (hl : s.ctx.latch ≠ 1) : execWatch d a b fa fb s =
    .next ((s.reads [a, b]).watchOn d (s.gVal a) (s.gVal b) none) := by
  rw [execWatch, if_neg hl, s.srcG_ok _ _ _ ha, (s.reads [a]).srcG_ok _ _ _ hb, State.reads_reads,
    State.checked_of_allChecked (s := s.reads ([a] ++ [b])) hc]
  rfl

theorem execWatchT_next : execWatchT d a b fa fb e s = .next (((s.reads [a, b]).touch (3 * e.val + 2)).watchOn d (s.gVal a) (s.gVal b)
    (some (s.ctx.e[e].toNat % 2 ^ 32))) := by
  rw [execWatchT, s.srcG_ok _ _ _ ha, (s.reads [a]).srcG_ok _ _ _ hb, State.reads_reads,
    State.checked_of_allChecked (s := s.reads ([a] ++ [b])) hc]
  rfl

/-- `seq.adv` on own scratchpad (R251). -/
theorem execSeqAdv_next {key : Nat} {t : State} (hown : ownForm s.me (s.gVal a) = true) (hal : (s.gVal a).toNat % 8 = 0)
    (hs : inSpad (offOf (s.gVal a)) 8 = true) (hacc : s.access s.agent s.sup .wr (offOf (s.gVal a)) 8 = (.ok key, t)) :
    execSeqAdv d a b fa fb s = .next (if !s.opsDone s.cur then (t.reads [a, b]).block .allOps
      else ((t.reads [a, b]).raiseClk (s.opsTime s.cur)).readWrite (offOf (s.gVal a)) key 8 (fun old => max old (s.gVal b).toNat)
        fun old u => u.markAtomic.putG 4 d (BitVec.ofNat 64 old)) := by
  obtain ⟨x, n, rfl⟩ := State.access_eq_looked hacc
  rw [execSeqAdv, s.srcG_ok _ _ _ ha, (s.reads [a]).srcG_ok _ _ _ hb, State.reads_reads,
    State.checked_of_allChecked (s := s.reads ([a] ++ [b])) hc]
  have hown' : ¬(!ownForm (s.reads ([a] ++ [b])).me (s.gVal a)) = true := by
    rw [Bool.not_eq_true, Bool.not_eq_false']
    exact hown
  rw [if_neg hown', if_neg (not_not_intro hal)]
  dsimp only
  have hacc' : (s.reads ([a] ++ [b])).access (s.reads ([a] ++ [b])).agent (s.reads ([a] ++ [b])).sup .wr (offOf (s.gVal a)) 8 =
    (.ok key, (s.looked x n).reads [a, b]) := State.access_reads_eq hacc _
  rw [if_neg (by simp [hs]), hacc']
  rfl

end

/-- Settles O29: a watch registers (`watchOn_registers`) or ends as its reply says (`watchOn_replied`); `seq.adv` is a read-write of
own scratchpad after earlier engine work. -/
theorem watches : Obligations.Watches := by
  unfold Obligations.Watches
  intro s d a b fa fb e ha hb hc u A o owner
  refine ⟨fun hal hs ho hl => ⟨fun hsent => ?registers, fun tag r hsent hr => ?replied⟩, fun hl => ?latched, fun key t hal hown hs hacc =>
    ⟨fun hops => ?waits, fun hops hT => ?publishes⟩⟩
  case registers =>
    have hA : (s.reads [a, b]).watchable A := ⟨hal, hs, ho⟩
    have hT : ((s.reads [a, b]).touch (3 * e.val + 2)).watchable A := ⟨hal, hs, ho⟩
    refine ⟨(execWatch_next ha hb hc hl).trans (congrArg Host.Outcome.next ((State.watchOn_registers hA hsent).trans ?_)),
      (execWatchT_next ha hb hc).trans (congrArg Host.Outcome.next (State.watchOn_registers hT hsent))⟩
    have hcur : ((s.reads [a, b]).watchAsked A (s.gVal b) none).cur = s.cur :=
      (State.upd_cur _ _).trans (State.send_cur _ _ _ _)
    show ((s.reads [a, b]).watchAsked A (s.gVal b) none).startHold.block _ = _
    rw [State.startHold, State.sup, hcur]
    rfl
  case replied =>
    have hA : (s.reads [a, b]).watchable A := ⟨hal, hs, ho⟩
    have hT : ((s.reads [a, b]).touch (3 * e.val + 2)).watchable A := ⟨hal, hs, ho⟩
    have e1 := (execWatch_next (d := d) (fa := fa) (fb := fb) ha hb hc hl).trans
      (congrArg Host.Outcome.next (State.watchOn_replied (d := d) (B := s.gVal b) (limit := none) hA hsent hr))
    have e2 := (execWatchT_next (d := d) (fa := fa) (fb := fb) (e := e) ha hb hc).trans
      (congrArg Host.Outcome.next (State.watchOn_replied (d := d) (B := s.gVal b) (limit := some (s.ctx.e[e].toNat % 2 ^ 32)) hT hsent hr))
    refine ⟨fun k v t skid h => ?_, fun k h => ?_, fun k h => ?_, fun k st h => ?_⟩
    · subst h
      exact ⟨e1.trans (congrArg Host.Outcome.next (State.endWatch_eq (State.setG_cur _ _ _))),
        e2.trans (congrArg Host.Outcome.next (State.endWatch_eq (State.setG_cur _ _ _)))⟩
    · subst h
      exact ⟨e1.trans (congrArg Host.Outcome.next (State.endWatch_eq (State.setG_cur _ _ _))),
        e2.trans (congrArg Host.Outcome.next (State.endWatch_eq (State.setG_cur _ _ _)))⟩
    · subst h
      exact ⟨e1, e2⟩
    · subst h
      exact ⟨e1.trans (congrArg Host.Outcome.next (State.endWatch_eq (State.poisonG_cur _ _ _))),
        e2.trans (congrArg Host.Outcome.next (State.endWatch_eq (State.poisonG_cur _ _ _)))⟩
  case latched => exact congrArg Host.Outcome.next (if_pos hl)
  case waits => exact (execSeqAdv_next ha hb hc hown hal hs hacc).trans (congrArg Host.Outcome.next (if_pos (by simp [hops])))
  case publishes =>
    obtain ⟨x, n, rfl⟩ := State.access_eq_looked hacc
    refine (execSeqAdv_next ha hb hc hown hal hs hacc).trans (congrArg Host.Outcome.next ?_)
    rw [if_neg (by simp [hops])]
    have hraise : ((s.looked x n).reads [a, b]).raiseClk (s.opsTime s.cur) =
        ((s.looked x n).reads [a, b]).setClk (max s.ctx.clk (s.opsTime s.cur)) := State.upd_congr rfl
    have hclk : (((s.looked x n).reads [a, b]).setClk (max s.ctx.clk (s.opsTime s.cur))).ctx.clk = max s.ctx.clk (s.opsTime s.cur) :=
      congrArg Ctx.clk (State.ctx_upd _ _)
    rw [hraise, State.readWrite, State.placeWrite_eq (by rw [hclk]; exact hT), hclk, State.num_placed]
    have hnum : (((s.looked x n).reads [a, b]).setClk (max s.ctx.clk (s.opsTime s.cur))).num key 8 = s.num key 8 :=
      congrArg leNat (State.bytes_congr s _ 8 key fun _ _ => rfl)
    rw [hnum]
    rfl

end Sys2Proof.Machine

/-!
SUPPORT. Group arrival, waiting and synchronisation (R36, R262).
-/
namespace Sys2Proof.Machine

section
variable {s : State} {i n : Nat} {g : Group} {d : GNum} {timed again : Bool}

/-- A continuation that names an open group (R36). -/
theorem State.withGroup_ok {k : Group → State → State} (hg : s.group? i = some g) (hh : s.ctx.holdsGroup i = true) (hst : g.st ≠ 0) :
    s.withGroup i k = k g s := by
  rw [State.withGroup, hg]
  dsimp only
  rw [if_neg (by rw [hh, decide_eq_false hst]; exact Bool.false_ne_true)]

/-- A continuation that does not name the group traps 0x09 (R36). -/
theorem State.withGroup_denied {k : Group → State → State} (h : s.group? i = none ∨ s.ctx.holdsGroup i = false) :
    s.withGroup i k = s.trap 0x09 := by
  rw [State.withGroup]
  cases hg : s.group? i with
  | none => rfl
  | some g =>
    have hh : s.ctx.holdsGroup i = false := h.resolve_left (by simp [hg])
    exact if_pos (by simp [hh])

/-- The state after an arrival that counts (R36, R262). -/
def State.cameTo (s : State) (i : Nat) (g : Group) : State :=
  if g.lcount + 1 = g.lexp then
    (((s.setClk (s.ctx.clk + 1)).markAtomic).updGroup i fun g =>
      { g with lcount := g.lcount + 1, arrT := max g.arrT (s.ctx.clk + 1) }).partDone i
  else ((s.setClk (s.ctx.clk + 1)).markAtomic).updGroup i fun g =>
    { g with lcount := g.lcount + 1, arrT := max g.arrT (s.ctx.clk + 1) }

section
variable (hg : s.group? i = some g) (hh : s.ctx.holdsGroup i = true) (hst : g.st ≠ 0)
include hg hh hst

/-- An arrival at a BROKEN group traps 0x10 (R38). -/
theorem State.arrive_broken {k : Nat → State → State} (hb : g.st = 2) : s.arrive i k = s.trap 0x10 := by
  rw [State.arrive, State.withGroup_ok hg hh hst, if_pos hb]

/-- An arrival after the cluster's part is done traps 0x0F (R36). -/
theorem State.arrive_over {k : Nat → State → State} (hb : g.st ≠ 2) (hp : g.partDone = true) : s.arrive i k = s.trap 0x0F := by
  rw [State.arrive, State.withGroup_ok hg hh hst, if_neg hb, if_pos hp]

/-- An arrival that counts. -/
theorem State.arrive_counts {k : Nat → State → State} (hb : g.st ≠ 2) (hp : g.partDone = false) (hT : s.ctx.clk + 1 < clockLimit) :
    s.arrive i k = k g.phase (s.cameTo i g) := by
  rw [State.arrive, State.withGroup_ok hg hh hst, if_neg hb, if_neg (by simp [hp])]
  exact if_neg (not_le.mpr hT)

/-- A first wait on a BROKEN group ends with 2 (R38, R262). -/
theorem State.groupWait_broken (hb : g.st = 2) (ha : again = false) : s.groupWait i n d timed again = s.endGroup d 2 := by
  rw [State.groupWait, State.withGroup_ok hg hh hst, if_pos (by simp [hb, ha])]

/-- A wait whose phase has passed ends with 0 at the time of the phase (R111, R262). -/
theorem State.groupWait_passed (hb : g.st ≠ 2) (hn : n < g.phase) : s.groupWait i n d timed again = (s.raiseClk g.phaseT).endGroup d 0 := by
  rw [State.groupWait, State.withGroup_ok hg hh hst, if_neg (by rw [decide_eq_false hb]; exact Bool.false_ne_true), if_pos hn]

/-- A wait at its limit ends with 1 (R262). -/
theorem State.groupWait_limit (hb : g.st ≠ 2) (hn : g.phase ≤ n) (hl : s.ctx.limitHit = true) :
    s.groupWait i n d timed again = s.endGroup d 1 := by
  rw [State.groupWait, State.withGroup_ok hg hh hst, if_neg (by rw [decide_eq_false hb]; exact Bool.false_ne_true), if_neg (not_lt.mpr hn), if_pos hl]

/-- Any other wait begins: its limit, or its hold window (R21, R262). -/
theorem State.groupWait_begins (hb : g.st ≠ 2) (hn : g.phase ≤ n) (hl : s.ctx.limitHit = false) (ha : again = false) (hu : s.sup = false) :
    s.groupWait i n d timed again = ((if timed then s.post (.gwaitLimitExpiry s.cur) else s.post (.holdWindowEnd s.cur)).upd fun x =>
      { x with begun := true }).block (.group i n) := by
  rw [State.groupWait, State.withGroup_ok hg hh hst, if_neg (by rw [decide_eq_false hb]; exact Bool.false_ne_true), if_neg (not_lt.mpr hn), if_neg (by simp [hl]), ha,
    State.startHold, hu]
  rfl

end

variable {e : ENum} {idx : BitVec 8} (hd : s.gOk d = true) (hc : s.allChecked)
include hc

theorem execGarrive_eq : execGarrive d idx s = .next (s.arrive idx.toNat fun n u => u.putG 4 d (BitVec.ofNat 64 n)) := by
  rw [execGarrive, State.checked_of_allChecked hc]

theorem execGsync_eq (hl : s.ctx.latch ≠ 3) : execGsync d idx s = .next (match s.ctx.arrived with
    | some n => s.groupWait idx.toNat n d false s.ctx.begun
    | none => s.arrive idx.toNat fun n u =>
      ((u.setG d (BitVec.ofNat 64 n)).upd fun x => { x with arrived := some n }).groupWait idx.toNat n d false false) := by
  rw [execGsync, State.checked_of_allChecked hc, if_neg hl] <;> cases s.ctx.arrived <;> rfl

include hd

theorem execGwait_eq : execGwait d idx s = .next ((s.reads [d]).groupWait idx.toNat (s.gVal d).toNat d false s.ctx.begun) := by
  rw [execGwait, s.srcG_ok _ _ _ hd, State.checked_of_allChecked (s := s.reads [d]) hc]
  rfl

omit hc in
theorem execGwaitT_eq : execGwaitT d e idx s =
    .next (((s.reads [d]).touch (3 * e.val + 2)).groupWait idx.toNat (s.gVal d).toNat d true s.ctx.begun) := by
  rw [execGwaitT, s.srcG_ok _ _ _ hd]
  rfl

end

/-- STATE and PHASE of a group in a word (R262). -/
theorem Group.queryWord_eq (g : Group) : BitVec.ofNat 64 (g.st.toNat * 2 ^ 62 + g.phase % 2 ^ 62) = g.st ++ BitVec.ofNat 62 g.phase := by
  have := g.st.isLt
  have hp := Nat.mod_lt g.phase (Nat.two_pow_pos 62)
  refine BitVec.eq_of_toNat_eq ?_
  rw [BitVec.toNat_ofNat, BitVec.toNat_append, BitVec.toNat_ofNat, ← Nat.shiftLeft_add_eq_or_of_lt hp, Nat.shiftLeft_eq]
  omega

/-- Settles O30: arrivals by `arrive_broken`, `arrive_over` and `arrive_counts`, waits by the cases of `groupWait`. -/
theorem groups : Obligations.Groups := by
  unfold Obligations.Groups
  intro s d e idx g hd hc i n u w ends came
  refine ⟨fun hg hh hst => ⟨fun hb => ?broken, fun hb hp => ?late, fun hb hp hT => ?counts, fun k hl ha hb hk => ?synced,
    fun hb hbeg => ?waitBroken, fun hb hn => ?passed, fun hb hn hl => ?limit, fun hb hn hl hbeg hu => ?begins, ?query⟩, fun h => ?denied⟩
  case broken => exact (execGarrive_eq hc).trans (congrArg _ (State.arrive_broken hg hh hst hb))
  case late => exact (execGarrive_eq hc).trans (congrArg _ (State.arrive_over hg hh hst hb hp))
  case counts =>
    refine ⟨(execGarrive_eq hc).trans (congrArg _ (State.arrive_counts hg hh hst hb hp hT)), fun hl ha => ?_⟩
    refine (execGsync_eq hc hl).trans ?_
    rw [ha]
    exact congrArg Host.Outcome.next (State.arrive_counts hg hh hst hb hp hT)
  case synced =>
    refine (execGsync_eq hc hl).trans ?_
    rw [ha]
    exact congrArg Host.Outcome.next (State.groupWait_passed hg hh hst hb hk)
  case waitBroken =>
    exact ⟨(execGwait_eq hd hc).trans (congrArg _ (State.groupWait_broken (s := u) hg hh hst hb hbeg)),
      (execGwaitT_eq hd).trans (congrArg _ (State.groupWait_broken (s := w) hg hh hst hb hbeg))⟩
  case passed =>
    exact ⟨(execGwait_eq hd hc).trans (congrArg _ (State.groupWait_passed (s := u) hg hh hst hb hn)),
      (execGwaitT_eq hd).trans (congrArg _ (State.groupWait_passed (s := w) hg hh hst hb hn))⟩
  case limit => exact (execGwaitT_eq hd).trans (congrArg _ (State.groupWait_limit (s := w) hg hh hst hb hn hl))
  case begins =>
    exact ⟨(execGwait_eq hd hc).trans (congrArg _ (State.groupWait_begins (s := u) hg hh hst hb hn hl hbeg hu)),
      (execGwaitT_eq hd).trans (congrArg _ (State.groupWait_begins (s := w) hg hh hst hb hn hl hbeg hu))⟩
  case query =>
    refine congrArg Host.Outcome.next ((State.withGroup_ok hg hh hst).trans ?_)
    rw [Group.queryWord_eq]
  case denied =>
    exact ⟨(execGarrive_eq hc).trans (congrArg _ (State.withGroup_denied h)),
      (execGwait_eq hd hc).trans (congrArg _ (State.withGroup_denied (s := u) h)),
      (execGwaitT_eq hd).trans (congrArg _ (State.withGroup_denied (s := w) h)), congrArg _ (State.withGroup_denied h)⟩

end Sys2Proof.Machine

/-!
SUPPORT. Creating and waking work: `spawn` and `amsg` (R24 to R28, R263 to R266).
-/
namespace Sys2Proof.Machine

section
variable {s : State} {d a b : GNum} {fa fb : Bool} {e : ENum} {A B arg1 D : Word}

/-- A `spawn` that creates (R24, R265). -/
theorem State.spawnNew_creates (hA : bits A 0 1 = 0) (hg : s.badGids s.issuer.2.2.1 s.issuer.2.2.2.1 = false) :
    s.spawnNew d A B arg1 D =
      let m : AMsg := ⟨s.me, true, Fin.ofNat 4 (Config.freeNat s.draws), A.extractLsb' 0 48, B, arg1, Fin.ofNat 8 (bits D 41 3),
        Fin.ofNat 8 (bits D 38 3), s.issuer.2.2.1, s.issuer.2.2.2.1, s.issuer.2.2.2.2, s.issuer.1, s.issuer.2.1, s.ctx.clk, s.me, s.cl.part.getD 0⟩
      let r := ({ s with draws := s.draws + 1 }.raiseCclk s.ctx.clk).create m
      r.2.markAtomic.putG 4 d (match r.1 with | some i => BitVec.ofNat 64 i | none => BitVec.allOnes 64) := by
  have hA' : ¬bits A 0 1 = 1 := by omega
  unfold State.spawnNew
  generalize hI : s.issuer = I at hg ⊢
  obtain ⟨ptag, prot, gval, gids, twin⟩ := I
  dsimp only at hg ⊢
  rw [if_neg hA', hg]
  rfl

/-- A `spawn` that wakes (R265): a PARKED record of the issuer's participant becomes QUEUED, any other gives 1. -/
theorem State.spawnWake_eq (hA : A.toNat < min (2 ^ 16) s.cl.par.contMax) : s.spawnWake d A =
    if s.recState A.toNat = 3 ∧ bits (s.recWord A.toNat 0) 56 4 = 4 ∧ (s.sup = true ∨ bits (s.recWord A.toNat 0) 48 6 = s.issuer.1.val) then
      (((s.raiseCclk s.ctx.clk).wakeRecord A.toNat none true).markAtomic).putG 4 d 0
    else s.markAtomic.putG 4 d 1 := by
  have hlow : bits A 0 16 = A.toNat := by
    unfold bits
    omega
  have hhigh : bits A 16 48 = 0 := by
    unfold bits
    omega
  have hin : ¬(decide (bits A 16 48 ≠ 0) || decide (s.cl.par.contMax ≤ bits A 0 16)) = true := by
    rw [hhigh, hlow, decide_eq_false (not_not_intro rfl), Bool.false_or, decide_eq_true_eq]
    omega
  unfold State.spawnWake
  dsimp only
  rw [if_neg hin, hlow]
  refine if_congr ?_ rfl rfl
  rw [Bool.and_eq_true, Bool.and_eq_true, Bool.or_eq_true, decide_eq_true_eq, decide_eq_true_eq, decide_eq_true_eq, and_assoc]

variable (ha : s.gOk a = true) (hb : s.gOk b = true) (hd : s.gOk d = true) (hc : s.allChecked)
include ha hb hd hc

theorem execSpawn_next (hD : bits s.ctx.e[e] 32 1 = 0) : execSpawn d a b fa fb e s = .next (
    if bits s.ctx.e[e] 63 1 = 0 then
      ((s.reads [a, b, d]).touch (3 * e.val + 2)).spawnNew d (s.gVal a) (s.gVal b) (s.gVal d) s.ctx.e[e]
    else ((s.reads [a, b, d]).touch (3 * e.val + 2)).spawnWake d (s.gVal a)) := by
  rw [execSpawn, s.srcG_ok _ _ _ ha, (s.reads [a]).srcG_ok _ _ _ hb, State.reads_reads, (s.reads ([a] ++ [b])).srcG_ok _ _ _ hd,
    State.reads_reads, State.checked_of_allChecked (s := s.reads ([a] ++ [b] ++ [d])) hc]
  exact congrArg Host.Outcome.next (if_neg fun h => Nat.zero_ne_one (hD.symm.trans h))

/-- The message of an `amsg` (R264, R266). -/
def State.amsgOf (s : State) (A B arg1 D : Word) : AMsg :=
  ⟨creationTarget s.me D, bits D 46 1 = 1, Fin.ofNat 4 (bits D 44 2), A.extractLsb' 0 48, B, arg1, Fin.ofNat 8 (bits D 41 3),
    Fin.ofNat 8 (bits D 38 3), BitVec.ofNat 4 (bits D 33 4), BitVec.ofNat 32 (bits D 0 32), bits D 37 1 = 1, s.issuer.1, s.issuer.2.1,
    s.ctx.clk, s.me, s.cl.part.getD 0⟩

/-- An `amsg` that passes its checks enters the queue, and is offered when it is the first to its target (R26, R266). -/
theorem execAmsg_queues (hD : bits s.ctx.e[e] 32 1 = 0) (h63 : bits s.ctx.e[e] 63 1 = 0) (hA : bits (s.gVal a) 0 1 = 0)
    (hg : s.badGids (BitVec.ofNat 4 (bits s.ctx.e[e] 33 4)) (BitVec.ofNat 32 (bits s.ctx.e[e] 0 32)) = false)
    (ht : creationTarget s.me s.ctx.e[e] = s.me ∨ s.cl.members.contains (creationTarget s.me s.ctx.e[e]) = true)
    (hroom : s.cl.outAmsg.length < 256) : execAmsg d a b fa fb e s = .next (
      let u := (s.reads [a, b, d]).touch (3 * e.val + 2)
      let m := s.amsgOf (s.gVal a) (s.gVal b) (s.gVal d) s.ctx.e[e]
      let queued := u.updCl fun c => { c with outAmsg := c.outAmsg ++ [m] }
      ((if !(s.cl.outAmsg.any fun x => x.target = creationTarget s.me s.ctx.e[e]) then queued.offer m else queued).markAtomic.finish 4)) := by
  have hbits : ¬(decide (bits s.ctx.e[e] 63 1 = 1) || decide (bits s.ctx.e[e] 32 1 = 1)) = true := by
    rw [hD, h63]
    decide
  have hA' : ¬bits (s.gVal a) 0 1 = 1 := by omega
  rw [execAmsg, s.srcG_ok _ _ _ ha, (s.reads [a]).srcG_ok _ _ _ hb, State.reads_reads, (s.reads ([a] ++ [b])).srcG_ok _ _ _ hd,
    State.reads_reads, State.checked_of_allChecked (s := s.reads ([a] ++ [b] ++ [d])) hc]
  refine congrArg Host.Outcome.next ((if_neg hbits).trans ((if_neg hA').trans ((if_neg ?_).trans ((if_neg (State.not_foreign ht)).trans
    ((if_neg (not_le.mpr hroom)).trans ?_)))))
  · exact fun h => Bool.noConfusion (hg.symm.trans h)
  · rfl

end

/-- Settles O31: `spawn` creates (`spawnNew_creates`) or wakes (`spawnWake_eq`), and `amsg` queues its message (`execAmsg_queues`). -/
theorem spawning : Obligations.Spawning := by
  unfold Obligations.Spawning
  intro s d a b fa fb e ha hb hd hc u A D
  generalize hI : s.issuer = I
  obtain ⟨ptag, prot, gval, gids, twin⟩ := I
  dsimp only
  intro hD
  refine ⟨fun h63 hA hg => ?creates, fun h63 hA => ?wakes, fun h63 hA hg ht hroom => ?queues⟩
  case creates =>
    refine (execSpawn_next ha hb hd hc hD).trans (congrArg Host.Outcome.next ((if_pos h63).trans ?_))
    have hI' : ((s.reads [a, b, d]).touch (3 * e.val + 2)).issuer = (ptag, prot, gval, gids, twin) := hI
    refine (State.spawnNew_creates hA ?_).trans ?_
    · rw [hI']
      exact hg
    · rw [hI']
      rfl
  case wakes =>
    have h1 : ¬bits D 63 1 = 0 := by omega
    have hI' : ((s.reads [a, b, d]).touch (3 * e.val + 2)).issuer.1 = ptag := congrArg Prod.fst hI
    have hw := (execSpawn_next (fa := fa) (fb := fb) ha hb hd hc hD).trans (congrArg Host.Outcome.next ((if_neg h1).trans
      (State.spawnWake_eq (s := (s.reads [a, b, d]).touch (3 * e.val + 2)) (d := d) hA)))
    rw [hI'] at hw
    exact ⟨fun may => hw.trans (congrArg Host.Outcome.next (if_pos may)), fun may => hw.trans (congrArg Host.Outcome.next (if_neg may))⟩
  case queues =>
    have hm : s.amsgOf (s.gVal a) (s.gVal b) (s.gVal d) s.ctx.e[e] = ⟨creationTarget s.me D, bits D 46 1 = 1, Fin.ofNat 4 (bits D 44 2),
      A.extractLsb' 0 48, s.gVal b, s.gVal d, Fin.ofNat 8 (bits D 41 3), Fin.ofNat 8 (bits D 38 3), BitVec.ofNat 4 (bits D 33 4),
      BitVec.ofNat 32 (bits D 0 32), bits D 37 1 = 1, ptag, prot, s.ctx.clk, s.me, s.cl.part.getD 0⟩ := by
      rw [State.amsgOf, hI]
    refine (execAmsg_queues ha hb hd hc hD h63 hA hg ht hroom).trans (congrArg Host.Outcome.next ?_)
    dsimp only
    rw [hm]
    refine congrArg (fun x : State => x.markAtomic.finish 4) ?_
    have flip : ∀ (first : Bool) (x y : State), (if !first then x else y) = if first then y else x := by
      intro first x y
      cases first <;> rfl
    exact flip _ _ _

end Sys2Proof.Machine

/-!
SUPPORT. Transfers at issue (R253 to R256).
-/
namespace Sys2Proof.Machine

/-- The word whose span in own memory a transfer fills, or `hsend` reads (R253). -/
def Transfer.ownWord (x : Transfer) (A B : Word) : Word := if x.kind = .hsend then A else B

/-- A transfer passes the checks of R256 on its descriptor and addresses. -/
structure State.CopyPasses (s : State) (x : Transfer) (A B : Word) : Prop where
  route : x.route ≠ 3
  clear : x.reserved = false
  tag : if x.kind = .pullAdd then (addTag x.tagCode).isSome = true else x.tagCode = 0
  range : x.inRange = true
  srcAl : x.kind ≠ .pullG → A.toNat % 8 = 0
  dstAl : B.toNat % 8 = 0
  spitchAl : x.spitch % 8 = 0
  dpitchAl : x.dpitch % 8 = 0
  listAl : x.listAt % 8 = 0
  own : ownForm s.me (x.ownWord A B) = true
  ownSrc : x.kind = .copy → ownForm s.me A = true
  window : inSpad (offOf (x.ownWord A B)) x.span = true ∨ inHbm (offOf (x.ownWord A B)) x.span = true
  fe : x.fe = true → inSpad (offOf (x.ownWord A B)) x.span = true ∧ x.kind ≠ .hsend
  ingest : x.kind = .hget → s.ingestOf (offOf (x.ownWord A B)) x.len ≠ .bad
  list : x.kind = .pullG → inSpad x.listAt (8 * x.rows) = true
  member : x.kind = .pull ∨ x.kind = .pull2d ∨ x.kind = .pullAdd →
    resolve s.me A = s.me ∨ s.cl.members.contains (resolve s.me A) = true

/-- The checks read the cluster and its partition alone. -/
theorem State.CopyPasses.congr {s u : State} {x : Transfer} {A B : Word} (h : s.CopyPasses x A B) (hme : u.me = s.me)
    (hm : u.cl.members = s.cl.members) (hi : ∀ o n, u.ingestOf o n = s.ingestOf o n) : u.CopyPasses x A B where
  __ := h
  own := by rw [hme]; exact h.own
  ownSrc := by rw [hme]; exact h.ownSrc
  ingest := by rw [hi]; exact h.ingest
  member := by rw [hme, hm]; exact h.member

section
variable {s : State} {x : Transfer} {A B : Word} {tl : TLNum} {inc : Nat}

/-- A transfer that passes its checks is numbered, waits for a place (R106) or is issued (R256). -/
theorem State.issueCopy_passes (h : s.CopyPasses x A B) (hpos : 0 < s.ctx.tl[tl].high + inc) (hlt : s.ctx.tl[tl].high + inc < 2 ^ 64) :
    s.issueCopy x A B tl inc =
      if 128 ≤ s.copyInFlight (coreOf s.cur) then s.block .copySlot
      else (((s.newCopy x s.cur tl (s.ctx.tl[tl].high + inc) A B s.sup s.ctx.clk none).upd fun c =>
        c.updTl tl fun t => t.issue (s.ctx.tl[tl].high + inc)).markAtomic).finish 4 := by
  have tagOf : (x.kind ≠ .pullAdd → x.tagCode = 0) ∧ (x.kind = .pullAdd → (addTag x.tagCode).isSome = true) := by
    have ht := h.tag
    split at ht
    next hadd => exact ⟨fun hn => absurd hadd hn, fun _ => ht⟩
    next hadd => exact ⟨fun _ => ht, fun hk => absurd hk hadd⟩
  refine (if_neg ?_).trans ((if_neg ?_).trans ((if_neg ?_).trans ((if_neg ?_).trans ((if_neg ?_).trans ((if_neg ?_).trans
    ((if_neg ?_).trans ((if_neg ?_).trans ((if_neg ?_).trans ((if_neg ?_).trans ((if_neg ?_).trans ((if_neg ?_).trans
    ((if_neg ?_).trans (if_neg ?_)))))))))))))
  · simp [h.route, h.clear]
  · simpa using tagOf.1
  · simpa [Option.isSome_iff_ne_none] using tagOf.2
  · simp [h.range]
  · simpa using h.srcAl
  · simp [h.dstAl]
  · simp [h.spitchAl, h.dpitchAl, h.listAl]
  · exact fun hn => by rw [show ownForm s.me (if x.kind = .hsend then A else B) = true from h.own] at hn; exact Bool.noConfusion hn
  · simpa using h.ownSrc
  · have hw := h.window
    have hf := h.fe
    unfold Transfer.ownWord at hw hf
    simp only [Bool.or_eq_true, Bool.and_eq_true, Bool.not_eq_true', Bool.or_eq_false_iff, decide_eq_true_eq]
    rintro ((⟨h1, h2⟩ | ⟨h1, h2⟩) | ⟨h1, h2⟩)
    · rw [h1, h2] at hw
      exact hw.elim Bool.noConfusion Bool.noConfusion
    · exact Bool.noConfusion (h2.symm.trans (hf h1).1)
    · exact (hf h2).2 h1
  · simpa [Transfer.ownWord] using h.ingest
  · simpa using h.list
  · rw [Bool.and_assoc, Bool.and_eq_true]
    rintro ⟨hk, hn⟩
    exact State.not_foreign (h.member (by simpa [or_assoc] using hk)) hn
  · rw [Bool.or_eq_true, decide_eq_true_eq, decide_eq_true_eq]
    omega

end

section
variable {s : State} {kind : CopyKind} {a b : Option (GNum × Bool)} {d : Option GNum} {e : ENum} {l : List GNum} {A B g : Word}

/-- The timeline of a transfer's descriptor (R254). -/
def copyTl (D : Word) : TLNum := Fin.ofNat 4 (bits D 54 2)

/-- A transfer whose sources have been read is issued once it passes the checks, or waits where 128 of its core are in flight. -/
theorem transfer_passes (hgo : transfer kind a b d e s = .next (((s.reads l).touch (3 * e.val + 2)).issueCopy
      (transferOf kind s.ctx.e[e] g) A B (copyTl s.ctx.e[e]) (bits s.ctx.e[e] 37 16)))
    (h : s.CopyPasses (transferOf kind s.ctx.e[e] g) A B) (hpos : 0 < s.ctx.tl[copyTl s.ctx.e[e]].high + bits s.ctx.e[e] 37 16)
    (hlt : s.ctx.tl[copyTl s.ctx.e[e]].high + bits s.ctx.e[e] 37 16 < 2 ^ 64) :
    let D := s.ctx.e[e]
    let n := s.ctx.tl[copyTl D].high + bits D 37 16
    let u := (s.reads l).touch (3 * e.val + 2)
    (s.copyInFlight (coreOf s.cur) < 128 → transfer kind a b d e s = .next ((((u.newCopy (transferOf kind D g) s.cur (copyTl D) n A B s.sup
      s.ctx.clk none).upd fun c => c.updTl (copyTl D) fun t => t.issue n).markAtomic).finish 4)) ∧
    (128 ≤ s.copyInFlight (coreOf s.cur) → transfer kind a b d e s = .next (u.block .copySlot)) := by
  have hu : ((s.reads l).touch (3 * e.val + 2)).CopyPasses (transferOf kind s.ctx.e[e] g) A B := h.congr rfl rfl fun _ _ => rfl
  have hi := hgo.trans (congrArg Host.Outcome.next (State.issueCopy_passes (tl := copyTl s.ctx.e[e]) (inc := bits s.ctx.e[e] 37 16) hu hpos hlt))
  exact ⟨fun room => hi.trans (congrArg Host.Outcome.next (if_neg (not_le.mpr room))), fun full => hi.trans (congrArg Host.Outcome.next (if_pos full))⟩

end

section
variable {s : State} {a b d : GNum} (kind : CopyKind) (fa fb : Bool) (e : ENum)

/-- A transfer of two sources reads them. -/
theorem transfer_two (ha : s.gOk a) (hb : s.gOk b) (hc : s.allChecked) : transfer kind (some (a, fa)) (some (b, fb)) none e s =
    .next (((s.reads [a, b]).touch (3 * e.val + 2)).issueCopy (transferOf kind s.ctx.e[e] 0) (s.gVal a) (s.gVal b) (copyTl s.ctx.e[e])
      (bits s.ctx.e[e] 37 16)) := by
  unfold transfer
  dsimp only [Option.map_none]
  rw [s.srcG_ok _ _ _ ha, (s.reads [a]).srcG_ok _ _ _ hb, State.reads_reads, State.checked_of_allChecked (s := s.reads ([a] ++ [b])) hc]
  rfl

/-- A transfer of two sources and a shape reads the three. -/
theorem transfer_three (ha : s.gOk a) (hb : s.gOk b) (hd : s.gOk d) (hc : s.allChecked) :
    transfer kind (some (a, fa)) (some (b, fb)) (some d) e s = .next (((s.reads [a, b, d]).touch (3 * e.val + 2)).issueCopy
      (transferOf kind s.ctx.e[e] (s.gVal d)) (s.gVal a) (s.gVal b) (copyTl s.ctx.e[e]) (bits s.ctx.e[e] 37 16)) := by
  unfold transfer
  dsimp only [Option.map_some]
  rw [s.srcG_ok _ _ _ ha, (s.reads [a]).srcG_ok _ _ _ hb, State.reads_reads, (s.reads ([a] ++ [b])).srcG_ok _ _ _ hd, State.reads_reads,
    State.checked_of_allChecked (s := s.reads ([a] ++ [b] ++ [d])) hc]
  rfl

/-- A transfer with no source address reads its destination and its shape. -/
theorem transfer_shape (hb : s.gOk b) (hd : s.gOk d) (hc : s.allChecked) :
    transfer kind none (some (b, fb)) (some d) e s = .next (((s.reads [b, d]).touch (3 * e.val + 2)).issueCopy
      (transferOf kind s.ctx.e[e] (s.gVal d)) 0 (s.gVal b) (copyTl s.ctx.e[e]) (bits s.ctx.e[e] 37 16)) := by
  unfold transfer
  dsimp only [Option.map_some]
  rw [s.srcG_ok _ _ _ hb, (s.reads [b]).srcG_ok _ _ _ hd, State.reads_reads, State.checked_of_allChecked (s := s.reads ([b] ++ [d])) hc]
  rfl

end

/-- A transfer keeps its kind. -/
theorem transferOf_kind (kind : CopyKind) (D g : Word) : (transferOf kind D g).kind = kind := by
  cases kind <;> rfl

/-- Settles O32: the sources of each form (`transfer_two`, `transfer_three`, `transfer_shape`), and the issue (`transfer_passes`). -/
theorem transfers : Obligations.Transfers := by
  unfold Obligations.Transfers
  intro s d a b fa fb e ha hb hd hc D tl n goes
  have key : ∀ (i : Instr) (kind : CopyKind) (oa ob : Option (GNum × Bool)) (od : Option GNum) (l : List GNum) (A B g : Word),
      exec i s = transfer kind oa ob od e s → transfer kind oa ob od e s = .next (((s.reads l).touch (3 * e.val + 2)).issueCopy
        (transferOf kind s.ctx.e[e] g) A B (copyTl s.ctx.e[e]) (bits s.ctx.e[e] 37 16)) → goes i kind l A B g := by
    intro i kind oa ob od l A B g hx hgo route clear tag range srcAl dstAl spitchAl dpitchAl listAl hown ownSrc window fe ingest
      list member hpos hlt
    have hk : (transferOf kind D g).kind = kind := transferOf_kind kind D g
    have how : (transferOf kind D g).ownWord A B = if kind = .hsend then A else B := by
      rw [Transfer.ownWord, hk]
    have hp : s.CopyPasses (transferOf kind D g) A B :=
      { route, clear, range, dstAl, spitchAl, dpitchAl, listAl
        tag := by rwa [hk]
        srcAl := by rwa [hk]
        own := by rwa [how]
        ownSrc := by rwa [hk]
        window := by rwa [how]
        fe := by rwa [how, hk]
        ingest := by rwa [hk, how]
        list := by rwa [hk]
        member := by rwa [hk] }
    rw [hx]
    exact transfer_passes hgo hp hpos hlt
  exact ⟨key _ _ _ _ _ _ _ _ _ rfl (transfer_two _ _ _ _ ha hb hc), key _ _ _ _ _ _ _ _ _ rfl (transfer_three _ _ _ _ ha hb hd hc),
    key _ _ _ _ _ _ _ _ _ rfl (transfer_shape _ _ _ hb hd hc), key _ _ _ _ _ _ _ _ _ rfl (transfer_two _ _ _ _ ha hb hc),
    key _ _ _ _ _ _ _ _ _ rfl (transfer_two _ _ _ _ ha hb hc), key _ _ _ _ _ _ _ _ _ rfl (transfer_two _ _ _ _ ha hb hc),
    key _ _ _ _ _ _ _ _ _ rfl (transfer_two _ _ _ _ ha hb hc)⟩

end Sys2Proof.Machine

/-!
SUPPORT. The repeat form (R164 to R167); tiles and the direct matrix instructions (R270 to R286); `mtask` (R136, R289).
-/
namespace Sys2Proof.Machine

/-! ### The repeat form -/

section
variable {s : State} {cnt : BitVec 6} {sd sa sb st : Bool} {i : Instr} {len : Nat}

/-- A repeat with its target fetched (R165). -/
theorem execRep_target (ht : s.target = some (i, len)) : execRep cnt sd sa sb st s = .next (
    if cnt.toNat < s.ctx.repidx.toNat then s.jumpTo (s.ctx.pc + BitVec.ofNat 48 (len + 2))
    else match stepKinds i with
      | none => s.trap 0x02
      | some (kd, ka, kb) =>
        if (sd && !kd) || (sa && !ka) || (sb && !kb) then s.trap 0x02
        else { s with rep := some ⟨cnt.toNat, s.ctx.repidx.toNat, if st then 2 else 1, sd, sa, sb, len⟩ }) := by
  rw [execRep, ht] <;> rfl

/-- A step of a field that may step only where `k` says so. -/
theorem step_illegal_iff (want may : Bool) : (want && !may) = true ↔ want = true ∧ may = false := by
  cases want <;> cases may <;> decide

/-- The steps of a repeat: illegal where one of them is not allowed. -/
theorem steps_illegal_iff (kd ka kb : Bool) : ((sd && !kd) || (sa && !ka) || (sb && !kb)) = true ↔
    (sd = true ∧ kd = false) ∨ (sa = true ∧ ka = false) ∨ (sb = true ∧ kb = false) := by
  rw [Bool.or_eq_true, Bool.or_eq_true, step_illegal_iff, step_illegal_iff, step_illegal_iff, or_assoc]

end

/-- Settles O35: the repeat by its cases (`execRep_target`), and `finish` under one. -/
theorem repeatPrefix : Obligations.RepeatPrefix := by
  unfold Obligations.RepeatPrefix
  intro s cnt sd sa sb st i len ht j
  refine ⟨fun hover => (execRep_target ht).trans (congrArg _ (if_pos hover)), fun hin => ⟨fun hk => ?_, fun kd ka kb hk => ⟨fun bad => ?_, fun hd ha hb => ?_⟩⟩,
    fun r n hr hj => ?_, fun r n hr hj => ?_⟩
  · refine (execRep_target ht).trans (congrArg _ ((if_neg (not_lt.mpr hin)).trans ?_))
    rw [hk]
  · refine (execRep_target ht).trans (congrArg _ ((if_neg (not_lt.mpr hin)).trans ?_))
    rw [hk]
    exact if_pos ((steps_illegal_iff kd ka kb).mpr bad)
  · refine (execRep_target ht).trans (congrArg _ ((if_neg (not_lt.mpr hin)).trans ?_))
    rw [hk]
    refine if_neg fun bad => ?_
    obtain ⟨h1, h2⟩ | ⟨h1, h2⟩ | ⟨h1, h2⟩ := (steps_illegal_iff kd ka kb).mp bad
    · exact Bool.noConfusion (h2.symm.trans (hd h1))
    · exact Bool.noConfusion (h2.symm.trans (ha h1))
    · exact Bool.noConfusion (h2.symm.trans (hb h1))
  · rw [State.finish, hr]
    exact if_neg (not_le.mpr hj)
  · rw [State.finish, hr]
    exact if_pos hj

/-! ### Tile registers -/

/-- Three bits of a word, as a number and as a vector. -/
theorem ofNat_bits (w : Word) (lo n : Nat) : BitVec.ofNat n (bits w lo n) = (w >>> lo).setWidth n := by
  apply BitVec.eq_of_toNat_eq
  simp [bits, Nat.shiftRight_eq_div_pow]

/-- The low word of a descriptor. -/
theorem extract_low (w : TWord) : w.extractLsb' 0 64 = w.setWidth 64 := by
  ext k hk
  simp

/-- The high word of a descriptor. -/
theorem extract_high (w : TWord) : w.extractLsb' 64 64 = (w >>> 64).setWidth 64 := by
  ext k hk
  simp

section
variable {s : State} {w : TWord} {k : Tile → State → State} {p : Perm} {l : List (Nat × Nat)} {c : BitVec 8} {x : Nat}

/-- A descriptor whose tag is not enabled (R434). -/
theorem State.withTile_disabled (h : s.tileDisabled w = true) : s.withTile w k = s.trap 0x01 := if_pos h

/-- A descriptor that fails a check. -/
theorem State.withTile_fault (h : s.tileDisabled w = false) (hf : tileFault w = some (c, x)) :
    s.withTile w k = s.trapAux c 0 (BitVec.ofNat 64 x) 0 := by
  rw [State.withTile, h, hf]
  rfl

/-- A descriptor that passes the checks. -/
theorem State.withTile_ok (h : s.tileDisabled w = false) (hf : tileFault w = none) : s.withTile w k = k (tileOf w) s := by
  rw [State.withTile, h, hf]
  rfl

/-- Spans that protection allows (R272). -/
theorem State.tilesAllowed_ok {k : State → State} (h : ∀ x ∈ l, s.spadAllowed s.sup p x.1 x.2 = true) : s.tilesAllowed p l k = k s := by
  have hnone : s.deniedSpan s.sup p l = none := by
    unfold State.deniedSpan
    rw [List.find?_eq_none.mpr fun x hx => by rw [h x hx]; exact Bool.false_ne_true]
    rfl
  rw [State.tilesAllowed, hnone]

end

section
variable {s : State} {a b : GNum} {fa fb : Bool} {r : TNum}

/-- `tset` with its sources read. -/
theorem execTset_next (ha : s.gOk a) (hb : s.gOk b) : execTset a b fa fb r s = .next ((s.reads [a, b]).withTile (s.gVal b ++ s.gVal a)
    fun _ s' => (s'.upd fun x => { x.mend (3 * r.val + 1) with t := x.t.set r (s.gVal b ++ s.gVal a), tu := x.tu.set r s'.taint }).finish 4) := by
  rw [execTset, s.srcG_ok _ _ _ ha, (s.reads [a]).srcG_ok _ _ _ hb, State.reads_reads]
  rfl

/-- `mmeta` with its descriptor checked (R279). -/
def State.mmetaTake (w : Word) (r : TNum) (m : Tile) (s : State) : State :=
  if m.tag ≠ .n8 then s.trap 0x06
  else s.tilesAllowed .rd m.spans fun s =>
    (s.upd fun x => { x with spl := ⟨x.t[r], true, BitVec.ofNat 3 (bits w 56 3)⟩ }).finish 4

/-- `mmeta` with its word read. -/
theorem execMmeta_next (ha : s.gOk a) : execMmeta a fa r s = .next (
    if bits (s.gVal a) 0 56 ≠ 0 || bits (s.gVal a) 59 5 ≠ 0 || bits (s.gVal a) 56 3 = 0 then (s.reads [a]).trap 0x15
    else ((s.reads [a]).taintT r).withTile s.ctx.t[r] (State.mmetaTake (s.gVal a) r)) := by
  rw [execMmeta, s.srcG_ok _ _ _ ha]
  rfl

/-- A metadata descriptor that protection lets read is latched. -/
theorem State.mmetaTake_ok {w : Word} {m : Tile} (hm : m.tag = .n8) (hp : ∀ p ∈ m.spans, s.spadAllowed s.sup .rd p.1 p.2 = true) :
    s.mmetaTake w r m = (s.upd fun x => { x with spl := ⟨x.t[r], true, (w >>> 56).setWidth 3⟩ }).finish 4 := by
  rw [State.mmetaTake, if_neg (not_not_intro hm), State.tilesAllowed_ok hp, ofNat_bits]

end

/-- The cause and AUX of the first check of R270 that a descriptor fails. -/
theorem tileFault_cause {w : TWord} {c : BitVec 8} {x : Nat} (h : tileFault w = some (c, x)) :
    let w0 : Word := w.setWidth 64
    let w1 : Word := (w >>> 64).setWidth 64
    (c = 0x06 ∨ c = 0x07 ∨ c = 0x15) ∧
    (bits w1 23 40 ≠ 0 → c = 0x15 ∧ x = 0) ∧
    (bits w1 23 40 = 0 → tagOfCode (bits w0 59 5) = none → c = 0x06) ∧
    (c = 0x06 → tagOfCode (bits w0 59 5) = none) ∧
    (c = 0x07 → x = bits w0 0 23 ∨ x = bits w1 0 23) := by
  have fails : ∀ {c' : BitVec 8} {x' : Nat}, some (c', x') = some (c, x) → c' = c ∧ x' = x := fun e => by simpa using e
  unfold tileFault at h
  dsimp only at h
  rw [extract_low, extract_high] at h
  have hbase : (tileOf w).base = bits (w.setWidth 64 : Word) 0 23 := by rw [← extract_low]; rfl
  have hscale : (tileOf w).scale = bits ((w >>> 64).setWidth 64 : Word) 0 23 := by rw [← extract_high]; rfl
  generalize (w.setWidth 64 : Word) = w0 at h hbase ⊢
  generalize ((w >>> 64).setWidth 64 : Word) = w1 at h hscale ⊢
  dsimp only
  split at h
  case isTrue hres =>
    obtain ⟨rfl, rfl⟩ := fails h
    exact ⟨.inr (.inr rfl), fun _ => ⟨rfl, rfl⟩, fun h0 => absurd h0 hres, fun e => absurd e (by decide), fun e => absurd e (by decide)⟩
  case isFalse hres =>
    split at h
    case isTrue htag =>
      obtain ⟨rfl, rfl⟩ := fails h
      exact ⟨.inl rfl, fun h1 => absurd h1 hres, fun _ _ => rfl, fun _ => Option.isNone_iff_eq_none.mp htag, fun e => absurd e (by decide)⟩
    case isFalse htag =>
      have known : tagOfCode (bits w0 59 5) ≠ none := fun e => htag (Option.isNone_iff_eq_none.mpr e)
      have shape : c = 0x15 → (c = 0x06 ∨ c = 0x07 ∨ c = 0x15) ∧ (bits w1 23 40 ≠ 0 → c = 0x15 ∧ x = 0) ∧
          (bits w1 23 40 = 0 → tagOfCode (bits w0 59 5) = none → c = 0x06) ∧ (c = 0x06 → tagOfCode (bits w0 59 5) = none) ∧
          (c = 0x07 → x = bits w0 0 23 ∨ x = bits w1 0 23) := by
        rintro rfl
        exact ⟨.inr (.inr rfl), fun h1 => absurd h1 hres, fun _ e => absurd e known, fun e => absurd e (by decide), fun e => absurd e (by decide)⟩
      have placed : c = 0x07 → x = bits w0 0 23 ∨ x = bits w1 0 23 → (c = 0x06 ∨ c = 0x07 ∨ c = 0x15) ∧
          (bits w1 23 40 ≠ 0 → c = 0x15 ∧ x = 0) ∧ (bits w1 23 40 = 0 → tagOfCode (bits w0 59 5) = none → c = 0x06) ∧
          (c = 0x06 → tagOfCode (bits w0 59 5) = none) ∧ (c = 0x07 → x = bits w0 0 23 ∨ x = bits w1 0 23) := by
        rintro rfl hx
        exact ⟨.inr (.inl rfl), fun h1 => absurd h1 hres, fun _ e => absurd e known, fun e => absurd e (by decide), fun _ => hx⟩
      split at h
      · exact shape (fails h).1.symm
      split at h
      · exact shape (fails h).1.symm
      split at h
      · exact placed (fails h).1.symm (.inl ((fails h).2.symm.trans hbase))
      split at h
      · exact placed (fails h).1.symm (.inr ((fails h).2.symm.trans hscale))
      split at h
      · exact placed (fails h).1.symm (.inl ((fails h).2.symm.trans hbase))
      split at h
      · exact placed (fails h).1.symm (.inl ((fails h).2.symm.trans hbase))
      split at h
      · exact shape (fails h).1.symm
      · exact absurd h (by simp)

/-- Settles O36: `tset` and `mmeta` with their sources read (`execTset_next`, `execMmeta_next`) and the checks of a descriptor
(`withTile_ok`, `tileFault_cause`). -/
theorem tileRegisters : Obligations.TileRegisters := by
  unfold Obligations.TileRegisters
  refine ⟨fun s d a b fa fb r ha hb => ?_, fun w c x h => tileFault_cause h⟩
  intro w u m
  refine ⟨fun off => ?_, fun on hf => ?_, fun c x on hf => ?_, ?_, ?_, fun h0 h59 h56 hf htag on hp => ?_, fun bad => ?_⟩
  · exact (execTset_next ha hb).trans (congrArg _ (State.withTile_disabled (s := u) off))
  · exact (execTset_next ha hb).trans (congrArg _ (State.withTile_ok (s := u) on hf))
  · exact (execTset_next ha hb).trans (congrArg _ (State.withTile_fault (s := u) on hf))
  · rw [← extract_low]
    rfl
  · rw [← extract_high]
    rfl
  · have good : ¬(decide (bits m 0 56 ≠ 0) || decide (bits m 59 5 ≠ 0) || decide (bits m 56 3 = 0)) = true := by
      simp [h0, h59, h56]
    exact (execMmeta_next ha).trans (congrArg _ ((if_neg good).trans ((State.withTile_ok (s := (s.reads [a]).taintT r) on hf).trans
      (State.mmetaTake_ok (s := (s.reads [a]).taintT r) htag hp))))
  · refine (execMmeta_next ha).trans (congrArg _ (if_pos ?_))
    rw [Bool.or_eq_true, Bool.or_eq_true, decide_eq_true_eq, decide_eq_true_eq, decide_eq_true_eq, or_assoc]
    exact bad

end Sys2Proof.Machine

/-!
SUPPORT. The direct matrix instructions at issue (R272, R273, R280 to R286) and `mtask` (R136, R289).
-/
namespace Sys2Proof.Machine

section
variable {s : State} {w : TWord} {f : Option (BitVec 8 × Nat)} {p : Perm} {l : List (Nat × Nat)} {k : State → State}

/-- A direct instruction of a tag that is not enabled (R434). -/
theorem State.directChecks_disabled (h : s.tileDisabled w = true) : s.directChecks w f p l k = s.trap 0x01 := if_pos h

/-- A direct instruction whose checks fail. -/
theorem State.directChecks_fault {c : BitVec 8} {x : Nat} (h : s.tileDisabled w = false) (hf : f = some (c, x)) :
    s.directChecks w f p l k = s.trapAux c 0 (BitVec.ofNat 64 x) 0 := by
  subst hf
  exact if_neg (Bool.eq_false_iff.mp h)

/-- A direct instruction whose checks pass. -/
theorem State.directChecks_ok (h : s.tileDisabled w = false) (hf : f = none) (hp : ∀ x ∈ l, s.spadAllowed s.sup p x.1 x.2 = true) :
    s.directChecks w f p l k = k s := by
  subst hf
  exact (if_neg (Bool.eq_false_iff.mp h)).trans (State.tilesAllowed_ok hp)

end

/-! ### The forms with their sources read -/

/-- A load that is sent consumes the latch (R280). -/
def State.loadSent (w : TWord) (tr : Bool) (sp : SparsityLatch) (s : State) : State :=
  s.sendDirect (.load tr) w 0 0 sp fun x => { x with spl := SparsityLatch.reset }

/-- The bytes that a direct job of a tile reads (R119, R280). -/
def directReads (kind : MatKind) (w : TWord) (word : Word) (sp : SparsityLatch) (sup : Bool) : List (Nat × Nat) :=
  (⟨kind, w, word, 0, sp, sup, 0, 0, 0, 0⟩ : MatJob).reads

/-- `mcvt` that has passed its checks (R286): under SR the draw counter advances. -/
def State.cvtSent (w : TWord) (word : Word) (factor : Nat) (s : State) : State :=
  s.sendDirect .convert w word factor SparsityLatch.reset fun x =>
    if bits word 16 3 = 4 then { x with drawn := x.drawn + BitVec.ofNat 48 ((tileOf w).rows * (tileOf w).cols) } else x

/-- `mcvt` with its sources and its descriptor read (R278, R286). -/
def State.cvtChecks (w : TWord) (word : Word) (factor : Nat) (s : State) : State :=
  if cvtReserved word then s.trap 0x15
  else if s.tileDisabled w then s.trap 0x01
  else match cvtFault w word with
    | some (c, x) => s.trapAux c 0 (BitVec.ofNat 64 x) 0
    | none =>
      if s.srDisabled word then s.trap 0x01
      else if bits word 20 1 = 1 && !scaleValid factor then s.trap 0x0D
      else s.tilesAllowed .wr (tileOf w).spans (State.cvtSent w word factor)

section
variable {s : State} {a b : GNum} {fa fb : Bool} {r : TNum}

/-- A plane load with its tile register read. -/
theorem sendLoad_next (tr : Bool) (hc : s.allChecked) : sendLoad tr r s = .next ((s.taintT r).directChecks s.ctx.t[r]
    (loadFault s.ctx.t[r] tr s.ctx.spl) .rd (directReads (.load tr) s.ctx.t[r] 0 s.ctx.spl s.sup) (State.loadSent s.ctx.t[r] tr s.ctx.spl)) := by
  rw [sendLoad, State.checked_of_allChecked (s := s.taintT r) hc]
  rfl

/-- A pass with its sources read. -/
theorem execMstream_next (ha : s.gOk a) (hc : s.allChecked) : execMstream a fa r s = .next (
    if bits (s.gVal a) 7 55 ≠ 0 then ((s.reads [a]).taintT r).trap 0x15
    else ((s.reads [a]).taintT r).directChecks s.ctx.t[r] (passFault s.ctx.t[r] (s.gVal a)) .rd
      (directReads .pass s.ctx.t[r] (s.gVal a) SparsityLatch.reset s.sup)
      fun s' => s'.sendDirect .pass s.ctx.t[r] (s.gVal a) 0 SparsityLatch.reset id) := by
  rw [execMstream, s.srcG_ok _ _ _ ha, State.checked_of_allChecked (s := (s.reads [a]).taintT r) hc]
  rfl

/-- `mzero` with its word read. -/
theorem execMzero_next (ha : s.gOk a) (hc : s.allChecked) : execMzero a fa s = .next (
    if bits (s.gVal a) 7 1 ≠ 0 || bits (s.gVal a) 15 49 ≠ 0 || decide (128 < bits (s.gVal a) 0 7 + bits (s.gVal a) 8 7 + 1) then
      (s.reads [a]).trap 0x15
    else (s.reads [a]).sendDirect .zero 0 (s.gVal a) 0 SparsityLatch.reset id) := by
  rw [execMzero, s.srcG_ok _ _ _ ha, State.checked_of_allChecked (s := s.reads [a]) hc]

/-- `mcvt` with its sources read. -/
theorem execMcvt_next (ha : s.gOk a) (hb : s.gOk b) (hc : s.allChecked) : execMcvt a b fa fb r s =
    .next (((s.reads [a, b]).taintT r).cvtChecks s.ctx.t[r] (s.gVal a) (bits (s.gVal b) 0 32)) := by
  rw [execMcvt, s.srcG_ok _ _ _ ha, (s.reads [a]).srcG_ok _ _ _ hb, State.reads_reads,
    State.checked_of_allChecked (s := (s.reads ([a] ++ [b])).taintT r) hc]
  rfl

end

section
variable {s : State} {w : TWord} {word : Word} {factor : Nat}

/-- A convert word with no reserved bit, of an enabled tag and mode and with no fault. -/
theorem State.cvtChecks_plain (hr : cvtReserved word = false) (on : s.tileDisabled w = false) (hf : cvtFault w word = none)
    (sr : s.srDisabled word = false) : s.cvtChecks w word factor =
      if bits word 20 1 = 1 && !scaleValid factor then s.trap 0x0D
      else s.tilesAllowed .wr (tileOf w).spans (State.cvtSent w word factor) := by
  rw [State.cvtChecks, hr, on, hf, sr]
  rfl

/-- A convert word of a tag that is not enabled (R434). -/
theorem State.cvtChecks_disabled (hr : cvtReserved word = false) (off : s.tileDisabled w = true) :
    s.cvtChecks w word factor = s.trap 0x01 := by
  rw [State.cvtChecks, hr, off]
  rfl

/-- A convert word of mode SR that is not enabled (R434). -/
theorem State.cvtChecks_srDisabled (hr : cvtReserved word = false) (on : s.tileDisabled w = false) (hf : cvtFault w word = none)
    (sr : s.srDisabled word = true) : s.cvtChecks w word factor = s.trap 0x01 := by
  rw [State.cvtChecks, hr, on, hf, sr]
  rfl

/-- The factor of a convert word is used and is no scale. -/
theorem badFactor_iff : (bits word 20 1 = 1 && !scaleValid factor) = true ↔ bits word 20 1 = 1 ∧ ¬(0 < factor ∧ factor < 0x7F800000) := by
  rw [Bool.and_eq_true, decide_eq_true_eq, ← scaleValid_iff, Bool.not_eq_true', Bool.not_eq_true]

end

/-- Settles O37: each form with its sources read (`sendLoad_next`, `execMstream_next`, `execMzero_next`, `execMcvt_next`), its checks
(`directChecks_ok`, `cvtChecks_plain`) and the sending. -/
theorem directMatrix : Obligations.DirectMatrix := by
  unfold Obligations.DirectMatrix
  intro s a b fa fb r ha hb hc w W f sent allowed reads on load
  have ht : ∀ l, ((s.reads l).taintT r).tileDisabled w = s.tileDisabled w := fun _ => rfl
  refine ⟨fun hon hf hp => ?_, fun hon hf hp => ?_, ?_, fun hon h7 hf hp => ?_, fun h7 h15 hsum => ?_, fun hon hsr hres hf hfac hp => ?_, fun off => ⟨?_, ?_, fun h7 => ?_, fun hres => ?_⟩,
    fun hon hres hf hsr => ?_, fun c x hon hf => ?_, fun c x hon h7 hf => ?_, fun hon hsr hres hf h20 hbad => ?_⟩
  · exact (sendLoad_next false hc).trans (congrArg _ (State.directChecks_ok (s := s.taintT r) (k := State.loadSent w false s.ctx.spl) hon hf hp))
  · exact (sendLoad_next true hc).trans (congrArg _ (State.directChecks_ok (s := s.taintT r) (k := State.loadSent w true s.ctx.spl) hon hf hp))
  · exact congrArg Host.Outcome.next (State.checked_of_allChecked hc _)
  · exact (execMstream_next ha hc).trans (congrArg _ ((if_neg (not_not_intro h7)).trans
      (State.directChecks_ok (s := (s.reads [a]).taintT r) (k := fun s' => s'.sendDirect .pass w W 0 SparsityLatch.reset id) hon hf hp)))
  · refine (execMzero_next ha hc).trans (congrArg _ (if_neg ?_))
    have hle : ¬128 < bits W 0 7 + bits W 8 7 + 1 := by omega
    rw [h7, h15, decide_eq_false hle]
    decide
  · have good : ¬(decide (bits W 20 1 = 1) && !scaleValid f) = true := fun h => (badFactor_iff.mp h).2 (hfac (badFactor_iff.mp h).1)
    exact (execMcvt_next ha hb hc).trans (congrArg _ ((State.cvtChecks_plain (s := (s.reads [a, b]).taintT r) hres hon hf hsr).trans
      ((if_neg good).trans (State.tilesAllowed_ok (s := (s.reads [a, b]).taintT r) (k := State.cvtSent w W f) hp))))
  · exact (sendLoad_next false hc).trans (congrArg _ (State.directChecks_disabled (s := s.taintT r) off))
  · exact (sendLoad_next true hc).trans (congrArg _ (State.directChecks_disabled (s := s.taintT r) off))
  · exact (execMstream_next ha hc).trans (congrArg _ ((if_neg (not_not_intro h7)).trans
      (State.directChecks_disabled (s := (s.reads [a]).taintT r) off)))
  · exact (execMcvt_next ha hb hc).trans (congrArg _ (State.cvtChecks_disabled (s := (s.reads [a, b]).taintT r) hres off))
  · exact (execMcvt_next ha hb hc).trans (congrArg _ (State.cvtChecks_srDisabled (s := (s.reads [a, b]).taintT r) hres hon hf hsr))
  · exact (sendLoad_next false hc).trans (congrArg _ (State.directChecks_fault (s := s.taintT r) hon hf))
  · exact (execMstream_next ha hc).trans (congrArg _ ((if_neg (not_not_intro h7)).trans
      (State.directChecks_fault (s := (s.reads [a]).taintT r) hon hf)))
  · exact (execMcvt_next ha hb hc).trans (congrArg _ ((State.cvtChecks_plain (s := (s.reads [a, b]).taintT r) hres hon hf hsr).trans
      (if_pos (badFactor_iff.mpr ⟨h20, hbad⟩))))

/-! ### Task submission -/

section
variable {s : State} {a : GNum} {fa : Bool}

/-- `mtask` whose address names a record (R289). -/
def State.submitTask (idx : Nat) (s : State) : State :=
  let tl : TLNum := Fin.ofNat 4 (bits (s.taskWord idx 0) 50 2)
  let n := (s.taskWord idx 1).toNat
  if s.taskDisabled idx then s.trap 0x01
  else if !s.taskValid idx then s.trap 0x15
  else if 256 ≤ s.eng.tasks.length then s.block .taskSlot
  else if n = 0 || decide (n < s.ctx.tl[tl].high) then s.trap 0x14
  else s.acceptTask idx tl n

/-- `mtask` with its address read. -/
theorem execMtask_next (ha : s.gOk a) (hc : s.allChecked) : execMtask a fa s = .next (
    if !ownForm s.me (s.gVal a) || !inSpad (offOf (s.gVal a)) 1 then (s.reads [a]).trapEa 0x08 (s.gVal a)
    else if offOf (s.gVal a) % 128 ≠ 0 then (s.reads [a]).trapEa 0x07 (s.gVal a)
    else (s.reads [a]).submitTask (offOf (s.gVal a) / 128)) := by
  rw [execMtask, s.srcG_ok _ _ _ ha, State.checked_of_allChecked (s := s.reads [a]) hc]
  rfl

end

/-- A number on a timeline is refused where it is 0 or below HIGH (R136). -/
theorem badNumber_iff {n high : Nat} : (decide (n = 0) || decide (n < high)) = true ↔ n = 0 ∨ n < high := by
  rw [Bool.or_eq_true, decide_eq_true_eq, decide_eq_true_eq]

/-- Settles O38: the address (`execMtask_next`), then the record in the order of `submitTask`. -/
theorem taskSubmission : Obligations.TaskSubmission := by
  unfold Obligations.TaskSubmission
  intro s a fa ha hc A o u idx tl n
  have named : ownForm s.me A = true → inSpad o 1 = true → ¬(!ownForm s.me A || !inSpad o 1) = true := fun h1 h2 => by
    rw [h1, h2]
    exact Bool.false_ne_true
  refine ⟨fun hbad => ?_, fun hown hs => ⟨fun hal => ?_, fun hal => ?_⟩⟩
  · refine (execMtask_next ha hc).trans (congrArg _ (if_pos ?_))
    obtain h | h := hbad
    · simp [A, h]
    · simp [A, o, h]
  · exact (execMtask_next ha hc).trans (congrArg _ ((if_neg (named hown hs)).trans (if_pos hal)))
  · have sub : execMtask a fa s = .next (u.submitTask idx) :=
      (execMtask_next ha hc).trans (congrArg _ ((if_neg (named hown hs)).trans (if_neg (not_not_intro hal))))
    have isOn : s.taskDisabled idx = false → ¬s.taskDisabled idx = true := Bool.eq_false_iff.mp
    have isValid : s.taskValid idx = true → ¬(!s.taskValid idx) = true := fun good => by
      rw [good]
      exact Bool.false_ne_true
    refine ⟨fun off => ?_, fun on bad => ?_, fun on good => ⟨fun full => ?_, fun room => ⟨fun low => ?_, fun hpos hhigh => ?_⟩⟩⟩
    · exact sub.trans (congrArg _ (if_pos off))
    · refine sub.trans (congrArg _ ((if_neg (isOn on)).trans (if_pos ?_)))
      exact congrArg Bool.not bad
    · exact sub.trans (congrArg _ ((if_neg (isOn on)).trans ((if_neg (isValid good)).trans (if_pos full))))
    · exact sub.trans (congrArg _ ((if_neg (isOn on)).trans ((if_neg (isValid good)).trans ((if_neg (not_le.mpr room)).trans
        (if_pos (badNumber_iff.mpr low))))))
    · have hn : ¬(n = 0 ∨ n < s.ctx.tl[tl].high) := by omega
      exact sub.trans (congrArg _ ((if_neg (isOn on)).trans ((if_neg (isValid good)).trans ((if_neg (not_le.mpr room)).trans
        (if_neg fun h => hn (badNumber_iff.mp h))))))

end Sys2Proof.Machine

/-!
SUPPORT. Special registers and calendar items (R144, R246, R267, R308, R309).
-/
namespace Sys2Proof.Machine

/-! ### Words made of fields -/

/-- Concatenation adds the high part above the low one. -/
theorem toNat_append_add {m n : Nat} (x : BitVec m) (y : BitVec n) : (x ++ y).toNat = x.toNat * 2 ^ n + y.toNat := by
  rw [BitVec.toNat_append, ← Nat.shiftLeft_add_eq_or_of_lt y.isLt, Nat.shiftLeft_eq]

/-- A Boolean as one bit. -/
theorem toNat_ofBool' (b : Bool) : (BitVec.ofBool b).toNat = if b then 1 else 0 := by
  cases b <;> rfl

/-- Packed fields of w bits fit into w bits each. -/
theorem packBits_lt (w : Nat) : ∀ l : List Nat, packBits w l < 2 ^ (w * l.length)
  | [] => Nat.one_pos
  | x :: l => by
    have ih := packBits_lt w l
    have hx : x % 2 ^ w < 2 ^ w := Nat.mod_lt _ (Nat.two_pow_pos w)
    calc packBits w (x :: l) = x % 2 ^ w + 2 ^ w * packBits w l := rfl
      _ < 2 ^ w * (packBits w l + 1) := by rw [Nat.mul_add, Nat.mul_one]; omega
      _ ≤ 2 ^ w * 2 ^ (w * l.length) := Nat.mul_le_mul_left _ ih
      _ = 2 ^ (w * (x :: l).length) := by rw [← Nat.pow_add, List.length_cons, Nat.mul_add, Nat.mul_one, Nat.add_comm]

/-- Field i of packed fields. -/
theorem packBits_field (w : Nat) : ∀ (l : List Nat) (i : Nat), packBits w l / 2 ^ (w * i) % 2 ^ w = l.getD i 0 % 2 ^ w
  | [], i => by simp [packBits]
  | x :: l, 0 => by
    show (x % 2 ^ w + 2 ^ w * packBits w l) / 2 ^ (w * 0) % 2 ^ w = x % 2 ^ w
    rw [Nat.mul_zero, Nat.pow_zero, Nat.div_one, Nat.add_mul_mod_self_left, Nat.mod_mod]
  | x :: l, i + 1 => by
    have hx : x % 2 ^ w / 2 ^ w = 0 := Nat.div_eq_of_lt (Nat.mod_lt _ (Nat.two_pow_pos w))
    show (x % 2 ^ w + 2 ^ w * packBits w l) / 2 ^ (w * (i + 1)) % 2 ^ w = l.getD i 0 % 2 ^ w
    rw [Nat.mul_add, Nat.mul_one, Nat.add_comm (w * i) w, Nat.pow_add, ← Nat.div_div_eq_div_mul, Nat.add_mul_div_left _ _ (Nat.two_pow_pos w),
      hx, Nat.zero_add, packBits_field w l i]

/-- Flags are fields of one bit. -/
theorem flagBits_eq (l : List Bool) : flagBits l = packBits 1 (l.map fun b => if b then 1 else 0) := by
  induction l with
  | nil => rfl
  | cons b l ih =>
    show (if b then 1 else 0) + 2 * flagBits l = (if b then 1 else 0) % 2 + 2 * packBits 1 (l.map fun b => if b then 1 else 0)
    rw [ih]
    cases b <;> rfl

/-- Flags fit into one bit each. -/
theorem flagBits_lt (l : List Bool) : flagBits l < 2 ^ l.length := by
  have h := packBits_lt 1 (l.map fun b => if b then 1 else 0)
  rwa [← flagBits_eq, List.length_map, Nat.one_mul] at h

/-- Flag i. -/
theorem flagBits_field (l : List Bool) (i : Nat) : flagBits l / 2 ^ i % 2 = if l.getD i false then 1 else 0 := by
  have h := packBits_field 1 (l.map fun b => if b then 1 else 0) i
  rw [← flagBits_eq, Nat.one_mul, Nat.pow_one] at h
  rw [h, List.getD_eq_getElem?_getD, List.getD_eq_getElem?_getD, List.getElem?_map]
  cases l[i]? with
  | none => rfl
  | some b => cases b <;> rfl

/-- A field of one bit. -/
theorem bits_one_iff (v : Word) (i : Nat) : bits v i 1 = 1 ↔ v.getLsbD i = true := by
  rw [BitVec.getLsbD, Nat.testBit_eq_decide_div_mod_eq, decide_eq_true_eq]
  rfl

/-- A word below its width. -/
theorem bits_ofNat {n : Nat} (lo k : Nat) (h : n < 2 ^ 64) : bits (BitVec.ofNat 64 n) lo k = n / 2 ^ lo % 2 ^ k := by
  rw [bits, BitVec.toNat_ofNat, Nat.mod_eq_of_lt h]

/-! ### Reading a special register -/

section
variable {s : State} {d : GNum} {num : BitVec 16}

/-- Below S level the numbers from 0x8000 on trap (R246, R306). -/
theorem State.specialPriv_denied {k : State → State} (hu : s.sup = false) (hn : 0x8000 ≤ num.toNat) : s.specialPriv num k = s.trap 0x03 := by
  rw [State.specialPriv, hu]
  exact if_pos (by simpa using hn)

/-- A number that the level may name. -/
theorem State.specialPriv_ok {k : State → State} (h : s.sup = true ∨ num.toNat < 0x8000) : s.specialPriv num k = k s := by
  rw [State.specialPriv]
  refine if_neg ?_
  rw [Bool.and_eq_true, decide_eq_true_eq, Bool.not_eq_true']
  rintro ⟨hn, hu⟩
  exact h.elim (fun hs => Bool.noConfusion (hs.symm.trans hu)) (not_lt.mpr hn)

/-- `srd` of a number that its level may name; CSTAT settles what is still executing. -/
theorem execSrd_next (h : s.sup = true ∨ num.toNat < 0x8000) : execSrd d num s = .next (
    match (if num = 0x8004 then s.settleLags (coreOf s.cur) else s).special num.toNat with
    | none => (if num = 0x8004 then s.settleLags (coreOf s.cur) else s).trap 0x01
    | some v => (if num = 0x8004 then s.settleLags (coreOf s.cur) else s).putG 4 d v) := by
  rw [execSrd, State.specialPriv_ok h] <;> rfl

/-- `srd` of a register but CSTAT gives its value. -/
theorem execSrd_gives {w : Word} (h : s.sup = true ∨ num.toNat < 0x8000) (hn : num ≠ 0x8004) (hw : s.special num.toNat = some w) :
    execSrd d num s = .next (s.putG 4 d w) := by
  rw [execSrd_next h, if_neg hn, hw]

/-- `srd` of a number that names no register. -/
theorem execSrd_none (h : s.sup = true ∨ num.toNat < 0x8000) (hn : num ≠ 0x8004) (hw : s.special num.toNat = none) :
    execSrd d num s = .next (s.trap 0x01) := by
  rw [execSrd_next h, if_neg hn, hw]

/-- `swr` of a number that its level may name. -/
theorem execSwr_next (h : s.sup = true ∨ num.toNat < 0x8000) (hd : s.gOk d) : execSwr d num s = .next (
    match (s.reads [d]).writeSpecial num.toNat (s.gVal d) with
    | none => (s.reads [d]).trap 0x01
    | some t => t.finish 4) := by
  rw [execSwr, State.specialPriv_ok h, s.srcG_ok _ _ _ hd] <;> rfl

/-- `swr` of a register that can be written. -/
theorem execSwr_puts {t : State} (h : s.sup = true ∨ num.toNat < 0x8000) (hd : s.gOk d)
    (hw : (s.reads [d]).writeSpecial num.toNat (s.gVal d) = some t) : execSwr d num s = .next (t.finish 4) := by
  rw [execSwr_next h hd, hw]

/-- `swr` of one that cannot. -/
theorem execSwr_none (h : s.sup = true ∨ num.toNat < 0x8000) (hd : s.gOk d)
    (hw : (s.reads [d]).writeSpecial num.toNat (s.gVal d) = none) : execSwr d num s = .next ((s.reads [d]).trap 0x01) := by
  rw [execSwr_next h hd, hw]

end

/-- The numbers that name no register. -/
theorem State.special_none (s : State) {n : Nat} (h : (5 < n ∧ n < 0x8000) ∨ n = 0x800E ∨ n = 0x800F ∨ 0x8015 < n) : s.special n = none := by
  unfold State.special
  dsimp only
  split
  all_goals first | rfl | omega

/-- The numbers that cannot be written. -/
theorem State.writeSpecial_none (s : State) (v : Word) {n : Nat} (h1 : n ≠ 1) (h0 : n ≠ 0x8000 ∧ n ≠ 0x8007 ∧ n ≠ 0x800C ∧ n ≠ 0x8012)
    (hp : n ≠ 0x8001 ∧ n ≠ 0x8002 ∧ n ≠ 0x8003 ∧ n ≠ 0x8006 ∧ n ≠ 0x8015) : s.writeSpecial n v = none := by
  have hplain : s.writePlain n v = none := by
    unfold State.writePlain
    split
    all_goals first | rfl | omega
  unfold State.writeSpecial
  split
  all_goals first | exact hplain | omega

/-! ### The packed registers -/

/-- SCTL. -/
theorem sctl_eq (h m : Bool) : BitVec.ofNat 64 ((if h then 2 ^ 63 else 0) + (if m then 2 ^ 62 else 0)) =
    BitVec.ofBool h ++ BitVec.ofBool m ++ (0 : BitVec 62) := by
  cases h <;> cases m <;> decide

/-- TQSTAT. -/
theorem Core.tqstat_eq (k : Core) : BitVec.ofNat 64 k.tqstat = BitVec.ofBool k.fatq.isSome ++ (0 : BitVec 55) ++
    BitVec.ofNat 4 (k.tq.filter fun r => r.hold ≠ .none && r.waiting.isSome).length ++
    BitVec.ofNat 4 (k.tq.filter fun r => r.hold = .none).length := by
  apply BitVec.eq_of_toNat_eq
  simp only [Core.tqstat, toNat_append_add, BitVec.ofNat_eq_ofNat, BitVec.toNat_ofNat, Nat.zero_mod, toNat_ofBool']
  generalize (k.tq.filter fun r => r.hold ≠ .none && r.waiting.isSome).length = a
  generalize (k.tq.filter fun r => r.hold = .none).length = b
  split <;> omega

/-- Word 0 of the retry latch. -/
theorem RetryLatch.word0_eq (r : RetryLatch) : BitVec.ofNat 64 r.word0 = BitVec.ofBool r.v ++ BitVec.ofBool r.arm ++ BitVec.ofBool r.sent ++
    BitVec.ofBool r.done ++ (0 : BitVec 5) ++ r.func ++ r.pc := by
  apply BitVec.eq_of_toNat_eq
  have hf := r.func.isLt
  have hp := r.pc.isLt
  simp only [RetryLatch.word0, toNat_append_add, BitVec.ofNat_eq_ofNat, BitVec.toNat_ofNat, Nat.zero_mod, toNat_ofBool', flagBits, List.foldr]
  split <;> split <;> split <;> split <;> omega

/-- TCCST: VALID of entry i in bit i, DIRTY in bit 8 + i. -/
theorem Core.tccst_fields (k : Core) : bits (BitVec.ofNat 64 k.tccst) 16 48 = 0 ∧ ∀ i : Fin 8,
    bits (BitVec.ofNat 64 k.tccst) i.val 1 = (if k.tcc[i].isSome then 1 else 0) ∧
    bits (BitVec.ofNat 64 k.tccst) (8 + i.val) 1 = (match k.tcc[i] with | some e => if e.dirty then 1 else 0 | none => 0) := by
  generalize hD : (k.tcc.toList.map fun e => match e with | some x => x.dirty | none => false) = D
  generalize hV : k.tcc.toList.map (·.isSome) = V
  have hDl : D.length = 8 := by rw [← hD, List.length_map, Vector.length_toList]
  have hVl : V.length = 8 := by rw [← hV, List.length_map, Vector.length_toList]
  have hDlt : flagBits D < 2 ^ 8 := hDl ▸ flagBits_lt D
  have hVlt : flagBits V < 2 ^ 8 := hVl ▸ flagBits_lt V
  have hk : k.tccst = flagBits V + 2 ^ 8 * flagBits D := by
    rw [Core.tccst, hV, Nat.add_comm, Nat.mul_comm, ← hD] <;> rfl
  have hlt : k.tccst < 2 ^ 16 := by omega
  have hw : ∀ lo n, bits (BitVec.ofNat 64 k.tccst) lo n = k.tccst / 2 ^ lo % 2 ^ n := fun lo n => bits_ofNat lo n (by omega)
  refine ⟨?_, fun i => ⟨?_, ?_⟩⟩
  · rw [hw, Nat.div_eq_of_lt hlt, Nat.zero_mod]
  · have hpow : 2 ^ 8 * flagBits D = 2 ^ i.val * (2 * (2 ^ (7 - i.val) * flagBits D)) := by
      rw [← Nat.mul_assoc 2, ← Nat.pow_succ', ← Nat.mul_assoc, ← Nat.pow_add]
      congr 2
      omega
    rw [hw, hk, hpow, Nat.add_mul_div_left _ _ (Nat.two_pow_pos _), Nat.pow_one, Nat.add_mul_mod_self_left, flagBits_field, ← hV,
      List.getD_eq_getElem?_getD, List.getElem?_map, Vector.getElem?_toList, Vector.getElem?_eq_getElem i.isLt]
    rfl
  · rw [hw, hk, Nat.pow_add, ← Nat.div_div_eq_div_mul, Nat.add_mul_div_left _ _ (Nat.two_pow_pos 8), Nat.div_eq_of_lt hVlt, Nat.zero_add,
      Nat.pow_one, flagBits_field, ← hD, List.getD_eq_getElem?_getD, List.getElem?_map, Vector.getElem?_toList,
      Vector.getElem?_eq_getElem i.isLt]
    show (if (match k.tcc[i] with | some x => x.dirty | none => false) then 1 else 0) = _
    cases k.tcc[i] <;> rfl

/-- An address with bit 0 clear. -/
theorem evenPc_eq (v : Word) : evenPc v = v.setWidth 48 &&& ~~~1 := by
  refine BitVec.eq_of_getLsbD_eq fun i hi => ?_
  rw [evenPc, BitVec.getLsbD_ofNat, BitVec.getLsbD_and, BitVec.getLsbD_setWidth, BitVec.getLsbD_not]
  cases i with
  | zero => simp [Nat.testBit_zero]
  | succ i =>
    rw [Nat.testBit_succ, Nat.mul_div_cancel _ Nat.zero_lt_two, ← Nat.testBit_succ, Nat.testBit_mod_two_pow]
    simp [hi, BitVec.getLsbD, Nat.testBit_succ]

/-- SCREAT without its reserved bits. -/
theorem screatOf_eq (v : Word) : screatOf v = v &&& 0xFFF00000FFFFFFFF := by
  have hsplit : screatOf v = v.extractLsb' 52 12 ++ (0 : BitVec 20) ++ v.extractLsb' 0 32 := by
    apply BitVec.eq_of_toNat_eq
    have hv := v.isLt
    simp only [screatOf, setBits, toNat_append_add, BitVec.toNat_ofNat, BitVec.ofNat_eq_ofNat, BitVec.extractLsb'_toNat, Nat.shiftRight_eq_div_pow]
    omega
  have hmask : ∀ i : Fin 64, (0xFFF00000FFFFFFFF : Word).getLsbD i = (decide (i.val < 32) || decide (52 ≤ i.val)) := by decide
  refine BitVec.eq_of_getLsbD_eq fun i hi => ?_
  rw [hsplit, BitVec.getLsbD_and, hmask ⟨i, hi⟩, BitVec.getLsbD_append, BitVec.getLsbD_append]
  by_cases h32 : i < 32
  · simp [h32]
  · by_cases h52 : 52 ≤ i
    · have h20 : ¬i - 32 < 20 := by omega
      have hsum : 52 + (i - 32 - 20) = i := by omega
      have h12 : i - 32 - 20 < 12 := by omega
      simp [h32, h52, h20, hsum, h12]
    · have h20 : i - 32 < 20 := by omega
      simp [h32, h52, h20]

/-! ### CSTAT -/

/-- States whose contexts differ in the mark of a last instruction alone, and have it no more often (R187). -/
def State.LagsEnded (s z : State) : Prop :=
  z.cur = s.cur ∧ (∀ c, (z.getCtx c).lag = true → (s.getCtx c).lag = true) ∧
    ∀ c, { z.getCtx c with lag := false } = { s.getCtx c with lag := false }

/-- Ending the last instruction of one context. -/
theorem State.LagsEnded.endLag {s z : State} (h : s.LagsEnded z) (c : CtxId) (b : Bool) :
    s.LagsEnded (z.updCtx c fun x => { x with lag := x.lag && b }) := by
  obtain ⟨hcur, hlag, hrest⟩ := h
  refine ⟨hcur, fun c' => ?_, fun c' => ?_⟩
  · obtain rfl | hne := eq_or_ne c' c
    · rw [State.getCtx_updCtx_same]
      exact fun hb => hlag _ (Bool.and_eq_true_iff.mp hb).1
    · rw [State.getCtx_updCtx_other _ _ _ _ hne]
      exact hlag c'
  · obtain rfl | hne := eq_or_ne c' c
    · rw [State.getCtx_updCtx_same]
      exact hrest _
    · rw [State.getCtx_updCtx_other _ _ _ _ hne]
      exact hrest c'

/-- What CSTAT settles ends last instructions and changes nothing else of a context. -/
theorem State.settleLags_ended (s : State) (core : CoreId) : s.LagsEnded (s.settleLags core) := by
  have step : ∀ (n : Nat) (l : List CtxId) (z : State), s.LagsEnded z → s.LagsEnded
      (l.foldl (fun s c => s.updCtx c fun x => { x with lag := x.lag && Config.freeBool (n + (numOf c).val) }) z) := by
    intro n l
    induction l with
    | nil => exact fun z h => h
    | cons c l ih => exact fun z h => ih _ (h.endLag c _)
  exact step _ _ _ ⟨rfl, fun _ h => h, fun _ => rfl⟩

/-- CSTAT has the shown state of context c in bits 3c to 3c + 2 (R308). -/
theorem State.cstat_fields (s : State) : bits (BitVec.ofNat 64 s.cstat) 48 16 = 0 ∧ ∀ c : Fin 16,
    bits (BitVec.ofNat 64 s.cstat) (3 * c.val) 3 = stCode (s.getCtx (ctxOf (coreOf s.cur) c)).shown := by
  have hlt : s.cstat < 2 ^ 48 := by
    have h := packBits_lt 3 ((coreCtxs (coreOf s.cur)).map fun c => stCode (s.getCtx c).shown)
    rwa [List.length_map, coreCtxs, List.length_map, List.length_range] at h
  have hw : ∀ lo n, bits (BitVec.ofNat 64 s.cstat) lo n = s.cstat / 2 ^ lo % 2 ^ n := fun lo n => bits_ofNat lo n (by omega)
  refine ⟨by rw [hw, Nat.div_eq_of_lt hlt, Nat.zero_mod], fun c => ?_⟩
  have hcode : ∀ st : CtxSt, stCode st % 2 ^ 3 = stCode st := fun st => by cases st <;> rfl
  have hc : (coreCtxs (coreOf s.cur))[c.val]? = some (ctxOf (coreOf s.cur) c) := by
    rw [coreCtxs, List.getElem?_map, List.getElem?_range c.isLt]
    refine congrArg (fun n => some (ctxOf (coreOf s.cur) n)) (Fin.ext ?_)
    exact Nat.mod_eq_of_lt c.isLt
  rw [hw, State.cstat, packBits_field, List.getD_eq_getElem?_getD, List.getElem?_map, hc]
  exact hcode _

/-- The shown state of a context as a code. -/
theorem Ctx.shown_code (x : Ctx) : stCode x.shown = match x.st with
    | .idle => 0 | .ready => if x.lag then 2 else 1 | .issued => 2 | .blocked => 3 | .faulted => 4 | .stopped => 5 := by
  unfold Ctx.shown
  cases x.st <;> cases x.lag <;> rfl

/-! ### Calendar items -/

/-- What the reading of LEFT changes. -/
theorem State.readLeft_eq (s : State) :
    let c := s.mod.cal
    let least := if c.guard then c.slotlen - c.guardlen else 0
    (c.sync = false → s.readLeft = (0, s)) ∧
    (c.sync = true → s.readLeft = (least + Config.freeNat s.draws % (c.left - least + 1),
      { s with draws := s.draws + 1, mod := { s.mod with cal := { c with left := least + Config.freeNat s.draws % (c.left - least + 1) } } })) := by
  refine ⟨fun h => if_pos (congrArg Bool.not h), fun h => if_neg fun hn => ?_⟩
  exact Bool.noConfusion ((congrArg Bool.not h).symm.trans hn)

/-- A calendar item reads nothing that the reading of LEFT changes. -/
theorem State.readLeft_calItem (s : State) (item left : Nat) : s.readLeft.2.calItem item left = s.calItem item left := by
  obtain ⟨h0, h1⟩ := s.readLeft_eq
  cases h : s.mod.cal.sync with
  | false => rw [h0 h]
  | true =>
    rw [h1 h]
    rfl

/-- Item 0: the head of the calendar (R144). -/
theorem State.calItem_head (s : State) (left : Nat) : BitVec.ofNat 64 (s.calItem 0 left) =
    BitVec.ofBool s.mod.cal.sync ++ BitVec.ofNat 7 s.mod.chipid.val ++ BitVec.ofNat 7 s.mod.cal.nslot ++ BitVec.ofNat 7 s.mod.cal.slot ++
      BitVec.ofBool s.mod.cal.guard ++ BitVec.ofNat 41 s.mod.cal.cycle := by
  apply BitVec.eq_of_toNat_eq
  have hc := s.mod.chipid.isLt
  simp only [State.calItem, if_true, toNat_append_add, BitVec.toNat_ofNat, toNat_ofBool']
  split <;> split <;> omega

/-- Item 1: the lengths and what is left of the slot (R144). -/
theorem State.calItem_lengths (s : State) (left : Nat) : BitVec.ofNat 64 (s.calItem 1 left) =
    (0 : BitVec 16) ++ BitVec.ofNat 16 s.mod.cal.guardlen ++ BitVec.ofNat 16 s.mod.cal.slotlen ++ BitVec.ofNat 16 left := by
  apply BitVec.eq_of_toNat_eq
  simp only [State.calItem, if_neg Nat.one_ne_zero, if_true, toNat_append_add, BitVec.ofNat_eq_ofNat, BitVec.toNat_ofNat]
  omega

/-- A peer word has port p in byte p (R144). -/
theorem peerWord_byte (l : List (Option (Fin 128))) (hl : l.length ≤ 8) (p : Nat) :
    (BitVec.ofNat 64 (peerWord l)).toNat / 2 ^ (8 * p) % 2 ^ 8 = match l.getD p none with | some x => 128 + x.val | none => 0 := by
  have hlt : peerWord l < 2 ^ 64 := by
    refine lt_of_lt_of_le (packBits_lt 8 _) (Nat.pow_le_pow_right Nat.zero_lt_two ?_)
    rw [List.length_map]
    omega
  rw [BitVec.toNat_ofNat, Nat.mod_eq_of_lt hlt, peerWord, packBits_field, List.getD_eq_getElem?_getD, List.getD_eq_getElem?_getD,
    List.getElem?_map]
  cases hp : l[p]? with
  | none => rfl
  | some x =>
    cases x with
    | none => rfl
    | some c =>
      have hc := c.isLt
      show (128 + c.val) % 2 ^ 8 = 128 + c.val
      omega

/-- Peer words: item 16 + 2j + h is half h of slot j (R144). -/
theorem State.calItem_peers (s : State) (left : Nat) {j h : Nat} (hj : j < s.mod.cal.nslot) (hh : h < 2) :
    s.calItem (16 + 2 * j + h) left = peerWord (((s.mod.cal.peers.getD j []).drop (8 * h)).take 8) := by
  have h0 : ¬16 + 2 * j + h = 0 := by omega
  have h1 : ¬16 + 2 * j + h = 1 := by omega
  have hin : (decide (16 ≤ 16 + 2 * j + h) && decide (16 + 2 * j + h < 16 + 2 * s.mod.cal.nslot)) = true := by
    rw [Bool.and_eq_true, decide_eq_true_eq, decide_eq_true_eq]
    omega
  have hdiv : (16 + 2 * j + h - 16) / 2 = j := by omega
  have hmod : (16 + 2 * j + h) % 2 = h := by omega
  rw [State.calItem, if_neg h0, if_neg h1, if_pos hin, hdiv, hmod]

/-- The flits that wait, counted. -/
theorem Pair.flits_eq (p : Pair) : p.flits = (p.queue.map fun m => m.flits).sum := by
  have h : ∀ (l : List Sent) (n : Nat), l.foldl (fun n m => n + m.flits) n = n + (l.map fun m => m.flits).sum := by
    intro l
    induction l with
    | nil => exact fun n => rfl
    | cons m l ih => exact fun n => (ih _).trans (by rw [List.map_cons, List.sum_cons, Nat.add_assoc])
  rw [Pair.flits, h, Nat.zero_add]

/-- QSTAT of a chip. -/
theorem Pair.qstat_eq (q : Pair) : BitVec.ofNat 64 q.qstat = BitVec.ofNat 20 q.budget ++ BitVec.ofNat 20 (min q.used 0xFFFFF) ++
    BitVec.ofNat 24 (min (q.queue.map fun m => m.flits).sum 0xFFFFFF) := by
  apply BitVec.eq_of_toNat_eq
  rw [Pair.qstat, Pair.flits_eq]
  simp only [toNat_append_add, BitVec.toNat_ofNat]
  omega

/-- Queue words (R144). -/
theorem State.calItem_queue (s : State) (left : Nat) (hn : s.mod.cal.nslot ≤ 128) (h : Fin 128) :
    s.calItem (272 + h.val) left = (s.pair h.val).qstat := by
  have hh := h.isLt
  have h0 : ¬272 + h.val = 0 := by omega
  have h1 : ¬272 + h.val = 1 := by omega
  have hin : ¬(decide (16 ≤ 272 + h.val) && decide (272 + h.val < 16 + 2 * s.mod.cal.nslot)) = true := by
    rw [Bool.and_eq_true, decide_eq_true_eq, decide_eq_true_eq]
    omega
  have hq : (decide (272 ≤ 272 + h.val) && decide (272 + h.val < 400)) = true := by
    rw [Bool.and_eq_true, decide_eq_true_eq, decide_eq_true_eq]
    omega
  rw [State.calItem, if_neg h0, if_neg h1, if_neg hin, if_pos hq, Nat.add_sub_cancel_left]

/-- Every other item is 0. -/
theorem State.calItem_other (s : State) (left : Nat) {item : Nat} (h : (2 ≤ item ∧ item < 16) ∨ (16 + 2 * s.mod.cal.nslot ≤ item ∧ item < 272) ∨
    (400 ≤ item ∧ 16 + 2 * s.mod.cal.nslot ≤ item)) : s.calItem item left = 0 := by
  have h0 : ¬item = 0 := by omega
  have h1 : ¬item = 1 := by omega
  have hin : ¬(decide (16 ≤ item) && decide (item < 16 + 2 * s.mod.cal.nslot)) = true := by
    rw [Bool.and_eq_true, decide_eq_true_eq, decide_eq_true_eq]
    omega
  have hq : ¬(decide (272 ≤ item) && decide (item < 400)) = true := by
    rw [Bool.and_eq_true, decide_eq_true_eq, decide_eq_true_eq]
    omega
  rw [State.calItem, if_neg h0, if_neg h1, if_neg hin, if_neg hq]

/-! ### O34 -/

/-- The number of a context named in a core. -/
theorem numOf_ctxOf (core : CoreId) (n : Fin 16) : numOf (ctxOf core n) = n := by
  apply Fin.ext
  have hn := n.isLt
  show (core.val * 16 + n.val) % 16 = n.val
  omega

section
variable {s : State} {d : GNum}

/-- CPC and CREPX change the context that CSEL names while it is STOPPED or FAULTED (R308). -/
theorem State.writeSelected_eq (s : State) (f : Ctx → Ctx) : s.writeSelected f =
    if s.core.csel ≠ 0 ∧ ((s.getCtx (ctxOf (coreOf s.cur) s.core.csel)).st = .stopped ∨ (s.getCtx (ctxOf (coreOf s.cur) s.core.csel)).st = .faulted)
    then s.updCtx (ctxOf (coreOf s.cur) s.core.csel) f else s := by
  have hiff : (decide (numOf s.selected ≠ 0) && (decide ((s.getCtx s.selected).st = .stopped) || decide ((s.getCtx s.selected).st = .faulted))) = true ↔
      s.core.csel ≠ 0 ∧ ((s.getCtx s.selected).st = .stopped ∨ (s.getCtx s.selected).st = .faulted) := by
    rw [Bool.and_eq_true, Bool.or_eq_true, decide_eq_true_eq, decide_eq_true_eq, decide_eq_true_eq, State.selected, numOf_ctxOf]
  exact if_congr hiff rfl rfl

/-- The registers of U level, read. -/
theorem srd_user (s : State) (d : GNum) :
    let gives (n : BitVec 16) (w : Word) : Prop := exec (.srd d n) s = .next (s.putG 4 d w)
    gives 0x0000 (BitVec.ofNat 64 s.ctx.clk) ∧ gives 0x0001 (s.ctx.drawn.setWidth 64) ∧
      gives 0x0002 (BitVec.ofNat 64 (match s.ctx.bound with | some b => b.idx | none => 0xFFFF)) ∧
      gives 0x0003 s.ctx.expb ∧ gives 0x0004 s.ctx.rcvb ∧ gives 0x0005 (BitVec.ofNat 64 s.mod.cycles) := by
  have low : ∀ {n : BitVec 16} {w : Word}, n.toNat < 0x8000 → n ≠ 0x8004 → s.special n.toNat = some w →
      exec (.srd d n) s = .next (s.putG 4 d w) := fun hn hne hw => execSrd_gives (.inr hn) hne hw
  refine ⟨low (by decide) (by decide) rfl, low (by decide) (by decide) ?_, low (by decide) (by decide) ?_, low (by decide) (by decide) rfl,
    low (by decide) (by decide) rfl, low (by decide) (by decide) rfl⟩
  · exact congrArg some (BitVec.ofNat_toNat _ _)
  · show some (BitVec.ofNat 64 ((s.ctx.bound.map (·.idx)).getD 0xFFFF)) = _
    cases s.ctx.bound <;> rfl

/-- The registers of S level but CSTAT, read. -/
theorem srd_system (s : State) (d : GNum) (hs : s.sup = true) :
    let k := s.core
    let y := s.getCtx (ctxOf (coreOf s.cur) k.csel)
    let gives (n : BitVec 16) (w : Word) : Prop := exec (.srd d n) s = .next (s.putG 4 d w)
    (gives 0x8001 (k.sepc.setWidth 64) ∧ gives 0x8002 (k.srep.setWidth 64) ∧ gives 0x8003 (k.tvec.setWidth 64) ∧
      gives 0x8000 (BitVec.ofBool k.hnd ++ BitVec.ofBool k.tmask ++ (0 : BitVec 62)) ∧ gives 0x8006 (BitVec.ofNat 64 k.csel.val) ∧
      gives 0x8007 (y.pc.setWidth 64) ∧ gives 0x8008 k.trec[0] ∧ gives 0x8009 k.trec[1] ∧ gives 0x800A k.trec[2] ∧
      gives 0x800B k.trec[3] ∧ gives 0x800C (y.repidx.setWidth 64) ∧ gives 0x8012 0 ∧ gives 0x8015 k.screat) ∧
    gives 0x8005 (BitVec.ofBool k.fatq.isSome ++ (0 : BitVec 55) ++
      BitVec.ofNat 4 (k.tq.filter fun r => r.hold ≠ .none && r.waiting.isSome).length ++
      BitVec.ofNat 4 (k.tq.filter fun r => r.hold = .none).length) ∧
    gives 0x800D (BitVec.ofBool y.retry.v ++ BitVec.ofBool y.retry.arm ++ BitVec.ofBool y.retry.sent ++ BitVec.ofBool y.retry.done ++
      (0 : BitVec 5) ++ y.retry.func ++ y.retry.pc) ∧
    gives 0x8010 (BitVec.ofNat 64 k.tccst) ∧
    (∀ p, s.mod.parts.find? (fun p => s.cl.part = some p.id) = some p → gives 0x8011 (BitVec.ofNat 64 p.savectr)) ∧
    gives 0x8013 (BitVec.ofNat 64 s.cl.par.prlock.toNat) ∧ gives 0x8014 (BitVec.ofNat 64 (s.cl.par.dumpOff + 0x22000 * (coreOf s.cur).val)) := by
  intro k y gives
  have high : ∀ {n : BitVec 16} {w : Word}, n ≠ 0x8004 → s.special n.toNat = some w → gives n w := fun hne hw => execSrd_gives (.inl hs) hne hw
  refine ⟨⟨high (by decide) ?_, high (by decide) ?_, high (by decide) ?_, high (by decide) ?_, high (by decide) rfl, high (by decide) ?_,
    high (by decide) rfl, high (by decide) rfl, high (by decide) rfl, high (by decide) rfl, high (by decide) ?_, high (by decide) rfl,
    high (by decide) rfl⟩, high (by decide) ?_, high (by decide) ?_, high (by decide) rfl, fun p hp => high (by decide) ?_,
    high (by decide) rfl, high (by decide) rfl⟩
  · exact congrArg some (BitVec.ofNat_toNat _ _)
  · exact congrArg some (BitVec.ofNat_toNat _ _)
  · exact congrArg some (BitVec.ofNat_toNat _ _)
  · exact congrArg some (sctl_eq _ _)
  · exact congrArg some (BitVec.ofNat_toNat _ _)
  · exact congrArg some (BitVec.ofNat_toNat _ _)
  · exact congrArg some (Core.tqstat_eq _)
  · exact congrArg some (RetryLatch.word0_eq _)
  · show some (BitVec.ofNat 64 s.savectr) = _
    rw [State.savectr, State.partition?, hp]
    rfl

/-- CSTAT, read once the last instructions that have ended are known (R187, R308). -/
theorem srd_cstat (s : State) (d : GNum) (hs : s.sup = true) :
    ∃ (z : State) (w : Word), (∀ c, (z.getCtx c).lag = true → (s.getCtx c).lag = true) ∧
      (∀ c, { z.getCtx c with lag := false } = { s.getCtx c with lag := false }) ∧ exec (.srd d 0x8004) s = .next (z.putG 4 d w) ∧
      bits w 48 16 = 0 ∧ ∀ c : Fin 16, let y := z.getCtx (ctxOf (coreOf s.cur) c)
        bits w (3 * c.val) 3 = match y.st with
          | .idle => 0 | .ready => if y.lag then 2 else 1 | .issued => 2 | .blocked => 3 | .faulted => 4 | .stopped => 5 := by
  obtain ⟨hcur, hlag, hrest⟩ := s.settleLags_ended (coreOf s.cur)
  obtain ⟨hhigh, hfield⟩ := (s.settleLags (coreOf s.cur)).cstat_fields
  refine ⟨s.settleLags (coreOf s.cur), BitVec.ofNat 64 (s.settleLags (coreOf s.cur)).cstat, hlag, hrest, execSrd_next (.inl hs), hhigh, fun c => ?_⟩
  rw [hcur] at hfield
  refine (hfield c).trans ((Ctx.shown_code _).trans ?_)
  rfl

/-- The registers of S level, written. -/
theorem swr_system (hs : s.sup = true) (hd : s.gOk d) :
    let v := s.gVal d
    let u := s.reads [d]
    let k := s.core
    let y := s.getCtx (ctxOf (coreOf s.cur) k.csel)
    let puts (n : BitVec 16) (t : State) : Prop := exec (.swr d n) s = .next (t.finish 4)
    let own (f : Core → Core) : State := u.updCore (coreOf s.cur) f
    let named (f : Ctx → Ctx) : State :=
      if k.csel ≠ 0 ∧ (y.st = .stopped ∨ y.st = .faulted) then u.updCtx (ctxOf (coreOf s.cur) k.csel) f else u
    let even (v : Word) : BitVec 48 := v.setWidth 48 &&& ~~~1
    puts 0x8000 (own fun k => { k with tmask := v.getLsbD 62 }) ∧ puts 0x8001 (own fun k => { k with sepc := even v }) ∧
      puts 0x8002 (own fun k => { k with srep := v.setWidth 6 }) ∧ puts 0x8003 (own fun k => { k with tvec := even v }) ∧
      puts 0x8006 (own fun k => { k with csel := Fin.ofNat 16 v.toNat }) ∧ puts 0x8007 (named fun y => { y with pc := even v }) ∧
      puts 0x800C (named fun y => { y with repidx := v.setWidth 6 }) ∧ puts 0x8015 (own fun k => { k with screat := v &&& 0xFFF00000FFFFFFFF }) ∧
      (v.getLsbD 0 = false → puts 0x8012 u) ∧
      (∀ id, v.getLsbD 0 = true → s.cl.part = some id → puts 0x8012 (u.updPart id fun p => { p with savectr := p.savectr + 1 })) := by
  intro v u k y puts own named even
  have write : ∀ {n : BitVec 16} {t : State}, u.writeSpecial n.toNat v = some t → puts n t := fun hw => execSwr_puts (.inl hs) hd hw
  have heven : evenPc v = even v := evenPc_eq v
  refine ⟨write ?_, write ?_, write ?_, write ?_, write ?_, write ?_, write ?_, write ?_, fun h0 => write ?_, fun id h0 hid => write ?_⟩
  · have hb : (decide (bits v 62 1 = 1)) = v.getLsbD 62 := by
      rw [Bool.eq_iff_iff, decide_eq_true_eq, bits_one_iff]
    show some (u.ownCore fun k => { k with tmask := decide (bits v 62 1 = 1) }) = _
    rw [hb]
    rfl
  · show some (u.ownCore fun k => { k with sepc := evenPc v }) = _
    rw [heven]
    rfl
  · show some (u.ownCore fun k => { k with srep := BitVec.ofNat 6 v.toNat }) = _
    rw [BitVec.ofNat_toNat]
    rfl
  · show some (u.ownCore fun k => { k with tvec := evenPc v }) = _
    rw [heven]
    rfl
  · have hc : Fin.ofNat 16 (bits v 0 4) = Fin.ofNat 16 v.toNat := Fin.ext (by simp [bits])
    show some (u.ownCore fun k => { k with csel := Fin.ofNat 16 (bits v 0 4) }) = _
    rw [hc]
    rfl
  · show some (u.writeSelected fun x => { x with pc := evenPc v }) = _
    rw [State.writeSelected_eq, heven]
    rfl
  · show some (u.writeSelected fun x => { x with repidx := BitVec.ofNat 6 v.toNat }) = _
    rw [State.writeSelected_eq, BitVec.ofNat_toNat]
    rfl
  · show some (u.ownCore fun k => { k with screat := screatOf v }) = _
    rw [screatOf_eq]
    rfl
  · have hb : ¬bits v 0 1 = 1 := fun h => Bool.noConfusion (h0.symm.trans ((bits_one_iff v 0).mp h))
    exact congrArg some (if_neg hb)
  · refine congrArg some ((if_pos ((bits_one_iff v 0).mpr h0)).trans ?_)
    show (match s.cl.part with | none => u | some id => u.updPart id fun p => { p with savectr := p.savectr + 1 }) = _
    rw [hid]

end

/-- Settles O34: reads (`srd_user`, `srd_system`, `srd_cstat`), writes (`swr_system`), the numbers that trap (`special_none`,
`writeSpecial_none`) and the calendar items. -/
theorem specialRegisters : Obligations.SpecialRegisters := by
  unfold Obligations.SpecialRegisters
  refine ⟨fun s d num hd => ?regs, fun s d item hn => ?cal⟩
  case regs =>
    intro v u x k y gives puts own named even
    have unwritten : (s.sup = true ∨ num.toNat < 0x8000) → u.writeSpecial num.toNat v = none → exec (.swr d num) s = .next (u.trap 0x01) :=
      fun h hw => execSwr_none h hd hw
    refine ⟨fun hu hnum => ⟨?_, ?_⟩, srd_user s d, ?_, fun hs => ?_, fun h5 h8 => ⟨?_, ?_⟩, fun hro => ?_⟩
    · exact congrArg _ (State.specialPriv_denied hu hnum)
    · exact congrArg _ (State.specialPriv_denied hu hnum)
    · refine execSwr_puts (.inr (by decide)) hd ?_
      show some (u.upd fun x => { x with drawn := BitVec.ofNat 48 v.toNat }) = _
      rw [BitVec.ofNat_toNat]
    · obtain ⟨hplain, htq, hretry, htcc, hsave, hlock, hdump⟩ := srd_system s d hs
      obtain ⟨h1, h2, h3, h0, h6, h7, h8, h9, hA, hB, hC, h12, h15⟩ := hplain
      obtain ⟨w0, w1, w2, w3, w6, w7, wC, w15, w12, w12'⟩ := swr_system hs hd
      obtain ⟨t0, t1⟩ := k.tccst_fields
      refine ⟨h1, h2, h3, h0, h6, h7, h8, h9, hA, hB, hC, h12, h15, srd_cstat s d hs, htq, hretry, ⟨_, htcc, t0, ?_⟩, hsave, fun hbad => ?_, hlock, hdump,
        w0, w1, w2, w3, w6, w7, wC, w15, w12, w12', fun hbad => ?_⟩
      · exact t1
      · have hnum : num.toNat = 0x800E ∨ num.toNat = 0x800F ∨ 0x8015 < num.toNat := by
          obtain rfl | rfl | h := hbad
          · exact .inl rfl
          · exact .inr (.inl rfl)
          · exact .inr (.inr h)
        refine execSrd_none (.inl hs) ?_ (s.special_none (.inr hnum))
        rintro rfl
        revert hnum
        decide
      · have hnum : num.toNat ∈ [0x8004, 0x8005, 0x8008, 0x8009, 0x800A, 0x800B, 0x800D, 0x800E, 0x800F, 0x8010, 0x8011, 0x8013, 0x8014] ∨
            0x8015 < num.toNat := hbad.imp_left fun h => by simpa using List.mem_map_of_mem (f := BitVec.toNat) h
        simp only [List.mem_cons, List.not_mem_nil, or_false] at hnum
        exact unwritten (.inl hs) (u.writeSpecial_none v (by omega) (by omega) (by omega))
    · refine execSrd_none (.inr h8) ?_ (s.special_none (.inl ⟨h5, h8⟩))
      rintro rfl
      revert h8
      decide
    · exact unwritten (.inr h8) (u.writeSpecial_none v (by omega) (by omega) (by omega))
    · have hnum : num.toNat = 0 ∨ num.toNat = 2 ∨ num.toNat = 3 ∨ num.toNat = 4 ∨ num.toNat = 5 := by
        obtain rfl | rfl | rfl | rfl | rfl := hro <;> decide
      exact unwritten (.inr (by omega)) (u.writeSpecial_none v (by omega) (by omega) (by omega))
  case cal =>
    intro c left u least
    obtain ⟨hoff, hon⟩ := s.readLeft_eq
    have item_eq : ∀ {n : Nat} {w : Word}, item.toNat = n → BitVec.ofNat 64 (s.calItem n left) = w → exec (.calrd d item) s = .next (u.putG 4 d w) := by
      rintro n w rfl rfl
      show Host.Outcome.next (u.putG 4 d (BitVec.ofNat 64 (u.calItem item.toNat left))) = _
      rw [s.readLeft_calItem]
    have zero : ∀ {n : Nat}, s.calItem n left = 0 → item.toNat = n → exec (.calrd d item) s = .next (u.putG 4 d 0) :=
      fun h0 hi => item_eq hi (congrArg (BitVec.ofNat 64) h0)
    refine ⟨fun h => ?_, fun h => ?_, fun h => item_eq h (s.calItem_head left), fun h => item_eq h (s.calItem_lengths left), fun j h hj hh hi => ?_,
      fun h hi => ?_, fun h2 h16 => zero (s.calItem_other left (.inl ⟨h2, h16⟩)) rfl, fun h16 h272 => zero (s.calItem_other left (.inr (.inl ⟨h16, h272⟩))) rfl,
      fun h400 => zero (s.calItem_other left (.inr (.inr ⟨h400, by omega⟩))) rfl⟩
    · exact ⟨congrArg Prod.fst (hoff h), congrArg Prod.snd (hoff h)⟩
    · have hl : left = least + Config.freeNat s.draws % (c.left - least + 1) := congrArg Prod.fst (hon h)
      have hm : Config.freeNat s.draws % (c.left - least + 1) < c.left - least + 1 := Nat.mod_lt _ (Nat.succ_pos _)
      refine ⟨by omega, fun hle => by omega, ?_⟩
      rw [hl]
      exact congrArg Prod.snd (hon h)
    · refine ⟨_, item_eq hi rfl, fun p hp => ?_⟩
      rw [s.calItem_peers left hj hh, peerWord_byte _ (List.length_take.le.trans (Nat.min_le_left _ _)), List.getD_eq_getElem?_getD,
        List.getElem?_take, if_pos hp, ← List.getD_eq_getElem?_getD] <;> rfl
    · exact item_eq hi (by rw [s.calItem_queue left hn h, Pair.qstat_eq])

end Sys2Proof.Machine

/-!
SUPPORT. `tret` that reaps (R322, R324): the state in which the cancelling of tasks moves another context.
-/
namespace Sys2Proof.Machine

/-- A pass of context 17 that waits for its swap; its start check fails, as the plane it asks for is empty. -/
def waitingPass : MatRun := ⟨⟨.pass, 0, 0, 0, SparsityLatch.reset, false, 0, 0, 0, 0⟩, .direct 17 none, false, 0, 0, none, 0, 0⟩

/-- A READY task of context 3. -/
def readyTask : LiveTask := ⟨0, 3, true, true, false, 0, 0, 0, 0, 0, 0, 0, 0, 0, 1⟩

/-- Context 0 of core 0 is about to reap context 3 with `tret` from g4, while a pass of core 1 waits with SHS FULL. -/
def reapingState : State :=
  ((((State.reset.upd fun x => { x with g := x.g.set 4 { x.g[4] with val := 2 } }).updCtx 3 fun x => { x with st := .faulted }).updCtx 17
    fun x => { x with st := .issued }).updCore 0 fun k => { k with hnd := true, trec := k.trec.set 0 0x0030000000000000 }).updEng
    fun e => { e with shs := .full, pass := some waitingPass, tasks := [readyTask] }

/-- HND of core 0 after an outcome. -/
def handling0 : Out → Bool
  | .next t => (t.getCore 0).hnd
  | _ => false

/-- The cancelled task's completion lets the waiting pass start, which traps in context 17: the handler that `tret` ends is then core 1's,
and HND of core 0 stays. -/
theorem tret_keeps_hnd : handling0 (exec (.tret 4 false) reapingState) = true := by decide +kernel

/-- The state meets the premises of the reaping `tret`. -/
theorem reapingState_premises : reapingState.sup = true ∧ reapingState.gOk 4 = true ∧ reapingState.core.hnd = true ∧
    bits reapingState.core.trec[0] 52 4 = 3 ∧ (reapingState.gVal 4).toNat % 4 = 2 ∧ (reapingState.getCtx 3).st = .faulted ∧
    reapingState.hasRecord 3 = false ∧ ((reapingState.reads [4]).cancelTasks 3).opsDone 3 = true := by decide +kernel

/-- Clearing HND of core 0 and then changing the moving context leaves HND of core 0 clear. -/
theorem hnd_cleared (u : State) (f : Ctx → Ctx) :
    ((({ (u.updCore 0 fun k => { k with hnd := false }).upd f with rep := none, target := none, taint := [] } : State)).getCore 0).hnd = false := by
  show ((u.updCore 0 fun k => { k with hnd := false }).getCore 0).hnd = false
  simp

/-- Refutes O41: `tret` that reaps (R324) first cancels the context's tasks; in `reapingState` that lets a pass of another core start and
trap, so that the state's mover is a context of core 1, and the return clears HND there and not in core 0, as the statement has it. -/
theorem not_contextControl : ¬ Obligations.ContextControl := by
  unfold Obligations.ContextControl
  rintro ⟨-, hret⟩
  obtain ⟨hsup, hok, hhnd, hbits, hA, hst, hrec, hdone⟩ := reapingState_premises
  have hc : ctxOf (coreOf reapingState.cur) (Fin.ofNat 16 (bits reapingState.core.trec[0] 52 4)) = 3 := by
    rw [hbits]
    rfl
  obtain ⟨-, hin⟩ := hret reapingState 4 false hsup hok
  obtain ⟨-, hfaulted⟩ := hin hhnd
  rw [hc] at hfaulted
  obtain ⟨-, -, -, hreap⟩ := hfaulted hst hrec
  have hkeeps := tret_keeps_hnd
  rw [hreap hA hdone] at hkeeps
  exact Bool.noConfusion ((hnd_cleared _ _).symm.trans hkeeps)

end Sys2Proof.Machine

/-!
SUPPORT. Saving and restoring contexts (R325, R326).
-/
namespace Sys2Proof.Machine

/-- The checks of a span change what its accesses look up alone. -/
theorem State.Looks.spanParts {s : State} (agent : Nat) (sup : Bool) (p : Perm) (o : Nat) : ∀ (l : List (Nat × Nat)) (acc : List (Nat × Nat × Nat))
    (u : State), s.Looks u → s.Looks (u.spanParts agent sup p o acc l).2
  | [], _, _, h => h
  | (a, n) :: r, acc, u, h => by
    have hu := h.access agent sup p (o + a) n
    unfold State.spanParts
    generalize u.access agent sup p (o + a) n = res at hu
    obtain ⟨f, w⟩ := res
    cases f with
    | ok key => exact State.Looks.spanParts agent sup p o r _ w hu
    | _ => exact hu

/-- A span that has been checked. -/
theorem State.span_looked {s t : State} {agent o n : Nat} {sup : Bool} {p : Perm} {r : SpanRes} (h : s.span agent sup p o n = (r, t)) :
    ∃ x k, t = s.looked x k := by
  have hl := State.Looks.spanParts (s := s) agent sup p o (pageParts o n) [] s (State.Looks.refl s)
  rwa [show s.spanParts agent sup p o [] (pageParts o n) = (r, t) from h] at hl

section
variable {s t : State} {d : GNum} {H : Word} {k : List (Nat × Nat × Nat) → State → State} {parts : List (Nat × Nat × Nat)}

/-- A home is an aligned span of own memory (R325). -/
def State.isHome (s : State) (H : Word) : Prop :=
  ownForm s.me H = true ∧ offOf H % 128 = 0 ∧ (inSpad (offOf H) 5120 = true ∨ inHbm (offOf H) 5120 = true)

/-- The check of a home, as the model writes it. -/
theorem State.isHome_iff (s : State) (H : Word) :
    (!ownForm s.me H || decide (offOf H % 128 ≠ 0) || !(inSpad (offOf H) 5120 || inHbm (offOf H) 5120)) = true ↔ ¬s.isHome H := by
  unfold State.isHome
  cases ownForm s.me H <;> cases inSpad (offOf H) 5120 <;> cases inHbm (offOf H) 5120 <;> simp

/-- A home whose span passes its checks. -/
theorem State.withHome_ok (hH : s.isHome H) (hspan : s.span s.agent true .wr (offOf H) 5120 = (.ok parts, t)) : s.withHome d H k = k parts t := by
  rw [State.withHome]
  refine (if_neg fun h => (s.isHome_iff H).mp h hH).trans ?_
  rw [hspan]

/-- An address that is no home: the code ADDRESS. -/
theorem State.withHome_bad (hH : ¬s.isHome H) : s.withHome d H k = s.putG 4 d 3 := if_pos ((s.isHome_iff H).mpr hH)

end

/-! ### `ctxsv` -/

/-- The image of a context put into entry i (R325). -/
def State.saveInto (d : GNum) (H : Word) (c : CtxId) (img : List Byte) (i : Nat) (s : State) : State :=
  (((s.setTcc i (some ⟨s.homeOf H, img, true, s.tccClock⟩)).tieRecord c).toIdle c).putG 4 d 0

/-- `ctxsv` with its home checked (R325). -/
def State.saveCtx (d : GNum) (H : Word) (c : CtxId) (s : State) : State :=
  if !s.opsDone c then s.block (.opsOf c)
  else if (s.getCtx c).damaged then (s.putG 4 d 1).trapAt c 0x1F 0 0 0 .none
  else
    let s := s.updCtx c fun x => { x with clk := max x.clk (max (s.opsTime c) (s.getCtx c).copyTime) }
    match s.tccFind H with
    | some i => s.saveInto d H c (s.imageOf c) i
    | none => match (List.range 8).find? fun i => (s.tcc.getD i none).isNone with
      | some i => s.saveInto d H c (s.imageOf c) i
      | none => s.writeBack s d s.tccVictim true (State.saveInto d H c (s.imageOf c) s.tccVictim)

/-- The context that a context word names. -/
theorem State.named_eq (s : State) (A : Word) : s.named A = ctxOf (coreOf s.cur) (Fin.ofNat 16 A.toNat) := by
  refine congrArg (ctxOf (coreOf s.cur)) (Fin.ext ?_)
  show A.toNat / 2 ^ 0 % 2 ^ 4 % 16 = A.toNat % 16
  omega

section
variable {s : State} {d a b : GNum} {fa fb : Bool}

/-- `ctxsv` with its sources read. -/
theorem execCtxsv_next (hs : s.sup = true) (ha : s.gOk a) (hb : s.gOk b) : execCtxsv d a b fa fb s = .next (
    if s.badCtx (s.named (s.gVal a)) then (s.reads [a, b]).putG 4 d 2
    else if !s.atRest (s.named (s.gVal a)) then (s.reads [a, b]).putG 4 d 1
    else (s.reads [a, b]).withHome d (s.gVal b) fun _ s' => s'.saveCtx d (s.gVal b) (s.named (s.gVal a))) := by
  rw [execCtxsv, State.priv, if_pos hs, s.srcG_ok _ _ _ ha, (s.reads [a]).srcG_ok _ _ _ hb, State.reads_reads]
  rfl

end

/-- The entry that takes an image when nothing has to be evicted: the home's own, or the first empty one (R316, R325). -/
def State.saveSlot (s : State) (H : Word) (i : Nat) : Prop :=
  s.tccFind H = some i ∨ (s.tccFind H = none ∧ s.tcc.getD i none = none ∧ ∀ j, j < i → s.tcc.getD j none ≠ none)

/-- A context at rest whose operations are complete is saved into that entry. -/
theorem State.saveCtx_slot {s : State} {d : GNum} {H : Word} {c : CtxId} {i : Nat} (hdone : s.opsDone c = true)
    (hdam : (s.getCtx c).damaged = false) (hi : i < 8) (hslot : s.saveSlot H i) :
    let v := s.updCtx c fun x => { x with clk := max x.clk (max (s.opsTime c) (s.getCtx c).copyTime) }
    s.saveCtx d H c = v.saveInto d H c (v.imageOf c) i := by
  intro v
  refine (if_neg ?_).trans ((if_neg ?_).trans ?_)
  · rw [hdone]
    exact Bool.false_ne_true
  · rw [hdam]
    exact Bool.false_ne_true
  · have hfind : v.tccFind H = s.tccFind H := rfl
    have htcc : v.tcc = s.tcc := rfl
    show (match v.tccFind H with
      | some i => v.saveInto d H c (v.imageOf c) i
      | none => match (List.range 8).find? fun i => (v.tcc.getD i none).isNone with
        | some i => v.saveInto d H c (v.imageOf c) i
        | none => v.writeBack v d v.tccVictim true (State.saveInto d H c (v.imageOf c) v.tccVictim)) = _
    rw [hfind, htcc]
    obtain h | ⟨h, hfree, hfirst⟩ := hslot
    · rw [h]
    · have hr : (List.range 8).find? (fun i => (s.tcc.getD i none).isNone) = some i := by
        rw [List.find?_range_eq_some]
        refine ⟨by rw [hfree]; rfl, List.mem_range.mpr hi, fun j hj => ?_⟩
        cases hj' : s.tcc.getD j none with
        | none => exact absurd hj' (hfirst j hj)
        | some e => rfl
      rw [h, hr]

/-! ### `ctxld` -/

/-- The marks of a record that `ctxld` restores: those tied to it, or free ones (log 45). -/
def State.restoreTie (s : State) (c : CtxId) (l : List Byte) : Tie :=
  (s.tie? (imgCrec l)).getD ⟨c, Config.freeBool s.draws, Config.freeBool (s.draws + 1), Config.freeBool (s.draws + 2)⟩

/-- The restore of an image whose checks pass, but the entry (R19, R326). -/
def State.restored (s : State) (c : CtxId) (l : List Byte) : State :=
  ({ s with draws := s.draws + 3 }.updCtx c fun x => { x.ofImage l (s.restoreTie c l) with
    clk := max (imgNum l 0x1308 8) s.cl.cclk
    bound := some ⟨imgCrec l, bits (s.recView (imgCrec l) 0) 55 1 = 1, Fin.ofNat 64 (bits (s.recView (imgCrec l) 0) 48 6), s.recView (imgCrec l) 1,
      (s.restoreTie c l).woke⟩
    st := .stopped }).updCl fun k =>
      { k with
        boundAt := k.boundAt.filter (fun p : Nat × Nat => decide (p.1 ≠ imgCrec l)) ++ [(imgCrec l, s.mod.cycles)]
        recOld := k.recOld.filter (fun p => decide (p.1 / 8 ≠ imgCrec l))
        ties := k.ties.filter (fun p => decide (p.1 ≠ imgCrec l))
        noned := k.noned.filter (fun x => decide (x ≠ c)) }

/-- The restore of an image, or the code of the check that fails (R326). -/
def State.restoreImage (d : GNum) (H : Word) (c : CtxId) (l : List Byte) (fromMem : Bool) (s : State) : State :=
  match s.imageCheck l fromMem with
  | .inl code => s.putG 4 d (BitVec.ofNat 64 code)
  | .inr l =>
    let s := s.restored c l
    (match s.tccFind H with
    | none => s
    | some j => s.setTcc j none).putG 4 d 0

/-- `ctxld` with its home checked (R326). -/
def State.loadCtx (d : GNum) (H : Word) (c : CtxId) (parts : List (Nat × Nat × Nat)) (s : State) : State :=
  match s.tccFind H with
  | some i => s.restoreImage d H c (((s.tcc.getD i none).map (·.img)).getD []) false
  | none => s.readSpan s (fun s =>
      let r := s.homeBytes (offOf H) parts
      r.2.restoreImage d H c r.1 true) (granulesOf (offOf H) 5120)

section
variable {s : State} {d a b : GNum} {fa fb : Bool}

/-- `ctxld` with its sources read. -/
theorem execCtxld_next (hs : s.sup = true) (ha : s.gOk a) (hb : s.gOk b) : execCtxld d a b fa fb s = .next (
    if s.badCtx (s.named (s.gVal a)) then (s.reads [a, b]).putG 4 d 2
    else if (s.getCtx (s.named (s.gVal a))).st ≠ .idle then (s.reads [a, b]).putG 4 d 1
    else (s.reads [a, b]).withHome d (s.gVal b) (State.loadCtx d (s.gVal b) (s.named (s.gVal a)))) := by
  rw [execCtxld, State.priv, if_pos hs, s.srcG_ok _ _ _ ha, (s.reads [a]).srcG_ok _ _ _ hb, State.reads_reads]
  rfl

end

/-- A restore from an entry whose image fails a check gives its code. -/
theorem State.loadCtx_code {s : State} {d : GNum} {H : Word} {c : CtxId} {parts : List (Nat × Nat × Nat)} {i n : Nat} {e : TcEntry}
    (hfind : s.tccFind H = some i) (he : s.tcc.getD i none = some e) (hcheck : s.imageCheck e.img false = .inl n) :
    s.loadCtx d H c parts = s.putG 4 d (BitVec.ofNat 64 n) := by
  rw [State.loadCtx, hfind]
  dsimp only
  rw [he, State.restoreImage]
  dsimp only [Option.map_some, Option.getD_some]
  rw [hcheck]

/-- A restore from an entry empties it (R326). -/
theorem State.loadCtx_restores {s : State} {d : GNum} {H : Word} {c : CtxId} {parts : List (Nat × Nat × Nat)} {i : Nat} {e : TcEntry}
    {l : List Byte} (hfind : s.tccFind H = some i) (he : s.tcc.getD i none = some e) (hcheck : s.imageCheck e.img false = .inr l) :
    s.loadCtx d H c parts = ((s.restored c l).setTcc i none).putG 4 d 0 := by
  have hfind' : (s.restored c l).tccFind H = some i := hfind
  rw [State.loadCtx, hfind]
  dsimp only
  rw [he, State.restoreImage]
  dsimp only [Option.map_some, Option.getD_some]
  rw [hcheck]
  dsimp only
  rw [hfind']

/-- Settles O42: `ctxsv` and `ctxld` with their sources read (`execCtxsv_next`, `execCtxld_next`), the home (`withHome_ok`), and the image saved
(`saveCtx_slot`) or restored (`loadCtx_code`, `loadCtx_restores`). -/
theorem contextImages : Obligations.ContextImages := by
  unfold Obligations.ContextImages
  intro s t d a b fa fb parts hs ha hb u c H x core
  have hc : s.named (s.gVal a) = c := s.named_eq _
  have hsv := execCtxsv_next (d := d) (fa := fa) (fb := fb) hs ha hb
  have hld := execCtxld_next (d := d) (fa := fa) (fb := fb) hs ha hb
  rw [hc] at hsv hld
  refine ⟨fun bad => ⟨hsv.trans (congrArg _ (if_pos bad)), hld.trans (congrArg _ (if_pos bad))⟩, fun good => ?_⟩
  have hgood : ¬s.badCtx c = true := Bool.eq_false_iff.mp good
  have saves : s.atRest c = true → exec (.ctxsv d a b fa fb) s = .next (u.withHome d H fun _ s' => s'.saveCtx d H c) := fun hr =>
    hsv.trans (congrArg _ ((if_neg hgood).trans (if_neg (by rw [hr]; exact Bool.false_ne_true))))
  have loads : x.st = .idle → exec (.ctxld d a b fa fb) s = .next (u.withHome d H (State.loadCtx d H c)) := fun hi =>
    hld.trans (congrArg _ ((if_neg hgood).trans (if_neg (not_not_intro hi))))
  refine ⟨fun busy => hsv.trans (congrArg _ ((if_neg hgood).trans (if_pos (congrArg Bool.not busy)))),
    fun used => hld.trans (congrArg _ ((if_neg hgood).trans (if_pos used))), fun hown hal hin hspan => ⟨?_, ?_⟩, fun hbad => ?_⟩
  · intro hrest hdone hdam i hi hslot v
    obtain ⟨tlb, n, rfl⟩ := State.span_looked hspan
    have hsave := State.saveCtx_slot (s := u.looked tlb n) (d := d) (H := H) (c := c) hdone hdam hi hslot
    refine (saves hrest).trans (congrArg _ ((State.withHome_ok (s := u) ⟨hown, hal, hin⟩ hspan).trans (hsave.trans ?_)))
    rfl
  · intro i e hidle hfind he
    obtain ⟨tlb, n, rfl⟩ := State.span_looked hspan
    have hload := (loads hidle).trans (congrArg _ (State.withHome_ok (s := u) ⟨hown, hal, hin⟩ hspan))
    exact ⟨fun code hcheck => hload.trans (congrArg _ (State.loadCtx_code (s := u.looked tlb n) hfind he hcheck)),
      fun l hcheck => hload.trans (congrArg _ (State.loadCtx_restores (s := u.looked tlb n) hfind he hcheck))⟩
  · have hno : ¬s.isHome H := by
      rintro ⟨hown, hal, hin⟩
      obtain h | h | ⟨h1, h2⟩ := hbad
      · exact Bool.noConfusion (h.symm.trans hown)
      · exact h hal
      · exact hin.elim (fun h => Bool.noConfusion (h1.symm.trans h)) fun h => Bool.noConfusion (h2.symm.trans h)
    exact ⟨fun hrest => (saves hrest).trans (congrArg _ (State.withHome_bad (s := u) hno)),
      fun hidle => (loads hidle).trans (congrArg _ (State.withHome_bad (s := u) hno))⟩

end Sys2Proof.Machine

/-!
SUPPORT. Suspension and the decisions of the scheduler (R21, R23, R334 to R349).
-/
namespace Sys2Proof.Machine

/-! ### What queueing and suspending leave: the revoked participants -/

theorem State.postDispatch_revoked (s : State) (c : CtxId) : (s.postDispatch c).cl.revoked = s.cl.revoked := by
  unfold State.postDispatch
  dsimp only
  split <;> rfl

theorem State.offerIdle_revoked (s : State) (i : Nat) : (s.offerIdle i).cl.revoked = s.cl.revoked := by
  have fold : ∀ (l : List CtxId) (z : State), (l.foldl (fun s c => s.postDispatch c) z).cl.revoked = z.cl.revoked := by
    intro l
    induction l with
    | nil => exact fun _ => rfl
    | cons c l ih => exact fun z => (ih _).trans (z.postDispatch_revoked c)
  exact fold _ s

theorem State.offerPreempt_revoked (s : State) (i : Nat) : (s.offerPreempt i).cl.revoked = s.cl.revoked := by
  unfold State.offerPreempt
  dsimp only
  split <;> rfl

theorem State.toIdle_revoked (s : State) (c : CtxId) : (s.toIdle c).cl.revoked = s.cl.revoked := by
  unfold State.toIdle
  dsimp only
  split
  · rw [State.postDispatch_revoked]
    rfl
  · rfl

theorem State.toIdle_updCl_revoked {s : State} {c : CtxId} {f : Cluster → Cluster} (hf : ∀ x, (f x).revoked = x.revoked) :
    ((s.updCl f).toIdle c).cl.revoked = s.cl.revoked := (State.toIdle_revoked _ _).trans (hf _)

theorem State.enqueue_revoked (s : State) (i : Nat) (woke : Bool) : (s.enqueue i woke).cl.revoked = s.cl.revoked := by
  unfold State.enqueue
  dsimp only
  rw [State.chain_cl]
  rfl

theorem State.saveRecord_revoked (s : State) (c : CtxId) (b : Bound) (pc : BitVec 48) (wait : BitVec 4) :
    (s.saveRecord c b pc wait).cl.revoked = s.cl.revoked := rfl

theorem State.trapAt_revoked (s : State) (c : CtxId) (cause : BitVec 8) (st : BitVec 4) (a b : Word) (hd : Hold) :
    (s.trapAt c cause st a b hd).cl.revoked = s.cl.revoked := by
  unfold State.trapAt
  dsimp only
  split
  · rfl
  · split <;> rfl

/-! ### Suspension -/

/-- A damaged register among g1 to g6 (R376). -/
def Ctx.saveBad (x : Ctx) : Bool := (List.range 6).any fun r => x.g[r + 1]?.any (·.bad)

/-- The write of a record by a suspension that may complete, form by form (R23). -/
def State.suspendAs (s : State) (c : CtxId) (b : Bound) : Susp → State
  | .yield pc => ((((s.saveRecord c b pc 0).enqueue b.idx false).offerIdle b.idx).toIdle c).offerPreempt b.idx
  | .park pc => (s.saveRecord c b pc 4).toIdle c
  | .waiting w =>
    if s.formMet c then s.updCtx c fun x => { x with susp := none }
    else ((s.saveRecord c b (s.getCtx c).pc w).updCl fun cl => { cl with suspended := cl.suspended ++ suspEvent (s.getCtx c) b.idx }).toIdle c

section
variable {s : State} {c : CtxId} {b : Bound} {p : Susp}

/-- A suspension revokes no participant. -/
theorem State.suspendAs_revoked : (s.suspendAs c b p).cl.revoked = s.cl.revoked := by
  cases p with
  | yield pc =>
    unfold State.suspendAs
    rw [State.offerPreempt_revoked, State.toIdle_revoked, State.offerIdle_revoked, State.enqueue_revoked, State.saveRecord_revoked]
  | park pc =>
    unfold State.suspendAs
    rw [State.toIdle_revoked, State.saveRecord_revoked]
  | waiting w =>
    unfold State.suspendAs
    dsimp only
    by_cases h : s.formMet c = true
    · rw [if_pos h]
      rfl
    · rw [if_neg h, State.toIdle_updCl_revoked, State.saveRecord_revoked]
      exact fun _ => rfl

/-- A suspension whose operations are complete. -/
theorem State.suspendRecord_done (hb : (s.getCtx c).bound = some b) (hp : (s.getCtx c).susp = some p) (hdone : s.opsDone c = true) :
    s.suspendRecord c = if !s.formMet c && (s.getCtx c).saveBad then s.trapAt c 0x1F 0 0 0 .none else s.suspendAs c b p := by
  have hd : ¬(!s.opsDone c) = true := by
    rw [hdone]
    exact Bool.false_ne_true
  unfold State.suspendRecord
  dsimp only
  rw [hb, hp]
  refine (if_neg hd).trans ?_
  cases p <;> rfl

/-- The suspension of a context whose participant stands is the record's write (R23, R403). -/
theorem State.suspend_done (hb : (s.getCtx c).bound = some b) (hp : (s.getCtx c).susp = some p) (hdone : s.opsDone c = true)
    (hr : s.cl.revoked.contains b.ptag.val = false) :
    s.suspend c = if !s.formMet c && (s.getCtx c).saveBad then s.trapAt c 0x1F 0 0 0 .none else s.suspendAs c b p := by
  have hrev : (s.suspendRecord c).cl.revoked = s.cl.revoked := by
    rw [State.suspendRecord_done hb hp hdone]
    split
    · exact State.trapAt_revoked _ _ _ _ _ _ _
    · exact State.suspendAs_revoked
  have hr' : ¬((s.suspendRecord c).cl.revoked.contains b.ptag.val && decide (((s.suspendRecord c).getCtx c).st = .idle)) = true := by
    rw [hrev, hr]
    exact Bool.false_ne_true
  rw [← State.suspendRecord_done hb hp hdone]
  unfold State.suspend
  rw [hb]
  exact if_neg hr'

/-- The end of a hold window in a waiting form (R21, R23). -/
theorem execHoldWindowEnd_suspends {r : BitVec 4} (hb : (s.getCtx c).bound ≠ none) (hst : (s.getCtx c).st = .blocked)
    (hsusp : (s.getCtx c).susp = none) (hmet : s.formMet c = false)
    (hr : (∃ tag d, (s.getCtx c).wait = some (.watch tag d) ∧ r = 1) ∨
      (∃ g n, (s.getCtx c).wait = some (.group g n) ∧ r = if (s.getCtx c).arrived.isSome then 3 else 2)) :
    let u := s.updCtx c fun x => { x with susp := some (.waiting r) }
    execHoldWindowEnd c s = .next (if u.opsDone c then u.post (.suspension c) else u) := by
  have hno : ¬(decide ((s.getCtx c).st ≠ .blocked) || (s.getCtx c).susp.isSome || s.formMet c || (s.getCtx c).bound.isNone) = true := by
    simp [hst, hsusp, hmet, hb]
  obtain ⟨tag, d, hw, rfl⟩ | ⟨g, n, hw, rfl⟩ := hr
  all_goals
    rw [execHoldWindowEnd]
    dsimp only
    rw [hw]
    exact congrArg Host.Outcome.next (if_neg hno)

end

/-! ### Decisions -/

section
variable {s : State} {c : CtxId} {q : QRec}

/-- A decision at its boundary in a running cluster (R335). -/
theorem State.atBoundary_first {i : Instr} {k : State → State} (hrun : s.running = true) (hf : s.decisionFirst i = true) :
    s.atBoundary i k = k s := by
  rw [State.atBoundary, hrun, hf]
  rfl

/-- What a FAULT outcome does (R348). -/
def State.settleFault (s : State) (c : CtxId) (side : Bool) : AlmEnd → State
  | .fate 0 => if side then s.escalate c else s.beginReap c 2
  | .fate 1 => s.beginReap c 0
  | .fate 2 => if side then s.escalate c else s.beginReap c 1
  | _ => s.escalate c

/-- A FAULT decision that is due (R348). -/
theorem execFaultDecision_due (hrun : s.running = true) (hq : s.heldRec c = some q) (hh : q.hold = .decision)
    (hf : s.decisionFirst (.faultDecision c) = true) :
    execFaultDecision c s = .next ((s.decide' (.fault c)).2.settleFault c (s.getCtx c).side (s.decide' (.fault c)).1) := by
  rw [execFaultDecision, hq]
  dsimp only
  rw [hh]
  refine congrArg Host.Outcome.next ((State.atBoundary_first hrun hf).trans ?_)
  generalize s.decide' (.fault c) = out
  obtain ⟨e, u⟩ := out
  cases e with
  | fate n => obtain _ | _ | _ | n := n <;> rfl
  | _ => rfl

/-- The reaping of a FAULT decision once the operations are complete (R348). -/
theorem execFaultDecision_reap {how : Fin 3} (hrun : s.running = true) (hq : s.heldRec c = some q) (hh : q.hold = .reap how)
    (hdone : s.opsDone c = true) :
    let u := s.updHeld c fun _ => none
    execFaultDecision c s = .next (if how = 0 then u.release c true else if how = 1 then u.release c false else u.parkRelease c) := by
  have hd : ¬(!s.opsDone c) = true := by
    rw [hdone]
    exact Bool.false_ne_true
  rw [execFaultDecision, hq]
  dsimp only
  rw [hh]
  refine congrArg Host.Outcome.next ((if_pos hrun).trans ((if_neg hd).trans ?_))
  obtain rfl | rfl | rfl : how = 0 ∨ how = 1 ∨ how = 2 := by omega
  all_goals rfl

end

section
variable {s : State} {k : CtxId}

/-- A candidate bound, where there is one. -/
def State.bindOne (s : State) (k : CtxId) : Option QEnt → State
  | some e => s.bindQueued k e.idx
  | none => s

/-- What a DISPATCH outcome does (R344, R346). -/
def State.settleDispatch (s : State) (k : CtxId) (cands : List QEnt) : AlmEnd → State
  | .take q => s.bindOne k (s.candidate k q)
  | .none => (s.updCl fun cl => { cl with noned := cl.noned ++ [k] }).post (.dispatchReoffer k)
  | _ => s.bindOne k (s.builtIn cands)

/-- The candidates that have waited AGE_MAX cycles (R337). -/
def State.starving (s : State) (k : CtxId) : List QEnt :=
  ((List.range 8).filterMap (s.candidate k)).filter fun e => decide (s.cl.par.ageMax ≤ s.mod.cycles - e.since)

/-- A DISPATCH decision of an IDLE context with candidates (R337, R344, R346). -/
theorem execDispatchDecision_due (hrun : s.running = true) (hst : (s.getCtx k).st = .idle)
    (hc : (List.range 8).filterMap (s.candidate k) ≠ []) (hf : s.decisionFirst (.dispatchDecision k) = true) :
    execDispatchDecision k s = .next (match oldest (s.starving k) with
      | some e => (s.updPol fun p => { p with decn := p.decn + 1 }).bindQueued k e.idx
      | none => (s.decide' (.dispatch k)).2.settleDispatch k ((List.range 8).filterMap (s.candidate k)) (s.decide' (.dispatch k)).1) := by
  have hne : ¬((List.range 8).filterMap (s.candidate k)).isEmpty = true := fun h => hc (List.isEmpty_iff.mp h)
  refine congrArg Host.Outcome.next ((State.atBoundary_first hrun hf).trans ((if_neg (not_not_intro hst)).trans ((if_neg hne).trans ?_)))
  unfold State.starving
  cases oldest (((List.range 8).filterMap (s.candidate k)).filter fun e => decide (s.cl.par.ageMax ≤ s.mod.cycles - e.since)) with
  | some e => rfl
  | none =>
    generalize s.decide' (.dispatch k) = out
    obtain ⟨e, u⟩ := out
    cases e <;> rfl

/-- A context that is offered again (R346). -/
theorem execDispatchReoffer_due (hrun : s.running = true) (hst : (s.getCtx k).st = .idle)
    (hc : (List.range 8).filterMap (s.candidate k) ≠ []) : execDispatchReoffer k s = .next (s.postDispatch k) := by
  refine congrArg Host.Outcome.next (if_pos ?_)
  rw [hrun, decide_eq_true hst, List.isEmpty_eq_false_iff.mpr hc]
  rfl

end

/-- What a PREEMPT outcome does (R347). -/
def State.settlePreempt (s : State) (w1 : Word) : AlmEnd → State
  | .vict j => match s.victim (Fin.ofNat 4 j) w1 with
    | none => s
    | some v => (s.updCl fun c => { c with preempting := [v] }).stopBy v .preempt
  | _ => s

/-- A PREEMPT decision that is due (R334, R347). -/
theorem execPreemptDecision_due {s : State} {i : Nat} (hrun : s.running = true) (hq : s.queued.any (fun e => e.idx = i) = true)
    (hidle : s.idleFor (s.recView i 1) = none) (hp : s.cl.preempting = []) (hf : s.decisionFirst (.preemptDecision i) = true) :
    execPreemptDecision i s = .next ((s.decide' (.preempt i)).2.settlePreempt (s.recView i 1) (s.decide' (.preempt i)).1) := by
  have hno : ¬(!(s.queued.any fun e => e.idx = i) || (s.idleFor (s.recView i 1)).isSome || !s.cl.preempting.isEmpty) = true := by
    rw [hq, hidle, hp]
    exact Bool.false_ne_true
  refine congrArg Host.Outcome.next ((State.atBoundary_first hrun hf).trans ((if_neg hno).trans ?_))
  generalize s.decide' (.preempt i) = out
  obtain ⟨e, u⟩ := out
  cases e with
  | vict j =>
    dsimp only [State.settlePreempt] <;> cases u.victim (Fin.ofNat 4 j) (s.recView i 1) <;> rfl
  | _ => rfl

/-- Settles O44: the end of a hold window (`execHoldWindowEnd_suspends`), the suspension (`suspend_done`) and each decision by its outcome. -/
theorem decisions : Obligations.Decisions := by
  unfold Obligations.Decisions
  intro s c
  refine ⟨fun r hb hst hsusp hmet hr => execHoldWindowEnd_suspends hb hst hsusp hmet hr, fun p b hb hp hdone hrev => ?suspend,
    fun hrun q hq hh hf e u hdec => ?fault, fun hrun q hq how hh hdone => execFaultDecision_reap hrun hq hh hdone,
    fun hrun k hst => ?dispatch,
    fun hrun i hq hidle hp hf o u hdec => ?preempt, fun keep prog hk hp => ?swap⟩
  case suspend =>
    intro bad
    have hs : exec (.suspension c) s = .next (if !s.formMet c && bad then s.trapAt c 0x1F 0 0 0 .none else s.suspendAs c b p) :=
      congrArg Host.Outcome.next (State.suspend_done hb hp hdone hrev)
    refine ⟨fun hmet hbad => hs.trans (congrArg _ (if_pos (by rw [hmet, hbad]; rfl))), fun hmet w hw => ?_, fun hbad => ?_⟩
    · subst hw
      exact hs.trans (congrArg _ ((if_neg (by rw [hmet]; exact Bool.false_ne_true)).trans (if_pos hmet)))
    · have hs' : exec (.suspension c) s = .next (s.suspendAs c b p) :=
        hs.trans (congrArg _ (if_neg (by rw [hbad, Bool.and_false]; exact Bool.false_ne_true)))
      refine ⟨fun pc h => ?_, fun pc h => ?_, fun w h hmet => ?_⟩
      · subst h
        exact hs'
      · subst h
        exact hs'
      · subst h
        exact hs'.trans (congrArg _ (if_neg (Bool.eq_false_iff.mp hmet)))
  case fault =>
    intro side
    have hs : exec (.faultDecision c) s = .next (u.settleFault c side e) := by
      have h := execFaultDecision_due hrun hq hh hf
      rw [hdec] at h
      exact h
    refine ⟨fun h => ?_, fun h hside => ?_, fun h hside => ?_, fun h => ?_⟩
    · subst h
      exact hs
    · subst h
      exact hs.trans (congrArg _ (if_neg (Bool.eq_false_iff.mp hside)))
    · subst h
      exact hs.trans (congrArg _ (if_neg (Bool.eq_false_iff.mp hside)))
    · obtain rfl | rfl | ⟨hside, rfl | rfl⟩ := h
      · exact hs
      · exact hs
      · exact hs.trans (congrArg _ (if_pos hside))
      · exact hs.trans (congrArg _ (if_pos hside))
  case dispatch =>
    intro cands starved hc
    refine ⟨execDispatchReoffer_due hrun hst hc, fun hf => ?_⟩
    have h := execDispatchDecision_due hrun hst hc hf
    refine ⟨fun e he => ?_, fun hs o u hdec => ?_⟩
    · rw [show oldest (s.starving k) = some e from he] at h
      exact h
    · have hnone : oldest (s.starving k) = none := by
        rw [show s.starving k = [] from hs]
        rfl
      rw [hnone, hdec] at h
      refine ⟨fun n e ho he => ?_, fun ho => ?_, fun e ho he => ?_⟩
      · subst ho
        rw [show u.settleDispatch k _ (.take n) = u.bindOne k (u.candidate k n) from rfl, he] at h
        exact h
      · subst ho
        exact h
      · subst ho
        rw [show u.settleDispatch k cands .dflt = u.bindOne k (u.builtIn cands) from rfl, he] at h
        exact h
  case preempt =>
    have h := execPreemptDecision_due hrun hq hidle hp hf
    rw [hdec] at h
    refine ⟨fun ho => ?_, fun j ho => ⟨fun hv => ?_, fun v hv => ?_⟩⟩
    · obtain rfl | rfl := ho
      · exact h
      · exact h
    · subst ho
      refine h.trans (congrArg Host.Outcome.next ?_)
      dsimp only [State.settlePreempt]
      rw [hv]
    · subst ho
      refine h.trans (congrArg Host.Outcome.next ?_)
      dsimp only [State.settlePreempt]
      rw [hv]
  case swap =>
    show execPolicySwap s = _
    rw [execPolicySwap, hk, hp]

end Sys2Proof.Machine

/-!
SUPPORT. Watches at the owner and their replies (R86 to R89, R248 to R250), rounds of groups and active messages (R36 to R38, R423).
-/
namespace Sys2Proof.Machine

/-! ### Watches at the owner -/

section
variable {s : State} {w : WatchReq}

/-- A registration that may be looked at (R86). -/
structure State.Watchable (s : State) (w : WatchReq) : Prop where
  alive : s.cl.killed = false
  part : w.part = s.cl.part.getD 0
  spad : inSpad w.off 8 = true
  allowed : s.spadAllowed (decide (w.src = s.me) && w.sup) (if decide (w.src = s.me) then .rd else .rr) w.off 8 = true
  sound : s.badWord w.off 8 = false
  fresh : s.cl.watches.any (fun x => x.src = w.src && x.tag = w.tag) = false

/-- A registration past its checks (R86, R88, R249). -/
theorem execWatchRegistration_next (h : s.Watchable w) : execWatchRegistration w s = .next (
    if w.thr.toNat ≤ (s.word w.off).toNat then s.fire w (s.wts (granule w.off))
    else if w.limit = some 0 then s.send w.src 0 (.expired w.tag)
    else if 2048 ≤ s.cl.watches.length then s.send w.src 0 (.refused w.tag)
    else if w.limit.isSome then (s.updCl fun c => { c with watches := c.watches ++ [w] }).post (.watchExpiry w.src w.tag)
    else s.updCl fun c => { c with watches := c.watches ++ [w] }) := by
  obtain ⟨alive, part, spad, allowed, sound, fresh⟩ := h
  have no : ∀ {b : Bool}, b = false → ¬b = true := Bool.eq_false_iff.mp
  refine congrArg Host.Outcome.next ((if_neg (no alive)).trans ((if_neg (not_not_intro part)).trans ((if_neg ?_).trans ((if_neg ?_).trans
    ((if_neg (no sound)).trans (if_neg (no fresh)))))))
  · rw [spad]
    exact Bool.false_ne_true
  · rw [allowed]
    exact Bool.false_ne_true

end

/-! ### Replies to watches -/

section
variable {s : State} {tag : Nat} {r : Reply} {krec : Nat → Nat → State → State} {kround : Nat → State → State}

/-- The cluster without the note that a watch is out. -/
def State.watchBack (s : State) (tag : Nat) : State := s.updCl fun c => { c with watchOut := c.watchOut.filter fun p => p.1 ≠ tag }

/-- A reply handed to its watcher (R89, R250). -/
def State.handReply (s : State) (r : Reply) (krec : Nat → Nat → State → State) (kround : Nat → State → State) : WatchFor → State
  | .ctx c => s.updCtx c fun x => { x with replies := x.replies ++ [r] }
  | .record i reg => krec i reg s
  | .round g => kround g s

/-- A reply to a watch that is out goes to its watcher. -/
theorem State.watchReplied_out {f : WatchFor} (ho : s.cl.watchOut.any (fun p => p.1 = tag) = true) (hw : s.watcher tag = some f) :
    s.watchReplied tag r krec kround = (s.watchBack tag).handReply r krec kround f := by
  have hb : ¬(!s.cl.watchOut.any fun p => p.1 = tag) = true := by
    rw [ho]
    exact Bool.false_ne_true
  refine (if_neg hb).trans ?_
  rw [hw]
  cases f <;> rfl

/-- A reply to a watch that is out no more is for no one (R89, R245). -/
theorem State.watchReplied_gone (ho : s.cl.watchOut.any (fun p => p.1 = tag) = false) : s.watchReplied tag r krec kround = s.watchBack tag :=
  if_pos (congrArg Bool.not ho)

variable {value : Word} {tf : Nat} {skid : Option Nat}

/-- A fire that does not come early for a record or a round (R153). -/
theorem execWatchFireReceipt_next (h : skid = none ∨ ∃ c, s.watcher tag = some (.ctx c)) : execWatchFireReceipt tag value tf skid s =
    .next (s.watchReplied tag (.fire tag value tf skid)
      (fun i reg s => ((s.putRec i (reg + 1) value).raiseCclk tf).wakeRecord i none true)
      (fun g s => (s.updGroup g fun x => { x with rtag := none }).post (.roundComplete g tf))) := by
  refine congrArg Host.Outcome.next (if_neg ?_)
  obtain rfl | ⟨c, hc⟩ := h
  · cases s.watcher tag with
    | none => exact Bool.false_ne_true
    | some f => cases f <;> exact Bool.false_ne_true
  · rw [hc]
    exact Bool.false_ne_true

end

/-! ### Rounds and broken groups -/

section
variable {s : State} {grp tf : Nat} {g : Group}

/-- The test of a round under way. -/
theorem Group.underWay (hst : g.st = 1) (hp : g.partDone = true) (ht : g.rtag = none) :
    ¬(decide (g.st ≠ 1) || !g.partDone || g.rtag.isSome) = true := by
  simp [hst, hp, ht]

/-- A round that has completed (R37). -/
theorem execRoundComplete_next (hg : s.group? grp = some g) (hst : g.st = 1) (hp : g.partDone = true) (ht : g.rtag = none) :
    execRoundComplete grp tf s = .next (
      if g.round + 1 < g.rounds then (s.updGroup grp fun g => { g with round := g.round + 1 }).startRound grp tf else s.advancePhase grp tf) := by
  rw [execRoundComplete, hg]
  exact congrArg Host.Outcome.next (if_neg (Group.underWay hst hp ht))

/-- A round watch that is sent again (R88). -/
theorem execRoundWatchRetry_next (hg : s.group? grp = some g) (hst : g.st = 1) (hp : g.partDone = true) (ht : g.rtag = none) :
    execRoundWatchRetry grp s = .next (s.sendRound grp) := by
  rw [execRoundWatchRetry, hg]
  exact congrArg Host.Outcome.next (if_neg (Group.underWay hst hp ht))

/-- A group is BROKEN, and the waits on it end where the cluster lives (R38, R386). -/
def State.markBroken (s : State) (i : Nat) : State :=
  let u := s.updGroup i fun g => { g with st := 2, rtag := none }
  if u.cl.killed then u else u.wakeGroup i false

/-- The cluster without the round watch of a group. -/
def State.dropRound (s : State) (g : Group) : State :=
  ((s.cl.watchOut.filter fun w => g.rtag = some w.1).foldl (fun s w => s.send w.2 0 (.withdraw w.1)) s).updCl
    fun c => { c with watchOut := c.watchOut.filter fun w => g.rtag ≠ some w.1 }

/-- A group that breaks drops its round watch first. -/
theorem State.breakGroup_eq {i : Nat} (hg : s.group? i = some g) : s.breakGroup i = (s.dropRound g).markBroken i := by
  rw [State.breakGroup, hg] <;> rfl

/-- Without a round watch there is none to drop. -/
theorem State.dropRound_none (ht : g.rtag = none) : s.dropRound g = s := by
  have hnone : s.cl.watchOut.filter (fun w => decide (g.rtag = some w.1)) = [] := by
    rw [ht]
    exact List.filter_eq_nil_iff.mpr fun w _ => by simp
  have hall : s.cl.watchOut.filter (fun w => decide (g.rtag ≠ some w.1)) = s.cl.watchOut := by
    rw [ht]
    exact List.filter_eq_self.mpr fun w _ => by simp
  rw [State.dropRound, hnone]
  show { s with cl := { s.cl with watchOut := s.cl.watchOut.filter fun w => decide (g.rtag ≠ some w.1) } } = s
  rw [hall]

end

/-! ### Active messages -/

section
variable {s : State} {fn : Fin 17} {h : HostMsg}

/-- A host message that passes its checks (R423). -/
theorem execHostActiveMessage_accepted (hr : s.hostReject fn h = none) :
    let p := hostPtag h
    let a := hostAmsg h s.me (((s.partOf? (hostTarget h)).map fun q => q.id).getD 0)
    let accepted (u : State) : State := u.updPart (((s.partOf? (hostTarget h)).map fun q => q.id).getD 0) fun q =>
      { q with msgids := q.msgids.filter (fun k => k.1 ≠ p) ++ [(p, (hostWord h 5).toNat)] }
    execHostActiveMessage fn h s = .next (
      if hostTarget h ≠ s.me then accepted (s.send (hostTarget h) 0 (.amsg a))
      else if (s.create a).1.isSome then accepted (s.create a).2 else (s.create a).2.report 0x01 [8, p]) := by
  intro p a accepted
  rw [execHostActiveMessage, hr]
  refine congrArg Host.Outcome.next ?_
  dsimp only
  refine if_congr Iff.rfl rfl ?_
  show (match s.create a with | (some _, s) => accepted s | (none, s) => s.report 0x01 [8, p]) = _
  generalize s.create a = made
  obtain ⟨_ | i, u⟩ := made <;> rfl

end

/-- Settles O47: the registration (`execWatchRegistration_next`), the replies (`watchReplied_out`, `watchReplied_gone`), rounds and broken groups,
and active messages (`execHostActiveMessage_accepted`). -/
theorem watchEvents : Obligations.WatchEvents := by
  unfold Obligations.WatchEvents
  refine ⟨fun s w tag tf value skid st => ⟨?register, ?expiry, ?replies⟩, fun s grp tf cl c m fn h => ⟨?rounds, ?limit, ?unbroken, ?broken, ?arrives, ?discards, ?reoffer, ?host⟩⟩
  case register =>
    intro own alive part spad allowed sound fresh
    have hn := execWatchRegistration_next (s := s) (w := w) ⟨alive, part, spad, allowed, sound, fresh⟩
    refine ⟨fun met => hn.trans (congrArg _ (if_pos met)), fun unmet => ⟨fun h0 => ?_, fun hl => ⟨fun full => ?_, fun room => ?_⟩⟩⟩
    · exact hn.trans (congrArg _ ((if_neg (not_le.mpr unmet)).trans (if_pos h0)))
    · exact hn.trans (congrArg _ ((if_neg (not_le.mpr unmet)).trans ((if_neg hl).trans (if_pos full))))
    · refine hn.trans (congrArg _ ((if_neg (not_le.mpr unmet)).trans ((if_neg hl).trans ((if_neg (not_le.mpr room)).trans ?_))))
      cases w.limit <;> rfl
  case expiry =>
    intro gone
    exact ⟨fun h => congrArg _ (if_pos h), fun h => congrArg _ (if_neg (Bool.eq_false_iff.mp h)), rfl⟩
  case replies =>
    intro u
    refine ⟨fun ho => ⟨fun c hw => ?_, fun i reg hw => ?_, fun g hw => ?_⟩, fun ho => ?_⟩
    · exact ⟨(execWatchFireReceipt_next (.inr ⟨c, hw⟩)).trans (congrArg _ (State.watchReplied_out ho hw)),
        congrArg _ (State.watchReplied_out ho hw), congrArg _ (State.watchReplied_out ho hw), congrArg _ (State.watchReplied_out ho hw)⟩
    · exact ⟨(execWatchFireReceipt_next (.inl rfl)).trans (congrArg _ (State.watchReplied_out ho hw)),
        congrArg _ (State.watchReplied_out ho hw), congrArg _ (State.watchReplied_out ho hw), congrArg _ (State.watchReplied_out ho hw)⟩
    · exact ⟨(execWatchFireReceipt_next (.inl rfl)).trans (congrArg _ (State.watchReplied_out ho hw)),
        congrArg _ (State.watchReplied_out ho hw), congrArg _ (State.watchReplied_out ho hw)⟩
    · exact ⟨(execWatchFireReceipt_next (.inl rfl)).trans (congrArg _ (State.watchReplied_gone ho)),
        congrArg _ (State.watchReplied_gone ho), congrArg _ (State.watchReplied_gone ho), congrArg _ (State.watchReplied_gone ho)⟩
  case rounds =>
    intro g hg hst hp ht
    exact ⟨fun more => (execRoundComplete_next hg hst hp ht).trans (congrArg _ (if_pos more)),
      fun last => (execRoundComplete_next hg hst hp ht).trans (congrArg _ (if_neg (not_lt.mpr last))), execRoundWatchRetry_next hg hst hp ht⟩
  case limit =>
    intro g n hw
    show execGwaitLimitExpiry c s = _
    rw [execGwaitLimitExpiry, hw]
  case unbroken =>
    intro hnone
    show Host.Outcome.next (s.breakFor cl) = _
    rw [State.breakFor, hnone]
    rfl
  case broken =>
    intro i g hone hg ht
    show Host.Outcome.next (s.breakFor cl) = _
    rw [State.breakFor, hone]
    show Host.Outcome.next (s.breakGroup i) = _
    rw [State.breakGroup_eq hg, State.dropRound_none ht]
    rfl
  case arrives =>
    intro alive free
    refine congrArg _ (if_neg ?_)
    rw [alive, free]
    exact Bool.false_ne_true
  case discards =>
    intro h
    refine congrArg _ (if_pos ?_)
    rw [Bool.or_eq_true]
    exact h
  case reoffer =>
    intro hfirst
    refine ⟨?_, ?_⟩
    · show execAmsgReoffer cl false s = _
      rw [execAmsgReoffer, hfirst]
      rfl
    · show execAmsgReoffer cl true s = _
      rw [execAmsgReoffer, hfirst]
      rfl
  case host =>
    intro p
    refine ⟨fun r hr => ?_, fun hr => ?_⟩
    · show execHostActiveMessage fn h s = _
      rw [execHostActiveMessage, hr]
      rfl
    · have hn := execHostActiveMessage_accepted hr
      refine ⟨fun away => hn.trans (congrArg _ (if_pos away)), fun home => ⟨fun i hi => ?_, fun hi => ?_⟩⟩
      · exact hn.trans (congrArg _ ((if_neg (not_not_intro home)).trans (if_pos (by rw [hi]; rfl))))
      · exact hn.trans (congrArg _ ((if_neg (not_not_intro home)).trans (if_neg (by rw [hi]; exact Bool.false_ne_true))))

end Sys2Proof.Machine

/-!
SUPPORT. Remote reads at the owner, their replies, and recalls (R77 to R99, R364 to R373).
-/
namespace Sys2Proof.Machine

/-! ### Requests at the owner -/

section
variable {s : State} {r : ReadReq}

/-- A state in which a source request is being read no more. -/
def State.unserved (s : State) (r : ReadReq) : State := s.updCl fun c => c.unserve r.src r.tag

/-- A request of the own partition in a cluster that lives, read where it stands or looked at afresh (R360). -/
theorem execRemoteRequest_served {key : Nat} (hk : s.cl.killed = false) (hp : r.part = s.cl.part.getD 0)
    (hs : (s.cl.served r.src r.tag).2.2 = some key) (hb : s.badWord key r.size = false) : execRemoteRequest r s =
      .next ((s.unserved r).serve r key (s.cl.served r.src r.tag).1 (s.cl.served r.src r.tag).2.1) := by
  unfold execRemoteRequest
  generalize s.cl.served r.src r.tag = x at hs ⊢
  obtain ⟨got, t0, at_⟩ := x
  obtain rfl : at_ = some key := hs
  exact congrArg Host.Outcome.next ((if_neg (Bool.eq_false_iff.mp hk)).trans ((if_neg (not_not_intro hp)).trans (if_neg (Bool.eq_false_iff.mp hb))))

/-- The features that a request needs are there (R435). -/
def State.knows (s : State) (r : ReadReq) : Prop :=
  r.need.zeroExtend 64 &&& ~~~ s.mod.feat0 = 0 ∧ (r.rev < bits s.mod.feat1 0 8 && r.need ≠ 7) = false

/-- A request whose features are not there (R435). -/
theorem execRemoteRequest_unknown (hk : s.cl.killed = false) (hp : r.part = s.cl.part.getD 0) (hs : (s.cl.served r.src r.tag).2.2 = none)
    (hf : ¬s.knows r) : execRemoteRequest r s = .next ((s.unserved r).send r.src r.route (.status r.tag 4)) := by
  unfold execRemoteRequest
  generalize s.cl.served r.src r.tag = x at hs ⊢
  obtain ⟨got, t0, at_⟩ := x
  obtain rfl : at_ = none := hs
  refine congrArg Host.Outcome.next ((if_neg (Bool.eq_false_iff.mp hk)).trans ((if_neg (not_not_intro hp)).trans ?_))
  by_cases known : r.need.zeroExtend 64 &&& ~~~ s.mod.feat0 = 0
  · have late : (decide (r.rev < bits s.mod.feat1 0 8) && decide (r.need ≠ 7)) = true :=
      Bool.eq_true_of_not_eq_false fun recent => hf ⟨known, recent⟩
    exact (if_neg (not_not_intro known)).trans (if_pos late)
  · exact if_pos known

/-- A request for own scratchpad (R77). -/
theorem execRemoteRequest_spad (hk : s.cl.killed = false) (hp : r.part = s.cl.part.getD 0) (hs : (s.cl.served r.src r.tag).2.2 = none)
    (hf : s.knows r) (hin : inSpad r.off r.size = true) : execRemoteRequest r s = .next (
      if !s.spadAllowed false .rr r.off r.size then (s.unserved r).send r.src r.route (.status r.tag 5)
      else if s.badWord r.off r.size then (s.unserved r).urge (.event (.clusterKill s.me))
      else (s.unserved r).serve r r.off (s.cl.served r.src r.tag).1 (s.cl.served r.src r.tag).2.1) := by
  unfold execRemoteRequest
  generalize s.cl.served r.src r.tag = x at hs ⊢
  obtain ⟨got, t0, at_⟩ := x
  obtain rfl : at_ = none := hs
  obtain ⟨known, recent⟩ := hf
  exact congrArg Host.Outcome.next ((if_neg (Bool.eq_false_iff.mp hk)).trans ((if_neg (not_not_intro hp)).trans ((if_neg (not_not_intro known)).trans
    ((if_neg (Bool.eq_false_iff.mp recent)).trans (if_pos hin)))))

/-- A request outside both windows (R77). -/
theorem execRemoteRequest_outside (hk : s.cl.killed = false) (hp : r.part = s.cl.part.getD 0) (hs : (s.cl.served r.src r.tag).2.2 = none)
    (hf : s.knows r) (hin : inSpad r.off r.size = false) (hhbm : inHbm r.off r.size = false) :
    execRemoteRequest r s = .next ((s.unserved r).send r.src r.route (.status r.tag 6)) := by
  unfold execRemoteRequest
  generalize s.cl.served r.src r.tag = x at hs ⊢
  obtain ⟨got, t0, at_⟩ := x
  obtain rfl : at_ = none := hs
  obtain ⟨known, recent⟩ := hf
  exact congrArg Host.Outcome.next ((if_neg (Bool.eq_false_iff.mp hk)).trans ((if_neg (not_not_intro hp)).trans ((if_neg (not_not_intro known)).trans
    ((if_neg (Bool.eq_false_iff.mp recent)).trans ((if_neg (Bool.eq_false_iff.mp hin)).trans (if_neg (Bool.eq_false_iff.mp hhbm)))))))

/-- A load's bytes with their time and lease (R97). -/
theorem State.serve_load {key t0 : Nat} {got : List Byte} (hkind : r.kind = .load) : s.serve r key got t0 =
    if clockLimit ≤ s.readTime (granule r.off) r.clk then s.send r.src r.route (.status r.tag 7)
    else (s.setStamp (granule r.off) (s.wts (granule r.off))
      (max (s.rts (granule r.off)) (s.readTime (granule r.off) r.clk + s.cl.par.leaseLen))).send r.src r.route
        (.data r.tag (s.bytes key r.size) (s.readTime (granule r.off) r.clk) (s.readTime (granule r.off) r.clk + s.cl.par.leaseLen)) := by
  rw [State.serve, hkind]

end

/-! ### Replies -/

section
variable {s : State} {tag : Nat} {o : Outst} {c : CtxId}

/-- A reply to an attempt that is not abandoned reaches its context (R190). -/
theorem State.toCtx_live {r : Reply} (h : (s.getCtx c).sent.any (fun p => p.1 = tag) = true) :
    s.toCtx c tag r = s.updCtx c fun y => { y with replies := y.replies ++ [r] } :=
  congrArg (s.setCtx c) (if_pos h)

/-- A status for a context's request that no copy made (R78). -/
theorem State.requestFailed_ctx {st : BitVec 4} (hq : s.request? tag = some o) (ht : o.tag = tag) (hw : o.who = .ctx c)
    (hc : s.copyOfTag tag = none) : s.requestFailed tag st = (s.settle tag).toCtx c tag (.status tag st) := by
  rw [State.requestFailed, hc]
  dsimp only
  rw [hq]
  dsimp only
  rw [State.failRequest, hw, ht]

/-- A status for no request. -/
theorem State.requestFailed_none {st : BitVec 4} (hq : s.request? tag = none) (hc : s.copyOfTag tag = none) : s.requestFailed tag st = s := by
  rw [State.requestFailed, hc]
  dsimp only
  rw [hq]

/-- The lines of an L1 but one (R83). -/
def State.otherLines (s : State) (k : CoreId) (l : L1Line) : List L1Line :=
  (s.getCore k).l1.filter fun x => !(x.owner = l.owner && x.off = l.off)

/-- A line enters an L1 that has room (R83). -/
theorem State.l1Put_room {k : CoreId} {l : L1Line} (h : (s.otherLines k l).length < 512) :
    s.l1Put k l = s.updCore k fun x => { x with l1 := l :: s.otherLines k l } := by
  have hp : s.l1Put k l = s.updCore k fun x => { x with l1 := l :: (s.otherLines k l).eraseIdx (s.otherLines k l).length } := by
    unfold State.l1Put
    dsimp only
    rw [show (List.filter (fun x => !(decide (x.owner = l.owner) && decide (x.off = l.off))) (s.getCore k).l1) = s.otherLines k l from rfl, if_pos h]
  rw [hp, List.eraseIdx_of_length_le (Nat.le_refl _)]

/-- A line enters a full L1 in place of one that is free (R83). -/
theorem State.l1Put_full {k : CoreId} {l : L1Line} (h : 512 ≤ (s.otherLines k l).length) : ∃ n, n < (s.otherLines k l).length ∧
    s.l1Put k l = { s with draws := s.draws + 1 }.updCore k fun x => { x with l1 := l :: (s.otherLines k l).eraseIdx n } := by
  refine ⟨Config.freeNat s.draws % (s.otherLines k l).length, Nat.mod_lt _ (by omega), ?_⟩
  unfold State.l1Put
  dsimp only
  rw [show (List.filter (fun x => !(decide (x.owner = l.owner) && decide (x.off = l.off))) (s.getCore k).l1) = s.otherLines k l from rfl,
    if_neg (not_lt.mpr h)]
  rfl

/-- Data for a context that waits: its reply, then its line, in skid mode held back (R83, R99, R153). -/
theorem execRemoteDataReply_live {l : List Byte} {t lease : Nat} {skid : Option Nat} (hq : s.request? tag = some o) (hw : o.who = .ctx c)
    (hs : (s.getCtx c).sent.any (fun p => p.1 = tag) = true) (hf : s.cl.par.fused = false) :
    let got := (s.settle tag).updCtx c fun y => { y with replies := y.replies ++ [.data tag l t lease skid] }
    let line : L1Line := ⟨o.owner, o.req.off, l, lease⟩
    execRemoteDataReply tag l t lease skid s = .next (match skid with
      | none => got.l1Put (coreOf c) line
      | some g => got.updCl fun x => { x with heldLine := x.heldLine ++ [(g, coreOf c, line)] }) := by
  intro got line
  have hlive : (s.settle tag).toCtx c tag (.data tag l t lease skid) = got := State.toCtx_live (s := s.settle tag) hs
  have hgf : got.cl.par.fused = false := hf
  have hk : ¬(!(s.getCtx c).sent.any fun p => decide (p.1 = tag)) = true := by
    rw [hs]
    exact Bool.false_ne_true
  unfold execRemoteDataReply
  rw [hq]
  dsimp only
  rw [hw]
  dsimp only
  rw [hlive, hgf]
  refine congrArg Host.Outcome.next ((if_neg hk).trans ?_)
  cases skid <;> rfl

end

/-! ### Recalls -/

section
variable {s : State} {page key : Nat} {leaf : Word}

/-- A trigger for a page of a cluster that lives, by the state of its leaf (R365). -/
theorem State.triggerRecall_leaf (hk : s.cl.killed = false) (hl : s.leafOf page = some (key, leaf)) : s.triggerRecall page =
    if bits leaf 60 2 = 0 then s.releaseHeld page
    else if bits leaf 60 2 = 3 || s.cl.pending.contains page then s
    else if 8 ≤ s.cl.recalls.length then s.updCl fun c => { c with pending := c.pending ++ [page] }
    else s.startRecall page key leaf := by
  refine (if_neg (Bool.eq_false_iff.mp hk)).trans ?_
  rw [hl]

/-- A trigger for a page that is away and neither recalled nor pending (R365). -/
theorem State.triggerRecall_away (hk : s.cl.killed = false) (hl : s.leafOf page = some (key, leaf)) (h12 : bits leaf 60 2 = 1 ∨ bits leaf 60 2 = 2)
    (hp : s.cl.pending.contains page = false) : s.triggerRecall page =
      if 8 ≤ s.cl.recalls.length then s.updCl fun c => { c with pending := c.pending ++ [page] } else s.startRecall page key leaf := by
  have h0 : ¬bits leaf 60 2 = 0 := by omega
  have h3 : ¬(decide (bits leaf 60 2 = 3) || s.cl.pending.contains page) = true := by
    rw [hp, Bool.or_false, decide_eq_true_eq]
    omega
  exact (State.triggerRecall_leaf hk hl).trans ((if_neg h0).trans (if_neg h3))

/-- A recall that ends with all its data (R366, R373). -/
theorem execRecallCompletion_done {r : Recall} (hl : s.leafOf page = some (key, leaf)) (hr : s.cl.recalls.find? (fun r => r.vpn = page) = some r)
    (hdone : r.fromFill = true ∨ 16 ≤ r.got.length) :
    let frame := hbmLo + bits leaf 16 15 * 2 ^ 16
    let v := s.dropHostLines fun x => decide (hbmLo + page * 2 ^ 16 ≤ 64 * x.1) && decide (64 * x.1 < hbmLo + (page + 1) * 2 ^ 16)
    let u := (r.got.foldl (fun u g => u.putBytes (frame + 4096 * g.1) g.2) v).applyLog page frame leaf
    execRecallCompletion page s = .next ((u.putWord key (setBits (setBits (setBits leaf 60 2 0) 32 15 0) 6 10 0)).endRecall page) := by
  have hno : ¬(!r.fromFill && decide (r.got.length < 16)) = true := by
    rw [Bool.and_eq_true, Bool.not_eq_true', decide_eq_true_eq]
    rintro ⟨h1, h2⟩
    exact hdone.elim (fun h => Bool.noConfusion (h1.symm.trans h)) (not_le.mpr h2)
  unfold execRecallCompletion
  rw [hr, hl]
  exact congrArg Host.Outcome.next (if_neg hno)

end

/-- Settles O48: requests at the owner by their first check, replies (`execRemoteDataReply_live`, `requestFailed_ctx`) and recalls
(`triggerRecall_leaf`, `execRecallCompletion_done`). -/
theorem remoteEvents : Obligations.RemoteEvents := by
  unfold Obligations.RemoteEvents
  refine ⟨fun s r tag t lease l st o c => ?requests, fun s page key leaf owner hl => ?recalls⟩
  case requests =>
    intro v answer fits known recent
    refine ⟨fun hk => ?_, fun hk hp => ?_, fun key hk hp hs hb => execRemoteRequest_served hk hp hs hb, fun hs => ⟨fun hk hp hf => ?_, fun hk hp known recent => ⟨fun h1 h2 => ?_, fun hin => ⟨fun hno => ?_, fun hyes hb hkind => ?_⟩⟩⟩,
      fun hq ht => ⟨?_, ?_, fun hw hlive => ?_⟩, fun hq hc => ⟨?_, ?_, ?_, ?_⟩⟩
    · exact congrArg _ (if_pos hk)
    · exact congrArg _ ((if_neg (Bool.eq_false_iff.mp hk)).trans (if_pos hp))
    · exact execRemoteRequest_unknown hk hp hs hf
    · exact execRemoteRequest_outside hk hp hs ⟨known, recent⟩ h1 h2
    · exact (execRemoteRequest_spad hk hp hs ⟨known, recent⟩ hin).trans (congrArg _ (if_pos (congrArg Bool.not hno)))
    · have hserve : exec (.remoteRequest r) s = .next (v.serve r r.off (s.cl.served r.src r.tag).1 (s.cl.served r.src r.tag).2.1) := by
        refine (execRemoteRequest_spad hk hp hs ⟨known, recent⟩ hin).trans (congrArg _ ((if_neg ?_).trans (if_neg (Bool.eq_false_iff.mp hb))))
        rw [hyes]
        exact Bool.false_ne_true
      have hload := hserve.trans (congrArg _ (State.serve_load (s := v) hkind))
      have hbytes : v.bytes r.off r.size = s.bytes r.off r.size := State.bytes_congr s v r.size r.off fun _ _ => rfl
      rw [hbytes] at hload
      exact ⟨fun late => hload.trans (congrArg _ (if_pos late)),
        fun early => hload.trans (congrArg _ (if_neg (c := clockLimit ≤ v.readTime (granule r.off) r.clk) (not_le.mpr early)))⟩
    · show execDeferredResend tag s = _
      rw [execDeferredResend, hq]
    · show execDeferredReply tag s = _
      rw [execDeferredReply, hq]
    · intro u got line others
      refine ⟨fun hf => ⟨fun k => execRemoteDataReply_live hq hw hlive hf, fun room => ?_, fun full => ?_⟩, fun hc => ⟨?_, ?_⟩⟩
      · exact (execRemoteDataReply_live hq hw hlive hf).trans (congrArg _ (State.l1Put_room (s := got (.data tag l t lease none)) (l := line) room))
      · obtain ⟨n, hn, hput⟩ := State.l1Put_full (s := got (.data tag l t lease none)) (l := line) full
        exact ⟨n, hn, (execRemoteDataReply_live hq hw hlive hf).trans (congrArg _ hput)⟩
      · exact congrArg _ ((State.requestFailed_ctx hq ht hw hc).trans (State.toCtx_live (s := s.settle tag) hlive))
      · exact congrArg _ ((State.requestFailed_ctx hq ht hw hc).trans (State.toCtx_live (s := s.settle tag) hlive))
    · exact congrArg _ (State.requestFailed_none hq hc)
    · exact congrArg _ (State.requestFailed_none hq hc)
    · show execDeferredReply tag s = _
      rw [execDeferredReply, hq]
    · show execDeferredResend tag s = _
      rw [execDeferredResend, hq]
  case recalls =>
    refine ⟨fun hk => ⟨congrArg _ (if_pos hk), congrArg _ (if_pos hk)⟩, fun hk => ⟨fun h0 => ?_, fun h3 => ?_, fun h12 hp => ⟨fun full => ?_, fun room => ?_⟩⟩, fun rest hrest room => ?_,
      fun r hr hdone => execRecallCompletion_done hl hr hdone, fun hk => congrArg _ (if_neg (Bool.eq_false_iff.mp hk))⟩
    · exact congrArg _ ((State.triggerRecall_leaf hk hl).trans (if_pos h0))
    · have h0 : ¬bits leaf 60 2 = 0 := by omega
      exact congrArg _ ((State.triggerRecall_leaf hk hl).trans ((if_neg h0).trans (if_pos (by rw [h3]; rfl))))
    · exact congrArg _ ((State.triggerRecall_away hk hl h12 hp).trans (if_pos full))
    · exact congrArg _ ((State.triggerRecall_away hk hl h12 hp).trans (if_neg (not_le.mpr room)))
    · show execPendingRecallStart s = _
      rw [execPendingRecallStart, hrest]
      exact congrArg _ (if_neg (not_le.mpr room))

end Sys2Proof.Machine

/-!
SUPPORT. The copy engine, the matrix engine and the task walker (R106, R119 to R140, R254 to R287, R422, R424, R427).
-/
namespace Sys2Proof.Machine

/-! ### Source requests of the copy engine -/

section
variable {s : State} {op : Nat} {o : CopyOp}

/-- A source request that is being read locally goes on. -/
theorem execCopyRequestSend_reading {r : CopyReq} {got : List Byte} {t : Nat} (ho : s.copy? op = some o)
    (hl : s.localReading o = some (r, got, t)) : execCopyRequestSend op s = .next (s.localRead o r got t) := by
  simp only [execCopyRequestSend, ho, hl]

/-- The next source request of an operation that has rows left and reads nothing locally. -/
theorem execCopyRequestSend_due (ho : s.copy? op = some o) (hl : s.localReading o = none) (hr : o.row < o.rows) :
    execCopyRequestSend op s = .next (match o.kind with
      | .hget => s.copyHostRead o
      | .hsend => s.copyHostWrite o
      | _ =>
        if o.kind = .pullG && !o.listRead then s.copyList o
        else
          let a := o.rowSrc o.row + BitVec.ofNat 64 o.pos
          let at_ := o.rowAt o.row + o.pos
          let owner := if o.kind = .copy then s.me else resolve s.me a
          if a.toNat % 8 ≠ 0 then (s.updCopy op fun o => (o.fail at_ 6).skipRow).copyNext op
          else if owner = s.me then s.copyLocal o a
          else if !s.cl.members.contains owner then (s.updCopy op fun o => (o.fail at_ 5).skipRow).copyNext op
          else s.copyRemote o owner a) := by
  simp only [execCopyRequestSend, ho, hl, if_neg (Nat.not_le.mpr hr)] <;> rfl

variable (ho : s.copy? op = some o) (hl : s.localReading o = none) (hr : o.row < o.rows)
include ho hl hr

theorem execCopyRequestSend_hget (hk : o.kind = .hget) : execCopyRequestSend op s = .next (s.copyHostRead o) := by
  rw [execCopyRequestSend_due ho hl hr, hk]

theorem execCopyRequestSend_hsend (hk : o.kind = .hsend) : execCopyRequestSend op s = .next (s.copyHostWrite o) := by
  rw [execCopyRequestSend_due ho hl hr, hk]

theorem execCopyRequestSend_list (hk : o.kind = .pullG) (hn : o.listRead = false) :
    execCopyRequestSend op s = .next (s.copyList o) := by
  rw [execCopyRequestSend_due ho hl hr, hk, hn]
  exact congrArg Host.Outcome.next (if_pos rfl)

/-- A transfer inside the own cluster (R256). -/
theorem execCopyRequestSend_copy (hk : o.kind = .copy) :
    let a := o.rowSrc o.row + BitVec.ofNat 64 o.pos
    (a.toNat % 8 ≠ 0 → execCopyRequestSend op s = .next ((s.updCopy op fun x =>
      (x.fail (o.rowAt o.row + o.pos) 6).skipRow).copyNext op)) ∧
    (a.toNat % 8 = 0 → execCopyRequestSend op s = .next (s.copyLocal o a)) := by
  rw [execCopyRequestSend_due ho hl hr, hk]
  refine ⟨fun hm => congrArg Host.Outcome.next ((if_neg Bool.false_ne_true).trans (if_pos hm)), fun hm => congrArg Host.Outcome.next ?_⟩
  exact (if_neg Bool.false_ne_true).trans ((if_neg (not_not_intro hm)).trans (if_pos (if_pos rfl)))

/-- A pull whose list, if it has one, is read (R254, R255). -/
theorem execCopyRequestSend_pull (hk : o.kind = .pull ∨ o.kind = .pull2d ∨ o.kind = .pullAdd ∨ (o.kind = .pullG ∧ o.listRead = true)) :
    let a := o.rowSrc o.row + BitVec.ofNat 64 o.pos
    let failed (st : BitVec 4) : Out := .next ((s.updCopy op fun x => (x.fail (o.rowAt o.row + o.pos) st).skipRow).copyNext op)
    (a.toNat % 8 ≠ 0 → execCopyRequestSend op s = failed 6) ∧
    (a.toNat % 8 = 0 → (resolve s.me a = s.me → execCopyRequestSend op s = .next (s.copyLocal o a)) ∧
      (resolve s.me a ≠ s.me →
        (s.cl.members.contains (resolve s.me a) = false → execCopyRequestSend op s = failed 5) ∧
        (s.cl.members.contains (resolve s.me a) = true →
          execCopyRequestSend op s = .next (s.copyRemote o (resolve s.me a) a)))) := by
  intro a failed
  have due : execCopyRequestSend op s = .next (
      if a.toNat % 8 ≠ 0 then (s.updCopy op fun x => (x.fail (o.rowAt o.row + o.pos) 6).skipRow).copyNext op
      else if resolve s.me a = s.me then s.copyLocal o a
      else if !s.cl.members.contains (resolve s.me a) then (s.updCopy op fun x => (x.fail (o.rowAt o.row + o.pos) 5).skipRow).copyNext op
      else s.copyRemote o (resolve s.me a) a) := by
    rw [execCopyRequestSend_due ho hl hr]
    obtain hk | hk | hk | ⟨hk, hg⟩ := hk
    · rw [hk]; rfl
    · rw [hk]; rfl
    · rw [hk]; rfl
    · rw [hk, hg]; rfl
  rw [due]
  refine ⟨fun hm => congrArg _ (if_pos hm), fun hm => ⟨fun hme => ?_, fun hne => ⟨fun hout => ?_, fun hin => ?_⟩⟩⟩
  · exact congrArg _ ((if_neg (not_not_intro hm)).trans (if_pos hme))
  · exact congrArg _ ((if_neg (not_not_intro hm)).trans ((if_neg hne).trans (if_pos (congrArg Bool.not hout))))
  · exact congrArg _ ((if_neg (not_not_intro hm)).trans ((if_neg hne).trans (if_neg (by rw [hin]; exact Bool.false_ne_true))))

end

/-! ### Data and completions of the copy engine -/

section
variable {s u u' : State} {tag t n : Nat} {l d : List Byte} {o : CopyOp} {r : CopyReq} {b : Bool}

/-- Accepted data of which a free part is written at once (R106). -/
theorem State.copyPiece_eq (hn : s.writePiece d.length = (n, u)) (hs : u.copyStore o r.at_ (d.take n) = (b, u')) :
    let v := u'.updCopy o.id fun o => { o with time := max o.time t }
    s.copyPiece o r d t = if b then u'.copyHold o r r.at_ d t
      else if d.length ≤ n then v.copyAnswered o r else v.copyHold o r (r.at_ + n) (d.drop n) t := by
  unfold State.copyPiece
  rw [hn]
  dsimp only
  rw [hs]
  cases b <;> rfl

theorem execPullDataReply_flushed (ho : s.copyOfTag tag = some (o, r)) (hk : o.kind = .hsend) :
    execPullDataReply tag l t s = .next (s.copyAnswered o r) := by
  simp only [execPullDataReply, ho, if_pos hk]

theorem execPullDataReply_held (ho : s.copyOfTag tag = some (o, r)) (hk : o.kind ≠ .hsend) (hd : r.data = some d) :
    execPullDataReply tag l t s = .next (s.copyPiece o r d t) := by
  simp only [execPullDataReply, ho, if_neg hk, hd]

theorem execPullDataReply_fresh (ho : s.copyOfTag tag = some (o, r)) (hk : o.kind ≠ .hsend) (hd : r.data = none) (hi : o.ingest = none) :
    execPullDataReply tag l t s = .next ((s.accept o r.len).copyPiece o r (l.take r.len) t) := by
  simp only [execPullDataReply, ho, if_neg hk, hd, hi]

theorem execPullDataReply_ingest {p : Nat} (ho : s.copyOfTag tag = some (o, r)) (hk : o.kind ≠ .hsend) (hd : r.data = none)
    (hi : o.ingest = some p) : execPullDataReply tag l t s = .next (s.copyIngest o r p l t) := by
  simp only [execPullDataReply, ho, if_neg hk, hd, hi]

end

section
variable {s : State} {op page off : Nat} {o : CopyOp}

/-- An operation with nothing left to send or to wait for completes (R131). -/
theorem execCopyOpCompletion_done (ho : s.copy? op = some o) (hr : o.rows ≤ o.row) (hout : o.out = []) :
    let st : BitVec 4 := if o.clkLimit then 7 else o.status
    let u := (s.updEng fun e => { e with copies := e.copies.filter fun x => x.id ≠ op }).updCtx o.owner fun x =>
      { x with copyTime := max x.copyTime o.time, clkTrap := x.clkTrap || o.clkLimit }
    (∀ idx, o.task = some idx → execCopyOpCompletion op s = .next ((u.updEng fun e => { e with tasks := e.tasks.map fun t =>
      if t.idx = idx then { t with status := st, time := o.time } else t }).post (.taskCompletion idx))) ∧
    (o.task = none → let w := u.tlComplete o.owner o.tl o.n st 0 o.time
      execCopyOpCompletion op s = .next (if w.eng.tasks.any fun t => t.ready && t.visible then w.postOnce .taskLaunch else w)) := by
  have done : o.done = true := by
    unfold CopyOp.done
    rw [hout, decide_eq_true hr]
    rfl
  constructor
  · intro idx ht
    simp only [execCopyOpCompletion, ho, done, ht]
    rfl
  · intro ht
    simp only [execCopyOpCompletion, ho, done, ht]
    rfl

theorem execHostCompletionTimeout_host (ho : s.copy? op = some o) (hk : o.kind = .hget ∨ o.kind = .hsend) :
    execHostCompletionTimeout op s = .next (o.out.foldl (fun u r => u.requestFailed r.tag 5) s) := by
  have host : (decide (o.kind = .hget) || decide (o.kind = .hsend)) = true := by
    simpa only [Bool.or_eq_true, decide_eq_true_eq] using hk
  unfold execHostCompletionTimeout
  rw [ho]
  exact congrArg Host.Outcome.next (if_pos host)

/-- With no operation in flight the invalidation of a host page that is under way is complete (R427). -/
theorem State.atsCheck_complete (h0 : s.eng.copies = []) (hp : s.mod.ats.contains page = true) : s.atsCheck page =
    ((s.updMod fun m => { m with ats := m.ats.filter (· ≠ page) }).toHost (.invalidated page)).cancel (.atsInvalTimeout page) := by
  refine if_pos ?_
  rw [hp, h0]
  rfl

theorem execAtsInvalidation_complete (h0 : s.eng.copies = []) : execAtsInvalidation page s = .next ((((s.updMod fun m =>
    { m with ats := (m.ats ++ [page]).filter (· ≠ page), atc := m.atc.filter (· ≠ page) }).post
    (.atsInvalTimeout page)).toHost (.invalidated page)).cancel (.atsInvalTimeout page)) := by
  unfold execAtsInvalidation
  rw [h0]
  have named : (s.mod.ats ++ [page]).contains page = true :=
    List.contains_iff_mem.mpr (List.mem_append_right _ (List.mem_singleton_self page))
  exact congrArg Host.Outcome.next (State.atsCheck_complete (s := (s.updMod fun m =>
    { m with ats := m.ats ++ [page], atc := m.atc.filter (· ≠ page) }).post (.atsInvalTimeout page)) h0 named)

theorem execAtsInvalTimeout_complete (h0 : s.eng.copies = []) (hp : s.mod.ats.contains page = true) :
    execAtsInvalTimeout page s = .next (((s.updMod fun m => { m with ats := m.ats.filter (· ≠ page) }).toHost
      (.invalidated page)).cancel (.atsInvalTimeout page)) := by
  unfold execAtsInvalTimeout
  rw [h0]
  exact congrArg Host.Outcome.next (State.atsCheck_complete h0 hp)

/-! ### The HDM window -/

variable {h : HdmPage}

theorem execHdmHostRead_killed (hh : s.hdmPage? s.me off = some h) (hk : s.cl.killed = true) :
    execHdmHostRead s.me off s = .next (s.toHost (.hdmPoison off)) := by
  unfold execHdmHostRead
  rw [hh]
  exact congrArg Host.Outcome.next ((if_neg (not_not_intro rfl)).trans (if_pos hk))

theorem execHdmHostRead_unmapped (hh : s.hdmPage? s.me off = some h) (hk : s.cl.killed = false) (hl : s.leafOf h.page = none) :
    execHdmHostRead s.me off s = .next (s.toHost (.hdmPoison off)) := by
  unfold execHdmHostRead
  rw [hh]
  refine congrArg Host.Outcome.next ((if_neg (not_not_intro rfl)).trans ((if_neg (Bool.eq_false_iff.mp hk)).trans ?_))
  rw [hl]

theorem execHdmHostRead_mapped {k : Nat} {leaf : Word} (hh : s.hdmPage? s.me off = some h) (hk : s.cl.killed = false)
    (hl : s.leafOf h.page = some (k, leaf)) :
    (bits leaf 60 2 ≠ 0 → execHdmHostRead s.me off s = .next ((s.triggerRecall h.page).post (.hdmHostRead s.me off))) ∧
    (bits leaf 60 2 = 0 →
      let key := hbmLo + bits leaf 16 15 * 2 ^ 16 + (off - hbmLo) % 2 ^ 16
      let u := s.toHost (.hdmData off (s.byte key))
      execHdmHostRead s.me off s = .next (if h.host then u.updMod fun m =>
        { m with hdmLines := m.hdmLines.erase (off / 64, key / 64) ++ [(off / 64, key / 64)] } else u)) := by
  unfold execHdmHostRead
  rw [hh]
  have living {a b c : State} (e : b = c) : (if s.me ≠ s.me then s else if s.cl.killed = true then a else b) = c :=
    (if_neg (not_not_intro rfl)).trans ((if_neg (Bool.eq_false_iff.mp hk)).trans e)
  refine ⟨fun hc => congrArg Host.Outcome.next (living ?_), fun hc => congrArg Host.Outcome.next (living ?_)⟩
  · rw [hl]
    exact if_pos hc
  · rw [hl]
    exact if_neg (not_not_intro hc)

end

/-! ### The direct queue (R273, R274, R281 to R286) -/

section
variable {s : State} {e : DirectEnt} {q : List DirectEnt}

/-- The state without the head of its direct queue. -/
def State.popped (s : State) (q : List DirectEnt) : State := s.updEng fun g => { g with queue := q }
/-- The run of the head of the queue. -/
def DirectEnt.run (e : DirectEnt) : MatRun := MatRun.start e.job (.direct e.owner e.rep)

variable (hq : s.eng.queue = e :: q) (hm : s.eng.matrixTasks = false)
include hq hm

theorem execDirectEntryStart_load {tr : Bool} (hk : e.job.kind = .load tr) (hl : s.eng.load = none) (hc : s.eng.conv = none) :
    (s.eng.shs = .empty → execDirectEntryStart s = .next ((((s.popped q).updEng fun g =>
      { g with shs := .loading, load := some e.run }).post .planeLoadCompletion).engineKick)) ∧
    (s.eng.shs ≠ .empty → execDirectEntryStart s =
      .next (((s.popped q).matEnd e.run 0x15 (shsCode s.eng.shs) e.job.clk).engineKick)) := by
  constructor <;> intro hs <;>
    simp [execDirectEntryStart, hq, hm, hk, hl, hc, hs] <;> rfl

theorem execDirectEntryStart_swap (hk : e.job.kind = .swap) :
    (s.eng.shs = .empty → execDirectEntryStart s = .next (((s.popped q).matEnd e.run 0x15 0 e.job.clk).engineKick)) ∧
    (s.eng.shs = .full → s.eng.pass = none → s.eng.conv = none → execDirectEntryStart s =
      .next ((((s.popped q).updEng Engines.exchange).matEnd e.run 0 0 e.job.clk).engineKick)) := by
  constructor
  · intro hs
    simp [execDirectEntryStart, hq, hm, hk, hs] <;> rfl
  · intro hs hp hc
    simp [execDirectEntryStart, hq, hm, hk, hs, hp, hc] <;> rfl

theorem execDirectEntryStart_pass (hk : e.job.kind = .pass) (hp : s.eng.pass = none) (hc : s.eng.conv = none) :
    (bits e.job.word 63 1 = 0 ∨ s.eng.shs = .full → execDirectEntryStart s = .next (((s.popped q).startPass e.run).engineKick)) ∧
    (bits e.job.word 63 1 = 1 → s.eng.shs = .empty →
      execDirectEntryStart s = .next (((s.popped q).matEnd e.run 0x15 0 e.job.clk).engineKick)) := by
  refine ⟨fun hs => ?_, fun hw hs => ?_⟩
  · obtain hw | hs := hs
    · simp [execDirectEntryStart, hq, hm, hk, hp, hc, hw] <;> rfl
    · simp [execDirectEntryStart, hq, hm, hk, hp, hc, hs] <;> rfl
  · simp [execDirectEntryStart, hq, hm, hk, hp, hc, hw, hs] <;> rfl

variable (hl : s.eng.load = none) (hp : s.eng.pass = none) (hd : s.eng.drain = []) (hc : s.eng.conv = none)
include hl hp hd hc

theorem execDirectEntryStart_convert (hk : e.job.kind = .convert) : execDirectEntryStart s =
    .next (((s.popped q).updEng fun g => { g with conv := some e.run }).post .mcvtCompletion) := by
  simp [execDirectEntryStart, hq, hm, hk, hl, hp, hd, hc] <;> rfl

theorem execDirectEntryStart_zero (hk : e.job.kind = .zero) : execDirectEntryStart s =
    .next (((s.popped q).updEng fun g => { g with conv := some e.run }).post .mzeroCompletion) := by
  simp [execDirectEntryStart, hq, hm, hk, hl, hp, hd, hc] <;> rfl

end

/-! ### Loads and passes -/

section
variable {s u : State} {r p : MatRun} {ds : List MatRun} {row time : Nat}

/-- A load that has read its tile (R281). -/
theorem execPlaneLoadCompletion_read {tr : Bool} (hl : s.eng.load = some r) (hk : r.job.kind = .load tr)
    (hr : s.engineReads r.job.clk r.job.reads = (.ok time, u)) :
    (u.metaFault r.job.sp (keptOf (tileOf r.job.tile) tr) = none → execPlaneLoadCompletion s = .next (((u.updEng fun e =>
      { e with shadow := u.planeOf (tileOf r.job.tile) tr r.job.sp, shs := .full, load := none }).matEnd r 0 0 time).engineKick)) ∧
    (∀ x, u.metaFault r.job.sp (keptOf (tileOf r.job.tile) tr) = some x → execPlaneLoadCompletion s = .next (((u.updEng fun e =>
      { e with shs := .empty, load := none }).matEnd r 0x15 x time).engineKick)) := by
  constructor
  · intro hf
    simp only [execPlaneLoadCompletion, hl, hk, hr, hf]
  · intro x hf
    simp only [execPlaneLoadCompletion, hl, hk, hr, hf]

/-- The oldest pass that drains completes where no pass holds the array. -/
theorem execPassCompletion_drains (hp : s.eng.pass = none) (hd : s.eng.drain = p :: ds) : execPassCompletion s =
    .next (((s.draw.2.updEng fun e => { e with drain := ds }).matEnd p 0 0 p.time).engineKick) := by
  unfold execPassCompletion
  rw [hp, hd]
  rfl

variable (hp : s.eng.pass = some r) (hs : r.swapped = true)
include hp hs

theorem execPassCompletion_alone (hd : s.eng.drain = []) : execPassCompletion s = .next (s.passMove r) := by
  simp only [execPassCompletion, hp, hd, Option.filter, hs, if_true]

theorem execPassCompletion_either (hd : s.eng.drain = p :: ds) : execPassCompletion s =
    .next (if Config.freeBool s.draw.1 then s.draw.2.passMove r
      else ((s.draw.2.updEng fun e => { e with drain := ds }).matEnd p 0 0 p.time).engineKick) := by
  simp only [execPassCompletion, hp, hd, Option.filter, hs, if_true]
  cases Config.freeBool s.draw.1 <;> rfl

/-- The mismatch of the row that a pass would write next (R120). -/
theorem execResidueRestream_pass (hc : r.scales ≠ none) (hr : r.row = row) :
    (r.retries = 0 → execResidueRestream row s =
      .next (s.updEng fun e => { e with pass := some { r with failRow := row, retries := 1 } })) ∧
    (r.retries ≠ 0 → execResidueRestream row s =
      .next (((({ s with agenda := s.agenda.erase .passCompletion }).updEng fun e => { e with pass := none }).matEnd
        r 0x0E row r.time).engineKick)) := by
  have running : (!r.swapped || r.scales.isNone || decide (row ≠ r.row)) = false := by
    simp only [hs, hr, Option.isNone_eq_false_iff.mpr (Option.isSome_iff_ne_none.mpr hc), ne_eq, not_true_eq_false, decide_false]
    rfl
  constructor
  · intro h0
    simp only [execResidueRestream, hp, running, h0, MatRun.again]
    rfl
  · intro h1
    simp only [execResidueRestream, hp, running, if_neg h1]
    rfl

end

section
variable {s u : State} {r : MatRun} {time : Nat}

/-- The pass that holds the array has read its scales, if it has any (R284). -/
theorem State.passMove_scales (hn : r.scales = none)
    (hr : s.engineReads r.job.clk (if isQ (tileOf r.job.tile).tag then
      (tileOf r.job.tile).scaleSpan (tileOf r.job.tile).rows (blocksOf (tileOf r.job.tile).cols) else []) = (.ok time, u)) :
    let t := tileOf r.job.tile
    let at_ := { r with time := max r.time time }
    (∀ x, u.scaleFault t u.eng.active = some x →
      s.passMove r = ((u.updEng fun e => { e with pass := none }).matEnd at_ 0x0D x at_.time).engineKick) ∧
    (u.scaleFault t u.eng.active = none → s.passMove r = (u.updEng fun e =>
      { e with pass := some { at_ with scales := some ((List.range t.rows).map (u.rowScales t)) } }).post .passCompletion) := by
  constructor
  · intro x hx
    simp only [State.passMove, hn, hr, hx]
    rfl
  · intro hx
    simp only [State.passMove, hn, hr, hx]

/-- A row of the pass has been read (R119). -/
theorem State.passMove_row {scales : List (List Nat)} (hn : r.scales = some scales)
    (hr : s.engineReads r.job.clk ((tileOf r.job.tile).rowSpans r.row) = (.ok time, u)) :
    let t := tileOf r.job.tile
    let v := u.passRow r.job t (scales.getD r.row []) r.row
    let next := { r with time := max r.time time, row := r.row + 1 }
    (r.row + 1 < t.rows → s.passMove r = (v.updEng fun e => { e with pass := some next }).post .passCompletion) ∧
    (t.rows ≤ r.row + 1 → s.passMove r =
      ((v.updEng fun e => { e with pass := none, drain := e.drain ++ [next] }).post .passCompletion).engineKick) := by
  constructor
  · intro hx
    simp only [State.passMove, hn, hr, if_pos hx]
  · intro hx
    simp only [State.passMove, hn, hr, if_neg (Nat.not_lt.mpr hx)]

end

/-! ### Conversion and zeroing -/

section
variable {s u : State} {r : MatRun} {row time : Nat}

/-- The row that a conversion converts next has an element whose check fails (R287, log 19). -/
def State.rowBad (s : State) (r : MatRun) : Bool := (List.range (tileOf r.job.tile).cols).any fun c =>
  s.eng.accBad.contains (64 * (bits r.job.word 0 7 + r.row) + bits r.job.word 8 6 + c)
/-- The elements of that row. -/
def State.rowMade (s : State) (r : MatRun) : List (Nat × Byte) :=
  (tileOf r.job.tile).rowCells r.row (s.cvtRow r.job (tileOf r.job.tile) r.row)
/-- The writing of that row. -/
def State.rowWrite (s : State) (r : MatRun) : Option (Nat × State) :=
  s.writeCells r.job.clk r.time (s.rowMade r) (((s.rowMade r).map fun p => p.1 / 8).foldl insNat [])
/-- A conversion ends. -/
def State.convEnd (s : State) (r : MatRun) (cause : BitVec 8) (aux at_ : Nat) : State :=
  ((s.updEng fun e => { e with conv := none }).matEnd r cause aux at_).engineKick

theorem MatRun.fresh_iff : r.fresh row = true ↔ (r.retries = 0 ∨ r.failRow ≠ row) := by
  unfold MatRun.fresh
  rw [Bool.or_eq_true, decide_eq_true_eq, decide_eq_true_eq]

/-- The row was converted once more already. -/
theorem MatRun.fresh_not (h : ¬(r.retries = 0 ∨ r.failRow ≠ row)) : r.fresh row = false :=
  Bool.eq_false_iff.mpr fun fresh => h (MatRun.fresh_iff.mp fresh)

section
variable (hv : s.eng.conv = some r) (hk : r.job.kind = .convert)
include hv hk

theorem execMcvtCompletion_bad (hb : s.rowBad r = true) : execMcvtCompletion s =
    .next (s.convEnd (if r.fresh r.row then r.again r.row else r) 0x0E r.row r.time) := by
  simp only [execMcvtCompletion, hv, hk]
  exact congrArg _ (if_pos hb)

theorem execMcvtCompletion_limit (hb : s.rowBad r = false) (hw : s.rowWrite r = none) : execMcvtCompletion s =
    .next (s.convEnd r 0x1F 0 r.time) := by
  simp only [execMcvtCompletion, hv, hk]
  refine congrArg _ ((if_neg (Bool.eq_false_iff.mp hb)).trans ?_)
  unfold State.rowWrite State.rowMade at hw
  rw [hw]
  rfl

theorem execMcvtCompletion_row (hb : s.rowBad r = false) (hw : s.rowWrite r = some (time, u)) : execMcvtCompletion s =
    .next (if r.row + 1 < (tileOf r.job.tile).rows then (u.updEng fun e =>
        { e with conv := some { r with row := r.row + 1, time := time } }).post .mcvtCompletion
      else u.convEnd r 0 0 time) := by
  simp only [execMcvtCompletion, hv, hk]
  refine congrArg _ ((if_neg (Bool.eq_false_iff.mp hb)).trans ?_)
  unfold State.rowWrite State.rowMade at hw
  rw [hw]
  rfl

/-- The mismatch of the row that a conversion would convert next (R287). -/
theorem execResidueRestream_conv (hp : s.eng.pass = none) (hr : r.row = row) : execResidueRestream row s =
    .next (if r.fresh row then s.updEng fun e => { e with conv := some (r.again row) }
      else (((s.updEng fun e => { e with conv := none }).matEnd r 0x0E row r.time).cancel .mcvtCompletion).engineKick) := by
  have due : (decide (r.job.kind ≠ .convert) || decide (row ≠ r.row)) = false := by
    rw [hk, hr, decide_eq_false (not_not_intro rfl), decide_eq_false (not_not_intro rfl)]
    rfl
  simp only [execResidueRestream, hp, hv, due, Bool.false_eq_true, if_false]

end

theorem execMzeroCompletion_zero (hv : s.eng.conv = some r) (hk : r.job.kind = .zero) : execMzeroCompletion s =
    .next (((s.updEng fun e =>
      let lo := bits r.job.word 0 7
      let hi := lo + bits r.job.word 8 7
      { e with acc := e.acc.filter (fun p => !(decide (lo ≤ p.1 / 64) && decide (p.1 / 64 ≤ hi))),
               accBad := e.accBad.filter (fun x => !(decide (lo ≤ x / 64) && decide (x / 64 ≤ hi))), conv := none }).matEnd r 0 0
        r.job.clk).engineKick) := by
  simp only [execMzeroCompletion, hv, hk]

end

/-! ### The task walker -/

section
variable {s : State} {t : LiveTask} {idx : Nat}

theorem execTaskLaunch_none (h : bestTask (s.eng.tasks.filter s.launchable) = none) : execTaskLaunch s = .next s := by
  unfold execTaskLaunch
  rw [h]

theorem execTaskLaunch_best (h : bestTask (s.eng.tasks.filter s.launchable) = some t) :
    execTaskLaunch s = .next ((s.launch t).engineKick) := by
  unfold execTaskLaunch
  rw [h]

theorem execTaskCompletion_of_task (h : s.task? idx = some t) :
    execTaskCompletion idx s = .next (if t.running then s.completeTask t else s) := by
  unfold execTaskCompletion
  rw [h]

end

/-- Settles O49: one lemma per event and per case of its definition. -/
theorem engineEvents : Obligations.EngineEvents := by
  constructor
  · intro s op tag t page off l got o r cl v
    refine ⟨execCopyRequestSend_reading, ?source, ?reply, execCopyOpCompletion_done, execHostCompletionTimeout_host,
      execAtsInvalidation_complete, execAtsInvalTimeout_complete, fun _ => execHdmHostRead_killed,
      fun h hh hk => ⟨execHdmHostRead_unmapped hh hk, fun k leaf => execHdmHostRead_mapped hh hk⟩, rfl⟩
    case source =>
      intro ho hl hr
      exact ⟨execCopyRequestSend_hget ho hl hr, execCopyRequestSend_hsend ho hl hr, execCopyRequestSend_list ho hl hr,
        execCopyRequestSend_copy ho hl hr, execCopyRequestSend_pull ho hl hr⟩
    case reply =>
      intro ho
      refine ⟨execPullDataReply_flushed ho, ?_, fun hk hd p => execPullDataReply_ingest ho hk hd⟩
      rintro hk w d n u b u' (⟨hd, rfl⟩ | ⟨hd, hi, rfl, rfl⟩) hn hs
      · exact (execPullDataReply_held ho hk hd).trans (congrArg Host.Outcome.next (State.copyPiece_eq hn hs))
      · exact (execPullDataReply_fresh ho hk hd hi).trans (congrArg Host.Outcome.next (State.copyPiece_eq hn hs))
  · intro s u e q r p ds row idx time
    refine ⟨?queue, fun tr => execPlaneLoadCompletion_read, execPassCompletion_drains, ?pass, ?move, ?conv, rfl,
      execTaskLaunch_none, fun t => execTaskLaunch_best, ?task⟩
    case queue =>
      intro hq hm
      refine ⟨fun tr => execDirectEntryStart_load hq hm, execDirectEntryStart_swap hq hm, execDirectEntryStart_pass hq hm, ?_, ?_⟩
      · rintro hk ⟨hl, hp, hd, hc⟩
        exact execDirectEntryStart_convert hq hm hl hp hd hc hk
      · rintro hk ⟨hl, hp, hd, hc⟩
        exact execDirectEntryStart_zero hq hm hl hp hd hc hk
    case pass =>
      intro hp hs
      exact ⟨execPassCompletion_alone hp hs, execPassCompletion_either hp hs, execResidueRestream_pass hp hs⟩
    case move => exact ⟨State.passMove_scales, fun scales => State.passMove_row⟩
    case conv =>
      intro hv
      refine ⟨fun hk => ?_, execMzeroCompletion_zero hv⟩
      refine ⟨fun hb => ⟨fun ha => ?_, fun ha => ?_⟩, execMcvtCompletion_limit hv hk, fun hb hw => ⟨fun hr => ?_, fun hr => ?_⟩,
        fun hp hr hf => ?_, fun hp hr h1 hf => ?_⟩
      · obtain ⟨h1, hf⟩ := ha
        have stale : r.fresh r.row = false := MatRun.fresh_not fun fresh => fresh.elim h1 fun other => other hf
        refine (execMcvtCompletion_bad hv hk hb).trans ?_
        rw [stale]
        rfl
      · have fresh : r.fresh r.row = true := Bool.eq_true_of_not_eq_false fun stale =>
          ha (not_or.mp (mt MatRun.fresh_iff.mpr (Bool.eq_false_iff.mp stale)) |>.imp id not_not.mp)
        refine (execMcvtCompletion_bad hv hk hb).trans ?_
        rw [fresh]
        rfl
      · exact (execMcvtCompletion_row hv hk hb hw).trans (congrArg Host.Outcome.next (if_pos hr))
      · exact (execMcvtCompletion_row hv hk hb hw).trans (congrArg Host.Outcome.next (if_neg (Nat.not_lt.mpr hr)))
      · exact (execResidueRestream_conv hv hk hp hr).trans (congrArg Host.Outcome.next (if_pos (MatRun.fresh_iff.mpr hf)))
      · have stale : ¬(r.retries = 0 ∨ r.failRow ≠ row) := fun fresh => fresh.elim h1 fun other => other hf
        exact (execResidueRestream_conv hv hk hp hr).trans
          (congrArg Host.Outcome.next (if_neg (Bool.eq_false_iff.mp (MatRun.fresh_not stale))))
    case task =>
      intro t ht
      exact ⟨fun hr => (execTaskCompletion_of_task ht).trans (congrArg Host.Outcome.next (if_pos hr)),
        fun hr => (execTaskCompletion_of_task ht).trans (congrArg Host.Outcome.next (if_neg (Bool.eq_false_iff.mp hr)))⟩

end Sys2Proof.Machine

/-!
SUPPORT. The security core: resets, scrubs, security states, event records and sensors (R397 to R410, R429 to R438).
-/
namespace Sys2Proof.Machine

/-! ### Resets -/

section
variable {s : State}

/-- A cold reset that is under way goes on (R429). -/
theorem State.bootMove_booting (h0 : s.mod.fw.boot = 0) (hw : s.mod.fw.warm = none) :
    let u := { s with draws := s.draws + 33 }
    s.bootMove = if !Config.freeBool s.draws then u.updFw fun w => { w with boot := 2 }
      else ({ u with mem := State.reset.mem } : State).updFw fun w => { w with
        boot := 1, mrs := w.mrs.set 1 (extendMr w.mrs[1] Config.firmwareDigest),
        procMon := ((List.range 32).map fun i => Config.freeNat (s.draws + 1 + i), s.mod.cycles) } := by
  have under : s.booting = true := by
    unfold State.booting
    rw [h0, hw]
    rfl
  exact if_neg (by rw [under]; exact Bool.false_ne_true)

theorem State.bootMove_booted (h : s.mod.fw.boot ≠ 0) : s.bootMove = s := by
  have booted : s.booting = false := by
    unfold State.booting
    rw [decide_eq_false h]
    rfl
  exact if_pos (congrArg Bool.not booted)

theorem execFunctionLevelReset_eq : execFunctionLevelReset s =
    .next (if (decide (s.mod.fw.boot ≠ 1) || s.mod.fw.failed) = true then s else s.warmReset none) := rfl

end

/-! ### Scrubs -/

section
variable {s v : State} {cl : ClusterId} {q : Quar}

theorem execScrubStart_quarantined (ho : (s.owner cl).st = 2) (hq : s.mod.fw.quar.any (fun q => q.cl = cl && !q.hold) = true) :
    execScrubStart cl s = .next ((s.setOwner cl ⟨false, 3, 0⟩).post (.scrubCompletion cl)) := by
  refine congrArg Host.Outcome.next (if_pos ?_)
  rw [decide_eq_true ho]
  exact hq

/-- The state after the bytes of a scrub that ends (R409). -/
def State.scrubbed (s : State) (cl : ClusterId) (q : Quar) : State :=
  if cl = s.me then ({ s with draws := s.draws + 1 } : State).scrubOwn q.hbm else { s with draws := s.draws + 1 }
/-- A scrub that fails leaves its cluster held (log 59). -/
def State.scrubHeld (s : State) (cl : ClusterId) : State := ((s.setOwner cl ⟨false, 2, 0⟩).updFw fun w => { w with
  quar := w.quar.map fun x => if x.cl = cl then { x with hold := true, cmd := none } else x }).warmCheck
/-- A method 2 scrub does not read back zero; whether it does is free. -/
def State.scrubBad (s : State) (q : Quar) : Bool := (decide (q.spad = 2) || decide (q.hbm = 2)) && Config.freeBool s.draws

/-- Where a cluster that no command waits for fails, no other entry changes. -/
theorem quar_map_none (l : List Quar) (cl : ClusterId) :
    (l.map fun x => if x.cl = cl then { x with hold := true, cmd := none } else if x.cmd = none then { x with cmd := none } else x) =
      l.map fun x => if x.cl = cl then { x with hold := true, cmd := none } else x := by
  refine List.map_congr_left fun x _ => ?_
  have kept : (if x.cmd = none then { x with cmd := none } else x) = x := by
    split
    · next h => rw [← h]
    · rfl
  rw [kept]

/-- The end of a scrub that no command waits for (R387, R410). -/
theorem execScrubCompletion_quar (hf : s.mod.fw.quar.find? (fun q => q.cl = cl) = some q) (ho : (s.owner cl).st = 3) (hc : q.cmd = none) :
    execScrubCompletion cl s = .next (if s.scrubBad q = true then (s.scrubbed cl q).scrubHeld cl
      else match (s.scrubbed cl q).receipt q.part q.reason q.ptag (scrubRanges q) with
        | (false, v) => v.scrubHeld cl
        | (true, v) => ((v.setOwner cl Owner.free).updFw fun w => { w with quar := w.quar.filter fun x => x.cl ≠ cl }).warmCheck) := by
  unfold execScrubCompletion
  rw [hf]
  refine congrArg Host.Outcome.next ((if_neg (not_not_intro ho)).trans ?_)
  rw [hc]
  simp only [quar_map_none] <;> rfl

theorem execScrubCompletion_bad (hf : s.mod.fw.quar.find? (fun q => q.cl = cl) = some q) (ho : (s.owner cl).st = 3) (hc : q.cmd = none)
    (hb : s.scrubBad q = true) : execScrubCompletion cl s = .next ((s.scrubbed cl q).scrubHeld cl) :=
  (execScrubCompletion_quar hf ho hc).trans (congrArg _ (if_pos hb))

theorem execScrubCompletion_signed (hf : s.mod.fw.quar.find? (fun q => q.cl = cl) = some q) (ho : (s.owner cl).st = 3) (hc : q.cmd = none)
    (hb : s.scrubBad q = false) (hr : (s.scrubbed cl q).receipt q.part q.reason q.ptag (scrubRanges q) = (true, v)) :
    execScrubCompletion cl s =
      .next (((v.setOwner cl Owner.free).updFw fun w => { w with quar := w.quar.filter fun x => x.cl ≠ cl }).warmCheck) := by
  refine (execScrubCompletion_quar hf ho hc).trans (congrArg _ ((if_neg (Bool.eq_false_iff.mp hb)).trans ?_))
  rw [hr]

theorem execScrubCompletion_unsigned (hf : s.mod.fw.quar.find? (fun q => q.cl = cl) = some q) (ho : (s.owner cl).st = 3) (hc : q.cmd = none)
    (hb : s.scrubBad q = false) (hr : (s.scrubbed cl q).receipt q.part q.reason q.ptag (scrubRanges q) = (false, v)) :
    execScrubCompletion cl s = .next (v.scrubHeld cl) := by
  refine (execScrubCompletion_quar hf ho hc).trans (congrArg _ ((if_neg (Bool.eq_false_iff.mp hb)).trans ?_))
  rw [hr]

/-- After KEYDROP nothing but the key that HBM reads under stands, where no dump area lies in the HBM window (R409). -/
theorem State.scrubOwn_keydrop (h : inHbm s.cl.par.dumpOff 557056 = false) :
    (s.scrubOwn 1).mem = ⟨[], [], [], [], [], [], s.draws + 1, []⟩ := by
  unfold State.scrubOwn
  simp only [State.draw, h, Bool.and_false, Bool.false_eq_true, if_false, List.foldl_nil, State.updMem, if_true]

end

/-! ### Security states of an interface (R408) -/

section
variable {s : State} {fn : Fin 17} {reg : Nat}

theorem execTdispInterfaceRequest_lock (h : (s.fn fn).tdisp = .unlocked) :
    execTdispInterfaceRequest fn .lock s = .next (s.next (.tdispConfigLock fn)) := by
  unfold execTdispInterfaceRequest
  rw [h]

theorem execTdispInterfaceRequest_start (h : (s.fn fn).tdisp = .locked) :
    execTdispInterfaceRequest fn .start s = .next (s.updFn fn fun f => { f with tdisp := .run }) := by
  unfold execTdispInterfaceRequest
  rw [h]

theorem execMarkedRegisterWrite_marked (ha : (s.fn fn).armed = true) (hr : 0x90 ≤ reg) (ht : (s.fn fn).tdisp ≠ .error) :
    execMarkedRegisterWrite fn reg s = .next (s.tdispError fn) := by
  refine congrArg Host.Outcome.next (if_pos ?_)
  rw [ha, decide_eq_true ht, Bool.and_true]
  exact decide_eq_true hr

theorem execMarkedRegisterWrite_ignored (h : (s.fn fn).armed = false ∨ reg < 0x90 ∨ (s.fn fn).tdisp = .error) :
    execMarkedRegisterWrite fn reg s = .next s := by
  refine congrArg Host.Outcome.next (if_neg ?_)
  simp only [Bool.and_eq_true, decide_eq_true_eq, markedReg]
  rintro ⟨⟨armed, marked⟩, locked⟩
  obtain h | h | h := h
  · exact Bool.false_ne_true (h.symm.trans armed)
  · exact Nat.not_le.mpr h marked
  · exact locked h

end

/-! ### Event records (R433) -/

section
variable (s : State) (code : Nat) (details : List Nat) (fn : Fin 17)

theorem State.fn_report : (s.report code details).fn fn = (s.fn fn).noted := by
  show (s.mod.fw.fns.map Fn.noted)[fn] = Fn.noted s.mod.fw.fns[fn]
  exact Vector.getElem_map ..

/-- A function that has a range of records finds the event in it. -/
theorem State.event_mem_report (h : 32 ≤ (s.fn fn).evtLen) :
    HostOut.event ((s.fn fn).evtBase + 32 * ((s.fn fn).evtCnt % ((s.fn fn).evtLen / 32))) (eventWords code details) ∈
      (s.report code details).mod.hostOut := by
  have held : s.fn fn ∈ s.mod.fw.fns.toList := Vector.mem_toList_iff.mpr (Vector.getElem_mem fn.isLt)
  refine List.mem_append_right _ (List.mem_map.mpr ⟨s.fn fn, List.mem_filter.mpr ⟨held, decide_eq_true h⟩, rfl⟩)

end

/-! ### Rails and sensors (R436 to R438) -/

/-- No reading crosses a limit that all stay under. -/
theorem crossings_below {kind : Nat} {limit : Int} {old new : List Int} (ho : ∀ t ∈ old, t < limit) (hn : ∀ t ∈ new, t < limit) :
    crossings kind limit old new = [] := by
  refine List.filterMap_eq_nil_iff.mpr ?_
  rintro ⟨⟨a, b⟩, i⟩ hm
  obtain ⟨ha, hb⟩ := List.of_mem_zip (List.of_mem_zip hm).1
  have below : a < limit := ho a ha
  have still : b < limit := hn b hb
  simp only [below, decide_true, Bool.true_and, decide_eq_false (not_le.mpr still), Bool.false_eq_true, if_false,
    decide_eq_false (not_le.mpr below), Bool.false_and]

/-- No unit is at a limit that all readings stay under. -/
theorem unitsAt_below {n : Nat} {limit : Int} {l : List Int} (h : ∀ t ∈ l, t < limit) : unitsAt n limit l = [] := by
  have none_at : ((l.zip (List.range l.length)).filterMap fun p => if limit ≤ p.1 then some (p.2 / n) else none) = [] := by
    refine List.filterMap_eq_nil_iff.mpr ?_
    rintro ⟨a, i⟩ hm
    exact if_neg (not_le.mpr (h a (List.of_mem_zip hm).1))
  unfold unitsAt
  rw [none_at]
  rfl

/-- A reading at the limit names its unit. -/
theorem unitsAt_reached {n i : Nat} {limit : Int} {l : List Int} (hi : i < l.length) (h : limit ≤ l[i]) : unitsAt n limit l ≠ [] := by
  have named : i / n ∈ unitsAt n limit l := by
    refine List.mem_eraseDups.mpr (List.mem_filterMap.mpr ⟨(l[i], i), ?_, if_pos h⟩)
    exact List.mem_iff_getElem.mpr ⟨i, by simpa using hi, by simp⟩
  exact List.ne_nil_of_mem named

section
variable {s : State} {x : Sensors}

/-- A change of the security core is told by what it makes of the core as it is. -/
theorem State.updFw_congr {f g : Firmware → Firmware} (h : f s.mod.fw = g s.mod.fw) : s.updFw f = s.updFw g :=
  congrArg (fun w => { s with mod := { s.mod with fw := w } }) h

theorem State.failModule_failed : s.failModule.mod.fw.failed = true ∧ s.failModule.mod.cal.sync = false := ⟨rfl, rfl⟩

/-- A sample whose readings stay under every limit is noted (R436). -/
theorem execSensorSample_quiet (hf : s.mod.fw.failed = false)
    (hj : ∀ t ∈ s.mod.fw.sample.1.junction.toList ++ x.junction.toList, t < 95)
    (hh : ∀ t ∈ s.mod.fw.sample.1.hbm.toList ++ x.hbm.toList, t < 95) (ht : s.mod.fw.throttled = []) (hb : s.mod.fw.hbmHalf = [])
    (hp : x.power ≤ s.mod.fw.plim) (hw : s.mod.fw.powerHigh = false) :
    execSensorSample x s = .next (s.updFw fun w => { w with sample := (x, s.mod.cycles) }) := by
  have oj : ∀ t ∈ s.mod.fw.sample.1.junction.toList, t < 95 := fun t ht => hj t (List.mem_append_left _ ht)
  have nj : ∀ t ∈ x.junction.toList, t < 95 := fun t ht => hj t (List.mem_append_right _ ht)
  have oh : ∀ t ∈ s.mod.fw.sample.1.hbm.toList, t < 95 := fun t ht => hh t (List.mem_append_left _ ht)
  have nh : ∀ t ∈ x.hbm.toList, t < 95 := fun t ht => hh t (List.mem_append_right _ ht)
  have up {l : List Int} {n m : Int} (hl : ∀ t ∈ l, t < n) (hnm : n ≤ m) : ∀ t ∈ l, t < m := fun t ht => (hl t ht).trans_le hnm
  unfold execSensorSample
  rw [if_neg (Bool.eq_false_iff.mp hf)]
  simp only [crossings_below oj nj, crossings_below oh nh, crossings_below (up oj (m := 105) (by decide)) (up nj (by decide)),
    crossings_below (up oj (m := 115) (by decide)) (up nj (by decide)), crossings_below (up oh (m := 105) (by decide)) (up nh (by decide)),
    unitsAt_below nh, unitsAt_below (up nj (m := 105) (by decide)), unitsAt_below (up nj (m := 100) (by decide)),
    unitsAt_below (up nj (m := 115) (by decide)), unitsAt_below (up nh (m := 105) (by decide)), List.append_nil, List.foldl_nil,
    List.isEmpty_nil, Bool.and_self, if_true]
  refine congrArg Host.Outcome.next (State.updFw_congr ?_)
  simp only [ht, hb, hw, List.filter_nil, decide_eq_false (not_lt.mpr hp), Bool.false_and, Bool.or_false, List.append_nil]

/-- A reading at a trip's limit powers the module down (R437). -/
theorem execSensorSample_trip (hf : s.mod.fw.failed = false) (h : (∃ i : Fin 64, 115 ≤ x.junction[i]) ∨ (∃ i : Fin 8, 105 ≤ x.hbm[i])) :
    ∃ t, execSensorSample x s = .next t ∧ t.mod.fw.failed = true ∧ t.mod.cal.sync = false := by
  have hot : ((unitsAt 16 115 x.junction.toList).isEmpty && (unitsAt 1 105 x.hbm.toList).isEmpty) = false := by
    obtain ⟨i, hi⟩ | ⟨i, hi⟩ := h
    · rw [List.isEmpty_eq_false_iff.mpr (unitsAt_reached (i := i.val) (by simp) (by simpa using hi))]
      rfl
    · rw [List.isEmpty_eq_false_iff.mpr (unitsAt_reached (l := x.hbm.toList) (i := i.val) (by simp) (by simpa using hi))]
      exact Bool.and_false _
  refine ⟨_, congrArg Host.Outcome.next ((if_neg (Bool.eq_false_iff.mp hf)).trans (if_neg (Bool.eq_false_iff.mp hot))), State.failModule_failed⟩

end

/-- Settles O51: each event's own lemma. -/
theorem securityEvents : Obligations.SecurityEvents := by
  intro s cl fn reg size rail x
  refine ⟨rfl, ?boot, State.bootMove_booted, rfl, rfl, ?flr, ?noflr, execScrubStart_quarantined, ?scrub, rfl, State.scrubOwn_keydrop,
    fun h => congrArg Host.Outcome.next (if_pos h), fun h => congrArg Host.Outcome.next (if_neg h), execTdispInterfaceRequest_lock,
    execTdispInterfaceRequest_start, rfl, ?marked, execMarkedRegisterWrite_ignored, rfl, rfl, ?noted, ?unnoted, ?failed, ?running⟩
  case boot =>
    intro h0 hw
    constructor <;> intro hn <;> rw [State.bootMove_booting h0 hw, hn] <;> rfl
  case flr =>
    intro h1 hf
    refine execFunctionLevelReset_eq.trans (congrArg Host.Outcome.next (if_neg ?_))
    rw [decide_eq_false (not_not_intro h1), hf]
    exact Bool.false_ne_true
  case noflr =>
    intro h
    refine execFunctionLevelReset_eq.trans (congrArg Host.Outcome.next (if_pos ?_))
    simpa only [Bool.or_eq_true, decide_eq_true_eq] using h
  case scrub =>
    intro q v hf ho hc
    exact ⟨execScrubCompletion_bad hf ho hc, execScrubCompletion_signed hf ho hc, execScrubCompletion_unsigned hf ho hc⟩
  case marked =>
    rintro ⟨ha, hr, ht⟩
    exact execMarkedRegisterWrite_marked ha hr ht
  case noted =>
    intro h
    exact ⟨State.event_mem_report s 0x07 [fn.val, size] fn h, (State.fn_report ..).trans (if_pos h)⟩
  case unnoted =>
    intro h
    exact (State.fn_report ..).trans (if_neg (Nat.not_le.mpr h))
  case failed =>
    intro h
    exact ⟨congrArg Host.Outcome.next (if_pos h), congrArg Host.Outcome.next (if_pos h)⟩
  case running =>
    intro h
    exact ⟨congrArg Host.Outcome.next (if_neg (Bool.eq_false_iff.mp h)), execSensorSample_quiet h, execSensorSample_trip h⟩

end Sys2Proof.Machine

/-!
SUPPORT. Firmware commands (R376, R384, R387, R403 to R407, R413 to R438).
-/
namespace Sys2Proof.Machine

/-! ### Commands that run at once -/

/-- The module is READY, the function of the command is free and the argument block within its limit (R429, R431). -/
def State.accepts (s : State) (c : Cmd) : Prop :=
  s.mod.fw.boot = 1 ∧ s.mod.fw.failed = false ∧ (s.fn c.fn).busy = none ∧ c.argL ≤ 2 ^ 20

section
variable {s : State} {c : Cmd} (h : s.accepts c)
include h

theorem State.command_accepted (self : Instr) (k : State → State) : s.command c self k = k s := by
  obtain ⟨boot, alive, free, fits⟩ := h
  have ready : (decide (s.mod.fw.boot ≠ 1) || s.mod.fw.failed) = false := by
    rw [decide_eq_false (not_not_intro boot), alive]
    rfl
  refine (if_neg (Bool.eq_false_iff.mp ready)).trans ((if_neg ?_).trans (if_neg (Nat.not_lt.mpr fits)))
  rw [free]
  exact Bool.false_ne_true

theorem State.nextCmd_accepted : s.nextCmd c.fn = match s.mod.fw.waiting.find? fun i => (cmdOf i).any fun d => d.fn = c.fn with
    | none => s
    | some i => (s.updFw fun w => { w with waiting := w.waiting.erase i }).next i := by
  obtain ⟨boot, -, free, -⟩ := h
  refine (if_neg ?_).trans rfl
  rw [free, decide_eq_false (not_not_intro boot)]
  exact Bool.false_ne_true

end

section
variable {s : State} {c : Cmd} {k : State → State}

theorem State.pf_denied (h : c.fn ≠ 0) : s.pf c k = s.finishCmd c resDenied [] := if_neg h
theorem State.pf_first (h : c.fn = 0) : s.pf c k = k s := if_pos h

end

/-! ### Commands of the physical function -/

section
variable {s : State} {c : Cmd} (h : s.accepts c)

section
variable (hd : c.fn ≠ 0)
include h hd

/-- A command of the physical function alone is DENIED for another (R432). -/
theorem State.command_denied (self : Instr) (k : State → State) :
    (.next (s.command c self fun s => s.pf c k) : Out) = .next (s.finishCmd c resDenied []) :=
  congrArg Host.Outcome.next ((State.command_accepted h self _).trans (State.pf_denied hd))

end

variable (h0 : c.fn = 0)
include h h0

/-- It runs for the physical function. -/
theorem State.command_first {self : Instr} {k : State → State} {t : State} (hk : k s = t) :
    (.next (s.command c self fun s => s.pf c k) : Out) = .next t :=
  congrArg Host.Outcome.next ((State.command_accepted h self _).trans ((State.pf_first h0).trans hk))

theorem execFeatset_cases (f0 f1 : Word) :
    (s.mod.fw.launched = true → execFeatset c f0 f1 s = .next (s.finishCmd c 2 [])) ∧
    (s.mod.fw.launched = false → execFeatset c f0 f1 s =
      .next ((s.updMod fun m => { m with feat0 := (f0 &&& 0xFFFF) ||| 7 }).finishCmd c 0 [])) :=
  ⟨fun hl => State.command_first h h0 (if_pos hl), fun hl => State.command_first h h0 (if_neg (Bool.eq_false_iff.mp hl))⟩

theorem execPwrlim_cases (w : Nat) :
    (w < 1200 ∨ 2600 < w → execPwrlim c w s = .next (s.finishCmd c 3 [])) ∧
    (1200 ≤ w → w ≤ 2600 → execPwrlim c w s = .next ((s.updFw fun v => { v with plim := w }).finishCmd c 0 [])) := by
  refine ⟨fun hw => State.command_first h h0 (if_pos ?_), fun lo hi => State.command_first h h0 (if_neg ?_)⟩
  · simpa only [Bool.or_eq_true, decide_eq_true_eq] using hw
  · rw [decide_eq_false (Nat.not_lt.mpr lo), decide_eq_false (Nat.not_lt.mpr hi)]
    exact Bool.false_ne_true

theorem execPodcfg_cases (p : PodCfg) :
    (podRanges p = false → execPodcfg c p s = .next (s.finishCmd c 3 [])) ∧
    (podRanges p = true → podSymmetric p = false → execPodcfg c p s = .next (s.finishCmd c 2 [])) ∧
    (podRanges p = true → podSymmetric p = true → execPodcfg c p s =
      .next ((s.updMod fun m => { m with cal := { m.cal with pend := some p } }).finishCmd c 0 [])) := by
  have inside (hr : podRanges p = true) : ¬(!podRanges p) = true := by rw [hr]; exact Bool.false_ne_true
  refine ⟨fun hr => State.command_first h h0 (if_pos (congrArg Bool.not hr)),
    fun hr hs => State.command_first h h0 ((if_neg (inside hr)).trans (if_pos (congrArg Bool.not hs))),
    fun hr hs => State.command_first h h0 ((if_neg (inside hr)).trans (if_neg ?_))⟩
  rw [hs]
  exact Bool.false_ne_true

/-- The links after a LINKCFG, but for the measurement. -/
def State.relinked (s : State) (l : LinkCfg) : State :=
  l.restart.foldl (fun u r => u.restartWl r.1 r.2) (l.skid.foldl (fun u b =>
    (u.updBeam (beamKey false b.1) fun x => { x with nextSkid := b.2 }).updBeam (beamKey true b.1) fun x => { x with nextSkid := b.2 })
    (s.updLink fun k => { k with par := k.par.with l }))

omit h h0 in
/-- Skid is asked for without its feature (log 57). -/
theorem skid_allowed {l : LinkCfg} (hs : l.skid.any (fun b => b.2) = false ∨ s.mod.feat0.getLsbD 13 = true) :
    ¬(l.skid.any (fun b => b.2) && !s.mod.feat0.getLsbD 13) = true := by
  obtain hs | hs := hs
  · rw [hs]
    exact Bool.false_ne_true
  · rw [hs, Bool.not_true, Bool.and_false]
    exact Bool.false_ne_true

theorem execLinkcfg_range {l : LinkCfg} (hr : linkRanges l s.mod.link.par = false) : execLinkcfg c l s = .next (s.finishCmd c 3 []) :=
  State.command_first h h0 (if_pos (congrArg Bool.not hr))

theorem execLinkcfg_refused {l : LinkCfg} (hr : linkRanges l s.mod.link.par = true) (hs : l.skid.any (fun b => b.2) = true)
    (hf : s.mod.feat0.getLsbD 13 = false) : execLinkcfg c l s = .next (s.finishCmd c 2 []) := by
  refine State.command_first h h0 ((if_neg ?_).trans (if_pos ?_))
  · rw [hr]
    exact Bool.false_ne_true
  · rw [hs, hf]
    rfl

theorem execLinkcfg_done {l : LinkCfg} (hr : linkRanges l s.mod.link.par = true)
    (hs : l.skid.any (fun b => b.2) = false ∨ s.mod.feat0.getLsbD 13 = true) :
    (l.skid = [] → execLinkcfg c l s = .next ((s.relinked l).finishCmd c 0 [])) ∧
    (l.skid ≠ [] → execLinkcfg c l s = .next ((s.relinked l).measureConfig.finishCmd c 0 [])) := by
  have inside : ¬(!linkRanges l s.mod.link.par) = true := by rw [hr]; exact Bool.false_ne_true
  refine ⟨fun hl => State.command_first h h0 ((if_neg inside).trans ((if_neg (skid_allowed hs)).trans ?_)),
    fun hl => State.command_first h h0 ((if_neg inside).trans ((if_neg (skid_allowed hs)).trans ?_))⟩
  · exact congrArg (fun u : State => u.finishCmd c 0 []) (if_pos (List.isEmpty_iff.mpr hl))
  · exact congrArg (fun u : State => u.finishCmd c 0 []) (if_neg (mt List.isEmpty_iff.mp hl))

theorem execLaunch_busy {l : LaunchArgs} (hb : l.clusters.any s.clusterBusy = true ∨ s.ending l.part = true) :
    execLaunch c l s = .next (s.finishCmd c 1 []) := by
  refine State.command_first h h0 (if_pos ?_)
  rw [Bool.or_eq_true]
  exact hb

/-- A LAUNCH of clusters none of which is busy (R397). -/
theorem execLaunch_free {l : LaunchArgs} (hb : l.clusters.any s.clusterBusy = false) (he : s.ending l.part = false) :
    execLaunch c l s = .next (
      let own := l.clusters.contains s.me
      let t := if own then s.putImages l else s
      if !t.launchOk l then s.finishCmd c 2 []
      else (if own then (t.launchModule l).launchOwn l else t.launchModule l).finishCmd c 0 []) := by
  refine State.command_first h h0 ((if_neg ?_).trans rfl)
  rw [hb, he]
  exact Bool.false_ne_true

theorem execLaunch_cases {l : LaunchArgs} (hb : l.clusters.any s.clusterBusy = false) (he : s.ending l.part = false) :
    (l.clusters.contains s.me = false →
      (s.launchOk l = false → execLaunch c l s = .next (s.finishCmd c 2 [])) ∧
      (s.launchOk l = true → execLaunch c l s = .next ((s.launchModule l).finishCmd c 0 []))) ∧
    (l.clusters.contains s.me = true →
      ((s.putImages l).launchOk l = false → execLaunch c l s = .next (s.finishCmd c 2 [])) ∧
      ((s.putImages l).launchOk l = true →
        execLaunch c l s = .next ((((s.putImages l).launchModule l).launchOwn l).finishCmd c 0 []))) := by
  rw [execLaunch_free h h0 hb he]
  refine ⟨fun hm => ⟨fun hl => ?_, fun hl => ?_⟩, fun hm => ⟨fun hl => ?_, fun hl => ?_⟩⟩ <;> rw [hm]
  · exact congrArg _ (if_pos (congrArg Bool.not hl))
  · exact congrArg _ (if_neg (ne_of_eq_of_ne (congrArg Bool.not hl) Bool.false_ne_true))
  · exact congrArg _ (if_pos (congrArg Bool.not hl))
  · exact congrArg _ (if_neg (ne_of_eq_of_ne (congrArg Bool.not hl) Bool.false_ne_true))

/-! ### REJOIN -/

/-- The life number of the module that comes back (R398). -/
def State.lifeOf (s : State) (r : RejoinArgs) : Nat := mapGet 0 s.mod.fw.lives (128 * r.part + r.chip.val)
/-- The clusters that it brings back. -/
def Partition.back (p : Partition) (r : RejoinArgs) : List ClusterId := p.clusters.filter fun cl => cl.chip = r.chip
/-- What its receipt covers. -/
def Partition.backRanges (p : Partition) (r : RejoinArgs) : List ScrubRange := (p.back r).flatMap fun cl =>
  scrubRanges ⟨cl, p.id, p.fn, false, 0, 0, false, 0, 0xFF, p.dumpOff, none⟩
/-- A life number is counted. -/
def State.born (s : State) (r : RejoinArgs) (life : Nat) : State :=
  s.updFw fun w => { w with lives := mapSet 0 w.lives (128 * r.part + r.chip.val) (life + 1) }
/-- The groups of the partition are reformed in its own cluster (R407). -/
def State.reopened (s : State) (r : RejoinArgs) : State :=
  if s.cl.part = some r.part then r.groups.foldl (fun u g => u.reform g.1 g.2) s else s

theorem execRejoin_busy {r : RejoinArgs} (he : s.ending r.part = true) : execRejoin c r s = .next (s.finishCmd c 1 []) :=
  State.command_first h h0 (if_pos he)

/-- A module of a partition that is there and not ending comes back (R407). -/
theorem execRejoin_part {r : RejoinArgs} {p : Partition} (he : s.ending r.part = false) (hp : s.part? r.part = some p) :
    execRejoin c r s = .next (
      if (p.back r).isEmpty then s.finishCmd c 3 []
      else if decide (r.chip = s.mod.chipid) && (p.back r).any fun cl =>
          s.clusterBusy cl || ((s.owner cl).st = 1 && (s.owner cl).part ≠ r.part) then s.finishCmd c 1 []
      else if r.quote ≠ p.mset then (s.refuseRejoin p r.chip).finishCmd c 2 []
      else if 65535 ≤ s.lifeOf r then s.finishCmd c 2 []
      else
        let x := if decide (r.chip = s.mod.chipid) then s.receipt r.part 0 0xFF (p.backRanges r) else (true, s)
        if !x.1 then x.2.finishCmd c 2 []
        else
          let u := x.2.born r (s.lifeOf r)
          (State.reopened (if decide (r.chip = s.mod.chipid) then u.rejoinOwn p r.member else u.rejoinPair r.chip) r).finishCmd c 0 []) := by
  refine State.command_first h h0 ((if_neg (Bool.eq_false_iff.mp he)).trans ?_)
  rw [hp]
  rfl

section
variable {r : RejoinArgs} {p : Partition} (he : s.ending r.part = false) (hp : s.part? r.part = some p)
include he hp

theorem execRejoin_absent (hm : p.back r = []) : execRejoin c r s = .next (s.finishCmd c 3 []) :=
  (execRejoin_part h h0 he hp).trans (congrArg _ (if_pos (List.isEmpty_iff.mpr hm)))

/-- The checks that concern the module's own clusters pass, or it is another module. -/
theorem execRejoin_present (hm : p.back r ≠ []) (hb : (decide (r.chip = s.mod.chipid) && (p.back r).any fun cl =>
      s.clusterBusy cl || (decide ((s.owner cl).st = 1) && decide ((s.owner cl).part ≠ r.part))) = false) :
    (r.quote ≠ p.mset → execRejoin c r s = .next ((s.refuseRejoin p r.chip).finishCmd c 2 [])) ∧
    (r.quote = p.mset → 65535 ≤ s.lifeOf r → execRejoin c r s = .next (s.finishCmd c 2 [])) ∧
    (r.quote = p.mset → s.lifeOf r < 65535 → execRejoin c r s = .next (
      let x := if decide (r.chip = s.mod.chipid) then s.receipt r.part 0 0xFF (p.backRanges r) else (true, s)
      if !x.1 then x.2.finishCmd c 2 []
      else
        let u := x.2.born r (s.lifeOf r)
        (State.reopened (if decide (r.chip = s.mod.chipid) then u.rejoinOwn p r.member else u.rejoinPair r.chip) r).finishCmd c 0 [])) := by
  have here : ¬(p.back r).isEmpty = true := mt List.isEmpty_iff.mp hm
  refine ⟨fun hq => ?_, fun hq hl => ?_, fun hq hl => ?_⟩ <;>
    refine (execRejoin_part h h0 he hp).trans (congrArg _ ((if_neg here).trans ((if_neg (Bool.eq_false_iff.mp hb)).trans ?_)))
  · exact if_pos hq
  · exact (if_neg (not_not_intro hq)).trans (if_pos hl)
  · exact (if_neg (not_not_intro hq)).trans (if_neg (Nat.not_le.mpr hl))

/-- Another module comes back. -/
theorem execRejoin_other (hm : p.back r ≠ []) (hc : r.chip ≠ s.mod.chipid) :
    (r.quote ≠ p.mset → execRejoin c r s = .next ((s.updPart p.id fun p =>
      { p with clusters := p.clusters.filter fun cl => cl.chip ≠ r.chip }).finishCmd c 2 [])) ∧
    (r.quote = p.mset → 65535 ≤ s.lifeOf r → execRejoin c r s = .next (s.finishCmd c 2 [])) ∧
    (r.quote = p.mset → s.lifeOf r < 65535 → execRejoin c r s =
      .next ((((s.born r (s.lifeOf r)).rejoinPair r.chip).reopened r).finishCmd c 0 [])) := by
  have other : decide (r.chip = s.mod.chipid) = false := decide_eq_false hc
  obtain ⟨refused, worn, back⟩ := execRejoin_present h h0 he hp hm (by rw [other]; exact Bool.false_and _)
  refine ⟨fun hq => (refused hq).trans (congrArg (fun u : State => Host.Outcome.next (u.finishCmd c 2 [])) (if_pos hc)), worn,
    fun hq hl => (back hq hl).trans ?_⟩
  rw [other]
  rfl

/-- This module comes back, its clusters free or of the partition. -/
theorem execRejoin_own (hm : p.back r ≠ []) (hc : r.chip = s.mod.chipid)
    (hb : (p.back r).any (fun cl => s.clusterBusy cl || (decide ((s.owner cl).st = 1) && decide ((s.owner cl).part ≠ r.part))) = false) :
    (r.quote ≠ p.mset → execRejoin c r s = .next ((s.refuseRejoin p r.chip).finishCmd c 2 [])) ∧
    (r.quote = p.mset → 65535 ≤ s.lifeOf r → execRejoin c r s = .next (s.finishCmd c 2 [])) ∧
    (r.quote = p.mset → s.lifeOf r < 65535 → ∀ v,
      (s.receipt r.part 0 0xFF (p.backRanges r) = (false, v) → execRejoin c r s = .next (v.finishCmd c 2 [])) ∧
      (s.receipt r.part 0 0xFF (p.backRanges r) = (true, v) → execRejoin c r s =
        .next ((((v.born r (s.lifeOf r)).rejoinOwn p r.member).reopened r).finishCmd c 0 []))) := by
  have own : decide (r.chip = s.mod.chipid) = true := decide_eq_true hc
  obtain ⟨refused, worn, back⟩ := execRejoin_present h h0 he hp hm (by rw [own, hb]; rfl)
  refine ⟨refused, worn, fun hq hl v => ⟨fun hr => (back hq hl).trans ?_, fun hr => (back hq hl).trans ?_⟩⟩
  · rw [own, if_pos rfl, hr]
    rfl
  · rw [own, if_pos rfl, hr]
    rfl

end

/-! ### RESTORE and DEBUG -/

theorem execRestore_busy {r : RestoreArgs} (he : s.ending r.part = true) : execRestore c r s = .next (s.finishCmd c 1 []) :=
  State.command_first h h0 (if_pos he)

theorem execRestore_unknown {r : RestoreArgs} (he : s.ending r.part = false) (hp : s.part? r.part = none) :
    execRestore c r s = .next (s.finishCmd c 3 []) := by
  refine State.command_first h h0 ((if_neg (Bool.eq_false_iff.mp he)).trans ?_)
  rw [hp] <;> rfl

omit h h0 in
/-- The key of a blob of this module and this measurement set. -/
theorem Partition.keyOf_own {p : Partition} {b : KeyBlob} (hi : b.ident = Config.identityDigest) (hm : b.mset = p.mset) :
    p.keyOf b = Config.keyUnwrap b.ident b.mset b.wrapped := by
  refine if_neg ?_
  rw [decide_eq_false (not_not_intro hi), decide_eq_false (not_not_intro hm)]
  exact Bool.false_ne_true

omit h h0 in
theorem Partition.keyOf_none {p : Partition} {b : KeyBlob}
    (hb : b.ident ≠ Config.identityDigest ∨ b.mset ≠ p.mset ∨ Config.keyUnwrap b.ident b.mset b.wrapped = none) : p.keyOf b = none := by
  unfold Partition.keyOf
  split
  · rfl
  · next same =>
    simp only [Bool.or_eq_true, decide_eq_true_eq, not_or] at same
    obtain ⟨ident, mset⟩ := same
    exact (hb.resolve_left ident).resolve_left mset

theorem execRestore_refused {r : RestoreArgs} {p : Partition} (he : s.ending r.part = false) (hp : s.part? r.part = some p)
    (hk : p.keyOf r.blob = none) : execRestore c r s = .next (s.finishCmd c 2 []) := by
  refine State.command_first h h0 ((if_neg (Bool.eq_false_iff.mp he)).trans ?_)
  rw [hp]
  dsimp only
  rw [hk]
  rfl

theorem execRestore_done {r : RestoreArgs} {p : Partition} {k : Nat} (he : s.ending r.part = false) (hp : s.part? r.part = some p)
    (hk : p.keyOf r.blob = some k) : execRestore c r s = .next ((r.chunks.foldl (fun u x =>
      if x.1 = u.me && !u.cl.killed && decide (x.2.1 + x.2.2.length ≤ 2 ^ 31) then
        u.putBytes (hbmLo + x.2.1) (crypt false (u.memKey { p with pk := k } x.1) x.2.1 x.2.2) else u)
      (s.updPart r.part fun p => { p with pk := k })).finishCmd c 0 []) := by
  refine State.command_first h h0 ((if_neg (Bool.eq_false_iff.mp he)).trans ?_)
  rw [hp]
  dsimp only
  rw [hk]
  rfl

theorem execDebug_busy {part : Nat} {k : List CtxId} (he : s.ending part = true) : execDebug c part k s = .next (s.finishCmd c 1 []) :=
  State.command_first h h0 (if_pos he)

theorem execDebug_unknown {part : Nat} {k : List CtxId} (he : s.ending part = false) (hp : s.part? part = none) :
    execDebug c part k s = .next (s.finishCmd c 3 []) := by
  refine State.command_first h h0 ((if_neg (Bool.eq_false_iff.mp he)).trans ?_)
  rw [hp] <;> rfl

theorem execDebug_part {part : Nat} {k : List CtxId} {p : Partition} (he : s.ending part = false) (hp : s.part? part = some p) :
    (p.agreed = false → execDebug c part k s = .next (s.finishCmd c 2 [])) ∧
    (p.agreed = true → s.cl.part ≠ some part → execDebug c part k s = .next (s.finishCmd c 0 [])) ∧
    (p.agreed = true → s.cl.part = some part → execDebug c part k s =
      .next ((k.foldl (fun u x => u.updCtx x fun y => { y with debug := true }) s).finishCmd c 0 [])) := by
  have due : execDebug c part k s = .next (if !p.agreed then s.finishCmd c 2 []
      else if s.cl.part ≠ some part then s.finishCmd c 0 []
      else (k.foldl (fun u x => u.updCtx x fun y => { y with debug := true }) s).finishCmd c 0 []) := by
    refine State.command_first h h0 ((if_neg (Bool.eq_false_iff.mp he)).trans ?_)
    rw [hp]
    rfl
  have willing (ha : p.agreed = true) : ¬(!p.agreed) = true := by rw [ha]; exact Bool.false_ne_true
  exact ⟨fun ha => due.trans (congrArg _ (if_pos (congrArg Bool.not ha))),
    fun ha hn => due.trans (congrArg _ ((if_neg (willing ha)).trans (if_pos hn))),
    fun ha hn => due.trans (congrArg _ ((if_neg (willing ha)).trans (if_neg (not_not_intro hn))))⟩

end

end Sys2Proof.Machine

/-!
SUPPORT. Firmware commands about a partition or one of its clusters (R384, R387, R401, R403, R405, R425, R428, R432).
-/
namespace Sys2Proof.Machine

section
variable {s : State} {c : Cmd}

/-! ### Who may name a partition -/

section
variable {part : Nat} {k : Partition → State → State}

/-- While a teardown ends the partition the command is BUSY, or DENIED for a function that was not bound to it. -/
theorem State.forPart_ending (he : s.ending part = true) : s.forPart c part k =
    s.finishCmd c (if s.mod.fw.quar.any fun q => q.part = part && q.ends && s.boundQuar c.fn q then resBusy else resDenied) [] :=
  if_pos he

theorem State.forPart_denied (he : s.ending part = false) (hp : ∀ p, s.part? part = some p → s.boundRun c.fn p = false) :
    s.forPart c part k = s.finishCmd c resDenied [] := by
  refine (if_neg (Bool.eq_false_iff.mp he)).trans ?_
  cases part? : s.part? part with
  | none => rfl
  | some p => exact if_neg (Bool.eq_false_iff.mp (hp p part?))

theorem State.forPart_bound {p : Partition} (he : s.ending part = false) (hp : s.part? part = some p) (hb : s.boundRun c.fn p = true) :
    s.forPart c part k = k p s := by
  refine (if_neg (Bool.eq_false_iff.mp he)).trans ?_
  rw [hp]
  exact if_pos hb

end

variable (h : s.accepts c)
include h

/-- The commands about a partition end with a code where naming it does. -/
theorem partition_commands_end {part key : Nat} {tag : Fin 64} {host : Bool} {ranges : List (Nat × Nat)} {r : Nat}
    (hr : ∀ k, s.forPart c part k = s.finishCmd c r []) :
    execIngestkey c part tag key s = .next (s.finishCmd c r []) ∧ execQuote c part key s = .next (s.finishCmd c r []) ∧
    execRevoke c part tag s = .next (s.finishCmd c r []) ∧ execCheckpoint c ⟨part, ranges⟩ s = .next (s.finishCmd c r []) ∧
    execBias c part key host s = .next (s.finishCmd c r []) :=
  have ends {self : Instr} {k : Partition → State → State} :
      (.next (s.command c self fun u => u.forPart c part k) : Out) = .next (s.finishCmd c r []) :=
    congrArg Host.Outcome.next ((State.command_accepted h self _).trans (hr k))
  ⟨ends, ends, ends, ends, ends⟩

/-! ### Commands of a function that is bound to the partition -/

section
variable {part key : Nat} {p : Partition} (he : s.ending part = false) (hp : s.part? part = some p) (hb : s.boundRun c.fn p = true)
include he hp hb

/-- Such a command runs. -/
theorem State.command_bound {self : Instr} {k : Partition → State → State} {t : State} (hk : k p s = t) :
    (.next (s.command c self fun s => s.forPart c part k) : Out) = .next t :=
  congrArg Host.Outcome.next ((State.command_accepted h self _).trans ((State.forPart_bound he hp hb).trans hk))

section
variable {tag : Fin 64}

theorem execIngestkey_stranger (ht : p.participants.contains tag.val = false) :
    execIngestkey c part tag key s = .next (s.finishCmd c 3 []) :=
  State.command_bound h he hp hb (if_pos (congrArg Bool.not ht))

theorem execRevoke_stranger (ht : p.participants.contains tag.val = false) : execRevoke c part tag s = .next (s.finishCmd c 3 []) :=
  State.command_bound h he hp hb (if_pos (congrArg Bool.not ht))

variable (ht : p.participants.contains tag.val = true)
include ht

theorem execIngestkey_bad (hk : Config.ingestUnwrap c.fn.val key = none) :
    execIngestkey c part tag key s = .next (s.finishCmd c 3 []) := by
  refine State.command_bound h he hp hb ((if_neg (ne_of_eq_of_ne (congrArg Bool.not ht) Bool.false_ne_true)).trans ?_)
  rw [hk] <;> rfl

theorem execIngestkey_done {k : Nat} (hk : Config.ingestUnwrap c.fn.val key = some k) : execIngestkey c part tag key s =
    .next ((s.updPart part fun q => { q with ikeys := q.ikeys.filter (fun x => x.1 ≠ tag.val) ++ [(tag.val, k)] }).finishCmd c 0 []) := by
  refine State.command_bound h he hp hb ((if_neg (ne_of_eq_of_ne (congrArg Bool.not ht) Bool.false_ne_true)).trans ?_)
  rw [hk] <;> rfl

/-- A revocation noted in the partition, its command under way. -/
def State.revoking (s : State) (c : Cmd) (part : Nat) (tag : Fin 64) : State :=
  (s.updPart part fun q => { q with revoked := insNat q.revoked tag.val }).updFn c.fn fun f => { f with busy := some (.revoke c part tag) }

theorem execRevoke_elsewhere (hm : s.cl.part ≠ some part ∨ s.cl.killed = true) :
    execRevoke c part tag s = .next (s.revoking c part tag) := by
  refine State.command_bound h he hp hb ((if_neg (ne_of_eq_of_ne (congrArg Bool.not ht) Bool.false_ne_true)).trans (if_pos ?_))
  rw [Bool.or_eq_true, decide_eq_true_eq]
  exact hm

theorem execRevoke_here (hm : s.cl.part = some part) (hk : s.cl.killed = false) :
    let v := (s.revoking c part tag).updCl fun k => { k with revoked := insNat k.revoked tag.val }
    let w := ((v.ctxsOf tag.val).foldl (fun w x => ((w.cancelTasks x).stopRevoked x).dropSends x) v).freeRevoked tag.val
    execRevoke c part tag s = .next ((w.ownBufs part tag.val).foldl (fun w b =>
      ((bufPages b).filter fun v => !w.pageResident v).foldl (fun w v => w.triggerRecall v) (w.scrubBuf b)) w) := by
  refine State.command_bound h he hp hb ((if_neg (ne_of_eq_of_ne (congrArg Bool.not ht) Bool.false_ne_true)).trans (if_neg ?_))
  rw [Bool.or_eq_true, decide_eq_true_eq]
  exact not_or.mpr ⟨not_not_intro hm, Bool.eq_false_iff.mp hk⟩

end

/-- What a quote signs (R406). -/
def State.quoteText (s : State) (part key : Nat) (p : Partition) : List Byte :=
  toLe 4 1 ++ toLe 2 part ++ toLe 2 0 ++ toLe 32 key ++ s.mod.fw.mrs.toList.flatMap digestBytes
    ++ toLe 8 p.savectr ++ toLe 8 s.mod.fw.receipts

omit h he hp hb in
theorem State.sign_released (l : List Byte) (hl : s.mod.fw.leaf < 2 ^ 30) (hd : Config.freeBool s.draws = false) : s.sign l =
    (some (l ++ signature s.mod.fw.leaf l), ({ s with draws := s.draws + 1 } : State).updFw fun w => { w with leaf := s.mod.fw.leaf + 1 }) := by
  refine if_neg ?_
  show ¬((decide (leafCount ≤ s.mod.fw.leaf) || Config.freeBool s.draws) = true)
  have unused : decide (leafCount ≤ s.mod.fw.leaf) = false := decide_eq_false (Nat.not_le.mpr hl)
  rw [hd, unused]
  exact Bool.false_ne_true

omit h he hp hb in
theorem State.sign_withheld (l : List Byte) (hl : 2 ^ 30 ≤ s.mod.fw.leaf ∨ Config.freeBool s.draws = true) :
    s.sign l = (none, { s with draws := s.draws + 1 }) := by
  refine if_pos ?_
  show (decide (leafCount ≤ s.mod.fw.leaf) || Config.freeBool s.draws) = true
  rw [Bool.or_eq_true, decide_eq_true_eq]
  exact hl

theorem execQuote_done (hl : s.mod.fw.leaf < 2 ^ 30) (hd : Config.freeBool s.draws = false) : execQuote c part key s =
    .next ((({ s with draws := s.draws + 1 } : State).updFw fun w => { w with leaf := s.mod.fw.leaf + 1 }).finishCmd c 0
      (s.quoteText part key p ++ signature s.mod.fw.leaf (s.quoteText part key p))) := by
  refine State.command_bound h he hp hb ?_
  show (match s.sign (s.quoteText part key p) with
    | (none, s) => s.finishCmd c resRefused []
    | (some l, s) => s.finishCmd c resDone l) = _
  rw [State.sign_released _ hl hd] <;> rfl

theorem execQuote_refused (hl : 2 ^ 30 ≤ s.mod.fw.leaf ∨ Config.freeBool s.draws = true) :
    execQuote c part key s = .next (({ s with draws := s.draws + 1 } : State).finishCmd c 2 []) := by
  refine State.command_bound h he hp hb ?_
  show (match s.sign (s.quoteText part key p) with
    | (none, s) => s.finishCmd c resRefused []
    | (some l, s) => s.finishCmd c resDone l) = _
  rw [State.sign_withheld _ hl] <;> rfl

section
variable {ranges : List (Nat × Nat)}

theorem execCheckpoint_bad (hg : s.granted p ranges = false) : execCheckpoint c ⟨part, ranges⟩ s = .next (s.finishCmd c 3 []) :=
  State.command_bound h he hp hb (if_pos (congrArg Bool.not hg))

theorem execCheckpoint_done (hg : s.granted p ranges = true) (hc : s.eng.copies = []) :
    execCheckpoint c ⟨part, ranges⟩ s = .next ((s.checkpoint p ranges).finishCmd c 0 []) :=
  State.command_bound h he hp hb ((if_neg (ne_of_eq_of_ne (congrArg Bool.not hg) Bool.false_ne_true)).trans
    (if_pos (List.isEmpty_iff.mpr hc)))

theorem execCheckpoint_waits (hg : s.granted p ranges = true) (hc : s.eng.copies ≠ []) : execCheckpoint c ⟨part, ranges⟩ s =
    .next (s.updFn c.fn fun f => { f with busy := some (.checkpoint c ⟨part, ranges⟩) }) :=
  State.command_bound h he hp hb ((if_neg (ne_of_eq_of_ne (congrArg Bool.not hg) Bool.false_ne_true)).trans
    (if_neg (mt List.isEmpty_iff.mp hc)))

end

section
variable {host : Bool}

theorem execBias_unknown (hk : p.hdm[key]? = none) : execBias c part key host s = .next (s.finishCmd c 3 []) := by
  refine State.command_bound h he hp hb ?_
  rw [hk] <;> rfl

/-- A page of the HDM window changes its bias (R425, R426). -/
theorem execBias_page {x : HdmPage} (hk : p.hdm[key]? = some x) : execBias c part key host s =
    .next (((if !host && x.host && x.cl = s.me then s.dropHostLines fun y => decide (hbmLo + x.page * 2 ^ 16 ≤ 64 * y.1) &&
          decide (64 * y.1 < hbmLo + (x.page + 1) * 2 ^ 16) else s).updPart part fun q =>
        { q with hdm := q.hdm.set key { x with host := host } }).finishCmd c 0 []) := by
  refine State.command_bound h he hp hb ?_
  rw [hk] <;> rfl

end

end

/-! ### Commands about a cluster -/

section
variable {cl : ClusterId} {core : Fin 4}

theorem cluster_commands_denied (hb : s.boundCluster c.fn cl = false) :
    execKill c cl s = .next (s.finishCmd c 4 []) ∧ execWake c cl s = .next (s.finishCmd c 4 []) ∧
    execDumpget c cl core s = .next (s.finishCmd c 4 []) :=
  have ends {self : Instr} {k : State → State} (hk : k s = s.finishCmd c 4 []) :
      (.next (s.command c self k) : Out) = .next (s.finishCmd c 4 []) :=
    congrArg Host.Outcome.next ((State.command_accepted h self k).trans hk)
  have denied : (!s.boundCluster c.fn cl) = true := congrArg Bool.not hb
  ⟨ends (if_pos denied), ends (if_pos denied), ends (if_pos denied)⟩

variable (hb : s.boundCluster c.fn cl = true)
include hb

omit h in
theorem State.boundCluster_not : ¬(!s.boundCluster c.fn cl) = true := ne_of_eq_of_ne (congrArg Bool.not hb) Bool.false_ne_true

theorem cluster_commands_busy (hc : s.clusterBusy cl = true) :
    execKill c cl s = .next (s.finishCmd c 1 []) ∧ execWake c cl s = .next (s.finishCmd c 1 []) :=
  have ends {self : Instr} {k : State → State} :
      (.next (s.command c self fun u => u.forCluster c cl k) : Out) = .next (s.finishCmd c 1 []) :=
    congrArg Host.Outcome.next ((State.command_accepted h self _).trans ((if_neg (State.boundCluster_not hb)).trans (if_pos hc)))
  ⟨ends, ends⟩

/-- The cluster can be named. -/
theorem State.command_cluster (hc : s.clusterBusy cl = false) {self : Instr} {k : State → State} {t : State} (hk : k s = t) :
    (.next (s.command c self fun u => u.forCluster c cl k) : Out) = .next t :=
  congrArg Host.Outcome.next ((State.command_accepted h self _).trans ((if_neg (State.boundCluster_not hb)).trans
    ((if_neg (Bool.eq_false_iff.mp hc)).trans hk)))

theorem execKill_done (hc : s.clusterBusy cl = false) : execKill c cl s = .next ((s.next (.clusterKill cl)).finishCmd c 0 []) :=
  State.command_cluster h hb hc rfl

theorem execWake_done (hc : s.clusterBusy cl = false) (hm : cl ≠ s.me ∨ s.mapped = []) : execWake c cl s = .next (s.finishCmd c 0 []) := by
  refine State.command_cluster h hb hc (if_pos ?_)
  rw [Bool.or_eq_true, decide_eq_true_eq, List.isEmpty_iff]
  exact hm

theorem execWake_recalls (hc : s.clusterBusy cl = false) (hm : cl = s.me) (hp : s.mapped ≠ []) : execWake c cl s =
    .next (s.mapped.foldl (fun u w => u.send (ofCoords (bits w 32 15)) 0 (.recallPage (bits w 0 20)))
      (s.updFn c.fn fun f => { f with busy := some (.wake c cl) })) := by
  refine State.command_cluster h hb hc (if_neg ?_)
  rw [Bool.or_eq_true, decide_eq_true_eq, List.isEmpty_iff]
  exact not_or.mpr ⟨not_not_intro hm, hp⟩

/-- A dump is asked of a cluster that the function may name (R387). -/
theorem execDumpget_bound : execDumpget c cl core s = .next (
    if !s.mod.fw.quar.any fun q => q.cl = cl then s.finishCmd c 3 []
    else if (s.owner cl).st ≠ 2 then s.finishCmd c 1 []
    else if cl ≠ s.me then s.finishCmd c 0 []
    else
      let parts := (s.rawParts (s.dumpBase core) [] (pageParts (s.dumpBase core) 0x22000)).getD []
      s.finishCmd c 0 (parts.flatMap fun p => s.bytes p.2.1 p.2.2)) :=
  congrArg Host.Outcome.next ((State.command_accepted h (.dumpget c cl core) _).trans (if_neg (State.boundCluster_not hb)))

theorem execDumpget_cases :
    (s.mod.fw.quar.any (fun q => q.cl = cl) = false → execDumpget c cl core s = .next (s.finishCmd c 3 [])) ∧
    (s.mod.fw.quar.any (fun q => q.cl = cl) = true →
      ((s.owner cl).st ≠ 2 → execDumpget c cl core s = .next (s.finishCmd c 1 [])) ∧
      ((s.owner cl).st = 2 → cl ≠ s.me → execDumpget c cl core s = .next (s.finishCmd c 0 [])) ∧
      (∀ l, (s.owner cl).st = 2 → cl = s.me → s.rawParts (s.dumpBase core) [] (pageParts (s.dumpBase core) 0x22000) = some l →
        execDumpget c cl core s = .next (s.finishCmd c 0 (l.flatMap fun x => s.bytes x.2.1 x.2.2)))) := by
  rw [execDumpget_bound h hb]
  refine ⟨fun hq => congrArg _ (if_pos (congrArg Bool.not hq)), fun hq => ?_⟩
  have held : ¬(!s.mod.fw.quar.any fun q => q.cl = cl) = true := ne_of_eq_of_ne (congrArg Bool.not hq) Bool.false_ne_true
  refine ⟨fun ho => congrArg _ ((if_neg held).trans (if_pos ho)),
    fun ho hm => congrArg _ ((if_neg held).trans ((if_neg (not_not_intro ho)).trans (if_pos hm))), fun l ho hm hl => ?_⟩
  refine congrArg _ ((if_neg held).trans ((if_neg (not_not_intro ho)).trans ((if_neg (not_not_intro hm)).trans ?_)))
  rw [hl]
  rfl

end

/-! ### TEARDOWN -/

section
variable {part m n : Nat} {hold : Bool}

/-- The methods of a scrub exist (R387). -/
def scrubMethods (m n : Nat) : Bool := (decide (m = 0) || decide (m = 2)) && (decide (n = 1) || decide (n = 2))

/-- A TEARDOWN of a partition that is there. -/
theorem execTeardown_part {p : Partition} (hp : s.part? part = some p) : execTeardown c part m n hold s = .next (
    if !(c.fn = 0 || s.boundRun c.fn p) then s.finishCmd c 4 []
    else if s.ending part then s.finishCmd c 1 []
    else if !scrubMethods m n then s.finishCmd c 3 []
    else if hold || !(p.clusters.any fun cl => cl.chip = s.mod.chipid) then (s.tearDown p m n hold 0 0xFF none).finishCmd c 0 []
    else (s.updFn c.fn fun f => { f with busy := some (.teardown c part m n hold) }).tearDown p m n false 0 0xFF (some c)) := by
  refine congrArg Host.Outcome.next ((State.command_accepted h (.teardown c part m n hold) _).trans ?_)
  rw [hp] <;> rfl

/-- The clusters that a teardown of the partition has left. -/
def State.leftBy (s : State) (part : Nat) : List Quar := s.mod.fw.quar.filter fun q => q.part = part && q.ends

/-- A TEARDOWN of a partition that has gone, whose clusters may be held. -/
theorem execTeardown_gone (hp : s.part? part = none) : execTeardown c part m n hold s = .next (
    if !(c.fn = 0 || (s.leftBy part).any (s.boundQuar c.fn)) then s.finishCmd c 4 []
    else if (s.leftBy part).isEmpty then s.finishCmd c 3 []
    else if hold || !((s.leftBy part).all fun q => q.hold) then s.finishCmd c 1 []
    else if !scrubMethods m n then s.finishCmd c 3 []
    else (s.leftBy part).foldl (fun u q => u.next (.scrubStart q.cl))
      ((s.updFn c.fn fun f => { f with busy := some (.teardown c part m n hold) }).updFw fun w => { w with
        quar := w.quar.map fun q => if q.part = part && q.ends then { q with hold := false, spad := m, hbm := n, cmd := some c } else q })) := by
  refine congrArg Host.Outcome.next ((State.command_accepted h (.teardown c part m n hold) _).trans ?_)
  rw [hp] <;> rfl

omit h in
/-- The function may end the partition. -/
theorem mayEnd {b : Bool} (hb : c.fn = 0 ∨ b = true) : ¬(!(decide (c.fn = 0) || b)) = true := by
  have may : (decide (c.fn = 0) || b) = true := by
    rw [Bool.or_eq_true, decide_eq_true_eq]
    exact hb
  exact ne_of_eq_of_ne (congrArg Bool.not may) Bool.false_ne_true

omit h in
theorem mayNotEnd {b : Bool} (h0 : c.fn ≠ 0) (hb : b = false) : (!(decide (c.fn = 0) || b)) = true := by
  rw [hb, decide_eq_false h0]
  rfl

theorem execTeardown_allowed {p : Partition} (hp : s.part? part = some p) (hb : c.fn = 0 ∨ s.boundRun c.fn p = true) :
    (s.ending part = true → execTeardown c part m n hold s = .next (s.finishCmd c 1 [])) ∧
    (s.ending part = false → scrubMethods m n = false → execTeardown c part m n hold s = .next (s.finishCmd c 3 [])) ∧
    (s.ending part = false → scrubMethods m n = true →
      (hold = true ∨ p.clusters.any (fun cl => cl.chip = s.mod.chipid) = false →
        execTeardown c part m n hold s = .next ((s.tearDown p m n hold 0 0xFF none).finishCmd c 0 [])) ∧
      (hold = false → p.clusters.any (fun cl => cl.chip = s.mod.chipid) = true → execTeardown c part m n hold s =
        .next ((s.updFn c.fn fun f => { f with busy := some (.teardown c part m n hold) }).tearDown p m n false 0 0xFF (some c)))) := by
  rw [execTeardown_part h hp]
  refine ⟨fun he => ?_, fun he hg => ?_, fun he hg => ?_⟩
  · exact congrArg _ ((if_neg (mayEnd hb)).trans (if_pos he))
  · exact congrArg _ ((if_neg (mayEnd hb)).trans ((if_neg (Bool.eq_false_iff.mp he)).trans (if_pos (congrArg Bool.not hg))))
  · have runs {a b : State} (e : a = b) :
        (if (!(decide (c.fn = 0) || s.boundRun c.fn p)) = true then s.finishCmd c 4 []
          else if s.ending part = true then s.finishCmd c 1 []
          else if (!scrubMethods m n) = true then s.finishCmd c 3 [] else a) = b :=
      (if_neg (mayEnd hb)).trans ((if_neg (Bool.eq_false_iff.mp he)).trans
        ((if_neg (ne_of_eq_of_ne (congrArg Bool.not hg) Bool.false_ne_true)).trans e))
    refine ⟨fun hh => congrArg _ (runs (if_pos ?_)), fun hh ha => congrArg _ (runs (if_neg ?_))⟩
    · rw [Bool.or_eq_true, Bool.not_eq_true']
      exact hh
    · rw [hh, ha]
      exact Bool.false_ne_true

theorem execTeardown_held (hp : s.part? part = none) (hb : c.fn = 0 ∨ (s.leftBy part).any (s.boundQuar c.fn) = true) :
    (s.leftBy part = [] → execTeardown c part m n hold s = .next (s.finishCmd c 3 [])) ∧
    (s.leftBy part ≠ [] → hold = true ∨ (s.leftBy part).any (fun q => !q.hold) = true →
      execTeardown c part m n hold s = .next (s.finishCmd c 1 [])) ∧
    (s.leftBy part ≠ [] → hold = false → (s.leftBy part).any (fun q => !q.hold) = false →
      (scrubMethods m n = false → execTeardown c part m n hold s = .next (s.finishCmd c 3 [])) ∧
      (scrubMethods m n = true → execTeardown c part m n hold s = .next ((s.leftBy part).foldl (fun u q => u.next (.scrubStart q.cl))
        ((s.updFn c.fn fun f => { f with busy := some (.teardown c part m n hold) }).updFw fun w => { w with
          quar := w.quar.map fun q => if q.part = part && q.ends then { q with hold := false, spad := m, hbm := n, cmd := some c } else q })))) := by
  have running : (!((s.leftBy part).all fun q => q.hold)) = (s.leftBy part).any fun q => !q.hold := List.not_all_eq_any_not
  rw [execTeardown_gone h hp, running]
  refine ⟨fun hl => ?_, fun hl hh => ?_, fun hl hh ha => ?_⟩
  · exact congrArg _ ((if_neg (mayEnd hb)).trans (if_pos (List.isEmpty_iff.mpr hl)))
  · exact congrArg _ ((if_neg (mayEnd hb)).trans ((if_neg (mt List.isEmpty_iff.mp hl)).trans (if_pos ((Bool.or_eq_true _ _).mpr hh))))
  · have quiet : ¬(hold || (s.leftBy part).any fun q => !q.hold) = true := by
      rw [hh, ha]
      exact Bool.false_ne_true
    refine ⟨fun hg => ?_, fun hg => ?_⟩
    · exact congrArg _ ((if_neg (mayEnd hb)).trans ((if_neg (mt List.isEmpty_iff.mp hl)).trans ((if_neg quiet).trans
        (if_pos (congrArg Bool.not hg)))))
    · exact congrArg _ ((if_neg (mayEnd hb)).trans ((if_neg (mt List.isEmpty_iff.mp hl)).trans ((if_neg quiet).trans
        (if_neg (ne_of_eq_of_ne (congrArg Bool.not hg) Bool.false_ne_true)))))

end

end

/-! ### Commands that go on -/

section
variable {s : State} {f : Fin 17} {d : Cmd}

theorem State.firmwareMove_wake {x : ClusterId} (hb : (s.fn f).busy = some (.wake d x)) (hr : s.cl.killed = true ∨ s.mapped = []) :
    s.firmwareMove f = s.finishCmd d 0 [] := by
  have ready : s.cmdReady (.wake d x) = true := by
    show (s.cl.killed || s.mapped.isEmpty) = true
    rw [Bool.or_eq_true, List.isEmpty_iff]
    exact hr
  unfold State.firmwareMove
  rw [hb]
  exact if_neg (ne_of_eq_of_ne (congrArg Bool.not ready) Bool.false_ne_true)

theorem State.firmwareMove_checkpoint {x : CheckpointArgs} {p : Partition} (hb : (s.fn f).busy = some (.checkpoint d x))
    (hc : s.eng.copies = []) (hp : s.part? x.part = some p) : s.firmwareMove f = (s.checkpoint p x.ranges).finishCmd d 0 [] := by
  have ready : s.cmdReady (.checkpoint d x) = true := List.isEmpty_iff.mpr hc
  unfold State.firmwareMove
  rw [hb]
  refine (if_neg (ne_of_eq_of_ne (congrArg Bool.not ready) Bool.false_ne_true)).trans ?_
  dsimp only
  rw [hp]
  rfl

theorem State.firmwareMove_revoke {x : Nat} {t : Fin 64} (hb : (s.fn f).busy = some (.revoke d x t))
    (hr : s.cmdReady (.revoke d x t) = true) : s.firmwareMove f = s.endRevoke d x t.val := by
  unfold State.firmwareMove
  rw [hb]
  exact if_neg (ne_of_eq_of_ne (congrArg Bool.not hr) Bool.false_ne_true)

end

/-! ### The obligation -/

section
variable {s : State} {c : Cmd} {p : Partition}

theorem State.boundRun_of (hf : p.fn = c.fn) (hr : decide ((s.fn c.fn).tdisp = .run) = true) : s.boundRun c.fn p = true := by
  unfold State.boundRun
  rw [decide_eq_true hf, hr]
  rfl

theorem State.boundRun_not (h : p.fn ≠ c.fn ∨ decide ((s.fn c.fn).tdisp = .run) = false) : s.boundRun c.fn p = false := by
  unfold State.boundRun
  obtain hf | hr := h
  · rw [decide_eq_false hf]
    rfl
  · rw [hr]
    exact Bool.and_false _

end

/-- Settles O52: each command by its own lemma, once the checks that all of them share have passed (`State.command_accepted`). -/
theorem moduleCommands : Obligations.ModuleCommands := by
  constructor
  · intro s c hb hf hn ha
    have h : s.accepts c := ⟨hb, hf, hn, ha⟩
    refine ⟨State.nextCmd_accepted h, congrArg Host.Outcome.next (State.command_accepted h (.status c) _),
      congrArg Host.Outcome.next (State.command_accepted h (.commandUnknown c) _),
      fun base len => congrArg Host.Outcome.next (State.command_accepted h (.evtcfg c base len) _),
      congrArg Host.Outcome.next (State.command_accepted h (.monread c) _), ?denied, ?first⟩
    case denied =>
      intro hd f0 f1 p l w a r t n k
      exact ⟨State.command_denied h hd _ _, State.command_denied h hd _ _, State.command_denied h hd _ _,
        State.command_denied h hd _ _, State.command_denied h hd _ _, State.command_denied h hd _ _,
        State.command_denied h hd _ _, State.command_denied h hd _ _, State.command_denied h hd _ _, State.command_denied h hd _ _⟩
    case first =>
      intro h0
      refine ⟨State.command_first h h0 rfl, execFeatset_cases h h0, execPwrlim_cases h h0, execPodcfg_cases h h0,
        fun l => ⟨execLinkcfg_range h h0, execLinkcfg_refused h h0, execLinkcfg_done h h0⟩,
        fun l => ⟨execLaunch_busy h h0, execLaunch_cases h h0⟩, State.command_first h h0 rfl,
        fun r => ⟨execRejoin_busy h h0, fun p he hp => ⟨execRejoin_absent h h0 he hp, execRejoin_other h h0 he hp, execRejoin_own h h0 he hp⟩⟩,
        fun r => ⟨execRestore_busy h h0, execRestore_unknown h h0, fun p he hp =>
          ⟨fun hk => execRestore_refused h h0 he hp (Partition.keyOf_none hk),
            fun k hi hm hk => execRestore_done h h0 he hp ((Partition.keyOf_own hi hm).trans hk)⟩⟩,
        fun part k => ⟨execDebug_busy h h0, execDebug_unknown h h0, fun p => execDebug_part h h0⟩⟩
  · intro s c part cl tag key host core m n hold ranges hb hf hn ha
    have h : s.accepts c := ⟨hb, hf, hn, ha⟩
    refine ⟨?ending, ?busy, ?unknown, ?bound, ?cluster, ?teardown, ?moves⟩
    case ending =>
      intro he hw
      exact partition_commands_end h fun k => (State.forPart_ending he).trans
        (congrArg (fun r => s.finishCmd c r []) (if_neg (Bool.eq_false_iff.mp hw)))
    case busy =>
      intro he hw
      exact partition_commands_end h fun k => (State.forPart_ending he).trans (congrArg (fun r => s.finishCmd c r []) (if_pos hw))
    case unknown =>
      intro he hp
      refine partition_commands_end h fun k => State.forPart_denied he fun p hq => ?_
      rw [hp] at hq
      cases hq
    case bound =>
      intro p he hp
      refine ⟨fun hr => partition_commands_end h fun k => State.forPart_denied he fun q hq => ?_, fun hf hr => ?_⟩
      · obtain rfl : p = q := Option.some.inj (hp.symm.trans hq)
        exact State.boundRun_not hr
      · have hb : s.boundRun c.fn p = true := State.boundRun_of hf hr
        refine ⟨fun ht => ⟨execIngestkey_bad h he hp hb ht, fun k => execIngestkey_done h he hp hb ht⟩,
          fun ht => ⟨execIngestkey_stranger h he hp hb ht, execRevoke_stranger h he hp hb ht⟩,
          fun ht => ⟨execRevoke_elsewhere h he hp hb ht, execRevoke_here h he hp hb ht⟩,
          ⟨execQuote_done h he hp hb, execQuote_refused h he hp hb⟩, execCheckpoint_bad h he hp hb, execCheckpoint_done h he hp hb,
          execCheckpoint_waits h he hp hb, execBias_unknown h he hp hb, fun x hx => ⟨fun hh => ?_, fun h1 h2 h3 => ?_⟩⟩
        · refine (execBias_page h he hp hb hx).trans ?_
          rw [if_neg (by
            simp only [Bool.and_eq_true, Bool.not_eq_true', decide_eq_true_eq]
            rintro ⟨⟨device, held⟩, own⟩
            obtain hh | hh | hh := hh
            · exact Bool.false_ne_true (device.symm.trans hh)
            · exact Bool.false_ne_true (hh.symm.trans held)
            · exact hh own)]
        · refine (execBias_page h he hp hb hx).trans ?_
          rw [if_pos (by rw [h1, h2, decide_eq_true h3]; rfl)]
    case cluster =>
      refine ⟨cluster_commands_denied h, fun hb => cluster_commands_busy h hb,
        fun hb hc => ⟨execKill_done h hb hc, execWake_done h hb hc, execWake_recalls h hb hc⟩, fun hb => execDumpget_cases h hb⟩
    case teardown =>
      refine ⟨fun p hp => ⟨fun h0 hr => ?_, fun hb => execTeardown_allowed h hp (hb.imp_right fun hr => State.boundRun_of hr.1 hr.2)⟩,
        fun hp => ⟨fun h0 hw => ?_, execTeardown_held h hp⟩⟩
      · exact (execTeardown_part h hp).trans (congrArg _ (if_pos (mayNotEnd h0 (State.boundRun_not hr))))
      · exact (execTeardown_gone h hp).trans (congrArg _ (if_pos (mayNotEnd h0 hw)))
    case moves =>
      intro f
      exact ⟨fun d x => State.firmwareMove_wake, fun d x p => State.firmwareMove_checkpoint, fun d x t => State.firmwareMove_revoke⟩

end Sys2Proof.Machine

/-!
SUPPORT. The optical fabric: slots and lock, delivery, retention, tag groups, wavelengths and lost modules (R132 to R153, R300,
R399, R411 to R420).
-/
namespace Sys2Proof.Machine

/-! ### Slots and lock (R141, R143) -/

section
variable {s : State}

theorem execSlotBoundary_guard (hs : s.mod.cal.sync = true) (hg : s.mod.cal.guard = true) :
    execSlotBoundary s = .next (s.postOnce .slotBoundary) := by
  simp only [execSlotBoundary, hs, hg, Bool.not_true, Bool.false_eq_true, if_false, if_true]

/-- A boundary inside a cycle. -/
theorem execSlotBoundary_slot (hs : s.mod.cal.sync = true) (hg : s.mod.cal.guard = false) (hn : s.mod.cal.slot + 1 < s.mod.cal.nslot)
    (hp : s.mod.cal.pend = none) : execSlotBoundary s =
      .next ((((s.updCal fun c => { c with slot := c.slot + 1 }).beginSlot).postOnce .guardEnd).postOnce .slotBoundary) := by
  have inside : decide (s.mod.cal.nslot ≤ s.mod.cal.slot + 1) = false := decide_eq_false (Nat.not_le.mpr hn)
  unfold execSlotBoundary
  simp only [hs, hg, inside, Bool.not_true, Bool.false_eq_true, if_false]
  simp only [State.updCal, State.updMod, hp]

/-- A boundary that ends a cycle. -/
theorem execSlotBoundary_cycle (hs : s.mod.cal.sync = true) (hg : s.mod.cal.guard = false) (hn : s.mod.cal.nslot ≤ s.mod.cal.slot + 1)
    (hp : s.mod.cal.pend = none) : execSlotBoundary s =
      .next ((((s.updCal fun c => { c with slot := 0, cycle := (c.cycle + 1) % 2 ^ 41 }).postRounds.beginSlot).postOnce
        .guardEnd).postOnce .slotBoundary) := by
  unfold execSlotBoundary
  simp only [hs, hg, decide_eq_true hn, Bool.not_true, Bool.false_eq_true, if_false, if_true]
  simp only [State.updCal, State.updMod, hp]

theorem execGuardEnd_guard (hs : s.mod.cal.sync = true) (hg : s.mod.cal.guard = true) :
    let u := s.updCal fun c => { c with guard := false, left := min c.left (c.slotlen - c.guardlen) }
    let v := (u.flushSignals.flood.grantCredits.takeCredits.sendControl true false).forward false
    execGuardEnd s = .next ((v.mod.pairs.foldl (fun v p => v.pump p.1 false (p.2.queue.length + 1)) v).sendControl false false) :=
  congrArg Host.Outcome.next (if_neg (by rw [hs, hg]; exact Bool.false_ne_true))

theorem execGuardEnd_open (hg : s.mod.cal.guard = false) : execGuardEnd s = .next s :=
  congrArg Host.Outcome.next (if_pos (by rw [hg, Bool.not_false, Bool.or_true]))

theorem execRotorLockRegain_idle (h : s.mod.cal.sync = true ∨ s.mod.fw.failed = true) : execRotorLockRegain s = .next s :=
  congrArg Host.Outcome.next (if_pos ((Bool.or_eq_true _ _).mpr h))

theorem execRotorLockRegain_lock (hf : s.mod.fw.failed = false) (hs : s.mod.cal.sync = false) (hp : s.mod.cal.pend = none) :
    let c := s.mod.cal
    let u := { s with draws := s.draws + 2 }.updCal fun _ =>
      { c with sync := true, slot := Config.freeNat s.draws % max 1 c.nslot, cycle := Config.freeNat (s.draws + 1) % 2 ^ 41 }
    execRotorLockRegain s = .next ((u.postRounds.beginSlot.postOnce .guardEnd).postOnce .slotBoundary) := by
  unfold execRotorLockRegain
  simp only [hs, hf, Bool.or_self, Bool.false_eq_true, if_false]
  simp only [State.updCal, State.updMod, hp, State.drawN]

end

/-! ### Delivery in pair sequence, relays (R149, R151, R399, R415) -/

section
variable {s : State} {m : PodMsg}

/-- The sequence number of a message has been received, is held or has been passed (R151, R414). -/
def State.seqKnown (s : State) (d seq : Nat) : Bool :=
  decide (seq < (s.pair d).recvNext) || (s.pair d).held.any (fun x => x.seq = seq) || (s.pair d).skipped.contains seq

theorem execPairSequenceDelivery_cleared (hc : (s.pair m.msg.src.chip.val).cleared = true) :
    execPairSequenceDelivery m s = .next s := congrArg Host.Outcome.next (if_pos hc)

section
variable (hc : (s.pair m.msg.src.chip.val).cleared = false)
include hc

theorem execPairSequenceDelivery_own (hd : m.msg.src.chip.val = s.mod.chipid.val) (ha : s.authentic m = true) :
    execPairSequenceDelivery m s = .next (s.accepted m) :=
  congrArg Host.Outcome.next ((if_neg (Bool.eq_false_iff.mp hc)).trans (if_pos (by rw [decide_eq_true hd, ha]; rfl)))

theorem execPairSequenceDelivery_forged (ha : s.authentic m = false) : execPairSequenceDelivery m s =
    .next (s.updPair m.msg.src.chip.val fun p => { p with gcmfail := min (2 ^ 64 - 1) (p.gcmfail + 1) }) := by
  refine congrArg Host.Outcome.next ((if_neg (Bool.eq_false_iff.mp hc)).trans ((if_neg ?_).trans (if_pos (congrArg Bool.not ha))))
  rw [ha, Bool.and_false]
  exact Bool.false_ne_true

/-- A message of another module that passes. -/
theorem execPairSequenceDelivery_other (hd : m.msg.src.chip.val ≠ s.mod.chipid.val) (ha : s.authentic m = true) :
    let d := m.msg.src.chip.val
    let u := (s.updPair d fun p => { p with held := p.held ++ [m] }).flushAll d
    (s.seqKnown d m.seq = true → execPairSequenceDelivery m s = .next ((s.resendReply d m).control (.ack d d m.seq))) ∧
    (s.seqKnown d m.seq = false → execPairSequenceDelivery m s =
      .next (if s.releasable m then u.control (.ack d d m.seq) else u)) := by
  have passes {a b c : State} (e : b = c) : (if (s.pair m.msg.src.chip.val).cleared = true then s
      else if (decide (m.msg.src.chip.val = s.mod.chipid.val) && s.authentic m) = true then s.accepted m
      else if (!s.authentic m) = true then a else b) = c := by
    rw [if_neg (Bool.eq_false_iff.mp hc), decide_eq_false hd, ha]
    exact e
  exact ⟨fun hk => congrArg Host.Outcome.next (passes (if_pos hk)),
    fun hk => congrArg Host.Outcome.next (passes (if_neg (Bool.eq_false_iff.mp hk)))⟩

end

theorem execRelayReceive_gone (h : (s.pair m.msg.dst.chip.val).drained = true ∨ (s.pair m.msg.src.chip.val).drained = true) :
    execRelayReceive m s = .next s := congrArg Host.Outcome.next (if_pos ((Bool.or_eq_true _ _).mpr h))

theorem execRelayReceive_relay (hd : (s.pair m.msg.dst.chip.val).drained = false) (hs : (s.pair m.msg.src.chip.val).drained = false) :
    let u := s.updLink fun l => { l with relay := l.relay ++ [m] }
    execRelayReceive m s = .next (if s.mod.cal.sync && !s.mod.cal.guard then u.forward true else u) :=
  congrArg Host.Outcome.next (if_neg (by rw [hd, hs]; exact Bool.false_ne_true))

end

/-! ### Retention and resend (R414) -/

section
variable {s : State} {chip : Fin 128} {seq : Nat}

/-- A retained message's timer expires. -/
theorem execE2eTimerExpiry_retained {x : Sent} (hl : (s.pair chip.val).lost = none)
    (hx : ((s.pair chip.val).retained ++ (s.pair chip.val).queue).find? (fun x => x.seq = seq) = some x) :
    let sent := (s.pair chip.val).retained.any fun y => y.seq = seq
    let u := s.updPair chip.val fun p => { p with retained := p.retained.filter fun y => y.seq ≠ seq }
    (s.mod.link.par.e2eN ≤ x.expired + 1 → execE2eTimerExpiry chip seq s = .next (((u.updPair chip.val fun p =>
      { p with queue := p.queue.filter fun y => y.seq ≠ seq }).abandoned x.msg sent).control
        (.abandon chip.val chip.val seq (bodyAnswers x.msg.body)))) ∧
    (x.expired + 1 < s.mod.link.par.e2eN → execE2eTimerExpiry chip seq s = .next ((u.updPair chip.val fun p =>
      { p with queue := (p.queue.filter fun y => decide (y.seq < seq)) ++ { x with expired := x.expired + 1 } ::
                 (p.queue.filter fun y => decide (seq < y.seq)),
               resend := if sent then min (2 ^ 64 - 1) (p.resend + 1) else p.resend }).startTimer chip.val seq)) := by
  have there : ¬(s.pair chip.val).lost.isSome = true := by rw [hl]; exact Bool.false_ne_true
  constructor
  · intro hn
    refine congrArg Host.Outcome.next ((if_neg there).trans ?_)
    rw [hx]
    exact if_pos hn
  · intro hn
    refine congrArg Host.Outcome.next ((if_neg there).trans ?_)
    rw [hx]
    exact if_neg (Nat.not_le.mpr hn)

/-- The state after a sequence number has been passed (R414). -/
def State.passed (s : State) (chip : Fin 128) (seq : Nat) : State :=
  if decide (seq < (s.pair chip.val).recvNext) || (s.pair chip.val).held.any (fun x => x.seq = seq) then s
  else (s.updPair chip.val fun p => { p with skipped := insNat p.skipped seq }).flushAll chip.val

theorem State.abandonStatus_sent (u : State) : u.abandonStatus true =
    (if u.mod.cal.sync && Config.freeBool u.draws then 3 else 7, if u.mod.cal.sync then { u with draws := u.draws + 1 } else u) := by
  unfold State.abandonStatus
  cases u.mod.cal.sync <;> rfl

theorem execAbandonNotice_answer (tag : Nat) :
    let u := s.passed chip seq
    let st : BitVec 4 := if u.mod.cal.sync && Config.freeBool u.draws then 3 else 7
    let v := if u.mod.cal.sync then { u with draws := u.draws + 1 } else u
    execAbandonNotice chip seq (some tag) s =
      .next (v.post (if v.cl.watchOut.any fun w => w.1 = tag then .watchStatusReceipt tag st else .remoteStatusReply tag st)) := by
  intro u st v
  refine congrArg Host.Outcome.next ?_
  show (match u.abandonStatus true with
    | (st, s) => if s.cl.watchOut.any fun w => w.1 = tag then s.post (.watchStatusReceipt tag st)
      else s.post (.remoteStatusReply tag st)) = _
  rw [State.abandonStatus_sent]
  exact (apply_ite v.post _ _ _).symm

end

/-! ### Tag groups (R411 to R413) -/

section
variable {s : State} {g : GroupRcpt}

/-- The uncorrectable codewords of a group, counted (R418). -/
def State.counted (s : State) (g : GroupRcpt) : State :=
  g.uncorr.foldl (fun u w => u.count ctrUncorr (8 * s.beamAt false g.beam + w.val) 1) s

/-- Counting changes counters alone. -/
theorem State.counted_kept (k : Nat) (l : List (Fin 8)) (u : State) :
    (l.foldl (fun u w => u.count ctrUncorr (8 * k + w.val) 1) u).mod.fw = u.mod.fw ∧
      (l.foldl (fun u w => u.count ctrUncorr (8 * k + w.val) 1) u).mod.link.beams = u.mod.link.beams := by
  induction l generalizing u with
  | nil => exact ⟨rfl, rfl⟩
  | cons w l ih =>
    obtain ⟨fw, beams⟩ := ih (u.count ctrUncorr (8 * k + w.val) 1)
    exact ⟨fw, beams⟩

theorem execTagGroupReceipt_eq : execTagGroupReceipt g s = .next (
    let k := s.beamAt false g.beam
    let u := s.counted g
    if s.mod.fw.failed then u
    else if g.good && g.uncorr.isEmpty then
      if (s.beam k).await.isSome && (s.beam k).await ≠ some g.num then u
      else g.msgs.foldl (fun s m => s.arrive' m)
        (((u.updBeam k fun b => { b with await := none }).settleTag g.tag true).ackGroup g.beam g.num true)
    else
      let v := u.count ctrTagfail k 1
      if !(s.beam (beamKey false g.beam)).skid then
        (v.updBeam k fun b => { b with await := if b.await.isSome then b.await else some g.num }).ackGroup g.beam g.num false
      else
        g.msgs.foldl (fun s m =>
          if m.msg.dst.chip ≠ s.mod.chipid then s
          else match s.failedBody m.msg.body with
            | none => s
            | some x => s.arrive' { m with msg := { m.msg with body := x }, skid := none }) (v.settleTag g.tag false)) := by
  obtain ⟨fw, beams⟩ := State.counted_kept (s.beamAt false g.beam) g.uncorr s
  have failed : (s.counted g).mod.fw.failed = s.mod.fw.failed := congrArg Firmware.failed fw
  have skid : (((s.counted g).count ctrTagfail (s.beamAt false g.beam) 1).beam (beamKey false g.beam)) = s.beam (beamKey false g.beam) :=
    congrArg (fun l => mapGet Beam.reset l (beamKey false g.beam)) beams
  refine congrArg Host.Outcome.next ?_
  dsimp only
  rw [← failed, ← skid]
  rfl

end

section
variable {s : State} {b : BeamId} {grp : Nat}

/-- The groups of a beam that are sent again (R412). -/
def State.again (s : State) (b : BeamId) (grp : Nat) : List (Nat × List LinkOut) :=
  (s.beam (beamKey true b)).kept.dropWhile fun g => g.1 ≠ grp

/-- Nothing is sent again: there is nothing, or nothing may leave. -/
theorem execTagGroupAck_still (h : s.again b grp = [] ∨ s.mod.cal.sync = false ∨ s.mod.cal.guard = true ∨
    ((s.peerAt b.port.val).any fun d => s.isLost d.val) = true) : execTagGroupAck b grp false s = .next s := by
  refine congrArg Host.Outcome.next ((if_neg Bool.false_ne_true).trans (if_pos ?_))
  simp only [Bool.or_eq_true, Bool.not_eq_true', List.isEmpty_iff]
  exact or_assoc.mpr (or_assoc.mpr h)

theorem execTagGroupAck_resend (ha : s.again b grp ≠ []) (hs : s.mod.cal.sync = true) (hg : s.mod.cal.guard = false)
    (hl : ((s.peerAt b.port.val).any fun d => s.isLost d.val) = false) : execTagGroupAck b grp false s = .next (
      let u := (s.updLink fun l => { l with sent := l.sent ++ (s.again b grp).flatMap (·.2) }).count ctrReplay (beamKey true b) (s.again b grp).length
      match s.peerAt b.port.val with
      | none => u
      | some d => u.takeRoom d.val (5 * (s.again b grp).length)) := by
  refine congrArg Host.Outcome.next ((if_neg Bool.false_ne_true).trans ((if_neg ?_).trans rfl))
  have some : (s.again b grp).isEmpty = false := List.isEmpty_eq_false_iff.mpr ha
  show ¬((s.again b grp).isEmpty || !s.mod.cal.sync || s.mod.cal.guard || (s.peerAt b.port.val).any fun d => s.isLost d.val) = true
  rw [some, hs, hg, hl]
  exact Bool.false_ne_true

theorem execIdleGroupClose_still (h : s.mod.cal.sync = false ∨ s.mod.cal.guard = true) : execIdleGroupClose b s = .next s := by
  refine congrArg Host.Outcome.next (if_neg ?_)
  obtain h | h := h
  · rw [h]
    exact Bool.false_ne_true
  · rw [h, Bool.not_true, Bool.and_false]
    exact Bool.false_ne_true

/-- A change of a beam is told by what it makes of the beam as it is. -/
theorem State.updBeam_congr {k : Nat} {f g : Beam → Beam} (h : f (s.beam k) = g (s.beam k)) : s.updBeam k f = s.updBeam k g :=
  congrArg (fun x => { s with mod := { s.mod with link := { s.mod.link with beams := mapSet Beam.reset s.mod.link.beams k x } } }) h

theorem execIdleGroupClose_closes (hs : s.mod.cal.sync = true) (hg : s.mod.cal.guard = false) :
    execIdleGroupClose b s = .next (s.updBeam (beamKey true b) Beam.close) :=
  congrArg Host.Outcome.next (if_pos (by rw [hs, hg]; rfl))

end

/-! ### Wavelengths (R416, R417) -/

section
variable {s : State} {b : BeamId} {wl : Fin 8} {errors : Nat}

/-- What the peer's receiver has decided of a transmit beam (R142, log 75). -/
theorem execBerWindowEnd_peer :
    let k := beamKey true b
    let u := { s with draws := s.draws + 1 }
    let out := (s.beam k).out.any fun o => o.wl = wl
    (Config.freeBool s.draws = false → execBerWindowEnd b true wl errors s = .next u) ∧
    (Config.freeBool s.draws = true →
      (out = true → execBerWindowEnd b true wl errors s = .next (u.updBeam k fun b =>
        { b with oos := false, out := b.out.filter fun o => o.wl ≠ wl })) ∧
      (out = false → (s.beam k).oos = true → execBerWindowEnd b true wl errors s = .next u) ∧
      (out = false → (s.beam k).oos = false → execBerWindowEnd b true wl errors s = .next (u.updBeam k fun b =>
        { b with oos := !b.out.isEmpty, out := b.out ++ [⟨wl, 0, 0, 0⟩], await := if b.out.isEmpty then b.await else none }))) := by
  intro k u out
  have decided : execBerWindowEnd b true wl errors s = .next (if !Config.freeBool s.draws then u
      else if out then u.updBeam k fun x => x.takeWl wl else if (s.beam k).oos then u else u.updBeam k fun x => x.dropWl wl 0) := rfl
  have moved (hd : Config.freeBool s.draws = true) : ¬(!Config.freeBool s.draws) = true :=
    ne_of_eq_of_ne (congrArg Bool.not hd) Bool.false_ne_true
  rw [decided]
  refine ⟨fun hd => congrArg _ (if_pos (congrArg Bool.not hd)), fun hd => ⟨fun ho => ?_, fun ho hb => ?_, fun ho hb => ?_⟩⟩
  · exact congrArg _ ((if_neg (moved hd)).trans (if_pos ho))
  · exact congrArg _ ((if_neg (moved hd)).trans ((if_neg (Bool.eq_false_iff.mp ho)).trans (if_pos hb)))
  · exact congrArg _ ((if_neg (moved hd)).trans ((if_neg (Bool.eq_false_iff.mp ho)).trans (if_neg (Bool.eq_false_iff.mp hb))))

/-- The errors of a window, counted (R418). -/
def State.windowed (s : State) (b : BeamId) (wl : Fin 8) (errors : Nat) : State :=
  s.count ctrPrefec (8 * s.beamAt false b + wl.val) errors

/-- A window of a wavelength that is in service. -/
theorem execBerWindowEnd_in (ho : ((s.beam (s.beamAt false b)).out.find? fun o => o.wl = wl) = none) :
    execBerWindowEnd b false wl errors s = .next (
      if (s.beam (s.beamAt false b)).oos || decide (errors ≤ s.mod.link.par.degr) then s.windowed b wl errors
      else ((((s.windowed b wl errors).count ctrDrops (8 * s.beamAt false b + wl.val) 1).updBeam (s.beamAt false b) fun x =>
        x.dropWl wl (trainWindows s.mod.link.par.berwin)).signalWl b wl false)) := by
  refine congrArg Host.Outcome.next ((if_neg Bool.false_ne_true).trans ?_)
  show (match (s.beam (s.beamAt false b)).out.find? fun o => o.wl = wl with
    | none => _
    | some o => _) = _
  rw [ho]
  rfl

/-- A window of a wavelength that is out. -/
theorem execBerWindowEnd_out {o : WlOut} (ho : ((s.beam (s.beamAt false b)).out.find? fun o => o.wl = wl) = some o) :
    let par := s.mod.link.par
    let u := s.windowed b wl errors
    let put (f : WlOut → WlOut) : State := u.updBeam (s.beamAt false b) fun b => { b with out := b.out.map fun o => if o.wl = wl then f o else o }
    let clean := if errors ≤ par.restore then o.clean + 1 else 0
    execBerWindowEnd b false wl errors s = .next (
      if 0 < o.train then put fun o => { o with train := o.train - 1 }
      else if 64 * par.rtMax ≤ o.windows then u
      else if par.rwin ≤ clean then (u.updBeam (s.beamAt false b) fun x => x.takeWl wl).signalWl b wl true
      else put fun o => { o with windows := o.windows + 1, clean := clean }) := by
  refine congrArg Host.Outcome.next ((if_neg Bool.false_ne_true).trans ?_)
  show (match (s.beam (s.beamAt false b)).out.find? fun o => o.wl = wl with
    | none => _
    | some o => _) = _
  rw [ho]
  rfl

theorem execBerWindowEnd_out_cases {o : WlOut} (ho : ((s.beam (s.beamAt false b)).out.find? fun o => o.wl = wl) = some o) :
    let par := s.mod.link.par
    let u := s.windowed b wl errors
    let put (f : WlOut → WlOut) : State := u.updBeam (s.beamAt false b) fun b => { b with out := b.out.map fun o => if o.wl = wl then f o else o }
    let clean := if errors ≤ par.restore then o.clean + 1 else 0
    (0 < o.train → execBerWindowEnd b false wl errors s = .next (put fun o => { o with train := o.train - 1 })) ∧
    (o.train = 0 → 64 * par.rtMax ≤ o.windows → execBerWindowEnd b false wl errors s = .next u) ∧
    (o.train = 0 → o.windows < 64 * par.rtMax →
      (par.rwin ≤ clean → execBerWindowEnd b false wl errors s =
        .next ((u.updBeam (s.beamAt false b) fun x => x.takeWl wl).signalWl b wl true)) ∧
      (clean < par.rwin → execBerWindowEnd b false wl errors s =
        .next (put fun o => { o with windows := o.windows + 1, clean := clean }))) := by
  intro par u put clean
  have trained (h : o.train = 0) : ¬0 < o.train := Nat.not_lt.mpr (Nat.le_of_eq h)
  have tried (h : o.windows < 64 * par.rtMax) : ¬64 * par.rtMax ≤ o.windows := Nat.not_le.mpr h
  refine ⟨fun ht => (execBerWindowEnd_out ho).trans (congrArg _ (if_pos ht)),
    fun ht hw => (execBerWindowEnd_out ho).trans (congrArg _ ((if_neg (trained ht)).trans (if_pos hw))),
    fun ht hw => ⟨fun hc => (execBerWindowEnd_out ho).trans (congrArg _ ?_), fun hc => (execBerWindowEnd_out ho).trans (congrArg _ ?_)⟩⟩
  · exact (if_neg (trained ht)).trans ((if_neg (tried hw)).trans (if_pos hc))
  · exact (if_neg (trained ht)).trans ((if_neg (tried hw)).trans (if_neg (Nat.not_le.mpr hc)))

end

/-! ### Lost modules (R300, R419, R420) -/

/-- What is listed under a key is read there. -/
theorem mapGet_mapSet_listed {β : Type} [DecidableEq β] {d v : β} (hv : v ≠ d) (a : Nat) : ∀ l : List (Nat × β), mapGet d (mapSet d l a v) a = v
  | [] => by simp only [mapSet, if_neg hv, mapGet, if_true]
  | (b, x) :: r => by
    simp only [mapSet, if_neg hv]
    split
    · simp only [mapGet, if_true]
    · next below =>
      split
      · simp only [mapGet, if_true]
      · next other =>
        simp only [mapGet, if_neg other]
        exact mapGet_mapSet_listed hv a r

section
variable {s : State} {chip : Fin 128} {c0 : Nat}

/-- The loss of a module noted with its C0, its flood begun, its timers stopped (R419, R420). -/
def State.learnt (s : State) (chip : Fin 128) (c0 : Nat) : State :=
  let v := (s.updPair chip.val fun p => { p with lost := some c0 }).updLink fun l =>
    { l with floods := l.floods.filter (fun f => f.1 ≠ chip) ++ [(chip, c0, s.mod.cal.nslot)] }
  ({ v with agenda := v.agenda.filter fun i => match i with | .e2eTimerExpiry d _ => d ≠ chip | _ => true }.next
    (.moduleFailure chip)).next (.drainRound chip (s.mod.cal.cycle - c0))

theorem State.learnLoss_own (h : chip = s.mod.chipid) : s.learnLoss chip c0 = s := if_pos h

section
variable (hc : chip ≠ s.mod.chipid)
include hc

theorem State.learnLoss_new (h : (s.pair chip.val).lost = none) : s.learnLoss chip c0 = s.learnt chip c0 := by
  refine (if_neg hc).trans ((if_neg ?_).trans rfl)
  rw [h]
  exact Bool.false_ne_true

theorem State.learnLoss_known {c : Nat} (h : (s.pair chip.val).lost = some c) :
    (c0 < c → s.learnLoss chip c0 = s.learnt chip c0) ∧ (c ≤ c0 → s.learnLoss chip c0 = s) := by
  refine ⟨fun hlt => (if_neg hc).trans ((if_neg ?_).trans rfl), fun hle => (if_neg hc).trans (if_pos ?_)⟩
  · rw [h]
    exact ne_of_eq_of_ne (congrArg Bool.not (decide_eq_true hlt)) Bool.false_ne_true
  · rw [h]
    exact congrArg Bool.not (decide_eq_false (Nat.not_lt.mpr hle))

end

/-- A pair that is counted down once more is listed. -/
theorem State.pair_updPair_down (u : State) (d : Nat) :
    (u.updPair d fun p => { p with down := p.down + 1 }).pair d = { u.pair d with down := (u.pair d).down + 1 } :=
  mapGet_mapSet_listed (fun same => Nat.succ_ne_zero _ (congrArg Pair.down same)) d u.mod.pairs

section
variable {port : Fin 16} {d : Fin 128} (hd : s.peerAt port.val = some d) (hs : s.mod.cal.sync = true) (hl : s.isLost d.val = false)
include hd hs hl

/-- The check of a port that faces a module in a slot. -/
theorem execPortDownCheck_faced (received : Bool) : execPortDownCheck port received s = .next (
    let u := s.updCal fun c => { c with downPorts := c.downPorts ++ [port] }
    let v := u.updPair d.val fun p => { p with down := p.down + 1 }
    if received then s.updPair d.val fun p => { p with down := 0 }
    else if s.mod.cal.downPorts.contains port then s
    else if !((s.portsTo d.val).all fun q => u.mod.cal.downPorts.any fun x => x.val = q) then u
    else if s.mod.link.par.deadn ≤ (v.pair d.val).down then v.learnLoss d s.mod.cal.cycle else v) := by
  unfold execPortDownCheck
  dsimp only
  rw [hd]
  refine congrArg Host.Outcome.next ((if_neg ?_).trans rfl)
  rw [hs, hl]
  exact Bool.false_ne_true

theorem execPortDownCheck_received : execPortDownCheck port true s = .next (s.updPair d.val fun p => { p with down := 0 }) :=
  (execPortDownCheck_faced hd hs hl true).trans (congrArg _ (if_pos rfl))

theorem execPortDownCheck_known (hp : s.mod.cal.downPorts.contains port = true) : execPortDownCheck port false s = .next s :=
  (execPortDownCheck_faced hd hs hl false).trans (congrArg _ ((if_neg Bool.false_ne_true).trans (if_pos hp)))

theorem execPortDownCheck_down (hp : s.mod.cal.downPorts.contains port = false) :
    let u := s.updCal fun c => { c with downPorts := c.downPorts ++ [port] }
    let v := u.updPair d.val fun p => { p with down := p.down + 1 }
    ((s.portsTo d.val).all (fun q => u.mod.cal.downPorts.any fun x => x.val = q) = false →
      execPortDownCheck port false s = .next u) ∧
    ((s.portsTo d.val).all (fun q => u.mod.cal.downPorts.any fun x => x.val = q) = true →
      (s.mod.link.par.deadn ≤ (s.pair d.val).down + 1 → d ≠ s.mod.chipid →
        execPortDownCheck port false s = .next (v.learnt d s.mod.cal.cycle)) ∧
      ((s.pair d.val).down + 1 < s.mod.link.par.deadn → execPortDownCheck port false s = .next v)) := by
  intro u v
  have paired : v.pair d.val = { s.pair d.val with down := (s.pair d.val).down + 1 } := State.pair_updPair_down u d.val
  have down : (v.pair d.val).down = (s.pair d.val).down + 1 := congrArg Pair.down paired
  have there : (v.pair d.val).lost = none := (congrArg Pair.lost paired).trans (Option.isSome_eq_false_iff.mp hl |> Option.isNone_iff_eq_none.mp)
  have fresh {a b c : State} (e : b = c) :
      (if false = true then a else if s.mod.cal.downPorts.contains port = true then s else b) = c :=
    (if_neg Bool.false_ne_true).trans ((if_neg (Bool.eq_false_iff.mp hp)).trans e)
  refine ⟨fun ha => (execPortDownCheck_faced hd hs hl false).trans (congrArg _ (fresh (if_pos (congrArg Bool.not ha)))), fun ha => ?_⟩
  have all : ¬(!((s.portsTo d.val).all fun q => u.mod.cal.downPorts.any fun x => x.val = q)) = true :=
    ne_of_eq_of_ne (congrArg Bool.not ha) Bool.false_ne_true
  refine ⟨fun hn hc => (execPortDownCheck_faced hd hs hl false).trans (congrArg _ (fresh ((if_neg all).trans ?_))),
    fun hn => (execPortDownCheck_faced hd hs hl false).trans (congrArg _ (fresh ((if_neg all).trans ?_)))⟩
  · exact (if_pos (hn.trans_eq down.symm)).trans (State.learnLoss_new hc there)
  · exact if_neg (by rw [down]; exact Nat.not_le.mpr hn)

end

/-- The rounds that follow the loss of a module (R420). -/
theorem execDrainRound_lost {k : Nat} (hl : (s.pair chip.val).lost ≠ none) :
    let R := s.mod.link.par.drainR
    (k < R → execDrainRound chip k s = .next s) ∧
    (k = R → (s.pair chip.val).drained = false → execDrainRound chip k s = .next (s.drain chip)) ∧
    (R < k → (s.pair chip.val).drained = true → (s.pair chip.val).cleared = false → execDrainRound chip k s =
      .next (s.updPair chip.val fun p => { p with nextSeq := 0, recvNext := 0, held := [], skipped := [], cleared := true })) := by
  intro R
  have lost : (s.pair chip.val).lost.isNone = false := Option.isNone_eq_false_iff.mpr (Option.isSome_iff_ne_none.mpr hl)
  have due : execDrainRound chip k s = .next (
      let u := if decide (R ≤ k) && !(s.pair chip.val).drained then s.drain chip else s
      if decide (R + 1 ≤ k) && !(s.pair chip.val).cleared then
        u.updPair chip.val fun p => { p with nextSeq := 0, recvNext := 0, held := [], skipped := [], cleared := true }
      else u) := congrArg Host.Outcome.next (if_neg (Bool.eq_false_iff.mp lost))
  rw [due]
  refine ⟨fun hk => ?_, fun hk hd => ?_, fun hk hd hc => ?_⟩
  · have early : decide (R ≤ k) = false := decide_eq_false (Nat.not_le.mpr hk)
    have still : decide (R + 1 ≤ k) = false := decide_eq_false (by omega)
    rw [early, still]
    rfl
  · have now : decide (R ≤ k) = true := decide_eq_true hk.ge
    have still : decide (R + 1 ≤ k) = false := decide_eq_false (by omega)
    rw [now, still, hd]
    rfl
  · have next : decide (R + 1 ≤ k) = true := decide_eq_true hk
    rw [next, hd, hc, Bool.not_true, Bool.and_false]
    rfl

end

/-- Settles O50: one lemma per event and per case of its definition. -/
theorem fabricEvents : Obligations.FabricEvents := by
  constructor
  · intro s m chip seq grp errors b g wl ans
    refine ⟨?slots, fun hf => execRotorLockRegain_idle (.inr hf), execRotorLockRegain_lock, rfl, ?delivery, ?relay, rfl,
      fun x => execE2eTimerExpiry_retained, ?notice, ?receipt, ?ack, execBerWindowEnd_peer, ?window⟩
    case slots =>
      intro hs
      exact ⟨execSlotBoundary_guard hs, execSlotBoundary_slot hs, execSlotBoundary_cycle hs, execGuardEnd_guard hs, execGuardEnd_open,
        execRotorLockRegain_idle (.inl hs)⟩
    case delivery =>
      refine ⟨execPairSequenceDelivery_cleared, execPairSequenceDelivery_own, fun hc => ⟨execPairSequenceDelivery_forged hc,
        fun hd ha => (execPairSequenceDelivery_other hc hd ha).1, fun hd ha => (execPairSequenceDelivery_other hc hd ha).2⟩⟩
    case relay => exact ⟨execRelayReceive_gone, execRelayReceive_relay⟩
    case notice =>
      refine ⟨fun ha => ?_, fun tag ha => ?_⟩
      · rw [ha]
        rfl
      · rw [ha]
        exact execAbandonNotice_answer tag
    case receipt =>
      refine ⟨fun hf => execTagGroupReceipt_eq.trans (congrArg _ (if_pos hf)), fun hf => ?_⟩
      have runs {a b : State} (e : a = b) : (if s.mod.fw.failed = true then s.counted g else a) = b :=
        (if_neg (Bool.eq_false_iff.mp hf)).trans e
      refine ⟨fun ho hw => ?_, fun ho hw => ?_, fun ho hk => ?_, fun ho hk => ?_⟩
      · refine execTagGroupReceipt_eq.trans (congrArg _ (runs ((if_pos ho).trans (if_neg ?_))))
        obtain hw | hw := hw <;> rw [hw]
        · exact Bool.false_ne_true
        · rw [decide_eq_false (not_not_intro rfl), Bool.and_false]
          exact Bool.false_ne_true
      · obtain ⟨n, hn, hne⟩ := hw
        refine execTagGroupReceipt_eq.trans (congrArg _ (runs ((if_pos ho).trans (if_pos ?_))))
        rw [hn]
        exact decide_eq_true fun same => hne (Option.some.inj same)
      · exact execTagGroupReceipt_eq.trans (congrArg _ (runs ((if_neg (Bool.eq_false_iff.mp ho)).trans (if_pos (congrArg Bool.not hk)))))
      · refine (execTagGroupReceipt_eq.trans (congrArg _ (runs ((if_neg (Bool.eq_false_iff.mp ho)).trans
          (if_neg (ne_of_eq_of_ne (congrArg Bool.not hk) Bool.false_ne_true)))))).trans rfl
    case ack =>
      refine ⟨rfl, fun h => execTagGroupAck_still (h.imp_right fun h => h.imp_right .inl), fun d hd hl => ?lost, fun ha hs hg => ⟨fun d hd hl => ?_,
        fun hd => ?_⟩, execIdleGroupClose_still, fun hf hs hg => ?_, fun hf hs hg => ?_⟩
      case lost =>
        have faced : s.peerAt b.port.val = some d := hd
        exact execTagGroupAck_still (.inr (.inr (.inr (by rw [faced]; exact hl))))
      · have faced : s.peerAt b.port.val = some d := hd
        refine (execTagGroupAck_resend ha hs hg (by rw [faced]; exact hl)).trans ?_
        rw [faced] <;> rfl
      · have faced : s.peerAt b.port.val = none := hd
        refine (execTagGroupAck_resend ha hs hg (by rw [faced]; rfl)).trans ?_
        rw [faced] <;> rfl
      · exact (execIdleGroupClose_closes hs hg).trans (congrArg _ (State.updBeam_congr (if_pos hf)))
      · exact (execIdleGroupClose_closes hs hg).trans (congrArg _ (State.updBeam_congr (if_neg hf)))
    case window =>
      refine ⟨fun ho => ⟨fun h => ?_, fun h1 h2 => ?_⟩, fun o ho => ?_⟩
      · refine (execBerWindowEnd_in ho).trans (congrArg _ (if_pos ?_))
        rw [Bool.or_eq_true, decide_eq_true_eq]
        exact h
      · refine ((execBerWindowEnd_in ho).trans (congrArg _ (if_neg ?_))).trans rfl
        rw [h1, decide_eq_false (Nat.not_le.mpr h2)]
        exact Bool.false_ne_true
      · exact execBerWindowEnd_out_cases ho
  · intro s chip c0 k port d
    refine ⟨fun hc => ⟨congrArg _ (State.learnLoss_own hc), congrArg _ (State.learnLoss_own hc), congrArg _ (if_pos hc)⟩,
      fun hc => ⟨fun hl => ⟨congrArg _ (State.learnLoss_new hc hl), congrArg _ (State.learnLoss_new hc hl)⟩,
        fun c hl => ⟨fun h => congrArg _ ((State.learnLoss_known hc hl).1 h), fun h => congrArg _ ((State.learnLoss_known hc hl).2 h)⟩,
        congrArg _ (if_neg hc)⟩,
      fun hd hs hl => ⟨execPortDownCheck_received hd hs hl, execPortDownCheck_known hd hs hl, execPortDownCheck_down hd hs hl⟩,
      execDrainRound_lost⟩

end Sys2Proof.Machine
/-!
SUPPORT. Frames of the instructions that work on contexts other than their own, on timelines and latches: the mover and the pool's
place stay, the own context keeps a relation `R`, every other a relation `O`, bytes outside `A` stay, NEXT words of queues lie in `Q`.
-/
namespace Sys2Proof.Machine

/-- What an instruction has left alone so far: `R` speaks of the own context, `O` of the others. -/
structure Stays (R : Ctx → Prop) (O : CtxId → Ctx → Prop) (A Q : Nat → Prop) (s t : State) : Prop where
  cur : t.cur = s.cur
  own : R t.ctx
  others : ∀ c, c ≠ s.cur → O c (t.getCtx c)
  par : t.cl.par = s.cl.par
  queued : ∀ a, t.queuedNext a → Q a
  bytes : ∀ a, ¬A a → t.byte a = s.byte a

/-- A relation that no change outside the listed g registers breaks. -/
def Lets (R : Ctx → Prop) (gs : List GNum) : Prop := ∀ y z, R y → CtxKept y z gs [] [] → R z

variable {R : Ctx → Prop} {O : CtxId → Ctx → Prop} {A Q : Nat → Prop} {gs : List GNum} {s t u : State}

namespace Stays

theorem step {B : Nat → Prop} (h : Stays R O A Q s t) (m : MemStep t u B) (hb : ∀ a, B a → A a) : Stays R O A Q s u := by
  have hg : ∀ c, u.getCtx c = t.getCtx c := fun c => by simp only [State.getCtx, m.ctxs]
  have hc : u.ctx = t.ctx := by simp only [State.ctx, hg, m.cur]
  exact ⟨m.cur.trans h.cur, hc ▸ h.own, fun c n => hg c ▸ h.others c n, m.par.trans h.par, fun a q => h.queued a (m.queued a q),
    fun a n => (m.bytes a fun x => n (hb a x)).trans (h.bytes a n)⟩

/-- A change outside contexts, memory cells and queues. -/
theorem same (h : Stays R O A Q s t) (h1 : u.ctxs = t.ctxs) (h2 : u.cur = t.cur) (h3 : u.cl.par = t.cl.par)
    (h4 : u.cl.queues = t.cl.queues) (h5 : u.mem.cells = t.mem.cells) (h6 : u.mem.hbmKey = t.mem.hbmKey) : Stays R O A Q s u :=
  h.step (MemStep.of_eq (A := A) h1 h2 h3 h4 h5 h6) fun _ x => x

theorem taint (h : Stays R O A Q s t) (l : List Nat) : Stays R O A Q s { t with taint := l } := h.same rfl rfl rfl rfl rfl rfl
theorem post (h : Stays R O A Q s t) (i : Instr) : Stays R O A Q s (t.post i) := h.same rfl rfl rfl rfl rfl rfl
theorem posts (h : Stays R O A Q s t) (l : List Instr) : Stays R O A Q s (t.posts l) := h.same rfl rfl rfl rfl rfl rfl
theorem next (h : Stays R O A Q s t) (i : Instr) : Stays R O A Q s (t.next i) := h.same rfl rfl rfl rfl rfl rfl
theorem cancel (h : Stays R O A Q s t) (i : Instr) : Stays R O A Q s (t.cancel i) := h.same rfl rfl rfl rfl rfl rfl
theorem ended (h : Stays R O A Q s t) : Stays R O A Q s t.ended := h.same rfl rfl rfl rfl rfl rfl
theorem core (h : Stays R O A Q s t) (i : CoreId) (f : Core → Core) : Stays R O A Q s (t.updCore i f) := h.same rfl rfl rfl rfl rfl rfl
theorem postOnce (h : Stays R O A Q s t) (i : Instr) : Stays R O A Q s (t.postOnce i) := by
  unfold State.postOnce
  split
  · exact h
  · exact h.post i
theorem cl (h : Stays R O A Q s t) (f : Cluster → Cluster) (hp : (f t.cl).par = t.cl.par) (hq : (f t.cl).queues = t.cl.queues) :
    Stays R O A Q s (t.updCl f) := h.same rfl rfl hp hq rfl rfl

/-- The own context changed. -/
theorem upd (h : Stays R O A Q s t) (f : Ctx → Ctx) (hf : R t.ctx → R (f t.ctx)) : Stays R O A Q s (t.upd f) :=
  ⟨h.cur, by rw [State.ctx_upd]; exact hf h.own, fun c n => by rw [State.getCtx_upd_other _ _ _ (by rwa [h.cur])]; exact h.others c n,
    h.par, h.queued, h.bytes⟩

/-- Any context changed. -/
theorem updCtx (h : Stays R O A Q s t) (c : CtxId) (f : Ctx → Ctx) (hf : c = s.cur → R (t.getCtx c) → R (f (t.getCtx c)))
    (ho : c ≠ s.cur → O c (t.getCtx c) → O c (f (t.getCtx c))) : Stays R O A Q s (t.updCtx c f) := by
  by_cases hc : c = s.cur
  · have hct : c = t.cur := hc.trans h.cur.symm
    have hk := h.upd f (by subst hct; exact hf hc)
    rwa [State.upd, ← hct] at hk
  · refine ⟨h.cur, ?_, fun e n => ?_, h.par, h.queued, h.bytes⟩
    · show R ((t.updCtx c f).getCtx t.cur)
      rw [State.getCtx_updCtx_other _ _ _ _ (by rw [h.cur]; exact Ne.symm hc)]
      exact h.own
    · by_cases he : e = c
      · subst he
        rw [State.getCtx_updCtx_same]
        exact ho n (h.others e n)
      · rw [State.getCtx_updCtx_other _ _ _ _ he]
        exact h.others e n

section
variable (hR : Lets R gs)
include hR

theorem move (h : Stays R O A Q s t) (f : Ctx → Ctx) (hf : CtxKept t.ctx (f t.ctx) gs [] []) : Stays R O A Q s (t.upd f) :=
  h.upd f fun hr => hR _ _ hr hf

/-- A step whose frame is known by the registers it keeps. -/
theorem of_own (h : Stays R O A Q s t) (o : OwnKept t u gs [] []) (hm : u.mem.cells = t.mem.cells)
    (hk : u.mem.hbmKey = t.mem.hbmKey) (hp : u.cl.par = t.cl.par) (hq : u.cl.queues = t.cl.queues) : Stays R O A Q s u :=
  ⟨o.cur.trans h.cur, hR _ _ h.own o.own, fun c n => (o.others c (by rwa [h.cur])).symm ▸ h.others c n, hp.trans h.par,
    fun a q => h.queued a (by unfold State.queuedNext State.recAt at *; rwa [hp, hq] at q),
    fun a n => (show u.byte a = t.byte a by simp only [State.byte, Memory.get, Memory.residue, hm, hk]).trans (h.bytes a n)⟩

theorem trapAux (h : Stays R O A Q s t) (c : BitVec 8) (st : BitVec 4) (a b : Word) : Stays R O A Q s (t.trapAux c st a b) :=
  h.of_own hR ((OwnKept.refl t _ _ _).trapAux _ _ _ _) (by rw [State.trapAux_mem]) (by rw [State.trapAux_mem])
    (State.trapAt_cl _ _ _ _ _ _ _).1 (State.trapAt_cl _ _ _ _ _ _ _).2
theorem trap (h : Stays R O A Q s t) (c : BitVec 8) : Stays R O A Q s (t.trap c) := h.trapAux hR _ _ _ _
theorem trapEa (h : Stays R O A Q s t) (c : BitVec 8) (ea : Word) : Stays R O A Q s (t.trapEa c ea) := h.trapAux hR _ _ _ _
theorem block (h : Stays R O A Q s t) (w : Wait) : Stays R O A Q s (t.block w) :=
  h.of_own hR ((OwnKept.refl t _ _ _).block w) rfl rfl rfl rfl
theorem blockMig (h : Stays R O A Q s t) (key : Nat) : Stays R O A Q s (t.blockMig key) := (h.block hR _).posts _
theorem finish (h : Stays R O A Q s t) (n : Nat) : Stays R O A Q s (t.finish n) :=
  h.of_own hR ((OwnKept.refl t _ _ _).finish n) (by rw [State.finish_mem]) (by rw [State.finish_mem]) (by rw [State.finish_cl])
    (by rw [State.finish_cl])
theorem setG (h : Stays R O A Q s t) (d : GNum) (v : Word) (hd : d ∈ gs) : Stays R O A Q s (t.setG d v) :=
  h.of_own hR ((OwnKept.refl t _ _ _).setG d v hd) (by rw [State.setG_mem]) (by rw [State.setG_mem]) (by rw [State.setG_cl])
    (by rw [State.setG_cl])
theorem putG (h : Stays R O A Q s t) (n : Nat) (d : GNum) (v : Word) (hd : d ∈ gs) : Stays R O A Q s (t.putG n d v) :=
  (h.setG hR d v hd).finish hR n
theorem poisonG (h : Stays R O A Q s t) (d : GNum) (st : BitVec 4) (hd : d ∈ gs) : Stays R O A Q s (t.poisonG d st) := by
  have k := ((Kept.refl (gs := gs) (vs := []) (ks := []) (A := fun _ => False) t).poisonG d st hd).own
  have hs : (t.poisonG d st).mem = t.mem ∧ (t.poisonG d st).cl = t.cl := by
    unfold State.poisonG
    split <;> exact ⟨rfl, rfl⟩
  exact h.of_own hR k (by rw [hs.1]) (by rw [hs.1]) (by rw [hs.2]) (by rw [hs.2])
theorem setClk (h : Stays R O A Q s t) (T : Nat) : Stays R O A Q s (t.setClk T) := h.move hR _ (CtxKept.of_eq rfl)
theorem raiseClk (h : Stays R O A Q s t) (T : Nat) : Stays R O A Q s (t.raiseClk T) := h.move hR _ (CtxKept.of_eq rfl)
theorem begun (h : Stays R O A Q s t) : Stays R O A Q s (t.upd fun x => { x with begun := true }) := h.move hR _ (CtxKept.of_eq rfl)
theorem markAtomic (h : Stays R O A Q s t) : Stays R O A Q s t.markAtomic := h.move hR _ (CtxKept.of_eq rfl)
theorem checked (h : Stays R O A Q s t) {k : State → State} (hk : Stays R O A Q s (k t)) : Stays R O A Q s (t.checked k) := by
  unfold State.checked
  split
  · exact h.block hR _
  · exact hk
theorem priv (h : Stays R O A Q s t) {k : State → State} (hk : Stays R O A Q s (k t)) : Stays R O A Q s (t.priv k) := by
  unfold State.priv
  split
  · exact hk
  · exact h.trap hR _
theorem srcG (h : Stays R O A Q s t) (fa : Bool) (r : GNum) {k : Word → State → State}
    (hk : ∀ v u, Stays R O A Q s u → Stays R O A Q s (k v u)) : Stays R O A Q s (t.srcG fa r k) :=
  t.srcG_cases (Stays R O A Q s) fa r k (fun v _ => hk v _ (h.taint _)) (fun _ _ _ _ => h.trapAux hR _ _ _ _) (fun _ => h.block hR _)

end

/-- A trap of another context changes its waiting state alone. -/
theorem trapAt (h : Stays R O A Q s t) (c : CtxId) (cause : BitVec 8) (st : BitVec 4) (a b : Word) (hd : Hold) (hc : c ≠ s.cur)
    (ho : ∀ y, O c y) : Stays R O A Q s (t.trapAt c cause st a b hd) := by
  have key := h.updCtx c (fun x => { x.clearWait with st := .faulted, stopReq := none, susp := none }) (fun e => absurd e hc)
    (fun _ _ => ho _)
  unfold State.trapAt
  dsimp only
  split
  · exact key.same rfl rfl rfl rfl rfl rfl
  · split <;> exact key.same rfl rfl rfl rfl rfl rfl

/-- What only looks at memory, through the translations. -/
theorem looks (h : Stays R O A Q s t) (m : t.Looks u) : Stays R O A Q s u := by
  obtain ⟨x, n, rfl⟩ := m
  exact h.same rfl rfl rfl rfl rfl rfl

theorem access (h : Stays R O A Q s t) (a : Nat) (b : Bool) (p : Perm) (o n : Nat) : Stays R O A Q s (t.access a b p o n).2 :=
  h.looks (t.access_looked a b p o n)

theorem send (h : Stays R O A Q s t) (dst : ClusterId) (route : BitVec 2) (b : NetBody) : Stays R O A Q s (t.send dst route b) :=
  h.step (t.send_step dst route b A) fun _ x => x

/-- A DISPATCH decision that is posted changes no register and no byte. -/
theorem postDispatch (h : Stays R O A Q s t) (c : CtxId) : Stays R O A Q s (t.postDispatch c) := by
  have key := (h.cancel (.dispatchReoffer c)).cl (fun cl => { cl with noned := cl.noned.filter (· ≠ c) }) rfl rfl
  unfold State.postDispatch
  dsimp only
  split
  · exact key
  · exact key.post _

/-- A context becomes IDLE. -/
theorem toIdle (h : Stays R O A Q s t) (c : CtxId)
    (hf : c = s.cur → ∀ y, R y → R { y.clearWait with st := .idle, bound := none, stopReq := none, susp := none, latch := 0 })
    (ho : c ≠ s.cur → ∀ y, O c y → O c { y.clearWait with st := .idle, bound := none, stopReq := none, susp := none, latch := 0 }) :
    Stays R O A Q s (t.toIdle c) := by
  have key := (h.updCtx c (fun x => { x.clearWait with st := .idle, bound := none, stopReq := none, susp := none, latch := 0 })
    (fun e => hf e _) (fun e => ho e _)).cl (fun cl => { cl with preempting := cl.preempting.filter (· ≠ c) }) rfl rfl
  unfold State.toIdle
  dsimp only
  split
  · exact key.postDispatch c
  · exact key

/-- The wait of another context is abandoned. -/
theorem abandonWait (h : Stays R O A Q s t) (c : CtxId) (hc : c ≠ s.cur) (ho : ∀ y, O c y) : Stays R O A Q s (t.abandonWait c) := by
  unfold State.abandonWait
  dsimp only
  refine updCtx ?_ c _ (fun e => absurd e hc) fun _ _ => ho _
  refine (((Stays.cancel ?_ _).cancel _).cancel _).cancel _
  refine Stays.cl ?_ _ rfl rfl
  exact h.step (State.sends_step _ (fun s w A => s.send_step _ _ _ A) A _ _) fun _ x => x

end Stays

/-! ### The relations used -/

/-- The own context keeps everything but the listed g registers and what `f` changes with some value. -/
def Mended {α : Type} (s : State) (gs : List GNum) (f : α → Ctx → Ctx) (y : Ctx) : Prop := ∃ l, CtxKept (f l s.ctx) y gs [] []

/-- Every other context as before. -/
def Same (s : State) (c : CtxId) (y : Ctx) : Prop := y = s.getCtx c

theorem lets_kept (x : Ctx) (gs : List GNum) : Lets (CtxKept x · gs [] []) gs := fun _ _ h k => h.trans k

theorem lets_mended {α : Type} (s : State) (gs : List GNum) (f : α → Ctx → Ctx) : Lets (Mended s gs f) gs :=
  fun _ _ ⟨l, h⟩ k => ⟨l, h.trans k⟩

theorem Stays.refl (hr : R s.ctx) (ho : ∀ c, O c (s.getCtx c)) : Stays R O A s.queuedNext s s :=
  ⟨rfl, hr, fun c _ => ho c, rfl, fun _ h => h, fun _ _ => rfl⟩

/-- A frame of the moving context's registers. -/
theorem Stays.only (h : Stays (CtxKept s.ctx · gs [] []) (Same s) (fun _ => False) Q s t) :
    OwnKept s t gs [] [] ∧ ∀ x, t.byte x = s.byte x :=
  ⟨⟨h.cur, h.own, h.others⟩, fun x => h.bytes x id⟩

/-- A frame of the moving context's registers, and of what `f` changes. -/
theorem Stays.mended {α : Type} {f : α → Ctx → Ctx} (h : Stays (Mended s gs f) (Same s) (fun _ => False) Q s t) :
    (∃ l, OwnKept (s.upd (f l)) t gs [] []) ∧ ∀ x, t.byte x = s.byte x := by
  obtain ⟨l, hl⟩ := h.own
  refine ⟨⟨l, h.cur, ?_, fun c n => ?_⟩, fun x => h.bytes x id⟩
  · rwa [State.ctx_upd]
  · rw [State.getCtx_upd_other s c _ n]
    exact h.others c n

theorem stays_only (s : State) (gs : List GNum) : Stays (CtxKept s.ctx · gs [] []) (Same s) A s.queuedNext s s :=
  Stays.refl (CtxKept.refl _ _ _ _) fun _ => rfl

theorem stays_mended {α : Type} (s : State) (gs : List GNum) (f : α → Ctx → Ctx) (l : α) (hl : f l s.ctx = s.ctx) :
    Stays (Mended s gs f) (Same s) A s.queuedNext s s :=
  Stays.refl ⟨l, hl.symm ▸ CtxKept.refl _ _ _ _⟩ fun _ => rfl

theorem stays_alone (s : State) (gs : List GNum) : Stays (CtxKept s.ctx · gs [] []) (fun _ _ => True) A s.queuedNext s s :=
  Stays.refl (CtxKept.refl _ _ _ _) fun _ => trivial

end Sys2Proof.Machine
/-!
SUPPORT. What special-register, tile, matrix and system instructions leave unchanged (R185, R190, R273).
-/
namespace Sys2Proof.Machine

variable {R : Ctx → Prop} {O : CtxId → Ctx → Prop} {A Q : Nat → Prop} {gs : List GNum} {s t u : State}

/-! ### The shared operations of these instructions -/

namespace Stays

section
variable (hR : Lets R gs)
include hR

theorem specialPriv (h : Stays R O A Q s t) (num : BitVec 16) {k : State → State} (hk : Stays R O A Q s (k t)) :
    Stays R O A Q s (t.specialPriv num k) := by
  unfold State.specialPriv
  split
  · exact h.trap hR _
  · exact hk

/-- A system instruction goes on at S level alone. -/
theorem privSup (h : Stays R O A Q s t) {k : State → State} (hk : t.sup = true → Stays R O A Q s (k t)) : Stays R O A Q s (t.priv k) := by
  unfold State.priv
  split
  next hs => exact hk hs
  · exact h.trap hR _

theorem withTile (h : Stays R O A Q s t) (w : TWord) {k : Tile → State → State} (hk : ∀ m, Stays R O A Q s (k m t)) :
    Stays R O A Q s (t.withTile w k) := by
  unfold State.withTile
  split
  · exact h.trap hR _
  · split
    · exact h.trapAux hR _ _ _ _
    · exact hk _

theorem tilesAllowed (h : Stays R O A Q s t) (p : Perm) (l : List (Nat × Nat)) {k : State → State} (hk : Stays R O A Q s (k t)) :
    Stays R O A Q s (t.tilesAllowed p l k) := by
  unfold State.tilesAllowed
  split
  · exact h.trapEa hR _ _
  · exact hk

theorem directChecks (h : Stays R O A Q s t) (w : TWord) (f : Option (BitVec 8 × Nat)) (p : Perm) (l : List (Nat × Nat)) {k : State → State}
    (hk : Stays R O A Q s (k t)) : Stays R O A Q s (t.directChecks w f p l k) := by
  unfold State.directChecks
  split
  · exact h.trap hR _
  · split
    · exact h.trapAux hR _ _ _ _
    · exact h.tilesAllowed hR _ _ hk

/-- A job that is sent changes what `f` changes of its context. -/
theorem sendDirect (h : Stays R O A Q s t) (kind : MatKind) (tile : TWord) (word : Word) (factor : Nat) (sp : SparsityLatch)
    (f : Ctx → Ctx) (hf : ∀ y, R y → R (f y)) : Stays R O A Q s (t.sendDirect kind tile word factor sp f) := by
  unfold State.sendDirect
  split
  · exact h.block hR _
  · refine Stays.postOnce (Stays.upd (Stays.markAtomic hR ?_) f (hf _)) _
    exact h.same rfl rfl rfl rfl rfl rfl

theorem failSpan (h : Stays R O A Q s t) (d : GNum) (hd : d ∈ gs) (r : AccRes) (o : Nat) : Stays R O A Q s (t.failSpan d r o) := by
  unfold State.failSpan
  split
  · exact (h.block hR _).next _
  · exact h.trap hR _
  · exact h.blockMig hR _
  · exact h.trapEa hR _ _
  · exact h.putG hR _ _ _ hd

/-- The home of an image is looked for before anything is written. -/
theorem withHome (h : Stays R O A Q s t) (d : GNum) (hd : d ∈ gs) (H : Word) {k : List (Nat × Nat × Nat) → State → State}
    (hk : ∀ l u, t.Looks u → Stays R O A Q s u → Stays R O A Q s (k l u)) : Stays R O A Q s (t.withHome d H k) := by
  unfold State.withHome
  dsimp only
  split
  · exact h.putG hR _ _ _ hd
  · split
    next hspan => exact hk _ _ (State.span_looked hspan) (h.looks (State.span_looked hspan))
    next hspan => exact (h.looks (State.span_looked hspan)).failSpan hR d hd _ _

/-- The granules of a span are read; what the reads make of the clock fails in `s0`. -/
theorem readSpan {s0 : State} (h0 : Stays R O A Q s s0) {k : State → State} (hk : ∀ u, Stays R O A Q s u → Stays R O A Q s (k u)) :
    ∀ (l : List Nat) (t : State), Stays R O A Q s t → Stays R O A Q s (s0.readSpan t k l)
  | [], t, h => hk t h
  | g :: r, t, h => by
    unfold State.readSpan
    dsimp only
    split
    · exact h0.trap hR _
    · have hr : Stays R O A Q s (t.stampRead g (t.readTime g t.ctx.clk)) := h.same rfl rfl rfl rfl rfl rfl
      exact readSpan h0 hk r _ (hr.setClk hR _)

end

section
variable (hA : ∀ a, A a)
include hA

theorem putWords : ∀ (l : List Nat) (t : State) (c o key : Nat) (r : Nat × State), Stays R O A Q s t →
    t.putWords c o key l = some r → Stays R O A Q s r.2
  | [], t, c, o, key, r, h, e => by
    cases e
    exact h
  | w :: l, t, c, o, key, r, h, e => by
    unfold State.putWords at e
    dsimp only at e
    split at e
    · cases e
    · have hw : Stays R O A Q s (t.stampWrite (granule o) (t.writeTime (granule o) c)) := h.same rfl rfl rfl rfl rfl rfl
      have hv := hw.step (State.writeOwn_step _ o key (toLe 8 w) (t.writeTime (granule o) c)) fun a _ => hA a
      exact putWords l _ _ _ _ r hv e

theorem putParts (o : Nat) (b : List Byte) : ∀ (l : List (Nat × Nat × Nat)) (t : State) (c : Nat) (r : Nat × State), Stays R O A Q s t →
    t.putParts' c o b l = some r → Stays R O A Q s r.2
  | [], t, c, r, h, e => by
    cases e
    exact h
  | (a, key, n) :: l, t, c, r, h, e => by
    unfold State.putParts' at e
    split at e
    · cases e
    next hw => exact putParts o b l _ _ r (putWords hA _ _ _ _ _ _ h hw) e

variable (hR : Lets R gs)
include hR

theorem writeBack {s0 : State} (h0 : Stays R O A Q s s0) (h : Stays R O A Q s t) (d : GNum) (hd : d ∈ gs) (i : Nat) (force : Bool)
    {k : State → State} (hk : ∀ u, Stays R O A Q s u → Stays R O A Q s (k u)) : Stays R O A Q s (s0.writeBack t d i force k) := by
  unfold State.writeBack
  split
  · exact hk t h
  · split
    · exact hk t h
    · unfold State.withHomeOf
      dsimp only
      split
      · exact h0.putG hR _ _ _ hd
      · split
        next hspan =>
          have hv := h.looks (State.span_looked hspan)
          split
          · exact h0.trap hR _
          next hp =>
            refine hk _ (Stays.cl (Stays.core (Stays.setClk hR ?_ _) _ _) _ rfl rfl)
            exact putParts hA _ _ _ _ _ _ (hv.core _ _) hp
        next => exact h0.failSpan hR d hd _ _

theorem writeBacks {s0 : State} (h0 : Stays R O A Q s s0) (d : GNum) (hd : d ∈ gs) {k : State → State}
    (hk : ∀ u, Stays R O A Q s u → Stays R O A Q s (k u)) :
    ∀ (l : List Nat) (t : State), Stays R O A Q s t → Stays R O A Q s (s0.writeBacks t d k l)
  | [], t, h => hk t h
  | i :: r, t, h => h0.writeBack hA hR h d hd i false fun u hu => writeBacks h0 d hd hk r u hu

end

end Stays

/-! ### Special registers -/

/-- What CSTAT settles changes no memory. -/
theorem State.settleLags_mem (s : State) (core : CoreId) : (s.settleLags core).mem = s.mem := by
  have step : ∀ (n : Nat) (l : List CtxId) (z : State), (l.foldl (fun s c => s.updCtx c fun x =>
      { x with lag := x.lag && Config.freeBool (n + (numOf c).val) }) z).mem = z.mem := by
    intro n l
    induction l with
    | nil => exact fun _ => rfl
    | cons c l ih => exact fun z => (ih _).trans rfl
  exact step _ _ _

theorem srd_frame (d : GNum) (num : BitVec 16) (h : exec (.srd d num) s = .next t) :
    (OwnKept s t [d] [] [] ∨ num = 0x8004 ∧ OwnKept (s.settleLags (coreOf s.cur)) t [d] [] []) ∧ ∀ x, t.byte x = s.byte x := by
  injection h with h
  subst h
  have run : ∀ u : State, Stays (CtxKept u.ctx · [d] [] []) (Same u) (fun _ => False) u.queuedNext u
      (match u.special num.toNat with
        | none => u.trap 0x01
        | some v => u.putG 4 d v) := by
    intro u
    split
    · exact (stays_only u [d]).trap (lets_kept _ _) _
    · exact (stays_only u [d]).putG (lets_kept _ _) _ _ _ (List.mem_singleton_self d)
  unfold State.specialPriv
  split
  · exact ⟨.inl ((stays_only s [d]).trap (lets_kept _ _) 0x03).only.1, ((stays_only s [d]).trap (lets_kept _ _) 0x03).only.2⟩
  · dsimp only
    by_cases hn : num = 0x8004
    · rw [if_pos hn]
      obtain ⟨hown, hbytes⟩ := (run (s.settleLags (coreOf s.cur))).only
      refine ⟨.inr ⟨hn, hown⟩, fun x => (hbytes x).trans ?_⟩
      simp only [State.byte, State.settleLags_mem]
    · rw [if_neg hn]
      obtain ⟨hown, hbytes⟩ := (run s).only
      exact ⟨.inl hown, hbytes⟩

/-- What `swr` leaves of the contexts: of the one that CSEL names PC and REPIDX may change. -/
def Spared (s : State) (c : CtxId) (y : Ctx) : Prop :=
  { y with pc := 0, repidx := 0 } = { s.getCtx c with pc := 0, repidx := 0 } ∧ (y = s.getCtx c ∨ c = s.selected)

/-- CPC and CREPX change PC and REPIDX of the selected context alone. -/
theorem Stays.writeSelected (h : Stays (CtxKept s.ctx · [] [] []) (Spared s) A Q s t) (ht : t.selected = s.selected) (f : Ctx → Ctx)
    (hf : ∀ y, CtxKept y (f y) [] [] [] ∧ { f y with pc := 0, repidx := 0 } = { y with pc := 0, repidx := 0 }) :
    Stays (CtxKept s.ctx · [] [] []) (Spared s) A Q s (t.writeSelected f) := by
  unfold State.writeSelected
  dsimp only
  split
  · refine h.updCtx _ f (fun _ hy => hy.trans (hf _).1) fun _ hy => ?_
    exact ⟨(hf _).2.trans hy.1, .inr ht⟩
  · exact h

theorem Stays.writeSpecial (h : Stays (CtxKept s.ctx · [] [] []) (Spared s) A Q s t) (ht : t.selected = s.selected) (num : Nat) (v : Word)
    (hu : t.writeSpecial num v = some u) : Stays (CtxKept s.ctx · [] [] []) (Spared s) A Q s u := by
  unfold State.writeSpecial at hu
  split at hu
  · cases hu
    exact h.same rfl rfl rfl rfl rfl rfl
  · cases hu
    exact h.writeSelected ht _ fun _ => ⟨CtxKept.of_eq rfl, rfl⟩
  · cases hu
    exact h.writeSelected ht _ fun _ => ⟨CtxKept.of_eq rfl, rfl⟩
  · cases hu
    unfold State.writeSaveadv
    split
    · split
      · exact h
      · exact h.same rfl rfl rfl rfl rfl rfl
    · exact h
  · unfold State.writePlain at hu
    split at hu <;> cases hu
    · exact h.move (lets_kept _ _) _ (CtxKept.of_eq rfl)
    all_goals exact h.same rfl rfl rfl rfl rfl rfl

theorem swr_frame (d : GNum) (num : BitVec 16) (h : exec (.swr d num) s = .next t) :
    CtxKept s.ctx t.ctx [] [] [] ∧ (∀ x, t.byte x = s.byte x) ∧
      ∀ c, c ≠ s.cur → { t.getCtx c with pc := 0, repidx := 0 } = { s.getCtx c with pc := 0, repidx := 0 } ∧
        (t.getCtx c = s.getCtx c ∨ c = ctxOf (coreOf s.cur) s.core.csel) := by
  injection h with h
  subst h
  have hR := lets_kept s.ctx []
  have h0 : Stays (CtxKept s.ctx · [] [] []) (Spared s) (fun _ => False) s.queuedNext s s :=
    Stays.refl (CtxKept.refl _ _ _ _) fun _ => ⟨rfl, .inl rfl⟩
  have key := h0.specialPriv hR num (k := fun s => s.srcG false d fun v s =>
    match s.writeSpecial num.toNat v with
    | none => s.trap 0x01
    | some s => s.finish 4) (s.srcG_cases (Stays _ _ _ _ s) false d _ (fun v l => ?_)
      (fun _ _ _ _ => h0.trapAux hR _ _ _ _) fun _ => h0.block hR _)
  · exact ⟨key.own, fun x => key.bytes x id, key.others⟩
  · split
    · exact (h0.taint _).trap hR _
    next hw => exact ((h0.taint (s.taint ++ l)).writeSpecial rfl num.toNat v hw).finish hR 4

/-! ### Calendar items, tiles, direct matrix instructions -/

/-- What every proof of a frame of the own registers begins with. -/
theorem only_of {i : Instr} (hi : exec i s = .next u) (hu : Stays (CtxKept s.ctx · gs [] []) (Same s) (fun _ => False) s.queuedNext s u)
    (h : exec i s = .next t) : OwnKept s t gs [] [] ∧ ∀ x, t.byte x = s.byte x := by
  have e : u = t := by simpa [hi] using h
  exact e ▸ hu.only

theorem calrd_frame (d : GNum) (item : BitVec 10) (h : exec (.calrd d item) s = .next t) :
    OwnKept s t [d] [] [] ∧ ∀ x, t.byte x = s.byte x := by
  refine only_of rfl ?_ h
  have hl : Stays (CtxKept s.ctx · [d] [] []) (Same s) (fun _ => False) s.queuedNext s s.readLeft.2 := by
    unfold State.readLeft
    dsimp only
    split
    · exact stays_only s [d]
    · exact (stays_only s [d]).same rfl rfl rfl rfl rfl rfl
  exact hl.putG (lets_kept _ _) _ _ _ (List.mem_singleton_self d)

theorem Stays.taintT (h : Stays R O A Q s t) (r : TNum) : Stays R O A Q s (t.taintT r) := h.same rfl rfl rfl rfl rfl rfl

theorem tgetW0_frame (d : GNum) (r : TNum) (h : exec (.tgetW0 d r) s = .next t) : OwnKept s t [d] [] [] ∧ ∀ x, t.byte x = s.byte x :=
  only_of rfl (((stays_only s [d]).taintT r).putG (lets_kept _ _) _ _ _ (List.mem_singleton_self d)) h

theorem tgetW1_frame (d : GNum) (r : TNum) (h : exec (.tgetW1 d r) s = .next t) : OwnKept s t [d] [] [] ∧ ∀ x, t.byte x = s.byte x :=
  only_of rfl (((stays_only s [d]).taintT r).putG (lets_kept _ _) _ _ _ (List.mem_singleton_self d)) h

/-- A tile register with its link tags, as a change of a context. -/
def putTile (r : TNum) (p : TWord × List Nat) (x : Ctx) : Ctx := { x with t := x.t.set r p.1, tu := x.tu.set r p.2 }
/-- The sparsity latch, as a change of a context. -/
def putLatch (l : SparsityLatch) (x : Ctx) : Ctx := { x with spl := l }

theorem putTile_self (x : Ctx) (r : TNum) : putTile r (x.t[r], x.tu[r]) x = x := by
  unfold putTile
  simp only [Fin.getElem_fin, Vector.set_getElem_self]

theorem tset_frame (a b : GNum) (fa fb : Bool) (r : TNum) (h : exec (.tset a b fa fb r) s = .next t) :
    (∃ w l, OwnKept (s.upd fun x => { x with t := x.t.set r w, tu := x.tu.set r l }) t [] [] []) ∧ ∀ x, t.byte x = s.byte x := by
  injection h with h
  subst h
  have hR := lets_mended s [] (putTile r)
  have h0 := stays_mended (A := fun _ => False) s [] (putTile r) _ (putTile_self s.ctx r)
  suffices key : Stays (Mended s [] (putTile r)) (Same s) (fun _ => False) s.queuedNext s (s.srcG fa a fun w0 s => s.srcG fb b fun w1 s =>
      s.withTile (w1 ++ w0) fun _ s =>
        (s.upd fun x => { x.mend (3 * r.val + 1) with t := x.t.set r (w1 ++ w0), tu := x.tu.set r s.taint }).finish 4) by
    obtain ⟨⟨p, hp⟩, hbytes⟩ := key.mended
    exact ⟨⟨p.1, p.2, hp⟩, hbytes⟩
  refine h0.srcG hR fa a fun w0 u hu => hu.srcG hR fb b fun w1 v hv => hv.withTile hR (w1 ++ w0) fun _ => ?_
  refine (hv.upd _ fun hy => ?_).finish hR 4
  obtain ⟨p, hp⟩ := hy
  refine ⟨(w1 ++ w0, v.taint), ⟨hp.g, hp.v, hp.k, ⟨?_, ?_⟩, hp.e, hp.tl, hp.spl, hp.ids⟩⟩
  · show v.ctx.t.set r (w1 ++ w0) = s.ctx.t.set r (w1 ++ w0)
    rw [hp.t.1]
    exact Vector.set_set ..
  · show v.ctx.tu.set r v.taint = s.ctx.tu.set r v.taint
    rw [hp.t.2]
    exact Vector.set_set ..

/-- The latch set in the own context. -/
theorem mended_latch {y : Ctx} (l : SparsityLatch) (h : Mended s gs putLatch y) : Mended s gs putLatch { y with spl := l } := by
  obtain ⟨p, hp⟩ := h
  exact ⟨l, hp.g, hp.v, hp.k, hp.t, hp.e, hp.tl, rfl, hp.ids⟩

theorem stays_latch (s : State) : Stays (Mended s [] putLatch) (Same s) (fun _ => False) s.queuedNext s s :=
  stays_mended s [] putLatch s.ctx.spl rfl

/-- The end of a proof that the latch alone may have changed. -/
theorem latch_of {i : Instr} (hi : exec i s = .next u) (hu : Stays (Mended s [] putLatch) (Same s) (fun _ => False) s.queuedNext s u)
    (h : exec i s = .next t) : (∃ l, OwnKept (s.upd fun x => { x with spl := l }) t [] [] []) ∧ ∀ x, t.byte x = s.byte x := by
  have e : u = t := by simpa [hi] using h
  exact e ▸ hu.mended

theorem mmeta_frame (a : GNum) (fa : Bool) (r : TNum) (h : exec (.mmeta a fa r) s = .next t) :
    (∃ l, OwnKept (s.upd fun x => { x with spl := l }) t [] [] []) ∧ ∀ x, t.byte x = s.byte x := by
  have hR := lets_mended s [] putLatch
  refine latch_of rfl ((stays_latch s).srcG hR fa a fun w u hu => ?_) h
  split
  · exact hu.trap hR _
  · refine (hu.taintT r).withTile hR _ fun m => ?_
    split
    · exact (hu.taintT r).trap hR _
    · refine (hu.taintT r).tilesAllowed hR _ _ ?_
      exact ((hu.taintT r).upd _ (mended_latch _)).finish hR 4

theorem load_frame (tr : Bool) (r : TNum) {i : Instr} (hi : exec i s = sendLoad tr r s) (h : exec i s = .next t) :
    (∃ l, OwnKept (s.upd fun x => { x with spl := l }) t [] [] []) ∧ ∀ x, t.byte x = s.byte x := by
  have hR := lets_mended s [] putLatch
  have h0 := (stays_latch s).taintT r
  refine latch_of hi (h0.checked hR ?_) h
  exact h0.directChecks hR _ _ _ _ (h0.sendDirect hR _ _ _ _ _ _ fun y => mended_latch _)

theorem mswap_frame (h : exec .mswap s = .next t) : OwnKept s t [] [] [] ∧ ∀ x, t.byte x = s.byte x :=
  have hR := lets_kept s.ctx []
  only_of rfl ((stays_only s []).checked hR ((stays_only s []).sendDirect hR _ _ _ _ _ _ fun _ hy => hy)) h

theorem mstream_frame (a : GNum) (fa : Bool) (r : TNum) (h : exec (.mstream a fa r) s = .next t) :
    OwnKept s t [] [] [] ∧ ∀ x, t.byte x = s.byte x := by
  have hR := lets_kept s.ctx []
  refine only_of rfl ((stays_only s []).srcG hR fa a fun w u hu => (hu.taintT r).checked hR ?_) h
  split
  · exact (hu.taintT r).trap hR _
  · exact (hu.taintT r).directChecks hR _ _ _ _ ((hu.taintT r).sendDirect hR _ _ _ _ _ _ fun _ hy => hy)

theorem mzero_frame (a : GNum) (fa : Bool) (h : exec (.mzero a fa) s = .next t) : OwnKept s t [] [] [] ∧ ∀ x, t.byte x = s.byte x := by
  have hR := lets_kept s.ctx []
  refine only_of rfl ((stays_only s []).srcG hR fa a fun w u hu => hu.checked hR ?_) h
  split
  · exact hu.trap hR _
  · exact hu.sendDirect hR _ _ _ _ _ _ fun _ hy => hy

theorem mcvt_frame (a b : GNum) (fa fb : Bool) (r : TNum) (h : exec (.mcvt a b fa fb r) s = .next t) :
    OwnKept s t [] [] [] ∧ ∀ x, t.byte x = s.byte x := by
  have hR := lets_kept s.ctx []
  refine only_of rfl ((stays_only s []).srcG hR fa a fun w u hu => hu.srcG hR fb b fun f v hv => (hv.taintT r).checked hR ?_) h
  have hk := hv.taintT r
  dsimp only
  split
  · exact hk.trap hR _
  split
  · exact hk.trap hR _
  split
  · exact hk.trapAux hR _ _ _ _
  split
  · exact hk.trap hR _
  split
  · exact hk.trap hR _
  refine hk.tilesAllowed hR _ _ (hk.sendDirect hR _ _ _ _ _ _ fun y hy => ?_)
  split
  · exact hy.trans (CtxKept.of_eq rfl)
  · exact hy

end Sys2Proof.Machine
/-!
SUPPORT. What system instructions leave unchanged (R185, R321 to R331).
-/
namespace Sys2Proof.Machine

variable {R : Ctx → Prop} {O : CtxId → Ctx → Prop} {A Q : Nat → Prop} {gs : List GNum} {s t u : State} {d : GNum}

/-- A context word that names a context that may be controlled does not name context 0, which moves (R320, R321). -/
theorem Stays.named_ne (h : Stays R O A Q s u) (hs : s.sup = true) {W : Word} (hb : ¬u.badCtx (u.named W) = true) : u.named W ≠ s.cur := by
  intro e
  have h0 : numOf (u.named W) = 0 := by
    rw [e]
    exact of_decide_eq_true hs
  exact hb (by rw [State.badCtx, h0]; rfl)

/-- Nothing is said of the other contexts. -/
abbrev Alone (d : GNum) (s : State) (A : Nat → Prop) (t : State) : Prop :=
  Stays (CtxKept s.ctx · [d] [] []) (fun _ _ => True) A s.queuedNext s t

/-- Every other context is as before. -/
abbrev Own (d : GNum) (s : State) (A : Nat → Prop) (t : State) : Prop :=
  Stays (CtxKept s.ctx · [d] [] []) (Same s) A s.queuedNext s t

/-- The end of a proof about the own context and memory. -/
theorem alone_of {i : Instr} (hi : exec i s = .next u) (hu : Alone d s (fun _ => False) u) (h : exec i s = .next t) :
    CtxKept s.ctx t.ctx [d] [] [] ∧ ∀ x, t.byte x = s.byte x := by
  have e : u = t := by simpa [hi] using h
  exact e ▸ ⟨hu.own, fun x => hu.bytes x id⟩

namespace Alone

theorem putG (h : Alone d s A t) (n : Nat) (v : Word) : Alone d s A (t.putG n d v) :=
  Stays.putG (lets_kept _ _) h _ _ _ (List.mem_singleton_self d)

/-- Another context changed. -/
theorem other (h : Alone d s A t) {c : CtxId} (hc : c ≠ s.cur) (f : Ctx → Ctx) : Alone d s A (t.updCtx c f) :=
  h.updCtx c f (fun e => absurd e hc) fun _ _ => trivial

end Alone

section
variable {a b : GNum} {fa fb : Bool}

theorem cstart_frame (h : exec (.cstart d a fa) s = .next t) : CtxKept s.ctx t.ctx [d] [] [] ∧ ∀ x, t.byte x = s.byte x := by
  have hR := lets_kept s.ctx [d]
  refine alone_of rfl ((stays_alone s [d]).privSup hR fun hs => (stays_alone s [d]).srcG hR fa a fun W u hu => ?_) h
  dsimp only
  split
  · exact hu.putG hR 4 d 2 (List.mem_singleton_self d)
  next hb =>
    have hu : Alone d s _ u := hu
    split
    · exact hu.putG 4 1
    · refine Alone.putG (Alone.other ?_ (hu.named_ne hs hb) _) 4 0
      exact Stays.cl hu _ rfl rfl

theorem frame_rlarm (h : exec (.rlarm d a fa) s = .next t) : CtxKept s.ctx t.ctx [d] [] [] ∧ ∀ x, t.byte x = s.byte x := by
  have hR := lets_kept s.ctx [d]
  refine alone_of rfl ((stays_alone s [d]).privSup hR fun hs => (stays_alone s [d]).srcG hR fa a fun W u hu => ?_) h
  have hu : Alone d s _ u := hu
  dsimp only
  split
  · exact hu.putG 4 2
  next hb =>
    split
    · exact (hu.other (hu.named_ne hs hb) _).putG 4 0
    · exact hu.putG 4 1

theorem cstop_frame (h : exec (.cstop d a fa) s = .next t) : CtxKept s.ctx t.ctx [d] [] [] ∧ ∀ x, t.byte x = s.byte x := by
  have hR := lets_kept s.ctx [d]
  refine alone_of rfl ((stays_alone s [d]).privSup hR fun hs => (stays_alone s [d]).srcG hR fa a fun W u hu => ?_) h
  have hu : Alone d s _ u := hu
  dsimp only
  split
  · exact hu.putG 4 2
  next hb =>
    have hc := hu.named_ne hs hb
    have wait : Alone d s (fun _ => False) (((u.updCtx (u.named W) fun x => { x with stopReq := some .cstop, cstopped := false }).upd
        fun x => { x with begun := true }).block (.stopOf (u.named W))) :=
      Stays.block hR (Stays.begun hR (hu.other hc _)) _
    split
    · exact hu.putG 4 _
    · split
      · exact (hu.other hc _).putG 4 0
      · exact wait
      · split
        · exact wait
        · exact (Alone.other (Stays.abandonWait hu _ hc fun _ => trivial) hc _).putG 4 0
      · exact hu.putG 4 1

theorem prset_frame (h : exec (.prset d a b fa fb) s = .next t) : OwnKept s t [d] [] [] ∧ ∀ x, t.byte x = s.byte x := by
  have hR := lets_kept s.ctx [d]
  have hd := List.mem_singleton_self d
  refine only_of rfl ((stays_only s [d]).priv hR ((stays_only s [d]).srcG hR fa a fun W u hu => hu.srcG hR fb b fun w v hv => ?_)) h
  dsimp only
  split
  · exact hv.putG hR _ _ _ hd
  split
  · exact hv.putG hR _ _ _ hd
  split
  · exact hv.block hR _
  · exact Stays.putG hR (hv.cl _ rfl rfl) _ _ _ hd

theorem tinv_frame (h : exec (.tinv d a b fa fb) s = .next t) : OwnKept s t [d] [] [] ∧ ∀ x, t.byte x = s.byte x := by
  have hR := lets_kept s.ctx [d]
  have hd := List.mem_singleton_self d
  refine only_of rfl ((stays_only s [d]).priv hR ((stays_only s [d]).srcG hR fa a fun W u hu => hu.srcG hR fb b fun w v hv => ?_)) h
  dsimp only
  split
  · exact hv.putG hR _ _ _ hd
  split
  · exact hv.putG hR _ _ _ hd
  split
  · exact hv.putG hR _ _ _ hd
  · refine Stays.block hR (Stays.begun hR ?_) _
    have posts : ∀ (l : List TinvAgent) (z : State), Own d s (fun _ => False) z →
        Own d s (fun _ => False) (l.foldl (fun s g => s.postOnce (.tinvAcknowledge g)) z) := by
      intro l
      induction l with
      | nil => exact fun _ hz => hz
      | cons g l ih => exact fun z hz => ih _ (Stays.postOnce hz _)
    have hdrop : Own d s (fun _ => False) (v.dropTlb (bits w 0 2) W) := hv.same rfl rfl rfl rfl rfl rfl
    refine posts tinvAgents _ ?_
    exact hdrop.cl _ rfl rfl

theorem cinval_frame (h : exec (.cinval d a b fa fb) s = .next t) : OwnKept s t [d] [] [] ∧ ∀ x, t.byte x = s.byte x := by
  have hR := lets_kept s.ctx [d]
  have hd := List.mem_singleton_self d
  refine only_of rfl ((stays_only s [d]).priv hR ((stays_only s [d]).srcG hR fa a fun W u hu => hu.srcG hR fb b fun w v hv => ?_)) h
  have put : ∀ z x, Own d s (fun _ => False) z → Own d s (fun _ => False) (z.putG 4 d x) := fun z x hz => Stays.putG hR hz _ _ _ hd
  dsimp only
  split
  · refine put _ _ ?_
    exact hv.same rfl rfl rfl rfl rfl rfl
  · refine put _ _ ?_
    exact hv.same rfl rfl rfl rfl rfl rfl
  · refine put _ _ (Stays.cl (hv.core _ _) _ rfl rfl)
  · split
    · exact put _ _ hv
    · exact put _ _ (hv.core _ _)
  · exact put _ _ (hv.core _ _)
  · exact put _ _ hv

theorem polld_frame (h : exec (.polld d a b fa fb) s = .next t) : OwnKept s t [d] [] [] ∧ ∀ x, t.byte x = s.byte x := by
  have hR := lets_kept s.ctx [d]
  have hd := List.mem_singleton_self d
  refine only_of rfl ((stays_only s [d]).priv hR ((stays_only s [d]).srcG hR fa a fun W u hu => hu.srcG hR fb b fun w v hv => ?_)) h
  dsimp only
  split
  · exact hv.putG hR _ _ _ hd
  split
  · exact hv.putG hR _ _ _ hd
  split
  · exact hv.trapEa hR _ _
  · refine Stays.readSpan hR hv (fun z hz => ?_) _ _ hv
    split
    · exact hz.putG hR _ _ _ hd
    · exact Stays.putG hR (hz.cl _ rfl rfl) _ _ _ hd

theorem polsw_frame (h : exec (.polsw d a fa) s = .next t) : OwnKept s t [d] [] [] ∧ ∀ x, t.byte x = s.byte x := by
  have hR := lets_kept s.ctx [d]
  have hd := List.mem_singleton_self d
  refine only_of rfl ((stays_only s [d]).priv hR ((stays_only s [d]).srcG hR fa a fun W v hv => ?_)) h
  dsimp only
  split
  · exact hv.putG hR _ _ _ hd
  split
  · exact hv.putG hR _ _ _ hd
  · refine Stays.block hR (Stays.begun hR (Stays.postOnce ?_ _)) _
    exact hv.same rfl rfl rfl rfl rfl rfl

theorem cflush_frame (h : exec (.cflush d a b fa fb) s = .next t) : OwnKept s t [d] [] [] := by
  have hR := lets_kept s.ctx [d]
  have hd := List.mem_singleton_self d
  have h0 : Own d s (fun _ => True) s := stays_only s [d]
  injection h with h
  subst h
  suffices key : Own d s (fun _ => True) _ from ⟨key.cur, key.own, key.others⟩
  refine h0.priv hR (h0.srcG hR fa a fun W u hu => hu.srcG hR fb b fun w v hv => ?_)
  have done : ∀ z, Own d s (fun _ => True) z → Own d s (fun _ => True) (z.putG 4 d 0) := fun z hz => Stays.putG hR hz _ _ _ hd
  split
  · split
    · exact done v hv
    · exact Stays.writeBack (fun _ => trivial) hR hv hv d hd _ _ done
  · exact Stays.writeBacks (fun _ => trivial) hR hv d hd done _ _ hv
  · exact hv.putG hR _ _ _ hd

end

/-! ### `ctxld` and `ctxsv` -/

theorem Alone.homeBytes (h : Alone d s A t) (o : Nat) (parts : List (Nat × Nat × Nat)) : Alone d s A (t.homeBytes o parts).2 := by
  have step : ∀ (k : Nat) (l : List (CoreId × Nat × List Byte)) (p : List Byte × State), Alone d s A p.2 →
      Alone d s A (l.foldl (fun (l, s) w => let (n, s) := s.drawN k; (mixWords n l w.2.2, s)) p).2 := by
    intro k l
    induction l with
    | nil => exact fun _ h => h
    | cons w l ih =>
      rintro ⟨b, z⟩ h
      have hn : Alone d s A { z with draws := z.draws + k } := Stays.same h rfl rfl rfl rfl rfl rfl
      rw [List.foldl_cons]
      exact ih _ hn
  exact step 640 _ _ h

/-- A restore changes no context but the one named. -/
theorem Alone.restored (h : Alone d s A t) {c : CtxId} (hc : c ≠ s.cur) (l : List Byte) : Alone d s A (t.restored c l) := by
  have hd : Alone d s A { t with draws := t.draws + 3 } := h.same rfl rfl rfl rfl rfl rfl
  exact Stays.cl (hd.other hc _) _ rfl rfl

theorem Alone.restoreImage (h : Alone d s A t) {c : CtxId} (hc : c ≠ s.cur) (H : Word) (l : List Byte) (fromMem : Bool) :
    Alone d s A (t.restoreImage d H c l fromMem) := by
  unfold State.restoreImage
  split
  · exact h.putG 4 _
  · dsimp only
    split
    · exact (h.restored hc _).putG 4 0
    · exact Alone.putG (Stays.core (h.restored hc _) _ _) 4 0

theorem Alone.loadCtx (h : Alone d s A t) {c : CtxId} (hc : c ≠ s.cur) (H : Word) (parts : List (Nat × Nat × Nat)) :
    Alone d s A (t.loadCtx d H c parts) := by
  unfold State.loadCtx
  split
  · exact h.restoreImage hc _ _ _
  · exact Stays.readSpan (lets_kept _ _) h (fun u hu => (Alone.homeBytes hu _ _).restoreImage hc _ _ _) _ _ h

theorem ctxld_frame {a b : GNum} {fa fb : Bool} (h : exec (.ctxld d a b fa fb) s = .next t) :
    CtxKept s.ctx t.ctx [d] [] [] ∧ ∀ x, t.byte x = s.byte x := by
  have hR := lets_kept s.ctx [d]
  have h0 := stays_alone (A := fun _ => False) s [d]
  refine alone_of rfl (h0.privSup hR fun hs => h0.srcG hR fa a fun W u hu => hu.srcG hR fb b fun H v hv => ?_) h
  have hv : Alone d s _ v := hv
  show Alone d s _ (if v.badCtx (v.named W) then v.putG 4 d 2 else if (v.getCtx (v.named W)).st ≠ .idle then v.putG 4 d 1
    else v.withHome d H (State.loadCtx d H (v.named W)))
  split
  · exact hv.putG 4 2
  next hb =>
    split
    · exact hv.putG 4 1
    · exact Stays.withHome hR hv d (List.mem_singleton_self d) H fun parts w _ hw => Alone.loadCtx hw (hv.named_ne hs hb) H parts

theorem Alone.saveInto (h : Alone d s A t) {c : CtxId} (hc : c ≠ s.cur) (H : Word) (img : List Byte) (i : Nat) :
    Alone d s A (t.saveInto d H c img i) := by
  refine Alone.putG (Stays.toIdle ?_ c (fun e => absurd e hc) fun _ _ _ => trivial) 4 0
  unfold State.tieRecord
  dsimp only
  split
  · exact Stays.core h _ _
  · exact Stays.cl (Stays.core h _ _) _ rfl rfl

/-- A save writes memory only where every entry is taken and none has the home. -/
theorem Alone.saveCtx (h : Alone d s A t) {c : CtxId} (hc : c ≠ s.cur) (H : Word)
    (hA : t.tccFind H = none → (∀ i, i < 8 → t.tcc.getD i none ≠ none) → ∀ a, A a) : Alone d s A (t.saveCtx d H c) := by
  have hR := lets_kept s.ctx [d]
  unfold State.saveCtx
  dsimp only
  split
  · exact Stays.block hR h _
  split
  · exact Stays.trapAt (h.putG 4 1) c _ _ _ _ _ hc fun _ => trivial
  generalize hu : t.updCtx c _ = u
  have hk : Alone d s A u := hu ▸ h.other hc _
  have hfind : u.tccFind H = t.tccFind H := hu ▸ rfl
  have htcc : u.tcc = t.tcc := hu ▸ rfl
  split
  · exact hk.saveInto hc _ _ _
  next hnone =>
    split
    · exact hk.saveInto hc _ _ _
    next hfull =>
      have full : ∀ i, i < 8 → t.tcc.getD i none ≠ none := fun i hi hn => by
        have := List.find?_eq_none.mp hfull i (List.mem_range.mpr hi)
        rw [htcc, hn] at this
        exact this rfl
      exact Stays.writeBack (hA (hfind ▸ hnone) full) hR hk hk d (List.mem_singleton_self d) _ _ fun v hv => Alone.saveInto hv hc _ _ _

theorem ctxsv_frame {a b : GNum} {fa fb : Bool} (h : exec (.ctxsv d a b fa fb) s = .next t) :
    CtxKept s.ctx t.ctx [d] [] [] ∧
      ((∀ x, t.byte x = s.byte x) ∨ s.tccFind (s.gVal b) = none ∧ ∀ i, i < 8 → s.tcc.getD i none ≠ none) := by
  injection h with h
  subst h
  have hR := lets_kept s.ctx [d]
  let evicts : Prop := s.tccFind (s.gVal b) = none ∧ ∀ i, i < 8 → s.tcc.getD i none ≠ none
  have h0 : Alone d s (fun _ => evicts) s := stays_alone s [d]
  suffices key : Alone d s (fun _ => evicts) _ by
    refine ⟨key.own, ?_⟩
    by_cases he : evicts
    · exact .inr he
    · exact .inl fun x => key.bytes x he
  refine h0.privSup hR fun hs => s.srcG_read fa a _ (fun l => ?_) (fun _ _ _ _ => h0.trapAux hR _ _ _ _) fun _ => h0.block hR _
  have h1 : Alone d s (fun _ => evicts) (s.tainted l s.hurt) := h0.same rfl rfl rfl rfl rfl rfl
  refine (s.tainted l s.hurt).srcG_read fb b _ (fun l' => ?_) (fun _ _ _ _ => h1.trapAux hR _ _ _ _) fun _ => h1.block hR _
  have hv : Alone d s (fun _ => evicts) ((s.tainted l s.hurt).tainted l' s.hurt) := h1.same rfl rfl rfl rfl rfl rfl
  dsimp only
  split
  · exact hv.putG 4 2
  next hb =>
    split
    · exact hv.putG 4 1
    · refine Stays.withHome hR hv d (List.mem_singleton_self d) _ (k := fun _ => State.saveCtx d (s.gVal b) (s.named (s.gVal a)))
        fun _ w hw hlook => Alone.saveCtx hlook (h0.named_ne hs hb) _ ?_
      obtain ⟨x, n, rfl⟩ := hw
      exact fun hn hf _ => ⟨hn, hf⟩

/-! ### `tret` -/

/-- The g, v and k registers of the moving context. -/
def Held (s : State) (y : Ctx) : Prop := y.g = s.ctx.g ∧ y.v = s.ctx.v ∧ y.k = s.ctx.k

theorem lets_held (s : State) : Lets (Held s) [] := by
  rintro y z ⟨hg, hv, hk⟩ h
  refine ⟨Eq.trans ?_ hg, Eq.trans ?_ hv, Eq.trans ?_ hk⟩
  · exact Vector.ext fun i hi => h.g ⟨i, hi⟩ (List.not_mem_nil)
  · exact Vector.ext fun i hi => h.v ⟨i, hi⟩ (List.not_mem_nil)
  · exact Vector.ext fun i hi => (h.k ⟨i, hi⟩ (List.not_mem_nil)).1

/-- What a return from the handler may have changed so far. -/
abbrev Returns (s t : State) : Prop := Stays (Held s) (fun _ _ => True) (fun _ => False) s.queuedNext s t

namespace Returns

/-- A context changed in nothing that registers hold. -/
theorem moved (h : Returns s t) (c : CtxId) (f : Ctx → Ctx) (hf : ∀ y, Held s y → Held s (f y)) : Returns s (t.updCtx c f) :=
  h.updCtx c f (fun _ => hf _) fun _ _ => trivial

theorem parcelAt (h : Returns s t) (key : Nat) : Returns s (t.parcelAt key).2 := by
  unfold State.parcelAt
  dsimp only
  split
  · exact h
  · exact h.same rfl rfl rfl rfl rfl rfl

theorem parcelOf (h : Returns s t) (c : CtxId) (pc : BitVec 48) {k : Option Nat → State → State} (hk : ∀ p u, Returns s u → Returns s (k p u)) :
    Returns s (t.parcelOf c pc k) := by
  have hR := lets_held s
  unfold State.parcelOf
  have ha := Stays.access h (coreOf c).val (decide (numOf c = 0)) .fx pc.toNat 2
  split
  next key u e =>
    rw [e] at ha
    exact hk _ _ (Returns.parcelAt ha key)
  next key u e =>
    rw [e] at ha
    split
    · exact hk _ _ ha
    · exact Stays.blockMig hR (Stays.begun hR ha) _
  next u _ _ e =>
    rw [e] at ha
    exact hk _ _ ha

theorem stepPast (h : Returns s t) (c : CtxId) {k : State → State} (hk : ∀ u, Returns s u → Returns s (k u)) : Returns s (t.stepPast c k) := by
  unfold State.stepPast
  refine h.parcelOf c _ fun p u hu => ?_
  split
  · split
    · exact hk _ (hu.moved c _ fun _ hy => hy)
    · exact hu.parcelOf c _ fun q v hv => hk _ (hv.moved c _ fun _ hy => hy)
  · exact hk _ (hu.moved c _ fun _ hy => hy)

theorem handlerReturn (h : Returns s t) : Returns s t.handlerReturn := by
  have hR := lets_held s
  have hm := Stays.move hR (Stays.core h (coreOf t.cur) fun k => { k with hnd := false })
    (fun x => { x with pc := t.core.sepc, repidx := t.core.srep }.boundary) (CtxKept.boundary (by exact CtxKept.of_eq rfl))
  exact hm.same rfl rfl rfl rfl rfl rfl

end Returns

theorem tret_frame {a : GNum} {fa : Bool} (h : exec (.tret a fa) s = .next t) (hs : s.sup = true) (ha : s.gOk a)
    (hA : (s.gVal a).toNat % 4 ≠ 2) : t.ctx.g = s.ctx.g ∧ t.ctx.v = s.ctx.v ∧ t.ctx.k = s.ctx.k ∧ ∀ x, t.byte x = s.byte x := by
  have hR := lets_held s
  injection h with h
  subst h
  suffices key : Returns s _ from ⟨key.own.1, key.own.2.1, key.own.2.2, fun x => key.bytes x id⟩
  rw [State.priv, if_pos hs, s.srcG_ok _ _ _ ha]
  have hr : Returns s (s.reads [a]) := Stays.same (Stays.refl ⟨rfl, rfl, rfl⟩ fun _ => trivial) rfl rfl rfl rfl rfl rfl
  split
  · exact hr.trap hR _
  dsimp only
  split
  · exact hr.handlerReturn
  have adv : ∀ k : State → State, (∀ u, Returns s u → Returns s (k u)) → Returns s
      (if bits (s.gVal a) 2 1 = 1 then (s.reads [a]).stepPast (ctxOf (coreOf (s.reads [a]).cur)
        (Fin.ofNat 16 (bits (s.reads [a]).core.trec[0] 52 4))) k else k (s.reads [a])) := fun k hk => by
    split
    · exact hr.stepPast _ hk
    · exact hk _ hr
  split
  · exact adv _ fun u hu => (hu.moved _ (fun x => { x with st := .ready }) fun _ hy => hy).handlerReturn
  · exact adv _ fun u hu => (hu.moved _ (fun x => { x with st := .stopped }) fun _ hy => hy).handlerReturn
  next h2 => exact absurd (by simpa [bits] using h2) hA
  · exact adv _ fun u hu => hu.handlerReturn

/-- Settles O39: the frame of each instruction, from what its operations leave alone. -/
theorem systemFrame : Obligations.SystemFrame := by
  unfold Obligations.SystemFrame
  refine ⟨fun s t d a b fa fb r num item => ?_, fun s t d a b fa fb => ?_⟩
  · exact ⟨srd_frame d num, swr_frame d num, calrd_frame d item, tgetW0_frame d r, tgetW1_frame d r, tset_frame a b fa fb r,
      mmeta_frame a fa r, load_frame false r rfl, load_frame true r rfl, mswap_frame, mstream_frame a fa r, mzero_frame a fa,
      mcvt_frame a b fa fb r⟩
  · exact ⟨cstart_frame, cstop_frame, frame_rlarm, prset_frame, tinv_frame, cinval_frame, polld_frame, polsw_frame, ctxld_frame,
      ctxsv_frame, cflush_frame, tret_frame⟩

end Sys2Proof.Machine
/-!
SUPPORT. What timelines, extension registers, watches, waits on groups, transfers and the forms that suspend leave unchanged (R185, R190).
-/
namespace Sys2Proof.Machine

variable {R : Ctx → Prop} {O : CtxId → Ctx → Prop} {A Q : Nat → Prop} {gs : List GNum} {s t u : State} {d a b : GNum} {fa fb : Bool}

/-! ### Timelines -/

/-- The timelines, as a change of a context. -/
def putTimelines (l : Vector Timeline 4) (x : Ctx) : Ctx := { x with tl := l }

/-- Timelines set in the own context. -/
theorem mended_timelines {y : Ctx} (l : Vector Timeline 4) (h : Mended s gs putTimelines y) : Mended s gs putTimelines { y with tl := l } := by
  obtain ⟨p, hp⟩ := h
  exact ⟨l, hp.g, hp.v, hp.k, hp.t, hp.e, rfl, hp.spl, hp.ids⟩

theorem stays_timelines (s : State) (gs : List GNum) : Stays (Mended s gs putTimelines) (Same s) (fun _ => False) s.queuedNext s s :=
  stays_mended s gs putTimelines s.ctx.tl rfl

/-- The end of a proof that timelines may have changed beside the listed registers. -/
theorem timed_of {i : Instr} (hi : exec i s = .next u) (hu : Stays (Mended s gs putTimelines) (Same s) (fun _ => False) s.queuedNext s u)
    (h : exec i s = .next t) : (∃ l, OwnKept (s.upd fun x => { x with tl := l }) t gs [] []) ∧ ∀ x, t.byte x = s.byte x := by
  have e : u = t := by simpa [hi] using h
  exact e ▸ hu.mended

/-- What a satisfied wait or test changes. -/
theorem Stays.tlTake (h : Stays (Mended s gs putTimelines) O A Q s t) (waits : Bool) (tl : TLNum) (n : Nat) {k : State → State}
    (hk : ∀ u, Stays (Mended s gs putTimelines) O A Q s u → Stays (Mended s gs putTimelines) O A Q s (k u)) :
    Stays (Mended s gs putTimelines) O A Q s (t.tlTake waits tl n k) := by
  have hR := lets_mended s gs putTimelines
  have hr := h.raiseClk hR ((t.ctx.tl[tl]).timeAt n)
  unfold State.tlTake
  dsimp only
  split
  · exact Stays.trap hR (hr.move hR (fun x => { x with clkTrap := false }) (CtxKept.of_eq rfl)) _
  split
  · exact Stays.trapAux hR (hr.upd _ (mended_timelines _)) _ _ _ _
  · exact hk _ hr

theorem tlwait_frame (l : TLNum) (h : exec (.tlwait d l) s = .next t) :
    (∃ l, OwnKept (s.upd fun x => { x with tl := l }) t [] [] []) ∧ ∀ x, t.byte x = s.byte x := by
  have hR := lets_mended s [] putTimelines
  refine timed_of rfl ((stays_timelines s []).srcG hR false d fun n u hu => ?_) h
  split
  · exact hu.trap hR _
  split
  · exact hu.block hR _
  · exact hu.tlTake _ _ _ fun v hv => hv.finish hR 4

theorem tltest_frame (l : TLNum) (h : exec (.tltest d l) s = .next t) :
    (∃ l, OwnKept (s.upd fun x => { x with tl := l }) t [d] [] []) ∧ ∀ x, t.byte x = s.byte x := by
  have hR := lets_mended s [d] putTimelines
  have hd := List.mem_singleton_self d
  refine timed_of rfl ((stays_timelines s [d]).srcG hR false d fun n u hu => ?_) h
  split
  · exact hu.trap hR _
  split
  · exact hu.putG hR _ _ _ hd
  · exact hu.tlTake _ _ _ fun v hv => hv.putG hR _ _ _ hd

theorem tlerr_frame (l : TLNum) (h : exec (.tlerr d l) s = .next t) :
    (∃ l, OwnKept (s.upd fun x => { x with tl := l }) t [d] [] []) ∧ ∀ x, t.byte x = s.byte x :=
  timed_of rfl (((stays_timelines s [d]).upd _ (mended_timelines _)).putG (lets_mended s [d] putTimelines) _ _ _
    (List.mem_singleton_self d)) h

/-! ### Transfers -/

/-- The checks of a transfer and its issue. -/
theorem Stays.issueCopy (h : Stays (Mended s gs putTimelines) O A Q s t) (x : Transfer) (W V : Word) (tl : TLNum) (inc : Nat) :
    Stays (Mended s gs putTimelines) O A Q s (t.issueCopy x W V tl inc) := by
  have hR := lets_mended s gs putTimelines
  unfold State.issueCopy
  dsimp only
  have past : ∀ {c : Prop} [Decidable c] {x y : State}, Stays (Mended s gs putTimelines) O A Q s x →
      Stays (Mended s gs putTimelines) O A Q s y → Stays (Mended s gs putTimelines) O A Q s (if c then x else y) :=
    fun hx hy => iteInduction (fun _ => hx) fun _ => hy
  iterate 4 refine past (h.trap hR _) ?_
  iterate 5 refine past (h.trapEa hR _ _) ?_
  iterate 3 refine past (h.trap hR _) ?_
  refine past (h.trapEa hR _ _) (past (h.trap hR _) (past (h.block hR _) ?_))
  refine Stays.finish hR (Stays.markAtomic hR (Stays.upd ?_ _ (mended_timelines _))) 4
  exact h.same rfl rfl rfl rfl rfl rfl

/-- A source of a transfer, where it has one. -/
def State.srcSome (s : State) (r : Option (GNum × Bool)) (k : Word → State → State) : State :=
  match r with
  | none => k 0 s
  | some (r, f) => s.srcG f r k

theorem Stays.srcSome (hR : Lets R gs) (h : Stays R O A Q s t) (r : Option (GNum × Bool)) {k : Word → State → State}
    (hk : ∀ v u, Stays R O A Q s u → Stays R O A Q s (k v u)) :
    Stays R O A Q s (t.srcSome r k) := by
  cases r with
  | none => exact hk 0 t h
  | some p => exact h.srcG hR p.2 p.1 hk

theorem transfer_frame {i : Instr} (kind : CopyKind) (p q : Option (GNum × Bool)) (r : Option GNum) (e : ENum)
    (hi : exec i s = transfer kind p q r e s) (h : exec i s = .next t) :
    (∃ l, OwnKept (s.upd fun x => { x with tl := l }) t [] [] []) ∧ ∀ x, t.byte x = s.byte x := by
  have hR := lets_mended s [] putTimelines
  have hx : exec i s = .next (s.srcSome p fun A s => s.srcSome q fun B s => s.srcSome (r.map fun r => (r, false)) fun g s => s.checked fun s =>
      (s.touch (3 * e.val + 2)).issueCopy (transferOf kind s.ctx.e[e] g) A B (Fin.ofNat 4 (bits s.ctx.e[e] 54 2)) (bits s.ctx.e[e] 37 16)) := hi
  refine timed_of hx (Stays.srcSome hR (stays_timelines s []) p fun W u hu => Stays.srcSome hR hu q fun V v hv =>
    Stays.srcSome hR hv (r.map fun r => (r, false)) fun g w hw => hw.checked hR (Stays.issueCopy ?_ _ _ _ _ _)) h
  exact hw.same rfl rfl rfl rfl rfl rfl

/-! ### Reads of timelines, extension registers -/

theorem tlrd_frame (l : TLNum) (h : exec (.tlrd d l) s = .next t) : OwnKept s t [d] [] [] ∧ ∀ x, t.byte x = s.byte x :=
  only_of rfl ((stays_only s [d]).putG (lets_kept _ _) _ _ _ (List.mem_singleton_self d)) h

theorem tlhigh_frame (l : TLNum) (h : exec (.tlhigh d l) s = .next t) : OwnKept s t [d] [] [] ∧ ∀ x, t.byte x = s.byte x :=
  only_of rfl ((stays_only s [d]).putG (lets_kept _ _) _ _ _ (List.mem_singleton_self d)) h

theorem erd_frame (e : ENum) (h : exec (.erd d e) s = .next t) : OwnKept s t [d] [] [] ∧ ∀ x, t.byte x = s.byte x := by
  have ht : Own d s (fun _ => False) (s.taintE e) := (stays_only s [d]).same rfl rfl rfl rfl rfl rfl
  exact only_of rfl (Stays.putG (lets_kept _ _) ht _ _ _ (List.mem_singleton_self d)) h

/-- An extension register with its link tags, as a change of a context. -/
def putExt (e : ENum) (p : Word × List Nat) (x : Ctx) : Ctx := { x with e := x.e.set e p.1, eu := x.eu.set e p.2 }

theorem putExt_self (x : Ctx) (e : ENum) : putExt e (x.e[e], x.eu[e]) x = x := by
  unfold putExt
  simp only [Fin.getElem_fin, Vector.set_getElem_self]

theorem ewr_frame (e : ENum) (h : exec (.ewr d e) s = .next t) :
    (∃ v w, OwnKept (s.upd fun x => { x with e := x.e.set e v, eu := x.eu.set e w }) t [] [] []) ∧ ∀ x, t.byte x = s.byte x := by
  injection h with h
  subst h
  have hR := lets_mended s [] (putExt e)
  have h0 := stays_mended (A := fun _ => False) s [] (putExt e) _ (putExt_self s.ctx e)
  suffices key : Stays (Mended s [] (putExt e)) (Same s) (fun _ => False) s.queuedNext s (s.srcG false d fun v s =>
      (s.upd fun x => { x.mend (3 * e.val + 2) with e := x.e.set e v, eu := x.eu.set e s.taint }).finish 4) by
    obtain ⟨⟨p, hp⟩, hbytes⟩ := key.mended
    exact ⟨⟨p.1, p.2, hp⟩, hbytes⟩
  refine h0.srcG hR false d fun w v hv => (hv.upd _ fun hy => ?_).finish hR 4
  obtain ⟨p, hp⟩ := hy
  refine ⟨(w, v.taint), ⟨hp.g, hp.v, hp.k, hp.t, ⟨?_, ?_⟩, hp.tl, hp.spl, hp.ids⟩⟩
  · show v.ctx.e.set e w = s.ctx.e.set e w
    rw [hp.e.1]
    exact Vector.set_set ..
  · show v.ctx.eu.set e v.taint = s.ctx.eu.set e v.taint
    rw [hp.e.2]
    exact Vector.set_set ..

/-! ### Watches -/

theorem Stays.startHold (h : Stays R O A Q s t) : Stays R O A Q s t.startHold := by
  unfold State.startHold
  split
  · exact h
  · exact h.post _

section
variable (hR : Lets R gs)
include hR

theorem Stays.endWatch (h : Stays R O A Q s t) : Stays R O A Q s t.endWatch := (h.cancel _).finish hR 4

theorem Stays.watchOn (h : Stays R O A Q s t) (hd : d ∈ gs) (W V : Word) (limit : Option Nat) : Stays R O A Q s (t.watchOn d W V limit) := by
  unfold State.watchOn
  dsimp only
  iterate 3
    split
    · exact h.trapEa hR _ _
  split
  · have sent : ∀ (z : State) (l : List (Nat × Nat)), Stays R O A Q s z → Stays R O A Q s (z.upd fun x => { x with sent := l }) :=
      fun z l hz => hz.move hR _ (CtxKept.of_eq rfl)
    refine Stays.block hR ?_ _
    split
    · refine Stays.startHold (sent _ _ (Stays.send ?_ _ _ _))
      exact h.same rfl rfl rfl rfl rfl rfl
    · refine sent _ _ (Stays.send ?_ _ _ _)
      exact h.same rfl rfl rfl rfl rfl rfl
  · split
    · refine Stays.endWatch hR (Stays.raiseClk hR (Stays.setG hR ?_ _ _ hd) _)
      exact h.taint _
    · exact Stays.endWatch hR (h.setG hR _ _ hd)
    · exact (h.cancel _).trap hR _
    · exact Stays.endWatch hR (h.poisonG hR _ _ hd)
    · exact h.block hR _

/-! ### Groups -/

theorem Stays.withGroup (h : Stays R O A Q s t) (idx : Nat) {k : Group → State → State}
    (hk : ∀ g, t.group? idx = some g → Stays R O A Q s (k g t)) : Stays R O A Q s (t.withGroup idx k) := by
  unfold State.withGroup
  split
  · exact h.trap hR _
  next g hg =>
    split
    · exact h.trap hR _
    · exact hk g hg

theorem Stays.endGroup (h : Stays R O A Q s t) (hd : d ∈ gs) (v : Word) : Stays R O A Q s (t.endGroup d v) :=
  ((h.cancel _).cancel _).putG hR _ _ _ hd

theorem Stays.groupWait (h : Stays R O A Q s t) (hd : d ∈ gs) (idx n : Nat) (timed again : Bool) :
    Stays R O A Q s (t.groupWait idx n d timed again) := by
  refine h.withGroup hR idx fun g _ => ?_
  split
  · exact h.endGroup hR hd _
  split
  · exact (h.raiseClk hR _).endGroup hR hd _
  split
  · exact h.endGroup hR hd _
  · refine Stays.block hR (Stays.begun hR ?_) _
    split
    · exact h
    split
    · exact h.post _
    · exact h.startHold

end

theorem watch_frame (h : exec (.watch d a b fa fb) s = .next t) : OwnKept s t [d] [] [] ∧ ∀ x, t.byte x = s.byte x := by
  have hR := lets_kept s.ctx [d]
  refine only_of rfl ?_ h
  split
  · exact (stays_only s [d]).finish hR 4
  · exact (stays_only s [d]).srcG hR fa a fun W u hu => hu.srcG hR fb b fun V v hv =>
      hv.checked hR (hv.watchOn hR (List.mem_singleton_self d) _ _ _)

theorem watchT_frame (e : ENum) (h : exec (.watchT d a b fa fb e) s = .next t) : OwnKept s t [d] [] [] ∧ ∀ x, t.byte x = s.byte x := by
  have hR := lets_kept s.ctx [d]
  refine only_of rfl ((stays_only s [d]).srcG hR fa a fun W u hu => hu.srcG hR fb b fun V v hv => hv.checked hR ?_) h
  have ht : Own d s (fun _ => False) (v.touch (3 * e.val + 2)) := hv.same rfl rfl rfl rfl rfl rfl
  exact ht.watchOn hR (List.mem_singleton_self d) _ _ _

theorem gquery_frame (idx : BitVec 8) (h : exec (.gquery d idx) s = .next t) : OwnKept s t [d] [] [] ∧ ∀ x, t.byte x = s.byte x :=
  have hR := lets_kept s.ctx [d]
  only_of rfl ((stays_only s [d]).withGroup hR idx.toNat fun _ _ => (stays_only s [d]).putG hR _ _ _ (List.mem_singleton_self d)) h

theorem gwait_frame (idx : BitVec 8) (h : exec (.gwait d idx) s = .next t) : OwnKept s t [d] [] [] ∧ ∀ x, t.byte x = s.byte x :=
  have hR := lets_kept s.ctx [d]
  only_of rfl ((stays_only s [d]).srcG hR false d fun _ _ hu => hu.checked hR (hu.groupWait hR (List.mem_singleton_self d) _ _ _ _)) h

theorem gwaitT_frame (e : ENum) (idx : BitVec 8) (h : exec (.gwaitT d e idx) s = .next t) :
    OwnKept s t [d] [] [] ∧ ∀ x, t.byte x = s.byte x := by
  have hR := lets_kept s.ctx [d]
  refine only_of rfl ((stays_only s [d]).srcG hR false d fun n u hu => ?_) h
  have ht : Own d s (fun _ => False) (u.touch (3 * e.val + 2)) := hu.same rfl rfl rfl rfl rfl rfl
  exact ht.groupWait hR (List.mem_singleton_self d) _ _ _ _

/-! ### `seq.adv` -/

/-- `seq.adv` changes its word, where the access is allowed, and NEXT words of queued records. -/
theorem seqAdv_kept (h : exec (.seqAdv d a b fa fb) s = .next t) : Kept s t [d] [] [] (s.storedTo .wr (offOf (s.gVal a)) 8) := by
  refine Kept.of_next (Kept.srcFirst fun l => Kept.srcTainted fun l' => ?_) h
  have h0 : Kept s (s.tainted l' s.hurt) [d] [] [] (s.storedTo .wr (offOf (s.gVal a)) 8) := Kept.tainted s l' s.hurt
  have hacc := h0.access (s.tainted l' s.hurt).agent (s.tainted l' s.hurt).sup .wr (offOf (s.gVal a)) 8
  rw [State.access_tainted_eq] at hacc
  refine h0.checked ?_
  dsimp only
  split
  · exact h0.trapEa _ _
  split
  · exact h0.trapEa _ _
  split
  · exact h0.trapEa _ _
  rw [State.access_tainted_eq]
  cases hr : (s.access s.agent s.sup .wr (offOf (s.gVal a)) 8).1 with
  | ok key =>
    dsimp only
    split
    · exact hacc.block _
    · exact Kept.readWriteOne hr (hacc.raiseClk _) fun _ v hv => hv.markAtomic.putG 4 d _ (List.mem_singleton_self d)
  | _ => exact hacc.failAcc _ _

/-! ### `yield`, `park`, `amsg` -/

theorem Stays.beginSuspend (hR : Lets R gs) (h : Stays R O A Q s t) (p : Susp) : Stays R O A Q s (t.beginSuspend p) := by
  have key := h.move hR (fun x => { x with st := .blocked, wait := some .allOps, susp := some p }) (CtxKept.of_eq rfl)
  unfold State.beginSuspend
  dsimp only
  split
  · exact (key.post _).ended
  · exact key.ended

theorem yield_frame {i : Instr} (len : Nat) (hi : exec i s = yieldForm len s) (h : exec i s = .next t) :
    OwnKept s t [] [] [] ∧ ∀ x, t.byte x = s.byte x := by
  have hR := lets_kept s.ctx []
  refine only_of hi ?_ h
  split
  · exact (stays_only s []).finish hR len
  · exact (stays_only s []).checked hR ((stays_only s []).beginSuspend hR _)

theorem park_frame {i : Instr} (len : Nat) (hi : exec i s = parkForm len s) (h : exec i s = .next t) :
    OwnKept s t [] [] [] ∧ ∀ x, t.byte x = s.byte x := by
  have hR := lets_kept s.ctx []
  refine only_of hi ?_ h
  split
  · exact (stays_only s []).trap hR _
  · exact (stays_only s []).checked hR ((stays_only s []).beginSuspend hR _)

theorem amsg_frame (e : ENum) (h : exec (.amsg d a b fa fb e) s = .next t) : OwnKept s t [] [] [] ∧ ∀ x, t.byte x = s.byte x := by
  have hR := lets_kept s.ctx []
  refine only_of rfl ((stays_only s []).srcG hR fa a fun W u hu => hu.srcG hR fb b fun V v hv => hv.srcG hR false d fun x w hw =>
    hw.checked hR ?_) h
  have ht : Stays (CtxKept s.ctx · [] [] []) (Same s) (fun _ => False) s.queuedNext s (w.touch (3 * e.val + 2)) :=
    hw.same rfl rfl rfl rfl rfl rfl
  dsimp only
  split
  · exact ht.trap hR _
  split
  · exact ht.trapEa hR _ _
  split
  · exact ht.trap hR _
  split
  · exact ht.trap hR _
  split
  · exact ht.block hR _
  · refine Stays.finish hR (Stays.markAtomic hR ?_) 4
    split
    · refine Stays.send ?_ _ _ _
      exact ht.cl _ rfl rfl
    · exact ht.cl _ rfl rfl

end Sys2Proof.Machine
/-!
SUPPORT. What creations, arrivals and the end of a continuation leave unchanged (R22 to R29, R36, R185, R190).
-/
namespace Sys2Proof.Machine

variable {R : Ctx → Prop} {O : CtxId → Ctx → Prop} {A Q : Nat → Prop} {gs : List GNum} {s t u : State} {d a b : GNum} {fa fb : Bool}

/-! ### Ready queues -/

/-- Words of a record written. -/
theorem Stays.putRec (h : Stays R O A Q s t) (i w : Nat) (x : Word) (hA : ∀ a, s.recAt i w ≤ a → a < s.recAt i w + 8 → A a) :
    Stays R O A Q s (t.putRec i w x) :=
  h.step (t.putWord_step (t.recAt i w) x) fun a ha => by
    rw [State.recAt, h.par] at ha
    exact hA a ha.1 ha.2

/-- Queues whose records have their NEXT words in `Q`. -/
theorem Stays.queues (h : Stays R O A Q s t) (f : Cluster → Cluster) (hp : (f t.cl).par = t.cl.par)
    (hq : ∀ l ∈ (f t.cl).queues.toList, ∀ e ∈ l, ∀ a, s.recAt e.idx 1 ≤ a → a < s.recAt e.idx 1 + 8 → Q a) :
    Stays R O A Q s (t.updCl f) := by
  refine ⟨h.cur, h.own, h.others, hp.trans h.par, ?_, h.bytes⟩
  rintro a ⟨l, hl, e, he, ha⟩
  rw [State.recAt, show (t.updCl f).cl.par = s.cl.par from hp.trans h.par] at ha
  exact hq l hl e he a ha.1 ha.2

/-- The NEXT words of queued records, by their record. -/
theorem Stays.queued_of (h : Stays R O A Q s t) {l : List QEnt} (hl : l ∈ t.cl.queues.toList) {e : QEnt} (he : e ∈ l) (a : Nat)
    (hlo : s.recAt e.idx 1 ≤ a) (hhi : a < s.recAt e.idx 1 + 8) : Q a := by
  refine h.queued a ⟨l, hl, e, he, ?_⟩
  rw [State.recAt, h.par]
  exact ⟨hlo, hhi⟩

/-- Queues rewritten with no record that was in none. -/
theorem Stays.requeued (h : Stays R O A Q s t) (f : Cluster → Cluster) (hp : (f t.cl).par = t.cl.par)
    (hq : ∀ l ∈ (f t.cl).queues.toList, ∀ e ∈ l, ∃ m ∈ t.cl.queues.toList, e ∈ m) : Stays R O A Q s (t.updCl f) :=
  h.queues f hp fun l hl e he a hlo hhi => by
    obtain ⟨m, hm, hem⟩ := hq l hl e he
    exact h.queued_of hm hem a hlo hhi

section
variable (hQ : ∀ a, Q a → A a)
include hQ

theorem Stays.rechain (h : Stays R O A Q s t) (old : Vector (List QEnt) 8) : Stays R O A Q s (t.rechain old 8) :=
  h.step (State.rechain_step old 8 t le_rfl) fun a ha => hQ a (h.queued a ha)

/-- A record enters its queue, whose tail then names it. -/
theorem Stays.enqueue (h : Stays R O A Q s t) (i : Nat) (woke : Bool) (hi : ∀ a, s.recAt i 0 ≤ a → a < s.recAt i 0 + 64 → Q a) :
    Stays R O A Q s (t.enqueue i woke) := by
  have h1 : Stays R O A Q s (t.setRecState i 1) := h.putRec i 0 _ fun a hlo hhi => hQ a (hi a hlo (by omega))
  unfold State.enqueue
  dsimp only
  generalize t.setRecState i 1 = v at h1
  generalize bits (v.recView i 1) 22 3 = q
  have hold : ∀ e ∈ v.cl.queues[q]?.getD [] ++ [⟨i, v.mod.cycles, woke⟩], ∀ a, s.recAt e.idx 1 ≤ a → a < s.recAt e.idx 1 + 8 → Q a := by
    intro e he a hlo hhi
    rcases List.mem_append.mp he with hm | hm
    · by_cases hq : q < 8
      · rw [Vector.getElem?_eq_getElem hq] at hm
        exact h1.queued_of (by simp) hm a hlo hhi
      · rw [Vector.getElem?_eq_none (by omega)] at hm
        exact absurd hm List.not_mem_nil
    · obtain rfl := List.mem_singleton.mp hm
      simp only [State.recAt] at hlo hhi hi
      exact hi a (by omega) (by omega)
  generalize hl : v.cl.queues[q]?.getD [] = l at hold
  have h2 : Stays R O A Q s (v.updCl fun c => { c with queues := c.queues.setIfInBounds q (l ++ [⟨i, v.mod.cycles, woke⟩]) }) := by
    refine h1.queues _ rfl fun m hm e he a hlo hhi => ?_
    have hm' : m ∈ (v.cl.queues.setIfInBounds q (l ++ [⟨i, v.mod.cycles, woke⟩])).toList := hm
    rw [Vector.toList_setIfInBounds] at hm'
    rcases List.mem_or_eq_of_mem_set hm' with hx | rfl
    · exact h1.queued_of hx he a hlo hhi
    · exact hold e he a hlo hhi
  refine h2.step (State.chain_step _ _) ?_
  rintro a ⟨e, he, ha⟩
  rw [State.recAt, h2.par] at ha
  exact hQ a (hold e (List.mem_of_mem_drop he) a ha.1 ha.2)

end

theorem Stays.posted (h : Stays R O A Q s t) : ∀ l : List CtxId, Stays R O A Q s (l.foldl (fun s c => s.postDispatch c) t) := by
  intro l
  induction l generalizing t with
  | nil => exact h
  | cons c l ih => exact ih (h.postDispatch c)

/-- A record becomes QUEUED, with the decisions that follow. -/
theorem Stays.makeQueued (hQ : ∀ a, Q a → A a) (h : Stays R O A Q s t) (i : Nat) (woke : Bool)
    (hi : ∀ a, s.recAt i 0 ≤ a → a < s.recAt i 0 + 64 → Q a) : Stays R O A Q s (t.makeQueued i woke) := by
  have ho : Stays R O A Q s ((t.enqueue i woke).offerIdle i) := (h.enqueue hQ i woke hi).posted _
  unfold State.makeQueued State.offerPreempt
  dsimp only
  split
  · exact ho.post _
  · exact ho

/-- A suspended record whose event has come. -/
theorem Stays.wakeRecord (hQ : ∀ a, Q a → A a) (h : Stays R O A Q s t) (i : Nat) (woke : Bool)
    (hi : ∀ a, s.recAt i 0 ≤ a → a < s.recAt i 0 + 64 → Q a) : Stays R O A Q s (t.wakeRecord i none woke) := by
  unfold State.wakeRecord
  dsimp only
  generalize hu : t.updCl _ = u
  have hk : Stays R O A Q s u := hu ▸ h.cl _ rfl rfl
  split
  · exact hk.makeQueued hQ i woke hi
  · exact hk

/-! ### Creation -/

/-- A FREE record is one of the pool's. -/
theorem State.freeFrom_lt (s : State) : ∀ (n i j : Nat), s.freeFrom i n = some j → j < i + n
  | 0, _, _, h => by cases h
  | n + 1, i, j, h => by
    rw [State.freeFrom] at h
    split at h
    · cases h
      omega
    · have := State.freeFrom_lt s n (i + 1) j h
      omega

theorem Stays.drawN (h : Stays R O A Q s t) (n : Nat) : Stays R O A Q s (t.drawN n).2 := h.same rfl rfl rfl rfl rfl rfl

/-- The context bound to a record is another one. -/
theorem Stays.bindCtx (hQ : ∀ a, Q a → A a) (hO : ∀ c y, O c y) (h : Stays R O A Q s t) {c : CtxId} (hc : c ≠ s.cur) (i : Nat) (woke : Bool)
    (hi : ∀ a, s.recAt i 0 ≤ a → a < s.recAt i 0 + 64 → Q a) : Stays R O A Q s (t.bindCtx c i woke) := by
  have other : ∀ (z : State) (f : Ctx → Ctx), Stays R O A Q s z → Stays R O A Q s (z.updCtx c f) := fun z f hz =>
    hz.updCtx c f (fun e => absurd e hc) fun _ _ => hO _ _
  have word : ∀ (z : State) (w : Nat) (x : Word), w < 8 → Stays R O A Q s z → Stays R O A Q s (z.putRec i w x) := fun z w x hw hz =>
    hz.putRec i w x fun a hlo hhi => by
      simp only [State.recAt] at hlo hhi hi
      exact hQ a (hi a (by omega) (by omega))
  have ht : Stays R O A Q s (t.takeRecord c i) := by
    unfold State.takeRecord
    exact other _ _ (h.drawN 1024)
  unfold State.bindCtx
  dsimp only
  generalize t.takeRecord c i = v at ht
  have hv := word v 0 (setBits (setBits (v.recWord i 0) 60 4 2) 56 4 0) (by omega) ht
  generalize v.putRec i 0 _ = w at hv
  have hx : Stays R O A Q s (if w.cl.par.twin then w else w.putRec i 1 (setBits (w.recWord i 1) 17 1 0)) :=
    iteInduction (motive := Stays R O A Q s) (fun _ => hv) fun _ => word _ _ _ (by omega) hv
  generalize (if w.cl.par.twin then w else w.putRec i 1 (setBits (w.recWord i 1) 17 1 0)) = x at hx
  refine Stays.rechain hQ (other _ _ ?_) _
  exact hx.requeued _ rfl fun l hl e he => mem_fillVec_filter hl he

/-- A context that may take a record is IDLE (R30). -/
theorem State.idleFor_idle {x : Word} {c : CtxId} (h : s.idleFor x = some c) : (s.getCtx c).st = .idle := by
  rw [State.idleFor] at h
  have hmay := List.find?_some h
  rw [State.mayBind, Bool.and_eq_true] at hmay
  exact of_decide_eq_true hmay.1

/-- The words of a record created (R24 to R26). -/
def State.newWords (s : State) (i : Nat) (m : AMsg) : State :=
  (((((((s.putRec i 0 (newWord0 m)).putRec i 1 (newWord1 m)).putRec i 2 m.arg0).putRec i 3 m.arg1).putRec i 4 0).putRec i 5 0).putRec i 6
    0).putRec i 7 0

/-- What nothing remembers of a record any more when it is created. -/
def State.forgotten (s : State) (i : Nat) : State :=
  s.updCl fun c =>
    { c with
      recOld := c.recOld.filter fun p => p.1 / 8 ≠ i
      marks := mapSet (false, false) c.marks i (false, false)
      ties := c.ties.filter fun p => p.1 ≠ i }

/-- A record made is freed, bound at once, or queued (R25, R26, R403). -/
def State.disposed (s : State) (i : Nat) (m : AMsg) : State :=
  if s.cl.revoked.contains m.ptag.val then s.setRecState i 0
  else match s.idleFor (newWord1 m) with
    | some c => s.bindCtx c i false
    | none => s.makeQueued i false

/-- A creation with a FREE record at hand. -/
theorem State.create_free {i : Nat} {m : AMsg} (h : s.freeRecord = some i) :
    (s.create m).2 = ((s.newWords i m).forgotten i).disposed i m := by
  rw [State.create, h]
  show Prod.snd (if ((s.newWords i m).forgotten i).cl.revoked.contains m.ptag.val then (some i, ((s.newWords i m).forgotten i).setRecState i 0)
    else match ((s.newWords i m).forgotten i).idleFor (newWord1 m) with
      | some c => (some i, ((s.newWords i m).forgotten i).bindCtx c i false)
      | none => (some i, ((s.newWords i m).forgotten i).makeQueued i false)) = _
  generalize (s.newWords i m).forgotten i = z
  rw [State.disposed]
  split
  · dsimp only
  · cases z.idleFor (newWord1 m) <;> dsimp only

theorem State.newWords_ctxs (s : State) (i : Nat) (m : AMsg) : (s.newWords i m).ctxs = s.ctxs := by
  have word : ∀ (z : State) (w : Nat) (x : Word), (z.putRec i w x).ctxs = z.ctxs := fun _ _ _ => rfl
  simp only [State.newWords, word]

theorem State.forgotten_ctxs (s : State) (i : Nat) : (s.forgotten i).ctxs = s.ctxs := rfl

theorem Stays.forgotten (h : Stays R O A Q s t) (i : Nat) : Stays R O A Q s (t.forgotten i) := h.cl _ rfl rfl

/-- The words of a record of the pool. -/
theorem Stays.newWords (hQ : ∀ a, Q a → A a) (h : Stays R O A Q s t) {i : Nat} (m : AMsg)
    (hi : ∀ a, s.recAt i 0 ≤ a → a < s.recAt i 0 + 64 → Q a) : Stays R O A Q s (t.newWords i m) := by
  have word : ∀ (z : State) (w : Nat) (x : Word), w < 8 → Stays R O A Q s z → Stays R O A Q s (z.putRec i w x) := fun z w x hw hz =>
    hz.putRec i w x fun a hlo hhi => by
      simp only [State.recAt] at hlo hhi hi
      exact hQ a (hi a (by omega) (by omega))
  have h4 := word _ 3 m.arg1 (by omega) (word _ 2 m.arg0 (by omega) (word _ 1 (newWord1 m) (by omega) (word t 0 (newWord0 m) (by omega) h)))
  exact word _ 7 0 (by omega) (word _ 6 0 (by omega) (word _ 5 0 (by omega) (word _ 4 0 (by omega) h4)))

/-- A creation writes a record of the pool. -/
theorem Stays.create (hQ : ∀ a, Q a → A a) (hO : ∀ c y, O c y) (h : Stays R O A Q s t) (hidle : t.ctx.st ≠ .idle) (m : AMsg)
    (hi : ∀ i a, i < s.cl.par.contMax → s.recAt i 0 ≤ a → a < s.recAt i 0 + 64 → Q a) : Stays R O A Q s (t.create m).2 := by
  cases hfree : t.freeRecord with
  | none =>
    rw [State.create, hfree]
    exact h
  | some i =>
    have hlt : i < s.cl.par.contMax := by
      have hf := t.freeFrom_lt _ _ _ hfree
      rw [h.par] at hf
      omega
    have hk : Stays R O A Q s ((t.newWords i m).forgotten i) := (h.newWords hQ m fun a => hi i a hlt).forgotten i
    have hctxs : ((t.newWords i m).forgotten i).ctxs = t.ctxs := (State.forgotten_ctxs _ i).trans (t.newWords_ctxs i m)
    rw [State.create_free hfree, State.disposed]
    generalize (t.newWords i m).forgotten i = w at hk hctxs
    split
    · exact hk.putRec i 0 _ fun a hlo hhi => hQ a (hi i a hlt hlo (by omega))
    split
    next c hfor =>
      refine hk.bindCtx hQ hO (fun e => hidle ?_) i false fun a => hi i a hlt
      have hst := State.idleFor_idle hfor
      rw [e] at hst
      rw [State.ctx, h.cur]
      simpa only [State.getCtx, hctxs] using hst
    next => exact hk.makeQueued hQ i false fun a => hi i a hlt

/-! ### What creations and arrivals may write -/

/-- The record that waits for an event. -/
def SuspEvent.idx : SuspEvent → Nat
  | .watch j _ _ => j
  | .group j _ _ => j

/-- A byte of a record of the pool, or of one that waits for an event. -/
def State.recordByte (s : State) (x : Nat) : Prop :=
  ∃ i, (i < s.cl.par.contMax ∨ ∃ e ∈ s.cl.suspended, e.idx = i) ∧ s.recAt i 0 ≤ x ∧ x < s.recAt i 0 + 64

/-- A byte of a group's round word (R37). -/
def State.roundByte (s : State) (idx x : Nat) : Prop := ∃ g, s.group? idx = some g ∧ g.rword ≤ x ∧ x < g.rword + 8

/-- The own context keeps all but d; records, NEXT words and bytes in `P` may have changed. -/
abbrev Works (d : GNum) (s : State) (P : Nat → Prop) (t : State) : Prop :=
  Stays (CtxKept s.ctx · [d] [] []) (fun _ _ => True) (fun x => (s.recordByte x ∨ s.queuedNext x) ∨ P x)
    (fun x => s.recordByte x ∨ s.queuedNext x) s t

/-- The words of the group's round lie among the bytes that may change. -/
def InRound (P : Nat → Prop) (idx : Nat) (t : State) : Prop := ∀ g, t.group? idx = some g → ∀ a, g.rword ≤ a → a < g.rword + 8 → P a

theorem State.group?_updGroup (s : State) (idx : Nat) (f : Group → Group) : (s.updGroup idx f).group? idx = (s.group? idx).map f := by
  unfold State.group? State.updGroup
  have hp : ((fun g : Nat × Group => decide (g.1 = idx)) ∘ fun g => if g.1 = idx then (g.1, f g.2) else g) = fun g => decide (g.1 = idx) := by
    funext g
    simp only [Function.comp]
    split <;> rfl
  rw [State.updCl_cl, List.find?_map, hp, Option.map_map, Option.map_map]
  cases hf : s.cl.groups.find? fun g => decide (g.1 = idx) with
  | none => rfl
  | some g =>
    have hg : g.1 = idx := by simpa using List.find?_some hf
    simp [hg]

theorem InRound.updGroup {P : Nat → Prop} {idx : Nat} (h : InRound P idx t) (f : Group → Group) (hf : ∀ g, (f g).rword = g.rword) :
    InRound P idx (t.updGroup idx f) := by
  intro g hg a hlo hhi
  rw [State.group?_updGroup] at hg
  obtain ⟨g', hg', rfl⟩ := Option.map_eq_some_iff.mp hg
  rw [hf] at hlo hhi
  exact h g' hg' a hlo hhi

namespace Works

variable {P : Nat → Prop}

theorem refl : Works d s P s := ⟨rfl, CtxKept.refl _ _ _ _, fun _ _ => trivial, rfl, fun _ h => .inr h, fun _ _ => rfl⟩

theorem bytes_of (h : Works d s P t) : CtxKept s.ctx t.ctx [d] [] [] ∧ ∀ x, ¬s.recordByte x → ¬s.queuedNext x → ¬P x → t.byte x = s.byte x :=
  ⟨h.own, fun x hr hq hp => h.bytes x fun hx => hx.elim (fun hx => hx.elim hr hq) hp⟩

theorem putG (h : Works d s P t) (n : Nat) (v : Word) : Works d s P (t.putG n d v) :=
  Stays.putG (lets_kept _ _) h _ _ _ (List.mem_singleton_self d)

theorem updGroup (h : Works d s P t) (idx : Nat) (f : Group → Group) : Works d s P (t.updGroup idx f) := h.cl _ rfl rfl

/-- A record that the pool holds or that waits for an event. -/
theorem wakeRecord (h : Works d s P t) {i : Nat} (woke : Bool) (hi : i < s.cl.par.contMax ∨ ∃ e ∈ s.cl.suspended, e.idx = i) :
    Works d s P (t.wakeRecord i none woke) :=
  Stays.wakeRecord (fun _ => .inl) h i woke fun _ hlo hhi => .inl ⟨i, hi, hlo, hhi⟩

theorem wakeGroup (h : Works d s P t) (hs : t.cl.suspended = s.cl.suspended) (idx : Nat) (woke : Bool) : Works d s P (t.wakeGroup idx woke) := by
  have wake : ∀ (l : List Nat) (z : State), (∀ i ∈ l, ∃ e ∈ s.cl.suspended, e.idx = i) → Works d s P z →
      Works d s P (l.foldl (fun s i => s.wakeRecord i none woke) z) := by
    intro l
    induction l with
    | nil => exact fun _ _ hz => hz
    | cons i l ih =>
      exact fun z hl hz => ih _ (fun j hj => hl j (List.mem_cons_of_mem _ hj)) (hz.wakeRecord woke (.inr (hl i List.mem_cons_self)))
  refine wake _ _ (fun i hi => ?_) h
  obtain ⟨e, he, hei⟩ := List.mem_filterMap.mp hi
  refine ⟨e, hs ▸ he, ?_⟩
  cases e with
  | watch => cases hei
  | group j g n =>
    dsimp only at hei
    split at hei
    · cases hei
      rfl
    · cases hei

theorem advancePhase (h : Works d s P t) (hs : t.cl.suspended = s.cl.suspended) (idx time : Nat) : Works d s P (t.advancePhase idx time) :=
  wakeGroup (h.updGroup idx _) hs idx true

theorem sendRound (h : Works d s P t) (idx : Nat) : Works d s P (t.sendRound idx) := by
  unfold State.sendRound
  split
  · exact h
  · dsimp only
    refine Stays.send (updGroup ?_ _ _) _ _ _
    exact h.same rfl rfl rfl rfl rfl rfl

theorem startRound (h : Works d s P t) {idx : Nat} (hr : InRound P idx t) (c : Nat) : Works d s P (t.startRound idx c) := by
  unfold State.startRound
  split
  · exact h
  next g hg =>
    dsimp only
    split
    · exact h
    · have hst : Works d s P (t.stampWrite (granule g.rword) (t.writeTime (granule g.rword) c)) := h.same rfl rfl rfl rfl rfl rfl
      refine sendRound (updGroup (hst.step (State.writeOwn_step _ _ _ _ _) fun a ha => ?_) _ _) _
      rcases ha with ⟨hlo, hhi⟩ | hq
      · rw [toLe_length] at hhi
        exact .inr (hr g hg a hlo hhi)
      · exact .inl (hst.queued a hq)

theorem partDone (h : Works d s P t) (hs : t.cl.suspended = s.cl.suspended) {idx : Nat} (hr : InRound P idx t) :
    Works d s P (t.partDone idx) := by
  unfold State.partDone
  split
  · exact h
  · dsimp only
    split
    · exact advancePhase (h.updGroup _ _) hs _ _
    · exact startRound (h.updGroup _ _) (hr.updGroup _ (by exact fun _ => rfl)) _

/-- An arrival in the group (R262). -/
theorem arrive {idx : Nat} (hr : InRound P idx s) {k : Nat → State → State} (hk : ∀ n u, Works d s P u → Works d s P (k n u)) :
    Works d s P (s.arrive idx k) := by
  have hR := lets_kept s.ctx [d]
  have h0 : Works d s P s := refl
  refine h0.withGroup hR idx fun g hg => ?_
  split
  · exact h0.trap hR _
  split
  · exact h0.trap hR _
  dsimp only
  split
  · exact h0.trap hR _
  have hm : Works d s P ((s.setClk (s.ctx.clk + 1)).markAtomic) := Stays.markAtomic hR (h0.setClk hR _)
  have hu := hm.updGroup idx fun g => { g with lcount := g.lcount + 1, arrT := max g.arrT (s.ctx.clk + 1) }
  split
  · exact hk _ _ (hu.partDone rfl (InRound.updGroup (show InRound P idx (s.setClk (s.ctx.clk + 1)).markAtomic from hr) _ (by exact fun _ => rfl)))
  · exact hk _ _ hu

end Works

/-! ### The instructions -/

/-- The end of a proof about records and NEXT words. -/
theorem works_of {i : Instr} {P : Nat → Prop} (hi : exec i s = .next u) (hu : Works d s P u) (h : exec i s = .next t) :
    CtxKept s.ctx t.ctx [d] [] [] ∧ ∀ x, ¬s.recordByte x → ¬s.queuedNext x → ¬P x → t.byte x = s.byte x := by
  have e : u = t := by simpa [hi] using h
  exact e ▸ hu.bytes_of

theorem inRound_refl (s : State) (idx : Nat) : InRound (s.roundByte idx) idx s := fun g hg _ hlo hhi => ⟨g, hg, hlo, hhi⟩

theorem garrive_frame (idx : BitVec 8) (h : exec (.garrive d idx) s = .next t) :
    CtxKept s.ctx t.ctx [d] [] [] ∧ ∀ x, ¬s.recordByte x → ¬s.queuedNext x → ¬s.roundByte idx.toNat x → t.byte x = s.byte x :=
  works_of rfl (Stays.checked (lets_kept _ _) Works.refl (Works.arrive (inRound_refl s _) fun _ _ hu => hu.putG 4 _)) h

theorem gsync_frame (idx : BitVec 8) (h : exec (.gsync d idx) s = .next t) :
    CtxKept s.ctx t.ctx [d] [] [] ∧ ∀ x, ¬s.recordByte x → ¬s.queuedNext x → ¬s.roundByte idx.toNat x → t.byte x = s.byte x := by
  have hR := lets_kept s.ctx [d]
  have hd := List.mem_singleton_self d
  have h0 : Works d s (s.roundByte idx.toNat) s := Works.refl
  have arrived : ∀ (z : State) (n : Nat), Works d s (s.roundByte idx.toNat) z →
      Works d s (s.roundByte idx.toNat) (z.upd fun x => { x with arrived := some n }) := fun z n hz => hz.move hR _ (CtxKept.of_eq rfl)
  refine works_of rfl (h0.checked hR ?_) h
  split
  · exact h0.srcG hR false d fun n u hu => (arrived _ _ hu).groupWait hR hd _ _ _ _
  · split
    · exact h0.groupWait hR hd _ _ _ _
    · exact Works.arrive (inRound_refl s _) fun n u hu => (arrived _ _ (hu.setG hR d _ hd)).groupWait hR hd _ _ _ _

/-- A creation by `spawn`. -/
theorem Works.spawnNew {P : Nat → Prop} (h : Works d s P t) (hidle : t.ctx.st ≠ .idle) (W V x D : Word) :
    Works d s P (t.spawnNew d W V x D) := by
  have hR := lets_kept s.ctx [d]
  unfold State.spawnNew
  dsimp only
  split
  · exact h.trapEa hR _ _
  split
  · exact h.trap hR _
  · have hz : Works d s P ({ t with draws := t.draws + 1 }.raiseCclk t.ctx.clk) := h.same rfl rfl rfl rfl rfl rfl
    have made : ∀ (z : State) (m : AMsg), Works d s P z → z.ctx.st ≠ .idle → Works d s P (z.create m).2 := fun z m hz hi =>
      Stays.create (fun _ => .inl) (fun _ _ => trivial) hz hi m fun i a hi hlo hhi => .inl ⟨i, .inl hi, hlo, hhi⟩
    exact Works.putG (Stays.markAtomic hR (made _ _ hz hidle)) 4 _

/-- A waking by `spawn`. -/
theorem Works.spawnWake {P : Nat → Prop} (h : Works d s P t) (W : Word) : Works d s P (t.spawnWake d W) := by
  have hR := lets_kept s.ctx [d]
  unfold State.spawnWake
  dsimp only
  split
  · exact h.trap hR _
  next hin =>
    have hlt : bits W 0 16 < s.cl.par.contMax := by
      rw [← h.par]
      simp only [Bool.or_eq_true, decide_eq_true_eq, not_or, not_le] at hin
      exact hin.2
    split
    · refine Works.putG (Stays.markAtomic hR (Works.wakeRecord ?_ true (.inl hlt))) 4 0
      exact h.cl _ rfl rfl
    · exact Works.putG (h.markAtomic hR) 4 1

theorem spawn_frame (e : ENum) (hidle : s.ctx.st ≠ .idle) (h : exec (.spawn d a b fa fb e) s = .next t) :
    CtxKept s.ctx t.ctx [d] [] [] ∧ ∀ x, ¬s.recordByte x → ¬s.queuedNext x → ¬False → t.byte x = s.byte x := by
  have hR := lets_kept s.ctx [d]
  have h0 : ∀ l, Works d s (fun _ => False) (s.tainted l s.hurt) := fun l => Stays.same Works.refl rfl rfl rfl rfl rfl rfl
  have src : ∀ (l : List Nat) (f : Bool) (r : GNum) (k : Word → State → State), (∀ l', Works d s (fun _ => False) (k (s.gVal r) (s.tainted l' s.hurt))) →
      Works d s (fun _ => False) ((s.tainted l s.hurt).srcG f r k) := fun l f r k hk =>
    State.srcG_read _ f r k hk (fun _ _ _ _ => (h0 l).trapAux hR _ _ _ _) fun _ => (h0 l).block hR _
  refine works_of rfl (src s.taint fa a _ fun l => src l fb b _ fun l => src l false d _ fun l => (h0 l).checked hR ?_) h
  have ht : Works d s (fun _ => False) ((s.tainted l s.hurt).touch (3 * e.val + 2)) := (h0 l).same rfl rfl rfl rfl rfl rfl
  dsimp only
  split
  · exact ht.trap hR _
  split
  · exact ht.spawnNew hidle _ _ _ _
  · exact ht.spawnWake _

/-- What `exit` leaves of its own registers. -/
def AllHeld (s : State) (y : Ctx) : Prop := y.g = s.ctx.g ∧ y.v = s.ctx.v ∧ y.k = s.ctx.k ∧ y.t = s.ctx.t ∧ y.e = s.ctx.e

theorem lets_allHeld (s : State) : Lets (AllHeld s) [] := by
  rintro y z ⟨hg, hv, hk, ht, he⟩ h
  obtain ⟨eg, ev, ek⟩ := lets_held s y z ⟨hg, hv, hk⟩ h
  exact ⟨eg, ev, ek, h.t.1.trans ht, h.e.1.trans he⟩

/-- `exit` frees its record (R29). -/
theorem exit_frame {i : Instr} (hi : exec i s = exitForm s) (h : exec i s = .next t) :
    (t.ctx.g = s.ctx.g ∧ t.ctx.v = s.ctx.v ∧ t.ctx.k = s.ctx.k ∧ t.ctx.t = s.ctx.t ∧ t.ctx.e = s.ctx.e) ∧
      (∀ c, c ≠ s.cur → t.getCtx c = s.getCtx c) ∧
      ∀ x, (∀ b, s.ctx.bound = some b → ¬(s.recAt b.idx 0 ≤ x ∧ x < s.recAt b.idx 0 + 8)) → ¬s.queuedNext x → t.byte x = s.byte x := by
  have hR := lets_allHeld s
  let A (x : Nat) : Prop := (∃ b, s.ctx.bound = some b ∧ s.recAt b.idx 0 ≤ x ∧ x < s.recAt b.idx 0 + 8) ∨ s.queuedNext x
  have h0 : Stays (AllHeld s) (Same s) A s.queuedNext s s := Stays.refl ⟨rfl, rfl, rfl, rfl, rfl⟩ fun _ => rfl
  suffices key : ∃ u, exitForm s = .next u ∧ Stays (AllHeld s) (Same s) A s.queuedNext s u by
    obtain ⟨u, hu, k⟩ := key
    have e : u = t := by simpa [hi, hu] using h
    subst e
    exact ⟨k.own, k.others, fun x hb hq => k.bytes x fun hx => hx.elim (fun ⟨b, he, hx⟩ => hb b he hx) hq⟩
  cases hs : s.sup with
  | true => exact ⟨_, exitForm_sup hs, h0.trap hR _⟩
  | false =>
    cases ho : s.opsDone s.cur with
    | false => exact ⟨_, exitForm_waits hs ho, h0.block hR _⟩
    | true =>
      refine ⟨_, exitForm_ends hs ho, ?_⟩
      have hraised : ∀ c, Stays (AllHeld s) (Same s) A s.queuedNext s ((s.raiseClk (s.opsTime s.cur)).raiseCclk c) := fun c =>
        Stays.cl (h0.raiseClk hR _) _ rfl rfl
      refine Stays.same (Stays.toIdle ?_ s.cur (fun _ y hy => hy) fun hne => absurd rfl hne) rfl rfl rfl rfl rfl rfl
      split
      · exact hraised _
      next b hb =>
        refine (hraised _).step (State.freeRec_step _ _) fun x hx => ?_
        rcases hx with hx | hq
        · exact .inl ⟨b, hb, hx⟩
        · exact .inr hq

/-- Settles O33: the frame of each instruction, from what its operations leave alone. -/
theorem syncFrame : Obligations.SyncFrame := by
  unfold Obligations.SyncFrame
  refine ⟨fun s t d a b fa fb l e idx => ?_, fun s t d a b fa fb e idx hidle => ?_⟩
  · exact ⟨tlwait_frame l, tltest_frame l, tlrd_frame l, tlhigh_frame l, tlerr_frame l, erd_frame e, ewr_frame e, gquery_frame idx,
      watch_frame, watchT_frame e, fun h => ⟨(seqAdv_kept h).own, (seqAdv_kept h).bytes⟩,
      transfer_frame .pull (some (a, fa)) (some (b, fb)) none e rfl, transfer_frame .pull2d (some (a, fa)) (some (b, fb)) (some d) e rfl,
      transfer_frame .pullG none (some (b, fb)) (some d) e rfl, transfer_frame .pullAdd (some (a, fa)) (some (b, fb)) none e rfl,
      transfer_frame .copy (some (a, fa)) (some (b, fb)) none e rfl, transfer_frame .hget (some (a, fa)) (some (b, fb)) none e rfl,
      transfer_frame .hsend (some (a, fa)) (some (b, fb)) none e rfl⟩
  · exact ⟨yield_frame 4 rfl, yield_frame 2 rfl, park_frame 4 rfl, park_frame 2 rfl, amsg_frame e, gwait_frame idx, gwaitT_frame e idx,
      spawn_frame e hidle, garrive_frame idx, gsync_frame idx, exit_frame rfl, exit_frame rfl⟩

end Sys2Proof.Machine
